-- ==== Sys2Proof/Word.lean ====
section
/-! DEFINITION. The word types of the device: a byte, a 32-bit instruction word, a 64-bit scalar word and a vector
or mask register of 8,192 bits (spec/01, R15 and R17). -/

namespace Sys2Proof

/-- A byte. -/
abbrev Byte := BitVec 8

/-- Bytes in ascending order of address or of arrival. -/
abbrev Bytes := List Byte

/-- A list of numbers. -/
abbrev Nats := List Nat

/-- An instruction word: every ZV6 instruction is 32 bits wide (R52). -/
abbrev W32 := BitVec 32

/-- A scalar register's contents (R15). -/
abbrev Word := BitVec 64

/-- The contents of one vector register or of one mask register (R17). -/
abbrev VReg := BitVec 8192

end Sys2Proof
end

