-- ==== Sys2Proof/Config.lean ====
section
/-! DEFINITION. The values the spec leaves open: constants without a body, so that nothing can be proved of them but
what holds of every value (assumption 3). Each is applied to a counter of the state or to the operands it depends on. -/

namespace Sys2Proof.Config

/-- Which of several active elements of one vstxa that name a location is performed there (R173): applied to the
counter `fresh` and the address, taken modulo their number. -/
opaque duplicate : Nat → Nat → Nat

/-- A value the spec leaves open, by the counter `fresh`; its use takes the bits it needs. -/
opaque freeNat : Nat → Nat

/-- The private half of the alias key, which depends on the identity key and on the measurement of Novnum's firmware
(R413, assumption 39). -/
opaque aliasKey : BitVec 384 → Nat

/-- The secret number of an ECDSA signature (FIPS 186-5) of the alias key with a measurement over bytes (R410, R413,
assumption 39). -/
opaque signSecret : BitVec 384 → List Byte → Nat

/-- The identity certificate and the alias certificate of a start with a measurement of Novnum's firmware (R412, R413,
assumption 39). -/
opaque certificates : BitVec 384 → List Byte

end Sys2Proof.Config
end

