-- ==== Sys2Proof/Syntax/Fields.lean ====
section
/-! DEFINITION. The operand fields of instruction words, kept as the spec lays them out (spec/03, R54, R56, R58,
R59), and the standard scalar instructions as one type (spec/01, R15; spec/03, R52). -/

namespace Sys2Proof

/-- The fields of a word of majors A, F, P (R54) and M, K, G (R59). `k` is msk [29:28], `t` is dt [27], `f` is
form or aux [26:25], `b` is vs2 or b [24:20], `a` is vs1, rs1, imm5, sub-operation or a [19:15], `d` is vd or
d [11:7]. -/
structure Fld where
  k : BitVec 2
  t : BitVec 1
  f : BitVec 2
  b : BitVec 5
  a : BitVec 5
  d : BitVec 5
  deriving DecidableEq, Repr

/-- The fields of an S-format word (R56): `x` is X [27:25]. -/
structure SFld where
  x : BitVec 3
  rs2 : BitVec 5
  rs1 : BitVec 5
  rd : BitVec 5
  deriving DecidableEq, Repr

/-- The fields of a lease word (R58): `n` is n − 1, `words` is words − 1; `z` is the must-be-zero field [23:20]. -/
structure LeaseFld where
  n : BitVec 8
  z : BitVec 4
  rs1 : BitVec 5
  words : BitVec 5
  deriving DecidableEq, Repr

/-- The fields of a vrep word (R58): `n` is n − 1, `s` the step, `k` is k − 1; `z` is the must-be-zero bit [7]. -/
structure VrepFld where
  n : BitVec 12
  s : BitVec 5
  k : BitVec 4
  z : BitVec 1
  deriving DecidableEq, Repr

/-- The fields of a pfx word (R58, R25); `z` and `y` are the must-be-zero fields [31:26] and [19:15]. -/
structure PfxFld where
  z : BitVec 6
  dcv : BitVec 1
  dreg : BitVec 5
  y : BitVec 5
  mreg : BitVec 3
  inv : BitVec 1
  zero : BitVec 1
  deriving DecidableEq, Repr

/-- The fields of a configuration word (R63): bits [27:25] and [24:20] are read by `vcfg` as zero and rs2, by
`vcfgi` as the two parts of imm8. -/
structure CfgFld where
  hi : BitVec 3
  lo : BitVec 5
  rs1 : BitVec 5
  rd : BitVec 5
  deriving DecidableEq, Repr

/-- Conditions of the standard branches. -/
inductive BrCond | eq | ne | lt | ge | ltu | geu
  deriving DecidableEq, Repr

/-- Widths and extensions of the standard integer loads. -/
inductive LdKind | lb | lh | lw | ld | lbu | lhu | lwu
  deriving DecidableEq, Repr

/-- Widths of the standard integer stores. -/
inductive StKind | sb | sh | sw | sd
  deriving DecidableEq, Repr

/-- Register-immediate operations with a 12-bit immediate. -/
inductive ImmOp | addi | slti | sltiu | xori | ori | andi | addiw
  deriving DecidableEq, Repr

/-- Shifts and rotates by an immediate, with slli.uw of Zba and the single-bit rotate of Zbb. -/
inductive ShOp | slli | srli | srai | slliw | srliw | sraiw | slliUw | rori | roriw
  deriving DecidableEq, Repr

/-- Register-register operations of the base set, M, Zba and Zbb. -/
inductive RegOp
  | add | sub | sll | slt | sltu | xor | srl | sra | or | and
  | addw | subw | sllw | srlw | sraw
  | mul | mulh | mulhsu | mulhu | div | divu | rem | remu
  | mulw | divw | divuw | remw | remuw
  | addUw | sh1add | sh2add | sh3add | sh1addUw | sh2addUw | sh3addUw
  | andn | orn | xnor | max | maxu | min | minu | rol | ror | rolw | rorw
  deriving DecidableEq, Repr

/-- One-operand operations of Zbb. -/
inductive UnOp
  | clz | ctz | cpop | clzw | ctzw | cpopw | sextB | sextH | zextH | orcB | rev8
  deriving DecidableEq, Repr

/-- The scalar floating-point formats of F and D. -/
inductive FpFmt | s | d
  deriving DecidableEq, Repr

/-- Fused multiply-add forms. -/
inductive FmaOp | madd | msub | nmsub | nmadd
  deriving DecidableEq, Repr

/-- Two-operand floating-point operations that round. -/
inductive FpOp | add | sub | mul | div
  deriving DecidableEq, Repr

/-- Two-operand floating-point operations that do not round and write an f register. -/
inductive FpSel | sgnj | sgnjn | sgnjx | min | max
  deriving DecidableEq, Repr

/-- Floating-point compares. -/
inductive FpCmp | le | lt | eq
  deriving DecidableEq, Repr

/-- The integer formats of the floating-point conversions. -/
inductive IntFmt | w | wu | l | lu
  deriving DecidableEq, Repr

/-- The standard scalar instructions of R15 that have no row of their own: RV64I, M, F, D, Zba, Zbb, FENCE, ECALL
and EBREAK. Immediates are kept as the encoded bits, without the implied low zero of branches and jumps. -/
inductive Rv
  | lui (rd : BitVec 5) (imm : BitVec 20)
  | auipc (rd : BitVec 5) (imm : BitVec 20)
  | jal (rd : BitVec 5) (imm : BitVec 20)
  | jalr (rd rs1 : BitVec 5) (imm : BitVec 12)
  | branch (c : BrCond) (rs1 rs2 : BitVec 5) (imm : BitVec 12)
  | load (w : LdKind) (rd rs1 : BitVec 5) (imm : BitVec 12)
  | store (w : StKind) (rs2 rs1 : BitVec 5) (imm : BitVec 12)
  | opImm (o : ImmOp) (rd rs1 : BitVec 5) (imm : BitVec 12)
  | shImm (o : ShOp) (rd rs1 : BitVec 5) (sh : BitVec 6)
  | op (o : RegOp) (rd rs1 rs2 : BitVec 5)
  | unary (o : UnOp) (rd rs1 : BitVec 5)
  | fence (fm pred succ : BitVec 4) (rs1 rd : BitVec 5)
  | ecall
  | ebreak
  | fload (p : FpFmt) (rd rs1 : BitVec 5) (imm : BitVec 12)
  | fstore (p : FpFmt) (rs2 rs1 : BitVec 5) (imm : BitVec 12)
  | fma (o : FmaOp) (p : FpFmt) (rd rs1 rs2 rs3 : BitVec 5) (rm : BitVec 3)
  | farith (o : FpOp) (p : FpFmt) (rd rs1 rs2 : BitVec 5) (rm : BitVec 3)
  | fsqrt (p : FpFmt) (rd rs1 : BitVec 5) (rm : BitVec 3)
  | fsel (o : FpSel) (p : FpFmt) (rd rs1 rs2 : BitVec 5)
  | fcmp (o : FpCmp) (p : FpFmt) (rd rs1 rs2 : BitVec 5)
  | fclass (p : FpFmt) (rd rs1 : BitVec 5)
  | fcvtToInt (i : IntFmt) (p : FpFmt) (rd rs1 : BitVec 5) (rm : BitVec 3)
  | fcvtFromInt (i : IntFmt) (p : FpFmt) (rd rs1 : BitVec 5) (rm : BitVec 3)
  | fcvtSD (rd rs1 : BitVec 5) (rm : BitVec 3)
  | fcvtDS (rd rs1 : BitVec 5) (rm : BitVec 3)
  | fmvToX (p : FpFmt) (rd rs1 : BitVec 5)
  | fmvFromX (p : FpFmt) (rd rs1 : BitVec 5)
  deriving DecidableEq, Repr

/-- The operations of the Zicsr instructions. -/
inductive CsrOp | rw | rs | rc
  deriving DecidableEq, Repr

/-- The operations of the A extension's AMO instructions. -/
inductive AmoOp | swap | add | xor | and | or | min | max | minu | maxu
  deriving DecidableEq, Repr

/-- Widths of the A extension's accesses. -/
inductive AmoW | w32 | w64
  deriving DecidableEq, Repr

end Sys2Proof
end

