-- ==== Sys2Proof/Syntax.lean ====
section
/-! DEFINITION. The steps of the device: one constructor for each row of spec/opcode_table.json, that is one for
each instruction and one for each event of a hardware unit or of the outside world (spec/95). An event has no word;
its arguments say which hart, unit or message it concerns and what the outside world brings. -/

namespace Sys2Proof

/-- One instruction or event of spec/opcode_table.json. -/
inductive Instr
  /-- A standard RV64IMAFD, Zicsr, Zifencei, Zba or Zbb instruction is executed by the scalar unit with the device's stated choices. (R15) -/
  | riscvInstruction (op : Rv)
  /-- A CSR instruction reads or writes a device CSR; reads and writes of VELEM, VFFLAGS or VPFX first wait for earlier vector instructions to retire or stop. (R24) -/
  | csrAccess (o : CsrOp) (imm : Bool) (csr : BitVec 12) (src : BitVec 5) (rd : BitVec 5)
  /-- A load-reserved sets a reservation on its aligned 8-byte word and is performed at the home, the bank or the remote home. (R292) -/
  | lr (sz : AmoW) (aq : BitVec 1) (rl : BitVec 1) (rs1 : BitVec 5) (rd : BitVec 5)
  /-- A store-conditional succeeds only while its reservation holds and is performed where its target lives. (R292) -/
  | sc (sz : AmoW) (aq : BitVec 1) (rl : BitVec 1) (rs2 : BitVec 5) (rs1 : BitVec 5) (rd : BitVec 5)
  /-- A RISC-V atomic memory operation is performed at the home slice, the bank or the remote home, and its store commits like any store. (R292) -/
  | amo (o : AmoOp) (sz : AmoW) (aq : BitVec 1) (rl : BitVec 1) (rs2 : BitVec 5) (rs1 : BitVec 5) (rd : BitVec 5)
  /-- fence.i discards the hart's fetch buffer, held run-ahead and words fetched past it. (R169) -/
  | fenceI (imm : BitVec 12) (rs1 : BitVec 5) (rd : BitVec 5)
  /-- sfence.vma drains the vector queue, orders earlier stores before later walks, and removes matching L1 and L2 TLB entries of the core and cluster. (R277) -/
  | sfenceVma (rs2 : BitVec 5) (rs1 : BitVec 5)
  /-- WFI stalls the hart until an interrupt enabled at any level is pending. (R15) -/
  | wfi
  /-- An mret or sret resumes at xEPC, re-reading the vrep body when the value is a repetition position. (R90) -/
  | xret (fromM : Bool)
  /-- Element-wise integer add. (R91) -/
  | vadd (w : Fld)
  /-- Element-wise integer subtract a minus b. (R91) -/
  | vsub (w : Fld)
  /-- Element-wise reverse subtract b minus a. (R91) -/
  | vrsub (w : Fld)
  /-- Add with carry-in from and carry-out to the mask named by msk. (R93) -/
  | vadc (w : Fld)
  /-- Subtract with borrow-in from and borrow-out to the mask named by msk. (R93) -/
  | vsbc (w : Fld)
  /-- Element-wise multiply, low SEW bits. (R91) -/
  | vmul (w : Fld)
  /-- Element-wise signed multiply, high SEW bits. (R91) -/
  | vmulh (w : Fld)
  /-- Element-wise unsigned multiply, high SEW bits. (R91) -/
  | vmulhz (w : Fld)
  /-- Multiply and add into vd. (R91) -/
  | vmacc (w : Fld)
  /-- Multiply and subtract from vd. (R91) -/
  | vnmsac (w : Fld)
  /-- Signed division rounded toward zero. (R92) -/
  | vdiv (w : Fld)
  /-- Unsigned division. (R92) -/
  | vdivz (w : Fld)
  /-- Signed remainder. (R92) -/
  | vrem (w : Fld)
  /-- Unsigned remainder. (R92) -/
  | vremz (w : Fld)
  /-- Signed minimum. (R91) -/
  | vmin (w : Fld)
  /-- Unsigned minimum. (R91) -/
  | vminz (w : Fld)
  /-- Signed maximum. (R91) -/
  | vmax (w : Fld)
  /-- Unsigned maximum. (R91) -/
  | vmaxz (w : Fld)
  /-- Signed saturating add. (R92) -/
  | vsadd (w : Fld)
  /-- Unsigned saturating add. (R92) -/
  | vsaddz (w : Fld)
  /-- Signed saturating subtract. (R92) -/
  | vssub (w : Fld)
  /-- Unsigned saturating subtract. (R92) -/
  | vssubz (w : Fld)
  /-- Signed rounding average. (R91) -/
  | vavg (w : Fld)
  /-- Absolute difference of signed elements. (R91) -/
  | vabsd (w : Fld)
  /-- Bitwise AND. (R91) -/
  | vand (w : Fld)
  /-- Bitwise OR. (R91) -/
  | vor (w : Fld)
  /-- Bitwise XOR. (R91) -/
  | vxor (w : Fld)
  /-- Bitwise a AND NOT b. (R91) -/
  | vandn (w : Fld)
  /-- Shift left logical. (R91) -/
  | vsll (w : Fld)
  /-- Shift right logical. (R91) -/
  | vsrl (w : Fld)
  /-- Shift right arithmetic. (R91) -/
  | vsra (w : Fld)
  /-- Rotate left. (R91) -/
  | vrol (w : Fld)
  /-- Floating add, rounded once. (R112) -/
  | vfadd (w : Fld)
  /-- Floating subtract. (R112) -/
  | vfsub (w : Fld)
  /-- Floating multiply. (R112) -/
  | vfmul (w : Fld)
  /-- Floating divide. (R112) -/
  | vfdiv (w : Fld)
  /-- Fused a times b plus vd. (R113) -/
  | vfmadd (w : Fld)
  /-- Fused a times b minus vd. (R113) -/
  | vfmsub (w : Fld)
  /-- Fused negated product minus vd. (R113) -/
  | vfnmadd (w : Fld)
  /-- Fused negated product plus vd. (R113) -/
  | vfnmsub (w : Fld)
  /-- Floating minimum returning an operand unchanged. (R115) -/
  | vfmin (w : Fld)
  /-- Floating maximum returning an operand unchanged. (R115) -/
  | vfmax (w : Fld)
  /-- Sign injection from b. (R116) -/
  | vfsgnj (w : Fld)
  /-- Inverted sign injection from b. (R116) -/
  | vfsgnjn (w : Fld)
  /-- XOR sign injection. (R116) -/
  | vfsgnjx (w : Fld)
  /-- Floating equal compare into a mask. (R118) -/
  | vfceq (w : Fld)
  /-- Floating less-than compare into a mask. (R118) -/
  | vfclt (w : Fld)
  /-- Floating less-or-equal compare into a mask. (R118) -/
  | vfcle (w : Fld)
  /-- Ordered floating sum reduction into element 0, stoppable at element boundaries. (R124) -/
  | vfredsum (w : Fld)
  /-- Canonical tree floating sum reduction. (R123) -/
  | vfredtree (w : Fld)
  /-- Floating minimum reduction. (R123) -/
  | vfredmin (w : Fld)
  /-- Floating maximum reduction. (R123) -/
  | vfredmax (w : Fld)
  /-- Dot product of MX blocks accumulated into FP32 elements. (R128) -/
  | mxdot (w : Fld)
  /-- Planar integer add modulo 2^w. (R130) -/
  | pladd (w : Fld)
  /-- Planar integer subtract. (R130) -/
  | plsub (w : Fld)
  /-- Planar integer multiply, low w bits. (R130) -/
  | plmul (w : Fld)
  /-- Planar dot product accumulated into a 64-bit element. (R131) -/
  | pldot (w : Fld)
  /-- Planar compare under a condition into a mask. (R132) -/
  | plcmp (w : Fld)
  /-- Floating square root. (R114) -/
  | vfsqrt (w : Fld)
  /-- Floating classify into a one-hot integer. (R117) -/
  | vfclass (w : Fld)
  /-- Architectural reciprocal estimate. (R49) -/
  | vfrec (w : Fld)
  /-- Architectural reciprocal square-root estimate. (R50) -/
  | vfrsq (w : Fld)
  /-- Architectural base-2 exponential. (R51) -/
  | vfexp2 (w : Fld)
  /-- Conversion from a named source format to VTYPE.FMT. (R120) -/
  | vfcvt (w : Fld)
  /-- Round to an integral value in the same format. (R122) -/
  | vfround (w : Fld)
  /-- Pack ordinary elements into MX blocks, choosing each block's scale. (R126) -/
  | mxpack (w : Fld)
  /-- Unpack MX elements to FP32, FP16 or BF16. (R127) -/
  | mxunpack (w : Fld)
  /-- Convert between ordinary integers and planar form. (R133) -/
  | plconv (w : Fld)
  /-- Integer equal compare into a mask. (R94) -/
  | vceq (w : Fld)
  /-- Integer not-equal compare into a mask. (R94) -/
  | vcne (w : Fld)
  /-- Signed less-than compare. (R94) -/
  | vclt (w : Fld)
  /-- Unsigned less-than compare. (R94) -/
  | vcltz (w : Fld)
  /-- Signed less-or-equal compare. (R94) -/
  | vcle (w : Fld)
  /-- Unsigned less-or-equal compare. (R94) -/
  | vclez (w : Fld)
  /-- Signed greater-than compare. (R94) -/
  | vcgt (w : Fld)
  /-- Unsigned greater-than compare. (R94) -/
  | vcgtz (w : Fld)
  /-- Wrapping integer sum reduction. (R109) -/
  | vredsum (w : Fld)
  /-- Signed minimum reduction. (R109) -/
  | vredmin (w : Fld)
  /-- Unsigned minimum reduction. (R109) -/
  | vredminz (w : Fld)
  /-- Signed maximum reduction. (R109) -/
  | vredmax (w : Fld)
  /-- Unsigned maximum reduction. (R109) -/
  | vredmaxz (w : Fld)
  /-- AND reduction. (R109) -/
  | vredand (w : Fld)
  /-- OR reduction. (R109) -/
  | vredor (w : Fld)
  /-- XOR reduction. (R109) -/
  | vredxor (w : Fld)
  /-- Slide elements up by an offset. (R99) -/
  | vslup (w : Fld)
  /-- Slide elements down by an offset. (R99) -/
  | vsldn (w : Fld)
  /-- Slide up by one, inserting a scalar at element 0. (R99) -/
  | vsl1up (w : Fld)
  /-- Slide down by one, inserting a scalar at the top. (R99) -/
  | vsl1dn (w : Fld)
  /-- Register gather by index vector. (R100) -/
  | vgath (w : Fld)
  /-- Select b or a per element by the selector mask in msk. (R101) -/
  | vmerge (w : Fld)
  /-- Write one element from an x register at an index. (R98) -/
  | vxput (w : Fld)
  /-- Read one element into an x register. (R98) -/
  | vxget (w : Fld)
  /-- Mask AND. (R95) -/
  | mand (w : Fld)
  /-- Mask OR. (R95) -/
  | mor (w : Fld)
  /-- Mask XOR. (R95) -/
  | mxor (w : Fld)
  /-- Mask AND NOT. (R95) -/
  | mandn (w : Fld)
  /-- Shift mask bits toward higher indices. (R95) -/
  | mshl (w : Fld)
  /-- Broadcast a scalar or immediate to every element. (R98) -/
  | vbcast (w : Fld)
  /-- Set VTYPE from a register and VL from a requested length. (R83) -/
  | vcfg (w : CfgFld)
  /-- Set VTYPE from an 8-bit immediate and VL from a requested length. (R83) -/
  | vcfgi (w : CfgFld)
  /-- Vector move. (R98) -/
  | vmov (w : Fld)
  /-- Compress selected elements from element 0. (R102) -/
  | vcomp (w : Fld)
  /-- Expand packed elements into selected positions. (R102) -/
  | vexpd (w : Fld)
  /-- Rank duplicate values among active elements. (R103) -/
  | vconf (w : Fld)
  /-- Prefix count of set mask bits. (R104) -/
  | viota (w : Fld)
  /-- Write each element's index. (R104) -/
  | vidx (w : Fld)
  /-- Widen elements by 2, 4 or 8. (R106) -/
  | vwiden (w : Fld)
  /-- Narrow elements by truncation or saturation. (R106) -/
  | vnarrow (w : Fld)
  /-- Sign-extend the low bits of each element. (R107) -/
  | vsext (w : Fld)
  /-- Zero-extend the low bits of each element. (R107) -/
  | vzext (w : Fld)
  /-- Count leading zeros. (R108) -/
  | vclz (w : Fld)
  /-- Count trailing zeros. (R108) -/
  | vctz (w : Fld)
  /-- Population count. (R108) -/
  | vpopc (w : Fld)
  /-- Bit reverse within each element. (R108) -/
  | vbrev (w : Fld)
  /-- Mask NOT. (R95) -/
  | mnot (w : Fld)
  /-- Mask move. (R95) -/
  | mmov (w : Fld)
  /-- Count set mask bits below VL into an x register. (R96) -/
  | mpop (w : Fld)
  /-- Index of the first set mask bit into an x register. (R96) -/
  | mfirst (w : Fld)
  /-- Nonzero elements to mask bits. (R97) -/
  | mvtom (w : Fld)
  /-- Mask bits to zero-extended elements. (R97) -/
  | mmtov (w : Fld)
  /-- Unit-stride vector load, fault-only-first, MX block-wise under MX formats. (R172) -/
  | vld (w : Fld)
  /-- Strided vector load. (R172) -/
  | vlds (w : Fld)
  /-- Indexed vector load. (R172) -/
  | vldx (w : Fld)
  /-- Segment vector load. (R172) -/
  | vldseg (w : Fld)
  /-- Load a mask register from bytes. (R174) -/
  | vldm (w : Fld)
  /-- Read the next strip of an open copy stream, trimming VL. (R187) -/
  | sld (w : Fld)
  /-- Wait until many 32-bit words each satisfy a target, or time out. (R198) -/
  | vwait (w : Fld)
  /-- Unit-stride vector store. (R173) -/
  | vst (w : Fld)
  /-- Strided vector store. (R173) -/
  | vsts (w : Fld)
  /-- Indexed store keeping the highest duplicate. (R173) -/
  | vstx (w : Fld)
  /-- Indexed store keeping any one duplicate. (R173) -/
  | vstxa (w : Fld)
  /-- Segment vector store. (R172) -/
  | vstseg (w : Fld)
  /-- Store a mask register as bytes. (R174) -/
  | vstm (w : Fld)
  /-- Declare an accumulation window on a target and fill its lane copies with the identity. (R210) -/
  | wdecl (w : Fld)
  /-- Combine values into lane copies of a window at byte offsets. (R211) -/
  | wacc (w : Fld)
  /-- Form the hart partial and fold it or place it in the merge store. (R213) -/
  | wmerge (w : Fld)
  /-- Drop a declared window without touching the target. (R213) -/
  | wdrop (w : Fld)
  /-- Read the state of a window slot. (R215) -/
  | wstat (w : Fld)
  /-- Request a grant of n accumulator tiles. (R229) -/
  | mattach (w : Fld)
  /-- Release the tile grant and empty the B buffers after earlier K words complete. (R229) -/
  | mdetach (w : Fld)
  /-- Load a B tile into a hart buffer from TCM or scratchpad. (R231) -/
  | mload (w : Fld)
  /-- Multiply-accumulate A rows by a B buffer into a tile, optionally passing the buffer on the ring. (R232) -/
  | mmac (w : Fld)
  /-- Zero a tile and set it CLEAR. (R236) -/
  | mzero (w : Fld)
  /-- Read a tile, or split-precision results, into a vector register. (R236) -/
  | mread (w : Fld)
  /-- Write a vector register into a tile, which becomes CLEAR. (R236) -/
  | mwrite (w : Fld)
  /-- Wait for every earlier K word and its operand reads. (R236) -/
  | msync (w : Fld)
  /-- Test rays against the children of BVH nodes. (R300) -/
  | rboxt (w : Fld)
  /-- Watertight ray-triangle test. (R302) -/
  | rtrit (w : Fld)
  /-- Test query boxes against node children. (R301) -/
  | bbovl (w : Fld)
  /-- Filtered texture sample with residency fallback and miss feedback. (R309) -/
  | txs (w : Fld)
  /-- Texture gather of one component of four texels. (R311) -/
  | txg (w : Fld)
  /-- Texel fetch at integer coordinates and a level. (R311) -/
  | txf (w : Fld)
  /-- Compute the level of detail and status without sampling. (R311) -/
  | txlod (w : Fld)
  /-- Enter a task message into a Carder ring. (R250) -/
  | tspawn (w : SFld)
  /-- Enter a panel task message into a Carder ring. (R250) -/
  | tspawnp (w : SFld)
  /-- Retire the running task, start its release and ask for the next task. (R257) -/
  | tnext (w : SFld)
  /-- Offer the hart to waiting work by re-entering a continuation. (R258) -/
  | tyield (w : SFld)
  /-- Set BLK of a channel. (R259) -/
  | tblock (w : SFld)
  /-- Clear BLK of a channel. (R259) -/
  | tunblock (w : SFld)
  /-- Draw a ticket from a sequence. (R264) -/
  | tticket (w : SFld)
  /-- Wait for a ticket's turn in a sequence. (R265) -/
  | tcommit (w : SFld)
  /-- Snapshot one task ring's occupancy. (R260) -/
  | tqstat (w : SFld)
  /-- Release and record one arrival at the domain's current phase. (R223) -/
  | darrive (w : SFld)
  /-- Wait for a domain phase to complete, or time out. (R224) -/
  | dwait (w : SFld)
  /-- Arrive and then wait, keeping progress in DOMAIN.ARR and APH. (R224) -/
  | dbar (w : SFld)
  /-- Read the domain's current phase. (R224) -/
  | dphase (w : SFld)
  /-- Order earlier scalar accesses before later vector accesses at a scope. (R181) -/
  | ordSv (w : SFld)
  /-- Order earlier vector accesses before later scalar accesses at a scope. (R181) -/
  | ordVs (w : SFld)
  /-- Order earlier vector accesses before later vector accesses at a scope. (R181) -/
  | ordVv (w : SFld)
  /-- Order every earlier access before every later access at a scope. (R181) -/
  | ordAll (w : SFld)
  /-- Wait for every earlier vector-queue entry to retire or stop. (R182) -/
  | vdrain (w : SFld)
  /-- Open a stream slot from a descriptor and start its fills. (R185) -/
  | sopen (w : SFld)
  /-- Read a stream's DONE, FAULT and available tuples. (R189) -/
  | savail (w : SFld)
  /-- Read a stream's remaining count or its fold result. (R189) -/
  | sres (w : SFld)
  /-- Close a stream slot, abandoning its fills. (R189) -/
  | sclose (w : SFld)
  /-- Reserve a span of words at its home for n cc. (R193) -/
  | lease (w : LeaseFld)
  /-- End this hart's lease on a span after its stores are performed, and set HELD. (R194) -/
  | unlease (w : SFld)
  /-- Wait until a 32-bit word satisfies a serial target, or time out. (R197) -/
  | swait (w : SFld)
  /-- Store-release an 8-byte value, kicking a Milliner when the address is a kick register. (R328) -/
  | mkick (w : SFld)
  /-- Post a hart-message record to the supervisor mailbox ring. (R148) -/
  | hmsg (w : SFld)
  /-- Drain vector work and leases, then park the hart. (R147) -/
  | park (w : SFld)
  /-- Return from a user-level interrupt handler. (R152) -/
  | uiret (w : SFld)
  /-- Capture a body of k words and issue it n times with register advance. (R86) -/
  | vrep (w : VrepFld)
  /-- Set a pending prefix for the next word. (R85) -/
  | pfx (w : PfxFld)
  /-- An LR reservation is lost 1,024 cc after the LR. (R15) -/
  | reservationTimeout (h : Nat)
  /-- A lease ends at the end of its n-th cc and sends an end notice. (R194) -/
  | leaseExpiry (h : Nat)
  /-- The hart reaches its halt, writes its save record as a release and sets DONE or SERR. (R362) -/
  | preemptHalt (h : Nat) (b : Nat)
  /-- The restore ends with RST set to OK, BUSY or BAD. (R365) -/
  | restoreComplete (h : Nat)
  /-- swait times out, returning the last sample and raising the CODE 3 source. (R197) -/
  | swaitTimeout (h : Nat)
  /-- vwait times out, writing unsatisfied elements to its mask. (R198) -/
  | vwaitTimeout (h : Nat)
  /-- A dwait or the wait of a dbar times out with STATUS 1. (R224) -/
  | dwaitTimeout (h : Nat)
  /-- tcommit times out with no turn held. (R265) -/
  | tcommitTimeout (h : Nat)
  /-- A waiting tspawn finds no free slot within 4,096 cc and returns FULL. (R251) -/
  | tspawnWaitTimeout (h : Nat)
  /-- At the end of the grace, harts of a shed class not yet held are halted. (R370) -/
  | shedGraceExpiry (c : Nat)
  /-- Sixteen consecutive replays retrain a die-to-die link, holding its traffic. (R347) -/
  | dieLinkRetrain (l : Nat)
  /-- A remote request unanswered for 1 ms is abandoned and a kind 0x07 record posted. (R394) -/
  | remoteRequestAbandon (tag : Nat)
  /-- A home that waited 65,536 cc for an acknowledgement posts a kind 0x06 record. (R354) -/
  | unresponsiveAgentTimeout (a : Nat)
  /-- A participant waiting too long for an exchange ends with STATUS 10. (R402) -/
  | collectiveTimeout (m : Nat)
  /-- After the folds, ARRIVED is cleared and PHASE advances atomically. (R223) -/
  | domainCompletion (part : Nat) (id : Nat)
  /-- A dispatched task is delivered to its hart as an acquire, setting a0–a7, TASK, CHAN and PC. (R255) -/
  | taskDelivery (h : Nat)
  /-- The Carder answers a hart's request for work by Choose. (R254) -/
  | taskRequest (h : Nat)
  /-- After a retiring task's release is performed, the Carder releases its ticket turn, counts a panel take and applies NTF. (R257) -/
  | taskReleasePerformed (h : Nat)
  /-- In a cc with no request, the Carder places one waiting task on an idle eligible hart. (R254) -/
  | idlePlacement (d : Nat)
  /-- A strip fill completes into the strip buffer, or folds into a reduce stream. (R188) -/
  | streamFill (h : Nat) (q : Nat)
  /-- A pending enabled M or S interrupt is taken at the next resumable position. (R142) -/
  | interruptTake (h : Nat) (b : Nat)
  /-- A pending user-level interrupt diverts the hart to UIVEC with UICAUSE and UIEPC written. (R151) -/
  | userInterruptTake (h : Nat) (b : Nat)
  /-- Power-on or a requested start verifies firmware, starts islands, trains HBM, tests, zeroes and boots sc0 of die0. (R379) -/
  | packageStart (trained : Bool) (broken : Bool) (excl : Nat)
  /-- A Milliner starts its oldest queued kick with an acquire and selects the routine. (R330) -/
  | millinerRoutineStart (m : Nat)
  /-- Standard routine 0x0010 copies a padded tensor of up to six dimensions. (R335) -/
  | tensorCopy (m : Nat) (n : Nat)
  /-- Standard routine 0x0001 writes OK to the mailbox. (R333) -/
  | mailboxOnly (m : Nat)
  /-- Standard routine 0x0020 moves a page region by region to a new physical page. (R339) -/
  | pageMigration (m : Nat)
  /-- One region is copied to the new home and passes from WAIT to FWD. (R351) -/
  | migrationRegionCopy (m : Nat)
  /-- Collective routine 0x0040 forms the canonical tree over block values. (R400) -/
  | allReduce (m : Nat)
  /-- A participant receives a partner's stage value, combines it and sends the next exchange. (R401) -/
  | collectiveExchange (m : Nat)
  /-- A user routine is loaded from the user routine table and run until park or a trap. (R331) -/
  | userRoutine (m : Nat)
  /-- A write to a register with no behaviour of its own stores its writable fields. (R7) -/
  | registerWrite (a : Nat) (n : Nat) (v : Nat)
  /-- An arrival is counted at the descriptor's home; the last member starts completion. (R223) -/
  | domainArrival (h : Nat)
  /-- The home returns Data to an uncached agent. (R281) -/
  | homeRd (n : Nat)
  /-- The home performs a store, committing at once or sending Upd to sharers. (R281) -/
  | homeWr (n : Nat)
  /-- The home performs an atomic on the committed value. (R281) -/
  | homeAmo (n : Nat)
  /-- The home records a sharer for a span and returns Data. (R281) -/
  | homeGets (n : Nat)
  /-- The home collects an update acknowledgement; the last commits the store and sends Cmt and WAck. (R281) -/
  | homeUack (n : Nat)
  /-- A sharer applies new words, marks them held and acknowledges. (R282) -/
  | sharerUpd (n : Nat)
  /-- A sharer clears the held mark of committed words. (R282) -/
  | sharerCmt (n : Nat)
  /-- The writer receives its acknowledgement, old AMO value or SC flag. (R282) -/
  | writerWack (n : Nat)
  /-- The requester receives the committed values of its span. (R280) -/
  | requesterData (n : Nat)
  /-- A Crown ring link delivers its buffer into the next slice once that buffer is EMPTY. (R233) -/
  | ringDelivery (c : Nat)
  /-- A telemetry frame arrives; a valid one recomputes the allowance and sheds or restores classes. (R369) -/
  | telemetryFrame (f : BitVec 128)
  /-- Management PART_BUILD assigns partition resources and draws its key. (R412) -/
  | partBuild (dst : Nat) (src : Nat) (rest : Bytes) (p : Nat) (cl : Nat) (sc : Nat) (md : Nat) (chr : Nat) (noc : Nat) (granules : Nats) (mmio : Nats)
  /-- A PREEMPT write requests that the hart halt at its resumable position. (R362) -/
  | preempt (h : Nat)
  /-- A RESTORE write starts reloading a hart context from its save record. (R365) -/
  | restore (h : Nat)
  /-- A WAKE write resumes a parked hart at HART_RPC. (R150) -/
  | hartCtlWake (h : Nat)
  /-- Management OPEN creates a session from two nonces. (R412) -/
  | mgmtOpen (dst : Nat) (src : Nat) (rest : Bytes)
  /-- The Planker places one advanced body word into the vector queue each cc. (R166) -/
  | plankerPass
  /-- The lane sequencer starts a startable queue head, placing its items on lane-group lists. (R160) -/
  | vectorEntryStart (h : Nat)
  /-- A vector entry completes its last element and retires, setting VELEM to 0. (R23) -/
  | vectorEntryRetire (h : Nat)
  /-- The package time count reaches MTIMECMP or STIMECMP, setting the timer pending bit. (R143) -/
  | timecmpMatch (h : Nat) (sLevel : Bool)
  /-- A write of 1 to INT_SSIP sets mip.SSIP. (R143) -/
  | intSsip (h : Nat)
  /-- A 32-bit write of an identity to an interrupt file sets that pending bit. (R143) -/
  | imsicSeteipnum (h : Nat) (sFile : Bool) (id : Nat)
  /-- A committed value reaches a registered or sharing waiter, which samples and may be satisfied. (R418) -/
  | waiterUpdate (h : Nat)
  /-- Every 256 cc a wait or watch on a remote word samples it again. (R283) -/
  | remoteSampleTick (h : Nat)
  /-- The home drops or shrinks a sharer's record. (R281) -/
  | homeEvict (y : Nat) (a : Nat) (n : Nat)
  /-- A sharer drops the region and acknowledges. (R281) -/
  | sharerInv (n : Nat)
  /-- The home collects invalidate acknowledgements and frees the entry after the last. (R281) -/
  | homeInvack (n : Nat)
  /-- The home grants a lease request or queues it behind overlapping leases. (R193) -/
  | homeLreq (n : Nat)
  /-- The grant reaches the hart, carrying the span's words; the lease retires and runs. (R193) -/
  | hartLgrant (n : Nat)
  /-- The end notice releases the span and the queued requests are performed in order. (R194) -/
  | homeLend (n : Nat)
  /-- An uncorrectable error in a live descriptor sets FAILED and posts a kind 0x04 record. (R226) -/
  | barrierBreak (part : Nat) (id : Nat)
  /-- An 8-byte store at a kick register is captured and queued or rejected. (R329) -/
  | millinerKick (m : Nat) (hart : Nat) (block : Nat) (scope : Nat)
  /-- Collective routine 0x0041 gives each participant its slice of the all-reduce. (R400) -/
  | reduceScatter (m : Nat)
  /-- Collective routine 0x0042 gathers every participant's source. (R400) -/
  | allGather (m : Nat)
  /-- Writing ABORT abandons the running routine and queued kicks with STATUS 7. (R341) -/
  | mlAbort (m : Nat)
  /-- A write to the window reservation takes effect only while every slot is FREE. (R207) -/
  | hartWresWrite (h : Nat) (v : Nat)
  /-- A write to FRING_CTL enables the supervisor ring only when its size and base are valid. (R146) -/
  | fringCtlWrite (p : Nat) (v : Nat)
  /-- A write to DOM_CTL enables the domain table only when its base is aligned. (R219) -/
  | domCtlWrite (p : Nat) (v : Nat)
  /-- A write to TQ_RING enables or disables a task ring under its index rules. (R246) -/
  | tqRingWrite (p : Nat) (die : Nat) (level : Nat) (v : Nat)
  /-- A write to TSEQ_CTL enables the ticket table only when its size and base are valid. (R263) -/
  | tseqCtlWrite (p : Nat) (v : Nat)
  /-- A write to FBR_CTL enables the feedback ring only when its size and base are valid. (R313) -/
  | fbrCtlWrite (p : Nat) (v : Nat)
  /-- Writing FCLR empties the recent-miss filters of the partition's texture units. (R313) -/
  | fclr (p : Nat)
  /-- A write to CL_MRG is ignored while partials occupy the merge store. (R217) -/
  | clMrgWrite (c : Nat) (v : Nat)
  /-- A write to a core task region stores LEN 0 when the region would exceed the TCM. (R248) -/
  | clTregWrite (c : Nat) (core : Nat) (v : Nat)
  /-- A pin write stores LEN 0 when the die's pins would exceed 8 MiB or the base is homed elsewhere. (R358) -/
  | l2pinWrite (p : Nat) (die : Nat) (base : Nat) (len : Nat)
  /-- No valid frame for 300 µs clears LINK and applies the failsafe allowance. (R369) -/
  | telemetryLinkLoss
  /-- An island whose harts are all held, parked or idle enters retention. (R370) -/
  | islandRetention (isl : Nat)
  /-- A held island is released in order at 8 per µs and its harts resume. (R371) -/
  | islandStart
  /-- Setting REQ starts a cluster quiesce, holding harts and stopping dispatch. (R373) -/
  | clqReq (c : Nat)
  /-- Writing FORCE halts every hart of the cluster not yet stopped. (R372) -/
  | clqForce (c : Nat)
  /-- Writing REQ 0 while the clocks run cancels the quiesce and releases held harts. (R386) -/
  | clqCancel (c : Nat)
  /-- Writing 1 to ERR clears it. (R372) -/
  | clqErrClear (c : Nat)
  /-- Writing SAVE starts writing the cluster's retention image. (R373) -/
  | retSave (c : Nat) (base : Nat)
  /-- The image write ends, setting SAVED or, on a fault, ERR. (R373) -/
  | retSaveComplete (c : Nat)
  /-- Writing GATE stops or restarts the cluster clocks. (R372) -/
  | clkGate (c : Nat) (b : Bool)
  /-- Writing MODE moves the cluster rails to on, retention or off. (R372) -/
  | railCtl (c : Nat) (mode : Nat)
  /-- A rail transition completes, clearing BUSY and setting RAILOFF as applies. (R373) -/
  | railTransitionDone (c : Nat)
  /-- A WAKE write turns rails on, starts clocks, reads back the image and releases the harts. (R374) -/
  | clusterWake (c : Nat)
  /-- The wake ends by releasing the held harts, or stops with RBF set on a read-back fault. (R374) -/
  | clusterWakeComplete (c : Nat)
  /-- A die-to-die message that fails its CRC is replayed. (R347) -/
  | dieLinkReplay (l : Nat) (good : Bool)
  /-- Retraining ends; a failed retraining stops the package. (R347) -/
  | dieLinkRetrainDone (l : Nat) (good : Bool)
  /-- Writing an agent number declares it dead and starts removing its records and leases. (R355) -/
  | agentDead (die : Nat) (a : Nat)
  /-- The declaration completes, advancing the incarnation and clearing BUSY. (R355) -/
  | agentDeadComplete (die : Nat)
  /-- Writing an old page address ends forwarding for that page. (R353) -/
  | migRel (die : Nat) (pa : Nat)
  /-- Writing COLD requests a cold start. (R378) -/
  | cold
  /-- Writing WARMREQ requests a warm start. (R378) -/
  | warmreq
  /-- Writing BOOT_OK marks the start successful and clears FAILCNT. (R380) -/
  | bootOk
  /-- BOOT_OK not written within 120 s fails the start. (R379) -/
  | bootTimeout
  /-- A WAKE write starts a parked system core at SC_RPC in M mode. (R406) -/
  | scCtlWake (n : Nat)
  /-- Writing RETRAIN starts retraining of a Chrodon port. (R391) -/
  | chrRetrain (p : Nat)
  /-- A Chrodon retraining ends with the port up or down. (R389) -/
  | chrRetrainDone (p : Nat) (good : Bool)
  /-- A flit arrives; its CRC, sequence, acknowledgement, replay request and credits are handled. (R390) -/
  | chrFlitReceive (p : Nat) (fixed : Nat) (lost : Bool) (f : Bytes)
  /-- A remote Rd message is served at the home. (R390) -/
  | chrRd (n : Nat)
  /-- A remote Wr message is performed at the home. (R390) -/
  | chrWr (n : Nat)
  /-- A remote Amo message is performed at the home. (R390) -/
  | chrAmo (n : Nat)
  /-- A remote LR message is performed at the home. (R390) -/
  | chrLr (n : Nat)
  /-- A remote SC message is performed at the home. (R390) -/
  | chrSc (n : Nat)
  /-- A Data response completes a remote read. (R390) -/
  | chrData (n : Nat)
  /-- A WAck response completes a remote store. (R390) -/
  | chrWack (n : Nat)
  /-- An AmoResp response completes a remote atomic. (R390) -/
  | chrAmoresp (n : Nat)
  /-- After a route change, held requests for a region go out once earlier ones are acknowledged. (R393) -/
  | routeChangeRelease
  /-- An inbound posted write is translated and performed in arrival order, or refused. (R409) -/
  | pcieInboundWrite (rid : Nat) (a : Nat) (data : Bytes)
  /-- An inbound read is translated and performed after earlier writes commit, or completed as Unsupported Request. (R409) -/
  | pcieInboundRead (rid : Nat) (a : Nat) (n : Nat) (tag : Nat)
  /-- An MSI is a release and writes an identity into an interrupt file. (R409) -/
  | pcieMsi (rid : Nat) (a : Nat) (id : Nat)
  /-- Management IDENT returns the serial number and certificates. (R412) -/
  | ident (dst : Nat) (src : Nat) (rest : Bytes) (off : Nat)
  /-- Management ATTEST returns a signed attestation report. (R414) -/
  | attest (dst : Nat) (src : Nat) (rest : Bytes) (p : Nat) (nonce : Nat)
  /-- Management PART_SCRUB halts, clears and re-keys a partition. (R360) -/
  | partScrub (dst : Nat) (src : Nat) (rest : Bytes) (p : Nat)
  /-- Management PART_JOIN records a cross-module partition pairing. (R396) -/
  | partJoin (dst : Nat) (src : Nat) (rest : Bytes) (p : Nat) (mod : Nat) (q : Nat)
  /-- Management SET_FAB stores MODIDX and MEMB for the next cold start. (R392) -/
  | setFab (dst : Nat) (src : Nat) (rest : Bytes) (m : Nat) (memb : Nat)
  /-- Management FW_STAGE writes an image chunk to the inactive slot. (R415) -/
  | fwStage (dst : Nat) (src : Nat) (rest : Bytes) (kind : Nat) (off : Nat) (data : Bytes)
  /-- Management FW_COMMIT verifies an image and makes its slot active for the next start. (R415) -/
  | fwCommit (dst : Nat) (src : Nat) (rest : Bytes) (kind : Nat)
  /-- Management RESET requests a cold or warm start. (R412) -/
  | mgmtReset (dst : Nat) (src : Nat) (rest : Bytes) (cold : Bool) (rebuild : Nats)
  /-- Management LOG_READ returns the error record log. (R416) -/
  | logRead (dst : Nat) (src : Nat) (rest : Bytes) (off : Nat)
  /-- Management TELEM_READ returns the telemetry frame log. (R416) -/
  | telemRead (dst : Nat) (src : Nat) (rest : Bytes) (off : Nat)
  /-- Management RECOVER receives an image in recovery and starts from it. (R412) -/
  | recover (dst : Nat) (src : Nat) (rest : Bytes) (kind : Nat) (off : Nat) (last : Bool) (data : Bytes)
  /-- The device behind the root port answers an outbound configuration or MMIO read with a completion, delivering the device load's value. (R419) -/
  | pcieCompletion (who : Nat) (v : Nat)
  /-- The release of forwarding for an old page finishes and MIG_REL.BUSY returns to 0. (R377) -/
  | migRelComplete (die : Nat)
  /-- The module loses power, stopping every agent while always-on storage keeps FAILCNT and the HBM calibration. (R380) -/
  | powerLoss
  deriving DecidableEq, Repr

end Sys2Proof
end

