-- ==== Sys2Proof/WellFormed.lean ====
section
/-! DEFINITION. Which terms of Instr are instructions: the must-be-zero fields, the forms and the sub-operation
codes of spec/03 (R55, R57, R58, R60-R67). An event has no word and is always well formed. -/

namespace Sys2Proof

/-- Form VV only, or aux = 00. -/
def Fld.formA (w : Fld) : Bool := w.f == 0
/-- Form VS only. -/
def Fld.formB (w : Fld) : Bool := w.f == 1
/-- Forms VV and VS. -/
def Fld.formAB (w : Fld) : Bool := w.f == 0 || w.f == 1
/-- Forms VS and VI. -/
def Fld.formBC (w : Fld) : Bool := w.f == 1 || w.f == 2
/-- Forms VV, VS and VI, or an index kind other than 11. -/
def Fld.formABC (w : Fld) : Bool := w.f != 3
/-- The unary bank. -/
def Fld.unary (w : Fld) : Bool := w.f == 3
/-- `d` names a mask register: its bits [4:3] are zero (R55). -/
def Fld.maskD (w : Fld) : Bool := w.d.toNat ≤ 7
/-- `b` names a mask register. -/
def Fld.maskB (w : Fld) : Bool := w.b.toNat ≤ 7
/-- `a` names a mask register. -/
def Fld.maskA (w : Fld) : Bool := w.a.toNat ≤ 7
/-- msk and dt must be zero (R67). -/
def Fld.noMask (w : Fld) : Bool := w.k == 0 && w.t == 0

/-- A 32-bit shift amount has five bits, and a floating-point rounding field is not 101 or 110 (the standard
encodings of R15); every other standard word is any value of its fields. -/
def Rv.wellFormed : Rv → Bool
  | .shImm .slliw _ _ sh | .shImm .srliw _ _ sh | .shImm .sraiw _ _ sh | .shImm .roriw _ _ sh => sh.toNat < 32
  | .fma _ _ _ _ _ _ rm | .farith _ _ _ _ _ rm | .fsqrt _ _ _ rm | .fcvtToInt _ _ _ _ rm
  | .fcvtFromInt _ _ _ _ rm | .fcvtSD _ _ rm | .fcvtDS _ _ rm => rm != 5 && rm != 6
  | _ => true

/-- The encoding rules of spec/03 on the fields of an instruction. -/
def Instr.wellFormed : Instr → Bool
  | .riscvInstruction op => op.wellFormed
  | .csrAccess .. => true
  | .lr .. => true
  | .sc .. => true
  | .amo .. => true
  | .fenceI .. => true
  | .sfenceVma .. => true
  | .wfi => true
  | .xret .. => true
  | .vadd w => w.formABC
  | .vsub w => w.formABC
  | .vrsub w => w.formABC
  | .vadc w => w.formABC
  | .vsbc w => w.formABC
  | .vmul w => w.formABC
  | .vmulh w => w.formABC
  | .vmulhz w => w.formABC
  | .vmacc w => w.formABC
  | .vnmsac w => w.formABC
  | .vdiv w => w.formABC
  | .vdivz w => w.formABC
  | .vrem w => w.formABC
  | .vremz w => w.formABC
  | .vmin w => w.formABC
  | .vminz w => w.formABC
  | .vmax w => w.formABC
  | .vmaxz w => w.formABC
  | .vsadd w => w.formABC
  | .vsaddz w => w.formABC
  | .vssub w => w.formABC
  | .vssubz w => w.formABC
  | .vavg w => w.formABC
  | .vabsd w => w.formABC
  | .vand w => w.formABC
  | .vor w => w.formABC
  | .vxor w => w.formABC
  | .vandn w => w.formABC
  | .vsll w => w.formABC
  | .vsrl w => w.formABC
  | .vsra w => w.formABC
  | .vrol w => w.formABC
  | .vfadd w => w.formAB
  | .vfsub w => w.formAB
  | .vfmul w => w.formAB
  | .vfdiv w => w.formAB
  | .vfmadd w => w.formAB
  | .vfmsub w => w.formAB
  | .vfnmadd w => w.formAB
  | .vfnmsub w => w.formAB
  | .vfmin w => w.formAB
  | .vfmax w => w.formAB
  | .vfsgnj w => w.formAB
  | .vfsgnjn w => w.formAB
  | .vfsgnjx w => w.formAB
  | .vfceq w => w.formAB && w.maskD
  | .vfclt w => w.formAB && w.maskD
  | .vfcle w => w.formAB && w.maskD
  | .vfredsum w => w.formAB
  | .vfredtree w => w.formAB
  | .vfredmin w => w.formAB
  | .vfredmax w => w.formAB
  | .mxdot w => w.formA
  | .pladd w => w.formAB
  | .plsub w => w.formAB
  | .plmul w => w.formAB
  | .pldot w => w.formA
  | .plcmp w => w.formAB
  | .vfsqrt w => w.unary && w.a == 0
  | .vfclass w => w.unary && w.a == 0
  | .vfrec w => w.unary && w.a == 0
  | .vfrsq w => w.unary && w.a == 0
  | .vfexp2 w => w.unary && w.a == 0
  | .vfcvt w => w.unary && (w.a &&& 15#5).toNat ≤ 9
  | .vfround w => w.unary && (w.a.toNat ≤ 4 || w.a == 7)
  | .mxpack w => w.unary && (w.a == 5 || w.a == 6 || w.a == 7)
  | .mxunpack w => w.unary && (w.a == 5 || w.a == 6 || w.a == 7)
  | .plconv w => w.unary && w.a.toNat ≤ 15
  | .vceq w => w.formABC && w.maskD
  | .vcne w => w.formABC && w.maskD
  | .vclt w => w.formABC && w.maskD
  | .vcltz w => w.formABC && w.maskD
  | .vcle w => w.formABC && w.maskD
  | .vclez w => w.formABC && w.maskD
  | .vcgt w => w.formABC && w.maskD
  | .vcgtz w => w.formABC && w.maskD
  | .vredsum w => w.formABC
  | .vredmin w => w.formABC
  | .vredminz w => w.formABC
  | .vredmax w => w.formABC
  | .vredmaxz w => w.formABC
  | .vredand w => w.formABC
  | .vredor w => w.formABC
  | .vredxor w => w.formABC
  | .vslup w => w.formBC
  | .vsldn w => w.formBC
  | .vsl1up w => w.formB
  | .vsl1dn w => w.formB
  | .vgath w => w.formA
  | .vmerge w => w.formABC && w.k != 0
  | .vxput w => w.formB && w.noMask
  | .vxget w => w.formBC && w.noMask
  | .mand w => w.formA && w.noMask && w.maskD && w.maskB && w.maskA
  | .mor w => w.formA && w.noMask && w.maskD && w.maskB && w.maskA
  | .mxor w => w.formA && w.noMask && w.maskD && w.maskB && w.maskA
  | .mandn w => w.formA && w.noMask && w.maskD && w.maskB && w.maskA
  | .mshl w => w.formBC && w.noMask && w.maskD && w.maskB
  | .vbcast w => w.formBC && w.b == 0
  | .vcfg w => w.hi == 0
  | .vcfgi _ => true
  | .vmov w => w.unary && w.a == 0
  | .vcomp w => w.unary && w.a == 0 && w.k != 0
  | .vexpd w => w.unary && w.a == 0 && w.k != 0
  | .vconf w => w.unary && w.a == 0
  | .viota w => w.unary && w.a == 0 && w.maskB
  | .vidx w => w.unary && w.a == 0 && w.b == 0
  | .vwiden w => w.unary && (w.a &&& 24#5) == 0 && (w.a &&& 3#5) != 3
  | .vnarrow w => w.unary && (w.a &&& 16#5) == 0 && (w.a &&& 3#5) != 3 && (w.a &&& 12#5) != 12
  | .vsext w => w.unary && w.a.toNat ≤ 2
  | .vzext w => w.unary && w.a.toNat ≤ 2
  | .vclz w => w.unary && w.a == 0
  | .vctz w => w.unary && w.a == 0
  | .vpopc w => w.unary && w.a == 0
  | .vbrev w => w.unary && w.a == 0
  | .mnot w => w.unary && w.a == 0 && w.noMask && w.maskD && w.maskB
  | .mmov w => w.unary && w.a == 0 && w.noMask && w.maskD && w.maskB
  | .mpop w => w.unary && w.a == 0 && w.noMask && w.maskB
  | .mfirst w => w.unary && w.a == 0 && w.noMask && w.maskB
  | .mvtom w => w.unary && w.a == 0 && w.maskD
  | .mmtov w => w.unary && w.a == 0 && w.maskB
  | .vld w => w.formA
  | .vlds w => w.formA
  | .vldx w => w.formABC
  | .vldseg w => w.formA && 1 ≤ w.b.toNat && w.b.toNat ≤ 7
  | .vldm w => w.formA && w.noMask && w.b == 0 && w.maskD
  | .sld w => w.formA && w.b == 0 && w.a.toNat ≤ 3
  | .vwait w => w.maskD
  | .vst w => w.formA
  | .vsts w => w.formA
  | .vstx w => w.formABC
  | .vstxa w => w.formABC
  | .vstseg w => w.formA && 1 ≤ w.b.toNat && w.b.toNat ≤ 7
  | .vstm w => w.formA && w.noMask && w.b == 0 && w.maskD
  | .wdecl w => w.noMask && (w.f &&& 2#2) == 0 && w.d.toNat ≤ 3
  | .wacc w => w.formA && w.d.toNat ≤ 27
  | .wmerge w => w.noMask && w.formA && w.b == 0 && w.a == 0 && w.d.toNat ≤ 3
  | .wdrop w => w.noMask && w.formA && w.b == 0 && w.a == 0 && w.d.toNat ≤ 3
  | .wstat w => w.noMask && w.formA && w.b == 0 && w.a.toNat ≤ 3
  | .mattach w => w.noMask && w.formA && w.b == 0 && 1 ≤ w.a.toNat && w.a.toNat ≤ 8
  | .mdetach w => w.noMask && w.formA && w.b == 0 && w.a == 0 && w.d == 0
  | .mload w => w.noMask && (w.f &&& 2#2) == 0 && w.d == 0
  | .mmac w => w.noMask && w.maskD
  | .mzero w => w.noMask && w.formA && w.b == 0 && w.a == 0 && w.maskD
  | .mread w => w.noMask && w.formA && w.b == 0 && w.maskA
  | .mwrite w => w.noMask && w.formA && w.a == 0 && w.maskD
  | .msync w => w.noMask && w.formA && w.b == 0 && w.a == 0 && w.d == 0
  | .rboxt w => w.formA
  | .rtrit w => w.formA
  | .bbovl w => w.formA
  | .txs w => w.formA
  | .txg w => w.formA
  | .txf w => w.formA
  | .txlod w => w.formA
  | .tspawn w => w.x.toNat ≤ 1 && w.rs2 == 0
  | .tspawnp w => w.x.toNat ≤ 1 && w.rs2 == 0
  | .tnext w => w.x == 0 && w.rs2 == 0 && w.rs1 == 0 && w.rd == 0
  | .tyield w => w.x == 0 && w.rs2 == 0 && w.rs1 == 0 && w.rd == 0
  | .tblock w => w.x == 0 && w.rd == 0 && w.rs2 == 0
  | .tunblock w => w.x == 0 && w.rd == 0 && w.rs2 == 0
  | .tticket w => w.x == 0 && w.rs2 == 0
  | .tcommit _ => true
  | .tqstat w => w.x == 0 && w.rs2 == 0
  | .darrive w => w.x == 0 && w.rs1 == 0 && w.rs2 == 0
  | .dwait w => w.rs2 == 0
  | .dbar w => w.rs1 == 0 && w.rs2 == 0
  | .dphase w => w.x == 0 && w.rs1 == 0 && w.rs2 == 0
  | .ordSv w => w.x.toNat ≤ 5 && w.rs2 == 0 && w.rs1 == 0 && w.rd == 0
  | .ordVs w => w.x.toNat ≤ 5 && w.rs2 == 0 && w.rs1 == 0 && w.rd == 0
  | .ordVv w => w.x.toNat ≤ 5 && w.rs2 == 0 && w.rs1 == 0 && w.rd == 0
  | .ordAll w => w.x.toNat ≤ 5 && w.rs2 == 0 && w.rs1 == 0 && w.rd == 0
  | .vdrain w => w.x == 0 && w.rs2 == 0 && w.rs1 == 0 && w.rd == 0
  | .sopen w => w.x.toNat ≤ 3 && w.rd.toNat ≤ 2
  | .savail w => w.x.toNat ≤ 3 && w.rs1 == 0 && w.rs2 == 0
  | .sres w => w.x.toNat ≤ 3 && w.rs1 == 0 && w.rs2 == 0
  | .sclose w => w.x.toNat ≤ 3 && w.rs1 == 0 && w.rs2 == 0 && w.rd == 0
  | .lease w => w.z == 0
  | .unlease w => w.x == 0 && w.rd == 0 && w.rs2 == 0
  | .swait _ => true
  | .mkick w => w.x.toNat ≤ 5 && w.rd == 0
  | .hmsg w => w.x == 0
  | .park w => w.x == 0 && w.rs2 == 0 && w.rs1 == 0 && w.rd == 0
  | .uiret w => w.x == 0 && w.rs2 == 0 && w.rs1 == 0 && w.rd == 0
  | .vrep w => w.z == 0
  | .pfx w => w.z == 0 && w.y == 0
  | .plankerPass => true
  | .vectorEntryStart .. => true
  | .vectorEntryRetire .. => true
  | .interruptTake .. => true
  | .userInterruptTake .. => true
  | .timecmpMatch .. => true
  | .intSsip .. => true
  | .imsicSeteipnum .. => true
  | .reservationTimeout .. => true
  | .leaseExpiry .. => true
  | .swaitTimeout .. => true
  | .vwaitTimeout .. => true
  | .dwaitTimeout .. => true
  | .tcommitTimeout .. => true
  | .tspawnWaitTimeout .. => true
  | .waiterUpdate .. => true
  | .remoteSampleTick .. => true
  | .streamFill .. => true
  | .ringDelivery .. => true
  | .homeGets .. => true
  | .homeRd .. => true
  | .homeWr .. => true
  | .homeAmo .. => true
  | .sharerUpd .. => true
  | .homeUack .. => true
  | .sharerCmt .. => true
  | .writerWack .. => true
  | .requesterData .. => true
  | .homeEvict .. => true
  | .sharerInv .. => true
  | .homeInvack .. => true
  | .homeLreq .. => true
  | .hartLgrant .. => true
  | .homeLend .. => true
  | .unresponsiveAgentTimeout .. => true
  | .domainArrival .. => true
  | .domainCompletion .. => true
  | .barrierBreak .. => true
  | .taskRequest .. => true
  | .idlePlacement .. => true
  | .taskDelivery .. => true
  | .taskReleasePerformed .. => true
  | .millinerKick .. => true
  | .millinerRoutineStart .. => true
  | .mailboxOnly .. => true
  | .tensorCopy .. => true
  | .pageMigration .. => true
  | .migrationRegionCopy .. => true
  | .allReduce .. => true
  | .reduceScatter .. => true
  | .allGather .. => true
  | .collectiveExchange .. => true
  | .collectiveTimeout .. => true
  | .userRoutine .. => true
  | .mlAbort .. => true
  | .hartCtlWake .. => true
  | .hartWresWrite .. => true
  | .preempt .. => true
  | .preemptHalt .. => true
  | .restore .. => true
  | .restoreComplete .. => true
  | .fringCtlWrite .. => true
  | .domCtlWrite .. => true
  | .tqRingWrite .. => true
  | .tseqCtlWrite .. => true
  | .fbrCtlWrite .. => true
  | .fclr .. => true
  | .clMrgWrite .. => true
  | .clTregWrite .. => true
  | .l2pinWrite .. => true
  | .registerWrite .. => true
  | .telemetryFrame .. => true
  | .telemetryLinkLoss => true
  | .shedGraceExpiry .. => true
  | .islandRetention .. => true
  | .islandStart => true
  | .clqReq .. => true
  | .clqForce .. => true
  | .clqCancel .. => true
  | .clqErrClear .. => true
  | .retSave .. => true
  | .retSaveComplete .. => true
  | .clkGate .. => true
  | .railCtl .. => true
  | .railTransitionDone .. => true
  | .clusterWake .. => true
  | .clusterWakeComplete .. => true
  | .dieLinkReplay .. => true
  | .dieLinkRetrain .. => true
  | .dieLinkRetrainDone .. => true
  | .agentDead .. => true
  | .agentDeadComplete .. => true
  | .migRel .. => true
  | .packageStart .. => true
  | .cold => true
  | .warmreq => true
  | .bootOk => true
  | .bootTimeout => true
  | .scCtlWake .. => true
  | .chrRetrain .. => true
  | .chrRetrainDone .. => true
  | .chrFlitReceive .. => true
  | .chrRd .. => true
  | .chrWr .. => true
  | .chrAmo .. => true
  | .chrLr .. => true
  | .chrSc .. => true
  | .chrData .. => true
  | .chrWack .. => true
  | .chrAmoresp .. => true
  | .remoteRequestAbandon .. => true
  | .routeChangeRelease => true
  | .pcieInboundWrite .. => true
  | .pcieInboundRead .. => true
  | .pcieMsi .. => true
  | .mgmtOpen .. => true
  | .ident .. => true
  | .attest .. => true
  | .partBuild .. => true
  | .partScrub .. => true
  | .partJoin .. => true
  | .setFab .. => true
  | .fwStage .. => true
  | .fwCommit .. => true
  | .mgmtReset .. => true
  | .logRead .. => true
  | .telemRead .. => true
  | .recover .. => true
  | .pcieCompletion .. => true
  | .migRelComplete .. => true
  | .powerLoss => true

end Sys2Proof
end

