-- ==== Sys2Proof/Decode.lean ====
section
/-! DEFINITION. Decoding and encoding of instruction words (spec/03, R52-R68). The decoder is total: it reads four
bytes, least significant first, and answers an instruction or the name of the reason why there is none. -/

namespace Sys2Proof

/-! ## The majors (R52) -/

/-- custom-2. -/
abbrev majorA : BitVec 7 := 0b1011011#7
/-- custom-3. -/
abbrev majorF : BitVec 7 := 0b1111011#7
/-- OP-V. -/
abbrev majorP : BitVec 7 := 0b1010111#7
/-- custom-1. -/
abbrev majorM : BitVec 7 := 0b0101011#7
/-- reserved. -/
abbrev majorK : BitVec 7 := 0b1101011#7
/-- OP-VE. -/
abbrev majorG : BitVec 7 := 0b1110111#7
/-- custom-0. -/
abbrev majorS : BitVec 7 := 0b0001011#7

/-- Why bytes are no instruction. Every one of them is an illegal instruction of R52 or R53 but for `truncated`,
which only a caller with fewer than four bytes can see. -/
inductive DecodeError
  /-- Fewer than four bytes. -/
  | truncated
  /-- Bits [1:0] are not 11. -/
  | notThirtyTwoBit
  /-- The prefix of a longer standard instruction. -/
  | longStandard
  /-- A standard major with an encoding R15 does not define. -/
  | undefinedStandard
  /-- An unassigned point of the device's opcode map. -/
  | unassigned
  /-- An assigned point whose must-be-zero fields, form or sub-operation break R55-R67. -/
  | illFormed
  deriving DecidableEq, Repr

/-! ## Field layouts -/

/-- The fields of a word in the layout of R54 and R59. -/
def Fld.ofWord (w : W32) : Fld :=
  { k := w.extractLsb' 28 2, t := w.extractLsb' 27 1, f := w.extractLsb' 25 2, b := w.extractLsb' 20 5,
    a := w.extractLsb' 15 5, d := w.extractLsb' 7 5 }

/-- The word with operation index `i` under major `m` (R54, R59). -/
def Fld.pack (x : Fld) (i : Nat) (m : BitVec 7) : W32 :=
  BitVec.ofNat 2 (i / 8) ++ x.k ++ x.t ++ x.f ++ x.b ++ x.a ++ BitVec.ofNat 3 (i % 8) ++ x.d ++ m

/-- The operation index f2 × 8 + f3 (R54). -/
def opIndex (w : W32) : Nat := (w.extractLsb' 30 2).toNat * 8 + (w.extractLsb' 12 3).toNat

/-- The fields of an S-format word (R56). -/
def SFld.ofWord (w : W32) : SFld :=
  { x := w.extractLsb' 25 3, rs2 := w.extractLsb' 20 5, rs1 := w.extractLsb' 15 5, rd := w.extractLsb' 7 5 }

/-- The S-format word of operation `o` in group `g` (R56). -/
def SFld.pack (x : SFld) (o g : Nat) : W32 :=
  BitVec.ofNat 4 o ++ x.x ++ x.rs2 ++ x.rs1 ++ BitVec.ofNat 3 g ++ x.rd ++ majorS

/-- The fields of a lease word (R58). -/
def LeaseFld.ofWord (w : W32) : LeaseFld :=
  { n := w.extractLsb' 24 8, z := w.extractLsb' 20 4, rs1 := w.extractLsb' 15 5, words := w.extractLsb' 7 5 }

/-- The lease word (R58). -/
def LeaseFld.pack (x : LeaseFld) : W32 := x.n ++ x.z ++ x.rs1 ++ 0b100#3 ++ x.words ++ majorS

/-- The fields of a vrep word (R58). -/
def VrepFld.ofWord (w : W32) : VrepFld :=
  { n := w.extractLsb' 20 12, s := w.extractLsb' 15 5, k := w.extractLsb' 8 4, z := w.extractLsb' 7 1 }

/-- The vrep word (R58). -/
def VrepFld.pack (x : VrepFld) : W32 := x.n ++ x.s ++ 0b110#3 ++ x.k ++ x.z ++ majorS

/-- The fields of a pfx word (R58). -/
def PfxFld.ofWord (w : W32) : PfxFld :=
  { z := w.extractLsb' 26 6, dcv := w.extractLsb' 25 1, dreg := w.extractLsb' 20 5, y := w.extractLsb' 15 5,
    mreg := w.extractLsb' 9 3, inv := w.extractLsb' 8 1, zero := w.extractLsb' 7 1 }

/-- The pfx word (R58). -/
def PfxFld.pack (x : PfxFld) : W32 :=
  x.z ++ x.dcv ++ x.dreg ++ x.y ++ 0b111#3 ++ x.mreg ++ x.inv ++ x.zero ++ majorS

/-- The fields of a configuration word (R63). -/
def CfgFld.ofWord (w : W32) : CfgFld :=
  { hi := w.extractLsb' 25 3, lo := w.extractLsb' 20 5, rs1 := w.extractLsb' 15 5, rd := w.extractLsb' 7 5 }

/-- The configuration word of kind `q`: 0 is vcfg, 1 is vcfgi (R63). -/
def CfgFld.pack (x : CfgFld) (q : Nat) : W32 :=
  0b11#2 ++ BitVec.ofNat 2 q ++ x.hi ++ x.lo ++ x.rs1 ++ 0b111#3 ++ x.rd ++ majorP

/-! ## The opcode map -/

/-- Major A (R60). -/
def aTable : List (Option (Fld → Instr)) :=
  [some .vadd, some .vsub, some .vrsub, some .vadc, some .vsbc, some .vmul, some .vmulh, some .vmulhz,
   some .vmacc, some .vnmsac, some .vdiv, some .vdivz, some .vrem, some .vremz, some .vmin, some .vminz,
   some .vmax, some .vmaxz, some .vsadd, some .vsaddz, some .vssub, some .vssubz, some .vavg, some .vabsd,
   some .vand, some .vor, some .vxor, some .vandn, some .vsll, some .vsrl, some .vsra, some .vrol]

/-- Major F, forms VV and VS (R61). -/
def fTable : List (Option (Fld → Instr)) :=
  [some .vfadd, some .vfsub, some .vfmul, some .vfdiv, some .vfmadd, some .vfmsub, some .vfnmadd,
   some .vfnmsub, some .vfmin, some .vfmax, some .vfsgnj, some .vfsgnjn, some .vfsgnjx, some .vfceq,
   some .vfclt, some .vfcle, some .vfredsum, some .vfredtree, some .vfredmin, some .vfredmax, some .mxdot,
   none, none, none, some .pladd, some .plsub, some .plmul, some .pldot, some .plcmp]

/-- Major F, the unary bank (R61). -/
def fUnary : List (Option (Fld → Instr)) :=
  [some .vfsqrt, some .vfclass, some .vfrec, some .vfrsq, some .vfexp2, some .vfcvt, some .vfround,
   some .mxpack, some .mxunpack, some .plconv]

/-- Major P, binary operations (R62); the configuration point is decoded apart (R63). -/
def pTable : List (Option (Fld → Instr)) :=
  [some .vceq, some .vcne, some .vclt, some .vcltz, some .vcle, some .vclez, some .vcgt, some .vcgtz,
   some .vredsum, some .vredmin, some .vredminz, some .vredmax, some .vredmaxz, some .vredand, some .vredor,
   some .vredxor, some .vslup, some .vsldn, some .vsl1up, some .vsl1dn, some .vgath, some .vmerge,
   some .vxput, some .vxget, some .mand, some .mor, some .mxor, some .mandn, some .mshl, some .vbcast]

/-- Major P, the unary bank (R62). -/
def pUnary : List (Option (Fld → Instr)) :=
  [some .vmov, some .vcomp, some .vexpd, some .vconf, some .viota, some .vidx, some .vwiden, some .vnarrow,
   some .vsext, some .vzext, some .vclz, some .vctz, some .vpopc, some .vbrev, some .mnot, some .mmov,
   some .mpop, some .mfirst, some .mvtom, some .mmtov]

/-- Major M (R64). -/
def mTable : List (Option (Fld → Instr)) :=
  [some .vld, some .vlds, some .vldx, some .vldseg, some .vldm, some .sld, some .vwait, none, some .vst,
   some .vsts, some .vstx, some .vstxa, some .vstseg, some .vstm]

/-- Major K (R65). -/
def kTable : List (Option (Fld → Instr)) :=
  [some .wdecl, some .wacc, some .wmerge, some .wdrop, some .wstat, some .mattach, some .mdetach,
   some .mload, some .mmac, some .mzero, some .mread, some .mwrite, some .msync]

/-- Major G (R66). -/
def gTable : List (Option (Fld → Instr)) :=
  [some .rboxt, some .rtrit, some .bbovl, some .txs, some .txg, some .txf, some .txlod]

/-- S group 000 (R57). -/
def sGroup0 : List (SFld → Instr) :=
  [.tspawn, .tspawnp, .tnext, .tyield, .tblock, .tunblock, .tticket, .tcommit, .tqstat]

/-- S group 001 (R57). -/
def sGroup1 : List (SFld → Instr) :=
  [.darrive, .dwait, .dbar, .dphase]

/-- S group 010 (R57). -/
def sGroup2 : List (SFld → Instr) :=
  [.ordSv, .ordVs, .ordVv, .ordAll, .vdrain]

/-- S group 011 (R57). -/
def sGroup3 : List (SFld → Instr) :=
  [.sopen, .savail, .sres, .sclose]

/-- S group 101 (R57). -/
def sGroup5 : List (SFld → Instr) :=
  [.unlease, .swait, .mkick, .hmsg, .park, .uiret]

/-- The entry of a map, if the point is assigned. -/
def point {α : Type} (t : List (Option α)) (i : Nat) : Except DecodeError α :=
  match t[i]? with
  | some (some c) => .ok c
  | _ => .error .unassigned

/-- The S-format word (R57, R58). -/
def decodeS (w : W32) : Except DecodeError Instr :=
  let pick (t : List (SFld → Instr)) : Except DecodeError Instr :=
    match t[(w.extractLsb' 28 4).toNat]? with
    | some c => .ok (c (SFld.ofWord w))
    | none => .error .unassigned
  match (w.extractLsb' 12 3).toNat with
  | 0 => pick sGroup0
  | 1 => pick sGroup1
  | 2 => pick sGroup2
  | 3 => pick sGroup3
  | 4 => .ok (.lease (LeaseFld.ofWord w))
  | 5 => pick sGroup5
  | 6 => .ok (.vrep (VrepFld.ofWord w))
  | _ => .ok (.pfx (PfxFld.ofWord w))

/-- The P word (R62, R63). -/
def decodeP (w : W32) : Except DecodeError Instr :=
  if opIndex w = 31 then
    match (w.extractLsb' 28 2).toNat with
    | 0 => .ok (.vcfg (CfgFld.ofWord w))
    | 1 => .ok (.vcfgi (CfgFld.ofWord w))
    | _ => .error .unassigned
  else do
    let c ← point (if w.extractLsb' 25 2 = 3#2 then pUnary else pTable) (opIndex w)
    .ok (c (Fld.ofWord w))

/-! ## Standard instructions (R15, R52) -/

/-- Loads by width code. -/
def ldKinds : List LdKind := [.lb, .lh, .lw, .ld, .lbu, .lhu, .lwu]
/-- Stores by width code. -/
def stKinds : List StKind := [.sb, .sh, .sw, .sd]

/-- The offset of a branch, imm[12:1]. -/
def immB (w : W32) : BitVec 12 :=
  w.extractLsb' 31 1 ++ w.extractLsb' 7 1 ++ w.extractLsb' 25 6 ++ w.extractLsb' 8 4
/-- The offset of jal, imm[20:1]. -/
def immJ (w : W32) : BitVec 20 :=
  w.extractLsb' 31 1 ++ w.extractLsb' 12 8 ++ w.extractLsb' 20 1 ++ w.extractLsb' 21 10
/-- The offset of a store. -/
def immS (w : W32) : BitVec 12 := w.extractLsb' 25 7 ++ w.extractLsb' 7 5

/-- OP and OP-32 words: (funct7, funct3) of each operation. -/
def regOps : List (RegOp × Nat × Nat) :=
  [(.add, 0x00, 0), (.sub, 0x20, 0), (.sll, 0x00, 1), (.slt, 0x00, 2), (.sltu, 0x00, 3), (.xor, 0x00, 4),
   (.srl, 0x00, 5), (.sra, 0x20, 5), (.or, 0x00, 6), (.and, 0x00, 7),
   (.mul, 0x01, 0), (.mulh, 0x01, 1), (.mulhsu, 0x01, 2), (.mulhu, 0x01, 3),
   (.div, 0x01, 4), (.divu, 0x01, 5), (.rem, 0x01, 6), (.remu, 0x01, 7),
   (.sh1add, 0x10, 2), (.sh2add, 0x10, 4), (.sh3add, 0x10, 6),
   (.andn, 0x20, 7), (.orn, 0x20, 6), (.xnor, 0x20, 4),
   (.min, 0x05, 4), (.minu, 0x05, 5), (.max, 0x05, 6), (.maxu, 0x05, 7), (.rol, 0x30, 1), (.ror, 0x30, 5)]

/-- OP-32 words. -/
def regOps32 : List (RegOp × Nat × Nat) :=
  [(.addw, 0x00, 0), (.subw, 0x20, 0), (.sllw, 0x00, 1), (.srlw, 0x00, 5), (.sraw, 0x20, 5),
   (.mulw, 0x01, 0), (.divw, 0x01, 4), (.divuw, 0x01, 5), (.remw, 0x01, 6), (.remuw, 0x01, 7),
   (.addUw, 0x04, 0), (.sh1addUw, 0x10, 2), (.sh2addUw, 0x10, 4), (.sh3addUw, 0x10, 6),
   (.rolw, 0x30, 1), (.rorw, 0x30, 5)]

/-- Shifts by an immediate: (funct6, funct3) under OP-IMM. -/
def shOps : List (ShOp × Nat × Nat) := [(.slli, 0x00, 1), (.srli, 0x00, 5), (.srai, 0x10, 5), (.rori, 0x18, 5)]
/-- Shifts by an immediate under OP-IMM-32. -/
def shOps32 : List (ShOp × Nat × Nat) :=
  [(.slliw, 0x00, 1), (.srliw, 0x00, 5), (.sraiw, 0x10, 5), (.roriw, 0x18, 5), (.slliUw, 0x02, 1)]
/-- One-operand operations of Zbb: (bits [31:20], funct3) under OP-IMM. -/
def unOps : List (UnOp × Nat × Nat) :=
  [(.clz, 0x600, 1), (.ctz, 0x601, 1), (.cpop, 0x602, 1), (.sextB, 0x604, 1), (.sextH, 0x605, 1),
   (.orcB, 0x287, 5), (.rev8, 0x6b8, 5)]
/-- One-operand operations under OP-IMM-32. -/
def unOps32 : List (UnOp × Nat × Nat) := [(.clzw, 0x600, 1), (.ctzw, 0x601, 1), (.cpopw, 0x602, 1)]
/-- Register-immediate operations by funct3 under OP-IMM. -/
def immOps : List (ImmOp × Nat) := [(.addi, 0), (.slti, 2), (.sltiu, 3), (.xori, 4), (.ori, 6), (.andi, 7)]
/-- The AMO operations by funct5. -/
def amoOps : List (AmoOp × Nat) :=
  [(.swap, 1), (.add, 0), (.xor, 4), (.and, 12), (.or, 8), (.min, 16), (.max, 20), (.minu, 24), (.maxu, 28)]
/-- The branches by funct3. -/
def brOps : List (BrCond × Nat) := [(.eq, 0), (.ne, 1), (.lt, 4), (.ge, 5), (.ltu, 6), (.geu, 7)]

/-- The operation whose two codes are `x` and `y`. -/
def find2 {α : Type} (l : List (α × Nat × Nat)) (x y : Nat) : Option α :=
  match l with
  | [] => none
  | (o, p, q) :: r => if p = x ∧ q = y then some o else find2 r x y

/-- The operation whose code is `x`. -/
def find1 {α : Type} (l : List (α × Nat)) (x : Nat) : Option α :=
  match l with
  | [] => none
  | (o, p) :: r => if p = x then some o else find1 r x

/-- The two codes of an operation, zero for one the list does not hold. -/
def code2 {α : Type} [DecidableEq α] (l : List (α × Nat × Nat)) (o : α) : Nat × Nat :=
  match l with
  | [] => (0, 0)
  | (o', p, q) :: r => if o' = o then (p, q) else code2 r o

/-- The code of an operation, zero for one the list does not hold. -/
def code1 {α : Type} [DecidableEq α] (l : List (α × Nat)) (o : α) : Nat :=
  match l with
  | [] => 0
  | (o', p) :: r => if o' = o then p else code1 r o

/-- The fields of a standard word. -/
def fRd (w : W32) : BitVec 5 := w.extractLsb' 7 5
/-- rs1. -/
def fRs1 (w : W32) : BitVec 5 := w.extractLsb' 15 5
/-- rs2. -/
def fRs2 (w : W32) : BitVec 5 := w.extractLsb' 20 5
/-- funct3. -/
def fF3 (w : W32) : Nat := (w.extractLsb' 12 3).toNat
/-- funct7. -/
def fF7 (w : W32) : Nat := (w.extractLsb' 25 7).toNat
/-- Bits [31:20]. -/
def fI (w : W32) : BitVec 12 := w.extractLsb' 20 12

/-- OP-FP words. -/
def decodeOpFp (w : W32) : Option Rv :=
  let rd := fRd w
  let rs1 := fRs1 w
  let rs2 := fRs2 w
  let rm := w.extractLsb' 12 3
  let fmt? : Option FpFmt := match (w.extractLsb' 25 2).toNat with
    | 0 => some .s
    | 1 => some .d
    | _ => none
  match fmt? with
  | none => none
  | some p =>
    match (w.extractLsb' 27 5).toNat with
    | 0 => some (.farith .add p rd rs1 rs2 rm)
    | 1 => some (.farith .sub p rd rs1 rs2 rm)
    | 2 => some (.farith .mul p rd rs1 rs2 rm)
    | 3 => some (.farith .div p rd rs1 rs2 rm)
    | 11 => if rs2 = 0 then some (.fsqrt p rd rs1 rm) else none
    | 4 => match rm.toNat with
      | 0 => some (.fsel .sgnj p rd rs1 rs2)
      | 1 => some (.fsel .sgnjn p rd rs1 rs2)
      | 2 => some (.fsel .sgnjx p rd rs1 rs2)
      | _ => none
    | 5 => match rm.toNat with
      | 0 => some (.fsel .min p rd rs1 rs2)
      | 1 => some (.fsel .max p rd rs1 rs2)
      | _ => none
    | 8 => match p, rs2.toNat with
      | .s, 1 => some (.fcvtSD rd rs1 rm)
      | .d, 0 => some (.fcvtDS rd rs1 rm)
      | _, _ => none
    | 20 => match rm.toNat with
      | 0 => some (.fcmp .le p rd rs1 rs2)
      | 1 => some (.fcmp .lt p rd rs1 rs2)
      | 2 => some (.fcmp .eq p rd rs1 rs2)
      | _ => none
    | 24 => match rs2.toNat with
      | 0 => some (.fcvtToInt .w p rd rs1 rm)
      | 1 => some (.fcvtToInt .wu p rd rs1 rm)
      | 2 => some (.fcvtToInt .l p rd rs1 rm)
      | 3 => some (.fcvtToInt .lu p rd rs1 rm)
      | _ => none
    | 26 => match rs2.toNat with
      | 0 => some (.fcvtFromInt .w p rd rs1 rm)
      | 1 => some (.fcvtFromInt .wu p rd rs1 rm)
      | 2 => some (.fcvtFromInt .l p rd rs1 rm)
      | 3 => some (.fcvtFromInt .lu p rd rs1 rm)
      | _ => none
    | 28 => if rs2 = 0 then match rm.toNat with
        | 0 => some (.fmvToX p rd rs1)
        | 1 => some (.fclass p rd rs1)
        | _ => none
      else none
    | 30 => if rs2 = 0 ∧ rm = 0 then some (.fmvFromX p rd rs1) else none
    | _ => none

/-- Fused multiply-add words. -/
def decodeFma (o : FmaOp) (w : W32) : Option Rv :=
  match (w.extractLsb' 25 2).toNat with
  | 0 => some (.fma o .s (fRd w) (fRs1 w) (fRs2 w) (w.extractLsb' 27 5) (w.extractLsb' 12 3))
  | 1 => some (.fma o .d (fRd w) (fRs1 w) (fRs2 w) (w.extractLsb' 27 5) (w.extractLsb' 12 3))
  | _ => none

/-- OP-IMM words. -/
def decodeOpImm (w : W32) : Option Rv :=
  match find1 immOps (fF3 w) with
  | some o => some (.opImm o (fRd w) (fRs1 w) (fI w))
  | none =>
    match find2 shOps (w.extractLsb' 26 6).toNat (fF3 w) with
    | some o => some (.shImm o (fRd w) (fRs1 w) (w.extractLsb' 20 6))
    | none => (find2 unOps (fI w).toNat (fF3 w)).map (fun o => .unary o (fRd w) (fRs1 w))

/-- OP-IMM-32 words. -/
def decodeOpImm32 (w : W32) : Option Rv :=
  if fF3 w = 0 then some (.opImm .addiw (fRd w) (fRs1 w) (fI w))
  else match find2 unOps32 (fI w).toNat (fF3 w) with
    | some o => some (.unary o (fRd w) (fRs1 w))
    | none => (find2 shOps32 (w.extractLsb' 26 6).toNat (fF3 w)).map
        (fun o => .shImm o (fRd w) (fRs1 w) (w.extractLsb' 20 6))

/-- The standard words that have no row of their own. -/
def decodeRv (w : W32) : Option Rv :=
  match (w.extractLsb' 0 7).toNat with
  | 0x37 => some (.lui (fRd w) (w.extractLsb' 12 20))
  | 0x17 => some (.auipc (fRd w) (w.extractLsb' 12 20))
  | 0x6f => some (.jal (fRd w) (immJ w))
  | 0x67 => if fF3 w = 0 then some (.jalr (fRd w) (fRs1 w) (fI w)) else none
  | 0x63 => (find1 brOps (fF3 w)).map (fun c => .branch c (fRs1 w) (fRs2 w) (immB w))
  | 0x03 => (ldKinds[fF3 w]?).map (fun c => .load c (fRd w) (fRs1 w) (fI w))
  | 0x23 => (stKinds[fF3 w]?).map (fun c => .store c (fRs2 w) (fRs1 w) (immS w))
  | 0x13 => decodeOpImm w
  | 0x1b => decodeOpImm32 w
  | 0x33 => (find2 regOps (fF7 w) (fF3 w)).map (fun o => .op o (fRd w) (fRs1 w) (fRs2 w))
  | 0x3b =>
    if fF7 w = 0x04 ∧ fF3 w = 4 then (if fRs2 w = 0 then some (.unary .zextH (fRd w) (fRs1 w)) else none)
    else (find2 regOps32 (fF7 w) (fF3 w)).map (fun o => .op o (fRd w) (fRs1 w) (fRs2 w))
  | 0x0f => if fF3 w = 0 then
      some (.fence (w.extractLsb' 28 4) (w.extractLsb' 24 4) (w.extractLsb' 20 4) (fRs1 w) (fRd w)) else none
  | 0x73 => if fF3 w = 0 ∧ fRd w = 0 ∧ fRs1 w = 0 then
      (match (fI w).toNat with
       | 0 => some .ecall
       | 1 => some .ebreak
       | _ => none) else none
  | 0x07 => match fF3 w with
    | 2 => some (.fload .s (fRd w) (fRs1 w) (fI w))
    | 3 => some (.fload .d (fRd w) (fRs1 w) (fI w))
    | _ => none
  | 0x27 => match fF3 w with
    | 2 => some (.fstore .s (fRs2 w) (fRs1 w) (immS w))
    | 3 => some (.fstore .d (fRs2 w) (fRs1 w) (immS w))
    | _ => none
  | 0x43 => decodeFma .madd w
  | 0x47 => decodeFma .msub w
  | 0x4b => decodeFma .nmsub w
  | 0x4f => decodeFma .nmadd w
  | 0x53 => decodeOpFp w
  | _ => none

/-- The A extension's words (R15). -/
def decodeAmo (w : W32) : Option Instr :=
  let sz? : Option AmoW := match fF3 w with
    | 2 => some .w32
    | 3 => some .w64
    | _ => none
  match sz? with
  | none => none
  | some sz =>
    match (w.extractLsb' 27 5).toNat with
    | 2 => if fRs2 w = 0 then some (.lr sz (w.extractLsb' 26 1) (w.extractLsb' 25 1) (fRs1 w) (fRd w)) else none
    | 3 => some (.sc sz (w.extractLsb' 26 1) (w.extractLsb' 25 1) (fRs2 w) (fRs1 w) (fRd w))
    | n => (find1 amoOps n).map
        (fun o => .amo o sz (w.extractLsb' 26 1) (w.extractLsb' 25 1) (fRs2 w) (fRs1 w) (fRd w))

/-- Zicsr, the trap returns, WFI and SFENCE.VMA. -/
def decodeSystem (w : W32) : Option Instr :=
  match fF3 w with
  | 0 =>
    if fF7 w = 0x09 ∧ fRd w = 0 then some (.sfenceVma (fRs2 w) (fRs1 w))
    else if fRd w = 0 ∧ fRs1 w = 0 then
      match (fI w).toNat with
      | 0x302 => some (.xret true)
      | 0x102 => some (.xret false)
      | 0x105 => some .wfi
      | _ => none
    else none
  | 1 => some (.csrAccess .rw false (fI w) (fRs1 w) (fRd w))
  | 2 => some (.csrAccess .rs false (fI w) (fRs1 w) (fRd w))
  | 3 => some (.csrAccess .rc false (fI w) (fRs1 w) (fRd w))
  | 5 => some (.csrAccess .rw true (fI w) (fRs1 w) (fRd w))
  | 6 => some (.csrAccess .rs true (fI w) (fRs1 w) (fRd w))
  | 7 => some (.csrAccess .rc true (fI w) (fRs1 w) (fRd w))
  | _ => none

/-- The standard majors (R52). -/
def decodeStandard (w : W32) : Except DecodeError Instr :=
  let i? : Option Instr :=
    match decodeRv w with
    | some r => some (.riscvInstruction r)
    | none =>
      match (w.extractLsb' 0 7).toNat with
      | 0x0f => if fF3 w = 1 then some (.fenceI (fI w) (fRs1 w) (fRd w)) else none
      | 0x2f => decodeAmo w
      | 0x73 => decodeSystem w
      | _ => none
  match i? with
  | some i => .ok i
  | none => .error .undefinedStandard

/-! ## The decoder -/

/-- The constructor a word names, before its must-be-zero fields are checked. -/
def decodePoint (w : W32) : Except DecodeError Instr :=
  let at' (t : List (Option (Fld → Instr))) : Except DecodeError Instr := do
    let c ← point t (opIndex w)
    .ok (c (Fld.ofWord w))
  match (w.extractLsb' 0 7).toNat with
  | 0x0b => decodeS w
  | 0x2b => at' mTable
  | 0x5b => at' aTable
  | 0x7b => at' (if w.extractLsb' 25 2 = 3#2 then fUnary else fTable)
  | 0x57 => decodeP w
  | 0x6b => at' kTable
  | 0x77 => at' gTable
  | 0x1f => .error .longStandard
  | 0x3f => .error .longStandard
  | 0x5f => .error .longStandard
  | 0x7f => .error .longStandard
  | _ => if w.extractLsb' 0 2 = 3#2 then decodeStandard w else .error .notThirtyTwoBit

/-- The instruction of a word (R52). -/
def decode (w : W32) : Except DecodeError Instr :=
  match decodePoint w with
  | .ok i => if i.wellFormed then .ok i else .error .illFormed
  | .error e => .error e

/-- Four bytes as a word, the first the least significant (R6, R52). -/
def wordOfBytes (b0 b1 b2 b3 : Byte) : W32 := b3 ++ b2 ++ b1 ++ b0

/-- The first instruction of a list of bytes, and the bytes after it. -/
def decodeBytes : List Byte → Except DecodeError (Instr × List Byte)
  | b0 :: b1 :: b2 :: b3 :: rest =>
    match decode (wordOfBytes b0 b1 b2 b3) with
    | .ok i => .ok (i, rest)
    | .error e => .error e
  | _ => .error .truncated

/-- The first `n` bytes of a number, the least significant first. -/
def bytesOfNat : Nat → Nat → List Byte
  | 0, _ => []
  | n + 1, w => BitVec.ofNat 8 w :: bytesOfNat n (w / 256)

/-- What the decoder reads from an instruction of the opcode table's numbering: bit 0 is the least significant bit
of the word. -/
def decodeTableWord (nbits w : Nat) : Option Instr :=
  match decodeBytes (bytesOfNat 4 (w % 2 ^ nbits)) with
  | .ok (i, _) => some i
  | .error _ => none

/-! ## The encoder -/

/-- An I-type word. -/
def packI (imm : BitVec 12) (rs1 : BitVec 5) (f3 : Nat) (rd : BitVec 5) (m : BitVec 7) : W32 :=
  imm ++ rs1 ++ BitVec.ofNat 3 f3 ++ rd ++ m
/-- An R-type word. -/
def packR (f7 : Nat) (rs2 rs1 : BitVec 5) (f3 : Nat) (rd : BitVec 5) (m : BitVec 7) : W32 :=
  BitVec.ofNat 7 f7 ++ rs2 ++ rs1 ++ BitVec.ofNat 3 f3 ++ rd ++ m
/-- An S-type word. -/
def packS (imm : BitVec 12) (rs2 rs1 : BitVec 5) (f3 : Nat) (m : BitVec 7) : W32 :=
  imm.extractLsb' 5 7 ++ rs2 ++ rs1 ++ BitVec.ofNat 3 f3 ++ imm.extractLsb' 0 5 ++ m
/-- A B-type word; `imm` is the offset's bits [12:1]. -/
def packB (imm : BitVec 12) (rs2 rs1 : BitVec 5) (f3 : Nat) (m : BitVec 7) : W32 :=
  imm.extractLsb' 11 1 ++ imm.extractLsb' 4 6 ++ rs2 ++ rs1 ++ BitVec.ofNat 3 f3 ++ imm.extractLsb' 0 4 ++
    imm.extractLsb' 10 1 ++ m
/-- A U-type word. -/
def packU (imm : BitVec 20) (rd : BitVec 5) (m : BitVec 7) : W32 := imm ++ rd ++ m
/-- A J-type word; `imm` is the offset's bits [20:1]. -/
def packJ (imm : BitVec 20) (rd : BitVec 5) (m : BitVec 7) : W32 :=
  imm.extractLsb' 19 1 ++ imm.extractLsb' 0 10 ++ imm.extractLsb' 10 1 ++ imm.extractLsb' 11 8 ++ rd ++ m

/-- The format bits [26:25] of F and D. -/
def FpFmt.code : FpFmt → Nat
  | .s => 0
  | .d => 1
/-- The rs2 code of a conversion's integer format. -/
def IntFmt.code : IntFmt → BitVec 5
  | .w => 0
  | .wu => 1
  | .l => 2
  | .lu => 3
/-- The width code of an integer load. -/
def LdKind.code : LdKind → Nat
  | .lb => 0
  | .lh => 1
  | .lw => 2
  | .ld => 3
  | .lbu => 4
  | .lhu => 5
  | .lwu => 6
/-- The width code of an integer store. -/
def StKind.code : StKind → Nat
  | .sb => 0
  | .sh => 1
  | .sw => 2
  | .sd => 3
/-- Whether the operation lies under OP-32. -/
def RegOp.isW (o : RegOp) : Bool := (regOps32.map Prod.fst).contains o
/-- Whether the shift lies under OP-IMM-32. -/
def ShOp.isW (o : ShOp) : Bool := (shOps32.map Prod.fst).contains o
/-- Whether the operation lies under OP-IMM-32. -/
def UnOp.isW (o : UnOp) : Bool := (unOps32.map Prod.fst).contains o
/-- An OP-FP word. -/
def packFp (f5 : Nat) (p : FpFmt) (rs2 rs1 : BitVec 5) (rm : BitVec 3) (rd : BitVec 5) : W32 :=
  packR (f5 * 4 + p.code) rs2 rs1 rm.toNat rd 0x53#7
/-- The major of a fused multiply-add. -/
def FmaOp.major : FmaOp → BitVec 7
  | .madd => 0x43
  | .msub => 0x47
  | .nmsub => 0x4b
  | .nmadd => 0x4f
/-- The operation code of a rounding two-operand operation. -/
def FpOp.code : FpOp → Nat
  | .add => 0
  | .sub => 1
  | .mul => 2
  | .div => 3

/-- The word of a standard instruction. -/
def Rv.encode : Rv → W32
  | .lui rd imm => packU imm rd 0x37#7
  | .auipc rd imm => packU imm rd 0x17#7
  | .jal rd imm => packJ imm rd 0x6f#7
  | .jalr rd rs1 imm => packI imm rs1 0 rd 0x67#7
  | .branch c rs1 rs2 imm => packB imm rs2 rs1 (code1 brOps c) 0x63#7
  | .load k rd rs1 imm => packI imm rs1 k.code rd 0x03#7
  | .store k rs2 rs1 imm => packS imm rs2 rs1 k.code 0x23#7
  | .opImm .addiw rd rs1 imm => packI imm rs1 0 rd 0x1b#7
  | .opImm o rd rs1 imm => packI imm rs1 (code1 immOps o) rd 0x13#7
  | .shImm o rd rs1 sh =>
    if o.isW then packI (BitVec.ofNat 6 (code2 shOps32 o).1 ++ sh) rs1 (code2 shOps32 o).2 rd 0x1b#7
    else packI (BitVec.ofNat 6 (code2 shOps o).1 ++ sh) rs1 (code2 shOps o).2 rd 0x13#7
  | .op o rd rs1 rs2 =>
    if o.isW then packR (code2 regOps32 o).1 rs2 rs1 (code2 regOps32 o).2 rd 0x3b#7
    else packR (code2 regOps o).1 rs2 rs1 (code2 regOps o).2 rd 0x33#7
  | .unary .zextH rd rs1 => packR 0x04 0 rs1 4 rd 0x3b#7
  | .unary o rd rs1 =>
    if o.isW then packI (BitVec.ofNat 12 (code2 unOps32 o).1) rs1 (code2 unOps32 o).2 rd 0x1b#7
    else packI (BitVec.ofNat 12 (code2 unOps o).1) rs1 (code2 unOps o).2 rd 0x13#7
  | .fence fm pred succ rs1 rd => packI (fm ++ pred ++ succ) rs1 0 rd 0x0f#7
  | .ecall => packI 0 0 0 0 0x73#7
  | .ebreak => packI 1 0 0 0 0x73#7
  | .fload p rd rs1 imm => packI imm rs1 (2 + p.code) rd 0x07#7
  | .fstore p rs2 rs1 imm => packS imm rs2 rs1 (2 + p.code) 0x27#7
  | .fma o p rd rs1 rs2 rs3 rm => packR (rs3.toNat * 4 + p.code) rs2 rs1 rm.toNat rd o.major
  | .farith o p rd rs1 rs2 rm => packFp o.code p rs2 rs1 rm rd
  | .fsqrt p rd rs1 rm => packFp 11 p 0 rs1 rm rd
  | .fsel .sgnj p rd rs1 rs2 => packFp 4 p rs2 rs1 0 rd
  | .fsel .sgnjn p rd rs1 rs2 => packFp 4 p rs2 rs1 1 rd
  | .fsel .sgnjx p rd rs1 rs2 => packFp 4 p rs2 rs1 2 rd
  | .fsel .min p rd rs1 rs2 => packFp 5 p rs2 rs1 0 rd
  | .fsel .max p rd rs1 rs2 => packFp 5 p rs2 rs1 1 rd
  | .fcmp .le p rd rs1 rs2 => packFp 20 p rs2 rs1 0 rd
  | .fcmp .lt p rd rs1 rs2 => packFp 20 p rs2 rs1 1 rd
  | .fcmp .eq p rd rs1 rs2 => packFp 20 p rs2 rs1 2 rd
  | .fclass p rd rs1 => packFp 28 p 0 rs1 1 rd
  | .fcvtToInt i p rd rs1 rm => packFp 24 p i.code rs1 rm rd
  | .fcvtFromInt i p rd rs1 rm => packFp 26 p i.code rs1 rm rd
  | .fcvtSD rd rs1 rm => packFp 8 .s 1 rs1 rm rd
  | .fcvtDS rd rs1 rm => packFp 8 .d 0 rs1 rm rd
  | .fmvToX p rd rs1 => packFp 28 p 0 rs1 0 rd
  | .fmvFromX p rd rs1 => packFp 30 p 0 rs1 0 rd

/-- An AMO-major word. -/
def packAmo (f5 : Nat) (aq rl : BitVec 1) (rs2 rs1 : BitVec 5) (sz : AmoW) (rd : BitVec 5) : W32 :=
  packR (f5 * 4 + aq.toNat * 2 + rl.toNat) rs2 rs1 (match sz with | .w32 => 2 | .w64 => 3) rd 0x2f#7

/-- funct3 of a CSR instruction. -/
def csrF3 (o : CsrOp) (imm : Bool) : Nat :=
  (match o with | .rw => 1 | .rs => 2 | .rc => 3) + (if imm then 4 else 0)

/-- The word of an instruction (R52-R68); an event has none. -/
def encode : Instr → Option W32
  | .riscvInstruction op => some op.encode
  | .csrAccess o imm csr src rd => some (packI csr src (csrF3 o imm) rd 0x73#7)
  | .lr sz aq rl rs1 rd => some (packAmo 2 aq rl 0 rs1 sz rd)
  | .sc sz aq rl rs2 rs1 rd => some (packAmo 3 aq rl rs2 rs1 sz rd)
  | .amo o sz aq rl rs2 rs1 rd => some (packAmo (code1 amoOps o) aq rl rs2 rs1 sz rd)
  | .fenceI imm rs1 rd => some (packI imm rs1 1 rd 0x0f#7)
  | .sfenceVma rs2 rs1 => some (packR 0x09 rs2 rs1 0 0 0x73#7)
  | .wfi => some (packI 0x105 0 0 0 0x73#7)
  | .xret true => some (packI 0x302 0 0 0 0x73#7)
  | .xret false => some (packI 0x102 0 0 0 0x73#7)
  | .vadd w => some (w.pack 0 majorA)
  | .vsub w => some (w.pack 1 majorA)
  | .vrsub w => some (w.pack 2 majorA)
  | .vadc w => some (w.pack 3 majorA)
  | .vsbc w => some (w.pack 4 majorA)
  | .vmul w => some (w.pack 5 majorA)
  | .vmulh w => some (w.pack 6 majorA)
  | .vmulhz w => some (w.pack 7 majorA)
  | .vmacc w => some (w.pack 8 majorA)
  | .vnmsac w => some (w.pack 9 majorA)
  | .vdiv w => some (w.pack 10 majorA)
  | .vdivz w => some (w.pack 11 majorA)
  | .vrem w => some (w.pack 12 majorA)
  | .vremz w => some (w.pack 13 majorA)
  | .vmin w => some (w.pack 14 majorA)
  | .vminz w => some (w.pack 15 majorA)
  | .vmax w => some (w.pack 16 majorA)
  | .vmaxz w => some (w.pack 17 majorA)
  | .vsadd w => some (w.pack 18 majorA)
  | .vsaddz w => some (w.pack 19 majorA)
  | .vssub w => some (w.pack 20 majorA)
  | .vssubz w => some (w.pack 21 majorA)
  | .vavg w => some (w.pack 22 majorA)
  | .vabsd w => some (w.pack 23 majorA)
  | .vand w => some (w.pack 24 majorA)
  | .vor w => some (w.pack 25 majorA)
  | .vxor w => some (w.pack 26 majorA)
  | .vandn w => some (w.pack 27 majorA)
  | .vsll w => some (w.pack 28 majorA)
  | .vsrl w => some (w.pack 29 majorA)
  | .vsra w => some (w.pack 30 majorA)
  | .vrol w => some (w.pack 31 majorA)
  | .vfadd w => some (w.pack 0 majorF)
  | .vfsub w => some (w.pack 1 majorF)
  | .vfmul w => some (w.pack 2 majorF)
  | .vfdiv w => some (w.pack 3 majorF)
  | .vfmadd w => some (w.pack 4 majorF)
  | .vfmsub w => some (w.pack 5 majorF)
  | .vfnmadd w => some (w.pack 6 majorF)
  | .vfnmsub w => some (w.pack 7 majorF)
  | .vfmin w => some (w.pack 8 majorF)
  | .vfmax w => some (w.pack 9 majorF)
  | .vfsgnj w => some (w.pack 10 majorF)
  | .vfsgnjn w => some (w.pack 11 majorF)
  | .vfsgnjx w => some (w.pack 12 majorF)
  | .vfceq w => some (w.pack 13 majorF)
  | .vfclt w => some (w.pack 14 majorF)
  | .vfcle w => some (w.pack 15 majorF)
  | .vfredsum w => some (w.pack 16 majorF)
  | .vfredtree w => some (w.pack 17 majorF)
  | .vfredmin w => some (w.pack 18 majorF)
  | .vfredmax w => some (w.pack 19 majorF)
  | .mxdot w => some (w.pack 20 majorF)
  | .pladd w => some (w.pack 24 majorF)
  | .plsub w => some (w.pack 25 majorF)
  | .plmul w => some (w.pack 26 majorF)
  | .pldot w => some (w.pack 27 majorF)
  | .plcmp w => some (w.pack 28 majorF)
  | .vfsqrt w => some (w.pack 0 majorF)
  | .vfclass w => some (w.pack 1 majorF)
  | .vfrec w => some (w.pack 2 majorF)
  | .vfrsq w => some (w.pack 3 majorF)
  | .vfexp2 w => some (w.pack 4 majorF)
  | .vfcvt w => some (w.pack 5 majorF)
  | .vfround w => some (w.pack 6 majorF)
  | .mxpack w => some (w.pack 7 majorF)
  | .mxunpack w => some (w.pack 8 majorF)
  | .plconv w => some (w.pack 9 majorF)
  | .vceq w => some (w.pack 0 majorP)
  | .vcne w => some (w.pack 1 majorP)
  | .vclt w => some (w.pack 2 majorP)
  | .vcltz w => some (w.pack 3 majorP)
  | .vcle w => some (w.pack 4 majorP)
  | .vclez w => some (w.pack 5 majorP)
  | .vcgt w => some (w.pack 6 majorP)
  | .vcgtz w => some (w.pack 7 majorP)
  | .vredsum w => some (w.pack 8 majorP)
  | .vredmin w => some (w.pack 9 majorP)
  | .vredminz w => some (w.pack 10 majorP)
  | .vredmax w => some (w.pack 11 majorP)
  | .vredmaxz w => some (w.pack 12 majorP)
  | .vredand w => some (w.pack 13 majorP)
  | .vredor w => some (w.pack 14 majorP)
  | .vredxor w => some (w.pack 15 majorP)
  | .vslup w => some (w.pack 16 majorP)
  | .vsldn w => some (w.pack 17 majorP)
  | .vsl1up w => some (w.pack 18 majorP)
  | .vsl1dn w => some (w.pack 19 majorP)
  | .vgath w => some (w.pack 20 majorP)
  | .vmerge w => some (w.pack 21 majorP)
  | .vxput w => some (w.pack 22 majorP)
  | .vxget w => some (w.pack 23 majorP)
  | .mand w => some (w.pack 24 majorP)
  | .mor w => some (w.pack 25 majorP)
  | .mxor w => some (w.pack 26 majorP)
  | .mandn w => some (w.pack 27 majorP)
  | .mshl w => some (w.pack 28 majorP)
  | .vbcast w => some (w.pack 29 majorP)
  | .vmov w => some (w.pack 0 majorP)
  | .vcomp w => some (w.pack 1 majorP)
  | .vexpd w => some (w.pack 2 majorP)
  | .vconf w => some (w.pack 3 majorP)
  | .viota w => some (w.pack 4 majorP)
  | .vidx w => some (w.pack 5 majorP)
  | .vwiden w => some (w.pack 6 majorP)
  | .vnarrow w => some (w.pack 7 majorP)
  | .vsext w => some (w.pack 8 majorP)
  | .vzext w => some (w.pack 9 majorP)
  | .vclz w => some (w.pack 10 majorP)
  | .vctz w => some (w.pack 11 majorP)
  | .vpopc w => some (w.pack 12 majorP)
  | .vbrev w => some (w.pack 13 majorP)
  | .mnot w => some (w.pack 14 majorP)
  | .mmov w => some (w.pack 15 majorP)
  | .mpop w => some (w.pack 16 majorP)
  | .mfirst w => some (w.pack 17 majorP)
  | .mvtom w => some (w.pack 18 majorP)
  | .mmtov w => some (w.pack 19 majorP)
  | .vld w => some (w.pack 0 majorM)
  | .vlds w => some (w.pack 1 majorM)
  | .vldx w => some (w.pack 2 majorM)
  | .vldseg w => some (w.pack 3 majorM)
  | .vldm w => some (w.pack 4 majorM)
  | .sld w => some (w.pack 5 majorM)
  | .vwait w => some (w.pack 6 majorM)
  | .vst w => some (w.pack 8 majorM)
  | .vsts w => some (w.pack 9 majorM)
  | .vstx w => some (w.pack 10 majorM)
  | .vstxa w => some (w.pack 11 majorM)
  | .vstseg w => some (w.pack 12 majorM)
  | .vstm w => some (w.pack 13 majorM)
  | .wdecl w => some (w.pack 0 majorK)
  | .wacc w => some (w.pack 1 majorK)
  | .wmerge w => some (w.pack 2 majorK)
  | .wdrop w => some (w.pack 3 majorK)
  | .wstat w => some (w.pack 4 majorK)
  | .mattach w => some (w.pack 5 majorK)
  | .mdetach w => some (w.pack 6 majorK)
  | .mload w => some (w.pack 7 majorK)
  | .mmac w => some (w.pack 8 majorK)
  | .mzero w => some (w.pack 9 majorK)
  | .mread w => some (w.pack 10 majorK)
  | .mwrite w => some (w.pack 11 majorK)
  | .msync w => some (w.pack 12 majorK)
  | .rboxt w => some (w.pack 0 majorG)
  | .rtrit w => some (w.pack 1 majorG)
  | .bbovl w => some (w.pack 2 majorG)
  | .txs w => some (w.pack 3 majorG)
  | .txg w => some (w.pack 4 majorG)
  | .txf w => some (w.pack 5 majorG)
  | .txlod w => some (w.pack 6 majorG)
  | .tspawn w => some (w.pack 0 0)
  | .tspawnp w => some (w.pack 1 0)
  | .tnext w => some (w.pack 2 0)
  | .tyield w => some (w.pack 3 0)
  | .tblock w => some (w.pack 4 0)
  | .tunblock w => some (w.pack 5 0)
  | .tticket w => some (w.pack 6 0)
  | .tcommit w => some (w.pack 7 0)
  | .tqstat w => some (w.pack 8 0)
  | .darrive w => some (w.pack 0 1)
  | .dwait w => some (w.pack 1 1)
  | .dbar w => some (w.pack 2 1)
  | .dphase w => some (w.pack 3 1)
  | .ordSv w => some (w.pack 0 2)
  | .ordVs w => some (w.pack 1 2)
  | .ordVv w => some (w.pack 2 2)
  | .ordAll w => some (w.pack 3 2)
  | .vdrain w => some (w.pack 4 2)
  | .sopen w => some (w.pack 0 3)
  | .savail w => some (w.pack 1 3)
  | .sres w => some (w.pack 2 3)
  | .sclose w => some (w.pack 3 3)
  | .unlease w => some (w.pack 0 5)
  | .swait w => some (w.pack 1 5)
  | .mkick w => some (w.pack 2 5)
  | .hmsg w => some (w.pack 3 5)
  | .park w => some (w.pack 4 5)
  | .uiret w => some (w.pack 5 5)
  | .vcfg w => some (w.pack 0)
  | .vcfgi w => some (w.pack 1)
  | .lease w => some w.pack
  | .vrep w => some w.pack
  | .pfx w => some w.pack
  | .reservationTimeout .. => none
  | .leaseExpiry .. => none
  | .preemptHalt .. => none
  | .restoreComplete .. => none
  | .swaitTimeout .. => none
  | .vwaitTimeout .. => none
  | .dwaitTimeout .. => none
  | .tcommitTimeout .. => none
  | .tspawnWaitTimeout .. => none
  | .shedGraceExpiry .. => none
  | .dieLinkRetrain .. => none
  | .remoteRequestAbandon .. => none
  | .unresponsiveAgentTimeout .. => none
  | .collectiveTimeout .. => none
  | .domainCompletion .. => none
  | .taskDelivery .. => none
  | .taskRequest .. => none
  | .taskReleasePerformed .. => none
  | .idlePlacement .. => none
  | .streamFill .. => none
  | .interruptTake .. => none
  | .userInterruptTake .. => none
  | .packageStart .. => none
  | .millinerRoutineStart .. => none
  | .tensorCopy .. => none
  | .mailboxOnly .. => none
  | .pageMigration .. => none
  | .migrationRegionCopy .. => none
  | .allReduce .. => none
  | .collectiveExchange .. => none
  | .userRoutine .. => none
  | .registerWrite .. => none
  | .domainArrival .. => none
  | .homeRd .. => none
  | .homeWr .. => none
  | .homeAmo .. => none
  | .homeGets .. => none
  | .homeUack .. => none
  | .sharerUpd .. => none
  | .sharerCmt .. => none
  | .writerWack .. => none
  | .requesterData .. => none
  | .ringDelivery .. => none
  | .telemetryFrame .. => none
  | .partBuild .. => none
  | .preempt .. => none
  | .restore .. => none
  | .hartCtlWake .. => none
  | .mgmtOpen .. => none
  | .plankerPass => none
  | .vectorEntryStart .. => none
  | .vectorEntryRetire .. => none
  | .timecmpMatch .. => none
  | .intSsip .. => none
  | .imsicSeteipnum .. => none
  | .waiterUpdate .. => none
  | .remoteSampleTick .. => none
  | .homeEvict .. => none
  | .sharerInv .. => none
  | .homeInvack .. => none
  | .homeLreq .. => none
  | .hartLgrant .. => none
  | .homeLend .. => none
  | .barrierBreak .. => none
  | .millinerKick .. => none
  | .reduceScatter .. => none
  | .allGather .. => none
  | .mlAbort .. => none
  | .hartWresWrite .. => none
  | .fringCtlWrite .. => none
  | .domCtlWrite .. => none
  | .tqRingWrite .. => none
  | .tseqCtlWrite .. => none
  | .fbrCtlWrite .. => none
  | .fclr .. => none
  | .clMrgWrite .. => none
  | .clTregWrite .. => none
  | .l2pinWrite .. => none
  | .telemetryLinkLoss => none
  | .islandRetention .. => none
  | .islandStart => none
  | .clqReq .. => none
  | .clqForce .. => none
  | .clqCancel .. => none
  | .clqErrClear .. => none
  | .retSave .. => none
  | .retSaveComplete .. => none
  | .clkGate .. => none
  | .railCtl .. => none
  | .railTransitionDone .. => none
  | .clusterWake .. => none
  | .clusterWakeComplete .. => none
  | .dieLinkReplay .. => none
  | .dieLinkRetrainDone .. => none
  | .agentDead .. => none
  | .agentDeadComplete .. => none
  | .migRel .. => none
  | .cold => none
  | .warmreq => none
  | .bootOk => none
  | .bootTimeout => none
  | .scCtlWake .. => none
  | .chrRetrain .. => none
  | .chrRetrainDone .. => none
  | .chrFlitReceive .. => none
  | .chrRd .. => none
  | .chrWr .. => none
  | .chrAmo .. => none
  | .chrLr .. => none
  | .chrSc .. => none
  | .chrData .. => none
  | .chrWack .. => none
  | .chrAmoresp .. => none
  | .routeChangeRelease => none
  | .pcieInboundWrite .. => none
  | .pcieInboundRead .. => none
  | .pcieMsi .. => none
  | .ident .. => none
  | .attest .. => none
  | .partScrub .. => none
  | .partJoin .. => none
  | .setFab .. => none
  | .fwStage .. => none
  | .fwCommit .. => none
  | .mgmtReset .. => none
  | .logRead .. => none
  | .telemRead .. => none
  | .recover .. => none
  | .pcieCompletion .. => none
  | .migRelComplete .. => none
  | .powerLoss => none

end Sys2Proof
end

