-- ==== Sys2Proof/Machine/Bits.lean ====
section
/-! DEFINITION. Bit fields, sign extension and byte order (spec/00, R6 and R8). -/

namespace Sys2Proof.Machine

/-- Bits [lo + n − 1 : lo] of a number. -/
def nbits (x lo n : Nat) : Nat := x / 2 ^ lo % 2 ^ n

/-- Bits [lo + n − 1 : lo] of a bit vector, as a number. -/
def fieldOf {w : Nat} (x : BitVec w) (lo n : Nat) : Nat := (x.extractLsb' lo n).toNat

/-- Bit `i` of a bit vector. -/
def bitOf {w : Nat} (x : BitVec w) (i : Nat) : Bool := x.getLsbD i

/-- `x` with bits [lo + n − 1 : lo] replaced by the low bits of `v`. -/
def setField {w : Nat} (x : BitVec w) (lo n : Nat) (v : Nat) : BitVec w :=
  (x &&& ~~~(BitVec.ofNat w ((2 ^ n - 1) * 2 ^ lo))) ||| BitVec.ofNat w (v % 2 ^ n * 2 ^ lo)

/-- `x` with bit `i` replaced. -/
def setBit {w : Nat} (x : BitVec w) (i : Nat) (b : Bool) : BitVec w := setField x i 1 b.toNat

/-- The two's-complement value of the low `n` bits of `x`. -/
def signedOf (n x : Nat) : Int :=
  if x % 2 ^ n < 2 ^ (n - 1) then (x % 2 ^ n : Nat) else (x % 2 ^ n : Nat) - (2 ^ n : Nat)

/-- The low `n` bits of an integer in two's complement. -/
def wrapTo (n : Nat) (x : Int) : Nat := (x % (2 ^ n : Nat)).toNat

/-- Sign extension of the low `n` bits of `x` to 64 bits. -/
def sext64 (n : Nat) (x : Nat) : Word := BitVec.ofInt 64 (signedOf n x)

/-- The number whose bytes, least significant first, are given. -/
def ofBytes : List Byte → Nat
  | [] => 0
  | b :: r => b.toNat + 256 * ofBytes r

/-- The first `n` bytes of a number, least significant first. -/
def toBytes : Nat → Nat → List Byte
  | 0, _ => []
  | n + 1, x => BitVec.ofNat 8 x :: toBytes n (x / 256)

/-- The first `n` bytes of a number, most significant first. -/
def toBytesBE (n x : Nat) : List Byte := (toBytes n x).reverse

/-- The number whose bytes, most significant first, are given. -/
def ofBytesBE (l : List Byte) : Nat := ofBytes l.reverse

/-- The bytes of a bit vector, least significant first. -/
def bytesOf {w : Nat} (x : BitVec w) (n : Nat) : List Byte := toBytes n x.toNat

/-- The number of one bits among the low `n` bits. -/
def countOnes : Nat → Nat → Nat
  | 0, _ => 0
  | n + 1, x => x % 2 + countOnes n (x / 2)

/-- The index of the lowest one bit among the low `n` bits, `n` where there is none. -/
def lowestOne : Nat → Nat → Nat
  | 0, _ => 0
  | n + 1, x => if x % 2 = 1 then 0 else 1 + lowestOne n (x / 2)

/-- The number of zero bits above the highest one bit of the low `n` bits. -/
def leadingZeros (n x : Nat) : Nat := n - (if x % 2 ^ n = 0 then 0 else Nat.log2 (x % 2 ^ n) + 1)

/-- The low `n` bits in reverse order. -/
def reverseBits : Nat → Nat → Nat
  | 0, _ => 0
  | n + 1, x => x % 2 * 2 ^ n + reverseBits n (x / 2)

/-- The least number `r` with `n ≤ r * k`. -/
def ceilDiv (n k : Nat) : Nat := (n + k - 1) / k

/-- The least `k` with `n ≤ 2 ^ k`. -/
def ceilLog2 (n : Nat) : Nat := if n ≤ 1 then 0 else Nat.log2 (n - 1) + 1

/-- `n` as bits of `w`. -/
abbrev bv (w n : Nat) : BitVec w := BitVec.ofNat w n

/-- Saturating increment of a counter. -/
def satInc {w : Nat} (x : BitVec w) : BitVec w := if x = BitVec.allOnes w then x else x + 1

end Sys2Proof.Machine
end

