-- ==== Sys2Proof/Machine/Crypto.lean ====
section
/-! DEFINITION. The published standards of firmware, identity and attestation (spec/00, R11; spec/19, R410, R413-R415):
SHA-384 (FIPS 180-4) and ECDSA on the curve P-384 (FIPS 186-5). Their texts are not part of the spec, which names them
(PRESUMED, assumption 39). -/

namespace Sys2Proof.Machine

/-! ## SHA-384 (FIPS 180-4) -/

/-- The round constants of rounds 0 to 19. -/
def shaConstants0 : List Nat :=
  [ 0x428A2F98D728AE22, 0x7137449123EF65CD, 0xB5C0FBCFEC4D3B2F, 0xE9B5DBA58189DBBC,
    0x3956C25BF348B538, 0x59F111F1B605D019, 0x923F82A4AF194F9B, 0xAB1C5ED5DA6D8118,
    0xD807AA98A3030242, 0x12835B0145706FBE, 0x243185BE4EE4B28C, 0x550C7DC3D5FFB4E2,
    0x72BE5D74F27B896F, 0x80DEB1FE3B1696B1, 0x9BDC06A725C71235, 0xC19BF174CF692694,
    0xE49B69C19EF14AD2, 0xEFBE4786384F25E3, 0x0FC19DC68B8CD5B5, 0x240CA1CC77AC9C65 ]

/-- The round constants of rounds 20 to 39. -/
def shaConstants1 : List Nat :=
  [ 0x2DE92C6F592B0275, 0x4A7484AA6EA6E483, 0x5CB0A9DCBD41FBD4, 0x76F988DA831153B5,
    0x983E5152EE66DFAB, 0xA831C66D2DB43210, 0xB00327C898FB213F, 0xBF597FC7BEEF0EE4,
    0xC6E00BF33DA88FC2, 0xD5A79147930AA725, 0x06CA6351E003826F, 0x142929670A0E6E70,
    0x27B70A8546D22FFC, 0x2E1B21385C26C926, 0x4D2C6DFC5AC42AED, 0x53380D139D95B3DF,
    0x650A73548BAF63DE, 0x766A0ABB3C77B2A8, 0x81C2C92E47EDAEE6, 0x92722C851482353B ]

/-- The round constants of rounds 40 to 59. -/
def shaConstants2 : List Nat :=
  [ 0xA2BFE8A14CF10364, 0xA81A664BBC423001, 0xC24B8B70D0F89791, 0xC76C51A30654BE30,
    0xD192E819D6EF5218, 0xD69906245565A910, 0xF40E35855771202A, 0x106AA07032BBD1B8,
    0x19A4C116B8D2D0C8, 0x1E376C085141AB53, 0x2748774CDF8EEB99, 0x34B0BCB5E19B48A8,
    0x391C0CB3C5C95A63, 0x4ED8AA4AE3418ACB, 0x5B9CCA4F7763E373, 0x682E6FF3D6B2B8A3,
    0x748F82EE5DEFB2FC, 0x78A5636F43172F60, 0x84C87814A1F0AB72, 0x8CC702081A6439EC ]

/-- The round constants of rounds 60 to 79. -/
def shaConstants3 : List Nat :=
  [ 0x90BEFFFA23631E28, 0xA4506CEBDE82BDE9, 0xBEF9A3F7B2C67915, 0xC67178F2E372532B,
    0xCA273ECEEA26619C, 0xD186B8C721C0C207, 0xEADA7DD6CDE0EB1E, 0xF57D4F7FEE6ED178,
    0x06F067AA72176FBA, 0x0A637DC5A2C898A6, 0x113F9804BEF90DAE, 0x1B710B35131C471B,
    0x28DB77F523047D84, 0x32CAAB7B40C72493, 0x3C9EBE0A15C9BEBC, 0x431D67C49C100D4C,
    0x4CC5D4BECB3E42B6, 0x597F299CFC657E2A, 0x5FCB6FAB3AD6FAEC, 0x6C44198C4A475817 ]

/-- The round constants: the first 64 bits of the fractions of the cube roots of the first 80 primes. -/
def shaConstants : List Nat := shaConstants0 ++ shaConstants1 ++ shaConstants2 ++ shaConstants3

/-- The eight working values. -/
structure Sha where
  a : Nat
  b : Nat
  c : Nat
  d : Nat
  e : Nat
  f : Nat
  g : Nat
  h : Nat
  deriving DecidableEq, Repr

/-- The initial values: the first 64 bits of the fractions of the square roots of the ninth to sixteenth primes. -/
def shaInit : Sha :=
  ⟨0xCBBB9D5DC1059ED8, 0x629A292A367CD507, 0x9159015A3070DD17, 0x152FECD8F70E5939,
    0x67332667FFC00B31, 0x8EB44A8768581511, 0xDB0C2E0D64F98FA7, 0x47B5481DBEFA4FA4⟩

/-- A 64-bit word rotated right. -/
def rotr64 (n x : Nat) : Nat := (x >>> n ||| x <<< (64 - n)) % 2 ^ 64

/-- The next word of the message schedule, from the words before it, the latest first. -/
def shaNext (w : List Nat) : Nat :=
  let g (i : Nat) : Nat := (w[i]?).getD 0
  let s0 := rotr64 1 (g 14) ^^^ rotr64 8 (g 14) ^^^ (g 14 >>> 7)
  let s1 := rotr64 19 (g 1) ^^^ rotr64 61 (g 1) ^^^ (g 1 >>> 6)
  (s1 + g 6 + s0 + g 15) % 2 ^ 64

/-- The 80 words of the schedule of a block. -/
def shaSchedule (block : List Byte) : List Nat :=
  let first := (List.range 16).map (fun i => ofBytesBE ((block.drop (8 * i)).take 8))
  ((List.range 64).foldl (fun w _ => shaNext w :: w) first.reverse).reverse

/-- One round with a schedule word and a constant. -/
def Sha.round (x : Sha) (w k : Nat) : Sha :=
  let s1 := rotr64 14 x.e ^^^ rotr64 18 x.e ^^^ rotr64 41 x.e
  let ch := (x.e &&& x.f) ^^^ ((2 ^ 64 - 1 - x.e) &&& x.g)
  let t1 := x.h + s1 + ch + k + w
  let s0 := rotr64 28 x.a ^^^ rotr64 34 x.a ^^^ rotr64 39 x.a
  let maj := (x.a &&& x.b) ^^^ (x.a &&& x.c) ^^^ (x.b &&& x.c)
  ⟨(t1 + s0 + maj) % 2 ^ 64, x.a, x.b, x.c, (x.d + t1) % 2 ^ 64, x.e, x.f, x.g⟩

/-- The values after a block. -/
def Sha.block (x : Sha) (l : List Byte) : Sha :=
  let y := ((shaSchedule l).zip shaConstants).foldl (fun y p => y.round p.1 p.2) x
  let s (a b : Nat) : Nat := (a + b) % 2 ^ 64
  ⟨s x.a y.a, s x.b y.b, s x.c y.c, s x.d y.d, s x.e y.e, s x.f y.f, s x.g y.g, s x.h y.h⟩

/-- SHA-384 of bytes: the message, a bit 1, zeros and the length in 128 bits, in blocks of 128 bytes. -/
def sha384 (l : List Byte) : BitVec 384 :=
  let n := (l.length + 17 + 127) / 128
  let m := l ++ 0x80#8 :: List.replicate (n * 128 - l.length - 17) 0 ++ toBytesBE 16 (8 * l.length)
  let y := (List.range n).foldl (fun y i => y.block ((m.drop (128 * i)).take 128)) shaInit
  bv 384 ([y.a, y.b, y.c, y.d, y.e, y.f].foldl (fun r w => r * 2 ^ 64 + w) 0)

/-! ## ECDSA P-384 (FIPS 186-5) -/

/-- The prime of the field of P-384. -/
def p384 : Nat :=
  0xFFFFFFFFFFFFFFFFFFFFFFFFFFFFFFFFFFFFFFFFFFFFFFFFFFFFFFFFFFFFFFFEFFFFFFFF0000000000000000FFFFFFFF
/-- The order of its base point. -/
def n384 : Nat :=
  0xFFFFFFFFFFFFFFFFFFFFFFFFFFFFFFFFFFFFFFFFFFFFFFFFC7634D81F4372DDF581A0DB248B0A77AECEC196ACCC52973
/-- Its base point. -/
def g384 : Nat × Nat :=
  (0xAA87CA22BE8B05378EB1C71EF320AD746E1D3B628BA79B9859F741E082542A385502F25DBF55296C3A545E3872760AB7,
   0x3617DE4A96262C6F5D9E98BF9292DC29F8F41DBD289A147CE9DA3113B5F0B8C00A60B1CE1D7E819D7A431D7C90EA0E5F)

/-- The bits of a number of 384 bits, the highest first. -/
def bits384 (k : Nat) : List Bool := (List.range 384).reverse.map k.testBit

/-- A power modulo a number. -/
def powMod (b e m : Nat) : Nat := (bits384 e).foldl (fun r t => r * r % m * (if t then b else 1) % m) 1

/-- The inverse modulo a prime. -/
def invMod (a m : Nat) : Nat := powMod a (m - 2) m

/-- A point of the curve y² = x³ − 3x + b, none at infinity. -/
abbrev EcPoint := Option (Nat × Nat)

/-- The point that a line of slope `l` through two points gives. -/
def chord (l : Nat) (p q : Nat × Nat) : Nat × Nat :=
  let x := (l * l + 2 * p384 - p.1 - q.1) % p384
  (x, (l * (p.1 + p384 - x) + p384 - p.2) % p384)

/-- The sum of two points, with coordinates below the prime. -/
def addPoint : EcPoint → EcPoint → EcPoint
  | none, q => q
  | p, none => p
  | some p, some q =>
    if p.1 ≠ q.1 then some (chord ((q.2 + p384 - p.2) * invMod (q.1 + p384 - p.1) p384) p q)
    else if (p.2 + q.2) % p384 = 0 then none
    else some (chord ((3 * p.1 * p.1 + p384 - 3) * invMod (2 * p.2) p384) p q)

/-- A multiple of a point. -/
def mulPoint (k : Nat) (p : EcPoint) : EcPoint :=
  (bits384 k).foldl (fun r t => if t then addPoint (addPoint r r) p else addPoint r r) none

/-- Whether (r, t) is a signature of a digest under a public key. -/
def verifies (key : Nat × Nat) (z : BitVec 384) (r t : Nat) : Bool :=
  let w := invMod t n384
  1 ≤ r && r < n384 && 1 ≤ t && t < n384
  && (match addPoint (mulPoint (z.toNat * w % n384) (some g384)) (mulPoint (r * w % n384) (some key)) with
      | some p => p.1 % n384 == r
      | none => false)

/-- The signature of a digest under a private key with a secret number. -/
def signs (d k : Nat) (z : BitVec 384) : Nat × Nat :=
  match mulPoint k (some g384) with
  | some p => (p.1 % n384, invMod k n384 * (z.toNat + p.1 % n384 * d) % n384)
  | none => (0, 0)

/-- A signature, r then s, each of 48 bytes with the most significant first (R410). -/
def signatureBytes (q : Nat × Nat) : List Byte := toBytesBE 48 q.1 ++ toBytesBE 48 q.2

/-- Whether 96 bytes are a signature of other bytes under a public key. -/
def signedBy (key : Nat × Nat) (l sig : List Byte) : Bool :=
  sig.length = 96 && verifies key (sha384 l) (ofBytesBE (sig.take 48)) (ofBytesBE (sig.drop 48))

end Sys2Proof.Machine
end

