-- ==== Sys2Proof/Machine/HartState.lean ====
section
/-! DEFINITION. The state of one hart: a compute hart, a system core or a Milliner. Default values are the values
after reset (spec/01, R31; spec/06, R143, R149). -/

namespace Sys2Proof.Machine

/-- The privilege modes (R14). -/
inductive Priv | u | s | m
  deriving DecidableEq, Repr

/-- One IMSIC interrupt file (R143): eidelivery, eithreshold, pending and enable bits. -/
structure Imsic where
  delivery : Word := 0
  threshold : Word := 0
  eip : BitVec 256 := 0
  eie : BitVec 256 := 0
  deriving DecidableEq, Repr

/-- The standard control and status registers (R15, R135, R143). `mipSw` holds the software-written bits of mip
(SSIP and SEIP); the other bits of mip follow the interrupt block and the interrupt files. `mcycle` and `minstret`
are the values the counters would have had at count zero. -/
structure Csrs where
  mstatus : Word := 0x0000_000A_0000_2000#64
  medeleg : Word := 0
  mideleg : Word := 0
  mie : Word := 0
  mipSw : Word := 0
  mtvec : Word := 0
  mscratch : Word := 0
  mepc : Word := 0
  mcause : Word := 0
  mtval : Word := 0
  mcounteren : BitVec 32 := 0
  scounteren : BitVec 32 := 0
  mcountinhibit : BitVec 32 := 0
  menvcfg : Word := 0
  senvcfg : Word := 0
  stvec : Word := 0
  sscratch : Word := 0
  sepc : Word := 0
  scause : Word := 0
  stval : Word := 0
  satp : Word := 0
  mcycle : Word := 0
  minstret : Word := 0
  pmpcfg : Vector Byte 16 := .replicate 16 0
  pmpaddr : Vector (BitVec 54) 16 := .replicate 16 0
  deriving DecidableEq, Repr

/-- The interrupt block and the interrupt files (R143). -/
structure Ints where
  mtimecmp : Word := 0xFFFF_FFFF_FFFF_FFFF#64
  stimecmp : Word := 0xFFFF_FFFF_FFFF_FFFF#64
  msip : BitVec 1 := 0
  miselect : Word := 0
  siselect : Word := 0
  mfile : Imsic := {}
  sfile : Imsic := {}
  deriving DecidableEq, Repr

/-- The vector state (R17-R26). -/
structure Vec where
  v : Vector VReg 32 := .replicate 32 0
  m : Vector VReg 8 := .replicate 8 0
  vtype : Word := 0x8000_0000_0002_0000#64
  vl : BitVec 14 := 0
  velem : BitVec 14 := 0
  vpfx : BitVec 12 := 0
  vfflags : BitVec 6 := 0
  vftrap : BitVec 6 := 0
  deriving DecidableEq, Repr

/-- Task, domain, grant, lease and user-level interrupt registers (R27); `held` is LSTAT.HELD. -/
structure Dev where
  task : Word := 0
  chan : Word := 0
  domain : Word := 0
  grant : BitVec 7 := 0
  held : BitVec 1 := 0
  uivec : Word := 0
  uicause : Word := 0
  uiepc : Word := 0
  deriving DecidableEq, Repr

/-- The hart control block (R149, R207, R340, R361) and what stands behind it: whether power shedding (R370) or a
cluster quiesce (R373) holds the hart, whether it asks for a task (at tnext, or when it is released), whether a restore
has ended with RST = OK since the last halt (R362), and whether the grace's end or a forced quiesce is to halt it;
`shedClass` is the power class for which shedding holds it, and `saving` says that its record is written and not performed yet
(R362).
`watchSeen` holds the last sample of a watched word of another module. -/
structure Ctl where
  parked : Bool := true
  pcause : BitVec 3 := 0
  mode : Priv := .m
  rpc : Word := 0
  wbase : BitVec 10 := 0
  wlen : BitVec 11 := 0
  saveBase : Word := 0
  rst : BitVec 2 := 0
  done : Bool := false
  restore : Bool := false
  serr : Bool := false
  preempt : Bool := false
  watch : Vector Word 4 := .replicate 4 0
  watchSeen : Vector (Option Word) 4 := .replicate 4 none
  heldShed : Bool := false
  heldQuiesce : Bool := false
  shedClass : BitVec 2 := 0
  asks : Bool := false
  recordOk : Bool := false
  shedDue : Bool := false
  saving : Bool := false
  deriving DecidableEq, Repr

/-- A word in the vector queue with what it captured (R157); `ra` and `rb` are the scalar operands that its fields a and
b name. -/
structure VEntry where
  word : W32
  pc : Word
  vl : BitVec 14
  vtype : Word
  vpfx : BitVec 12
  velem : BitVec 14
  task : Word
  ra : Word := 0
  rb : Word := 0
  started : Bool := false
  deriving DecidableEq, Repr

/-- The Planker body store (R166): the vrep's address and fields, and the captured words. -/
structure Body where
  addr : Word
  n : Nat
  s : Nat
  words : List W32
  deriving DecidableEq, Repr

/-- The timed and untimed waits a hart can be in. -/
inductive WaitKind | swait | vwait | dwait | dbar | tcommit | tspawn | wfi | other
  deriving DecidableEq, Repr

/-- A wait in progress: the address of the waiting word, the core clock at which its timeout ends (R56, R197, R198,
R224, R251, R265), its last sample, the elements a vwait has already seen satisfied, the core clock from which words
of another module are sampled again (R283), the phase a dbar has arrived at (R224), the physical addresses of the words
it is registered for, and the values committed to them since the last sample, oldest first (R418). -/
structure Wait where
  kind : WaitKind
  pc : Word
  ends : Nat
  last : Option Word := none
  sat : VReg := 0
  again : Nat := 0
  phase : Option Nat := none
  watch : List Nat := []
  news : List (Nat × Nat) := []
  deriving DecidableEq, Repr

/-- An open stream slot (R184-R190). `fetched` counts the tuples fetched of every part, or folded in a reduce mode;
`consumed` those consumed by sld. `flt` is the cause and address at which a part stopped, `told` says
that a trap has reported it, `desc` is the descriptor's address, and the last four fields are the authority of its
fills: that of its sopen (R188). -/
structure Stream where
  word0 : Word
  base : Vector Word 3
  stride : Vector Word 3
  init : Word
  mode : BitVec 2
  avl : Nat
  vtype : Word
  fetched : Nat := 0
  consumed : Nat := 0
  acc : Word := 0
  leaves : List Word := []
  flags : BitVec 6 := 0
  flt : Option (Nat × Word) := none
  told : Bool := false
  desc : Word := 0
  priv : Priv := .u
  satp : Word := 0
  sum : Bool := false
  mxr : Bool := false
  deriving DecidableEq, Repr

/-- A window slot (R207, R210, R215): FREE is `none` in the hart. `merging` is the MERGING state; `crosses` says that the
target crosses a page boundary. -/
structure Window where
  merging : Bool := false
  op : BitVec 3
  canonical : Bool
  fmt : BitVec 4
  size : Nat
  wbase : BitVec 10
  target : Word
  pa0 : Nat
  pa1 : Nat
  crosses : Bool := false
  deriving DecidableEq, Repr

/-- A Crown B buffer (R228). -/
structure BBuf where
  loaded : Bool := false
  fmt : BitVec 4 := 0
  data : BitVec 16640 := 0
  deriving DecidableEq, Repr

/-- A running lease slot of the hart (R193): base address, physical span, the core clock whose end ends it, and the bytes
of a Milliner's lease buffer (R323, R325); a compute hart's words are in its core's L1D. -/
structure Lease where
  base : Word
  pa : Nat
  words : Nat
  ends : Nat
  buf : List Byte := []
  deriving DecidableEq, Repr

/-- A fence whose later accesses still wait (R181): whether it holds scalar and vector accesses, the stores of this
package it waits for, and the requests to other modules. -/
structure Bar where
  scalar : Bool
  vector : Bool
  ids : List Nat
  tags : List Nat := []
  deriving DecidableEq, Repr

/-- A kick as captured (R329); `fields` are MBOX and TOKEN once its routine has read the block. -/
structure Kick where
  block : Word
  satp : Word
  part : Nat
  priv : Priv
  kicker : Nat
  scope : BitVec 3
  fields : Option (Word × Word) := none
  deriving DecidableEq, Repr

/-- An entry of a texture unit's recent-miss filter (R312). -/
structure TexMiss where
  part : Nat
  texid : Nat
  layer : Nat
  level : Nat
  tx : Nat
  ty : Nat
  deriving DecidableEq, Repr

/-- What a hart has in progress: reservation (R15), fetch buffer (R169), vector queue (R157), body store (R166),
wait, streams, windows, Crown buffers (R228), leases, fences (R181), pending user-level interrupts (R151), the ticket turn (R266),
word 0 of the running task and the die and number of the panel of a take (R257, R258), the level and identifier of the domain in which the
hart has arrived and whose phase it has not passed (R29), the user routine store of a Milliner and its
kick (R330, R331), the misses of the texture word in execution that are not posted yet (R312), the 64-bit words of vector registers 0 to 31
and of mask registers, as 32 to 39, that hold uncorrectable errors (R375), and whether a pfx word set the pending prefix since the last entry of a handler (assumption 15). -/
structure Run where
  resv : Option Nat := none
  resvEnds : Nat := 0
  fetch : List (Nat × W32) := []
  queue : List VEntry := []
  body : Option Body := none
  wait : Option Wait := none
  streams : Vector (Option Stream) 4 := .replicate 4 none
  windows : Vector (Option Window) 4 := .replicate 4 none
  bbufs : Vector BBuf 2 := .replicate 2 {}
  leases : Vector (Option Lease) 2 := .replicate 2 none
  uiPend : List (Nat × Nat) := []
  bars : List Bar := []
  turn : Option (Nat × Nat) := none
  word0 : Word := 0
  panel : Option (Nat × Nat) := none
  arrival : Option (Nat × Nat) := none
  kick : Option Kick := none
  routine : List (Nat × W32) := []
  misses : List TexMiss := []
  badRegs : List (Nat × Nat) := []
  pfxOwn : Bool := false
  deriving DecidableEq, Repr

/-- One hart. -/
structure Hart where
  pc : Word := 0
  x : Vector Word 32 := .replicate 32 0
  shadow : Vector Word 8 := .replicate 8 0
  f : Vector Word 32 := .replicate 32 0
  fcsr : BitVec 8 := 0
  priv : Priv := .m
  csr : Csrs := {}
  ints : Ints := {}
  vec : Vec := {}
  dev : Dev := {}
  ctl : Ctl := {}
  run : Run := {}
  deriving DecidableEq, Repr

end Sys2Proof.Machine
end

