-- ==== Sys2Proof/Machine/Units.lean ====
section
/-! DEFINITION. The state of the units around the harts: cores, clusters, dies, partitions, Milliners, the memory
system, power, fabric, PCIe and Novnum. Default values are the values after reset. -/

namespace Sys2Proof.Machine

/-- The mode of a Crown tile (R234). -/
inductive TileMode | clear | float | int | split
  deriving DecidableEq, Repr

/-- A Crown accumulator tile (R228, R234, R235). In SPLIT mode `first` is the distance to the block's first tile and
`s` the slice count; the exponents and the bad marks stand in the block's first tile. -/
structure Tile where
  vals : BitVec 8192 := 0
  mode : TileMode := .clear
  s : Nat := 0
  first : Nat := 0
  badRows : BitVec 2 := 0
  badCols : BitVec 16 := 0
  ea : Vector (BitVec 16) 2 := .replicate 2 0
  eb : Vector (BitVec 16) 16 := .replicate 16 0
  deriving DecidableEq, Repr

/-- A buffer's content in flight on a ring link (R233): hart slot, buffer number, FMT tag and content. -/
structure RingMsg where
  slot : Nat
  buf : Nat
  fmt : BitVec 4
  data : BitVec 16640
  deriving DecidableEq, Repr

/-- A cached translation (R277): ASID, partition of the leaf, level, virtual page number and leaf entry. -/
structure TlbEnt where
  asid : BitVec 16
  part : Nat
  level : Nat
  vpn : Nat
  leaf : Word
  deriving DecidableEq, Repr

/-- A core (R155, R156, R160, R228): Crown tiles, ring link, L1 TLB, remote words held in the L1D and, for the
core's requests, in the texture cache (R283), the buffers (hart slot, number) whose content waits for the ring link
(R232), and the hart slots that last started and last issued. -/
structure CoreSt where
  tiles : Vector Tile 8 := .replicate 8 {}
  link : Option RingMsg := none
  passing : List (Nat × Nat) := []
  tlb : List TlbEnt := []
  remote : List (Nat × Word) := []
  texRemote : List (Nat × Word) := []
  lastStarted : Nat := 3
  lastIssued : Nat := 3
  deriving DecidableEq, Repr

/-- A hart partial in the merge store (R213, R217, R218): its declaration, its offset in the merge store (64 bytes, then
one value per target word), and once the hart has arrived its partition, domain and phase. -/
structure Partial where
  hart : Nat
  part : Nat := 0
  dom : Nat := 0
  op : BitVec 3
  canonical : Bool
  fmt : BitVec 4
  size : Nat
  target : Word
  pa0 : Nat
  pa1 : Nat
  phase : Option Nat := none
  offset : Nat
  deriving DecidableEq, Repr

/-- A cluster: merge store (R217), task regions (R248), quiesce registers (R372), how far a wake has come (0 rails, 1 clocks,
2 image, 3 release, 4 the islands' start, R386), whether the image has been written and not performed yet, L2 TLB (R277), the texture unit's
recent-miss filter (R312), and the state of its units and harts that the
retention image holds in a layout of its own (R373). -/
structure ClusterSt where
  mrgBase : BitVec 15 := 0
  mrgLen : BitVec 15 := 0
  partials : List Partial := []
  tregBase : Vector (BitVec 10) 16 := .replicate 16 0
  tregLen : Vector (BitVec 11) 16 := .replicate 16 0
  req : Bool := false
  force : Bool := false
  rbf : Bool := false
  err : Bool := false
  busy : Bool := false
  railOff : Bool := false
  clkOff : Bool := false
  saved : Bool := false
  wakeDue : Bool := false
  waking : Bool := false
  wakeStep : Nat := 0
  saving : Bool := false
  wrote : Bool := false
  retBase : Word := 0
  mode : BitVec 2 := 0
  modeDue : Option (BitVec 2) := none
  tlb : List TlbEnt := []
  misses : List TexMiss := []
  kept : List Partial := []
  keptMisses : List TexMiss := []
  keptTlb : List TlbEnt := []
  keptRuns : List (Nat × Run) := []
  deriving DecidableEq, Repr

/-- A waiting task in the Carder's index (R245, R253, R262, R267): `order` is the order of writing, `id` the number given at
the entry, `written` the core
clock from which it ages; KIND is its channel's at the spawn (R244). -/
structure Waiting where
  part : Nat
  level : Nat
  idx : BitVec 32
  channel : BitVec 8
  key : BitVec 32
  kind : BitVec 2
  written : Nat
  order : Nat
  id : Nat
  rpos : Nat := 0
  cpos : Nat := 0
  band : Nat := 0
  deriving DecidableEq, Repr

/-- A dispatched task on its way to its hart (R255): handle, CHAN, entry address, a1 to a7, and word 0. -/
structure Delivery where
  hart : Nat
  handle : Word
  chan : Word
  pc : Word
  args : List Word
  word0 : Word
  panel : Option (Nat × Nat) := none
  deriving DecidableEq, Repr

/-- A retirement whose release has not been performed yet (R257): `panel` names the die and the number of the panel of a
take, and `ids` are the stores that the release covers. -/
structure Retirement where
  hart : Nat
  part : Nat
  turn : Option (Nat × Nat)
  panel : Option (Nat × Nat)
  word0 : Word
  ntf : Bool
  ids : List Nat := []
  deriving DecidableEq, Repr

/-- A panel some of whose takes have not retired (R257, R262): its number, the takes outstanding, whether it has left
the waiting set, and word 0. A panel keeps the number of its task's entry, which no other task of the die has. -/
structure PanelOut where
  part : Nat
  id : Nat
  out : Nat
  left : Bool
  word0 : Word
  deriving DecidableEq, Repr

/-- What is kept of a saved context beside its record (assumption 31): the place of the record, the task's handle, word 0 and
panel, which the Carder keeps (R257, R258, R262), and of its streams and windows what the record has no place for (R191, R216). -/
structure Away where
  part : Nat
  handle : Word
  base : Word
  word0 : Word
  panel : Option (Nat × Nat)
  streams : Vector (Option Stream) 4
  targets : Vector (Option Word) 4
  deriving DecidableEq, Repr

/-- A die: error and stale counters, AGENT_DEAD and MIG_REL (R377), and the Carder's own storage (R253-R257). `told`
names the channels whose entry's uncorrectable error has been reported (R267). -/
structure DieSt where
  ce : BitVec 32 := 0
  ue : BitVec 32 := 0
  stale : BitVec 32 := 0
  deadBusy : Option Nat := none
  migBusy : Option Nat := none
  loc : List (BitVec 32 × Nat) := []
  waiting : List Waiting := []
  order : Nat := 0
  retiring : List Retirement := []
  panels : List PanelOut := []
  requests : List Nat := []
  deliveries : List Delivery := []
  away : List Away := []
  told : List (Nat × Nat) := []
  deriving DecidableEq, Repr

/-- A phase ring's registers (R146, R246, R313). -/
structure Ring where
  base : Word := 0
  en : Bool := false
  log2n : BitVec 5 := 0
  widx : BitVec 32 := 0
  ridx : BitVec 32 := 0
  drop : BitVec 32 := 0
  deriving DecidableEq, Repr

/-- A table's registers (R219, R244, R263, R331). -/
structure TableReg where
  base : Word := 0
  en : Bool := false
  log2n : BitVec 5 := 0
  deriving DecidableEq, Repr

/-- A partition and its control block (R356), with the HBM granules and MMIO granules assigned to it (R357, R407),
its key (R359) and its joins (R396). `task` maps die × 8 + level to a task ring, whose `widx` is TAIL and `ridx`
HEAD. `completing` names the domains whose last member has arrived. -/
structure Part where
  state : BitVec 2 := 0
  cl : BitVec 144 := 0
  sc : BitVec 24 := 0
  md : BitVec 48 := 0
  chr : BitVec 7 := 0
  noc : BitVec 7 := 0
  fring : Ring := {}
  dom : TableReg := {}
  ttab : TableReg := {}
  tseq : TableReg := {}
  mlt : TableReg := {}
  fbr : Ring := {}
  task : List (Nat × Ring) := []
  pin : List (Nat × (Word × BitVec 16)) := []
  granules : List Nat := []
  mmio : List Nat := []
  key : Nat := 0
  joins : List (Nat × Nat) := []
  completing : List Nat := []
  deriving DecidableEq, Repr

/-- A participant of a collective (R399): module, die, Milliner, first leaf, receive area. -/
structure Participant where
  mod : Nat
  die : Nat
  md : Nat
  leaf : Nat
  recv : Nat
  deriving DecidableEq, Repr

/-- A collective in progress (R399-R402): its parameters and group, the own place in the table, the stage, the own value
of every element, the flags of its own additions, how far the stage's exchange is sent (0 not at all, 1 its values, 2
its entry), since when the stage is waited for, the parts an all-gather has, and the bytes of the result that DST is still
to take. -/
structure CollRun where
  routine : Nat
  src : Nat
  dst : Nat
  count : Nat
  seq : Nat
  fmt : Nat
  op : Nat
  blk : Nat
  x : Nat
  group : List Participant
  own : Nat
  stage : Nat
  vals : List Word
  flags : BitVec 6
  sent : Nat
  since : Nat
  parts : List (Nat × List Word) := []
  out : Option (List (Nat × Byte)) := none
  deriving DecidableEq, Repr

/-- What a Milliner is doing (R330): nothing, a routine selected and not begun, a user routine, a tensor copy with its
block, the next element and the bytes it has read and not written yet, by address, a page migration with its next region, or a collective. -/
inductive MillRun
  | idle
  | selected (routine : Nat)
  | user
  | copying (block : List Word) (next : Nat) (pend : List (Nat × Byte))
  | migrating (old new size next : Nat)
  | collective (c : CollRun)
  deriving DecidableEq, Repr

/-- A kick that has ended and whose mailbox is not written yet (R332): its status, whether MBOX is a physical address
(R339; `none` until the block says so), and whether the store waits for the routine's writes (R336-R338). -/
structure Closing where
  kick : Kick
  status : Nat
  physical : Option Bool
  waits : Bool
  deriving DecidableEq, Repr

/-- A Milliner's control block and queue (R326, R329), and the kicks that have ended. -/
structure Mill where
  en : Bool := false
  queue : List Kick := []
  kick : Option Kick := none
  run : MillRun := .idle
  closing : List Closing := []
  faultAddr : Word := 0
  fstatus : Byte := 0
  fcause : Byte := 0
  rej : BitVec 32 := 0
  deriving DecidableEq, Repr

/-- The state of a directory entry (R279). -/
inductive DirState
  | p (records : List (Nat × Nat × Nat))
  | b (clusters : BitVec 144) (dies : BitVec 6)
  deriving DecidableEq, Repr

/-- A store for which a copy is held (R282): its number, the agent that issued it, its address and its bytes; an atomic
has none. -/
structure Pend where
  id : Nat
  hart : Nat
  vec : Bool
  addr : Nat
  data : List Byte
  deriving DecidableEq, Repr

/-- A sharer's copy of one word (R282): agent number, whether an instruction cache holds it (R278), word address, the
committed value, and the stores for which it is held. -/
structure Copy where
  agent : Nat
  instr : Bool := false
  word : Nat
  val : Word
  held : List Pend := []
  deriving DecidableEq, Repr

/-- The messages of R280. -/
inductive MsgKind
  | getS | rd | data | wr | amo | upd | uack | cmt | wack | evict | inv | invack | lreq | lgrant | lend
  deriving DecidableEq, Repr

/-- An operation carried by a message beside a plain store: an atomic, the SC of another module, or the byte mask of a
store to one word (R280, R294). -/
inductive AtomicOp
  | amo (o : AmoOp)
  | sc
  | farSc (module : Nat)
  | masked (bytes : Byte)
  deriving DecidableEq, Repr

/-- A message in flight (R280): kind, sender and incarnation, receiver, the hart it serves, the byte address and the
bytes or the length it concerns, and for an atomic its operation with aq and rl. `slot` and `n` belong to lease traffic,
as does `base`, the virtual address of the span. Of other messages `slot` is the class: 0 scalar, 1 vector, 2 a unit of
the package, 3 an instruction cache, 5 another module, whose tag and partition `n` and `base` then hold. `id` numbers a store. A home has no incarnation (R354): its messages carry 0. -/
structure Msg where
  kind : MsgKind
  src : Nat
  inc : BitVec 4
  dst : Nat
  hart : Nat
  addr : Nat
  len : Nat
  data : List Byte := []
  op : Option AtomicOp := none
  aq : Bool := false
  rl : Bool := false
  slot : Nat := 0
  n : Nat := 0
  base : Word := 0
  id : Nat := 0
  deriving DecidableEq, Repr

/-- A committing store at the home (R282): the store's message, the value to return, the sharers sent an update,
and those whose acknowledgement it awaits, since when it waits, and whom it has reported as unresponsive (R354). -/
structure Commit where
  msg : Msg
  old : Word
  updated : List Nat
  awaits : List Nat
  since : Nat := 0
  told : List Nat := []
  deriving DecidableEq, Repr

/-- A directory entry being displaced (R281): its region, the sharers whose InvAck it awaits, since when, and whom it
has reported as unresponsive (R354). -/
structure Evicting where
  region : Nat
  awaits : List Nat
  since : Nat
  told : List Nat := []
  deriving DecidableEq, Repr

/-- A lease held at the home (R193). -/
structure HomeLease where
  hart : Nat
  slot : Nat
  pa : Nat
  len : Nat
  deriving DecidableEq, Repr

/-- A page in migration (R351): old and new page, size, the next region to copy, and whether forwarding has ended. -/
structure Migration where
  old : Nat
  new : Nat
  size : Nat
  next : Nat
  deriving DecidableEq, Repr

/-- A remote request awaiting its response (R283, R394): tag, agent, its partition, kind, address and length; `slot` is 0
for the hart's instruction and q + 1 for its stream q; the value of a load or atomic once it has come; whether it has
left, and the tick at which it left. -/
structure Remote where
  tag : Nat
  hart : Nat
  part : Nat := 0
  kind : Nat
  addr : Nat
  len : Nat
  port : Nat
  slot : Nat := 0
  answer : Option Nat := none
  failed : Bool := false
  sent : Bool := true
  since : Nat := 0
  deriving DecidableEq, Repr

/-- The memory system beside the bytes themselves: directory (R279), copies (R282), messages in flight (R280),
committing stores and region displacements awaiting acknowledgements, leases at the homes and the requests queued
behind them (R193), incarnations, dead agents and the ticks at which they were declared (R354, R355), migrations (R351), remote requests, the words that
hold an uncorrectable error (R206), and the reservations of other modules' LR words (module, word; assumption 37). -/
structure Coh where
  dir : List (Nat × DirState) := []
  copies : List Copy := []
  net : List Msg := []
  commits : List Commit := []
  evicting : List Evicting := []
  leases : List HomeLease := []
  queued : List Msg := []
  incarnation : List (Nat × BitVec 4) := []
  dead : List Nat := []
  deadAt : List (Nat × Nat) := []
  migs : List Migration := []
  remote : List Remote := []
  nextTag : Nat := 0
  nextId : Nat := 0
  poison : List Nat := []
  errUnit : List (Nat × Nat) := []
  farResv : List (Nat × Nat) := []
  deriving DecidableEq, Repr

/-- The power block (R368, R369) with the tick of the last valid frame, the count of restoring frames per class (R369),
the tick at which each class was shed while its grace runs, the islands in retention and the islands waiting to be
released (R370, R371), and by island the clocks that its own clock has lost against the core clock (R366). -/
structure Power where
  link : Bool := false
  crcErr : BitVec 16 := 0
  frames : BitVec 32 := 0
  last0 : Word := 0
  last1 : Word := 0
  shed : BitVec 4 := 0
  a : BitVec 16 := 900
  failsafe : BitVec 16 := 450
  cap : BitVec 16 := 900
  share : BitVec 9 := 0
  nomf : BitVec 32 := 50000
  curve : Vector Word 16 := .replicate 16 0
  cls : Vector (BitVec 32) 4 := .replicate 4 0
  grace : BitVec 11 := 500
  lastAt : Nat := 0
  good : Vector Nat 4 := .replicate 4 0
  shedAt : Vector (Option Nat) 4 := .replicate 4 none
  retained : List Nat := []
  releasing : List Nat := []
  lost : List (Nat × Nat) := []
  deriving DecidableEq, Repr

/-- A Chrodon port (R389-R391): state, counters, sequence numbers, the replays in a row it has asked for and has sent,
whether it waits for a replay, the flit buffers it may fill at its partner, those it owes its partner, and the replay
buffer. The spec does not say how many flit buffers a partner has: as many as a replay buffer holds (DESIGN CHOICE,
assumption 54). -/
structure Port where
  state : BitVec 2 := 0
  fecc : BitVec 32 := 0
  rtry : BitVec 32 := 0
  unc : BitVec 32 := 0
  txSeq : BitVec 12 := 0
  rxSeq : BitVec 12 := 0
  ackSeq : BitVec 12 := 0
  replays : Nat := 0
  resent : Nat := 0
  wantReplay : Bool := false
  credit : Nat := 256
  owed : Nat := 0
  txq : List (BitVec 12 × List Byte) := []
  deriving DecidableEq, Repr

/-- A message of a Chrodon payload (R390) with the other module and the partition in its flit's header. -/
structure FabMsg where
  mod : Nat
  part : Nat
  op : Nat
  sub : Byte
  addr : Nat
  len : Nat
  tag : Nat
  data : List Byte
  deriving DecidableEq, Repr

/-- The Chrodon block (R391), the messages received and not yet served, the flits sent through each port, and the
messages that cannot leave yet (R393). -/
structure Chrodon where
  valid : Bool := false
  modIdx : BitVec 6 := 0
  memb : Word := 0
  route : Vector (BitVec 16) 64 := .replicate 64 0
  ports : Vector Port 16 := .replicate 16 {}
  inbox : List FabMsg := []
  outbox : List (Nat × List Byte) := []
  held : List FabMsg := []
  deriving DecidableEq, Repr

/-- An outbound read through the root port: the agent, the physical address and length, and the completion's value. -/
structure OutRead where
  who : Nat
  addr : Nat
  len : Nat
  answer : Option Word := none
  deriving DecidableEq, Repr

/-- An inbound request that waits (R409): its requester, its kind (0 write, 1 read, 2 MSI), address, data, length and
tag. -/
structure Inbound where
  rid : Nat
  kind : Nat
  addr : Nat
  data : List Byte
  len : Nat
  tag : Nat
  deriving DecidableEq, Repr

/-- The PCIe root port (R408, R419): translation table registers, outbound reads, outbound
posted writes, the completions of inbound reads by tag: none is Unsupported Request, and the inbound requests that wait,
in arrival order. -/
structure Pcie where
  xbase : Word := 0
  en : Bool := false
  reads : List OutRead := []
  writes : List (Nat × List Byte) := []
  cpl : List (Nat × Option (List Byte)) := []
  waiting : List Inbound := []
  deriving DecidableEq, Repr

/-- A firmware slot pair (R415): the active slot, the bytes of both slots, a commit awaiting the next start with its
security version, the version of a slot that runs for the first time, and the lowest security version. Kinds: 0 Novnum,
1 system-core, 2 routines. -/
structure Firmware where
  active : Nat := 0
  slot0 : List Byte := []
  slot1 : List Byte := []
  fresh : Option Nat := none
  trial : Option Nat := none
  minSvn : Nat := 0
  deriving DecidableEq, Repr

/-- A management session (R411): its number, the last SEQ and both nonces. -/
structure Session where
  id : Nat
  seq : Nat
  nonces : List Byte
  deriving DecidableEq, Repr

/-- Novnum (R410-R416): its MAC address, sessions, the enrolled operator keys and Zarnan's firmware key as points of
P-384, the values set for the next cold start, firmware and
its measurements, logs, the responses sent, recovery with the image it receives and whether one has arrived, and the
partitions that the next warm start rebuilds. -/
structure Nov where
  sessions : List Session := []
  mac : BitVec 48 := 0
  operators : List (Nat × Nat) := [g384]
  fwKey : Nat × Nat := g384
  serial : BitVec 128 := 0
  stagedMod : BitVec 6 := 0
  stagedMemb : Word := 0
  stagedValid : Bool := false
  fw : Vector Firmware 3 := .replicate 3 {}
  measured : Vector (BitVec 384) 3 := .replicate 3 0
  log : List (List Byte) := []
  telem : List (List Byte) := []
  out : List (List Byte) := []
  recovery : Bool := false
  received : List Byte := []
  recovered : Bool := false
  rebuild : List Nat := []
  deriving DecidableEq, Repr

/-- The module block (R378) and package-wide facts: always-on FAILCNT and HBM calibration (R379, R380), a requested
start or one that is due, the tick at which the start booted sc0, whether it has failed, the die-to-die links'
consecutive replays and retraining, and whether a link failed retraining (R347). -/
structure Pkg where
  failCnt : BitVec 2 := 0
  warm : Bool := false
  bootOk : Bool := false
  coldReq : Bool := false
  warmReq : Bool := false
  excl : BitVec 144 := 0
  calibrated : Bool := false
  powered : Bool := true
  stopped : Bool := false
  startDue : Bool := true
  startedAt : Option Nat := none
  failed : Bool := false
  linkFailed : Bool := false
  links : List (Nat × Nat) := []
  retraining : List Nat := []
  deriving DecidableEq, Repr

end Sys2Proof.Machine
end

