-- ==== Sys2Proof/Machine/State.lean ====
section
/-! DEFINITION. The state of the module, the reasons a step can stop, and the state after reset. -/

namespace Sys2Proof.Machine

/-- Why a step stops with a fault. -/
inductive Fault
  /-- The machine has no power, or a die-to-die link failed its retraining and stopped the package (R347, R380).
  Raised by `step` for every move but a start. Safe: the machine does nothing. -/
  | stopped
  /-- An agent number above 9,575, which names no agent (R13), is to move. Raised by `step`. Safe: it happens only in
  states that name such an agent. -/
  | noAgent
  deriving DecidableEq, Repr

/-- Why an instruction has no meaning. -/
inductive Refusal
  /-- The arm of `exec` has no meaning yet. Raised by `exec`. Safe: nothing is claimed of it. -/
  | notModelled (mnemonic : String)
  deriving DecidableEq, Repr

/-- One move of the schedule: an agent executes, an event of a unit or of the outside world comes about, time passes
(core clocks and 100 MHz ticks), of which an island may lose core clocks (R366), the memory system's message steps are made visible or not, an uncorrectable error
strikes a word of memory (R206), in the L2 or in a NoC payload (R375, R376), or a register, one is corrected (R377), or one
strikes an entry of a Carder's index (R267), a home displaces a directory entry, a sharer drops
words (R281), a core's front end chooses a hart (R156), or a hart fetches ahead (R169). The schedule is the model's own
(assumption 1). -/
inductive Move
  | agent (h : Nat)
  | event (i : Instr)
  | time (cc ticks : Nat)
  | slow (island lost cc ticks : Nat)
  | stepwise (on : Bool)
  | strike (w : Nat)
  | strikeIn (unit w : Nat)
  | strikeReg (h r k : Nat)
  | correct (die : Nat)
  | loseTask (die order : Nat)
  | displace (region : Nat)
  | drop (sharer a n : Nat)
  | core (c : Nat)
  | fetch (h va : Nat)
  deriving DecidableEq, Repr

/-- The state of one ZV6 module. Harts, cores, clusters, dies, partitions and Milliners are listed by number; one that
is not listed is as reset left it. Memory lists the bytes that are not zero by physical address, addresses rising.
`bound` is the element boundary at which an interrupt or pre-emption stops the word in progress (R142); it is `none`
between steps. -/
structure State where
  cur : Nat := 0
  sched : List Move := []
  stepwise : Bool := false
  bound : Option Nat := none
  fresh : Nat := 0
  cc : Nat := 0
  ticks : Nat := 0
  mem : List Host.Cell := []
  harts : List (Nat × Hart) := []
  cores : List (Nat × CoreSt) := []
  clusters : List (Nat × ClusterSt) := []
  dies : List (Nat × DieSt) := []
  parts : List (Nat × Part) := []
  mills : List (Nat × Mill) := []
  coh : Coh := {}
  power : Power := {}
  chr : Chrodon := {}
  pcie : Pcie := {}
  nov : Nov := {}
  pkg : Pkg := {}
  deriving DecidableEq, Repr

/-- The module right after reset (R31 and the reset columns of the register tables). No agent runs: every hart is
parked, and a program comes to run by PACKAGE_START, by a WAKE write or by task delivery (assumption 5). -/
def State.reset : State := {}

end Sys2Proof.Machine
end

