-- ==== Sys2Proof/Machine/Ops.lean ====
section
/-! DEFINITION. Named operations over the state: numbered units, registers, bytes of memory, traps and their return,
records of the supervisor mailbox ring, format faults. -/

namespace Sys2Proof.Machine

/-! ## Units listed by number -/

/-- The entry of number `k`, or `d` where it is not listed. -/
def look {α : Type} (d : α) : List (Nat × α) → Nat → α
  | [], _ => d
  | (i, a) :: r, k => if i = k then a else look d r k

/-- The list with `a` as entry `k`; numbers stay rising. -/
def put {α : Type} (l : List (Nat × α)) (k : Nat) (a : α) : List (Nat × α) :=
  match l with
  | [] => [(k, a)]
  | (i, b) :: r => if k < i then (k, a) :: (i, b) :: r else if k = i then (k, a) :: r else (i, b) :: put r k a

/-! ## Numbering (R3, R4, R13) -/

/-- The kinds of agents that own a program counter (R13). -/
inductive AgentKind | compute | system | clusterMilliner | dieMilliner
  deriving DecidableEq, Repr

/-- The kind of the agent with an mhartid. -/
def kindOf (h : Nat) : AgentKind :=
  if h < 9216 then .compute else if h < 9240 then .system else if h < 9528 then .clusterMilliner else .dieMilliner

/-- The number of agents (R13). -/
def agentCount : Nat := 9576

/-- The global core of a compute hart (R4). -/
def coreOf (h : Nat) : Nat := h / 4

/-- The global cluster, die × 24 + cluster, of a compute hart or cluster Milliner. -/
def clusterOf (h : Nat) : Nat := if h < 9216 then h / 64 else (h - 9240) / 2

/-- The die of an agent. -/
def dieOf (h : Nat) : Nat :=
  match kindOf h with
  | .compute => h / 1536
  | .system => (h - 9216) / 4
  | .clusterMilliner => (h - 9240) / 48
  | .dieMilliner => (h - 9528) / 8

/-- Whether an mhartid is a Milliner's. -/
def isMilliner (h : Nat) : Bool := 9240 ≤ h

/-- The agent number of R354 under which a hart's messages travel. -/
def agentNo (h : Nat) : Nat := if h < 9216 then h / 4 else h

/-- The harts of a global core. -/
def hartsOfCore (c : Nat) : List Nat := [4 * c, 4 * c + 1, 4 * c + 2, 4 * c + 3]

/-- The harts of a global cluster. -/
def hartsOfCluster (c : Nat) : List Nat := (List.range 64).map (fun i => 64 * c + i)

/-- The island of an agent (R366): a core pair's, pair 0's for a cluster Milliner, an HBM controller's for a die Milliner and
fabric block 1 for a system core. -/
def islandOf (h : Nat) : Nat :=
  dieOf h * 200 + (match kindOf h with
    | .compute => clusterOf h % 24 * 8 + coreOf h % 16 / 2
    | .clusterMilliner => clusterOf h % 24 * 8
    | .dieMilliner => 196 + (h - 9528) % 8 / 4
    | .system => 199)

/-- A hart as reset leaves it (R31, R406): a system core holds its mhartid in a0. -/
def Hart.init (h : Nat) : Hart :=
  if kindOf h = .system then { x := (Vector.replicate 32 0).set 10 (bv 64 h) } else {}

/-! ## Access to the units of the state -/

/-- The hart with an mhartid. -/
def State.hartAt (s : State) (h : Nat) : Hart := look (Hart.init h) s.harts h
/-- The state with one hart replaced. -/
def State.setHartAt (s : State) (h : Nat) (x : Hart) : State := { s with harts := put s.harts h x }
/-- The current agent's hart. -/
def State.hart (s : State) : Hart := s.hartAt s.cur
/-- The state with the current agent's hart replaced. -/
def State.setHart (s : State) (x : Hart) : State := s.setHartAt s.cur x
/-- A global core. -/
def State.coreAt (s : State) (c : Nat) : CoreSt := look {} s.cores c
/-- The state with one core replaced. -/
def State.setCoreAt (s : State) (c : Nat) (x : CoreSt) : State := { s with cores := put s.cores c x }
/-- A global cluster. -/
def State.clusterAt (s : State) (c : Nat) : ClusterSt := look {} s.clusters c
/-- The state with one cluster replaced. -/
def State.setClusterAt (s : State) (c : Nat) (x : ClusterSt) : State := { s with clusters := put s.clusters c x }
/-- A die. -/
def State.dieAt (s : State) (d : Nat) : DieSt := look {} s.dies d
/-- The state with one die replaced. -/
def State.setDieAt (s : State) (d : Nat) (x : DieSt) : State := { s with dies := put s.dies d x }
/-- A partition. -/
def State.partAt (s : State) (p : Nat) : Part := look {} s.parts p
/-- The state with one partition replaced. -/
def State.setPartAt (s : State) (p : Nat) (x : Part) : State := { s with parts := put s.parts p x }
/-- A Milliner, by mhartid. -/
def State.millAt (s : State) (h : Nat) : Mill := look {} s.mills h
/-- The state with one Milliner replaced. -/
def State.setMillAt (s : State) (h : Nat) (x : Mill) : State := { s with mills := put s.mills h x }

/-- The state with a function applied to one hart. -/
def State.modHart (s : State) (h : Nat) (g : Hart → Hart) : State := s.setHartAt h (g (s.hartAt h))
/-- The state with a function applied to one die. -/
def State.modDie (s : State) (d : Nat) (g : DieSt → DieSt) : State := s.setDieAt d (g (s.dieAt d))

/-- The clocks of an island since the start: the core clocks, less those it has lost while it was slowed, in retention or
stopped (R366, R370, R373). -/
def State.islandCc (s : State) (i : Nat) : Nat := s.cc - look 0 s.power.lost i

/-- The clocks of an agent's island (R15). -/
def State.ccOf (s : State) (h : Nat) : Nat := s.islandCc (islandOf h)

/-- The next free value's index, and the state that has used it (assumption 3). -/
def State.useFresh (s : State) : State := { s with fresh := s.fresh + 1 }

/-! ## Scalar registers (R15, R28) -/

/-- Whether x10-x17 name the shadow registers. -/
def Hart.inHandler (h : Hart) : Bool := bitOf h.dev.uicause 63

/-- Register x`r` (R15, R28). -/
def Hart.getX (h : Hart) (r : BitVec 5) : Word :=
  if r = 0 then 0
  else if h.inHandler && 10 ≤ r.toNat && r.toNat ≤ 17 then h.shadow[(r.toNat - 10) % 8]'(Nat.mod_lt _ (by decide))
  else h.x[r.toNat]'r.isLt

/-- Writing register x`r`; x0 discards the value. -/
def Hart.setX (h : Hart) (r : BitVec 5) (v : Word) : Hart :=
  if r = 0 then h
  else if h.inHandler && 10 ≤ r.toNat && r.toNat ≤ 17 then
    { h with shadow := h.shadow.set ((r.toNat - 10) % 8) v (Nat.mod_lt _ (by decide)) }
  else { h with x := h.x.set r.toNat v r.isLt }

/-- Register f`r`. -/
def Hart.getF (h : Hart) (r : BitVec 5) : Word := h.f[r.toNat]'r.isLt

/-- Writing register f`r` sets mstatus.FS to Dirty (R15). -/
def Hart.setF (h : Hart) (r : BitVec 5) (v : Word) : Hart :=
  { h with f := h.f.set r.toNat v r.isLt, csr := { h.csr with mstatus := setField h.csr.mstatus 13 2 3 } }

/-- mstatus.FS is not Off. -/
def Hart.fpOn (h : Hart) : Bool := fieldOf h.csr.mstatus 13 2 ≠ 0

/-! ## Retiring (R23) -/

/-- Whether system software or a user-level handler runs, whose scalar words belong neither to the pending prefix nor to the
partial position of an interrupted vector word: they leave VELEM as it stands, so that a handler can return to that word, or
write VELEM for it (R32, R140, R141). DEDUCED, unsafe (assumption 15): R23 taken alone clears VELEM there too. -/
def Hart.handling (h : Hart) : Bool := h.priv ≠ .u || h.inHandler

/-- The instruction at PC retires: PC moves to `pc`, VELEM becomes 0 but in system software and handlers (R23, R140), and instret
counts it. -/
def Hart.retireTo (h : Hart) (pc : Word) : Hart :=
  { h with
    pc := pc
    vec := { h.vec with velem := if h.handling then h.vec.velem else 0 }
    csr := { h.csr with minstret := if bitOf h.csr.mcountinhibit 2 then h.csr.minstret else h.csr.minstret + 1 }
    run := { h.run with wait := none } }

/-- The instruction at PC retires and the next word follows. -/
def Hart.retire (h : Hart) : Hart := h.retireTo (h.pc + 4)

/-! ## Bytes of memory -/

/-- The byte at a physical address; a byte that is not listed is zero (R379). -/
def readByte : List Host.Cell → Nat → Byte
  | [], _ => 0
  | (i, b) :: r, a => if i = a then b else readByte r a

/-- Storing one byte keeps the list in canonical form: addresses rise and no listed byte is zero. -/
def writeByte : List Host.Cell → Nat → Byte → List Host.Cell
  | [], a, v => if v = 0 then [] else [(a, v)]
  | (i, b) :: r, a, v =>
    if a < i then (if v = 0 then (i, b) :: r else (a, v) :: (i, b) :: r)
    else if a = i then (if v = 0 then r else (a, v) :: r)
    else (i, b) :: writeByte r a v

/-- The canonical form of memory: addresses rise strictly and no listed byte is zero. -/
def memWf : List Host.Cell → Bool
  | [] => true
  | [(_, b)] => b != 0
  | (i, b) :: (j, c) :: r => b != 0 && i < j && memWf ((j, c) :: r)

/-- `n` bytes from an address up. -/
def readBytes (m : List Host.Cell) : Nat → Nat → List Byte
  | 0, _ => []
  | n + 1, a => readByte m a :: readBytes m n (a + 1)

/-- Storing bytes from an address up. -/
def writeBytes (m : List Host.Cell) (a : Nat) : List Byte → List Host.Cell
  | [] => m
  | b :: r => writeBytes (writeByte m a b) (a + 1) r

/-- `n` bytes, least significant first, as a number. -/
def readNat (m : List Host.Cell) (a n : Nat) : Nat := ofBytes (readBytes m n a)

/-- The 8-byte word at an address. -/
def read8 (m : List Host.Cell) (a : Nat) : Word := bv 64 (readNat m a 8)

/-! ## What a store does beside the bytes (R15, R282, R340) -/

/-- Who stores: a hart, and whether its scalar agent (R16). -/
structure Writer where
  hart : Nat
  scalar : Bool
  deriving DecidableEq, Repr

/-- Whether the span of `n` bytes at `a` touches the aligned 8-byte word at `w`. -/
def touches (a n w : Nat) : Bool := a < w + 8 && w < a + n

/-- Setting a user-level interrupt source pending, if UIVEC.UIE is 1 (R151, R190, R340). -/
def Hart.pendUi (h : Hart) (code slot : Nat) : Hart :=
  if bitOf h.dev.uivec 0 && !(h.run.uiPend.contains (code, slot)) then
    { h with run := { h.run with uiPend := (code, slot) :: h.run.uiPend } }
  else h

/-- The armed watches of a hart that name a word the store touches become pending (R340). -/
def Hart.fireWatches (h : Hart) (a n : Nat) : Hart :=
  (List.range 4).foldl (fun h i =>
    let w := (h.ctl.watch[i]?).getD 0
    if bitOf w 0 && touches a n (fieldOf w 3 47 * 8) then h.pendUi 2 i else h) h

/-- The first byte of the scratchpad alias of a global cluster (R271). -/
def spadAlias (c : Nat) : Nat := 0x3FC0000000000 + c * 0x400000

/-- The bytes of the scratchpads (R203). -/
def inSpad (a : Nat) : Bool := spadAlias 0 ≤ a && a < spadAlias 144

/-- The values committed to the words a wait is registered for go to its hart (R418). -/
def Wait.hears (m : List Host.Cell) (a n : Nat) (w : Wait) : Wait :=
  { w with news := w.news ++ (w.watch.filter (fun p => a < p + 4 && p < a + n)).map (fun p => (p, readNat m p 4)) }

/-- The reservation of a hart after a store: it is lost when another agent, or the hart's own vector agent, writes the
word (R15), and a scratchpad word's whoever writes it (R205). -/
def Hart.keepsResv (h : Hart) (self : Nat) (w : Writer) (a n : Nat) : Option Nat :=
  match h.run.resv with
  | some r => if touches a n r && (inSpad r || !(w.hart == self && w.scalar)) then none else some r
  | none => none

/-- A hart when an agent's store of `n` bytes at `a` has left memory `m`: the reservation, a wait in progress (R418)
and, for another hart's store, the armed watches (R340). -/
def Hart.seesStore (h : Hart) (self : Nat) (w : Writer) (m : List Host.Cell) (a n : Nat) : Hart :=
  let h := { h with run := { h.run with
    resv := h.keepsResv self w a n
    wait := h.run.wait.map (Wait.hears m a n) } }
  if w.hart == self then h else h.fireWatches a n

/-- The bytes of a word with `bs` merged in at address `a`. -/
def mergeWord (w : Nat) (v : Word) (a : Nat) (bs : List Byte) : Word :=
  bv 64 (ofBytes ((List.range 8).map (fun i =>
    if a ≤ w + i && w + i < a + bs.length then (bs[w + i - a]?).getD 0 else bv 8 (v.toNat / 256 ^ i))))

/-- Every copy takes the bytes of a store that is visible at once (R282). -/
def refreshCopies (a : Nat) (bs : List Byte) (l : List Copy) : List Copy :=
  l.map (fun c => if touches a bs.length c.word then { c with val := mergeWord c.word c.val a bs } else c)

/-- The store of `bs` at a physical address becomes visible: the bytes, lost reservations, waits and watches; an
uncorrectable error of a word wholly overwritten is gone (R206). The copies at the sharers follow by messages. -/
def State.commitBytes (s : State) (w : Writer) (a : Nat) (bs : List Byte) : State :=
  let m := writeBytes s.mem a bs
  let n := bs.length
  { s with
    mem := m
    harts := s.harts.map (fun p => (p.1, p.2.seesStore p.1 w m a n))
    coh := { s.coh with
      poison := s.coh.poison.filter (fun p => !(a ≤ p && p + 8 ≤ a + n))
      farResv := s.coh.farResv.filter (fun p => !(touches a n p.2)) } }

/-- A store that is visible to every agent at once, at every copy too. -/
def State.store (s : State) (w : Writer) (a : Nat) (bs : List Byte) : State :=
  let s := s.commitBytes w a bs
  { s with coh := { s.coh with copies := refreshCopies a bs s.coh.copies } }

/-- The store of the low `n` bytes of a word. -/
def State.storeNat (s : State) (w : Writer) (a n x : Nat) : State := s.store w a (toBytes n x)

/-- The migration that covers an address (R351). -/
def migrationOf (s : State) (a : Nat) : Option Migration := s.coh.migs.find? (fun g => g.old ≤ a && a < g.old + g.size)

/-- Following the copied regions of at most `n` migrations from a physical address. -/
def follow (s : State) : Nat → Nat → Nat
  | 0, a => a
  | n + 1, a =>
    match migrationOf s a with
    | none => a
    | some g => if (a - g.old) / 256 < g.next then follow s n (g.new + (a - g.old)) else a

/-- Where the bytes of a physical address are: a copied region's are the new page's (R351, R352). -/
def placed (s : State) (a : Nat) : Nat := follow s s.coh.migs.length a

/-- A physical address after forwarding: none while its region waits to be copied (R351, R352). -/
def forward (s : State) (a : Nat) : Option Nat :=
  let b := placed s a
  match migrationOf s b with
  | none => some b
  | some g => if (b - g.old) / 256 < g.next then some b else none

/-! ## Why an instruction does not complete -/

/-- The ways an instruction ends other than by retiring: the causes of R136, an uncorrectable error (R206, R375) that
becomes a trap with a record, and a wait that leaves PC where it is, or that asks another module for the page-table
entry at an address (R274). -/
inductive Stop
  | illegal
  | format (detail : Nat) (b : Word)
  | trap (cause : Nat) (tval : Word)
  | uncorrectable (cause : Nat) (tval : Word) (unit : Nat) (reg : Nat)
  | stall
  | walk (a : Nat)
  deriving DecidableEq, Repr

/-- Computations of a meaning: they change the state and may stop. -/
abbrev Act := EStateM Stop State

/-- The current state. -/
def getS : Act State := fun s => .ok s s
/-- Replacing the state. -/
def setS (s : State) : Act Unit := fun _ => .ok () s
/-- Stopping. -/
def stop {α : Type} (e : Stop) : Act α := fun s => .error e s
/-- Stopping unless a condition holds. -/
def ensure (c : Bool) (e : Stop) : Act Unit := fun s => if c then .ok () s else .error e s
/-- Changing the current agent's hart. -/
def onHart (g : Hart → Hart) : Act Unit := fun s => .ok () (s.setHart (g s.hart))
/-- An action for each element of a list, in order. -/
def actEach {α : Type} (g : α → Act Unit) : List α → Act Unit
  | [] => fun s => .ok () s
  | a :: r => fun s => match g a s with
    | .ok _ s' => actEach g r s'
    | .error e s' => .error e s'

/-! ## Partitions (R356, R357) -/

/-- The partition of a global cluster; a cluster that no partition holds counts as partition 0 (assumption 12). -/
def partOfCluster (s : State) (c : Nat) : Nat :=
  ((s.parts.find? (fun p => p.2.cl.getLsbD c)).map Prod.fst).getD 0

/-- The partition of an agent. -/
def partOf (s : State) (h : Nat) : Nat :=
  match kindOf h with
  | .compute => partOfCluster s (clusterOf h)
  | .clusterMilliner => partOfCluster s (clusterOf h)
  | .system => ((s.parts.find? (fun p => p.2.sc.getLsbD (h - 9216))).map Prod.fst).getD 0
  | .dieMilliner => ((s.parts.find? (fun p => p.2.md.getLsbD (h - 9528))).map Prod.fst).getD 0

/-- The first physical address of the package's own memory: slot MODIDX, or slot 0 while VALID is 0 (R392). -/
def ownBase (s : State) : Nat := if s.chr.valid then s.chr.modIdx.toNat * 2 ^ 40 else 0

/-- The bytes of a module's memory, 576 GiB (R271). -/
def slotSize : Nat := 576 * 2 ^ 30

/-- Whether a physical address is the package's own memory. -/
def isOwnMem (s : State) (a : Nat) : Bool := ownBase s ≤ a && a < ownBase s + slotSize

/-- The number that stands for no partition. -/
def noPart : Nat := 64

/-- The partition that owns a granule of the package's own memory (R357), `noPart` where none does. -/
def ownerOf (s : State) (a : Nat) : Nat :=
  ((s.parts.find? (fun p => p.2.granules.contains ((a - ownBase s) / 2 ^ 25))).map Prod.fst).getD noPart

/-- The home die of an address of the package's own memory (R272). -/
def homeDie (s : State) (a : Nat) : Nat := (a - ownBase s) / (48 * 2 ^ 30) / 2

/-- The home slice of an address (R272). -/
def homeSlice (a : Nat) : Nat := a / 256 % 48

/-! ## The supervisor mailbox ring (R145, R146, R245) -/

/-- A ring's size in slots. -/
def Ring.slots (r : Ring) : Nat := 2 ^ r.log2n.toNat

/-- Whether a ring is full (R245). -/
def Ring.full (r : Ring) : Bool := r.slots ≤ (r.widx - r.ridx).toNat

/-- The PH bit of a record written at index `i`: 1 − bit LOG2N of `i` (R245). -/
def Ring.phase (r : Ring) (i : BitVec 32) : Bool := !(i.getLsbD r.log2n.toNat)

/-- Whether a span is memory of a partition that its agents can write (R245). -/
def writable (s : State) (p a n : Nat) : Bool :=
  isOwnMem s a && isOwnMem s (a + n - 1) && ownerOf s a == p && ownerOf s (a + n - 1) == p

/-! ## Taking a trap and returning from it (R135, the privileged architecture) -/

/-- The number of a privilege mode in MPP, SPP and the MODE fields. -/
def Priv.code : Priv → Nat
  | .u => 0
  | .s => 1
  | .m => 3

/-- The privilege mode of a number; the reserved number 2 stands for U. -/
def Priv.ofCode : Nat → Priv
  | 1 => .s
  | 3 => .m
  | _ => .u

/-- Where a handler begins: the base of xtvec, or base + 4 × cause for an interrupt in vectored mode. -/
def handlerPc (tvec : Word) (irq : Bool) (cause : Nat) : Word :=
  let base := tvec &&& ~~~3#64
  if irq && fieldOf tvec 0 2 = 1 then base + bv 64 (4 * cause) else base

/-- Trap entry (R135): the mode, the cause register, xtval, xEPC and the status change, PC goes to the handler, and
the reservation, the fetched words and a wait are dropped. `toS` selects the S-mode handler. -/
def Hart.enterTrap (h : Hart) (toS irq : Bool) (cause : Nat) (tval : Word) : Hart :=
  let code := bv 64 cause ||| (if irq then 1#64 <<< 63 else 0)
  let st := h.csr.mstatus
  let run := { h.run with resv := none, fetch := [], wait := none, body := none, pfxOwn := false }
  if toS then
    let st := setBit st 5 (bitOf st 1)
    let st := setBit (setBit st 1 false) 8 (h.priv ≠ .u)
    { h with
      pc := handlerPc h.csr.stvec irq cause
      priv := .s
      csr := { h.csr with mstatus := st, scause := code, stval := tval, sepc := h.pc }
      run := run }
  else
    let st := setBit st 7 (bitOf st 3)
    let st := setField (setBit st 3 false) 11 2 h.priv.code
    { h with
      pc := handlerPc h.csr.mtvec irq cause
      priv := .m
      csr := { h.csr with mstatus := st, mcause := code, mtval := tval, mepc := h.pc }
      run := run }

/-- Whether an exception goes to S mode: it comes from S or U mode and medeleg has its bit. -/
def Hart.delegates (h : Hart) (cause : Nat) : Bool := h.priv ≠ .m && bitOf h.csr.medeleg cause

/-- The current hart takes an exception. -/
def takeTrap (cause : Nat) (tval : Word) (s : State) : State :=
  let h := s.hart
  s.setHart (h.enterTrap (h.delegates cause) false cause tval)

/-- Return from a trap (R90, R141 and the privileged architecture): MPP or SPP names the mode, the interrupt enable is
restored, MPRV is cleared when the mode is not M, and PC is xEPC. -/
def Hart.leaveTrap (h : Hart) (fromM : Bool) : Hart :=
  let st := h.csr.mstatus
  let run := { h.run with fetch := [], wait := none, body := none, pfxOwn := false }
  if fromM then
    let p := Priv.ofCode (fieldOf st 11 2)
    let st := setBit (setBit st 3 (bitOf st 7)) 7 true
    let st := setField st 11 2 0
    let st := if p = .m then st else setBit st 17 false
    { h with pc := h.csr.mepc, priv := p, csr := { h.csr with mstatus := st }, run := run }
  else
    let p : Priv := if bitOf st 8 then .s else .u
    let st := setBit (setBit st 1 (bitOf st 5)) 5 true
    let st := setBit (setBit st 8 false) 17 false
    { h with pc := h.csr.sepc, priv := p, csr := { h.csr with mstatus := st }, run := run }

/-! ## Parking and the format fault (R144, R147, R149) -/

/-- The hart parks with a cause at a resumable position. -/
def Hart.parkAt (h : Hart) (cause : Nat) (pc : Word) : Hart :=
  { h with
    ctl := { h.ctl with parked := true, pcause := bv 3 cause, mode := h.priv, rpc := pc }
    run := { h.run with fetch := [], wait := none, body := none } }

/-- The word of an instruction, zero for an event. -/
def wordOf (i : Instr) : W32 := (encode i).getD 0

end Sys2Proof.Machine
end

