-- ==== Sys2Proof/Machine/Flit.lean ====
section
/-! DEFINITION. The flits of a Chrodon hop: CRC, header, messages, and sending through a port (spec/19, R389, R390). -/

namespace Sys2Proof.Machine

/-! ## CRC-64 (R389) -/

/-- One bit into the CRC register of polynomial 0x42F0_E1EB_A9EA_3693. -/
def crc64Bit (c : Nat) (b : Bool) : Nat :=
  if decide (2 ^ 63 ≤ c) != b then (2 * c % 2 ^ 64) ^^^ 0x42F0E1EBA9EA3693 else 2 * c % 2 ^ 64

/-- One byte, most significant bit first. -/
def crc64Byte (c : Nat) (x : Byte) : Nat := (List.range 8).foldl (fun c i => crc64Bit c (x.getLsbD (7 - i))) c

/-- The CRC of bytes in ascending order, initial value zero. -/
def crc64 (l : List Byte) : Nat := l.foldl crc64Byte 0

/-! ## Messages (R390) -/

/-- `n` rounded up to 16. -/
def pad16 (n : Nat) : Nat := (n + 15) / 16 * 16

/-- A list of bytes filled with zeros to `n` bytes. -/
def fillTo (n : Nat) (l : List Byte) : List Byte := l ++ List.replicate (n - l.length) 0

/-- The head of a message and its data rounded up to 16 bytes. -/
def FabMsg.bytes (m : FabMsg) : List Byte :=
  toBytes 8 m.addr ++ [bv 8 m.op, m.sub] ++ toBytes 2 m.len ++ toBytes 4 m.tag ++ fillTo (pad16 m.data.length) m.data

/-- A message that asks: its response has OP 0x10 or above. -/
def FabMsg.asks (m : FabMsg) : Bool := m.op < 0x10

/-- The arbitration class of a message (R349). -/
def FabMsg.cls (m : FabMsg) : Nat := if m.op = 0x11 then 3 else 5

/-- The bytes of data that follow the head of a message of an OP with LEN: Rd and LR ask for LEN bytes and carry none. -/
def dataBytes (op len : Nat) : Nat := if op = 1 || op = 4 then 0 else len

/-- Whether an OP is one of R390. -/
def knownOp (op : Nat) : Bool := (1 ≤ op && op ≤ 5) || (0x10 ≤ op && op ≤ 0x12)

/-- `n` messages of a payload; none where an OP is reserved or a message overruns the payload. -/
def parseMsgs (mod part : Nat) : Nat → List Byte → Option (List FabMsg)
  | 0, _ => some []
  | n + 1, l =>
    let g (k w : Nat) : Nat := ofBytes ((l.drop k).take w)
    let op := g 8 1
    let d := dataBytes op (g 10 2)
    if !(knownOp op) || 224 < g 10 2 || l.length < 16 + pad16 d then none
    else
      let m : FabMsg := { mod := mod, part := part, op := op, sub := bv 8 (g 9 1), addr := g 0 8, len := g 10 2,
                          tag := g 12 4, data := (l.drop 16).take d }
      (parseMsgs mod part n (l.drop (16 + pad16 d))).map (fun r => m :: r)

/-! ## Headers and flits (R390) -/

/-- The fields of a flit header. -/
structure FlitHead where
  seq : Nat
  ackSeq : Nat
  replay : Bool
  ackV : Bool
  srcMod : Nat
  srcPart : Nat
  dstMod : Nat
  cls : Nat
  type : Nat
  credit : Nat
  nmsg : Nat
  deriving DecidableEq, Repr

/-- The header word. -/
def FlitHead.word (h : FlitHead) : Word :=
  bv 64 (h.seq % 4096 * 2 ^ 52 + h.ackSeq % 4096 * 2 ^ 40 + h.replay.toNat * 2 ^ 39 + h.ackV.toNat * 2 ^ 38
    + h.srcMod % 64 * 2 ^ 32 + h.srcPart % 64 * 2 ^ 26 + h.dstMod % 64 * 2 ^ 20 + h.cls % 8 * 2 ^ 17
    + h.type % 16 * 2 ^ 13 + h.credit % 32 * 2 ^ 8 + h.nmsg % 16 * 16)

/-- The header of a word. -/
def flitHead (w : Word) : FlitHead :=
  { seq := fieldOf w 52 12, ackSeq := fieldOf w 40 12, replay := bitOf w 39, ackV := bitOf w 38,
    srcMod := fieldOf w 32 6, srcPart := fieldOf w 26 6, dstMod := fieldOf w 20 6, cls := fieldOf w 17 3,
    type := fieldOf w 13 4, credit := fieldOf w 8 5, nmsg := fieldOf w 4 4 }

/-- A flit: header, payload filled to 240 bytes, and the CRC, most significant byte first. -/
def flitBytes (h : FlitHead) (payload : List Byte) : List Byte :=
  let l := toBytes 8 h.word.toNat ++ fillTo 240 (payload.take 240)
  l ++ (toBytes 8 (crc64 l)).reverse

/-- The CRC of a flit is right. -/
def flitOk (f : List Byte) : Bool := f.length = 256 && (toBytes 8 (crc64 (f.take 248))).reverse == f.drop 248

/-! ## Sending (R389, R390, R393) -/

/-- Port `p`. -/
def Chrodon.port (x : Chrodon) (p : Nat) : Port := x.ports[p % 16]'(Nat.mod_lt _ (by decide))
/-- Replacing port `p`. -/
def Chrodon.setPort (x : Chrodon) (p : Nat) (y : Port) : Chrodon :=
  { x with ports := x.ports.set (p % 16) y (Nat.mod_lt _ (by decide)) }

/-- The flit buffers a port returns in its next flit (R390). -/
def Port.returns (y : Port) : Nat := min 31 y.owed

/-- The ports that are up of the route to a module (R393). -/
def upPorts (s : State) (d : Nat) : List Nat :=
  (List.range 16).filter (fun p => ((s.chr.route[d]?).getD 0).getLsbD p && (s.chr.port p).state == 2#2)

/-- The port of a region of another module (R393). -/
def portOf (s : State) (a : Nat) : Nat :=
  let ps := upPorts s (a / 2 ^ 40)
  (ps[a / 256 % (max 1 ps.length)]?).getD 0

/-- A message leaves through a port in a flit of its own, which the replay buffer keeps. -/
def transmit (p : Nat) (m : FabMsg) (s : State) : State :=
  let y := s.chr.port p
  let seq := y.txSeq + 1
  let h : FlitHead := { seq := seq.toNat, ackSeq := y.rxSeq.toNat, replay := false, ackV := true,
                        srcMod := s.chr.modIdx.toNat, srcPart := m.part, dstMod := m.mod, cls := m.cls,
                        type := if m.asks then 1 else 2, credit := y.returns, nmsg := 1 }
  let f := flitBytes h m.bytes
  let y := { y with
    txSeq := seq
    txq := y.txq ++ [(seq, f)]
    credit := y.credit - 1
    owed := y.owed - y.returns }
  { s with chr := { s.chr.setPort p y with outbox := s.chr.outbox ++ [(p, f)] } }

/-- An idle flit returns flit buffers and acknowledges; it repeats the SEQ of the last flit and is not kept (R390). -/
def sendIdle (p : Nat) (s : State) : State :=
  let y := s.chr.port p
  let h : FlitHead := { seq := y.txSeq.toNat, ackSeq := y.rxSeq.toNat, replay := false, ackV := true,
                        srcMod := s.chr.modIdx.toNat, srcPart := 0, dstMod := 0, cls := 0, type := 0,
                        credit := y.returns, nmsg := 0 }
  { s with chr := { s.chr.setPort p { y with owed := y.owed - y.returns } with
      outbox := s.chr.outbox ++ [(p, flitBytes h [])] } }

/-- A port can send a flit: its replay buffer, which holds 256, has room, and the partner has a free flit buffer. -/
def portRoom (s : State) (p : Nat) : Bool := (s.chr.port p).txq.length < 256 && (s.chr.port p).credit ≠ 0

/-- The port through which a message can leave now: a request's region has no earlier unanswered request on another
port; a response takes any port of the route that is up. -/
def exitPort (s : State) (m : FabMsg) : Option Nat :=
  if m.asks then
    let p := portOf s m.addr
    let behind := s.coh.remote.any (fun r => r.sent && r.kind != 100 && r.tag != m.tag && r.addr / 256 == m.addr / 256
      && r.port != p && r.answer.isNone && !r.failed && !(s.chr.held.any (fun k => k.asks && k.tag == r.tag)))
    if (upPorts s m.mod).isEmpty || behind || !(portRoom s p) then none else some p
  else (upPorts s m.mod).find? (portRoom s)

/-- A message that must wait for an earlier held one: the same region's request, or any earlier response. -/
def heldBefore (l : List FabMsg) (m : FabMsg) : Bool :=
  l.any (fun k => k.asks == m.asks && k.mod == m.mod && (!m.asks || k.addr / 256 == m.addr / 256))

/-- A request has left through a port. -/
def markSent (s : State) (m : FabMsg) (p : Nat) : State :=
  let one (r : Remote) : Remote :=
    let new : Remote := { r with sent := true, port := p, since := if r.sent then r.since else s.ticks }
    if r.tag == m.tag && m.asks then new else r
  { s with coh := { s.coh with remote := s.coh.remote.map one } }

/-- A message leaves, or is held. -/
def sendFabric (m : FabMsg) (s : State) : State :=
  match (if heldBefore s.chr.held m then none else exitPort s m) with
  | some p => transmit p m (markSent s m p)
  | none => { s with chr := { s.chr with held := s.chr.held ++ [m] } }

/-- A held message leaves if it can. -/
def releaseOne (s : State) (m : FabMsg) : State :=
  let before := s.chr.held.takeWhile (fun k => !(k == m))
  match (if heldBefore before m then none else exitPort s m) with
  | some p => transmit p m (markSent { s with chr := { s.chr with held := s.chr.held.erase m } } m p)
  | none => s

/-- Every held message that can leave does, in order. -/
def releaseHeld (s : State) : State := s.chr.held.foldl releaseOne s

/-- The messages of a flit of this module. -/
def flitMsgs (f : List Byte) : List FabMsg :=
  let h := flitHead (bv 64 (ofBytes (f.take 8)))
  (parseMsgs h.dstMod h.srcPart h.nmsg ((f.drop 8).take 240)).getD []

/-- A port leaves the up state: what its replay buffer holds is to be sent again on the new path (R393, R417). -/
def Chrodon.dropPort (x : Chrodon) (p state : Nat) : Chrodon :=
  let y := x.port p
  { x.setPort p { y with state := bv 2 state, txq := [], wantReplay := false, replays := 0, resent := 0, credit := 256, owed := 0 } with
    held := y.txq.flatMap (fun f => flitMsgs f.2) ++ x.held }

end Sys2Proof.Machine
end

