-- ==== Sys2Proof/Machine/Address.lean ====
section
/-! DEFINITION. From an address an agent names to the place it is performed at: windows and the physical map
(spec/13, R270, R271), physical memory protection (R15), translation and its caches (R273-R277), partitions (R357),
migrating pages (R351), memory of other modules (R283, R392-R394), and the loads and stores built on them. -/

namespace Sys2Proof.Machine

/-! ## Kinds of access and their causes (R135) -/

/-- The kinds of access. -/
inductive Acc | fetch | load | store
  deriving DecidableEq, Repr

/-- The address-misaligned cause. -/
def Acc.misaligned : Acc → Nat
  | .fetch => 0
  | .load => 4
  | .store => 6
/-- The access-fault cause. -/
def Acc.access : Acc → Nat
  | .fetch => 1
  | .load => 5
  | .store => 7
/-- The page-fault cause. -/
def Acc.page : Acc → Nat
  | .fetch => 12
  | .load => 13
  | .store => 15

/-- Under whose authority an access is made: agent, effective privilege, satp, SUM, MXR, partition, and whether
physical memory protection applies (a Milliner and a root-port requester have none, assumption 13). `slot` is 0 for an
instruction's accesses, q + 1 for the fills of stream q, 8 for the texture unit and 9 for the window sequencers; `vec` says
that the access is of the vector class (R179). -/
structure Env where
  who : Nat
  priv : Priv
  satp : Word
  sum : Bool
  mxr : Bool
  part : Nat
  pmp : Bool
  slot : Nat := 0
  vec : Bool := false
  deriving DecidableEq, Repr

/-- The privilege of a data access: MPP in M mode with MPRV = 1 (R15). -/
def Hart.dataPriv (h : Hart) : Priv :=
  if h.priv = .m && bitOf h.csr.mstatus 17 then Priv.ofCode (fieldOf h.csr.mstatus 11 2) else h.priv

/-- The authority of a hart's data accesses, or of its fetches. -/
def envOf (s : State) (who : Nat) (fetch : Bool) : Env :=
  let h := s.hartAt who
  { who := who, priv := if fetch then h.priv else h.dataPriv, satp := h.csr.satp, sum := bitOf h.csr.mstatus 18,
    mxr := bitOf h.csr.mstatus 19, part := partOf s who, pmp := !isMilliner who }

/-! ## The physical map (R271, R276, R407) -/

/-- Where a physical address lies. -/
inductive Region
  | own
  | far (module : Nat)
  | tcm (core : Nat)
  | spad (cluster : Nat)
  | dev
  | hole
  deriving DecidableEq, Repr

/-- The first byte of the TCM alias of a global core. -/
def tcmAlias (c : Nat) : Nat := 0x3FB0000000000 + c * 0x40000

/-- Whether `a` lies in `n` bytes from `b`. -/
def within (a b n : Nat) : Bool := b ≤ a && a < b + n

/-- The device ranges (R276): interrupt blocks and files, the control blocks, kick pages, ECAM and MMIO. -/
def isDevice (a : Nat) : Bool :=
  within a 0x3FE4000000000 (agentCount * 0x40 - 336 * 0x40) || within a 0x3FD8000000000 (9240 * 0x2000)
  || within a 0x3FE0000000000 (9216 * 0x40) || within a 0x3FE0000100000 (336 * 0x40)
  || within a 0x3FE0000200000 (24 * 0x40) || within a 0x3FD0000000000 (144 * 0x1000)
  || within a 0x3FF0000000000 (64 * 0x1000) || within a 0x3FFC000000000 0x1000
  || within a 0x3FFC000010000 0x1000 || within a 0x3FFC000020000 0x1000 || within a 0x3FFC000030000 0x1000
  || within a 0x3FFC000100000 (6 * 0x1000) || within a 0x3FA0000000000 (336 * 0x4000)
  || within a 0x3F80000000000 (2 ^ 28) || within a 0x3F00000000000 (2 ^ 43)

/-- The region of a physical address. -/
def regionOf (s : State) (a : Nat) : Region :=
  if a < 2 ^ 46 then
    if isOwnMem s a then .own
    else if slotSize ≤ a % 2 ^ 40 then .hole
    else if s.chr.valid && a / 2 ^ 40 = s.chr.modIdx.toNat then .own
    else .far (a / 2 ^ 40)
  else if within a (tcmAlias 0) (2304 * 0x40000) then .tcm ((a - tcmAlias 0) / 0x40000)
  else if within a (spadAlias 0) (144 * 0x400000) then .spad ((a - spadAlias 0) / 0x400000)
  else if isDevice a then .dev
  else .hole

/-! ## Die-to-die routes (R5, R347) -/

/-- The die of an agent number (R354). -/
def agentDie (a : Nat) : Nat := if a < 2304 then a / 384 else if a < 9576 then dieOf a else (a - 9576) / 24

/-- The links of the route between two dies: along the source's row, then across. Links are numbered in the order of
R5's adjacent pairs. -/
def routeLinks (a b : Nat) : List Nat :=
  let lo := min (a % 3) (b % 3)
  let hi := max (a % 3) (b % 3)
  (List.range (hi - lo)).map (fun i => a / 3 * 2 + lo + i) ++ (if a / 3 = b / 3 then [] else [4 + b % 3])

/-- A link of the route between two dies is retraining. -/
def routeHeld (s : State) (a b : Nat) : Bool := (routeLinks a b).any (fun l => s.pkg.retraining.contains l)

/-! ## Physical memory protection (R15: 16 entries, granularity 16 KiB) -/

/-- The span [lo, hi) of entry `i`, if it is on. -/
def pmpSpan (c : Csrs) (i : Nat) : Option (Nat × Nat) :=
  let addr (j : Nat) : Nat := ((c.pmpaddr[j]?).getD 0).toNat
  let cfg := (c.pmpcfg[i]?).getD 0
  match fieldOf cfg 3 2 with
  | 1 => some ((if i = 0 then 0 else addr (i - 1) / 4096 * 16384), addr i / 4096 * 16384)
  | 3 =>
    let x := addr i ||| 2047
    let ones := lowestOne 54 (2 ^ 54 - 1 - x)
    let size := 2 ^ (ones + 3)
    some (x * 4 / size * size, x * 4 / size * size + size)
  | _ => none

/-- The outcome of entries from `i` on for an access of `n` bytes. -/
def pmpFrom (c : Csrs) (p : Priv) (k : Acc) (a n : Nat) : Nat → Nat → Bool
  | 0, _ => p = .m
  | fuel + 1, i =>
    match pmpSpan c i with
    | some (lo, hi) =>
      if a + n ≤ lo || hi ≤ a then pmpFrom c p k a n fuel (i + 1)
      else
        let cfg := (c.pmpcfg[i]?).getD 0
        let bit := match k with
          | .load => 0
          | .store => 1
          | .fetch => 2
        lo ≤ a && a + n ≤ hi && ((p = .m && !(bitOf cfg 7)) || bitOf cfg bit)
    | none => pmpFrom c p k a n fuel (i + 1)

/-- Whether physical memory protection lets an access pass: the lowest entry that matches any byte decides, and it
must match every byte. -/
def pmpOk (s : State) (e : Env) (k : Acc) (a n : Nat) : Bool :=
  !e.pmp || pmpFrom (s.hartAt e.who).csr e.priv k a n 16 0

/-! ## Requests to other modules (R283, R392-R394) -/

/-- Whether a request to module `d` can be delivered at issue (R392). -/
def deliverable (s : State) (d : Nat) : Bool := s.chr.memb.getLsbD d && s.chr.valid && !(upPorts s d).isEmpty

/-- Sending a request to another module (R390): it leaves, or is held behind earlier requests for its region (R393).
`kind` is the message code; `sub` is head byte 9. -/
def sendRemote (s : State) (part hart slot kind : Nat) (sub : Byte) (a n : Nat) (data : List Byte) : State :=
  let tag := s.coh.nextTag
  let msg : FabMsg := { mod := a / 2 ^ 40, part := part, op := kind, sub := sub, addr := a, len := n,
                        tag := tag % 2 ^ 32, data := data }
  let rq : Remote := { tag := tag % 2 ^ 32, hart := hart, part := part, kind := kind, addr := a, len := n,
                       port := portOf s a, slot := slot, sent := false }
  sendFabric msg { s with coh := { s.coh with remote := s.coh.remote ++ [rq], nextTag := tag + 1 } }

/-- The remote request of a hart that matches. -/
def findRemote (s : State) (hart slot kind a n : Nat) : Option Remote :=
  s.coh.remote.find? (fun r => r.hart == hart && r.slot == slot && r.kind == kind && r.addr == a && r.len == n)

/-- The state without a remote request. -/
def dropRemote (s : State) (tag : Nat) : State :=
  { s with coh := { s.coh with remote := s.coh.remote.filter (fun r => r.tag != tag) } }

/-! ## Page tables (R274-R277) -/

/-- Whether an entry is a leaf. -/
def pteLeaf (p : Word) : Bool := bitOf p 1 || bitOf p 3

/-- The reserved forms of an entry at a level (R275). -/
def pteReserved (p : Word) (lv : Nat) : Bool :=
  fieldOf p 62 2 ≠ 0 || fieldOf p 50 6 ≠ 0 || fieldOf p 10 4 ≠ 0 || 2 ≤ fieldOf p 8 2
  || (bitOf p 2 && !(bitOf p 1))
  || (!(pteLeaf p) && (bitOf p 7 || bitOf p 6 || bitOf p 4 || fieldOf p 8 2 ≠ 0 || fieldOf p 56 6 ≠ 0))
  || (pteLeaf p && lv = 0 && fieldOf p 14 22 ≠ 0) || (pteLeaf p && lv = 1 && fieldOf p 14 11 ≠ 0)

/-- The number of offset bits of a page whose leaf is at a level: 64 GiB, 32 MiB or 16 KiB. -/
def pageBits (lv : Nat) : Nat := 36 - 11 * lv

/-- The entry at physical address `a` as the walker reads it (R274, R277): memory of the package on the committed value, a
TCM or scratchpad by its alias, or the memory of another module, which must answer first. -/
def walkRead (s : State) (e : Env) (k : Acc) (va a : Nat) : Except Stop Word :=
  let bad : Except Stop Word := .error (.trap k.access (bv 64 va))
  if !(pmpOk s { e with priv := .s } .load a 8) || 2 ^ 50 ≤ a then bad
  else match regionOf s a with
    | .own =>
      if ownerOf s a ≠ e.part then bad
      else match forward s a with
        | none => .error .stall
        | some b =>
          if s.coh.poison.contains (b / 8 * 8) then .error (.uncorrectable k.access (bv 64 va) 8 (b / 8 * 8))
          else .ok (read8 s.mem b)
    | .tcm c => if partOfCluster s (c / 16) ≠ e.part || s.coh.poison.contains a then bad else .ok (read8 s.mem a)
    | .spad c => if partOfCluster s c ≠ e.part || s.coh.poison.contains a then bad else .ok (read8 s.mem a)
    | .far d =>
      match findRemote s e.who e.slot 1 a 8 with
      | some r =>
        if r.failed then bad
        else match r.answer with
          | some v => .ok (bv 64 v)
          | none => .error .stall
      | none => if deliverable s d then .error (.walk a) else bad
    | _ => bad

/-- The walk of R274 from level `lv`; `fuel` levels remain. It answers the level and the leaf, or what stops it. -/
def walkFrom (s : State) (e : Env) (k : Acc) (va : Nat) : Nat → Nat → Nat → Except Stop (Nat × Word)
  | 0, _, _ => .error (.trap k.page (bv 64 va))
  | fuel + 1, lv, table =>
    match walkRead s e k va (table + nbits va (36 - 11 * lv) 11 * 8) with
    | .error x => .error x
    | .ok p =>
      if !(bitOf p 0) || pteReserved p lv then .error (.trap k.page (bv 64 va))
      else if pteLeaf p then .ok (lv, p)
      else walkFrom s e k va fuel (lv + 1) (fieldOf p 14 36 * 16384)

/-- The leaf's permission for an access (R276): as Sv39 leaves are checked, with A and D never set by hardware. -/
def leafAllows (e : Env) (k : Acc) (p : Word) : Bool :=
  let mode := match e.priv with
    | .u => bitOf p 4
    | _ => !(bitOf p 4) || (e.sum && k ≠ .fetch)
  let right := match k with
    | .fetch => bitOf p 3
    | .load => bitOf p 1 || (e.mxr && bitOf p 3)
    | .store => bitOf p 2
  mode && right && bitOf p 6 && (k ≠ .store || bitOf p 7)

/-- The physical address a leaf at a level gives. -/
def leafPa (lv : Nat) (p : Word) (va : Nat) : Nat :=
  fieldOf p 14 36 * 16384 / 2 ^ pageBits lv * 2 ^ pageBits lv + va % 2 ^ pageBits lv

/-- The list index of the L1 TLB an agent uses: its core's, or its own for a system core (R277). -/
def tlbIndex (who : Nat) : Option Nat :=
  match kindOf who with
  | .compute => some (coreOf who)
  | .system => some (2304 + (who - 9216))
  | _ => none

/-- Whether a cached translation serves an access. -/
def TlbEnt.hits (t : TlbEnt) (e : Env) (va : Nat) : Bool :=
  (bitOf t.leaf 5 || t.asid == bv 16 (fieldOf e.satp 44 16)) && t.part == e.part
  && t.vpn == va / 2 ^ pageBits t.level

/-- The cached translation of an address: the L1 TLB, then on a compute hart the cluster's L2 TLB. -/
def tlbFind (s : State) (e : Env) (va : Nat) : Option TlbEnt :=
  match tlbIndex e.who with
  | none => none
  | some c =>
    match (s.coreAt c).tlb.find? (fun t => t.hits e va) with
    | some t => some t
    | none =>
      if kindOf e.who = .compute then (s.clusterAt (clusterOf e.who)).tlb.find? (fun t => t.hits e va) else none

/-- A TLB of `sets` sets of 8 ways with one more entry: an entry stands in the set of its virtual page number, and in a
full set the one cached first makes room (R168, R277; which one does, the spec does not say: assumption 10). -/
def tlbPut (sets : Nat) (t : TlbEnt) (l : List TlbEnt) : List TlbEnt :=
  let here (x : TlbEnt) : Bool := x.vpn % sets == t.vpn % sets
  t :: ((l.filter here).take 7 ++ l.filter (fun x => !(here x)))

/-- The state with a translation cached (R168, R277): 1,024 entries in the L1 TLB, 8,192 in the cluster's L2 TLB. -/
def tlbFill (s : State) (e : Env) (t : TlbEnt) : State :=
  match tlbIndex e.who with
  | none => s
  | some c =>
    let s := s.setCoreAt c { s.coreAt c with tlb := tlbPut 128 t (s.coreAt c).tlb }
    if kindOf e.who = .compute then
      let k := clusterOf e.who
      s.setClusterAt k { s.clusterAt k with tlb := tlbPut 1024 t (s.clusterAt k).tlb }
    else s

/-- Whether satp translates the accesses of an environment: MODE 14 below M mode. -/
def Env.translates (e : Env) : Bool := e.priv ≠ .m && fieldOf e.satp 60 4 = 14

/-- The level and the leaf of an address: cached, or found by a walk and then cached. -/
def findLeaf (s : State) (e : Env) (k : Acc) (va : Nat) : Except Stop (Nat × Word × State) :=
  match tlbFind s e va with
  | some t => .ok (t.level, t.leaf, s)
  | none =>
    match walkFrom s e k va 3 0 (fieldOf e.satp 0 44 * 4096) with
    | .error c => .error c
    | .ok (lv, p) =>
      .ok (lv, p, tlbFill s e { asid := bv 16 (fieldOf e.satp 44 16), part := e.part, level := lv,
                                vpn := va / 2 ^ pageBits lv, leaf := p })

/-- A virtual address to a physical address and whether its leaf is a device page (R273-R276). -/
def translate (s : State) (e : Env) (k : Acc) (va : Nat) : Except Stop (Nat × Bool × State) :=
  if !e.translates then .ok (va, false, s)
  else if 2 ^ 47 ≤ va then .error (.trap k.page (bv 64 va))
  else match findLeaf s e k va with
    | .error c => .error c
    | .ok (lv, p, s') =>
      if !(leafAllows e k p) then .error (.trap k.page (bv 64 va))
      else if fieldOf p 56 6 ≠ e.part then .error (.trap k.access (bv 64 va))
      else .ok (leafPa lv p va, fieldOf p 8 2 = 1, s')

/-! ## The place of an access -/

/-- Where an access is performed: bytes of this package (memory, TCM or scratchpad, by physical address), a device page
(a device range, or any place through a leaf with MT = 01), or memory of another module. -/
inductive Loc
  | mem (a : Nat)
  | dev (a : Nat)
  | far (a : Nat)
  deriving DecidableEq, Repr

/-- The die that performs an access to bytes of this package. -/
def dieAtPa (s : State) (a : Nat) : Nat :=
  match regionOf s a with
  | .tcm c => c / 384
  | .spad c => c / 24
  | _ => homeDie s a

/-- A retraining link holds an access that is performed at once (R347); one by messages waits in flight. -/
def linkStops (s : State) (e : Env) (a : Nat) : Bool :=
  !s.pkg.retraining.isEmpty && !s.stepwise && e.who < agentCount && routeHeld s (dieOf e.who) (dieAtPa s a)

/-- The place of a physical access of `n` bytes: the map, partition and protection checks (R271, R276, R357). -/
def placeOf (s : State) (e : Env) (k : Acc) (va a n : Nat) (devLeaf : Bool) : Except Stop Loc :=
  let bad : Except Stop Loc := .error (.trap k.access (bv 64 va))
  if !(pmpOk s e k a n) then bad
  else if 2 ^ 50 ≤ a then bad
  else match regionOf s a with
    | .hole => bad
    | .dev => .ok (.dev a)
    | .far _ => .ok (if devLeaf then .dev a else .far a)
    | .tcm c =>
      if partOfCluster s (c / 16) ≠ e.part then bad
      else if linkStops s e a then .error .stall
      else .ok (if devLeaf then .dev a else .mem a)
    | .spad c =>
      if partOfCluster s c ≠ e.part then bad
      else if linkStops s e a then .error .stall
      else .ok (if devLeaf then .dev a else .mem a)
    | .own =>
      if ownerOf s a ≠ e.part then bad
      else if linkStops s e a then .error .stall
      else match forward s a with
        | some b => .ok (if devLeaf then .dev b else .mem b)
        | none => .error .stall

/-- The place of an access of `n` bytes at a virtual address that stays on one page (R270, R276). -/
def resolve (s : State) (e : Env) (k : Acc) (va n : Nat) : Except Stop (Loc × State) :=
  if within va 0x7FFFFF800000 0x800000 then
    let bad : Except Stop (Loc × State) := .error (.trap k.access (bv 64 va))
    if k = .fetch then bad
    else if within va 0x7FFFFFFC0000 0x40000 then
      (if kindOf e.who = .compute then .ok (.mem (tcmAlias (coreOf e.who) + (va - 0x7FFFFFFC0000)), s) else bad)
    else if within va 0x7FFFFF800000 0x400000 then
      (if kindOf e.who = .compute || kindOf e.who = .clusterMilliner then
        .ok (.mem (spadAlias (clusterOf e.who) + (va - 0x7FFFFF800000)), s) else bad)
    else bad
  else
    match translate s e k va with
    | .error x => .error x
    | .ok (a, dl, s') =>
      match placeOf s' e k va a n dl with
      | .error x => .error x
      | .ok l => .ok (l, s')

/-! ## Accesses to memory of another module (R283) -/

/-- Merging bytes into a list of held remote words: only words that are held change (R283). -/
def patchRemote (l : List (Nat × Word)) (a : Nat) (bs : List Byte) : List (Nat × Word) :=
  l.map (fun p => (p.1, bv 64 (ofBytes ((List.range 8).map (fun i =>
    if a ≤ p.1 + i && p.1 + i < a + bs.length then (bs[p.1 + i - a]?).getD 0
    else bv 8 (p.2.toNat / 256 ^ i))))))

/-- Reading `n` bytes of a held remote word. -/
def heldRemote (l : List (Nat × Word)) (a n : Nat) : Option Nat :=
  (l.find? (fun p => p.1 == a / 8 * 8 && a % 8 + n ≤ 8)).map (fun p => p.2.toNat / 256 ^ (a % 8) % 256 ^ n)

/-- The reads an instruction of a hart has asked for are done with: those of other modules, and the words a Milliner, which
holds no cache (R278), has been sent. -/
def settleReads (h slot : Nat) (s : State) : State :=
  { s with coh := { s.coh with
      remote := s.coh.remote.filter (fun r => !(r.hart == h && r.slot == slot && r.kind == 1))
      copies := if isMilliner h then s.coh.copies.filter (fun c => c.agent != h) else s.coh.copies } }

/-- The words of other modules that serve an access: the texture cache's, or the core's L1D's (R283). -/
def heldWords (s : State) (e : Env) : List (Nat × Word) :=
  let co := s.coreAt (coreOf e.who)
  if kindOf e.who ≠ .compute then [] else if e.slot = 8 then co.texRemote else co.remote

/-- A whole word of another module is held by the cache of its access. -/
def holdWord (s : State) (e : Env) (a n v : Nat) : State :=
  let c := coreOf e.who
  let co := s.coreAt c
  if kindOf e.who ≠ .compute || a % 8 ≠ 0 || n ≠ 8 then s
  else if e.slot = 8 then s.setCoreAt c { co with texRemote := (a, bv 64 v) :: co.texRemote }
  else s.setCoreAt c { co with remote := (a, bv 64 v) :: co.remote }

/-- A read of memory homed on another module: a request is sent and the agent waits for its Data (R283, R394); while the
word is held, either the held value or the value at the home is read, which one is free (R283, assumption 3). The
answer stands until the instruction ends. -/
def remoteRead (e : Env) (k : Acc) (va a n : Nat) : Act Nat := fun s =>
  match findRemote s e.who e.slot 1 a n with
  | some r =>
    if r.failed then .error (.trap k.access (bv 64 va)) s
    else match r.answer with
      | some v => .ok (v % 256 ^ n) (holdWord s e a n v)
      | none => .error .stall s
  | none =>
    let ask (s : State) : EStateM.Result Stop State Nat :=
      if deliverable s (a / 2 ^ 40) then .error .stall (sendRemote s e.part e.who e.slot 1 0 a n [])
      else .error (.trap k.access (bv 64 va)) s
    match heldRemote (heldWords s e) a n with
    | some v => if Config.freeNat s.fresh % 2 = 0 then .ok v s.useFresh else ask s.useFresh
    | none => ask s

/-- A store to memory homed on another module writes through and updates only the issuing core's copy (R283). -/
def remoteWrite (e : Env) (k : Acc) (va a : Nat) (bs : List Byte) : Act Unit := fun s =>
  if !(deliverable s (a / 2 ^ 40)) then .error (.trap k.access (bv 64 va)) s
  else
    let s := sendRemote s e.part e.who e.slot 2 0 a bs.length bs
    let c := coreOf e.who
    .ok () (if kindOf e.who = .compute then
      s.setCoreAt c { s.coreAt c with remote := patchRemote (s.coreAt c).remote a bs } else s)

/-- A fresh read (`kind` 1), AMO (3), LR (4) or SC (5) at the home on another module (R283, R390): the value returned is the response's;
an abandoned one takes cause 7, a read or LR cause 5 (R394). -/
def remoteAtomic (e : Env) (kind : Nat) (sub : Byte) (va a n : Nat) (data : List Byte) : Act Nat := fun s =>
  let bad : Stop := .trap (if kind = 1 || kind = 4 then 5 else 7) (bv 64 va)
  match findRemote s e.who e.slot kind a n with
  | some r =>
    if r.failed then .error bad (dropRemote s r.tag)
    else match r.answer with
      | some v => .ok v (dropRemote s r.tag)
      | none => .error .stall s
  | none =>
    if !(deliverable s (a / 2 ^ 40)) then .error bad s
    else .error .stall (sendRemote s e.part e.who e.slot kind sub a n data)

/-- Whether a running lease of another agent holds `n` bytes at `a` against a writer
(R193). -/
def leaseBlocks (s : State) (w : Writer) (a n : Nat) : Bool :=
  s.coh.leases.any (fun l => a < l.pa + l.len && l.pa < a + n && !(l.hart == w.hart && w.scalar))

/-- An access stops; one that needs a table of another module asks for its entry and waits (R274). -/
def stopAccess {α : Type} (e : Env) (x : Stop) : Act α := fun s =>
  match x with
  | .walk a => .error .stall (sendRemote s e.part e.who e.slot 1 0 a 8 [])
  | x => .error x s

/-- The place of a virtual access, as an action. -/
def locate (e : Env) (k : Acc) (va n : Nat) : Act Loc := fun s =>
  match resolve s e k va n with
  | .ok (l, s') => .ok l s'
  | .error x => stopAccess e x s

end Sys2Proof.Machine
end

