-- ==== Sys2Proof/Machine/Coherence.lean ====
section
/-! DEFINITION. The coherence protocol (spec/13, R278-R282) and the lease at its home (spec/08, R193, R194). While the
state's `stepwise` is false every access of the package is performed at once; while it is true, the accesses to the
package's coherent memory travel as the messages of R280, each of which is delivered by an event (assumption 2). -/

namespace Sys2Proof.Machine

/-! ## Messages in flight -/

/-- The region of an address. -/
def regionNo (a : Nat) : Nat := a / 256

/-- Two spans overlap. -/
def overlap (a n b k : Nat) : Bool := a < b + k && b < a + n

/-- The 8-byte words of a span. -/
def wordsOf (a n : Nat) : List Nat :=
  (List.range (ceilDiv (a % 8 + n) 8)).map (fun i => a / 8 * 8 + 8 * i)

/-- The number under which a home slice sends. -/
def homeNo (s : State) (a : Nat) : Nat := homeDie s a * 48 + homeSlice a

/-- The current incarnation of an agent (R354). -/
def incOf (s : State) (agent : Nat) : BitVec 4 := look 0 s.coh.incarnation agent

/-- The sender number of the package's own units, which are no agents of R354. -/
def unitNo : Nat := 16384

/-- The number under which the home performs another module's requests, which are no agent's of the package. -/
def farSender (mod : Nat) : Nat := unitNo + 1 + mod

/-- Sending a message. -/
def State.send (s : State) (m : Msg) : State := { s with coh := { s.coh with net := s.coh.net ++ [m] } }

/-- The next number of a store. -/
def State.useId (s : State) : State := { s with coh := { s.coh with nextId := s.coh.nextId + 1 } }

/-! ## Die-to-die routes (R5, R347) -/

/-- A message that travels to a home. -/
def MsgKind.homeward : MsgKind → Bool
  | .getS | .rd | .wr | .amo | .uack | .evict | .invack | .lreq | .lend => true
  | _ => false

/-- A request whose order against an agent's other requests nothing but the agent's own order gives. -/
def MsgKind.access : MsgKind → Bool
  | .getS | .rd | .wr | .amo => true
  | _ => false

/-- The dies a message leaves from and goes to. -/
def msgDies (m : Msg) : Nat × Nat :=
  if m.kind.homeward then (agentDie m.src, m.dst / 48) else (m.src / 48, agentDie m.dst)

/-- A retraining link holds a message (R347). -/
def linkHolds (s : State) (m : Msg) : Bool := routeHeld s (msgDies m).1 (msgDies m).2

/-- Whether an earlier message `k` in flight must arrive before message `m`: between two dies messages arrive in the order
sent (R347); of one die, those of one sender to one receiver about an overlapping span, but that accesses of different
agents of a core overtake each other (R288, R289). -/
def goesBefore (k m : Msg) : Bool :=
  if (msgDies m).1 ≠ (msgDies m).2 then msgDies k == msgDies m
  else k.src == m.src && k.dst == m.dst && overlap k.addr k.len m.addr m.len
    && (!(k.kind.access && m.kind.access) || (k.hart == m.hart && k.slot == m.slot))

/-- Message `n` of a kind, if it may arrive now: no link holds it, and no message that goes before it is in flight. The
state no longer has it. -/
def takeMsg (s : State) (kind : MsgKind) (n : Nat) : Option (Msg × State) :=
  match s.coh.net[n]? with
  | none => none
  | some m =>
    if m.kind ≠ kind || linkHolds s m then none
    else if (s.coh.net.take n).any (fun k => goesBefore k m) then none
    else some (m, { s with coh := { s.coh with net := s.coh.net.eraseIdx n } })

/-- A message whose incarnation is not its sender's current one is dropped at the home and counted (R355). -/
def staleDrop (s : State) (m : Msg) : Option State :=
  if m.inc ≠ incOf s m.src then
    some (s.modDie (homeDie s m.addr) (fun d => { d with stale := satInc d.stale }))
  else none

/-- A message to a page in migration is for the new page once its region has been copied (R351, R352); before that it
waits. -/
def redirect (s : State) (m : Msg) : Option Msg := (forward s m.addr).map (fun a => { m with addr := a })

/-! ## The directory (R279) -/

/-- The directory entry of a region. -/
def dirOf (s : State) (region : Nat) : Option DirState := (s.coh.dir.find? (fun p => p.1 == region)).map Prod.snd

/-- Replacing the directory entry of a region. -/
def setDir (s : State) (region : Nat) (d : Option DirState) : State :=
  let rest := s.coh.dir.filter (fun p => p.1 != region)
  { s with coh := { s.coh with dir := match d with
      | some x => put rest region x
      | none => rest } }

/-- The cluster bit or die bit of a sharer in a broad entry. -/
def broadBits (agent : Nat) : BitVec 144 × BitVec 6 :=
  if agent < 2304 then (bv 144 (2 ^ (agent / 16)), 0)
  else if 9576 ≤ agent then (bv 144 (2 ^ (agent - 9576)), 0)
  else (0, bv 6 (2 ^ ((agent - 9216) / 4)))

/-- The sharers a broad entry stands for: every core and texture cache of a marked cluster, every system core of a
marked die. -/
def broadSharers (cl : BitVec 144) (ds : BitVec 6) : List Nat :=
  ((List.range 144).filter (fun i => cl.getLsbD i)).flatMap (fun i =>
    (List.range 16).map (fun k => 16 * i + k) ++ [9576 + i])
  ++ ((List.range 6).filter (fun i => ds.getLsbD i)).flatMap (fun i => (List.range 4).map (fun k => 9216 + 4 * i + k))

/-- An entry after a request of sharer `y` for words `lo` to `hi` of the region. -/
def addSharer (d : Option DirState) (y lo hi : Nat) : DirState :=
  match d with
  | none => .p [(y, lo, hi)]
  | some (.b c k) => .b (c ||| (broadBits y).1) (k ||| (broadBits y).2)
  | some (.p rs) =>
    match rs.find? (fun r => r.1 == y) with
    | some _ => .p (rs.map (fun r => if r.1 = y then (y, min r.2.1 lo, max r.2.2 hi) else r))
    | none =>
      if rs.length < 8 then .p (rs ++ [(y, lo, hi)])
      else
        let bits := (rs.map (fun r => broadBits r.1) ++ [broadBits y]).foldl
          (fun a b => (a.1 ||| b.1, a.2 ||| b.2)) ((0 : BitVec 144), (0 : BitVec 6))
        .b bits.1 bits.2

/-- The sharers other than `y` that a store to a span updates. -/
def sharersOf (s : State) (y a n : Nat) : List Nat :=
  match dirOf s (regionNo a) with
  | none => []
  | some (.p rs) =>
    (rs.filter (fun r => r.1 != y && overlap (regionNo a * 256 + 8 * r.2.1) (8 * (r.2.2 + 1 - r.2.1)) a n)).map Prod.fst
  | some (.b c d) => (broadSharers c d).filter (fun x => x != y && !(s.coh.dead.contains x))

/-- Every sharer of a region. -/
def allSharers (s : State) (region : Nat) : List Nat :=
  match dirOf s region with
  | none => []
  | some (.p rs) => rs.map Prod.fst
  | some (.b c d) => (broadSharers c d).filter (fun x => !(s.coh.dead.contains x))

/-- Whether an agent has been declared dead and is held in reset (R355). -/
def isDead (s : State) (h : Nat) : Bool := s.coh.dead.contains (agentNo h)

/-! ## Copies at the sharers (R282) -/

/-- A store as a mark of a copy. -/
def Msg.pend (m : Msg) : Pend := { id := m.id, hart := m.hart, vec := m.slot == 1, addr := m.addr, data := m.data }

/-- A message carries a store or atomic that is not acknowledged yet. -/
def Msg.carries (m : Msg) : Bool := m.kind = .wr || m.kind = .amo

/-- The stores and atomics on their way to a commit, oldest first: committing, queued at their home, and in flight. -/
def unsettled (s : State) : List Msg :=
  s.coh.commits.map Commit.msg ++ s.coh.queued.filter Msg.carries ++ s.coh.net.filter Msg.carries

/-- The marks that words of an agent take when it receives them: its core's stores to them that are on their way. -/
def pendsOf (s : State) (agent w : Nat) : List Pend :=
  ((unsettled s).filter (fun m => m.src == agent && touches m.addr m.len w)).map Msg.pend

/-- Installing the words of a Data message at an agent's cache. -/
def installCopies (s : State) (agent : Nat) (instr : Bool) (a : Nat) (bs : List Byte) (l : List Copy) : List Copy :=
  let ws := wordsOf a bs.length
  l.filter (fun c => !(c.agent == agent && c.instr == instr && ws.contains c.word))
    ++ ws.map (fun w => { agent := agent, instr := instr, word := w, val := bv 64 (ofBytes ((bs.drop (w - a)).take 8)),
                          held := pendsOf s agent w })

/-- The copies of an agent that `n` bytes at `a` touch are held for a store. -/
def holdCopies (agent a n : Nat) (p : Pend) (l : List Copy) : List Copy :=
  l.map (fun c =>
    let new : Copy := { c with held := c.held ++ [p] }
    if c.agent == agent && touches a n c.word then new else c)

/-- A copy once one of the stores it is held for has committed. -/
def Copy.settle (c : Copy) (id : Nat) : Copy :=
  match c.held.find? (fun p => p.id == id) with
  | none => c
  | some p => { c with val := mergeWord c.word c.val p.addr p.data, held := c.held.filter (fun p => p.id != id) }

/-- The marks of a store at an agent are cleared. -/
def releaseCopies (agent id : Nat) (l : List Copy) : List Copy :=
  l.map (fun c => if c.agent == agent then c.settle id else c)

/-- Replacing the copies. -/
def State.mapCopies (s : State) (f : List Copy → List Copy) : State :=
  { s with coh := { s.coh with copies := f s.coh.copies } }

/-! ## Performing at the home -/

/-- The result of an atomic on the old value, with the width of the access. -/
def amoResult (o : AmoOp) (n old b : Nat) : Nat :=
  match o with
  | .swap => b
  | .add => (old + b) % 2 ^ n
  | .xor => old ^^^ b
  | .and => old &&& b
  | .or => old ||| b
  | .min => if signedOf n old ≤ signedOf n b then old else b
  | .max => if signedOf n old ≤ signedOf n b then b else old
  | .minu => min old b
  | .maxu => max old b

/-- Whether a hart's reservation covers a word (R15: naturally aligned 8-byte words). -/
def reserved (s : State) (hart a : Nat) : Bool := (s.hartAt hart).run.resv == some (a / 8 * 8)

/-- What a store or atomic message writes, and what it returns: for an AMO the old value, for SC 0 where it succeeds
and 1 where it fails and writes nothing. -/
def effectOf (s : State) (m : Msg) : List Byte × Nat :=
  let old := readNat s.mem m.addr m.len
  match m.op with
  | none => (m.data, 0)
  | some (.amo o) => (toBytes m.len (amoResult o (8 * m.len) old (ofBytes m.data)), old)
  | some .sc => if reserved s m.hart m.addr then (m.data, 0) else ([], 1)
  | some (.farSc d) => if s.coh.farResv.contains (d, m.addr / 8 * 8) then (m.data, 0) else ([], 1)
  | some (.masked k) => ((List.range m.len).map (fun i =>
      if bitOf k i then (m.data[i]?).getD 0 else readByte s.mem (m.addr + i)), 0)

/-- A message of an atomic, which its hart awaits. -/
def Msg.atomic (m : Msg) : Bool :=
  match m.op with
  | some (.amo _) => true
  | some .sc => true
  | some (.farSc _) => true
  | _ => false

/-- The writer a message stands for. -/
def Msg.writer (m : Msg) : Writer := { hart := m.hart, scalar := m.slot != 1 }

/-- The acknowledgement to the writer: a message, or the response to another module (R283, R390); a unit of the package
awaits none. -/
def sendWack (s : State) (m : Msg) (ret : Nat) : State :=
  if m.slot = 5 then
    sendFabric { mod := m.src - farSender 0, part := m.base.toNat, op := if m.atomic then 0x12 else 0x11, sub := 0, addr := m.addr,
                 len := if m.atomic then m.len else 0, tag := m.n, data := if m.atomic then toBytes m.len ret else [] } s
  else if m.slot = 2 || !s.stepwise then s
  else s.send { m with kind := .wack, src := homeNo s m.addr, inc := 0, dst := m.src, data := toBytes 8 ret }

/-- Performing a store or atomic that has reached its home (R281): committed at once where no other sharer holds the
words, else sent to them as updates and committed at the last acknowledgement. -/
def perform (s : State) (m : Msg) : State :=
  let (bs, ret) := effectOf s m
  if bs.isEmpty then sendWack s m ret
  else
    let ys := sharersOf s m.src m.addr bs.length
    if ys.isEmpty then sendWack (s.commitBytes m.writer m.addr bs) m ret
    else
      let upd (y : Nat) : Msg := { m with kind := .upd, src := homeNo s m.addr, inc := 0, dst := y, data := bs }
      let c : Commit := { msg := { m with data := bs }, old := bv 64 ret, updated := ys, awaits := ys, since := s.cc }
      { s with coh := { s.coh with net := s.coh.net ++ ys.map upd, commits := s.coh.commits ++ [c] } }

/-- The commit of a store (R282): visible to every other agent at this instant. -/
def commitNow (s : State) (c : Commit) : State :=
  let m := c.msg
  let s := { s with coh := { s.coh with commits := s.coh.commits.filter (fun k => !(k == c)) } }
  let s := s.commitBytes m.writer m.addr m.data
  let cmt (y : Nat) : Msg := { m with kind := .cmt, src := homeNo s m.addr, inc := 0, dst := y }
  let s := { s with coh := { s.coh with net := s.coh.net ++ c.updated.map cmt } }
  sendWack s m c.old.toNat

/-! ## Leases at the home (R193, R194) -/

/-- Whether another hart's live or queued lease overlaps a span. -/
def leaseConflict (s : State) (hart a n : Nat) : Bool :=
  s.coh.leases.any (fun l => l.hart != hart && overlap l.pa l.len a n)
  || s.coh.queued.any (fun m => m.kind = .lreq && m.hart != hart && overlap m.addr m.len a n)

/-- The scalar agent that holds a live lease on the whole of a span is served at once (R193). -/
def holdsLease (s : State) (m : Msg) : Bool :=
  m.slot = 0 && s.coh.leases.any (fun l => l.hart == m.hart && l.pa ≤ m.addr && m.addr + m.len ≤ l.pa + l.len)

/-- A sharer's record of a span of one region (R281). -/
def recordSharer (s : State) (y a n : Nat) : State :=
  let r := regionNo a
  setDir s r (some (addSharer (dirOf s r) y (a % 256 / 8) ((a % 256 + n - 1) / 8)))

/-- Granting a lease request at the home: the grant carries the span's words, which a compute hart's L1D takes as a sharer
and a Milliner's lease buffer holds (R193, R325). -/
def grantLease (s : State) (m : Msg) : State :=
  let l : HomeLease := { hart := m.hart, slot := m.slot, pa := m.addr, len := m.len }
  let s := { s with coh := { s.coh with leases := s.coh.leases ++ [l] } }
  let s := if isMilliner m.hart then s else recordSharer s m.src m.addr m.len
  s.send { m with kind := .lgrant, src := homeNo s m.addr, inc := 0, dst := m.src, data := readBytes s.mem m.len m.addr }

/-- A word of a span is committing (R281), or the region is being displaced. -/
def committing (s : State) (a n : Nat) : Bool :=
  s.coh.commits.any (fun c => overlap c.msg.addr c.msg.len a n) || s.coh.evicting.any (fun p => p.region == regionNo a)

/-- Every sharer of a region is sent Inv, and the entry awaits their InvAcks. -/
def invalidate (region : Nat) (s : State) : State :=
  let ys := allSharers s region
  if committing s (region * 256) 256 || (dirOf s region).isNone then s
  else if ys.isEmpty then setDir s region none
  else
    let a := region * 256
    let inv (y : Nat) : Msg := { kind := .inv, src := homeNo s a, inc := 0, dst := y, hart := 0, addr := a, len := 256 }
    { s with coh := { s.coh with
        net := s.coh.net ++ ys.map inv
        evicting := s.coh.evicting ++ [{ region := region, awaits := ys, since := s.cc }] } }

/-- A store, atomic or lease request waits at its home: behind a lease, behind a request that waits there itself (the
holder's own scalar accesses pass them), or behind an earlier store of the same unit of the package. -/
def homeBlocks (s : State) (m : Msg) : Bool :=
  if m.kind = .lreq then leaseConflict s m.hart m.addr m.len
  else leaseBlocks s m.writer m.addr m.len
    || (!(holdsLease s m) && s.coh.queued.any (fun k => overlap k.addr k.len m.addr m.len))
    || (m.slot = 2 && (s.coh.queued.any (fun k => k.slot == 2 && k.hart == m.hart)
        || s.coh.commits.any (fun c => c.msg.slot == 2 && c.msg.hart == m.hart)))

/-- A request that waits at its home. -/
def State.enqueue (s : State) (m : Msg) : State := { s with coh := { s.coh with queued := s.coh.queued ++ [m] } }

/-- Performing a request that nothing blocks at its home. A page whose region has been copied has it at its new home
(R352). -/
def serveOne (s : State) (m : Msg) : State :=
  let m := { m with addr := placed s m.addr }
  if m.kind = .lreq then grantLease s m
  else if s.stepwise then perform s m
  else
    let (bs, ret) := effectOf s m
    sendWack (if bs.isEmpty then s else s.store m.writer m.addr bs) m ret

/-- Serving the queued requests in arrival order; those that must wait on stay queued. -/
def serveQueue (s : State) : List Msg → State
  | [] => s
  | m :: r =>
    if homeBlocks s m || committing s m.addr m.len || (forward s m.addr).isNone then serveQueue (s.enqueue m) r
    else serveQueue (serveOne s m) r

/-- Every queued request that can be performed is. -/
def settleQueue (s : State) : State := serveQueue { s with coh := { s.coh with queued := [] } } s.coh.queued

/-- A lease has ended at its home: the span is free and the queued requests are performed. -/
def releaseLease (s : State) (hart slot : Nat) : State :=
  settleQueue { s with coh := { s.coh with
    leases := s.coh.leases.filter (fun l => !(l.hart == hart && l.slot == slot)) } }

/-- A hart's lease slot ends (R194): the slot is free at once; the end notice travels to the home. -/
def endLease (s : State) (hart slot : Nat) : State :=
  let h := s.hartAt hart
  match (h.run.leases[slot % 2]'(Nat.mod_lt _ (by decide))) with
  | none => s
  | some l =>
    let s := s.setHartAt hart { h with run := { h.run with
      leases := h.run.leases.set (slot % 2) none (Nat.mod_lt _ (by decide)) } }
    if s.stepwise then
      s.send { kind := .lend, src := agentNo hart, inc := incOf s (agentNo hart), dst := homeNo s l.pa, hart := hart,
               addr := l.pa, len := 8 * l.words, slot := slot }
    else releaseLease s hart slot

/-! ## Stores of units (R245, R250, R257) -/

/-- A store of a unit of the package, which does not wait: at its home it is served as any other, and the stores of one
unit stay in order. A copied region of a migrating page is the new page's (R352). A hart's vector agent, whose unit
stores for it, is told of the commit. -/
def State.pushStore (s : State) (w : Writer) (old : Nat) (bs : List Byte) : State :=
  let a := placed s old
  let y := if w.scalar then unitNo else agentNo w.hart
  let m : Msg := { kind := .wr, src := y, inc := incOf s y, dst := homeNo s a, hart := w.hart, addr := a, len := bs.length,
                   data := bs, slot := if w.scalar then 2 else 1, id := s.coh.nextId }
  let s := s.useId
  let s := if s.stepwise && !w.scalar then s.mapCopies (holdCopies y a bs.length m.pend) else s
  if !(isOwnMem s a) then s.store w a bs
  else if homeBlocks s m || committing s a bs.length then s.enqueue m
  else if s.stepwise then perform s m
  else s.store w a bs

/-- A store to a span is on its way at its home, so that a unit which would read the span waits. -/
def spanBusy (s : State) (a n : Nat) : Bool :=
  committing s (placed s a) n || s.coh.queued.any (fun m => m.kind ≠ .lreq && overlap m.addr m.len (placed s a) n)

/-! ## Accesses that are not performed yet (R180-R182, R290) -/

/-- The scopes of R180, by code: whether hart `k` is of the agents of a scope around hart `h`. -/
def inScope (scope h k : Nat) : Bool :=
  let near (kind : AgentKind) : Bool := kindOf k = kind
  match scope with
  | 0 => k == h
  | 1 => k == h || (kindOf h = .compute && near .compute && coreOf k == coreOf h)
  | 2 => k == h || ((kindOf h = .compute || kindOf h = .clusterMilliner) && (near .compute || near .clusterMilliner)
      && clusterOf k == clusterOf h)
  | 3 => dieOf k == dieOf h
  | _ => true

/-- The stores and atomics of a hart of a class that are not acknowledged: in flight, queued at their home, committing, or
with their acknowledgement on its way. -/
def outstanding (s : State) (hart : Nat) (vec : Bool) : List Nat :=
  let mine (m : Msg) : Bool := m.hart == hart && m.slot == vec.toNat
  (((unsettled s) ++ s.coh.net.filter (fun m => m.kind = .wack)).filter mine).map Msg.id

/-- A store or atomic of the hart, of either class, has not been acknowledged. -/
def unacknowledged (s : State) (hart : Nat) : Bool :=
  !(outstanding s hart false).isEmpty || !(outstanding s hart true).isEmpty

/-- The requests by which a hart's stores travel to other modules, not yet acknowledged (R283). -/
def remoteOut (s : State) (hart : Nat) : List Nat :=
  (s.coh.remote.filter (fun r => r.hart == hart && r.kind == 2)).map Remote.tag

/-- A store of the hart to another module has not been acknowledged. -/
def remoteUnacked (s : State) (hart : Nat) : Bool := !(remoteOut s hart).isEmpty

/-- A store is performed with respect to another agent when it commits (R282), so a store of a hart is performed within any
scope that holds another agent once it is acknowledged; every scope of R180 holds the hart's other agent. At domain scope
the stores to other modules count too (R283). -/
def notPerformed (s : State) (hart scope : Nat) (scalar vector : Bool) : Bool :=
  (scalar && !(outstanding s hart false).isEmpty) || (vector && !(outstanding s hart true).isEmpty)
    || (5 ≤ scope && remoteUnacked s hart)

/-- A fence still holds the accesses of a class. -/
def Bar.holds (s : State) (hart : Nat) (vec : Bool) (b : Bar) : Bool :=
  (if vec then b.vector else b.scalar)
  && (b.ids.any (fun i => (outstanding s hart false).contains i || (outstanding s hart true).contains i)
      || b.tags.any (fun t => (remoteOut s hart).contains t))

/-- A fence holds the accesses of a class of a hart (R181). -/
def barred (s : State) (hart : Nat) (vec : Bool) : Bool :=
  decide (hart < agentCount) && (s.hartAt hart).run.bars.any (Bar.holds s hart vec)

/-- A fence with classes A (`a1` scalar, `a2` vector) and B at a scope, over what its hart has outstanding. -/
def makeBar (s : State) (hart scope : Nat) (a1 a2 b1 b2 : Bool) : Bar :=
  { scalar := b1
    vector := b2
    ids := (if a1 then outstanding s hart false else []) ++ (if a2 then outstanding s hart true else [])
    tags := if 5 ≤ scope then remoteOut s hart else [] }

/-- The hart with one more fence; those that hold nothing any more are forgotten. -/
def addBar (s : State) (hart : Nat) (b : Bar) : State :=
  let live (b : Bar) : Bool := b.holds s hart true || b.holds s hart false
  s.modHart hart (fun h => { h with run := { h.run with bars := (h.run.bars ++ [b]).filter live } })

/-! ## Accesses to coherent memory by messages -/

/-- The agent number under which an access travels: the texture unit's, or the hart's (R354). -/
def Env.agent (e : Env) : Nat := if e.slot = 8 then 9576 + clusterOf e.who else agentNo e.who

/-- The copy of a word in an agent's data or instruction cache. -/
def copyOf (s : State) (agent : Nat) (instr : Bool) (w : Nat) : Option Copy :=
  s.coh.copies.find? (fun c => c.agent == agent && c.instr == instr && c.word == w)

/-- A store or atomic of the access's own agent to the span is on its way. -/
def ownPending (s : State) (e : Env) (a n : Nat) : Bool :=
  (unsettled s ++ s.coh.net.filter (fun m => m.kind = .wack)).any (fun m =>
    m.hart == e.who && m.slot == e.vec.toNat && overlap m.addr m.len a n)

/-- A request of an agent for words of the span, or its answer, is on its way. -/
def asked (s : State) (y : Nat) (instr : Bool) (a n : Nat) : Bool :=
  s.coh.net.any (fun m => (m.slot == 3) == instr && overlap m.addr m.len a n
    && (((m.kind = .getS || m.kind = .rd) && m.src == y) || (m.kind = .data && m.dst == y)))

/-- The request of an access for a span (R278): a Milliner reads, every other agent becomes a sharer. -/
def askMsg (s : State) (e : Env) (instr : Bool) (a n : Nat) : Msg :=
  { kind := if isMilliner e.who then .rd else .getS, src := e.agent, inc := incOf s e.agent, dst := homeNo s a,
    hart := e.who, addr := a, len := n, slot := if instr then 3 else e.vec.toNat }

/-- The span that an access of one region asks for (R278): the words it touches, or the 64-byte line of an instruction
cache or a system core. -/
def askSpan (e : Env) (instr : Bool) (a n : Nat) : Nat × Nat :=
  if instr || kindOf e.who = .system then (a / 64 * 64, ceilDiv (a + n) 64 * 64 - a / 64 * 64)
  else (a / 8 * 8, ceilDiv (a + n) 8 * 8 - a / 8 * 8)

/-- Asking for the words of a span, one request for each region it touches. -/
def ask (s : State) (e : Env) (instr : Bool) (a n : Nat) : State :=
  let one (s : State) (p : Nat × Nat) : State := if asked s e.agent instr p.1 p.2 then s else s.send (askMsg s e instr p.1 p.2)
  let cut := 256 - a % 256
  if n ≤ cut then one s (askSpan e instr a n) else one (one s (askSpan e instr a cut)) (askSpan e instr (a + cut) (n - cut))

/-- The bytes of a Milliner's running lease that hold a span (R325). -/
def leaseBytes (s : State) (e : Env) (a n : Nat) : Option (List Byte) :=
  if isMilliner e.who && !e.vec then
    (s.hartAt e.who).run.leases.toList.findSome? (fun l => match l with
      | some l => if l.pa ≤ a && a + n ≤ l.pa + 8 * l.words then some ((l.buf.drop (a - l.pa)).take n) else none
      | none => none)
  else none

/-- A copy's word as the access's own agent reads it: with the agent's own stores for which it is held (R282). -/
def Copy.seen (c : Copy) : Word := c.held.foldl (fun v p => mergeWord c.word v p.addr p.data) c.val

/-- The copy is held for a store of another agent than the access's. -/
def Copy.foreign (c : Copy) (e : Env) (instr : Bool) : Bool :=
  c.held.any (fun p => instr || p.data.isEmpty || !(p.hart == e.who && p.vec == e.vec))

/-- A load of coherent memory by messages (R278, R281, R282): copies are read unless they are held for another agent, else
the words are asked for. An agent's own stores come before its load. -/
def loadByMessage (e : Env) (instr : Bool) (a n : Nat) : Act Nat := fun s =>
  match leaseBytes s e a n with
  | some bs => .ok (ofBytes bs) s
  | none =>
    let ws := wordsOf a n
    if ws.all (fun w => (copyOf s e.agent instr w).isSome) then
      let cs := ws.filterMap (copyOf s e.agent instr)
      if cs.any (fun c => c.foreign e instr) then .error .stall s
      else .ok (ofBytes (((cs.flatMap (fun c => toBytes 8 c.seen.toNat)).drop (a % 8)).take n)) s
    else if ownPending s e a n then .error .stall s
    else .error .stall (ask s e instr a n)

/-- A store that leaves an agent: the core's own copies are held for it (R282), a running lease's buffer takes it (R325),
and its message travels to the home. -/
def sendStore (s : State) (e : Env) (a : Nat) (bs : List Byte) : State :=
  let y := agentNo e.who
  let m : Msg := { kind := .wr, src := y, inc := incOf s y, dst := homeNo s a, hart := e.who, addr := a, len := bs.length,
                   data := bs, slot := e.vec.toNat, id := s.coh.nextId }
  (s.useId.mapCopies (holdCopies y a bs.length m.pend)).send m

/-- A store of some bytes of one aligned word by messages: one message with a byte mask (R280). -/
def storeMaskByMessage (e : Env) (a : Nat) (mask : Byte) (bs : List Byte) : Act Unit := fun s =>
  let y := agentNo e.who
  .ok () (s.useId.send { kind := .wr, src := y, inc := incOf s y, dst := homeNo s a, hart := e.who, addr := a, len := 8, data := bs,
                         op := some (.masked mask), slot := e.vec.toNat, id := s.coh.nextId })

/-- The lease buffers of a Milliner after its scalar store. -/
def Hart.patchLeases (h : Hart) (a : Nat) (bs : List Byte) : Hart :=
  let one (l : Lease) : Lease :=
    { l with buf := (List.range l.buf.length).map (fun i =>
        if a ≤ l.pa + i && l.pa + i < a + bs.length then (bs[l.pa + i - a]?).getD 0 else (l.buf[i]?).getD 0) }
  { h with run := { h.run with leases := h.run.leases.map (Option.map one) } }

/-- A store of coherent memory by messages. -/
def storeByMessage (e : Env) (a : Nat) (bs : List Byte) : Act Unit := fun s =>
  let cut := 256 - a % 256
  .ok () (if bs.length ≤ cut then sendStore s e a bs
    else sendStore (sendStore s e a (bs.take cut)) e (a + cut) (bs.drop cut))

/-- Whether an access to an address travels by messages. -/
def byMessage (s : State) (e : Env) (a : Nat) : Bool := s.stepwise && isOwnMem s a && e.who < agentCount

end Sys2Proof.Machine
end

