-- ==== Sys2Proof/Machine/Flags.lean ====
section
/-! DEFINITION. The flags of vector arithmetic (spec/01, R26) and of scalar floating point: setting them, and the
choice between a flag and a trap. -/

namespace Sys2Proof.Machine

/-- Event bits in the layout of VFFLAGS: SAT 5, NV 4, DZ 3, OF 2, UF 1, NX 0 (R26). -/
abbrev Ev := BitVec 6

/-- A narrow or saturating result was saturated. -/
def evSAT : Ev := 32
/-- Invalid operation. -/
def evNV : Ev := 16
/-- Division by zero. -/
def evDZ : Ev := 8
/-- Overflow. -/
def evOF : Ev := 4
/-- Underflow. -/
def evUF : Ev := 2
/-- Inexact. -/
def evNX : Ev := 1

/-- An event that occurs when a condition holds. -/
def Ev.when (e : Ev) (c : Bool) : Ev := if c then e else 0

/-- The sticky flags take the events (R26). -/
def Hart.addFlags (h : Hart) (e : Ev) : Hart := { h with vec := { h.vec with vfflags := h.vec.vfflags ||| e } }

/-- The events that VFTRAP enables among those of an element (R26). -/
def Hart.trapping (h : Hart) (e : Ev) : Ev := h.vec.vftrap &&& e

/-- A result and its events, or the enabled events that make the element trap (R26): the events of a trapping element
set no flag. -/
def withEvents {α : Type} (h : Hart) (r : α × Ev) : Except Ev (α × Ev) :=
  if h.trapping r.2 = 0 then .ok r else .error (h.trapping r.2)

/-- The scalar flags of fcsr take events NV, DZ, OF, UF and NX, which stand in the same order there (R15). -/
def Hart.addFflags (h : Hart) (e : Ev) : Hart :=
  { h with fcsr := h.fcsr ||| (e &&& 31).setWidth 8
           csr := { h.csr with mstatus := if e &&& 31 = 0 then h.csr.mstatus else setField h.csr.mstatus 13 2 3 } }

end Sys2Proof.Machine
end

