-- ==== Sys2Proof/Machine/Float.lean ====
section
/-! DEFINITION. Floating-point numbers (spec/02, R34-R38): the value of a code, exact arithmetic on dyadic numbers, the
one rounding of R36, the narrow results of R37, the flush of R38, and the estimates of R49-R51. -/

namespace Sys2Proof.Machine

/-! ## Formats (R34) -/

/-- The special codes a format has: infinities and NaNs as IEEE 754 has them, one NaN code and no infinity (E4M3), or
none. -/
inductive Specials | ieee | nanOnly | none
  deriving DecidableEq, Repr

/-- A floating-point format: exponent bits, fraction bits, bias, special codes, whether it is narrow (R37) and whether
FTZ flushes it (R38). -/
structure FloatFmt where
  eb : Nat
  mb : Nat
  bias : Nat
  spec : Specials
  narrow : Bool
  flush : Bool
  deriving DecidableEq, Repr

/-- FP64. -/
def fp64 : FloatFmt := ⟨11, 52, 1023, .ieee, false, false⟩
/-- FP32. -/
def fp32 : FloatFmt := ⟨8, 23, 127, .ieee, false, true⟩
/-- FP16. -/
def fp16 : FloatFmt := ⟨5, 10, 15, .ieee, false, true⟩
/-- BF16. -/
def bf16 : FloatFmt := ⟨8, 7, 127, .ieee, false, true⟩
/-- E4M3. -/
def e4m3 : FloatFmt := ⟨4, 3, 7, .nanOnly, true, false⟩
/-- E5M2. -/
def e5m2 : FloatFmt := ⟨5, 2, 15, .ieee, true, false⟩
/-- E3M2. -/
def e3m2 : FloatFmt := ⟨3, 2, 3, .none, true, false⟩
/-- E2M3. -/
def e2m3 : FloatFmt := ⟨2, 3, 1, .none, true, false⟩
/-- E2M1. -/
def e2m1 : FloatFmt := ⟨2, 1, 1, .none, true, false⟩

/-- The floating-point format of a VTYPE.FMT code (R20); MX codes give the format of their elements. -/
def floatFmt : Nat → FloatFmt
  | 4 => fp64
  | 5 => fp32
  | 6 => fp16
  | 7 => bf16
  | 8 => e4m3
  | 9 => e5m2
  | 10 => e4m3
  | 11 => e5m2
  | 12 => e3m2
  | 13 => e2m3
  | _ => e2m1

/-- The width in bits. -/
def FloatFmt.width (f : FloatFmt) : Nat := 1 + f.eb + f.mb
/-- The exponent of the least significant bit of a subnormal. -/
def FloatFmt.emin (f : FloatFmt) : Int := 1 - (f.bias : Int) - f.mb
/-- The code of the largest finite magnitude. -/
def FloatFmt.maxCode (f : FloatFmt) : Nat :=
  match f.spec with
  | .ieee => (2 ^ f.eb - 1) * 2 ^ f.mb - 1
  | .nanOnly => 2 ^ (f.eb + f.mb) - 2
  | .none => 2 ^ (f.eb + f.mb) - 1
/-- The sign bit. -/
def FloatFmt.signBit (f : FloatFmt) (neg : Bool) : Nat := neg.toNat * 2 ^ (f.eb + f.mb)
/-- The code of an infinity. -/
def FloatFmt.infCode (f : FloatFmt) (neg : Bool) : Nat := f.signBit neg + (2 ^ f.eb - 1) * 2 ^ f.mb
/-- The canonical NaN (R35). -/
def FloatFmt.nanCode (f : FloatFmt) : Nat :=
  match f.spec with
  | .ieee => (2 ^ f.eb - 1) * 2 ^ f.mb + 2 ^ (f.mb - 1)
  | .nanOnly => 2 ^ (f.eb + f.mb) - 1
  | .none => 0

/-! ## Values -/

/-- The value of a code: a NaN (signalling or not), an infinity, or (−1)^neg × m × 2^e. -/
inductive FVal
  | nan (sig : Bool)
  | inf (neg : Bool)
  | fin (neg : Bool) (m : Nat) (e : Int)
  deriving DecidableEq, Repr

/-- The value of a code (R34, R35). -/
def decodeFloat (f : FloatFmt) (x : Nat) : FVal :=
  let neg := x / 2 ^ (f.eb + f.mb) % 2 = 1
  let ex := x / 2 ^ f.mb % 2 ^ f.eb
  let fr := x % 2 ^ f.mb
  let special : Bool := match f.spec with
    | .ieee => ex + 1 == 2 ^ f.eb
    | .nanOnly => ex + 1 == 2 ^ f.eb && fr + 1 == 2 ^ f.mb
    | .none => false
  if special then
    if f.spec = .ieee ∧ fr = 0 then .inf neg
    else .nan (f.spec = .ieee && !f.narrow && fr < 2 ^ (f.mb - 1))
  else if ex = 0 then .fin neg fr f.emin
  else .fin neg (2 ^ f.mb + fr) (f.emin + ex - 1)

/-- A NaN value. -/
def FVal.isNan : FVal → Bool
  | .nan _ => true
  | _ => false
/-- A signalling NaN. -/
def FVal.isSig : FVal → Bool
  | .nan s => s
  | _ => false
/-- A zero. -/
def FVal.isZero : FVal → Bool
  | .fin _ 0 _ => true
  | _ => false
/-- The sign. -/
def FVal.neg : FVal → Bool
  | .nan _ => false
  | .inf n => n
  | .fin n _ _ => n
/-- The value with the opposite sign. -/
def FVal.negate : FVal → FVal
  | .nan s => .nan s
  | .inf n => .inf (!n)
  | .fin n m e => .fin (!n) m e

/-- An exact dyadic number n × 2^e. -/
structure Dy where
  n : Int
  e : Int
  deriving DecidableEq, Repr

/-- The dyadic number of a finite value; 0 for the others. -/
def FVal.dy : FVal → Dy
  | .fin neg m e => ⟨if neg then -(m : Int) else m, e⟩
  | _ => ⟨0, 0⟩

/-- The numerator at a smaller exponent. -/
def Dy.at (a : Dy) (e : Int) : Int := a.n * (2 ^ (a.e - e).toNat : Nat)
/-- Exact sum. -/
def Dy.add (a b : Dy) : Dy := let e := min a.e b.e; ⟨a.at e + b.at e, e⟩
/-- Exact product. -/
def Dy.mul (a b : Dy) : Dy := ⟨a.n * b.n, a.e + b.e⟩
/-- Strict order. -/
def Dy.lt (a b : Dy) : Bool := let e := min a.e b.e; a.at e < b.at e
/-- Equality of values. -/
def Dy.eq (a b : Dy) : Bool := let e := min a.e b.e; a.at e = b.at e
/-- The exponent of the leading bit of a nonzero number. -/
def Dy.log2 (a : Dy) : Int := (Nat.log2 a.n.natAbs : Int) + a.e
/-- The largest integer not above the number. -/
def Dy.floor (a : Dy) : Int :=
  if 0 ≤ a.e then a.n * (2 ^ a.e.toNat : Nat)
  else if a.n.natAbs < 2 ^ (-a.e).toNat then (if a.n < 0 then -1 else 0)
  else a.n / (2 ^ (-a.e).toNat : Nat)

/-! ## Rounding (R36-R38) -/

/-- How a result is formed: destination format, rounding mode code, SATF and FTZ. -/
structure Rounding where
  fmt : FloatFmt
  rm : Nat
  satf : Bool
  ftz : Bool
  deriving DecidableEq, Repr

/-- The magnitude m × 2^(−k), or with `sticky` one strictly between it and the next numerator's, rounded to an integer
by a rounding mode; and whether it was inexact. Modes: 0 RNE, 1 RTZ, 2 RDN, 3 RUP, 4 RMM. -/
def roundMag (rm : Nat) (neg : Bool) (m : Nat) (k : Int) (sticky : Bool) : Nat × Bool :=
  if k ≤ 0 then (m * 2 ^ (-k).toNat, sticky)
  else
    let big : Bool := (Nat.log2 m + 3 : Int) < k
    let kk := if big then 2 else k.toNat
    let mm := if big then (if m = 0 then 0 else 1) else m
    let fl := mm / 2 ^ kk
    let rem := mm % 2 ^ kk
    let inexact := rem != 0 || sticky
    let up : Bool := match rm with
      | 0 => 2 ^ kk < 2 * rem || (2 * rem == 2 ^ kk && (sticky || fl % 2 == 1))
      | 1 => false
      | 2 => neg && inexact
      | 3 => !neg && inexact
      | _ => 2 ^ kk ≤ 2 * rem
    (fl + up.toNat, inexact)

/-- An overflowed result (R36, R37). -/
def overflowed (r : Rounding) (neg : Bool) : Nat × Ev :=
  let f := r.fmt
  let top := f.signBit neg + f.maxCode
  if f.narrow then
    if r.satf || f.spec = .none then (top, evSAT ||| evNX)
    else if f.spec = .nanOnly then (f.signBit neg + f.nanCode, evOF ||| evNX)
    else (f.infCode neg, evOF ||| evNX)
  else
    let toInf := r.rm = 0 || 4 ≤ r.rm || (r.rm = 2 && neg) || (r.rm = 3 && !neg)
    (if toInf then f.infCode neg else top, evOF ||| evNX)

/-- The one rounding of a finite result (R36): overflow, gradual underflow with tininess after rounding, and the
flush (R38). -/
def roundFin (r : Rounding) (neg : Bool) (m : Nat) (e : Int) (sticky : Bool) : Nat × Ev :=
  let f := r.fmt
  if m = 0 && !sticky then (f.signBit neg, 0)
  else
    let q0 := (Nat.log2 m : Int) + e - f.mb
    let q := max q0 f.emin
    let (x, inexact) := roundMag r.rm neg m (q - e) sticky
    let (x0, _) := roundMag r.rm neg m (q0 - e) sticky
    let tiny : Bool := q0 < f.emin && !(q0 == f.emin - 1 && x0 == 2 ^ (f.mb + 1))
    let code := (q - f.emin).toNat * 2 ^ f.mb + x
    if f.maxCode < code then overflowed r neg
    else if f.flush && r.ftz && code < 2 ^ f.mb then (f.signBit neg, evUF ||| evNX)
    else (f.signBit neg + code, evUF.when (tiny && inexact) ||| evNX.when inexact)

/-- The rounding of an exact number; `zneg` is the sign of an exact zero. -/
def roundDy (r : Rounding) (zneg : Bool) (d : Dy) : Nat × Ev :=
  if d.n = 0 then (r.fmt.signBit zneg, 0) else roundFin r (d.n < 0) d.n.natAbs d.e false

/-- The canonical NaN of the destination, with NV where `nv`; in a format without NaN it is +0 with NV (R35, R37). -/
def nanResult (r : Rounding) (nv : Bool) : Nat × Ev :=
  if r.fmt.spec = .none then (0, evNV) else (r.fmt.nanCode, evNV.when nv)

/-- An infinite value as a result (R37). -/
def infResult (r : Rounding) (neg : Bool) : Nat × Ev :=
  let f := r.fmt
  if f.narrow && (r.satf || f.spec = .none) then (f.signBit neg + f.maxCode, evSAT)
  else if f.spec = .nanOnly then (f.signBit neg + f.nanCode, evNV)
  else (f.infCode neg, 0)

/-- The conversion of a value to the destination format (R36-R38, R120). -/
def roundVal (r : Rounding) : FVal → Nat × Ev
  | .nan s => nanResult r s
  | .inf n => infResult r n
  | .fin n m e => roundFin r n m e false

/-! ## Arithmetic (R112-R114) -/

/-- The sign of an exactly zero sum (R36). -/
def zeroSumSign (rm : Nat) (a b : Bool) : Bool := if a = b then a else rm = 2

/-- The sum of two values. -/
def addVal (r : Rounding) (a b : FVal) : Nat × Ev :=
  match a, b with
  | .nan s, y => nanResult r (s || y.isSig)
  | _, .nan s => nanResult r s
  | .inf n, .inf k => if n = k then infResult r n else nanResult r true
  | .inf n, .fin .. => infResult r n
  | .fin .., .inf k => infResult r k
  | .fin n m e, .fin k m' e' =>
    let z := if m = 0 && m' = 0 then zeroSumSign r.rm n k else r.rm = 2
    roundDy r z ((FVal.fin n m e).dy.add (FVal.fin k m' e').dy)

/-- The exact product of two values; an invalid product is a signalling NaN. -/
def mulExact (a b : FVal) : FVal :=
  match a, b with
  | .nan s, y => .nan (s || y.isSig)
  | _, .nan s => .nan s
  | .inf n, y => if y.isZero then .nan true else .inf (n != y.neg)
  | x, .inf k => if x.isZero then .nan true else .inf (x.neg != k)
  | .fin n m e, .fin k m' e' => .fin (n != k) (m * m') (e + e')

/-- The product of two values. -/
def mulVal (r : Rounding) (a b : FVal) : Nat × Ev := roundVal r (mulExact a b)

/-- a × b + c with one rounding (R113): an invalid product raises NV whatever c is. -/
def fmaVal (r : Rounding) (a b c : FVal) : Nat × Ev :=
  match mulExact a b with
  | .nan s => nanResult r (s || c.isSig)
  | p => addVal r p c

/-- The quotient of two values. -/
def divVal (r : Rounding) (a b : FVal) : Nat × Ev :=
  match a, b with
  | .nan s, y => nanResult r (s || y.isSig)
  | _, .nan s => nanResult r s
  | .inf n, .inf _ => let _ := n; nanResult r true
  | .inf n, y => infResult r (n != y.neg)
  | .fin n _ _, .inf k => (r.fmt.signBit (n != k), 0)
  | .fin n m e, .fin k m' e' =>
    if m' = 0 then
      (if m = 0 then nanResult r true else ((infResult r (n != k)).1, evDZ))
    else
      let x := m * 2 ^ 130
      roundFin r (n != k) (x / m') (e - e' - 130) (x % m' != 0)

/-- Integer square root from bit `n − 1` down. -/
def isqrtFrom (x : Nat) : Nat → Nat → Nat
  | 0, r => r
  | n + 1, r => isqrtFrom x n (if (r + 2 ^ n) * (r + 2 ^ n) ≤ x then r + 2 ^ n else r)

/-- The integer square root. -/
def isqrt (x : Nat) : Nat := isqrtFrom x (Nat.log2 x / 2 + 1) 0

/-- The square root of a value (R114). -/
def sqrtVal (r : Rounding) (a : FVal) : Nat × Ev :=
  match a with
  | .nan s => nanResult r s
  | .inf true => nanResult r true
  | .inf false => infResult r false
  | .fin n m e =>
    if m = 0 then (r.fmt.signBit n, 0)
    else if n then nanResult r true
    else
      let k : Nat := if e % 2 = 0 then 130 else 131
      let x := m * 2 ^ k
      roundFin r false (isqrt x) ((e - k) / 2) (isqrt x * isqrt x != x)

/-! ## Comparison, minimum and maximum, class (R115-R118) -/

/-- a < b for values that are not NaN; −0 and +0 are equal. -/
def FVal.lt (a b : FVal) : Bool :=
  match a, b with
  | .inf n, .inf k => n && !k
  | .inf n, _ => n
  | _, .inf k => !k
  | x, y => x.dy.lt y.dy
/-- a = b for values that are not NaN. -/
def FVal.eq (a b : FVal) : Bool :=
  match a, b with
  | .inf n, .inf k => n == k
  | .inf _, _ => false
  | _, .inf _ => false
  | x, y => x.dy.eq y.dy

/-- Compares by number: 0 equal, 1 less, 2 less or equal (R118). -/
def compareFloat (f : FloatFmt) (op a b : Nat) : Bool × Ev :=
  let x := decodeFloat f a
  let y := decodeFloat f b
  if x.isNan || y.isNan then (false, evNV.when (op != 0 || x.isSig || y.isSig))
  else match op with
    | 0 => (x.eq y, 0)
    | 1 => (x.lt y, 0)
    | _ => (x.lt y || x.eq y, 0)

/-- The smaller or the larger of two codes (R115). -/
def minMaxFloat (f : FloatFmt) (wantMax : Bool) (a b : Nat) : Nat × Ev :=
  let x := decodeFloat f a
  let y := decodeFloat f b
  let ev := evNV.when (x.isSig || y.isSig)
  if x.isNan && y.isNan then (f.nanCode, ev)
  else if x.isNan then (b, ev)
  else if y.isNan then (a, ev)
  else
    let less := x.lt y || (x.eq y && x.neg && !y.neg)
    (if less != wantMax then a else b, ev)

/-- The class bit of a code (R117). -/
def classFloat (f : FloatFmt) (a : Nat) : Nat :=
  match decodeFloat f a with
  | .nan s => if s then 2 ^ 8 else 2 ^ 9
  | .inf n => if n then 2 ^ 0 else 2 ^ 7
  | .fin n m _ =>
    if m = 0 then (if n then 2 ^ 3 else 2 ^ 4)
    else if m < 2 ^ f.mb then (if n then 2 ^ 2 else 2 ^ 5)
    else (if n then 2 ^ 1 else 2 ^ 6)

/-- Sign injection by number: 0 the sign of b, 1 its inverse, 2 the exclusive OR (R116). -/
def signInject (n op a b : Nat) : Nat :=
  let sa := a / 2 ^ (n - 1) % 2
  let sb := b / 2 ^ (n - 1) % 2
  let sg := match op with
    | 0 => sb
    | 1 => 1 - sb
    | _ => (sa + sb) % 2
  a % 2 ^ (n - 1) + sg * 2 ^ (n - 1)

/-! ## Conversions to integers (R35, R120, R122) -/

/-- A finite value rounded to an integer, and whether it was inexact. -/
def roundInt (rm : Nat) (neg : Bool) (m : Nat) (e : Int) : Int × Bool :=
  let (x, inexact) := roundMag rm neg m (-e) false
  (if neg then -(x : Int) else x, inexact)

/-- The least and the greatest integer of a destination. -/
def intRange (n : Nat) (unsigned : Bool) : Int × Int :=
  if unsigned then (0, (2 ^ n : Nat) - 1) else (-(2 ^ (n - 1) : Nat), (2 ^ (n - 1) : Nat) - 1)

/-- Conversion to an integer of `n` bits. -/
def toIntVal (rm n : Nat) (unsigned : Bool) (a : FVal) : Nat × Ev :=
  let (lo, hi) := intRange n unsigned
  match a with
  | .nan _ => (wrapTo n hi, evNV)
  | .inf neg => (wrapTo n (if neg then lo else hi), evNV)
  | .fin neg m e =>
    if 80 < e ∧ m ≠ 0 then (wrapTo n (if neg then lo else hi), evNV)
    else
      let (x, inexact) := roundInt rm neg m e
      if x < lo then (wrapTo n lo, evNV)
      else if hi < x then (wrapTo n hi, evNV)
      else (wrapTo n x, evNX.when inexact)

/-- The value of an integer. -/
def intVal (x : Int) : FVal := .fin (x < 0) x.natAbs 0

/-- A code rounded to an integral value of its own format, which keeps its sign (R122). -/
def roundIntegral (f : FloatFmt) (rm a : Nat) : Nat × Ev :=
  let r : Rounding := ⟨f, rm, true, false⟩
  match decodeFloat f a with
  | .nan s => nanResult r s
  | .inf n => (f.infCode n, 0)
  | .fin n m e =>
    let (x, inexact) := roundMag rm n m (-e) false
    if 0 ≤ e then (a, 0) else ((roundFin r n x 0 false).1, evNX.when inexact)

/-! ## Estimates (R49-R51) -/

/-- The estimate of 1/x (R49). -/
def recipVal (r : Rounding) (a : FVal) : Nat × Ev :=
  match a with
  | .nan s => nanResult r s
  | .inf n => (r.fmt.signBit n, 0)
  | .fin n m e =>
    if m = 0 then ((infResult r n).1, evDZ)
    else
      let l := Nat.log2 m
      let i := m * 1024 / 2 ^ l % 1024
      let d := 2049 + 2 * i
      roundFin r n ((2 * 2 ^ 24 + d) / (2 * d)) (-(e + l) - 13) false

/-- The estimate of 1/√x (R50). -/
def rsqrtVal (r : Rounding) (a : FVal) : Nat × Ev :=
  match a with
  | .nan s => nanResult r s
  | .inf true => nanResult r true
  | .inf false => (0, 0)
  | .fin n m e =>
    if m = 0 then ((infResult r n).1, evDZ)
    else if n then nanResult r true
    else
      let l := Nat.log2 m
      let q := m * 512 / 2 ^ l % 512
      let p := ((e + l) % 2).toNat
      let root := isqrt (2 ^ 38 / (2 ^ p * (1025 + 2 * q)))
      roundFin r false ((root + 1) / 2) (-((e + l - p) / 2) - 13) false

/-- E[i] of R51 as an integer multiple of 2^−23. -/
def exp2Table (i : Nat) : Nat :=
  (isqrt (isqrt (isqrt (isqrt (isqrt (isqrt (2 ^ (64 * 24 + i))))))) + 1) / 2

/-- The estimate of 2^x (R51). -/
def exp2Val (r : Rounding) (a : FVal) : Nat × Ev :=
  match a with
  | .nan s => nanResult r s
  | .inf n => if n then (0, 0) else infResult r false
  | .fin _ _ _ =>
    let x := a.dy
    let n := x.floor
    let fr := x.add ⟨-n, 0⟩
    let i := (Dy.mul fr ⟨64, 0⟩).floor
    let d := fr.add ⟨-i, -6⟩
    let poly := (Dy.add ⟨1, 0⟩ (Dy.mul (decodeFloat fp32 0x3F317218).dy d)).add
      (Dy.mul (decodeFloat fp32 0x3E75FDF0).dy (d.mul d))
    roundDy r false (Dy.mul ⟨exp2Table i.toNat, n - 23⟩ poly)

/-! ## Sums of products and canonical sums (R44, R46, R128) -/

/-- The exact sum of exact products: a NaN marks an invalid combination by `sig`; the sign of a zero sum is + unless
every product is −0. -/
def sumProducts (ps : List FVal) : FVal :=
  let pos := ps.any (fun p => p = .inf false)
  let neg := ps.any (fun p => p = .inf true)
  if ps.any FVal.isNan || (pos && neg) then .nan (ps.any FVal.isSig || (pos && neg))
  else if pos || neg then .inf neg
  else
    let d := ps.foldl (fun (a : Dy) p => a.add p.dy) ⟨0, 0⟩
    .fin (if d.n = 0 then ps.all FVal.neg else d.n < 0) d.n.natAbs d.e

/-- The canonical tree over indices [lo, lo + 2^k): an absent leaf is not a zero (R44). -/
def treeSum (add : Nat → Nat → Nat × Ev) (leaf : Nat → Option Nat) : Nat → Nat → Option Nat × Ev
  | 0, lo => (leaf lo, 0)
  | k + 1, lo =>
    let (a, ea) := treeSum add leaf k lo
    let (b, eb) := treeSum add leaf k (lo + 2 ^ k)
    match a, b with
    | none, _ => (b, ea ||| eb)
    | _, none => (a, ea ||| eb)
    | some x, some y => let (z, ev) := add x y; (some z, ea ||| eb ||| ev)

/-- The canonical sum with an initial value. -/
def canonicalSum (add : Nat → Nat → Nat × Ev) (leaf : Nat → Option Nat) (k init : Nat) : Nat × Ev :=
  match treeSum add leaf k 0 with
  | (none, ev) => (init, ev)
  | (some t, ev) => let (z, e) := add init t; (z, ev ||| e)

/-- Rounding to nearest even with subnormals kept and no saturation: the mode of the Crown, of window merges and of
collectives (R45, R46). -/
def nearestEven (f : FloatFmt) : Rounding := ⟨f, 0, false, false⟩

end Sys2Proof.Machine
end

