-- ==== Sys2Proof/Machine/Access.lean ====
section
/-! DEFINITION. Loads and stores at the place of their address (spec/13, R276, R278, R282, R283), with the errors of
memory (R206, R375), the fences that hold them (spec/08, R181) and leases (R193); the supervisor mailbox ring (spec/06,
R145, R146) and the format fault (R144). -/

namespace Sys2Proof.Machine

/-! ## Loads and stores at a place -/

/-- Whether a word that `n` bytes at `a` touch holds an uncorrectable error (R206). -/
def poisoned (s : State) (a n : Nat) : Option Nat := s.coh.poison.find? (fun p => touches a n p)

/-- The unit number of an uncorrectable error at an address (R376). -/
def unitOf (s : State) (a : Nat) : Nat :=
  match regionOf s a with
  | .tcm _ => 1
  | .spad _ => 2
  | _ => (s.coh.errUnit.lookup a).getD 8

/-- A load of `n` bytes of this package at a physical address, performed at once. -/
def loadMem (k : Acc) (va a n : Nat) : Act Nat := fun s =>
  match poisoned s a n with
  | some p => .error (.uncorrectable k.access (bv 64 va) (unitOf s p) p) s
  | none => .ok (readNat s.mem a n) s

/-- A store at a physical address of this package, performed at once: a partial store to a word that holds an
uncorrectable error takes the access fault (R206), and a span under another agent's lease waits (R193). -/
def storeMem (w : Writer) (va a : Nat) (bs : List Byte) : Act Unit := fun s =>
  match s.coh.poison.find? (fun p => touches a bs.length p && !(a ≤ p && p + 8 ≤ a + bs.length)) with
  | some p => .error (.uncorrectable 7 (bv 64 va) (unitOf s p) p) s
  | none => if leaseBlocks s w a bs.length then .error .stall s else .ok () (s.store w a bs)

/-- Who stores under an authority. -/
def Env.writer (e : Env) : Writer := { hart := e.who, scalar := !e.vec }

/-- A load of this package at a physical address: by messages while they are visible (R280), else at once. -/
def loadAt (e : Env) (k : Acc) (va a n : Nat) : Act Nat := fun s =>
  if byMessage s e a && (poisoned s a n).isNone then loadByMessage e (k = .fetch) a n s else loadMem k va a n s

/-- A Milliner's scalar store updates the buffer of its running lease (R325). -/
def patchOwn (e : Env) (a : Nat) (bs : List Byte) (s : State) : State :=
  if isMilliner e.who && !e.vec then s.modHart e.who (fun h => h.patchLeases a bs) else s

/-- A store of this package at a physical address: by messages while they are visible, else at once. -/
def storeAt (e : Env) (va a : Nat) (bs : List Byte) : Act Unit := do
  let s ← getS
  if byMessage s e a && (poisoned s a bs.length).isNone then storeByMessage e a bs else storeMem e.writer va a bs
  fun s => .ok () (patchOwn e a bs s)

/-- Waiting while a fence holds the accesses of a class (R181). -/
def pastBars (e : Env) : Act Unit := fun s => if barred s e.who e.vec then .error .stall s else .ok () s

/-- A load of `n` bytes at a virtual address by an access that may not touch device pages (R276). -/
def loadVa (e : Env) (k : Acc) (va n : Nat) : Act Nat := do
  pastBars e
  match ← locate e k va n with
  | .mem a => loadAt e k va a n
  | .far a => remoteRead e k va a n
  | .dev _ => stop (.trap k.access (bv 64 va))

/-- A store at a virtual address by an access that may not touch device pages. -/
def storeVa (e : Env) (va : Nat) (bs : List Byte) : Act Unit := do
  pastBars e
  match ← locate e .store va bs.length with
  | .mem a => storeAt e va a bs
  | .far a => remoteWrite e .store va a bs
  | .dev _ => stop (.trap 7 (bv 64 va))

/-- The runs of adjacent addresses in a list of bytes by rising address. -/
def byteRuns : List (Nat × Byte) → List (Nat × List Byte)
  | [] => []
  | (a, b) :: r =>
    match byteRuns r with
    | (k, bs) :: l => if k = a + 1 then (a, b :: bs) :: l else (a, [b]) :: (k, bs) :: l
    | [] => [(a, [b])]

/-- Storing runs of bytes, each in its place. -/
def storeRuns (e : Env) : List (Nat × List Byte) → Act Unit
  | [] => fun s => .ok () s
  | (a, bs) :: r => do
    storeVa e a bs
    storeRuns e r

/-- Some bytes of one aligned 8-byte word, given by virtual address, stored by one single-copy-atomic write where the word
is the package's (R294). -/
def storeMasked (e : Env) (l : List (Nat × Byte)) : Act Unit := fun s =>
  let runs := byteRuns l
  let w := ((l.head?.map Prod.fst).getD 0) / 8 * 8
  match runs with
  | _ :: _ :: _ =>
    (match resolve s e .store w 8 with
     | .ok (.mem a, t) =>
       if byMessage t e a && (poisoned t a 8).isNone then
         storeMaskByMessage e a (bv 8 ((List.range 8).foldl (fun m i => m + (l.any (fun p => p.1 == w + i)).toNat * 2 ^ i) 0))
           ((List.range 8).map (fun i => ((l.find? (fun p => p.1 == w + i)).map Prod.snd).getD 0)) t
       else storeRuns e runs s
     | _ => storeRuns e runs s)
  | _ => storeRuns e runs s

/-- A load of a run of bytes that may cross pages, byte by byte. -/
def loadRun (e : Env) (k : Acc) : Nat → Nat → Act (List Byte)
  | 0, _ => fun s => .ok [] s
  | n + 1, va => do
    let b ← loadVa e k va 1
    let r ← loadRun e k n ((va + 1) % 2 ^ 64)
    return bv 8 b :: r

/-- A run of aligned 8-byte words. -/
def loadWords (e : Env) (k : Acc) : Nat → Nat → Act (List Word)
  | 0, _ => fun s => .ok [] s
  | n + 1, va => do
    let b ← loadVa e k va 8
    let r ← loadWords e k n ((va + 8) % 2 ^ 64)
    return bv 64 b :: r

/-! ## The supervisor mailbox ring (R145, R146) -/

/-- The outcome of posting a record: written, FULL or OFF (R148). -/
inductive Posted | written | full | off
  deriving DecidableEq, Repr

/-- Posting a 32-byte record (R145, R146): the index is allocated, bytes 4-31 are written and then word 0 with PH; a
full, disabled or unwritable ring only counts DROP, and a number that names no partition has no ring. Records of kinds 0x05 to 0x08 also go to Novnum's log (R416). -/
def postRecord (s : State) (p kind detail hart : Nat) (pc a b : Word) : State × Posted :=
  let pt := s.partAt p
  let r := pt.fring
  let body := toBytes 4 hart ++ toBytes 8 pc.toNat ++ toBytes 8 a.toNat ++ toBytes 8 b.toNat
  let word0 (ph : Bool) := toBytes 4 (ph.toNat * 2 ^ 31 + kind * 65536 + detail)
  let lg := s.nov.log ++ [word0 false ++ body]
  let lg := if 5 ≤ kind && kind ≤ 8 then lg.drop (lg.length - 4096) else s.nov.log
  let s := { s with nov := { s.nov with log := lg } }
  let slot := r.base.toNat + r.widx.toNat % r.slots * 32
  let dropped := s.setPartAt p { pt with fring := { r with drop := satInc r.drop } }
  if noPart ≤ p then (s, .off)
  else if !r.en then (dropped, .off)
  else if r.full || !(writable s p slot 32) then (dropped, .full)
  else
    let s := s.setPartAt p { pt with fring := { r with widx := r.widx + 1 } }
    let s := s.pushStore { hart := hart, scalar := true } (slot + 4) body
    (s.pushStore { hart := hart, scalar := true } slot (word0 (r.phase r.widx)), .written)

/-! ## The format fault and uncorrectable errors (R144, R375) -/

/-- The format fault (R144): the hart parks with PCAUSE 2 at its resumable position, and a record of kind 0x01 gives
the word, VELEM and what `b` says. -/
def formatFault (word : W32) (detail : Nat) (b : Word) (s : State) : State :=
  let h := s.hart
  let a := bv 64 (word.toNat + h.vec.velem.toNat * 2 ^ 32)
  let s := s.setHart (h.parkAt 2 h.pc)
  (postRecord s (partOf s s.cur) 0x01 detail s.cur h.pc a b).1

/-- An error of the NoC's payload is that of the one read that met it (R375): the word itself is sound. -/
def endPayload (unit a : Nat) (s : State) : State :=
  if unit = 9 then { s with coh := { s.coh with poison := s.coh.poison.filter (· != a) } } else s

/-- An uncorrectable error that a hart meets (R375, R376): a record of kind 0x05 to the partition of the hart. -/
def errorRecord (unit : Nat) (a : Nat) (s : State) : State :=
  let d := if isOwnMem s a && (unit == 4 || unit == 8) then homeDie s a else dieOf s.cur
  let s := s.modDie d (fun x => { x with ue := satInc x.ue })
  (postRecord (endPayload unit a s) (partOf s s.cur) 0x05 unit s.cur s.hart.pc (bv 64 a) 0).1

end Sys2Proof.Machine
end

