-- ==== Sys2Proof/Machine/Finish.lean ====
section
/-! DEFINITION. How an instruction ends: the state after a stop (R136, R144, R375), and the completion store of a
Milliner's mailbox (spec/15, R331, R332). -/

namespace Sys2Proof.Machine

/-! ## The mailbox of a kick (R332) -/

/-- The authority of a kick's accesses (R329, R330). -/
def kickEnv (h : Nat) (k : Kick) : Env :=
  { who := h, priv := if k.priv = .u then .u else .s, satp := k.satp, sum := false, mxr := false, part := k.part,
    pmp := false, vec := true }

/-- The record a Milliner posts in place of a mailbox (R332, R148). -/
def millRecord (h : Nat) (k : Kick) (a b : Word) (s : State) : State := (postRecord s k.part 0x02 0 h 0 a b).1

/-- A word of the block of a kick that has ended. -/
def closingWord (h : Nat) (k : Kick) (off : Nat) : Act Word := do
  let v ← loadVa { kickEnv h k with slot := 1 } .load ((k.block.toNat + off) % 2 ^ 64) 8
  return bv 64 v

/-- MBOX and TOKEN, as the routine read them with its block or else read now (R329, R332, R341), and whether MBOX is a
physical address: a page migration's (R339). -/
def closingFields (h : Nat) (c : Closing) : Act (Word × Word × Bool) := do
  let physical ← match c.physical with
    | some b => pure b
    | none => do
      let w ← closingWord h c.kick 0
      pure (fieldOf w 0 16 == 0x20)
  match c.kick.fields with
  | some (mbox, token) => return (mbox, token, physical)
  | none =>
    let mbox ← closingWord h c.kick 0x18
    let token ← closingWord h c.kick 0x38
    return (mbox, token, physical)

/-- A block that cannot be read is recorded in ML_FAULT and ML_FCAUSE and posted (R332). -/
def blockLost (h : Nat) (c : Closing) (x : Stop) (s : State) : State :=
  let cause := match x with
    | .trap c _ => c
    | .uncorrectable c _ _ _ => c
    | _ => 0
  let m := s.millAt h
  let s := s.setMillAt h { m with faultAddr := c.kick.block, fstatus := bv 8 c.status, fcause := bv 8 cause }
  millRecord h c.kick c.kick.block (bv 64 (2 ^ 63 + c.status * 2 ^ 32)) s

/-- The completion store: TOKEN and STATUS in one 8-byte store at MBOX. A mailbox that is misaligned or cannot be
written becomes a record (R332). It waits while a module or a migrating page has not answered. -/
def completeKick (h : Nat) (c : Closing) : Act Unit := fun s =>
  match closingFields h c s with
  | .error .stall s => .error .stall s
  | .error x s => .ok () (blockLost h c x s)
  | .ok (mbox, token, physical) s =>
    let e := { kickEnv h c.kick with slot := 1 }
    let e := if physical then { e with satp := 0 } else e
    let v := token.toNat % 2 ^ 32 + c.status * 2 ^ 32
    let lost (s : State) : State := millRecord h c.kick mbox (bv 64 v) s
    if mbox.toNat % 8 ≠ 0 then .ok () (lost s)
    else match locate e .store mbox.toNat 8 s with
      | .ok (.mem a) s => .ok () (s.pushStore { hart := h, scalar := true } a (toBytes 8 v))
      | .ok (.far a) s =>
        (match remoteWrite e .store mbox.toNat a (toBytes 8 v) s with
         | .ok _ s => .ok () s
         | .error _ s => .ok () (lost s))
      | .ok (.dev _) s => .ok () (lost s)
      | .error .stall s => .error .stall s
      | .error _ s => .ok () (lost s)

/-- The completion stores of a Milliner's ended kicks, in order, as far as they need not wait: that of a standard routine
follows the commit of its every write (R336-R338). -/
def closeKicks (h : Nat) : Nat → State → State
  | 0, s => s
  | n + 1, s =>
    match (s.millAt h).closing with
    | [] => s
    | c :: r =>
      if c.waits && (remoteUnacked s h || unacknowledged s h) then s
      else match completeKick h c s with
        | .ok _ t => closeKicks h n (settleReads h 1 (t.setMillAt h { t.millAt h with closing := r }))
        | .error _ t => t

/-- A kick has ended: its mailbox is written at once or when it can be. -/
def closeKick (h : Nat) (c : Closing) (s : State) : State :=
  let l := (s.millAt h).closing ++ [c]
  closeKicks h l.length (s.setMillAt h { s.millAt h with closing := l })

/-- The flags of a collective's own additions, as STATUS carries them (R402). -/
def MillRun.flags : MillRun → Nat
  | .collective c => c.flags.toNat * 256
  | _ => 0

/-- Whether the mailbox of a running routine is a physical address; not known before its block is read. -/
def MillRun.physical : MillRun → Option Bool
  | .idle => none
  | .selected id => some (id == 0x20)
  | .migrating .. => some true
  | _ => some false

/-- The routine of a Milliner ends with a status: the mailbox is written and the next kick may start. -/
def endRoutine (h : Nat) (status : Nat) (physical : Bool) (s : State) : State :=
  let m := s.millAt h
  match m.kick with
  | none => s
  | some k =>
    closeKick h { kick := k, status := status + m.run.flags, physical := some physical, waits := m.run != .user }
      (s.setMillAt h { m with kick := none, run := .idle })

/-- A fault met by a routine: ML_FAULT and ML_FCAUSE (R326, R332), then the end with that status. -/
def faultRoutine (h status cause : Nat) (addr : Word) (physical : Bool) (s : State) : State :=
  let m := s.millAt h
  endRoutine h status physical
    (s.setMillAt h { m with faultAddr := addr, fstatus := bv 8 status, fcause := bv 8 cause })

/-- A Milliner's hart stops (R331): it is parked, and its routine has ended. -/
def parkMilliner (h : Nat) (s : State) : State :=
  s.modHart h (fun x => { x with
    ctl := { x.ctl with parked := true }
    run := { x.run with fetch := [], wait := none, body := none, resv := none, kick := none } })

/-- The address of a trap that ML_FAULT holds (R326): that of the access or fetch, and of a trap that concerns no address
the word's own (DESIGN CHOICE, assumption 53). -/
def faultVa (cause : Nat) (tval pc : Word) : Word :=
  if [0, 1, 4, 5, 6, 7, 12, 13, 15].contains cause then tval else pc

/-- Any trap ends a user routine with STATUS 8 (R331). -/
def trapMilliner (cause : Nat) (tval : Word) (s : State) : State :=
  faultRoutine s.cur 8 cause (faultVa cause tval s.hart.pc) false (parkMilliner s.cur s)

/-- The trap of the agent that moves: trap entry, or on a Milliner the end of its routine. -/
def raise (cause : Nat) (tval : Word) (s : State) : State :=
  if isMilliner s.cur then trapMilliner cause tval s else takeTrap cause tval s

/-- The state after an instruction has stopped. xtval, or the record's word, is the instruction word as fetched or
captured; for a pass of a body that is the word before its fields are advanced (R87; DESIGN CHOICE, assumption 46). A format fault on a Milliner posts its record and ends the routine
(assumption 14). -/
def afterStop (i : Instr) (e : Stop) (s : State) : State :=
  match e with
  | .illegal => raise 2 ((wordOf i).setWidth 64) s
  | .format d b =>
    if isMilliner s.cur then trapMilliner 0 s.hart.pc (formatFault (wordOf i) d b s) else formatFault (wordOf i) d b s
  | .trap c t => raise c t s
  | .uncorrectable c t u a => raise c t (errorRecord u a s)
  | .stall => s
  | .walk _ => s

/-- Running a meaning: its final state, or the state after its stop. A wait keeps the answers of other modules. -/
def runAct (i : Instr) (a : Act Unit) (s : State) : Host.Outcome State Fault Refusal :=
  match a s with
  | .ok _ s' => .next (settleReads s.cur 0 s')
  | .error .stall s' => .next s'
  | .error e s' => .next (afterStop i e (settleReads s.cur 0 s'))

end Sys2Proof.Machine
end

