-- ==== Sys2Proof/Machine/Operands.lean ====
section
/-! DEFINITION. Operands of the vector words: VTYPE's fields (spec/01, R19, R20), register groups (R17), masks and the
prefix (R18, R25, R68, R69), the three operand forms (spec/03, R54), the checks at issue in their order (R70-R73), the
loop of R80, and the end of a vector word (R23, R90). -/

namespace Sys2Proof.Machine

/-! ## VTYPE (R19, R20) -/

/-- VTYPE.FMT. -/
def vtFmt (t : Word) : Nat := fieldOf t 0 4
/-- The grouping 1, 2, 4 or 8. -/
def vtGrp (t : Word) : Nat := 2 ^ fieldOf t 4 2
/-- The planar width. -/
def vtPlw (t : Word) : Nat := fieldOf t 6 4 + 1
/-- The slice count. -/
def vtSlc (t : Word) : Nat := fieldOf t 10 4
/-- The rounding mode. -/
def vtRm (t : Word) : Nat := fieldOf t 14 3
/-- Whether narrow conversions saturate. -/
def vtSatf (t : Word) : Bool := bitOf t 17
/-- Whether subnormal results are flushed. -/
def vtFtz (t : Word) : Bool := bitOf t 18
/-- The tail policy: 1 zeroed. -/
def vtTail (t : Word) : Bool := bitOf t 19
/-- The masked-off policy: 1 zeroed. -/
def vtMskp (t : Word) : Bool := bitOf t 20
/-- VTYPE.ILL. -/
def vtIll (t : Word) : Bool := bitOf t 63

/-- The element width in bits of a format that is not MX: 8, 16, 32 or 64, and 1 for planar elements (R20). R20 gives
an MX format no SEW; the register-field checks that count in it (vfcvt's source group, the index group of vldx, vstx
and vstxa) take 8 under one, which decides whether the illegal instruction comes before the format fault (R72, R121;
DESIGN CHOICE, assumption 44). -/
def sewOf : Nat → Nat
  | 0 => 8
  | 1 => 16
  | 2 => 32
  | 3 => 64
  | 4 => 64
  | 5 => 32
  | 6 => 16
  | 7 => 16
  | 8 => 8
  | 9 => 8
  | 15 => 1
  | _ => 8

/-- Whether a format is MX. -/
def isMx (fmt : Nat) : Bool := 10 ≤ fmt && fmt ≤ 14

/-- The elements of one MX register (R20, R41). -/
def mxElems (fmt : Nat) : Nat := if fmt ≤ 11 then 992 else if fmt ≤ 13 then 1280 else 1920
/-- The bytes of the scale beat (R41). -/
def mxScale (fmt : Nat) : Nat := if fmt ≤ 11 then 32 else if fmt ≤ 13 then 48 else 64
/-- The bytes of a block (R41). -/
def mxBlock (fmt : Nat) : Nat := if fmt ≤ 11 then 32 else if fmt ≤ 13 then 24 else 16
/-- The bits of an element of an MX format. -/
def mxBits (fmt : Nat) : Nat := if fmt ≤ 11 then 8 else if fmt ≤ 13 then 6 else 4

/-- The blocks of one register. -/
def mxPer (fmt : Nat) : Nat := mxElems fmt / 32

/-- The bits of an MX register that hold scales or elements; the others are written as zero (R41). -/
def mxUsed (fmt : Nat) : VReg :=
  bv 8192 (2 ^ (8 * mxPer fmt) - 1 + (2 ^ (8 * mxBlock fmt * mxPer fmt) - 1) * 2 ^ (8 * mxScale fmt))

/-- The largest vector length of a type (R20). -/
def vlmax (t : Word) : Nat :=
  let f := vtFmt t
  if f = 15 then 8192 else if isMx f then mxElems f * vtGrp t else 8192 * vtGrp t / sewOf f

/-! ## Register groups (R17) -/

/-- Element `e` of width `n` of the group at register `r`. -/
def Hart.elem (h : Hart) (r n e : Nat) : Nat :=
  fieldOf (h.vec.v[(r + e * n / 8192) % 32]'(Nat.mod_lt _ (by decide))) (e * n % 8192) n

/-- Writing element `e` of width `n` of the group at register `r`. -/
def Hart.setElem (h : Hart) (r n e x : Nat) : Hart :=
  { h with vec := { h.vec with
    v := h.vec.v.set ((r + e * n / 8192) % 32)
      (setField (h.vec.v[(r + e * n / 8192) % 32]'(Nat.mod_lt _ (by decide))) (e * n % 8192) n x)
      (Nat.mod_lt _ (by decide)) } }

/-- Mask register `r`. -/
def Hart.mask (h : Hart) (r : Nat) : VReg := h.vec.m[r % 8]'(Nat.mod_lt _ (by decide))

/-- Writing bit `e` of mask register `r`. -/
def Hart.setMaskBit (h : Hart) (r e : Nat) (b : Bool) : Hart :=
  { h with vec := { h.vec with
    m := h.vec.m.set (r % 8) (setBit (h.mask r) e b) (Nat.mod_lt _ (by decide)) } }

/-- Writing a whole mask register. -/
def Hart.setMask (h : Hart) (r : Nat) (v : VReg) : Hart :=
  { h with vec := { h.vec with m := h.vec.m.set (r % 8) v (Nat.mod_lt _ (by decide)) } }

/-- A register group as registers [first, first + size): it begins at a multiple of its size and ends by v31. -/
structure Span where
  first : Nat
  size : Nat
  deriving DecidableEq, Repr

/-- A group obeys R17: its number is a multiple of its size. -/
def Span.ok (g : Span) : Bool := g.first % g.size == 0 && g.first + g.size ≤ 32

/-- Two groups share a register. -/
def Span.meets (a b : Span) : Bool := a.first < b.first + b.size && b.first < a.first + a.size

/-! ## Repetition positions (R87, R90) -/

/-- Whether a PC is a repetition position. -/
def isRep (pc : Word) : Bool := bitOf pc 47
/-- The pass of a repetition position. -/
def repPass (pc : Word) : Nat := fieldOf pc 52 12
/-- The body word of a repetition position. -/
def repWord (pc : Word) : Nat := fieldOf pc 48 4
/-- The address of the vrep word. -/
def repAddr (pc : Word) : Word := bv 64 (fieldOf pc 0 47)
/-- The repetition position of pass `p`, word `j` (R90). -/
def repPos (p j : Nat) (addr : Word) : Word := bv 64 (p * 2 ^ 52 + j * 2 ^ 48 + 2 ^ 47 + addr.toNat)

/-- The pass a hart is in: 0 outside a body. -/
def Hart.pass (h : Hart) : Nat := if isRep h.pc then repPass h.pc else 0

/-- A vector register field advanced by the pass (R87). -/
def Hart.vreg (h : Hart) (f : BitVec 5) : Nat :=
  if isRep h.pc then (f.toNat + repPass h.pc * ((h.run.body.map Body.s).getD 0)) % 32 else f.toNat

/-- The position after the word at PC: the next word, the next body word, or the word after the body (R87). -/
def Hart.nextPc (h : Hart) : Word :=
  if isRep h.pc then
    match h.run.body with
    | none => h.pc
    | some b =>
      if repWord h.pc + 1 < b.words.length then repPos (repPass h.pc) (repWord h.pc + 1) b.addr
      else if repPass h.pc + 1 < b.n then repPos (repPass h.pc + 1) 0 b.addr
      else b.addr + bv 64 (4 + 4 * b.words.length)
  else h.pc + 4

/-- A vector word retires (R23, R25): the next position, VELEM 0 and, for a word that takes a prefix, VPFX.V 0; after
the last pass the body store is empty. -/
def Hart.vretire (h : Hart) (takes : Bool) : Hart :=
  let pc := h.nextPc
  let h := h.retireTo pc
  { h with
    vec := { h.vec with velem := 0, vpfx := if takes then setBit h.vec.vpfx 0 false else h.vec.vpfx }
    run := { h.run with body := if isRep pc then h.run.body else none, pfxOwn := h.run.pfxOwn && !takes } }

/-! ## The pending prefix (R25, R68, R69) -/

/-- VPFX.V. -/
def Hart.pfxOn (h : Hart) : Bool := bitOf h.vec.vpfx 0

/-- A pending prefix makes a word that takes none illegal; the words of a handler are not successors of a prefix that was
pending when the handler began (R25, R68, R69, R140; assumption 15). -/
def Hart.pfxBlocks (h : Hart) : Bool := h.pfxOn && (!h.handling || h.run.pfxOwn)

/-- How a word uses its msk field (R54). -/
inductive MskRole
  | predicate
  | selector
  | unused
  deriving DecidableEq, Repr

/-- What a vector word is checked for: whether it takes a prefix, whether DCV may be set, the role of msk, whether it
depends on VTYPE, the formats it accepts, whether it permutes elements and whether it moves MX blocks. -/
structure Attr where
  takes : Bool := true
  dcv : Bool := true
  msk : MskRole := .predicate
  typed : Bool := true
  fmts : Nat → Bool
  elementwise : Bool := false
  blocks : Bool := false

/-- What a vector word works with after its checks: `unit` is the number of elements one turn of the loop stands for,
`sunit` the distance of the predicate bits of two turns. Turns below `low` are masked off, and `listed` says that the
tail does not depend on VELEM (R126, R128). -/
structure VCtx where
  takes : Bool
  fmt : Nat
  sew : Nat
  grp : Nat
  vl : Nat
  velem : Nat
  tail : Bool
  pol : Bool
  pred : Option (VReg × Bool)
  unit : Nat := 1
  sunit : Nat := 1
  dreg : Option Nat
  bound : Nat
  vtype : Word
  mxDest : Option Nat := none
  low : Nat := 0
  listed : Bool := false

/-- The governing predicate bit of an element (R18, R69), or of the first element of a block. -/
def VCtx.sel (c : VCtx) (e : Nat) : Bool :=
  c.low ≤ e && (match c.pred with
  | none => true
  | some (m, inv) => m.getLsbD (e * c.sunit) != inv)

/-- The context counted in MX blocks of 32 elements (R105), with the first register of an MX-typed destination. -/
def VCtx.inBlocks (c : VCtx) (d : Option Nat) : VCtx :=
  { c with
    unit := 32
    sunit := 32
    vl := c.vl / 32
    velem := ceilDiv c.velem 32
    bound := c.bound / 32
    mxDest := d }

/-- The context of mxpack and mxdot, whose listings begin at block VELEM/32, rounded down: a block that VELEM cuts is not
active (R126, R128). -/
def VCtx.inListed (c : VCtx) (d : Option Nat) : VCtx :=
  { c.inBlocks d with
    velem := c.velem / 32
    low := ceilDiv c.velem 32
    listed := true }

/-- The words a kind of agent executes (R73, R324): a system core has no vector words. -/
def vectorAgent (s : State) : Bool := kindOf s.cur ≠ .system

/-- The policy for masked-off elements: the prefix's, else MSKP (R18, R69). -/
def Hart.policy (h : Hart) : Bool := if h.pfxOn then bitOf h.vec.vpfx 5 else vtMskp h.vec.vtype

/-- The governing predicate: the prefix's register or its inverse, else m1-m3 by msk, else every element. -/
def Hart.governs (h : Hart) (w : Fld) (role : MskRole) : Option (VReg × Bool) :=
  if h.pfxOn then some (h.mask (fieldOf h.vec.vpfx 1 3), bitOf h.vec.vpfx 4)
  else if role = .predicate && w.k ≠ 0 then some (h.mask w.k.toNat, false)
  else none

/-- DREG of a pending prefix with DCV = 1. -/
def Hart.dregOf (h : Hart) : Option Nat :=
  if h.pfxOn && bitOf h.vec.vpfx 6 then some (fieldOf h.vec.vpfx 7 5) else none

/-- The width an element-wise group is counted in. -/
def sewHere (h : Hart) : Nat := sewOf (vtFmt h.vec.vtype)

/-- The registers an ordinary operand spans: the grouping (R17). -/
def grpHere (h : Hart) : Nat := vtGrp h.vec.vtype

/-- The checks of a vector word at issue, in the order of R72: the agent, the prefix (R68, R69), the register fields
(`legal`), then the format faults of R70. -/
def issue (a : Attr) (w : Fld) (legal : Bool) : Act VCtx := fun s =>
  let h := s.hart
  let t := h.vec.vtype
  let f := vtFmt t
  let vl := h.vec.vl.toNat
  if !(vectorAgent s) then .error .illegal s
  else if h.pfxBlocks && !a.takes then .error .illegal s
  else if h.pfxOn && a.takes && ((bitOf h.vec.vpfx 6 && !a.dcv) || (a.msk = .predicate && w.k ≠ 0)) then
    .error .illegal s
  else if !legal then .error .illegal s
  else if a.typed && vtIll t then .error (.format 1 t) s
  else if a.typed && !(a.fmts f) then .error (.format 2 t) s
  else if a.elementwise && isMx f then .error (.format 3 t) s
  else if a.blocks && isMx f && vl % 32 ≠ 0 then .error (.format 8 t) s
  else .ok { takes := a.takes, fmt := f, sew := sewOf f, grp := vtGrp t, vl := vl, velem := h.vec.velem.toNat, tail := vtTail t,
             pol := h.policy, pred := if a.takes then h.governs w a.msk else none, dreg := if a.takes then h.dregOf else none,
             bound := s.bound.getD vl, vtype := t } s

/-! ## Checks of register groups (R17, R69, R81, R82) -/

/-- The destination and DREG obey R17 and R82: DREG is a group of the destination's size that either is the
destination or shares nothing with it. -/
def destOk (h : Hart) (d : Span) : Bool :=
  d.ok && (match h.dregOf with
    | none => true
    | some r =>
      let g : Span := { first := r, size := d.size }
      g.ok && (r == d.first || !(g.meets d)))

/-- The destination and DREG share no register with a source (R81). -/
def destApart (h : Hart) (d src : Span) : Bool :=
  !(d.meets src) && (match h.dregOf with
    | none => true
    | some r => !(Span.meets { first := r, size := d.size } src))

/-! ## Operand forms (R54) -/

/-- The low `n` bits of the scalar register of form VS: an f register where `fp` says so, but on a Milliner always an
x register (R324). -/
def scalarOperand (s : State) (fp : Bool) (r : BitVec 5) (n : Nat) : Nat :=
  (if fp && !isMilliner s.cur then s.hart.getF r else s.hart.getX r).toNat % 2 ^ n

/-- imm5 in form VI: sign-extended to `n` bits, or zero-extended (R54). -/
def immOperand (zx : Bool) (a : BitVec 5) (n : Nat) : Nat :=
  if zx then a.toNat else wrapTo n (signedOf 5 a.toNat)

/-- The second source of element `e` by form: vs1, the scalar, or the immediate. -/
def operandB (s : State) (w : Fld) (fp zx : Bool) (n e : Nat) : Nat :=
  match w.f.toNat with
  | 0 => s.hart.elem (s.hart.vreg w.a) n e
  | 1 => scalarOperand s fp w.a n
  | _ => immOperand zx w.a n

/-- The group of vs1 in form VV; the other forms name no group. -/
def spanB (h : Hart) (w : Fld) (n : Nat) : Bool := w.f ≠ 0 || (Span.mk (h.vreg w.a) n).ok

/-! ## The loop of R80 -/

/-- A destination of the loop: what writes element `e`. -/
abbrev PutFn := Nat → Nat → Hart → Hart

/-- Writing element `e` of the destination group and of DREG (R80, R82). -/
def VCtx.putVec (c : VCtx) (d n : Nat) : PutFn := fun e x h =>
  let h := h.setElem d n e x
  match c.dreg with
  | some r => h.setElem r n e x
  | none => h

/-- Writing bit `e` of a mask destination. -/
def putMask (d : Nat) : PutFn := fun e x h => h.setMaskBit d e (x % 2 = 1)

/-- The elements from `e` on, `n` of them: an active element takes its result and its flags, a masked-off element the
policy; the loop ends at the stop boundary or at an element with an enabled event (R26, R138, R142). -/
def elemLoop (c : VCtx) (put : PutFn) (res : Nat → Except Ev (Nat × Ev)) :
    Nat → Nat → Hart → Hart × Option (Nat × Ev)
  | 0, _, h => (h, none)
  | n + 1, e, h =>
    if c.bound ≤ e then (h, some (e, 0))
    else if c.sel e then
      match res e with
      | .ok (x, ev) => elemLoop c put res n (e + 1) ((put e x h).addFlags ev)
      | .error ev => (h, some (e, ev))
    else elemLoop c put res n (e + 1) (if c.pol then put e 0 h else h)

/-- Zeros in `n` elements from `e` on. -/
def zeroFrom (put : PutFn) : Nat → Nat → Hart → Hart
  | 0, _, h => h
  | n + 1, e, h => zeroFrom put n (e + 1) (put e 0 h)

/-- Writing the unused bytes of `n` MX-typed registers from `r` on as zero (R41). -/
def Hart.clearUnused (h : Hart) (fmt : Nat) : Nat → Nat → Hart
  | 0, _ => h
  | n + 1, r =>
    let h := Hart.clearUnused h fmt n (r + 1)
    { h with vec := { h.vec with
        v := h.vec.v.set (r % 32) (h.vec.v[r % 32]'(Nat.mod_lt _ (by decide)) &&& mxUsed fmt) (Nat.mod_lt _ (by decide)) } }

/-- The unused bytes of an MX-typed destination group, and of its second one, are written as zero (R41, R105): of every
register of the group, also of one in which no block is written (DEDUCED, assumption 47). -/
def VCtx.mxClear (c : VCtx) (h : Hart) : Hart :=
  match c.mxDest with
  | none => h
  | some d =>
    let h := h.clearUnused c.fmt c.grp d
    match c.dreg with
    | some r => h.clearUnused c.fmt c.grp r
    | none => h

/-- The tail of a destination of `count` elements (R18, R80). Tail elements below VELEM are kept, as R80's loop and R18 say,
though R23 has the tail policy apply as on a first issue (DESIGN CHOICE, assumption 48); the listings of mxpack and
mxdot write the whole tail (R126, R128). -/
def VCtx.tailZero (c : VCtx) (put : PutFn) (count : Nat) (h : Hart) : Hart :=
  c.mxClear (if c.tail then
    let b := if c.listed then c.vl else max c.vl c.velem
    zeroFrom put (count - b) b h
  else h)

/-- VELEM and the trap of an element that stops (R26, R138): the cause is 24 with the enabled events. -/
def stopElem (e : Nat) (ev : Ev) : Act Unit := fun s =>
  let h := s.hart
  let s := s.setHart { h with vec := { h.vec with velem := bv 14 e } }
  if ev = 0 then .error .stall s else .error (.trap 24 (ev.setWidth 64)) s

/-- The record of a vector word in the hart's queue while message steps are visible (R157). -/
def enqueue (i : Instr) (old : Hart) (s : State) : State :=
  if s.stepwise then
    let w := wordOf i
    let en : VEntry := { word := w, pc := old.pc, vl := old.vec.vl, vtype := old.vec.vtype,
                         vpfx := old.vec.vpfx, velem := old.vec.velem, task := old.dev.task,
                         ra := old.getX (bv 5 (fieldOf w 15 5)), rb := old.getX (bv 5 (fieldOf w 20 5)) }
    let h := s.hart
    s.setHart { h with run := { h.run with queue := h.run.queue ++ [en] } }
  else s

/-- The retirement of a vector word. -/
def retireVec (i : Instr) (takes : Bool) : Act Unit := fun s =>
  .ok () (enqueue i s.hart (s.setHart (s.hart.vretire takes)))

/-- An element-wise word whose effect is on registers: the loop, then the tail and retirement, or the stop. -/
def elementWise (i : Instr) (c : VCtx) (put : PutFn) (count : Nat) (res : Nat → Except Ev (Nat × Ev)) : Act Unit :=
  fun s =>
    match elemLoop c put res (c.vl - c.velem) c.velem s.hart with
    | (h, none) => retireVec i c.takes (s.setHart (c.tailZero put count h))
    | (h, some (e, ev)) => stopElem (e * c.unit) ev (s.setHart h)

/-- A cross-element word: as `elementWise`, but it never stops at a boundary (R81). -/
def crossElement (i : Instr) (c : VCtx) (put : PutFn) (count : Nat) (res : Nat → Nat) : Act Unit :=
  elementWise i { c with bound := 16384 } put count (fun e => .ok (res e, 0))

/-- The integer formats, in which elements are integers of width SEW (R71). -/
def fmtInt (f : Nat) : Bool := f ≤ 9
/-- The formats of floating arithmetic (R71). -/
def fmtFloat (f : Nat) : Bool := 4 ≤ f && f ≤ 7
/-- The MX formats. -/
def fmtMx (f : Nat) : Bool := isMx f
/-- Every format but planar. -/
def fmtMove (f : Nat) : Bool := f ≤ 14
/-- The planar format. -/
def fmtPlanar (f : Nat) : Bool := f = 15

end Sys2Proof.Machine
end

