-- ==== Sys2Proof/Machine/Sources.lean ====
section
/-! DEFINITION. What the elements of a vector word read, an uncorrectable error of a vector or mask register (spec/17,
R375, R376), and the frame of every vector word: the wait for room in the queue (R156, R157) and its run. -/

namespace Sys2Proof.Machine

/-! ## Reading operands -/

/-- Block `b` of the group at `r`: its scale byte above its element bytes. -/
def Hart.mxBlockOf (h : Hart) (fmt r b : Nat) : Nat :=
  let v := h.vec.v[(r + b / mxPer fmt) % 32]'(Nat.mod_lt _ (by decide))
  let k := b % mxPer fmt
  let n := 8 * mxBlock fmt
  fieldOf v ((mxScale fmt) * 8 + k * n) n + fieldOf v (8 * k) 8 * 2 ^ n

/-- Element `e` of a planar operand of `n` planes at register `r`. -/
def Hart.planar (h : Hart) (r e : Nat) : Nat → Nat
  | 0 => 0
  | n + 1 => h.planar r e n + (bitOf (h.vec.v[(r + n) % 32]'(Nat.mod_lt _ (by decide))) e).toNat * 2 ^ n

/-- The width of planar operands. -/
def planes (h : Hart) : Nat := vtPlw h.vec.vtype

/-- The width in bits of an index (R64). -/
def indexBits (w : Fld) : Nat := if w.f = 1 then 64 else 32

/-- The fields of a segment. -/
def segFields (w : Fld) : Nat := w.b.toNat + 1

/-- Word `k` of element `e` of the source group. -/
def srcWord (h : Hart) (w : Fld) (k e : Nat) : Nat := h.elem (h.vreg w.b + k) 32 e

/-! ## The registers an element reads (R375) -/

/-- A source of a vector word: element by element of a width, one bit of a mask register, one MX block, the 32 elements
of a block, one bit of each plane, and, for words whose elements read across each other, whole registers and a whole mask
register. -/
inductive Src
  | elem (r n : Nat)
  | bit (r : Nat)
  | block (r : Nat)
  | wide (r n : Nat)
  | planes (r n : Nat)
  | regs (r n : Nat)
  | allBits (r : Nat)
  deriving DecidableEq, Repr

/-- What element `e` reads of a source. -/
def Src.read (h : Hart) (fmt : Nat) : Src → Nat → Nat
  | .elem r n, e => h.elem r n e
  | .bit r, e => ((h.mask r).getLsbD e).toNat
  | .block r, e => h.mxBlockOf fmt r (e / 32)
  | .wide r n, e => (List.range 32).foldl (fun a k => a * 2 ^ n + h.elem r n (e / 32 * 32 + k)) 0
  | .planes r n, e => h.planar r e n
  | .regs r n, _ => (List.range n).foldl (fun a k => a * 2 ^ 8192 + h.elem ((r + k) % 32) 8192 0) 0
  | .allBits r, _ => (h.mask r).toNat

/-- The sources of a vector word that its active elements read. -/
def sourcesOf (h : Hart) (i : Instr) : List Src :=
  let n := sewHere h
  let g := grpHere h
  let f := vtFmt h.vec.vtype
  let b (w : Fld) : Src := .elem (h.vreg w.b) n
  let a (w : Fld) : List Src := if w.f = 0 then [.elem (h.vreg w.a) n] else []
  let d (w : Fld) : Src := .elem (h.vreg w.d) n
  let mx (r : BitVec 5) : Src := if isMx f then .block (h.vreg r) else .elem (h.vreg r) n
  let eight (w : Fld) : List Src := (List.range 8).map (fun k => .elem (h.vreg w.b + k) 32)
  let whole (w : Fld) : Src := .regs (h.vreg w.b) g
  let fixed (w : Fld) : Nat := sewOf (w.a.toNat % 16)
  match i with
  | .vadd w | .vsub w | .vrsub w | .vmul w | .vmulh w | .vmulhz w | .vdiv w | .vdivz w | .vrem w | .vremz w
  | .vmin w | .vminz w | .vmax w | .vmaxz w | .vsadd w | .vsaddz w | .vssub w | .vssubz w | .vavg w | .vabsd w
  | .vand w | .vor w | .vxor w | .vandn w | .vsll w | .vsrl w | .vsra w | .vrol w | .vfadd w | .vfsub w | .vfmul w
  | .vfdiv w | .vfmin w | .vfmax w | .vfsgnj w | .vfsgnjn w | .vfsgnjx w | .vfceq w | .vfclt w | .vfcle w | .vceq w
  | .vcne w | .vclt w | .vcltz w | .vcle w | .vclez w | .vcgt w | .vcgtz w | .wacc w => b w :: a w
  | .vmacc w | .vnmsac w | .vfmadd w | .vfmsub w | .vfnmadd w | .vfnmsub w => d w :: b w :: a w
  | .vadc w | .vsbc w => (if w.k = 0 then [] else [.bit w.k.toNat]) ++ b w :: a w
  | .vfsqrt w | .vfclass w | .vfrec w | .vfrsq w | .vfexp2 w | .vfround w | .mvtom w | .vsext w | .vzext w | .vclz w
  | .vctz w | .vpopc w | .vbrev w | .vwiden w | .vnarrow w => [b w]
  | .vfcvt w => [.elem (h.vreg w.b) (fixed w)]
  | .vfredsum w | .vfredtree w | .vfredmin w | .vfredmax w | .vredsum w | .vredmin w | .vredminz w | .vredmax w
  | .vredmaxz w | .vredand w | .vredor w | .vredxor w => b w :: (if w.f = 0 then [.regs (h.vreg w.a) 1] else [])
  | .mxdot w => [.block (h.vreg w.b), .block (h.vreg w.a), .regs (h.vreg w.d) 1]
  | .pladd w | .plsub w | .plmul w | .pldot w | .plcmp w
  => .planes (h.vreg w.b) (planes h) :: (if w.f = 0 then [.planes (h.vreg w.a) (planes h)] else [])
  | .mxpack w => [.wide (h.vreg w.b) (fixed w)]
  | .mxunpack w => [.block (h.vreg w.b)]
  | .plconv w
  => [if bitOf w.a 2 then .planes (h.vreg w.b) (planes h) else .elem (h.vreg w.b) (8 * 2 ^ (w.a.toNat % 4))]
  | .vslup w | .vsldn w | .vsl1up w | .vsl1dn w | .vconf w | .vxget w => [whole w]
  | .vcomp w | .vexpd w => [whole w, .bit w.k.toNat]
  | .vgath w => [whole w, .elem (h.vreg w.a) n]
  | .vmerge w => .bit w.k.toNat :: mx w.b :: (if w.f = 0 then [mx w.a] else [])
  | .vbcast w => a w
  | .vmov w => [mx w.b]
  | .mand w | .mor w | .mxor w | .mandn w => [.bit w.b.toNat, .bit w.a.toNat]
  | .mnot w | .mmov w | .mmtov w => [.bit w.b.toNat]
  | .mshl w | .mpop w | .mfirst w | .viota w => [.allBits w.b.toNat]
  | .vldx w => [.elem (h.vreg w.b) (indexBits w)]
  | .vst w => [mx w.d]
  | .vsts w => [d w]
  | .vstx w | .vstxa w => [d w, .elem (h.vreg w.b) (indexBits w)]
  | .vstseg w => (List.range (segFields w)).map (fun k => .elem (h.vreg w.d + k * g) n)
  | .vstm w => [.allBits w.d.toNat]
  | .vwait w => [.elem (h.vreg w.b) 64]
  | .mwrite w => [.regs (h.vreg w.b) 1]
  | .rboxt w | .rtrit w => .elem (h.vreg w.d) 32 :: eight w
  | .bbovl w | .txs w | .txg w | .txf w | .txlod w => eight w
  | _ => []

/-- The mask register that every element of a word reads as its governing predicate, if it has one (R18, R69). -/
def predicateOf (h : Hart) (i : Instr) : Option Nat :=
  match i with
  | .mand _ | .mor _ | .mxor _ | .mandn _ | .mnot _ | .mmov _ | .mshl _ | .mpop _ | .mfirst _ | .vxget _ | .vxput _
  | .vldm _ | .vstm _ | .wdecl _ | .wmerge _ | .wdrop _ | .wstat _ | .mattach _ | .mdetach _ | .mload _ | .mmac _
  | .mzero _ | .mread _ | .mwrite _ | .msync _ => none
  | _ =>
    let chosen := match i with
      | .vadc _ | .vsbc _ | .vmerge _ | .vcomp _ | .vexpd _ => true
      | _ => false
    let k := fieldOf (wordOf i) 28 2
    if h.pfxOn then some (fieldOf h.vec.vpfx 1 3) else if k = 0 || chosen then none else some k

/-! ## Uncorrectable errors of registers (R375) -/

/-- A 64-bit word of the registers: word `p.2` of vector register `p.1`, or of mask register `p.1` − 32. -/
def Hart.regWord (h : Hart) (p : Nat × Nat) : Nat :=
  if p.1 < 32 then h.elem p.1 64 (p.2 % 128) else fieldOf (h.mask (p.1 - 32)) (64 * (p.2 % 128)) 64

/-- The registers with one word complemented. -/
def Hart.flipWord (h : Hart) (p : Nat × Nat) : Hart :=
  if p.1 < 32 then h.setElem p.1 64 (p.2 % 128) (2 ^ 64 - 1 - h.regWord p)
  else h.setMask (p.1 - 32) (setField (h.mask (p.1 - 32)) (64 * (p.2 % 128)) 64 (2 ^ 64 - 1 - h.regWord p))

/-- The first element from `e` on, of `n`, that reads a bad word: one whose operands depend on that word's content. -/
def badElement (i : Instr) (h : Hart) (p : Nat × Nat) : Nat → Nat → Option Nat
  | 0, _ => none
  | n + 1, e =>
    let f := vtFmt h.vec.vtype
    let g := h.flipWord p
    let bit (x : Hart) : Bool := match predicateOf h i with
      | none => true
      | some m => (x.mask m).getLsbD e != (h.pfxOn && bitOf h.vec.vpfx 4)
    if bit h != bit g || (bit h && (sourcesOf h i).any (fun x => x.read h f e != x.read g f e)) then some e
    else badElement i h p n (e + 1)

/-- The first element of a word that meets an uncorrectable error of a register, with the unit and the register (R376). -/
def badRead (i : Instr) (h : Hart) : Option (Nat × Nat × Nat) :=
  let v := h.vec.velem.toNat
  (h.run.badRegs.filterMap (fun p => (badElement i h p (h.vec.vl.toNat - v) v).map (fun e =>
    (e, if p.1 < 32 then (6, p.1) else (7, p.1 - 32))))).foldl (fun b x => match b with
      | some y => if x.1 < y.1 then some x else some y
      | none => some x) none

/-- Whether a run of the word at PC has ended in a trap, in M or S mode at the handler with the word's position saved, or in
a format fault. -/
def stoppedBy (s t : State) : Bool :=
  let h := t.hart
  let entered (epc tvec : Word) : Bool := epc == s.hart.pc && h.pc == handlerPc tvec false 0 && h.run.fetch.isEmpty
  (h.priv = .m && entered h.csr.mepc h.csr.mtvec) || (h.priv = .s && entered h.csr.sepc h.csr.stvec)
  || (h.ctl.parked && h.ctl.pcause = 2)

/-- A word that has met no error has made sound the bad words it has overwritten: those whose content after it does not
depend on their content before it. -/
def healed (i : Instr) (a : Act Unit) (s t : State) : State :=
  match runAct i a (s.setHart (s.hart.run.badRegs.foldl Hart.flipWord s.hart)) with
  | .next u => t.setHart { t.hart with run := { t.hart.run with
      badRegs := s.hart.run.badRegs.filter (fun p => t.hart.regWord p != u.hart.regWord p) } }
  | _ => t

/-- The end of a word that was run up to element `e`, which reads an error of register `r`: a trap or a wait before it
stands; a word that never stops at an element has no effect. -/
def struckEnd (i : Instr) (e u r : Nat) (s t : State) : State :=
  if stoppedBy s t || (isMilliner s.cur && t.hart.ctl.parked) then t
  else if t.hart.pc != s.hart.pc then afterStop i (.uncorrectable 5 0 u r) s
  else if t.hart.vec.velem.toNat = e then afterStop i (.uncorrectable 5 0 u r) t
  else t

/-- A vector word of a hart some of whose registers hold uncorrectable errors: the element that reads one takes cause 5
with stval 0 (R375), and the elements before it are performed. -/
def struckWord (i : Instr) (a : Act Unit) (s : State) : Host.Outcome State Fault Refusal :=
  match badRead i s.hart with
  | none => match runAct i a s with
    | .next t => .next (healed i a s t)
    | o => o
  | some (e, u, r) =>
    if s.bound.any (fun b => b ≤ e) then runAct i a s
    else match runAct i a { s with bound := some e } with
      | .next t => .next (struckEnd i e u r s { t with bound := s.bound })
      | o => o

/-- An uncorrectable error strikes a 64-bit word of a vector register, or of mask register `r` − 32 (R375). -/
def strikeReg (h r k : Nat) (s : State) : State :=
  s.modHart h (fun x =>
    if r < 40 && k < 128 && !(x.run.badRegs.contains (r, k)) then
      { x with run := { x.run with badRegs := x.run.badRegs ++ [(r, k)] } }
    else x)

/-! ## The frame of a vector word -/

/-- The queue is full: a vector word waits (R156, R157). -/
def queueFull (s : State) : Bool := s.stepwise && 32 ≤ s.hart.run.queue.length

/-- A vector word: it waits while the queue is full, and else runs. -/
def vectorWord (i : Instr) (a : Act Unit) (s : State) : Host.Outcome State Fault Refusal :=
  if queueFull s then .next s else if s.hart.run.badRegs.isEmpty then runAct i a s else struckWord i a s

end Sys2Proof.Machine
end

