-- ==== Sys2Proof/Machine/VecInt.lean ====
section
/-! DEFINITION. The integer arithmetic and logic of major A (spec/04, R91-R93). -/

namespace Sys2Proof.Machine

/-- The attributes of major A: integers, a prefix with DCV, msk a predicate. -/
def attrInt : Attr := { fmts := fmtInt }

/-- The register fields of a word with vector operands in the grouping are legal (R17, R82). -/
def legalBinary (h : Hart) (w : Fld) : Bool :=
  let g := grpHere h
  destOk h ⟨h.vreg w.d, g⟩ && (Span.mk (h.vreg w.b) g).ok && spanB h w g

/-- The elements a group of the context's width holds. -/
def VCtx.count (c : VCtx) : Nat := 8192 * c.grp / c.sew

/-- A word of major A: `op n a b acc` is the result of an element at width `n` and its events. -/
def intWord (i : Instr) (w : Fld) (zx : Bool) (op : Nat → Nat → Nat → Nat → Nat × Ev) : State →
    Host.Outcome State Fault Refusal :=
  vectorWord i (do
    let s ← getS
    let c ← issue attrInt w (legalBinary s.hart w)
    let h := s.hart
    let d := h.vreg w.d
    elementWise i c (c.putVec d c.sew) c.count (fun e =>
      withEvents h (op c.sew (h.elem (h.vreg w.b) c.sew e) (operandB s w false zx c.sew e) (h.elem d c.sew e))))

/-- An operation without events on two operands. -/
def plain (f : Nat → Nat → Nat → Nat) : Nat → Nat → Nat → Nat → Nat × Ev :=
  fun n a b _ => (f n a b % 2 ^ n, 0)

/-- An integer clamped to [lo, hi], with SAT where it changed (R92). -/
def clampEv (n : Nat) (lo hi x : Int) : Nat × Ev :=
  let y := max lo (min hi x)
  (wrapTo n y, evSAT.when (y ≠ x))

/-- The least and the greatest signed value of width `n`. -/
def minS (n : Nat) : Int := -(2 ^ (n - 1) : Nat)
/-- The greatest signed value. -/
def maxS (n : Nat) : Int := (2 ^ (n - 1) : Nat) - 1

/-- The quotient rounded toward zero, with R92's corners. -/
def divS (n a b : Nat) : Nat :=
  if b = 0 then 2 ^ n - 1 else wrapTo n (Int.tdiv (signedOf n a) (signedOf n b))
/-- The unsigned quotient. -/
def divU (n a b : Nat) : Nat := if b = 0 then 2 ^ n - 1 else a / b
/-- The remainder with the sign of the dividend. -/
def remS (n a b : Nat) : Nat := if b = 0 then a else wrapTo n (Int.tmod (signedOf n a) (signedOf n b))
/-- The unsigned remainder. -/
def remU (_n a b : Nat) : Nat := if b = 0 then a else a % b

/-- The shift amount: the low log2(n) bits of b. -/
def shAmt (n b : Nat) : Nat := b % n

/-- vadd (R91). -/
def execVadd (w : Fld) : State → Host.Outcome State Fault Refusal :=
  intWord (.vadd w) w false (plain fun _ a b => a + b)
/-- vsub (R91). -/
def execVsub (w : Fld) : State → Host.Outcome State Fault Refusal :=
  intWord (.vsub w) w false (plain fun n a b => a + 2 ^ n - b)
/-- vrsub (R91). -/
def execVrsub (w : Fld) : State → Host.Outcome State Fault Refusal :=
  intWord (.vrsub w) w false (plain fun n a b => b + 2 ^ n - a)
/-- vmul (R91). -/
def execVmul (w : Fld) : State → Host.Outcome State Fault Refusal :=
  intWord (.vmul w) w false (plain fun _ a b => a * b)
/-- vmulh (R91). -/
def execVmulh (w : Fld) : State → Host.Outcome State Fault Refusal :=
  intWord (.vmulh w) w false (plain fun n a b => wrapTo (2 * n) (signedOf n a * signedOf n b) / 2 ^ n)
/-- vmulhz (R91). -/
def execVmulhz (w : Fld) : State → Host.Outcome State Fault Refusal :=
  intWord (.vmulhz w) w false (plain fun n a b => a * b / 2 ^ n)
/-- vmacc (R91): the accumulator is vd. -/
def execVmacc (w : Fld) : State → Host.Outcome State Fault Refusal :=
  intWord (.vmacc w) w false (fun n a b acc => ((acc + a * b) % 2 ^ n, 0))
/-- vnmsac (R91). -/
def execVnmsac (w : Fld) : State → Host.Outcome State Fault Refusal :=
  intWord (.vnmsac w) w false (fun n a b acc => (wrapTo n ((acc : Int) - (a * b : Nat)), 0))
/-- vdiv (R92). -/
def execVdiv (w : Fld) : State → Host.Outcome State Fault Refusal :=
  intWord (.vdiv w) w false (plain divS)
/-- vdivz (R92). -/
def execVdivz (w : Fld) : State → Host.Outcome State Fault Refusal :=
  intWord (.vdivz w) w false (plain divU)
/-- vrem (R92). -/
def execVrem (w : Fld) : State → Host.Outcome State Fault Refusal :=
  intWord (.vrem w) w false (plain remS)
/-- vremz (R92). -/
def execVremz (w : Fld) : State → Host.Outcome State Fault Refusal :=
  intWord (.vremz w) w false (plain remU)
/-- vmin (R91). -/
def execVmin (w : Fld) : State → Host.Outcome State Fault Refusal :=
  intWord (.vmin w) w false (plain fun n a b => if signedOf n a ≤ signedOf n b then a else b)
/-- vminz (R91). -/
def execVminz (w : Fld) : State → Host.Outcome State Fault Refusal :=
  intWord (.vminz w) w false (plain fun _ a b => min a b)
/-- vmax (R91). -/
def execVmax (w : Fld) : State → Host.Outcome State Fault Refusal :=
  intWord (.vmax w) w false (plain fun n a b => if signedOf n a ≤ signedOf n b then b else a)
/-- vmaxz (R91). -/
def execVmaxz (w : Fld) : State → Host.Outcome State Fault Refusal :=
  intWord (.vmaxz w) w false (plain fun _ a b => max a b)
/-- vsadd (R92). -/
def execVsadd (w : Fld) : State → Host.Outcome State Fault Refusal :=
  intWord (.vsadd w) w false (fun n a b _ => clampEv n (minS n) (maxS n) (signedOf n a + signedOf n b))
/-- vsaddz (R92). -/
def execVsaddz (w : Fld) : State → Host.Outcome State Fault Refusal :=
  intWord (.vsaddz w) w false (fun n a b _ => clampEv n 0 ((2 ^ n : Nat) - 1) ((a : Int) + b))
/-- vssub (R92). -/
def execVssub (w : Fld) : State → Host.Outcome State Fault Refusal :=
  intWord (.vssub w) w false (fun n a b _ => clampEv n (minS n) (maxS n) (signedOf n a - signedOf n b))
/-- vssubz (R92). -/
def execVssubz (w : Fld) : State → Host.Outcome State Fault Refusal :=
  intWord (.vssubz w) w false (fun n a b _ => clampEv n 0 ((2 ^ n : Nat) - 1) ((a : Int) - b))
/-- vavg (R91). -/
def execVavg (w : Fld) : State → Host.Outcome State Fault Refusal :=
  intWord (.vavg w) w false (plain fun n a b => wrapTo n ((signedOf n a + signedOf n b + 1) / 2))
/-- vabsd (R91). -/
def execVabsd (w : Fld) : State → Host.Outcome State Fault Refusal :=
  intWord (.vabsd w) w false (plain fun n a b => (signedOf n a - signedOf n b).natAbs)
/-- vand (R91). -/
def execVand (w : Fld) : State → Host.Outcome State Fault Refusal :=
  intWord (.vand w) w false (plain fun _ a b => a &&& b)
/-- vor (R91). -/
def execVor (w : Fld) : State → Host.Outcome State Fault Refusal :=
  intWord (.vor w) w false (plain fun _ a b => a ||| b)
/-- vxor (R91). -/
def execVxor (w : Fld) : State → Host.Outcome State Fault Refusal :=
  intWord (.vxor w) w false (plain fun _ a b => a ^^^ b)
/-- vandn (R91). -/
def execVandn (w : Fld) : State → Host.Outcome State Fault Refusal :=
  intWord (.vandn w) w false (plain fun n a b => a &&& (2 ^ n - 1 - b))
/-- vsll (R91). -/
def execVsll (w : Fld) : State → Host.Outcome State Fault Refusal :=
  intWord (.vsll w) w true (plain fun n a b => a * 2 ^ shAmt n b)
/-- vsrl (R91). -/
def execVsrl (w : Fld) : State → Host.Outcome State Fault Refusal :=
  intWord (.vsrl w) w true (plain fun n a b => a / 2 ^ shAmt n b)
/-- vsra (R91). -/
def execVsra (w : Fld) : State → Host.Outcome State Fault Refusal :=
  intWord (.vsra w) w true (plain fun n a b => wrapTo n (signedOf n a / (2 ^ shAmt n b : Nat)))
/-- vrol (R91). -/
def execVrol (w : Fld) : State → Host.Outcome State Fault Refusal :=
  intWord (.vrol w) w true (plain fun n a b => a * 2 ^ shAmt n b + a / 2 ^ (n - shAmt n b))

/-! ## Carries (R93) -/

/-- The attributes of vadc and vsbc: msk names the carry register. -/
def attrCarry : Attr := { fmts := fmtInt, msk := .selector }

/-- vadc and vsbc: `op a b c` is the exact sum and whether it carries. The carry register is read whole before any
write; with msk = 00 the carry-in is 0 and the carry-out is discarded. -/
def carryWord (i : Instr) (w : Fld) (op : Nat → Nat → Nat → Nat → Nat × Bool) : State →
    Host.Outcome State Fault Refusal :=
  vectorWord i (do
    let s ← getS
    let c ← issue attrCarry w (legalBinary s.hart w)
    let h := s.hart
    let d := h.vreg w.d
    let n := c.sew
    let carry := h.mask w.k.toNat
    let cin (e : Nat) : Nat := if w.k = 0 then 0 else (carry.getLsbD e).toNat
    let both (e : Nat) := op n (h.elem (h.vreg w.b) n e) (operandB s w false false n e) (cin e)
    let put : PutFn := fun e x h =>
      let h := c.putVec d n e (x % 2 ^ n) h
      if w.k ≠ 0 && c.sel e && c.velem ≤ e && e < c.vl then h.setMaskBit w.k.toNat e (2 ^ n ≤ x) else h
    elementWise i c put c.count (fun e => .ok ((both e).1 % 2 ^ n + (both e).2.toNat * 2 ^ n, 0)))

/-- vadc (R93). -/
def execVadc (w : Fld) : State → Host.Outcome State Fault Refusal :=
  carryWord (.vadc w) w (fun n a b c => (a + b + c, 2 ^ n ≤ a + b + c))
/-- vsbc (R93). -/
def execVsbc (w : Fld) : State → Host.Outcome State Fault Refusal :=
  carryWord (.vsbc w) w (fun n a b c => (a + 2 ^ n + 2 ^ n - b - c, a < b + c))

end Sys2Proof.Machine
end

