-- ==== Sys2Proof/Machine/VecPerm.lean ====
section
/-! DEFINITION. Major P: configuration (spec/04, R83, R84), compares (R94), mask operations (R95-R97), moves and
permutes (R98-R105), width changes (R106, R107), bit counts (R108) and integer reductions (R109). -/

namespace Sys2Proof.Machine

/-! ## Configuration (R83) -/

/-- The requests that set ILL (R19): a reserved RM or SLC code, a nonzero reserved bit, FMT 0xF with GRP other than 1,
or bit 63. -/
def reservedReq (t : Word) : Bool :=
  vtIll t || fieldOf t 21 42 ≠ 0 || 5 ≤ vtRm t || vtSlc t = 1 || 10 ≤ vtSlc t || (vtFmt t = 15 && vtGrp t ≠ 1)

/-- VTYPE and VL after a request (R83): `avl` is none for the infinite length. -/
def Hart.configure (h : Hart) (req : Word) (avl : Option Word) : Hart :=
  if reservedReq req then
    { h with vec := { h.vec with vtype := 0x8000_0000_0002_0000#64, vl := 0 } }
  else
    let m := vlmax req
    { h with vec := { h.vec with vtype := req, vl := bv 14 (match avl with
      | none => m
      | some a => min a.toNat m) } }

/-- The VTYPE that vcfgi requests (R63). -/
def immReq (w : CfgFld) : Word :=
  let i := w.hi.toNat * 32 + w.lo.toNat
  bv 64 (nbits i 4 4 + nbits i 2 2 * 2 ^ 4 + 2 ^ 17 + nbits i 1 1 * 2 ^ 19 + nbits i 0 1 * 2 ^ 20)

/-- A configuration word: it takes no prefix and sets VELEM to 0 (R84), and a system core has none (R73). -/
def configWord (i : Instr) (w : CfgFld) (req : Hart → Word) : State → Host.Outcome State Fault Refusal :=
  vectorWord i (fun s =>
    let h := s.hart
    if !(vectorAgent s) || h.pfxOn then .error .illegal s
    else
      let h := h.configure (req h) (if w.rs1 = 0 then none else some (h.getX w.rs1))
      let h := (h.setX w.rd (h.vec.vl.setWidth 64)).retire
      .ok () (s.setHart { h with vec := { h.vec with velem := 0 } }))

/-- vcfg (R83). -/
def execVcfg (w : CfgFld) : State → Host.Outcome State Fault Refusal :=
  configWord (.vcfg w) w (fun h => h.getX w.lo)
/-- vcfgi (R83). -/
def execVcfgi (w : CfgFld) : State → Host.Outcome State Fault Refusal :=
  configWord (.vcfgi w) w (fun _ => immReq w)

/-! ## Compares (R94) -/

/-- A compare into a mask: `rel n a b` is the relation. -/
def compareWord (i : Instr) (w : Fld) (rel : Nat → Nat → Nat → Bool) : State → Host.Outcome State Fault Refusal :=
  vectorWord i (do
    let s ← getS
    let g := grpHere s.hart
    let c ← issue { fmts := fmtInt, dcv := false } w
      ((Span.mk (s.hart.vreg w.b) g).ok && spanB s.hart w g)
    let h := s.hart
    elementWise i c (putMask w.d.toNat) 8192 (fun e =>
      .ok ((rel c.sew (h.elem (h.vreg w.b) c.sew e) (operandB s w false false c.sew e)).toNat, 0)))

/-- vceq (R94). -/
def execVceq (w : Fld) : State → Host.Outcome State Fault Refusal :=
  compareWord (.vceq w) w (fun _ a b => a == b)
/-- vcne (R94). -/
def execVcne (w : Fld) : State → Host.Outcome State Fault Refusal :=
  compareWord (.vcne w) w (fun _ a b => a != b)
/-- vclt (R94). -/
def execVclt (w : Fld) : State → Host.Outcome State Fault Refusal :=
  compareWord (.vclt w) w (fun n a b => signedOf n a < signedOf n b)
/-- vcltz (R94). -/
def execVcltz (w : Fld) : State → Host.Outcome State Fault Refusal :=
  compareWord (.vcltz w) w (fun _ a b => a < b)
/-- vcle (R94). -/
def execVcle (w : Fld) : State → Host.Outcome State Fault Refusal :=
  compareWord (.vcle w) w (fun n a b => signedOf n a ≤ signedOf n b)
/-- vclez (R94). -/
def execVclez (w : Fld) : State → Host.Outcome State Fault Refusal :=
  compareWord (.vclez w) w (fun _ a b => a ≤ b)
/-- vcgt (R94). -/
def execVcgt (w : Fld) : State → Host.Outcome State Fault Refusal :=
  compareWord (.vcgt w) w (fun n a b => signedOf n b < signedOf n a)
/-- vcgtz (R94). -/
def execVcgtz (w : Fld) : State → Host.Outcome State Fault Refusal :=
  compareWord (.vcgtz w) w (fun _ a b => b < a)

/-! ## Mask operations (R95, R96, R97) -/

/-- The attributes of the mask operations: no prefix, no type. -/
def attrMask : Attr := { takes := false, dcv := false, msk := .unused, typed := false, fmts := fun _ => true }

/-- A mask operation on bits VELEM to VL − 1; the tail follows TAIL. `cross` is for mshl, which never stops. -/
def maskWord (i : Instr) (w : Fld) (legal cross : Bool) (bit : State → Nat → Bool) : State →
    Host.Outcome State Fault Refusal :=
  vectorWord i (do
    let s ← getS
    let c ← issue attrMask w legal
    let c := if cross then { c with bound := 16384 } else c
    elementWise i c (putMask w.d.toNat) 8192 (fun e => .ok ((bit s e).toNat, 0)))

/-- Bit `e` of the mask in vs2. -/
def srcB (w : Fld) (s : State) (e : Nat) : Bool := (s.hart.mask w.b.toNat).getLsbD e
/-- Bit `e` of the mask in vs1. -/
def srcA (w : Fld) (s : State) (e : Nat) : Bool := (s.hart.mask w.a.toNat).getLsbD e

/-- mand (R95). -/
def execMand (w : Fld) : State → Host.Outcome State Fault Refusal :=
  maskWord (.mand w) w true false (fun s e => srcB w s e && srcA w s e)
/-- mor (R95). -/
def execMor (w : Fld) : State → Host.Outcome State Fault Refusal :=
  maskWord (.mor w) w true false (fun s e => srcB w s e || srcA w s e)
/-- mxor (R95). -/
def execMxor (w : Fld) : State → Host.Outcome State Fault Refusal :=
  maskWord (.mxor w) w true false (fun s e => srcB w s e != srcA w s e)
/-- mandn (R95). -/
def execMandn (w : Fld) : State → Host.Outcome State Fault Refusal :=
  maskWord (.mandn w) w true false (fun s e => srcB w s e && !(srcA w s e))
/-- mnot (R95). -/
def execMnot (w : Fld) : State → Host.Outcome State Fault Refusal :=
  maskWord (.mnot w) w true false (fun s e => !(srcB w s e))
/-- mmov (R95). -/
def execMmov (w : Fld) : State → Host.Outcome State Fault Refusal :=
  maskWord (.mmov w) w true false (fun s e => srcB w s e)
/-- mshl (R95): a cross-element operation, whose destination must not be its source (R81). -/
def execMshl (w : Fld) : State → Host.Outcome State Fault Refusal :=
  maskWord (.mshl w) w (w.d != w.b) true (fun s e =>
    let d := if w.f = 1 then (s.hart.getX w.a).toNat else w.a.toNat
    d ≤ e && srcB w s (e - d))

/-- The number of set bits among the first `n` of a mask. -/
def popMask (m : VReg) : Nat → Nat
  | 0 => 0
  | n + 1 => popMask m n + (m.getLsbD n).toNat

/-- The least set bit at or above `e` among `n`. -/
def firstMask (m : VReg) : Nat → Nat → Option Nat
  | 0, _ => none
  | n + 1, e => if m.getLsbD e then some e else firstMask m n (e + 1)

/-- mpop and mfirst: an x register takes a value of the mask's bits below VL (R96). -/
def maskScalar (i : Instr) (w : Fld) (val : VReg → Nat → Word) : State → Host.Outcome State Fault Refusal :=
  vectorWord i (do
    let s ← getS
    let c ← issue attrMask w (!(isRep s.hart.pc))
    setS (s.setHart (s.hart.setX w.d (val (s.hart.mask w.b.toNat) c.vl)))
    retireVec i c.takes)

/-- mpop (R96). -/
def execMpop (w : Fld) : State → Host.Outcome State Fault Refusal :=
  maskScalar (.mpop w) w (fun m vl => bv 64 (popMask m vl))
/-- mfirst (R96). -/
def execMfirst (w : Fld) : State → Host.Outcome State Fault Refusal :=
  maskScalar (.mfirst w) w (fun m vl => match firstMask m vl 0 with
    | some e => bv 64 e
    | none => BitVec.allOnes 64)

/-- mvtom (R97). -/
def execMvtom (w : Fld) : State → Host.Outcome State Fault Refusal :=
  vectorWord (.mvtom w) (do
    let s ← getS
    let c ← issue { fmts := fmtInt, dcv := false } w ((Span.mk (s.hart.vreg w.b) (grpHere s.hart)).ok)
    let h := s.hart
    elementWise (.mvtom w) c (putMask w.d.toNat) 8192 (fun e =>
      .ok ((h.elem (h.vreg w.b) c.sew e != 0).toNat, 0)))

/-- mmtov (R97). -/
def execMmtov (w : Fld) : State → Host.Outcome State Fault Refusal :=
  vectorWord (.mmtov w) (do
    let s ← getS
    let c ← issue { fmts := fmtInt } w (destOk s.hart ⟨s.hart.vreg w.d, grpHere s.hart⟩)
    elementWise (.mmtov w) c (c.putVec (s.hart.vreg w.d) c.sew) c.count (fun e =>
      .ok ((srcB w s e).toNat, 0)))

/-! ## MX blocks (R41, R105) -/

/-- Writing block `b`: the scale, the elements, and zeros in the unused bytes of its register. -/
def Hart.setMxBlock (h : Hart) (fmt r b x : Nat) : Hart :=
  let i := (r + b / mxPer fmt) % 32
  let v := h.vec.v[i]'(Nat.mod_lt _ (by decide))
  let k := b % mxPer fmt
  let n := 8 * mxBlock fmt
  let v := setField (setField v (mxScale fmt * 8 + k * n) n (x % 2 ^ n)) (8 * k) 8 (x / 2 ^ n)
  { h with vec := { h.vec with v := h.vec.v.set i (v &&& mxUsed fmt) (Nat.mod_lt _ (by decide)) } }

/-- Writing a block of the destination and of DREG. -/
def VCtx.putBlock (c : VCtx) (d : Nat) : PutFn := fun b x h =>
  let h := h.setMxBlock c.fmt d b x
  match c.dreg with
  | some r => h.setMxBlock c.fmt r b x
  | none => h

/-- The blocks of a group. -/
def VCtx.blockCount (c : VCtx) : Nat := mxPer c.fmt * c.grp

/-! ## Moves and permutes (R98-R105) -/

/-- The attributes of moves and permutes that act on MX blocks. -/
def attrBlocks : Attr := { fmts := fmtMove, blocks := true }
/-- The attributes of moves and permutes that are element-granular. -/
def attrElems : Attr := { fmts := fmtMove, elementwise := true }

/-- A destination and a source group that must not overlap (R81). -/
def legalCross (h : Hart) (w : Fld) : Bool :=
  let g := grpHere h
  destOk h ⟨h.vreg w.d, g⟩ && (Span.mk (h.vreg w.b) g).ok && destApart h ⟨h.vreg w.d, g⟩ ⟨h.vreg w.b, g⟩

/-- vmov (R98, R105). -/
def execVmov (w : Fld) : State → Host.Outcome State Fault Refusal :=
  vectorWord (.vmov w) (do
    let s ← getS
    let h := s.hart
    let g := grpHere h
    let c ← issue attrBlocks w (destOk h ⟨h.vreg w.d, g⟩ && (Span.mk (h.vreg w.b) g).ok)
    if isMx c.fmt then
      elementWise (.vmov w) (c.inBlocks (some (h.vreg w.d))) (c.putBlock (h.vreg w.d)) c.blockCount (fun b =>
        .ok (h.mxBlockOf c.fmt (h.vreg w.b) b, 0))
    else
      elementWise (.vmov w) c (c.putVec (h.vreg w.d) c.sew) c.count (fun e =>
        .ok (h.elem (h.vreg w.b) c.sew e, 0)))

/-- vbcast (R98). -/
def execVbcast (w : Fld) : State → Host.Outcome State Fault Refusal :=
  vectorWord (.vbcast w) (do
    let s ← getS
    let h := s.hart
    let c ← issue attrElems w (destOk h ⟨h.vreg w.d, grpHere h⟩)
    elementWise (.vbcast w) c (c.putVec (h.vreg w.d) c.sew) c.count (fun e =>
      .ok (operandB s w false false c.sew e, 0)))

/-- The attributes of vxget and vxput: typed, no prefix. -/
def attrIndex : Attr := { takes := false, dcv := false, msk := .unused, fmts := fmtMove, elementwise := true }

/-- vxget (R98): an x register takes an element, sign-extended, or 0 for an index of VLMAX or more. -/
def execVxget (w : Fld) : State → Host.Outcome State Fault Refusal :=
  vectorWord (.vxget w) (do
    let s ← getS
    let h := s.hart
    let c ← issue attrIndex w ((Span.mk (h.vreg w.b) (grpHere h)).ok && !(isRep h.pc))
    let i := if w.f = 1 then (h.getX w.a).toNat else w.a.toNat
    let x := if i < vlmax c.vtype then sext64 c.sew (h.elem (h.vreg w.b) c.sew i) else 0
    setS (s.setHart (h.setX w.d x))
    retireVec (.vxget w) c.takes)

/-- vxput (R98): one element takes the low bits of an x register; an index of VLMAX or more writes nothing. -/
def execVxput (w : Fld) : State → Host.Outcome State Fault Refusal :=
  vectorWord (.vxput w) (do
    let s ← getS
    let h := s.hart
    let c ← issue attrIndex w ((Span.mk (h.vreg w.d) (grpHere h)).ok)
    let i := (h.getX w.b).toNat
    let x := (h.getX w.a).toNat
    setS (s.setHart (if i < vlmax c.vtype then h.setElem (h.vreg w.d) c.sew i (x % 2 ^ c.sew) else h))
    retireVec (.vxput w) c.takes)

/-- The offset of a slide: an unsigned x register, or imm5 from 0 to 31 (R99). -/
def slideOff (s : State) (w : Fld) : Nat := if w.f = 1 then (s.hart.getX w.a).toNat else w.a.toNat

/-- The slides by an offset, over elements or MX blocks (R99, R105): below `off` vslup writes nothing. -/
def slideWord (i : Instr) (w : Fld) (up : Bool) : State → Host.Outcome State Fault Refusal :=
  vectorWord i (do
    let s ← getS
    let h := s.hart
    let c ← issue attrBlocks w (legalCross h w)
    let off := slideOff s w
    let mx := isMx c.fmt
    let k := if mx then c.inBlocks (some (h.vreg w.d)) else c
    let src (e : Nat) : Nat := if mx then h.mxBlockOf c.fmt (h.vreg w.b) e else h.elem (h.vreg w.b) c.sew e
    let put0 : PutFn := if mx then c.putBlock (h.vreg w.d) else c.putVec (h.vreg w.d) c.sew
    let put : PutFn := fun e x h => if up && e < off && e < k.vl then h else put0 e x h
    crossElement i k put (if mx then c.blockCount else c.count) (fun e =>
      if up then src (e - off) else if e + off < k.vl then src (e + off) else 0))

/-- vslup (R99). -/
def execVslup (w : Fld) : State → Host.Outcome State Fault Refusal := slideWord (.vslup w) w true
/-- vsldn (R99). -/
def execVsldn (w : Fld) : State → Host.Outcome State Fault Refusal := slideWord (.vsldn w) w false

/-- A slide by one that takes a scalar in (R99). -/
def slide1Word (i : Instr) (w : Fld) (up : Bool) : State → Host.Outcome State Fault Refusal :=
  vectorWord i (do
    let s ← getS
    let h := s.hart
    let c ← issue attrElems w (legalCross h w)
    let x := scalarOperand s false w.a c.sew
    crossElement i c (c.putVec (h.vreg w.d) c.sew) c.count (fun e =>
      if up then (if e = 0 then x else h.elem (h.vreg w.b) c.sew (e - 1))
      else if e + 1 < c.vl then h.elem (h.vreg w.b) c.sew (e + 1) else x))

/-- vsl1up (R99). -/
def execVsl1up (w : Fld) : State → Host.Outcome State Fault Refusal := slide1Word (.vsl1up w) w true
/-- vsl1dn (R99). -/
def execVsl1dn (w : Fld) : State → Host.Outcome State Fault Refusal := slide1Word (.vsl1dn w) w false

/-- vgath (R100). -/
def execVgath (w : Fld) : State → Host.Outcome State Fault Refusal :=
  vectorWord (.vgath w) (do
    let s ← getS
    let h := s.hart
    let g := grpHere h
    let c ← issue attrElems w (legalCross h w && (Span.mk (h.vreg w.a) g).ok
      && destApart h ⟨h.vreg w.d, g⟩ ⟨h.vreg w.a, g⟩)
    crossElement (.vgath w) c (c.putVec (h.vreg w.d) c.sew) c.count (fun e =>
      let i := h.elem (h.vreg w.a) c.sew e
      if i < vlmax c.vtype then h.elem (h.vreg w.b) c.sew i else 0))

/-- vmerge (R101, R105): the selector chooses b, else a; under MX only form VV is accepted, and element 32b of the
selector chooses block b. -/
def execVmerge (w : Fld) : State → Host.Outcome State Fault Refusal :=
  vectorWord (.vmerge w) (do
    let s ← getS
    let h := s.hart
    let c ← issue { attrBlocks with msk := .selector, elementwise := w.f != 0 } w (legalBinary h w)
    let m := h.mask w.k.toNat
    if isMx c.fmt then
      elementWise (.vmerge w) (c.inBlocks (some (h.vreg w.d))) (c.putBlock (h.vreg w.d)) c.blockCount (fun b =>
        .ok (h.mxBlockOf c.fmt (if m.getLsbD (32 * b) then h.vreg w.a else h.vreg w.b) b, 0))
    else
      elementWise (.vmerge w) c (c.putVec (h.vreg w.d) c.sew) c.count (fun e =>
        .ok (if m.getLsbD e then operandB s w false false c.sew e else h.elem (h.vreg w.b) c.sew e, 0)))

/-- Packing the candidates from `e` on, `n` of them, into positions from `k` on (R102). -/
def packLoop (c : VCtx) (put : PutFn) (sel : Nat → Bool) (src : Nat → Nat) : Nat → Nat → Nat → Hart → Nat × Hart
  | 0, _, k, h => (k, h)
  | n + 1, e, k, h =>
    if c.sel e && sel e then packLoop c put sel src n (e + 1) (k + 1) (put k (src e) h)
    else packLoop c put sel src n (e + 1) k h

/-- vcomp (R102): the packed tail follows TAIL. -/
def execVcomp (w : Fld) : State → Host.Outcome State Fault Refusal :=
  vectorWord (.vcomp w) (do
    let s ← getS
    let h := s.hart
    let c ← issue { attrElems with msk := .selector } w (legalCross h w)
    let put := c.putVec (h.vreg w.d) c.sew
    let m := h.mask w.k.toNat
    let (k, h') := packLoop c put (fun e => m.getLsbD e) (fun e => h.elem (h.vreg w.b) c.sew e)
      (c.vl - c.velem) c.velem 0 h
    setS (s.setHart (if c.tail then zeroFrom put (c.count - k) k h' else h'))
    retireVec (.vcomp w) c.takes)

/-- Unpacking: candidates from `e` on take elements from `j` on; an element that is no candidate is masked off
(R102). -/
def unpackLoop (c : VCtx) (put : PutFn) (sel : Nat → Bool) (src : Nat → Nat) : Nat → Nat → Nat → Hart → Hart
  | 0, _, _, h => h
  | n + 1, e, j, h =>
    if c.sel e && sel e then unpackLoop c put sel src n (e + 1) (j + 1) (put e (src j) h)
    else unpackLoop c put sel src n (e + 1) j (if c.pol then put e 0 h else h)

/-- vexpd (R102). -/
def execVexpd (w : Fld) : State → Host.Outcome State Fault Refusal :=
  vectorWord (.vexpd w) (do
    let s ← getS
    let h := s.hart
    let c ← issue { attrElems with msk := .selector } w (legalCross h w)
    let put := c.putVec (h.vreg w.d) c.sew
    let m := h.mask w.k.toNat
    let h' := unpackLoop c put (fun e => m.getLsbD e) (fun e => h.elem (h.vreg w.b) c.sew e)
      (c.vl - c.velem) c.velem 0 h
    setS (s.setHart (if c.tail then zeroFrom put (c.count - c.vl) c.vl h' else h'))
    retireVec (.vexpd w) c.takes)

/-- How many active elements from `j` up to `e`, `n` of them, equal `x` (R103). -/
def countSame (c : VCtx) (src : Nat → Nat) (x : Nat) : Nat → Nat → Nat
  | 0, _ => 0
  | n + 1, j => (c.sel j && src j == x).toNat + countSame c src x n (j + 1)

/-- vconf (R103). A count wider than SEW wraps modulo 2^SEW, as R104 says of viota and vidx (DESIGN CHOICE,
assumption 45). -/
def execVconf (w : Fld) : State → Host.Outcome State Fault Refusal :=
  vectorWord (.vconf w) (do
    let s ← getS
    let h := s.hart
    let c ← issue attrElems w (legalCross h w)
    let src (e : Nat) : Nat := h.elem (h.vreg w.b) c.sew e
    crossElement (.vconf w) c (c.putVec (h.vreg w.d) c.sew) c.count (fun e =>
      countSame c src (src e) (e - c.velem) c.velem % 2 ^ c.sew))

/-- viota (R104). -/
def execViota (w : Fld) : State → Host.Outcome State Fault Refusal :=
  vectorWord (.viota w) (do
    let s ← getS
    let h := s.hart
    let c ← issue attrInt w (destOk h ⟨h.vreg w.d, grpHere h⟩)
    crossElement (.viota w) c (c.putVec (h.vreg w.d) c.sew) c.count (fun e =>
      popMask (h.mask w.b.toNat) e % 2 ^ c.sew))

/-- vidx (R104). -/
def execVidx (w : Fld) : State → Host.Outcome State Fault Refusal :=
  vectorWord (.vidx w) (do
    let s ← getS
    let h := s.hart
    let c ← issue attrInt w (destOk h ⟨h.vreg w.d, grpHere h⟩)
    elementWise (.vidx w) c (c.putVec (h.vreg w.d) c.sew) c.count (fun e => .ok (e % 2 ^ c.sew, 0)))

/-! ## Width changes and bit counts (R106-R108) -/

/-- vwiden (R106). -/
def execVwiden (w : Fld) : State → Host.Outcome State Fault Refusal :=
  vectorWord (.vwiden w) (do
    let s ← getS
    let h := s.hart
    let f := 2 ^ (w.a.toNat % 4 + 1)
    let g := grpHere h
    let dst : Span := ⟨h.vreg w.d, g * f⟩
    let src : Span := ⟨h.vreg w.b, g⟩
    let c ← issue attrInt w (g * f ≤ 8 && destOk h dst && src.ok && destApart h dst src)
    ensure (c.sew * f ≤ 64) (.format 2 c.vtype)
    let n := c.sew * f
    crossElement (.vwiden w) c (c.putVec dst.first n) (8192 * g * f / n) (fun e =>
      let x := h.elem src.first c.sew e
      if bitOf w.a 2 then wrapTo n (signedOf c.sew x) else x))

/-- One element of vnarrow: the value at width `m` and whether it was clamped (R106). -/
def narrowElem (mode n m x : Nat) : Nat × Ev :=
  match mode with
  | 0 => (x % 2 ^ m, 0)
  | 1 => clampEv m (minS m) (maxS m) (signedOf n x)
  | _ => clampEv m 0 ((2 ^ m : Nat) - 1) x

/-- The events of the active elements from `e` on, `n` of them. -/
def eventsOf (c : VCtx) (res : Nat → Nat × Ev) : Nat → Nat → Ev
  | 0, _ => 0
  | n + 1, e => (if c.sel e then (res e).2 else 0) ||| eventsOf c res n (e + 1)

/-- vnarrow (R106): with an enabled event the whole word traps, nothing is committed and VELEM keeps its value. -/
def execVnarrow (w : Fld) : State → Host.Outcome State Fault Refusal :=
  vectorWord (.vnarrow w) (do
    let s ← getS
    let h := s.hart
    let f := 2 ^ (w.a.toNat % 4 + 1)
    let g := grpHere h
    let dst : Span := ⟨h.vreg w.d, max 1 (g / f)⟩
    let src : Span := ⟨h.vreg w.b, g⟩
    let c ← issue attrInt w (destOk h dst && src.ok && destApart h dst src)
    ensure (8 ≤ c.sew / f) (.format 2 c.vtype)
    let n := c.sew / f
    let res (e : Nat) := narrowElem (w.a.toNat / 4 % 4) c.sew n (h.elem src.first c.sew e)
    let ev := eventsOf c res (c.vl - c.velem) c.velem
    ensure (h.trapping ev = 0) (.trap 24 ((h.trapping ev).setWidth 64))
    elementWise (.vnarrow w) { c with bound := 16384 } (c.putVec dst.first n) (8192 * dst.size / n) (fun e =>
      .ok (res e)))

/-- A one-source element-wise integer word. -/
def unaryWord (i : Instr) (w : Fld) (op : Nat → Nat → Nat) : State → Host.Outcome State Fault Refusal :=
  vectorWord i (do
    let s ← getS
    let h := s.hart
    let g := grpHere h
    let c ← issue attrInt w (destOk h ⟨h.vreg w.d, g⟩ && (Span.mk (h.vreg w.b) g).ok)
    elementWise i c (c.putVec (h.vreg w.d) c.sew) c.count (fun e =>
      .ok (op c.sew (h.elem (h.vreg w.b) c.sew e), 0)))

/-- vsext and vzext (R107): a source width of n or more is a format fault. -/
def extendWord (i : Instr) (w : Fld) (signed : Bool) : State → Host.Outcome State Fault Refusal :=
  vectorWord i (do
    let s ← getS
    let h := s.hart
    let g := grpHere h
    let m := 8 * 2 ^ (w.a.toNat % 4)
    let c ← issue attrInt w (destOk h ⟨h.vreg w.d, g⟩ && (Span.mk (h.vreg w.b) g).ok)
    ensure (m < c.sew) (.format 2 c.vtype)
    elementWise i c (c.putVec (h.vreg w.d) c.sew) c.count (fun e =>
      let x := h.elem (h.vreg w.b) c.sew e % 2 ^ m
      .ok (if signed then wrapTo c.sew (signedOf m x) else x, 0)))

/-- vsext (R107). -/
def execVsext (w : Fld) : State → Host.Outcome State Fault Refusal := extendWord (.vsext w) w true
/-- vzext (R107). -/
def execVzext (w : Fld) : State → Host.Outcome State Fault Refusal := extendWord (.vzext w) w false
/-- vclz (R108). -/
def execVclz (w : Fld) : State → Host.Outcome State Fault Refusal := unaryWord (.vclz w) w leadingZeros
/-- vctz (R108). -/
def execVctz (w : Fld) : State → Host.Outcome State Fault Refusal := unaryWord (.vctz w) w lowestOne
/-- vpopc (R108). -/
def execVpopc (w : Fld) : State → Host.Outcome State Fault Refusal := unaryWord (.vpopc w) w countOnes
/-- vbrev (R108). -/
def execVbrev (w : Fld) : State → Host.Outcome State Fault Refusal := unaryWord (.vbrev w) w reverseBits

/-! ## Integer reductions (R109) -/

/-- The register fields of a reduction (R81): vd and DREG may coincide exactly with vs1 and share nothing with vs2. -/
def legalReduce (h : Hart) (w : Fld) : Bool :=
  let g := grpHere h
  let d : Span := ⟨h.vreg w.d, g⟩
  let a : Span := ⟨h.vreg w.a, g⟩
  let same (x : Nat) : Bool := x == a.first || !(Span.meets ⟨x, g⟩ a)
  legalCross h w && (w.f ≠ 0 || (a.ok && same d.first && (match h.dregOf with
    | none => true
    | some r => same r)))

/-- Folding the active elements from `e` on, `n` of them. -/
def foldLoop (c : VCtx) (op : Nat → Nat → Nat) (src : Nat → Nat) : Nat → Nat → Nat → Nat
  | 0, _, acc => acc
  | n + 1, e, acc => foldLoop c op src n (e + 1) (if c.sel e then op acc (src e) else acc)

/-- The state of a reduction's destination: element 0 always, the rest by TAIL (R109). -/
def VCtx.putReduced (c : VCtx) (d x : Nat) (h : Hart) : Hart :=
  let put := c.putVec d c.sew
  let h := put 0 x h
  if c.tail then zeroFrom put (c.count - 1) 1 h else h

/-- An integer reduction (R109). -/
def reduceWord (i : Instr) (w : Fld) (op : Nat → Nat → Nat → Nat) : State → Host.Outcome State Fault Refusal :=
  vectorWord i (do
    let s ← getS
    let h := s.hart
    let c ← issue attrInt w (legalReduce h w)
    let acc := foldLoop c (op c.sew) (fun e => h.elem (h.vreg w.b) c.sew e) (c.vl - c.velem) c.velem
      (operandB s w false false c.sew 0)
    setS (s.setHart (c.putReduced (h.vreg w.d) acc h))
    retireVec i c.takes)

/-- vredsum (R109). -/
def execVredsum (w : Fld) : State → Host.Outcome State Fault Refusal :=
  reduceWord (.vredsum w) w (fun n a b => (a + b) % 2 ^ n)
/-- vredmin (R109). -/
def execVredmin (w : Fld) : State → Host.Outcome State Fault Refusal :=
  reduceWord (.vredmin w) w (fun n a b => if signedOf n a ≤ signedOf n b then a else b)
/-- vredminz (R109). -/
def execVredminz (w : Fld) : State → Host.Outcome State Fault Refusal :=
  reduceWord (.vredminz w) w (fun _ a b => min a b)
/-- vredmax (R109). -/
def execVredmax (w : Fld) : State → Host.Outcome State Fault Refusal :=
  reduceWord (.vredmax w) w (fun n a b => if signedOf n a ≤ signedOf n b then b else a)
/-- vredmaxz (R109). -/
def execVredmaxz (w : Fld) : State → Host.Outcome State Fault Refusal :=
  reduceWord (.vredmaxz w) w (fun _ a b => max a b)
/-- vredand (R109). -/
def execVredand (w : Fld) : State → Host.Outcome State Fault Refusal :=
  reduceWord (.vredand w) w (fun _ a b => a &&& b)
/-- vredor (R109). -/
def execVredor (w : Fld) : State → Host.Outcome State Fault Refusal :=
  reduceWord (.vredor w) w (fun _ a b => a ||| b)
/-- vredxor (R109). -/
def execVredxor (w : Fld) : State → Host.Outcome State Fault Refusal :=
  reduceWord (.vredxor w) w (fun _ a b => a ^^^ b)

end Sys2Proof.Machine
end

