-- ==== Sys2Proof/Machine/VecFloat.lean ====
section
/-! DEFINITION. The floating-point instructions of major F (spec/05, R110-R124). -/

namespace Sys2Proof.Machine

/-- The attributes of floating arithmetic. -/
def attrFloat : Attr := { fmts := fmtFloat }

/-- How a vector word rounds to a format: VTYPE's RM, SATF and FTZ (R36-R38). -/
def VCtx.rounding (c : VCtx) (fmt : Nat) : Rounding := ⟨floatFmt fmt, vtRm c.vtype, vtSatf c.vtype, vtFtz c.vtype⟩

/-- An element-wise floating word: `op r a b acc` on codes. -/
def floatWord (i : Instr) (w : Fld) (op : Rounding → Nat → Nat → Nat → Nat × Ev) : State →
    Host.Outcome State Fault Refusal :=
  vectorWord i (do
    let s ← getS
    let c ← issue attrFloat w (legalBinary s.hart w)
    let h := s.hart
    let d := h.vreg w.d
    elementWise i c (c.putVec d c.sew) c.count (fun e =>
      withEvents h (op (c.rounding c.fmt) (h.elem (h.vreg w.b) c.sew e) (operandB s w true false c.sew e)
        (h.elem d c.sew e))))

/-- An operation on the values of two codes. -/
def onVals (f : Rounding → FVal → FVal → Nat × Ev) : Rounding → Nat → Nat → Nat → Nat × Ev :=
  fun r a b _ => f r (decodeFloat r.fmt a) (decodeFloat r.fmt b)

/-- A fused operation on the values of three codes, with the signs of the product and of the addend (R113). -/
def onFused (negProd negAdd : Bool) : Rounding → Nat → Nat → Nat → Nat × Ev :=
  fun r a b acc =>
    let x := decodeFloat r.fmt a
    let z := decodeFloat r.fmt acc
    fmaVal r (if negProd then x.negate else x) (decodeFloat r.fmt b) (if negAdd then z.negate else z)

/-- vfadd (R112). -/
def execVfadd (w : Fld) : State → Host.Outcome State Fault Refusal := floatWord (.vfadd w) w (onVals addVal)
/-- vfsub (R112): a + (−b). -/
def execVfsub (w : Fld) : State → Host.Outcome State Fault Refusal :=
  floatWord (.vfsub w) w (onVals fun r a b => addVal r a b.negate)
/-- vfmul (R112). -/
def execVfmul (w : Fld) : State → Host.Outcome State Fault Refusal := floatWord (.vfmul w) w (onVals mulVal)
/-- vfdiv (R112). -/
def execVfdiv (w : Fld) : State → Host.Outcome State Fault Refusal := floatWord (.vfdiv w) w (onVals divVal)
/-- vfmadd (R113). -/
def execVfmadd (w : Fld) : State → Host.Outcome State Fault Refusal := floatWord (.vfmadd w) w (onFused false false)
/-- vfmsub (R113). -/
def execVfmsub (w : Fld) : State → Host.Outcome State Fault Refusal := floatWord (.vfmsub w) w (onFused false true)
/-- vfnmadd (R113). -/
def execVfnmadd (w : Fld) : State → Host.Outcome State Fault Refusal := floatWord (.vfnmadd w) w (onFused true true)
/-- vfnmsub (R113). -/
def execVfnmsub (w : Fld) : State → Host.Outcome State Fault Refusal := floatWord (.vfnmsub w) w (onFused true false)
/-- vfmin (R115). -/
def execVfmin (w : Fld) : State → Host.Outcome State Fault Refusal :=
  floatWord (.vfmin w) w (fun r a b _ => minMaxFloat r.fmt false a b)
/-- vfmax (R115). -/
def execVfmax (w : Fld) : State → Host.Outcome State Fault Refusal :=
  floatWord (.vfmax w) w (fun r a b _ => minMaxFloat r.fmt true a b)
/-- vfsgnj (R116). -/
def execVfsgnj (w : Fld) : State → Host.Outcome State Fault Refusal :=
  floatWord (.vfsgnj w) w (fun r a b _ => (signInject r.fmt.width 0 a b, 0))
/-- vfsgnjn (R116). -/
def execVfsgnjn (w : Fld) : State → Host.Outcome State Fault Refusal :=
  floatWord (.vfsgnjn w) w (fun r a b _ => (signInject r.fmt.width 1 a b, 0))
/-- vfsgnjx (R116). -/
def execVfsgnjx (w : Fld) : State → Host.Outcome State Fault Refusal :=
  floatWord (.vfsgnjx w) w (fun r a b _ => (signInject r.fmt.width 2 a b, 0))

/-! ## Compares (R118) -/

/-- A floating compare into a mask: 0 equal, 1 less, 2 less or equal. -/
def floatCompare (i : Instr) (w : Fld) (op : Nat) : State → Host.Outcome State Fault Refusal :=
  vectorWord i (do
    let s ← getS
    let g := grpHere s.hart
    let c ← issue { attrFloat with dcv := false } w
      ((Span.mk (s.hart.vreg w.b) g).ok && spanB s.hart w g)
    let h := s.hart
    elementWise i c (putMask w.d.toNat) 8192 (fun e =>
      let r := compareFloat (floatFmt c.fmt) op (h.elem (h.vreg w.b) c.sew e) (operandB s w true false c.sew e)
      withEvents h (r.1.toNat, r.2)))

/-- vfceq (R118). -/
def execVfceq (w : Fld) : State → Host.Outcome State Fault Refusal := floatCompare (.vfceq w) w 0
/-- vfclt (R118). -/
def execVfclt (w : Fld) : State → Host.Outcome State Fault Refusal := floatCompare (.vfclt w) w 1
/-- vfcle (R118). -/
def execVfcle (w : Fld) : State → Host.Outcome State Fault Refusal := floatCompare (.vfcle w) w 2

/-! ## One source (R114, R117, R119, R122) -/

/-- An element-wise floating word with one source. -/
def floatUnary (i : Instr) (w : Fld) (op : Rounding → Nat → Nat × Ev) : State → Host.Outcome State Fault Refusal :=
  vectorWord i (do
    let s ← getS
    let h := s.hart
    let g := grpHere h
    let c ← issue attrFloat w (destOk h ⟨h.vreg w.d, g⟩ && (Span.mk (h.vreg w.b) g).ok)
    elementWise i c (c.putVec (h.vreg w.d) c.sew) c.count (fun e =>
      withEvents h (op (c.rounding c.fmt) (h.elem (h.vreg w.b) c.sew e))))

/-- vfsqrt (R114). -/
def execVfsqrt (w : Fld) : State → Host.Outcome State Fault Refusal :=
  floatUnary (.vfsqrt w) w (fun r a => sqrtVal r (decodeFloat r.fmt a))
/-- vfclass (R117). -/
def execVfclass (w : Fld) : State → Host.Outcome State Fault Refusal :=
  floatUnary (.vfclass w) w (fun r a => (classFloat r.fmt a, 0))
/-- vfrec (R49, R119). -/
def execVfrec (w : Fld) : State → Host.Outcome State Fault Refusal :=
  floatUnary (.vfrec w) w (fun r a => recipVal r (decodeFloat r.fmt a))
/-- vfrsq (R50, R119). -/
def execVfrsq (w : Fld) : State → Host.Outcome State Fault Refusal :=
  floatUnary (.vfrsq w) w (fun r a => rsqrtVal r (decodeFloat r.fmt a))
/-- vfexp2 (R51, R119). -/
def execVfexp2 (w : Fld) : State → Host.Outcome State Fault Refusal :=
  floatUnary (.vfexp2 w) w (fun r a => exp2Val r (decodeFloat r.fmt a))
/-- vfround (R122): mode 111 is VTYPE.RM. -/
def execVfround (w : Fld) : State → Host.Outcome State Fault Refusal :=
  floatUnary (.vfround w) w (fun r a =>
    roundIntegral r.fmt (if w.a.toNat % 8 = 7 then r.rm else w.a.toNat % 8) a)

/-! ## Conversions (R120, R121) -/

/-- One element of vfcvt. Converting a floating format to itself changes only NaNs and flushed subnormals (R120). -/
def convertElem (r : Rounding) (src dst : Nat) (unsigned : Bool) (a : Nat) : Nat × Ev :=
  if src < 4 then roundVal r (intVal (if unsigned then (a : Int) else signedOf (sewOf src) a))
  else
    let x := decodeFloat (floatFmt src) a
    if dst < 4 then toIntVal r.rm (sewOf dst) unsigned x
    else match x with
      | .inf _ => if src = dst then (a, 0) else roundVal r x
      | _ => roundVal r x

/-- vfcvt (R120, R121). The format fault of an integer-to-integer conversion gives DETAIL 2, that of a format outside the
class (DESIGN CHOICE, assumption 49). Where FMT lies outside 0x0 to 0x9 the source group is counted with the width of
`sewOf` (assumption 44). -/
def execVfcvt (w : Fld) : State → Host.Outcome State Fault Refusal :=
  vectorWord (.vfcvt w) (do
    let s ← getS
    let h := s.hart
    let g := grpHere h
    let src := w.a.toNat % 16
    let sw := sewOf src
    let dw := sewHere h
    let gs := max 1 (g * sw / dw)
    let dst : Span := ⟨h.vreg w.d, g⟩
    let from' : Span := ⟨h.vreg w.b, gs⟩
    let c ← issue attrInt w (gs ≤ 8 && destOk h dst && from'.ok && (sw == dw || !(dst.meets from')))
    ensure (4 ≤ src || 4 ≤ c.fmt) (.format 2 c.vtype)
    elementWise (.vfcvt w) c (c.putVec dst.first dw) c.count (fun e =>
      withEvents h (convertElem (c.rounding c.fmt) src c.fmt (bitOf w.a 4) (h.elem from'.first sw e))))

/-! ## Reductions (R123, R124) -/

/-- The ordered fold of vfredsum from element `e` on, `n` of them: the sum, its flags, and the element at which it
stops. -/
def orderedFold (c : VCtx) (h : Hart) (add : Nat → Nat → Nat × Ev) (src : Nat → Nat) :
    Nat → Nat → Nat → Ev → Nat × Ev × Option (Nat × Ev)
  | 0, _, acc, ev => (acc, ev, none)
  | n + 1, e, acc, ev =>
    if c.bound ≤ e then (acc, ev, some (e, 0))
    else if c.sel e then
      let (x, k) := add acc (src e)
      if h.trapping k = 0 then orderedFold c h add src n (e + 1) x (ev ||| k)
      else (acc, ev, some (e, h.trapping k))
    else orderedFold c h add src n (e + 1) acc ev

/-- The attributes of the sum of two codes under a rounding. -/
def addCodes (r : Rounding) (a b : Nat) : Nat × Ev := addVal r (decodeFloat r.fmt a) (decodeFloat r.fmt b)

/-- vfredsum (R43, R123, R124). -/
def execVfredsum (w : Fld) : State → Host.Outcome State Fault Refusal :=
  vectorWord (.vfredsum w) (do
    let s ← getS
    let h := s.hart
    let c ← issue attrFloat w (legalReduce h w)
    let d := h.vreg w.d
    let init := if c.velem = 0 then operandB s w true false c.sew 0 else h.elem d c.sew 0
    match orderedFold c h (addCodes (c.rounding c.fmt)) (fun e => h.elem (h.vreg w.b) c.sew e) (c.vl - c.velem)
        c.velem init 0 with
    | (acc, ev, none) =>
      setS (s.setHart ((c.putReduced d acc h).addFlags ev))
      retireVec (.vfredsum w) c.takes
    | (acc, ev, some (e, en)) =>
      setS (s.setHart ((c.putVec d c.sew 0 acc h).addFlags ev))
      stopElem e en)

/-- A reduction that never stops part-way: an enabled event of any of its operations commits nothing (R124). -/
def floatReduce (i : Instr) (w : Fld) (fold : VCtx → (Nat → Nat) → Nat → Nat × Ev) : State →
    Host.Outcome State Fault Refusal :=
  vectorWord i (do
    let s ← getS
    let h := s.hart
    let c ← issue attrFloat w (legalReduce h w)
    let (x, ev) := fold c (fun e => h.elem (h.vreg w.b) c.sew e) (operandB s w true false c.sew 0)
    ensure (h.trapping ev = 0) (.trap 24 ((h.trapping ev).setWidth 64))
    setS (s.setHart ((c.putReduced (h.vreg w.d) x h).addFlags ev))
    retireVec i c.takes)

/-- vfredtree (R44, R123): the canonical sum over element indices. -/
def execVfredtree (w : Fld) : State → Host.Outcome State Fault Refusal :=
  floatReduce (.vfredtree w) w (fun c src init =>
    canonicalSum (addCodes (c.rounding c.fmt))
      (fun e => if c.velem ≤ e && e < c.vl && c.sel e then some (src e) else none) (ceilLog2 c.vl) init)

/-- Folding the active elements from `e` on, `n` of them, with minima or maxima and their flags. -/
def minMaxFold (c : VCtx) (wantMax : Bool) (src : Nat → Nat) : Nat → Nat → Nat → Ev → Nat × Ev
  | 0, _, acc, ev => (acc, ev)
  | n + 1, e, acc, ev =>
    if c.sel e then
      let (x, k) := minMaxFloat (floatFmt c.fmt) wantMax acc (src e)
      minMaxFold c wantMax src n (e + 1) x (ev ||| k)
    else minMaxFold c wantMax src n (e + 1) acc ev

/-- vfredmin (R123). -/
def execVfredmin (w : Fld) : State → Host.Outcome State Fault Refusal :=
  floatReduce (.vfredmin w) w (fun c src init => minMaxFold c false src (c.vl - c.velem) c.velem init 0)
/-- vfredmax (R123). -/
def execVfredmax (w : Fld) : State → Host.Outcome State Fault Refusal :=
  floatReduce (.vfredmax w) w (fun c src init => minMaxFold c true src (c.vl - c.velem) c.velem init 0)

end Sys2Proof.Machine
end

