-- ==== Sys2Proof/Machine/VecMx.lean ====
section
/-! DEFINITION. The MX block instructions (spec/05, R125-R128) and the planar instructions (R129-R134). -/

namespace Sys2Proof.Machine

/-! ## MX elements (R39, R41) -/

/-- The scale and the code of element `e` of an MX group. -/
def Hart.mxCode (h : Hart) (fmt r e : Nat) : Nat × Nat :=
  let b := h.mxBlockOf fmt r (e / 32)
  let n := 8 * mxBlock fmt
  (b / 2 ^ n, b / 2 ^ (mxBits fmt * (e % 32)) % 2 ^ mxBits fmt)

/-- The value of a scale and a code (R39): a decoded NaN raises no flag. -/
def mxVal (fmt scale code : Nat) : FVal :=
  if scale = 255 then .nan false
  else match decodeFloat (floatFmt fmt) code with
    | .nan _ => .nan false
    | .inf n => .inf n
    | .fin n m e => .fin n m (e + scale - 127)

/-- The value of element `e` of an MX group. -/
def Hart.mxElem (h : Hart) (fmt r e : Nat) : FVal :=
  let c := h.mxCode fmt r e
  mxVal fmt c.1 c.2

/-- The registers of the ordinary side for one MX register (R125); 1 under a format that is not MX, for which the word
takes the format fault unless a field is illegal (DESIGN CHOICE, assumption 50). -/
def mxSpan (fmt src grp : Nat) : Nat :=
  if !(isMx fmt) then 1 else (if fmt ≤ 11 then 4 else 8) / (if src = 5 then 1 else 2) * grp

/-- EMAX of an element format (R126). -/
def mxEmax : Nat → Int
  | 10 => 8
  | 11 => 15
  | 12 => 4
  | _ => 2

/-- A block of codes with its scale, as mxBlockOf gives it. -/
def packBlock (fmt scale : Nat) (codes : List Nat) : Nat :=
  scale * 2 ^ (8 * mxBlock fmt) + codes.foldr (fun c a => c + a * 2 ^ mxBits fmt) 0

/-- The block of 32 values with its chosen scale (R126, R37). A block with no finite element has no largest one: m is taken
as 0, so E is 0 (DESIGN CHOICE, assumption 51). -/
def quantBlock (r : Rounding) (fmt : Nat) (xs : List FVal) : Nat × Ev :=
  if xs.any FVal.isNan then (packBlock fmt 255 [], evNV.when (xs.any FVal.isSig))
  else
    let logs := xs.filterMap (fun x => match x with
      | .fin _ m e => if m = 0 then none else some ((Nat.log2 m : Int) + e)
      | _ => none)
    let ex : Int := match logs with
      | [] => 0
      | l :: ls => max (-127) (min 127 (ls.foldl max l - mxEmax fmt))
    let cs := xs.map (fun x => roundVal r (match x with
      | .fin n m e => .fin n m (e - ex)
      | y => y))
    (packBlock fmt (ex + 127).toNat (cs.map Prod.fst), cs.foldl (fun a c => a ||| c.2) 0)

/-- The attributes of the MX instructions. -/
def attrMx : Attr := { fmts := fmtMx }

/-- mxpack (R126). A DREG group that overlaps the source group is illegal (DESIGN CHOICE, assumption 50). -/
def execMxpack (w : Fld) : State → Host.Outcome State Fault Refusal :=
  vectorWord (.mxpack w) (do
    let s ← getS
    let h := s.hart
    let g := grpHere h
    let src := w.a.toNat % 16
    let sp := mxSpan (vtFmt h.vec.vtype) src g
    let dst : Span := ⟨h.vreg w.d, g⟩
    let from' : Span := ⟨h.vreg w.b, sp⟩
    let c ← issue { attrMx with blocks := true } w (sp ≤ 8 && destOk h dst && from'.ok && destApart h dst from')
    let sw := sewOf src
    elementWise (.mxpack w) (c.inListed (some dst.first)) (c.putBlock dst.first) c.blockCount (fun b =>
      withEvents h (quantBlock (c.rounding c.fmt) c.fmt ((List.range 32).map (fun k =>
        decodeFloat (floatFmt src) (h.elem from'.first sw (32 * b + k)))))))

/-- mxunpack (R127). A DREG group that overlaps the source group is illegal (DESIGN CHOICE, assumption 50). -/
def execMxunpack (w : Fld) : State → Host.Outcome State Fault Refusal :=
  vectorWord (.mxunpack w) (do
    let s ← getS
    let h := s.hart
    let g := grpHere h
    let fo := w.a.toNat % 16
    let sp := mxSpan (vtFmt h.vec.vtype) fo g
    let dst : Span := ⟨h.vreg w.d, sp⟩
    let from' : Span := ⟨h.vreg w.b, g⟩
    let c ← issue attrMx w (sp ≤ 8 && destOk h dst && from'.ok && destApart h dst from')
    let n := sewOf fo
    elementWise (.mxunpack w) c (c.putVec dst.first n) (8192 * sp / n) (fun e =>
      withEvents h (roundVal (c.rounding fo) (h.mxElem c.fmt from'.first e))))

/-- The sum of the products of two blocks and an FP32 value (R128): a decoded NaN raises no flag of its own; a 0 × ∞
product, infinities of both signs among the products, and a signalling NaN of the old value raise NV. -/
def dotBlock (r : Rounding) (pairs : List (FVal × FVal)) (old : FVal) : Nat × Ev :=
  let ps := pairs.map (fun p => if p.1.isNan || p.2.isNan then .nan false else mulExact p.1 p.2)
  if ps.any FVal.isNan then
    (fp32.nanCode, evNV.when (ps.any FVal.isSig || (ps.contains (.inf false) && ps.contains (.inf true)) || old.isSig))
  else match sumProducts ps with
    | .nan s => (fp32.nanCode, evNV.when (s || old.isSig))
    | x => addVal r old x

/-- mxdot (R128): one FP32 result for each block, whose predicate bit is the bit of the block's number. -/
def execMxdot (w : Fld) : State → Host.Outcome State Fault Refusal :=
  vectorWord (.mxdot w) (do
    let s ← getS
    let h := s.hart
    let g := grpHere h
    let nd := max 1 (ceilDiv (vlmax h.vec.vtype) 8192)
    let dst : Span := ⟨h.vreg w.d, nd⟩
    let a : Span := ⟨h.vreg w.b, g⟩
    let b : Span := ⟨h.vreg w.a, g⟩
    let c ← issue { attrMx with blocks := true } w
      (destOk h dst && a.ok && b.ok && destApart h dst a && destApart h dst b)
    let r := c.rounding 5
    elementWise (.mxdot w) { c.inListed none with sunit := 1 } (c.putVec dst.first 32) (256 * nd) (fun k =>
      withEvents h (dotBlock r ((List.range 32).map (fun j =>
        (h.mxElem c.fmt a.first (32 * k + j), h.mxElem c.fmt b.first (32 * k + j))))
        (decodeFloat fp32 (h.elem dst.first 32 k)))))

/-! ## Planar operands (R42, R129) -/

/-- Writing element `e` of a planar operand of `n` planes. -/
def Hart.setPlanar (r e x : Nat) : Nat → Hart → Hart
  | 0, h => h
  | n + 1, h =>
    let h := Hart.setPlanar r e x n h
    let i := (r + n) % 32
    let p := setBit (h.vec.v[i]'(Nat.mod_lt _ (by decide))) e (x / 2 ^ n % 2 = 1)
    { h with vec := { h.vec with v := h.vec.v.set i p (Nat.mod_lt _ (by decide)) } }

/-- Writing element `e` of a planar destination and of DREG (R129). -/
def VCtx.putPlanar (c : VCtx) (d n : Nat) : PutFn := fun e x h =>
  let h := Hart.setPlanar d e x n h
  match c.dreg with
  | some r => Hart.setPlanar r e x n h
  | none => h

/-- A planar or ordinary run of registers ends by v31 (R42, R133). -/
def Span.fits (g : Span) : Bool := g.first + g.size ≤ 32

/-- Two groups overlap without coinciding exactly. -/
def Span.clashes (a b : Span) : Bool := a.meets b && a != b

/-- The destination and DREG of a planar word fit, and DREG coincides with the destination or is apart (R129). -/
def planarDest (h : Hart) (d : Span) : Bool :=
  d.fits && (match h.dregOf with
    | none => true
    | some r => (Span.mk r d.size).fits && !((Span.mk r d.size).clashes d))

/-- The destination and DREG against a source: apart, or where `exact` allows it the same registers (R129). -/
def planarApart (h : Hart) (exact : Bool) (d src : Span) : Bool :=
  let okay (x : Span) : Bool := if exact then !(x.clashes src) else !(x.meets src)
  okay d && (match h.dregOf with
    | none => true
    | some r => okay ⟨r, d.size⟩)

/-- The attributes of the planar words: they never stop part-way (R129). -/
def attrPlanar : Attr := { fmts := fmtPlanar }

/-- The second source of a planar word: vs1, or the low bits of the scalar (R129). -/
def planarB (s : State) (w : Fld) (n e : Nat) : Nat :=
  if w.f = 0 then s.hart.planar (s.hart.vreg w.a) e n else scalarOperand s false w.a n

/-- pladd, plsub and plmul: `op` on unsigned elements, modulo 2^w (R130). -/
def planarWord (i : Instr) (w : Fld) (op : Nat → Nat → Nat → Nat) : State → Host.Outcome State Fault Refusal :=
  vectorWord i (do
    let s ← getS
    let h := s.hart
    let n := planes h
    let d : Span := ⟨h.vreg w.d, n⟩
    let a : Span := ⟨h.vreg w.b, n⟩
    let b : Span := ⟨h.vreg w.a, n⟩
    let c ← issue attrPlanar w (planarDest h d && a.fits && planarApart h true d a
      && (w.f != 0 || (b.fits && planarApart h true d b)))
    crossElement i c (c.putPlanar d.first n) 8192 (fun e => op n (h.planar a.first e n) (planarB s w n e) % 2 ^ n))

/-- pladd (R130). -/
def execPladd (w : Fld) : State → Host.Outcome State Fault Refusal := planarWord (.pladd w) w (fun _ a b => a + b)
/-- plsub (R130). -/
def execPlsub (w : Fld) : State → Host.Outcome State Fault Refusal :=
  planarWord (.plsub w) w (fun n a b => a + 2 ^ n - b)
/-- plmul (R130). -/
def execPlmul (w : Fld) : State → Host.Outcome State Fault Refusal := planarWord (.plmul w) w (fun _ a b => a * b)

/-- The sum of products of the active elements from `e` on, `n` of them. -/
def dotFold (c : VCtx) (prod : Nat → Int) : Nat → Nat → Int → Int
  | 0, _, acc => acc
  | n + 1, e, acc => dotFold c prod n (e + 1) (if c.sel e then acc + prod e else acc)

/-- pldot (R131). -/
def execPldot (w : Fld) : State → Host.Outcome State Fault Refusal :=
  vectorWord (.pldot w) (do
    let s ← getS
    let h := s.hart
    let n := planes h
    let d : Span := ⟨h.vreg w.d, 1⟩
    let a : Span := ⟨h.vreg w.b, n⟩
    let b : Span := ⟨h.vreg w.a, n⟩
    let c ← issue attrPlanar w (planarDest h d && a.fits && b.fits && planarApart h false d a
      && planarApart h false d b)
    let acc := dotFold c (fun e => (h.planar a.first e n : Int) * signedOf n (h.planar b.first e n))
      (c.vl - c.velem) c.velem (signedOf 64 (h.elem d.first 64 0))
    let put := c.putVec d.first 64
    let h' := put 0 (wrapTo 64 acc) h
    setS (s.setHart (if c.tail then zeroFrom put 127 1 h' else h'))
    retireVec (.pldot w) c.takes)

/-- plcmp (R132): the mask register is the low three bits of vd, the condition its high two. -/
def execPlcmp (w : Fld) : State → Host.Outcome State Fault Refusal :=
  vectorWord (.plcmp w) (do
    let s ← getS
    let h := s.hart
    let n := planes h
    let a : Span := ⟨h.vreg w.b, n⟩
    let b : Span := ⟨h.vreg w.a, n⟩
    let c ← issue { attrPlanar with dcv := false } w (a.fits && (w.f != 0 || b.fits))
    crossElement (.plcmp w) c (putMask (w.d.toNat % 8)) 8192 (fun e =>
      let x := h.planar a.first e n
      let y := planarB s w n e
      (match w.d.toNat / 8 with
        | 0 => x == y
        | 1 => x != y
        | 2 => signedOf n x < signedOf n y
        | _ => x < y : Bool).toNat))

/-- plconv (R133): between planar elements and ordinary integers. A DREG group that shares a register with the source is
illegal, one that is the source included (DESIGN CHOICE, assumption 52). -/
def execPlconv (w : Fld) : State → Host.Outcome State Fault Refusal :=
  vectorWord (.plconv w) (do
    let s ← getS
    let h := s.hart
    let p := planes h
    let n := 8 * 2 ^ (w.a.toNat % 4)
    let out := bitOf w.a 2
    let nreg := max 1 (ceilDiv (h.vec.vl.toNat * n) 8192)
    let d : Span := ⟨h.vreg w.d, if out then nreg else p⟩
    let a : Span := ⟨h.vreg w.b, if out then p else nreg⟩
    let c ← issue attrPlanar w (nreg ≤ 16 && planarDest h d && a.fits && planarApart h false d a)
    if out then
      crossElement (.plconv w) c (c.putVec d.first n) (nreg * 8192 / n) (fun e =>
        let x := h.planar a.first e p
        if bitOf w.a 3 then wrapTo n (signedOf p x) else x % 2 ^ n)
    else
      crossElement (.plconv w) c (c.putPlanar d.first p) 8192 (fun e => h.elem a.first n e % 2 ^ min n p))

end Sys2Proof.Machine
end

