-- ==== Sys2Proof/Machine/VecMem.lean ====
section
/-! DEFINITION. Major M: vector loads and stores (spec/08, R170-R176; spec/06, R138, R139), stream loads (R187) and
vwait (R198). -/

namespace Sys2Proof.Machine

/-! ## The parts of an element's access -/

/-- One access of an element: virtual address, bytes, alignment. -/
structure MPart where
  va : Nat
  n : Nat
  al : Nat
  deriving DecidableEq, Repr

/-- What stops one part (R171): misalignment, the virtual range, translation and place, an uncorrectable error, a lease,
or a module that cannot be reached. -/
def partFault (s : State) (e : Env) (k : Acc) (p : MPart) : Option Stop :=
  if p.va % p.al ≠ 0 then some (.trap k.misaligned (bv 64 p.va))
  else if 2 ^ 47 ≤ p.va then some (.trap k.page (bv 64 p.va))
  else match resolve s e k p.va p.n with
    | .error x => some x
    | .ok (.dev _, _) => some (.trap k.access (bv 64 p.va))
    | .ok (.far a, _) =>
      if k = .store && !(deliverable s (a / 2 ^ 40)) then some (.trap 7 (bv 64 p.va)) else none
    | .ok (.mem a, t) =>
      if k = .store then
        match t.coh.poison.find? (fun q => touches a p.n q && !(a ≤ q && q + 8 ≤ a + p.n)) with
        | some q => some (.uncorrectable 7 (bv 64 p.va) (unitOf t q) q)
        | none => if !(byMessage t e a) && leaseBlocks t e.writer a p.n then some .stall else none
      else (poisoned t a p.n).map (fun q => .uncorrectable 5 (bv 64 p.va) (unitOf t q) q)

/-- The order of causes within one element (R136): misaligned, page fault, access fault, and last a wait. -/
def stopRank : Stop → Nat
  | .trap c _ => if c = 4 || c = 6 then 0 else if c = 13 || c = 15 then 1 else 2
  | .stall => 3
  | .walk _ => 3
  | _ => 2

/-- The stop of least rank, the first among equals. -/
def leastStop : List Stop → Option Stop
  | [] => none
  | x :: r => match leastStop r with
    | some y => if stopRank y < stopRank x then some y else some x
    | none => some x

/-- What stops an element with these parts. -/
def elemFault (s : State) (e : Env) (k : Acc) (ps : List MPart) : Option Stop :=
  leastStop (ps.filterMap (partFault s e k))

/-- Loading parts, packed from the least significant bits up. -/
def readParts (e : Env) : List MPart → Act Nat
  | [] => fun s => .ok 0 s
  | p :: r => do
    let x ← loadVa e .load p.va p.n
    let y ← readParts e r
    return x + y * 2 ^ (8 * p.n)

/-- Loading an element: a fault of any part comes before the first access. -/
def readElem (e : Env) (ps : List MPart) : Act Nat := fun s =>
  match elemFault s e .load ps with
  | some x => stopAccess e x s
  | none => readParts e ps s

/-! ## The loop of loads (R139, R142) -/

/-- Loading the elements from `e` on, `n` of them: it ends at a boundary, or at an element with its stop and whether no
active element came before it. -/
def loadLoop (c : VCtx) (put : PutFn) (rd : Nat → Act Nat) :
    Nat → Nat → Bool → State → State × Option (Nat × Option Stop × Bool)
  | 0, _, _, s => (s, none)
  | n + 1, e, first, s =>
    if c.bound ≤ e then (s, some (e, none, first))
    else if c.sel e then
      match rd e s with
      | .ok x s => loadLoop c put rd n (e + 1) false (s.setHart (put e x s.hart))
      | .error x s => (s, some (e, some x, first))
    else loadLoop c put rd n (e + 1) first (if c.pol then s.setHart (put e 0 s.hart) else s)

/-- VELEM of the current hart. -/
def State.setVelem (s : State) (e : Nat) : State :=
  s.setHart { s.hart with vec := { s.hart.vec with velem := bv 14 e } }
/-- VL of the current hart. -/
def State.setVl (s : State) (n : Nat) : State :=
  s.setHart { s.hart with vec := { s.hart.vec with vl := bv 14 n } }

/-- A vector load: fault-only-first (R139); in a repetition body a fault at any element traps (R88); a load that waits
has written nothing. -/
def loadWord (i : Instr) (c : VCtx) (put : PutFn) (count : Nat) (rd : Nat → Act Nat) : Act Unit := fun s =>
  match loadLoop c put rd (c.vl - c.velem) c.velem true s with
  | (t, none) => retireVec i c.takes (t.setHart (c.tailZero put count t.hart))
  | (t, some (e, none, _)) => .error .stall (t.setVelem (e * c.unit))
  | (t, some (_, some .stall, _)) => .error .stall (t.setHart s.hart)
  | (t, some (e, some x, first)) =>
    if first || isRep s.hart.pc then .error x (t.setVelem (e * c.unit))
    else
      let t := t.setHart (VCtx.tailZero { c with vl := e } put count t.hart)
      retireVec i c.takes (t.setVl (e * c.unit))

/-! ## The loop of stores (R138, R173) -/

/-- The active elements from `e` on, `n` of them, up to the first that stops. -/
def storeScan (s : State) (c : VCtx) (env : Env) (ps : Nat → List MPart) :
    Nat → Nat → List Nat × Option (Nat × Option Stop)
  | 0, _ => ([], none)
  | n + 1, e =>
    if c.bound ≤ e then ([], some (e, none))
    else if c.sel e then
      match elemFault s env .store (ps e) with
      | some x => ([], some (e, some x))
      | none => let r := storeScan s c env ps n (e + 1); (e :: r.1, r.2)
    else storeScan s c env ps n (e + 1)

/-- One store of a word: a part of an element, and the bytes for it. -/
structure PartStore where
  part : MPart
  data : List Byte
  deriving DecidableEq, Repr

/-- The stores of an element's parts, from the least significant bits of its value up. -/
def partStores : List MPart → Nat → List PartStore
  | [], _ => []
  | p :: r, x => { part := p, data := toBytes p.n x } :: partStores r (x / 2 ^ (8 * p.n))

/-- The location that a store names (R173): two virtual addresses of one physical address name one location. -/
def PartStore.loc (s : State) (e : Env) (p : PartStore) : Option Loc :=
  (resolve s e .store p.part.va p.part.n).toOption.map Prod.fst

/-- Of the stores that name one location the last is performed, the others never are (R173). -/
def lastStores (s : State) (e : Env) : List PartStore → List PartStore
  | [] => []
  | p :: r => if r.any (fun q => q.loc s e == p.loc s e) then lastStores s e r else p :: lastStores s e r

/-- Performing stores in order. -/
def performStores (e : Env) : List PartStore → Act Unit := actEach (fun p => storeVa e p.part.va p.data)

/-- A vector store: the elements below the stop are performed, of those that name one location one, as `pick` says
(R173). -/
def storeWord (i : Instr) (c : VCtx) (env : Env) (ps : Nat → List MPart) (val : Nat → Nat)
    (pick : State → Env → List PartStore → List PartStore) : Act Unit := fun s =>
  let (es, stopAt) := storeScan s c env ps (c.vl - c.velem) c.velem
  let perform := performStores env (pick s env (es.flatMap (fun e => partStores (ps e) (val e))))
  if barred s env.who true then .error .stall s
  else match stopAt with
    | some (_, some .stall) => .error .stall s
    | some (_, some (.walk a)) => stopAccess env (.walk a) s
    | none => (do perform; retireVec i c.takes) s
    | some (e, x) => match perform s with
      | .ok _ t => .error (x.getD .stall) (t.setVelem (e * c.unit))
      | .error y t => .error y t

/-! ## Addresses (R88, R172) -/

/-- The low 64 bits. -/
def wrap64 (x : Int) : Nat := wrapTo 64 x

/-- The passes' advance of an M word's address: pass × step (R88). -/
def advance (h : Hart) (step : Int) : Int := h.pass * step

/-- The part of an element of width n bits at an address. -/
def elemPart (sew va : Nat) : MPart := ⟨va, sew / 8, sew / 8⟩

/-- The environment of the current hart's data accesses. -/
def dataEnv (s : State) : Env := envOf s s.cur false

/-- The environment of the accesses of the current hart's vector agent (R284). -/
def vecEnv (s : State) : Env := { dataEnv s with vec := true }

/-! ## The spans a vector load asks for (R278) -/

/-- The physical address and length of a part in the package's own memory. -/
def partPlace (s : State) (e : Env) (p : MPart) : Option (Nat × Nat) :=
  match resolve s e .load p.va p.n with
  | .ok (.mem a, _) => if isOwnMem s a then some (a, p.n) else none
  | _ => none

/-- The request of an element group for one region it touches: the words from the lowest to the highest. -/
def askRegion (e : Env) (l : List (Nat × Nat)) (s : State) (r : Nat) : State :=
  let here := (l.filter (fun p => regionNo p.1 == r)).flatMap (fun p => wordsOf p.1 p.2)
  match here with
  | [] => s
  | w :: ws =>
    let lo := ws.foldl min w
    let hi := ws.foldl max w
    if here.all (fun w => (copyOf s e.agent false w).isSome) || ownPending s e lo (hi + 8 - lo) then s
    else ask s e false lo (hi + 8 - lo)

/-- The requests of an element group with these parts. -/
def askGroup (e : Env) (s : State) (ps : List MPart) : State :=
  let l := ps.filterMap (partPlace s e)
  ((l.map (fun p => regionNo p.1)).eraseDups).foldl (askRegion e l) s

/-- The active elements of group `g` of `per` elements. -/
def VCtx.group (c : VCtx) (per g : Nat) : List Nat :=
  ((List.range per).map (fun k => g * per + k)).filter (fun e => c.velem ≤ e && e < min c.vl c.bound && c.sel e)

/-- A vector load asks for the spans of its element groups of `per` elements while messages are visible. -/
def askGroups (e : Env) (c : VCtx) (per : Nat) (ps : Nat → List MPart) : Act Unit := fun s =>
  .ok () (if s.stepwise then
    (List.range (ceilDiv c.vl per)).foldl (fun s g => askGroup e s ((c.group per g).flatMap ps)) s else s)

/-- A vector load of elements with these parts. -/
def loadParts (i : Instr) (c : VCtx) (per : Nat) (put : PutFn) (count : Nat) (ps : Nat → List MPart) : Act Unit := do
  let s ← getS
  pastBars (vecEnv s)
  askGroups (vecEnv s) c per ps
  loadWord i c put count (fun e => readElem (vecEnv s) (ps e))

/-- The elements of an element group (R159). -/
def VCtx.per (c : VCtx) : Nat := 256 / c.sew

/-- The address of element `e` at a stride. -/
def strideAddr (s : State) (w : Fld) (c : VCtx) (stride : Int) (e : Nat) : Nat :=
  wrap64 ((s.hart.getX w.a).toNat + advance s.hart (c.vl * stride) + e * stride)

/-- The registers of the index group (R172). -/
def indexSpan (h : Hart) (w : Fld) : Span := ⟨h.vreg w.b, max 1 (grpHere h * indexBits w / sewHere h)⟩

/-- The address of element `e` of an indexed access. -/
def indexAddr (s : State) (w : Fld) (e : Nat) : Nat :=
  let x := s.hart.elem (s.hart.vreg w.b) (indexBits w) e
  let ix : Int := if w.f = 2 then signedOf 32 x else x
  wrap64 ((s.hart.getX w.a).toNat + ix)

/-- The parts of MX block `b` (R175): the element bytes, whose array is aligned to 8 bytes, and the scale byte. -/
def blockParts (s : State) (w : Fld) (c : VCtx) (b : Nat) : List MPart :=
  let h := s.hart
  let n := mxBlock c.fmt
  let blocks := ceilDiv c.vl 32
  let bits := c.vl * mxBits c.fmt
  let base := (h.getX w.a).toNat + advance h (ceilDiv bits 8) + b * n
  let scale := (h.getX w.b).toNat + advance h blocks + b
  (List.range n).map (fun k => ⟨wrap64 (base + k), 1, if k = 0 then 8 else 1⟩) ++ [⟨wrap64 scale, 1, 1⟩]

/-! ## Loads -/

/-- The attributes of vld and vst. -/
def attrBlocksMem : Attr := { fmts := fmtMove, blocks := true }
/-- The attributes of the other element accesses. -/
def attrMem : Attr := { fmts := fmtInt }

/-- vld (R172, R175). -/
def execVld (w : Fld) : State → Host.Outcome State Fault Refusal :=
  vectorWord (.vld w) (do
    let s ← getS
    let h := s.hart
    let c ← issue attrBlocksMem w (destOk h ⟨h.vreg w.d, grpHere h⟩)
    if isMx c.fmt then
      loadParts (.vld w) (c.inBlocks (some (h.vreg w.d))) 1 (c.putBlock (h.vreg w.d)) c.blockCount (blockParts s w c)
    else
      loadParts (.vld w) c c.per (c.putVec (h.vreg w.d) c.sew) c.count
        (fun e => [elemPart c.sew (strideAddr s w c (c.sew / 8) e)]))

/-- vlds (R172). -/
def execVlds (w : Fld) : State → Host.Outcome State Fault Refusal :=
  vectorWord (.vlds w) (do
    let s ← getS
    let h := s.hart
    let c ← issue attrMem w (destOk h ⟨h.vreg w.d, grpHere h⟩)
    loadParts (.vlds w) c c.per (c.putVec (h.vreg w.d) c.sew) c.count
      (fun e => [elemPart c.sew (strideAddr s w c (signedOf 64 (h.getX w.b).toNat) e)]))

/-- vldx (R172): the index group shares nothing with the destination or DREG. -/
def execVldx (w : Fld) : State → Host.Outcome State Fault Refusal :=
  vectorWord (.vldx w) (do
    let s ← getS
    let h := s.hart
    let d : Span := ⟨h.vreg w.d, grpHere h⟩
    let x := indexSpan h w
    let c ← issue attrMem w (destOk h d && x.size ≤ 8 && x.ok && destApart h d x)
    loadParts (.vldx w) c c.per (c.putVec d.first c.sew) c.count (fun e => [elemPart c.sew (indexAddr s w e)]))

/-- The registers of a segment access: the field groups stand one after the other and end by v31 (R172). -/
def segSpan (h : Hart) (w : Fld) : Span := ⟨h.vreg w.d, segFields w * grpHere h⟩

/-- The field groups of a segment access are legal. -/
def segOk (h : Hart) (w : Fld) : Bool :=
  (segSpan h w).size ≤ 8 && (segSpan h w).fits && (h.vreg w.d) % grpHere h == 0

/-- The parts of segment `e`. -/
def segParts (s : State) (w : Fld) (c : VCtx) (e : Nat) : List MPart :=
  let n := c.sew / 8
  let f := segFields w
  let base := (s.hart.getX w.a).toNat + advance s.hart (c.vl * f * n)
  (List.range f).map (fun (j : Nat) => elemPart c.sew (wrap64 (base + (e * f + j) * n)))

/-- Writing field groups `j`, `j + 1`, … of element `e`; with `dreg`, DREG + j × g takes the same values. -/
def putFields (d g sew : Nat) (dreg : Option Nat) : Nat → Nat → Nat → Nat → Hart → Hart
  | 0, _, _, _, h => h
  | n + 1, j, e, x, h =>
    let h := h.setElem (d + j * g) sew e (x % 2 ^ sew)
    let h := match dreg with
      | some r => h.setElem (r + j * g) sew e (x % 2 ^ sew)
      | none => h
    putFields d g sew dreg n (j + 1) e (x / 2 ^ sew) h

/-- vldseg (R172): DREG takes field 0 and is apart from every field group. -/
def execVldseg (w : Fld) : State → Host.Outcome State Fault Refusal :=
  vectorWord (.vldseg w) (do
    let s ← getS
    let h := s.hart
    let g := grpHere h
    let dregOk := match h.dregOf with
      | none => true
      | some r => (Span.mk r g).ok && !(Span.meets ⟨r, g⟩ (segSpan h w))
    let c ← issue attrMem w (segOk h w && dregOk)
    let put : PutFn := fun e x h =>
      let h := putFields (h.vreg w.d) g c.sew none (segFields w) 0 e x h
      match c.dreg with
      | some r => h.setElem r c.sew e (x % 2 ^ c.sew)
      | none => h
    loadParts (.vldseg w) c c.per put c.count (segParts s w c))

/-- The attributes of the mask transfers: no prefix. -/
def attrMaskMem : Attr := { takes := false, dcv := false, msk := .unused, fmts := fun _ => true }

/-- The context counted in bytes of a mask (R174). -/
def VCtx.inBytes (c : VCtx) : VCtx :=
  { c with unit := 8, vl := ceilDiv c.vl 8, velem := c.velem / 8
           bound := if c.vl ≤ c.bound then 16384 else c.bound / 8 }

/-- Writing byte `i` of a mask register of vector length `vl`: bits at and above it follow TAIL. -/
def putMaskByte (d vl : Nat) (tail : Bool) : PutFn := fun i x h =>
  (List.range 8).foldl (fun (h : Hart) b =>
    if 8 * i + b < vl then h.setMaskBit d (8 * i + b) (x / 2 ^ b % 2 = 1)
    else if tail then h.setMaskBit d (8 * i + b) false else h) h

/-- The part of mask byte `i`. -/
def maskPart (s : State) (w : Fld) (c : VCtx) (i : Nat) : MPart :=
  ⟨wrap64 ((s.hart.getX w.a).toNat + advance s.hart (ceilDiv c.vl 8) + i), 1, 1⟩

/-- vldm (R174). -/
def execVldm (w : Fld) : State → Host.Outcome State Fault Refusal :=
  vectorWord (.vldm w) (do
    let s ← getS
    let c ← issue attrMaskMem w true
    loadParts (.vldm w) c.inBytes 32 (putMaskByte w.d.toNat c.vl c.tail) 1024 (fun i => [maskPart s w c i]))

/-! ## Stores -/

/-- vst (R172, R175). -/
def execVst (w : Fld) : State → Host.Outcome State Fault Refusal :=
  vectorWord (.vst w) (do
    let s ← getS
    let h := s.hart
    let c ← issue { attrBlocksMem with dcv := false } w (Span.mk (h.vreg w.d) (grpHere h)).ok
    if isMx c.fmt then
      storeWord (.vst w) (c.inBlocks none) (vecEnv s) (blockParts s w c) (h.mxBlockOf c.fmt (h.vreg w.d)) lastStores
    else
      storeWord (.vst w) c (vecEnv s) (fun e => [elemPart c.sew (strideAddr s w c (c.sew / 8) e)])
        (h.elem (h.vreg w.d) c.sew) lastStores)

/-- vsts (R172). -/
def execVsts (w : Fld) : State → Host.Outcome State Fault Refusal :=
  vectorWord (.vsts w) (do
    let s ← getS
    let h := s.hart
    let c ← issue { attrMem with dcv := false } w (Span.mk (h.vreg w.d) (grpHere h)).ok
    storeWord (.vsts w) c (vecEnv s)
      (fun e => [elemPart c.sew (strideAddr s w c (signedOf 64 (h.getX w.b).toNat) e)])
      (h.elem (h.vreg w.d) c.sew) lastStores)

/-- An indexed store. -/
def indexedStore (i : Instr) (w : Fld) (pick : State → Env → List PartStore → List PartStore) : State →
    Host.Outcome State Fault Refusal :=
  vectorWord i (do
    let s ← getS
    let h := s.hart
    let x := indexSpan h w
    let c ← issue { attrMem with dcv := false } w
      ((Span.mk (h.vreg w.d) (grpHere h)).ok && x.size ≤ 8 && x.ok)
    setS s.useFresh
    storeWord i c (vecEnv s) (fun e => [elemPart c.sew (indexAddr s w e)]) (h.elem (h.vreg w.d) c.sew) pick)

/-- vstx (R173): of duplicates the highest-numbered element's value remains. -/
def execVstx (w : Fld) : State → Host.Outcome State Fault Refusal :=
  indexedStore (.vstx w) w lastStores

/-- The number of a location. -/
def locNo : Option Loc → Nat
  | some (.mem a) => a
  | some (.dev a) => a
  | some (.far a) => a
  | none => 0

/-- For each location the stores name, one of them, chosen freely (R173). -/
def anyStores (s : State) (e : Env) (l : List PartStore) : List PartStore :=
  let at' (p : PartStore) : List PartStore := l.filter (fun q => q.loc s e == p.loc s e)
  ((l.map (fun p => p.loc s e)).eraseDups).filterMap (fun k =>
    match l.filter (fun q => q.loc s e == k) with
    | [] => none
    | p :: _ => (at' p)[Config.duplicate s.fresh (locNo k) % max 1 (at' p).length]?)

/-- vstxa (R173). -/
def execVstxa (w : Fld) : State → Host.Outcome State Fault Refusal :=
  indexedStore (.vstxa w) w anyStores

/-- The fields of segment `e`, field 0 lowest. -/
def segValue (h : Hart) (w : Fld) (sew e : Nat) : Nat → Nat → Nat
  | 0, _ => 0
  | n + 1, j => h.elem (h.vreg w.d + j * grpHere h) sew e + segValue h w sew e n (j + 1) * 2 ^ sew

/-- vstseg (R172). -/
def execVstseg (w : Fld) : State → Host.Outcome State Fault Refusal :=
  vectorWord (.vstseg w) (do
    let s ← getS
    let h := s.hart
    let c ← issue { attrMem with dcv := false } w (segOk h w)
    storeWord (.vstseg w) c (vecEnv s) (segParts s w c) (fun e => segValue h w c.sew e (segFields w) 0) lastStores)

/-- vstm (R174): bits at and above VL are stored as zero. -/
def execVstm (w : Fld) : State → Host.Outcome State Fault Refusal :=
  vectorWord (.vstm w) (do
    let s ← getS
    let m := s.hart.mask w.d.toNat
    let c ← issue attrMaskMem w true
    storeWord (.vstm w) c.inBytes (vecEnv s) (fun i => [maskPart s w c i])
      (fun i => fieldOf m (8 * i) 8 % 2 ^ min 8 (c.vl - 8 * i)) lastStores)

/-! ## Streams: sld (R187) -/

/-- The stream open in slot `q`. -/
def Hart.stream (h : Hart) (q : Nat) : Option Stream := h.run.streams[q % 4]'(Nat.mod_lt _ (by decide))

/-- Replacing the stream of slot `q`. -/
def Hart.setStream (h : Hart) (q : Nat) (st : Option Stream) : Hart :=
  { h with run := { h.run with streams := h.run.streams.set (q % 4) st (Nat.mod_lt _ (by decide)) } }

/-- The element format of a stream. -/
def Stream.fmt (st : Stream) : Nat := fieldOf st.word0 0 4
/-- The grouping of a stream. -/
def Stream.grp (st : Stream) : Nat := 2 ^ fieldOf st.word0 4 2
/-- The parts of a stream. -/
def Stream.parts (st : Stream) : Nat := fieldOf st.word0 6 2
/-- The strips held for each part. -/
def Stream.depth (st : Stream) : Nat := 2 ^ (fieldOf st.word0 10 2 + 1)
/-- The elements of a strip. -/
def Stream.strip (st : Stream) : Nat := 8192 * st.grp / sewOf st.fmt
/-- The bytes of a strip (R185). -/
def Stream.stripBytes (st : Stream) : Nat := 1024 * st.grp
/-- Every tuple has been fetched or folded. -/
def Stream.complete (st : Stream) : Bool := st.avl ≤ st.fetched

/-- The TCM offset of part `k` of tuple `t` in the strip buffer (R186; the order of parts and strips is the model's,
assumption 17). -/
def Stream.slot (st : Stream) (k t : Nat) : Nat :=
  fieldOf st.word0 20 10 * 256 + (k * st.depth + t / st.strip % st.depth) * st.stripBytes
    + t % st.strip * (sewOf st.fmt / 8)

/-- The address of part `k` of tuple `t` (R186). -/
def Stream.addr (st : Stream) (k t : Nat) : Nat :=
  wrap64 (((st.base[k]?).getD 0).toNat + t * signedOf 64 ((st.stride[k]?).getD 0).toNat)

/-- The parts of tuple `t` in the strip buffer, part 0 lowest. -/
def readTuple (s : State) (st : Stream) (t : Nat) : Act Nat :=
  (List.range st.parts).foldr (fun k r => do
    let a := tcmAlias (coreOf s.cur) + st.slot k t
    let x ← loadMem .load (st.addr k t) a (sewOf st.fmt / 8)
    let y ← r
    return x + y * 2 ^ sewOf st.fmt) (return 0)

/-- The format fault of a stream word; a closed slot names no record, so its address is a free value (R145). -/
def streamFault (s : State) (st : Option Stream) : Stop :=
  .format 7 (match st with
    | some st => st.desc
    | none => bv 64 (Config.freeNat s.fresh))

/-- The vector length sld works with, or what stops it (R187, R190): `none` waits. -/
def sldLength (h : Hart) (st : Stream) : Except (Hart × Stop) Nat :=
  let a := st.fetched - st.consumed
  let vl := h.vec.vl.toNat
  if isRep h.pc then (if vl ≤ a then .ok vl else if st.flt.isNone then .error (h, .stall) else sldFault h st)
  else if a = 0 then
    if st.complete then .ok 0 else if st.flt.isNone then .error (h, .stall) else sldFault h st
  else if h.vec.velem ≠ 0 && a < vl && !st.complete && st.flt.isNone then .error (h, .stall)
  else .ok (min vl a)
where
  /-- The fault of the next tuple: reported once, and cleared when sld issues again (R190). -/
  sldFault (h : Hart) (st : Stream) : Except (Hart × Stop) Nat :=
    let q := (h.run.streams.toList.findIdx? (fun x => x == some st)).getD 0
    match st.flt with
    | none => .error (h, .stall)
    | some (c, a) =>
      if st.told then .error (h.setStream q (some { st with told := false, flt := none }), .stall)
      else .error (h.setStream q (some { st with told := true }), .trap c a)

/-- sld (R187). -/
def execSld (w : Fld) : State → Host.Outcome State Fault Refusal :=
  vectorWord (.sld w) (do
    let s ← getS
    let h := s.hart
    let q := w.a.toNat % 4
    let g := grpHere h
    let st? := h.stream q
    let nb := match st? with
      | some st => st.parts
      | none => 1
    let d := h.vreg w.d
    let group : Span := ⟨d, nb * g⟩
    let dregOk := match h.dregOf with
      | none => true
      | some r => r % g == 0 && r + nb * g ≤ 32 && (r == d || !(Span.meets ⟨r, nb * g⟩ group))
    let c ← issue { fmts := fun _ => true } w
      (kindOf s.cur == .compute && nb * g ≤ 8 && group.fits && d % g == 0 && dregOk)
    match st? with
    | none => setS s.useFresh; stop (streamFault s none)
    | some st =>
      ensure (st.mode = 0 && st.fmt == c.fmt && st.grp == c.grp) (streamFault s (some st))
      match sldLength h st with
      | .error (h', x) => setS (s.setHart h'); stop x
      | .ok vl =>
        setS (s.setVl vl)
        let c := { c with vl := vl, bound := if c.vl ≤ c.bound then 16384 else c.bound }
        loadWord (.sld w) c (putFields d g c.sew c.dreg nb 0) c.count (fun e =>
          readTuple s st (st.consumed + e))
        onHart (fun h => match h.stream q with
          | some st => h.setStream q (some { st with consumed := st.consumed + h.vec.vl.toNat })
          | none => h))

/-! ## vwait (R196, R198) -/

/-- A counter value satisfies a target (R196). -/
def satisfies (v t : Nat) : Bool := (v + 2 ^ 32 - t % 2 ^ 32) % 2 ^ 32 < 2 ^ 31

/-- The wait in progress at PC of a kind, or a new one. -/
def waitHere (s : State) (kind : WaitKind) (cc : Nat) : Wait :=
  match s.hart.run.wait with
  | some x => if x.kind = kind && x.pc = s.hart.pc then x else { kind := kind, pc := s.hart.pc, ends := s.ccOf s.cur + cc }
  | none => { kind := kind, pc := s.hart.pc, ends := s.ccOf s.cur + cc }

/-- The core clock from which words of another module are sampled again. -/
def Wait.nextSample (t : Wait) (s : State) : Nat := if t.again ≤ s.ccOf s.cur then s.ccOf s.cur + 256 else t.again

/-- The hart goes on waiting. -/
def stallWith (w : Wait) : Act Unit := do
  onHart (fun h => { h with run := { h.run with wait := some w } })
  stop .stall

/-- Sampling the 32-bit word at an address for a wait: its samples in order, and the physical address at which the wait is
registered (R418). The first sample is the word's value; then every committed value is one. A word of another module is
asked for every 256 cc (R283), and gives no sample until its answer is here. -/
def sampleWord (e : Env) (t : Wait) (va : Nat) : Act (List Nat × List Nat) := fun s =>
  match locate e .load va 4 s with
  | .error x s => .error x s
  | .ok (.dev _) s => .error (.trap 5 (bv 64 va)) s
  | .ok (.mem a) s =>
    if t.watch.contains a then .ok ((t.news.filter (fun p => p.1 == a)).map Prod.snd, [a]) s
    else if barred s e.who e.vec || (byMessage s e a && ownPending s e a 4) then .error .stall s
    else match loadMem .load va a 4 s with
      | .ok v s => .ok ([v], [a]) s
      | .error x s => .error x s
  | .ok (.far a) s => match findRemote s e.who 0 1 a 4 with
    | some r =>
      if r.failed then .error (.trap 5 (bv 64 va)) (dropRemote s r.tag)
      else match r.answer with
        | some v => .ok ([v], []) (dropRemote s r.tag)
        | none => .ok ([], []) s
    | none =>
      if !(deliverable s (a / 2 ^ 40)) then .error (.trap 5 (bv 64 va)) s
      else if t.again ≤ s.ccOf e.who then .ok ([], []) (sendRemote s e.part e.who 0 1 0 a 4 []) else .ok ([], []) s

/-- Sampling the words of the active unsatisfied elements from `e` on, `n` of them: the satisfied elements and the physical
addresses watched. -/
def sampleLoop (c : VCtx) (env : Env) (h : Hart) (r target : Nat) (t : Wait) :
    Nat → Nat → VReg × List Nat → Act (VReg × List Nat)
  | 0, _, p => fun s => .ok p s
  | n + 1, e, (sat, l) =>
    if c.sel e && !(sat.getLsbD e) then do
      let (vs, w) ← sampleWord env t (h.elem r 64 e)
      sampleLoop c env h r target t n (e + 1)
        (if vs.any (fun x => satisfies x target) then setBit sat e true else sat, l ++ w)
    else sampleLoop c env h r target t n (e + 1) (sat, l)

/-- The mask of the unsatisfied elements is written and vwait retires. -/
def finishVwait (w : Fld) (c : VCtx) (sat : VReg) : Act Unit :=
  crossElement (.vwait w) c (putMask w.d.toNat) 8192 (fun e => (!(sat.getLsbD e)).toNat)

/-- The checks of vwait at issue. -/
def issueVwait (w : Fld) : Act VCtx := fun s =>
  issue { fmts := fun f => f = 3, dcv := false } w (Span.mk (s.hart.vreg w.b) (grpHere s.hart)).ok s

/-- The first fault among the active elements from `e` on, `n` of them. -/
def vwaitFault (s : State) (c : VCtx) (r : Nat) : Nat → Nat → Option Stop
  | 0, _ => none
  | n + 1, e =>
    match (if c.sel e then elemFault s (vecEnv s) .load [⟨s.hart.elem r 64 e, 4, 4⟩] else none) with
    | some x => some x
    | none => vwaitFault s c r n (e + 1)

/-- vwait (R198): every active element is translated first; it retires when every one is satisfied. -/
def execVwait (w : Fld) : State → Host.Outcome State Fault Refusal :=
  vectorWord (.vwait w) (do
    let s ← getS
    let h := s.hart
    let c ← issueVwait w
    let r := h.vreg w.b
    match vwaitFault s c r (c.vl - c.velem) c.velem with
    | some x => stopAccess (vecEnv s) x
    | none =>
      let t := waitHere s .vwait (2 ^ (4 * w.f.toNat + 8))
      let (sat, l) ← sampleLoop c (vecEnv s) h r (h.getX w.a).toNat t (c.vl - c.velem) c.velem (t.sat, [])
      if (List.range (c.vl - c.velem)).all (fun k => !(c.sel (c.velem + k)) || sat.getLsbD (c.velem + k)) then
        finishVwait w c sat
      else stallWith { t with sat := sat, again := t.nextSample s, watch := l, news := [] })

end Sys2Proof.Machine
end

