-- ==== Sys2Proof/Machine/Order.lean ====
section
/-! DEFINITION. Ordering words (spec/08, R179-R182), stream words (R183-R190), the lease (R192-R194) and swait
(R196, R197). -/

namespace Sys2Proof.Machine

/-! ## S-format words -/

/-- A word that takes no prefix: a pending prefix makes it illegal (R68), as does an agent or mode that may not execute
it. -/
def scalarWord (i : Instr) (legal : State → Bool) (a : Act Unit) (s : State) : Host.Outcome State Fault Refusal :=
  if s.hart.pfxBlocks || !(legal s) then .next (afterStop i .illegal s) else runAct i a s

/-- The word retires with a result. -/
def retireWith (rd : BitVec 5) (v : Word) : Act Unit := onHart (fun h => (h.setX rd v).retire)

/-- Compute harts only. -/
def onCompute (s : State) : Bool := kindOf s.cur = .compute
/-- Compute harts and Milliners. -/
def notSystem (s : State) : Bool := kindOf s.cur ≠ .system
/-- Compute harts and system cores. -/
def notMilliner (s : State) : Bool := !(isMilliner s.cur)

/-! ## Fences (R181, R182) -/

/-- A release of the scalar class at a scope waits (R290): stores of the hart's scalar agent to package memory are not
acknowledged, or at domain scope a store to another module is not (R283). -/
def fenceWaits (s : State) (scope : Nat) : Bool := notPerformed s s.cur scope true false

/-- A release of both classes waits. -/
def bothWait (s : State) (scope : Nat) : Bool := notPerformed s s.cur scope true true

/-- A hart's core drops the words of other modules it holds (R283). -/
def dropRemoteWords (s : State) (h : Nat) : State :=
  if kindOf h = .compute then
    s.setCoreAt (coreOf h) { s.coreAt (coreOf h) with remote := [], texRemote := [] }
  else s

/-- A fence of the current hart over what its accesses of class A (`a1` scalar, `a2` vector) have outstanding holds its
later accesses of class B; a load is performed once its value is bound, so loads are never outstanding (R180, R181). -/
def layFence (scope : Nat) (a1 a2 b1 b2 : Bool) : Act Unit := fun s =>
  .ok () (addBar s s.cur (makeBar s s.cur scope a1 a2 b1 b2))

/-- A directional fence (R181): it retires, and the later accesses of class B wait. At domain scope the core drops its
words of other modules (R283). -/
def fenceWord (i : Instr) (w : SFld) (a1 a2 b1 b2 : Bool) : State → Host.Outcome State Fault Refusal :=
  scalarWord i (fun _ => true) (do
    layFence w.x.toNat a1 a2 b1 b2
    let s ← getS
    setS (if w.x = 5 then dropRemoteWords s s.cur else s)
    onHart Hart.retire)

/-- ord.sv (R181). -/
def execOrdSv (w : SFld) : State → Host.Outcome State Fault Refusal := fenceWord (.ordSv w) w true false false true
/-- ord.vs (R181). -/
def execOrdVs (w : SFld) : State → Host.Outcome State Fault Refusal := fenceWord (.ordVs w) w false true true false
/-- ord.vv (R181). -/
def execOrdVv (w : SFld) : State → Host.Outcome State Fault Refusal := fenceWord (.ordVv w) w false true false true
/-- ord.all (R181). -/
def execOrdAll (w : SFld) : State → Host.Outcome State Fault Refusal := fenceWord (.ordAll w) w true true true true

/-- Every earlier vector entry of a hart has retired and its stores are performed. -/
def vecDrained (s : State) (hart : Nat) : Bool :=
  (s.hartAt hart).run.queue.isEmpty && (outstanding s hart true).isEmpty

/-- vdrain (R182): it waits until every earlier vector entry has retired and its accesses are performed, and orders as
ord.all at hart scope. -/
def execVdrain (w : SFld) : State → Host.Outcome State Fault Refusal :=
  scalarWord (.vdrain w) (fun _ => true) (do
    let s ← getS
    ensure (vecDrained s s.cur) .stall
    layFence 0 true true true true
    onHart Hart.retire)

/-! ## Streams (R183-R190) -/

/-- The stream slot a word names. -/
def slotOf (w : SFld) : Nat := w.x.toNat % 4

/-- The sum of two elements of a stream and its flags: with wrap in an integer format, rounded under the VTYPE in
force at sopen in a floating one (R190). -/
def Stream.plus (st : Stream) (a b : Nat) : Nat × Ev :=
  if st.fmt < 4 then ((a + b) % 2 ^ sewOf st.fmt, 0)
  else addCodes ⟨floatFmt st.fmt, vtRm st.vtype, vtSatf st.vtype, vtFtz st.vtype⟩ a b

/-- The result of a complete fold and its flags (R190). -/
def Stream.result (st : Stream) : Nat × Ev :=
  if st.mode = 1 then (st.acc.toNat, st.flags)
  else
    let leaves := st.leaves.toArray
    canonicalSum st.plus (fun e => (leaves[e]?).map BitVec.toNat) (ceilLog2 st.avl)
      (st.init.toNat % 2 ^ sewOf st.fmt)

/-- The words of a descriptor that sopen refuses, with the mode (R184, R185). -/
def descriptorBad (w0 : Word) (mode : Nat) : Bool :=
  let fmt := fieldOf w0 0 4
  let nb := fieldOf w0 6 2
  let depth := 2 ^ (fieldOf w0 10 2 + 1)
  let bytes := fieldOf w0 20 10 * 256 + nb * depth * (1024 * 2 ^ fieldOf w0 4 2)
  fieldOf w0 30 2 ≠ 0 || fieldOf w0 12 8 ≠ 0 || bitOf w0 9 || fieldOf w0 10 2 = 3 || nb = 0 || 10 ≤ fmt
  || (mode ≠ 0 && (nb ≠ 1 || fmt = 8 || fmt = 9)) || 262144 < bytes

/-- A stream just opened from the words of its descriptor. -/
def openStream (e : Env) (vtype : Word) (word : Nat → Word) (mode : BitVec 2) (avl : Nat) (desc : Word) : Stream :=
  { word0 := word 0, base := #v[word 1, word 3, word 5], stride := #v[word 2, word 4, word 6], init := word 7,
    mode := mode, avl := avl, vtype := vtype, acc := bv 64 ((word 7).toNat % 2 ^ sewOf (fieldOf (word 0) 0 4)),
    desc := desc, priv := e.priv, satp := e.satp, sum := e.sum, mxr := e.mxr }

/-- savail (R189). -/
def execSavail (w : SFld) : State → Host.Outcome State Fault Refusal :=
  scalarWord (.savail w) onCompute (do
    let s ← getS
    retireWith w.rd (match s.hart.stream (slotOf w) with
      | none => 0
      | some st => bv 64 ((if st.mode = 0 then (st.fetched - st.consumed) % 2 ^ 32 else 0)
          + st.flt.isSome.toNat * 2 ^ 62 + st.complete.toNat * 2 ^ 63)))

/-- sres (R189, R190). -/
def execSres (w : SFld) : State → Host.Outcome State Fault Refusal :=
  scalarWord (.sres w) onCompute (do
    let s ← getS
    match s.hart.stream (slotOf w) with
    | none => retireWith w.rd 0
    | some st =>
      if st.mode = 0 then retireWith w.rd (bv 64 (st.avl - st.consumed))
      else if st.complete then
        let (x, ev) := st.result
        onHart (fun h => h.addFlags ev)
        retireWith w.rd (bv 64 x)
      else match st.flt with
        | none => stop .stall
        | some (c, a) =>
          if st.told then
            onHart (fun h => h.setStream (slotOf w) (some { st with told := false, flt := none }))
            stop .stall
          else
            onHart (fun h => h.setStream (slotOf w) (some { st with told := true }))
            stop (.trap c a))

/-- sclose (R189). -/
def execSclose (w : SFld) : State → Host.Outcome State Fault Refusal :=
  scalarWord (.sclose w) onCompute (onHart (fun h => (h.setStream (slotOf w) none).retire))

/-! ## The lease (R192-R194) -/

/-- The live leases of a hart. -/
def Hart.liveLeases (h : Hart) : Nat := (h.run.leases.toList.filter Option.isSome).length

/-- A lease request of a hart is on its way, queued at its home, or granted and on its way back. -/
def leaseAsked (s : State) (hart : Nat) : Bool :=
  s.coh.net.any (fun m => (m.kind = .lreq || m.kind = .lgrant) && m.hart == hart)
  || s.coh.queued.any (fun m => m.kind = .lreq && m.hart == hart)

/-- The lowest free lease slot: fewer than 2 live leases of the hart, and fewer than 4 of a compute hart's core, those that
the core's other harts have asked for included. -/
def freeLeaseSlot (s : State) (who : Nat) : Option Nat :=
  let h := s.hartAt who
  let core := (hartsOfCore (coreOf who)).foldl (fun n k =>
    n + (s.hartAt k).liveLeases + (k != who && leaseAsked s k).toNat) 0
  if kindOf who = .compute && 4 ≤ core then none
  else h.run.leases.toList.findIdx? Option.isNone

/-- A lease runs on its hart from the next core clock for `n`. -/
def Hart.startLease (h : Hart) (slot : Nat) (l : Lease) : Hart :=
  { h with run := { h.run with leases := h.run.leases.set (slot % 2) (some l) (Nat.mod_lt _ (by decide)) } }

/-- The request of a lease word for a span (R193). -/
def leaseRequest (s : State) (base : Word) (a words slot n : Nat) : Msg :=
  let y := agentNo s.cur
  { kind := .lreq, src := y, inc := incOf s y, dst := homeNo s a, hart := s.cur, addr := a, len := 8 * words, slot := slot,
    n := n, base := base }

/-- A lease that is granted at once: the home holds the span for its hart, and it runs. -/
def leaseNow (s : State) (base : Word) (a words slot n : Nat) : State :=
  let l : HomeLease := { hart := s.cur, slot := slot, pa := a, len := 8 * words }
  let s := { s with coh := { s.coh with leases := s.coh.leases ++ [l] } }
  let buf := if isMilliner s.cur then readBytes s.mem (8 * words) a else []
  let r : Lease := { base := base, pa := a, words := words, ends := s.ccOf s.cur + n + 1, buf := buf }
  s.setHart (s.hart.startLease slot r).retire

/-- lease (R192, R193): the span must be package memory that the hart can write. -/
def execLease (w : LeaseFld) : State → Host.Outcome State Fault Refusal :=
  scalarWord (.lease w) notSystem (do
    let s ← getS
    let base := s.hart.getX w.rs1
    let words := w.words.toNat + 1
    let n := w.n.toNat + 1
    ensure (base.toNat % 8 = 0 && base.toNat % 256 + 8 * words ≤ 256) (.trap 6 base)
    match ← locate (dataEnv s) .store base.toNat (8 * words) with
    | .mem a =>
      let s ← getS
      ensure (isOwnMem s a) (.trap 7 base)
      match freeLeaseSlot s s.cur with
      | none => stop .stall
      | some slot =>
        if s.stepwise then
          setS (if leaseAsked s s.cur then s else s.send (leaseRequest s base a words slot n))
          stallWith (waitHere s .other (2 ^ 63))
        else
          ensure (!(leaseConflict s s.cur a (8 * words))) .stall
          setS (leaseNow s base a words slot n)
    | _ => stop (.trap 7 base))

/-- A scalar store of a hart to a span has not been performed at its home yet (R194). -/
def spanUnperformed (s : State) (hart a n : Nat) : Bool :=
  ((s.coh.net ++ s.coh.queued).filter Msg.carries).any (fun m => m.hart == hart && m.slot == 0 && overlap m.addr m.len a n)

/-- unlease (R194): it waits until the hart's scalar stores to the span are performed at the home. -/
def execUnlease (w : SFld) : State → Host.Outcome State Fault Refusal :=
  scalarWord (.unlease w) notSystem (do
    let s ← getS
    let h := s.hart
    let base := h.getX w.rs1
    let mine (l : Option Lease) : Bool := match l with
      | some l => l.base == base
      | none => false
    match h.run.leases.toList.findIdx? mine with
    | some slot =>
      let waits := match h.run.leases[slot % 2]'(Nat.mod_lt _ (by decide)) with
        | some l => spanUnperformed s s.cur l.pa (8 * l.words)
        | none => false
      ensure (!waits) .stall
      setS (endLease s s.cur slot)
      onHart (fun h => { h.retire with dev := { h.dev with held := 1 } })
    | none => onHart (fun h => { h.retire with dev := { h.dev with held := 0 } }))

/-! ## swait (R196, R197) -/

/-- swait: it samples its word, and retires with the first value that satisfies the target. -/
def execSwait (w : SFld) : State → Host.Outcome State Fault Refusal :=
  scalarWord (.swait w) notSystem (do
    let s ← getS
    let h := s.hart
    let a := (h.getX w.rs1).toNat
    ensure (a % 4 = 0) (.trap 4 (bv 64 a))
    let t := waitHere s .swait (2 ^ (2 * w.x.toNat + 8))
    let (vs, l) ← sampleWord (dataEnv s) t a
    match vs.find? (fun x => satisfies x (h.getX w.rs2).toNat) with
    | some x => retireWith w.rd (bv 64 x)
    | none =>
      let last := match vs.getLast? with
        | some x => some (bv 64 x)
        | none => t.last
      stallWith { t with last := last, again := t.nextSample s, watch := l, news := [] })

end Sys2Proof.Machine
end

