-- ==== Sys2Proof/Machine/Window.lean ====
section
/-! DEFINITION. Accumulation windows (spec/10, R207-R216) and the partials of the merge store (R217, R218). -/

namespace Sys2Proof.Machine

/-! ## Combining (R209) -/

/-- The formats of an operation (R209). -/
def windowFmt (op fmt : Nat) : Bool :=
  match op with
  | 1 => 4 ≤ fmt && fmt ≤ 7
  | 6 => fmt = 3
  | 7 => false
  | _ => fmt ≤ 3

/-- The identity of an operation at a format. -/
def identity (op fmt : Nat) : Nat :=
  let n := sewOf fmt
  match op with
  | 0 => 0
  | 1 => (floatFmt fmt).signBit true
  | 2 => 2 ^ (n - 1) - 1
  | 3 => 2 ^ (n - 1)
  | 4 => 2 ^ n - 1
  | 5 => 0
  | _ => 2 ^ n - 1

/-- Combine c with x at one element (R209). -/
def combineElem (op fmt c x : Nat) : Nat :=
  let n := sewOf fmt
  match op with
  | 0 => (c + x) % 2 ^ n
  | 1 => (addCodes (nearestEven (floatFmt fmt)) c x).1
  | 2 => if signedOf n c ≤ signedOf n x then c else x
  | 3 => if signedOf n c ≤ signedOf n x then x else c
  | 4 => c &&& x
  | 5 => c ||| x
  | _ => min c x

/-- An element operation on every element of two 8-byte words. -/
def onElems (n : Nat) (f : Nat → Nat → Nat) (a b : Nat) : Nat :=
  (List.range (64 / n)).foldr (fun k r => f (nbits a (k * n) n) (nbits b (k * n) n) * 2 ^ (k * n) + r) 0

/-- Combine on 8-byte words. -/
def combineWord (op fmt c x : Nat) : Nat := onElems (sewOf fmt) (combineElem op fmt) c x

/-- An 8-byte word of identities. -/
def identityWord (op fmt : Nat) : Nat :=
  (List.range (64 / sewOf fmt)).foldr (fun k r => identity op fmt * 2 ^ (k * sewOf fmt) + r) 0

/-- The canonical tree of R44 over listed leaves with an operation on values: `k` levels. -/
def sparseTree {α : Type} (f : α → α → α) : Nat → List (Nat × α) → Option α
  | _, [] => none
  | 0, p :: _ => some p.2
  | k + 1, l =>
    let lo := sparseTree f k (l.filter (fun p => p.1 < 2 ^ k))
    let hi := sparseTree f k ((l.filter (fun p => 2 ^ k ≤ p.1)).map (fun p => (p.1 - 2 ^ k, p.2)))
    match lo, hi with
    | none, x => x
    | x, none => x
    | some a, some b => some (f a b)

/-! ## Window slots (R207, R208) -/

/-- Window slot `n` of a hart. -/
def Hart.window (h : Hart) (n : Nat) : Option Window := h.run.windows[n % 4]'(Nat.mod_lt _ (by decide))
/-- Replacing a window slot. -/
def Hart.setWindow (h : Hart) (n : Nat) (w : Option Window) : Hart :=
  { h with run := { h.run with windows := h.run.windows.set (n % 4) w (Nat.mod_lt _ (by decide)) } }

/-- The 256-byte units of TCM that a window of SIZE bytes takes (R208). -/
def copyUnits (size : Nat) : Nat := (max 256 (16 * size) + 255) / 256

/-- The lowest offset, in units, at which a window's copies fit into the reservation. -/
def allocate (h : Hart) (size : Nat) : Option Nat :=
  let need := copyUnits size
  let live := h.run.windows.toList.filterMap id
  let free (b : Nat) : Bool := live.all (fun w => w.merging ||
    !(overlap b need w.wbase.toNat (copyUnits w.size)))
  ((List.range (h.ctl.wlen.toNat + 1 - need)).map (fun k => h.ctl.wbase.toNat + k)).find? free
    |>.filter (fun _ => need ≤ h.ctl.wlen.toNat)

/-- The physical address of word `i` of lane `l` of a window's copies. -/
def laneAddr (who wbase i l : Nat) : Nat := tcmAlias (coreOf who) + wbase * 256 + (16 * i + l) * 8

/-- The bytes of the target on its first page. -/
def firstPart (target size : Nat) : Nat := min size (16384 - target % 16384)

/-- The physical address of target byte `k` (R210). -/
def targetAddr (target pa0 pa1 k : Nat) : Nat :=
  if k < firstPart target 16384 then pa0 + k else pa1 + (k - firstPart target 16384)

/-- The attributes of the window words that take no prefix. -/
def attrWindow : Attr := { takes := false, dcv := false, msk := .unused, fmts := fun _ => true }

/-- The format fault of a window word: the declaration is a register, which has no address, so the record's address is
a free value (R145, assumption 18). -/
def windowFault (s : State) : Stop := .format 5 (bv 64 (Config.freeNat s.fresh))

/-- The merging slots of a hart are FREE once the writes of its folds are performed at hart scope (R213, R214). -/
def settleWindows (who : Nat) (s : State) : State :=
  if notPerformed s who 5 false true then s
  else s.modHart who (fun h => { h with run := { h.run with windows := h.run.windows.map (fun w =>
    match w with
    | some x => if x.merging then none else some x
    | none => none) } })

/-! ## wdecl (R210) -/

/-- The place of a part of a target for writing. -/
def targetPlace (e : Env) (va n : Nat) : Act Nat := do
  match ← locate e .store va n with
  | .mem a => return a
  | .far a => return a
  | .dev _ => stop (.trap 7 (bv 64 va))

/-- Whether a target that has just been translated crosses a page boundary. -/
def targetCrosses (s : State) (e : Env) (target size : Nat) : Bool :=
  if within target 0x7FFFFF800000 0x800000 || !e.translates then false
  else match tlbFind s e target with
    | some t => target / 2 ^ pageBits t.level ≠ (target + size - 1) / 2 ^ pageBits t.level
    | none => false

/-- wdecl. -/
def execWdecl (w : Fld) : State → Host.Outcome State Fault Refusal :=
  vectorWord (.wdecl w) (do
    let s ← getS
    setS (settleWindows s.cur s)
    let s ← getS
    let h := s.hart
    let c ← issue attrWindow w (onCompute s && !(isRep h.pc && h.run.body.isNone))
    let n := w.d.toNat % 4
    let target := (h.getX w.a).toNat
    let decl := (h.getX w.b).toNat
    let size := nbits decl 0 14
    let op := nbits decl 16 3
    setS s.useFresh
    match h.window n with
    | some x => stop (if x.merging then .stall else windowFault s)
    | none =>
      ensure (size ≠ 0 && size ≤ 8192 && size % 8 = 0 && nbits decl 14 2 = 0 && decl < 2 ^ 19 && target % 256 = 0
        && !(within target 0x7FFFFFFC0000 0x40000) && windowFmt op c.fmt) (windowFault s)
      match allocate h size with
      | none => stop (windowFault s)
      | some b =>
        let k := firstPart target size
        let pa0 ← targetPlace (vecEnv s) target k
        let pa1 ← if k < size then targetPlace (vecEnv s) (target + k) (size - k) else (fun s => .ok 0 s)
        let t ← getS
        let word := toBytes 8 (identityWord op c.fmt)
        setS (t.store { hart := s.cur, scalar := false } (laneAddr s.cur b 0 0)
          ((List.range (2 * size)).flatMap (fun _ => word)))
        onHart (fun h => h.setWindow n (some { op := bv 3 op, canonical := bitOf w.f 0, fmt := bv 4 c.fmt, size := size,
                                               wbase := bv 10 b, target := bv 64 target, pa0 := pa0, pa1 := pa1,
                                               crosses := targetCrosses t (dataEnv t) target size }))
        retireVec (.wdecl w) c.takes)

/-! ## wacc (R211) -/

/-- The attributes of wacc: a predicate and a prefix without DCV. -/
def attrWacc : Attr := { dcv := false, fmts := fun _ => true }

/-- The virtual address of a byte of a core's own TCM (R270). -/
def tcmVa (a : Nat) : Word := bv 64 (0x7FFFFFFC0000 + (a - tcmAlias 0) % 0x40000)

/-- The updates of the active elements from `e` on, `n` of them: each reads and writes its lane's copy; a misaligned or
out-of-range offset, or an uncorrectable error of the copy (R375), stops the word at its element. -/
def waccLoop (c : VCtx) (who : Nat) (x : Window) (off val : Nat → Nat) : Nat → Nat → State → State × Option (Nat × Stop)
  | 0, _, s => (s, none)
  | n + 1, e, s =>
    let sz := c.sew / 8
    let o := off e
    let va := bv 64 (x.target.toNat + o)
    if c.bound ≤ e then (s, some (e, .stall))
    else if !(c.sel e) then waccLoop c who x off val n (e + 1) s
    else if o % sz ≠ 0 then (s, some (e, .trap 6 va))
    else if x.size < o + sz then (s, some (e, .trap 7 va))
    else
      let a := laneAddr who x.wbase.toNat (o / 8) (e / (64 / c.sew) % 16) + o % 8
      let y := combineElem x.op.toNat c.fmt (readNat s.mem a sz) (val e)
      match poisoned s a sz with
      | some p => (s, some (e, .uncorrectable 5 (tcmVa a) 1 p))
      | none => waccLoop c who x off val n (e + 1) (s.storeNat { hart := who, scalar := false } a sz y)

/-- wacc. -/
def execWacc (w : Fld) : State → Host.Outcome State Fault Refusal :=
  vectorWord (.wacc w) (do
    let s ← getS
    setS (settleWindows s.cur s)
    let s ← getS
    let h := s.hart
    let g := grpHere h
    let c ← issue attrWacc w (onCompute s && (Span.mk (h.vreg w.b) g).ok && (Span.mk (h.vreg w.a) g).ok)
    setS s.useFresh
    match h.window (w.d.toNat % 4) with
    | none => stop (windowFault s)
    | some x =>
      ensure (!x.merging && x.op.toNat = w.d.toNat / 4 && x.fmt.toNat = c.fmt) (windowFault s)
      match waccLoop c s.cur x (h.elem (h.vreg w.b) c.sew) (h.elem (h.vreg w.a) c.sew) (c.vl - c.velem) c.velem
          s.useFresh with
      | (t, none) => setS t; retireVec (.wacc w) c.takes
      | (t, some (e, y)) => setS (t.setVelem e); stop y)

/-! ## wmerge, wdrop, wstat (R213-R215) -/

/-- The hart partial of word `i` (R214). -/
def partialWord (s : State) (who : Nat) (x : Window) (i : Nat) : Nat :=
  let lane (l : Nat) : Nat := readNat s.mem (laneAddr who x.wbase.toNat i l) 8
  let f := combineWord x.op.toNat x.fmt.toNat
  if x.canonical then (sparseTree f 4 ((List.range 16).map (fun l => (l, lane l)))).getD 0
  else ((List.range 15).map (· + 1)).foldl (fun p l => f p (lane l)) (lane 0)

/-- Reading the target words of a declaration, vector class (R214). -/
def readTargets (e : Env) (target pa0 pa1 : Nat) : Nat → Nat → Act (List Nat)
  | 0, _ => fun s => .ok [] s
  | n + 1, i => do
    let a := targetAddr target pa0 pa1 (8 * i)
    let s ← getS
    let x ← match regionOf s a with
      | .far _ => remoteRead e .store (target + 8 * i) a 8
      | _ => loadAt e .store (target + 8 * i) (placed s a) 8
    let r ← readTargets e target pa0 pa1 n (i + 1)
    return x :: r

/-- The vector agent's store of a fold, which does not wait: by messages, or in its turn at its home. -/
def foldStore (e : Env) (a : Nat) (bs : List Byte) : Act Unit := fun s =>
  if byMessage s e (placed s a) && (poisoned s (placed s a) bs.length).isNone then storeByMessage e (placed s a) bs s
  else .ok () (s.pushStore { hart := e.who, scalar := false } a bs)

/-- Writing the target words of a declaration. -/
def writeTargets (e : Env) (target pa0 pa1 : Nat) : Nat → List Nat → Act Unit
  | _, [] => fun s => .ok () s
  | i, x :: r => do
    let a := targetAddr target pa0 pa1 (8 * i)
    let s ← getS
    match regionOf s a with
    | .far _ => remoteWrite e .store (target + 8 * i) a (toBytes 8 x)
    | _ => foldStore e a (toBytes 8 x)
    writeTargets e target pa0 pa1 (i + 1) r

/-- The word has waited at PC since it began. -/
def begun (s : State) : Bool :=
  match s.hart.run.wait with
  | some x => x.kind = .other && x.pc = s.hart.pc
  | none => false

/-- Beginning to wait at PC. -/
def beginWait : Act Unit := fun s =>
  let w := waitHere s .other (2 ^ 63)
  .ok () (s.setHart { s.hart with run := { s.hart.run with wait := some w } })

/-- wmerge at LEVEL 0 (R213, R214): the partial is folded into the target, the slot merges, and the word retires once
the fold's writes are performed. -/
def foldOwn (w : Fld) (c : VCtx) (x : Window) (ps : List Nat) : Act Unit := do
  let s ← getS
  let t := x.target.toNat
  pastBars (vecEnv s)
  let old ← readTargets (vecEnv s) t x.pa0 x.pa1 (x.size / 8) 0
  writeTargets (vecEnv s) t x.pa0 x.pa1 0
    ((old.zip ps).map (fun p => combineWord x.op.toNat x.fmt.toNat p.1 p.2))
  let merging : Window := { x with merging := true }
  onHart (fun h => h.setWindow (w.d.toNat % 4) (some merging))
  beginWait
  let s ← getS
  setS (settleWindows s.cur s)
  let s ← getS
  ensure ((s.hart.window (w.d.toNat % 4)).isNone) .stall
  retireVec (.wmerge w) c.takes

/-- The bytes a partial takes in the merge store (R217). -/
def partialBytes (size : Nat) : Nat := ceilDiv (size + 64) 256 * 256

/-- CL_MRG_USE: the bytes holding partials (R217). -/
def ClusterSt.mergeUse (c : ClusterSt) : Nat := c.partials.foldl (fun n p => n + partialBytes p.size) 0

/-- The lowest free offset of the merge store for a partial. -/
def mergeRoom (c : ClusterSt) (size : Nat) : Option Nat :=
  let need := partialBytes size / 256
  let free (b : Nat) : Bool := c.partials.all (fun p => !(overlap (b * 256) (need * 256) p.offset (partialBytes p.size)))
  if need ≤ c.mrgLen.toNat then
    ((List.range (c.mrgLen.toNat + 1 - need)).find? free).map (· * 256)
  else none

/-- The scratchpad address of byte `o` of a cluster's merge store. -/
def mergeAddr (s : State) (cl o : Nat) : Nat := spadAlias cl + (s.clusterAt cl).mrgBase.toNat * 256 + o

/-- DOMAIN.LEVEL. -/
def Hart.level (h : Hart) : Nat := fieldOf h.dev.domain 0 3

/-- wmerge. -/
def execWmerge (w : Fld) : State → Host.Outcome State Fault Refusal :=
  vectorWord (.wmerge w) (do
    let s ← getS
    setS (settleWindows s.cur s)
    let s ← getS
    let h := s.hart
    let c ← issue attrWindow w (onCompute s)
    let n := w.d.toNat % 4
    match h.window n with
    | none => retireVec (.wmerge w) c.takes
    | some x =>
      if x.merging then
        ensure (!(begun s)) .stall
        retireVec (.wmerge w) c.takes
      else
        let copies := laneAddr s.cur x.wbase.toNat 0 0
        match poisoned s copies (16 * x.size) with
        | some p => stop (.uncorrectable 5 (tcmVa p) 1 p)
        | none =>
        let ps := (List.range (x.size / 8)).map (partialWord s s.cur x)
        if h.level = 0 then foldOwn w c x ps
        else
          let k := clusterOf s.cur
          setS s.useFresh
          match mergeRoom (s.clusterAt k) x.size with
          | none => stop (windowFault s)
          | some o =>
            let p : Partial := { hart := s.cur, op := x.op, canonical := x.canonical, fmt := x.fmt, size := x.size,
                                 target := x.target, pa0 := x.pa0, pa1 := x.pa1, offset := o }
            let s := s.useFresh
            let cl := s.clusterAt k
            let s := s.setClusterAt k { cl with partials := cl.partials ++ [p] }
            setS (s.store { hart := s.cur, scalar := false } (mergeAddr s k (o + 64)) (ps.flatMap (toBytes 8)))
            onHart (fun h => h.setWindow n none)
            retireVec (.wmerge w) c.takes)

/-- wdrop. -/
def execWdrop (w : Fld) : State → Host.Outcome State Fault Refusal :=
  vectorWord (.wdrop w) (do
    let s ← getS
    setS (settleWindows s.cur s)
    let c ← issue attrWindow w (onCompute s)
    onHart (fun h => match h.window (w.d.toNat % 4) with
      | some x => if x.merging then h else h.setWindow (w.d.toNat % 4) none
      | none => h)
    retireVec (.wdrop w) c.takes)

/-- wstat (R215). -/
def windowStatus : Option Window → Nat
  | none => 0
  | some x => (if x.merging then 2 else 1) * 2 ^ 62 + x.canonical.toNat * 2 ^ 61 + x.op.toNat * 2 ^ 58
      + x.fmt.toNat * 2 ^ 54 + x.wbase.toNat * 2 ^ 44 + x.size

/-- wstat. -/
def execWstat (w : Fld) : State → Host.Outcome State Fault Refusal :=
  vectorWord (.wstat w) (do
    let s ← getS
    setS (settleWindows s.cur s)
    let c ← issue attrWindow w (onCompute s)
    onHart (fun h => h.setX w.d (bv 64 (windowStatus (h.window (w.a.toNat % 4)))))
    retireVec (.wstat w) c.takes)

/-! ## Folding the partials of a phase (R218) -/

/-- The target words of a partial: physical address and value, in order. -/
def partialWords (s : State) (cl : Nat) (p : Partial) : List (Nat × Nat) :=
  (List.range (p.size / 8)).map (fun i =>
    (targetAddr p.target.toNat p.pa0 p.pa1 (8 * i), readNat s.mem (mergeAddr s cl (p.offset + 64 + 8 * i)) 8))

/-- One contribution to a target word: operation, format, mode, hart and value. -/
structure Contribution where
  pa : Nat
  op : Nat
  fmt : Nat
  canonical : Bool
  hart : Nat
  val : Nat
  deriving DecidableEq, Repr

/-- The contributions of the partials of a phase, in the order of their placing. -/
def contributions (s : State) (part dom phase : Nat) : List Contribution :=
  s.clusters.flatMap (fun c => (c.2.partials.filter (fun p => p.part = part && p.dom = dom && p.phase = some phase)).flatMap
    (fun p => (partialWords s c.1 p).map (fun q =>
      { pa := q.1, op := p.op.toNat, fmt := p.fmt.toNat, canonical := p.canonical, hart := p.hart, val := q.2 })))

/-- The groups on one word in the order of R218. -/
def groupOrder : List (Nat × Nat × Bool) :=
  (List.range 7).flatMap (fun op => (List.range 8).flatMap (fun f => [(op, f, false), (op, f, true)]))

/-- Combining contributions of one hart at its leaf, then listing the leaves by rising hart (R218). -/
def leavesOf (op fmt : Nat) (l : List Contribution) : List (Nat × Nat) :=
  l.foldl (fun acc c =>
    match acc.find? (fun p => p.1 == c.hart) with
    | some p => put acc c.hart (combineWord op fmt p.2 c.val)
    | none => put acc c.hart c.val) []

/-- The value of a target word after every group on it has been folded. -/
def foldWord (l : List Contribution) (x : Nat) : Nat :=
  groupOrder.foldl (fun x g =>
    let mine := l.filter (fun c => c.op == g.1 && c.fmt == g.2.1 && c.canonical == g.2.2)
    let leaves := leavesOf g.1 g.2.1 mine
    if g.2.2 then
      match sparseTree (combineWord g.1 g.2.1) 14 leaves with
      | some t => combineWord g.1 g.2.1 x t
      | none => x
    else leaves.foldl (fun x p => combineWord g.1 g.2.1 x p.2) x) x

/-- The value of a target word before its fold: of the package at its home, or of another module at its own (R283). A word
that cannot be read or written has no value, and is not folded. -/
def foldValue (e : Env) (a : Nat) : Act (Option Nat) := fun s =>
  match regionOf s a with
  | .far _ =>
    (match findRemote s e.who 9 1 a 8 with
     | some r =>
       if r.failed then .ok none s
       else match r.answer with
         | some v => .ok (some v) s
         | none => .error .stall s
     | none =>
       if deliverable s (a / 2 ^ 40) then .error .stall (sendRemote s e.part e.who 9 1 0 a 8 []) else .ok none s)
  | _ => match forward s a with
    | some b => .ok (some (readNat s.mem b 8)) s
    | none => .error .stall s

/-- Folding a list of target words one after the other. -/
def foldTargets (e : Env) (cs : List Contribution) : List Nat → Act Unit
  | [] => fun s => .ok () s
  | a :: r => do
    let v ← foldValue e a
    foldTargets e cs r
    match v with
    | none => fun s => .ok () s
    | some x =>
      let s ← getS
      let y := toBytes 8 (foldWord (cs.filter (fun c => c.pa == a)) x)
      match regionOf s a with
      | .far _ => setS (sendRemote s e.part e.who 9 2 0 a 8 y)
      | _ => setS (s.pushStore { hart := e.who, scalar := true } a y)

/-- The distinct target words of contributions. -/
def targetsOf (cs : List Contribution) : List Nat := (cs.map Contribution.pa).eraseDups

/-- The partials of a phase leave the merge store. -/
def dropPartials (s : State) (part dom phase : Nat) : State :=
  { s with clusters := s.clusters.map (fun c => (c.1, { c.2 with
      partials := c.2.partials.filter (fun p => !(p.part = part && p.dom = dom && p.phase = some phase)) })) }

/-- The number under which the sequencers fold for a domain of a partition: no agent's. -/
def sequencer (part dom : Nat) : Nat := 2 ^ 24 * (part + 1) + dom

/-- A write of a domain's fold is not performed yet: on its way, queued or committing at its home, or sent to another module
and not acknowledged. -/
def foldBusy (s : State) (part dom : Nat) : Bool :=
  (unsettled s).any (fun m => m.hart == sequencer part dom) || remoteUnacked s (sequencer part dom)

/-- The sequencers' fold of a phase (R218): every target word takes its groups, then the partials are gone; the fold is
complete when its writes are performed. Every target is read before the first is written, and a target is not held
meanwhile (R293). -/
def foldPhase (part dom phase : Nat) : Act Unit := do
  let s ← getS
  let cs := contributions s part dom phase
  let who := sequencer part dom
  let e : Env := { who := who, priv := .m, satp := 0, sum := false, mxr := false, part := part, pmp := false, slot := 9 }
  foldTargets e cs (targetsOf cs)
  let s ← getS
  let s := settleReads who 9 (dropPartials s part dom phase)
  setS s
  ensure (!(foldBusy s part dom)) .stall

end Sys2Proof.Machine
end

