-- ==== Sys2Proof/Machine/Crown.lean ====
section
/-! DEFINITION. The Crown (spec/10, R228-R237; spec/02, R46, R47): grants, B buffers and the ring, tiles, and
multiply-accumulate. -/

namespace Sys2Proof.Machine

/-! ## Grants (R228, R229) -/

/-- GRANT.FIRST. -/
def Hart.grantFirst (h : Hart) : Nat := fieldOf h.dev.grant 4 3
/-- GRANT.TILES. -/
def Hart.grantTiles (h : Hart) : Nat := fieldOf h.dev.grant 0 4

/-- Whether a grant of a hart of the core holds tile `t`. -/
def tileTaken (s : State) (core t : Nat) : Bool :=
  (hartsOfCore core).any (fun k =>
    (s.hartAt k).grantFirst ≤ t && t < (s.hartAt k).grantFirst + (s.hartAt k).grantTiles)

/-- The lowest run of `n` free tiles of a core. -/
def freeTiles (s : State) (core n : Nat) : Option Nat :=
  (List.range (9 - n)).find? (fun f => (List.range n).all (fun k => !(tileTaken s core (f + k))))

/-- The attributes of the K words: no prefix and no mask. -/
def attrCrown (typed : Bool) : Attr :=
  { takes := false, dcv := false, msk := .unused, typed := typed, fmts := fun _ => true }

/-- mattach (R229). -/
def execMattach (w : Fld) : State → Host.Outcome State Fault Refusal :=
  vectorWord (.mattach w) (do
    let s ← getS
    let h := s.hart
    let n := w.a.toNat
    let c ← issue (attrCrown true) w (onCompute s && 1 ≤ n && n ≤ 8)
    if h.grantTiles ≠ 0 then onHart (fun h => h.setX w.d 2)
    else match freeTiles s (coreOf s.cur) n with
      | none => onHart (fun h => h.setX w.d 1)
      | some f => onHart (fun h => { h.setX w.d 0 with dev := { h.dev with grant := bv 7 (f * 16 + n) } })
    retireVec (.mattach w) c.takes)

/-! ## B buffers and the ring (R231-R233) -/

/-- B buffer `b` of a hart. -/
def Hart.bbuf (h : Hart) (b : Nat) : BBuf := h.run.bbufs[b % 2]'(Nat.mod_lt _ (by decide))
/-- Replacing a B buffer. -/
def Hart.setBbuf (h : Hart) (b : Nat) (x : BBuf) : Hart :=
  { h with run := { h.run with bbufs := h.run.bbufs.set (b % 2) x (Nat.mod_lt _ (by decide)) } }

/-- The next core in ring order: c0 to c15 of the cluster and back (R4). -/
def nextCore (c : Nat) : Nat := c / 16 * 16 + (c % 16 + 1) % 16

/-- The first buffer that waits for a free link moves into it and becomes EMPTY (R232). -/
def moveToLink (s : State) (c : Nat) : State :=
  let k := s.coreAt c
  match k.link, k.passing with
  | none, (slot, b) :: r =>
    let h := s.hartAt (4 * c + slot)
    let x := h.bbuf b
    let s := s.setHartAt (4 * c + slot) (h.setBbuf b { x with loaded := false })
    s.setCoreAt c { k with link := some { slot := slot, buf := b, fmt := x.fmt, data := x.data }, passing := r }
  | _, _ => s

/-- A link delivers its content into the same-numbered hart's buffer of the next core, once it is EMPTY (R233); then
the link takes the next buffer that waits. -/
def deliverLink (s : State) (c : Nat) : State :=
  let k := s.coreAt c
  match k.link with
  | none => s
  | some m =>
    let who := 4 * nextCore c + m.slot
    let h := s.hartAt who
    if (h.bbuf m.buf).loaded then s
    else
      let s := s.setHartAt who (h.setBbuf m.buf { loaded := true, fmt := m.fmt, data := m.data })
      moveToLink (s.setCoreAt c { k with link := none }) c

/-- RING_DELIVERY of the link of global core `c` (R233). -/
def execRingDelivery (c : Nat) (s : State) : Host.Outcome State Fault Refusal :=
  if c < 2304 then .next (deliverLink s c) else .next s

/-- An earlier mmac of the hart still waits to pass its buffer to the ring link, so that it has not completed (R232). -/
def passWaits (s : State) (h : Nat) : Bool := (s.coreAt (coreOf h)).passing.any (fun p => p.1 = h % 4)

/-- mdetach (R229): it waits for the hart's earlier Crown words; the B buffers hold what they held, or zero. -/
def execMdetach (w : Fld) : State → Host.Outcome State Fault Refusal :=
  vectorWord (.mdetach w) (do
    let s ← getS
    let c ← issue (attrCrown false) w (onCompute s)
    ensure (!(passWaits s s.cur)) .stall
    if s.hart.grantTiles ≠ 0 then
      let empty (b : Nat) (x : BBuf) : BBuf :=
        { x with loaded := false, data := if Config.freeNat (s.fresh + b) % 2 = 0 then x.data else 0 }
      setS s.useFresh.useFresh
      onHart (fun h =>
        let h := { h with dev := { h.dev with grant := 0 } }
        (h.setBbuf 0 (empty 0 (h.bbuf 0))).setBbuf 1 (empty 1 (h.bbuf 1)))
    retireVec (.mdetach w) c.takes)

/-! ## Formats (R230) -/

/-- A Crown operand format: k per tile, bytes of an A row, of the A aux, of a B row and of the B aux, and the bits of
an element. -/
structure CrownFmt where
  kt : Nat
  rb : Nat
  aaux : Nat
  brow : Nat
  baux : Nat
  bits : Nat
  deriving DecidableEq, Repr

/-- The Crown format of a VTYPE. -/
def crownFmt (t : Word) : Option CrownFmt :=
  match vtFmt t with
  | 0 => some ⟨64, 64, 0, 16, 0, 8⟩
  | 8 => some ⟨64, 64, 0, 16, 0, 8⟩
  | 9 => some ⟨64, 64, 0, 16, 0, 8⟩
  | 10 => some ⟨64, 64, 2, 16, 32, 8⟩
  | 11 => some ⟨64, 64, 2, 16, 32, 8⟩
  | 12 => some ⟨64, 48, 2, 12, 32, 6⟩
  | 13 => some ⟨64, 48, 2, 12, 32, 6⟩
  | 14 => some ⟨64, 32, 2, 8, 32, 4⟩
  | 6 => some ⟨64, 128, 0, 32, 0, 16⟩
  | 7 => some ⟨64, 128, 0, 32, 0, 16⟩
  | 4 => if vtSlc t = 0 then none else some ⟨16, 128, 8, 128, 32, 64⟩
  | _ => none

/-- The Crown format in force, or the format fault. -/
def needFmt (t : Word) : Act CrownFmt :=
  match crownFmt t with
  | some f => fun s => .ok f s
  | none => stop (.format 2 t)

/-! ## Reading operands (R230-R232) -/

/-- `n` pieces of 4 bytes from an address, which must lie where `ok` allows. -/
def loadPieces (e : Env) (ok : State → Nat → Bool) : Nat → Nat → Act Nat
  | 0, _ => fun s => .ok 0 s
  | n + 1, va => do
    let l ← locate e .load va 4
    let s ← getS
    match l with
    | .mem a =>
      ensure (ok s a) (.trap 5 (bv 64 va))
      let x ← loadMem .load va a 4
      let r ← loadPieces e ok n ((va + 4) % 2 ^ 64)
      return x + r * 2 ^ 32
    | _ => stop (.trap 5 (bv 64 va))

/-- Rows of `bytes` bytes at a stride, `n` of them: each begins at a multiple of 8. -/
def loadRows (e : Env) (ok : State → Nat → Bool) (stride bytes : Nat) : Nat → Nat → Act (List Nat)
  | 0, _ => fun s => .ok [] s
  | n + 1, va => do
    ensure (va % 8 = 0) (.trap 4 (bv 64 va))
    let x ← loadPieces e ok (ceilDiv bytes 4) va
    let r ← loadRows e ok stride bytes n ((va + stride) % 2 ^ 64)
    return (x % 2 ^ (8 * bytes)) :: r

/-- B operands lie in the core's TCM or the cluster's scratchpad. -/
def localPlace (s : State) (a : Nat) : Bool :=
  match regionOf s a with
  | .tcm c => c = coreOf s.cur
  | .spad c => c = clusterOf s.cur
  | _ => false

/-- An address of the TCM window. -/
def tcmWindow (va : Nat) : Bool := within va 0x7FFFFFFC0000 0x40000

/-- A rows lie in the TCM window only: the first byte outside it faults. -/
def loadARow (e : Env) (bytes va : Nat) : Act Nat := do
  ensure (va % 8 = 0) (.trap 4 (bv 64 va))
  ensure (tcmWindow va) (.trap 5 (bv 64 va))
  ensure (tcmWindow (va + bytes - 1)) (.trap 5 (bv 64 0x800000000000))
  loadPieces e localPlace (ceilDiv bytes 4) va

/-- The A rows at a stride, `n` of them. -/
def loadARows (e : Env) (stride bytes : Nat) : Nat → Nat → Act (List Nat)
  | 0, _ => fun s => .ok [] s
  | n + 1, va => do
    let x ← loadARow e bytes va
    let r ← loadARows e stride bytes n ((va + stride) % 2 ^ 64)
    return (x % 2 ^ (8 * bytes)) :: r

/-- The numbers of a list, each `n` bits wide, the first lowest. -/
def packNat (n : Nat) (l : List Nat) : Nat := l.foldr (fun x r => x % 2 ^ n + r * 2 ^ n) 0

/-- A buffer whose content waits for the link. -/
def isPassing (s : State) (who b : Nat) : Bool := (s.coreAt (coreOf who)).passing.contains (who % 4, b)

/-- mload (R231). -/
def execMload (w : Fld) : State → Host.Outcome State Fault Refusal :=
  vectorWord (.mload w) (do
    let s ← getS
    let h := s.hart
    let c ← issue (attrCrown true) w (onCompute s)
    let f ← needFmt c.vtype
    let b := w.f.toNat % 2
    ensure (!(isPassing s s.cur b)) .stall
    let base := (h.getX w.a).toNat
    let stride := (h.getX w.b).toNat
    pastBars (vecEnv s)
    let rows ← loadRows (vecEnv s) localPlace stride f.brow f.kt base
    let aux ← loadRows (vecEnv s) localPlace stride f.baux (if f.baux = 0 then 0 else 1)
      ((base + f.kt * stride) % 2 ^ 64)
    let data := packNat (8 * f.brow) rows + aux.headD 0 * 2 ^ (8 * f.brow * f.kt)
    onHart (fun h => h.setBbuf b { loaded := true, fmt := bv 4 c.fmt, data := bv 16640 data })
    retireVec (.mload w) c.takes)

/-! ## Accumulation (R46) -/

/-- Element `k` of A row `x`. -/
def aElem (f : CrownFmt) (fmt x k : Nat) : FVal :=
  let code := nbits x (k * f.bits) f.bits
  if isMx fmt then mxVal fmt (nbits x (8 * f.rb + 8 * (k / 32)) 8) code else decodeFloat (floatFmt fmt) code

/-- Element (k, j) of a B tile. -/
def bElem (f : CrownFmt) (fmt : Nat) (d : BitVec 16640) (j k : Nat) : FVal :=
  let code := fieldOf d (8 * f.brow * k + j * f.bits) f.bits
  if isMx fmt then mxVal fmt (fieldOf d (8 * (f.brow * f.kt + 16 * (k / 32) + j)) 8) code
  else decodeFloat (floatFmt fmt) code

/-- One group of 8 exact products added to an accumulator with a single rounding (R46). -/
def addGroup (acc : Nat) (ps : List FVal) : Nat := (addVal (nearestEven fp32) (decodeFloat fp32 acc) (sumProducts ps)).1

/-- The accumulation of `kt` products in groups of 8, in ascending k. -/
def accumulate (kt : Nat) (a b : Nat → FVal) (acc : Nat) : Nat :=
  (List.range (kt / 8)).foldl (fun acc g =>
    addGroup acc ((List.range 8).map (fun k => mulExact (a (8 * g + k)) (b (8 * g + k))))) acc

/-- The accumulation of signed bytes, which wraps. -/
def accumulateInt (kt : Nat) (a b : Nat → Int) (acc : Nat) : Nat :=
  wrapTo 32 ((List.range kt).foldl (fun x k => x + a k * b k) (acc : Int))

/-- Value (i, j) of a tile. -/
def Tile.val (t : Tile) (n : Nat) : Nat := fieldOf t.vals (32 * n) 32

/-- The values of a tile after a multiply-accumulate that is not split. -/
def macVals (f : CrownFmt) (fmt : Nat) (rows : List Nat) (d : BitVec 16640) (t : Tile) : BitVec 8192 :=
  bv 8192 (packNat 32 ((List.range 256).map (fun n =>
    let x := (rows[n / 16]?).getD 0
    let j := n % 16
    if fmt = 0 then
      accumulateInt f.kt (fun k => signedOf 8 (nbits x (8 * k) 8))
        (fun k => signedOf 8 (fieldOf d (8 * f.brow * k + 8 * j) 8)) (t.val n)
    else accumulate f.kt (aElem f fmt x) (bElem f fmt d j) (t.val n))))

/-! ## Split-precision FP64 (R47, R235) -/

/-- The tiles of a split block. -/
def splitTiles (s : Nat) : Nat := ceilDiv (s * (s + 1)) 16

/-- The pairs (t, u) with t + u ≤ s + 1 in the order of the combination of R47: by falling weight t + u, then rising t.
The sums stand in the block in this order (assumption 19). -/
def splitPairs (s : Nat) : List (Nat × Nat) :=
  (List.range s).flatMap (fun d => (List.range (s - d)).map (fun t => (t + 1, s - d - t)))

/-- X of R47, or none for an operand that it calls exceptional. -/
def sliceX (s : Nat) (eref : Int) (x : FVal) : Option (Bool × Nat) :=
  match x with
  | .fin neg m e =>
    let v := (Dy.floor ⟨m, e + (6 * s - 1 - eref)⟩).toNat
    if v < 2 ^ (6 * s) then some (neg, v) else none
  | _ => none

/-- Slice `t` of an operand (R47). -/
def slice (s t : Nat) (x : Bool × Nat) : Int :=
  let v : Int := nbits x.2 (6 * (s - t)) 6
  if x.1 then -v else v

/-- FP64 element `k` of an A row. -/
def aDouble (x k : Nat) : FVal := decodeFloat fp64 (nbits x (64 * k) 64)
/-- FP64 element (k, j) of a B tile. -/
def bDouble (d : BitVec 16640) (j k : Nat) : FVal := decodeFloat fp64 (fieldOf d (1024 * k + 64 * j) 64)

/-- The head of a block after the exponents and operands of a multiply-accumulate: the first one records the
exponents, a different value or an exceptional operand marks its row or column bad (R235). -/
def splitHead (s : Nat) (rows : List Nat) (d : BitVec 16640) (t : Tile) : Tile :=
  let row (i : Nat) : Nat := (rows[i]?).getD 0
  let ea (i : Nat) : BitVec 16 := bv 16 (nbits (row i) 1024 16)
  let eb (j : Nat) : BitVec 16 := bv 16 (fieldOf d (16384 + 16 * j) 16)
  let t := if t.mode = .clear then
      { t with mode := .split, s := s, first := 0, badRows := 0, badCols := 0,
               ea := .ofFn (fun i => ea i), eb := .ofFn (fun j => eb j) }
    else t
  let badRow (i : Nat) : Bool := ea i != (t.ea[i]?).getD 0
    || (List.range 16).any (fun k => (sliceX s ((t.ea[i]?).getD 0).toInt (aDouble (row i) k)).isNone)
  let badCol (j : Nat) : Bool := eb j != (t.eb[j]?).getD 0
    || (List.range 16).any (fun k => (sliceX s ((t.eb[j]?).getD 0).toInt (bDouble d j k)).isNone)
  { t with
    badRows := t.badRows ||| bv 2 (packNat 1 ((List.range 2).map (fun i => (badRow i).toNat)))
    badCols := t.badCols ||| bv 16 (packNat 1 ((List.range 16).map (fun j => (badCol j).toNat))) }

/-- What a multiply-accumulate adds to P[t][u] of output (i, j). -/
def splitSum (s : Nat) (ea eb : Int) (x : Nat) (d : BitVec 16640) (j : Nat) (p : Nat × Nat) : Int :=
  (List.range 16).foldl (fun r k =>
    match sliceX s ea (aDouble x k), sliceX s eb (bDouble d j k) with
    | some a, some b => r + slice s p.1 a * slice s p.2 b
    | _, _ => r) 0

/-- The values of tile `q` of a split block after a multiply-accumulate: sums of pair p and output o stand at word
32 p + o of the block; `old` gives the values before. -/
def splitVals (s : Nat) (head : Tile) (rows : List Nat) (d : BitVec 16640) (q : Nat) (old : Nat → Nat) : BitVec 8192 :=
  bv 8192 (packNat 32 ((List.range 256).map (fun n =>
    let o := (256 * q + n) % 32
    match (splitPairs s)[(256 * q + n) / 32]? with
    | none => old n
    | some p =>
      wrapTo 32 ((old n : Int) + splitSum s ((head.ea[o / 16]?).getD 0).toInt ((head.eb[o % 16]?).getD 0).toInt
        ((rows[o / 16]?).getD 0) d (o % 16) p))))

/-- The result d(i, j) of a split block whose sums `sum` gives (R47). -/
def splitResult (head : Tile) (sum : Nat → Nat) (o : Nat) : Nat :=
  if head.badRows.getLsbD (o / 16) || head.badCols.getLsbD (o % 16) then 0x7FF8000000000000
  else
    let ee : Int := ((head.ea[o / 16]?).getD 0).toInt + ((head.eb[o % 16]?).getD 0).toInt + 2
    (splitPairs head.s).zipIdx.foldl (fun d p =>
      let x := signedOf 32 (sum (32 * p.2 + o))
      let e : Int := ee - 6 * (p.1.1 + p.1.2 : Nat)
      (addVal (nearestEven fp64) (decodeFloat fp64 d) (.fin (x < 0) x.natAbs e)).1) 0

/-! ## mmac (R232, R234, R235) -/

/-- Tile `n` of a core. -/
def CoreSt.tile (k : CoreSt) (n : Nat) : Tile := k.tiles[n % 8]'(Nat.mod_lt _ (by decide))
/-- Replacing a tile. -/
def CoreSt.setTile (k : CoreSt) (n : Nat) (t : Tile) : CoreSt :=
  { k with tiles := k.tiles.set (n % 8) t (Nat.mod_lt _ (by decide)) }

/-- The tiles an mmac works on: those of a split block, else one. -/
def blockTiles (t : Word) : Nat := if vtFmt t = 4 && !(vtIll t) then max 1 (splitTiles (vtSlc t)) else 1

/-- Whether the tiles at `p` agree with an mmac (R234, R235). -/
def tilesAgree (k : CoreSt) (t : Word) (p : Nat) : Bool :=
  if vtFmt t = 4 then
    (List.range (blockTiles t)).all (fun q =>
      let x := k.tile (p + q)
      x.mode = .clear || (x.mode = .split && x.s = vtSlc t && x.first = q))
  else (k.tile p).mode = .clear || (k.tile p).mode = (if vtFmt t = 0 then .int else .float)

/-- The core after a split multiply-accumulate on the block at tile `p`. -/
def CoreSt.splitMac (k : CoreSt) (s nt p : Nat) (rows : List Nat) (d : BitVec 16640) : CoreSt :=
  let fresh := (k.tile p).mode = .clear
  let head := splitHead s rows d (k.tile p)
  (List.range nt).foldl (fun k q =>
    let x := if q = 0 then head else k.tile (p + q)
    let old := k.tile (p + q)
    let sums (n : Nat) : Nat := if fresh || old.mode = .clear then 0 else old.val n
    k.setTile (p + q) { x with mode := .split, s := s, first := q, vals := splitVals s head rows d q sums }) k

/-- mmac. -/
def execMmac (w : Fld) : State → Host.Outcome State Fault Refusal :=
  vectorWord (.mmac w) (do
    let s ← getS
    let h := s.hart
    let n := w.d.toNat % 8
    let b := w.f.toNat % 2
    let c ← issue (attrCrown true) w (onCompute s && n + blockTiles h.vec.vtype ≤ h.grantTiles)
    let f ← needFmt c.vtype
    let x := h.bbuf b
    ensure (x.loaded && !(isPassing s s.cur b)) .stall
    let core := coreOf s.cur
    let p := h.grantFirst + n
    ensure (x.fmt.toNat = c.fmt && tilesAgree (s.coreAt core) c.vtype p) (.format 2 c.vtype)
    let split := c.fmt = 4
    pastBars (vecEnv s)
    let rows ← loadARows (vecEnv s) (h.getX w.b).toNat (f.rb + f.aaux) (if split then 2 else 16) (h.getX w.a).toNat
    let s ← getS
    let k := s.coreAt core
    let mode : TileMode := if c.fmt = 0 then .int else .float
    let t := k.tile p
    let k := if split then k.splitMac (vtSlc c.vtype) (blockTiles c.vtype) p rows x.data
      else k.setTile p { t with mode := mode, vals := macVals f c.fmt rows x.data t }
    let k := if w.f.toNat / 2 = 1 then { k with passing := k.passing ++ [(s.cur % 4, b)] } else k
    setS (moveToLink (s.setCoreAt core k) core)
    retireVec (.mmac w) c.takes)

/-! ## mzero, mread, mwrite, msync (R236) -/

/-- Replacing tile `n` of the current core. -/
def setTileHere (n : Nat) (t : Tile) : Act Unit := fun s =>
  let core := coreOf s.cur
  .ok () (s.setCoreAt core ((s.coreAt core).setTile n t))

/-- mzero. -/
def execMzero (w : Fld) : State → Host.Outcome State Fault Refusal :=
  vectorWord (.mzero w) (do
    let s ← getS
    let n := w.d.toNat % 8
    let c ← issue (attrCrown true) w (onCompute s && n < s.hart.grantTiles)
    setTileHere (s.hart.grantFirst + n) {}
    retireVec (.mzero w) c.takes)

/-- What mread writes: the values of a tile, or the results of the split block it heads. -/
def readTile (k : CoreSt) (p : Nat) : VReg :=
  let t := k.tile p
  if t.mode = .split then
    let sum (n : Nat) : Nat := (k.tile (p + n / 256)).val (n % 256)
    bv 8192 (packNat 64 ((List.range 32).map (splitResult t sum)))
  else t.vals

/-- mread. -/
def execMread (w : Fld) : State → Host.Outcome State Fault Refusal :=
  vectorWord (.mread w) (do
    let s ← getS
    let h := s.hart
    let n := w.a.toNat % 8
    let c ← issue (attrCrown true) w (onCompute s && n < h.grantTiles)
    let k := s.coreAt (coreOf s.cur)
    let p := h.grantFirst + n
    ensure ((k.tile p).mode ≠ .split || (k.tile p).first = 0) (.format 2 c.vtype)
    onHart (fun h => { h with vec := { h.vec with
      v := h.vec.v.set (h.vreg w.d % 32) (readTile k p) (Nat.mod_lt _ (by decide)) } })
    retireVec (.mread w) c.takes)

/-- mwrite. -/
def execMwrite (w : Fld) : State → Host.Outcome State Fault Refusal :=
  vectorWord (.mwrite w) (do
    let s ← getS
    let h := s.hart
    let n := w.d.toNat % 8
    let c ← issue (attrCrown true) w (onCompute s && n < h.grantTiles)
    setTileHere (h.grantFirst + n) { vals := h.vec.v[h.vreg w.b % 32]'(Nat.mod_lt _ (by decide)) }
    retireVec (.mwrite w) c.takes)

/-- msync: the earlier Crown words of the hart have completed when they retired and their buffers have passed. -/
def execMsync (w : Fld) : State → Host.Outcome State Fault Refusal :=
  vectorWord (.msync w) (do
    let s ← getS
    let c ← issue (attrCrown false) w (onCompute s)
    ensure (!(passWaits s s.cur)) .stall
    retireVec (.msync w) c.takes)

end Sys2Proof.Machine
end

