-- ==== Sys2Proof/Machine/Rays.lean ====
section
/-! DEFINITION. Major G, the geometric tests: rboxt, rtrit and bbovl (spec/14, R296-R302). -/

namespace Sys2Proof.Machine

/-! ## Common rules of G words (R296, R297) -/

/-- The attributes of a G word: FMT is FP32. -/
def attrG : Attr := { fmts := fun f => f = 5 }

/-- The checks of a G word in their order: the register groups (R296), ILL, the format with GRP 00, and the alignment of
rs1 before any element. -/
def issueG (w : Fld) (size align : Nat) : Act VCtx := do
  let s ← getS
  let h := s.hart
  let d : Span := ⟨h.vreg w.d, size⟩
  let src : Span := ⟨h.vreg w.b, 8⟩
  let c ← issue attrG w (!(isMilliner s.cur) && destOk h d && src.ok && destApart h d src)
  ensure (c.grp = 1) (.format 2 c.vtype)
  ensure ((h.getX w.a).toNat % align = 0) (.trap 4 (h.getX w.a))
  return c

/-- The loop of a G word: it stops at an element boundary under R138; a word that waits for another module has written
nothing. -/
def gLoop (i : Instr) (w : Fld) (c : VCtx) (size : Nat) (res : Nat → Act Nat) : Act Unit := fun s =>
  let put : PutFn := putFields (s.hart.vreg w.d) 1 32 c.dreg size 0
  match loadLoop c put res (c.vl - c.velem) c.velem true s with
  | (t, none) => retireVec i c.takes (t.setHart (c.tailZero put 256 t.hart))
  | (t, some (_, some .stall, _)) => .error .stall (t.setHart s.hart)
  | (t, some (e, x, _)) => .error (x.getD .stall) (t.setVelem e)

/-- The words of a result, the first lowest. -/
def packWords (l : List Nat) : Nat := l.foldr (fun x r => x % 2 ^ 32 + r * 2 ^ 32) 0

/-- The address of the record that element `e` names by its register `r`. -/
def recordVa (h : Hart) (w : Fld) (index size : Nat) : Nat := ((h.getX w.a).toNat + index * size) % 2 ^ 64

/-- The pieces of a record: its bytes in runs that stay on one page. -/
def recordParts (va size run : Nat) : List MPart :=
  (List.range (size / run)).map (fun k => ⟨(va + k * run) % 2 ^ 64, run, 1⟩)

/-! ## Extended exact numbers -/

/-- A ratio of dyadic numbers with a positive denominator, or an infinity. -/
inductive Ext
  | ninf
  | fin (n d : Dy)
  | pinf
  deriving DecidableEq, Repr

/-- The value of a code that is not NaN. -/
def Ext.ofVal : FVal → Ext
  | .inf true => .ninf
  | .inf false => .pinf
  | v => .fin v.dy ⟨1, 0⟩

/-- a ≤ b. -/
def Ext.le : Ext → Ext → Bool
  | .ninf, _ => true
  | _, .pinf => true
  | .fin a b, .fin c d => !((c.mul b).lt (a.mul d))
  | _, _ => false

/-- The larger. -/
def Ext.max (a b : Ext) : Ext := if a.le b then b else a
/-- The smaller. -/
def Ext.min (a b : Ext) : Ext := if a.le b then a else b

/-- −a for a dyadic number. -/
def Dy.neg (a : Dy) : Dy := ⟨-a.n, a.e⟩
/-- a − b. -/
def Dy.sub (a b : Dy) : Dy := a.add b.neg

/-- (p − o) / d for a finite p and a direction d that is not zero; o and d are not both infinite. -/
def Ext.along (p : Dy) (o d : FVal) : Ext :=
  match o, d with
  | .inf n, y => if n != y.neg then .pinf else .ninf
  | _, .inf _ => .fin ⟨0, 0⟩ ⟨1, 0⟩
  | x, y =>
    let a := p.sub x.dy
    if y.neg then .fin a.neg y.dy.neg else .fin a y.dy

/-! ## Nodes (R298, R299) -/

/-- A node: VALID, LEAF, whether it is BAD, and the box of each child per axis. -/
structure Node where
  bad : Bool
  valid : Nat
  leaf : Nat
  lo : Nat → Nat → Dy
  hi : Nat → Nat → Dy

/-- The FP32 value of a code. -/
def val32 (x : Nat) : FVal := decodeFloat fp32 x

/-- Whether a value is finite. -/
def FVal.isFin : FVal → Bool
  | .fin _ _ _ => true
  | _ => false

/-- The node in 64 bytes. -/
def nodeOf (b : Nat) : Node :=
  let byte (k : Nat) : Nat := nbits b (8 * k) 8
  let org (a : Nat) : FVal := val32 (nbits b (32 * a) 32)
  let ex (a : Nat) : Int := signedOf 8 (byte (12 + a))
  let valid := byte 15 % 16
  let leaf := byte 15 / 16
  let q (c k : Nat) : Nat := byte (24 + 6 * c + k)
  let edge (c k a : Nat) : Dy := (org a).dy.add ⟨q c (k + a), ex a⟩
  let bad := nbits b 448 64 ≠ 0 || (List.range 3).any (fun a => ex a = -128 || !(org a).isFin)
    || (List.range 4).any (fun c => leaf.testBit c && !(valid.testBit c))
    || (List.range 4).any (fun c => valid.testBit c && (List.range 3).any (fun a => q c (3 + a) < q c a))
  { bad := bad, valid := valid, leaf := leaf, lo := fun c a => edge c 0 a, hi := fun c a => edge c 3 a }

/-- The hit children with their keys in ascending key, ties in ascending child number: insertion of child after child. -/
def insertKey (c : Nat) (k : Ext) : List (Nat × Ext) → List (Nat × Ext)
  | [] => [(c, k)]
  | p :: r => if p.2.le k then p :: insertKey c k r else (c, k) :: p :: r

/-- The result word (R299): `key c` is none for a child that is not hit. -/
def nodeResult (n : Node) (nan : Bool) (key : Nat → Option Ext) : Nat :=
  let flags := n.bad.toNat * 2 ^ 31 + nan.toNat * 2 ^ 30 + (if n.bad then 0 else n.leaf) * 16
  if n.bad || nan then flags + 0xE4 * 256
  else
    let hits := (List.range 4).filterMap (fun c => if n.valid.testBit c then (key c).map (fun k => (c, k)) else none)
    let order := (hits.foldl (fun l p => insertKey p.1 p.2 l) []).map Prod.fst
    let all := order ++ (List.range 4).filter (fun c => !(order.contains c))
    flags + order.length * 2 ^ 16 + all.foldr (fun c r => c + 4 * r) 0 * 256
      + order.foldl (fun r c => r + 2 ^ c) 0

/-! ## rboxt (R300) -/

/-- near and far of one axis. -/
def slabAxis (lo hi : Dy) (o d : FVal) : Ext × Ext :=
  if d.isZero then
    (if (Ext.fin lo ⟨1, 0⟩).le (Ext.ofVal o) && (Ext.ofVal o).le (.fin hi ⟨1, 0⟩) then (.ninf, .pinf) else (.pinf, .ninf))
  else if !o.isFin && !d.isFin then (.pinf, .ninf)
  else
    let t1 := Ext.along lo o d
    let t2 := Ext.along hi o d
    (t1.min t2, t1.max t2)

/-- enter of child `c` where ray `r` (words 0-7) hits it. -/
def slabHit (n : Node) (r : Nat → FVal) (c : Nat) : Option Ext :=
  let ax (a : Nat) : Ext × Ext := slabAxis (n.lo c a) (n.hi c a) (r a) (r (3 + a))
  let enter := (List.range 3).foldl (fun e a => e.max (ax a).1) (Ext.ofVal (r 6))
  let leave := (List.range 3).foldl (fun e a => e.min (ax a).2) (Ext.ofVal (r 7))
  if enter.le leave then some enter else none

/-- The node of element `e`: its index stands in vd. -/
def readNode (w : Fld) (e : Nat) : Act Node := do
  let s ← getS
  let h := s.hart
  let b ← readElem (vecEnv s) (recordParts (recordVa h w (h.elem (h.vreg w.d) 32 e) 64) 64 64)
  return nodeOf b

/-- rboxt. -/
def execRboxt (w : Fld) : State → Host.Outcome State Fault Refusal :=
  vectorWord (.rboxt w) (do
    let c ← issueG w 1 64
    let s ← getS
    gLoop (.rboxt w) w c 1 (fun e => do
      let n ← readNode w e
      let r (k : Nat) : FVal := val32 (srcWord s.hart w k e)
      return nodeResult n ((List.range 8).any (fun k => (r k).isNan)) (slabHit n r)))

/-! ## bbovl (R301) -/

/-- a + m or a − m, none where both are infinite and the sum has no value. -/
def Ext.shift (a m : FVal) (minus : Bool) : Option Ext :=
  let m := if minus then m.negate else m
  match a, m with
  | .inf x, .inf y => if x = y then some (Ext.ofVal (.inf x)) else none
  | .inf x, _ => some (Ext.ofVal (.inf x))
  | _, .inf y => some (Ext.ofVal (.inf y))
  | x, y => some (.fin (x.dy.add y.dy) ⟨1, 0⟩)

/-- The comparisons that decide whether child `c` is hit; none for one that has no value. -/
def overlapTests (n : Node) (r : Nat → FVal) (c : Nat) : List (Option Bool) :=
  (List.range 3).flatMap (fun a =>
    let lo := Ext.shift (r a) (r 6) true
    let hi := Ext.shift (r (3 + a)) (r 6) false
    [lo.bind (fun x => hi.map x.le), lo.map (fun x => x.le (.fin (n.hi c a) ⟨1, 0⟩)),
     hi.map (fun x => Ext.le (.fin (n.lo c a) ⟨1, 0⟩) x)])

/-- Whether child `c` is hit: where a comparison of ∞ − ∞ decides, the result is free (assumption 21). -/
def overlapHit (n : Node) (r : Nat → FVal) (free : Nat) (c : Nat) : Option Ext :=
  let ts := overlapTests n r c
  let hit := !(ts.contains (some false)) && (!(ts.contains none) || free.testBit c)
  if hit then some (.fin ⟨0, 0⟩ ⟨1, 0⟩) else none

/-- bbovl. -/
def execBbovl (w : Fld) : State → Host.Outcome State Fault Refusal :=
  vectorWord (.bbovl w) (do
    let c ← issueG w 1 64
    let s ← getS
    setS s.useFresh
    gLoop (.bbovl w) w c 1 (fun e => do
      let n ← readNode w e
      let r (k : Nat) : FVal := val32 (srcWord s.hart w k e)
      return nodeResult n ((List.range 7).any (fun k => (r k).isNan))
        (overlapHit n r (Config.duplicate s.fresh e))))

/-! ## rtrit (R302) -/

/-- A point or vector. -/
structure Vec3 where
  x : Dy
  y : Dy
  z : Dy
  deriving DecidableEq, Repr

/-- a − b. -/
def Vec3.sub (a b : Vec3) : Vec3 := ⟨a.x.sub b.x, a.y.sub b.y, a.z.sub b.z⟩
/-- a × b. -/
def Vec3.cross (a b : Vec3) : Vec3 :=
  ⟨(a.y.mul b.z).sub (a.z.mul b.y), (a.z.mul b.x).sub (a.x.mul b.z), (a.x.mul b.y).sub (a.y.mul b.x)⟩
/-- a · b. -/
def Vec3.dot (a b : Vec3) : Dy := ((a.x.mul b.x).add (a.y.mul b.y)).add (a.z.mul b.z)
/-- The first nonzero of x, y, z is positive. -/
def Vec3.lexPos (a : Vec3) : Bool :=
  if a.x.n ≠ 0 then 0 < a.x.n else if a.y.n ≠ 0 then 0 < a.y.n else 0 < a.z.n

/-- A quotient rounded once; an exact zero is +0. -/
def roundRatio (r : Rounding) (a b : Dy) : Nat :=
  if a.n = 0 then 0
  else
    let k := Nat.log2 b.n.natAbs + 64
    let m := a.n.natAbs * 2 ^ k
    (roundFin r ((a.n < 0) != (b.n < 0)) (m / b.n.natAbs) (a.e - b.e - k) (m % b.n.natAbs != 0)).1

/-- A triangle record: V0, V1, V2, FLAGS and whether it is BAD. -/
structure Tri where
  bad : Bool
  v : Nat → Vec3
  flags : Nat

/-- The triangle in 48 bytes. -/
def triOf (b : Nat) : Tri :=
  let p (k : Nat) : FVal := val32 (nbits b (32 * k) 32)
  { bad := nbits b 288 32 / 4 ≠ 0 || nbits b 320 64 ≠ 0 || (List.range 9).any (fun k => !(p k).isFin)
    v := fun i => ⟨(p (3 * i)).dy, (p (3 * i + 1)).dy, (p (3 * i + 2)).dy⟩
    flags := nbits b 288 32 }

/-- The three results t, u, v of a ray against a triangle. -/
def triResult (t : Tri) (r : Nat → FVal) : List Nat :=
  let miss := [0x7F800000, 0, 0]
  if t.bad || (List.range 8).any (fun k => (r k).isNan) then [0x7FC00000, 0, 0]
  else if (List.range 6).any (fun k => !(r k).isFin) then miss
  else
    let o : Vec3 := ⟨(r 0).dy, (r 1).dy, (r 2).dy⟩
    let d : Vec3 := ⟨(r 3).dy, (r 4).dy, (r 5).dy⟩
    let a (i : Nat) : Vec3 := (t.v i).sub o
    let w (i : Nat) : Dy := d.dot ((a ((i + 1) % 3)).cross (a ((i + 2) % 3)))
    let det := ((w 0).add (w 1)).add (w 2)
    let agrees (i : Nat) : Bool :=
      if (w i).n ≠ 0 then (0 < (w i).n) == (0 < det.n) else ((t.v ((i + 2) % 3)).sub (t.v ((i + 1) % 3))).lexPos
    let culled := (det.n < 0 && t.flags.testBit 1) || (0 < det.n && t.flags.testBit 0)
    if det.n = 0 || !((List.range 3).all agrees) || culled then miss
    else
      let rn := nearestEven fp32
      let dist := roundRatio rn ((((t.v 1).sub (t.v 0)).cross ((t.v 2).sub (t.v 0))).dot (a 0)) det
      let x := Ext.ofVal (val32 dist)
      if (Ext.ofVal (r 6)).le x && x.le (Ext.ofVal (r 7)) then [dist, roundRatio rn (w 1) det, roundRatio rn (w 2) det]
      else miss

/-- rtrit: vd+0 keeps the index. -/
def execRtrit (w : Fld) : State → Host.Outcome State Fault Refusal :=
  vectorWord (.rtrit w) (do
    let c ← issueG w 4 16
    let s ← getS
    gLoop (.rtrit w) w c 4 (fun e => do
      let t ← getS
      let h := t.hart
      let index := h.elem (h.vreg w.d) 32 e
      let b ← readElem (vecEnv t) (recordParts (recordVa h w index 48) 48 16)
      return packWords (index :: triResult (triOf b) (fun k => val32 (srcWord s.hart w k e)))))

end Sys2Proof.Machine
end

