-- ==== Sys2Proof/Machine/Blocks.lean ====
section
/-! DEFINITION. The texel blocks whose decoding the spec leaves to their published specifications (spec/00, R11; spec/14,
R306): BC7, BC6H and ASTC under the LDR profile. Their texts are not part of the spec, which names them (PRESUMED,
assumption 22). A block is the number of its 16 bytes, the first lowest; a texel is named by its index in the block. -/

namespace Sys2Proof.Machine

/-! ## Partitions and weights of BC6H and BC7 -/

/-- The two-subset partitions: bit `i` is the subset of texel `i`. -/
def bcPart2 : List Nat :=
  [0xCCCC, 0x8888, 0xEEEE, 0xECC8, 0xC880, 0xFEEC, 0xFEC8, 0xEC80, 0xC800, 0xFFEC, 0xFE80, 0xE800, 0xFFE8, 0xFF00, 0xFFF0, 0xF000]
  ++ [0xF710, 0x008E, 0x7100, 0x08CE, 0x008C, 0x7310, 0x3100, 0x8CCE, 0x088C, 0x3110, 0x6666, 0x366C, 0x17E8, 0x0FF0, 0x718E, 0x399C]
  ++ [0xAAAA, 0xF0F0, 0x5A5A, 0x33CC, 0x3C3C, 0x55AA, 0x9696, 0xA55A, 0x73CE, 0x13C8, 0x324C, 0x3BDC, 0x6996, 0xC33C, 0x9966, 0x0660]
  ++ [0x0272, 0x04E4, 0x4E40, 0x2720, 0xC936, 0x936C, 0x39C6, 0x639C, 0x9336, 0x9CC6, 0x817E, 0xE718, 0xCCF0, 0x0FCC, 0x7744, 0xEE22]

/-- The three-subset partitions: bits 2i and 2i + 1 are the subset of texel `i`. -/
def bcPart3 : List Nat :=
  [0xAA685050, 0x6A5A5040, 0x5A5A4200, 0x5450A0A8, 0xA5A50000, 0xA0A05050, 0x5555A0A0, 0x5A5A5050]
  ++ [0xAA550000, 0xAA555500, 0xAAAA5500, 0x90909090, 0x94949494, 0xA4A4A4A4, 0xA9A59450, 0x2A0A4250]
  ++ [0xA5945040, 0x0A425054, 0xA5A5A500, 0x55A0A0A0, 0xA8A85454, 0x6A6A4040, 0xA4A45000, 0x1A1A0500]
  ++ [0x0050A4A4, 0xAAA59090, 0x14696914, 0x69691400, 0xA08585A0, 0xAA821414, 0x50A4A450, 0x6A5A0200]
  ++ [0xA9A58000, 0x5090A0A8, 0xA8A09050, 0x24242424, 0x00AA5500, 0x24924924, 0x24499224, 0x50A50A50]
  ++ [0x500AA550, 0xAAAA4444, 0x66660000, 0xA5A0A5A0, 0x50A050A0, 0x69286928, 0x44AAAA44, 0x66666600]
  ++ [0xAA444444, 0x54A854A8, 0x95809580, 0x96969600, 0xA85454A8, 0x80959580, 0xAA141414, 0x96960000]
  ++ [0xAAAA1414, 0xA05050A0, 0xA0A5A5A0, 0x96000000, 0x40804080, 0xA9A8A9A8, 0xAAAAAA44, 0x2A4A5254]

/-- The anchor texel of the second of two subsets. -/
def bcAnchor2 : List Nat :=
  [15, 15, 15, 15, 15, 15, 15, 15, 15, 15, 15, 15, 15, 15, 15, 15]
  ++ [15, 2, 8, 2, 2, 8, 8, 15, 2, 8, 2, 2, 8, 8, 2, 2]
  ++ [15, 15, 6, 8, 2, 8, 15, 15, 2, 8, 2, 2, 2, 15, 15, 6]
  ++ [6, 2, 6, 8, 15, 15, 2, 2, 15, 15, 15, 15, 15, 2, 2, 15]

/-- The anchor texel of the second of three subsets. -/
def bcAnchor3a : List Nat :=
  [3, 3, 15, 15, 8, 3, 15, 15, 8, 8, 6, 6, 6, 5, 3, 3]
  ++ [3, 3, 8, 15, 3, 3, 6, 10, 5, 8, 8, 6, 8, 5, 15, 15]
  ++ [8, 15, 3, 5, 6, 10, 8, 15, 15, 3, 15, 5, 15, 15, 15, 15]
  ++ [3, 15, 5, 5, 5, 8, 5, 10, 5, 10, 8, 13, 15, 12, 3, 3]

/-- The anchor texel of the third of three subsets. -/
def bcAnchor3b : List Nat :=
  [15, 8, 8, 3, 15, 15, 3, 8, 15, 15, 15, 15, 15, 15, 15, 8]
  ++ [15, 8, 15, 3, 15, 8, 15, 8, 3, 15, 6, 10, 15, 15, 10, 8]
  ++ [15, 3, 15, 10, 10, 8, 9, 10, 6, 15, 8, 15, 3, 6, 6, 8]
  ++ [15, 3, 15, 15, 15, 15, 15, 15, 15, 15, 15, 15, 3, 15, 15, 8]

/-- An entry of a table. -/
def entry (l : List Nat) (i : Nat) : Nat := (l[i]?).getD 0

/-- The subset of texel `i` in partition `p` of `n` subsets. -/
def bcSubset (n p i : Nat) : Nat :=
  match n with
  | 2 => nbits (entry bcPart2 p) i 1
  | 3 => nbits (entry bcPart3 p) (2 * i) 2
  | _ => 0

/-- Whether texel `i` is the anchor of its subset, whose index has one bit less. -/
def bcAnchor (n p i : Nat) : Bool :=
  i == 0 || (n == 2 && i == entry bcAnchor2 p) || (n == 3 && (i == entry bcAnchor3a p || i == entry bcAnchor3b p))

/-- The index of texel `i` in a list of indices of `w` bits that begins at bit `off`. -/
def bcIndex (b off w n p i : Nat) : Nat :=
  let wide (j : Nat) : Nat := if bcAnchor n p j then w - 1 else w
  nbits b (off + (List.range i).foldl (fun r j => r + wide j) 0) (wide i)

/-- The weight of an index of `w` bits, in 64ths. -/
def bcWeight (w i : Nat) : Nat :=
  match w with
  | 2 => entry [0, 21, 43, 64] i
  | 3 => entry [0, 9, 18, 27, 37, 46, 55, 64] i
  | _ => entry [0, 4, 9, 13, 17, 21, 26, 30, 34, 38, 43, 47, 51, 55, 60, 64] i

/-- Two end points blended by a weight in 64ths. -/
def blend64 (w : Nat) (a b : Int) : Int := (a * (64 - w : Int) + b * w + 32) / 64

/-! ## BC7 -/

/-- A mode: subsets; bits of the partition, the rotation and the index selector; bits of a colour and an alpha end point;
P bits (0 none, 1 for each end point, 2 for each subset); bits of an index and of a second index. -/
structure Bc7Mode where
  subsets : Nat
  part : Nat
  rot : Nat
  sel : Nat
  col : Nat
  alpha : Nat
  pbits : Nat
  idx : Nat
  idx2 : Nat
  deriving DecidableEq, Repr

/-- The mode of a number; none for the reserved one. -/
def bc7Mode : Nat → Option Bc7Mode
  | 0 => some ⟨3, 4, 0, 0, 4, 0, 1, 3, 0⟩
  | 1 => some ⟨2, 6, 0, 0, 6, 0, 2, 3, 0⟩
  | 2 => some ⟨3, 6, 0, 0, 5, 0, 0, 2, 0⟩
  | 3 => some ⟨2, 6, 0, 0, 7, 0, 1, 2, 0⟩
  | 4 => some ⟨1, 0, 2, 1, 5, 6, 0, 2, 3⟩
  | 5 => some ⟨1, 0, 2, 0, 7, 8, 0, 2, 2⟩
  | 6 => some ⟨1, 0, 0, 0, 7, 7, 1, 4, 0⟩
  | 7 => some ⟨2, 6, 0, 0, 5, 5, 1, 2, 0⟩
  | _ => none

/-- The channel that component `c` is read from under a rotation, which exchanges alpha and one colour. -/
def bc7Channel (rot c : Nat) : Nat := if rot = 0 then c else if c = 3 then rot - 1 else if c = rot - 1 then 3 else c

/-- Channel `c` of end point `e`, widened to 8 bits; `off` is the first bit of the end points. -/
def bc7End (m : Bc7Mode) (b off c e : Nat) : Nat :=
  let n := 2 * m.subsets
  let w := if c < 3 then m.col else m.alpha
  let x := nbits b (off + (if c < 3 then (c * n + e) * m.col else 3 * n * m.col + e * m.alpha)) w
  let p := nbits b (off + n * (3 * m.col + m.alpha) + (if m.pbits = 1 then e else e / 2)) 1
  let (x, w) := if m.pbits = 0 then (x, w) else (2 * x + p, w + 1)
  x * 2 ^ (8 - w) + x / 2 ^ (2 * w - 8)

/-- Component `c` of texel `i` in 8 bits; a block of the reserved mode is zero. -/
def bc7Byte (b i c : Nat) : Nat :=
  let k := lowestOne 8 b
  match bc7Mode k with
  | none => 0
  | some m =>
    let p := nbits b (k + 1) m.part
    let rot := nbits b (k + 1 + m.part) m.rot
    let sel := nbits b (k + 1 + m.part + m.rot) m.sel
    let off := k + 1 + m.part + m.rot + m.sel
    let ends := 2 * m.subsets
    let ps := if m.pbits = 0 then 0 else if m.pbits = 1 then ends else m.subsets
    let ix := off + ends * (3 * m.col + m.alpha) + ps
    let ch := bc7Channel rot c
    let s := bcSubset m.subsets p i
    let second : Bool := m.idx2 ≠ 0 && ((ch == 3) != (sel == 1))
    let w := if second then bcWeight m.idx2 (bcIndex b (ix + 16 * m.idx - 1) m.idx2 1 0 i)
      else bcWeight m.idx (bcIndex b ix m.idx m.subsets p i)
    if ch = 3 && m.alpha = 0 then 255
    else (blend64 w (bc7End m b off ch (2 * s)) (bc7End m b off ch (2 * s + 1))).toNat

/-! ## BC6H -/

/-- A mode: its mode bits; the bits of an end point and of the red, green and blue differences; whether the differences are
to be added; and the fields that follow, as (field, lowest bit, bits). Field 4c + e is channel `c` of end point `e`. -/
structure Bc6Mode where
  bits : Nat
  widths : List Nat
  deltas : Bool
  fields : List (Nat × Nat × Nat)
  deriving DecidableEq, Repr

/-- The mode of its mode bits; none for a reserved one. -/
def bc6Mode : Nat → Option Bc6Mode
| 0 => some ⟨2, [10, 5, 5, 5], true, [(6, 4, 1), (10, 4, 1), (11, 4, 1), (0, 0, 10), (4, 0, 10), (8, 0, 10), (1, 0,
      5), (7, 4, 1), (6, 0, 4), (5, 0, 5), (11, 0, 1), (7, 0, 4), (9, 0, 5), (11, 1, 1), (10, 0, 4), (2, 0, 5),
      (11, 2, 1), (3, 0, 5), (11, 3, 1)]⟩
| 1 => some ⟨2, [7, 6, 6, 6], true, [(6, 5, 1), (7, 4, 1), (7, 5, 1), (0, 0, 7), (11, 0, 1), (11, 1, 1), (10, 4,
      1), (4, 0, 7), (10, 5, 1), (11, 2, 1), (6, 4, 1), (8, 0, 7), (11, 3, 1), (11, 5, 1), (11, 4, 1), (1, 0, 6),
      (6, 0, 4), (5, 0, 6), (7, 0, 4), (9, 0, 6), (10, 0, 4), (2, 0, 6), (3, 0, 6)]⟩
| 2 => some ⟨5, [11, 5, 4, 4], true, [(0, 0, 10), (4, 0, 10), (8, 0, 10), (1, 0, 5), (0, 10, 1), (6, 0, 4), (5, 0,
      4), (4, 10, 1), (11, 0, 1), (7, 0, 4), (9, 0, 4), (8, 10, 1), (11, 1, 1), (10, 0, 4), (2, 0, 5), (11, 2, 1),
      (3, 0, 5), (11, 3, 1)]⟩
| 6 => some ⟨5, [11, 4, 5, 4], true, [(0, 0, 10), (4, 0, 10), (8, 0, 10), (1, 0, 4), (0, 10, 1), (7, 4, 1), (6, 0,
      4), (5, 0, 5), (4, 10, 1), (7, 0, 4), (9, 0, 4), (8, 10, 1), (11, 1, 1), (10, 0, 4), (2, 0, 4), (11, 0, 1),
      (11, 2, 1), (3, 0, 4), (6, 4, 1), (11, 3, 1)]⟩
| 10 => some ⟨5, [11, 4, 4, 5], true, [(0, 0, 10), (4, 0, 10), (8, 0, 10), (1, 0, 4), (0, 10, 1), (10, 4, 1), (6,
      0, 4), (5, 0, 4), (4, 10, 1), (11, 0, 1), (7, 0, 4), (9, 0, 5), (8, 10, 1), (10, 0, 4), (2, 0, 4), (11, 1,
      1), (11, 2, 1), (3, 0, 4), (11, 4, 1), (11, 3, 1)]⟩
| 14 => some ⟨5, [9, 5, 5, 5], true, [(0, 0, 9), (10, 4, 1), (4, 0, 9), (6, 4, 1), (8, 0, 9), (11, 4, 1), (1, 0,
      5), (7, 4, 1), (6, 0, 4), (5, 0, 5), (11, 0, 1), (7, 0, 4), (9, 0, 5), (11, 1, 1), (10, 0, 4), (2, 0, 5),
      (11, 2, 1), (3, 0, 5), (11, 3, 1)]⟩
| 18 => some ⟨5, [8, 6, 5, 5], true, [(0, 0, 8), (7, 4, 1), (10, 4, 1), (4, 0, 8), (11, 2, 1), (6, 4, 1), (8, 0,
      8), (11, 3, 1), (11, 4, 1), (1, 0, 6), (6, 0, 4), (5, 0, 5), (11, 0, 1), (7, 0, 4), (9, 0, 5), (11, 1, 1),
      (10, 0, 4), (2, 0, 6), (3, 0, 6)]⟩
| 22 => some ⟨5, [8, 5, 6, 5], true, [(0, 0, 8), (11, 0, 1), (10, 4, 1), (4, 0, 8), (6, 5, 1), (6, 4, 1), (8, 0,
      8), (7, 5, 1), (11, 4, 1), (1, 0, 5), (7, 4, 1), (6, 0, 4), (5, 0, 6), (7, 0, 4), (9, 0, 5), (11, 1, 1), (10,
      0, 4), (2, 0, 5), (11, 2, 1), (3, 0, 5), (11, 3, 1)]⟩
| 26 => some ⟨5, [8, 5, 5, 6], true, [(0, 0, 8), (11, 1, 1), (10, 4, 1), (4, 0, 8), (10, 5, 1), (6, 4, 1), (8, 0,
      8), (11, 5, 1), (11, 4, 1), (1, 0, 5), (7, 4, 1), (6, 0, 4), (5, 0, 5), (11, 0, 1), (7, 0, 4), (9, 0, 6),
      (10, 0, 4), (2, 0, 5), (11, 2, 1), (3, 0, 5), (11, 3, 1)]⟩
| 30 => some ⟨5, [6, 6, 6, 6], false, [(0, 0, 6), (7, 4, 1), (11, 0, 1), (11, 1, 1), (10, 4, 1), (4, 0, 6), (6, 5,
      1), (10, 5, 1), (11, 2, 1), (6, 4, 1), (8, 0, 6), (7, 5, 1), (11, 3, 1), (11, 5, 1), (11, 4, 1), (1, 0, 6),
      (6, 0, 4), (5, 0, 6), (7, 0, 4), (9, 0, 6), (10, 0, 4), (2, 0, 6), (3, 0, 6)]⟩
| 3 => some ⟨5, [10, 10, 10, 10], false, [(0, 0, 10), (4, 0, 10), (8, 0, 10), (1, 0, 10), (5, 0, 10), (9, 0, 10)]⟩
| 7 => some ⟨5, [11, 9, 9, 9], true, [(0, 0, 10), (4, 0, 10), (8, 0, 10), (1, 0, 9), (0, 10, 1), (5, 0, 9), (4, 10,
      1), (9, 0, 9), (8, 10, 1)]⟩
| 11 => some ⟨5, [12, 8, 8, 8], true, [(0, 0, 10), (4, 0, 10), (8, 0, 10), (1, 0, 8), (0, 11, 1), (0, 10, 1), (5,
      0, 8), (4, 11, 1), (4, 10, 1), (9, 0, 8), (8, 11, 1), (8, 10, 1)]⟩
| 15 => some ⟨5, [16, 4, 4, 4], true, [(0, 0, 10), (4, 0, 10), (8, 0, 10), (1, 0, 4), (0, 15, 1), (0, 14, 1), (0,
      13, 1), (0, 12, 1), (0, 11, 1), (0, 10, 1), (5, 0, 4), (4, 15, 1), (4, 14, 1), (4, 13, 1), (4, 12, 1), (4,
      11, 1), (4, 10, 1), (9, 0, 4), (8, 15, 1), (8, 14, 1), (8, 13, 1), (8, 12, 1), (8, 11, 1), (8, 10, 1)]⟩
  | _ => none

/-- A field of a block. -/
def bc6Field (m : Bc6Mode) (b f : Nat) : Nat :=
  (m.fields.foldl (fun (r : Nat × Nat) q =>
    (r.1 + q.2.2, if q.1 = f then r.2 + nbits b r.1 q.2.2 * 2 ^ q.2.1 else r.2)) (m.bits, 0)).2

/-- Channel `c` of end point `e`: the first one, another one of its own, or the first one plus a difference. -/
def bc6End (m : Bc6Mode) (b : Nat) (signed : Bool) (c e : Nat) : Int :=
  let n := entry m.widths 0
  let x := bc6Field m b (4 * c)
  let y := if e = 0 then x
    else if m.deltas then wrapTo n ((x : Int) + signedOf (entry m.widths (1 + c)) (bc6Field m b (4 * c + e)))
    else bc6Field m b (4 * c + e)
  if signed then signedOf n y else y

/-- An end point of `n` bits widened to 16 bits, or to 15 and a sign. -/
def bc6Widen (n : Nat) (signed : Bool) (x : Int) : Int :=
  if signed then
    let a := x.natAbs
    let y : Int := if 16 ≤ n || a = 0 then a else if 2 ^ (n - 1) - 1 ≤ a then 0x7FFF
      else (a * 2 ^ 15 + 0x4000) / 2 ^ (n - 1)
    if x < 0 then -y else y
  else if 15 ≤ n || x = 0 then x
  else if x = 2 ^ n - 1 then 0xFFFF
  else (x * 2 ^ 16 + 0x8000) / 2 ^ n

/-- Component `c` of texel `i` as an FP16 code; a block of a reserved mode is zero. -/
def bc6Half (b : Nat) (signed : Bool) (i c : Nat) : Nat :=
  match bc6Mode (if nbits b 0 2 < 2 then nbits b 0 2 else nbits b 0 5) with
  | none => 0
  | some m =>
    let two : Bool := m.fields.any (fun q => q.1 = 2)
    let p := nbits b 77 5
    let s := if two then bcSubset 2 p i else 0
    let w := if two then bcWeight 3 (bcIndex b 82 3 2 p i) else bcWeight 4 (bcIndex b 65 4 1 0 i)
    let e (k : Nat) : Int := bc6Widen (entry m.widths 0) signed (bc6End m b signed c k)
    let x := blend64 w (e (2 * s)) (e (2 * s + 1))
    if signed then (if x < 0 then 0x8000 else 0) + x.natAbs * 31 / 32 else (x.toNat * 31) / 64

/-! ## ASTC: bounded integer sequences -/

/-- A range of values: trits or quints (0 none, 3 or 5) above bits. -/
structure AstcRange where
  base : Nat
  bits : Nat
  deriving DecidableEq, Repr

/-- The bits that `n` values of a range take. -/
def AstcRange.size (r : AstcRange) (n : Nat) : Nat :=
  n * r.bits + (match r.base with
    | 3 => (8 * n + 4) / 5
    | 5 => (7 * n + 2) / 3
    | _ => 0)

/-- Trit `k` of the five in 8 bits. -/
def tritOf (t k : Nat) : Nat :=
  let high : Bool := nbits t 2 3 = 7
  let c := if high then nbits t 5 3 * 4 + nbits t 0 2 else nbits t 0 5
  let t4 := if high then 2 else if nbits t 5 2 = 3 then 2 else nbits t 7 1
  let t3 := if high then 2 else if nbits t 5 2 = 3 then nbits t 7 1 else nbits t 5 2
  let low (x y : Nat) : Nat := x * 2 + y * (1 - x)
  let l : List Nat :=
    if nbits c 0 2 = 3 then [low (nbits c 3 1) (nbits c 2 1), nbits c 4 1, 2]
    else if nbits c 2 2 = 3 then [nbits c 0 2, 2, 2]
    else [low (nbits c 1 1) (nbits c 0 1), nbits c 2 2, nbits c 4 1]
  entry (l ++ [t3, t4]) k

/-- Quint `k` of the three in 7 bits. -/
def quintOf (q k : Nat) : Nat :=
  if nbits q 1 2 = 3 && nbits q 5 2 = 0 then
    let z := nbits q 0 1
    entry [4, 4, z * 4 + nbits q 4 1 * (1 - z) * 2 + nbits q 3 1 * (1 - z)] k
  else
    let high : Bool := nbits q 1 2 = 3
    let c := if high then nbits q 3 2 * 8 + (3 - nbits q 5 2) * 2 + nbits q 0 1 else nbits q 0 5
    let q2 := if high then 4 else nbits q 5 2
    if nbits c 0 3 = 5 then entry [nbits c 3 2, 4, q2] k else entry [nbits c 0 3, nbits c 3 2, q2] k

/-- Value `i` of a sequence in a number: its bits, and its trit or quint, whose packed bits stand between the bits of the
values of its group. -/
def AstcRange.value (r : AstcRange) (x i : Nat) : Nat :=
  let m := r.bits
  match r.base with
  | 3 =>
    let g := i / 5 * (5 * m + 8)
    let t := nbits x (g + m) 2 + nbits x (g + 2 * m + 2) 2 * 4 + nbits x (g + 3 * m + 4) 1 * 16
      + nbits x (g + 4 * m + 5) 2 * 32 + nbits x (g + 5 * m + 7) 1 * 128
    nbits x (g + i % 5 * m + entry [0, 2, 4, 5, 7] (i % 5)) m + tritOf t (i % 5) * 2 ^ m
  | 5 =>
    let g := i / 3 * (3 * m + 7)
    let q := nbits x (g + m) 3 + nbits x (g + 2 * m + 3) 2 * 8 + nbits x (g + 3 * m + 5) 2 * 32
    nbits x (g + i % 3 * m + entry [0, 3, 5] (i % 3)) m + quintOf q (i % 3) * 2 ^ m
  | _ => nbits x (m * i) m

/-- The ranges of colour values by rising size. -/
def astcColourRanges : List AstcRange :=
  [⟨3, 1⟩, ⟨0, 3⟩, ⟨5, 1⟩, ⟨3, 2⟩, ⟨0, 4⟩, ⟨5, 2⟩, ⟨3, 3⟩, ⟨0, 5⟩, ⟨5, 3⟩, ⟨3, 4⟩, ⟨0, 6⟩, ⟨5, 4⟩, ⟨3, 5⟩, ⟨0, 7⟩,
   ⟨5, 5⟩, ⟨3, 6⟩, ⟨0, 8⟩]

/-- The range of weights of a block mode. -/
def astcWeightRange (high : Nat) (r : Nat) : Option AstcRange :=
  if r < 2 then none
  else some (if high = 0 then
      ([⟨0, 1⟩, ⟨3, 0⟩, ⟨0, 2⟩, ⟨5, 0⟩, ⟨3, 1⟩, ⟨0, 3⟩][r - 2]?).getD ⟨0, 1⟩
    else ([⟨5, 1⟩, ⟨3, 2⟩, ⟨0, 4⟩, ⟨5, 2⟩, ⟨3, 3⟩, ⟨0, 5⟩][r - 2]?).getD ⟨0, 1⟩)

/-- A value of `n` bits repeated to `w` bits. -/
def repeatBits (n x w : Nat) : Nat :=
  let k := ceilDiv w n
  (List.range k).foldl (fun r _ => r * 2 ^ n + x) 0 / 2 ^ (k * n - w)

/-- A number whose bits are bits of another: the places, the highest first, where 9 stands for a bit that is 0. -/
def spread (x : Nat) (places : List Nat) : Nat := places.foldl (fun r p => 2 * r + (if p = 9 then 0 else nbits x p 1)) 0

/-- The spread bits and the factor of a colour range with trits or quints. -/
def colourTerms : AstcRange → List Nat × Nat
  | ⟨3, 1⟩ => ([], 204)
  | ⟨3, 2⟩ => ([1, 9, 9, 9, 1, 9, 1, 1, 9], 93)
  | ⟨3, 3⟩ => ([2, 1, 9, 9, 9, 2, 1, 2, 1], 44)
  | ⟨3, 4⟩ => ([3, 2, 1, 9, 9, 9, 3, 2, 1], 22)
  | ⟨3, 5⟩ => ([4, 3, 2, 1, 9, 9, 9, 4, 3], 11)
  | ⟨3, 6⟩ => ([5, 4, 3, 2, 1, 9, 9, 9, 5], 5)
  | ⟨5, 1⟩ => ([], 113)
  | ⟨5, 2⟩ => ([1, 9, 9, 9, 9, 1, 1, 9, 9], 54)
  | ⟨5, 3⟩ => ([2, 1, 9, 9, 9, 9, 2, 1, 2], 26)
  | ⟨5, 4⟩ => ([3, 2, 1, 9, 9, 9, 9, 3, 2], 13)
  | ⟨5, 5⟩ => ([4, 3, 2, 1, 9, 9, 9, 9, 4], 6)
  | _ => ([], 0)

/-- A colour value widened to 8 bits. -/
def AstcRange.colour (r : AstcRange) (v : Nat) : Nat :=
  if r.base = 0 then repeatBits r.bits v 8
  else
    let x := v % 2 ^ r.bits
    let (places, c) := colourTerms r
    let a := x % 2 * 511
    let t := (v / 2 ^ r.bits * c + spread x places) ^^^ a
    (a &&& 0x80) ||| t / 4

/-- The spread bits and the factor of a weight range with trits or quints and bits. -/
def weightTerms : AstcRange → List Nat × Nat
  | ⟨3, 1⟩ => ([], 50)
  | ⟨3, 2⟩ => ([1, 9, 9, 9, 1, 9, 1], 23)
  | ⟨3, 3⟩ => ([2, 1, 9, 9, 9, 2, 1], 11)
  | ⟨5, 1⟩ => ([], 28)
  | ⟨5, 2⟩ => ([1, 9, 9, 9, 9, 1, 9], 13)
  | _ => ([], 0)

/-- A weight as a number from 0 to 64. -/
def AstcRange.weight (r : AstcRange) (v : Nat) : Nat :=
  let w :=
    if r.base = 0 then repeatBits r.bits v 6
    else if r.bits = 0 then (if r.base = 3 then entry [0, 32, 63] v else entry [0, 16, 32, 47, 63] v)
    else
      let x := v % 2 ^ r.bits
      let (places, c) := weightTerms r
      let a := x % 2 * 127
      let t := (v / 2 ^ r.bits * c + spread x places) ^^^ a
      (a &&& 0x20) ||| t / 4
  if 32 < w then w + 1 else w

/-! ## ASTC: the block -/

/-- The weights of a block: the grid, the range, and whether there are two planes. -/
structure AstcGrid where
  w : Nat
  h : Nat
  range : AstcRange
  dual : Bool
  deriving DecidableEq, Repr

/-- The number of weights. -/
def AstcGrid.count (g : AstcGrid) : Nat := g.w * g.h * (if g.dual then 2 else 1)
/-- The bits of the weights. -/
def AstcGrid.size (g : AstcGrid) : Nat := g.range.size g.count

/-- The grid's width and height in a block mode; none for a reserved one. -/
def astcDims (b : Nat) : Option (Nat × Nat) :=
  let x := nbits b 5 2
  let y := nbits b 7 2
  if nbits b 0 2 ≠ 0 then
    match nbits b 2 2 with
    | 0 => some (y + 4, x + 2)
    | 1 => some (y + 8, x + 2)
    | 2 => some (x + 2, y + 8)
    | _ => some (if y < 2 then (x + 2, y + 6) else (y - 2 + 2, x + 2))
  else if nbits b 2 2 = 0 then none
  else
    match y with
    | 0 => some (12, x + 2)
    | 1 => some (x + 2, 12)
    | 2 => some (x + 6, nbits b 9 2 + 6)
    | _ => match x with
      | 0 => some (6, 10)
      | 1 => some (10, 6)
      | _ => none

/-- The weights of a block mode, if a block of `bw` by `bh` texels can have them. -/
def astcGrid (bw bh b : Nat) : Option AstcGrid :=
  let low : Bool := nbits b 0 2 ≠ 0
  let r := nbits b 4 1 + (if low then nbits b 0 2 else nbits b 2 2) * 2
  let wide : Bool := !low && nbits b 7 2 = 2
  match astcDims b, astcWeightRange (if wide then 0 else nbits b 9 1) r with
  | some (w, h), some q =>
    let g : AstcGrid := ⟨w, h, q, !wide && b.testBit 10⟩
    if w ≤ bw && h ≤ bh && g.count ≤ 64 && 24 ≤ g.size && g.size ≤ 96 then some g else none
  | _, _ => none

/-- The mixing function of partition numbers, on 32 bits. -/
def hash52 (p : Nat) : Nat :=
  let m (x : Nat) : Nat := x % 2 ^ 32
  let p := p ^^^ (p >>> 15)
  let p := m (p + 2 ^ 32 - m (p <<< 17))
  let p := m (p + p <<< 7)
  let p := m (p + p <<< 4)
  let p := p ^^^ (p >>> 5)
  let p := m (p + p <<< 16)
  let p := p ^^^ (p >>> 7)
  let p := p ^^^ (p >>> 3)
  let p := p ^^^ m (p <<< 6)
  p ^^^ (p >>> 17)

/-- The partition of texel (x, y) among `n` under a partition number. -/
def astcPartition (number n x y : Nat) (small : Bool) : Nat :=
  let x := if small then 2 * x else x
  let y := if small then 2 * y else y
  let seed := number + (n - 1) * 1024
  let r := hash52 seed
  let three := if n = 3 then 6 else 5
  let four := if seed.testBit 1 then 4 else 5
  let sh1 := if seed.testBit 0 then four else three
  let sh2 := if seed.testBit 0 then three else four
  let term (k sh : Nat) : Nat := nbits r k 4 * nbits r k 4 / 2 ^ sh
  let sum (k base : Nat) : Nat := (term k sh1 * x + term (k + 4) sh2 * y + r / 2 ^ base) % 64
  let a := sum 0 14
  let b := sum 8 10
  let c := if n < 3 then 0 else sum 16 6
  let d := if n < 4 then 0 else sum 24 2
  if b ≤ a && c ≤ a && d ≤ a then 0 else if c ≤ b && d ≤ b then 1 else if d ≤ c then 2 else 3

/-- The end point modes of the partitions: one for all, or a class and two bits for each, whose upper part stands below the
weights. -/
def astcModes (b n below : Nat) : List Nat :=
  if n = 1 then [nbits b 13 4]
  else
    let sel := nbits b 23 2
    if sel = 0 then List.replicate n (nbits b 25 4)
    else
      let all := nbits b 25 4 + nbits b (below - (3 * n - 4)) (3 * n - 4) * 16
      (List.range n).map (fun i => (sel - 1 + nbits all i 1) * 4 + nbits all (n + 2 * i) 2)

/-- The number of colour values of an end point mode. -/
def modeValues (m : Nat) : Nat := 2 * (m / 4 + 1)

/-- The transfer of a bit between a base and an offset. -/
def bitTransfer (a b : Nat) : Int × Int := (signedOf 6 (a / 2 % 64), (b / 2 + a / 128 * 128 : Nat))

/-- A blue-contracted colour. -/
def blueContract (l : List Int) : List Int :=
  let g (i : Nat) : Int := (l[i]?).getD 0
  [(g 0 + g 2) / 2, (g 1 + g 2) / 2, g 2, g 3]

/-- Both end points of the LDR modes; none for an HDR mode. -/
def astcEnds (mode : Nat) (v : Nat → Nat) : Option (List Int × List Int) :=
  let i (k : Nat) : Int := v k
  let scaled (k : Nat) : Int := (v k * v 3 / 256 : Nat)
  let direct (a b : Int) : List Int × List Int :=
    if v 0 + v 2 + v 4 ≤ v 1 + v 3 + v 5 then ([i 0, i 2, i 4, a], [i 1, i 3, i 5, b])
    else (blueContract [i 1, i 3, i 5, b], blueContract [i 0, i 2, i 4, a])
  let off (k : Nat) : Int × Int := bitTransfer (v (2 * k + 1)) (v (2 * k))
  let offset (a b : Int) : List Int × List Int :=
    let lo : List Int := [(off 0).2, (off 1).2, (off 2).2, a]
    let hi : List Int := [(off 0).2 + (off 0).1, (off 1).2 + (off 1).1, (off 2).2 + (off 2).1, b]
    if 0 ≤ (off 0).1 + (off 1).1 + (off 2).1 then (lo, hi) else (blueContract hi, blueContract lo)
  let grey (a b p q : Int) : List Int × List Int := ([a, a, a, p], [b, b, b, q])
  match mode with
  | 0 => some (grey (i 0) (i 1) 255 255)
  | 1 =>
    let l : Nat := v 0 / 4 + v 1 / 64 * 64
    some (grey l (l + v 1 % 64 : Nat) 255 255)
  | 4 => some (grey (i 0) (i 1) (i 2) (i 3))
  | 5 => some (grey (off 0).2 ((off 0).2 + (off 0).1) (off 1).2 ((off 1).2 + (off 1).1))
  | 6 => some ([scaled 0, scaled 1, scaled 2, 255], [i 0, i 1, i 2, 255])
  | 8 => some (direct 255 255)
  | 9 => some (offset 255 255)
  | 10 => some ([scaled 0, scaled 1, scaled 2, i 4], [i 0, i 1, i 2, i 5])
  | 12 => some (direct (i 6) (i 7))
  | 13 => some (offset (off 3).2 ((off 3).2 + (off 3).1))
  | _ => none

/-- The weight of texel (x, y) of plane `k`, interpolated in the grid. -/
def astcWeight (g : AstcGrid) (bw bh b k x y : Nat) : Nat :=
  let bits := (List.range 128).foldl (fun r i => 2 * r + nbits b i 1) 0
  let at2 (i : Nat) : Nat := g.range.weight (g.range.value (bits % 2 ^ g.size) (if g.dual then 2 * i + k else i))
  let place (bs n s : Nat) : Nat := ((1024 + bs / 2) / (bs - 1) * s * (n - 1) + 32) / 64
  let gs := place bw g.w x
  let gt := place bh g.h y
  let fs := gs % 16
  let ft := gt % 16
  let w11 := (fs * ft + 8) / 16
  let v0 := gs / 16 + gt / 16 * g.w
  let term (w i : Nat) : Nat := if w = 0 then 0 else w * at2 i
  (term (16 + w11 - fs - ft) v0 + term (fs - w11) (v0 + 1) + term (ft - w11) (v0 + g.w) + term w11 (v0 + g.w + 1) + 8) / 16

/-- The error colour (1, 0, 1, 1). -/
def astcError (c : Nat) : Nat := if c = 1 then 0 else 0xFFFF

/-- A block of one colour: an LDR one with legal bounds. -/
def astcVoid (b c : Nat) : Nat :=
  let e (k : Nat) : Nat := nbits b (12 + 13 * k) 13
  let unbounded : Bool := nbits b 12 52 = 2 ^ 52 - 1
  if b.testBit 9 || nbits b 10 2 ≠ 3 || !(unbounded || (e 0 < e 1 && e 2 < e 3)) then astcError c else nbits b (64 + 16 * c) 16

/-- A colour of 16 bits from two end points of 8 bits and a weight; the sRGB table takes its upper 8 bits. -/
def astcBlend (srgb : Bool) (w : Nat) (p q : Int) : Nat :=
  let wide (x : Int) : Nat :=
    let n := (min 255 (max 0 x)).toNat
    n * 256 + (if srgb then 128 else n)
  (wide p * (64 - w) + wide q * w + 32) / 64

/-- Component `c` of texel (x, y) of a block whose weights are those of a grid. -/
def astcColour (g : AstcGrid) (bw bh b : Nat) (srgb : Bool) (x y c : Nat) : Nat :=
  let n := nbits b 11 2 + 1
  let sel := nbits b 23 2
  let below := 128 - g.size
  let extra := if n = 1 || sel = 0 then 0 else 3 * n - 4
  let modes := astcModes b n below
  let values := modes.foldl (fun r m => r + modeValues m) 0
  let start := if n = 1 then 17 else 29
  let stop := below - extra - (if g.dual then 2 else 0)
  match (astcColourRanges.filter (fun r => r.size values ≤ stop - start)).getLast? with
  | none => astcError c
  | some r =>
    if (g.dual && n = 4) || 18 < values || modes.any (fun m => (astcEnds m (fun _ => 0)).isNone) then astcError c
    else
      let part := if n = 1 then 0 else astcPartition (nbits b 13 10) n x y (bw * bh < 31)
      let first := (modes.take part).foldl (fun r m => r + modeValues m) 0
      let data := nbits b start (r.size values)
      match astcEnds (entry modes part) (fun k => r.colour (r.value data (first + k))) with
      | none => astcError c
      | some (p, q) =>
        let plane := if g.dual && nbits b stop 2 = c then 1 else 0
        astcBlend srgb (astcWeight g bw bh b plane x y) ((p[c]?).getD 0) ((q[c]?).getD 0)

/-- Component `c` of texel (x, y) of a block of `bw` by `bh` texels, in 16 bits: under the LDR profile a block that is no
legal encoding, or that uses an HDR mode, has the error colour. -/
def astcComp (bw bh b : Nat) (srgb : Bool) (x y c : Nat) : Nat :=
  if nbits b 0 9 = 0x1FC then astcVoid b c
  else match astcGrid bw bh b with
    | none => astcError c
    | some g => astcColour g bw bh b srgb x y c

end Sys2Proof.Machine
end

