-- ==== Sys2Proof/Machine/Texel.lean ====
section
/-! DEFINITION. Texture records, their tiles and their texels (spec/14, R305-R307): the record's fields and reserved
codes, the layout of levels, and the decoding of texels to exact values. -/

namespace Sys2Proof.Machine

/-! ## Formats (R306) -/

/-- How a unit's bytes are decoded. -/
inductive TexKind | unorm | half | single | bc1 | bc3 | bc4 | bc5 | bc6 | bc7 | astc
  deriving DecidableEq, Repr

/-- A texel format: decoding, components, texels per unit, bytes per unit, units per tile, and whether SRGB is legal. -/
structure TexFmt where
  kind : TexKind
  comps : Nat
  uw : Nat
  uh : Nat
  bytes : Nat
  tw : Nat
  th : Nat
  srgb : Bool
  deriving DecidableEq, Repr

/-- The format of a code; every other code is reserved. -/
def texFmt (f : Nat) : Option TexFmt :=
  let astc (w h : Nat) : Option TexFmt := some ⟨.astc, 4, w, h, 16, 64, 64, true⟩
  match f with
  | 0x01 => some ⟨.unorm, 1, 1, 1, 1, 256, 256, false⟩
  | 0x02 => some ⟨.unorm, 2, 1, 1, 2, 256, 128, false⟩
  | 0x03 => some ⟨.unorm, 4, 1, 1, 4, 128, 128, true⟩
  | 0x04 => some ⟨.half, 1, 1, 1, 2, 256, 128, false⟩
  | 0x05 => some ⟨.half, 2, 1, 1, 4, 128, 128, false⟩
  | 0x06 => some ⟨.half, 4, 1, 1, 8, 128, 64, false⟩
  | 0x07 => some ⟨.single, 1, 1, 1, 4, 128, 128, false⟩
  | 0x08 => some ⟨.single, 4, 1, 1, 16, 64, 64, false⟩
  | 0x10 => some ⟨.bc1, 4, 4, 4, 8, 128, 64, true⟩
  | 0x11 => some ⟨.bc3, 4, 4, 4, 16, 64, 64, true⟩
  | 0x12 => some ⟨.bc4, 1, 4, 4, 8, 128, 64, false⟩
  | 0x13 => some ⟨.bc4, 1, 4, 4, 8, 128, 64, false⟩
  | 0x14 => some ⟨.bc5, 2, 4, 4, 16, 64, 64, false⟩
  | 0x15 => some ⟨.bc5, 2, 4, 4, 16, 64, 64, false⟩
  | 0x16 => some ⟨.bc6, 3, 4, 4, 16, 64, 64, false⟩
  | 0x17 => some ⟨.bc6, 3, 4, 4, 16, 64, 64, false⟩
  | 0x18 => some ⟨.bc7, 4, 4, 4, 16, 64, 64, true⟩
  | 0x20 => astc 4 4
  | 0x21 => astc 5 4
  | 0x22 => astc 5 5
  | 0x23 => astc 6 5
  | 0x24 => astc 6 6
  | 0x25 => astc 8 5
  | 0x26 => astc 8 6
  | 0x27 => astc 8 8
  | _ => none

/-! ## Records (R305) -/

/-- A texture record. -/
structure TexRec where
  base : Nat
  resmap : Nat
  minres : Nat
  width : Nat
  height : Nat
  layers : Nat
  levels : Nat
  code : Nat
  fmt : TexFmt
  srgb : Bool
  magf : Nat
  minf : Nat
  mipf : Nat
  aniso : Nat
  addru : Nat
  addrv : Nat
  bias : Int
  minlod : Nat
  maxlod : Nat
  border : Nat
  texid : Nat
  deriving DecidableEq, Repr

/-- The record in 64 bytes; none where it carries a reserved code. -/
def texRecOf (b : Nat) : Option TexRec :=
  let q (k : Nat) : Nat := nbits b (64 * k) 64
  let d := q 3
  let m := q 4
  match texFmt (nbits d 48 8) with
  | none => none
  | some f =>
    let r : TexRec :=
      { base := q 0, resmap := q 1, minres := q 2, width := nbits d 0 16 + 1, height := nbits d 16 16 + 1
        layers := nbits d 32 12 + 1, levels := nbits d 44 4 + 1, code := nbits d 48 8, fmt := f, srgb := d.testBit 56
        magf := nbits m 0 2, minf := nbits m 2 2, mipf := nbits m 4 2, aniso := nbits m 6 3
        addru := nbits m 9 2, addrv := nbits m 11 2, bias := signedOf 8 (nbits m 13 8)
        minlod := nbits m 21 4, maxlod := nbits m 25 4, border := q 5, texid := nbits (q 6) 0 32 }
    let bad := nbits (q 0) 0 16 ≠ 0 || nbits (q 0) 47 17 ≠ 0 || nbits (q 1) 0 3 ≠ 0 || nbits (q 1) 47 17 ≠ 0
      || nbits (q 2) 47 17 ≠ 0 || nbits d 57 7 ≠ 0 || 1 + Nat.log2 (max r.width r.height) < r.levels
      || (r.srgb && !f.srgb) || 2 ≤ r.magf || 2 ≤ r.minf || r.mipf = 3 || 5 ≤ r.aniso
      || nbits m 29 35 ≠ 0 || r.maxlod < r.minlod || nbits (q 6) 32 32 ≠ 0 || q 7 ≠ 0
    if bad then none else some r

/-! ## Levels and tiles (R307) -/

/-- W(L). -/
def TexRec.w (r : TexRec) (l : Nat) : Nat := max 1 (r.width / 2 ^ l)
/-- H(L). -/
def TexRec.h (r : TexRec) (l : Nat) : Nat := max 1 (r.height / 2 ^ l)
/-- TX(L). -/
def TexRec.tilesX (r : TexRec) (l : Nat) : Nat := ceilDiv (ceilDiv (r.w l) r.fmt.uw) r.fmt.tw
/-- TY(L). -/
def TexRec.tilesY (r : TexRec) (l : Nat) : Nat := ceilDiv (ceilDiv (r.h l) r.fmt.uh) r.fmt.th
/-- LT(L); TT is LT(LEVELS). -/
def TexRec.tilesBelow (r : TexRec) (l : Nat) : Nat :=
  (List.range l).foldl (fun n k => n + r.tilesX k * r.tilesY k) 0

/-- A tile: its number, its place in its level. -/
structure TexTile where
  num : Nat
  tx : Nat
  ty : Nat
  deriving DecidableEq, Repr

/-- The tile of texel (x, y) of level `l` in layer `a`. -/
def TexRec.tile (r : TexRec) (l a x y : Nat) : TexTile :=
  let tx := x / r.fmt.uw / r.fmt.tw
  let ty := y / r.fmt.uh / r.fmt.th
  ⟨a * r.tilesBelow r.levels + r.tilesBelow l + ty * r.tilesX l + tx, tx, ty⟩

/-- The address of the unit of texel (x, y) of level `l` in layer `a`. -/
def TexRec.unitVa (r : TexRec) (l a x y : Nat) : Nat :=
  let ux := x / r.fmt.uw
  let uy := y / r.fmt.uh
  (r.base + (r.tile l a x y).num * 65536 + (uy % r.fmt.th * r.fmt.tw + ux % r.fmt.tw) * r.fmt.bytes) % 2 ^ 64

/-! ## Texel values (R306) -/

/-- An exact value v / d. -/
structure TexVal where
  v : FVal
  d : Nat
  deriving DecidableEq, Repr

/-- n / d for an integer n. -/
def TexVal.ratio (n : Int) (d : Nat) : TexVal := ⟨intVal n, d⟩

/-- The greatest code of at most 2^bits − 1 above `c` for which the midpoint to the code below it, to the fifth power
and with the denominator cleared, lies below `p`: the nearest FP32 value to p^(1/5) / 53,805^(12/5). -/
def srgbSearch (p : Nat) : Nat → Nat → Nat
  | 0, c => c
  | n + 1, c =>
    let k := c + 2 ^ n
    let mid := ((val32 (k - 1)).dy.add (val32 k).dy).mul ⟨1, -1⟩
    let m2 := mid.mul mid
    let lhs := ((m2.mul m2).mul mid).mul ⟨53805 ^ 12, 0⟩
    srgbSearch p n (if lhs.lt ⟨p, 0⟩ then k else c)

/-- The sRGB table: the FP32 value nearest the decoding of n/255. -/
def srgb (n : Nat) : TexVal :=
  let code :=
    if n * 100000 ≤ 4045 * 255 then roundRatio (nearestEven fp32) ⟨n * 100, 0⟩ ⟨255 * 1292, 0⟩
    else srgbSearch ((200 * n + 2805) ^ 12) 30 0
  ⟨val32 code, 1⟩

/-- A palette entry: floor((wa·A + wb·B + ⌊den/2⌋) / den). -/
def palette (wa wb den : Nat) (a b : Int) : Int := (wa * a + wb * b + (den / 2 : Nat)) / (den : Int)

/-- A field widened to 8 bits by bit replication. -/
def widen8 (n x : Nat) : Nat := if n = 5 then x * 8 + x / 4 else x * 4 + x / 16

/-- Component `c` of entry `i` of a colour block of BC1 and BC3: `four` forces four colours (assumption 23). -/
def bcColour (b : Nat) (four : Bool) (i c : Nat) : Int :=
  let e (k : Nat) : Nat := nbits b (16 * k) 16
  let chan (k : Nat) : Int :=
    match c with
    | 0 => widen8 5 (nbits (e k) 11 5)
    | 1 => widen8 6 (nbits (e k) 5 6)
    | 2 => widen8 5 (nbits (e k) 0 5)
    | _ => 255
  let code := nbits b (32 + 2 * i) 2
  if four || e 1 < e 0 then
    match code with
    | 0 => chan 0
    | 1 => chan 1
    | 2 => if c = 3 then 255 else palette 2 1 3 (chan 0) (chan 1)
    | _ => if c = 3 then 255 else palette 1 2 3 (chan 0) (chan 1)
  else
    match code with
    | 0 => chan 0
    | 1 => chan 1
    | 2 => if c = 3 then 255 else palette 1 1 2 (chan 0) (chan 1)
    | _ => 0

/-- Entry `i` of a one-channel block of BC3, BC4 and BC5 (assumption 23). -/
def bcChannel (b : Nat) (signed : Bool) (i : Nat) : Int :=
  let e (k : Nat) : Int := if signed then signedOf 8 (nbits b (8 * k) 8) else nbits b (8 * k) 8
  let code := nbits b (16 + 3 * i) 3
  if e 1 < e 0 then
    match code with
    | 0 => e 0
    | 1 => e 1
    | k => palette (8 - k) (k - 1) 7 (e 0) (e 1)
  else
    match code with
    | 0 => e 0
    | 1 => e 1
    | 6 => if signed then -127 else 0
    | 7 => if signed then 127 else 255
    | k => palette (6 - k) (k - 1) 5 (e 0) (e 1)

/-- A channel value as a component. -/
def channelVal (signed : Bool) (n : Int) : TexVal :=
  if signed then .ratio (max n (-127)) 127 else .ratio n 255

/-- Component `c` of texel `i` of a unit with bytes `b`; the missing ones read as green = blue = 0 and alpha = 1. -/
def texelComp (r : TexRec) (b i c : Nat) : TexVal :=
  let f := r.fmt
  let eight (n : Nat) : TexVal := if r.srgb && c < 3 then srgb n else .ratio n 255
  if f.comps ≤ c then (if c = 3 then .ratio 1 1 else .ratio 0 1)
  else match f.kind with
    | .unorm => eight (nbits b (8 * c) 8)
    | .half => ⟨decodeFloat fp16 (nbits b (16 * c) 16), 1⟩
    | .single => ⟨val32 (nbits b (32 * c) 32), 1⟩
    | .bc1 => eight (bcColour b false i c).toNat
    | .bc3 => if c = 3 then .ratio (bcChannel b false i) 255 else eight (bcColour (b / 2 ^ 64) true i c).toNat
    | .bc4 => channelVal (r.code = 0x13) (bcChannel b (r.code = 0x13) i)
    | .bc5 => channelVal (r.code = 0x15) (bcChannel (b / 2 ^ (64 * c)) (r.code = 0x15) i)
    | .bc6 => ⟨decodeFloat fp16 (bc6Half b (r.code = 0x17) i c), 1⟩
    | .bc7 => eight (bc7Byte b i c)
    | .astc =>
      let x := astcComp f.uw f.uh b r.srgb (i % f.uw) (i / f.uw) c
      if r.srgb then eight (x / 256) else .ratio x 65535

/-- The index of texel (x, y) in its unit. -/
def TexRec.inUnit (r : TexRec) (x y : Nat) : Nat := y % r.fmt.uh * r.fmt.uw + x % r.fmt.uw

/-- BORDER's component `c`. -/
def TexRec.borderVal (r : TexRec) (c : Nat) : TexVal := ⟨decodeFloat fp16 (nbits r.border (16 * c) 16), 1⟩

end Sys2Proof.Machine
end

