-- ==== Sys2Proof/Machine/Texture.lean ====
section
/-! DEFINITION. Texture sampling: txs, txg, txf and txlod with the fallback rule, and the feedback of misses (spec/14,
R308-R314). -/

namespace Sys2Proof.Machine

/-! ## Addressing and footprints (R309, R310) -/

/-- A texel coordinate mapped into a level of size `n`: wrap, mirror, clamp to edge, or border. -/
def texAddr (c : Int) (n mode : Nat) : Option Nat :=
  if 0 ≤ c && c < n then some c.toNat
  else match mode with
    | 0 => some (c % (n : Int)).toNat
    | 1 =>
      let m := (c % (2 * n : Nat)).toNat
      some (if m < n then m else 2 * n - 1 - m)
    | 2 => some (if c < 0 then 0 else n - 1)
    | _ => none

/-- A texel of a sample: its place, or none for the border, and its weight in units of 2^−16. -/
structure Tap where
  at' : Option (Nat × Nat)
  weight : Nat
  deriving DecidableEq, Repr

/-- The texels that a tap at (x, y) reads, x and y being u × W(L) and v × H(L) before the −½ placement. -/
def tapTexels (r : TexRec) (l filter : Nat) (x y : Dy) : List Tap :=
  let at' (i j : Int) : Option (Nat × Nat) :=
    match texAddr i (r.w l) r.addru, texAddr j (r.h l) r.addrv with
    | some a, some b => some (a, b)
    | _, _ => none
  if filter = 0 then [⟨at' x.floor y.floor, 2 ^ 16⟩]
  else
    let px := x.add ⟨-1, -1⟩
    let py := y.add ⟨-1, -1⟩
    let x0 := px.floor
    let y0 := py.floor
    let fx := (Dy.mul (px.add ⟨-x0, 0⟩) ⟨256, 0⟩).floor.toNat
    let fy := (Dy.mul (py.add ⟨-y0, 0⟩) ⟨256, 0⟩).floor.toNat
    [⟨at' x0 y0, (256 - fx) * (256 - fy)⟩, ⟨at' (x0 + 1) y0, fx * (256 - fy)⟩,
     ⟨at' x0 (y0 + 1), (256 - fx) * fy⟩, ⟨at' (x0 + 1) (y0 + 1), fx * fy⟩]

/-- The texels of every tap at a level. -/
def footprint (r : TexRec) (taps : List (Dy × Dy)) (l filter : Nat) : List Tap :=
  taps.flatMap (fun t => tapTexels r l filter (t.1.mul ⟨r.w l, 0⟩) (t.2.mul ⟨r.h l, 0⟩))

/-- The tiles that texels touch, each once. -/
def tilesOf (r : TexRec) (l layer : Nat) (ts : List Tap) : List TexTile :=
  (ts.filterMap (fun t => t.at'.map (fun p => r.tile l layer p.1 p.2))).eraseDups

/-! ## The level of detail (R308) -/

/-- What a request asks for: the taps, their number, λ′ in units of 1/256, the wanted level, the blend fraction in the
same units, and the filters at the wanted level and at a coarser one. -/
structure Lod where
  taps : List (Dy × Dy)
  n : Nat
  lam : Int
  want : Nat
  frac : Nat
  filter : Nat
  coarse : Nat

/-- floor(128 × log2 of a positive dyadic number). -/
def log128 (a : Dy) : Int := (Nat.log2 (a.n.natAbs ^ 128) : Int) + 128 * a.e

/-- The tap count: the smallest allowed power of two that reaches min(maximum, ceil(ρmax / ρmin)). -/
def tapCount (aniso : Nat) (big small : Dy) : Nat :=
  if aniso = 0 || big.n = 0 then 1
  else if small.n = 0 then 2 ^ aniso
  else match (List.range aniso).find? (fun k => !((small.mul ⟨4 ^ k, 0⟩).lt big)) with
    | some k => 2 ^ k
    | none => 2 ^ aniso

/-- The level of detail of a request with finite words; `mip` is the MIPF in force and `single` asks for one tap. -/
def lodOf (r : TexRec) (q : Nat → FVal) (mip : Nat) (one : Bool) : Lod :=
  let u := (q 1).dy
  let v := (q 2).dy
  let sq (a b : Nat) : Dy :=
    let x := (q a).dy.mul ⟨r.width, 0⟩
    let y := (q b).dy.mul ⟨r.height, 0⟩
    (x.mul x).add (y.mul y)
  let rx := sq 4 5
  let ry := sq 6 7
  let xMajor := !(rx.lt ry)
  let big := if xMajor then rx else ry
  let n := if one then 1 else tapCount r.aniso big (if xMajor then ry else rx)
  let lo : Int := 256 * r.minlod
  let hi : Int := 256 * (min r.maxlod (r.levels - 1) : Nat)
  let lam := min (if big.n = 0 then lo else max (log128 big - 256 * (Nat.log2 n : Int) + 16 * r.bias) lo) hi
  let want := match mip with
    | 0 => ((lam + 128) / 256).toNat
    | 1 => (lam / 256).toNat
    | _ => 0
  let major (a b : Nat) : Dy := (if xMajor then q a else q b).dy
  let off (i : Nat) : Dy := ⟨2 * i + 1 - n, -1 - (Nat.log2 n : Int)⟩
  { taps := (List.range n).map (fun i => (u.add ((off i).mul (major 4 6)), v.add ((off i).mul (major 5 7))))
    n := n, lam := lam, want := want, frac := if mip = 1 then (lam - 256 * want).toNat else 0
    filter := if 0 < lam then r.minf else r.magf, coarse := r.minf }

/-- λ′ as FP32. -/
def lamCode (lam : Int) : Nat := (roundDy (nearestEven fp32) false ⟨lam, -8⟩).1

/-! ## Reads of the texture unit (R309) -/

/-- The authority of the texture unit's reads: the hart's vector agent, with the texture cache's words of other
modules. -/
def texEnv (s : State) : Env := { vecEnv s with slot := 8 }

/-- A read that gives UNAVAIL where it cannot be performed; an uncorrectable error also posts its record (R376). -/
def texRead (va n : Nat) : Act (Option Nat) := fun s =>
  match loadVa (texEnv s) .load va n s with
  | .ok x s => .ok (some x) s
  | .error .stall s => .error .stall s
  | .error (.uncorrectable _ _ u a) s => .ok none (errorRecord u a s)
  | .error _ s => .ok none s

/-- The residency bit of a tile (R307). -/
def resident (r : TexRec) (num : Nat) : Act (Option Bool) := do
  let b ← texRead ((r.resmap + num / 8) % 2 ^ 64) 1
  return b.map (fun x => x.testBit (num % 8))

/-- The tiles of a list that are not resident; none where a bit cannot be read. -/
def missing (r : TexRec) : List TexTile → Act (Option (List TexTile))
  | [] => fun s => .ok (some []) s
  | t :: ts => do
    let b ← resident r t.num
    let l ← missing r ts
    return (match b, l with
      | some x, some m => some (if x then m else t :: m)
      | _, _ => none)

/-- The first level from `l` on, of `n` more, whose footprint is resident: LEVELS where there is none. -/
def findLevel (r : TexRec) (layer : Nat) (foot : Nat → List Tap) : Nat → Nat → Act (Option Nat)
  | 0, _ => fun s => .ok (some r.levels) s
  | n + 1, l =>
    if r.levels ≤ l then fun s => .ok (some r.levels) s
    else do
      match ← missing r (tilesOf r l layer (foot l)) with
      | none => return none
      | some [] => return some l
      | some _ => findLevel r layer foot n (l + 1)

/-! ## The level used (R309) -/

/-- The outcome of the fallback rule: KIND, D, the level used, SINGLE, whether level W + 1 is blended in, and the level
and the tiles of the misses. -/
structure Picked where
  kind : Nat
  d : Nat
  level : Nat
  single : Bool := false
  blend : Bool := false
  missLevel : Nat := 0
  misses : List TexTile := []

/-- The fallback rule: `x0` and `y0` name the level-0 texel of (u, v), `foot` the texels at a level; none is UNAVAIL. -/
def pickLevel (r : TexRec) (layer want frac : Nat) (x0 y0 : Nat) (foot : Nat → List Tap) : Act (Option Picked) := do
  let t := r.tile 0 0 x0 y0
  let at' := r.minres + layer * r.tilesX 0 * r.tilesY 0 + t.ty * r.tilesX 0 + t.tx
  match ← texRead (at' % 2 ^ 64) 1 with
  | none => return none
  | some m =>
    let m := if m = 0xFF then r.levels else m
    match ← findLevel r layer foot (r.levels + 1) (max want m) with
    | none => return none
    | some l =>
      if l = want then
        if frac = 0 || want + 1 = r.levels then return some { kind := 0, d := 0, level := want }
        else match ← missing r (tilesOf r (want + 1) layer (foot (want + 1))) with
          | none => return none
          | some [] => return some { kind := 0, d := 0, level := want, blend := true }
          | some ms => return some { kind := 0, d := 0, level := want, single := true, missLevel := want + 1, misses := ms }
      else match ← missing r (tilesOf r want layer (foot want)) with
        | none => return none
        | some ms =>
          if r.levels ≤ l then return some { kind := 2, d := 0, level := 0, missLevel := want, misses := ms }
          else return some { kind := 1, d := l - want, level := l, missLevel := want, misses := ms }

/-- The status word (R311). -/
def statusWord (p : Picked) (want : Nat) : Nat :=
  p.kind + p.d % 16 * 4 + p.level % 16 * 64 + want % 16 * 1024 + p.single.toNat * 16384

/-! ## Filtering (R310) -/

/-- The units of the texels of a level, read once each in their order: component values by texel. -/
def readTexels (r : TexRec) (l layer : Nat) : List Tap → Act (Option (List (Nat × (Nat → TexVal))))
  | [] => fun s => .ok (some []) s
  | t :: ts => do
    match t.at' with
    | none =>
      let rest ← readTexels r l layer ts
      return rest.map (fun m => (t.weight, r.borderVal) :: m)
    | some (x, y) =>
      let b ← texRead (r.unitVa l layer x y) r.fmt.bytes
      let rest ← readTexels r l layer ts
      return (match b, rest with
        | some b, some m => some ((t.weight, texelComp r b (r.inUnit x y)) :: m)
        | _, _ => none)

/-- A sum a / b of exact terms. -/
def addTerm (acc : Dy × Nat) (w : Nat) (v : TexVal) : Dy × Nat :=
  let l := Nat.lcm acc.2 v.d
  ((acc.1.mul ⟨l / acc.2, 0⟩).add (v.v.dy.mul ⟨w * (l / v.d), 0⟩), l)

/-- The weighted sum of a component over texels, in units of 2^−shift, rounded once (R310). -/
def blendComp (ts : List (Nat × TexVal)) (shift : Nat) : Nat :=
  let live := ts.filter (fun t => t.1 ≠ 0)
  let pos := live.any (fun t => t.2.v = .inf false)
  let neg := live.any (fun t => t.2.v = .inf true)
  if live.any (fun t => t.2.v.isNan) || (pos && neg) then 0x7FC00000
  else if pos then 0x7F800000
  else if neg then 0xFF800000
  else
    let s := live.foldl (fun a t => addTerm a t.1 t.2) (⟨0, 0⟩, 1)
    roundRatio (nearestEven fp32) (s.1.mul ⟨1, -(shift : Int)⟩) ⟨s.2, 0⟩

/-- A single component as FP32. -/
def compCode (v : TexVal) : Nat := blendComp [(1, v)] 0

/-! ## Feedback of misses (R312, R313) -/

/-- A slot of the feedback ring: 16 bytes, bytes 4-15 before bytes 0-3. -/
def postMiss (cl : Nat) (m : TexMiss) (s : State) : State :=
  let c := s.clusterAt cl
  if c.misses.contains m then s
  else
    let pt := s.partAt m.part
    let r := pt.fbr
    let slot := r.base.toNat + r.widx.toNat % r.slots * 16
    if !r.en || r.full || !(writable s m.part slot 16) then
      s.setPartAt m.part { pt with fbr := { r with drop := satInc r.drop } }
    else
      let s := s.setPartAt m.part { pt with fbr := { r with widx := r.widx + 1 } }
      let w : Writer := { hart := agentCount, scalar := true }
      let s := s.pushStore w (slot + 4) (toBytes 4 m.texid ++ toBytes 4 m.tx ++ toBytes 4 m.ty)
      let s := s.pushStore w slot (toBytes 4 ((r.phase r.widx).toNat * 2 ^ 31 + m.level % 16 * 2 ^ 16 + m.layer % 2 ^ 16))
      let all := c.misses ++ [m]
      s.setClusterAt cl { s.clusterAt cl with misses := all.drop (all.length - 64) }

/-- The misses of an element: they are posted when the word ends, so that a word that waits and begins again posts none
twice. -/
def postMisses (r : TexRec) (layer : Nat) (p : Picked) : Act Unit := fun s =>
  let new : List TexMiss := p.misses.map (fun t =>
    { part := partOf s s.cur, texid := r.texid, layer := layer, level := p.missLevel, tx := t.tx, ty := t.ty })
  .ok () (s.setHart { s.hart with run := { s.hart.run with misses := s.hart.run.misses ++ new } })

/-- The end of a texture word: its misses are posted, and the unit's reads of other modules are settled. -/
def endTexture (s : State) : State :=
  let ms := s.hart.run.misses
  let s := s.setHart { s.hart with run := { s.hart.run with misses := [] } }
  settleReads s.cur 8 (ms.foldl (fun s m => postMiss (clusterOf s.cur) m s) s)

/-! ## The texture words (R311) -/

/-- The eight words of a sampled element. -/
def texResult (vals : List Nat) (status lam n : Nat) : Nat := packWords (vals ++ [status, lam, n, 0])

/-- The result of a request with a NaN or an infinity. -/
def texNaN : Nat := texResult (List.replicate 4 0x7FC00000) 3 0x7FC00000 1

/-- Whether a request has a NaN or an infinity in u, v or a derivative (R308). -/
def badRequest (q : Nat → FVal) : Bool := [1, 2, 4, 5, 6, 7].any (fun k => !(q k).isFin)

/-- The record of an element, or what stops it: a reserved code is the format fault with the record's address. -/
def readRecord (w : Fld) (e : Nat) : Act TexRec := do
  let s ← getS
  let h := s.hart
  let va := recordVa h w (srcWord h w 0 e) 64
  let b ← readElem (vecEnv s) (recordParts va 64 64)
  match texRecOf b with
  | some r => return r
  | none => stop (.format 4 (bv 64 va))

/-- The layer of an element, clamped. -/
def layerOf (h : Hart) (w : Fld) (r : TexRec) (e : Nat) : Nat := min (srcWord h w 3 e % 2 ^ 16) (r.layers - 1)

/-- The level-0 texel of (u, v), mapped into the level with border acting as clamp. -/
def baseTexel (r : TexRec) (q : Nat → FVal) : Nat × Nat :=
  let m (k : Nat) : Nat := if k = 3 then 2 else k
  ((texAddr (Dy.mul (q 1).dy ⟨r.width, 0⟩).floor r.width (m r.addru)).getD 0,
   (texAddr (Dy.mul (q 2).dy ⟨r.height, 0⟩).floor r.height (m r.addrv)).getD 0)

/-- The footprint of a request at a level: the filter in force at the wanted level, MINF at any other. A level that is
blended in has λ′ > 0, so that its filter is MINF too. -/
def coarseFoot (r : TexRec) (q : Lod) (l : Nat) : List Tap :=
  footprint r q.taps l (if l = q.want then q.filter else q.coarse)

/-- The picked level of a request with finite words. -/
def pickFor (r : TexRec) (layer : Nat) (v : Nat → FVal) (q : Lod) : Act (Option Picked) :=
  let b := baseTexel r v
  pickLevel r layer q.want q.frac b.1 b.2 (coarseFoot r q)

/-- The components of a sampled element, by the level picked. -/
def sampleComps (r : TexRec) (layer : Nat) (q : Lod) (p : Picked) : Act (Option (List Nat)) := do
  let comps (ts : List (Nat × (Nat → TexVal))) : List Nat :=
    (List.range 4).map (fun c => blendComp (ts.map (fun t => (t.1, t.2 c))) (24 + Nat.log2 q.n))
  let scale (k : Nat) (l : List Tap) : List Tap := l.map (fun t => { t with weight := t.weight * k })
  if p.kind = 2 then return some ((List.range 4).map (fun c => compCode (r.borderVal c)))
  else
    let a ← readTexels r p.level layer (scale (if p.blend then 256 - q.frac else 256) (coarseFoot r q p.level))
    if p.blend then
      let b ← readTexels r (p.level + 1) layer (scale q.frac (coarseFoot r q (p.level + 1)))
      return (match a, b with
        | some x, some y => some (comps (x ++ y))
        | _, _ => none)
    else return a.map comps

/-- BORDER as four FP32 components. -/
def borderComps (r : TexRec) : List Nat := (List.range 4).map (fun c => compCode (r.borderVal c))

/-- UNAVAIL because a read could not be performed. -/
def unavail (r : TexRec) (vals : List Nat) (q : Lod) : Nat :=
  let _ := r
  texResult vals (3 + q.want % 16 * 1024) (lamCode q.lam) q.n

/-- One element of txs. -/
def txsElem (w : Fld) (e : Nat) : Act Nat := do
  let s ← getS
  let h := s.hart
  let r ← readRecord w e
  let v (k : Nat) : FVal := val32 (srcWord h w k e)
  if badRequest v then return texNaN
  else
    let q := lodOf r v r.mipf false
    let layer := layerOf h w r e
    match ← pickFor r layer v q with
    | none => return unavail r (borderComps r) q
    | some p =>
      match ← sampleComps r layer q p with
      | none => return unavail r (borderComps r) q
      | some cs =>
        postMisses r layer p
        return texResult cs (statusWord p q.want) (lamCode q.lam) q.n

/-- The loop of a texture word. -/
def texWord (i : Instr) (w : Fld) (size : Nat) (res : Nat → Act Nat) : State → Host.Outcome State Fault Refusal :=
  vectorWord i (do
    let c ← issueG w size 64
    fun s => match gLoop i w c size res s with
      | .ok _ t => .ok () (endTexture t)
      | .error .stall t => .error .stall (if t.hart.run.misses.isEmpty then t else endTexture t)
      | .error x t => .error x (endTexture t))

/-- txs. -/
def execTxs (w : Fld) : State → Host.Outcome State Fault Refusal := texWord (.txs w) w 8 (txsElem w)

/-- The values of the texels of the picked level, or `border` where no level is sampled. -/
def pickedVals (r : TexRec) (layer : Nat) (p : Picked) (border : List Nat) (foot : Nat → List Tap)
    (f : List (Nat × (Nat → TexVal)) → List Nat) : Act (Option (List Nat)) :=
  if p.kind = 2 then fun s => .ok (some border) s
  else do
    let ts ← readTexels r p.level layer (foot p.level)
    return ts.map f

/-- One element of txg: the component of four texels, without weights. -/
def txgElem (w : Fld) (e : Nat) : Act Nat := do
  let s ← getS
  let h := s.hart
  let r ← readRecord w e
  let v (k : Nat) : FVal := val32 (srcWord h w k e)
  if badRequest v then return texNaN
  else
    let q := { lodOf r v 0 true with filter := 1, coarse := 1 }
    let layer := layerOf h w r e
    let comp := nbits (srcWord h w 3 e) 16 2
    let border := List.replicate 4 (compCode (r.borderVal comp))
    match ← pickFor r layer v q with
    | none => return unavail r border q
    | some p =>
      let cs ← pickedVals r layer p border (coarseFoot r q) (fun l => l.map (fun t => compCode (t.2 comp)))
      match cs with
      | none => return unavail r border q
      | some cs =>
        postMisses r layer p
        return texResult cs (statusWord p q.want) (lamCode q.lam) 1

/-- txg. -/
def execTxg (w : Fld) : State → Host.Outcome State Fault Refusal := texWord (.txg w) w 8 (txgElem w)

/-- The texel of txf at level `l`: the coordinates shifted right by D; one that the shift leaves outside the level is
a free one inside it (assumption 24). -/
def fetchTap (r : TexRec) (want x y free l : Nat) : List Tap :=
  let into (c n : Nat) : Nat := if c < n then c else Config.duplicate free c % n
  [⟨some (into (x / 2 ^ (l - want)) (r.w l), into (y / 2 ^ (l - want)) (r.h l)), 1⟩]

/-- One element of txf. -/
def txfElem (w : Fld) (free e : Nat) : Act Nat := do
  let s ← getS
  let h := s.hart
  let r ← readRecord w e
  let x := srcWord h w 1 e
  let y := srcWord h w 2 e
  let want := srcWord h w 4 e
  let lam := (roundFin (nearestEven fp32) false want 0 false).1
  let layer := layerOf h w r e
  let wantBits := if want < 16 then want else Config.freeNat free
  if r.levels ≤ want || r.w want ≤ x || r.h want ≤ y then
    return texResult (borderComps r) (statusWord { kind := 2, d := 0, level := 0 } wantBits) lam 1
  else
    let foot := fetchTap r want x y free
    let x0 := min (x * 2 ^ want) (r.width - 1)
    let y0 := min (y * 2 ^ want) (r.height - 1)
    let none' := texResult (borderComps r) (3 + want % 16 * 1024) lam 1
    match ← pickLevel r layer want 0 x0 y0 foot with
    | none => return none'
    | some p =>
      let comps (l : List (Nat × (Nat → TexVal))) : List Nat :=
        (List.range 4).map (fun c => blendComp (l.map (fun t => (t.1, t.2 c))) 0)
      let cs ← pickedVals r layer p (borderComps r) foot comps
      match cs with
      | none => return none'
      | some cs =>
        postMisses r layer p
        return texResult cs (statusWord p want) lam 1

/-- txf. -/
def execTxf (w : Fld) (s : State) : Host.Outcome State Fault Refusal :=
  texWord (.txf w) w 8 (txfElem w s.fresh) s.useFresh

/-- One element of txlod: λ′ and the status that txs would return. -/
def txlodElem (w : Fld) (e : Nat) : Act Nat := do
  let s ← getS
  let h := s.hart
  let r ← readRecord w e
  let v (k : Nat) : FVal := val32 (srcWord h w k e)
  if badRequest v then return packWords [0x7FC00000, 3]
  else
    let q := lodOf r v r.mipf false
    match ← pickFor r (layerOf h w r e) v q with
    | none => return packWords [lamCode q.lam, 3 + q.want % 16 * 1024]
    | some p => return packWords [lamCode q.lam, statusWord p q.want]

/-- txlod. -/
def execTxlod (w : Fld) : State → Host.Outcome State Fault Refusal := texWord (.txlod w) w 2 (txlodElem w)

end Sys2Proof.Machine
end

