-- ==== Sys2Proof/Machine/Body.lean ====
section
/-! DEFINITION. The words a repetition body may hold (spec/04, R86), with their meanings, and the prefix word (R85). -/

namespace Sys2Proof.Machine

/-- pfx (R85): VPFX takes the fields with V = 1; in a body DREG is advanced by the pass (R87). A pending prefix makes it illegal, and V stays 1. -/
def execPfx (w : PfxFld) : State → Host.Outcome State Fault Refusal := fun s =>
  if s.hart.pfxOn || !(vectorAgent s) then .next (afterStop (.pfx w) .illegal s)
  else
    let v : BitVec 12 := bv 12 (s.hart.vreg w.dreg * 128 + w.dcv.toNat * 64 + w.zero.toNat * 32 + w.inv.toNat * 16
      + w.mreg.toNat * 2 + 1)
    let h := s.hart.vretire false
    .next (s.setHart { h with vec := { h.vec with vpfx := v }, run := { h.run with pfxOwn := true } })

/-- The meaning of a word that a body may hold: a pfx or a word of major A, F, P, M, K or G that is no configuration word
and writes no x or f register. -/
def bodyExec (i : Instr) (s : State) : Option (Host.Outcome State Fault Refusal) :=
  match i with
  | .pfx w => some (execPfx w s)
  | .vadd w => some (execVadd w s)
  | .vsub w => some (execVsub w s)
  | .vrsub w => some (execVrsub w s)
  | .vadc w => some (execVadc w s)
  | .vsbc w => some (execVsbc w s)
  | .vmul w => some (execVmul w s)
  | .vmulh w => some (execVmulh w s)
  | .vmulhz w => some (execVmulhz w s)
  | .vmacc w => some (execVmacc w s)
  | .vnmsac w => some (execVnmsac w s)
  | .vdiv w => some (execVdiv w s)
  | .vdivz w => some (execVdivz w s)
  | .vrem w => some (execVrem w s)
  | .vremz w => some (execVremz w s)
  | .vmin w => some (execVmin w s)
  | .vminz w => some (execVminz w s)
  | .vmax w => some (execVmax w s)
  | .vmaxz w => some (execVmaxz w s)
  | .vsadd w => some (execVsadd w s)
  | .vsaddz w => some (execVsaddz w s)
  | .vssub w => some (execVssub w s)
  | .vssubz w => some (execVssubz w s)
  | .vavg w => some (execVavg w s)
  | .vabsd w => some (execVabsd w s)
  | .vand w => some (execVand w s)
  | .vor w => some (execVor w s)
  | .vxor w => some (execVxor w s)
  | .vandn w => some (execVandn w s)
  | .vsll w => some (execVsll w s)
  | .vsrl w => some (execVsrl w s)
  | .vsra w => some (execVsra w s)
  | .vrol w => some (execVrol w s)
  | .vfadd w => some (execVfadd w s)
  | .vfsub w => some (execVfsub w s)
  | .vfmul w => some (execVfmul w s)
  | .vfdiv w => some (execVfdiv w s)
  | .vfmadd w => some (execVfmadd w s)
  | .vfmsub w => some (execVfmsub w s)
  | .vfnmadd w => some (execVfnmadd w s)
  | .vfnmsub w => some (execVfnmsub w s)
  | .vfmin w => some (execVfmin w s)
  | .vfmax w => some (execVfmax w s)
  | .vfsgnj w => some (execVfsgnj w s)
  | .vfsgnjn w => some (execVfsgnjn w s)
  | .vfsgnjx w => some (execVfsgnjx w s)
  | .vfceq w => some (execVfceq w s)
  | .vfclt w => some (execVfclt w s)
  | .vfcle w => some (execVfcle w s)
  | .vfredsum w => some (execVfredsum w s)
  | .vfredtree w => some (execVfredtree w s)
  | .vfredmin w => some (execVfredmin w s)
  | .vfredmax w => some (execVfredmax w s)
  | .mxdot w => some (execMxdot w s)
  | .pladd w => some (execPladd w s)
  | .plsub w => some (execPlsub w s)
  | .plmul w => some (execPlmul w s)
  | .pldot w => some (execPldot w s)
  | .plcmp w => some (execPlcmp w s)
  | .vfsqrt w => some (execVfsqrt w s)
  | .vfclass w => some (execVfclass w s)
  | .vfrec w => some (execVfrec w s)
  | .vfrsq w => some (execVfrsq w s)
  | .vfexp2 w => some (execVfexp2 w s)
  | .vfcvt w => some (execVfcvt w s)
  | .vfround w => some (execVfround w s)
  | .mxpack w => some (execMxpack w s)
  | .mxunpack w => some (execMxunpack w s)
  | .plconv w => some (execPlconv w s)
  | .vceq w => some (execVceq w s)
  | .vcne w => some (execVcne w s)
  | .vclt w => some (execVclt w s)
  | .vcltz w => some (execVcltz w s)
  | .vcle w => some (execVcle w s)
  | .vclez w => some (execVclez w s)
  | .vcgt w => some (execVcgt w s)
  | .vcgtz w => some (execVcgtz w s)
  | .vredsum w => some (execVredsum w s)
  | .vredmin w => some (execVredmin w s)
  | .vredminz w => some (execVredminz w s)
  | .vredmax w => some (execVredmax w s)
  | .vredmaxz w => some (execVredmaxz w s)
  | .vredand w => some (execVredand w s)
  | .vredor w => some (execVredor w s)
  | .vredxor w => some (execVredxor w s)
  | .vslup w => some (execVslup w s)
  | .vsldn w => some (execVsldn w s)
  | .vsl1up w => some (execVsl1up w s)
  | .vsl1dn w => some (execVsl1dn w s)
  | .vgath w => some (execVgath w s)
  | .vmerge w => some (execVmerge w s)
  | .vxput w => some (execVxput w s)
  | .mand w => some (execMand w s)
  | .mor w => some (execMor w s)
  | .mxor w => some (execMxor w s)
  | .mandn w => some (execMandn w s)
  | .mshl w => some (execMshl w s)
  | .vbcast w => some (execVbcast w s)
  | .vmov w => some (execVmov w s)
  | .vcomp w => some (execVcomp w s)
  | .vexpd w => some (execVexpd w s)
  | .vconf w => some (execVconf w s)
  | .viota w => some (execViota w s)
  | .vidx w => some (execVidx w s)
  | .vwiden w => some (execVwiden w s)
  | .vnarrow w => some (execVnarrow w s)
  | .vsext w => some (execVsext w s)
  | .vzext w => some (execVzext w s)
  | .vclz w => some (execVclz w s)
  | .vctz w => some (execVctz w s)
  | .vpopc w => some (execVpopc w s)
  | .vbrev w => some (execVbrev w s)
  | .mnot w => some (execMnot w s)
  | .mmov w => some (execMmov w s)
  | .mvtom w => some (execMvtom w s)
  | .mmtov w => some (execMmtov w s)
  | .vld w => some (execVld w s)
  | .vlds w => some (execVlds w s)
  | .vldx w => some (execVldx w s)
  | .vldseg w => some (execVldseg w s)
  | .vldm w => some (execVldm w s)
  | .sld w => some (execSld w s)
  | .vwait w => some (execVwait w s)
  | .vst w => some (execVst w s)
  | .vsts w => some (execVsts w s)
  | .vstx w => some (execVstx w s)
  | .vstxa w => some (execVstxa w s)
  | .vstseg w => some (execVstseg w s)
  | .vstm w => some (execVstm w s)
  | .wdecl w => some (execWdecl w s)
  | .wacc w => some (execWacc w s)
  | .wmerge w => some (execWmerge w s)
  | .wdrop w => some (execWdrop w s)
  | .mdetach w => some (execMdetach w s)
  | .mload w => some (execMload w s)
  | .mmac w => some (execMmac w s)
  | .mzero w => some (execMzero w s)
  | .mread w => some (execMread w s)
  | .mwrite w => some (execMwrite w s)
  | .msync w => some (execMsync w s)
  | .rboxt w => some (execRboxt w s)
  | .rtrit w => some (execRtrit w s)
  | .bbovl w => some (execBbovl w s)
  | .txs w => some (execTxs w s)
  | .txg w => some (execTxg w s)
  | .txf w => some (execTxf w s)
  | .txlod w => some (execTxlod w s)
  | _ => none

end Sys2Proof.Machine
end

