-- ==== Sys2Proof/Machine/Domain.lean ====
section
/-! DEFINITION. Domains: the descriptor, arrival, waiting, completion and breaking (spec/10, R218-R227; spec/19, R406),
with what power shedding and a quiesce hold at a completion (spec/17, R370, R373). -/

namespace Sys2Proof.Machine

/-! ## The descriptor (R219) -/

/-- The domain a hart belongs to: partition, identifier, level and the physical address of its descriptor. -/
structure DomRef where
  part : Nat
  id : Nat
  level : Nat
  addr : Nat
  deriving DecidableEq, Repr

/-- A system core that no partition holds (R406). -/
def unassigned (s : State) (h : Nat) : Bool :=
  kindOf h = .system && !(s.parts.any (fun p => p.2.sc.getLsbD (h - 9216)))

/-- DOM_BASE + ID × 32, for an identifier below 2^LOG2N of an enabled table. -/
def descriptorAddr (s : State) (p id : Nat) : Option Nat :=
  let t := (s.partAt p).dom
  if t.en && id < 2 ^ t.log2n.toNat then some (t.base.toNat + id * 32) else none

/-- The level and identifier in a hart's DOMAIN register. -/
def Hart.domainNow (h : Hart) : Nat × Nat := (h.level, fieldOf h.dev.domain 8 24)

/-- The level and identifier that every domain word but an arrival uses: those of an arrival not passed yet stand against a
write to DOMAIN (R29). -/
def Hart.domainHeld (h : Hart) : Nat × Nat := h.run.arrival.getD h.domainNow

/-- The domain of the current hart by level and identifier, or none where R221 and R406 give STATUS 3 without a look at the
descriptor. -/
def domainOf (s : State) (d : Nat × Nat) : Option DomRef :=
  let p := partOf s s.cur
  if isMilliner s.cur || d.1 = 0 || unassigned s s.cur then none
  else (descriptorAddr s p d.2).map (fun a => { part := p, id := d.2, level := d.1, addr := a })

/-- A word of a descriptor: memory of the partition, memory of another module, and else zero, which is not LIVE
(assumption 20). -/
def descriptorWord (r : DomRef) (off : Nat) : Act Word := fun s =>
  let a := r.addr + off
  match regionOf s a with
  | .own =>
    if ownerOf s a ≠ r.part then .ok 0 s
    else match forward s a with
      | some b => .ok (read8 s.mem b) s
      | none => .error .stall s
  | .far _ => match remoteAtomic (envOf s s.cur false) 1 0 a a 8 [] s with
    | .ok v s => .ok (bv 64 v) s
    | .error x s => .error x s
  | _ => .ok 0 s

/-- The domain unit's store to a descriptor of this package. -/
def setDescriptor (s : State) (a : Nat) (v : Word) : State :=
  s.pushStore { hart := agentCount, scalar := true } a (toBytes 8 v.toNat)

/-- The domain unit does not read a descriptor to which a store is on its way at its home, nor one in a region that waits to be
copied: it updates a descriptor atomically (R219). -/
def descriptorBusy (s : State) (a : Nat) : Bool := spanBusy s a 16 || (forward s a).isNone

/-- A descriptor's word 1 makes the domain usable by a hart of a level (R221). -/
def usable (w1 : Word) (level : Nat) : Bool := bitOf w1 63 && fieldOf w1 56 3 = level

/-- rd of the domain words (R221). -/
def domResult (status phase : Nat) : Word := bv 64 (status * 2 ^ 60 + phase % 2 ^ 32)

/-- The scope of a level's release and acquire (R220), by scope code. -/
def levelScope (level : Nat) : Nat :=
  if level ≤ 2 then 2 else if level ≤ 4 then 3 else if level = 5 then 4 else 5

/-! ## Arrival (R223, R225) -/

/-- The partials that a hart has placed belong to the phase it arrives at (R225). -/
def stampPartials (s : State) (who : Nat) (r : DomRef) (phase : Nat) : State :=
  if kindOf who = .compute then
    let k := clusterOf who
    let c := s.clusterAt k
    s.setClusterAt k { c with partials := c.partials.map (fun p =>
      let new : Partial := { p with part := r.part, dom := r.id, phase := some phase }
      if p.hart = who && p.phase.isNone then new else p) }
  else s

/-- ARRIVED of a live descriptor has been given a value: completion begins where that is MEMBERS. -/
def noteArrived (s : State) (part id a arrived : Nat) : State :=
  let pt := s.partAt part
  if arrived = readNat s.mem (placed s a) 4 && !(pt.completing.contains id) then
    s.setPartAt part { pt with completing := pt.completing ++ [id] }
  else s

/-- The hart has arrived in a domain and not passed (R29). -/
def Hart.arriveIn (h : Hart) (r : DomRef) : Hart := { h with run := { h.run with arrival := some (r.level, r.id) } }

/-- The hart has passed the phase it arrived at (R29), or a darrive has found none: the written DOMAIN applies from now
on. -/
def passDomain : Act Unit := onHart (fun h => { h with run := { h.run with arrival := none } })

/-- The arrival at a home on another module: an addition to ARRIVED (assumption 20). -/
def arriveFar (r : DomRef) (phase : Nat) : Act (Nat × Nat) := do
  let s ← getS
  let _ ← remoteAtomic (envOf s s.cur false) 3 3 r.addr r.addr 8 (toBytes 8 (2 ^ 32))
  let s ← getS
  setS (stampPartials s s.cur r phase)
  onHart (fun h => h.arriveIn r)
  return (0, phase)

/-- The arrival at a home of this package. -/
def arriveHere (r : DomRef) (phase : Nat) : Act (Nat × Nat) := do
  let s ← getS
  ensure (!(descriptorBusy s r.addr)) .stall
  let w0 := read8 s.mem (placed s r.addr)
  let s := setDescriptor s r.addr (w0 + bv 64 (2 ^ 32))
  setS (noteArrived (stampPartials s s.cur r phase) r.part r.id r.addr ((fieldOf w0 32 32 + 1) % 2 ^ 32))
  onHart (fun h => h.arriveIn r)
  return (0, phase)

/-- The phase that an arrival on its way to another module has read. -/
def arrivalPhase (s : State) : Option Nat :=
  match s.hart.run.wait with
  | some x => if x.kind = .other && x.pc = s.hart.pc then x.phase else none
  | none => none

/-- An arrival at the descriptor's home: STATUS and the PHASE read (R223, R227). -/
def arrive (r : DomRef) : Act (Nat × Nat) := do
  let s ← getS
  match arrivalPhase s with
  | some p => arriveFar r p
  | none =>
    let w1 ← descriptorWord r 8
    let phase := fieldOf w1 0 32
    if !(usable w1 r.level) then return (3, 0)
    else if bitOf w1 62 then return (2, phase)
    else
      match regionOf s r.addr with
      | .far _ =>
        onHart (fun h => { h with run := { h.run with wait := some { waitHere s .other (2 ^ 63) with phase := some phase } } })
        arriveFar r phase
      | _ => arriveHere r phase

/-- The domain words, legal on every agent (R221): without a domain the word ends with STATUS 3 by `out`. -/
def domainWord (i : Instr) (d : Hart → Nat × Nat) (out : Nat → Nat → Act Unit) (a : DomRef → Act Unit) :
    State → Host.Outcome State Fault Refusal :=
  scalarWord i (fun _ => true) (fun s => match domainOf s (d s.hart) with
    | none => out 3 0 s
    | some r => a r s)

/-- A domain word retires with STATUS and PHASE. -/
def retireDomain (rd : BitVec 5) (st p : Nat) : Act Unit := retireWith rd (domResult st p)

/-- A darrive retires; an arrival that was not counted leaves the hart with the domain that DOMAIN names (R29). -/
def retireDarrive (rd : BitVec 5) (st p : Nat) : Act Unit := do
  if st = 0 then retireDomain rd st p
  else
    passDomain
    retireDomain rd st p

/-- While message steps are visible an arrival travels: the hart waits for DOMAIN_ARRIVAL. -/
def awaitArrival : Act Unit := fun s => stallWith (waitHere s .other (2 ^ 63)) s

/-- darrive. -/
def execDarrive (w : SFld) : State → Host.Outcome State Fault Refusal :=
  domainWord (.darrive w) Hart.domainNow (retireDarrive w.rd) (fun r => do
    let s ← getS
    ensure (!(fenceWaits s (levelScope r.level))) .stall
    if s.stepwise then awaitArrival
    else
      let (st, p) ← arrive r
      retireDarrive w.rd st p)

/-! ## Waiting (R224) -/

/-- The acquire of a completed wait: at level 6 or 7 the core drops the words of other modules (R283). -/
def acquireDomain (r : DomRef) (s : State) : State := if 6 ≤ r.level then dropRemoteWords s s.cur else s

/-- A phase is complete when PHASE satisfies p + 1 (R224). -/
def phaseDone (phase p : Nat) : Bool := satisfies phase (p + 1)

/-- The partials of this module for a phase that the home on another module has completed are folded before the hart
sees the completion (assumption 20). -/
def foldHere (r : DomRef) (p : Nat) : Act Unit := fun s =>
  match regionOf s r.addr with
  | .far _ => foldPhase r.part r.id p s
  | _ => .ok () s

/-- CHAN.PCLASS. -/
def Hart.pclass (h : Hart) : Nat := fieldOf h.dev.chan 13 2

/-- A hart held by power shedding or by a cluster quiesce parks with PCAUSE 4 before its dwait or dbar retires (R370,
R373): the wait stands. -/
def Hart.heldPark (h : Hart) (shed quiesce : Bool) : Hart :=
  { h with ctl := { h.ctl with
      parked := true
      pcause := 4
      mode := h.priv
      rpc := h.pc
      heldShed := shed
      shedClass := bv 2 h.pclass
      heldQuiesce := quiesce } }

/-- Whether power shedding and a quiesce hold a hart at a completion of its domain (R370, R373). -/
def heldAt (s : State) (who : Nat) (h : Hart) : Bool × Bool :=
  let free := kindOf who ≠ .compute || h.ctl.parked
  (!free && s.power.shed.getLsbD h.pclass,
   !free && (s.clusterAt (clusterOf who)).req && (s.clusterAt (clusterOf who)).wakeStep < 4)

/-- The completion of a domain homed on another module has reached a hart that is to be held: it is held before its wait
retires (R370, R373). -/
def holdFar (r : DomRef) : Act Unit := do
  let s ← getS
  let (shed, quiesce) := heldAt s s.cur s.hart
  match regionOf s r.addr with
  | .far _ =>
    if shed || quiesce then
      onHart (fun h => h.heldPark shed quiesce)
      stop .stall
    else fun s => .ok () s
  | _ => fun s => .ok () s

/-- One test of a waiting dwait or dbar for phase `p`: it retires by `done`, or goes on waiting. A descriptor of another
module is read every 256 cc (R283). -/
def testPhase (r : DomRef) (t : Wait) (p : Nat) (done : Nat → Nat → Act Unit) : Act Unit := do
  let s ← getS
  let here := match regionOf s r.addr with
    | .far _ => (findRemote s s.cur 0 1 (r.addr + 8) 8).isSome || t.again ≤ s.ccOf s.cur
    | _ => true
  onHart (fun h => { h with run := { h.run with wait := some t } })
  if !here then stop .stall
  else
    let w1 ← descriptorWord r 8
    let phase := fieldOf w1 0 32
    if bitOf w1 62 then
      passDomain
      done 2 phase
    else if phaseDone phase p then
      foldHere r p
      holdFar r
      passDomain
      let s ← getS
      setS (acquireDomain r s)
      done 0 phase
    else stallWith { t with last := some (bv 64 phase), again := s.ccOf s.cur + 256 }

/-- Whether the current hart is already waiting here with a word of a kind. -/
def waitingHere (s : State) (kind : WaitKind) : Bool :=
  match s.hart.run.wait with
  | some x => x.kind = kind && x.pc = s.hart.pc
  | none => false

/-- The check of the descriptor at the issue of a wait. -/
def issueWait (r : DomRef) (waiting : Bool) : Act Bool := do
  if waiting then return true
  else
    let w1 ← descriptorWord r 8
    return usable w1 r.level

/-- dwait. -/
def execDwait (w : SFld) : State → Host.Outcome State Fault Refusal :=
  domainWord (.dwait w) Hart.domainHeld (retireDomain w.rd) (fun r => do
    let s ← getS
    let ok ← issueWait r (waitingHere s .dwait)
    if ok then
      testPhase r (waitHere s .dwait (2 ^ (2 * w.x.toNat + 8))) (fieldOf (s.hart.getX w.rs1) 0 32)
        (retireDomain w.rd)
    else retireDomain w.rd 3 0)

/-- DOMAIN.ARR. -/
def Hart.arrived (h : Hart) : Bool := bitOf h.dev.domain 3

/-- dbar retires with a status: DOMAIN.ARR becomes 0, but not in a user-level handler (R224). -/
def retireDbar (rd : BitVec 5) (st p : Nat) : Act Unit :=
  onHart (fun h =>
    let h := (h.setX rd (domResult st p)).retire
    if h.inHandler then h else { h with dev := { h.dev with domain := setBit h.dev.domain 3 false } })

/-- The arrival part of dbar has been counted at a phase: APH and ARR, and the wait begins (R224). -/
def arriveDbar (x : Nat) (p : Nat) : Act Unit := fun s =>
  let h := s.hart
  let t : Wait := { kind := .dbar, pc := h.pc, ends := s.ccOf s.cur + 2 ^ (2 * x + 8), phase := some p, again := s.ccOf s.cur }
  let h := { h with run := { h.run with wait := some t } }
  .ok () (s.setHart (if h.inHandler then h
    else { h with dev := { h.dev with domain := setBit (setField h.dev.domain 32 32 p) 3 true } }))

/-- The wait part of dbar: for the phase it arrived at, kept in the wait, else in APH. -/
def waitDbar (r : DomRef) (w : SFld) : Act Unit := fun s =>
  let h := s.hart
  let t := waitHere s .dbar (2 ^ (2 * w.x.toNat + 8))
  testPhase r t (t.phase.getD (fieldOf h.dev.domain 32 32)) (retireDbar w.rd) s

/-- Whether a dbar issued now is in its wait part (R224). -/
def Hart.dbarWaits (h : Hart) : Bool :=
  let waits := match h.run.wait with
    | some x => x.kind = .dbar && x.pc = h.pc
    | none => false
  waits || (h.arrived && !h.inHandler)

/-- The domain that dbar concerns: while it waits, that of its arrival (R29). -/
def Hart.domainOfDbar (h : Hart) : Nat × Nat := if h.dbarWaits then h.domainHeld else h.domainNow

/-- A dbar retires without a counted arrival; where that was its darrive part the written DOMAIN applies (R29). -/
def retireMissed (rd : BitVec 5) (st p : Nat) : Act Unit := do
  let s ← getS
  if s.hart.dbarWaits then retireDbar rd st p
  else
    passDomain
    retireDbar rd st p

/-- dbar. -/
def execDbar (w : SFld) : State → Host.Outcome State Fault Refusal :=
  domainWord (.dbar w) Hart.domainOfDbar (retireMissed w.rd) (fun r => do
    let s ← getS
    let h := s.hart
    if waitingHere s .dbar then waitDbar r w
    else if h.arrived && !h.inHandler then
      let ok ← issueWait r false
      if ok then waitDbar r w else retireDbar w.rd 3 0
    else
      ensure (!(fenceWaits s (levelScope r.level))) .stall
      if s.stepwise then awaitArrival
      else
        let (st, p) ← arrive r
        if st = 0 then
          arriveDbar w.x.toNat p
          waitDbar r w
        else retireMissed w.rd st p)

/-- dphase. -/
def execDphase (w : SFld) : State → Host.Outcome State Fault Refusal :=
  domainWord (.dphase w) Hart.domainHeld (retireDomain w.rd) (fun r => do
    let w1 ← descriptorWord r 8
    if !(usable w1 r.level) then retireDomain w.rd 3 0
    else retireDomain w.rd 0 (fieldOf w1 0 32))

/-! ## Completion (R218, R223, R370) -/

/-- Whether a hart belongs to a domain: by its arrival, else by its DOMAIN register. -/
def inDomain (s : State) (h : Nat) (x : Hart) (part id : Nat) : Bool :=
  x.domainHeld.1 ≠ 0 && x.domainHeld.2 = id && partOf s h = part

/-- The members of a completing domain whose task's power class is shed, or whose cluster is to quiesce, are held (R370,
R373). -/
def holdMembers (s : State) (part id : Nat) : State :=
  { s with harts := s.harts.map (fun p => (p.1,
      let (shed, quiesce) := heldAt s p.1 p.2
      if inDomain s p.1 p.2 part id && (shed || quiesce) then p.2.heldPark shed quiesce
      else p.2)) }

/-- Completion of a domain's phase: the folds, and once they are performed ARRIVED := 0 and PHASE := PHASE + 1, in one store
of both words at the home, and the power checks. A failed domain does not complete. -/
def completeDomain (part id : Nat) : Act Unit := do
  let s ← getS
  match descriptorAddr s part id with
  | none => setS (dropCompleting s)
  | some a =>
    let w1 := read8 s.mem (placed s (a + 8))
    if bitOf w1 62 || !(bitOf w1 63) then setS (dropCompleting s)
    else
      foldPhase part id (fieldOf w1 0 32)
      let s ← getS
      ensure (!(descriptorBusy s a)) .stall
      let w0 := setField (read8 s.mem (placed s a)) 32 32 0
      let w1 := setField w1 0 32 ((fieldOf w1 0 32 + 1) % 2 ^ 32)
      let s := s.pushStore { hart := agentCount, scalar := true } a (toBytes 8 w0.toNat ++ toBytes 8 w1.toNat)
      setS (holdMembers (dropCompleting s) part id)
where
  /-- The domain is no longer completing. -/
  dropCompleting (s : State) : State :=
    let pt := s.partAt part
    s.setPartAt part { pt with completing := pt.completing.filter (fun k => k ≠ id) }

/-- DOMAIN_COMPLETION: the completion that has begun of domain `id` of partition `part`. -/
def execDomainCompletion (part id : Nat) (s : State) : Host.Outcome State Fault Refusal :=
  if (s.partAt part).completing.contains id then
    match completeDomain part id s with
    | .ok _ t => .next t
    | .error _ t => .next t
  else .next s

/-- DOMAIN_ARRIVAL: the arrival of a hart that waits at darrive or dbar reaches the descriptor's home (R223). -/
def execDomainArrival (h : Nat) (s : State) : Host.Outcome State Fault Refusal :=
  let t := { s with cur := h }
  let back : Host.Outcome State Fault Refusal → Host.Outcome State Fault Refusal
    | .next u => .next { u with cur := s.cur }
    | x => x
  if h < agentCount && waitingHere t .other && s.stepwise then
    match wordAt t, domainOf t t.hart.domainNow with
    | some (.darrive w), some r => back (runAct (.darrive w) (do
        let (st, p) ← arrive r
        retireDarrive w.rd st p) t)
    | some (.dbar w), some r => back (runAct (.dbar w) (do
        let (st, p) ← arrive r
        if st = 0 then arriveDbar w.x.toNat p else retireMissed w.rd st p) t)
    | _, _ => .next s
  else .next s
where
  /-- The buffered word at PC. -/
  wordAt (s : State) : Option Instr :=
    match s.hart.run.fetch.find? (fun p => p.1 == s.hart.pc.toNat) with
    | some p => (decode p.2).toOption
    | none => none

/-! ## Breaking (R226) -/

/-- The home finds an uncorrectable error in ARRIVED or PHASE of a live descriptor: FAILED is set, the partials of the
phase are discarded, and a record of kind 0x04 is posted (R226, R268). -/
def breakDomain (part id : Nat) (s : State) : State :=
  match descriptorAddr s part id with
  | none => s
  | some a =>
    let w1 := read8 s.mem (placed s (a + 8))
    if regionOf s a ≠ .own || !(bitOf w1 63) || bitOf w1 62 || descriptorBusy s a then s
    else
      let s := dropPartials s part id (fieldOf w1 0 32)
      let s := setDescriptor s (a + 8) (setBit w1 62 true)
      (postRecord s part 0x04 (fieldOf w1 56 3) (0xFFFFFFF8 + homeDie s a) 0 (bv 64 id) (bv 64 a)).1

/-- A word of memory takes an uncorrectable error (R206, R375). -/
def strikeWord (s : State) (w : Nat) : State :=
  let a := w / 8 * 8
  if s.coh.poison.contains a then s else { s with coh := { s.coh with poison := s.coh.poison ++ [a] } }

/-- A word takes an uncorrectable error where it is stored, in the HBM or an SRAM of a cluster (R206, R375). -/
def strikeStored (s : State) (w : Nat) : State :=
  strikeWord { s with coh := { s.coh with errUnit := s.coh.errUnit.filter (fun p => p.1 != w / 8 * 8) } } w

/-- An uncorrectable error of a word of package memory in the L2, unit 4, or in the NoC payload that carries it, unit 9
(R375, R376). -/
def strikeIn (unit w : Nat) (s : State) : State :=
  let a := w / 8 * 8
  if (unit = 4 || unit = 9) && isOwnMem s a && !(s.coh.poison.contains a) then
    strikeWord { s with coh := { s.coh with errUnit := (a, unit) :: s.coh.errUnit.filter (fun p => p.1 != a) } } a
  else s

/-- A corrected error is counted on its die (R377). -/
def countCorrected (die : Nat) (s : State) : State :=
  if die < 6 then s.modDie die (fun d => { d with ce := satInc d.ce }) else s

/-- BARRIER_BREAK: the home finds an uncorrectable error in the descriptor of domain `id` of partition `part`; where none
stands there yet, one strikes its ARRIVED word. -/
def execBarrierBreak (part id : Nat) (s : State) : Host.Outcome State Fault Refusal :=
  match descriptorAddr s part id with
  | none => .next s
  | some a =>
    if s.coh.poison.contains (placed s a) || s.coh.poison.contains (placed s (a + 8)) then .next (breakDomain part id s)
    else .next (breakDomain part id (strikeWord s (placed s a)))

/-- A live descriptor of a partition whose ARRIVED or PHASE word holds an uncorrectable error that the home has not found
yet (R226). -/
def brokenDomain (s : State) (p : Nat × Part) : Option Nat :=
  let t := p.2.dom
  (s.coh.poison.filter (fun w => t.en && t.base.toNat ≤ w && (w - t.base.toNat) % 32 < 16)).findSome? (fun w =>
    let id := (w - t.base.toNat) / 32
    let w1 := read8 s.mem (t.base.toNat + id * 32 + 8)
    if id < 2 ^ t.log2n.toNat && isOwnMem s w && bitOf w1 63 && !(bitOf w1 62) && !(descriptorBusy s (t.base.toNat + id * 32))
    then some id else none)

end Sys2Proof.Machine
end

