-- ==== Sys2Proof/Machine/Control.lean ====
section
/-! DEFINITION. What the control blocks act on: user-level interrupts (spec/06, R151-R153), halting, holding, releasing
and waking a hart (spec/06, R150; spec/17, R362, R363, R370, R371), the kick queue of a Milliner (spec/15, R329, R341). -/

namespace Sys2Proof.Machine

/-! ## User-level interrupts (R151) -/

/-- The pending sources in the order they are taken: CODE 3, 2, 1, the lower SLOT first. -/
def uiOrder : List (Nat × Nat) := [(3, 0), (3, 1), (2, 0), (2, 1), (2, 2), (2, 3), (1, 0), (1, 1), (1, 2), (1, 3)]

/-- The user-level interrupt a hart can take. -/
def Hart.uiDue (h : Hart) : Option (Nat × Nat) :=
  if h.priv = .u && bitOf h.dev.uivec 0 && !h.inHandler then uiOrder.find? (fun p => h.run.uiPend.contains p) else none

/-- What an interruption at PC drops: fetched words, the body store and a wait in progress (R137, R199). -/
def Hart.interrupted (h : Hart) : Hart :=
  { h with run := { h.run with fetch := [], body := none, wait := none, pfxOwn := false } }

/-- Taking a user-level interrupt: UIEPC, UICAUSE and PC (R151). -/
def Hart.takeUi (h : Hart) (c : Nat × Nat) : Hart :=
  let h := h.interrupted
  { h with
    pc := h.dev.uivec &&& ~~~3#64
    dev := { h.dev with uiepc := h.pc &&& ~~~3#64, uicause := bv 64 (2 ^ 63 + c.2 * 256 + c.1) }
    run := { h.run with uiPend := h.run.uiPend.filter (fun p => p != c) } }

/-- The user-level interrupt that a hart can take, taken. -/
def Hart.takeDueUi (h : Hart) : Hart :=
  match h.uiDue with
  | some c => h.takeUi c
  | none => h

/-! ## Accesses that hold a halt (R363) -/

/-- An SC, AMO or arrival sent elsewhere, or a read through the root port, for the word at PC: an interrupt waits for its
response, because its effect cannot be withdrawn. -/
def atomicOut (s : State) (h : Nat) : Bool :=
  s.coh.remote.any (fun r => r.hart == h && r.slot == 0 && (r.kind == 3 || r.kind == 5 || r.kind == 100))
  || s.pcie.reads.any (fun r => r.who == h)

/-- A store or atomic that has been sent and not acknowledged holds the halt of its hart. -/
def holdsHalt (s : State) (h : Nat) : Bool := atomicOut s h || remoteUnacked s h || unacknowledged s h

/-! ## Islands (R366, R371) -/

/-- An island is to be released. -/
def releaseIsland (s : State) (i : Nat) : State :=
  if s.power.releasing.contains i then s else { s with power := { s.power with releasing := s.power.releasing ++ [i] } }

/-- An island leaves retention when a hart on it runs (assumption 36). -/
def leaveRetention (s : State) (i : Nat) : State :=
  { s with power := { s.power with retained := s.power.retained.filter (fun k => k != i) } }

/-- The state with a function applied to every listed hart that a test selects. -/
def State.mapHarts (s : State) (t : Nat → Hart → Bool) (g : Hart → Hart) : State :=
  { s with harts := s.harts.map (fun p => (p.1, if t p.1 p.2 then g p.2 else p.2)) }

/-- The islands of the listed harts that a test selects are to be released. -/
def releaseHarts (s : State) (t : Nat → Hart → Bool) : State :=
  (s.harts.filter (fun p => t p.1 p.2)).foldl (fun s p => releaseIsland s (islandOf p.1)) s

/-! ## Waking (R150, R362, R406) -/

/-- A parked hart starts at RPC in MODE. -/
def Hart.unpark (h : Hart) : Hart :=
  { h with
    pc := h.ctl.rpc
    priv := h.ctl.mode
    ctl := { h.ctl with parked := false }
    run := { h.run with pfxOwn := false } }

/-- A WAKE write to a compute hart's control block (R150): with PCAUSE 3 only after a restore ended with OK (R362); with
PCAUSE 4 it is ignored (R371). -/
def wakeHart (h : Nat) (s : State) : State :=
  let x := s.hartAt h
  let c := x.ctl.pcause
  if x.ctl.parked && !(isDead s h) && (c = 0 || c = 1 || c = 2 || (c = 3 && x.ctl.recordOk)) then
    leaveRetention (s.setHartAt h x.unpark) (islandOf h)
  else s

/-- A WAKE write to a system core's control block (R406). -/
def wakeSystem (h : Nat) (s : State) : State :=
  let x := s.hartAt h
  if x.ctl.parked && !(isDead s h) then s.setHartAt h { x.unpark with priv := .m } else s

/-! ## Halting (R362, R363, R370) -/

/-- Ending both lease slots of a hart (R194). -/
def endLeases (h : Nat) (s : State) : State := endLease (endLease s h 0) h 1

/-- A cluster that is asked to quiesce. -/
def quiescing (s : State) (c : Nat) : Bool := (s.clusterAt c).req

/-- A quiesce holds the harts of a cluster: until its wake releases them (R374, R386). -/
def quiesceHolds (s : State) (c : Nat) : Bool := (s.clusterAt c).req && (s.clusterAt c).wakeStep < 4

/-- Whether the power class of a hart's task is shed. -/
def isShed (s : State) (x : Hart) : Bool := s.power.shed.getLsbD x.pclass

/-- The hart's control fields. -/
def Hart.withCtl (h : Hart) (g : Ctl → Ctl) : Hart := { h with ctl := g h.ctl }

/-! ## Requests written to a hart's control block -/

/-- PREEMPT (R362): a hart of a cluster whose clocks are stopped only reports the failure (R381). -/
def requestPreempt (h : Nat) (s : State) : State :=
  if (s.clusterAt (clusterOf h)).clkOff then s.modHart h (fun x => x.withCtl (fun c => { c with serr := true }))
  else s.modHart h (fun x => x.withCtl (fun c => { c with preempt := true }))

/-- RESTORE (R365): accepted of a hart parked with PCAUSE 0 or 3 whose cluster's clock runs and that has a record. -/
def requestRestore (h : Nat) (s : State) : State :=
  let c := (s.hartAt h).ctl
  if c.parked && !(isDead s h) && (c.pcause = 0 || c.pcause = 3) && !c.preempt && !(s.clusterAt (clusterOf h)).clkOff && (c.done || c.rst ≠ 0) then
    s.modHart h (fun x => x.withCtl (fun c => { c with restore := true }))
  else s

/-- HART_WRES (R207): a slot whose fold has been performed is FREE. -/
def writeReservation (h : Nat) (v : Word) (s : State) : State :=
  let s := settleWindows h s
  let x := s.hartAt h
  if x.run.windows.toList.any Option.isSome then s
  else
    let base := fieldOf v 0 10
    let len := fieldOf v 32 11
    s.setHartAt h (x.withCtl (fun c => { c with wbase := bv 10 base, wlen := if 1024 < base + len then 0 else bv 11 len }))

/-- Setting DOMAIN (R27): a write of LEVEL 1 stores 0. -/
def domainValue (v : Word) : Word :=
  let v := v &&& ~~~0xF0#64
  if fieldOf v 0 3 = 1 then setField v 0 3 0 else v

/-! ## The kicks of a Milliner (R329, R341) -/

/-- A kick performed at a Milliner's kick register: accepted while EN is 1, fewer than 8 kicks wait and its cluster does
not quiesce (R329, R373), else rejected with STATUS 6. -/
def performKick (m : Nat) (k : Kick) (s : State) : State :=
  let x := s.millAt m
  if x.en && x.queue.length < 8 && !(isDead s m) && !(kindOf m = .clusterMilliner && quiescing s (clusterOf m)) then
    s.setMillAt m { x with queue := x.queue ++ [k] }
  else
    let s := s.setMillAt m { x with rej := satInc x.rej }
    closeKick m { kick := k, status := 6, physical := none, waits := false } s

/-- The kick of a store by an agent: what the Milliner captures (R329). -/
def kickOf (s : State) (who : Nat) (priv : Priv) (value : Word) (scope : Nat) : Kick :=
  { block := value &&& ~~~63#64, satp := (s.hartAt who).csr.satp, part := partOf s who, priv := priv, kicker := who,
    scope := bv 3 scope }

/-- ABORT (R341): the running and every queued kick end with STATUS 7. -/
def abortMilliner (m : Nat) (s : State) : State :=
  let x := s.millAt m
  let running : List Closing := x.kick.toList.map (fun k =>
    { kick := k, status := 7 + x.run.flags, physical := x.run.physical, waits := x.run != .user })
  let queued : List Closing := x.queue.map (fun k => { kick := k, status := 7, physical := none, waits := false })
  let s := parkMilliner m (endLeases m (s.setMillAt m { x with kick := none, queue := [], run := .idle }))
  (running ++ queued).foldl (fun s c => closeKick m c s) s

end Sys2Proof.Machine
end

