-- ==== Sys2Proof/Machine/Quiesce.lean ====
section
/-! DEFINITION. Taking a cluster out of service (spec/17, R372-R374; spec/18, R386): the quiesce registers, the retention
image, rails and wake. -/

namespace Sys2Proof.Machine

/-! ## HELD and QUIET (R372) -/

/-- HELD: the harts of a cluster that are stopped. -/
def heldCount (s : State) (c : Nat) : Nat := ((hartsOfCluster c).filter (fun h => (s.hartAt h).ctl.parked)).length

/-- The Milliners of a cluster. -/
def clusterMilliners (c : Nat) : List Nat := [9240 + 2 * c, 9240 + 2 * c + 1]

/-- A Milliner runs nothing and has no kick waiting. -/
def millIdle (s : State) (m : Nat) : Bool :=
  let x := s.millAt m
  x.kick.isNone && x.queue.isEmpty && x.run = .idle && x.closing.isEmpty

/-- An agent of a cluster: its harts and Milliners. -/
def ofCluster (c h : Nat) : Bool := (kindOf h = .compute || kindOf h = .clusterMilliner) && clusterOf h = c

/-- No access of the cluster is on its way and no phase of its partials is being folded. -/
def drained (s : State) (c : Nat) : Bool :=
  !(s.coh.net.any (fun m => ofCluster c m.hart && m.kind ≠ .cmt))
  && !(s.coh.queued.any (fun m => ofCluster c m.hart))
  && !(s.coh.remote.any (fun r => ofCluster c r.hart && r.answer.isNone && !r.failed))
  && (s.clusterAt c).partials.all (fun p => p.phase.isNone || !((s.partAt p.part).completing.contains p.dom))

/-- QUIET. -/
def quiet (s : State) (c : Nat) : Bool :=
  heldCount s c = 64 && (clusterMilliners c).all (millIdle s) && drained s c

/-- The state with a function applied to a cluster's registers. -/
def State.modCluster (s : State) (c : Nat) (g : ClusterSt → ClusterSt) : State := s.setClusterAt c (g (s.clusterAt c))

/-- A refused write changes nothing and sets ERR. -/
def refuse (s : State) (c : Nat) : State := s.modCluster c (fun k => { k with err := true })

/-- The harts that a cluster's quiesce holds are released, and their islands are to start (R371). -/
def releaseQuiesce (c : Nat) (s : State) : State :=
  let mine (h : Nat) (x : Hart) : Bool := kindOf h = .compute && clusterOf h = c && x.ctl.heldQuiesce
  let s := releaseHarts s mine
  s.mapHarts mine (fun x => x.withCtl (fun k => { k with heldQuiesce := false }))

/-! ## Writes (R372, R373, R386) -/

/-- CLQ_REQ := REQ. -/
def setReq (c : Nat) (s : State) : State := s.modCluster c (fun k => { k with req := true })

/-- FORCE: every hart of the cluster that runs is to be halted. -/
def setForce (c : Nat) (s : State) : State :=
  let runs (h : Nat) : Bool := !(s.hartAt h).ctl.parked
  let any := (hartsOfCluster c).any runs
  let s := (hartsOfCluster c).foldl (fun s h =>
    if runs h then s.modHart h (fun x => x.withCtl (fun k => { k with shedDue := true })) else s) s
  s.modCluster c (fun k => { k with force := any })

/-- REQ := 0: ignored while the clocks are stopped, else the quiesce is cancelled. -/
def cancelReq (c : Nat) (s : State) : State :=
  if (s.clusterAt c).clkOff then s
  else releaseQuiesce c (s.modCluster c (fun k => { k with req := false }))

/-- A write of CLQ_REQ. -/
def writeReq (c : Nat) (req force : Bool) (s : State) : State :=
  let req := req || ((s.clusterAt c).req && (s.clusterAt c).clkOff)
  if force && !req then refuse s c
  else if req then (if force then setForce c (setReq c s) else setReq c s)
  else cancelReq c s

/-- A write of RET_SAVE. -/
def writeSave (c : Nat) (base : Word) (save : Bool) (s : State) : State :=
  let base := base &&& 0x3FFFFFFFF0000#64
  if !save then s.modCluster c (fun k => { k with retBase := base })
  else if !(quiet s c) || (s.clusterAt c).clkOff then refuse s c
  else s.modCluster c (fun k => { k with retBase := base, saving := true, wrote := false, busy := true, saved := false })

/-- A write of CLK_GATE. -/
def writeGate (c : Nat) (gate : Bool) (s : State) : State :=
  if gate then (if quiet s c then s.modCluster c (fun k => { k with clkOff := true }) else refuse s c)
  else if (s.clusterAt c).mode = 0 then s.modCluster c (fun k => { k with clkOff := false })
  else refuse s c

/-- A write of RAIL_CTL. -/
def writeRail (c : Nat) (mode : BitVec 2) (s : State) : State :=
  let k := s.clusterAt c
  if mode = 3 || (mode ≠ 0 && !k.clkOff) || (mode = 2 && !k.saved) then refuse s c
  else s.setClusterAt c { k with mode := mode, modeDue := some mode, busy := true }

/-- A write of WAKE.GO. -/
def writeWake (c : Nat) (s : State) : State :=
  s.modCluster c (fun k => { k with waking := true, wakeStep := 0, wakeDue := k.railOff || k.rbf, busy := true })

/-! ## Rails (R373) -/

/-- A core's units with the rails just on: registers and SRAM are zero. -/
def coldCore (c : CoreSt) : CoreSt := { lastStarted := c.lastStarted, lastIssued := c.lastIssued }

/-- A hart with the rails just on: its control block and its interrupt block stand (R373), every other register is
zero but for the constant fields of mstatus. -/
def coldHart (x : Hart) : Hart :=
  { csr := { mstatus := 0x0000_000A_0000_0000#64 }, vec := { vtype := 0 }, ctl := x.ctl, ints := x.ints }

/-- The cells of memory outside a span. -/
def eraseSpan (m : List Host.Cell) (a n : Nat) : List Host.Cell := m.filter (fun p => !(within p.1 a n))

/-- The rails come on after off: everything on them is zero, with valid check bits (R373). -/
def zeroCluster (c : Nat) (s : State) : State :=
  let cores := (List.range 16).map (fun k => 16 * c + k)
  let s := (hartsOfCluster c ++ clusterMilliners c).foldl (fun s h => endLeases h s) s
  let s := cores.foldl (fun s k => s.setCoreAt k (coldCore (s.coreAt k))) s
  let s := (hartsOfCluster c ++ clusterMilliners c).foldl (fun s h => s.modHart h coldHart) s
  let s := (clusterMilliners c).foldl (fun s k => s.setMillAt k {}) s
  let m := eraseSpan (eraseSpan s.mem (spadAlias c) 0x400000) (tcmAlias (16 * c)) (16 * 0x40000)
  let on (a : Nat) : Bool := within a (spadAlias c) 0x400000 || within a (tcmAlias (16 * c)) (16 * 0x40000)
  { s.modCluster c (fun k => { k with partials := [], misses := [], tlb := [] }) with
    mem := m
    coh := { s.coh with poison := s.coh.poison.filter (fun a => !(on a)) } }

/-- The rails move to a mode. -/
def moveRails (c : Nat) (mode : BitVec 2) (s : State) : State :=
  let off := (s.clusterAt c).railOff
  let s := s.modCluster c (fun k => { k with mode := mode, modeDue := none, railOff := mode = 2 })
  if off && mode ≠ 2 then zeroCluster c s else s

/-- RAIL_TRANSITION_DONE. -/
def execRailTransitionDone (c : Nat) (s : State) : Host.Outcome State Fault Refusal :=
  match (s.clusterAt c).modeDue with
  | some m => .next ((moveRails c m s).modCluster c (fun k => { k with busy := false }))
  | none => .next s

/-! ## The writes as events of the outside -/

/-- A write to the quiesce registers waits while BUSY is 1. -/
def quiesceWrite (c : Nat) (g : State → State) (s : State) : Host.Outcome State Fault Refusal :=
  if c < 144 && !(s.clusterAt c).busy then .next (g s) else .next s

/-- CLQ_REQ. -/
def execClqReq (c : Nat) : State → Host.Outcome State Fault Refusal := quiesceWrite c (writeReq c true false)
/-- CLQ_FORCE. -/
def execClqForce (c : Nat) : State → Host.Outcome State Fault Refusal :=
  quiesceWrite c (fun s => writeReq c (s.clusterAt c).req true s)
/-- CLQ_CANCEL. -/
def execClqCancel (c : Nat) : State → Host.Outcome State Fault Refusal := quiesceWrite c (writeReq c false false)
/-- CLQ_ERR_CLEAR. -/
def execClqErrClear (c : Nat) : State → Host.Outcome State Fault Refusal :=
  quiesceWrite c (fun s => s.modCluster c (fun k => { k with err := false }))
/-- RET_SAVE with SAVE. -/
def execRetSave (c base : Nat) : State → Host.Outcome State Fault Refusal :=
  quiesceWrite c (writeSave c (bv 64 base) true)
/-- CLK_GATE. -/
def execClkGate (c : Nat) (b : Bool) : State → Host.Outcome State Fault Refusal := quiesceWrite c (writeGate c b)
/-- RAIL_CTL. -/
def execRailCtl (c mode : Nat) : State → Host.Outcome State Fault Refusal := quiesceWrite c (writeRail c (bv 2 mode))
/-- CLUSTER_WAKE: a WAKE write. -/
def execClusterWake (c : Nat) : State → Host.Outcome State Fault Refusal := quiesceWrite c (writeWake c)

end Sys2Proof.Machine
end

