-- ==== Sys2Proof/Machine/Turn.lean ====
section
/-! DEFINITION. Fetching a word (spec/07, R156, R169), the interrupts that are due (spec/06, R142, R143), whether an agent
can execute, and placing an instruction where the next step fetches it (assumption 5). -/

namespace Sys2Proof.Machine

/-! ## Fetching a word (R169) -/

/-- `n` words from a virtual address on, of a line of bytes. -/
def splitWords : Nat → Nat → List Byte → List (Nat × W32)
  | 0, _, _ => []
  | n + 1, va, bs => (va, bv 32 (ofBytes (bs.take 4))) :: splitWords n (va + 4) (bs.drop 4)

/-- The words between an address and the end of its 64-byte line. -/
def lineWords (va : Nat) : Nat := (64 - va % 64) / 4

/-- The words that a fetch at virtual address `va` and physical address `a` brings: the rest of the 64-byte line; where a
word of it holds an uncorrectable error, only the word asked for. -/
def fetchLine (e : Env) (va a : Nat) : Act (List (Nat × W32)) := fun s =>
  let n := if (poisoned s a (4 * lineWords a)).isSome then 1 else lineWords a
  match loadAt e .fetch va a (4 * n) s with
  | .ok v s => .ok (splitWords n va (toBytes (4 * n) v)) s
  | .error x s => .error x s

/-- Fetching words from an address on into an empty fetch buffer. -/
def refill (at' : Word) : Act (List (Nat × W32)) := fun s =>
  let pc := at'.toNat
  if pc % 4 ≠ 0 then .error (.trap 0 at') s
  else
    let e := envOf s s.cur true
    match locate e .fetch pc 4 s with
    | .error x s => .error x s
    | .ok (.dev _) s => .error (.trap 1 at') s
    | .ok (.far a) s => match remoteRead e .fetch pc a 4 s with
      | .ok w s => .ok [(pc, bv 32 w)] s
      | .error x s => .error x s
    | .ok (.mem a) s => fetchLine e pc a s

/-- A hart fetches ahead along a path it predicts (R169): the words at an address join its fetch buffer of 16, from which
the first ones go. -/
def fetchAhead (h : Nat) (va : Nat) (s : State) : State :=
  if isMilliner h then s
  else
    let t := { s with cur := h }
    match refill (bv 64 va) t with
    | .error .stall t => { t with cur := s.cur }
    | .error _ _ => s
    | .ok l t =>
      let old := t.hart.run.fetch.filter (fun p => !(l.any (fun q => q.1 == p.1)))
      let all := old ++ l
      let t := t.setHart { t.hart with run := { t.hart.run with fetch := all.drop (all.length - 16) } }
      { t with cur := s.cur }

/-- The word at an address: the buffered word if there is one, else the first of a new fetch. A Milliner executes the
words of its user routine store (R331). -/
def fetchAt (at' : Word) : Act W32 := fun s =>
  let h := s.hart
  let pc := at'.toNat
  if isMilliner s.cur then
    match h.run.routine.find? (fun p => p.1 == pc) with
    | some p => .ok p.2 s
    | none => .error (.trap 1 at') s
  else match h.run.fetch.find? (fun p => p.1 == pc) with
    | some p => .ok p.2 s
    | none => match refill at' s with
      | .ok l s => .ok ((l.head?.map Prod.snd).getD 0)
          (s.setHart { s.hart with run := { s.hart.run with fetch := l } })
      | .error x s => .error x s

/-- The word at PC. -/
def fetchWord : Act W32 := fun s => fetchAt s.hart.pc s

/-! ## Interrupts that are due (R142, R143) -/

/-- Bits of mip that follow the interrupt block and the interrupt files (R143). -/
def Imsic.pending (f : Imsic) (n : Nat) : Nat :=
  let top := lowestOne n (nbits (f.eip &&& f.eie).toNat 0 n)
  if top < n && (f.threshold = 0 || top < f.threshold.toNat) then top else 0

/-- The number of identities of a hart's interrupt files, plus one: 63 on a compute hart, 255 on a system core. -/
def identities (h : Nat) : Nat := if kindOf h = .system then 256 else 64

/-- mip (R143): timers from the package's time, MSIP and SSIP, and the external interrupts of the files. -/
def mipOf (s : State) (h : Nat) : Word :=
  let x := s.hartAt h
  let i := x.ints
  let n := identities h
  let ext (f : Imsic) : Bool := f.delivery = 1 && f.pending n ≠ 0
  let b (k : Nat) (c : Bool) : Word := if c then bv 64 (2 ^ k) else 0
  (x.csr.mipSw &&& bv 64 (2 ^ 1 + 2 ^ 9)) ||| b 3 (i.msip = 1) ||| b 7 (i.mtimecmp.toNat ≤ s.ticks)
    ||| b 5 (i.stimecmp.toNat ≤ s.ticks) ||| b 11 (ext i.mfile) ||| b 9 (ext i.sfile)

/-- The interrupts in the order of the privileged architecture: MEI, MSI, MTI, SEI, SSI, STI. -/
def irqOrder : List Nat := [11, 3, 7, 9, 1, 5]

/-- The interrupt a hart would take, and whether S mode takes it. -/
def irqDue (s : State) (h : Nat) : Option (Bool × Nat) :=
  let x := s.hartAt h
  let p := mipOf s h &&& x.csr.mie
  let mOn := x.priv ≠ .m || bitOf x.csr.mstatus 3
  let sOn := x.priv = .u || (x.priv = .s && bitOf x.csr.mstatus 1)
  match (if mOn then irqOrder.find? (fun i => bitOf p i && !(bitOf x.csr.mideleg i)) else none) with
  | some i => some (false, i)
  | none =>
    match (if sOn then irqOrder.find? (fun i => bitOf p i && bitOf x.csr.mideleg i) else none) with
    | some i => some (true, i)
    | none => none

/-! ## Turns -/

/-- Whether an agent can execute: not parked, not waiting for a task, not held by power shedding or a quiesce (R149,
R252, R370, R373). -/
def Hart.canRun (h : Hart) : Bool := !h.ctl.parked && !h.ctl.asks && !h.ctl.heldShed && !h.ctl.heldQuiesce

/-- The islands whose clocks stand: those in retention (R370), and the core pairs of a cluster whose clocks are stopped
(R372). -/
def stillIslands (s : State) : List Nat :=
  s.power.retained ++ (s.clusters.filter (fun c => c.2.clkOff)).flatMap (fun c =>
    (List.range 8).map (fun p => c.1 / 24 * 200 + c.1 % 24 * 8 + p))

/-- Islands lose clocks. -/
def State.loseCc (s : State) (l : List Nat) (n : Nat) : State :=
  { s with power := { s.power with lost := l.foldl (fun m i => put m i (look 0 m i + n)) s.power.lost } }

/-- Core clocks pass. -/
def State.pass (s : State) (n : Nat) : State := { s.loseCc (stillIslands s).eraseDups n with cc := s.cc + n }

/-- A step takes one core clock (R10). -/
def State.tick (s : State) : State := s.pass 1

/-- The outcome of a step after its clock. -/
def tickOutcome : Host.Outcome State Fault Refusal → Host.Outcome State Fault Refusal
  | .next s => .next s.tick
  | .fault f => .fault f
  | .refused r => .refused r

/-! ## Placing an instruction where the next step fetches it -/

/-- A granule that no partition owns becomes one of compute hart 0's partition, as a PART_BUILD would make it (R357). -/
def ownGranule (s : State) (a : Nat) : State :=
  if ownerOf s a = noPart then
    let x := look {} s.parts (partOf s 0)
    { s with parts := put s.parts (partOf s 0) { x with granules := (a - ownBase s) / 2 ^ 25 :: x.granules } }
  else s

/-- The state in which compute hart 0 is unparked, moves next, and finds a 32-bit word at its PC. -/
def placeWord (s : State) (w : Nat) : State :=
  let h := s.hartAt 0
  let s := ownGranule s h.pc.toNat
  let s := s.setHartAt 0 { h with ctl := { h.ctl with parked := false }, run := { h.run with fetch := [] } }
  { s with cur := 0, sched := [], mem := writeBytes s.mem h.pc.toNat (toBytes 4 w) }

end Sys2Proof.Machine
end

