-- ==== Sys2Proof/Machine/Devices.lean ====
section
/-! DEFINITION. The registers of the device ranges (spec/13, R276; spec/06, R143, R146, R149; spec/10, R207, R217, R219;
spec/12, R244, R246, R248, R263; spec/14, R313; spec/15, R326, R327, R331, R340; spec/17, R356, R358, R361, R368, R372,
R377, R378; spec/19, R391, R406, R408). A register is an aligned 8-byte word; a write carries the mask of its bytes. -/

namespace Sys2Proof.Machine

/-! ## Writes of part of a register -/

/-- The bits of the bytes that a mask names. -/
def byteMask (m : Nat) : Word :=
  bv 64 ((List.range 8).foldr (fun i r => (if m / 2 ^ i % 2 = 1 then 255 * 256 ^ i else 0) + r) 0)

/-- A write to a register: which bytes, and the value in their places. -/
structure RegWrite where
  mask : Nat
  val : Word
  deriving DecidableEq, Repr

/-- The written bits; bits of bytes not written are zero. -/
def RegWrite.ones (w : RegWrite) : Word := w.val &&& byteMask w.mask
/-- The value of the writable bits `keep` after the write, others zero. -/
def RegWrite.over (w : RegWrite) (old keep : Word) : Word :=
  ((old &&& ~~~(byteMask w.mask)) ||| w.ones) &&& keep
/-- A whole naturally aligned 8-byte write. -/
def RegWrite.whole (w : RegWrite) : Bool := w.mask == 255

/-- Bits [hi:lo]. -/
def bitsFrom (lo hi : Nat) : Word := bv 64 (2 ^ (hi + 1) - 2 ^ lo)

/-! ## Interrupt blocks and files (R143) -/

/-- A read of an interrupt block. -/
def readInts (s : State) (h off : Nat) : Word :=
  let i := (s.hartAt h).ints
  match off with
  | 0x00 => i.mtimecmp
  | 0x08 => i.stimecmp
  | 0x10 => i.msip.setWidth 64
  | 0x18 => bv 64 (fieldOf (mipOf s h) 1 1)
  | _ => 0

/-- Setting mip.SSIP. -/
def setSsip (h : Nat) (s : State) : State :=
  s.modHart h (fun x => { x with csr := { x.csr with mipSw := setBit x.csr.mipSw 1 true } })

/-- A write of an interrupt block. -/
def writeInts (h off : Nat) (w : RegWrite) (s : State) : State :=
  let ints (g : Ints → Ints) : State := s.modHart h (fun x => { x with ints := g x.ints })
  match off with
  | 0x00 => ints (fun i => { i with mtimecmp := w.over i.mtimecmp (bitsFrom 0 63) })
  | 0x08 => ints (fun i => { i with stimecmp := w.over i.stimecmp (bitsFrom 0 63) })
  | 0x10 => ints (fun i => { i with msip := bv 1 (w.over (i.msip.setWidth 64) 1).toNat })
  | 0x18 => if bitOf w.ones 0 then setSsip h s else s
  | _ => s

/-- An identity is written to an interrupt file: 0 and identities above the limit are ignored. -/
def setIdentity (h : Nat) (sFile : Bool) (id : Nat) (s : State) : State :=
  if id = 0 || identities h ≤ id then s
  else
    let set (f : Imsic) : Imsic := { f with eip := setBit f.eip id true }
    s.modHart h (fun x =>
      let i := if sFile then { x.ints with sfile := set x.ints.sfile } else { x.ints with mfile := set x.ints.mfile }
      { x with ints := i })

/-! ## Hart control blocks (R149, R207, R340, R361) -/

/-- HART_SAVE. -/
def saveWord (c : Ctl) : Word :=
  c.saveBase ||| bv 64 (c.rst.toNat * 16 + c.done.toNat * 8 + c.restore.toNat * 4 + c.serr.toNat * 2 + c.preempt.toNat)

/-- A read of a hart control block. -/
def readCtl (c : Ctl) (off : Nat) : Word :=
  match off with
  | 0x00 => bv 64 (c.mode.code * 64 + c.pcause.toNat * 8 + c.parked.toNat)
  | 0x08 => c.rpc
  | 0x10 => bv 64 (c.wlen.toNat * 2 ^ 32 + c.wbase.toNat)
  | 0x18 => saveWord c
  | _ => if 0x20 ≤ off then (c.watch[(off - 0x20) / 8]?).getD 0 else 0

/-- A write of watch register `i`. -/
def Ctl.writeWatch (c : Ctl) (i : Nat) (w : RegWrite) : Ctl :=
  let k := i % 4
  { c with
    watch := c.watch.set k (w.over (c.watch[k]'(Nat.mod_lt _ (by decide))) (bitsFrom 3 49 ||| 1)) (Nat.mod_lt _ (by decide))
    watchSeen := c.watchSeen.set k none (Nat.mod_lt _ (by decide)) }

/-- HART_RPC: writes while the hart runs are ignored. -/
def Ctl.writeRpc (c : Ctl) (w : RegWrite) : Ctl := if c.parked then { c with rpc := w.over c.rpc (bitsFrom 0 63) } else c

/-- A write of HART_SAVE: BASE first, then the requests. -/
def writeHartSave (h : Nat) (w : RegWrite) (s : State) : State :=
  let s := s.modHart h (fun x => x.withCtl (fun c => { c with saveBase := w.over c.saveBase (bitsFrom 12 49) }))
  let s := if bitOf w.ones 0 then requestPreempt h s else s
  if bitOf w.ones 2 then requestRestore h s else s

/-- A write of a hart control block. -/
def writeCtl (h off : Nat) (w : RegWrite) (s : State) : State :=
  let onCtl (g : Ctl → Ctl) : State := s.modHart h (fun x => x.withCtl g)
  match off with
  | 0x00 => if bitOf w.ones 1 then wakeHart h s else s
  | 0x08 => onCtl (fun c => c.writeRpc w)
  | 0x10 => writeReservation h (w.over (readCtl (s.hartAt h).ctl 0x10) (bitsFrom 0 63)) s
  | 0x18 => writeHartSave h w s
  | _ => if 0x20 ≤ off then onCtl (fun c => c.writeWatch ((off - 0x20) / 8) w) else s

/-! ## Milliner control blocks (R326) and kick pages (R327) -/

/-- A read of a Milliner's control block. -/
def readMill (x : Mill) (off : Nat) : Word :=
  match off with
  | 0x00 => bv 64 ((x.run != .idle || x.closing.any Closing.waits).toNat * 2 + x.en.toNat)
  | 0x08 => bv 64 x.queue.length
  | 0x10 => x.faultAddr
  | 0x18 => bv 64 (x.fstatus.toNat * 256 + x.fcause.toNat)
  | 0x20 => x.rej.setWidth 64
  | _ => 0

/-- A write of a Milliner's control block. -/
def writeMill (m off : Nat) (w : RegWrite) (s : State) : State :=
  let x := s.millAt m
  match off with
  | 0x00 =>
    let s := s.setMillAt m { x with en := bitOf (w.over (bv 64 x.en.toNat) 1) 0 }
    if bitOf w.ones 2 then abortMilliner m s else s
  | 0x20 => s.setMillAt m { x with rej := (w.over (x.rej.setWidth 64) (bitsFrom 0 31)).setWidth 32 }
  | _ => s

/-! ## System-core blocks (R406) -/

/-- A read of a system core's control block. -/
def readSystem (s : State) (h off : Nat) : Word :=
  let x := s.hartAt h
  match off with
  | 0x00 => bv 64 ((!(unassigned s h)).toNat * 2 ^ 14 + partOf s h * 256 + x.ctl.parked.toNat)
  | 0x08 => x.ctl.rpc
  | 0x10 => x.dev.domain
  | _ => 0

/-- A write of a system core's control block. -/
def writeSystem (h off : Nat) (w : RegWrite) (s : State) : State :=
  match off with
  | 0x00 => if bitOf w.ones 1 then wakeSystem h s else s
  | 0x08 => s.modHart h (fun x => x.withCtl (fun c => c.writeRpc w))
  | 0x10 => s.modHart h (fun x => { x with dev := { x.dev with
      domain := domainValue (w.over x.dev.domain (bitsFrom 0 63)) } })
  | _ => s

/-! ## Cluster control blocks (R217, R248, R372) -/

/-- CLQ_STAT. -/
def clusterStatus (s : State) (c : Nat) : Word :=
  let k := s.clusterAt c
  bv 64 (k.rbf.toNat * 2 ^ 14 + k.err.toNat * 2 ^ 13 + k.busy.toNat * 2 ^ 12 + k.railOff.toNat * 2 ^ 11
    + k.clkOff.toNat * 2 ^ 10 + k.saved.toNat * 2 ^ 9 + (quiet s c).toNat * 2 ^ 8 + heldCount s c)

/-- CL_TREG of core `k`. -/
def ClusterSt.treg (x : ClusterSt) (k : Nat) : Word :=
  bv 64 (((x.tregLen[k]?).getD 0).toNat * 2 ^ 32 + ((x.tregBase[k]?).getD 0).toNat)

/-- A read of a cluster control block. -/
def readCluster (s : State) (c off : Nat) : Word :=
  let k := s.clusterAt c
  match off with
  | 0x00 => bv 64 (k.mrgLen.toNat * 65536 + k.mrgBase.toNat)
  | 0x08 => bv 64 k.mergeUse
  | 0x100 => bv 64 (k.force.toNat * 2 + k.req.toNat)
  | 0x108 => clusterStatus s c
  | 0x110 => k.retBase ||| bv 64 k.saving.toNat
  | 0x118 => bv 64 k.clkOff.toNat
  | 0x120 => k.mode.setWidth 64
  | _ => if 0x40 ≤ off && off < 0xC0 then k.treg ((off - 0x40) / 8) else 0

/-- A write of CL_MRG: ignored while partials stand in the merge store. -/
def writeMerge (c : Nat) (v : Word) (s : State) : State :=
  s.modCluster c (fun k => if k.mergeUse ≠ 0 then k
    else { k with mrgBase := bv 15 (fieldOf v 0 15), mrgLen := bv 15 (fieldOf v 16 15) })

/-- A write of CL_TREG: a region that would exceed the TCM stores LEN 0. -/
def writeTreg (c core : Nat) (v : Word) (s : State) : State :=
  let base := fieldOf v 0 10
  let len := fieldOf v 32 11
  s.modCluster c (fun k => { k with
    tregBase := k.tregBase.set (core % 16) (bv 10 base) (Nat.mod_lt _ (by decide))
    tregLen := k.tregLen.set (core % 16) (bv 11 (if 1024 < base + len then 0 else len)) (Nat.mod_lt _ (by decide)) })

/-- A write of a cluster control block; none while a quiesce register waits for BUSY. -/
def writeCluster (c off : Nat) (w : RegWrite) (s : State) : Option State :=
  let k := s.clusterAt c
  let now := w.over (readCluster s c off) (bitsFrom 0 63)
  let quiesce (t : State) : Option State := if k.busy then none else some t
  match off with
  | 0x00 => some (writeMerge c now s)
  | 0x100 => quiesce (writeReq c (bitOf now 0) (bitOf w.ones 1) s)
  | 0x108 => quiesce (if bitOf w.ones 13 then s.modCluster c (fun k => { k with err := false }) else s)
  | 0x110 => quiesce (writeSave c (w.over k.retBase (bitsFrom 16 49)) (bitOf w.ones 0) s)
  | 0x118 => quiesce (writeGate c (bitOf now 0) s)
  | 0x120 => quiesce (writeRail c (bv 2 now.toNat) s)
  | 0x128 => quiesce (if bitOf w.ones 0 then writeWake c s else s)
  | _ => some (if 0x40 ≤ off && off < 0xC0 then writeTreg c ((off - 0x40) / 8) now s else s)

/-! ## Partition control blocks (R356 and the rings and tables of R146, R219, R244, R246, R263, R313, R331, R358) -/

/-- BASE, EN and LOG2N of a table or ring as its two registers. -/
def ctlWord (en : Bool) (log2n : BitVec 5) : Word := bv 64 (en.toNat * 32 + log2n.toNat)

/-- A base aligned to 2^n bytes. -/
def aligned (base : Word) (n : Nat) : Bool := base.toNat % 2 ^ n == 0

/-- A write of EN and LOG2N: LOG2N is kept while EN is 1, and EN = 1 is stored only where `ok` holds of LOG2N. -/
def writeEn (en : Bool) (log2n : BitVec 5) (top : Nat) (ok : Nat → Bool) (v : Word) : Bool × BitVec 5 :=
  let n := if en then log2n else bv 5 (min top (fieldOf v 0 5))
  (bitOf v 5 && (en || ok n.toNat), n)

/-- A ring after a write of its control register. -/
def Ring.writeEn (r : Ring) (ok : Nat → Bool) (v : Word) : Ring :=
  let (e, n) := Machine.writeEn r.en r.log2n 31 ok v
  { r with en := e, log2n := n }
/-- A table after a write of its control register. -/
def TableReg.writeEn (r : TableReg) (top : Nat) (ok : Nat → Bool) (v : Word) : TableReg :=
  let (e, n) := Machine.writeEn r.en r.log2n top ok v
  { r with en := e, log2n := n }

/-- FRING_CTL (R146). -/
def Ring.ctlFring (r : Ring) (v : Word) : Ring := r.writeEn (fun n => 4 ≤ n && n ≤ 16 && aligned r.base (n + 5)) v
/-- FBR_CTL but for FCLR (R313). -/
def Ring.ctlFbr (r : Ring) (v : Word) : Ring := r.writeEn (fun n => 4 ≤ n && n ≤ 20 && aligned r.base (n + 4)) v
/-- DOM_CTL (R219): values of LOG2N above 16 store 16. -/
def TableReg.ctlDom (r : TableReg) (v : Word) : TableReg := r.writeEn 16 (fun n => aligned r.base (n + 5)) v
/-- TSEQ_CTL (R263). -/
def TableReg.ctlTseq (r : TableReg) (v : Word) : TableReg :=
  r.writeEn 31 (fun n => n ≤ 20 && aligned r.base (max 12 (n + 3))) v
/-- TTAB_CTL and MLT_CTL (R244, R331). -/
def TableReg.ctlPlain (r : TableReg) (v : Word) : TableReg := { r with en := bitOf v 0 }

/-- A base register: writes while EN is 1 are ignored. -/
def Ring.setBase (r : Ring) (w : RegWrite) (lo : Nat) : Ring :=
  if r.en then r else { r with base := w.over r.base (bitsFrom lo 49) }
/-- A base register of a table. -/
def TableReg.setBase (r : TableReg) (w : RegWrite) (lo : Nat) : TableReg :=
  if r.en then r else { r with base := w.over r.base (bitsFrom lo 49) }

/-- TQ_RING (R246). -/
def Ring.writeTq (r : Ring) (v : Word) : Ring :=
  if r.en then
    if !(bitOf v 5) && r.widx = r.ridx then { r with en := false } else r
  else
    let n := fieldOf v 0 5
    let b := v &&& bitsFrom 10 49
    let r := { r with base := b, log2n := bv 5 n }
    if bitOf v 5 && 4 ≤ n && n ≤ 16 && aligned b (n + 6) then { r with en := true, widx := 0, ridx := 0 } else r

/-- The task ring of a die and level. -/
def Part.ring (p : Part) (die level : Nat) : Ring := look {} p.task (die * 8 + level)
/-- The pin of a die. -/
def Part.pinOf (p : Part) (die : Nat) : Word × BitVec 16 := look (0, 0) p.pin die

/-- The bytes of task and ring pins of all partitions on a die. -/
def pinned (s : State) (die : Nat) : Nat := s.parts.foldl (fun n p => n + (p.2.pinOf die).2.toNat * 256) 0

/-- A pin whose base is homed elsewhere, or that makes the die's pins exceed 8 MiB, stores LEN 0 (R358). -/
def checkPin (p die : Nat) (s : State) : State :=
  let (b, _) := (s.partAt p).pinOf die
  if isOwnMem s b.toNat && homeDie s b.toNat = die && pinned s die ≤ 8 * 2 ^ 20 then s
  else s.setPartAt p { s.partAt p with pin := put (s.partAt p).pin die (b, 0) }

/-- Setting a pin. -/
def setPin (p die : Nat) (b : Word) (len : BitVec 16) (s : State) : State :=
  checkPin p die (s.setPartAt p { s.partAt p with pin := put (s.partAt p).pin die (b, len) })

/-- FCLR empties the recent-miss filters of the texture units of the partition's clusters (R313). -/
def clearFilters (p : Nat) (s : State) : State :=
  { s with clusters := s.clusters.map (fun c =>
      (c.1, { c.2 with misses := c.2.misses.filter (fun m => m.part != p) })) }

/-- A read of a partition control block. -/
def readPart (s : State) (p off : Nat) : Word :=
  let x := s.partAt p
  match off with
  | 0x000 => bv 64 (x.state.toNat * 256 + p)
  | 0x008 => bv 64 (fieldOf x.cl 0 64)
  | 0x010 => bv 64 (fieldOf x.cl 64 64)
  | 0x018 => bv 64 (fieldOf x.cl 128 16)
  | 0x020 => x.sc.setWidth 64
  | 0x028 => x.md.setWidth 64
  | 0x030 => bv 64 (x.chr.toNat * 65536 + x.noc.toNat)
  | 0x100 => x.fring.base
  | 0x108 => ctlWord x.fring.en x.fring.log2n
  | 0x110 => x.fring.widx.setWidth 64
  | 0x118 => x.fring.ridx.setWidth 64
  | 0x120 => x.fring.drop.setWidth 64
  | 0x140 => x.dom.base
  | 0x148 => ctlWord x.dom.en x.dom.log2n
  | 0x180 => x.ttab.base
  | 0x188 => bv 64 x.ttab.en.toNat
  | 0x190 => x.tseq.base
  | 0x198 => ctlWord x.tseq.en x.tseq.log2n
  | 0x1A0 => x.fbr.base
  | 0x1A8 => ctlWord x.fbr.en x.fbr.log2n
  | 0x1B0 => x.fbr.widx.setWidth 64
  | 0x1B8 => x.fbr.ridx.setWidth 64
  | 0x1C0 => x.fbr.drop.setWidth 64
  | 0x1D0 => x.mlt.base
  | 0x1D8 => bv 64 x.mlt.en.toNat
  | _ =>
    if 0x200 ≤ off && off < 0x500 then
      let r := x.ring ((off - 0x200) / 0x80) ((off - 0x200) % 0x80 / 16)
      if off % 16 = 0 then r.base ||| ctlWord r.en r.log2n else bv 64 (r.widx.toNat * 2 ^ 32 + r.ridx.toNat)
    else if 0x500 ≤ off && off < 0x560 then
      let q := x.pinOf ((off - 0x500) / 16)
      if off % 16 = 0 then q.1 else q.2.setWidth 64
    else 0

/-- A write of a partition control block. -/
def writePart (p off : Nat) (w : RegWrite) (s : State) : State :=
  let x := s.partAt p
  let now := w.over (readPart s p off) (bitsFrom 0 63)
  let set (y : Part) : State := s.setPartAt p y
  match off with
  | 0x100 => set { x with fring := x.fring.setBase w 5 }
  | 0x108 => set { x with fring := x.fring.ctlFring now }
  | 0x118 => set { x with fring := { x.fring with ridx := now.setWidth 32 } }
  | 0x120 => set { x with fring := { x.fring with drop := now.setWidth 32 } }
  | 0x140 => set { x with dom := x.dom.setBase w 5 }
  | 0x148 => set { x with dom := x.dom.ctlDom now }
  | 0x180 => set { x with ttab := x.ttab.setBase w 12 }
  | 0x188 => set { x with ttab := x.ttab.ctlPlain now }
  | 0x190 => set { x with tseq := x.tseq.setBase w 12 }
  | 0x198 => set { x with tseq := x.tseq.ctlTseq now }
  | 0x1A0 => set { x with fbr := x.fbr.setBase w 4 }
  | 0x1A8 => let s := set { x with fbr := x.fbr.ctlFbr now }
             if bitOf w.ones 6 then clearFilters p s else s
  | 0x1B8 => set { x with fbr := { x.fbr with ridx := now.setWidth 32 } }
  | 0x1C0 => set { x with fbr := { x.fbr with drop := now.setWidth 32 } }
  | 0x1D0 => set { x with mlt := x.mlt.setBase w 12 }
  | 0x1D8 => set { x with mlt := x.mlt.ctlPlain now }
  | _ =>
    if 0x200 ≤ off && off < 0x500 && off % 16 = 0 then
      let die := (off - 0x200) / 0x80
      let level := (off - 0x200) % 0x80 / 16
      set { x with task := put x.task (die * 8 + level) ((x.ring die level).writeTq now) }
    else if 0x500 ≤ off && off < 0x560 then
      let die := (off - 0x500) / 16
      let q := x.pinOf die
      if off % 16 = 0 then setPin p die (w.over q.1 (bitsFrom 8 49)) q.2 s
      else setPin p die q.1 (now.setWidth 16) s
    else s

/-! ## Die, module, power, Chrodon and root-port blocks (R368, R377, R378, R391, R408) -/

/-- A read of a die's control block. -/
def readDie (x : DieSt) (off : Nat) : Word :=
  match off with
  | 0x00 => x.ce.setWidth 64
  | 0x08 => x.ue.setWidth 64
  | 0x10 => x.stale.setWidth 64
  | 0x18 => bv 64 (x.deadBusy.isSome.toNat * 2 ^ 63)
  | 0x20 => bv 64 (x.migBusy.isSome.toNat * 2 ^ 63)
  | _ => 0

/-- A write of a die's control block; none while the declaration or release before it is in progress. -/
def writeDie (d off : Nat) (w : RegWrite) (s : State) : Option State :=
  let x := s.dieAt d
  let low (old : BitVec 32) : BitVec 32 := (w.over (old.setWidth 64) (bitsFrom 0 31)).setWidth 32
  match off with
  | 0x00 => some (s.setDieAt d { x with ce := low x.ce })
  | 0x08 => some (s.setDieAt d { x with ue := low x.ue })
  | 0x10 => some (s.setDieAt d { x with stale := low x.stale })
  | 0x18 => if x.deadBusy.isSome then none else some (s.setDieAt d { x with deadBusy := some (fieldOf w.ones 0 16) })
  | 0x20 => if x.migBusy.isSome then none
            else some (s.setDieAt d { x with migBusy := some (w.ones &&& bitsFrom 14 49).toNat })
  | _ => some s

/-- A read of the module block. -/
def readModule (x : Pkg) (off : Nat) : Word :=
  match off with
  | 0x00 => bv 64 (x.failCnt.toNat * 16 + x.warm.toNat * 2 + x.bootOk.toNat)
  | 0x08 => bv 64 (x.coldReq.toNat * 2 + x.warmReq.toNat)
  | 0x10 => bv 64 (fieldOf x.excl 0 64)
  | 0x18 => bv 64 (fieldOf x.excl 64 64)
  | 0x20 => bv 64 (fieldOf x.excl 128 16)
  | _ => 0

/-- A firmware pair whose new slot has started: its security version becomes the lowest accepted (R415). -/
def Firmware.proved (f : Firmware) : Firmware :=
  match f.trial with
  | some v => { f with trial := none, minSvn := max f.minSvn v }
  | none => f

/-- BOOT_OK marks the start successful and clears FAILCNT (R378, R380); the security versions of newly committed slots
take effect (R415). -/
def bootOk (s : State) : State :=
  { s with
    pkg := { s.pkg with bootOk := true, failCnt := 0 }
    nov := { s.nov with fw := s.nov.fw.map Firmware.proved } }

/-- A write of the module block. -/
def writeModule (off : Nat) (w : RegWrite) (s : State) : State :=
  match off with
  | 0x00 => if bitOf w.ones 0 then bootOk s else s
  | 0x08 => { s with pkg := { s.pkg with coldReq := s.pkg.coldReq || bitOf w.ones 1
                                         warmReq := s.pkg.warmReq || bitOf w.ones 0 } }
  | _ => s

/-- A read of the power block. -/
def readPower (x : Power) (off : Nat) : Word :=
  match off with
  | 0x000 => bv 64 (x.link.toNat * 2 ^ 48 + x.crcErr.toNat * 2 ^ 32 + x.frames.toNat)
  | 0x008 => x.last0
  | 0x010 => x.last1
  | 0x018 => bv 64 (x.shed.toNat * 65536 + x.a.toNat)
  | 0x020 => bv 64 (x.failsafe.toNat * 65536 + x.cap.toNat)
  | 0x028 => x.share.setWidth 64
  | 0x030 => x.nomf.setWidth 64
  | 0x0E0 => x.grace.setWidth 64
  | _ => if 0x40 ≤ off && off < 0xC0 then (x.curve[(off - 0x40) / 8]?).getD 0
         else if 0xC0 ≤ off && off < 0xE0 then ((x.cls[(off - 0xC0) / 8]?).getD 0).setWidth 64 else 0

/-- The power registers after a write. -/
def Power.write (x : Power) (off : Nat) (w : RegWrite) : Power :=
  let now := w.over (readPower x off) (bitsFrom 0 63)
  match off with
  | 0x020 => { x with failsafe := bv 16 (fieldOf now 16 16), cap := bv 16 (min 900 (fieldOf now 0 16)) }
  | 0x028 => { x with share := now.setWidth 9 }
  | 0x030 => { x with nomf := now.setWidth 32 }
  | 0x0E0 => { x with grace := bv 11 (max 1 (min 2000 (fieldOf now 0 11))) }
  | _ =>
    if 0x40 ≤ off && off < 0xC0 then
      { x with curve := x.curve.set ((off - 0x40) / 8 % 16) (now &&& (bitsFrom 62 63 ||| bitsFrom 32 47 ||| bitsFrom 0 15))
                          (Nat.mod_lt _ (by decide)) }
    else if 0xC0 ≤ off && off < 0xE0 then
      { x with cls := x.cls.set ((off - 0xC0) / 8 % 4) (now.setWidth 32) (Nat.mod_lt _ (by decide)) }
    else x

/-- RETRAIN starts training a port (R391). -/
def retrainPort (p : Nat) (x : Chrodon) : Chrodon := x.dropPort p 1

/-- A read of the Chrodon block. -/
def readChrodon (x : Chrodon) (off : Nat) : Word :=
  match off with
  | 0x000 => bv 64 (x.valid.toNat * 256 + x.modIdx.toNat)
  | 0x008 => x.memb
  | _ =>
    if 0x100 ≤ off && off < 0x300 then ((x.route[(off - 0x100) / 8]?).getD 0).setWidth 64
    else if 0x400 ≤ off && off < 0x600 then
      let y := x.port ((off - 0x400) / 0x20)
      match off % 0x20 with
      | 0x00 => y.state.setWidth 64
      | 0x08 => y.fecc.setWidth 64
      | 0x10 => y.rtry.setWidth 64
      | _ => y.unc.setWidth 64
    else 0

/-- The Chrodon registers after a write. -/
def Chrodon.write (x : Chrodon) (off : Nat) (w : RegWrite) : Chrodon :=
  let now := w.over (readChrodon x off) (bitsFrom 0 63)
  if 0x100 ≤ off && off < 0x300 then
    { x with route := x.route.set ((off - 0x100) / 8 % 64) (now.setWidth 16) (Nat.mod_lt _ (by decide)) }
  else if 0x400 ≤ off && off < 0x600 then
    let p := (off - 0x400) / 0x20
    let y := x.port p
    match off % 0x20 with
    | 0x00 => if bitOf w.ones 2 then retrainPort p x else x
    | 0x08 => x.setPort p { y with fecc := now.setWidth 32 }
    | 0x10 => x.setPort p { y with rtry := now.setWidth 32 }
    | _ => x.setPort p { y with unc := now.setWidth 32 }
  else x

/-- A read of the root-port block. -/
def readPcie (x : Pcie) (off : Nat) : Word :=
  match off with
  | 0x00 => x.xbase
  | 0x08 => bv 64 x.en.toNat
  | _ => 0

/-- The root-port registers after a write. -/
def Pcie.write (x : Pcie) (off : Nat) (w : RegWrite) : Pcie :=
  match off with
  | 0x00 => if x.en then x else { x with xbase := w.over x.xbase (bitsFrom 20 49) }
  | 0x08 => { x with en := bitOf (w.over (bv 64 x.en.toNat) 1) 0 }
  | _ => x

/-! ## Which block an address is in -/

/-- A block of registers, with the number of its unit. -/
inductive Block
  | ints (h : Nat)
  | file (h : Nat) (sFile : Bool)
  | hart (h : Nat)
  | mill (m : Nat)
  | sys (h : Nat)
  | cluster (c : Nat)
  | part (p : Nat)
  | module
  | power
  | chrodon
  | pcie
  | die (d : Nat)
  | kick (m : Nat)
  | ecam
  | mmio
  deriving DecidableEq, Repr

/-- The block of a device address and the offset in it. -/
def blockOf (a : Nat) : Option (Block × Nat) :=
  let rel (b : Nat) : Nat := a - b
  if within a 0x3FE4000000000 (9240 * 0x40) then some (.ints (rel 0x3FE4000000000 / 0x40), a % 0x40)
  else if within a 0x3FD8000000000 (9240 * 0x2000) then
    some (.file (rel 0x3FD8000000000 / 0x2000) (rel 0x3FD8000000000 / 0x1000 % 2 = 1), a % 0x1000)
  else if within a 0x3FE0000000000 (9216 * 0x40) then some (.hart (rel 0x3FE0000000000 / 0x40), a % 0x40)
  else if within a 0x3FE0000100000 (336 * 0x40) then some (.mill (9240 + rel 0x3FE0000100000 / 0x40), a % 0x40)
  else if within a 0x3FE0000200000 (24 * 0x40) then some (.sys (9216 + rel 0x3FE0000200000 / 0x40), a % 0x40)
  else if within a 0x3FD0000000000 (144 * 0x1000) then some (.cluster (rel 0x3FD0000000000 / 0x1000), a % 0x1000)
  else if within a 0x3FF0000000000 (64 * 0x1000) then some (.part (rel 0x3FF0000000000 / 0x1000), a % 0x1000)
  else if within a 0x3FFC000000000 0x1000 then some (.module, a % 0x1000)
  else if within a 0x3FFC000010000 0x1000 then some (.power, a % 0x1000)
  else if within a 0x3FFC000020000 0x1000 then some (.chrodon, a % 0x1000)
  else if within a 0x3FFC000030000 0x1000 then some (.pcie, a % 0x1000)
  else if within a 0x3FFC000100000 (6 * 0x1000) then some (.die (rel 0x3FFC000100000 / 0x1000), a % 0x1000)
  else if within a 0x3FA0000000000 (336 * 0x4000) then some (.kick (9240 + rel 0x3FA0000000000 / 0x4000), a % 0x4000)
  else if within a 0x3F80000000000 (2 ^ 28) then some (.ecam, rel 0x3F80000000000)
  else if within a 0x3F00000000000 (2 ^ 43) then some (.mmio, rel 0x3F00000000000)
  else none

/-- Who accesses a block: the agent and its effective privilege. -/
structure DevAcc where
  who : Nat
  priv : Priv
  part : Nat
  deriving DecidableEq, Repr

/-- The modes and agents a register admits (R276): interrupt blocks and files, hart, cluster and Milliner blocks and kick
pages only agents of their own partition, and the MMIO window those of the partition that holds the granule (R407). -/
def admits (s : State) (d : DevAcc) (b : Block) (off : Nat) : Bool :=
  let sys : Bool := kindOf d.who = .system && d.priv = .m
  match b with
  | .ints h => partOf s h = d.part && d.priv ≠ .u && (d.priv = .m || (off ≠ 0 && off ≠ 0x10))
  | .file h _ => partOf s h = d.part
  | .hart h => partOf s h = d.part && d.priv ≠ .u
  | .mill m => partOf s m = d.part && d.priv ≠ .u
  | .sys _ => sys
  | .cluster c => partOfCluster s c = d.part && (if 0x100 ≤ off && off ≤ 0x128 then sys else d.priv ≠ .u)
  | .part p => p = d.part && d.priv ≠ .u
  | .module => d.priv = .m
  | .power => sys
  | .chrodon => sys
  | .pcie => d.priv = .m
  | .die _ => d.priv = .m
  | .kick m => partOf s m = d.part
  | .ecam => true
  | .mmio => ((s.parts.find? (fun p => p.2.mmio.contains (off / 2 ^ 25))).map Prod.fst).getD noPart = d.part

/-- The value of the register at an offset of a block. -/
def readReg (s : State) (b : Block) (off : Nat) : Word :=
  match b with
  | .ints h => readInts s h off
  | .file _ _ => 0
  | .hart h => readCtl (s.hartAt h).ctl off
  | .mill m => readMill (s.millAt m) off
  | .sys h => readSystem s h off
  | .cluster c => readCluster s c off
  | .part p => readPart s p off
  | .module => readModule s.pkg off
  | .power => readPower s.power off
  | .chrodon => readChrodon s.chr off
  | .pcie => readPcie s.pcie off
  | .die d => readDie (s.dieAt d) off
  | .kick _ => 0
  | .ecam => 0
  | .mmio => 0

/-- The write of the register at an offset of a block; none where it waits. A kick page takes kicks only through
`deviceStore`. -/
def writeReg (b : Block) (off : Nat) (w : RegWrite) (s : State) : Option State :=
  match b with
  | .ints h => some (writeInts h off w s)
  | .file h sf => some (if off = 0 && w.mask = 15 then setIdentity h sf (fieldOf w.val 0 32) s else s)
  | .hart h => some (writeCtl h off w s)
  | .mill m => some (writeMill m off w s)
  | .sys h => some (writeSystem h off w s)
  | .cluster c => writeCluster c off w s
  | .part p => some (writePart p off w s)
  | .module => some (writeModule off w s)
  | .power => some { s with power := s.power.write off w }
  | .chrodon => some { s with chr := s.chr.write off w }
  | .pcie => some { s with pcie := s.pcie.write off w }
  | .die d => writeDie d off w s
  | .kick _ => some s
  | .ecam => some s
  | .mmio => some s

/-! ## Device accesses of an agent (R276, R407, R419) -/

/-- An outbound read through the root port waits for its completion. -/
def outboundRead (who a n : Nat) : Act Nat := fun s =>
  let new : OutRead := { who := who, addr := a, len := n }
  match s.pcie.reads.find? (fun r => r.who == who) with
  | some r => match r.answer with
    | some v => .ok (v.toNat % 256 ^ n) { s with pcie := { s.pcie with
        reads := s.pcie.reads.filter (fun q => q.who != who) } }
    | none => .error .stall s
  | none => .error .stall { s with pcie := { s.pcie with reads := s.pcie.reads ++ [new] } }

/-- A load of `n` bytes of a device range: every register it touches must admit the access. -/
def deviceLoad (d : DevAcc) (va a n : Nat) : Act Nat := fun s =>
  let bad : Stop := .trap 5 (bv 64 va)
  match blockOf a, blockOf (a + n - 1) with
  | some (b, off), some (b', off') =>
    if b ≠ b' || !(admits s d b (off / 8 * 8)) || !(admits s d b (off' / 8 * 8)) then .error bad s
    else if b = .ecam || b = .mmio then outboundRead d.who a n s
    else
      let x := (readReg s b (off / 8 * 8)).toNat + 2 ^ 64 * (readReg s b (off' / 8 * 8)).toNat
      .ok (x / 256 ^ (off % 8) % 256 ^ n) s
  | _, _ => .error bad s

/-- The part of a store of `n` bytes at an offset that falls in the register at `r`. -/
def regPart (off n r v : Nat) : RegWrite :=
  let lo := max off r
  let hi := min (off + n) (r + 8)
  { mask := (2 ^ (hi - lo) - 1) * 2 ^ (lo - r), val := bv 64 (v / 256 ^ (lo - off) % 256 ^ (hi - lo) * 256 ^ (lo - r)) }

/-- A store of the low `n` bytes of `v` to a device range; at offset 0 of a kick page a naturally aligned 8-byte store
kicks with a scope (R327, R329). -/
def deviceStore (d : DevAcc) (scope va a n v : Nat) : Act Unit := fun s =>
  let bad : Stop := .trap 7 (bv 64 va)
  match blockOf a, blockOf (a + n - 1) with
  | some (b, off), some (b', off') =>
    let r := off / 8 * 8
    let r' := off' / 8 * 8
    if b ≠ b' || !(admits s d b r) || !(admits s d b r') then .error bad s
    else match b with
      | .kick m => .ok () (if off = 0 && n = 8 then performKick m (kickOf s d.who d.priv (bv 64 v) scope) s else s)
      | .ecam => .ok () { s with pcie := { s.pcie with writes := s.pcie.writes ++ [(a, toBytes n v)] } }
      | .mmio => .ok () { s with pcie := { s.pcie with writes := s.pcie.writes ++ [(a, toBytes n v)] } }
      | b =>
        match writeReg b r (regPart off n r v) s with
        | none => .error .stall s
        | some s =>
          if r = r' then .ok () s
          else match writeReg b r' (regPart off n r' v) s with
            | none => .ok () s
            | some s => .ok () s
  | _, _ => .error bad s

end Sys2Proof.Machine
end

