-- ==== Sys2Proof/Machine/Scalar.lean ====
section
/-! DEFINITION. The scalar base (spec/01, R15): RV64I, M, Zba, Zbb, F and D, the scalar loads and stores with device
accesses (spec/13, R276), LR, SC and AMOs (R292), and fence.i (spec/07, R169). -/

namespace Sys2Proof.Machine

/-! ## Integer operations -/

/-- A 32-bit result, sign-extended. -/
def wordResult (x : Nat) : Word := sext64 32 x

/-- The register-register operations. -/
def regOp (o : RegOp) (a b : Word) : Word :=
  let x := a.toNat
  let y := b.toNat
  let xw := x % 2 ^ 32
  let yw := y % 2 ^ 32
  match o with
  | .add => a + b
  | .sub => a - b
  | .sll => a <<< (y % 64)
  | .slt => bv 64 (a.slt b).toNat
  | .sltu => bv 64 (a.ult b).toNat
  | .xor => a ^^^ b
  | .srl => a >>> (y % 64)
  | .sra => a.sshiftRight (y % 64)
  | .or => a ||| b
  | .and => a &&& b
  | .addw => wordResult (x + y)
  | .subw => wordResult (a - b).toNat
  | .sllw => wordResult (xw * 2 ^ (y % 32))
  | .srlw => wordResult (xw / 2 ^ (y % 32))
  | .sraw => (sext64 32 x).sshiftRight (y % 32)
  | .mul => a * b
  | .mulh => BitVec.ofInt 64 (a.toInt * b.toInt / (2 ^ 64 : Nat))
  | .mulhsu => BitVec.ofInt 64 (a.toInt * (y : Int) / (2 ^ 64 : Nat))
  | .mulhu => bv 64 (x * y / 2 ^ 64)
  | .div => bv 64 (divS 64 x y)
  | .divu => bv 64 (divU 64 x y)
  | .rem => bv 64 (remS 64 x y)
  | .remu => bv 64 (remU 64 x y)
  | .mulw => wordResult (x * y)
  | .divw => wordResult (divS 32 xw yw)
  | .divuw => wordResult (divU 32 xw yw)
  | .remw => wordResult (remS 32 xw yw)
  | .remuw => wordResult (remU 32 xw yw)
  | .addUw => bv 64 (xw + y)
  | .sh1add => bv 64 (2 * x + y)
  | .sh2add => bv 64 (4 * x + y)
  | .sh3add => bv 64 (8 * x + y)
  | .sh1addUw => bv 64 (2 * xw + y)
  | .sh2addUw => bv 64 (4 * xw + y)
  | .sh3addUw => bv 64 (8 * xw + y)
  | .andn => a &&& ~~~b
  | .orn => a ||| ~~~b
  | .xnor => ~~~(a ^^^ b)
  | .max => if a.slt b then b else a
  | .maxu => bv 64 (max x y)
  | .min => if a.slt b then a else b
  | .minu => bv 64 (min x y)
  | .rol => a.rotateLeft (y % 64)
  | .ror => a.rotateRight (y % 64)
  | .rolw => wordResult ((bv 32 xw).rotateLeft (y % 32)).toNat
  | .rorw => wordResult ((bv 32 xw).rotateRight (y % 32)).toNat

/-- The register-immediate operations; the immediate is sign-extended. -/
def immOp (o : ImmOp) (a imm : Word) : Word :=
  match o with
  | .addi => a + imm
  | .slti => bv 64 (a.slt imm).toNat
  | .sltiu => bv 64 (a.ult imm).toNat
  | .xori => a ^^^ imm
  | .ori => a ||| imm
  | .andi => a &&& imm
  | .addiw => wordResult (a + imm).toNat

/-- Shifts and rotates by an immediate. -/
def shOp (o : ShOp) (a : Word) (n : Nat) : Word :=
  let xw := a.toNat % 2 ^ 32
  match o with
  | .slli => a <<< n
  | .srli => a >>> n
  | .srai => a.sshiftRight n
  | .slliw => wordResult (xw * 2 ^ n)
  | .srliw => wordResult (xw / 2 ^ n)
  | .sraiw => (sext64 32 xw).sshiftRight n
  | .slliUw => bv 64 (xw * 2 ^ n)
  | .rori => a.rotateRight n
  | .roriw => wordResult ((bv 32 xw).rotateRight n).toNat

/-- The bytes of a word with a function applied to each. -/
def mapBytes (f : Nat → Nat) (x : Nat) : Nat :=
  (List.range 8).foldr (fun i r => f (x / 256 ^ i % 256) * 256 ^ i + r) 0

/-- The one-operand operations of Zbb. -/
def unOp (o : UnOp) (a : Word) : Word :=
  let x := a.toNat
  match o with
  | .clz => bv 64 (leadingZeros 64 x)
  | .ctz => bv 64 (lowestOne 64 x)
  | .cpop => bv 64 (countOnes 64 x)
  | .clzw => bv 64 (leadingZeros 32 x)
  | .ctzw => bv 64 (lowestOne 32 x)
  | .cpopw => bv 64 (countOnes 32 x)
  | .sextB => sext64 8 x
  | .sextH => sext64 16 x
  | .zextH => bv 64 (x % 65536)
  | .orcB => bv 64 (mapBytes (fun b => if b = 0 then 0 else 255) x)
  | .rev8 => bv 64 (ofBytesBE (toBytes 8 x))

/-- The condition of a branch. -/
def brTaken (c : BrCond) (a b : Word) : Bool :=
  match c with
  | .eq => a == b
  | .ne => a != b
  | .lt => a.slt b
  | .ge => !(a.slt b)
  | .ltu => a.ult b
  | .geu => !(a.ult b)

/-! ## Jumps -/

/-- A jump retires at its target. A target that is not a multiple of 4 traps (cause 0); one with bit 47 set, which would
read as a repetition position, lies outside the virtual space and traps at the jump (R90, assumption 25). -/
def jumpTo (g : Hart → Hart) (target : Word) : Act Unit := fun s =>
  if target.toNat % 4 ≠ 0 then .error (.trap 0 target) s
  else if isRep target then
    .error (.trap (if (envOf s s.cur true).translates then 12 else 1) target) s
  else .ok () (s.setHart ((g s.hart).retireTo target))

/-! ## Scalar loads and stores -/

/-- A span that crosses a 16 KiB boundary (R15). -/
def crossesPage (va n : Nat) : Bool := 16384 < va % 16384 + n

/-- Who accesses a device range. -/
def devAcc (e : Env) : DevAcc := { who := e.who, priv := e.priv, part := e.part }

/-- A device access of the package's memory waits for the hart's earlier stores, so that device accesses keep program
order (R276). -/
def deviceWaits (s : State) (e : Env) (a n : Nat) : Bool :=
  byMessage s e a && (!(outstanding s e.who false).isEmpty || committing s a n)

/-- A scalar load of a device page (R276), never cached: the register of a device range, or the bytes behind a leaf with
MT = 01. -/
def loadDevice (e : Env) (va a n : Nat) : Act Nat := fun s =>
  if isDevice a then deviceLoad (devAcc e) va a n s
  else match regionOf s a with
    | .far _ => remoteAtomic e 1 0 va a n [] s
    | _ => if deviceWaits s e a n then .error .stall s else loadMem .load va a n s

/-- A scalar load (R15): a misaligned one is performed unless it crosses a 16 KiB boundary. -/
def scalarLoad (e : Env) (va n : Nat) : Act Nat := do
  ensure (!(crossesPage va n)) (.trap 4 (bv 64 va))
  pastBars e
  match ← locate e .load va n with
  | .mem a => loadAt e .load va a n
  | .far a => remoteRead e .load va a n
  | .dev a => loadDevice e va a n

/-- A scalar store of a device page (R276). -/
def storeDevice (e : Env) (scope va a n v : Nat) : Act Unit := fun s =>
  if isDevice a then deviceStore (devAcc e) scope va a n v s
  else match regionOf s a with
    | .far _ => remoteWrite e .store va a (toBytes n v) s
    | _ => if deviceWaits s e a n then .error .stall s else storeAt e va a (toBytes n v) s

/-- A scalar store of the low `n` bytes of `v`; `scope` is the release scope it carries, package without one. -/
def scalarStore (e : Env) (scope va n v : Nat) : Act Unit := do
  ensure (!(crossesPage va n)) (.trap 6 (bv 64 va))
  pastBars e
  match ← locate e .store va n with
  | .mem a => storeAt e va a (toBytes n v)
  | .far a => remoteWrite e .store va a (toBytes n v)
  | .dev a => storeDevice e scope va a n v

/-- Address of a base and a 12-bit offset. -/
def offsetAddr (h : Hart) (rs1 : BitVec 5) (imm : BitVec 12) : Nat := (h.getX rs1 + imm.signExtend 64).toNat

/-- Width in bytes and sign of a load. -/
def ldWidth : LdKind → Nat × Bool
  | .lb => (1, true)
  | .lh => (2, true)
  | .lw => (4, true)
  | .ld => (8, true)
  | .lbu => (1, false)
  | .lhu => (2, false)
  | .lwu => (4, false)

/-- Width in bytes of a store. -/
def stWidth : StKind → Nat
  | .sb => 1
  | .sh => 2
  | .sw => 4
  | .sd => 8

/-- The value a load writes. -/
def ldValue (w : LdKind) (x : Nat) : Word := if (ldWidth w).2 then sext64 (8 * (ldWidth w).1) x else bv 64 x

/-! ## Floating point (F and D) -/

/-- The format of F or D. -/
def fpFmt : FpFmt → FloatFmt
  | .s => fp32
  | .d => fp64
/-- Its width in bytes. -/
def fpBytes : FpFmt → Nat
  | .s => 4
  | .d => 8

/-- An f register as an operand: an FP32 operand that is not NaN-boxed is the canonical NaN. -/
def Hart.getFp (h : Hart) (p : FpFmt) (r : BitVec 5) : Nat :=
  let x := (h.getF r).toNat
  match p with
  | .d => x
  | .s => if x / 2 ^ 32 = 2 ^ 32 - 1 then x % 2 ^ 32 else fp32.nanCode

/-- Writing an f register: FP32 values are NaN-boxed. -/
def Hart.setFp (h : Hart) (p : FpFmt) (r : BitVec 5) (v : Nat) : Hart :=
  h.setF r (match p with
    | .d => bv 64 v
    | .s => bv 64 (v % 2 ^ 32 + (2 ^ 32 - 1) * 2 ^ 32))

/-- The value of an f register. -/
def Hart.fpVal (h : Hart) (p : FpFmt) (r : BitVec 5) : FVal := decodeFloat (fpFmt p) (h.getFp p r)

/-- The rounding mode of an instruction: its own, or frm. -/
def Hart.roundMode (h : Hart) (rm : BitVec 3) : Nat := if rm = 7 then fieldOf h.fcsr 5 3 else rm.toNat

/-- The rounding of scalar arithmetic: subnormals are kept. -/
def fpRounding (p : FpFmt) (rm : Nat) : Rounding := ⟨fpFmt p, rm, false, false⟩

/-- The word writes an f register and its flags, and retires. -/
def putFp (p : FpFmt) (rd : BitVec 5) (r : Nat × Ev) : Act Unit :=
  onHart (fun h => ((h.setFp p rd r.1).addFflags r.2).retire)
/-- The word writes an x register and its flags, and retires. -/
def putFx (rd : BitVec 5) (v : Word) (e : Ev) : Act Unit := onHart (fun h => ((h.setX rd v).addFflags e).retire)

/-- An arithmetic word with a rounding mode: a reserved mode is illegal. -/
def rounded (p : FpFmt) (rd : BitVec 5) (rm : BitVec 3) (f : Hart → Rounding → Nat × Ev) : Act Unit := do
  let s ← getS
  let m := s.hart.roundMode rm
  ensure (m ≤ 4) .illegal
  putFp p rd (f s.hart (fpRounding p m))

/-- The number of an operation of R116. -/
def selNumber : FpSel → Nat
  | .sgnj => 0
  | .sgnjn => 1
  | _ => 2

/-- Sign injection, minimum and maximum. -/
def fpSel (o : FpSel) (p : FpFmt) (a b : Nat) : Nat × Ev :=
  match o with
  | .min => minMaxFloat (fpFmt p) false a b
  | .max => minMaxFloat (fpFmt p) true a b
  | o => (signInject (fpFmt p).width (selNumber o) a b, 0)

/-- The number of a compare of R118. -/
def cmpNumber : FpCmp → Nat
  | .eq => 0
  | .lt => 1
  | .le => 2

/-- The two-operand operations that round. -/
def fpArith (o : FpOp) (r : Rounding) (a b : FVal) : Nat × Ev :=
  match o with
  | .add => addVal r a b
  | .sub => addVal r a b.negate
  | .mul => mulVal r a b
  | .div => divVal r a b

/-- The fused operations. -/
def fpFma (o : FmaOp) (r : Rounding) (a b c : FVal) : Nat × Ev :=
  match o with
  | .madd => fmaVal r a b c
  | .msub => fmaVal r a b c.negate
  | .nmsub => fmaVal r a.negate b c
  | .nmadd => fmaVal r a.negate b c.negate

/-- Bits and signedness of an integer format of the conversions. -/
def intBits : IntFmt → Nat × Bool
  | .w => (32, false)
  | .wu => (32, true)
  | .l => (64, false)
  | .lu => (64, true)

/-- A conversion to an integer; 32-bit results are sign-extended. -/
def fpToInt (i : IntFmt) (rm : Nat) (a : FVal) : Word × Ev :=
  let (x, e) := toIntVal rm (intBits i).1 (intBits i).2 a
  (if (intBits i).1 = 32 then sext64 32 x else bv 64 x, e)

/-- The value of an integer operand. -/
def fpFromInt (i : IntFmt) (x : Word) : FVal :=
  intVal (if (intBits i).2 then ((x.toNat % 2 ^ (intBits i).1 : Nat) : Int) else signedOf (intBits i).1 x.toNat)

/-- Whether a word is of F or D. -/
def isFpWord : Rv → Bool
  | .fload .. => true
  | .fstore .. => true
  | .fma .. => true
  | .farith .. => true
  | .fsqrt .. => true
  | .fsel .. => true
  | .fcmp .. => true
  | .fclass .. => true
  | .fcvtToInt .. => true
  | .fcvtFromInt .. => true
  | .fcvtSD .. => true
  | .fcvtDS .. => true
  | .fmvToX .. => true
  | .fmvFromX .. => true
  | _ => false

/-! ## The standard words -/

/-- FENCE acts at package scope (R287): with stores before it, the hart's later scalar accesses wait for their
acknowledgements. -/
def fenceNow (pred : BitVec 4) : Act Unit := do
  layFence 4 (bitOf pred 0) false true false
  onHart Hart.retire

/-- The environment call's cause, by mode. -/
def ecallCause (p : Priv) : Nat := 8 + p.code

/-- The meaning of a standard word. -/
def rvMeaning (o : Rv) : Act Unit := fun s =>
  let h := s.hart
  let x (r : BitVec 5) : Word := h.getX r
  let write (rd : BitVec 5) (v : Word) : EStateM.Result Stop State Unit := retireWith rd v s
  match o with
  | .lui rd imm => write rd ((imm ++ (0 : BitVec 12)).signExtend 64)
  | .auipc rd imm => write rd (h.pc + (imm ++ (0 : BitVec 12)).signExtend 64)
  | .jal rd imm => jumpTo (fun h => h.setX rd (h.pc + 4)) (h.pc + (imm ++ (0 : BitVec 1)).signExtend 64) s
  | .jalr rd rs1 imm =>
    jumpTo (fun h => h.setX rd (h.pc + 4)) ((x rs1 + imm.signExtend 64) &&& ~~~1#64) s
  | .branch c rs1 rs2 imm =>
    if brTaken c (x rs1) (x rs2) then jumpTo id (h.pc + (imm ++ (0 : BitVec 1)).signExtend 64) s
    else .ok () (s.setHart h.retire)
  | .load w rd rs1 imm => (do
    let v ← scalarLoad (dataEnv s) (offsetAddr h rs1 imm) (ldWidth w).1
    retireWith rd (ldValue w v)) s
  | .store w rs2 rs1 imm => (do
    scalarStore (dataEnv s) 4 (offsetAddr h rs1 imm) (stWidth w) ((x rs2).toNat % 256 ^ stWidth w)
    onHart Hart.retire) s
  | .opImm o rd rs1 imm => write rd (immOp o (x rs1) (imm.signExtend 64))
  | .shImm o rd rs1 sh => write rd (shOp o (x rs1) sh.toNat)
  | .op o rd rs1 rs2 => write rd (regOp o (x rs1) (x rs2))
  | .unary o rd rs1 => write rd (unOp o (x rs1))
  | .fence _ pred _ _ _ => fenceNow pred s
  | .ecall => .error (.trap (ecallCause h.priv) 0) s
  | .ebreak => .error (.trap 3 0) s
  | .fload p rd rs1 imm => (do
    let v ← scalarLoad (dataEnv s) (offsetAddr h rs1 imm) (fpBytes p)
    onHart (fun h => (h.setFp p rd v).retire)) s
  | .fstore p rs2 rs1 imm => (do
    scalarStore (dataEnv s) 4 (offsetAddr h rs1 imm) (fpBytes p) ((h.getF rs2).toNat % 256 ^ fpBytes p)
    onHart Hart.retire) s
  | .fma o p rd rs1 rs2 rs3 rm => rounded p rd rm (fun h r => fpFma o r (h.fpVal p rs1) (h.fpVal p rs2) (h.fpVal p rs3)) s
  | .farith o p rd rs1 rs2 rm => rounded p rd rm (fun h r => fpArith o r (h.fpVal p rs1) (h.fpVal p rs2)) s
  | .fsqrt p rd rs1 rm => rounded p rd rm (fun h r => sqrtVal r (h.fpVal p rs1)) s
  | .fsel o p rd rs1 rs2 => putFp p rd (fpSel o p (h.getFp p rs1) (h.getFp p rs2)) s
  | .fcmp o p rd rs1 rs2 =>
    let r := compareFloat (fpFmt p) (cmpNumber o) (h.getFp p rs1) (h.getFp p rs2)
    putFx rd (bv 64 r.1.toNat) r.2 s
  | .fclass p rd rs1 => write rd (bv 64 (classFloat (fpFmt p) (h.getFp p rs1)))
  | .fcvtToInt i p rd rs1 rm =>
    let m := h.roundMode rm
    if 4 < m then .error .illegal s
    else
      let r := fpToInt i m (h.fpVal p rs1)
      putFx rd r.1 r.2 s
  | .fcvtFromInt i p rd rs1 rm => rounded p rd rm (fun _ r => roundVal r (fpFromInt i (x rs1))) s
  | .fcvtSD rd rs1 rm => rounded .s rd rm (fun h r => roundVal r (h.fpVal .d rs1)) s
  | .fcvtDS rd rs1 rm => rounded .d rd rm (fun h r => roundVal r (h.fpVal .s rs1)) s
  | .fmvToX p rd rs1 =>
    let v := (h.getF rs1).toNat
    write rd (match p with
      | .s => sext64 32 v
      | .d => bv 64 v)
  | .fmvFromX p rd rs1 => .ok () (s.setHart (h.setFp p rd (x rs1).toNat).retire)

/-- F and D words need mstatus.FS not Off (R15), and a Milliner has none (R324). -/
def rvLegal (o : Rv) (s : State) : Bool := !(isFpWord o) || (s.hart.fpOn && !(isMilliner s.cur))

/-- RISCV_INSTRUCTION (R15). -/
def execRiscvInstruction (op : Rv) : State → Host.Outcome State Fault Refusal :=
  scalarWord (.riscvInstruction op) (rvLegal op) (rvMeaning op)

/-- fence.i discards the fetch buffer (R169); on a Milliner it has no other effect than to retire (R324). -/
def execFenceI (imm : BitVec 12) (rs1 rd : BitVec 5) : State → Host.Outcome State Fault Refusal :=
  scalarWord (.fenceI imm rs1 rd) (fun _ => true) (onHart (fun h =>
    let h := h.retire
    { h with run := { h.run with fetch := [] } }))

/-! ## Atomics (R15, R292) -/

/-- The bytes of an atomic's width. -/
def amoBytes : AmoW → Nat
  | .w32 => 4
  | .w64 => 8

/-- The value an atomic writes to rd. -/
def amoValue (sz : AmoW) (v : Nat) : Word := sext64 (8 * amoBytes sz) v

/-- Head byte 9 of a remote atomic (R390): funct5 and the width. -/
def amoSub (funct5 : Nat) (sz : AmoW) : Byte := bv 8 (funct5 * 4 + (if sz = .w32 then 2 else 3))

/-- funct5 of an AMO. -/
def amoFunct : AmoOp → Nat
  | .swap => 1
  | .add => 0
  | .xor => 4
  | .and => 12
  | .or => 8
  | .min => 16
  | .max => 20
  | .minu => 24
  | .maxu => 28

/-- An rl bit orders the earlier stores of the hart before the access, at package scope (R287). -/
def releaseWaits (s : State) (rl : BitVec 1) : Bool := rl = 1 && fenceWaits s 4

/-- LR: the reservation is the aligned 8-byte word, for 1,024 cc. -/
def execLr (sz : AmoW) (aq rl : BitVec 1) (rs1 rd : BitVec 5) : State → Host.Outcome State Fault Refusal :=
  scalarWord (.lr sz aq rl rs1 rd) (fun _ => true) (do
    let s ← getS
    let e := dataEnv s
    let va := (s.hart.getX rs1).toNat
    let n := amoBytes sz
    ensure (va % n = 0) (.trap 4 (bv 64 va))
    ensure (!(releaseWaits s rl)) .stall
    pastBars e
    let reserve (a v : Nat) : Act Unit := onHart (fun h =>
      let h := (h.setX rd (amoValue sz v)).retire
      { h with run := { h.run with resv := some (a / 8 * 8), resvEnds := s.ccOf s.cur + 1024 } })
    match ← locate e .load va n with
    | .mem a =>
      let s ← getS
      ensure (!(leaseBlocks s e.writer a n) && !(byMessage s e a && (ownPending s e a n || committing s a n))) .stall
      let v ← loadMem .load va a n
      reserve a v
    | .far a =>
      let v ← remoteAtomic e 4 0 va a n []
      reserve a v
    | .dev _ => stop (.trap 5 (bv 64 va)))

/-- Sending an atomic to its home and waiting for its acknowledgement (R280): the core's copies of its words are held for
it (R282). -/
def atomicByMessage (op : AtomicOp) (aq rl : Bool) (a n v : Nat) : Act Nat := fun s =>
  match findRemote s s.cur 0 100 a n with
  | some r =>
    (match r.answer with
     | some x => .ok x (dropRemote s r.tag)
     | none => .error .stall s)
  | none =>
    let y := agentNo s.cur
    let m : Msg := { kind := .amo, src := y, inc := incOf s y, dst := homeNo s a, hart := s.cur, addr := a, len := n,
                     data := toBytes n v, op := some op, aq := aq, rl := rl, id := s.coh.nextId }
    let r : Remote := { tag := s.coh.nextTag, hart := s.cur, kind := 100, addr := a, len := n, port := 0 }
    let s := (s.useId.mapCopies (holdCopies y a n { m.pend with data := [] })).send m
    .error .stall { s with coh := { s.coh with remote := s.coh.remote ++ [r], nextTag := s.coh.nextTag + 1 } }

/-- SC at once: it writes and answers 0 when the hart holds the reservation of the word, else 1. -/
def scNow (e : Env) (va a n v : Nat) : Act Nat := do
  let s ← getS
  if reserved s s.cur a then
    storeMem e.writer va a (toBytes n v)
    fun s => .ok 0 (patchOwn e a (toBytes n v) s)
  else return 1

/-- An SC has answered: the reservation is gone. -/
def endSc (rd : BitVec 5) (v : Nat) : Act Unit := onHart (fun h =>
  let h := (h.setX rd (bv 64 v)).retire
  { h with run := { h.run with resv := none } })

/-- SC. -/
def execSc (sz : AmoW) (aq rl : BitVec 1) (rs2 rs1 rd : BitVec 5) : State → Host.Outcome State Fault Refusal :=
  scalarWord (.sc sz aq rl rs2 rs1 rd) (fun _ => true) (do
    let s ← getS
    let e := dataEnv s
    let va := (s.hart.getX rs1).toNat
    let n := amoBytes sz
    let v := (s.hart.getX rs2).toNat % 256 ^ n
    ensure (va % n = 0) (.trap 6 (bv 64 va))
    ensure (!(releaseWaits s rl)) .stall
    pastBars e
    match ← locate e .store va n with
    | .mem a =>
      let sent := (findRemote s s.cur 0 100 a n).isSome
      let r ← if byMessage s e a && (sent || reserved s s.cur a) && (poisoned s a n).isNone then
          atomicByMessage .sc (aq = 1) (rl = 1) a n v
        else scNow e va a n v
      endSc rd r
    | .far a =>
      let sent := (findRemote s s.cur 0 5 a n).isSome
      let r ← if sent || reserved s s.cur a then remoteAtomic e 5 0 va a n (toBytes n v)
        else (fun s => .ok 1 s)
      endSc rd r
    | .dev _ => stop (.trap 7 (bv 64 va)))

/-- An AMO at once, on the value memory holds. -/
def amoNow (o : AmoOp) (e : Env) (va a n v : Nat) : Act Nat := fun s =>
  match poisoned s a n with
  | some p => .error (.uncorrectable 7 (bv 64 va) (unitOf s p) p) s
  | none =>
    let old := readNat s.mem a n
    let bs := toBytes n (amoResult o (8 * n) old v)
    match storeMem e.writer va a bs s with
    | .ok _ s => .ok old (patchOwn e a bs s)
    | .error x s => .error x s

/-- AMO. -/
def execAmo (o : AmoOp) (sz : AmoW) (aq rl : BitVec 1) (rs2 rs1 rd : BitVec 5) :
    State → Host.Outcome State Fault Refusal :=
  scalarWord (.amo o sz aq rl rs2 rs1 rd) (fun _ => true) (do
    let s ← getS
    let e := dataEnv s
    let va := (s.hart.getX rs1).toNat
    let n := amoBytes sz
    let v := (s.hart.getX rs2).toNat % 256 ^ n
    ensure (va % n = 0) (.trap 6 (bv 64 va))
    ensure (!(releaseWaits s rl)) .stall
    pastBars e
    match ← locate e .store va n with
    | .mem a =>
      let old ← if byMessage s e a && (poisoned s a n).isNone then atomicByMessage (.amo o) (aq = 1) (rl = 1) a n v
        else amoNow o e va a n v
      retireWith rd (amoValue sz old)
    | .far a =>
      let old ← remoteAtomic e 3 (amoSub (amoFunct o) sz) va a n (toBytes n v)
      retireWith rd (amoValue sz old)
    | .dev _ => stop (.trap 7 (bv 64 va)))

/-! ## Opening a stream (R185) -/

/-- A run of aligned 8-byte words, by scalar loads (R179). -/
def scalarWords (e : Env) : Nat → Nat → Act (List Word)
  | 0, _ => fun s => .ok [] s
  | n + 1, va => do
    let b ← scalarLoad e va 8
    let r ← scalarWords e n ((va + 8) % 2 ^ 64)
    return bv 64 b :: r

/-- sopen (R185). -/
def execSopen (w : SFld) : State → Host.Outcome State Fault Refusal :=
  scalarWord (.sopen w) onCompute (do
    let s ← getS
    let h := s.hart
    let avl := (h.getX w.rs1).toNat
    let at' := (h.getX w.rs2).toNat
    let mode := w.rd.toNat % 4
    let bad : Stop := .format 7 (bv 64 at')
    ensure (avl < 2 ^ 32) bad
    ensure (at' % 64 = 0) (.trap 4 (bv 64 at'))
    let ws ← scalarWords (dataEnv s) 8 at'
    let word (k : Nat) : Word := (ws[k]?).getD 0
    ensure (!(descriptorBad (word 0) mode)) bad
    let st := openStream (dataEnv s) h.vec.vtype word (bv 2 mode) avl (bv 64 at')
    onHart (fun h =>
      let h := h.setStream (slotOf w) (some st)
      (if avl = 0 && bitOf (word 0) 8 then h.pendUi 1 (slotOf w) else h).retire))

end Sys2Proof.Machine
end

