-- ==== Sys2Proof/Machine/Carder.lean ====
section
/-! DEFINITION. The Carder (spec/12): the channel table, task rings, spawning, choice, dispatch and delivery, retiring and
yielding, blocking, panels, tickets, and the errors of its storage. -/

namespace Sys2Proof.Machine

/-! ## Tables in memory (R243, R247, R263) -/

/-- The number under which the Carder of a die stores and reports (R268). -/
def carderNo (die : Nat) : Nat := 0xFFFFFFF8 + die

/-- Whether a word of a table is memory of its partition. -/
def tableAt (s : State) (p a : Nat) : Bool := isOwnMem s a && ownerOf s a == p

/-- A word of a table; zero where it is not memory of the partition (assumption 28). -/
def tableWord (s : State) (p a : Nat) : Word := if tableAt s p a then read8 s.mem (placed s a) else 0

/-- Whether `n` bytes of a table hold an uncorrectable error. -/
def tablePoison (s : State) (a n : Nat) : Bool := (poisoned s (placed s a) n).isSome

/-- The Carder's store to a word of a table. -/
def setTable (s : State) (p die a : Nat) (v : Word) : State :=
  if tableAt s p a then s.pushStore { hart := carderNo die, scalar := true } a (toBytes 8 v.toNat) else s

/-- Whether a word of a table cannot be updated now: a lease of an agent holds it, or a store to it is on its way at its
home. -/
def tableHeld (s : State) (a : Nat) : Bool :=
  leaseBlocks s { hart := carderNo 0, scalar := true } (placed s a) 8 || spanBusy s a 8 || (forward s a).isNone

/-! ## Channels (R243, R244) -/

/-- A channel entry. -/
structure Channel where
  pc : Word
  blk : Bool
  foot : Nat
  pclass : Nat
  kind : BitVec 2
  prio : Nat
  deriving DecidableEq, Repr

/-- TTAB_BASE + n × 16. -/
def channelAddr (s : State) (p ch : Nat) : Nat := (s.partAt p).ttab.base.toNat + ch * 16

/-- Whether the two words of an entry make a valid channel: V, no reserved code, no nonzero reserved field. -/
def channelValid (w0 w1 : Word) : Bool :=
  bitOf w0 63 && fieldOf w0 47 16 = 0 && fieldOf w0 0 2 = 0 && fieldOf w1 43 20 = 0 && fieldOf w1 15 17 = 0
  && fieldOf w1 0 8 = 0 && fieldOf w1 11 2 ≠ 3 && fieldOf w1 32 11 ≤ 1024

/-- Channel `ch` of a partition: none where the table is off or the entry invalid; `error` where it holds an
uncorrectable error. -/
def readChannel (s : State) (p ch : Nat) : Except Unit (Option Channel) :=
  let a := channelAddr s p ch
  if !(s.partAt p).ttab.en then .ok none
  else if tablePoison s a 16 then .error ()
  else
    let w0 := tableWord s p a
    let w1 := tableWord s p (a + 8)
    .ok (if channelValid w0 w1 then
        some { pc := w0 &&& bitsOf 2 46, blk := bitOf w1 63, foot := fieldOf w1 32 11, pclass := fieldOf w1 13 2,
               kind := bv 2 (fieldOf w1 11 2), prio := fieldOf w1 8 3 }
      else none)
where
  /-- Bits [hi:lo]. -/
  bitsOf (lo hi : Nat) : Word := bv 64 (2 ^ (hi + 1) - 2 ^ lo)

/-- A channel, none where it cannot be read. -/
def channelOf (s : State) (p ch : Nat) : Option Channel :=
  match readChannel s p ch with
  | .ok c => c
  | .error _ => none

/-- Setting BLK of a channel (R259): no effect while the table is off. An entry that holds an uncorrectable error keeps it
until software rewrites the entry (R267). -/
def setBlk (s : State) (p die ch : Nat) (b : Bool) : State :=
  let a := channelAddr s p ch + 8
  if (s.partAt p).ttab.en && !(tablePoison s a 8) then setTable s p die a (setBit (tableWord s p a) 63 b) else s

/-! ## Rings and handles (R242, R245, R246) -/

/-- The task ring of a partition, die and level. -/
def taskRing (s : State) (p die level : Nat) : Ring := look {} (s.partAt p).task (die * 8 + level)

/-- Replacing a task ring. -/
def setTaskRing (s : State) (p die level : Nat) (r : Ring) : State :=
  let x := s.partAt p
  s.setPartAt p { x with task := put x.task (die * 8 + level) r }

/-- The address of the slot of a ring index. -/
def taskSlot (r : Ring) (i : BitVec 32) : Nat := r.base.toNat + i.toNat % r.slots * 64

/-- The handle of a task. -/
def handleOf (level ch die : Nat) (i : BitVec 32) : Word :=
  bv 64 (level * 2 ^ 43 + ch * 2 ^ 35 + die * 2 ^ 32 + i.toNat)

/-- The handle of a waiting task. -/
def Waiting.handle (t : Waiting) (die : Nat) : Word := handleOf t.level t.channel.toNat die t.idx

/-- HEAD passes every dispatched slot and stops at the first one that waits. -/
def advanceHead (s : State) (p die level : Nat) : State :=
  let r := taskRing s p die level
  let ahead := ((s.dieAt die).waiting.filter (fun t => t.part == p && t.level == level)).map (fun t => (t.idx - r.ridx).toNat)
  setTaskRing s p die level { r with ridx := r.ridx + bv 32 (ahead.foldl min (r.widx - r.ridx).toNat) }

/-! ## Entering a task (R250, R251) -/

/-- Statuses of R251. -/
def taskStatus (n : Nat) : Word := bv 64 (n * 2 ^ 60)

/-- The clock of the Carder's island: fabric block 0 (R366). -/
def carderCc (s : State) (die : Nat) : Nat := s.islandCc (die * 200 + 198)

/-- Entering a message at TAIL of a ring: NORING, FULL, or the handle. `who` stores the slot. -/
def enterTask (s : State) (p die level : Nat) (kind : BitVec 2) (w0 : Word) (words : List Word) : State × Word :=
  let r := taskRing s p die level
  let slot := taskSlot r r.widx
  if !r.en || !(writable s p slot 64) then (s, taskStatus 3)
  else if r.full then (s, taskStatus 1)
  else
    let bytes := (setBit w0 31 (r.phase r.widx) :: words.take 7).flatMap (fun w => toBytes 8 w.toNat)
    let s := s.pushStore { hart := carderNo die, scalar := true } slot bytes
    let s := setTaskRing s p die level { r with widx := r.widx + 1 }
    let d := s.dieAt die
    let t : Waiting := { part := p, level := level, idx := r.widx, channel := bv 8 (fieldOf w0 0 8),
                         key := bv 32 (fieldOf w0 32 32), kind := kind, written := carderCc s die, order := d.order, id := d.order }
    (s.setDieAt die { d with waiting := d.waiting ++ [t], order := d.order + 1 },
     handleOf level (fieldOf w0 0 8) die r.widx)

/-- What a spawn comes to: a panel field refused (R261), or the state and rd. -/
inductive Spawned
  | badPanel
  | done (s : State) (rd : Word)

/-- The checks of R251 in their order, then the entry. -/
def spawn (s : State) (who : Nat) (panel : Bool) (words : List Word) : Spawned :=
  let w (k : Nat) : Word := (words[k]?).getD 0
  let p := partOf s who
  let c := if unassigned s who then none else channelOf s p (fieldOf (w 0) 0 8)
  match c with
  | none => .done s (taskStatus 2)
  | some c =>
    if fieldOf (w 0) 24 2 ≠ 0 || fieldOf (w 0) 8 8 ≠ 0 || panel ≠ decide (c.kind = 1) then .done s (taskStatus 2)
    else if panel && (fieldOf (w 5) 0 32 = 0 || fieldOf (w 5) 32 32 = 0 || w 6 ≠ 0) then .badPanel
    else
      let die := if bitOf (w 0) 26 then fieldOf (w 0) 27 3 else dieOf who
      if 6 ≤ die then .done s (taskStatus 3)
      else
        let (t, rd) := enterTask s p die c.prio c.kind (w 0) (words.drop 1)
        .done t rd

/-- The attributes of the task words (R249): no prefix, compute harts and system cores. -/
def taskWord (i : Instr) (a : Act Unit) : State → Host.Outcome State Fault Refusal := scalarWord i notMilliner a

/-- tspawn and tspawnp: the message is read as a 64-byte scalar load; a full ring makes a waiting word wait for up to
4,096 cc. -/
def spawnWord (w : SFld) (panel : Bool) : Act Unit := do
  let s ← getS
  let at' := s.hart.getX w.rs1
  ensure (at'.toNat % 64 = 0) (.trap 4 at')
  ensure (!(fenceWaits s 4)) .stall
  let words ← scalarWords (dataEnv s) 8 at'.toNat
  let s ← getS
  match spawn s s.cur panel words with
  | .badPanel => stop (.format 6 at')
  | .done t rd =>
    let t0 := waitHere s .tspawn 4096
    if rd = taskStatus 1 && bitOf w.x 0 && s.ccOf s.cur < t0.ends then stallWith t0
    else
      setS t
      retireWith w.rd rd

/-- tspawn. -/
def execTspawn (w : SFld) : State → Host.Outcome State Fault Refusal := taskWord (.tspawn w) (spawnWord w false)
/-- tspawnp. -/
def execTspawnp (w : SFld) : State → Host.Outcome State Fault Refusal := taskWord (.tspawnp w) (spawnWord w true)

/-! ## Footprints (R248) -/

/-- Whether `f` units at `o` lie free of the reservations of the other harts of a core. -/
def unitsFree (s : State) (h o f : Nat) : Bool :=
  (hartsOfCore (coreOf h)).all (fun k =>
    let c := (s.hartAt k).ctl
    k = h || c.wlen = 0 || o + f ≤ c.wbase.toNat || c.wbase.toNat + c.wlen.toNat ≤ o)

/-- The offset of a footprint of `f` units for a hart in its core's task region. -/
def placeFoot (s : State) (h f : Nat) : Option Nat :=
  if f = 0 then some 0
  else
    let k := s.clusterAt (clusterOf h)
    let base := ((k.tregBase[coreOf h % 16]?).getD 0).toNat
    let len := ((k.tregLen[coreOf h % 16]?).getD 0).toNat
    if len < f then none
    else ((List.range (len - f + 1)).map (fun i => base + i)).find? (fun o => unitsFree s h o f)

/-! ## Choice (R252-R254) -/

/-- Age in clocks of the Carder's island. -/
def Waiting.age (t : Waiting) (s : State) (die : Nat) : Nat := carderCc s die - t.written

/-- Eff(t). -/
def Waiting.eff (t : Waiting) (s : State) (die : Nat) : Nat := min 7 (t.level + t.age s die / 65536)

/-- A panel's condition on a hart (R262). -/
def panelFits (x : Hart) (t : Waiting) : Bool :=
  t.kind ≠ 1 || (!(vtIll x.vec.vtype) && 1 ≤ x.grantTiles && (t.band = 0 || t.band ≤ 16 * x.grantTiles))

/-- Eligible(t, h) for a hart of the die (R252, R370, R373). -/
def eligible (s : State) (h : Nat) (t : Waiting) (c : Channel) : Bool :=
  let x := s.hartAt h
  partOf s h == t.part && !x.ctl.heldShed && !x.ctl.heldQuiesce && !(quiescing s (clusterOf h))
  && !c.blk && !(s.power.shed.getLsbD c.pclass) && (placeFoot s h c.foot).isSome && panelFits x t

/-- The slot of a waiting task has been written (R250), and where it holds an uncorrectable error, its channel's entry can be
blocked now (R267). -/
def slotReady (s : State) (die : Nat) (t : Waiting) : Bool :=
  let slot := taskSlot (taskRing s t.part die t.level) t.idx
  !(spanBusy s slot 64) && !(tablePoison s slot 64 && tableHeld s (channelAddr s t.part t.channel.toNat + 8))

/-- The waiting tasks of a partition whose channels are open, oldest first, with their channels. -/
def openTasks (s : State) (die p : Nat) : List (Waiting × Channel) :=
  (s.dieAt die).waiting.filterMap (fun t =>
    if t.part = p && slotReady s die t then
      match channelOf s p t.channel.toNat with
      | some c => if c.blk then none else some (t, c)
      | none => none
    else none)

/-- W for every level: the 64 oldest open tasks of each level. The window is taken in the partition (assumption 29). -/
def windows (s : State) (die p : Nat) : List (Waiting × Channel) :=
  (List.range 8).flatMap (fun v => ((openTasks s die p).filter (fun t => t.1.level == v)).take 64)

/-- The first of two tasks by an order on pairs. -/
def leastBy (key : Waiting × Channel → Nat × Nat) : List (Waiting × Channel) → Option (Waiting × Channel)
  | [] => none
  | t :: r =>
    match leastBy key r with
    | none => some t
    | some u =>
      let a := key t
      let b := key u
      if a.1 < b.1 || (a.1 = b.1 && a.2 ≤ b.2) then some t else some u

/-- The choice among candidates: the urgent task written earliest, else among those of highest Eff the ones that prefer
`near`, if any, and of these the least KEY, ties to the earliest written. -/
def pick (s : State) (die : Nat) (near : Waiting → Bool) (c : List (Waiting × Channel)) : Option (Waiting × Channel) :=
  let u := c.filter (fun t => decide (524288 ≤ t.1.age s die))
  if !u.isEmpty then leastBy (fun t => (t.1.order, 0)) u
  else
    let e := c.foldl (fun m t => max m (t.1.eff s die)) 0
    let top := c.filter (fun t => t.1.eff s die == e)
    let close := top.filter (fun t => near t.1)
    leastBy (fun t => (t.1.key.toNat, t.1.order)) (if close.isEmpty then top else close)

/-- Loc(KEY). -/
def locOf (d : DieSt) (key : BitVec 32) : Option Nat := (d.loc.find? (fun p => p.1 == key)).map Prod.snd

/-- Choose(h). -/
def choose (s : State) (h : Nat) : Option (Waiting × Channel) :=
  let die := dieOf h
  pick s die (fun t => locOf (s.dieAt die) t.key == some (clusterOf h))
    ((windows s die (partOf s h)).filter (fun t => eligible s h t.1 t.2))

/-- Whether a hart is idle and can be given a task: parked with PCAUSE 0, not chosen already, and not on an island in
retention (R252, R370). -/
def idle (s : State) (h : Nat) : Bool :=
  let c := (s.hartAt h).ctl
  c.parked && c.pcause = 0 && !(isDead s h) && !c.asks && !c.preempt && !c.restore && !(s.power.retained.contains (islandOf h))
  && !((s.dieAt (dieOf h)).deliveries.any (fun x => x.hart == h))

/-- The idle eligible harts of a die for a task: the lowest of its Loc cluster, else the lowest of the die. -/
def idleFor (s : State) (die : Nat) (t : Waiting) (c : Channel) : Option Nat :=
  let ok (h : Nat) : Bool := idle s h && eligible s h t c
  let near : Option Nat := match locOf (s.dieAt die) t.key with
    | some k => (hartsOfCluster k).find? ok
    | none => none
  match near with
  | some h => some h
  | none => (List.range 1536).findSome? (fun i => if ok (1536 * die + i) then some (1536 * die + i) else none)

/-- The placement on an idle hart (R254): the task and its hart. -/
def placement (s : State) (die : Nat) : Option (Nat × Waiting × Channel) :=
  let ps := ((s.dieAt die).waiting.map Waiting.part).eraseDups
  let c := (ps.flatMap (windows s die)).filter (fun t => (idleFor s die t.1 t.2).isSome)
  match pick s die (fun _ => false) c with
  | some (t, c) => (idleFor s die t c).map (fun h => (h, t, c))
  | none => none

/-! ## Records of the Carder (R267, R268) -/

/-- A kind 0x03 record. -/
def taskRecord (s : State) (die p detail : Nat) (handle key slot : Word) : State :=
  (postRecord s p 0x03 detail (carderNo die) handle key slot).1

/-- The state without a waiting task. -/
def dropWaiting (s : State) (die : Nat) (t : Waiting) : State :=
  let s := s.modDie die (fun d => { d with waiting := d.waiting.filter (fun u => u.order != t.order) })
  advanceHead s t.part die t.level

/-- A task whose slot holds an uncorrectable error is discarded (R267): its channel is blocked and a record gives the
index's facts. A panel's NTF is not applied (R269). -/
def discardTask (s : State) (die : Nat) (t : Waiting) : State :=
  let slot := taskSlot (taskRing s t.part die t.level) t.idx
  let s := dropWaiting s die t
  let s := s.modDie die (fun d => { d with
    panels := d.panels.filter (fun p => p.id != t.id) })
  let s := setBlk s t.part die t.channel.toNat true
  taskRecord s die t.part (t.level * 256 + t.channel.toNat) (t.handle die) (bv 64 t.key.toNat) (bv 64 slot)

/-- The Carder's index entry of the task written in order `order` is lost (R267): UNK = 1 and no channel is blocked. The
facts that the entry held are free values (assumption 3). -/
def loseTask (s : State) (die order : Nat) : State :=
  match (s.dieAt die).waiting.find? (fun t => t.order == order) with
  | none => s
  | some t =>
    let slot := taskSlot (taskRing s t.part die t.level) t.idx
    let g := Config.freeNat s.fresh
    let s := (dropWaiting s die t).useFresh
    taskRecord s die t.part (0x8000 + g % 2048) (bv 64 (g / 2 ^ 11)) (bv 64 (g / 2 ^ 75 % 2 ^ 32)) (bv 64 slot)

/-- A channel's entry holds an uncorrectable error. -/
def channelBad (s : State) (p ch : Nat) : Bool :=
  match readChannel s p ch with
  | .error _ => true
  | .ok _ => false

/-- A decision about a waiting task of an idle hart's partition would meet an uncorrectable error that has not been reported
(R267). -/
def reportDue (s : State) (die : Nat) : Bool :=
  let d := s.dieAt die
  d.waiting.any (fun t => channelBad s t.part t.channel.toNat && !(d.told.contains (t.part, t.channel.toNat))
    && (List.range 1536).any (fun i => idle s (1536 * die + i) && partOf s (1536 * die + i) == t.part))

/-- Channel entries with an uncorrectable error among the waiting tasks' are reported once each (R267). -/
def reportChannels (s : State) (die : Nat) : State :=
  let bad (p ch : Nat) : Bool := channelBad s p ch
  let d := s.dieAt die
  let s := s.setDieAt die { d with told := d.told.filter (fun q => bad q.1 q.2) }
  d.waiting.foldl (fun s t =>
    let d := s.dieAt die
    if bad t.part t.channel.toNat && !(d.told.contains (t.part, t.channel.toNat)) then
      let s := s.setDieAt die { d with told := (t.part, t.channel.toNat) :: d.told }
      taskRecord s die t.part (0x4000 + t.level * 256 + t.channel.toNat) (t.handle die) (bv 64 t.key.toNat)
        (bv 64 (channelAddr s t.part t.channel.toNat))
    else s) s

/-! ## Dispatch and delivery (R248, R255, R262) -/

/-- What a take of a panel gives its hart: a1 to a7 (R262). -/
structure PanelTake where
  args : List Word
  next : Waiting
  last : Bool
  deriving DecidableEq, Repr

/-- A take of a panel by a hart of `tiles` tiles and VLMAX `vm`. -/
def takePanel (t : Waiting) (tiles vm : Nat) (w : Nat → Word) : PanelTake :=
  let rows := fieldOf (w 5) 0 32
  let cols := fieldOf (w 5) 32 32
  let band := if t.band = 0 then min (16 * tiles) (rows - t.rpos) else t.band
  let n := min vm (cols - t.cpos)
  let done := decide (t.cpos + n = cols)
  let next : Waiting := { t with
    rpos := if done then t.rpos + band else t.rpos
    cpos := if done then 0 else t.cpos + n
    band := if done then 0 else band }
  { args := [w 1 + bv 64 t.rpos * w 3, bv 64 t.rpos, bv 64 t.cpos, bv 64 band, bv 64 n, w 2 + bv 64 t.cpos * w 4, w 7]
    next := next
    last := decide (next.rpos = rows) }

/-- The locality table after a dispatch: 64 pairs, least recently used replaced (R253). -/
def touchLoc (l : List (BitVec 32 × Nat)) (key : BitVec 32) (cluster : Nat) : List (BitVec 32 × Nat) :=
  ((key, cluster) :: l.filter (fun p => p.1 != key)).take 64

/-- A take of a panel is counted at the Carder (R257, R262). -/
def countTake (l : List PanelOut) (part id : Nat) (w0 : Word) (last : Bool) : List PanelOut :=
  if l.any (fun p => p.id == id) then
    l.map (fun p =>
      let new : PanelOut := { p with out := p.out + 1, left := last }
      if p.id == id then new else p)
  else { part := part, id := id, out := 1, left := last, word0 := w0 } :: l

/-- HART_WRES of a hart at dispatch. -/
def Ctl.reserve (c : Ctl) (base len : Nat) : Ctl := { c with wbase := bv 10 base, wlen := bv 11 len }

/-- Dispatch of a task to a hart: its slot is read, the index and the locality table are brought up to date, and the
delivery is on its way. A slot with an uncorrectable error discards the task. -/
def dispatch (s : State) (die h : Nat) (t : Waiting) (c : Channel) : State :=
  let slot := taskSlot (taskRing s t.part die t.level) t.idx
  if tablePoison s slot 64 then discardTask s die t
  else
    let w (k : Nat) : Word := tableWord s t.part (slot + 8 * k)
    let x := s.hartAt h
    let handle := t.handle die
    let chan := bv 64 (c.pclass * 2 ^ 13 + t.kind.toNat * 2 ^ 11 + t.eff s die * 256 + t.channel.toNat)
    let take := takePanel t x.grantTiles (vlmax x.vec.vtype) w
    let panel := decide (t.kind = 1)
    let args := if panel then take.args else (List.range 7).map (fun k => w (k + 1))
    let next : Waiting := { take.next with written := carderCc s die }
    let out : Delivery := { hart := h, handle := handle, chan := chan, pc := c.pc, args := args, word0 := w 0,
                            panel := if panel then some (die, t.id) else none }
    let s := s.modDie die (fun d => { d with
      loc := touchLoc d.loc t.key (clusterOf h)
      panels := if panel then countTake d.panels t.part t.id (w 0) take.last else d.panels
      requests := d.requests.filter (fun k => k != h)
      deliveries := d.deliveries ++ [out]
      waiting := d.waiting.filter (fun u => u.order != t.order) ++ (if panel && !take.last then [next] else []) })
    let s := advanceHead s t.part die t.level
    s.modHart h (fun x => x.withCtl (fun k => k.reserve ((placeFoot s h c.foot).getD 0) c.foot))

/-- The words a1 to a7 written to x11 to x17. -/
def Hart.setArgs (h : Hart) : Nat → List Word → Hart
  | _, [] => h
  | r, v :: l => (h.setX (bv 5 r) v).setArgs (r + 1) l

/-- Delivery of a task to its hart (R255). -/
def Hart.deliver (h : Hart) (d : Delivery) : Hart :=
  let h := (h.setX 10 d.handle).setArgs 11 d.args
  { h with
    pc := d.pc
    priv := .u
    vec := { h.vec with velem := 0 }
    dev := { h.dev with task := d.handle, chan := d.chan }
    ctl := { h.ctl with parked := false, asks := false }
    run := { h.run with fetch := [], body := none, wait := none, pfxOwn := false, word0 := d.word0
                        panel := d.panel } }

/-- A hart for which no eligible task waits becomes idle (R257). -/
def Hart.goIdle (h : Hart) : Hart :=
  let h := h.parkAt 0 h.pc
  { h with
    dev := { h.dev with task := 0, chan := 0 }
    ctl := { h.ctl with asks := false, wlen := 0 } }

/-- TASK_REQUEST: the Carder answers the oldest request of the hart's die, if it is this hart's. -/
def execTaskRequest (h : Nat) (s : State) : Host.Outcome State Fault Refusal :=
  let die := dieOf h
  if (s.dieAt die).requests.head? = some h then
    let s := reportChannels s die
    match choose s h with
    | some (t, c) => .next (dispatch s die h t c)
    | none =>
      let s := s.modDie die (fun d => { d with requests := d.requests.filter (fun k => k != h) })
      .next (s.modHart h Hart.goIdle)
  else .next s

/-- IDLE_PLACEMENT on die `d`: while no request waits, one waiting task goes to an idle hart. -/
def execIdlePlacement (d : Nat) (s : State) : Host.Outcome State Fault Refusal :=
  if (s.dieAt d).requests.isEmpty && d < 6 then
    let s := reportChannels s d
    match placement s d with
    | some (h, t, c) => .next (dispatch s d h t c)
    | none => .next s
  else .next s

/-- TASK_DELIVERY to a hart for which a task has been dispatched. -/
def execTaskDelivery (h : Nat) (s : State) : Host.Outcome State Fault Refusal :=
  let die := dieOf h
  match (s.dieAt die).deliveries.find? (fun d => d.hart == h) with
  | none => .next s
  | some d =>
    let s := s.modDie die (fun x => { x with deliveries := x.deliveries.filter (fun e => e.hart != h) })
    .next (s.modHart h (fun x => x.deliver d))

/-! ## Retiring and yielding (R257, R258) -/

/-- The state without the remote reads of a hart's streams. -/
def settleStreams (h : Nat) (s : State) : State :=
  settleReads h 4 (settleReads h 3 (settleReads h 2 (settleReads h 1 s)))

/-- A hart's streams are closed (R189). -/
def Hart.closeStreams (h : Hart) : Hart := { h with run := { h.run with streams := .replicate 4 none } }
/-- A hart's windows are FREE (R216). -/
def Hart.dropWindows (h : Hart) : Hart := { h with run := { h.run with windows := .replicate 4 none } }

/-- What the Carder records of a retiring task. -/
def retirementOf (s : State) (h : Nat) (x : Hart) (ntf : Bool) : Retirement :=
  { hart := h, part := partOf s h, turn := x.run.turn, panel := x.run.panel,
    word0 := x.run.word0, ntf := ntf && bitOf x.run.word0 30, ids := outstanding s h false ++ outstanding s h true }

/-- The running task of a hart retires (R257): the Carder records it, windows, streams and pending user-level interrupts
go; the hart then asks for a task, or is held (R370, R373). -/
def leaveTask (h : Nat) (ntf : Bool) (s : State) : State :=
  let x := s.hartAt h
  let shed := isShed s x && x.level = 0
  let pc := x.pclass
  let quiesce := quiesceHolds s (clusterOf h)
  let s := settleStreams h s
  let s := if x.dev.task = 0 then s
    else s.modDie (dieOf h) (fun d => { d with retiring := d.retiring ++ [retirementOf s h x ntf] })
  let x := x.dropWindows.closeStreams
  let x := { x with run := { x.run with uiPend := [], turn := none, word0 := 0, panel := none } }
  if shed || quiesce then
    let x := x.goIdle
    s.setHartAt h (x.withCtl (fun c => { c with
      asks := true
      pcause := 4
      heldShed := shed
      heldQuiesce := quiesce
      shedClass := bv 2 pc }))
  else
    let s := s.setHartAt h (x.withCtl (fun c => { c with asks := true }))
    s.modDie (dieOf h) (fun d => { d with requests := d.requests ++ [h] })

/-- tnext: it retires the task and asks for the next; a system core only goes on. -/
def execTnext (w : SFld) : State → Host.Outcome State Fault Refusal :=
  scalarWord (.tnext w) (fun s => notMilliner s && !s.hart.inHandler) (do
    onHart Hart.retire
    let s ← getS
    if onCompute s then setS (leaveTask s.cur true s))

/-- Whether a waiting task that is eligible for a hart has Eff of at least `prio` (R258). -/
def offered (s : State) (h prio : Nat) : Bool :=
  (openTasks s (dieOf h) (partOf s h)).any (fun t => eligible s h t.1 t.2 && decide (prio ≤ t.1.eff s (dieOf h)))

/-- Whether a tyield of a hart may switch, but for the room in its task's ring. -/
def yields (s : State) (h : Nat) : Bool :=
  let x := s.hartAt h
  x.dev.task ≠ 0 && fieldOf x.dev.chan 11 2 ≠ 1 && x.run.panel.isNone && x.run.turn.isNone && offered s h (fieldOf x.dev.chan 8 3)

/-- tyield: a switch enters a continuation and then acts as tnext without NTF. -/
def execTyield (w : SFld) : State → Host.Outcome State Fault Refusal :=
  taskWord (.tyield w) (do
    let s ← getS
    let h := s.hart
    if onCompute s && yields s s.cur then
      let args := (List.range 7).map (fun i => h.getX (bv 5 (11 + i)))
      let (t, rd) := enterTask s (partOf s s.cur) (dieOf s.cur) (fieldOf h.dev.task 43 3) (bv 2 (fieldOf h.dev.chan 11 2))
        h.run.word0 args
      if rd = taskStatus 1 || rd = taskStatus 3 then onHart Hart.retire
      else
        ensure (!h.inHandler) .illegal
        setS t
        onHart Hart.retire
        let t ← getS
        setS (leaveTask t.cur false t)
    else onHart Hart.retire)

/-! ## Tickets (R263-R266) -/

/-- Whether an address is memory of another module. -/
def isFar (s : State) (a : Nat) : Bool :=
  match regionOf s a with
  | .far _ => true
  | _ => false

/-- TSEQ_BASE + 8 × s of a sequence in use: memory of the partition, or of another module. -/
def sequenceAddr (s : State) (p seq : Nat) : Option Nat :=
  let t := (s.partAt p).tseq
  let a := t.base.toNat + 8 * seq
  if t.en && seq < 2 ^ t.log2n.toNat && (tableAt s p a || isFar s a) then some a else none

/-- The sequence that a word of the current agent names. -/
def sequenceOf (s : State) (rs1 : BitVec 5) : Option Nat :=
  if unassigned s s.cur then none else sequenceAddr s (partOf s s.cur) (fieldOf (s.hart.getX rs1) 0 32)

/-- Reading a sequence word: an uncorrectable error takes cause 5 with the word's physical address. -/
def sequenceWord (a : Nat) : Act Word := fun s =>
  match poisoned s (placed s a) 8 with
  | some p => .error (.uncorrectable 5 (bv 64 a) (unitOf s p) p) s
  | none => .ok (read8 s.mem (placed s a)) s

/-- tticket: it draws NEXT. -/
def execTticket (w : SFld) : State → Host.Outcome State Fault Refusal :=
  taskWord (.tticket w) (do
    let s ← getS
    match sequenceOf s w.rs1 with
    | none => retireWith w.rd (taskStatus 3)
    | some a =>
      let e := dataEnv s
      pastBars e
      if isFar s a then
        let v ← remoteAtomic e 3 2 a a 4 (toBytes 4 1)
        retireWith w.rd (bv 64 (v % 2 ^ 32))
      else
        ensure (!(tableHeld s a) && !(ownPending s e (placed s a) 8)) .stall
        let v ← sequenceWord a
        setS (s.pushStore { hart := s.cur, scalar := true } a
          (toBytes 8 (setField v 0 32 ((fieldOf v 0 32 + 1) % 2 ^ 32)).toNat))
        retireWith w.rd (bv 64 (fieldOf v 0 32)))

/-- The task takes the turn of ticket `k` in sequence `seq`. -/
def Hart.takeTurn (h : Hart) (seq k : Nat) : Hart := { h with run := { h.run with turn := some (seq, k) } }

/-- A sample of a sequence word: of the package the word at its home, of another module what its home answers, which is asked
every 256 cc (R283). -/
def sampleSequence (t : Wait) (a : Nat) : Act (Option Word) := fun s =>
  if !(isFar s a) then
    (match sequenceWord a s with
     | .ok v s => .ok (some v) s
     | .error x s => .error x s)
  else match findRemote s s.cur 0 1 a 8 with
    | some r =>
      if r.failed then .error (.trap 5 (bv 64 a)) (dropRemote s r.tag)
      else match r.answer with
        | some v => .ok (some (bv 64 v)) (dropRemote s r.tag)
        | none => .ok none s
    | none =>
      if !(deliverable s (a / 2 ^ 40)) then .error (.trap 5 (bv 64 a)) s
      else if t.again ≤ s.ccOf s.cur then .ok none (sendRemote s (partOf s s.cur) s.cur 0 1 0 a 8 []) else .ok none s

/-- tcommit: refused at once, or it waits for COMMIT = k. -/
def execTcommit (w : SFld) : State → Host.Outcome State Fault Refusal :=
  taskWord (.tcommit w) (do
    let s ← getS
    let h := s.hart
    let k := fieldOf (h.getX w.rs2) 0 32
    if !(onCompute s) || h.run.turn.isSome || fieldOf h.dev.chan 11 2 ≠ 2 then retireWith w.rd (taskStatus 2)
    else match sequenceOf s w.rs1 with
      | none => retireWith w.rd (taskStatus 3)
      | some a =>
        let t := waitHere s .tcommit (2 ^ (2 * w.x.toNat + 8))
        match ← sampleSequence t a with
        | none => stallWith { t with again := t.nextSample s }
        | some v =>
          let c := fieldOf v 32 32
          if c = k then
            onHart (fun h => h.takeTurn (fieldOf (h.getX w.rs1) 0 32) k)
            retireWith w.rd (bv 64 c)
          else stallWith { t with last := some (bv 64 c), again := t.nextSample s })

/-- A retirement's held turn is released: COMMIT := k + 1 at the sequence's home (R266). -/
def releaseTurn (s : State) (die p : Nat) (t : Option (Nat × Nat)) : State :=
  match t with
  | none => s
  | some (seq, k) =>
    match sequenceAddr s p seq with
    | none => s
    | some a =>
      let c := toBytes 4 ((k + 1) % 2 ^ 32)
      if isFar s a then sendRemote s p (carderNo die) 0 2 0 (a + 4) 4 c
      else s.pushStore { hart := carderNo die, scalar := true } (a + 4) c

/-- Whether what a retirement writes waits. -/
def retirementHeld (s : State) (r : Retirement) : Bool :=
  (match r.turn with
   | some (seq, _) => ((sequenceAddr s r.part seq).map (fun a => !(isFar s a) && tableHeld s a)).getD false
   | none => false)
  || ((s.partAt r.part).ttab.en && r.ntf && tableHeld s (channelAddr s r.part (fieldOf r.word0 16 8) + 8))

/-- A take of panel `id` of a die has retired: after the last take of a panel that has left the waiting set its NTF
applies. -/
def retireTake (s : State) (die : Nat) (r : Retirement) (id : Nat) : State :=
  let mine (p : PanelOut) : Bool := p.id == id
  let l := (s.dieAt die).panels.map (fun p =>
    let new : PanelOut := { p with out := p.out - 1 }
    if mine p then new else p)
  let done := l.any (fun p => mine p && p.left && p.out = 0)
  let s := s.modDie die (fun d => { d with panels := l.filter (fun p => !(mine p && p.left && p.out = 0)) })
  if done && r.ntf then setBlk s r.part die (fieldOf r.word0 16 8) false else s

/-- The order of R257 once a retirement's release has been performed: turn, panel count, NTF. -/
def finishRetirement (s : State) (die : Nat) (r : Retirement) : State :=
  let s := releaseTurn s die r.part r.turn
  match r.panel with
  | some (d, id) => retireTake s d r id
  | none => if r.ntf then setBlk s r.part die (fieldOf r.word0 16 8) false else s

/-- The oldest retirement of a hart whose release can be performed. -/
def readyRetirement (s : State) (h : Nat) : Option Retirement :=
  match (s.dieAt (dieOf h)).retiring.find? (fun r => r.hart == h) with
  | some r =>
    if r.ids.any (fun i => (outstanding s h false).contains i || (outstanding s h true).contains i) || retirementHeld s r then none
    else some r
  | none => none

/-- TASK_RELEASE_PERFORMED: the release of the oldest retirement of a hart has been performed within the package. -/
def execTaskReleasePerformed (h : Nat) (s : State) : Host.Outcome State Fault Refusal :=
  match readyRetirement s h with
  | none => .next s
  | some r => .next (finishRetirement (s.modDie (dieOf h) (fun d => { d with retiring := d.retiring.erase r })) (dieOf h) r)

/-! ## Blocking and status (R259, R260) -/

/-- tblock and tunblock: a store-release at package scope. -/
def blockWord (w : SFld) (b : Bool) : Act Unit := do
  let s ← getS
  let p := partOf s s.cur
  let ch := fieldOf (s.hart.getX w.rs1) 0 8
  ensure (!(fenceWaits s 4)) .stall
  if unassigned s s.cur then onHart Hart.retire
  else
    ensure (!((s.partAt p).ttab.en && tableHeld s (channelAddr s p ch + 8))) .stall
    setS (setBlk s p (dieOf s.cur) ch b)
    onHart Hart.retire

/-- tblock. -/
def execTblock (w : SFld) : State → Host.Outcome State Fault Refusal := taskWord (.tblock w) (blockWord w true)
/-- tunblock. -/
def execTunblock (w : SFld) : State → Host.Outcome State Fault Refusal := taskWord (.tunblock w) (blockWord w false)

/-- OCC, EN, LOG2N and WAIT of a ring. -/
def ringStatus (s : State) (p die level : Nat) : Word :=
  let r := taskRing s p die level
  let n := ((s.dieAt die).waiting.filter (fun t => t.part == p && t.level == level)).length
  bv 64 ((r.widx - r.ridx).toNat * 2 ^ 32 + r.en.toNat * 2 ^ 31 + r.log2n.toNat * 65536 + min 65535 n)

/-- tqstat. -/
def execTqstat (w : SFld) : State → Host.Outcome State Fault Refusal :=
  taskWord (.tqstat w) (do
    let s ← getS
    let v := s.hart.getX w.rs1
    let die := if bitOf v 7 then fieldOf v 4 3 else dieOf s.cur
    retireWith w.rd (if 6 ≤ die || unassigned s s.cur then 0 else ringStatus s (partOf s s.cur) die (fieldOf v 0 3)))

/-! ## Timeouts (R251, R265) -/

/-- tcommit times out with the last COMMIT sampled and no turn. -/
def timeoutTcommit (w : SFld) (t : Wait) : Act Unit :=
  retireWith w.rd (bv 64 (2 ^ 60 + (t.last.map BitVec.toNat).getD 0))

/-- A waiting spawn finds no free slot. -/
def timeoutTspawn (w : SFld) : Act Unit := retireWith w.rd (taskStatus 1)

end Sys2Proof.Machine
end

