-- ==== Sys2Proof/Machine/Milliner.lean ====
section
/-! DEFINITION. The Milliners' routines (spec/15): the start of a kick (R330), the standard routines 0x0001, 0x0010
(R334-R336) and 0x0020 (R339; spec/17, R351), and the user routine (R331). -/

namespace Sys2Proof.Machine

/-! ## Reads of a routine -/

/-- A word of the block of a kick. -/
def kickWord (m : Nat) (k : Kick) (off : Nat) : Act Word := fun s =>
  match loadVa (kickEnv m k) .load ((k.block.toNat + off) % 2 ^ 64) 8 s with
  | .ok v s => .ok (bv 64 v) s
  | .error e s => .error e s

/-- `n` words of the block. -/
def blockWords (m : Nat) (k : Kick) (n : Nat) : Act (List Word) :=
  loadWords (kickEnv m k) .load n k.block.toNat

/-- The record of an uncorrectable error that a Milliner meets (R375, R376). -/
def millError (m unit a : Nat) (s : State) : State :=
  let d := if isOwnMem s a && (unit == 4 || unit == 8) then homeDie s a else dieOf m
  let s := s.modDie d (fun x => { x with ue := satInc x.ue })
  (postRecord s (partOf s m) 0x05 unit m 0 (bv 64 a) 0).1

/-- The end of a routine by what stopped it: `fault` is the status of a fault, 9 that of an uncorrectable error
(R332). A wait leaves the routine where it is. -/
def stopRoutine (m fault : Nat) (physical : Bool) (e : Stop) (s : State) : State :=
  match e with
  | .trap c t => settleReads m 0 (faultRoutine m fault c t physical s)
  | .uncorrectable c t u a => settleReads m 0 (faultRoutine m (if fault = 1 then 9 else fault) c t physical (millError m u a s))
  | _ => s

/-- A routine has ended: its mailbox is written once every access of it is performed (R332, R336). -/
def finishRoutine (m status : Nat) (physical : Bool) (s : State) : State := endRoutine m status physical (settleReads m 0 s)

/-- The routine has read its block: MBOX and TOKEN are those it has read (R332, R341). -/
def noteBlock (m : Nat) (ws : List Word) (s : State) : State :=
  let x := s.millAt m
  s.setMillAt m { x with kick := x.kick.map (fun k => { k with fields := some ((ws[3]?).getD 0, (ws[7]?).getD 0) }) }

/-- The run of a Milliner's routine. -/
def setRun (m : Nat) (r : MillRun) (s : State) : State := s.setMillAt m { s.millAt m with run := r }

/-! ## The start (R330) -/

/-- Whether an identifier names a standard routine (R333, R398). -/
def standardRoutine (id : Nat) : Bool := [0x0001, 0x0010, 0x0020, 0x0040, 0x0041, 0x0042].contains id

/-- The Milliner has its kick and reads ROUTINE: it selects the routine, or ends with STATUS 4. -/
def selectRoutine (m : Nat) (k : Kick) (s : State) : State :=
  match kickWord m k 0 s with
  | .ok v s =>
    let id := fieldOf v 0 16
    let s := settleReads m 0 s
    if standardRoutine id || (0x8000 ≤ id && id ≤ 0x80FF) then setRun m (.selected id) s
    else endRoutine m 4 false s
  | .error .stall s => s
  | .error (.trap c t) s => settleReads m 0 (faultRoutine m 4 c t false s)
  | .error (.uncorrectable c t u a) s => settleReads m 0 (faultRoutine m 4 c t false (millError m u a s))
  | .error _ s => s

/-- Whether a Milliner can take its next kick: no routine runs, the mailboxes of those that ended are written, its leases
have ended (R325), its clock runs. -/
def millReady (s : State) (m : Nat) : Bool :=
  let x := s.millAt m
  isMilliner m && m < agentCount && x.run = .idle && x.closing.isEmpty && (s.hartAt m).liveLeases = 0 && !(isDead s m)
  && !(kindOf m = .clusterMilliner && (s.clusterAt (clusterOf m)).clkOff)

/-- A completion store of a Milliner that waits can go on: it can be made, or has another module to ask. -/
def closingDue (s : State) (m : Nat) : Bool :=
  match (s.millAt m).closing with
  | [] => false
  | c :: _ =>
    if c.waits && (remoteUnacked s m || unacknowledged s m) then false
    else match completeKick m c s with
      | .ok _ _ => true
      | .error _ t => t.coh.remote.length ≠ s.coh.remote.length || t.coh.net.length ≠ s.coh.net.length

/-- MILLINER_ROUTINE_START: the completion stores of ended kicks come first; then the oldest queued kick starts, with an
acquire; a kick whose block is on another module goes on waiting for its answer. -/
def execMillinerRoutineStart (m : Nat) (s : State) : Host.Outcome State Fault Refusal :=
  let s := closeKicks m (s.millAt m).closing.length s
  if !(millReady s m) then .next s
  else
    let x := s.millAt m
    match x.kick, x.queue with
    | some k, _ => .next (selectRoutine m k s)
    | none, k :: r => .next (selectRoutine m k (s.setMillAt m { x with kick := some k, queue := r }))
    | none, [] => .next s

/-- Running a selected routine: its kick and its run. -/
def onRoutine (m : Nat) (g : Kick → MillRun → State) (s : State) : Host.Outcome State Fault Refusal :=
  match (s.millAt m).kick with
  | some k => .next (g k (s.millAt m).run)
  | none => .next s

/-- MAILBOX_ONLY. -/
def execMailboxOnly (m : Nat) (s : State) : Host.Outcome State Fault Refusal :=
  onRoutine m (fun _ r => if r = .selected 0x0001 then endRoutine m 0 false s else s) s

/-! ## Tensor copy (R334, R335) -/

/-- A tensor copy's block: its first 8 words, and its extension's 24. -/
structure Copying where
  words : List Word
  deriving DecidableEq, Repr

/-- A word of the block. -/
def Copying.w (c : Copying) (i : Nat) : Word := (c.words[i]?).getD 0
/-- The number of dimensions. -/
def Copying.dims (c : Copying) : Nat := fieldOf (c.w 0) 16 3 + 1
/-- The bytes of an element. -/
def Copying.size (c : Copying) : Nat := 2 ^ fieldOf (c.w 0) 19 3
/-- EXTB. -/
def Copying.extb (c : Copying) : Bool := bitOf (c.w 0) 22
/-- A 32-bit field `k` of an array of pairs that begins at word `i`. -/
def Copying.half (c : Copying) (i k : Nat) : Nat := fieldOf (c.w (i + k / 2)) (32 * (k % 2)) 32

/-- EXTk. -/
def Copying.ext (c : Copying) (k : Nat) : Nat :=
  if c.dims ≤ k then 1
  else if k < 2 then c.half 4 k
  else c.half 18 (k - 2)

/-- PADLOk. -/
def Copying.pad (c : Copying) (k : Nat) : Nat := if c.dims ≤ k || !c.extb then 0 else c.half 20 k
/-- SEXTk. -/
def Copying.sext (c : Copying) (k : Nat) : Nat :=
  if c.dims ≤ k then 1 else if c.extb then c.half 23 k else c.ext k

/-- SSTRk, or DSTRk with `d` 1. -/
def Copying.stride (c : Copying) (d k : Nat) : Int :=
  if k = 0 then (if c.extb then (c.w (8 + d)).toInt else (c.size : Int))
  else if k = 1 then (c.w (5 + d)).toInt
  else (c.w (10 + 2 * (k - 2) + d)).toInt

/-- The number of elements. -/
def Copying.count (c : Copying) : Nat := (List.range 6).foldl (fun n k => n * c.ext k) 1

/-- The conditions that end the kick with STATUS 3. -/
def Copying.bad (c : Copying) : Bool :=
  let e := c.size
  fieldOf (c.w 0) 23 41 ≠ 0 || 4 ≤ fieldOf (c.w 0) 19 3 || 6 < c.dims || fieldOf (c.w 7) 32 32 ≠ 0
  || (c.extb && (List.range 5).any (fun i => c.w (27 + i) ≠ 0)) || (2 < c.dims && !c.extb) || 2 ^ 40 < c.count
  || (c.w 1).toNat % e ≠ 0 || (c.w 2).toNat % e ≠ 0
  || (List.range c.dims).any (fun k => c.stride 0 k % e ≠ 0 || c.stride 1 k % e ≠ 0)

/-- Index `k` of the element that is `n`-th in copy order. -/
def Copying.index (c : Copying) (n k : Nat) : Nat :=
  n / (List.range k).foldl (fun p j => p * c.ext j) 1 % c.ext k

/-- The source address of element `n`, none in the padding. -/
def Copying.source (c : Copying) (n : Nat) : Option Nat :=
  let s (k : Nat) : Int := (c.index n k : Int) - c.pad k
  if (List.range 6).all (fun k => 0 ≤ s k && s k < c.sext k) then
    some (wrapTo 64 ((List.range c.dims).foldl (fun a k => a + s k * c.stride 0 k) ((c.w 1).toNat : Int)))
  else none

/-- The destination address of element `n`. -/
def Copying.dest (c : Copying) (n : Nat) : Nat :=
  wrapTo 64 ((List.range c.dims).foldl (fun a k => a + (c.index n k : Int) * c.stride 1 k) ((c.w 2).toNat : Int))

/-- The value that element `n` takes. -/
def copyRead (m : Nat) (k : Kick) (c : Copying) (n : Nat) : Act Nat :=
  match c.source n with
  | some a => loadVa (kickEnv m k) .load a c.size
  | none => fun s => .ok (fieldOf (c.w 26) 0 (8 * c.size)) s

/-- Element `n` is read and its bytes are to be written; of two elements on the same bytes the later one's are (R335). A
source fault ends the copy with STATUS 1, a destination that cannot be written with 2. -/
def copyElement (m : Nat) (k : Kick) (c : Copying) (n : Nat) (pend : List (Nat × Byte)) (s : State) :
    Except State (List (Nat × Byte) × State) :=
  match copyRead m k c n s with
  | .error e s => .error (stopRoutine m 1 false e s)
  | .ok x s =>
    match partFault s (kickEnv m k) .store { va := c.dest n, n := c.size, al := c.size } with
    | some .stall => .error s
    | some e =>
      (match (stopAccess (kickEnv m k) e : Act Unit) s with
       | .error e s => .error (stopRoutine m 2 false e s)
       | .ok _ s => .error s)
    | none =>
      let bs := (toBytes c.size x).zipIdx
      .ok (bs.foldl (fun l p => put l (c.dest n + p.2) p.1) pend, settleReads m 0 s)

/-- Up to `fuel` elements are read and then words written: each word of the destination by one store (R294, R335). -/
def copyRun (m : Nat) (k : Kick) (c : Copying) : Nat → Nat → List (Nat × Byte) → State → State
  | 0, n, l, s => setRun m (.copying c.words n l) s
  | fuel + 1, n, l, s =>
    if n < c.count then
      match copyElement m k c n l (setRun m (.copying c.words n l) s) with
      | .error s => s
      | .ok (l, s) => copyRun m k c fuel (n + 1) l s
    else match l with
      | [] => finishRoutine m 0 false (setRun m (.copying c.words n l) s)
      | (a, _) :: _ =>
        let here (p : Nat × Byte) : Bool := p.1 / 8 == a / 8
        match storeMasked (kickEnv m k) (l.filter here) s with
        | .error e s => stopRoutine m 2 false e (setRun m (.copying c.words n l) s)
        | .ok _ s => copyRun m k c fuel n (l.filter (fun p => !(here p))) s

/-- The copy begins: its block is read and checked. -/
def beginCopy (m : Nat) (k : Kick) (s : State) : State :=
  let load : Act (List Word) := do
    let a ← blockWords m k 8
    if bitOf ((a[0]?).getD 0) 22 then blockWords m k 32 else return a
  match load s with
  | .error e s => stopRoutine m 4 false e s
  | .ok ws s =>
    let s := noteBlock m ws (settleReads m 0 s)
    if (Copying.mk ws).bad then endRoutine m 3 false s else setRun m (.copying ws 0 []) s

/-- TENSOR_COPY: the copy of Milliner `m` begins, or performs up to `n` elements more. -/
def execTensorCopy (m n : Nat) (s : State) : Host.Outcome State Fault Refusal :=
  onRoutine m (fun k r => match r with
    | .selected id => if id = 0x0010 then beginCopy m k s else s
    | .copying ws i l => copyRun m k ⟨ws⟩ (n + 1) i l s
    | _ => s) s

/-! ## Page migration (R339, R351) -/

/-- Whether an agent's lease lies on a page. -/
def onPage (old size pa : Nat) : Bool := old ≤ pa && pa < old + size

/-- ENTER for every region of the page: its sharers are sent Inv, leases on it end, LR reservations on it are lost, and
requests wait from now on. -/
def enterMigration (old new size : Nat) (s : State) : State :=
  let g : Migration := { old := old, new := new, size := size, next := 0 }
  let s := { s with coh := { s.coh with
    migs := g :: s.coh.migs.filter (fun g => g.old != old)
    farResv := s.coh.farResv.filter (fun p => !(onPage old size p.2)) } }
  let s := ((s.coh.dir.map Prod.fst).filter (fun r => onPage old size (r * 256))).foldl (fun s r => invalidate r s) s
  let s := (s.coh.leases.filter (fun l => onPage old size l.pa)).foldl (fun s l => endLease s l.hart l.slot) s
  s.mapHarts (fun _ x => match x.run.resv with
    | some r => onPage old size r
    | none => false) (fun x => { x with run := { x.run with resv := none } })

/-- The checks of the block of a migration: what ends it, or old page, new page and size. -/
def migrationBlock (s : State) (k : Kick) (ws : List Word) : Option (Nat × Nat × Nat) :=
  let w (i : Nat) : Word := (ws[i]?).getD 0
  let size := if bitOf (w 4) 0 then 2 ^ 25 else 2 ^ 14
  let old := (w 1).toNat
  let new := (w 2).toNat
  let mine (a : Nat) : Bool := isOwnMem s a && ownerOf s a = k.part
  if w 0 = 0x0020 && fieldOf (w 4) 1 63 = 0 && w 5 = 0 && w 6 = 0 && fieldOf (w 7) 32 32 = 0
      && old % size = 0 && new % size = 0 && mine old && mine new then some (old, new, size)
  else none

/-- The migration begins. -/
def beginMigration (m : Nat) (k : Kick) (s : State) : State :=
  if kindOf m ≠ .dieMilliner || k.priv = .u then endRoutine m 5 true s
  else match blockWords m k 8 s with
    | .error e s => stopRoutine m 4 true e s
    | .ok ws s =>
      let s := noteBlock m ws (settleReads m 0 s)
      match migrationBlock s k ws with
      | none => endRoutine m 3 true s
      | some (old, new, size) => enterMigration old new size (setRun m (.migrating old new size 0) s)

/-- PAGE_MIGRATION. -/
def execPageMigration (m : Nat) (s : State) : Host.Outcome State Fault Refusal :=
  onRoutine m (fun k r => if r = .selected 0x0020 then beginMigration m k s else s) s

/-- One region is copied to the new home and passes from WAIT to FWD. -/
def copyRegion (m old new size next : Nat) (s : State) : State :=
  let a := old + 256 * next
  let b := placed s (new + 256 * next)
  let w : Writer := { hart := m, scalar := false }
  if committing s a 256 || committing s b 256 || leaseBlocks s w a 256 || leaseBlocks s w b 256 then s
  else if s.stepwise && ((dirOf s (regionNo a)).isSome || (dirOf s (regionNo b)).isSome) then
    invalidate (regionNo b) (invalidate (regionNo a) s)
  else match poisoned s a 256 with
    | some p => stopRoutine m 1 true (.uncorrectable 5 (bv 64 p) (unitOf s p) p) s
    | none =>
      let s := s.store w b (readBytes s.mem 256 a)
      let one (g : Migration) : Migration :=
        let new : Migration := { g with next := next + 1 }
        if g.old = old then new else g
      settleQueue (setRun m (.migrating old new size (next + 1)) { s with coh := { s.coh with migs := s.coh.migs.map one } })

/-- MIGRATION_REGION_COPY: the next region is copied; after the last the mailbox is written. -/
def execMigrationRegionCopy (m : Nat) (s : State) : Host.Outcome State Fault Refusal :=
  onRoutine m (fun _ r => match r with
    | .migrating old new size next =>
      if size ≤ 256 * next then finishRoutine m 0 true s else copyRegion m old new size next s
    | _ => s) s

/-! ## User routines (R331) -/

/-- The address and length of a user routine; none where its entry is not valid. -/
def userEntry (s : State) (p n : Nat) : Option (Nat × Nat) :=
  let t := (s.partAt p).mlt
  let w0 := tableWord s p (t.base.toNat + 16 * n)
  let w1 := tableWord s p (t.base.toNat + 16 * n + 8)
  let len := fieldOf w1 0 15
  if t.en && bitOf w0 63 && fieldOf w0 47 16 = 0 && fieldOf w0 0 2 = 0 && fieldOf w1 15 49 = 0 && len % 4 = 0 && 4 ≤ len
      && len ≤ 16384 then some (fieldOf w0 0 47, len)
  else none

/-- The words of a user routine, each with its address. -/
def fetchRoutine (e : Env) : Nat → Nat → Act (List (Nat × W32))
  | 0, _ => fun s => .ok [] s
  | n + 1, a => do
    let w ← loadVa e .fetch a 4
    let r ← fetchRoutine e n (a + 4)
    return (a, bv 32 w) :: r

/-- The Milliner's hart as a user routine begins (R331). -/
def userHart (m : Nat) (k : Kick) (pc : Nat) (words : List (Nat × W32)) : Hart :=
  let h : Hart := { pc := bv 64 pc, priv := if k.priv = .u then .u else .s, csr := { satp := k.satp },
                    run := { kick := some k, routine := words } }
  let h := ((h.setX 10 k.block).setX 11 (bv 64 m)).setX 12 (bv 64 k.kicker)
  { h with ctl := { h.ctl with parked := false } }

/-- The user routine is loaded and starts. -/
def beginUser (m : Nat) (k : Kick) (n : Nat) (s : State) : State :=
  let entry := (s.partAt k.part).mlt.base.toNat + 16 * n
  if tablePoison s entry 16 then stopRoutine m 1 false (.uncorrectable 5 (bv 64 entry) (unitOf s entry) entry) s
  else match userEntry s k.part n with
  | none => endRoutine m 4 false s
  | some (pc, len) =>
    match fetchRoutine (kickEnv m k) (len / 4) pc s with
    | .error e s => stopRoutine m 8 false e s
    | .ok ws s => setRun m .user ((settleReads m 0 s).setHartAt m (userHart m k pc ws))

/-- USER_ROUTINE. -/
def execUserRoutine (m : Nat) (s : State) : Host.Outcome State Fault Refusal :=
  onRoutine m (fun k r => match r with
    | .selected id => if 0x8000 ≤ id then beginUser m k (id - 0x8000) s else s
    | _ => s) s

end Sys2Proof.Machine
end

