-- ==== Sys2Proof/Machine/System.lean ====
section
/-! DEFINITION. Control and status registers (spec/01, R15, R19-R30; spec/06, R143; spec/15, R324), sfence.vma (spec/13,
R277), WFI, and the return from a trap (spec/06, R140, R141). -/

namespace Sys2Proof.Machine

/-! ## mstatus and the interrupt registers -/

/-- The writable bits of mstatus: SIE, MIE, SPIE, MPIE, SPP, MPP, FS, MPRV, SUM, MXR, TVM, TW and TSR (assumption 6). -/
def mstatusMask : Word := 0x7E79AA#64
/-- The bits of mstatus that sstatus writes: SIE, SPIE, SPP, FS, SUM, MXR. -/
def sstatusMask : Word := 0xC6122#64

/-- mstatus as read: SD says that FS is Dirty. -/
def mstatusWord (c : Csrs) : Word := setBit c.mstatus 63 (fieldOf c.mstatus 13 2 = 3)

/-- mstatus after a write of the bits of a mask; MPP holds no mode 2. -/
def writeStatus (c : Csrs) (mask v : Word) : Csrs :=
  let new := (c.mstatus &&& ~~~mask) ||| (v &&& mask)
  { c with mstatus := if fieldOf new 11 2 = 2 then setField new 11 2 (fieldOf c.mstatus 11 2) else new }

/-- The delegable causes of R135. -/
def medelegMask : Word := 0x100BBFF#64
/-- The S-mode interrupts. -/
def sInterrupts : Word := 0x222#64
/-- The interrupt bits of mie. -/
def mieMask : Word := 0xAAA#64

/-! ## Physical memory protection registers (R15) -/

/-- Entry `i` is locked. -/
def pmpLocked (c : Csrs) (i : Nat) : Bool := bitOf ((c.pmpcfg[i]?).getD 0) 7

/-- A configuration byte after a write: a locked one stands, as does one asked for W without R or for NA4, which the
granularity of 16 KiB does not have (assumption 26). -/
def pmpByte (c : Csrs) (i : Nat) (v : Byte) : Byte :=
  let old := (c.pmpcfg[i]?).getD 0
  if bitOf old 7 || (bitOf v 1 && !(bitOf v 0)) || fieldOf v 3 2 = 2 then old else v &&& 0x9F#8

/-- pmpcfg0 or pmpcfg2 as read. -/
def pmpcfgWord (c : Csrs) (k : Nat) : Word :=
  bv 64 ((List.range 8).foldr (fun i r => ((c.pmpcfg[8 * k + i]?).getD 0).toNat * 256 ^ i + r) 0)

/-- Writing pmpcfg0 or pmpcfg2. -/
def writePmpcfg (c : Csrs) (k : Nat) (v : Word) : Csrs :=
  (List.range 8).foldl (fun (c : Csrs) i =>
    { c with pmpcfg := c.pmpcfg.set ((8 * k + i) % 16) (pmpByte c (8 * k + i) (bv 8 (fieldOf v (8 * i) 8)))
                         (Nat.mod_lt _ (by decide)) }) c

/-- An address register as read: at the granularity of 16 KiB the low bits read as ones for NAPOT, else as zeros. -/
def pmpaddrWord (c : Csrs) (i : Nat) : Word :=
  let a := (c.pmpaddr[i]?).getD 0
  let cfg := (c.pmpcfg[i]?).getD 0
  ((if bitOf cfg 4 then a ||| 0x7FF else a &&& ~~~0xFFF : BitVec 54)).setWidth 64

/-- Writing an address register: a locked entry, or the one below a locked TOR entry, stands. -/
def writePmpaddr (c : Csrs) (i : Nat) (v : Word) : Csrs :=
  let next := (c.pmpcfg[i + 1]?).getD 0
  if pmpLocked c i || (bitOf next 7 && fieldOf next 3 2 = 1) then c
  else { c with pmpaddr := c.pmpaddr.set (i % 16) (v.setWidth 54) (Nat.mod_lt _ (by decide)) }

/-! ## The interrupt files through miselect and siselect (R143) -/

/-- The register of an interrupt file that an index selects; none where the access is illegal. -/
def Imsic.read (f : Imsic) (n : Nat) (sel : Nat) : Option Word :=
  let bits (x : BitVec 256) (k : Nat) : Word := bv 64 (nbits (x.toNat % 2 ^ n) (64 * k) 64)
  if sel = 0x70 then some f.delivery
  else if sel = 0x72 then some f.threshold
  else if sel < 0x70 || 0xFF < sel then none
  else if sel < 0x80 then some 0
  else if sel % 2 = 1 then none
  else if sel < 0xC0 then some (bits f.eip ((sel - 0x80) / 2))
  else some (bits f.eie ((sel - 0xC0) / 2))

/-- Writing it; identity 0 has no bits, and identities the file does not have are zero. -/
def Imsic.write (f : Imsic) (n : Nat) (sel : Nat) (v : Word) : Imsic :=
  let put (x : BitVec 256) (k : Nat) : BitVec 256 :=
    if 256 ≤ 64 * k then x
    else bv 256 ((setField x (64 * k) 64 v.toNat).toNat % 2 ^ n / 2 * 2)
  if sel = 0x70 then { f with delivery := v &&& 1 }
  else if sel = 0x72 then { f with threshold := bv 64 (v.toNat % n) }
  else if sel < 0x80 || 0xFF < sel then f
  else if sel < 0xC0 then { f with eip := put f.eip ((sel - 0x80) / 2) }
  else { f with eie := put f.eie ((sel - 0xC0) / 2) }

/-- mtopei or stopei: the identity that waits, as number and priority. -/
def Imsic.top (f : Imsic) (n : Nat) : Word := bv 64 (f.pending n * 65537)
/-- A write of mtopei or stopei claims the identity it reports. -/
def Imsic.claim (f : Imsic) (n : Nat) : Imsic :=
  if f.pending n = 0 then f else { f with eip := setBit f.eip (f.pending n) false }

/-! ## Reading -/

/-- LSTAT (R27). -/
def Hart.lstat (h : Hart) : Word :=
  let live (k : Nat) : Nat := (((h.run.leases.toList)[k]?).getD none).isSome.toNat
  bv 64 (h.dev.held.toNat * 4 + live 1 * 2 + live 0)

/-- The registers of R30, by address. -/
def readDevice (h : Hart) (c : Nat) : Option Word :=
  match c with
  | 0x800 => some (h.vec.velem.setWidth 64)
  | 0x801 => some (h.vec.vpfx.setWidth 64)
  | 0x802 => some (h.vec.vfflags.setWidth 64)
  | 0x803 => some (h.vec.vftrap.setWidth 64)
  | 0x804 => some h.dev.uivec
  | 0x805 => some h.dev.uicause
  | 0x806 => some h.dev.uiepc
  | 0xCC0 => some (h.vec.vl.setWidth 64)
  | 0xCC1 => some h.vec.vtype
  | 0xCC2 => some (h.dev.grant.setWidth 64)
  | 0xCC3 => some h.lstat
  | 0xCC4 => some h.dev.task
  | 0xCC5 => some h.dev.chan
  | 0xCC6 => some h.dev.domain
  | 0x5C0 => some h.dev.task
  | 0x5C1 => some h.dev.chan
  | 0x5C2 => some h.dev.domain
  | _ => none

/-- cycle (R15): the clocks of the hart's island since `mcycle` was zero, or the count at which it was inhibited. -/
def cycleOf (s : State) (h : Hart) : Word :=
  if bitOf h.csr.mcountinhibit 0 then h.csr.mcycle else h.csr.mcycle + bv 64 (s.ccOf s.cur)

/-- The standard registers with a value of their own. mimpid is the stepping code 0x0000_0001, the first of R15; which
stepping a part is the spec does not say (DESIGN CHOICE, assumption 43). -/
def readStandard (s : State) (c : Nat) : Option Word :=
  let h := s.hart
  let x := h.csr
  let n := identities s.cur
  match c with
  | 0x001 => some (bv 64 (fieldOf h.fcsr 0 5))
  | 0x002 => some (bv 64 (fieldOf h.fcsr 5 3))
  | 0x003 => some (h.fcsr.setWidth 64)
  | 0xC00 => some (cycleOf s h)
  | 0xC01 => some (bv 64 s.ticks)
  | 0xC02 => some x.minstret
  | 0x100 => some (mstatusWord x &&& (sstatusMask ||| 0x8000000300000000#64))
  | 0x104 => some (x.mie &&& x.mideleg)
  | 0x105 => some x.stvec
  | 0x106 => some (x.scounteren.setWidth 64)
  | 0x10A => some x.senvcfg
  | 0x140 => some x.sscratch
  | 0x141 => some x.sepc
  | 0x142 => some x.scause
  | 0x143 => some x.stval
  | 0x144 => some (mipOf s s.cur &&& x.mideleg)
  | 0x150 => some h.ints.siselect
  | 0x151 => h.ints.sfile.read n h.ints.siselect.toNat
  | 0x15C => some (h.ints.sfile.top n)
  | 0x180 => some x.satp
  | 0x300 => some (mstatusWord x)
  | 0x301 => some 0x8000000000941129#64
  | 0x302 => some x.medeleg
  | 0x303 => some x.mideleg
  | 0x304 => some x.mie
  | 0x305 => some x.mtvec
  | 0x306 => some (x.mcounteren.setWidth 64)
  | 0x30A => some x.menvcfg
  | 0x320 => some (x.mcountinhibit.setWidth 64)
  | 0x340 => some x.mscratch
  | 0x341 => some x.mepc
  | 0x342 => some x.mcause
  | 0x343 => some x.mtval
  | 0x344 => some (mipOf s s.cur)
  | 0x350 => some h.ints.miselect
  | 0x351 => h.ints.mfile.read n h.ints.miselect.toNat
  | 0x35C => some (h.ints.mfile.top n)
  | 0x3A0 => some (pmpcfgWord x 0)
  | 0x3A2 => some (pmpcfgWord x 1)
  | 0xB00 => some (cycleOf s h)
  | 0xB02 => some x.minstret
  | 0xF11 => some 0
  | 0xF12 => some 0x8000000000005A06#64
  | 0xF13 => some 1
  | 0xF14 => some (bv 64 s.cur)
  | 0xF15 => some 0
  | _ => none

/-- The value of a register; none where there is no such register. Event counters and selectors read as zero (R15). -/
def readCsr (s : State) (c : Nat) : Option Word :=
  match readStandard s c with
  | some v => some v
  | none =>
    match readDevice s.hart c with
    | some v => some v
    | none =>
      if 0x3B0 ≤ c && c < 0x3C0 then some (pmpaddrWord s.hart.csr (c - 0x3B0))
      else if (0xC03 ≤ c && c ≤ 0xC1F) || (0xB03 ≤ c && c ≤ 0xB1F) || (0x323 ≤ c && c ≤ 0x33F) then some 0
      else none

/-! ## Who may access -/

/-- The registers of R30. -/
def isDeviceCsr (h : Hart) (c : Nat) : Bool := (readDevice h c).isSome
/-- Those of them a Milliner has (R324). -/
def millinerCsr (c : Nat) : Bool := [0x800, 0x801, 0x802, 0x803, 0xCC0, 0xCC1, 0xCC3].contains c
/-- The registers of the interrupt files, which a Milliner has not (R143). -/
def isFileCsr (c : Nat) : Bool := [0x150, 0x151, 0x15C, 0x350, 0x351, 0x35C].contains c

/-- A counter that the modes above allow (mcounteren, scounteren). -/
def counterOpen (h : Hart) (c : Nat) : Bool :=
  let i := c - 0xC00
  let m := h.csr.mcounteren.getLsbD i
  let s := h.csr.scounteren.getLsbD i
  match h.priv with
  | .m => true
  | .s => m
  | .u => m && s

/-- Whether an access is legal: the mode the address asks for, no write to a read-only register, and what the agent
has (R14, R30, R73, R324). -/
def csrLegal (c : Nat) (writes : Bool) (s : State) : Bool :=
  let h := s.hart
  let rank : Nat := h.priv.code
  (readCsr s c).isSome && c / 256 % 4 ≤ rank && !(writes && c / 1024 = 3)
  && !(isDeviceCsr h c && (kindOf s.cur = .system || (isMilliner s.cur && !(millinerCsr c))))
  && !(isMilliner s.cur && (c ≤ 3 || isFileCsr c))
  && (3 < c || h.fpOn)
  && !(0xC00 ≤ c && c < 0xC20 && !(counterOpen h c))
  && !(c = 0x180 && h.priv = .s && bitOf h.csr.mstatus 20)

/-! ## Writing -/

/-- The address fields of UIVEC, UIEPC and the xEPC registers. -/
def wordAligned (v : Word) : Word := v &&& ~~~3#64

/-- Writing a register of R30. -/
def writeDevice (c : Nat) (v : Word) (h : Hart) : Hart :=
  match c with
  | 0x800 => { h with vec := { h.vec with velem := v.setWidth 14 } }
  | 0x801 => { h with vec := { h.vec with vpfx := v.setWidth 12 }, run := { h.run with pfxOwn := false } }
  | 0x802 => { h with vec := { h.vec with vfflags := v.setWidth 6 } }
  | 0x803 => { h with vec := { h.vec with vftrap := v.setWidth 6 } }
  | 0x804 => { h with dev := { h.dev with uivec := v &&& ~~~2#64 } }
  | 0x805 => { h with dev := { h.dev with uicause := v &&& 0x80000000000003FF#64 } }
  | 0x806 => { h with dev := { h.dev with uiepc := wordAligned v } }
  | 0x5C0 => { h with dev := { h.dev with task := v } }
  | 0x5C1 => { h with dev := { h.dev with chan := v &&& 0x7FFF#64 } }
  | 0x5C2 => { h with dev := { h.dev with domain := domainValue v } }
  | _ => h

/-- satp (R15, R273): a MODE other than 0 and 14 leaves it unchanged. -/
def writeSatp (old v : Word) : Word :=
  if fieldOf v 60 4 = 0 || fieldOf v 60 4 = 14 then v &&& ~~~0xFC000000003#64 else old

/-- mcountinhibit: a counter keeps its value when it is stopped and goes on from it. -/
def writeInhibit (s : State) (h : Hart) (v : Word) : Hart :=
  let now := cycleOf s h
  let cy := bitOf v 0
  { h with csr := { h.csr with
      mcountinhibit := v.setWidth 32 &&& ~~~2#32
      mcycle := if cy then now else now - bv 64 (s.ccOf s.cur) } }

/-- Writing a standard register of the current hart. -/
def writeStandard (s : State) (c : Nat) (v : Word) (h : Hart) : Hart :=
  let x := h.csr
  let n := identities s.cur
  let csr (y : Csrs) : Hart := { h with csr := y }
  let ints (y : Ints) : Hart := { h with ints := y }
  let fp (y : BitVec 8) : Hart := { h with fcsr := y, csr := { x with mstatus := setField x.mstatus 13 2 3 } }
  match c with
  | 0x001 => fp (setField h.fcsr 0 5 v.toNat)
  | 0x002 => fp (setField h.fcsr 5 3 v.toNat)
  | 0x003 => fp (v.setWidth 8)
  | 0x100 => csr (writeStatus x sstatusMask v)
  | 0x104 => csr { x with mie := (x.mie &&& ~~~x.mideleg) ||| (v &&& x.mideleg) }
  | 0x105 => csr { x with stvec := v &&& ~~~2#64 }
  | 0x106 => csr { x with scounteren := v.setWidth 32 }
  | 0x10A => csr { x with senvcfg := v &&& 1 }
  | 0x140 => csr { x with sscratch := v }
  | 0x141 => csr { x with sepc := wordAligned v }
  | 0x142 => csr { x with scause := v }
  | 0x143 => csr { x with stval := v }
  | 0x144 => csr { x with mipSw := if bitOf x.mideleg 1 then setBit x.mipSw 1 (bitOf v 1) else x.mipSw }
  | 0x150 => ints { h.ints with siselect := v }
  | 0x151 => ints { h.ints with sfile := h.ints.sfile.write n h.ints.siselect.toNat v }
  | 0x15C => ints { h.ints with sfile := h.ints.sfile.claim n }
  | 0x180 => csr { x with satp := writeSatp x.satp v }
  | 0x300 => csr (writeStatus x mstatusMask v)
  | 0x302 => csr { x with medeleg := v &&& medelegMask }
  | 0x303 => csr { x with mideleg := v &&& sInterrupts }
  | 0x304 => csr { x with mie := v &&& mieMask }
  | 0x305 => csr { x with mtvec := v &&& ~~~2#64 }
  | 0x306 => csr { x with mcounteren := v.setWidth 32 }
  | 0x30A => csr { x with menvcfg := v &&& 1 }
  | 0x320 => writeInhibit s h v
  | 0x340 => csr { x with mscratch := v }
  | 0x341 => csr { x with mepc := wordAligned v }
  | 0x342 => csr { x with mcause := v }
  | 0x343 => csr { x with mtval := v }
  | 0x344 => csr { x with mipSw := v &&& 0x202#64 }
  | 0x350 => ints { h.ints with miselect := v }
  | 0x351 => ints { h.ints with mfile := h.ints.mfile.write n h.ints.miselect.toNat v }
  | 0x35C => ints { h.ints with mfile := h.ints.mfile.claim n }
  | 0x3A0 => csr (writePmpcfg x 0 v)
  | 0x3A2 => csr (writePmpcfg x 1 v)
  | 0xB00 => csr { x with mcycle := if bitOf x.mcountinhibit 0 then v else v - bv 64 (s.ccOf s.cur) }
  | 0xB02 => csr { x with minstret := v }
  | _ => h

/-- Writing a register. -/
def writeCsr (s : State) (c : Nat) (v : Word) (h : Hart) : Hart :=
  if isDeviceCsr h c then writeDevice c v h
  else if 0x3B0 ≤ c && c < 0x3C0 then { h with csr := writePmpaddr h.csr (c - 0x3B0) v }
  else writeStandard s c v h

/-- The value a set or clear works on: of mip, the software bits of SSIP and SEIP. -/
def csrOld (s : State) (c : Nat) : Word := if c = 0x344 then s.hart.csr.mipSw else (readCsr s c).getD 0

/-- The value an access writes. -/
def csrNew (o : CsrOp) (old v : Word) : Word :=
  match o with
  | .rw => v
  | .rs => old ||| v
  | .rc => old &&& ~~~v

/-- An access to VELEM, VPFX or VFFLAGS waits until every earlier vector instruction has retired (R24). -/
def csrWaits (s : State) (c : Nat) : Bool := 0x800 ≤ c && c ≤ 0x802 && !s.hart.run.queue.isEmpty

/-- CSR_ACCESS. The written value stands after the word's own retirement. -/
def execCsrAccess (o : CsrOp) (imm : Bool) (csr : BitVec 12) (src rd : BitVec 5) :
    State → Host.Outcome State Fault Refusal :=
  let c := csr.toNat
  let writes : Bool := o = .rw || src ≠ 0
  scalarWord (.csrAccess o imm csr src rd) (csrLegal c writes) (do
    let s ← getS
    ensure (!(csrWaits s c)) .stall
    let h := s.hart
    let v := if imm then src.setWidth 64 else h.getX src
    let new := csrNew o (csrOld s c) v
    onHart (fun h =>
      let h := (h.setX rd ((readCsr s c).getD 0)).retire
      if writes then writeCsr s c new h else h))

/-! ## sfence.vma (R277), WFI and xRET -/

/-- The cached translations that sfence.vma removes: of an address, or all; of an ASID but for global ones, or all. -/
def fenced (va : Option Nat) (asid : Option Nat) (t : TlbEnt) : Bool :=
  (match va with
   | some v => t.vpn = v % 2 ^ 47 / 2 ^ pageBits t.level
   | none => true)
  && (match asid with
   | some a => !(bitOf t.leaf 5) && t.asid.toNat = a % 65536
   | none => true)

/-- Removing cached translations from the core's L1 TLB and, on a compute hart, the cluster's L2 TLB. -/
def fenceTlbs (who : Nat) (f : TlbEnt → Bool) (s : State) : State :=
  match tlbIndex who with
  | none => s
  | some c =>
    let s := s.setCoreAt c { s.coreAt c with tlb := (s.coreAt c).tlb.filter (fun t => !(f t)) }
    if kindOf who = .compute then
      s.modCluster (clusterOf who) (fun k => { k with tlb := k.tlb.filter (fun t => !(f t)) })
    else s

/-- sfence.vma: it waits as vdrain does, and for the hart's earlier stores as ord.all at package scope. -/
def execSfenceVma (rs2 rs1 : BitVec 5) : State → Host.Outcome State Fault Refusal :=
  scalarWord (.sfenceVma rs2 rs1)
    (fun s => s.hart.priv = .m || (s.hart.priv = .s && !(bitOf s.hart.csr.mstatus 20))) (do
    let s ← getS
    let h := s.hart
    ensure (vecDrained s s.cur && !(bothWait s 4)) .stall
    let va := if rs1 = 0 then none else some (h.getX rs1).toNat
    let asid := if rs2 = 0 then none else some (h.getX rs2).toNat
    setS (fenceTlbs s.cur (fenced va asid) s)
    onHart Hart.retire)

/-- An interrupt enabled at any level is pending (R15). -/
def wfiEnds (s : State) : Bool := mipOf s s.cur &&& s.hart.csr.mie ≠ 0

/-- WFI: below M mode it is illegal while TW is 1, and in U mode unless it ends at once (assumption 27). -/
def execWfi : State → Host.Outcome State Fault Refusal :=
  scalarWord .wfi
    (fun s => s.hart.priv = .m || (!(bitOf s.hart.csr.mstatus 21) && (s.hart.priv = .s || wfiEnds s))) (do
    let s ← getS
    if wfiEnds s then onHart Hart.retire else stallWith (waitHere s .wfi (2 ^ 63)))

/-- The return counts as an instruction; VELEM and VPFX stand (R140, R141). -/
def Hart.countRetired (h : Hart) : Hart :=
  { h with csr := { h.csr with
      minstret := if bitOf h.csr.mcountinhibit 2 then h.csr.minstret else h.csr.minstret + 1 } }

/-- XRET: mret in M mode; sret in M mode, and in S mode while TSR is 0. -/
def execXret (fromM : Bool) : State → Host.Outcome State Fault Refusal :=
  scalarWord (.xret fromM)
    (fun s => s.hart.priv = .m || (!fromM && s.hart.priv = .s && !(bitOf s.hart.csr.mstatus 22)))
    (onHart (fun h => (h.leaveTrap fromM).countRetired))

end Sys2Proof.Machine
end

