-- ==== Sys2Proof/Machine/Planker.lean ====
section
/-! DEFINITION. Repetition (spec/04, R86-R90; spec/07, R166): capture of the body, its passes and resumption at a
repetition position; the vector queue's entries (R157, R160); what an interruption of a vector word leaves (R142). -/

namespace Sys2Proof.Machine

/-! ## Capture -/

/-- K and G words and sld, which a Milliner does not execute (R324). -/
def notOnMilliner (w : W32) : Bool :=
  let m := fieldOf w 0 7
  m = 0x6B || m = 0x77 || (match decode w with
    | .ok (.sld _) => true
    | _ => false)

/-- Whether a body may hold a word (R86): `last` says that it is the last one. -/
def bodyWordOk (milliner last : Bool) (w : W32) (s : State) : Bool :=
  match decode w with
  | .ok (.pfx _) => !last
  | .ok i => (bodyExec i s).isSome && !(milliner && notOnMilliner w)
  | .error _ => false

/-- Fetching `n` words from an address on. -/
def fetchRun : Nat → Word → Act (List W32)
  | 0, _ => fun s => .ok [] s
  | n + 1, a => do
    let w ← fetchAt a
    let r ← fetchRun n (a + 4)
    return w :: r

/-- The first word that the body may not hold. -/
def badWord (milliner : Bool) (s : State) : List W32 → Option W32
  | [] => none
  | w :: r => if bodyWordOk milliner r.isEmpty w s then badWord milliner s r else some w

/-- Capturing the body of a vrep word at an address into the body store: an illegal body word traps with that word in
xtval. -/
def capture (w : VrepFld) (addr : Word) : Act Unit := do
  let words ← fetchRun (w.k.toNat + 1) (addr + 4)
  let s ← getS
  match badWord (isMilliner s.cur) s words with
  | some x => stop (.trap 2 (x.setWidth 64))
  | none => onHart (fun h => { h with run := { h.run with
      body := some { addr := addr, n := w.n.toNat + 1, s := w.s.toNat, words := words } } })

/-- vrep (R86): it captures its body, retires, and the first pass is next. -/
def execVrep (w : VrepFld) : State → Host.Outcome State Fault Refusal := fun s =>
  if s.hart.pfxBlocks || !(vectorAgent s) then .next (afterStop (.vrep w) .illegal s)
  else runAct (.vrep w) (do
    capture w s.hart.pc
    onHart (fun h => h.retireTo (repPos 0 0 h.pc))) s

/-! ## Passes -/

/-- The body store at a repetition position (R90): when it is empty, the vrep word and its body are read again. A body word found
illegal then traps with xEPC the saved position, as a position that no longer fits does (R90; DESIGN CHOICE,
assumption 46). -/
def ensureBody : Act Unit := do
  let s ← getS
  let h := s.hart
  if h.run.body.isSome then return ()
  else
    let w ← fetchAt (repAddr h.pc)
    match decode w with
    | .ok (.vrep v) =>
      if repPass h.pc < v.n.toNat + 1 && repWord h.pc < v.k.toNat + 1 then capture v (repAddr h.pc)
      else stop (.trap 2 (w.setWidth 64))
    | _ => stop (.trap 2 (w.setWidth 64))

/-- PLANKER_PASS: the body word at the current repetition position, advanced by its pass, executes (R87, R88). -/
def execPlankerPass : State → Host.Outcome State Fault Refusal := fun s =>
  if !(isRep s.hart.pc) then .next s
  else match ensureBody s with
    | .error .stall s => .next s
    | .error e s => .next (afterStop .wfi e s)
    | .ok _ s =>
      match (s.hart.run.body.bind (fun b => b.words[repWord s.hart.pc]?)).map decode with
      | some (.ok i) => (bodyExec i s).getD (.next s)
      | _ => .next s

/-! ## The vector queue (R157, R160) -/

/-- Whether the head of a hart's queue that has not started may start. -/
def startable (h : Hart) : Bool := h.run.queue.any (fun e => !e.started)

/-- The hart slot of a core whose entry starts next: round-robin after the one that started last. -/
def nextStart (s : State) (c : Nat) : Option Nat :=
  ((List.range 4).map (fun k => ((s.coreAt c).lastStarted + 1 + k) % 4)).find? (fun k => startable (s.hartAt (4 * c + k)))

/-- Starting the first entry of a queue that has not started. -/
def startFirst : List VEntry → List VEntry
  | [] => []
  | e :: r => if e.started then e :: startFirst r else { e with started := true } :: r

/-- VECTOR_ENTRY_START of a hart whose turn it is. -/
def execVectorEntryStart (h : Nat) (s : State) : Host.Outcome State Fault Refusal :=
  if kindOf h = .compute then
    if nextStart s (coreOf h) = some (h % 4) then
      let s := s.modHart h (fun x => { x with run := { x.run with queue := startFirst x.run.queue } })
      .next (s.setCoreAt (coreOf h) { s.coreAt (coreOf h) with lastStarted := h % 4 })
    else .next s
  else .next (s.modHart h (fun x => { x with run := { x.run with queue := startFirst x.run.queue } }))

/-- VECTOR_ENTRY_RETIRE: the oldest entry, once started, leaves the queue. Its effect and VELEM's were its word's. -/
def execVectorEntryRetire (h : Nat) (s : State) : Host.Outcome State Fault Refusal :=
  .next (s.modHart h (fun x => match x.run.queue with
    | e :: r => if e.started then { x with run := { x.run with queue := r } } else x
    | [] => x))

/-! ## Stopping a word in progress at an element boundary (R142) -/

/-- One execution of the vector word at the current position, if there is one. -/
def runVector (s : State) : Option (Host.Outcome State Fault Refusal) :=
  if isRep s.hart.pc then some (execPlankerPass s)
  else match fetchWord s with
    | .error _ _ => none
    | .ok w t =>
      match decode w with
      | .ok (.pfx _) => none
      | .ok i => bodyExec i t
      | .error _ => none

/-- The run of the current word up to boundary `b`. -/
def runTo (b : Nat) (s : State) : Option State :=
  match runVector { s with bound := some b } with
  | some (.next t) => some { t with bound := none }
  | _ => none

/-- The current word processes elements up to boundary `b` at most; before an element that would trap it stops, because
the interrupt comes first. -/
def runBounded (b : Nat) (s : State) : State :=
  let e := s.hart.vec.velem.toNat
  if b ≤ e then s
  else match runTo b s with
    | none => s
    | some t =>
      if stoppedBy s t then
        if e < t.hart.vec.velem.toNat then (runTo t.hart.vec.velem.toNat s).getD s else s
      else t

end Sys2Proof.Machine
end

