-- ==== Sys2Proof/Machine/Interrupts.lean ====
section
/-! DEFINITION. hmsg, park, uiret (spec/06, R147, R148, R152) and mkick (spec/15, R328). -/

namespace Sys2Proof.Machine

/-! ## Words -/

/-- hmsg (R148): a release at package scope; rd says whether the record was written. -/
def execHmsg (w : SFld) : State → Host.Outcome State Fault Refusal :=
  scalarWord (.hmsg w) (fun _ => true) (do
    let s ← getS
    let h := s.hart
    ensure (!(fenceWaits s 4)) .stall
    let (t, r) := postRecord s (partOf s s.cur) 0x02 0 s.cur h.pc (h.getX w.rs1) (h.getX w.rs2)
    setS t
    retireWith w.rd (match r with
      | .written => 0
      | .full => 1
      | .off => 2))

/-- park ends the user routine of a Milliner (R331), which has written its mailbox itself. -/
def endUserRoutine : Act Unit := fun s =>
  .ok () (parkMilliner s.cur (s.setMillAt s.cur { s.millAt s.cur with kick := none, run := .idle }))

/-- park (R147): it waits for the vector queue and for every live lease, then parks with PCAUSE 1. -/
def execPark (w : SFld) : State → Host.Outcome State Fault Refusal :=
  scalarWord (.park w) (fun s => isMilliner s.cur || (onCompute s && s.hart.priv ≠ .u)) (do
    let s ← getS
    ensure (s.hart.run.queue.isEmpty && s.hart.liveLeases = 0) .stall
    if isMilliner s.cur then endUserRoutine
    else onHart (fun h =>
      let h := h.retire
      h.parkAt 1 h.pc))

/-- uiret (R152): ACT becomes 0 and PC is UIEPC; VELEM and VPFX stand (R140). -/
def execUiret (w : SFld) : State → Host.Outcome State Fault Refusal :=
  scalarWord (.uiret w) (fun s => onCompute s && s.hart.inHandler) (onHart (fun h =>
    let h := h.interrupted.countRetired
    { h with pc := h.dev.uiepc, dev := { h.dev with uicause := setBit h.dev.uicause 63 false } }))

/-- mkick (R328): an 8-byte store-release at the stated scope, which kicks at a kick register. -/
def execMkick (w : SFld) : State → Host.Outcome State Fault Refusal :=
  scalarWord (.mkick w) (fun _ => true) (do
    let s ← getS
    let h := s.hart
    let a := h.getX w.rs1
    ensure (a.toNat % 8 = 0) (.trap 6 a)
    ensure (!(fenceWaits s w.x.toNat)) .stall
    scalarStore (dataEnv s) w.x.toNat a.toNat 8 (h.getX w.rs2).toNat
    onHart Hart.retire)

/-- Running a change of the state with another agent as the current one. -/
def asAgent (h : Nat) (g : State → State) (s : State) : State := { g { s with cur := h } with cur := s.cur }

end Sys2Proof.Machine
end

