-- ==== Sys2Proof/Machine/Attempt.lean ====
section
/-! DEFINITION. Executing the word at a hart's position to see whether it traps there: a user-level interrupt is not taken
where a synchronous trap is due (spec/06, R151, R153). -/

namespace Sys2Proof.Machine

/-- The meaning of a word that a body may not hold. -/
def scalarExec (i : Instr) (s : State) : Option (Host.Outcome State Fault Refusal) :=
  match i with
  | .riscvInstruction op => some (execRiscvInstruction op s)
  | .csrAccess o imm csr src rd => some (execCsrAccess o imm csr src rd s)
  | .lr sz aq rl rs1 rd => some (execLr sz aq rl rs1 rd s)
  | .sc sz aq rl rs2 rs1 rd => some (execSc sz aq rl rs2 rs1 rd s)
  | .amo o sz aq rl rs2 rs1 rd => some (execAmo o sz aq rl rs2 rs1 rd s)
  | .fenceI imm rs1 rd => some (execFenceI imm rs1 rd s)
  | .sfenceVma rs2 rs1 => some (execSfenceVma rs2 rs1 s)
  | .wfi => some (execWfi s)
  | .xret fromM => some (execXret fromM s)
  | .vxget w => some (execVxget w s)
  | .vcfg w => some (execVcfg w s)
  | .vcfgi w => some (execVcfgi w s)
  | .mpop w => some (execMpop w s)
  | .mfirst w => some (execMfirst w s)
  | .wstat w => some (execWstat w s)
  | .mattach w => some (execMattach w s)
  | .tspawn w => some (execTspawn w s)
  | .tspawnp w => some (execTspawnp w s)
  | .tnext w => some (execTnext w s)
  | .tyield w => some (execTyield w s)
  | .tblock w => some (execTblock w s)
  | .tunblock w => some (execTunblock w s)
  | .tticket w => some (execTticket w s)
  | .tcommit w => some (execTcommit w s)
  | .tqstat w => some (execTqstat w s)
  | .darrive w => some (execDarrive w s)
  | .dwait w => some (execDwait w s)
  | .dbar w => some (execDbar w s)
  | .dphase w => some (execDphase w s)
  | .ordSv w => some (execOrdSv w s)
  | .ordVs w => some (execOrdVs w s)
  | .ordVv w => some (execOrdVv w s)
  | .ordAll w => some (execOrdAll w s)
  | .vdrain w => some (execVdrain w s)
  | .sopen w => some (execSopen w s)
  | .savail w => some (execSavail w s)
  | .sres w => some (execSres w s)
  | .sclose w => some (execSclose w s)
  | .lease w => some (execLease w s)
  | .unlease w => some (execUnlease w s)
  | .swait w => some (execSwait w s)
  | .mkick w => some (execMkick w s)
  | .hmsg w => some (execHmsg w s)
  | .park w => some (execPark w s)
  | .uiret w => some (execUiret w s)
  | .vrep w => some (execVrep w s)
  | _ => none

/-- The meaning of an instruction that has a word. -/
def wordExec (i : Instr) (s : State) : Option (Host.Outcome State Fault Refusal) :=
  match bodyExec i s with
  | some o => some o
  | none => scalarExec i s

/-- One execution of the word at the current hart's position. -/
def attempt (s : State) : State :=
  let out : Option (Host.Outcome State Fault Refusal) :=
    if isRep s.hart.pc then some (execPlankerPass s)
    else match fetchWord s with
      | .error e t => some (.next (afterStop .wfi e t))
      | .ok w t =>
        match decode w with
        | .ok i => wordExec i t
        | .error _ => some (.next (raise 2 (w.setWidth 64) t))
  match out with
  | some (.next t) => t
  | _ => s

/-- A synchronous trap is due: the word at the current hart's position traps or takes a format fault. -/
def trapDue (s : State) : Bool := stoppedBy s (attempt s)

end Sys2Proof.Machine
end

