-- ==== Sys2Proof/Machine/Taking.lean ====
section
/-! DEFINITION. Interrupts (spec/06, R142, R143, R151); the ends of timed waits, reservations and leases (spec/08, R194,
R197, R198; spec/10, R224; spec/12, R251, R265) and the samples of waits and watches (spec/13, R283, R418; spec/15, R340). -/

namespace Sys2Proof.Machine

/-! ## Interrupts -/

/-- A WFI that an interrupt ends has retired before the interrupt is taken. -/
def leaveWfi (s : State) : State :=
  let h := s.hart
  match h.run.wait with
  | some w => if w.kind = .wfi && w.pc = h.pc then s.setHart h.retire else s
  | none => s

/-- Whether an agent may take an interrupt now: it runs and has no atomic on its way. -/
def interruptible (s : State) (h : Nat) : Bool :=
  h < 9240 && (s.hartAt h).canRun && !(atomicOut s h)

/-- INTERRUPT_TAKE (R142): the word in progress stops at element boundary `b`, or where it is, and the trap is entered. -/
def execInterruptTake (h b : Nat) (s : State) : Host.Outcome State Fault Refusal :=
  if !(interruptible s h) then .next s
  else match irqDue s h with
    | none => .next s
    | some (toS, cause) => .next (asAgent h (fun s =>
        let s := settleReads h 0 (leaveWfi (runBounded b s))
        s.setHart (s.hart.enterTrap toS true cause 0)) s)

/-- The current hart takes its user-level interrupt at element boundary `b` of the word in progress, or where it is; a trap
that is due comes first (R151). -/
def takeUserAt (b : Nat) (s : State) : State :=
  let t := (runTo b s).getD s
  if s.hart.vec.velem.toNat < b then
    if stoppedBy s t then t
    else
      let t := settleReads s.cur 0 t
      t.setHart t.hart.takeDueUi
  else if trapDue s then attempt s
  else
    let t := settleReads s.cur 0 s
    t.setHart t.hart.takeDueUi

/-- USER_INTERRUPT_TAKE (R151): no M or S interrupt may be due. -/
def execUserInterruptTake (h b : Nat) (s : State) : Host.Outcome State Fault Refusal :=
  if !(interruptible s h) || (irqDue s h).isSome || (s.hartAt h).uiDue.isNone then .next s
  else .next (asAgent h (takeUserAt b) s)

/-- TIMECMP_MATCH: the time count reaches a compare register (R143). -/
def execTimecmpMatch (h : Nat) (sLevel : Bool) (s : State) : Host.Outcome State Fault Refusal :=
  let i := (s.hartAt h).ints
  .next { s with ticks := max s.ticks (if sLevel then i.stimecmp else i.mtimecmp).toNat }

/-- INT_SSIP: a write of 1 (R143). -/
def execIntSsip (h : Nat) (s : State) : Host.Outcome State Fault Refusal :=
  if h < 9240 then .next (setSsip h s) else .next s

/-- IMSIC_SETEIPNUM: an identity is written to an interrupt file (R143). -/
def execImsicSeteipnum (h : Nat) (sFile : Bool) (id : Nat) (s : State) : Host.Outcome State Fault Refusal :=
  if h < 9240 then .next (setIdentity h sFile id s) else .next s

/-- RESERVATION_TIMEOUT: 1,024 cc after the LR (R15). -/
def execReservationTimeout (h : Nat) (s : State) : Host.Outcome State Fault Refusal :=
  let x := s.hartAt h
  if x.run.resv.isSome && x.run.resvEnds ≤ s.ccOf h then .next (s.setHartAt h { x with run := { x.run with resv := none } })
  else .next s

/-- LEASE_EXPIRY: a lease whose last cc has passed ends (R194). -/
def execLeaseExpiry (h : Nat) (s : State) : Host.Outcome State Fault Refusal :=
  let late (l : Option Lease) : Bool := match l with
    | some l => l.ends ≤ s.ccOf h
    | none => false
  match (s.hartAt h).run.leases.toList.findIdx? late with
  | some k => .next (endLease s h k)
  | none => .next s

/-! ## Waits -/

/-- The word a hart waits at: the body word at a repetition position, else the buffered word. -/
def waitingWord (s : State) : Option Instr :=
  let h := s.hart
  let words := if isMilliner s.cur then h.run.routine else h.run.fetch
  let w := if isRep h.pc then h.run.body.bind (fun b => b.words[repWord h.pc]?)
    else (words.find? (fun p => p.1 == h.pc.toNat)).map Prod.snd
  w.bind (fun w => (decode w).toOption)

/-- One more test of the wait of the current hart. -/
def retestWait (s : State) : State :=
  let out : Option (Host.Outcome State Fault Refusal) := match waitingWord s with
    | some (.swait w) => some (execSwait w s)
    | some (.vwait w) => some (execVwait w s)
    | some (.dwait w) => some (execDwait w s)
    | some (.dbar w) => some (execDbar w s)
    | some (.tcommit w) => some (execTcommit w s)
    | some (.tspawn w) => some (execTspawn w s)
    | some (.tspawnp w) => some (execTspawnp w s)
    | _ => none
  match out with
  | some (.next t) => t
  | _ => s

/-- The wait in progress at PC, of a kind. -/
def waitOf (s : State) (kind : WaitKind) : Option Wait :=
  match s.hart.run.wait with
  | some w => if w.kind = kind && w.pc = s.hart.pc then some w else none
  | none => none

/-- swait times out (R197): bit 63 and the last sample, and source CODE 3 with SLOT 0. -/
def timeoutSwait (s : State) : State :=
  match waitingWord s, waitOf s .swait with
  | some (.swait w), some t =>
    let v := (t.last.map BitVec.toNat).getD (Config.freeNat s.fresh % 2 ^ 32)
    let h := ((s.hart.setX w.rd (bv 64 (2 ^ 63 + v))).retire).pendUi 3 0
    settleReads s.cur 0 (s.useFresh.setHart h)
  | _, _ => s

/-- vwait times out (R198): the unsatisfied elements, and source CODE 3 with SLOT 1. -/
def timeoutVwait (s : State) : State :=
  match waitingWord s, waitOf s .vwait with
  | some (.vwait w), some t =>
    (match runAct (.vwait w) (do
        let c ← issueVwait w
        finishVwait w c t.sat
        onHart (fun h => h.pendUi 3 1)) s with
     | .next u => u
     | _ => s)
  | _, _ => s

/-- dwait or the wait of a dbar times out with STATUS 1 and the last PHASE seen (R224). -/
def timeoutDwait (s : State) : State :=
  let phase (t : Wait) : Nat := (t.last.map BitVec.toNat).getD (Config.freeNat s.fresh)
  let run (a : Act Unit) : State := match a s.useFresh with
    | .ok _ u => settleReads s.cur 0 u
    | .error _ _ => s
  match waitingWord s, waitOf s .dwait, waitOf s .dbar with
  | some (.dwait w), some t, _ => run (retireWith w.rd (domResult 1 (phase t)))
  | some (.dbar w), _, some t => run (retireDbar w.rd 1 (phase t))
  | _, _, _ => s

/-- Running the end of a wait that times out. -/
def endWait (a : Act Unit) (s : State) : State :=
  match a s with
  | .ok _ u => u
  | .error _ _ => s

/-- tcommit times out (R265). -/
def endTcommit (s : State) : State :=
  match waitingWord s, waitOf s .tcommit with
  | some (.tcommit w), some t => endWait (timeoutTcommit w t) s
  | _, _ => s

/-- A waiting spawn times out with FULL (R251). -/
def endTspawn (s : State) : State :=
  match waitingWord s, waitOf s .tspawn with
  | some (.tspawn w), some _ => endWait (timeoutTspawn w) s
  | some (.tspawnp w), some _ => endWait (timeoutTspawn w) s
  | _, _ => s

/-- A wait whose time has come is tested once more, and else times out. -/
def waitTimeout (h : Nat) (kinds : List WaitKind) (g : State → State) (s : State) : Host.Outcome State Fault Refusal :=
  let late : Bool := match (s.hartAt h).run.wait with
    | some w => kinds.contains w.kind && w.ends ≤ s.ccOf h
    | none => false
  if late && (s.hartAt h).canRun then .next (asAgent h (fun s => g (retestWait s)) s) else .next s

/-- SWAIT_TIMEOUT. -/
def execSwaitTimeout (h : Nat) : State → Host.Outcome State Fault Refusal := waitTimeout h [.swait] timeoutSwait
/-- VWAIT_TIMEOUT. -/
def execVwaitTimeout (h : Nat) : State → Host.Outcome State Fault Refusal := waitTimeout h [.vwait] timeoutVwait
/-- DWAIT_TIMEOUT. -/
def execDwaitTimeout (h : Nat) : State → Host.Outcome State Fault Refusal :=
  waitTimeout h [.dwait, .dbar] timeoutDwait

/-- TCOMMIT_TIMEOUT. -/
def execTcommitTimeout (h : Nat) : State → Host.Outcome State Fault Refusal := waitTimeout h [.tcommit] endTcommit
/-- TSPAWN_WAIT_TIMEOUT. -/
def execTspawnWaitTimeout (h : Nat) : State → Host.Outcome State Fault Refusal := waitTimeout h [.tspawn] endTspawn

/-- WAITER_UPDATE: a waiting hart samples a committed value (R418). -/
def execWaiterUpdate (h : Nat) (s : State) : Host.Outcome State Fault Refusal :=
  if (s.hartAt h).canRun && (s.hartAt h).run.wait.isSome then .next (asAgent h retestWait s) else .next s

/-! ## Watches and waits on words of another module (R283, R340) -/

/-- The sampled value of watch `i` has come: the watch fires when it has changed. -/
def seeWatch (h i : Nat) (v : Word) (s : State) : State :=
  let x := s.hartAt h
  let changed : Bool := match (x.ctl.watchSeen[i]?).getD none with
    | some old => old ≠ v
    | none => false
  let x := if changed then x.pendUi 2 i else x
  s.setHartAt h (x.withCtl (fun c => { c with watchSeen := c.watchSeen.set (i % 4) (some v) (Nat.mod_lt _ (by decide)) }))

/-- Sampling watch `i` of a hart: the answer of the last sample is compared with the one before, and the next is asked
for. -/
def sampleWatch (h : Nat) (s : State) (i : Nat) : State :=
  let w := ((s.hartAt h).ctl.watch[i]?).getD 0
  let a := fieldOf w 3 47 * 8
  let ask (d : Nat) (s : State) : State := if deliverable s d then sendRemote s (partOf s h) h (10 + i) 1 0 a 8 [] else s
  match regionOf s a with
  | .far d =>
    if !(bitOf w 0) then s
    else match findRemote s h (10 + i) 1 a 8 with
      | none => ask d s
      | some r =>
        match r.answer with
        | some v => ask d (seeWatch h i (bv 64 v) (dropRemote s r.tag))
        | none => if r.failed then ask d (dropRemote s r.tag) else s
  | _ => s

/-- REMOTE_SAMPLE_TICK: 256 cc have passed for the waits and watches of a hart on words of another module. -/
def execRemoteSampleTick (h : Nat) (s : State) : Host.Outcome State Fault Refusal :=
  let s := (List.range 4).foldl (sampleWatch h) s
  let s := s.modHart h (fun x => { x with run := { x.run with
    wait := x.run.wait.map (fun w => { w with again := min w.again (s.ccOf h) }) } })
  if (s.hartAt h).canRun && (s.hartAt h).run.wait.isSome then .next (asAgent h retestWait s) else .next s

end Sys2Proof.Machine
end

