-- ==== Sys2Proof/Machine/Preempt.lean ====
section
/-! DEFINITION. Pre-emption, save records and restore (spec/17, R361-R365), and the writes of a hart's and a system
core's control block (spec/06, R150; spec/10, R207; spec/19, R406). -/

namespace Sys2Proof.Machine

/-! ## Halting (R362, R363, R370) -/

/-- Whether a hart can take its pending user-level interrupt (R151): no M or S interrupt and no synchronous trap is due. -/
def canTakeUi (s : State) (h : Nat) : Bool :=
  (s.hartAt h).uiDue.isSome && (irqDue s h).isNone && !(trapDue { s with cur := h })

/-- A running hart halts where it is: it takes a user-level interrupt it can take (R153), entries not started are
discarded, its leases end, and it parks. -/
def haltHart (h cause : Nat) (s : State) : State :=
  let ui := canTakeUi s h
  let s := settleReads h 0 (endLeases h s)
  s.modHart h (fun x =>
    let x := (if ui then x.takeDueUi else x).interrupted
    let x := x.parkAt cause x.pc
    { x with
      run := { x.run with resv := none, queue := [] }
      ctl := { x.ctl with recordOk := false } })

/-- FORCE reads 0 once no hart of the cluster is to be halted any more (R372). -/
def endForce (c : Nat) (s : State) : State :=
  let more := (hartsOfCluster c).any (fun k => (s.hartAt k).ctl.shedDue)
  if (s.clusterAt c).force && !more then s.setClusterAt c { s.clusterAt c with force := false } else s

/-- A hart that the end of the grace or a forced quiesce has halted (R370, R372): it is held by what still asks for
that, or else released (R381). -/
def heldHalt (h : Nat) (s : State) : State :=
  let s := haltHart h 4 s
  let x := s.hartAt h
  let q := quiesceHolds s (clusterOf h)
  let p := isShed s x
  let s := s.setHartAt h (x.withCtl (fun c => { c with
    heldShed := p
    heldQuiesce := q
    shedDue := false
    shedClass := bv 2 x.pclass }))
  endForce (clusterOf h) (if p || q then s else releaseIsland s (islandOf h))

/-! ## Writes -/

/-- HART_CTL_WAKE (R150). -/
def execHartCtlWake (h : Nat) (s : State) : Host.Outcome State Fault Refusal :=
  if kindOf h = .compute then .next (wakeHart h s) else .next s
/-- HART_WRES_WRITE (R207). -/
def execHartWresWrite (h v : Nat) (s : State) : Host.Outcome State Fault Refusal :=
  if kindOf h = .compute then .next (writeReservation h (bv 64 v) s) else .next s
/-- SC_CTL_WAKE of the system core with mhartid `n` (R406). -/
def execScCtlWake (n : Nat) (s : State) : Host.Outcome State Fault Refusal :=
  if kindOf n = .system then .next (wakeSystem n s) else .next s
/-- PREEMPT (R362). -/
def execPreempt (h : Nat) (s : State) : Host.Outcome State Fault Refusal :=
  if kindOf h = .compute then .next (requestPreempt h s) else .next s
/-- RESTORE (R365). -/
def execRestore (h : Nat) (s : State) : Host.Outcome State Fault Refusal :=
  if kindOf h = .compute then .next (requestRestore h s) else .next s

/-! ## Physical spans -/

/-- A byte of physical memory; of another module, as it has been read there for a record. -/
def physByte (s : State) (a : Nat) : Byte :=
  if isFar s a then
    (match s.coh.remote.find? (fun r => r.slot == 18 && r.kind == 1 && r.addr ≤ a && a < r.addr + r.len && r.answer.isSome) with
     | some r => bv 8 (r.answer.getD 0 / 256 ^ (a - r.addr))
     | none => 0)
  else readByte s.mem (placed s a)

/-- `n` bytes of physical memory. -/
def physBytes (s : State) (a n : Nat) : List Byte := (List.range n).map (fun i => physByte s (a + i))

/-- `n` bytes of physical memory as a number. -/
def physNat (s : State) (a n : Nat) : Nat := ofBytes (physBytes s a n)

/-- Storing bytes of partition `p` span by span, at most `n` of them: a region of the package, or 128 bytes of another module
(a message carries 224 at most, R390). -/
def storeRegions (w : Writer) (p : Nat) : Nat → Nat → List Byte → State → State
  | 0, _, _, s => s
  | n + 1, a, bs, s =>
    if bs.isEmpty then s
    else if isFar s a then
      let k := 128 - a % 128
      storeRegions w p n (a + k) (bs.drop k) (sendRemote s p w.hart 17 2 0 a (bs.take k).length (bs.take k))
    else
      let k := 256 - a % 256
      storeRegions w p n (a + k) (bs.drop k) (s.pushStore w a (bs.take k))

/-- Storing bytes of partition `p` at a physical address. -/
def storePhys (w : Writer) (p a : Nat) (bs : List Byte) (s : State) : State :=
  storeRegions w p (bs.length / 128 + 2) a bs s

/-- Whether a partition's agents can write bytes of one region: its memory, its cores' TCM, its clusters' scratchpads, or memory
of another module that can be reached (R271, R357). -/
def regionOwned (s : State) (p a n : Nat) : Bool :=
  match regionOf s a with
  | .own => writable s p a n
  | .tcm c => partOfCluster s (c / 16) == p
  | .spad c => partOfCluster s c == p
  | .far d => deliverable s d
  | _ => false

/-- Whether every region of a span can be written by a partition's agents. -/
def spanOwned (s : State) (p a n : Nat) : Bool :=
  (List.range (n / 256 + 1)).all (fun i => 256 * i ≥ n || regionOwned s p (a + 256 * i) (min 256 (n - 256 * i)))

/-- Whether every region of a span is memory of a partition. -/
def spanMemory (s : State) (p a n : Nat) : Bool :=
  (List.range (n / 256 + 1)).all (fun i => 256 * i ≥ n || writable s p (a + 256 * i) (min 256 (n - 256 * i)))

/-- Whether no region of a span waits in a migration. -/
def spanReady (s : State) (a n : Nat) : Bool :=
  (List.range (n / 256 + 1)).all (fun i => (forward s (a + 256 * i)).isSome)

/-- The 128-byte parts of a span that another module holds. -/
def farParts (s : State) (a n : Nat) : List Nat :=
  ((List.range (n / 128 + 1)).map (fun i => a + 128 * i)).filter (fun b => b < a + n && isFar s b)

/-- The read of a part of a hart's record on another module. -/
def partRead (s : State) (h a : Nat) : Option Remote := findRemote s h 18 1 a 128

/-- Asking other modules for the parts of a span that have not been asked for. -/
def askParts (h a n : Nat) (s : State) : State :=
  (farParts s a n).foldl (fun s b => if (partRead s h b).isSome then s else sendRemote s (partOf s h) h 18 1 0 b 128 []) s

/-- Every part of a span on another module has been answered or refused. -/
def partsHere (s : State) (h a n : Nat) : Bool :=
  (farParts s a n).all (fun b => match partRead s h b with
    | some r => r.answer.isSome || r.failed
    | none => false)

/-- Whether a span holds an uncorrectable error. -/
def spanPoisoned (s : State) (a n : Nat) : Bool := s.coh.poison.any (fun p => touches a n p)

/-! ## The save record (R191, R364) -/

/-- A stream as saved (R191): the descriptor with COUNT, the bases moved on, and INIT. -/
def Stream.saved (st : Stream) : List Word :=
  let past := if st.mode = 0 then st.consumed else if st.mode = 1 then st.fetched else 0
  let base (k : Nat) : Word :=
    let b := (st.base[k]?).getD 0
    if k < st.parts then b + bv 64 past * (st.stride[k]?).getD 0 else b
  let stride (k : Nat) : Word := (st.stride[k]?).getD 0
  [setField st.word0 32 32 (st.avl - past), base 0, stride 0, base 1, stride 1, base 2, stride 2,
   if st.mode = 1 then st.acc else st.init]

/-- The DECLARED window of a slot. -/
def Hart.declaredAt (h : Hart) (n : Nat) : Option Window := (h.window n).filter (fun x => !x.merging)

/-- The DECLARED windows of a hart, in ascending order. -/
def Hart.declared (h : Hart) : List Window := (List.range 4).filterMap h.declaredAt

/-- LEN of the record of a context with these windows and tiles. -/
def recordLen (sizes : List Nat) (tiles : Nat) : Nat := 0xA800 + sizes.foldl (fun n k => n + 16 * k) 0 + 1088 * tiles + 4224

/-- Bit flags of the slots that are taken. -/
def slotBits {α : Type} (l : List (Option α)) : Nat :=
  (List.range 4).foldl (fun n i => if ((l[i]?).getD none).isSome then n + 2 ^ i else n) 0

/-- The header word. -/
def recordHeader (h : Hart) (len : Nat) : Word :=
  bv 64 (slotBits h.run.streams.toList + slotBits ((List.range 4).map h.declaredAt) * 16 + h.run.turn.isSome.toNat * 256
    + h.ctl.mode.code * 512 + len * 2 ^ 32)

/-- The 14 registers of R19 to R27 in the order of the record. -/
def recordRegs (h : Hart) : List Word :=
  [h.vec.vl.setWidth 64, h.vec.vtype, h.vec.velem.setWidth 64, h.vec.vpfx.setWidth 64, h.vec.vfflags.setWidth 64,
   h.vec.vftrap.setWidth 64, h.dev.task, h.dev.chan, h.dev.domain, h.dev.grant.setWidth 64, h.lstat, h.dev.uivec,
   h.dev.uicause, h.dev.uiepc]

/-- The windows' part of the record. -/
def recordWindows (h : Hart) : List Word :=
  let w := h.declaredAt
  (List.range 4).flatMap (fun i => [bv 64 (windowStatus (w i)), match w i with
    | some x => bv 64 x.pa0
    | none => 0])
  ++ (List.range 4).map (fun i => match w i with
    | some x => if x.crosses then bv 64 x.pa1 else 0
    | none => 0)

/-- The words of the record up to offset 0x427, with the header's LEN. -/
def recordWords (h : Hart) (len : Nat) : List Word :=
  let turn : Word := match h.run.turn with
    | some (q, k) => bv 64 (q + k * 2 ^ 32)
    | none => 0
  [recordHeader h len, turn, h.ctl.rpc] ++ h.x.toList.drop 1 ++ h.f.toList ++ [h.fcsr.setWidth 64] ++ recordRegs h
  ++ h.shadow.toList ++ (List.range 4).flatMap (fun q => match h.stream q with
      | some st => st.saved
      | none => List.replicate 8 0) ++ recordWindows h

/-- The fixed part of the record: 0xA800 bytes. -/
def recordFixed (h : Hart) (len : Nat) : List Byte :=
  (recordWords h len).flatMap (fun w => toBytes 8 w.toNat) ++ List.replicate (0x800 - 0x428) 0
  ++ h.vec.v.toList.flatMap (fun r => bytesOf r 1024) ++ h.vec.m.toList.flatMap (fun r => bytesOf r 1024)

/-- The number of a tile mode. -/
def TileMode.code : TileMode → Nat
  | .clear => 0
  | .float => 1
  | .int => 2
  | .split => 3

/-- The tile mode of a number. -/
def TileMode.ofCode : Nat → TileMode
  | 1 => .float
  | 2 => .int
  | 3 => .split
  | _ => .clear

/-- A tile in the record: 1,024 bytes of values, 64 bytes of state. -/
def Tile.saved (t : Tile) : List Byte :=
  bytesOf t.vals 1024 ++ [bv 8 t.mode.code, bv 8 t.s, t.badRows.setWidth 8, 0] ++ bytesOf t.badCols 2 ++ [0, 0]
  ++ t.ea.toList.flatMap (fun e => bytesOf e 2) ++ t.eb.toList.flatMap (fun e => bytesOf e 2) ++ List.replicate 20 0

/-- A B buffer in the record: 2,080 bytes, state, tag. -/
def BBuf.saved (b : BBuf) : List Byte :=
  bytesOf b.data 2080 ++ [bv 8 b.loaded.toNat, b.fmt.setWidth 8] ++ List.replicate 30 0

/-- The granted tiles of a hart. -/
def grantedTiles (s : State) (h : Nat) : List Tile :=
  let x := s.hartAt h
  (List.range x.grantTiles).map (fun i => (s.coreAt (coreOf h)).tile (x.grantFirst + i))

/-- The whole record of a halted hart. -/
def recordBytes (s : State) (h : Nat) : List Byte :=
  let x := s.hartAt h
  recordFixed x (recordLen (x.declared.map Window.size) x.grantTiles)
  ++ x.declared.flatMap (fun w => readBytes s.mem (16 * w.size) (laneAddr h w.wbase.toNat 0 0))
  ++ (grantedTiles s h).flatMap Tile.saved ++ (x.bbuf 0).saved ++ (x.bbuf 1).saved

/-! ## Saving (R362) -/

/-- What the save leaves of the hart: windows FREE, streams closed, grant and HART_WRES.LEN zero; the turn and word 0 go
with the context. -/
def Hart.savedAway (h : Hart) : Hart :=
  let h := h.dropWindows.closeStreams
  { h with
    dev := { h.dev with grant := 0 }
    ctl := { h.ctl with saving := true, wlen := 0 }
    run := { h.run with turn := none, word0 := 0, panel := none, arrival := none } }

/-- What is kept of a context that is saved: word 0 and the panel of its task, the state of its streams and the targets'
virtual addresses of its windows (assumption 31). -/
def keepTask (s : State) (h : Nat) : State :=
  let x := s.hartAt h
  let new : Away := { part := partOf s h, handle := x.dev.task, base := x.ctl.saveBase, word0 := x.run.word0,
                      panel := x.run.panel, streams := x.run.streams,
                      targets := x.run.windows.map (Option.map Window.target) }
  s.modDie (dieOf h) (fun d => { d with away := new :: d.away })

/-- A halted hart before its record is written: PCAUSE 3, held by nothing, pending user-level interrupts discarded. -/
def Hart.beforeSave (h : Hart) : Hart :=
  { h with
    ctl := { h.ctl with
      pcause := 3
      heldShed := false
      heldQuiesce := false
      asks := false
      recordOk := false
      shedDue := false
      done := false
      serr := false }
    run := { h.run with uiPend := [] } }

/-- A write of a hart's record has not been performed yet. -/
def recordBusy (s : State) (h : Nat) : Bool :=
  (unsettled s).any (fun m => m.slot == 2 && m.hart == h) || s.coh.remote.any (fun r => r.hart == h && r.slot == 17)

/-- The record is performed: DONE is set (R362), unless a write of it was refused. -/
def finishSave (h : Nat) (s : State) : State :=
  if recordBusy s h then s
  else s.modHart h (fun x => x.withCtl (fun c => { c with saving := false, preempt := false, done := !c.serr }))

/-- The record of a halted hart is written, or the write faults (R362). -/
def saveContext (h : Nat) (s : State) : State :=
  let s := (settleStreams h (endLeases h s)).modHart h Hart.beforeSave
  let a := (s.hartAt h).ctl.saveBase.toNat
  let bs := recordBytes s h
  if spanOwned s (partOf s h) a bs.length then
    finishSave h ((keepTask (storePhys { hart := h, scalar := true } (partOf s h) a bs s) h).modHart h Hart.savedAway)
  else s.modHart h (fun x => x.withCtl (fun c => { c with serr := true, preempt := false }))

/-- Whether the record of a hart can be written now: its stores are performed and no region of the record waits. -/
def saveReady (s : State) (h : Nat) : Bool :=
  let x := s.hartAt h
  !(holdsHalt s h) && !(passWaits s h) && !((s.dieAt (dieOf h)).deliveries.any (fun d => d.hart == h))
  && spanReady s x.ctl.saveBase.toNat (recordLen (x.declared.map Window.size) x.grantTiles)

/-- PREEMPT_HALT: a hart that is to be pre-empted, or halted by the grace's end or a forced quiesce, stops at element
boundary `b` of its word or where it is (R362, R363, R370). A hart already parked is saved as it stands. -/
def execPreemptHalt (h b : Nat) (s : State) : Host.Outcome State Fault Refusal :=
  let c := (s.hartAt h).ctl
  if kindOf h ≠ .compute || !(c.preempt || c.shedDue) then .next s
  else if c.parked then
    if !c.preempt then
      .next (endForce (clusterOf h) (s.modHart h (fun x => x.withCtl (fun c => { c with shedDue := false }))))
    else if c.saving then .next (finishSave h s)
    else if saveReady s h then .next (saveContext h s) else .next s
  else if c.asks || holdsHalt s h || passWaits s h then .next s
  else
    let t := asAgent h (runBounded b) s
    if (t.hartAt h).ctl.parked || holdsHalt t h then .next t
    else if c.preempt then
      if saveReady t h then .next (saveContext h (haltHart h 3 t)) else .next t
    else .next (heldHalt h t)

/-! ## Restore (R365) -/

/-- A restored stream (R191). Its mode, the rounding in force at its sopen and the flags of an ordered fold so far stand in no
part of the record: they are what was kept of the saved context (assumption 31), and free values where nothing was
(assumption 30). -/
def restoredStream (e : Env) (kept : Option Stream) (vtype : Word) (free : Nat) (at' : Nat) (w : Nat → Word) : Stream :=
  match kept with
  | some k =>
    { openStream e k.vtype w k.mode (fieldOf (w 0) 32 32) (bv 64 at') with flags := if k.mode = 1 then k.flags else 0 }
  | none =>
    let mode := if fieldOf (w 0) 6 2 = 1 && fieldOf (w 0) 0 4 < 8 then free % 3 else 0
    { openStream e vtype w (bv 2 mode) (fieldOf (w 0) 32 32) (bv 64 at') with flags := bv 6 (free / 3) }

/-- A restored window with its new place (R216). The virtual address of its target is not in the record: it is what was kept of
the saved context (assumption 31), and where nothing was, all but its offset in the page is a free value (assumption 30). -/
def restoredWindow (kept : Option Word) (st : Word) (pa0 pa1 : Word) (wbase free : Nat) : Window :=
  let size := fieldOf st 0 14
  let k := firstPart pa0.toNat size
  { op := bv 3 (fieldOf st 58 3), canonical := bitOf st 61, fmt := bv 4 (fieldOf st 54 4), size := size,
    wbase := bv 10 wbase, target := kept.getD (bv 64 (free * 16384 + pa0.toNat % 16384)), pa0 := pa0.toNat,
    pa1 := if pa1 = 0 then pa0.toNat + k else pa1.toNat, crosses := pa1 ≠ 0 }

/-- A B buffer of the record. -/
def restoredBbuf (s : State) (a : Nat) : BBuf :=
  { loaded := physNat s (a + 2080) 1 = 1, fmt := bv 4 (physNat s (a + 2081) 1), data := bv 16640 (physNat s a 2080) }

/-- A tile of the record; `first` is found from the split tiles below it (assumption 32). -/
def restoredTile (s : State) (a first : Nat) : Tile :=
  let g (off n : Nat) : Nat := physNat s (a + off) n
  { vals := bv 8192 (g 0 1024), mode := .ofCode (g 1024 1), s := g 1025 1, first := first,
    badRows := bv 2 (g 1026 1), badCols := bv 16 (g 1028 2),
    ea := .ofFn (fun i => bv 16 (g (1032 + 2 * i.val) 2)), eb := .ofFn (fun i => bv 16 (g (1036 + 2 * i.val) 2)) }

/-- Tiles from `i` on of a record's `n`, where `below` says how many tiles of the same split stand just below. -/
def restoredTiles (s : State) (a : Nat) : Nat → Nat → Nat × Nat → List Tile
  | 0, _, _ => []
  | n + 1, i, (run, last) =>
    let t := restoredTile s (a + 1088 * i) 0
    let run := if t.mode = .split && t.s = last then run else 0
    let t := if t.mode = .split then { t with first := run % max 1 (splitTiles t.s) } else t
    t :: restoredTiles s a n (i + 1) (if t.mode = .split then (run + 1, t.s) else (0, 0))

/-- The registers of a record's fixed part written to a hart. -/
def Hart.loadRecord (h : Hart) (w : Nat → Word) (reg : Nat → VReg) : Hart :=
  let x : Vector Word 32 := .ofFn (fun i => if i.val = 0 then 0 else w (0x18 + 8 * (i.val - 1)))
  let h := { h with
    x := x
    f := .ofFn (fun i => w (0x110 + 8 * i.val))
    fcsr := (w 0x210).setWidth 8
    shadow := .ofFn (fun i => w (0x288 + 8 * i.val)) }
  let h := h.configure (w 0x220) (some (w 0x218))
  { h with
    vec := { h.vec with
      velem := (w 0x228).setWidth 14
      vpfx := (w 0x230).setWidth 12
      vfflags := (w 0x238).setWidth 6
      vftrap := (w 0x240).setWidth 6
      v := .ofFn (fun i => reg i.val)
      m := .ofFn (fun i => reg (32 + i.val)) }
    dev := { h.dev with
      task := w 0x248
      chan := w 0x250 &&& 0x7FFF#64
      domain := domainValue (w 0x258)
      held := bv 1 (fieldOf (w 0x268) 2 1)
      uivec := w 0x270 &&& ~~~2#64
      uicause := w 0x278 &&& 0x80000000000003FF#64
      uiepc := w 0x280 &&& ~~~3#64 } }

/-- The allocation of the record's windows in the reservation, in ascending order; none where they do not fit. -/
def placeWindows (h : Hart) (kept : Option Away) (w : Nat → Word) (free : Nat → Nat) : List Nat → Option Hart
  | [] => some h
  | i :: r =>
    let st := w (0x3C8 + 16 * i)
    if fieldOf st 62 2 ≠ 1 then placeWindows h kept w free r
    else match allocate h (fieldOf st 0 14) with
      | none => none
      | some b =>
        let va := kept.bind (fun k => (k.targets[i]?).getD none)
        let x := restoredWindow va st (w (0x3D0 + 16 * i)) (w (0x408 + 8 * i)) b (free i)
        placeWindows (h.setWindow i (some x)) kept w free r

/-- Whether a record's header, window words and length agree. -/
def recordGood (w : Nat → Word) : Bool :=
  let hd := w 0
  let st (i : Nat) : Word := w (0x3C8 + 16 * i)
  let sizes := ((List.range 4).filter (fun i => bitOf hd (4 + i))).map (fun i => fieldOf (st i) 0 14)
  let tiles := fieldOf (w 0x260) 0 4
  fieldOf hd 11 21 = 0 && fieldOf hd 9 2 ≠ 2 && tiles ≤ 8 && fieldOf hd 32 32 = recordLen sizes tiles
  && (List.range 4).all (fun i => decide (fieldOf (st i) 62 2 = (bitOf hd (4 + i)).toNat))
  && sizes.all (fun n => decide (n ≠ 0 && n ≤ 8192 && n % 8 = 0))

/-- Lane copies written back to the new places. -/
def restoreLanes (h : Nat) : List Window → Nat → State → State
  | [], _, s => s
  | x :: r, a, s =>
    let bs := physBytes s a (16 * x.size)
    restoreLanes h r (a + 16 * x.size) (s.store { hart := h, scalar := false } (laneAddr h x.wbase.toNat 0 0) bs)

/-- Tiles written from tile `f` on. -/
def CoreSt.setTiles (k : CoreSt) : Nat → List Tile → CoreSt
  | _, [] => k
  | f, t :: r => (k.setTile f t).setTiles (f + 1) r

/-- The words of the record of a hart. -/
def recordWord (s : State) (h off : Nat) : Word := bv 64 (physNat s ((s.hartAt h).ctl.saveBase.toNat + off) 8)

/-- GRANT.TILES of the record. -/
def recordTiles (s : State) (h : Nat) : Nat := fieldOf (recordWord s h 0x260) 0 4

/-- Whether the record of a hart can be read and is consistent. -/
def recordValid (s : State) (h : Nat) : Bool :=
  let a := (s.hartAt h).ctl.saveBase.toNat
  let p := partOf s h
  let n := fieldOf (recordWord s h 0) 32 32
  spanOwned s p a 1072 && recordGood (recordWord s h) && spanOwned s p a n && !(spanPoisoned s a n)
  && !(s.coh.remote.any (fun r => r.hart == h && r.slot == 18 && r.failed))

/-- The first tile of a run for the record's grant; the tiles of the hart's own grant count as free. -/
def recordRun (s : State) (h : Nat) : Option Nat :=
  let x := s.hartAt h
  if recordTiles s h = 0 then some 0
  else freeTiles (s.setHartAt h { x with dev := { x.dev with grant := 0 } }) (coreOf h) (recordTiles s h)

/-- The offset of the record's tiles, behind the lane copies of windows. -/
def tilesOffset (ws : List Window) : Nat := ws.foldl (fun n k => n + 16 * k.size) 0xA800

/-- What was kept of the context in the record of a hart, on any die: that of the same place and task first, else that of the
same task, saved last. -/
def keptOf (s : State) (h : Nat) : Option Away :=
  let all := s.dies.flatMap (fun d => d.2.away)
  let task := recordWord s h 0x248
  let mine := all.filter (fun a => a.part == partOf s h && a.handle == task)
  match mine.find? (fun a => a.base == (s.hartAt h).ctl.saveBase) with
  | some a => some a
  | none => mine.head?

/-- One of several entries of equal tasks is gone once its context is restored; the last one stays for a record that is
restored again. -/
def forgetKept (a : Option Away) (s : State) : State :=
  match a with
  | none => s
  | some k =>
    if 2 ≤ (s.dies.flatMap (fun d => d.2.away.filter (fun b => b.part == k.part && b.handle == k.handle && b.base == k.base))).length
    then { s with dies := s.dies.map (fun d => (d.1, { d.2 with away := d.2.away.erase k })) }
    else s

/-- The streams of the record of a hart that resumes with the registers of `y` in a mode. -/
def recordStream (s : State) (h : Nat) (y : Hart) (mode : Priv) (i : Nat) : Option Stream :=
  let e : Env := { envOf s h false with priv := mode }
  let at' := 0x2C8 + 64 * i
  if bitOf (recordWord s h 0) i then
    some (restoredStream e ((keptOf s h).bind (fun k => (k.streams[i]?).getD none)) y.vec.vtype (Config.freeNat (s.fresh + 4 + i)) (y.ctl.saveBase.toNat + at')
      (fun k => recordWord s h (at' + 8 * k)))
  else none

/-- What stands behind the registers of the record: streams, turn, B buffers, and what the Carder kept of the task. -/
def Run.restored (r : Run) (s : State) (h b : Nat) (y : Hart) (mode : Priv) : Run :=
  let away := keptOf s h
  let q := recordStream s h y mode
  let turn := recordWord s h 8
  { r with
    streams := #v[q 0, q 1, q 2, q 3]
    turn := if bitOf (recordWord s h 0) 8 then some (fieldOf turn 0 32, fieldOf turn 32 32) else none
    bbufs := #v[restoredBbuf s b, restoredBbuf s (b + 2112)]
    word0 := (away.map Away.word0).getD 0
    panel := away.bind Away.panel
    arrival := none
    badRegs := []
    pfxOwn := false }

/-- A hart, its windows placed, with the rest of the record in its registers: `f` is the first tile of its grant. -/
def contextOf (s : State) (h f : Nat) (y : Hart) : Hart :=
  let a := y.ctl.saveBase.toNat
  let tiles := recordTiles s h
  let b := a + tilesOffset y.declared + 1088 * tiles
  let pc := recordWord s h 16
  let y := y.loadRecord (recordWord s h) (fun i => bv 8192 (physNat s (a + 2048 + 1024 * i) 1024))
  let mode := Priv.ofCode (fieldOf (recordWord s h 0) 9 2)
  { y with
    pc := pc
    dev := { y.dev with grant := if tiles = 0 then 0 else bv 7 (f * 16 + tiles) }
    ctl := { y.ctl with rpc := pc, mode := mode, recordOk := true }
    run := y.run.restored s h b y mode }

/-- The record of a hart, its windows placed in `y` and its grant from tile `f` on, taken into the hart. -/
def takeContext (h f : Nat) (y : Hart) (s : State) : State :=
  let a := y.ctl.saveBase.toNat
  let ws := y.declared
  let y := contextOf s h f y
  let ts := restoredTiles s (a + tilesOffset ws) (recordTiles s h) 0 (0, 0)
  let k := s.coreAt (coreOf h)
  let k := { k with passing := k.passing.filter (fun p => p.1 ≠ h % 4) }
  let s := s.setCoreAt (coreOf h) (k.setTiles f ts)
  let s := forgetKept (keptOf s h) (s.setHartAt h y)
  restoreLanes h ws (a + 0xA800) { s with fresh := s.fresh + 8 }

/-- RST of a restore, with the state where it is OK. -/
inductive Restored | ok (s : State) | busy | bad

/-- The restore of a hart (R365). -/
def restoreContext (h : Nat) (s : State) : Restored :=
  if !(recordValid s h) then .bad
  else match placeWindows (s.hartAt h).dropWindows (keptOf s h) (recordWord s h) (fun i => Config.freeNat (s.fresh + i)) [0, 1, 2, 3] with
    | none => .bad
    | some y => match recordRun s h with
      | none => .busy
      | some f => .ok (takeContext h f y s)

/-- The bytes of a record that a restore needs next: its fixed part, then as many as its LEN says. -/
def recordNeed (s : State) (h : Nat) : Nat :=
  let a := (s.hartAt h).ctl.saveBase.toNat
  if partsHere s h a 0xA800 then min 0x40000 (max 0xA800 (fieldOf (recordWord s h 0) 32 32)) else 0xA800

/-- A restore can end, or go on to read its record on another module. -/
def restoreDue (s : State) (h : Nat) : Bool :=
  let c := (s.hartAt h).ctl
  let a := c.saveBase.toNat
  let n := recordNeed s h
  c.restore && c.parked && spanReady s a n
  && (partsHere s h a n || !(spanOwned s (partOf s h) a n) || (farParts s a n).any (fun b => (partRead s h b).isNone))

/-- RESTORE_COMPLETE: the restore ends with RST. -/
def execRestoreComplete (h : Nat) (s : State) : Host.Outcome State Fault Refusal :=
  let finish (rst : Nat) (s : State) : State :=
    (settleReads h 18 s).modHart h (fun x => x.withCtl (fun c => { c with restore := false, rst := bv 2 rst }))
  let a := (s.hartAt h).ctl.saveBase.toNat
  let n := recordNeed s h
  if !(restoreDue s h) then .next s
  else if !(partsHere s h a n) && spanOwned s (partOf s h) a n then .next (askParts h a n s)
  else match restoreContext h s with
    | .ok t => .next (finish 1 t)
    | .busy => .next (finish 2 s)
    | .bad => .next (finish 3 s)

end Sys2Proof.Machine
end

