-- ==== Sys2Proof/Machine/Collective.lean ====
section
/-! DEFINITION. The collective routines of die Milliners (spec/19, R398-R403). What an exchange looks like in a receive
area is the model's own (assumption 35): a bank's first 64 bytes hold one entry for each stage, zero until the stage's exchange
has come and then odd, which carries the parameters; the values of stage j follow at 64 + j × COUNT × E. -/

namespace Sys2Proof.Machine

/-! ## Parameters (R399, R402) -/

/-- The bytes of an element. -/
def CollRun.size (c : CollRun) : Nat := sewOf c.fmt / 8
/-- A participant's block index (R400). -/
def CollRun.index (c : CollRun) (p : Participant) : Nat := p.leaf / 2 ^ c.blk
/-- The own participant. -/
def CollRun.me (c : CollRun) : Participant := (c.group[c.own]?).getD ⟨0, 0, 0, 0, 0⟩
/-- The number of stages (R401). -/
def CollRun.stages (c : CollRun) : Nat := ceilLog2 (c.group.foldl (fun m p => max m (c.index p)) 0 + 1)
/-- The bank of a participant that the collective's SEQ uses. -/
def CollRun.bank (c : CollRun) (p : Participant) : Nat :=
  p.recv + c.seq % 2 * (64 + c.stages * c.count * c.size)

/-- The block indices are 0 to NPART − 1 and NPART is a power of two. -/
def CollRun.full (c : CollRun) : Bool :=
  2 ^ Nat.log2 c.group.length = c.group.length && c.group.map c.index = List.range c.group.length

/-- A reduction that runs by halving and then gathers (R401). -/
def CollRun.large (c : CollRun) : Bool := c.routine ≠ 0x0042 && 4096 < c.count * c.size && c.full

/-- The entries of a bank. -/
def CollRun.entries (c : CollRun) : Nat := max 1 (if c.large then 2 * c.stages else c.stages)
/-- The bytes of an entry. -/
def CollRun.entryBytes (c : CollRun) : Nat := min 10 (64 / c.entries)

/-- The parameters that every exchange carries (R402): SEQ, COUNT, the number of the routine, FMT, OP and LOG2BLK. -/
def CollRun.params (c : CollRun) : Nat :=
  c.seq + c.count * 2 ^ 32 + (c.routine % 4) * 2 ^ 64 + c.fmt * 2 ^ 66 + c.op * 2 ^ 69 + c.blk * 2 ^ 71

/-- The entry of an exchange: its parameters, or where they do not fit a check code over them. -/
def CollRun.header (c : CollRun) : List Byte :=
  let w := c.entryBytes
  toBytes w (1 + 2 * (if w = 10 then c.params else crc64 (toBytes 10 c.params)))

/-- An entry of the group table; none where a reserved bit is set or RECV is misaligned. -/
def participantOf (w0 w1 : Word) : Option Participant :=
  if fieldOf w0 12 20 ≠ 0 || w1.toNat % 64 ≠ 0 then none
  else some ⟨fieldOf w0 0 6, fieldOf w0 6 3, fieldOf w0 9 3, fieldOf w0 32 32, w1.toNat⟩

/-- The entries of a group table. -/
def groupOf : List Word → Option (List Participant)
  | w0 :: w1 :: r =>
    match participantOf w0 w1, groupOf r with
    | some p, some l => some (p :: l)
    | _, _ => none
  | _ => some []

/-- Whether leaves rise strictly, each a multiple of the block. -/
def leavesRise (blk : Nat) : List Participant → Bool
  | p :: q :: r => p.leaf % 2 ^ blk = 0 && p.leaf < q.leaf && leavesRise blk (q :: r)
  | [p] => p.leaf % 2 ^ blk = 0
  | [] => true

/-- The block's words that end the kick with STATUS 3. -/
def collBlockBad (w : Nat → Word) : Bool :=
  fieldOf (w 0) 16 48 ≠ 0 || bitOf (w 5) 3 || 3 ≤ fieldOf (w 5) 4 3 || bitOf (w 5) 7 || 17 ≤ fieldOf (w 5) 8 5
  || fieldOf (w 5) 13 3 ≠ 0 || fieldOf (w 5) 20 44 ≠ 0 || (w 6).toNat % 64 ≠ 0 || fieldOf (w 7) 32 32 ≠ 0

/-- The module's own index. -/
def ownModule (s : State) : Nat := if s.chr.valid then s.chr.modIdx.toNat else 0

/-- Whether the group, with the own place in it, is not one that R402 admits. -/
def groupBad (c : CollRun) : Bool :=
  let n := c.group.length
  !(leavesRise c.blk c.group) || (c.routine = 0x0041 && (!c.full || c.count % n ≠ 0))

/-- The run of a collective from its block and table; none for STATUS 3. -/
def collOf (s : State) (m : Nat) (w : Nat → Word) (hdr : Word) (entries : List Word) : Option CollRun :=
  if collBlockBad w || fieldOf hdr 6 58 ≠ 0 then none
  else match groupOf entries with
    | none => none
    | some g =>
      let i := m - 9528
      match g.findIdx? (fun p => p.mod = ownModule s && p.die = i / 8 && p.md = i % 8) with
      | none => none
      | some own =>
        let c : CollRun := { routine := fieldOf (w 0) 0 16, src := (w 1).toNat, dst := (w 2).toNat,
                             count := fieldOf (w 4) 0 32, seq := fieldOf (w 4) 32 32, fmt := fieldOf (w 5) 0 4,
                             op := fieldOf (w 5) 4 3, blk := fieldOf (w 5) 8 5, x := fieldOf (w 5) 16 4,
                             group := g, own := own, stage := 0, vals := [], flags := 0, sent := 0, since := s.ccOf m }
        if groupBad c then none else some c

/-! ## Begin -/

/-- Reading elements of SRC. -/
def readElems (e : Env) (sew : Nat) : Nat → Nat → Act (List Word)
  | 0, _ => fun s => .ok [] s
  | n + 1, a => do
    let x ← readElem e [elemPart sew a]
    let r ← readElems e sew n ((a + sew / 8) % 2 ^ 64)
    return bv 64 x :: r

/-- The participant's own values, read after the acquire. -/
def loadSource (m : Nat) (k : Kick) (c : CollRun) (s : State) : State :=
  match readElems (kickEnv m k) (sewOf c.fmt) c.count c.src s with
  | .error x s => stopRoutine m 1 false x s
  | .ok vs s => setRun m (.collective { c with vals := vs, parts := [(c.own, vs)] }) (settleReads m 0 s)

/-- A collective begins: its block and group table are read and checked. -/
def beginColl (m : Nat) (k : Kick) (s : State) : State :=
  if kindOf m ≠ .dieMilliner then endRoutine m 5 false s
  else match blockWords m k 8 s with
    | .error x s => stopRoutine m 4 false x s
    | .ok ws s =>
      let w (i : Nat) : Word := (ws[i]?).getD 0
      let e := kickEnv m k
      let load : Act (Word × List Word) := do
        let h ← loadVa e .load (w 6).toNat 8
        let n := h % 64 + 1
        let l ← loadWords e .load (2 * n) (((w 6).toNat + 8) % 2 ^ 64)
        return (bv 64 h, l)
      let s := noteBlock m ws s
      if collBlockBad w then finishRoutine m 3 false s
      else match load s with
        | .error x s => stopRoutine m 1 false x s
        | .ok (h, l) s =>
          let s := settleReads m 0 s
          match collOf s m w h l with
          | none => endRoutine m 3 false s
          | some c => loadSource m k c s

/-- The beginning of one of the three routines. -/
def collEvent (id m : Nat) (s : State) : Host.Outcome State Fault Refusal :=
  onRoutine m (fun k r => if r = .selected id then beginColl m k s else s) s

/-- ALL_REDUCE. -/
def execAllReduce (m : Nat) : State → Host.Outcome State Fault Refusal := collEvent 0x0040 m
/-- REDUCE_SCATTER. -/
def execReduceScatter (m : Nat) : State → Host.Outcome State Fault Refusal := collEvent 0x0041 m
/-- ALL_GATHER. -/
def execAllGather (m : Nat) : State → Host.Outcome State Fault Refusal := collEvent 0x0042 m

/-! ## Exchanges (R401) -/

/-- The bitwise partner index of a stage. -/
def flipBit (i j : Nat) : Nat := i ^^^ 2 ^ j

/-- Who sends a participant its partner block's value at a stage: the one at its index XOR 2^j, or the lowest of the
partner block. -/
def CollRun.senderTo (c : CollRun) (p : Participant) (j : Nat) : Option Participant :=
  let i := flipBit (c.index p) j
  match c.group.find? (fun q => c.index q = i) with
  | some q => some q
  | none => c.group.find? (fun q => c.index q / 2 ^ j = i / 2 ^ j)

/-- The next and the previous participant of the ring of an all-gather. -/
def CollRun.after (c : CollRun) : Participant := (c.group[(c.own + 1) % c.group.length]?).getD c.me

/-- The elements that index `i` holds after `n` halvings: its first one and their number. -/
def CollRun.range (c : CollRun) (i : Nat) : Nat → Nat × Nat
  | 0 => (0, c.count)
  | n + 1 =>
    let (lo, len) := c.range i n
    let half := (len + 1) / 2
    if i / 2 ^ n % 2 = 0 then (lo, half) else (lo + half, len - half)

/-- The step of a large reduction at a stage: the distance's logarithm, and whether it gathers (R401). -/
def CollRun.phase (c : CollRun) : Nat × Bool :=
  if c.stage < c.stages then (c.stage, false) else (2 * c.stages - 1 - c.stage, true)

/-- The elements a stage sends to a participant of index `i`. -/
def CollRun.sends (c : CollRun) (i : Nat) : Nat × Nat :=
  let (j, gather) := c.phase
  if !c.large then (0, c.count)
  else if gather then c.range (c.index c.me) (j + 1)
  else c.range i (j + 1)

/-- The receivers of a stage. -/
def CollRun.receivers (c : CollRun) : List Participant :=
  if c.routine = 0x0042 then [c.after]
  else if c.large then c.group.filter (fun p => c.index p == flipBit (c.index c.me) c.phase.1)
  else c.group.filter (fun p => c.senderTo p c.stage == some c.me)

/-- The number of a stage's entry: an all-gather uses them in turn. -/
def CollRun.entry (c : CollRun) : Nat := if c.routine = 0x0042 then c.stage % max 1 c.stages else c.stage

/-- The slot of a stage's values. -/
def CollRun.slot (c : CollRun) : Nat := if c.large then c.phase.1 else c.entry

/-- The last stage has been passed. -/
def CollRun.done (c : CollRun) : Bool :=
  if c.routine = 0x0042 then c.group.length ≤ c.stage + 1
  else if c.large then 2 * c.stages ≤ c.stage
  else c.stages ≤ c.stage

/-- Where a stage's entry stands in a participant's bank. -/
def CollRun.entryAt (c : CollRun) (p : Participant) : Nat := c.bank p + c.entryBytes * c.entry
/-- Where element `i` of a stage's values stands in a participant's bank. -/
def CollRun.valueAt (c : CollRun) (p : Participant) (i : Nat) : Nat := c.bank p + 64 + (c.slot * c.count + i) * c.size

/-- A store of at most 64 bytes to a receive area, on this module or another. -/
def storePiece (e : Env) (a : Nat) (bs : List Byte) : Act Unit := fun s =>
  match regionOf s a with
  | .far _ => remoteWrite e .store a a bs s
  | .own =>
    if ownerOf s a = e.part then .ok () (s.pushStore { hart := e.who, scalar := false } a bs)
    else .error (.trap 7 (bv 64 a)) s
  | _ => .error (.trap 7 (bv 64 a)) s

/-- A store of bytes to a receive area in pieces that stay in aligned 64-byte blocks, at most `n` of them. -/
def storePieces (e : Env) : Nat → Nat → List Byte → Act Unit
  | 0, _, _ => fun s => .ok () s
  | n + 1, a, bs =>
    if bs.isEmpty then fun s => .ok () s
    else do
      storePiece e a (bs.take (64 - a % 64))
      storePieces e n (a + (64 - a % 64)) (bs.drop (64 - a % 64))

/-- The values of a stage go to its receivers. -/
def sendValues (e : Env) (c : CollRun) : Act Unit :=
  actEach (fun p =>
    let (lo, len) := c.sends (c.index p)
    let bs := ((c.vals.drop lo).take len).flatMap (fun v => toBytes c.size v.toNat)
    storePieces e (bs.length / 64 + 2) (c.valueAt p lo) bs) c.receivers

/-- The entry of a stage goes to its receivers. -/
def sendFlags (e : Env) (c : CollRun) : Act Unit := actEach (fun p => storePiece e (c.entryAt p) c.header) c.receivers

/-- Whether the entry that an all-gather uses at the next participant is free again. -/
def slotFree (e : Env) (c : CollRun) : Act Bool := fun s =>
  let a := c.entryAt c.after
  if c.routine ≠ 0x0042 then .ok true s
  else match regionOf s a with
    | .far _ => match remoteAtomic e 1 0 a (a / 8 * 8) 8 [] s with
      | .ok v s => .ok (v / 256 ^ (a % 8) % 256 = 0) s
      | .error x s => .error x s
    | _ => .ok (readByte s.mem (placed s a) = 0) s

/-- Two values combined, the lower block's first, with the flags of an addition (R400). -/
def CollRun.combine (c : CollRun) (a b : Nat) : Nat × Ev :=
  let n := sewOf c.fmt
  if c.fmt < 4 then
    match c.op with
    | 0 => ((a + b) % 2 ^ n, 0)
    | 1 => (if signedOf n a ≤ signedOf n b then a else b, 0)
    | _ => (if signedOf n a ≤ signedOf n b then b else a, 0)
  else
    let f := floatFmt c.fmt
    match c.op with
    | 0 => addCodes (nearestEven f) a b
    | 1 => ((minMaxFloat f false a b).1, 0)
    | _ => ((minMaxFloat f true a b).1, 0)

/-- The own values with those from element `lo` on replaced. -/
def CollRun.patch (c : CollRun) (lo : Nat) (vs : List Word) : CollRun :=
  { c with vals := c.vals.take lo ++ vs ++ c.vals.drop (lo + vs.length) }

/-- Received values combined with the own ones from element `lo` on; `low` says that the partner's block is the lower. -/
def CollRun.absorb (c : CollRun) (low : Bool) (lo : Nat) (vs : List Nat) : CollRun :=
  let own := (c.vals.drop lo).take vs.length
  let r := (own.zip vs).map (fun p => if low then c.combine p.2 p.1.toNat else c.combine p.1.toNat p.2)
  { c.patch lo (r.map (fun x => bv 64 x.1)) with flags := r.foldl (fun f x => f ||| x.2) c.flags }

/-- The next stage. -/
def CollRun.next (c : CollRun) : CollRun := { c with stage := c.stage + 1, sent := 0 }

/-- The elements that a stage receives. -/
def CollRun.receives (c : CollRun) : Nat × Nat :=
  let (j, gather) := c.phase
  let i := c.index c.me
  if !c.large then (0, c.count)
  else if gather then c.range (flipBit i j) (j + 1)
  else c.range i (j + 1)

/-- A stage's exchange is taken: what comes from the lower or the upper block is combined, what a gathering brings is
kept. -/
def CollRun.take (c : CollRun) (vs : List Nat) : CollRun :=
  let (lo, _) := c.receives
  let (j, gather) := c.phase
  let i := c.index c.me
  let words := vs.map (bv 64)
  let n := c.group.length
  if c.routine = 0x0042 then
    { c with
      vals := words
      parts := c.parts ++ [((c.own + n - 1 - c.stage % n) % n, words)] }.next
  else if c.large && gather then (c.patch lo words).next
  else
    let j := if c.large then j else c.stage
    (c.absorb (flipBit i j / 2 ^ j < i / 2 ^ j) lo vs).next

/-- An exchange has come: its parameters are compared, its values are taken, and its entry is free again. -/
def receiveExchange (m : Nat) (c : CollRun) (s : State) : State :=
  let a := placed s (c.entryAt c.me)
  let (lo, len) := c.receives
  let v := c.valueAt c.me lo
  if readBytes s.mem c.entryBytes a ≠ c.header then finishRoutine m 11 false s
  else if spanPoisoned s v (len * c.size) then
    stopRoutine m 1 false (.uncorrectable 5 (bv 64 v) (unitOf s v) v) s
  else
    let vs := (List.range len).map (fun i => physNat s (v + i * c.size) c.size)
    setRun m (.collective (c.take vs))
      (s.pushStore { hart := m, scalar := false } (c.entryAt c.me) (List.replicate c.entryBytes 0))

/-- The bytes of the result with their addresses at DST, addresses rising (R400). -/
def CollRun.result (c : CollRun) : List (Nat × Byte) :=
  let n := c.group.length
  let bytes (l : List Word) : List Byte := l.flatMap (fun v => toBytes c.size v.toNat)
  let place (off : Nat) (l : List Word) : List (Nat × Byte) :=
    (bytes l).zipIdx.map (fun p => ((c.dst + off * c.size + p.2) % 2 ^ 64, p.1))
  if c.routine = 0x0042 then
    (List.range n).flatMap (fun k => place (k * c.count) (((c.parts.find? (fun p => p.1 == k)).map Prod.snd).getD []))
  else if c.routine = 0x0041 then place 0 ((c.vals.drop (c.own * (c.count / n))).take (c.count / n))
  else place 0 c.vals

/-- The result goes to DST, each word of it by one store (R294, R400); at most `n` words. -/
def writeResult (m : Nat) (k : Kick) (c : CollRun) : Nat → List (Nat × Byte) → State → State
  | 0, l, s => setRun m (.collective { c with out := some l }) s
  | n + 1, l, s =>
    match l with
    | [] => finishRoutine m 0 false s
    | (a, _) :: _ =>
      let here (p : Nat × Byte) : Bool := p.1 / 8 == a / 8
      if c.dst % c.size ≠ 0 then stopRoutine m 2 false (.trap 6 (bv 64 c.dst)) s
      else match storeMasked (kickEnv m k) (l.filter here) s with
        | .error x s => stopRoutine m 2 false x (setRun m (.collective { c with out := some l }) s)
        | .ok _ s => writeResult m k c n (l.filter (fun p => !(here p))) s

/-- One step of a collective: its values are sent, then its entries once the values are performed, then the stage's
exchange is awaited. An empty partner block passes the value on unchanged. -/
def exchange (m : Nat) (k : Kick) (c : CollRun) (s : State) : State :=
  let e := kickEnv m k
  if c.done then
    let l := c.out.getD c.result
    writeResult m k c (l.length + 1) l s
  else if c.sent = 0 then
    match slotFree e c s with
    | .error x s => stopRoutine m 2 false x s
    | .ok free s =>
      if !free then s
      else match sendValues e c s with
        | .error x s => stopRoutine m 2 false x s
        | .ok _ s => setRun m (.collective { c with sent := 1 }) s
  else if c.sent = 1 then
    if remoteUnacked s m || unacknowledged s m then s
    else match sendFlags e c s with
      | .error x s => stopRoutine m 2 false x s
      | .ok _ s => setRun m (.collective { c with sent := 2, since := s.ccOf m }) s
  else if c.routine ≠ 0x0042 && !c.large && (c.senderTo c.me c.stage).isNone then setRun m (.collective c.next) s
  else if readByte s.mem (placed s (c.entryAt c.me)) = 0 then s
  else receiveExchange m c s

/-- COLLECTIVE_EXCHANGE. -/
def execCollectiveExchange (m : Nat) (s : State) : Host.Outcome State Fault Refusal :=
  onRoutine m (fun k r => match r with
    | .collective c => exchange m k c s
    | _ => s) s

/-- Whether a participant has waited for its exchange for as long as X allows. -/
def CollRun.late (c : CollRun) (cc : Nat) : Bool := c.sent = 2 && !c.done && c.since + 2 ^ (2 * c.x + 8) ≤ cc

/-- COLLECTIVE_TIMEOUT (R402). -/
def execCollectiveTimeout (m : Nat) (s : State) : Host.Outcome State Fault Refusal :=
  onRoutine m (fun _ r => match r with
    | .collective c => if c.late (s.ccOf m) then finishRoutine m 10 false s else s
    | _ => s) s

end Sys2Proof.Machine
end

