-- ==== Sys2Proof/Machine/Home.lean ====
section
/-! DEFINITION. The messages of the coherence protocol as they arrive (spec/13, R278-R282; spec/08, R193, R194), the
displacement of directory entries, unresponsive and dead agents (spec/17, R354, R355), and the end of forwarding
(R353). -/

namespace Sys2Proof.Machine

/-! ## Messages at the home -/

/-- Message `n` of a kind arrives at its home: a stale one is dropped and counted, one for a region that is not copied
yet waits, and `g` says what becomes of the others, none that they wait. -/
def atHome (kind : MsgKind) (n : Nat) (g : Msg → State → Option State) (s : State) : Host.Outcome State Fault Refusal :=
  match takeMsg s kind n with
  | none => .next s
  | some (m, t) =>
    match staleDrop t m with
    | some t => .next t
    | none =>
      match redirect t m with
      | none => .next s
      | some m => .next ((g m t).getD s)

/-- Message `n` of a kind that no migration holds up arrives at its home: an acknowledgement or a notice. -/
def noticeHome (kind : MsgKind) (n : Nat) (g : Msg → State → State) (s : State) : Host.Outcome State Fault Refusal :=
  match takeMsg s kind n with
  | none => .next s
  | some (m, t) =>
    match staleDrop t m with
    | some t => .next t
    | none => .next (g m t)

/-- The Data answer to a request: the committed values of its span. -/
def answerData (m : Msg) (s : State) : State :=
  s.send { m with kind := .data, src := homeNo s m.addr, inc := 0, dst := m.src, data := readBytes s.mem m.len m.addr }

/-- A sharer's request: it is recorded, and Data goes back; a committing word makes it wait. -/
def serveGetS (m : Msg) (s : State) : Option State :=
  if committing s m.addr m.len then none else some (answerData m (recordSharer s m.src m.addr m.len))

/-- HOME_GETS. -/
def execHomeGets (n : Nat) : State → Host.Outcome State Fault Refusal := atHome .getS n serveGetS

/-- HOME_RD. -/
def execHomeRd (n : Nat) : State → Host.Outcome State Fault Refusal :=
  atHome .rd n (fun m s => if committing s m.addr m.len then none else some (answerData m s))

/-- A store or atomic: behind a committing word it waits; behind another agent's lease, or behind what such a lease
already holds up, it is queued; else it is performed. -/
def serveStore (m : Msg) (s : State) : Option State :=
  if committing s m.addr m.len then none else some (if homeBlocks s m then s.enqueue m else perform s m)

/-- HOME_WR. -/
def execHomeWr (n : Nat) : State → Host.Outcome State Fault Refusal := atHome .wr n serveStore
/-- HOME_AMO. -/
def execHomeAmo (n : Nat) : State → Host.Outcome State Fault Refusal := atHome .amo n serveStore

/-- The commit of every store that awaits nobody any more, and of what waited behind it. -/
def commitReady (s : State) : State :=
  settleQueue ((s.coh.commits.filter (fun c => c.awaits.isEmpty)).foldl commitNow s)

/-- An update acknowledgement of agent `y` for a span. -/
def acknowledge (y a n : Nat) (s : State) : State :=
  let one (c : Commit) : Commit :=
    let new : Commit := { c with awaits := c.awaits.filter (fun x => x != y) }
    if overlap c.msg.addr c.msg.len a n then new else c
  commitReady { s with coh := { s.coh with commits := s.coh.commits.map one } }

/-- HOME_UACK: the last acknowledgement commits the store. -/
def execHomeUack (n : Nat) : State → Host.Outcome State Fault Refusal :=
  noticeHome .uack n (fun m => acknowledge m.src m.addr m.len)

/-! ## Messages at sharers and writers -/

/-- Message `n` of a kind arrives at its receiver. -/
def atSharer (kind : MsgKind) (n : Nat) (g : Msg → State → State) (s : State) : Host.Outcome State Fault Refusal :=
  match takeMsg s kind n with
  | none => .next s
  | some (m, t) => .next (g m t)

/-- A sharer's answer to its home. -/
def replyHome (m : Msg) (kind : MsgKind) (s : State) : State :=
  s.send { m with kind := kind, src := m.dst, inc := incOf s m.dst, dst := m.src, data := [] }

/-- SHARER_UPD: the words it holds are held for the store; a sharer that holds none acknowledges all the same. -/
def execSharerUpd (n : Nat) : State → Host.Outcome State Fault Refusal :=
  atSharer .upd n (fun m s =>
    if s.coh.dead.contains m.dst then s
    else replyHome m .uack (s.mapCopies (holdCopies m.dst m.addr m.data.length m.pend)))

/-- SHARER_CMT: the words take the committed bytes, and their mark is cleared. -/
def execSharerCmt (n : Nat) : State → Host.Outcome State Fault Refusal :=
  atSharer .cmt n (fun m s => s.mapCopies (releaseCopies m.dst m.id))

/-- The answer to an atomic at its hart. -/
def answerAtomic (m : Msg) (s : State) : State :=
  let one (r : Remote) : Remote :=
    let new : Remote := { r with answer := some (ofBytes m.data), addr := m.addr }
    if r.hart == m.hart && r.kind == 100 then new else r
  { s with coh := { s.coh with remote := s.coh.remote.map one } }

/-- The copies an atomic's core holds of its words are dropped: it does not know the value written. A Milliner's lease
buffer takes it (R325). -/
def forgetAtomic (m : Msg) (s : State) : State :=
  let s := s.mapCopies (fun l => l.filter (fun c => !(c.agent == m.dst && touches m.addr m.len c.word)))
  if isMilliner m.hart then s.modHart m.hart (fun h => h.patchLeases m.addr (readBytes s.mem m.len m.addr)) else s

/-- WRITER_WACK: the words at the writer's core take the store's bytes and their mark is cleared; an atomic's hart has its
answer. -/
def execWriterWack (n : Nat) : State → Host.Outcome State Fault Refusal :=
  atSharer .wack n (fun m s =>
    if m.atomic then answerAtomic m (forgetAtomic m s) else s.mapCopies (releaseCopies m.dst m.id))

/-! ## Caches (R168, R278) -/

/-- The bytes of a unit of a data cache (a region) or of an instruction cache (a line). -/
def unitBytes (instr : Bool) : Nat := if instr then 64 else 256
/-- The sets of a core's L1D and L1I, of 4 ways (R168). -/
def cacheSets (instr : Bool) : Nat := if instr then 256 else 64

/-- A sharer's notice that it has dropped a span; it is sent when no cache of the agent holds a word of it. -/
def sendEvict (y a n : Nat) (s : State) : State :=
  if s.coh.copies.any (fun c => c.agent == y && touches a n c.word) then s
  else s.send { kind := .evict, src := y, inc := incOf s y, dst := homeNo s a, hart := 0, addr := a, len := n }

/-- A message between an agent and a home about a span is on its way. -/
def spanTravels (s : State) (y a n : Nat) : Bool :=
  s.coh.net.any (fun m => (m.src == y || m.dst == y) && overlap m.addr m.len a n)

/-- A cache drops its unheld words of a unit. -/
def dropUnit (y : Nat) (instr : Bool) (u : Nat) (s : State) : State :=
  let size := unitBytes instr
  let s := s.mapCopies (fun l => l.filter (fun c =>
    !(c.agent == y && c.instr == instr && c.word / size == u && c.held.isEmpty)))
  if spanTravels s y (u * size) size then s else sendEvict y (u * size) size s

/-- A core's cache makes room for a unit: in a full set the unit filled first goes (which one does, the spec does not say:
assumption 10). -/
def makeRoom (y : Nat) (instr : Bool) (u : Nat) (s : State) : State :=
  let k := cacheSets instr
  let units := ((s.coh.copies.filter (fun c => c.agent == y && c.instr == instr)).map
    (fun c => c.word / unitBytes instr)).eraseDups
  let same := units.filter (fun x => x % k == u % k && x != u)
  match same with
  | [] => s
  | x :: _ => if 2304 ≤ y || same.length < 4 then s else dropUnit y instr x s

/-- REQUESTER_DATA: the words of the span are held at the requester. -/
def execRequesterData (n : Nat) : State → Host.Outcome State Fault Refusal :=
  atSharer .data n (fun m s =>
    if s.coh.dead.contains m.dst then s
    else
      let instr := m.slot = 3
      let s := makeRoom m.dst instr (m.addr / unitBytes instr) s
      s.mapCopies (installCopies s m.dst instr m.addr m.data))

/-! ## Dropping and displacing (R281) -/

/-- A sharer's record after it has dropped words `lo` to `hi`: none where nothing is left. -/
def shrinkRecord (lo hi : Nat) (r : Nat × Nat × Nat) : Option (Nat × Nat × Nat) :=
  let (y, a, b) := r
  if lo ≤ a && b ≤ hi then none
  else if lo ≤ a && a ≤ hi then some (y, hi + 1, b)
  else if lo ≤ b && b ≤ hi then some (y, a, lo - 1)
  else some r

/-- The directory entry after a sharer's record has been changed. -/
def changeRecord (y : Nat) (f : Nat × Nat × Nat → Option (Nat × Nat × Nat)) (d : Option DirState) : Option DirState :=
  match d with
  | some (.p rs) =>
    let l := rs.filterMap (fun r => if r.1 = y then f r else some r)
    if l.isEmpty then none else some (.p l)
  | d => d

/-- A sharer drops the words of a span of one region and sends notice (a move of the schedule). While a message between the
two about the span is on its way, or a word is held, nothing is dropped. -/
def dropSpan (y a n : Nat) (s : State) : State :=
  let mine (c : Copy) : Bool := c.agent == y && touches a n c.word
  if n = 0 || a % 8 ≠ 0 || n % 8 ≠ 0 || regionNo (a + n - 1) ≠ regionNo a || spanTravels s y a n
      || s.coh.copies.any (fun c => mine c && !c.held.isEmpty) then s
  else sendEvict y a n (s.mapCopies (fun l => l.filter (fun c => !(mine c))))

/-- HOME_EVICT: the home drops or shrinks the sharer's record. -/
def execHomeEvict (y a n : Nat) (s : State) : Host.Outcome State Fault Refusal :=
  if (s.coh.net[n]?).any (fun m => m.src = y && m.addr = a) then
    noticeHome .evict n (fun m s =>
      let r := regionNo m.addr
      let f := shrinkRecord (m.addr % 256 / 8) ((m.addr % 256 + m.len) / 8 - 1)
      setDir s r (changeRecord m.src f (dirOf s r))) s
  else .next s

/-- Whether a region lies in a pinned range (R358). -/
def pinnedRegion (s : State) (region : Nat) : Bool :=
  s.parts.any (fun p => p.2.pin.any (fun q =>
    (q.2.1.toNat / 256 ≤ region) && (region < q.2.1.toNat / 256 + q.2.2.toNat)))

/-- An entry is displaced from L2: Inv to every sharer (a move of the schedule, assumption 2); a pinned line is not
(R358). -/
def displace (region : Nat) (s : State) : State := if pinnedRegion s region then s else invalidate region s

/-- SHARER_INV: a sharer drops the region and acknowledges. -/
def execSharerInv (n : Nat) : State → Host.Outcome State Fault Refusal :=
  atSharer .inv n (fun m s =>
    if s.coh.dead.contains m.dst then s
    else replyHome m .invack
      (s.mapCopies (fun l => l.filter (fun c => !(c.agent == m.dst && regionNo c.word == regionNo m.addr)))))

/-- An entry whose last InvAck has come is free. -/
def freeEntries (s : State) : State :=
  let done := s.coh.evicting.filter (fun e => e.awaits.isEmpty)
  let s := { s with coh := { s.coh with evicting := s.coh.evicting.filter (fun e => !e.awaits.isEmpty) } }
  settleQueue (done.foldl (fun s e => setDir s e.region none) s)

/-- An invalidate acknowledgement of agent `y` for a region. -/
def acknowledgeInv (y region : Nat) (s : State) : State :=
  let one (e : Evicting) : Evicting :=
    let new : Evicting := { e with awaits := e.awaits.filter (fun x => x != y) }
    if e.region = region then new else e
  freeEntries { s with coh := { s.coh with evicting := s.coh.evicting.map one } }

/-- HOME_INVACK. -/
def execHomeInvack (n : Nat) : State → Host.Outcome State Fault Refusal :=
  noticeHome .invack n (fun m => acknowledgeInv m.src (regionNo m.addr))

/-! ## Leases (R193, R194) -/

/-- HOME_LREQ. -/
def execHomeLreq (n : Nat) : State → Host.Outcome State Fault Refusal :=
  atHome .lreq n (fun m s =>
    if committing s m.addr m.len then none
    else some (if homeBlocks s m then s.enqueue m else grantLease s m))

/-- The lease word at which the current hart waits, if a grant is for it. -/
def awaitedLease (m : Msg) (s : State) : Option LeaseFld :=
  match waitingWord s, waitOf s .other with
  | some (.lease w), some _ =>
    if s.hart.getX w.rs1 = m.base && m.n = w.n.toNat + 1 && m.len = 8 * (w.words.toNat + 1) then some w
    else none
  | _, _ => none

/-- The lease of a grant: on a Milliner its buffer takes the span's words (R325). -/
def grantedLease (m : Msg) (cc : Nat) : Lease :=
  { base := m.base, pa := m.addr, words := m.len / 8, ends := cc + m.n + 1, buf := if isMilliner m.hart then m.data else [] }

/-- The grant reaches its hart: the lease retires and runs, and a compute hart's L1D takes the span's words (R193). A grant
for which no hart waits ends at once (assumption 34). -/
def takeGrant (m : Msg) (s : State) : State :=
  let s := if isMilliner m.hart then s else s.mapCopies (installCopies s m.dst false m.addr m.data)
  match awaitedLease m s with
  | some _ => s.setHart (s.hart.startLease m.slot (grantedLease m (s.ccOf s.cur))).retire
  | none =>
    s.send { m with kind := .lend, src := agentNo m.hart, inc := incOf s (agentNo m.hart), dst := m.src, data := [] }

/-- HART_LGRANT. -/
def execHartLgrant (n : Nat) : State → Host.Outcome State Fault Refusal :=
  atSharer .lgrant n (fun m s => asAgent m.hart (takeGrant m) s)

/-- HOME_LEND. -/
def execHomeLend (n : Nat) : State → Host.Outcome State Fault Refusal :=
  noticeHome .lend n (fun m s => releaseLease s m.hart m.slot)

/-! ## Unresponsive and dead agents (R354, R355) -/

/-- A kind 0x06 record to the partition that owns a region's address. -/
def unresponsive (y a : Nat) (s : State) : State :=
  (postRecord s (ownerOf s a) 0x06 0 (0xFFFFFFF8 + homeDie s a) 0 (bv 64 y) (bv 64 (regionNo a * 256))).1

/-- Whether a home has waited 65,536 cc for agent `y`, unreported. -/
def overdue (s : State) (y since : Nat) (awaits told : List Nat) : Bool :=
  awaits.contains y && !(told.contains y) && since + 65536 ≤ s.cc

/-- UNRESPONSIVE_AGENT_TIMEOUT: every home that has waited long enough for agent `a` posts one record. -/
def execUnresponsiveAgentTimeout (a : Nat) (s : State) : Host.Outcome State Fault Refusal :=
  let cs := s.coh.commits.filter (fun c => overdue s a c.since c.awaits c.told)
  let es := s.coh.evicting.filter (fun e => overdue s a e.since e.awaits e.told)
  let t := cs.foldl (fun t c => unresponsive a c.msg.addr t) s
  let t := es.foldl (fun t e => unresponsive a (e.region * 256) t) t
  let c1 (c : Commit) : Commit :=
    let new : Commit := { c with told := a :: c.told }
    if cs.contains c then new else c
  let e1 (e : Evicting) : Evicting :=
    let new : Evicting := { e with told := a :: e.told }
    if es.contains e then new else e
  .next { t with coh := { t.coh with commits := t.coh.commits.map c1, evicting := t.coh.evicting.map e1 } }

/-- The first agent that a home has awaited for 65,536 cc without a report. -/
def overdueAgent (s : State) : Option Nat :=
  match s.coh.commits.findSome? (fun c => c.awaits.find? (fun y => overdue s y c.since c.awaits c.told)) with
  | some y => some y
  | none => s.coh.evicting.findSome? (fun e => e.awaits.find? (fun y => overdue s y e.since e.awaits e.told))

/-- The harts and Milliners that travel under an agent number. -/
def hartsOfAgent (a : Nat) : List Nat := if a < 2304 then hartsOfCore a else if 9216 ≤ a && a < agentCount then [a] else []

/-- A dead agent is held in reset. -/
def resetAgent (a : Nat) (s : State) : State :=
  let s := (hartsOfAgent a).foldl (fun s h =>
    let s := endLeases h s
    let s := s.modDie (dieOf h) (fun d => { d with
      requests := d.requests.filter (fun k => k != h)
      deliveries := d.deliveries.filter (fun k => k.hart != h) })
    if isMilliner h then (s.setHartAt h (.init h)).setMillAt h {} else s.setHartAt h (.init h)) s
  if a < 2304 then s.setCoreAt a {}
  else if 9576 ≤ a then s.setClusterAt (a - 9576) { s.clusterAt (a - 9576) with misses := [] }
  else s

/-- The leases at the homes of a dead agent's harts end, and the queued requests are performed. -/
def dropLeases (a : Nat) (s : State) : State :=
  (s.coh.leases.filter (fun l => agentNo l.hart == a)).foldl (fun s l => releaseLease s l.hart l.slot) s

/-- The requests of a dead agent that wait at their homes are dropped and counted (R355). -/
def dropQueued (a : Nat) (s : State) : State :=
  let mine (m : Msg) : Bool := m.src == a || (m.slot == 0 && m.kind = .lreq && agentNo m.hart == a)
  let t := { s with coh := { s.coh with queued := s.coh.queued.filter (fun m => !(mine m)) } }
  (s.coh.queued.filter mine).foldl (fun t m => t.modDie (homeDie s m.addr) (fun d => { d with stale := satInc d.stale })) t

/-- The declaration of an agent as dead takes effect (R355). -/
def declareDead (a : Nat) (s : State) : State :=
  let s := dropLeases a (dropQueued a (resetAgent a s))
  let dir := s.coh.dir.filterMap (fun p => (changeRecord a (fun _ => none) (some p.2)).map (fun d => (p.1, d)))
  let c1 (c : Commit) : Commit := { c with awaits := c.awaits.filter (fun y => y != a) }
  let e1 (e : Evicting) : Evicting := { e with awaits := e.awaits.filter (fun y => y != a) }
  let coh := { s.coh with
    dir := dir
    copies := s.coh.copies.filter (fun c => c.agent != a)
    commits := s.coh.commits.map c1
    evicting := s.coh.evicting.map e1
    incarnation := put s.coh.incarnation a (look 0 s.coh.incarnation a + 1)
    dead := if s.coh.dead.contains a then s.coh.dead else a :: s.coh.dead
    deadAt := put s.coh.deadAt a s.ticks }
  freeEntries (commitReady { s with coh := coh })

/-- Whether a second declaration of an agent is still within 1 ms of the first. -/
def deadSoon (s : State) (a : Nat) : Bool := s.coh.deadAt.any (fun p => p.1 == a && s.ticks < p.2 + 100000)

/-- AGENT_DEAD_COMPLETE: the declaration in progress at a die completes. -/
def execAgentDeadComplete (die : Nat) (s : State) : Host.Outcome State Fault Refusal :=
  match (s.dieAt die).deadBusy with
  | none => .next s
  | some a =>
    if deadSoon s a then .next s
    else .next ((declareDead a s).modDie die (fun d => { d with deadBusy := none }))

/-! ## The end of forwarding (R353) -/

/-- MIG_REL_COMPLETE: forwarding ends for the page whose release is in progress at its old home die. -/
def execMigRelComplete (die : Nat) (s : State) : Host.Outcome State Fault Refusal :=
  match (s.dieAt die).migBusy with
  | none => .next s
  | some a =>
    let s := s.modDie die (fun d => { d with migBusy := none })
    .next { s with coh := { s.coh with migs := s.coh.migs.filter (fun g => !(g.old == a && homeDie s a == die)) } }

end Sys2Proof.Machine
end

