-- ==== Sys2Proof/Machine/Fabric.lean ====
section
/-! DEFINITION. Chrodon (spec/19, R389-R396): flits as they arrive, retraining, requests of other modules at their home,
responses, and requests that are abandoned or held. -/

namespace Sys2Proof.Machine

/-! ## Ports (R389, R391) -/

/-- CHR_RETRAIN_DONE of port `p`: up or down. -/
def execChrRetrainDone (p : Nat) (good : Bool) (s : State) : Host.Outcome State Fault Refusal :=
  let y := s.chr.port p
  if p < 16 && y.state = 1 then .next { s with chr := s.chr.setPort p { y with state := if good then 2 else 0 } }
  else .next s

/-- Saturating addition to a 32-bit counter. -/
def satAdd (c : BitVec 32) (n : Nat) : BitVec 32 := bv 32 (min (2 ^ 32 - 1) (c.toNat + n))

/-- What an acknowledgement or a replay request does to the replay buffer: flits received are dropped. The second part
is what is sent again. -/
def acknowledged (h : FlitHead) (y : Port) : Port × List (BitVec 12 × List Byte) :=
  let point := bv 12 h.ackSeq
  let gone (q : BitVec 12) : Bool :=
    if h.replay then q ≠ point && (point - q).toNat < 2048 else h.ackV && (point - q).toNat < 2048
  let left := y.txq.filter (fun f => !(gone f.1))
  let y := { y with txq := left, ackSeq := if h.ackV || h.replay then point else y.ackSeq,
                    resent := if left.length < y.txq.length then 0 else y.resent,
                    credit := y.credit + h.credit }
  if h.replay then ({ y with resent := y.resent + 1 }, left) else (y, [])

/-- Taking in the acknowledgement of a flit; the sixteenth replay of one flit in a row starts a retraining. -/
def takeAck (p : Nat) (h : FlitHead) (s : State) : State :=
  let (y, again) := acknowledged h (s.chr.port p)
  let chr := s.chr.setPort p y
  let chr := { chr with outbox := chr.outbox ++ again.map (fun f => (p, f.2)) }
  { s with chr := if 16 ≤ y.resent then chr.dropPort p 1 else chr }

/-- Asking for a replay from the flit after the last one received without error. -/
def askReplay (p : Nat) (s : State) : State :=
  let y := s.chr.port p
  let h : FlitHead := { seq := y.txSeq.toNat, ackSeq := (y.rxSeq + 1).toNat, replay := true, ackV := true,
                        srcMod := s.chr.modIdx.toNat, srcPart := 0, dstMod := 0, cls := 0, type := 3, credit := y.returns,
                        nmsg := 0 }
  let n := y.replays + 1
  let chr := s.chr.setPort p { y with
    rtry := satInc y.rtry
    replays := n
    wantReplay := true
    owed := y.owed - y.returns }
  let chr := { chr with outbox := chr.outbox ++ [(p, flitBytes h [])] }
  { s with chr := if 16 ≤ n then chr.dropPort p 1 else chr }

/-- Counting a flit in UNC. -/
def countUnc (p : Nat) (s : State) : State :=
  let y := s.chr.port p
  { s with chr := s.chr.setPort p { y with unc := satInc y.unc } }

/-- A request or response flit received without error: the expected one delivers its messages, and its flit buffer is
returned by an idle flit; a later one asks for a replay; an earlier one has been received before. -/
def takeFlit (p : Nat) (h : FlitHead) (f : List Byte) (s : State) : State :=
  let y := s.chr.port p
  let seq := bv 12 h.seq
  if seq = y.rxSeq + 1 then
    let s := { s with chr := s.chr.setPort p { y with
      rxSeq := seq
      replays := 0
      wantReplay := false
      owed := y.owed + 1 } }
    let s := sendIdle p s
    match parseMsgs h.srcMod h.srcPart h.nmsg ((f.drop 8).take 240) with
    | some l => { s with chr := { s.chr with inbox := s.chr.inbox ++ l } }
    | none => countUnc p s
  else if (seq - y.rxSeq).toNat < 2048 && seq ≠ y.rxSeq && !y.wantReplay then askReplay p s
  else s

/-- CHR_FLIT_RECEIVE: a flit of 256 bytes arrives at port `p`; `fixed` codewords were corrected, and `lost` says that
one could not be. -/
def execChrFlitReceive (p fixed : Nat) (lost : Bool) (f : Bytes) (s : State) : Host.Outcome State Fault Refusal :=
  let y := s.chr.port p
  if 16 ≤ p || y.state ≠ 2 then .next s
  else
    let s := { s with chr := s.chr.setPort p { y with fecc := satAdd y.fecc fixed } }
    if lost then .next (askReplay p (countUnc p s))
    else if !(flitOk f) then .next (askReplay p s)
    else
      let h := flitHead (bv 64 (ofBytes (f.take 8)))
      let s := takeAck p h s
      if 4 ≤ h.type then .next (countUnc p s)
      else if h.type = 1 || h.type = 2 then .next (takeFlit p h f s)
      else .next s

/-! ## Requests of other modules at their home (R390, R396) -/

/-- Message `n` of the inbox, if it has the OP and no earlier one of its module and region stands before it. The state no
longer has it. -/
def takeFabric (s : State) (op n : Nat) : Option (FabMsg × State) :=
  match s.chr.inbox[n]? with
  | none => none
  | some m =>
    if m.op ≠ op then none
    else if m.asks && (s.chr.inbox.take n).any (fun k => k.asks && k.mod == m.mod && k.addr / 256 == m.addr / 256) then
      none
    else some (m, { s with chr := { s.chr with inbox := s.chr.inbox.eraseIdx n } })

/-- The writer number of another module's agents. -/
def farWriter (mod : Nat) : Writer := { hart := agentCount + 1 + mod, scalar := true }

/-- The source partition of a response: that of the bytes at an address (R390). -/
def sourcePart (s : State) (a : Nat) : Nat := if isOwnMem s a then ownerOf s a % noPart else 0

/-- Answering a request with a response of an OP. -/
def respond (m : FabMsg) (op a : Nat) (data : List Byte) (s : State) : State :=
  let r : FabMsg := { m with op := op, sub := 0, addr := a, len := data.length, data := data, part := sourcePart s a }
  sendFabric r s

/-- A request is refused by a Data response without data (assumption 38). -/
def refuseFabric (m : FabMsg) (s : State) : State := respond m 0x10 m.addr [] s

/-- The partition that owns a request's bytes, where it is joined with the requester's (R396). -/
def acceptedBy (s : State) (m : FabMsg) : Option Nat :=
  let last := m.addr + m.len - 1
  if m.len = 0 || !(isOwnMem s m.addr) || !(isOwnMem s last) then none
  else
    let q := ownerOf s m.addr
    if ownerOf s last = q && (s.partAt q).joins.contains (m.mod, m.part) then some q else none

/-- An uncorrectable error that a request of another module meets (R376). -/
def farError (q a : Nat) (s : State) : State :=
  let d := homeDie s a
  let s := s.modDie d (fun x => { x with ue := satInc x.ue })
  (postRecord s q 0x05 8 (0xFFFFFFF8 + d) 0 (bv 64 a) 0).1

/-- The word of an uncorrectable error that a request would use: any it reads, or one it writes in part. -/
def farPoison (s : State) (m : FabMsg) (a : Nat) : Option Nat :=
  s.coh.poison.find? (fun p => touches a m.len p && !(m.op = 2 && a ≤ p && p + 8 ≤ a + m.len))

/-- Serving a request of an OP: `g` says what it does at partition `q` and address `a`. It waits while its region is being
copied or a word is committing. -/
def serveFabric (op n : Nat) (g : FabMsg → Nat → Nat → State → State) (s : State) : Host.Outcome State Fault Refusal :=
  match takeFabric s op n with
  | none => .next s
  | some (m, t) =>
    match acceptedBy t m with
    | none => .next (refuseFabric m t)
    | some q =>
      match forward t m.addr with
      | none => .next s
      | some a =>
        if committing t a m.len || t.coh.queued.any (fun k => k.hart == agentCount && overlap k.addr k.len a m.len) then .next s
        else match farPoison t m a with
          | some p => .next (refuseFabric m (farError q p t))
          | none => .next (g m q a t)

/-- A store or atomic of another module at its home: it is served as any other, and answered when it has committed. -/
def farStore (m : FabMsg) (a : Nat) (op : Option AtomicOp) (s : State) : State :=
  let x : Msg := { kind := if op.isSome then .amo else .wr, src := farSender m.mod, inc := 0, dst := homeNo s a,
                   hart := (farWriter m.mod).hart, addr := a, len := m.data.length, data := m.data, op := op, slot := 5,
                   n := m.tag, base := bv 64 (sourcePart s a), id := s.coh.nextId }
  let s := s.useId
  if homeBlocks s x then s.enqueue x else serveOne s x

/-- CHR_RD. -/
def execChrRd (n : Nat) : State → Host.Outcome State Fault Refusal :=
  serveFabric 1 n (fun m _ a s => respond m 0x10 a (readBytes s.mem m.len a) s)

/-- Whether a word is ARRIVED of a live descriptor of partition `q` (R223), and then its number. -/
def farDescriptor (s : State) (q a : Nat) : Option Nat :=
  let t := (s.partAt q).dom
  let off := a - t.base.toNat
  if t.en && t.base.toNat ≤ a && off % 32 = 0 && off / 32 < 2 ^ t.log2n.toNat && bitOf (read8 s.mem (placed s (a + 8))) 63
  then some (off / 32) else none

/-- CHR_WR. -/
def execChrWr (n : Nat) : State → Host.Outcome State Fault Refusal :=
  serveFabric 2 n (fun m _ a s => farStore m a none s)

/-- The AMO of head byte 9: operation and width in bytes. -/
def farAmo (sub : Byte) : Option (AmoOp × Nat) :=
  let o := (amoOps.find? (fun p => p.2 == sub.toNat / 4 % 32)).map Prod.fst
  match sub.toNat % 4, o with
  | 2, some o => some (o, 4)
  | 3, some o => some (o, 8)
  | _, _ => none

/-- CHR_AMO: an addition to ARRIVED of a descriptor is an arrival, which the domain unit performs. -/
def execChrAmo (n : Nat) : State → Host.Outcome State Fault Refusal :=
  serveFabric 3 n (fun m q a s =>
    match farAmo m.sub with
    | none => refuseFabric m s
    | some (o, w) =>
      if m.len ≠ w || a % w ≠ 0 then refuseFabric m s
      else match farDescriptor s q m.addr with
        | none => farStore m a (some (.amo o)) s
        | some id =>
          let old := readNat s.mem a w
          let new := amoResult o (8 * w) old (ofBytes m.data)
          let s := s.pushStore { hart := agentCount, scalar := true } a (toBytes w new)
          let arrived := if w = 8 then new / 2 ^ 32 else readNat s.mem (a + 4) 4
          respond m 0x12 a (toBytes w old) (noteArrived s q id a arrived))

/-- CHR_LR: the home keeps a reservation for the module on the word (assumption 37). -/
def execChrLr (n : Nat) : State → Host.Outcome State Fault Refusal :=
  serveFabric 4 n (fun m _ a s =>
    let w := a / 8 * 8
    let l := (m.mod, w) :: s.coh.farResv.filter (fun p => !(p == (m.mod, w)))
    respond m 0x10 a (readBytes s.mem m.len a) { s with coh := { s.coh with farResv := l } })

/-- CHR_SC: 0 where the module's reservation stands and the word is written, else 1. -/
def execChrSc (n : Nat) : State → Host.Outcome State Fault Refusal :=
  serveFabric 5 n (fun m _ a s => farStore m a (some (.farSc m.mod)) s)

/-! ## Responses (R390, R394) -/

/-- The request that a response answers. -/
def askedBy (s : State) (m : FabMsg) : Option Remote :=
  s.coh.remote.find? (fun r => r.tag == m.tag && r.kind != 100 && r.sent && r.answer.isNone && !r.failed)

/-- Changing the request with a tag. -/
def modRemote (s : State) (tag : Nat) (g : Remote → Remote) : State :=
  { s with coh := { s.coh with remote := s.coh.remote.map (fun r => if r.tag == tag && r.kind != 100 then g r else r) } }

/-- A store that its home has refused: its agent takes the access fault (R396, assumption 38). The address is a free
value (assumption 3). -/
def refusedStore (h : Nat) (s : State) : State :=
  let v := bv 64 (Config.freeNat s.fresh)
  let t := s.useFresh
  if agentCount ≤ h then s
  else if isMilliner h then
    match (s.millAt h).run with
    | .idle => s
    | .selected _ => s
    | .user => asAgent h (raise 7 v) t
    | .migrating _ _ _ _ => stopRoutine h 2 true (.trap 7 v) t
    | .copying _ _ _ => stopRoutine h 2 false (.trap 7 v) t
    | .collective _ => stopRoutine h 2 false (.trap 7 v) t
  else if (s.hartAt h).canRun then asAgent h (raise 7 v) t
  else s

/-- A request has been answered. -/
def answered (r : Remote) (v : Nat) (s : State) : State := modRemote s r.tag (fun r => { r with answer := some v })

/-- A request has been refused. -/
def refusedRequest (r : Remote) (s : State) : State :=
  if r.kind = 2 && r.slot = 17 then
    (dropRemote s r.tag).modHart r.hart (fun x => { x with ctl := { x.ctl with serr := true } })
  else if r.kind = 2 then refusedStore r.hart (dropRemote s r.tag) else modRemote s r.tag (fun r => { r with failed := true })

/-- Taking response `n` of an OP: `g` says what becomes of the request it answers. -/
def response (op n : Nat) (g : FabMsg → Remote → State → State) (s : State) : Host.Outcome State Fault Refusal :=
  match takeFabric s op n with
  | none => .next s
  | some (m, t) =>
    match askedBy t m with
    | some r => .next (g m r t)
    | none => .next t

/-- CHR_DATA: the words of a read or LR; without them it is a refusal. -/
def execChrData (n : Nat) : State → Host.Outcome State Fault Refusal :=
  response 0x10 n (fun m r s =>
    if (r.kind = 1 || r.kind = 4) && m.data.length = r.len then answered r (ofBytes m.data) s else refusedRequest r s)

/-- CHR_WACK: the store has been performed. -/
def execChrWack (n : Nat) : State → Host.Outcome State Fault Refusal :=
  response 0x11 n (fun _ r s => if r.kind = 2 then dropRemote s r.tag else refusedRequest r s)

/-- CHR_AMORESP: the value of an AMO or SC. -/
def execChrAmoresp (n : Nat) : State → Host.Outcome State Fault Refusal :=
  response 0x12 n (fun m r s => if r.kind = 3 || r.kind = 5 then answered r (ofBytes m.data) s else refusedRequest r s)

/-! ## Abandoned and held requests (R393, R394) -/

/-- A request left 1 ms ago and has no response. -/
def Remote.late (r : Remote) (ticks : Nat) : Bool :=
  r.kind != 100 && r.sent && r.answer.isNone && !r.failed && decide (r.since + 100000 ≤ ticks)

/-- The number of a requester in a record (R354, R394). -/
def requesterNo (r : Remote) : Nat :=
  if agentCount ≤ r.hart then 0xFFFFFFF8 else if r.slot = 8 then 9576 + clusterOf r.hart else r.hart

/-- REMOTE_REQUEST_ABANDON of the request with a tag: a store's WAck counts as received, any other takes its fault, and a
record of kind 0x07 is posted. -/
def execRemoteRequestAbandon (tag : Nat) (s : State) : Host.Outcome State Fault Refusal :=
  match s.coh.remote.find? (fun r => r.tag == tag && r.late s.ticks) with
  | none => .next s
  | some r =>
    let s := if r.kind = 2 then dropRemote s tag else modRemote s tag (fun r => { r with failed := true })
    .next (postRecord s r.part 0x07 (r.addr / 2 ^ 40 % 64) (requesterNo r) 0 (bv 64 r.addr) 0).1

/-- ROUTE_CHANGE_RELEASE: held messages that nothing holds any more go out. -/
def execRouteChangeRelease (s : State) : Host.Outcome State Fault Refusal := .next (releaseHeld s)

end Sys2Proof.Machine
end

