-- ==== Sys2Proof/Machine/Power.lean ====
section
/-! DEFINITION. Power (spec/17, R366-R371): telemetry frames, the allowance, shedding and restoring of power classes, the
grace, retention of islands and their start; and the die-to-die links (R347). -/

namespace Sys2Proof.Machine

/-! ## Telemetry frames (R367) -/

/-- One bit into the CRC register of polynomial 0x1021. -/
def crc16Bit (c : Nat) (b : Bool) : Nat :=
  if decide (2 ^ 15 ≤ c) != b then (2 * c % 2 ^ 16) ^^^ 0x1021 else 2 * c % 2 ^ 16

/-- One byte, most significant bit first. -/
def crc16Byte (c : Nat) (x : Byte) : Nat := (List.range 8).foldl (fun c i => crc16Bit c (x.getLsbD (7 - i))) c

/-- The CRC of a frame's bytes, initial value 0xFFFF. -/
def crc16 (l : List Byte) : Nat := l.foldl crc16Byte 0xFFFF

/-- A frame of 16 bytes, byte 0 least significant, is valid when its CRC matches. -/
def frameOk (f : BitVec 128) : Bool := crc16 (toBytes 14 (f.toNat % 2 ^ 112)) = f.toNat / 2 ^ 112

/-- A field of a frame: `n` bytes from byte `k` up. -/
def frameField (f : BitVec 128) (k n : Nat) : Nat := f.toNat / 256 ^ k % 256 ^ n

/-! ## The allowance (R369) -/

/-- A point of the curve: deviation and allowed power. -/
structure CurvePoint where
  x : Int
  p : Nat
  deriving DecidableEq, Repr

/-- The point of a curve register, if it is valid and of a kind. -/
def pointOf (kind : Bool) (w : Word) : Option CurvePoint :=
  let x := fieldOf w 32 16
  if bitOf w 63 && bitOf w 62 == kind then
    some { x := if kind then Int.ofNat x else signedOf 16 x, p := fieldOf w 0 16 }
  else none

/-- The points whose X exceeds that of the point before them. -/
def risingPoints : Option Int → List CurvePoint → List CurvePoint
  | _, [] => []
  | none, q :: r => q :: risingPoints (some q.x) r
  | some b, q :: r => if b < q.x then q :: risingPoints (some q.x) r else risingPoints (some b) r

/-- The value between the points, or after the last. -/
def interpolate (x : Int) : List CurvePoint → Option Int
  | [] => none
  | [q] => some q.p
  | a :: b :: r =>
    if a.x ≤ x && x < b.x then some (a.p + ((b.p - a.p : Int) * (x - a.x)).fdiv (b.x - a.x)) else interpolate x (b :: r)

/-- Curve(kind, x); none is +infinity. -/
def curve (w : Power) (kind : Bool) (x : Int) : Option Int :=
  match risingPoints none (w.curve.toList.filterMap (pointOf kind)) with
  | [] => none
  | q :: r => if x ≤ q.x then some q.p else interpolate x (q :: r)

/-- The lesser of a bound and a curve's value. -/
def capped (b : Int) : Option Int → Int
  | some v => min b v
  | none => b

/-- A while LINK is 1, from a frame. -/
def allowance (w : Power) (f : BitVec 128) : Nat :=
  let freq : Int := Int.ofNat (frameField f 4 4) - Int.ofNat w.nomf.toNat
  let a := capped (capped (Int.ofNat w.cap.toNat) (curve w false freq)) (curve w true (Int.ofNat (frameField f 8 2)))
  let share := frameField f 10 2 * 2 * w.share.toNat / 256
  (if w.share = 0 then a else min a (Int.ofNat share)).toNat

/-! ## Shedding and restoring (R369-R371) -/

/-- TH of a class. -/
def Power.th (w : Power) (c : Nat) : Nat := ((w.cls[c % 4]'(Nat.mod_lt _ (by decide))).setWidth 16).toNat
/-- HYS of a class. -/
def Power.hys (w : Power) (c : Nat) : Nat := (w.cls[c % 4]'(Nat.mod_lt _ (by decide))).toNat / 65536

/-- Shed(c): the grace of the class begins, unless it is shed already. -/
def shedClass (c : Nat) (s : State) : State :=
  let w := s.power
  if w.shed.getLsbD c then { s with power := { w with good := w.good.set (c % 4) 0 (Nat.mod_lt _ (by decide)) } }
  else { s with power := { w with
    shed := w.shed ||| bv 4 (2 ^ (c % 4))
    good := w.good.set (c % 4) 0 (Nat.mod_lt _ (by decide))
    shedAt := w.shedAt.set (c % 4) (some s.ticks) (Nat.mod_lt _ (by decide)) } }

/-- The harts on a core-pair island. -/
def islandHarts (i : Nat) : List Nat :=
  let core := (i / 200 * 24 + i % 200 / 8) * 16 + i % 8 * 2
  hartsOfCore core ++ hartsOfCore (core + 1)

/-- A hart is held by shedding or by a quiesce. -/
def Hart.held (x : Hart) : Bool := x.ctl.heldShed || x.ctl.heldQuiesce

/-- Islands in retention with no held hart start when no class is shed any more (assumption 36). -/
def releaseEmpty (s : State) : State :=
  if s.power.shed ≠ 0 then s
  else (s.power.retained.filter (fun i => (islandHarts i).all (fun h => !(s.hartAt h).held))).foldl releaseIsland s

/-- Restore(c): the islands of the class's held harts are to start. -/
def restoreClass (c : Nat) (s : State) : State :=
  let w := s.power
  let s := { s with power := { w with
    shed := w.shed &&& ~~~(bv 4 (2 ^ (c % 4)))
    good := w.good.set (c % 4) 0 (Nat.mod_lt _ (by decide))
    shedAt := w.shedAt.set (c % 4) none (Nat.mod_lt _ (by decide)) } }
  releaseEmpty (releaseHarts s (fun h x => kindOf h = .compute && x.ctl.heldShed && x.ctl.shedClass = bv 2 c))

/-- The decision on one class; `frame` says that a valid frame brings it about. -/
def decideClass (frame : Bool) (s : State) (c : Nat) : State :=
  let w := s.power
  let a := w.a.toNat
  if a < w.th c then shedClass c s
  else if w.shed.getLsbD c then
    let n := if frame && w.th c + w.hys c ≤ a then w.good[c % 4]'(Nat.mod_lt _ (by decide)) + 1 else 0
    let s := { s with power := { w with good := w.good.set (c % 4) n (Nat.mod_lt _ (by decide)) } }
    if 10 ≤ n then restoreClass c s else s
  else s

/-- The decisions on classes 0 to 3 after A has been computed. -/
def decidePower (frame : Bool) (a : Nat) (s : State) : State :=
  [0, 1, 2, 3].foldl (decideClass frame) { s with power := { s.power with a := bv 16 a } }

/-- A valid frame (R368, R369, R416). -/
def acceptFrame (f : BitVec 128) (s : State) : State :=
  let w := s.power
  let lg := s.nov.telem ++ [toBytes 16 f.toNat]
  let s := { s with
    nov := { s.nov with telem := lg.drop (lg.length - 1024) }
    power := { w with
      link := true
      frames := w.frames + 1
      last0 := bv 64 f.toNat
      last1 := bv 64 (f.toNat / 2 ^ 64)
      lastAt := s.ticks } }
  decidePower true (allowance s.power f) s

/-- TELEMETRY_FRAME: an invalid frame is counted, and a count of consecutive valid frames starts again (R381). -/
def execTelemetryFrame (f : BitVec 128) (s : State) : Host.Outcome State Fault Refusal :=
  if frameOk f then .next (acceptFrame f s)
  else
    let w := s.power
    .next { s with power := { w with
      crcErr := if w.crcErr = 0xFFFF then w.crcErr else w.crcErr + 1
      good := .replicate 4 0 } }

/-- No valid frame has arrived in the last 300 µs. -/
def linkLate (s : State) : Bool := s.power.link && s.power.lastAt + 30000 ≤ s.ticks

/-- TELEMETRY_LINK_LOSS. -/
def execTelemetryLinkLoss (s : State) : Host.Outcome State Fault Refusal :=
  if linkLate s then
    let w := s.power
    .next (decidePower false (min w.failsafe.toNat w.cap.toNat) { s with power := { w with link := false } })
  else .next s

/-! ## The grace (R370) -/

/-- The grace of a class has run out. -/
def graceOver (s : State) (c : Nat) : Bool :=
  match (s.power.shedAt[c % 4]'(Nat.mod_lt _ (by decide))) with
  | some t => t + 100 * s.power.grace.toNat ≤ s.ticks
  | none => false

/-- A hart of a class that the end of the grace is to halt: it runs a task and is not yet held. -/
def graceHalts (c h : Nat) (x : Hart) : Bool :=
  kindOf h = .compute && !x.ctl.parked && !x.ctl.asks && x.dev.task ≠ 0 && x.pclass = c % 4

/-- SHED_GRACE_EXPIRY of class `c`: harts not yet held are to be halted. -/
def execShedGraceExpiry (c : Nat) (s : State) : Host.Outcome State Fault Refusal :=
  if graceOver s c then
    let s := { s with power := { s.power with shedAt := s.power.shedAt.set (c % 4) none (Nat.mod_lt _ (by decide)) } }
    .next (s.mapHarts (graceHalts c) (fun x => x.withCtl (fun k => { k with shedDue := true })))
  else .next s

/-! ## Islands (R366, R370, R371) -/

/-- The number of islands. -/
def islandCount : Nat := 1200

/-- An island of two cores, whose harts it follows. -/
def coreIsland (i : Nat) : Bool := i < islandCount && i % 200 < 192

/-- Every hart of an island is held, parked or idle, and for pair 0 the cluster's shared units are idle. -/
def islandStill (s : State) (i : Nat) : Bool :=
  let c := i / 200 * 24 + i % 200 / 8
  (islandHarts i).all (fun h => (s.hartAt h).ctl.parked
    && !((s.dieAt (dieOf h)).deliveries.any (fun d => d.hart == h)))
  && (i % 8 ≠ 0 || ((clusterMilliners c).all (millIdle s) && drained s c))

/-- ISLAND_RETENTION of island `i`, while a class is shed. -/
def execIslandRetention (i : Nat) (s : State) : Host.Outcome State Fault Refusal :=
  if coreIsland i && s.power.shed ≠ 0 && islandStill s i && !(s.power.retained.contains i)
      && !(s.power.releasing.contains i) then
    .next { s with power := { s.power with retained := s.power.retained ++ [i] } }
  else .next s

/-- Whether a held hart is released with its island: neither its class, nor its cluster's quiesce, holds it (R371). -/
def released (s : State) (h : Nat) (x : Hart) : Bool :=
  x.ctl.parked && x.ctl.pcause = 4 && !(isDead s h) && !x.ctl.heldQuiesce && !(quiesceHolds s (clusterOf h))
  && !(x.ctl.heldShed && s.power.shed.getLsbD x.ctl.shedClass.toNat)
  && !(x.dev.task ≠ 0 && isShed s x)

/-- A held hart is released: it goes on at RPC in MODE, or asks for a task as tnext does (R370, R371). -/
def releaseHart (s : State) (h : Nat) : State :=
  let x := s.hartAt h
  if released s h x then
    let s := s.setHartAt h { x.withCtl (fun c => { c with parked := false, heldShed := false }) with pc := x.ctl.rpc, priv := x.ctl.mode }
    if x.ctl.asks then s.modDie (dieOf h) (fun d => { d with requests := d.requests ++ [h] }) else s
  else if x.ctl.parked && x.ctl.pcause = 4 then
    s.setHartAt h (x.withCtl (fun c => { c with
      heldQuiesce := c.heldQuiesce || quiesceHolds s (clusterOf h)
      heldShed := c.heldShed || (x.dev.task ≠ 0 && isShed s x)
      shedClass := if c.heldShed then c.shedClass else bv 2 x.pclass }))
  else s

/-- The lowest of a list of islands. -/
def lowestIsland (l : List Nat) : Option Nat := l.foldl (fun m i => match m with
  | some k => some (min k i)
  | none => some i) none

/-- ISLAND_START: the lowest island that waits starts, unless all its held harts stay held. -/
def execIslandStart (s : State) : Host.Outcome State Fault Refusal :=
  match lowestIsland s.power.releasing with
  | none => .next s
  | some i =>
    let s := { s with power := { s.power with releasing := s.power.releasing.filter (fun k => k != i) } }
    let hs := islandHarts i
    let stays := hs.any (fun h => (s.hartAt h).held) && !(hs.any (fun h => released s h (s.hartAt h)))
    let s := if stays then s else leaveRetention s i
    .next (hs.foldl releaseHart s)

/-! ## Die-to-die links (R347) -/

/-- The number of die-to-die links, in the order of R5's adjacent pairs. -/
def linkCount : Nat := 7

/-- The replays in a row of a link. -/
def replaysOf (s : State) (l : Nat) : Nat := look 0 s.pkg.links l

/-- Setting the replays in a row of a link. -/
def setReplays (s : State) (l n : Nat) : State := { s with pkg := { s.pkg with links := put s.pkg.links l n } }

/-- DIE_LINK_REPLAY: a message failed its CRC and is replayed from the sender's buffer; `good` says that the replay
passes. -/
def execDieLinkReplay (l : Nat) (good : Bool) (s : State) : Host.Outcome State Fault Refusal :=
  if l < linkCount && !(s.pkg.retraining.contains l) then
    .next (setReplays s l (if good then 0 else min 16 (replaysOf s l + 1)))
  else .next s

/-- DIE_LINK_RETRAIN: a link that has failed sixteen replays in a row is retrained; its traffic is held. -/
def execDieLinkRetrain (l : Nat) (s : State) : Host.Outcome State Fault Refusal :=
  if l < linkCount && 16 ≤ replaysOf s l && !(s.pkg.retraining.contains l) then
    .next { s with pkg := { s.pkg with retraining := s.pkg.retraining ++ [l] } }
  else .next s

/-- DIE_LINK_RETRAIN_DONE: the link is up again, or the package stops and the start that follows fails. -/
def execDieLinkRetrainDone (l : Nat) (good : Bool) (s : State) : Host.Outcome State Fault Refusal :=
  if s.pkg.retraining.contains l then
    let s := setReplays { s with pkg := { s.pkg with retraining := s.pkg.retraining.filter (fun k => k != l) } } l 0
    .next (if good then s else { s with pkg := { s.pkg with stopped := true, linkFailed := true } })
  else .next s

end Sys2Proof.Machine
end

