-- ==== Sys2Proof/Machine/Registers.lean ====
section
/-! DEFINITION. Writes to control registers as events of their own: each performs at its register what a store by an agent
that the register admits performs (spec/00, R7, and the rules of the registers). -/

namespace Sys2Proof.Machine

/-- A whole 8-byte write. -/
def wholeWrite (v : Nat) : RegWrite := { mask := 255, val := bv 64 v }

/-- A whole write to the register at an offset of a block; one that waits changes nothing. -/
def writeBlock (b : Block) (off v : Nat) (s : State) : Host.Outcome State Fault Refusal :=
  .next ((writeReg b off (wholeWrite v) s).getD s)

/-- FRING_CTL_WRITE (R146). -/
def execFringCtlWrite (p v : Nat) (s : State) : Host.Outcome State Fault Refusal :=
  if p < 64 then writeBlock (.part p) 0x108 v s else .next s
/-- DOM_CTL_WRITE (R219). -/
def execDomCtlWrite (p v : Nat) (s : State) : Host.Outcome State Fault Refusal :=
  if p < 64 then writeBlock (.part p) 0x148 v s else .next s
/-- TSEQ_CTL_WRITE (R263). -/
def execTseqCtlWrite (p v : Nat) (s : State) : Host.Outcome State Fault Refusal :=
  if p < 64 then writeBlock (.part p) 0x198 v s else .next s
/-- FBR_CTL_WRITE (R313). -/
def execFbrCtlWrite (p v : Nat) (s : State) : Host.Outcome State Fault Refusal :=
  if p < 64 then writeBlock (.part p) 0x1A8 v s else .next s
/-- TQ_RING_WRITE (R246). -/
def execTqRingWrite (p die level v : Nat) (s : State) : Host.Outcome State Fault Refusal :=
  if p < 64 && die < 6 && level < 8 then writeBlock (.part p) (0x200 + die * 0x80 + level * 0x10) v s else .next s
/-- FCLR (R313): FBR_CTL.FCLR written alone. -/
def execFclr (p : Nat) (s : State) : Host.Outcome State Fault Refusal := .next (clearFilters p s)
/-- CL_MRG_WRITE (R217). -/
def execClMrgWrite (c v : Nat) (s : State) : Host.Outcome State Fault Refusal :=
  if c < 144 then .next (writeMerge c (bv 64 v) s) else .next s
/-- CL_TREG_WRITE (R248). -/
def execClTregWrite (c core v : Nat) (s : State) : Host.Outcome State Fault Refusal :=
  if c < 144 && core < 16 then .next (writeTreg c core (bv 64 v) s) else .next s
/-- L2PIN_WRITE (R358). -/
def execL2pinWrite (p die base len : Nat) (s : State) : Host.Outcome State Fault Refusal :=
  if p < 64 && die < 6 then .next (setPin p die (bv 64 base &&& bitsFrom 8 49) (bv 16 len) s) else .next s

/-- REGISTER_WRITE: the low `n` bytes of `v` written at a device address of one register (R7). -/
def execRegisterWrite (a n v : Nat) (s : State) : Host.Outcome State Fault Refusal :=
  match blockOf a with
  | some (b, off) =>
    if n ≤ 8 && off % 8 + n ≤ 8 then
      .next ((writeReg b (off / 8 * 8) (regPart off n (off / 8 * 8) v) s).getD s)
    else .next s
  | none => .next s

/-- MILLINER_KICK: an 8-byte store of `block` by agent `hart` at the kick register of Milliner `m` (R329). -/
def execMillinerKick (m hart block scope : Nat) (s : State) : Host.Outcome State Fault Refusal :=
  if isMilliner m && m < agentCount && hart < agentCount then
    .next (performKick m (kickOf s hart (s.hartAt hart).dataPriv (bv 64 block) scope) s)
  else .next s
/-- ML_ABORT (R341). -/
def execMlAbort (m : Nat) (s : State) : Host.Outcome State Fault Refusal :=
  if isMilliner m && m < agentCount then .next (abortMilliner m s) else .next s

/-- AGENT_DEAD: agent `a` is declared dead (R377). -/
def execAgentDead (die a : Nat) (s : State) : Host.Outcome State Fault Refusal :=
  if die < 6 then writeBlock (.die die) 0x18 a s else .next s
/-- MIG_REL: forwarding for the old page at `pa` is to end (R377). -/
def execMigRel (die pa : Nat) (s : State) : Host.Outcome State Fault Refusal :=
  if die < 6 then writeBlock (.die die) 0x20 pa s else .next s

/-- COLD (R378). -/
def execCold : State → Host.Outcome State Fault Refusal := writeBlock .module 0x08 2
/-- WARMREQ (R378). -/
def execWarmreq : State → Host.Outcome State Fault Refusal := writeBlock .module 0x08 1
/-- BOOT_OK (R380). -/
def execBootOk (s : State) : Host.Outcome State Fault Refusal := .next (bootOk s)
/-- CHR_RETRAIN (R391). -/
def execChrRetrain (p : Nat) (s : State) : Host.Outcome State Fault Refusal :=
  if p < 16 then .next { s with chr := retrainPort p s.chr } else .next s

end Sys2Proof.Machine
end

