-- ==== Sys2Proof/Machine/Root.lean ====
section
/-! DEFINITION. The PCIe root port (spec/19, R407-R409; spec/13, R419): inbound writes, reads and MSIs, and the
completions of outbound reads. -/

namespace Sys2Proof.Machine

/-! ## The translation table (R408) -/

/-- The agent number under which a requester ID accesses memory. -/
def requester (rid : Nat) : Nat := 0x10000 + rid % 65536

/-- The two words of a requester's entry. -/
def rootEntry (s : State) (rid : Nat) : Word × Word :=
  let a := s.pcie.xbase.toNat + rid % 65536 * 16
  (read8 s.mem (placed s a), read8 s.mem (placed s (a + 8)))

/-- Whether an entry is valid: V is 1 and no reserved bit is set, and no word holds an uncorrectable error. -/
def entryOk (s : State) (rid : Nat) : Bool :=
  let (w0, w1) := rootEntry s rid
  bitOf w0 63 && fieldOf w0 44 12 = 0 && fieldOf w1 16 48 = 0
  && (poisoned s (placed s (s.pcie.xbase.toNat + rid % 65536 * 16)) 16).isNone

/-- The partition of an entry. -/
def entryPart (s : State) (rid : Nat) : Nat := fieldOf (rootEntry s rid).1 56 6

/-- The authority of a requester: a U-mode access under the entry's table, or by physical address. -/
def rootEnv (s : State) (rid : Nat) : Env :=
  let (w0, w1) := rootEntry s rid
  { who := requester rid, priv := .u, sum := false, mxr := false, part := entryPart s rid, pmp := false
    satp := if bitOf w0 62 then 0 else bv 64 (14 * 2 ^ 60 + fieldOf w1 0 16 * 2 ^ 44 + fieldOf w0 0 44) }

/-- The cause of a stop in a record of kind 0x08. -/
def Stop.causeOr (e : Stop) (k : Acc) : Nat :=
  match e with
  | .trap c _ => c
  | .uncorrectable c _ _ _ => c
  | _ => k.access

/-- A refused request posts a record of kind 0x08 (R408). -/
def refuseInbound (rid a cause : Nat) (s : State) : State :=
  (postRecord s (entryPart s rid) 0x08 (rid % 65536) 0xFFFFFFF8 0 (bv 64 a) (bv 64 cause)).1

/-- Whether an earlier posted write of a requester has not committed: at a home of the package, or on another module
(R409). -/
def writesOut (s : State) (rid : Nat) : Bool :=
  remoteUnacked s (requester rid) || (unsettled s).any (fun m => m.slot == 2 && m.hart == requester rid)

/-! ## Inbound requests (R409) -/

/-- The device page that an inbound request reaches, if it starts in one. -/
def inboundDevice (s : State) (rid : Nat) (k : Acc) (a n : Nat) : Option Nat :=
  match resolve s (rootEnv s rid) k a (min n 8) with
  | .ok (.dev d, _) => some d
  | _ => none

/-- A store of up to 8 bytes by a requester to a device range, as a U-mode device access: interrupt files and kick pages
admit it. A kick's translation is the entry's. -/
def inboundStore (rid a : Nat) (data : List Byte) : Act Unit := fun s =>
  let e := rootEnv s rid
  let v := ofBytes data
  if !(isDevice a) then storeDevice e 4 a a data.length v s
  else match blockOf a with
  | some (.kick m, 0) =>
    if data.length = 8 && partOf s m = e.part then
      .ok () (performKick m { kickOf s (requester rid) .u (bv 64 v) 4 with satp := e.satp, part := e.part } s)
    else .error (.trap 7 (bv 64 a)) s
  | some (.file _ _, _) => deviceStore { who := requester rid, priv := .u, part := e.part } 4 a a data.length v s
  | _ => .error (.trap 7 (bv 64 a)) s

/-- The bytes an inbound read answers: memory through a leaf with MT = 01 as a scalar access, else byte by byte. -/
def inboundLoad (rid a n : Nat) : Act (List Byte) := fun s =>
  match inboundDevice s rid .load a n with
  | some d =>
    if isDevice d || 8 < n then .error (.trap 5 (bv 64 a)) s
    else match loadDevice (rootEnv s rid) a d n s with
      | .ok v t => .ok (toBytes n v) t
      | .error e t => .error e t
  | none => loadRun (rootEnv s rid) .load n a s

/-- A posted write to one region: its home performs it behind the requester's earlier ones (R409). -/
def postRegion (e : Env) (va : Nat) (bs : List Byte) : Act Unit := do
  match ← locate e .store va bs.length with
  | .mem a => fun s =>
    match s.coh.poison.find? (fun p => touches a bs.length p && !(a ≤ p && p + 8 ≤ a + bs.length)) with
    | some p => .error (.uncorrectable 7 (bv 64 va) (unitOf s p) p) s
    | none => .ok () (s.pushStore { hart := e.who, scalar := true } a bs)
  | .far a => remoteWrite e .store va a bs
  | .dev _ => stop (.trap 7 (bv 64 va))

/-- A posted write of a run of bytes, region by region, at most `n` of them. -/
def postRun (e : Env) : Nat → Nat → List Byte → Act Unit
  | 0, _, _ => fun s => .ok () s
  | n + 1, va, bs =>
    if bs.isEmpty then fun s => .ok () s
    else do
      let k := 256 - va % 256
      postRegion e va (bs.take k)
      postRun e n (va + k) (bs.drop k)

/-- The effect of an inbound write. -/
def inboundWrite (rid a : Nat) (data : List Byte) : Act Unit := fun s =>
  match inboundDevice s rid .store a data.length with
  | some d => if data.length ≤ 8 then inboundStore rid d data s else .error (.trap 7 (bv 64 a)) s
  | none => postRun (rootEnv s rid) (data.length / 256 + 2) a data s

/-- The completion of an inbound read; none is Unsupported Request. -/
def completeRead (tag : Nat) (l : Option (List Byte)) (s : State) : State :=
  { s with pcie := { s.pcie with cpl := s.pcie.cpl ++ [(tag, l)] } }

/-- What an inbound request does: a write; an MSI, which is a write of 32 bits; or a read with its completion. -/
def Inbound.effect (q : Inbound) : Act Unit := fun s =>
  if q.kind = 1 then
    match inboundLoad q.rid q.addr q.len s with
    | .ok l t => .ok () (completeRead q.tag (some l) (settleReads (requester q.rid) 0 t))
    | .error e t => .error e t
  else inboundWrite q.rid q.addr q.data s

/-- The kind of access of an inbound request. -/
def Inbound.acc (q : Inbound) : Acc := if q.kind = 1 then .load else .store

/-- A refused request: a record, and a read completes as Unsupported Request. -/
def Inbound.refuse (q : Inbound) (cause : Nat) (s : State) : State :=
  let s := refuseInbound q.rid q.addr cause s
  if q.kind = 1 then completeRead q.tag none s else s

/-- Serving an inbound request: whether it is done, and the state. A read or MSI waits until the requester's earlier
writes have committed; a request that another module or a migrating page holds up waits. -/
def serveInbound (q : Inbound) (s : State) : Bool × State :=
  if q.kind ≠ 0 && writesOut s q.rid then (false, s)
  else if !s.pcie.en || !(entryOk s q.rid) then (true, q.refuse q.acc.access s)
  else match q.effect s with
    | .ok _ t => (true, t)
    | .error .stall t =>
      (false, { s with coh := { s.coh with remote := t.coh.remote, nextTag := t.coh.nextTag }, chr := t.chr })
    | .error e _ => (true, q.refuse (e.causeOr q.acc) s)

/-- An inbound request arrives: it stands behind the requester's that wait. -/
def arriveInbound (q : Inbound) (s : State) : State :=
  let wait (s : State) : State := { s with pcie := { s.pcie with waiting := s.pcie.waiting ++ [q] } }
  if s.pcie.waiting.any (fun k => k.rid % 65536 == q.rid % 65536) then wait s
  else match serveInbound q s with
    | (true, t) => t
    | (false, t) => wait t

/-- The first inbound request that waits and can go on: it is done, or asks another module. -/
def inboundReady (s : State) : List Inbound → List Inbound → Option (Inbound × Bool × State)
  | _, [] => none
  | before, q :: r =>
    let (done, t) := serveInbound q s
    if before.any (fun k => k.rid % 65536 == q.rid % 65536) then inboundReady s before r
    else if done || t.coh.remote.length ≠ s.coh.remote.length then some (q, done, t)
    else inboundReady s (before ++ [q]) r

/-- The state once a waiting inbound request has gone on; none where none can. -/
def goOnInbound (s : State) : Option State :=
  (inboundReady s [] s.pcie.waiting).map (fun (q, done, t) =>
    if done then { t with pcie := { t.pcie with waiting := t.pcie.waiting.erase q } } else t)

/-- PCIE_INBOUND_WRITE: a posted write of requester `rid`, performed in arrival order. -/
def execPcieInboundWrite (rid a : Nat) (data : Bytes) (s : State) : Host.Outcome State Fault Refusal :=
  .next (arriveInbound { rid := rid, kind := 0, addr := a, data := data, len := data.length, tag := 0 } s)

/-- PCIE_INBOUND_READ: performed after earlier writes of the requester have committed; a refused read completes as
Unsupported Request. -/
def execPcieInboundRead (rid a n tag : Nat) (s : State) : Host.Outcome State Fault Refusal :=
  .next (arriveInbound { rid := rid, kind := 1, addr := a, data := [], len := n, tag := tag } s)

/-- PCIE_MSI: a 32-bit write of an identity, after earlier writes of the requester have committed. -/
def execPcieMsi (rid a id : Nat) (s : State) : Host.Outcome State Fault Refusal :=
  .next (arriveInbound { rid := rid, kind := 2, addr := a, data := toBytes 4 id, len := 4, tag := 0 } s)

/-! ## Outbound reads (R419) -/

/-- PCIE_COMPLETION: the device answers the outbound read of an agent. -/
def execPcieCompletion (who v : Nat) (s : State) : Host.Outcome State Fault Refusal :=
  let one (r : OutRead) : OutRead :=
    let new : OutRead := { r with answer := some (bv 64 v) }
    if r.who == who && r.answer.isNone then new else r
  .next { s with pcie := { s.pcie with reads := s.pcie.reads.map one } }

end Sys2Proof.Machine
end

