-- ==== Sys2Proof/Machine/Start.lean ====
section
/-! DEFINITION. Start-up (spec/17, R378-R380; spec/19, R415): firmware images, cold and warm starts, failed starts,
recovery, and the loss of power. -/

namespace Sys2Proof.Machine

/-! ## Firmware images (R415) -/

/-- A field of an image header of `n` bytes at an offset. The spec gives the fields but not their places or widths: KIND,
SVN, LEN and ENTRY stand in this order in the first four 32-bit words, little-endian, and the digest in the 48 bytes at 0x10,
most significant first (DESIGN CHOICE, assumption 39). -/
def imageField (l : List Byte) (off n : Nat) : List Byte := (l.drop off).take n

/-- KIND of an image. -/
def imageKind (l : List Byte) : Nat := ofBytes (imageField l 0 4)

/-- The security version of an image. -/
def imageSvn (l : List Byte) : Nat := ofBytes (imageField l 4 4)

/-- LEN of an image. -/
def imageLen (l : List Byte) : Nat := ofBytes (imageField l 8 4)

/-- The entry offset of an image. -/
def imageEntry (l : List Byte) : Nat := ofBytes (imageField l 12 4)

/-- The payload of an image. -/
def imagePayload (l : List Byte) : List Byte := (l.drop 256).take (imageLen l)

/-- Verification of an image of a kind under the firmware key: its length, its kind, its entry, the digest of its payload
and the signature over header bytes 0x00 to 0x9F. -/
def imageGood (key : Nat × Nat) (kind : Nat) (l : List Byte) : Bool :=
  256 ≤ l.length && (imagePayload l).length = imageLen l && imageKind l = kind
  && (if kind = 1 then imageEntry l % 4 = 0 else imageEntry l = 0)
  && imageField l 16 48 = toBytesBE 48 (sha384 (imagePayload l)).toNat
  && signedBy key (l.take 0xA0) (imageField l 0xA0 96)

/-- The bytes of a slot. -/
def Firmware.slot (f : Firmware) (i : Nat) : List Byte := if i = 0 then f.slot0 else f.slot1
/-- The active slot's bytes. -/
def Firmware.image (f : Firmware) : List Byte := f.slot f.active
/-- The other slot's number. -/
def Firmware.other (f : Firmware) : Nat := if f.active = 0 then 1 else 0

/-- The firmware pair of a kind. -/
def Nov.firmware (n : Nov) (kind : Nat) : Firmware := n.fw[kind % 3]'(Nat.mod_lt _ (by decide))

/-- A firmware pair at the beginning of a start: a newly committed slot that failed gives way to the other one, and a slot
committed since then becomes the active one. -/
def Firmware.begin (f : Firmware) (failed : Bool) : Firmware :=
  let f := if failed && f.trial.isSome then { f with active := f.other, trial := none } else f
  match f.fresh with
  | some v => { f with active := f.other, fresh := none, trial := some v }
  | none => f

/-! ## Starting (R379) -/

/-- Every unit as reset leaves it; what stays is memory, Novnum, the module facts, time and the model's own fields. -/
def resetUnits (s : State) : State :=
  { State.reset with
    cur := s.cur
    sched := s.sched
    stepwise := s.stepwise
    fresh := s.fresh
    ticks := s.ticks
    mem := s.mem
    nov := s.nov
    pkg := s.pkg }

/-- The digest of a firmware image that a start measures. -/
def measureOf (n : Nov) (kind : Nat) : BitVec 384 := sha384 (imagePayload (n.firmware kind).image)

/-- Step 1 of a start (R379): every image is measured. At every start Novnum measures its own firmware, from which it
derives the alias key (R413). -/
def measured (n : Nov) : Nov := { n with measured := .ofFn (fun k => measureOf n k.val) }

/-- A start that finds FAILCNT = 3 measures Novnum's firmware alone. -/
def measuredOwn (n : Nov) : Nov := { n with measured := n.measured.set 0 (measureOf n 0) }

/-- The package does not run: Novnum alone answers. -/
def notStarted (s : State) (p : Pkg → Pkg) (n : Nov → Nov) : State :=
  let t := resetUnits s
  { t with pkg := p { t.pkg with stopped := true }, nov := n t.nov }

/-- The module facts of a start that has been asked for: its requests are taken. -/
def Pkg.begin (p : Pkg) : Pkg :=
  { p with
    failCnt := if p.failCnt = 3 then 3 else p.failCnt + 1
    bootOk := false
    coldReq := false
    warmReq := false
    startDue := false
    startedAt := none
    powered := true
    links := []
    retraining := [] }

/-- A granule lies in a list of partitions that are rebuilt. -/
def rebuilt (s : State) (a : Nat) : Bool :=
  s.parts.any (fun p => s.nov.rebuild.contains p.1 && p.2.granules.contains ((a - ownBase s) / 2 ^ 25))

/-- What a warm start keeps of memory: HBM but that of the partitions being rebuilt. -/
def keptMemory (s : State) : List Host.Cell := s.mem.filter (fun c => isOwnMem s c.1 && !(rebuilt s c.1))

/-- What a warm start keeps of a partition: what Novnum assigned, and its key unless it is rebuilt. -/
def keptPart (s : State) (p : Nat × Part) : Nat × Part :=
  let x := p.2
  let new : Part := {
    state := x.state, cl := x.cl, sc := x.sc, md := x.md, chr := x.chr, noc := x.noc, granules := x.granules,
    mmio := x.mmio, joins := x.joins, key := if s.nov.rebuild.contains p.1 then s.fresh + 1 + p.1 else x.key }
  (p.1, new)

/-- Step 5 of a cold start, and MODIDX and MEMB from the values set last (R392). -/
def coldState (excl : BitVec 144) (s : State) : State :=
  let t := resetUnits s
  let n := s.nov
  { t with
    mem := []
    chr := { t.chr with
      valid := n.stagedValid
      modIdx := n.stagedMod
      memb := if n.stagedValid then n.stagedMemb ||| bv 64 (2 ^ n.stagedMod.toNat) else 0 }
    pkg := { s.pkg with warm := false, excl := excl, calibrated := true } }

/-- Step 5 of a warm start. -/
def warmState (s : State) : State :=
  let t := resetUnits s
  { t with
    mem := keptMemory s
    fresh := s.fresh + 65
    parts := s.parts.map (keptPart s)
    chr := { t.chr with valid := s.chr.valid, modIdx := s.chr.modIdx, memb := s.chr.memb }
    coh := { t.coh with poison := s.coh.poison.filter (fun a => isOwnMem s a && !(rebuilt s a)) }
    pkg := { s.pkg with warm := true } }

/-- The granules of the payload belong to the partition that holds sc0 of die0. -/
def grantPayload (n : Nat) (s : State) : State :=
  let gs := List.range ((n + 2 ^ 25 - 1) / 2 ^ 25)
  let one (p : Nat × Part) : Nat × Part :=
    let rest := p.2.granules.filter (fun g => !(gs.contains g))
    let new : Part := { p.2 with granules := if p.2.sc.getLsbD 0 then gs ++ rest else rest }
    (p.1, new)
  { s with parts := s.parts.map one }

/-- Step 6: the payload is copied to the start of memory and sc0 of die0 starts at its entry. -/
def bootFirmware (s : State) : State :=
  let l := (s.nov.firmware 1).image
  let base := ownBase s
  let pc := bv 64 (base + imageEntry l)
  let h := Hart.init 9216
  let s := grantPayload (imagePayload l).length { s with mem := writeBytes s.mem base (imagePayload l) }
  s.setHartAt 9216 { h with
    pc := pc
    x := h.x.set 11 (bv 64 base)
    ctl := { h.ctl with parked := false, rpc := pc } }

/-- The module facts and Novnum once the package has started. -/
def startedNov (s : State) : State :=
  { s with
    pkg := { s.pkg with stopped := false, failed := false, linkFailed := false, startedAt := some s.ticks }
    nov := { s.nov with
      recovery := false
      recovered := false
      received := []
      rebuild := [] } }

/-- Whether the signature checks, the links, and on a cold start training and self-test, let a start go on. -/
def startGood (s : State) (cold trained broken : Bool) : Bool :=
  (List.range 3).all (fun k => imageGood s.nov.fwKey k (s.nov.firmware k).image) && !s.pkg.linkFailed
  && (!cold || (trained && !broken))

/-- A start that has been asked for or is due. -/
def startWanted (p : Pkg) : Bool := !p.powered || p.coldReq || p.warmReq || p.startDue

/-- A start with FAILCNT below 3, or from an image received in recovery. -/
def startPackage (cold trained broken : Bool) (excl : BitVec 144) (s : State) : State :=
  let failed := s.pkg.failed
  let s := { s with pkg := s.pkg.begin, nov := measured { s.nov with fw := s.nov.fw.map (fun f => f.begin failed), sessions := [] } }
  if startGood s cold trained broken then
    bootFirmware (startedNov (if cold then coldState excl s else warmState s))
  else notStarted s (fun p => { p with failed := true, linkFailed := false }) (fun n => { n with recovered := false })

/-- PACKAGE_START: power-on or a requested start. `trained` says that HBM training succeeds, `broken` that a die-to-die
link, an HBM stack or sc0 of die0 fails self-test, and `excl` names the clusters that fail it. -/
def execPackageStart (trained broken : Bool) (excl : Nat) (s : State) : Host.Outcome State Fault Refusal :=
  if !(startWanted s.pkg) then .next s
  else if s.pkg.failCnt = 3 && !s.nov.recovered then
    .next (notStarted s Pkg.begin (fun n => measuredOwn { n with recovery := true, sessions := [] }))
  else .next (startPackage (!s.pkg.powered || s.pkg.coldReq || !s.pkg.warmReq) trained broken (bv 144 excl) s)

/-- BOOT_OK has not been written within 120 s. -/
def bootLate (s : State) : Bool :=
  match s.pkg.startedAt with
  | some t => !s.pkg.bootOk && !s.pkg.failed && decide (t + 12000000000 ≤ s.ticks)
  | none => false

/-- BOOT_TIMEOUT: the start has failed. -/
def execBootTimeout (s : State) : Host.Outcome State Fault Refusal :=
  if bootLate s then .next { s with pkg := { s.pkg with failed := true } } else .next s

/-- POWER_LOSS: always-on storage keeps FAILCNT and the HBM calibration (R379, R380); firmware slots, security versions,
enrolled keys and the values of SET_FAB are kept as well (assumption 40). -/
def execPowerLoss (s : State) : Host.Outcome State Fault Refusal :=
  let t := resetUnits s
  let p := s.pkg
  .next { t with
    mem := []
    pkg := { failCnt := p.failCnt, calibrated := p.calibrated, powered := false, failed := p.failed,
             linkFailed := p.linkFailed }
    nov := { s.nov with sessions := [], log := [], telem := [], out := [], measured := .replicate 3 0, recovery := false,
                        received := [], recovered := false, rebuild := [] } }

end Sys2Proof.Machine
end

