-- ==== Sys2Proof/Machine/Novnum.lean ====
section
/-! DEFINITION. The management port (spec/19, R410-R416; spec/17, R360): frames, sessions, responses, identity and
attestation, partitions, firmware, logs and recovery. Each event carries the frame that arrives; what a body says whose layout
the spec does not give stands in further arguments (assumption 41). -/

namespace Sys2Proof.Machine

/-! ## Frames (R410, R411) -/

/-- A field of a frame or message, most significant byte first. -/
def fieldBE (l : List Byte) (off n : Nat) : Nat := ofBytesBE ((l.drop off).take n)

/-- A frame as it arrives: the destination and the source MAC address, and what follows them. -/
def frameOf (dst src : Nat) (rest : List Byte) : List Byte := toBytesBE 6 dst ++ toBytesBE 6 src ++ rest

/-- The message of a frame, behind both MAC addresses and the EtherType. -/
def frameMsg (f : List Byte) : List Byte := f.drop 14

/-- LEN of a message. -/
def msgLen (m : List Byte) : Nat := fieldBE m 0x10 4

/-- A frame holds a request of an enrolled operator key: Novnum's MAC address, EtherType 0x88B5, the magic bytes and VER, no
response flag, and a signature behind a body of at most 1,344 bytes. -/
def frameGood (n : Nov) (f : List Byte) : Bool :=
  let m := frameMsg f
  let k := 0x18 + msgLen m
  fieldBE f 0 6 == n.mac.toNat && fieldBE f 12 2 == 0x88B5 && fieldBE m 0 3 == 0x5A4E01 && fieldBE m 4 4 % 2 == 0
  && decide (msgLen m ≤ 1344) && n.operators.any (fun key => signedBy key (m.take k) ((m.drop k).take 96))

/-- What the header of a request says: OP, SESSION, SEQ and OFFSET, the body, and the sender's MAC address. -/
structure Request where
  op : Nat
  ses : Nat
  seq : Nat
  off : Nat
  body : List Byte
  sender : Nat
  deriving DecidableEq, Repr

/-- The request in a frame. -/
def requestOf (f : List Byte) : Request :=
  let m := frameMsg f
  { op := fieldBE m 3 1, ses := fieldBE m 8 4, seq := fieldBE m 12 4, off := fieldBE m 0x14 4, body := (m.drop 0x18).take (msgLen m),
    sender := fieldBE f 6 6 }

/-- The alias key's signature over bytes (R413): its private half and the secret number are free values in the range of
FIPS 186-5 (assumption 39). -/
def aliasSign (n : Nov) (l : List Byte) : List Byte :=
  let own := n.measured[0]
  let range (x : Nat) : Nat := x % (n384 - 1) + 1
  signatureBytes (signs (range (Config.aliasKey own)) (range (Config.signSecret own l)) (sha384 l))

/-- A message and its signature, in a frame to the sender of a request. -/
def responseBytes (s : State) (r : Request) (result ses : Nat) (body : List Byte) : List Byte :=
  let m := [0x5A, 0x4E, 1, bv 8 r.op] ++ toBytesBE 4 (1 + result * 256) ++ toBytesBE 4 ses ++ toBytesBE 4 r.seq
    ++ toBytesBE 4 body.length ++ toBytesBE 4 r.off ++ body
  toBytesBE 6 r.sender ++ toBytesBE 6 s.nov.mac.toNat ++ [0x88, 0xB5] ++ m ++ aliasSign s.nov m

/-- Sending a response. -/
def reply (r : Request) (result ses : Nat) (body : List Byte) (s : State) : State :=
  { s with nov := { s.nov with out := s.nov.out ++ [responseBytes s r result ses body] } }

/-- A request that is not carried out: its result code is a free value other than OK (assumption 41). -/
def deny (r : Request) (ses : Nat) (s : State) : State := reply r (1 + Config.freeNat s.fresh % 255) ses [] s.useFresh

/-- A part of a long body from an offset on. -/
def chunk (off : Nat) (l : List Byte) : List Byte := (l.drop off).take 1344

/-- A frame is a request for an operation that Novnum can take up. -/
def takesUp (s : State) (op : Nat) (f : List Byte) : Bool :=
  s.pkg.powered && (requestOf f).op == op && frameGood s.nov f

/-- The session that a request continues: a known one whose SEQ is the last plus 1. -/
def sessionOk (s : State) (r : Request) : Bool :=
  s.nov.sessions.any (fun x => x.id == r.ses && r.seq == (x.seq + 1) % 2 ^ 32)

/-- The session's last SEQ. -/
def countSeq (s : State) (r : Request) : State :=
  let one (x : Session) : Session :=
    let new : Session := { x with seq := r.seq }
    if x.id == r.ses then new else x
  { s with nov := { s.nov with sessions := s.nov.sessions.map one } }

/-- Carrying out a request: a frame that is none, or whose session is unknown or SEQ another, is dropped without a response;
`g` gives the new state and the body of the response, or none. -/
def manage (op : Nat) (f : List Byte) (g : Request → State → Option (State × List Byte)) (s : State) :
    Host.Outcome State Fault Refusal :=
  let r := requestOf f
  if takesUp s op f && sessionOk s r then
    let t := countSeq s r
    match g r t with
    | some (u, body) => .next (reply r 0 r.ses body u)
    | none => .next (deny r r.ses t)
  else .next s

/-- Carrying out a request for a part of a long body: the event names the OFFSET that its frame gives. -/
def manageAt (op : Nat) (f : List Byte) (off : Nat) (g : Request → State → Option (State × List Byte)) (s : State) :
    Host.Outcome State Fault Refusal :=
  if (requestOf f).off = off then manage op f g s else .next s

/-- An unused session number near a number. -/
def freshId (l : List Session) (g : Nat) : Nat :=
  (((List.range 5).map (fun i => (g + i) % 2 ^ 32)).find? (fun k => !(l.any (fun x => x.id == k)))).getD g

/-- OPEN: a session from a nonce of each side; the request's is its body. Novnum's nonce and the session's number are free
values (assumption 41). -/
def execMgmtOpen (dst src : Nat) (rest : Bytes) (s : State) : Host.Outcome State Fault Refusal :=
  let f := frameOf dst src rest
  let r := requestOf f
  if !(takesUp s 0x01 f) then .next s
  else if 4 ≤ s.nov.sessions.length || r.body.length ≠ 48 then .next (deny r 0 s)
  else
    let own := toBytes 48 (Config.freeNat s.fresh)
    let id := freshId s.nov.sessions (Config.freeNat (s.fresh + 1))
    let new : Session := { id := id, seq := r.seq, nonces := r.body ++ own }
    let t := { s with fresh := s.fresh + 2, nov := { s.nov with sessions := s.nov.sessions ++ [new] } }
    .next (reply r 0 id own t)

/-! ## Identity and attestation (R412-R414) -/

/-- IDENT. -/
def execIdent (dst src : Nat) (rest : Bytes) (off : Nat) : State → Host.Outcome State Fault Refusal :=
  manageAt 0x02 (frameOf dst src rest) off (fun r s =>
    some (s, chunk r.off (toBytesBE 16 s.nov.serial.toNat ++ Config.certificates (s.nov.measured[0]))))

/-- What the report measures of a partition: the first 256 bytes of its control block, its granules and its joins. -/
def partitionBytes (s : State) (p : Nat) : List Byte :=
  (List.range 32).flatMap (fun i => toBytes 8 (readPart s p (8 * i)).toNat)
  ++ (s.partAt p).granules.flatMap (toBytes 4) ++ (s.partAt p).joins.flatMap (fun j => toBytes 4 j.1 ++ toBytes 4 j.2)

/-- The attestation report but for its signature. -/
def reportBody (s : State) (p nonce : Nat) : List Byte :=
  let n := s.nov
  let meas (k : Nat) : List Byte := toBytes 48 ((n.measured[k]?).getD 0).toNat
  toBytes 8 1 ++ toBytes 16 n.serial.toNat
  ++ toBytes 8 (p % 64 + s.chr.modIdx.toNat * 256 + s.pkg.warm.toNat * 65536) ++ toBytes 48 nonce
  ++ meas 0 ++ meas 1 ++ meas 2 ++ toBytes 48 (sha384 (partitionBytes s p)).toNat
  ++ toBytes 8 ((n.firmware 0).minSvn % 65536 + (n.firmware 1).minSvn % 65536 * 2 ^ 16 + (n.firmware 2).minSvn % 65536 * 2 ^ 32)

/-- ATTEST. -/
def execAttest (dst src : Nat) (rest : Bytes) (p nonce : Nat) : State → Host.Outcome State Fault Refusal :=
  manage 0x03 (frameOf dst src rest) (fun _ s =>
    let l := reportBody s p nonce
    if p < 64 then some (s, l ++ aliasSign s.nov l) else none)

/-! ## Partitions (R356, R360, R396, R412) -/

/-- What PART_BUILD assigns. -/
def newPart (cl sc md chr noc : Nat) (granules mmio : List Nat) (key : Nat) : Part :=
  { state := 2, cl := bv 144 cl, sc := bv 24 sc, md := bv 48 md, chr := bv 7 chr, noc := bv 7 noc, granules := granules,
    mmio := mmio, key := key }

/-- Whether two partitions share a resource. -/
def Part.meets (a b : Part) : Bool :=
  (a.cl &&& b.cl) ≠ 0 || (a.sc &&& b.sc) ≠ 0 || (a.md &&& b.md) ≠ 0
  || a.granules.any (fun g => b.granules.contains g) || a.mmio.any (fun g => b.mmio.contains g)

/-- Whether a partition can be built: it is free, no other holds its resources, no cluster is excluded, every granule
exists, and the shares of the live partitions sum to at most 64. -/
def canBuild (s : State) (p : Nat) (x : Part) : Bool :=
  let live := s.parts.filter (fun q => q.2.state = 2)
  p < 64 && (s.partAt p).state = 0 && !(s.parts.any (fun q => q.1 != p && q.2.meets x)) && (x.cl &&& s.pkg.excl) = 0
  && x.granules.all (fun g => g < 18432) && x.mmio.all (fun g => g < 262144) && 1 ≤ x.noc.toNat
  && live.foldl (fun n q => n + q.2.noc.toNat) x.noc.toNat ≤ 64 && live.foldl (fun n q => n + q.2.chr.toNat) x.chr.toNat ≤ 64

/-- PART_BUILD. -/
def execPartBuild (dst src : Nat) (rest : Bytes) (p cl sc md chr noc : Nat) (granules mmio : Nats) :
    State → Host.Outcome State Fault Refusal :=
  manage 0x10 (frameOf dst src rest) (fun _ s =>
    let x := newPart cl sc md chr noc granules mmio (s.fresh + 1)
    if canBuild s p x then some ((s.setPartAt p x).useFresh, []) else none)

/-- The agents of a partition. -/
def ofPart (x : Part) (h : Nat) : Bool :=
  match kindOf h with
  | .compute => x.cl.getLsbD (clusterOf h)
  | .clusterMilliner => x.cl.getLsbD (clusterOf h)
  | .system => x.sc.getLsbD (h - 9216)
  | .dieMilliner => x.md.getLsbD (h - 9528)

/-- An agent number of a partition (R354). -/
def agentOfPart (x : Part) (a : Nat) : Bool :=
  if a < 2304 then ofPart x (4 * a) else if a < 9576 then ofPart x a else x.cl.getLsbD (a - 9576)

/-- A physical address that a scrub zeroes: the TCMs and scratchpads of the partition's clusters, and its granules. -/
def scrubbed (s : State) (x : Part) (a : Nat) : Bool :=
  match regionOf s a with
  | .tcm c => x.cl.getLsbD (c / 16)
  | .spad c => x.cl.getLsbD c
  | .own => x.granules.contains ((a - ownBase s) / 2 ^ 25)
  | _ => false

/-- The Carder's storage without a partition's tasks and harts. -/
def DieSt.scrub (d : DieSt) (p : Nat) (x : Part) : DieSt :=
  { d with
    waiting := d.waiting.filter (fun t => t.part != p)
    retiring := d.retiring.filter (fun r => r.part != p)
    panels := d.panels.filter (fun q => q.part != p)
    away := d.away.filter (fun q => q.part != p)
    told := d.told.filter (fun q => q.1 != p)
    requests := d.requests.filter (fun h => !(ofPart x h))
    deliveries := d.deliveries.filter (fun q => !(ofPart x q.hart)) }

/-- A cluster's registers and storage after a scrub; its clocks and rails stand, and a save in progress has ended. -/
def ClusterSt.scrub (c : ClusterSt) : ClusterSt :=
  { req := c.req, force := false, busy := c.busy && !c.saving, railOff := c.railOff, clkOff := c.clkOff, wakeStep := c.wakeStep,
    waking := c.waking, mode := c.mode, modeDue := c.modeDue }

/-- The memory system without what concerns a partition's agents and memory. -/
def Coh.scrub (k : Coh) (x : Part) (gone : Nat → Bool) : Coh :=
  { k with
    dir := k.dir.filter (fun d => !(gone (d.1 * 256)))
    copies := k.copies.filter (fun c => !(agentOfPart x c.agent) && !(gone c.word))
    net := k.net.filter (fun m => !(ofPart x m.hart) && !(gone m.addr))
    commits := k.commits.filter (fun c => !(ofPart x c.msg.hart) && !(gone c.msg.addr))
    evicting := k.evicting.filter (fun e => !(gone (e.region * 256)))
    leases := k.leases.filter (fun l => !(ofPart x l.hart))
    queued := k.queued.filter (fun m => !(ofPart x m.hart) && !(gone m.addr))
    migs := k.migs.filter (fun g => !(gone g.old))
    remote := k.remote.filter (fun r => !(ofPart x r.hart))
    poison := k.poison.filter (fun a => !(gone a))
    farResv := k.farResv.filter (fun r => !(gone r.2)) }

/-- A translation cached for another partition. -/
def TlbEnt.keeps (p : Nat) (t : TlbEnt) : Bool := t.part != p

/-- The order of R360: contexts discarded, cached lines and translations of the partition invalidated, its units and
memory zeroed, its key discarded, and its control block at reset. -/
def scrubPart (p : Nat) (s : State) : State :=
  let x := s.partAt p
  let gone := scrubbed s x
  { s with
    mem := s.mem.filter (fun c => !(gone c.1))
    harts := s.harts.filter (fun h => !(ofPart x h.1))
    mills := s.mills.filter (fun m => !(ofPart x m.1))
    cores := (s.cores.filter (fun c => !(2304 ≤ c.1 && ofPart x (c.1 - 2304 + 9216)) && !(c.1 < 2304 && ofPart x (4 * c.1)))).map
      (fun c => (c.1, { c.2 with tlb := c.2.tlb.filter (TlbEnt.keeps p) }))
    clusters := s.clusters.map (fun c =>
      (c.1, if x.cl.getLsbD c.1 then c.2.scrub else { c.2 with tlb := c.2.tlb.filter (TlbEnt.keeps p) }))
    dies := s.dies.map (fun d => (d.1, d.2.scrub p x))
    coh := s.coh.scrub x gone
    pcie := { s.pcie with reads := s.pcie.reads.filter (fun r => !(ofPart x r.who)) }
    parts := s.parts.filter (fun q => q.1 != p) }

/-- PART_SCRUB. -/
def execPartScrub (dst src : Nat) (rest : Bytes) (p : Nat) :
    State → Host.Outcome State Fault Refusal :=
  manage 0x11 (frameOf dst src rest) (fun _ s => if (s.partAt p).state = 2 then some (scrubPart p s, []) else none)

/-- PART_JOIN: partition `p` of this module is joined with partition `q` of module `mod`. -/
def execPartJoin (dst src : Nat) (rest : Bytes) (p mod q : Nat) :
    State → Host.Outcome State Fault Refusal :=
  manage 0x12 (frameOf dst src rest) (fun _ s =>
    let x := s.partAt p
    if x.state = 2 && mod < 64 && q < 64 then some (s.setPartAt p { x with joins := x.joins ++ [(mod, q)] }, []) else none)

/-! ## Module index, firmware and starts (R378, R380, R392, R415) -/

/-- SET_FAB. -/
def execSetFab (dst src : Nat) (rest : Bytes) (m memb : Nat) :
    State → Host.Outcome State Fault Refusal :=
  manage 0x20 (frameOf dst src rest) (fun _ s =>
    if m < 64 then
      some ({ s with nov := { s.nov with stagedMod := bv 6 m, stagedMemb := bv 64 memb, stagedValid := true } }, [])
    else none)

/-- A list with bytes written at an offset; a gap is zero. -/
def splice (l : List Byte) (off : Nat) (d : List Byte) : List Byte :=
  fillTo off (l.take off) ++ d ++ l.drop (off + d.length)

/-- Replacing the firmware pair of a kind. -/
def setFirmware (s : State) (kind : Nat) (f : Firmware) : State :=
  { s with nov := { s.nov with fw := s.nov.fw.set (kind % 3) f (Nat.mod_lt _ (by decide)) } }

/-- Writing a slot. -/
def Firmware.setSlot (f : Firmware) (i : Nat) (l : List Byte) : Firmware :=
  if i = 0 then { f with slot0 := l } else { f with slot1 := l }

/-- FW_STAGE: a chunk to the inactive slot; while a commit waits for the next start there is none (assumption 40). -/
def execFwStage (dst src : Nat) (rest : Bytes) (kind off : Nat) (data : Bytes) :
    State → Host.Outcome State Fault Refusal :=
  manageAt 0x30 (frameOf dst src rest) off (fun r s =>
    let f := s.nov.firmware kind
    if kind < 3 && f.fresh.isNone then
      some (setFirmware s kind (f.setSlot f.other (splice (f.slot f.other) r.off data)), [])
    else none)

/-- FW_COMMIT: the image in the inactive slot is verified and becomes active for the next start. -/
def execFwCommit (dst src : Nat) (rest : Bytes) (kind : Nat) :
    State → Host.Outcome State Fault Refusal :=
  manage 0x31 (frameOf dst src rest) (fun _ s =>
    let f := s.nov.firmware kind
    let l := f.slot f.other
    if kind < 3 && imageGood s.nov.fwKey kind l && f.minSvn ≤ imageSvn l then
      some (setFirmware s kind { f with fresh := some (imageSvn l) }, [])
    else none)

/-- RESET: a cold start, or a warm start that rebuilds the named partitions. -/
def execMgmtReset (dst src : Nat) (rest : Bytes) (cold : Bool) (rebuild : Nats) :
    State → Host.Outcome State Fault Refusal :=
  manage 0x40 (frameOf dst src rest) (fun _ s => some ({ s with
    pkg := { s.pkg with coldReq := s.pkg.coldReq || cold, warmReq := s.pkg.warmReq || !cold }
    nov := { s.nov with rebuild := if cold then s.nov.rebuild else rebuild } }, []))

/-- RECOVER: in recovery a chunk of an image arrives; after the last one the image is verified, takes the active slot of
its kind, and a start from it is due. -/
def execRecover (dst src : Nat) (rest : Bytes) (kind off : Nat) (last : Bool) (data : Bytes) :
    State → Host.Outcome State Fault Refusal :=
  manageAt 0x60 (frameOf dst src rest) off (fun r s =>
    if !s.nov.recovery || 3 ≤ kind then none
    else
      let l := splice s.nov.received r.off data
      if !last then some ({ s with nov := { s.nov with received := l } }, [])
      else if !(imageGood s.nov.fwKey kind l) then none
      else
        let f := s.nov.firmware kind
        let s := setFirmware s kind { f.setSlot f.active l with fresh := none, trial := none }
        some ({ s with
          nov := { s.nov with received := [], recovered := true }
          pkg := { s.pkg with startDue := true } }, []))

/-! ## Logs (R416) -/

/-- LOG_READ. -/
def execLogRead (dst src : Nat) (rest : Bytes) (off : Nat) :
    State → Host.Outcome State Fault Refusal :=
  manageAt 0x50 (frameOf dst src rest) off (fun r s => some (s, chunk r.off s.nov.log.flatten))

/-- TELEM_READ. -/
def execTelemRead (dst src : Nat) (rest : Bytes) (off : Nat) :
    State → Host.Outcome State Fault Refusal :=
  manageAt 0x51 (frameOf dst src rest) off (fun r s => some (s, chunk r.off s.nov.telem.flatten))

end Sys2Proof.Machine
end

