-- ==== Sys2Proof/Machine/Retention.lean ====
section
/-! DEFINITION. The retention image of a cluster and its wake (spec/17, R373, R374; spec/18, R386). -/

namespace Sys2Proof.Machine

/-! ## The image (R373) -/

/-- RET_SIZE. -/
def imageSize : Nat := 0xC01000

/-- The cores of a cluster. -/
def coresOf (c : Nat) : List Nat := (List.range 16).map (fun k => 16 * c + k)

/-- The state of the cluster's units: 4 KiB whose layout is not defined for software, so they are free values
(assumption 33). -/
def imageUnits (s : State) : List Byte := (List.range 4096).map (fun i => bv 8 (Config.freeNat (s.fresh + i)))

/-- The part of a core of the image: 512 KiB. -/
def imageCore (s : State) (core : Nat) : List Byte :=
  readBytes s.mem 0x40000 (tcmAlias core)
  ++ (hartsOfCore core).flatMap (fun h => recordFixed (s.hartAt h) 0xA800)
  ++ (List.range 8).flatMap (fun t => ((s.coreAt core).tile t).saved)
  ++ List.replicate 512 0
  ++ (hartsOfCore core).flatMap (fun h => ((s.hartAt h).bbuf 0).saved ++ ((s.hartAt h).bbuf 1).saved)
  ++ List.replicate (0x80000 - 0x70600) 0

/-- The whole image. -/
def imageBytes (s : State) (c : Nat) : List Byte :=
  imageUnits s ++ readBytes s.mem 0x400000 (spadAlias c) ++ (coresOf c).flatMap (imageCore s)

/-- What the units and harts of a cluster keep beside the image's defined parts. -/
def keepUnits (s : State) (c : Nat) : State :=
  s.modCluster c (fun k => { k with
    kept := k.partials
    keptMisses := k.misses
    keptTlb := k.tlb
    keptRuns := (hartsOfCluster c).map (fun h => (h, (s.hartAt h).run)) })

/-- Whether the image's range is memory of the cluster's partition without an uncorrectable error. -/
def imageOk (s : State) (c : Nat) : Bool :=
  let a := (s.clusterAt c).retBase.toNat
  spanMemory s (partOfCluster s c) a imageSize && !(spanPoisoned s a imageSize)

/-- The number under which a cluster's image is written: no agent's. -/
def imageWriter (c : Nat) : Nat := 2 ^ 31 + c

/-- The image is complete once its writes are performed. -/
def finishImage (c : Nat) (s : State) : State :=
  if (unsettled s).any (fun m => m.hart == imageWriter c) then s
  else s.modCluster c (fun k => { k with saving := false, wrote := false, busy := false, saved := true })

/-- The image is written, or the write faults. -/
def saveImage (c : Nat) (s : State) : State :=
  let a := (s.clusterAt c).retBase.toNat
  if imageOk s c then
    let bs := imageBytes s c
    let s := storePhys { hart := imageWriter c, scalar := true } (partOfCluster s c) a bs (keepUnits s c)
    finishImage c { s.modCluster c (fun k => { k with wrote := true }) with fresh := s.fresh + 4096 }
  else s.modCluster c (fun k => { k with saving := false, busy := false, err := true })

/-- RET_SAVE_COMPLETE. -/
def execRetSaveComplete (c : Nat) (s : State) : Host.Outcome State Fault Refusal :=
  let k := s.clusterAt c
  if k.saving && k.wrote then .next (finishImage c s)
  else if k.saving && spanReady s k.retBase.toNat imageSize then .next (saveImage c s)
  else .next s

/-! ## Reading the image back (R374, R386) -/

/-- The offset of a core's part. -/
def coreOffset (core : Nat) : Nat := 0x401000 + core % 16 * 0x80000

/-- A run's windows, streams and turn as they stood (R373, R386): the strip buffers lie in the saved TCM. -/
def Run.kept (r : Run) : Run :=
  { streams := r.streams, windows := r.windows, uiPend := r.uiPend, turn := r.turn, word0 := r.word0,
    panel := r.panel, arrival := r.arrival, pfxOwn := r.pfxOwn }

/-- A hart of the cluster read back from its record, with the privilege of its header, and from its B buffers at an address. -/
def readHart (s : State) (a h : Nat) (runs : List (Nat × Run)) (x : Hart) : Hart :=
  let r := a + 0x40000 + h % 4 * 0xA800
  let b := a + 0x6C400 + h % 4 * 0x1080
  let w (off : Nat) : Word := bv 64 (physNat s (r + off) 8)
  let y := x.loadRecord w (fun i => bv 8192 (physNat s (r + 2048 + 1024 * i) 1024))
  let run := (look {} runs h).kept
  { y with
    pc := w 16
    priv := Priv.ofCode (fieldOf (w 0) 9 2)
    dev := { y.dev with grant := (w 0x260).setWidth 7 }
    run := { run with bbufs := #v[restoredBbuf s b, restoredBbuf s (b + 2112)] } }

/-- The tiles of a core read back; `first` as R364's tiles are. -/
def readTiles (s : State) (a : Nat) : List Tile := restoredTiles s (a + 0x6A000) 8 0 (0, 0)

/-- A core read back: TCM, harts and tiles. -/
def readCore (c : Nat) (s : State) (core : Nat) : State :=
  let k := s.clusterAt c
  let a := k.retBase.toNat + coreOffset core
  let tcm := physBytes s a 0x40000
  let s := { s with mem := writeBytes s.mem (tcmAlias core) tcm }
  let s := s.setCoreAt core ((s.coreAt core).setTiles 0 (readTiles s a))
  (hartsOfCore core).foldl (fun s h => s.modHart h (readHart s a h k.keptRuns)) s

/-- The image read back. -/
def readImage (c : Nat) (s : State) : State :=
  let k := s.clusterAt c
  let spad := physBytes s (k.retBase.toNat + 0x1000) 0x400000
  let s := (coresOf c).foldl (readCore c) { s with mem := writeBytes s.mem (spadAlias c) spad }
  s.modCluster c (fun k => { k with
    partials := k.kept
    misses := k.keptMisses
    tlb := k.keptTlb
    saved := false
    rbf := false })

/-- The wake goes on to a moment. -/
def toStep (n c : Nat) (s : State) : State := s.modCluster c (fun k => { k with wakeStep := n })

/-- The image is read back, or the read-back fails and stops the wake (R374). -/
def readBack (c : Nat) (s : State) : State :=
  if !(s.clusterAt c).wakeDue then toStep 3 c s
  else if imageOk s c then toStep 3 c (readImage c s)
  else toStep 0 c (s.modCluster c (fun k => { k with rbf := true, err := true, busy := false, waking := false, wakeDue := false }))

/-- No island of a cluster waits to start. -/
def islandsUp (s : State) (c : Nat) : Bool :=
  (hartsOfCluster c).all (fun h => !(s.power.releasing.contains (islandOf h)))

/-- The wake is over: REQ := 0 and BUSY := 0. -/
def finishWake (c : Nat) (s : State) : State :=
  s.modCluster c (fun k => { k with req := false, busy := false, waking := false, wakeDue := false, wakeStep := 0 })

/-- The next moment of a wake (R374, R386): the rails come on; the clocks start; the image is read back; the islands of the
harts that the quiesce held are to start; and once they have, REQ and BUSY become 0. -/
def wakeCluster (c : Nat) (s : State) : State :=
  let k := s.clusterAt c
  match k.wakeStep with
  | 0 => toStep 1 c (if k.mode = 0 then s else moveRails c 0 s)
  | 1 => toStep 2 c (s.modCluster c (fun k => { k with clkOff := false }))
  | 2 => if k.wakeDue && !(spanReady s k.retBase.toNat imageSize) then s else readBack c s
  | 3 => releaseQuiesce c (toStep 4 c s)
  | _ => if islandsUp s c then finishWake c s else s

/-- CLUSTER_WAKE_COMPLETE: the next moment of a wake in progress. -/
def execClusterWakeComplete (c : Nat) (s : State) : Host.Outcome State Fault Refusal :=
  if (s.clusterAt c).waking then .next (wakeCluster c s) else .next s

end Sys2Proof.Machine
end

