-- ==== Sys2Proof/Machine/Streams.lean ====
section
/-! DEFINITION. The fills of streams (spec/08, R186, R188, R190). -/

namespace Sys2Proof.Machine

/-- The authority of a stream's fills: that of its sopen. -/
def streamEnv (s : State) (h q : Nat) (st : Stream) : Env :=
  { who := h, priv := st.priv, satp := st.satp, sum := st.sum, mxr := st.mxr, part := partOf s h, pmp := true,
    slot := q + 1, vec := true }

/-- The tuples a stream may have fetched: DEPTH strips from the first that is not wholly consumed, or all in a reduce
mode. -/
def Stream.limit (st : Stream) : Nat :=
  if st.mode = 0 then min st.avl ((st.consumed / st.strip + st.depth) * st.strip) else st.avl

/-- Whether a stream has tuples to fill and no fault pending. -/
def Stream.filling (st : Stream) : Bool := st.flt.isNone && decide (st.fetched < st.limit)

/-- The elements of parts `k` on of a tuple, `n` of them, copied to the strip buffer. -/
def fillParts (e : Env) (st : Stream) (t : Nat) : Nat → Nat → Act Unit
  | 0, _ => fun s => .ok () s
  | n + 1, k => do
    let x ← readElem e [elemPart (sewOf st.fmt) (st.addr k t)]
    let s ← getS
    setS (s.pushStore { hart := e.who, scalar := false } (tcmAlias (coreOf e.who) + st.slot k t)
      (toBytes (sewOf st.fmt / 8) x))
    fillParts e st t n (k + 1)

/-- An element folded into a reduce mode: at once in an ordered one, kept as a leaf in a canonical one (R190). -/
def Stream.fold (st : Stream) (x : Nat) : Stream :=
  if st.mode = 1 then
    let (v, ev) := st.plus st.acc.toNat x
    { st with acc := bv 64 v, flags := st.flags ||| ev }
  else { st with leaves := st.leaves ++ [bv 64 x] }

/-- One tuple of the stream in slot `q` is fetched or folded. -/
def fillTuple (h q : Nat) : Act Unit := do
  let s ← getS
  match (s.hartAt h).stream q with
  | none => return ()
  | some st =>
    if st.filling then
      let e := streamEnv s h q st
      let st' ← (if st.mode = 0 then do
          fillParts e st st.fetched st.parts 0
          return st
        else do
          let x ← readElem e [elemPart (sewOf st.fmt) (st.addr 0 st.fetched)]
          return st.fold x)
      let s ← getS
      setS (settleReads h (q + 1) (s.modHart h (fun x => x.setStream q (some { st' with fetched := st.fetched + 1 }))))

/-- Up to `n` tuples. -/
def fillRun (h q : Nat) : Nat → Act Unit
  | 0 => fun s => .ok () s
  | n + 1 => do
    fillTuple h q
    fillRun h q n

/-- A fill fault stands until it is reported (R190). -/
def Hart.faultStream (h : Hart) (q cause : Nat) (a : Word) : Hart :=
  match h.stream q with
  | some st => h.setStream q (some { st with flt := some (cause, a) })
  | none => h

/-- The state after a run of fills. -/
def afterFill (h q : Nat) (r : EStateM.Result Stop State Unit) : State :=
  match r with
  | .ok _ s => s
  | .error (.trap c a) s => settleReads h (q + 1) (s.modHart h (fun x => x.faultStream q c a))
  | .error (.uncorrectable c t u a) s =>
    let s := { errorRecord u a { s with cur := h } with cur := s.cur }
    settleReads h (q + 1) (s.modHart h (fun x => x.faultStream q c t))
  | .error _ s => s

/-- Completion of a stream with NOTIFY (R190). -/
def Hart.notifyStream (h : Hart) (q : Nat) : Hart :=
  match h.stream q with
  | some st => if st.complete && bitOf st.word0 8 then h.pendUi 1 q else h
  | none => h

/-- STREAM_FILL: the strip that slot `q` of hart `h` fills next, or what of it can be had. -/
def execStreamFill (h q : Nat) (s : State) : Host.Outcome State Fault Refusal :=
  match (s.hartAt h).stream q with
  | none => .next s
  | some st =>
    if q < 4 && kindOf h = .compute && st.filling && !(s.clusterAt (clusterOf h)).clkOff then
      let n := min (st.limit - st.fetched) (st.strip - st.fetched % st.strip)
      .next ((afterFill h q (fillRun h q n s)).modHart h (fun x => x.notifyStream q))
    else .next s

/-- Whether a fill of slot `q` of a hart would come forward: its next tuple can be fetched, faults, or asks another
module for its first time. -/
def fillDue (s : State) (h q : Nat) : Bool :=
  match (s.hartAt h).stream q with
  | none => false
  | some st =>
    if kindOf h = .compute && st.filling && !(s.clusterAt (clusterOf h)).clkOff then
      match fillTuple h q s with
      | .error .stall t => t.coh.remote.length ≠ s.coh.remote.length
      | _ => true
    else false

end Sys2Proof.Machine
end

