-- ==== Sys2Proof/Machine/Dispatch.lean ====
section
/-! DEFINITION. The dispatch: one arm for each constructor of Instr, each one call of its meaning. -/

namespace Sys2Proof.Machine

/-- The effect of one instruction or event. An instruction is executed by the current agent. -/
def exec (i : Instr) (s : State) : Host.Outcome State Fault Refusal :=
  match i with
  | .riscvInstruction op => Sys2Proof.Machine.execRiscvInstruction op s
  | .csrAccess o imm csr src rd => Sys2Proof.Machine.execCsrAccess o imm csr src rd s
  | .lr sz aq rl rs1 rd => Sys2Proof.Machine.execLr sz aq rl rs1 rd s
  | .sc sz aq rl rs2 rs1 rd => Sys2Proof.Machine.execSc sz aq rl rs2 rs1 rd s
  | .amo o sz aq rl rs2 rs1 rd => Sys2Proof.Machine.execAmo o sz aq rl rs2 rs1 rd s
  | .fenceI imm rs1 rd => Sys2Proof.Machine.execFenceI imm rs1 rd s
  | .sfenceVma rs2 rs1 => Sys2Proof.Machine.execSfenceVma rs2 rs1 s
  | .wfi => Sys2Proof.Machine.execWfi s
  | .xret fromM => Sys2Proof.Machine.execXret fromM s
  | .vadd w => Sys2Proof.Machine.execVadd w s
  | .vsub w => Sys2Proof.Machine.execVsub w s
  | .vrsub w => Sys2Proof.Machine.execVrsub w s
  | .vadc w => Sys2Proof.Machine.execVadc w s
  | .vsbc w => Sys2Proof.Machine.execVsbc w s
  | .vmul w => Sys2Proof.Machine.execVmul w s
  | .vmulh w => Sys2Proof.Machine.execVmulh w s
  | .vmulhz w => Sys2Proof.Machine.execVmulhz w s
  | .vmacc w => Sys2Proof.Machine.execVmacc w s
  | .vnmsac w => Sys2Proof.Machine.execVnmsac w s
  | .vdiv w => Sys2Proof.Machine.execVdiv w s
  | .vdivz w => Sys2Proof.Machine.execVdivz w s
  | .vrem w => Sys2Proof.Machine.execVrem w s
  | .vremz w => Sys2Proof.Machine.execVremz w s
  | .vmin w => Sys2Proof.Machine.execVmin w s
  | .vminz w => Sys2Proof.Machine.execVminz w s
  | .vmax w => Sys2Proof.Machine.execVmax w s
  | .vmaxz w => Sys2Proof.Machine.execVmaxz w s
  | .vsadd w => Sys2Proof.Machine.execVsadd w s
  | .vsaddz w => Sys2Proof.Machine.execVsaddz w s
  | .vssub w => Sys2Proof.Machine.execVssub w s
  | .vssubz w => Sys2Proof.Machine.execVssubz w s
  | .vavg w => Sys2Proof.Machine.execVavg w s
  | .vabsd w => Sys2Proof.Machine.execVabsd w s
  | .vand w => Sys2Proof.Machine.execVand w s
  | .vor w => Sys2Proof.Machine.execVor w s
  | .vxor w => Sys2Proof.Machine.execVxor w s
  | .vandn w => Sys2Proof.Machine.execVandn w s
  | .vsll w => Sys2Proof.Machine.execVsll w s
  | .vsrl w => Sys2Proof.Machine.execVsrl w s
  | .vsra w => Sys2Proof.Machine.execVsra w s
  | .vrol w => Sys2Proof.Machine.execVrol w s
  | .vfadd w => Sys2Proof.Machine.execVfadd w s
  | .vfsub w => Sys2Proof.Machine.execVfsub w s
  | .vfmul w => Sys2Proof.Machine.execVfmul w s
  | .vfdiv w => Sys2Proof.Machine.execVfdiv w s
  | .vfmadd w => Sys2Proof.Machine.execVfmadd w s
  | .vfmsub w => Sys2Proof.Machine.execVfmsub w s
  | .vfnmadd w => Sys2Proof.Machine.execVfnmadd w s
  | .vfnmsub w => Sys2Proof.Machine.execVfnmsub w s
  | .vfmin w => Sys2Proof.Machine.execVfmin w s
  | .vfmax w => Sys2Proof.Machine.execVfmax w s
  | .vfsgnj w => Sys2Proof.Machine.execVfsgnj w s
  | .vfsgnjn w => Sys2Proof.Machine.execVfsgnjn w s
  | .vfsgnjx w => Sys2Proof.Machine.execVfsgnjx w s
  | .vfceq w => Sys2Proof.Machine.execVfceq w s
  | .vfclt w => Sys2Proof.Machine.execVfclt w s
  | .vfcle w => Sys2Proof.Machine.execVfcle w s
  | .vfredsum w => Sys2Proof.Machine.execVfredsum w s
  | .vfredtree w => Sys2Proof.Machine.execVfredtree w s
  | .vfredmin w => Sys2Proof.Machine.execVfredmin w s
  | .vfredmax w => Sys2Proof.Machine.execVfredmax w s
  | .mxdot w => Sys2Proof.Machine.execMxdot w s
  | .pladd w => Sys2Proof.Machine.execPladd w s
  | .plsub w => Sys2Proof.Machine.execPlsub w s
  | .plmul w => Sys2Proof.Machine.execPlmul w s
  | .pldot w => Sys2Proof.Machine.execPldot w s
  | .plcmp w => Sys2Proof.Machine.execPlcmp w s
  | .vfsqrt w => Sys2Proof.Machine.execVfsqrt w s
  | .vfclass w => Sys2Proof.Machine.execVfclass w s
  | .vfrec w => Sys2Proof.Machine.execVfrec w s
  | .vfrsq w => Sys2Proof.Machine.execVfrsq w s
  | .vfexp2 w => Sys2Proof.Machine.execVfexp2 w s
  | .vfcvt w => Sys2Proof.Machine.execVfcvt w s
  | .vfround w => Sys2Proof.Machine.execVfround w s
  | .mxpack w => Sys2Proof.Machine.execMxpack w s
  | .mxunpack w => Sys2Proof.Machine.execMxunpack w s
  | .plconv w => Sys2Proof.Machine.execPlconv w s
  | .vceq w => Sys2Proof.Machine.execVceq w s
  | .vcne w => Sys2Proof.Machine.execVcne w s
  | .vclt w => Sys2Proof.Machine.execVclt w s
  | .vcltz w => Sys2Proof.Machine.execVcltz w s
  | .vcle w => Sys2Proof.Machine.execVcle w s
  | .vclez w => Sys2Proof.Machine.execVclez w s
  | .vcgt w => Sys2Proof.Machine.execVcgt w s
  | .vcgtz w => Sys2Proof.Machine.execVcgtz w s
  | .vredsum w => Sys2Proof.Machine.execVredsum w s
  | .vredmin w => Sys2Proof.Machine.execVredmin w s
  | .vredminz w => Sys2Proof.Machine.execVredminz w s
  | .vredmax w => Sys2Proof.Machine.execVredmax w s
  | .vredmaxz w => Sys2Proof.Machine.execVredmaxz w s
  | .vredand w => Sys2Proof.Machine.execVredand w s
  | .vredor w => Sys2Proof.Machine.execVredor w s
  | .vredxor w => Sys2Proof.Machine.execVredxor w s
  | .vslup w => Sys2Proof.Machine.execVslup w s
  | .vsldn w => Sys2Proof.Machine.execVsldn w s
  | .vsl1up w => Sys2Proof.Machine.execVsl1up w s
  | .vsl1dn w => Sys2Proof.Machine.execVsl1dn w s
  | .vgath w => Sys2Proof.Machine.execVgath w s
  | .vmerge w => Sys2Proof.Machine.execVmerge w s
  | .vxput w => Sys2Proof.Machine.execVxput w s
  | .vxget w => Sys2Proof.Machine.execVxget w s
  | .mand w => Sys2Proof.Machine.execMand w s
  | .mor w => Sys2Proof.Machine.execMor w s
  | .mxor w => Sys2Proof.Machine.execMxor w s
  | .mandn w => Sys2Proof.Machine.execMandn w s
  | .mshl w => Sys2Proof.Machine.execMshl w s
  | .vbcast w => Sys2Proof.Machine.execVbcast w s
  | .vcfg w => Sys2Proof.Machine.execVcfg w s
  | .vcfgi w => Sys2Proof.Machine.execVcfgi w s
  | .vmov w => Sys2Proof.Machine.execVmov w s
  | .vcomp w => Sys2Proof.Machine.execVcomp w s
  | .vexpd w => Sys2Proof.Machine.execVexpd w s
  | .vconf w => Sys2Proof.Machine.execVconf w s
  | .viota w => Sys2Proof.Machine.execViota w s
  | .vidx w => Sys2Proof.Machine.execVidx w s
  | .vwiden w => Sys2Proof.Machine.execVwiden w s
  | .vnarrow w => Sys2Proof.Machine.execVnarrow w s
  | .vsext w => Sys2Proof.Machine.execVsext w s
  | .vzext w => Sys2Proof.Machine.execVzext w s
  | .vclz w => Sys2Proof.Machine.execVclz w s
  | .vctz w => Sys2Proof.Machine.execVctz w s
  | .vpopc w => Sys2Proof.Machine.execVpopc w s
  | .vbrev w => Sys2Proof.Machine.execVbrev w s
  | .mnot w => Sys2Proof.Machine.execMnot w s
  | .mmov w => Sys2Proof.Machine.execMmov w s
  | .mpop w => Sys2Proof.Machine.execMpop w s
  | .mfirst w => Sys2Proof.Machine.execMfirst w s
  | .mvtom w => Sys2Proof.Machine.execMvtom w s
  | .mmtov w => Sys2Proof.Machine.execMmtov w s
  | .vld w => Sys2Proof.Machine.execVld w s
  | .vlds w => Sys2Proof.Machine.execVlds w s
  | .vldx w => Sys2Proof.Machine.execVldx w s
  | .vldseg w => Sys2Proof.Machine.execVldseg w s
  | .vldm w => Sys2Proof.Machine.execVldm w s
  | .sld w => Sys2Proof.Machine.execSld w s
  | .vwait w => Sys2Proof.Machine.execVwait w s
  | .vst w => Sys2Proof.Machine.execVst w s
  | .vsts w => Sys2Proof.Machine.execVsts w s
  | .vstx w => Sys2Proof.Machine.execVstx w s
  | .vstxa w => Sys2Proof.Machine.execVstxa w s
  | .vstseg w => Sys2Proof.Machine.execVstseg w s
  | .vstm w => Sys2Proof.Machine.execVstm w s
  | .wdecl w => Sys2Proof.Machine.execWdecl w s
  | .wacc w => Sys2Proof.Machine.execWacc w s
  | .wmerge w => Sys2Proof.Machine.execWmerge w s
  | .wdrop w => Sys2Proof.Machine.execWdrop w s
  | .wstat w => Sys2Proof.Machine.execWstat w s
  | .mattach w => Sys2Proof.Machine.execMattach w s
  | .mdetach w => Sys2Proof.Machine.execMdetach w s
  | .mload w => Sys2Proof.Machine.execMload w s
  | .mmac w => Sys2Proof.Machine.execMmac w s
  | .mzero w => Sys2Proof.Machine.execMzero w s
  | .mread w => Sys2Proof.Machine.execMread w s
  | .mwrite w => Sys2Proof.Machine.execMwrite w s
  | .msync w => Sys2Proof.Machine.execMsync w s
  | .rboxt w => Sys2Proof.Machine.execRboxt w s
  | .rtrit w => Sys2Proof.Machine.execRtrit w s
  | .bbovl w => Sys2Proof.Machine.execBbovl w s
  | .txs w => Sys2Proof.Machine.execTxs w s
  | .txg w => Sys2Proof.Machine.execTxg w s
  | .txf w => Sys2Proof.Machine.execTxf w s
  | .txlod w => Sys2Proof.Machine.execTxlod w s
  | .tspawn w => Sys2Proof.Machine.execTspawn w s
  | .tspawnp w => Sys2Proof.Machine.execTspawnp w s
  | .tnext w => Sys2Proof.Machine.execTnext w s
  | .tyield w => Sys2Proof.Machine.execTyield w s
  | .tblock w => Sys2Proof.Machine.execTblock w s
  | .tunblock w => Sys2Proof.Machine.execTunblock w s
  | .tticket w => Sys2Proof.Machine.execTticket w s
  | .tcommit w => Sys2Proof.Machine.execTcommit w s
  | .tqstat w => Sys2Proof.Machine.execTqstat w s
  | .darrive w => Sys2Proof.Machine.execDarrive w s
  | .dwait w => Sys2Proof.Machine.execDwait w s
  | .dbar w => Sys2Proof.Machine.execDbar w s
  | .dphase w => Sys2Proof.Machine.execDphase w s
  | .ordSv w => Sys2Proof.Machine.execOrdSv w s
  | .ordVs w => Sys2Proof.Machine.execOrdVs w s
  | .ordVv w => Sys2Proof.Machine.execOrdVv w s
  | .ordAll w => Sys2Proof.Machine.execOrdAll w s
  | .vdrain w => Sys2Proof.Machine.execVdrain w s
  | .sopen w => Sys2Proof.Machine.execSopen w s
  | .savail w => Sys2Proof.Machine.execSavail w s
  | .sres w => Sys2Proof.Machine.execSres w s
  | .sclose w => Sys2Proof.Machine.execSclose w s
  | .lease w => Sys2Proof.Machine.execLease w s
  | .unlease w => Sys2Proof.Machine.execUnlease w s
  | .swait w => Sys2Proof.Machine.execSwait w s
  | .mkick w => Sys2Proof.Machine.execMkick w s
  | .hmsg w => Sys2Proof.Machine.execHmsg w s
  | .park w => Sys2Proof.Machine.execPark w s
  | .uiret w => Sys2Proof.Machine.execUiret w s
  | .vrep w => Sys2Proof.Machine.execVrep w s
  | .pfx w => Sys2Proof.Machine.execPfx w s
  | .reservationTimeout h => Sys2Proof.Machine.execReservationTimeout h s
  | .leaseExpiry h => Sys2Proof.Machine.execLeaseExpiry h s
  | .preemptHalt h b => Sys2Proof.Machine.execPreemptHalt h b s
  | .restoreComplete h => Sys2Proof.Machine.execRestoreComplete h s
  | .swaitTimeout h => Sys2Proof.Machine.execSwaitTimeout h s
  | .vwaitTimeout h => Sys2Proof.Machine.execVwaitTimeout h s
  | .dwaitTimeout h => Sys2Proof.Machine.execDwaitTimeout h s
  | .tcommitTimeout h => Sys2Proof.Machine.execTcommitTimeout h s
  | .tspawnWaitTimeout h => Sys2Proof.Machine.execTspawnWaitTimeout h s
  | .shedGraceExpiry c => Sys2Proof.Machine.execShedGraceExpiry c s
  | .dieLinkRetrain l => Sys2Proof.Machine.execDieLinkRetrain l s
  | .remoteRequestAbandon tag => Sys2Proof.Machine.execRemoteRequestAbandon tag s
  | .unresponsiveAgentTimeout a => Sys2Proof.Machine.execUnresponsiveAgentTimeout a s
  | .collectiveTimeout m => Sys2Proof.Machine.execCollectiveTimeout m s
  | .domainCompletion part id => Sys2Proof.Machine.execDomainCompletion part id s
  | .taskDelivery h => Sys2Proof.Machine.execTaskDelivery h s
  | .taskRequest h => Sys2Proof.Machine.execTaskRequest h s
  | .taskReleasePerformed h => Sys2Proof.Machine.execTaskReleasePerformed h s
  | .idlePlacement d => Sys2Proof.Machine.execIdlePlacement d s
  | .streamFill h q => Sys2Proof.Machine.execStreamFill h q s
  | .interruptTake h b => Sys2Proof.Machine.execInterruptTake h b s
  | .userInterruptTake h b => Sys2Proof.Machine.execUserInterruptTake h b s
  | .packageStart trained broken excl => Sys2Proof.Machine.execPackageStart trained broken excl s
  | .millinerRoutineStart m => Sys2Proof.Machine.execMillinerRoutineStart m s
  | .tensorCopy m n => Sys2Proof.Machine.execTensorCopy m n s
  | .mailboxOnly m => Sys2Proof.Machine.execMailboxOnly m s
  | .pageMigration m => Sys2Proof.Machine.execPageMigration m s
  | .migrationRegionCopy m => Sys2Proof.Machine.execMigrationRegionCopy m s
  | .allReduce m => Sys2Proof.Machine.execAllReduce m s
  | .collectiveExchange m => Sys2Proof.Machine.execCollectiveExchange m s
  | .userRoutine m => Sys2Proof.Machine.execUserRoutine m s
  | .registerWrite a n v => Sys2Proof.Machine.execRegisterWrite a n v s
  | .domainArrival h => Sys2Proof.Machine.execDomainArrival h s
  | .homeRd n => Sys2Proof.Machine.execHomeRd n s
  | .homeWr n => Sys2Proof.Machine.execHomeWr n s
  | .homeAmo n => Sys2Proof.Machine.execHomeAmo n s
  | .homeGets n => Sys2Proof.Machine.execHomeGets n s
  | .homeUack n => Sys2Proof.Machine.execHomeUack n s
  | .sharerUpd n => Sys2Proof.Machine.execSharerUpd n s
  | .sharerCmt n => Sys2Proof.Machine.execSharerCmt n s
  | .writerWack n => Sys2Proof.Machine.execWriterWack n s
  | .requesterData n => Sys2Proof.Machine.execRequesterData n s
  | .ringDelivery c => Sys2Proof.Machine.execRingDelivery c s
  | .telemetryFrame f => Sys2Proof.Machine.execTelemetryFrame f s
  | .partBuild dst src rest p cl sc md chr noc granules mmio => Sys2Proof.Machine.execPartBuild dst src rest p cl sc md chr noc granules mmio s
  | .preempt h => Sys2Proof.Machine.execPreempt h s
  | .restore h => Sys2Proof.Machine.execRestore h s
  | .hartCtlWake h => Sys2Proof.Machine.execHartCtlWake h s
  | .mgmtOpen dst src rest => Sys2Proof.Machine.execMgmtOpen dst src rest s
  | .plankerPass => Sys2Proof.Machine.execPlankerPass s
  | .vectorEntryStart h => Sys2Proof.Machine.execVectorEntryStart h s
  | .vectorEntryRetire h => Sys2Proof.Machine.execVectorEntryRetire h s
  | .timecmpMatch h sLevel => Sys2Proof.Machine.execTimecmpMatch h sLevel s
  | .intSsip h => Sys2Proof.Machine.execIntSsip h s
  | .imsicSeteipnum h sFile id => Sys2Proof.Machine.execImsicSeteipnum h sFile id s
  | .waiterUpdate h => Sys2Proof.Machine.execWaiterUpdate h s
  | .remoteSampleTick h => Sys2Proof.Machine.execRemoteSampleTick h s
  | .homeEvict y a n => Sys2Proof.Machine.execHomeEvict y a n s
  | .sharerInv n => Sys2Proof.Machine.execSharerInv n s
  | .homeInvack n => Sys2Proof.Machine.execHomeInvack n s
  | .homeLreq n => Sys2Proof.Machine.execHomeLreq n s
  | .hartLgrant n => Sys2Proof.Machine.execHartLgrant n s
  | .homeLend n => Sys2Proof.Machine.execHomeLend n s
  | .barrierBreak part id => Sys2Proof.Machine.execBarrierBreak part id s
  | .millinerKick m hart block scope => Sys2Proof.Machine.execMillinerKick m hart block scope s
  | .reduceScatter m => Sys2Proof.Machine.execReduceScatter m s
  | .allGather m => Sys2Proof.Machine.execAllGather m s
  | .mlAbort m => Sys2Proof.Machine.execMlAbort m s
  | .hartWresWrite h v => Sys2Proof.Machine.execHartWresWrite h v s
  | .fringCtlWrite p v => Sys2Proof.Machine.execFringCtlWrite p v s
  | .domCtlWrite p v => Sys2Proof.Machine.execDomCtlWrite p v s
  | .tqRingWrite p die level v => Sys2Proof.Machine.execTqRingWrite p die level v s
  | .tseqCtlWrite p v => Sys2Proof.Machine.execTseqCtlWrite p v s
  | .fbrCtlWrite p v => Sys2Proof.Machine.execFbrCtlWrite p v s
  | .fclr p => Sys2Proof.Machine.execFclr p s
  | .clMrgWrite c v => Sys2Proof.Machine.execClMrgWrite c v s
  | .clTregWrite c core v => Sys2Proof.Machine.execClTregWrite c core v s
  | .l2pinWrite p die base len => Sys2Proof.Machine.execL2pinWrite p die base len s
  | .telemetryLinkLoss => Sys2Proof.Machine.execTelemetryLinkLoss s
  | .islandRetention isl => Sys2Proof.Machine.execIslandRetention isl s
  | .islandStart => Sys2Proof.Machine.execIslandStart s
  | .clqReq c => Sys2Proof.Machine.execClqReq c s
  | .clqForce c => Sys2Proof.Machine.execClqForce c s
  | .clqCancel c => Sys2Proof.Machine.execClqCancel c s
  | .clqErrClear c => Sys2Proof.Machine.execClqErrClear c s
  | .retSave c base => Sys2Proof.Machine.execRetSave c base s
  | .retSaveComplete c => Sys2Proof.Machine.execRetSaveComplete c s
  | .clkGate c b => Sys2Proof.Machine.execClkGate c b s
  | .railCtl c mode => Sys2Proof.Machine.execRailCtl c mode s
  | .railTransitionDone c => Sys2Proof.Machine.execRailTransitionDone c s
  | .clusterWake c => Sys2Proof.Machine.execClusterWake c s
  | .clusterWakeComplete c => Sys2Proof.Machine.execClusterWakeComplete c s
  | .dieLinkReplay l good => Sys2Proof.Machine.execDieLinkReplay l good s
  | .dieLinkRetrainDone l good => Sys2Proof.Machine.execDieLinkRetrainDone l good s
  | .agentDead die a => Sys2Proof.Machine.execAgentDead die a s
  | .agentDeadComplete die => Sys2Proof.Machine.execAgentDeadComplete die s
  | .migRel die pa => Sys2Proof.Machine.execMigRel die pa s
  | .cold => Sys2Proof.Machine.execCold s
  | .warmreq => Sys2Proof.Machine.execWarmreq s
  | .bootOk => Sys2Proof.Machine.execBootOk s
  | .bootTimeout => Sys2Proof.Machine.execBootTimeout s
  | .scCtlWake n => Sys2Proof.Machine.execScCtlWake n s
  | .chrRetrain p => Sys2Proof.Machine.execChrRetrain p s
  | .chrRetrainDone p good => Sys2Proof.Machine.execChrRetrainDone p good s
  | .chrFlitReceive p fixed lost f => Sys2Proof.Machine.execChrFlitReceive p fixed lost f s
  | .chrRd n => Sys2Proof.Machine.execChrRd n s
  | .chrWr n => Sys2Proof.Machine.execChrWr n s
  | .chrAmo n => Sys2Proof.Machine.execChrAmo n s
  | .chrLr n => Sys2Proof.Machine.execChrLr n s
  | .chrSc n => Sys2Proof.Machine.execChrSc n s
  | .chrData n => Sys2Proof.Machine.execChrData n s
  | .chrWack n => Sys2Proof.Machine.execChrWack n s
  | .chrAmoresp n => Sys2Proof.Machine.execChrAmoresp n s
  | .routeChangeRelease => Sys2Proof.Machine.execRouteChangeRelease s
  | .pcieInboundWrite rid a data => Sys2Proof.Machine.execPcieInboundWrite rid a data s
  | .pcieInboundRead rid a n tag => Sys2Proof.Machine.execPcieInboundRead rid a n tag s
  | .pcieMsi rid a id => Sys2Proof.Machine.execPcieMsi rid a id s
  | .ident dst src rest off => Sys2Proof.Machine.execIdent dst src rest off s
  | .attest dst src rest p nonce => Sys2Proof.Machine.execAttest dst src rest p nonce s
  | .partScrub dst src rest p => Sys2Proof.Machine.execPartScrub dst src rest p s
  | .partJoin dst src rest p mod q => Sys2Proof.Machine.execPartJoin dst src rest p mod q s
  | .setFab dst src rest m memb => Sys2Proof.Machine.execSetFab dst src rest m memb s
  | .fwStage dst src rest kind off data => Sys2Proof.Machine.execFwStage dst src rest kind off data s
  | .fwCommit dst src rest kind => Sys2Proof.Machine.execFwCommit dst src rest kind s
  | .mgmtReset dst src rest cold rebuild => Sys2Proof.Machine.execMgmtReset dst src rest cold rebuild s
  | .logRead dst src rest off => Sys2Proof.Machine.execLogRead dst src rest off s
  | .telemRead dst src rest off => Sys2Proof.Machine.execTelemRead dst src rest off s
  | .recover dst src rest kind off last data => Sys2Proof.Machine.execRecover dst src rest kind off last data s
  | .pcieCompletion who v => Sys2Proof.Machine.execPcieCompletion who v s
  | .migRelComplete die => Sys2Proof.Machine.execMigRelComplete die s
  | .powerLoss => Sys2Proof.Machine.execPowerLoss s

end Sys2Proof.Machine
end

