-- ==== Sys2Proof/Machine/Schedule.lean ====
section
/-! DEFINITION. What the next step does (assumption 1): an event whose time has come, the first move of the schedule, or
the turn of the current agent. -/

namespace Sys2Proof.Machine

/-! ## Events whose time has come -/

/-- Whether the halt that a hart is to make can end now (R362, R363, R370). -/
def haltDue (s : State) (h : Nat) (c : Ctl) : Bool :=
  kindOf h = .compute && (c.preempt || c.shedDue)
  && (if c.parked then !c.preempt || (if c.saving then !(recordBusy s h) else saveReady s h)
      else !c.asks && (if c.preempt then saveReady s h else !(holdsHalt s h) && !(passWaits s h)))

/-- The end of a timed wait (R197, R198, R224, R251, R265). -/
def waitDue (cc h : Nat) (x : Hart) : Option Instr :=
  match x.run.wait with
  | none => none
  | some w =>
    if w.ends ≤ cc && x.canRun then
      match w.kind with
      | .swait => some (.swaitTimeout h)
      | .vwait => some (.vwaitTimeout h)
      | .dwait => some (.dwaitTimeout h)
      | .dbar => some (.dwaitTimeout h)
      | .tcommit => some (.tcommitTimeout h)
      | .tspawn => some (.tspawnWaitTimeout h)
      | .wfi => none
      | .other => none
    else none

/-- A lease slot whose time has run out (R194). -/
def leaseOver (cc : Nat) (x : Hart) : Bool :=
  x.run.leases.toList.any (fun l => match l with
    | some l => l.ends ≤ cc
    | none => false)

/-- The schedule says at which boundary a hart is to halt. -/
def haltScheduled (s : State) (h : Nat) : Bool :=
  s.sched.any (fun m => match m with
    | .event (.preemptHalt k _) => k == h
    | _ => false)

/-- The event of a hart whose time has come: the end of a reservation (R15), of a lease or of a timed wait, a halt and a
restore. -/
def hartDue (s : State) (h : Nat) (x : Hart) : Option Instr :=
  if x.run.resv.isSome && x.run.resvEnds ≤ s.ccOf h then some (.reservationTimeout h)
  else if leaseOver (s.ccOf h) x then some (.leaseExpiry h)
  else if haltDue s h x.ctl && !(haltScheduled s h) then some (.preemptHalt h 0)
  else if restoreDue s h then some (.restoreComplete h)
  else waitDue (s.ccOf h) h x

/-- The first event that a function finds in a list. -/
def firstDue {α : Type} (g : α → Option Instr) (l : List α) : Option Instr := l.findSome? g

/-- The timeouts of units: a collective (R402), telemetry (R369), the grace (R370), the start (R379), a die-to-die link
(R347), a remote request (R394), an unresponsive agent (R354). -/
def unitDue (s : State) : Option Instr :=
  if linkLate s then some .telemetryLinkLoss
  else match [0, 1, 2, 3].find? (graceOver s) with
  | some c => some (.shedGraceExpiry c)
  | none =>
    if bootLate s then some .bootTimeout
    else match (List.range linkCount).find? (fun l => 16 ≤ replaysOf s l && !(s.pkg.retraining.contains l)) with
    | some l => some (.dieLinkRetrain l)
    | none =>
      match s.coh.remote.find? (fun r => r.late s.ticks) with
      | some r => some (.remoteRequestAbandon r.tag)
      | none =>
        match overdueAgent s with
        | some a => some (.unresponsiveAgentTimeout a)
        | none => firstDue (fun p => match p.2.run with
          | .collective c => if c.late (s.ccOf p.1) then some (.collectiveTimeout p.1) else none
          | _ => none) s.mills

/-- A completion of a domain that can end, or go on to ask another module (R223). -/
def completionDue (s : State) (p : Nat × Part) : Option Instr :=
  p.2.completing.findSome? (fun id => match completeDomain p.1 id s with
    | .ok _ _ => some (.domainCompletion p.1 id)
    | .error _ t => if t.coh.remote.length ≠ s.coh.remote.length then some (.domainCompletion p.1 id) else none)

/-- What the Carder of a die does next by itself: a delivery, the oldest request, a release, a placement. -/
def carderDue (s : State) (p : Nat × DieSt) : Option Instr :=
  match p.2.deliveries with
  | d :: _ => if dieOf d.hart = p.1 then some (.taskDelivery d.hart) else none
  | [] =>
    match p.2.retiring.find? (fun r => dieOf r.hart = p.1 && (readyRetirement s r.hart).isSome) with
    | some r => some (.taskReleasePerformed r.hart)
    | none =>
      match p.2.requests with
      | h :: _ => if dieOf h = p.1 then some (.taskRequest h) else none
      | [] => if p.1 < 6 && ((placement s p.1).isSome || reportDue s p.1) then some (.idlePlacement p.1) else none

/-- A fill of a hart's stream that comes forward (R188). -/
def streamDue (s : State) (h : Nat) (x : Hart) : Option Instr :=
  if x.run.streams.toList.any Option.isSome then
    ([0, 1, 2, 3].find? (fun q => fillDue s h q)).map (fun q => .streamFill h q)
  else none

/-- A Milliner whose completion store can go on (R332). -/
def millDue (s : State) : Option Instr :=
  (s.mills.find? (fun p => closingDue s p.1)).map (fun p => .millinerRoutineStart p.1)

/-- What units do by themselves while message steps are not visible: completion stores, completions, the Carder, releases of islands and
stream fills. -/
def ownDue (s : State) : Option Instr :=
  match millDue s with
  | some i => some i
  | none =>
    match firstDue (completionDue s) s.parts with
    | some i => some i
    | none =>
      match firstDue (carderDue s) s.dies with
      | some i => some i
      | none =>
        if !s.power.releasing.isEmpty then some .islandStart
        else firstDue (fun p => streamDue s p.1 p.2) s.harts

/-- The first event whose time has come. -/
def dueEvent (s : State) : Option Instr :=
  match firstDue (fun p => hartDue s p.1 p.2) s.harts with
  | some i => some i
  | none =>
    match unitDue s with
    | some i => some i
    | none => if s.stepwise then none else ownDue s

/-! ## Turns -/

/-- What a step does: run an instruction or event from a state, only change the state, or stop. -/
inductive Todo
  | run (i : Instr) (s : State)
  | done (s : State)
  | halt (f : Fault)

/-- An instruction that the outside world and the units may bring about: one without a word. -/
def isEvent (i : Instr) : Bool := (encode i).isNone

/-- The clocks of an agent's cluster are stopped (R373). -/
def clockStopped (s : State) (h : Nat) : Bool :=
  (kindOf h = .compute || kindOf h = .clusterMilliner) && (s.clusterAt (clusterOf h)).clkOff

/-- The turn of the current agent: an interrupt that is due, the next pass of a body, or the word at PC. A word that
decodes to nothing is illegal (R72). -/
def turn (s : State) : Todo :=
  let h := s.hart
  if !h.canRun || clockStopped s s.cur then .done s
  else if interruptible s s.cur && (irqDue s s.cur).isSome then .run (.interruptTake s.cur 0) s
  else if interruptible s s.cur && h.uiDue.isSome && !(trapDue s) then .run (.userInterruptTake s.cur 0) s
  else if isRep h.pc then .run .plankerPass s
  else match fetchWord s with
    | .error e s => .done (afterStop .wfi e s)
    | .ok w s =>
      match decode w with
      | .ok i => .run i s
      | .error _ => .done (raise 2 (w.setWidth 64) s)

/-- Nothing of the memory system's messages is under way. -/
def quietNet (s : State) : Bool := s.coh.net.isEmpty && s.coh.commits.isEmpty && s.coh.evicting.isEmpty

/-- The messages are made visible, or, once none is under way, are not any more: then no copy differs from memory. -/
def setStepwise (b : Bool) (s : State) : State := if b || quietNet s then { s with stepwise := b } else s

/-- A hart of a core is ready to issue: it runs and does not wait (R156). -/
def issueReady (s : State) (h : Nat) : Bool :=
  (s.hartAt h).canRun && (s.hartAt h).run.wait.isNone && !(clockStopped s h)

/-- The front end of a core issues from the first ready hart after the one that issued last (R156). -/
def coreTurn (c : Nat) (s : State) : Todo :=
  let x := s.coreAt c
  match ((List.range 4).map (fun k => (x.lastIssued + 1 + k) % 4)).find? (fun k => issueReady s (4 * c + k)) with
  | some k => turn { s.setCoreAt c { x with lastIssued := k } with cur := 4 * c + k }
  | none => .done s

/-- A move of the schedule while the module runs. -/
def move (m : Move) (s : State) : Todo :=
  match m with
  | .agent h => if h < agentCount then turn { s with cur := h } else .halt .noAgent
  | .event i => if isEvent i then .run i s else .done s
  | .time c t => .done { s.pass c with ticks := s.ticks + t }
  | .slow i k c t => .done { (s.pass c).loseCc [i] (min k c) with ticks := s.ticks + t }
  | .stepwise b => .done (setStepwise b s)
  | .strike w => .done (strikeStored s w)
  | .strikeIn u w => .done (strikeIn u w s)
  | .strikeReg h r k => if h < agentCount then .done (strikeReg h r k s) else .done s
  | .correct d => .done (countCorrected d s)
  | .loseTask die order => .done (loseTask s die order)
  | .displace region => .done (displace region s)
  | .drop y a n => .done (dropSpan y a n s)
  | .core c => if c < 2304 then coreTurn c s else .done s
  | .fetch h va => if h < 9240 then .done (fetchAhead h va s) else .done s

/-- An event that concerns a module that does not run: a start, the management port and the loss of power (R379, R380,
R410). -/
def whileStopped (i : Instr) : Bool :=
  match i with
  | .packageStart .. | .powerLoss | .mgmtOpen .. | .ident .. | .attest .. | .partBuild .. | .partScrub .. | .partJoin ..
  | .setFab .. | .fwStage .. | .fwCommit .. | .mgmtReset .. | .logRead .. | .telemRead .. | .recover .. => true
  | _ => false

/-- A move of the schedule while the module has no power or does not run: time passes, and some events come about. -/
def stoppedMove (m : Move) (s : State) : Todo :=
  match m with
  | .event i => if whileStopped i then .run i s else .done s
  | .time _ t => .done { s with ticks := s.ticks + t }
  | .slow _ _ _ t => .done { s with ticks := s.ticks + t }
  | _ => .done s

/-- A home finds an uncorrectable error in a live descriptor (R226). -/
def breakDue (s : State) : Option State :=
  s.parts.findSome? (fun p => (brokenDomain s p).map (fun id => breakDomain p.1 id s))

/-- What comes about without an event's name: a barrier breaks, or a waiting inbound request goes on. -/
def ownChange (s : State) : Option State :=
  match breakDue s with
  | some t => some t
  | none => goOnInbound s

/-- What the next step does. -/
def todo (s : State) : Todo :=
  if !s.pkg.powered || s.pkg.stopped then
    match s.sched with
    | m :: r => stoppedMove m { s with sched := r }
    | [] => .halt .stopped
  else match dueEvent s, ownChange s with
    | some i, _ => .run i s
    | none, some t => .done t
    | none, none =>
      match s.sched with
      | [] => if s.cur < agentCount then turn s else .halt .noAgent
      | m :: r => move m { s with sched := r }

end Sys2Proof.Machine
end

