-- ==== Sys2Proof/Machine/Step.lean ====
section
/-! DEFINITION. The step of the module. -/

namespace Sys2Proof.Machine

/-- One step (assumption 1). -/
def step (s : State) : Host.Outcome State Fault Refusal :=
  match todo s with
  | .run i t => tickOutcome (exec i t)
  | .done t => .next t.tick
  | .halt f => .fault f

/-- The state whose next step fetches and runs the instruction with these bits (assumption 5). Every instruction is
one 32-bit word; a row of the table that is an event has no word. -/
def State.withFetchWord (s : State) (_nbits w : Nat) : State := placeWord s w

end Sys2Proof.Machine
end

