-- ==== Sys2Proof/Safety.lean ====
section
/-! DEFINITION. What the statements speak of: memory in its canonical form, the conditions under which a vector word runs,
its operands, and what it leaves of the state. -/

namespace Sys2Proof

open Sys2Proof.Machine

/-- Memory is in its canonical form: addresses rise strictly and no listed byte is zero. -/
abbrev Memory.wf (m : List Host.Cell) : Prop := memWf m = true

namespace Machine

/-! ## When a vector word runs -/

/-- An agent that has vector words (R73) is to execute one: the queue has room (R157), no interrupt stops the word part-way
(R142), and no register of the hart holds an uncorrectable error (R375). -/
structure VecReady (s : State) : Prop where
  agent : kindOf s.cur ≠ .system
  room : queueFull s = false
  whole : s.bound = none
  sound : s.hart.run.badRegs = []

/-- VTYPE is legal and its format is one that a word accepts (R70, R71). -/
def TypeIn (s : State) (fmts : Nat → Bool) : Prop :=
  vtIll s.hart.vec.vtype = false ∧ fmts (vtFmt s.hart.vec.vtype) = true

/-- A pending prefix fits a word that takes one (R68, R69): DCV only where the word writes a vector register, and msk 00
where msk is a predicate. -/
def PrefixFits (s : State) (w : Fld) (dcv pred : Bool) : Prop :=
  s.hart.pfxOn = true → (bitOf s.hart.vec.vpfx 6 = true → dcv = true) ∧ (pred = true → w.k = 0)

/-- No pending prefix makes a word illegal that takes none (R25, R68). -/
def NoPrefix (s : State) : Prop := s.hart.pfxBlocks = false

/-- VL does not exceed VLMAX (R21). -/
def LengthOk (h : Hart) : Prop := h.vec.vl.toNat ≤ vlmax h.vec.vtype

/-! ## Operands -/

/-- The grouping of VTYPE (R19). -/
def grpOf (s : State) : Nat := vtGrp s.hart.vec.vtype
/-- The element width of VTYPE's format (R20). -/
def widthOf (s : State) : Nat := sewOf (vtFmt s.hart.vec.vtype)
/-- VL. -/
def lenOf (s : State) : Nat := s.hart.vec.vl.toNat
/-- VELEM. -/
def posOf (s : State) : Nat := s.hart.vec.velem.toNat

/-- The registers at which a word's destination groups begin: vd's, and DREG's under a prefix with DCV (R80, R82). -/
def Dests (s : State) (w : Fld) (r : Nat) : Prop := r = s.hart.vreg w.d ∨ s.hart.dregOf = some r

/-- Destination groups of `n` registers begin at multiples of `n` (R17, R69). -/
def DestsFit (s : State) (w : Fld) (n : Nat) : Prop := ∀ r, Dests s w r → r % n = 0

/-- A source group of `n` registers begins at a multiple of `n` (R17). -/
def SourceFits (s : State) (r : BitVec 5) (n : Nat) : Prop := s.hart.vreg r % n = 0

/-- The destination groups of `n` registers share no register with a source group of `m` registers (R81). -/
def Apart (s : State) (w : Fld) (n : Nat) (r : BitVec 5) (m : Nat) : Prop :=
  ∀ d, Dests s w d → d + n ≤ s.hart.vreg r ∨ s.hart.vreg r + m ≤ d

/-- The groups of a word with its destination and its operands in the grouping begin where R17 and R69 say. -/
def GroupsFit (s : State) (w : Fld) : Prop :=
  DestsFit s w (grpOf s) ∧ SourceFits s w.b (grpOf s) ∧ (w.f = 0 → SourceFits s w.a (grpOf s))

/-- Element `e` of width `n` of the group of a register field. -/
def elemIn (s : State) (r : BitVec 5) (n e : Nat) : Nat := s.hart.elem (s.hart.vreg r) n e

/-- Element `e` of the group of a register field at VTYPE's width. -/
def elemAt (s : State) (r : BitVec 5) (e : Nat) : Nat := elemIn s r (widthOf s) e

/-- The second operand of element `e` by the form field (R54): vs1, the low bits of an x register, or imm5,
sign-extended, or zero-extended where `zx` says so. -/
def secondAt (s : State) (w : Fld) (zx : Bool) (e : Nat) : Nat :=
  if w.f = 0 then elemAt s w.a e
  else if w.f = 1 then (s.hart.getX w.a).toNat % 2 ^ widthOf s
  else if zx then w.a.toNat
  else wrapTo (widthOf s) (signedOf 5 w.a.toNat)

/-- The second operand of a floating word: as `secondAt`, but form VS names an f register, except on a Milliner, which
has none (R54, R324). -/
def secondFloat (s : State) (w : Fld) (e : Nat) : Nat :=
  if w.f = 1 && !(isMilliner s.cur) then (s.hart.getF w.a).toNat % 2 ^ widthOf s else secondAt s w false e

/-- Whether element `e` is selected by the governing mask (R18, R69): the prefix's register or its inverse; else, where
msk is a predicate, m1 to m3 by msk; else every element is. -/
def activeAt (s : State) (w : Fld) (pred : Bool) (e : Nat) : Bool :=
  if s.hart.pfxOn then (s.hart.mask (fieldOf s.hart.vec.vpfx 1 3)).getLsbD e != bitOf s.hart.vec.vpfx 4
  else !pred || w.k == 0 || (s.hart.mask w.k.toNat).getLsbD e

/-! ## What a vector word leaves -/

/-- What every retiring vector word leaves alone: everything of the hart but PC, the x and vector registers, the
masks, the flags, VELEM, the prefix, the retirement count, the wait and the queue; the other harts; and memory. A word
that takes a prefix clears VPFX.V (R25). -/
structure VecFrame (s t : State) (takes : Bool) : Prop where
  mem : t.mem = s.mem
  cur : t.cur = s.cur
  pc : t.hart.pc = s.hart.nextPc
  velem : t.hart.vec.velem = 0
  vpfx : t.hart.vec.vpfx = if takes then setBit s.hart.vec.vpfx 0 false else s.hart.vec.vpfx
  f : t.hart.f = s.hart.f
  fcsr : t.hart.fcsr = s.hart.fcsr
  priv : t.hart.priv = s.hart.priv
  csr : t.hart.csr = { s.hart.csr with minstret := t.hart.csr.minstret }
  vtype : t.hart.vec.vtype = s.hart.vec.vtype
  vl : t.hart.vec.vl = s.hart.vec.vl
  vftrap : t.hart.vec.vftrap = s.hart.vec.vftrap
  dev : t.hart.dev = s.hart.dev
  ctl : t.hart.ctl = s.hart.ctl
  ints : t.hart.ints = s.hart.ints
  run : t.hart.run = { s.hart.run with
    queue := t.hart.run.queue
    wait := t.hart.run.wait
    body := t.hart.run.body
    pfxOwn := t.hart.run.pfxOwn }
  others : ∀ k, k ≠ s.cur → t.hartAt k = s.hartAt k

/-- The vector registers outside the groups of `n` registers at `dests` keep their contents. -/
def RegsOutside (s t : State) (dests : Nat → Prop) (n : Nat) : Prop :=
  ∀ i, (h : i < 32) → (∀ r, dests r → i < r ∨ r + n ≤ i) → t.hart.vec.v[i] = s.hart.vec.v[i]

/-- The vector registers keep their contents. -/
def RegsKept (s t : State) : Prop := t.hart.vec.v = s.hart.vec.v
/-- The mask registers keep their contents. -/
def MasksKept (s t : State) : Prop := t.hart.vec.m = s.hart.vec.m
/-- The mask registers but one keep their contents. -/
def MasksOutside (s t : State) (r : Nat) : Prop := ∀ i, (h : i < 8) → i ≠ r → t.hart.vec.m[i] = s.hart.vec.m[i]
/-- The x registers and their shadows keep their contents. -/
def XKept (s t : State) : Prop := t.hart.x = s.hart.x ∧ t.hart.shadow = s.hart.shadow
/-- VFFLAGS keeps its value. -/
def FlagsKept (s t : State) : Prop := t.hart.vec.vfflags = s.hart.vec.vfflags

/-- An element that a word may write from `start` on: below `start` it is kept, an active one takes its result, a
masked-off one follows the policy, and from VL on it follows TAIL (R18, R80). -/
def written (s : State) (start : Nat) (act : Nat → Bool) {α : Type} (old : Nat → α) (zero : α) (res : Nat → α) (e : Nat) :
    α :=
  if e < start then old e
  else if e < lenOf s then
    if act e then res e
    else if s.hart.policy then zero else old e
  else if vtTail s.hart.vec.vtype then zero else old e

/-- The elements of width `n` of the destination groups of `size` registers after a word. -/
def ElemsAre (s t : State) (dests : Nat → Prop) (size n start : Nat) (act : Nat → Bool) (res : Nat → Nat) : Prop :=
  ∀ r, dests r → ∀ e, e * n < 8192 * size →
    t.hart.elem r n e = written s start act (fun e => s.hart.elem r n e) 0 res e

/-- The bits of a mask destination after a word (R18, R80, R94). -/
def BitsAre (s t : State) (d : Nat) (act : Nat → Bool) (res : Nat → Bool) : Prop :=
  ∀ e, e < 8192 → (t.hart.mask d).getLsbD e = written s (posOf s) act (fun e => (s.hart.mask d).getLsbD e) false res e

/-- VFFLAGS gains the events of the active elements, and nothing else (R26). -/
def FlagsGain (s t : State) (act : Nat → Bool) (evs : Nat → Ev) : Prop :=
  ∀ b, bitOf t.hart.vec.vfflags b = true ↔ bitOf s.hart.vec.vfflags b = true
    ∨ ∃ e, posOf s ≤ e ∧ e < lenOf s ∧ act e = true ∧ bitOf (evs e) b = true

/-- No active element has an event that VFTRAP enables (R26). -/
def NoTrap (s : State) (act : Nat → Bool) (evs : Nat → Ev) : Prop :=
  ∀ e, posOf s ≤ e → e < lenOf s → act e = true → s.hart.vec.vftrap &&& evs e = 0

/-- An instruction completes with a word's effect on destination groups of `size` registers in elements of width `n`, from
`start` on: `res e` is the result of an active element and `evs e` its events. Everything else keeps its value. -/
def WritesFrom (start : Nat) (i : Instr) (s : State) (w : Fld) (size n : Nat) (act : Nat → Bool) (res : Nat → Nat)
    (evs : Nat → Ev) : Prop :=
  ∃ t, exec i s = .next t ∧ VecFrame s t true ∧ ElemsAre s t (Dests s w) size n start act res
    ∧ RegsOutside s t (Dests s w) size ∧ MasksKept s t ∧ XKept s t ∧ FlagsGain s t act evs

/-- The same from VELEM on, as all words but one write (R80). -/
def WritesGroup (i : Instr) (s : State) (w : Fld) (size n : Nat) (act : Nat → Bool) (res : Nat → Nat) (evs : Nat → Ev) :
    Prop :=
  WritesFrom (posOf s) i s w size n act res evs

/-- An instruction completes with a word's effect on mask register `d`. Everything else keeps its value. -/
def WritesMask (i : Instr) (s : State) (d : Nat) (takes : Bool) (act : Nat → Bool) (res : Nat → Bool) (evs : Nat → Ev) :
    Prop :=
  ∃ t, exec i s = .next t ∧ VecFrame s t takes ∧ BitsAre s t d act res
    ∧ MasksOutside s t (d % 8) ∧ RegsKept s t ∧ XKept s t ∧ FlagsGain s t act evs

/-- What a write of an x register leaves of the x registers and their shadows. -/
def SetsX (s t : State) (r : BitVec 5) (v : Word) : Prop :=
  t.hart.x = (s.hart.setX r v).x ∧ t.hart.shadow = (s.hart.setX r v).shadow

/-- A vector word completes that writes an x register and nothing of the vector state. -/
def WritesX (i : Instr) (s : State) (r : BitVec 5) (v : Word) : Prop :=
  ∃ t, exec i s = .next t ∧ VecFrame s t false ∧ RegsKept s t ∧ MasksKept s t ∧ FlagsKept s t ∧ SetsX s t r v

/-- An integer word completes, and its result is an integer function of the width, the two operands and the old value of
the destination's element, modulo 2^width; it has no events. -/
def GivesInt (i : Fld → Instr) (s : State) (w : Fld) (zx : Bool) (f : Nat → Nat → Nat → Nat → Int) : Prop :=
  WritesGroup (i w) s w (grpOf s) (widthOf s) (activeAt s w true)
    (fun e => wrapTo (widthOf s) (f (widthOf s) (elemAt s w.b e) (secondAt s w zx e) (elemAt s w.d e))) (fun _ => 0)

/-- The exact value of an integer function of the two operands of an element. -/
def exactAt (s : State) (w : Fld) (f : Nat → Nat → Nat → Int) (e : Nat) : Int :=
  f (widthOf s) (elemAt s w.b e) (secondAt s w false e)

/-- The exact value of an element lies outside [lo, hi]. -/
def Outside (s : State) (w : Fld) (lo hi : Nat → Int) (f : Nat → Nat → Nat → Int) (e : Nat) : Prop :=
  exactAt s w f e < lo (widthOf s) ∨ hi (widthOf s) < exactAt s w f e

/-- An integer word completes with an exact sum or difference clamped to [lo, hi]; the event SAT says that an element's
value changed (R92). Where VFTRAP enables SAT, no active element may have it. -/
def GivesClamped (i : Fld → Instr) (s : State) (w : Fld) (lo hi : Nat → Int) (f : Nat → Nat → Nat → Int) : Prop :=
  (bitOf s.hart.vec.vftrap 5 = true →
    ∀ e, posOf s ≤ e → e < lenOf s → activeAt s w true e = true → ¬ Outside s w lo hi f e) →
  ∃ evs : Nat → Ev, (∀ e b, bitOf (evs e) b = true ↔ b = 5 ∧ Outside s w lo hi f e) ∧
    WritesGroup (i w) s w (grpOf s) (widthOf s) (activeAt s w true)
      (fun e => wrapTo (widthOf s) (max (lo (widthOf s)) (min (hi (widthOf s)) (exactAt s w f e)))) evs

/-- An integer compare completes, and bit `e` of its mask destination holds a relation of the width and the operands. -/
def GivesRelation (i : Fld → Instr) (s : State) (w : Fld) (rel : Nat → Nat → Nat → Bool) : Prop :=
  WritesMask (i w) s w.d.toNat true (activeAt s w true)
    (fun e => rel (widthOf s) (elemAt s w.b e) (secondAt s w false e)) (fun _ => 0)

/-- A mask operation completes, and bit `e` of its destination is a function of `e`. -/
def GivesBits (i : Instr) (s : State) (w : Fld) (bit : Nat → Bool) : Prop :=
  WritesMask i s w.d.toNat false (fun _ => true) bit (fun _ => 0)

/-- Bit `e` of the mask register in a field. -/
def maskAt (s : State) (r : BitVec 5) (e : Nat) : Bool := (s.hart.mask r.toNat).getLsbD e

/-- An offset or index operand: an unsigned x register in form VS, else imm5 from 0 to 31 (R54). -/
def offsetOf (s : State) (w : Fld) : Nat := if w.f = 1 then (s.hart.getX w.a).toNat else w.a.toNat

/-- A word without events on groups in the grouping completes, with `res e` in its active elements. -/
def GivesElems (i : Fld → Instr) (s : State) (w : Fld) (pred : Bool) (res : Nat → Nat) : Prop :=
  WritesGroup (i w) s w (grpOf s) (widthOf s) (activeAt s w pred) res (fun _ => 0)

/-- The active elements of a word, in order. -/
def actives (s : State) (w : Fld) (pred : Bool) : List Nat :=
  (List.range' (posOf s) (lenOf s - posOf s)).filter (activeAt s w pred)

/-- A reduction completes: element 0, of width `n`, of its destination groups of `size` registers takes `x`, the others follow
TAIL (R109, R123, R131), and VFFLAGS gains `ev`. -/
def GivesScalar (i : Instr) (s : State) (w : Fld) (size n x : Nat) (ev : Ev) : Prop :=
  ∃ t, exec i s = .next t ∧ VecFrame s t true
    ∧ (∀ r, Dests s w r → ∀ e, e * n < 8192 * size → t.hart.elem r n e =
        if e = 0 then x else if vtTail s.hart.vec.vtype then 0 else s.hart.elem r n e)
    ∧ RegsOutside s t (Dests s w) size ∧ MasksKept s t ∧ XKept s t
    ∧ t.hart.vec.vfflags = s.hart.vec.vfflags ||| ev

/-- A fold whose operation has events: the result and all events. -/
def foldEvents (op : Nat → Nat → Nat × Ev) (init : Nat) (l : List Nat) : Nat × Ev :=
  l.foldl (fun p x => ((op p.1 x).1, p.2 ||| (op p.1 x).2)) (init, 0)

/-! ## Floating words -/

/-- How a vector word rounds: VTYPE's format, RM, SATF and FTZ (R36-R38). -/
def roundingOf (s : State) (fmt : Nat) : Rounding :=
  ⟨floatFmt fmt, vtRm s.hart.vec.vtype, vtSatf s.hart.vec.vtype, vtFtz s.hart.vec.vtype⟩

/-- The value of a code of VTYPE's format. -/
def valueOf (s : State) (code : Nat) : FVal := decodeFloat (floatFmt (vtFmt s.hart.vec.vtype)) code

/-- A floating word completes: `f e` is the result and the events of an active element. No active element may have an
event that VFTRAP enables. -/
def GivesFloat (i : Fld → Instr) (s : State) (w : Fld) (f : Nat → Nat × Ev) : Prop :=
  NoTrap s (activeAt s w true) (fun e => (f e).2) →
  WritesGroup (i w) s w (grpOf s) (widthOf s) (activeAt s w true) (fun e => (f e).1 % 2 ^ widthOf s) (fun e => (f e).2)

/-! ## MX blocks and planar elements -/

/-- The blocks of the MX destinations after a word (R105): those below VELEM are kept, an active one takes its result, a
masked-off one follows the policy, those from VL on follow TAIL, and unused bytes are zero (R41). `listed` says that the
tail does not depend on `start` (R126). -/
def BlocksAre (s t : State) (listed : Bool) (dests : Nat → Prop) (start : Nat) (act : Nat → Bool) (res : Nat → Nat) :
    Prop :=
  let fmt := vtFmt s.hart.vec.vtype
  (∀ r, dests r → ∀ b, b < mxPer fmt * grpOf s → t.hart.mxBlockOf fmt r b =
    if b < start && !(listed && lenOf s / 32 ≤ b) then s.hart.mxBlockOf fmt r b
    else if b < lenOf s / 32 then
      if act b then res b
      else if s.hart.policy then 0 else s.hart.mxBlockOf fmt r b
    else if vtTail s.hart.vec.vtype then 0 else s.hart.mxBlockOf fmt r b)
  ∧ ∀ i, (h : i < 32) → (∃ r, dests r ∧ r ≤ i ∧ i < r + grpOf s) → t.hart.vec.v[i] &&& ~~~(mxUsed fmt) = 0

/-- A word on MX blocks completes: `act b` says that block `b` is active. -/
def GivesBlocks (i : Instr) (s : State) (w : Fld) (listed : Bool) (start : Nat) (act : Nat → Bool) (res : Nat → Nat)
    (evs : Nat → Ev) : Prop :=
  ∃ t, exec i s = .next t ∧ VecFrame s t true ∧ BlocksAre s t listed (Dests s w) start act res
    ∧ RegsOutside s t (Dests s w) (grpOf s) ∧ MasksKept s t ∧ XKept s t
    ∧ ∀ b, bitOf t.hart.vec.vfflags b = true ↔ bitOf s.hart.vec.vfflags b = true
        ∨ ∃ k, start ≤ k ∧ k < lenOf s / 32 ∧ act k = true ∧ bitOf (evs k) b = true

/-- The width of planar elements. -/
def planesOf (s : State) : Nat := vtPlw s.hart.vec.vtype

/-- Planar element `e` of the `planesOf` registers of a field (R42). -/
def planarAt (s : State) (r : BitVec 5) (e : Nat) : Nat := s.hart.planar (s.hart.vreg r) e (planesOf s)

/-- The second operand of a planar word (R129). -/
def planarSecond (s : State) (w : Fld) (e : Nat) : Nat :=
  if w.f = 0 then planarAt s w.a e else (s.hart.getX w.a).toNat % 2 ^ planesOf s

/-- Planar destinations of `n` registers end by v31, and DREG's coincides with vd's or is apart (R42, R129). -/
def PlanarDests (s : State) (w : Fld) (n : Nat) : Prop :=
  ∀ r, Dests s w r → r + n ≤ 32 ∧ (r = s.hart.vreg w.d ∨ r + n ≤ s.hart.vreg w.d ∨ s.hart.vreg w.d + n ≤ r)

/-- A planar source of `n` registers ends by v31, and each destination coincides with it or is apart (R129). -/
def PlanarSource (s : State) (w : Fld) (r : BitVec 5) (n : Nat) : Prop :=
  s.hart.vreg r + n ≤ 32
    ∧ ∀ d, Dests s w d → d = s.hart.vreg r ∨ d + n ≤ s.hart.vreg r ∨ s.hart.vreg r + n ≤ d

/-- A planar word completes. -/
def GivesPlanar (i : Instr) (s : State) (w : Fld) (res : Nat → Nat) : Prop :=
  ∃ t, exec i s = .next t ∧ VecFrame s t true
    ∧ (∀ r, Dests s w r → ∀ e, e < 8192 → t.hart.planar r e (planesOf s) =
        written s (posOf s) (activeAt s w true) (fun e => s.hart.planar r e (planesOf s)) 0 res e)
    ∧ RegsOutside s t (Dests s w) (planesOf s) ∧ MasksKept s t ∧ XKept s t ∧ FlagsKept s t

/-- The register fields of a reduction fit (R81, R109): destinations and sources in the grouping, and apart from vs2. -/
def ReduceFits (s : State) (w : Fld) : Prop :=
  GroupsFit s w ∧ Apart s w (grpOf s) w.b (grpOf s)

/-! ## Scalar words -/

/-- The control and status registers after an instruction retires: the retirement count advances unless it is inhibited
(R15). -/
def retiredCsr (c : Csrs) : Csrs :=
  { c with minstret := if bitOf c.mcountinhibit 2 then c.minstret else c.minstret + 1 }

/-- The vector state after a scalar word retires: VELEM is 0, but in a handler it keeps its value (R23, R140). -/
def retiredVec (h : Hart) : Vec := { h.vec with velem := if h.handling then h.vec.velem else 0 }

/-- What a scalar word that touches no memory leaves alone: memory, the mode, the vector state but VELEM, the task and lease registers,
the control block, the interrupt registers, everything in progress but a wait, and every other hart. -/
structure ScalarFrame (s t : State) : Prop where
  mem : t.mem = s.mem
  cur : t.cur = s.cur
  priv : t.hart.priv = s.hart.priv
  vec : t.hart.vec = retiredVec s.hart
  dev : t.hart.dev = s.hart.dev
  ctl : t.hart.ctl = s.hart.ctl
  ints : t.hart.ints = s.hart.ints
  run : t.hart.run = { s.hart.run with wait := t.hart.run.wait }
  others : ∀ k, k ≠ s.cur → t.hartAt k = s.hartAt k

/-- The f registers and fcsr keep their values. -/
def FKept (s t : State) : Prop := t.hart.f = s.hart.f ∧ t.hart.fcsr = s.hart.fcsr

/-- A scalar word completes, writes at most an x register, and goes on at `pc`. -/
def GivesX (i : Instr) (s : State) (rd : BitVec 5) (v pc : Word) : Prop :=
  ∃ t, exec i s = .next t ∧ ScalarFrame s t ∧ SetsX s t rd v ∧ FKept s t ∧ t.hart.csr = retiredCsr s.hart.csr
    ∧ t.hart.pc = pc

/-- A scalar word completes, writes no register, and goes on at `pc`. -/
def GivesPc (i : Instr) (s : State) (pc : Word) : Prop := GivesX i s 0 0 pc

/-- The control and status registers after a floating word with events: FS becomes Dirty where there are any (R15). -/
def floatCsr (c : Csrs) (ev : Ev) : Csrs :=
  if ev &&& 31 = 0 then c else { c with mstatus := setField c.mstatus 13 2 3 }

/-- An f register may take a word: FS becomes Dirty (R15). -/
def dirtyCsr (c : Csrs) : Csrs := { c with mstatus := setField c.mstatus 13 2 3 }

/-- An access of `n` bytes at a virtual address under an authority is performed at once at physical address `a` of this
package, in state `u`, where translations may have been cached (R270-R277): messages are not visible (assumption 2), and no
fence holds accesses of its class (R181). -/
def PlacedBy (e : Env) (s : State) (k : Acc) (va n a : Nat) (u : State) : Prop :=
  s.stepwise = false ∧ barred s s.cur e.vec = false ∧ resolve s e k va n = .ok (.mem a, u)

/-- An access of `n` bytes at a virtual address by the agent's data authority is performed at physical address `a` of this
package, in state `u` (R270-R277). -/
def Places (s : State) (k : Acc) (va n a : Nat) (u : State) : Prop := PlacedBy (dataEnv s) s k va n a u

/-- The bytes outside `n` bytes at `a` keep their values, and those within are the low bytes of `v`. -/
def Stored (s t : State) (a n v : Nat) : Prop :=
  ∀ b, readByte t.mem b = if a ≤ b ∧ b < a + n then bv 8 (v / 256 ^ (b - a)) else readByte s.mem b

/-- What a store leaves of a hart: all but the reservation, the pending user-level interrupts and what a wait has heard of,
which a store of another agent may take or raise (R15, R340, R418). -/
def SeesStore (x y : Hart) : Prop :=
  y = { x with run := { x.run with resv := y.run.resv, uiPend := y.run.uiPend, wait := y.run.wait } }

/-- What a scalar store leaves alone. The hart's own reservation of a scratchpad word may be lost (R205), and a Milliner's
lease buffer takes its own store (R325). -/
structure StoreFrame (s t : State) : Prop where
  cur : t.cur = s.cur
  x : t.hart.x = s.hart.x ∧ t.hart.shadow = s.hart.shadow
  f : FKept s t
  csr : t.hart.csr = retiredCsr s.hart.csr
  priv : t.hart.priv = s.hart.priv
  vec : t.hart.vec = retiredVec s.hart
  dev : t.hart.dev = s.hart.dev
  ctl : t.hart.ctl = s.hart.ctl
  ints : t.hart.ints = s.hart.ints
  run : t.hart.run = { s.hart.run with resv := t.hart.run.resv, wait := t.hart.run.wait, leases := t.hart.run.leases }
  others : ∀ k, k ≠ s.cur → SeesStore (s.hartAt k) (t.hartAt k)

/-! ## Traps -/

/-- A trap of the current agent, which is no Milliner, goes to a handler (R135): the cause and value registers, the saved PC,
the saved mode and interrupt enable, the new mode and PC. Nothing else of the hart's registers, and no byte of memory,
changes. -/
def Traps (i : Instr) (s : State) (cause : Nat) (tval : Word) : Prop :=
  ∃ t, exec i s = .next t ∧ t.mem = s.mem ∧ t.cur = s.cur
    ∧ t.hart.x = s.hart.x ∧ t.hart.shadow = s.hart.shadow ∧ FKept s t ∧ t.hart.vec = s.hart.vec ∧ t.hart.dev = s.hart.dev
    ∧ t.hart.ctl = s.hart.ctl ∧ t.hart.ints = s.hart.ints ∧ (∀ k, k ≠ s.cur → t.hartAt k = s.hartAt k)
    ∧ t.hart.run.resv = none
    ∧ (s.hart.priv ≠ .m ∧ bitOf s.hart.csr.medeleg cause = true →
        t.hart.priv = .s ∧ t.hart.pc = s.hart.csr.stvec &&& ~~~3#64
        ∧ t.hart.csr = { s.hart.csr with
            sepc := s.hart.pc
            scause := bv 64 cause
            stval := tval
            mstatus := setBit (setBit (setBit s.hart.csr.mstatus 5 (bitOf s.hart.csr.mstatus 1)) 1 false) 8
              (s.hart.priv ≠ .u) })
    ∧ (¬ (s.hart.priv ≠ .m ∧ bitOf s.hart.csr.medeleg cause = true) →
        t.hart.priv = .m ∧ t.hart.pc = s.hart.csr.mtvec &&& ~~~3#64
        ∧ t.hart.csr = { s.hart.csr with
            mepc := s.hart.pc
            mcause := bv 64 cause
            mtval := tval
            mstatus := setField (setBit (setBit s.hart.csr.mstatus 7 (bitOf s.hart.csr.mstatus 3)) 3 false) 11 2
              s.hart.priv.code })

/-! ## Vector accesses -/

/-- No page table is walked for an address under an authority: it lies in a window of the agent's own, it is not translated,
or its translation is cached (R270, R273, R277). -/
def NoWalkBy (e : Env) (s : State) (va : Nat) : Prop :=
  within va 0x7FFFFF800000 0x800000 = true ∨ e.translates = false ∨ (tlbFind s e va).isSome = true

/-- The same for a vector access of the current agent. -/
def NoWalk (s : State) (va : Nat) : Prop := NoWalkBy (vecEnv s) s va

/-- An aligned vector access of `n` bytes that is performed at physical address `a` of this package (R171, R270-R277). -/
def Reaches (s : State) (k : Acc) (al va n a : Nat) : Prop :=
  va % al = 0 ∧ va < 2 ^ 47 ∧ NoWalk s va ∧ PlacedBy (vecEnv s) s k va n a s

/-- A load that reaches memory whose words hold no uncorrectable error (R206). -/
def Loads (s : State) (al va n a : Nat) : Prop := Reaches s .load al va n a ∧ poisoned s a n = none

/-- A store of a vector agent that reaches memory which no other agent leases (R193), and no part of a word that holds an
uncorrectable error (R206). -/
def Stores (s : State) (al va n a : Nat) : Prop :=
  Reaches s .store al va n a ∧ leaseBlocks s { hart := s.cur, scalar := false } a n = false
    ∧ ∀ p ∈ s.coh.poison, touches a n p = true → a ≤ p ∧ p + 8 ≤ a + n

/-- The low 64 bits of a base, an advance of `step` a pass (R88), and an offset. -/
def vectorAddr (s : State) (r : BitVec 5) (step offset : Int) : Nat :=
  wrapTo 64 ((s.hart.getX r).toNat + s.hart.pass * step + offset)

/-- `n` bytes of a value, at consecutive addresses. -/
def bytesAt (a n v : Nat) : List (Nat × Byte) := (List.range n).map (fun j => (a + j, bv 8 (v / 256 ^ j)))

/-- Memory after bytes are stored in order: the last store to an address decides, and other bytes keep their values. -/
def StoresAre (s t : State) (l : List (Nat × Byte)) : Prop :=
  ∀ b, readByte t.mem b = match (l.filter (fun p => p.1 == b)).getLast? with
    | some p => p.2
    | none => readByte s.mem b

/-- What a retiring vector store leaves alone. The hart's own reservation may be lost (R15). -/
structure VecStoreFrame (s t : State) (takes : Bool) : Prop where
  cur : t.cur = s.cur
  pc : t.hart.pc = s.hart.nextPc
  x : XKept s t
  f : FKept s t
  priv : t.hart.priv = s.hart.priv
  csr : t.hart.csr = { s.hart.csr with minstret := t.hart.csr.minstret }
  vec : t.hart.vec = { s.hart.vec with
    velem := 0
    vpfx := if takes then setBit s.hart.vec.vpfx 0 false else s.hart.vec.vpfx }
  dev : t.hart.dev = s.hart.dev
  ctl : t.hart.ctl = s.hart.ctl
  ints : t.hart.ints = s.hart.ints
  run : t.hart.run = { s.hart.run with
    resv := t.hart.run.resv
    queue := t.hart.run.queue
    wait := t.hart.run.wait
    body := t.hart.run.body
    pfxOwn := t.hart.run.pfxOwn }
  others : ∀ k, k ≠ s.cur → SeesStore (s.hartAt k) (t.hartAt k)

/-- A vector store completes, and the bytes it stores are those of a list, in order. -/
def StoresBytes (i : Instr) (s : State) (takes : Bool) (l : List (Nat × Byte)) : Prop :=
  ∃ t, exec i s = .next t ∧ VecStoreFrame s t takes ∧ StoresAre s t l

/-- The address of element `e` of an indexed access (R64, R172). -/
def indexedAddr (s : State) (w : Fld) (e : Nat) : Nat :=
  let x := elemIn s w.b (if w.f = 1 then 64 else 32) e
  vectorAddr s w.a 0 (if w.f = 2 then signedOf 32 x else x)

/-- The index group of an indexed access fits (R172). -/
def IndexFits (s : State) (w : Fld) : Prop :=
  let m := max 1 (grpOf s * (if w.f = 1 then 64 else 32) / widthOf s)
  m ≤ 8 ∧ SourceFits s w.b m

/-! ## Other instructions and events -/

/-- An instruction answers a next state that meets a condition. -/
def Ends (i : Instr) (s : State) (p : State → Prop) : Prop := ∃ t, exec i s = .next t ∧ p t

/-- Nothing of the package but the current agent's hart changes; answers of other modules that its instruction used
are gone, and a Milliner keeps no copies. -/
def OnlyHart (s t : State) : Prop :=
  (∀ k, k ≠ s.cur → t.hartAt k = s.hartAt k)
    ∧ t = { s with harts := t.harts, coh := { s.coh with remote := t.coh.remote, copies := t.coh.copies } }

/-- An instruction completes, and the only change is that the current agent's hart becomes `h`. -/
def Becomes (i : Instr) (s : State) (h : Hart) : Prop := Ends i s (fun t => OnlyHart s t ∧ t.hart = h)

/-- An instruction of an agent that is no Milliner is illegal: it traps with cause 2 and the instruction word (R135). -/
def Illegal (i : Instr) (s : State) (word : Nat) : Prop := Traps i s 2 (bv 64 word)

/-- The hart after its word retires with `v` in an x register. -/
def Hart.gives (h : Hart) (rd : BitVec 5) (v : Word) : Hart := (h.setX rd v).retire

/-- What a word of a unit (a window, the Crown) leaves alone when it retires: everything of the hart but PC, the x
registers, the vector registers, VELEM, GRANT, the windows and the B buffers, and what `StoreFrame` leaves open. -/
structure UnitFrame (s t : State) (takes : Bool) : Prop where
  cur : t.cur = s.cur
  pc : t.hart.pc = s.hart.nextPc
  f : FKept s t
  priv : t.hart.priv = s.hart.priv
  csr : t.hart.csr = { s.hart.csr with minstret := t.hart.csr.minstret }
  vec : t.hart.vec = { s.hart.vec with
    v := t.hart.vec.v
    velem := 0
    vpfx := if takes then setBit s.hart.vec.vpfx 0 false else s.hart.vec.vpfx }
  dev : t.hart.dev = { s.hart.dev with grant := t.hart.dev.grant }
  ctl : t.hart.ctl = s.hart.ctl
  ints : t.hart.ints = s.hart.ints
  run : t.hart.run = { s.hart.run with
    resv := t.hart.run.resv
    queue := t.hart.run.queue
    wait := t.hart.run.wait
    body := t.hart.run.body
    pfxOwn := t.hart.run.pfxOwn
    windows := t.hart.run.windows
    bbufs := t.hart.run.bbufs }

/-- The bytes outside `n` bytes at `a` keep their values, and those within are the values of `v` by offset. -/
def Filled (s t : State) (a n : Nat) (v : Nat → Byte) : Prop :=
  ∀ b, readByte t.mem b = if a ≤ b ∧ b < a + n then v (b - a) else readByte s.mem b

/-- A word of major G completes: word `k` of the result `res e` of element `e` goes to register `k` of each destination. -/
def GivesRecords (i : Fld → Instr) (s : State) (w : Fld) (size : Nat) (res : Nat → Nat) : Prop :=
  ∃ t, exec (i w) s = .next t ∧ VecFrame s t true ∧ MasksKept s t ∧ XKept s t ∧ FlagsKept s t
    ∧ RegsOutside s t (Dests s w) size
    ∧ ∀ r, Dests s w r → ∀ k < size, ∀ e < 256, t.hart.elem (r + k) 32 e =
        written s (posOf s) (activeAt s w true) (fun e => s.hart.elem (r + k) 32 e) 0 (fun e => nbits (res e) (32 * k) 32) e

/-- A word of major G may run on the hart (R296): FMT is FP32 with GRP 00, the groups fit, and rs1 is aligned. -/
structure RecordReady (s : State) (w : Fld) (size align : Nat) : Prop where
  ready : VecReady s
  compute : kindOf s.cur = .compute
  prefixed : PrefixFits s w true true
  type : TypeIn s (· == 5)
  grp : grpOf s = 1
  length : LengthOk s.hart
  dests : DestsFit s w size
  source : SourceFits s w.b 8
  apart : Apart s w size w.b 8
  base : (s.hart.getX w.a).toNat % align = 0

/-! ## Homes at rest -/

/-- Nothing holds up a store at its home: there is no lease, queued request, commit, displacement or migration. -/
structure HomesFree (s : State) : Prop where
  leases : s.coh.leases = []
  queued : s.coh.queued = []
  commits : s.coh.commits = []
  evicting : s.coh.evicting = []
  migs : s.coh.migs = []

/-- Stores are performed at once: nothing holds them up at their homes, and messages are not visible (assumption 2). -/
structure HomesIdle (s : State) : Prop where
  free : HomesFree s
  stepwise : s.stepwise = false

/-! ## Kicks of a Milliner -/

/-- Nothing of a Milliner's accesses is under way. -/
def Settled (s : State) (m : Nat) : Prop := remoteUnacked s m = false ∧ unacknowledged s m = false

/-- A completion store of a Milliner is made at once: no earlier one waits, its routine's writes are performed, and nothing
holds up a store. -/
structure MailboxFree (s : State) (m : Nat) : Prop where
  homes : HomesIdle s
  first : (s.millAt m).closing = []
  settled : Settled s m

/-- The mailbox of a kick: its address in the memory of this package, and its token (R332). `physical` says whether MBOX is a
physical address, as a page migration's is (R339); none that the block says it. -/
def mailboxOf (s : State) (m : Nat) (k : Kick) (physical : Option Bool) : Option (Nat × Nat) :=
  match closingFields m { kick := k, status := 0, physical := physical, waits := false } s with
  | .ok (mbox, token, byPa) u =>
    if mbox.toNat % 8 ≠ 0 then none
    else match resolve u (if byPa then { kickEnv m k with satp := 0 } else kickEnv m k) .store mbox.toNat 8 with
      | .ok (.mem a, _) => some (a, token.toNat)
      | _ => none
  | .error _ _ => none

/-- The only store is the completion: TOKEN and STATUS in the 8 bytes at `a` (R332). -/
def Mailed (s t : State) (a token status : Nat) : Prop :=
  read8 t.mem a = bv 64 (token % 2 ^ 32 + status * 2 ^ 32)
    ∧ ∀ b, b < a ∨ a + 8 ≤ b → readByte t.mem b = readByte s.mem b

/-- A Milliner has ended its kick (R330). -/
def KickOver (t : State) (m : Nat) : Prop := (t.millAt m).kick = none ∧ (t.millAt m).run = .idle

/-- The routine of a Milliner ends with a status and a mailbox. -/
def EndsKick (i : Instr) (s : State) (m : Nat) (k : Kick) (physical : Option Bool) (status : Nat) : Prop :=
  MailboxFree s m → ∀ a token, mailboxOf s m k physical = some (a, token) →
    Ends i s (fun t => KickOver t m ∧ Mailed s t a token status)

/-- A kick whose block has been read: MBOX and TOKEN are those of the words read (R341). -/
def Kick.noted (k : Kick) (ws : List Word) : Kick := { k with fields := some ((ws[3]?).getD 0, (ws[7]?).getD 0) }

/-- Bytes at virtual addresses are stored under an authority at physical addresses `pa`, byte by byte or in any run within
an aligned 8-byte word, without a table walk. -/
structure BytesPlaced (e : Env) (s : State) (l : List (Nat × Byte)) (pa : Nat → Nat) : Prop where
  bars : barred s e.who e.vec = false
  walk : ∀ p ∈ l, NoWalkBy e s p.1
  place : ∀ p ∈ l, ∀ n ≤ 8, 0 < n → p.1 % 8 + n ≤ 8 → resolve s e .store p.1 n = .ok (.mem (pa p.1), s)
  run : ∀ p ∈ l, ∀ q ∈ l, p.1 / 8 = q.1 / 8 → pa p.1 + q.1 = pa q.1 + p.1
  apart : ∀ p ∈ l, ∀ q ∈ l, p.1 ≠ q.1 → pa p.1 ≠ pa q.1
  rising : l.Pairwise (fun p q => p.1 < q.1)
  clean : s.coh.poison = []

/-- The byte at an address after bytes have been stored at `pa`. -/
def storedByte (s : State) (l : List (Nat × Byte)) (pa : Nat → Nat) (b : Nat) : Byte :=
  ((l.find? (fun p => pa p.1 == b)).map Prod.snd).getD (readByte s.mem b)

/-! ## Messages of the coherence protocol -/

/-- Message `m` is number `n` in flight and may arrive: no link holds it, and no message that the channels keep in order
before it is in flight (R280, R347). -/
structure MayArrive (s : State) (n : Nat) (m : Msg) : Prop where
  there : s.coh.net[n]? = some m
  free : linkHolds s m = false
  first : ∀ j k, j < n → s.coh.net[j]? = some k → goesBefore k m = false

/-- A message arrives at its home and is served there: its incarnation is its sender's (R355), its region does not wait
in a migration and stands at its own address (R351), and no store to its words commits (R281). -/
structure Served (s : State) (n : Nat) (m : Msg) : Prop where
  arrives : MayArrive s n m
  fresh : m.inc = incOf s m.src
  here : forward s m.addr = some m.addr
  settled : committing s m.addr m.len = false

/-- The messages in flight once number `n` has arrived. -/
def restNet (s : State) (n : Nat) : List Msg := s.coh.net.eraseIdx n

/-- An event completes with a new directory, messages, copies, commits, displacements, home leases and queue; other
parts of the package keep their values. -/
def EndsCoh (i : Instr) (s : State) (coh : Coh) : Prop := exec i s = .next { s with coh := coh }

/-- The next slot of the supervisor ring of a partition (R145). -/
def ringSlot (s : State) (p : Nat) : Nat :=
  (s.partAt p).fring.base.toNat + (s.partAt p).fring.widx.toNat % 2 ^ (s.partAt p).fring.log2n.toNat * 32

/-- The supervisor ring of a partition takes a record: it is enabled, not full, and its next slot is writable (R146); and
nothing holds up a store to the slot at its home. -/
structure RingOpen (s : State) (p : Nat) : Prop where
  part : p < noPart
  en : (s.partAt p).fring.en = true
  room : ((s.partAt p).fring.widx - (s.partAt p).fring.ridx).toNat < 2 ^ (s.partAt p).fring.log2n.toNat
  slot : writable s p (ringSlot s p) 32 = true
  aligned : ringSlot s p % 32 = 0
  leases : s.coh.leases = []
  queued : s.coh.queued = []
  units : ∀ c ∈ s.coh.commits, c.msg.slot ≠ 2
  settled : committing s (ringSlot s p) 32 = false
  shared : s.stepwise = true → dirOf s (regionNo (ringSlot s p)) = none
  migs : s.coh.migs = []

/-- One record has been written to the supervisor ring of a partition (R145), and no other byte of memory. -/
def Recorded (s t : State) (p kind detail hart : Nat) (pc a b : Word) : Prop :=
  let r := (s.partAt p).fring
  let slot := ringSlot s p
  (t.partAt p).fring = { r with widx := r.widx + 1 }
    ∧ readNat t.mem slot 4 = (!(r.widx.getLsbD r.log2n.toNat)).toNat * 2 ^ 31 + kind * 65536 + detail
    ∧ readNat t.mem (slot + 4) 4 = hart % 2 ^ 32 ∧ read8 t.mem (slot + 8) = pc
    ∧ read8 t.mem (slot + 16) = a ∧ read8 t.mem (slot + 24) = b
    ∧ ∀ j, j < slot ∨ slot + 32 ≤ j → readByte t.mem j = readByte s.mem j

/-! ## Messages of the fabric -/

/-- Message `m` is number `n` of those received and not yet served, has the OP, and no earlier request of its module for
its region stands before it (R390, R393). -/
structure Received (s : State) (op n : Nat) (m : FabMsg) : Prop where
  there : s.chr.inbox[n]? = some m
  op : m.op = op
  first : m.asks = true → ∀ j k, j < n → s.chr.inbox[j]? = some k → k.asks = true → k.mod = m.mod →
    k.addr / 256 ≠ m.addr / 256

/-- A request of another module is accepted (R396): its bytes are memory of one partition that is joined with the
requester's, at physical address `a`, with no store to them committing and no uncorrectable error in them. -/
structure Accepted (s : State) (m : FabMsg) (a : Nat) : Prop where
  owner : acceptedBy s m ≠ none
  here : forward s m.addr = some a
  settled : committing s a m.len = false
  queued : s.coh.queued = []
  clean : s.coh.poison = []

/-- The response to a request: its tag and modules, the partition of the bytes at its address, an OP and data (R390). -/
def FabMsg.response (m : FabMsg) (s : State) (op a : Nat) (data : List Byte) : FabMsg :=
  { m with
    part := sourcePart s a
    op := op
    sub := 0
    addr := a
    len := data.length
    data := data }

/-- Port `p` is the first of the route to a message's module that is up and has room, and no response waits before it. -/
def LeavesBy (s : State) (m : FabMsg) (p : Nat) : Prop := (upPorts s m.mod).find? (portRoom s) = some p ∧ s.chr.held = []

/-- Serving message `n` of those received sends one response in a flit of its own: the next number of its hop, the last
number received, the flit buffers returned, class 3 for a WAck and 5 otherwise (R390). -/
def Responded (s t : State) (n p : Nat) (r : FabMsg) : Prop :=
  let y := s.chr.port p
  let h : FlitHead := { seq := (y.txSeq + 1).toNat, ackSeq := y.rxSeq.toNat, replay := false, ackV := true,
                        srcMod := s.chr.modIdx.toNat, srcPart := r.part, dstMod := r.mod,
                        cls := if r.op = 0x11 then 3 else 5, type := 2, credit := min 31 y.owed, nmsg := 1 }
  t.chr.inbox = s.chr.inbox.eraseIdx n ∧ t.chr.outbox = s.chr.outbox ++ [(p, flitBytes h r.bytes)]
    ∧ (t.chr.port p).txSeq = y.txSeq + 1
    ∧ (t.chr.port p).txq = y.txq ++ [(y.txSeq + 1, flitBytes h r.bytes)]

/-! ## Requests through the root port -/

/-- No request of a PCIe requester waits at the root port (R409). -/
def NoneWaits (s : State) (rid : Nat) : Prop := ∀ q ∈ s.pcie.waiting, q.rid % 65536 ≠ rid % 65536

/-- A request waits at the root port, behind those that wait there. -/
def Waits (i : Instr) (s : State) (q : Inbound) : Prop :=
  exec i s = .next { s with pcie := { s.pcie with waiting := s.pcie.waiting ++ [q] } }

/-- A PCIe requester's `n` bytes at `a` are this package's memory, reached by physical address (R408). -/
structure RootReaches (s : State) (rid a n : Nat) : Prop where
  en : s.pcie.en = true
  entry : entryOk s rid = true
  physical : bitOf (rootEntry s rid).1 62 = true
  size : 0 < n
  mem : ∀ j < n, regionOf s (a + j) = .own ∧ ownerOf s (a + j) = entryPart s rid
  homes : HomesIdle s
  clean : s.coh.poison = []

/-! ## The management port -/

/-- A frame holds a request for an operation that a session continues (R410, R411): the session is known and SEQ is its last
plus 1. -/
structure InSession (s : State) (op : Nat) (f : List Byte) : Prop where
  request : takesUp s op f = true
  known : ∃ x ∈ s.nov.sessions, x.id = (requestOf f).ses ∧ (requestOf f).seq = (x.seq + 1) % 2 ^ 32

/-- A request is carried out: the session counts it, and a response with result 0 and a body goes out (R410). -/
def Manages (i : Instr) (s : State) (op : Nat) (f : List Byte) (body : List Byte) (effect : State → Prop) : Prop :=
  InSession s op f → let r := requestOf f
    Ends i s (fun t => effect t ∧ t.nov.out = s.nov.out ++ [responseBytes s r 0 r.ses body]
      ∧ ∀ x ∈ t.nov.sessions, x.id = r.ses → x.seq = r.seq)

/-- A request of a session is not carried out: a response with another result goes out, and nothing else changes. -/
def Denies (i : Instr) (s : State) (op : Nat) (f : List Byte) : Prop :=
  InSession s op f → let r := requestOf f
    ∃ c, 0 < c ∧ c < 256 ∧ Ends i s (fun t => t.nov.out = s.nov.out ++ [responseBytes s r c r.ses []]
      ∧ t = { s with fresh := t.fresh, nov := { s.nov with sessions := t.nov.sessions, out := t.nov.out } })

/-! ## Steps -/

/-- The next step is the current agent's turn at the word at its PC: the module runs, nothing comes about by itself, the agent and its clocks run, no interrupt is due, and PC is no repetition position (assumption 1). -/
structure Turns (s : State) : Prop where
  powered : s.pkg.powered = true
  runs : s.pkg.stopped = false
  quiet : dueEvent s = none
  own : ownChange s = none
  agent : s.cur < agentCount
  able : s.hart.canRun = true
  clock : clockStopped s s.cur = false
  calm : interruptible s s.cur = true → irqDue s s.cur = none ∧ s.hart.uiDue = none
  word : isRep s.hart.pc = false

/-- The word at PC is fetched from this package's memory at physical address `a`: the buffer does not hold it, it is
aligned, its page is known, messages are not visible, and no word of memory holds an uncorrectable error (R156, R169). -/
structure FetchesAt (s : State) (a : Nat) : Prop where
  user : isMilliner s.cur = false
  missing : s.hart.run.fetch.find? (fun p => p.1 == s.hart.pc.toNat) = none
  aligned : s.hart.pc.toNat % 4 = 0
  place : resolve s (envOf s s.cur true) .fetch s.hart.pc.toNat 4 = .ok (.mem a, s)
  stepwise : s.stepwise = false
  clean : s.coh.poison = []

end Machine

end Sys2Proof
end

