-- ==== Sys2Proof/Certificates/Slice0/Obligations.lean ====
section
/-! DEFINITION. The statements for the provers. Each says in its docstring which rules of spec/ it formalises; what is the
model's own is named there with its assumption. -/

section

open Sys2Proof Sys2Proof.Machine

/-- What reset leaves (R31, and the reset values of R19-R27; a system core's a0 by R406). That unwritten memory reads
as zero is the model's choice (assumption 4). -/
def Obligations.ResetState : Prop :=
  (∀ h, kindOf h = .compute → let x := State.reset.hartAt h
    x.priv = .m ∧ x.ctl.parked = true
    ∧ (∀ i (hi : i < 32), x.x[i] = 0 ∧ x.f[i] = 0 ∧ x.vec.v[i] = 0)
    ∧ (∀ i (hi : i < 8), x.vec.m[i] = 0 ∧ x.shadow[i] = 0)
    ∧ fieldOf x.csr.mstatus 13 2 = 1
    ∧ x.vec.vtype = 0x8000_0000_0002_0000#64 ∧ x.vec.vl = 0 ∧ x.vec.velem = 0 ∧ x.vec.vpfx = 0
    ∧ x.vec.vfflags = 0 ∧ x.vec.vftrap = 0
    ∧ x.dev = { task := 0, chan := 0, domain := 0, grant := 0, held := 0, uivec := 0, uicause := 0, uiepc := 0 })
  ∧ (∀ h, kindOf h = .system → let x := State.reset.hartAt h
    x.x[10] = bv 64 h ∧ x.ctl.parked = true ∧ fieldOf x.csr.mstatus 13 2 = 1)
  ∧ Memory.wf State.reset.mem ∧ (∀ a, readByte State.reset.mem a = 0)
  ∧ ∀ h, LengthOk (State.reset.hartAt h)

/-- A step runs the instruction at PC, and what comes before it (R72, R142, R156, R169). The order of turns and events
is the model's own (assumption 1), and so is the placing of a word (assumption 5). -/
def Obligations.StepRunsDecoded : Prop :=
  (∀ (s : State) (w : W32) (i : Instr) (t : State), Turns s → s.sched = [] → fetchWord s = .ok w t → decode w = .ok i →
    step s = tickOutcome (exec i t))
  ∧ (∀ (s : State) (w : W32) (e : DecodeError) (t : State), Turns s → s.sched = [] → fetchWord s = .ok w t →
      decode w = .error e → step s = .next (raise 2 (w.setWidth 64) t).tick)
  ∧ (∀ (s : State) (h : Nat) (r : List Move) (w : W32) (i : Instr) (t : State), s.sched = .agent h :: r →
      s.pkg.powered = true → s.pkg.stopped = false → dueEvent s = none → ownChange s = none → Turns { s with cur := h, sched := r } →
      fetchWord { s with cur := h, sched := r } = .ok w t → decode w = .ok i → step s = tickOutcome (exec i t))
  ∧ (∀ (s : State) (i : Instr) (r : List Move), s.sched = .event i :: r → s.pkg.powered = true → s.pkg.stopped = false →
      dueEvent s = none → ownChange s = none → encode i = none → step s = tickOutcome (exec i { s with sched := r }))
  ∧ (∀ (s : State) (i : Instr), s.pkg.powered = true → s.pkg.stopped = false → dueEvent s = some i →
      step s = tickOutcome (exec i s))
  ∧ (∀ (s : State) (x : Bool × Nat), s.pkg.powered = true → s.pkg.stopped = false → dueEvent s = none → ownChange s = none →
      s.sched = [] → s.cur < agentCount → clockStopped s s.cur = false → interruptible s s.cur = true → irqDue s s.cur = some x →
      step s = tickOutcome (exec (.interruptTake s.cur 0) s))
  ∧ (∀ (s : State) (a : Nat), FetchesAt s a → ∃ t, fetchWord s = .ok (bv 32 (readNat s.mem a 4)) t ∧ OnlyHart s t
      ∧ t.hart = { s.hart with run := { s.hart.run with fetch := t.hart.run.fetch } })
  ∧ (∀ (w : W32) (i : Instr), decode w = .ok i → ∃ t, fetchWord (State.reset.withFetchWord 32 w.toNat) = .ok w t
      ∧ step (State.reset.withFetchWord 32 w.toNat) = tickOutcome (exec i t))

/-- Words of the spec's worked encodings, one or more for each layout (R54, R56-R65). -/
def Obligations.DecodedWords : Prop :=
  let v (k t f b a d : Nat) : Fld :=
    { k := bv 2 k, t := bv 1 t, f := bv 2 f, b := bv 5 b, a := bv 5 a, d := bv 5 d }
  let z (x rs2 rs1 rd : Nat) : SFld := { x := bv 3 x, rs2 := bv 5 rs2, rs1 := bv 5 rs1, rd := bv 5 rd }
  decode 0x001101DB = .ok (.vadd (v 0 0 0 1 2 3))
  ∧ decode 0x2C1381DB = .ok (.vadd (v 2 1 2 1 7 3))
  ∧ decode 0xC282E45B = .ok (.vsra (v 0 0 1 8 5 8))
  ∧ decode 0x0281427B = .ok (.vfmadd (v 0 0 1 8 2 4))
  ∧ decode 0x0682D17B = .ok (.vfcvt (v 0 0 3 8 5 2))
  ∧ decode 0xC0804CFB = .ok (.plcmp (v 0 0 0 8 0 25))
  ∧ decode 0x161011D7 = .ok (.vcomp (v 1 0 3 1 0 3))
  ∧ decode 0xD20372D7 = .ok (.vcfgi { hi := 1, lo := 0, rs1 := 6, rd := 5 })
  ∧ decode 0x0005022B = .ok (.vld (v 0 0 0 0 10 4))
  ∧ decode 0x4085222B = .ok (.vstx (v 0 0 0 8 10 4))
  ∧ decode 0x02B500EB = .ok (.wdecl (v 0 0 1 11 10 1))
  ∧ decode 0x0001556B = .ok (.mattach (v 0 0 0 0 2 10))
  ∧ decode 0x03F0E20B = .ok (.vrep { n := 63, s := 1, k := 2, z := 0 })
  ∧ decode 0x00007B0B = .ok (.pfx { z := 0, dcv := 0, dreg := 0, y := 0, mreg := 5, inv := 1, zero := 0 })
  ∧ decode 0x3F05418B = .ok (.lease { n := 63, z := 0, rs1 := 10, words := 3 })
  ∧ decode 0x1405950B = .ok (.dwait (z 2 0 11 10))
  ∧ decode 0x02C5B10B = .ok (.sopen (z 1 12 11 2))
  ∧ decode 0x0800200B = .ok (.ordSv (z 4 0 0 0))
  ∧ decode 0x4000500B = .ok (.park (z 0 0 0 0))
  ∧ decode 0xCC302E73 = .ok (.csrAccess .rs false 0xCC3 0 28)

/-- Decoding and encoding agree, for every instruction and every word (R52-R67). -/
def Obligations.EncodingRoundTrip : Prop :=
  (∀ (i : Instr) (w : W32), i.wellFormed = true → encode i = some w → decode w = .ok i)
  ∧ ∀ (w : W32) (i : Instr), decode w = .ok i → i.wellFormed = true ∧ encode i = some w

/-- The map of major A (R60). -/
def Obligations.MajorAEncoding : Prop :=
  let word (f2 k t f b a f3 d : Nat) : W32 :=
    bv 2 f2 ++ bv 2 k ++ bv 1 t ++ bv 2 f ++ bv 5 b ++ bv 5 a ++ bv 3 f3 ++ bv 5 d ++ 0b1011011#7
  let row (f2 : Nat) (ops : List (Fld → Instr)) : Prop := ∀ (k t f b a d f3 : Nat) (i : Fld → Instr), ops[f3]? = some i →
    (f < 3 → decode (word f2 k t f b a f3 d) =
      .ok (i { k := bv 2 k, t := bv 1 t, f := bv 2 f, b := bv 5 b, a := bv 5 a, d := bv 5 d }))
    ∧ ∃ e, decode (word f2 k t 3 b a f3 d) = .error e
  row 0 [.vadd, .vsub, .vrsub, .vadc, .vsbc, .vmul, .vmulh, .vmulhz]
  ∧ row 1 [.vmacc, .vnmsac, .vdiv, .vdivz, .vrem, .vremz, .vmin, .vminz]
  ∧ row 2 [.vmax, .vmaxz, .vsadd, .vsaddz, .vssub, .vssubz, .vavg, .vabsd]
  ∧ row 3 [.vand, .vor, .vxor, .vandn, .vsll, .vsrl, .vsra, .vrol]

/-- Every step keeps memory in its canonical form (the form is the model's: assumption 4). -/
def Obligations.MemoryStaysCanonical : Prop :=
  ∀ (s t : State), Memory.wf s.mem → step s = .next t → Memory.wf t.mem

/-- Every step keeps every hart's VL within VLMAX (R21). -/
def Obligations.LengthsStayLegal : Prop :=
  ∀ (s t : State), (∀ h, LengthOk (s.hartAt h)) → step s = .next t → ∀ h, LengthOk (t.hartAt h)

/-- The integer words of R91 and R92, but the carries of R93: their results for every element, and what they leave. -/
def Obligations.IntegerWords : Prop :=
  (∀ (s : State) (w : Fld), VecReady s → PrefixFits s w true true → TypeIn s fmtInt → LengthOk s.hart → GroupsFit s w →
    GivesInt .vadd s w false (fun _ a b _ => a + b)
    ∧ GivesInt .vsub s w false (fun _ a b _ => a - b)
    ∧ GivesInt .vrsub s w false (fun _ a b _ => b - a)
    ∧ GivesInt .vmul s w false (fun _ a b _ => a * b)
    ∧ GivesInt .vmulh s w false (fun n a b _ => signedOf n a * signedOf n b / (2 ^ n : Nat))
    ∧ GivesInt .vmulhz s w false (fun n a b _ => (a * b / 2 ^ n : Nat))
    ∧ GivesInt .vmacc s w false (fun _ a b acc => acc + a * b)
    ∧ GivesInt .vnmsac s w false (fun _ a b acc => acc - a * b)
    ∧ GivesInt .vmin s w false (fun n a b _ => min (signedOf n a) (signedOf n b))
    ∧ GivesInt .vminz s w false (fun _ a b _ => (min a b : Nat))
    ∧ GivesInt .vmax s w false (fun n a b _ => max (signedOf n a) (signedOf n b))
    ∧ GivesInt .vmaxz s w false (fun _ a b _ => (max a b : Nat))
    ∧ GivesInt .vavg s w false (fun n a b _ => (signedOf n a + signedOf n b + 1) / 2)
    ∧ GivesInt .vabsd s w false (fun n a b _ => |signedOf n a - signedOf n b|))
  ∧ (∀ (s : State) (w : Fld), VecReady s → PrefixFits s w true true → TypeIn s fmtInt → LengthOk s.hart → GroupsFit s w →
    GivesInt .vdiv s w false (fun n a b _ => if b = 0 then -1 else Int.tdiv (signedOf n a) (signedOf n b))
    ∧ GivesInt .vdivz s w false (fun _ a b _ => if b = 0 then -1 else (a / b : Nat))
    ∧ GivesInt .vrem s w false (fun n a b _ => if b = 0 then a else Int.tmod (signedOf n a) (signedOf n b))
    ∧ GivesInt .vremz s w false (fun _ a b _ => if b = 0 then a else (a % b : Nat)))
  ∧ (∀ (s : State) (w : Fld), VecReady s → PrefixFits s w true true → TypeIn s fmtInt → LengthOk s.hart → GroupsFit s w →
    GivesInt .vand s w false (fun _ a b _ => (a &&& b : Nat))
    ∧ GivesInt .vor s w false (fun _ a b _ => (a ||| b : Nat))
    ∧ GivesInt .vxor s w false (fun _ a b _ => (a ^^^ b : Nat))
    ∧ GivesInt .vandn s w false (fun n a b _ => (a &&& (2 ^ n - 1 - b) : Nat))
    ∧ GivesInt .vsll s w true (fun n a b _ => (a <<< (b % n) : Nat))
    ∧ GivesInt .vsrl s w true (fun n a b _ => (a >>> (b % n) : Nat))
    ∧ GivesInt .vsra s w true (fun n a b _ => signedOf n a / (2 ^ (b % n) : Nat))
    ∧ GivesInt .vrol s w true (fun n a b _ => (a <<< (b % n) ||| a >>> (n - b % n) : Nat)))
  ∧ (∀ (s : State) (w : Fld), VecReady s → PrefixFits s w true true → TypeIn s fmtInt → LengthOk s.hart → GroupsFit s w →
    GivesClamped .vsadd s w (fun n => -2 ^ (n - 1)) (fun n => 2 ^ (n - 1) - 1) (fun n a b => signedOf n a + signedOf n b)
    ∧ GivesClamped .vsaddz s w (fun _ => 0) (fun n => 2 ^ n - 1) (fun _ a b => a + b)
    ∧ GivesClamped .vssub s w (fun n => -2 ^ (n - 1)) (fun n => 2 ^ (n - 1) - 1) (fun n a b => signedOf n a - signedOf n b)
    ∧ GivesClamped .vssubz s w (fun _ => 0) (fun n => 2 ^ n - 1) (fun _ a b => a - b))

/-- vadc and vsbc (R93) and the compares into a mask (R94). -/
def Obligations.CarriesAndCompares : Prop :=
  (∀ (s : State) (w : Fld), VecReady s → PrefixFits s w true false → TypeIn s fmtInt → LengthOk s.hart → GroupsFit s w →
    let n := widthOf s
    let cin (e : Nat) : Nat := if w.k ≠ 0 && (s.hart.mask w.k.toNat).getLsbD e then 1 else 0
    let gives (i : Fld → Instr) (sum : Nat → Int) (cout : Nat → Bool) : Prop :=
      ∃ t, exec (i w) s = .next t ∧ VecFrame s t true
        ∧ ElemsAre s t (Dests s w) (grpOf s) n (posOf s) (activeAt s w false) (fun e => wrapTo n (sum e))
        ∧ RegsOutside s t (Dests s w) (grpOf s) ∧ XKept s t ∧ FlagsKept s t
        ∧ (w.k = 0 → MasksKept s t) ∧ MasksOutside s t w.k.toNat
        ∧ (w.k ≠ 0 → ∀ e, e < 8192 → (t.hart.mask w.k.toNat).getLsbD e =
            if posOf s ≤ e ∧ e < lenOf s ∧ activeAt s w false e = true then cout e else (s.hart.mask w.k.toNat).getLsbD e)
    let a (e : Nat) : Int := elemAt s w.b e
    let b (e : Nat) : Int := secondAt s w false e
    gives .vadc (fun e => a e + b e + cin e) (fun e => 2 ^ n ≤ a e + b e + cin e)
    ∧ gives .vsbc (fun e => a e - b e - cin e) (fun e => a e - b e - cin e < 0))
  ∧ (∀ (s : State) (w : Fld), VecReady s → PrefixFits s w false true → TypeIn s fmtInt → SourceFits s w.b (grpOf s) →
    (w.f = 0 → SourceFits s w.a (grpOf s)) →
    GivesRelation .vceq s w (fun _ a b => a == b)
    ∧ GivesRelation .vcne s w (fun _ a b => a != b)
    ∧ GivesRelation .vclt s w (fun n a b => signedOf n a < signedOf n b)
    ∧ GivesRelation .vcltz s w (fun _ a b => a < b)
    ∧ GivesRelation .vcle s w (fun n a b => signedOf n a ≤ signedOf n b)
    ∧ GivesRelation .vclez s w (fun _ a b => a ≤ b)
    ∧ GivesRelation .vcgt s w (fun n a b => signedOf n a > signedOf n b)
    ∧ GivesRelation .vcgtz s w (fun _ a b => a > b))

/-- The mask words (R95-R97). -/
def Obligations.MaskWords : Prop :=
  (∀ (s : State) (w : Fld), VecReady s → NoPrefix s →
    GivesBits (.mand w) s w (fun e => maskAt s w.b e && maskAt s w.a e)
    ∧ GivesBits (.mor w) s w (fun e => maskAt s w.b e || maskAt s w.a e)
    ∧ GivesBits (.mxor w) s w (fun e => xor (maskAt s w.b e) (maskAt s w.a e))
    ∧ GivesBits (.mandn w) s w (fun e => maskAt s w.b e && !(maskAt s w.a e))
    ∧ GivesBits (.mnot w) s w (fun e => !(maskAt s w.b e))
    ∧ GivesBits (.mmov w) s w (fun e => maskAt s w.b e)
    ∧ (w.d ≠ w.b → GivesBits (.mshl w) s w (fun e => offsetOf s w ≤ e && maskAt s w.b (e - offsetOf s w))))
  ∧ (∀ (s : State) (w : Fld), VecReady s → NoPrefix s → isRep s.hart.pc = false →
    let set := (List.range (lenOf s)).filter (maskAt s w.b)
    WritesX (.mpop w) s w.d (bv 64 set.length)
    ∧ WritesX (.mfirst w) s w.d (match set with
      | e :: _ => bv 64 e
      | [] => BitVec.allOnes 64))
  ∧ (∀ (s : State) (w : Fld), VecReady s → TypeIn s fmtInt →
    (PrefixFits s w false true → SourceFits s w.b (grpOf s) →
      WritesMask (.mvtom w) s w.d.toNat true (activeAt s w true) (fun e => elemAt s w.b e != 0) (fun _ => 0))
    ∧ (PrefixFits s w true true → LengthOk s.hart → DestsFit s w (grpOf s) →
      GivesElems .mmtov s w true (fun e => (maskAt s w.b e).toNat)))

/-- Index generation (R104), and the moves of R98. -/
def Obligations.ElementMoves : Prop :=
  (∀ (s : State) (w : Fld), VecReady s → PrefixFits s w true true → TypeIn s fmtInt → LengthOk s.hart →
    DestsFit s w (grpOf s) →
    GivesElems .vbcast s w true (secondAt s w false)
    ∧ GivesElems .vidx s w true (fun e => e % 2 ^ widthOf s)
    ∧ GivesElems .viota s w true (fun e => ((List.range e).filter (maskAt s w.b)).length % 2 ^ widthOf s)
    ∧ (SourceFits s w.b (grpOf s) → GivesElems .vmov s w true (fun e => elemAt s w.b e)))
  ∧ (∀ (s : State) (w : Fld), VecReady s → NoPrefix s → TypeIn s fmtInt →
    (SourceFits s w.b (grpOf s) → isRep s.hart.pc = false →
      WritesX (.vxget w) s w.d (if offsetOf s w < vlmax s.hart.vec.vtype then
        sext64 (widthOf s) (elemAt s w.b (offsetOf s w)) else 0))
    ∧ (SourceFits s w.d (grpOf s) →
      ∃ t, exec (.vxput w) s = .next t ∧ VecFrame s t false ∧ MasksKept s t ∧ XKept s t ∧ FlagsKept s t
        ∧ RegsOutside s t (· = s.hart.vreg w.d) (grpOf s)
        ∧ ∀ e, e < vlmax s.hart.vec.vtype → t.hart.elem (s.hart.vreg w.d) (widthOf s) e =
            if e = (s.hart.getX w.b).toNat then (s.hart.getX w.a).toNat % 2 ^ widthOf s else elemAt s w.d e))

/-- The slides (R99), vgath (R100) and vmerge (R101). -/
def Obligations.SlidesAndGathers : Prop :=
  (∀ (s : State) (w : Fld), VecReady s → PrefixFits s w true true → TypeIn s fmtInt → LengthOk s.hart →
    DestsFit s w (grpOf s) → SourceFits s w.b (grpOf s) → Apart s w (grpOf s) w.b (grpOf s) →
    let x := (s.hart.getX w.a).toNat % 2 ^ widthOf s
    WritesFrom (max (posOf s) (min (offsetOf s w) (lenOf s))) (.vslup w) s w (grpOf s) (widthOf s) (activeAt s w true)
        (fun e => elemAt s w.b (e - offsetOf s w)) (fun _ => 0)
    ∧ GivesElems .vsldn s w true (fun e => if e + offsetOf s w < lenOf s then elemAt s w.b (e + offsetOf s w) else 0)
    ∧ GivesElems .vsl1up s w true (fun e => if e = 0 then x else elemAt s w.b (e - 1))
    ∧ GivesElems .vsl1dn s w true (fun e => if e + 1 < lenOf s then elemAt s w.b (e + 1) else x))
  ∧ (∀ (s : State) (w : Fld), VecReady s → TypeIn s fmtInt → LengthOk s.hart →
    (PrefixFits s w true true → w.f = 0 → GroupsFit s w → Apart s w (grpOf s) w.b (grpOf s) → Apart s w (grpOf s) w.a (grpOf s) →
      GivesElems .vgath s w true (fun e =>
        if elemAt s w.a e < vlmax s.hart.vec.vtype then elemAt s w.b (elemAt s w.a e) else 0))
    ∧ (PrefixFits s w true false → GroupsFit s w →
      GivesElems .vmerge s w false (fun e =>
        if (s.hart.mask w.k.toNat).getLsbD e then secondAt s w false e else elemAt s w.b e)))

/-- vcomp, vexpd and vconf (R102, R103), vwiden and vnarrow (R106), vsext and vzext (R107). -/
def Obligations.PacksAndWidths : Prop :=
  (∀ (s : State) (w : Fld), VecReady s → TypeIn s fmtInt → LengthOk s.hart →
    DestsFit s w (grpOf s) → SourceFits s w.b (grpOf s) → Apart s w (grpOf s) w.b (grpOf s) →
    let chosen (e : Nat) : Bool := activeAt s w false e && (s.hart.mask w.k.toNat).getLsbD e
    let cands := (List.range' (posOf s) (lenOf s - posOf s)).filter chosen
    (PrefixFits s w true false →
      (∃ t, exec (.vcomp w) s = .next t ∧ VecFrame s t true ∧ RegsOutside s t (Dests s w) (grpOf s) ∧ MasksKept s t ∧ XKept s t
        ∧ FlagsKept s t
        ∧ ∀ r, Dests s w r → ∀ e, e * widthOf s < 8192 * grpOf s → t.hart.elem r (widthOf s) e =
            match cands[e]? with
            | some c => elemAt s w.b c
            | none => if vtTail s.hart.vec.vtype then 0 else s.hart.elem r (widthOf s) e)
      ∧ WritesGroup (.vexpd w) s w (grpOf s) (widthOf s) chosen
          (fun e => elemAt s w.b ((cands.filter (· < e)).length)) (fun _ => 0))
    ∧ (PrefixFits s w true true →
      GivesElems .vconf s w true (fun e =>
        ((actives s w true).filter (fun j => j < e && elemAt s w.b j == elemAt s w.b e)).length % 2 ^ widthOf s)))
  ∧ (∀ (s : State) (w : Fld), VecReady s → PrefixFits s w true true → TypeIn s fmtInt → LengthOk s.hart →
    SourceFits s w.b (grpOf s) →
    let f := 2 ^ (w.a.toNat % 4 + 1)
    let n := widthOf s
    let less := max 1 (grpOf s / f)
    let mode := w.a.toNat / 4 % 4
    let clamped (e : Nat) : Int :=
      if mode = 0 then elemAt s w.b e
      else if mode = 1 then max (-2 ^ (n / f - 1)) (min (2 ^ (n / f - 1) - 1) (signedOf n (elemAt s w.b e)))
      else min (2 ^ (n / f) - 1) (elemAt s w.b e)
    let changed (e : Nat) : Bool := mode ≠ 0 && clamped e ≠ (if mode = 1 then signedOf n (elemAt s w.b e) else elemAt s w.b e)
    (n * f ≤ 64 → grpOf s * f ≤ 8 → DestsFit s w (grpOf s * f) → Apart s w (grpOf s * f) w.b (grpOf s) →
      WritesGroup (.vwiden w) s w (grpOf s * f) (n * f) (activeAt s w true)
        (fun e => if bitOf w.a 2 then wrapTo (n * f) (signedOf n (elemAt s w.b e)) else elemAt s w.b e) (fun _ => 0))
    ∧ (8 ≤ n / f → DestsFit s w less → Apart s w less w.b (grpOf s) →
      NoTrap s (activeAt s w true) (fun e => if changed e then 32 else 0) →
      WritesGroup (.vnarrow w) s w less (n / f) (activeAt s w true) (fun e => wrapTo (n / f) (clamped e))
        (fun e => if changed e then 32 else 0)))
  ∧ (∀ (s : State) (w : Fld), VecReady s → PrefixFits s w true true → TypeIn s fmtInt → LengthOk s.hart →
    DestsFit s w (grpOf s) → SourceFits s w.b (grpOf s) →
    let n := widthOf s
    let m := 8 * 2 ^ (w.a.toNat % 4)
    let a := elemAt s w.b
    m < n → GivesElems .vsext s w true (fun e => wrapTo n (signedOf m (a e)))
      ∧ GivesElems .vzext s w true (fun e => a e % 2 ^ m))

/-- The bit counts (R108). -/
def Obligations.BitCounts : Prop :=
  ∀ (s : State) (w : Fld), VecReady s → PrefixFits s w true true → TypeIn s fmtInt → LengthOk s.hart →
    DestsFit s w (grpOf s) → SourceFits s w.b (grpOf s) →
    let n := widthOf s
    let a := elemAt s w.b
    GivesElems .vclz s w true (fun e => (List.range n).findIdx (fun i => (a e).testBit (n - 1 - i)))
    ∧ GivesElems .vctz s w true (fun e => (List.range n).findIdx (fun i => (a e).testBit i))
    ∧ GivesElems .vpopc s w true (fun e => ((List.range n).filter (fun i => (a e).testBit i)).length)
    ∧ ∃ rev : Nat → Nat, (∀ e i, (rev e).testBit i = (decide (i < n) && (a e).testBit (n - 1 - i)))
        ∧ GivesElems .vbrev s w true rev

/-- The integer reductions (R109). -/
def Obligations.IntegerReductions : Prop :=
  ∀ (s : State) (w : Fld), VecReady s → PrefixFits s w true true → TypeIn s fmtInt → LengthOk s.hart → GroupsFit s w →
    Apart s w (grpOf s) w.b (grpOf s) →
    let n := widthOf s
    let gives (i : Fld → Instr) (op : Nat → Nat → Nat) : Prop :=
      GivesScalar (i w) s w (grpOf s) n (((actives s w true).map (elemAt s w.b)).foldl op (secondAt s w false 0)) 0
    gives .vredsum (fun a b => (a + b) % 2 ^ n)
    ∧ gives .vredmin (fun a b => if signedOf n b < signedOf n a then b else a)
    ∧ gives .vredminz min
    ∧ gives .vredmax (fun a b => if signedOf n a < signedOf n b then b else a)
    ∧ gives .vredmaxz max
    ∧ gives .vredand (· &&& ·) ∧ gives .vredor (· ||| ·) ∧ gives .vredxor (· ^^^ ·)

/-- Floating-point arithmetic of vectors (R111-R113). -/
def Obligations.FloatArithmetic : Prop :=
  ∀ (s : State) (w : Fld), VecReady s → PrefixFits s w true true → TypeIn s fmtFloat → LengthOk s.hart → GroupsFit s w →
    let r := roundingOf s (vtFmt s.hart.vec.vtype)
    let a (e : Nat) := valueOf s (elemAt s w.b e)
    let b (e : Nat) := valueOf s (secondFloat s w e)
    let c (e : Nat) := valueOf s (elemAt s w.d e)
    GivesFloat .vfadd s w (fun e => addVal r (a e) (b e))
    ∧ GivesFloat .vfsub s w (fun e => addVal r (a e) (b e).negate)
    ∧ GivesFloat .vfmul s w (fun e => mulVal r (a e) (b e))
    ∧ GivesFloat .vfdiv s w (fun e => divVal r (a e) (b e))
    ∧ GivesFloat .vfmadd s w (fun e => fmaVal r (a e) (b e) (c e))
    ∧ GivesFloat .vfmsub s w (fun e => fmaVal r (a e) (b e) (c e).negate)
    ∧ GivesFloat .vfnmadd s w (fun e => fmaVal r (a e).negate (b e) (c e).negate)
    ∧ GivesFloat .vfnmsub s w (fun e => fmaVal r (a e).negate (b e) (c e))

/-- vfmin and vfmax (R115) and the sign injections (R116). -/
def Obligations.FloatSelect : Prop :=
  ∀ (s : State) (w : Fld), VecReady s → PrefixFits s w true true → TypeIn s fmtFloat → LengthOk s.hart → GroupsFit s w →
    let a := elemAt s w.b
    let b := secondFloat s w
    let n := widthOf s
    let sign (x : Nat) : Bool := x.testBit (n - 1)
    let signed (x : Nat) (neg : Bool) : Nat := x % 2 ^ (n - 1) + (if neg then 2 ^ (n - 1) else 0)
    let va (e : Nat) := valueOf s (a e)
    let vb (e : Nat) := valueOf s (b e)
    let nv (e : Nat) : Ev := if (va e).isSig || (vb e).isSig then 16 else 0
    let least (e : Nat) : Bool := (va e).lt (vb e) || ((va e).eq (vb e) && (va e).neg && !((vb e).neg))
    let pick (e : Nat) (first : Bool) : Nat :=
      if (va e).isNan && (vb e).isNan then (floatFmt (vtFmt s.hart.vec.vtype)).nanCode
      else if (va e).isNan then b e else if (vb e).isNan then a e else if first then a e else b e
    GivesFloat .vfmin s w (fun e => (pick e (least e), nv e))
    ∧ GivesFloat .vfmax s w (fun e => (pick e !(least e), nv e))
    ∧ GivesFloat .vfsgnj s w (fun e => (signed (a e) (sign (b e)), 0))
    ∧ GivesFloat .vfsgnjn s w (fun e => (signed (a e) !(sign (b e)), 0))
    ∧ GivesFloat .vfsgnjx s w (fun e => (signed (a e) (xor (sign (a e)) (sign (b e))), 0))

/-- Floating-point compares and one-operand words (R114, R117-R119, R122). -/
def Obligations.FloatComparesAndUnary : Prop :=
  (∀ (s : State) (w : Fld), VecReady s → PrefixFits s w false true → TypeIn s fmtFloat → SourceFits s w.b (grpOf s) →
    (w.f = 0 → SourceFits s w.a (grpOf s)) →
    let a (e : Nat) := valueOf s (elemAt s w.b e)
    let b (e : Nat) := valueOf s (secondFloat s w e)
    let nan (e : Nat) : Bool := (a e).isNan || (b e).isNan
    let sig (e : Nat) : Bool := (a e).isSig || (b e).isSig
    let gives (i : Fld → Instr) (rel : FVal → FVal → Bool) (nv : Nat → Bool) : Prop :=
      NoTrap s (activeAt s w true) (fun e => if nv e then 16 else 0) →
        WritesMask (i w) s w.d.toNat true (activeAt s w true) (fun e => !(nan e) && rel (a e) (b e))
          (fun e => if nv e then 16 else 0)
    gives .vfceq FVal.eq sig
    ∧ gives .vfclt FVal.lt nan
    ∧ gives .vfcle (fun x y => x.lt y || x.eq y) nan)
  ∧ (∀ (s : State) (w : Fld), VecReady s → PrefixFits s w true true → TypeIn s fmtFloat → LengthOk s.hart →
    DestsFit s w (grpOf s) → SourceFits s w.b (grpOf s) →
    let fmt := vtFmt s.hart.vec.vtype
    let r := roundingOf s fmt
    let a (e : Nat) := valueOf s (elemAt s w.b e)
    let mode := if w.a.toNat % 8 = 7 then vtRm s.hart.vec.vtype else w.a.toNat % 8
    GivesFloat .vfsqrt s w (fun e => sqrtVal r (a e))
    ∧ GivesFloat .vfclass s w (fun e => (classFloat (floatFmt fmt) (elemAt s w.b e), 0))
    ∧ GivesFloat .vfrec s w (fun e => recipVal r (a e))
    ∧ GivesFloat .vfrsq s w (fun e => rsqrtVal r (a e))
    ∧ GivesFloat .vfexp2 s w (fun e => exp2Val r (a e))
    ∧ GivesFloat .vfround s w (fun e => roundIntegral (floatFmt fmt) mode (elemAt s w.b e)))

/-- vfcvt (R120, R121) and the reductions of floating-point elements (R123, R124). -/
def Obligations.FloatConversionsAndReductions : Prop :=
  (∀ (s : State) (w : Fld), VecReady s → PrefixFits s w true true → TypeIn s fmtInt → LengthOk s.hart →
    DestsFit s w (grpOf s) →
    let src := w.a.toNat % 16
    let dst := vtFmt s.hart.vec.vtype
    let gs := max 1 (grpOf s * sewOf src / widthOf s)
    (4 ≤ src ∨ 4 ≤ dst) → gs ≤ 8 → SourceFits s w.b gs →
    (sewOf src = widthOf s ∨ s.hart.vreg w.d + grpOf s ≤ s.hart.vreg w.b ∨ s.hart.vreg w.b + gs ≤ s.hart.vreg w.d) →
    GivesFloat .vfcvt s w (fun e => convertElem (roundingOf s dst) src dst (bitOf w.a 4) (elemIn s w.b (sewOf src) e)))
  ∧ (∀ (s : State) (w : Fld), VecReady s → PrefixFits s w true true → TypeIn s fmtFloat → LengthOk s.hart → ReduceFits s w →
    let n := widthOf s
    let r := roundingOf s (vtFmt s.hart.vec.vtype)
    let add (x y : Nat) := addVal r (valueOf s x) (valueOf s y)
    let gives (i : Fld → Instr) (p : Nat × Ev) : Prop :=
      s.hart.vec.vftrap &&& p.2 = 0 → GivesScalar (i w) s w (grpOf s) n (p.1 % 2 ^ n) p.2
    let elems := (actives s w true).map (elemAt s w.b)
    let leaf (e : Nat) : Option Nat := if e ∈ actives s w true then some (elemAt s w.b e) else none
    gives .vfredsum (foldEvents add (if posOf s = 0 then secondFloat s w 0 else elemAt s w.d 0) elems)
    ∧ gives .vfredtree (canonicalSum add leaf (ceilLog2 (lenOf s)) (secondFloat s w 0))
    ∧ gives .vfredmin (foldEvents (minMaxFloat r.fmt false) (secondFloat s w 0) elems)
    ∧ gives .vfredmax (foldEvents (minMaxFloat r.fmt true) (secondFloat s w 0) elems))

/-- Words on MX blocks (R41, R105, R125-R128). -/
def Obligations.MxWords : Prop :=
  (∀ (s : State) (w : Fld), VecReady s → TypeIn s fmtMx → LengthOk s.hart → lenOf s % 32 = 0 → DestsFit s w (grpOf s) →
    SourceFits s w.b (grpOf s) →
    let fmt := vtFmt s.hart.vec.vtype
    let start := ceilDiv (posOf s) 32
    let block (r : BitVec 5) (b : Nat) := s.hart.mxBlockOf fmt (s.hart.vreg r) b
    let act (pred : Bool) (b : Nat) : Bool := activeAt s w pred (32 * b)
    (PrefixFits s w true true →
      GivesBlocks (.vmov w) s w false start (act true) (block w.b) (fun _ => 0)
      ∧ (Apart s w (grpOf s) w.b (grpOf s) →
        GivesBlocks (.vslup w) s w false (max start (min (offsetOf s w) (lenOf s / 32))) (act true)
            (fun b => block w.b (b - offsetOf s w)) (fun _ => 0)
        ∧ GivesBlocks (.vsldn w) s w false start (act true)
            (fun b => if b + offsetOf s w < lenOf s / 32 then block w.b (b + offsetOf s w) else 0) (fun _ => 0)))
    ∧ (PrefixFits s w true false → w.f = 0 → SourceFits s w.a (grpOf s) →
      GivesBlocks (.vmerge w) s w false start (act false)
        (fun b => if (s.hart.mask w.k.toNat).getLsbD (32 * b) then block w.a b else block w.b b) (fun _ => 0)))
  ∧ (∀ (s : State) (w : Fld), VecReady s → PrefixFits s w true true → TypeIn s fmtMx → LengthOk s.hart →
    let fmt := vtFmt s.hart.vec.vtype
    let other := w.a.toNat % 16
    let n := sewOf other
    let regs := mxSpan fmt other (grpOf s)
    let packed (b : Nat) := quantBlock (roundingOf s fmt) fmt
      ((List.range 32).map (fun k => decodeFloat (floatFmt other) (elemIn s w.b n (32 * b + k))))
    let opened (e : Nat) := roundVal (roundingOf s other) (s.hart.mxElem fmt (s.hart.vreg w.b) e)
    (other = 5 ∨ other = 6 ∨ other = 7) → regs ≤ 8 →
    (lenOf s % 32 = 0 → DestsFit s w (grpOf s) → SourceFits s w.b regs → Apart s w (grpOf s) w.b regs →
      (∀ b, ceilDiv (posOf s) 32 ≤ b → b < lenOf s / 32 → activeAt s w true (32 * b) = true →
        s.hart.vec.vftrap &&& (packed b).2 = 0) →
      GivesBlocks (.mxpack w) s w true (posOf s / 32) (fun b => posOf s ≤ 32 * b && activeAt s w true (32 * b)) (fun b => (packed b).1 % 2 ^ (8 * mxBlock fmt + 8))
        (fun b => (packed b).2))
    ∧ (DestsFit s w regs → SourceFits s w.b (grpOf s) → Apart s w regs w.b (grpOf s) →
      NoTrap s (activeAt s w true) (fun e => (opened e).2) →
      WritesGroup (.mxunpack w) s w regs n (activeAt s w true) (fun e => (opened e).1 % 2 ^ n) (fun e => (opened e).2)))
  ∧ (∀ (s : State) (w : Fld), VecReady s → PrefixFits s w true true → TypeIn s fmtMx → LengthOk s.hart → lenOf s % 32 = 0 →
    SourceFits s w.b (grpOf s) → SourceFits s w.a (grpOf s) →
    let fmt := vtFmt s.hart.vec.vtype
    let size := max 1 (ceilDiv (vlmax s.hart.vec.vtype) 8192)
    let x (e : Nat) := s.hart.mxElem fmt (s.hart.vreg w.b) e
    let y (e : Nat) := s.hart.mxElem fmt (s.hart.vreg w.a) e
    let js (k : Nat) := (List.range 32).map (fun j => 32 * k + j)
    let old (k : Nat) := decodeFloat fp32 (elemIn s w.d 32 k)
    let products (k : Nat) := (js k).map (fun e => if (x e).isNan || (y e).isNan then .nan false else mulExact (x e) (y e))
    let invalid (k : Nat) : Bool := (products k).any FVal.isSig || (old k).isSig
      || ((products k).contains (.inf true) && (products k).contains (.inf false))
    let dot (k : Nat) : Nat × Ev :=
      if (products k).any FVal.isNan then (fp32.nanCode, if invalid k then 16 else 0)
      else match sumProducts (products k) with
        | .nan _ => (fp32.nanCode, if invalid k then 16 else 0)
        | v => addVal (roundingOf s 5) (old k) v
    let act (k : Nat) : Bool := posOf s ≤ 32 * k && activeAt s w true k
    DestsFit s w size → Apart s w size w.b (grpOf s) → Apart s w size w.a (grpOf s) →
    (∀ k, k < lenOf s / 32 → act k = true → s.hart.vec.vftrap &&& (dot k).2 = 0) →
    ∃ t, exec (.mxdot w) s = .next t ∧ VecFrame s t true ∧ RegsOutside s t (Dests s w) size ∧ MasksKept s t ∧ XKept s t
      ∧ (∀ r, Dests s w r → ∀ k, k < 256 * size → t.hart.elem r 32 k =
          if lenOf s / 32 ≤ k then if vtTail s.hart.vec.vtype then 0 else s.hart.elem r 32 k
          else if k < posOf s / 32 then s.hart.elem r 32 k
          else if act k then (dot k).1 % 2 ^ 32
          else if s.hart.policy then 0 else s.hart.elem r 32 k)
      ∧ ∀ b, bitOf t.hart.vec.vfflags b = true ↔ bitOf s.hart.vec.vfflags b = true
        ∨ ∃ k, k < lenOf s / 32 ∧ act k = true ∧ bitOf (dot k).2 b = true)

/-- Planar arithmetic (R130), and the dot product, compare and conversion of R131-R133. -/
def Obligations.PlanarWords : Prop :=
  (∀ (s : State) (w : Fld), VecReady s → TypeIn s fmtPlanar → LengthOk s.hart →
    let n := planesOf s
    let a (e : Nat) : Int := planarAt s w.b e
    let b (e : Nat) : Int := planarSecond s w e
    (PrefixFits s w true true → PlanarDests s w n → PlanarSource s w w.b n → (w.f = 0 → PlanarSource s w w.a n) →
      GivesPlanar (.pladd w) s w (fun e => wrapTo n (a e + b e))
      ∧ GivesPlanar (.plsub w) s w (fun e => wrapTo n (a e - b e))
      ∧ GivesPlanar (.plmul w) s w (fun e => wrapTo n (a e * b e)))
    ∧ (PrefixFits s w true true → PlanarDests s w 1 → s.hart.vreg w.b + n ≤ 32 → s.hart.vreg w.a + n ≤ 32 →
      (∀ d, Dests s w d → (d < s.hart.vreg w.b ∨ s.hart.vreg w.b + n ≤ d) ∧ (d < s.hart.vreg w.a ∨ s.hart.vreg w.a + n ≤ d)) →
      GivesScalar (.pldot w) s w 1 64 (wrapTo 64 (signedOf 64 (elemIn s w.d 64 0)
        + ((actives s w true).map (fun e => (planarAt s w.b e : Int) * signedOf n (planarAt s w.a e))).sum)) 0)
    ∧ (PrefixFits s w false true → s.hart.vreg w.b + n ≤ 32 → (w.f = 0 → s.hart.vreg w.a + n ≤ 32) →
      WritesMask (.plcmp w) s (w.d.toNat % 8) true (activeAt s w true) (fun e =>
        if w.d.toNat / 8 = 0 then a e = b e else if w.d.toNat / 8 = 1 then a e ≠ b e
        else if w.d.toNat / 8 = 2 then signedOf n (planarAt s w.b e) < signedOf n (planarSecond s w e) else a e < b e)
        (fun _ => 0)))
  ∧ (∀ (s : State) (w : Fld), VecReady s → PrefixFits s w true true → TypeIn s fmtPlanar → LengthOk s.hart →
    let p := planesOf s
    let n := 8 * 2 ^ (w.a.toNat % 4)
    let regs := max 1 (ceilDiv (lenOf s * n) 8192)
    regs ≤ 16 →
    (bitOf w.a 2 = true → PlanarDests s w regs → s.hart.vreg w.b + p ≤ 32 → Apart s w regs w.b p →
      WritesGroup (.plconv w) s w regs n (activeAt s w true)
        (fun e => if bitOf w.a 3 then wrapTo n (signedOf p (planarAt s w.b e)) else planarAt s w.b e % 2 ^ n) (fun _ => 0))
    ∧ (bitOf w.a 2 = false → PlanarDests s w p → s.hart.vreg w.b + regs ≤ 32 → Apart s w p w.b regs →
      GivesPlanar (.plconv w) s w (fun e => elemIn s w.b n e % 2 ^ p)))

/-- The scalar integer words, FENCE, jumps and branches (R15). -/
def Obligations.ScalarIntegersAndJumps : Prop :=
  (∀ (s : State), NoPrefix s →
    let x (r : BitVec 5) := s.hart.getX r
    let next := s.hart.pc + 4
    (∀ rd imm, GivesX (.riscvInstruction (.lui rd imm)) s rd ((imm ++ (0 : BitVec 12)).signExtend 64) next)
    ∧ (∀ rd imm, GivesX (.riscvInstruction (.auipc rd imm)) s rd (s.hart.pc + (imm ++ (0 : BitVec 12)).signExtend 64) next)
    ∧ (∀ o rd rs1 imm, GivesX (.riscvInstruction (.opImm o rd rs1 imm)) s rd (immOp o (x rs1) (imm.signExtend 64)) next)
    ∧ (∀ o rd rs1 sh, GivesX (.riscvInstruction (.shImm o rd rs1 sh)) s rd (shOp o (x rs1) sh.toNat) next)
    ∧ (∀ o rd rs1 rs2, GivesX (.riscvInstruction (.op o rd rs1 rs2)) s rd (regOp o (x rs1) (x rs2)) next)
    ∧ (∀ o rd rs1, GivesX (.riscvInstruction (.unary o rd rs1)) s rd (unOp o (x rs1)) next)
    -- FENCE retires; with stores before it, the hart's later scalar accesses wait for those that are not performed
    ∧ (∀ fm pred succ rs1 rd, Ends (.riscvInstruction (.fence fm pred succ rs1 rd)) s (fun t => t.mem = s.mem
        ∧ t.hart = { s.hart.retire with run := { s.hart.retire.run with bars := t.hart.run.bars } }
        ∧ (∀ k, k ≠ s.cur → t.hartAt k = s.hartAt k)
        ∧ ∀ vec : Bool, barred t s.cur vec = true ↔ barred s s.cur vec = true
            ∨ (vec = false ∧ s.cur < agentCount ∧ bitOf pred 0 = true ∧ fenceWaits s 4 = true))))
  ∧ (∀ (s : State), NoPrefix s →
    let next := s.hart.pc + 4
    let lands (t : Word) : Prop := t.toNat % 4 = 0 ∧ bitOf t 47 = false
    (∀ rd imm, let t := s.hart.pc + (imm ++ (0 : BitVec 1)).signExtend 64
      lands t → GivesX (.riscvInstruction (.jal rd imm)) s rd next t)
    ∧ (∀ rd rs1 imm, let t := (s.hart.getX rs1 + imm.signExtend 64) &&& ~~~1#64
      lands t → GivesX (.riscvInstruction (.jalr rd rs1 imm)) s rd next t)
    ∧ (∀ c rs1 rs2 imm, let t := s.hart.pc + (imm ++ (0 : BitVec 1)).signExtend 64
      (brTaken c (s.hart.getX rs1) (s.hart.getX rs2) = true → lands t →
        GivesPc (.riscvInstruction (.branch c rs1 rs2 imm)) s t)
      ∧ (brTaken c (s.hart.getX rs1) (s.hart.getX rs2) = false →
        GivesPc (.riscvInstruction (.branch c rs1 rs2 imm)) s next)
      ∧ (brTaken c (s.hart.getX rs1) (s.hart.getX rs2) = true → t.toNat % 4 ≠ 0 → isMilliner s.cur = false →
        Traps (.riscvInstruction (.branch c rs1 rs2 imm)) s 0 t)))

/-- Scalar loads and stores (R15). -/
def Obligations.ScalarLoadsAndStores : Prop :=
  ∀ (s u : State) (rs1 : BitVec 5) (imm : BitVec 12) (a : Nat), Memory.wf s.mem → NoPrefix s → u.stepwise = false →
    let va := (s.hart.getX rs1 + imm.signExtend 64).toNat
    let next := s.hart.pc + 4
    let crosses (n : Nat) : Prop := 16384 < va % 16384 + n
    let loads (n : Nat) : Prop := va % 16384 + n ≤ 16384 ∧ Places s .load va n a u ∧ poisoned u a n = none
    let stores (n : Nat) : Prop := va % 16384 + n ≤ 16384 ∧ Places s .store va n a u
      ∧ (∀ p ∈ u.coh.poison, touches a n p = true → a ≤ p ∧ p + 8 ≤ a + n)
      ∧ leaseBlocks u { hart := s.cur, scalar := true } a n = false
    (∀ w rd, let i := Instr.riscvInstruction (.load w rd rs1 imm)
      let n := (ldWidth w).1
      (crosses n → isMilliner s.cur = false → Traps i s 4 (bv 64 va))
      ∧ (loads n → GivesX i s rd
        (if (ldWidth w).2 then sext64 (8 * n) (readNat s.mem a n) else bv 64 (readNat s.mem a n)) next))
    ∧ (∀ w rs2, let i := Instr.riscvInstruction (.store w rs2 rs1 imm)
      let n := stWidth w
      (crosses n → isMilliner s.cur = false → Traps i s 6 (bv 64 va))
      ∧ (stores n → ∃ t, exec i s = .next t ∧ StoreFrame s t ∧ t.hart.pc = next ∧ Stored s t a n (s.hart.getX rs2).toNat))
    ∧ (s.hart.fpOn = true → isMilliner s.cur = false → ∀ (p : FpFmt) (r : BitVec 5),
      let i := Instr.riscvInstruction (.fload p r rs1 imm)
      let j := Instr.riscvInstruction (.fstore p r rs1 imm)
      let n : Nat := match p with
        | .s => 4
        | .d => 8
      let v := readNat s.mem a n
      (crosses n → Traps i s 4 (bv 64 va) ∧ Traps j s 6 (bv 64 va))
      ∧ (loads n → ∃ t, exec i s = .next t ∧ ScalarFrame s t ∧ XKept s t ∧ t.hart.pc = next
        ∧ t.hart.f = s.hart.f.set r.toNat (bv 64 (if n = 4 then v + (2 ^ 64 - 2 ^ 32) else v)) r.isLt
        ∧ t.hart.fcsr = s.hart.fcsr ∧ t.hart.csr = dirtyCsr (retiredCsr s.hart.csr))
      ∧ (stores n → ∃ t, exec j s = .next t ∧ StoreFrame s t ∧ t.hart.pc = next ∧ Stored s t a n (s.hart.getF r).toNat))

/-- The scalar floating-point words (R15). -/
def Obligations.ScalarFloats : Prop :=
  ∀ (s : State), NoPrefix s → s.hart.fpOn = true → isMilliner s.cur = false →
    let val (p : FpFmt) (r : BitVec 5) := decodeFloat (fpFmt p) (s.hart.getFp p r)
    let mode (rm : BitVec 3) : Nat := if rm = 7 then fieldOf s.hart.fcsr 5 3 else rm.toNat
    let box (p : FpFmt) (v : Nat) : Word := match p with
      | .d => bv 64 v
      | .s => bv 64 (v % 2 ^ 32 + (2 ^ 64 - 2 ^ 32))
    let floats (i : Rv) (p : FpFmt) (rd : BitVec 5) (r : Nat × Ev) : Prop :=
      ∃ t, exec (.riscvInstruction i) s = .next t ∧ ScalarFrame s t ∧ XKept s t ∧ t.hart.pc = s.hart.pc + 4
        ∧ t.hart.f = s.hart.f.set rd.toNat (box p r.1) rd.isLt
        ∧ t.hart.fcsr = s.hart.fcsr ||| (r.2 &&& 31).setWidth 8
        ∧ t.hart.csr = dirtyCsr (retiredCsr s.hart.csr)
    let ints (i : Rv) (rd : BitVec 5) (v : Word) (ev : Ev) : Prop :=
      ∃ t, exec (.riscvInstruction i) s = .next t ∧ ScalarFrame s t ∧ SetsX s t rd v ∧ t.hart.pc = s.hart.pc + 4
        ∧ t.hart.f = s.hart.f ∧ t.hart.fcsr = s.hart.fcsr ||| (ev &&& 31).setWidth 8
        ∧ t.hart.csr = floatCsr (retiredCsr s.hart.csr) ev
    (∀ o p rd rs1 rs2 rm, mode rm ≤ 4 →
      floats (.farith o p rd rs1 rs2 rm) p rd (fpArith o ⟨fpFmt p, mode rm, false, false⟩ (val p rs1) (val p rs2)))
    ∧ (∀ o p rd rs1 rs2 rs3 rm, mode rm ≤ 4 →
      floats (.fma o p rd rs1 rs2 rs3 rm) p rd
        (fpFma o ⟨fpFmt p, mode rm, false, false⟩ (val p rs1) (val p rs2) (val p rs3)))
    ∧ (∀ p rd rs1 rm, mode rm ≤ 4 →
      floats (.fsqrt p rd rs1 rm) p rd (sqrtVal ⟨fpFmt p, mode rm, false, false⟩ (val p rs1)))
    ∧ (∀ o p rd rs1 rs2, floats (.fsel o p rd rs1 rs2) p rd (fpSel o p (s.hart.getFp p rs1) (s.hart.getFp p rs2)))
    ∧ (∀ i p rd rs1 rm, mode rm ≤ 4 →
      floats (.fcvtFromInt i p rd rs1 rm) p rd (roundVal ⟨fpFmt p, mode rm, false, false⟩ (fpFromInt i (s.hart.getX rs1))))
    ∧ (∀ rd rs1 rm, mode rm ≤ 4 →
      floats (.fcvtSD rd rs1 rm) .s rd (roundVal ⟨fp32, mode rm, false, false⟩ (val .d rs1))
      ∧ floats (.fcvtDS rd rs1 rm) .d rd (roundVal ⟨fp64, mode rm, false, false⟩ (val .s rs1)))
    ∧ (∀ p rd rs1, floats (.fmvFromX p rd rs1) p rd ((s.hart.getX rs1).toNat, 0))
    ∧ (∀ o p rd rs1 rs2, let r := compareFloat (fpFmt p) (cmpNumber o) (s.hart.getFp p rs1) (s.hart.getFp p rs2)
      ints (.fcmp o p rd rs1 rs2) rd (bv 64 r.1.toNat) r.2)
    ∧ (∀ i p rd rs1 rm, mode rm ≤ 4 → let r := fpToInt i (mode rm) (val p rs1)
      ints (.fcvtToInt i p rd rs1 rm) rd r.1 r.2)
    ∧ (∀ p rd rs1, ints (.fclass p rd rs1) rd (bv 64 (classFloat (fpFmt p) (s.hart.getFp p rs1))) 0)
    ∧ (∀ rd rs1, ints (.fmvToX .s rd rs1) rd (sext64 32 (s.hart.getF rs1).toNat) 0
      ∧ ints (.fmvToX .d rd rs1) rd (s.hart.getF rs1) 0)

/-- System calls and the returns from traps (R15, R135). -/
def Obligations.TrapsAndReturns : Prop :=
  (∀ (s : State), NoPrefix s → isMilliner s.cur = false →
    Traps (.riscvInstruction .ecall) s (match s.hart.priv with
      | .u => 8
      | .s => 9
      | .m => 11) 0
    ∧ Traps (.riscvInstruction .ebreak) s 3 0)
  ∧ (∀ (s : State), NoPrefix s →
    let st := s.hart.csr.mstatus
    let leaves (fromM : Bool) (pc : Word) (p : Priv) (bit : Nat → Bool) : Prop :=
      Ends (.xret fromM) s (fun t => OnlyHart s t
        ∧ t.hart = { s.hart with
            pc := pc
            priv := p
            csr := { retiredCsr s.hart.csr with mstatus := t.hart.csr.mstatus }
            run := { s.hart.run with
              fetch := []
              wait := none
              body := none
              pfxOwn := false } }
        ∧ ∀ b, bitOf t.hart.csr.mstatus b = bit b)
    (s.hart.priv = .m →
      let p : Priv := if fieldOf st 11 2 = 3 then .m else if fieldOf st 11 2 = 1 then .s else .u
      leaves true s.hart.csr.mepc p (fun b =>
        if b = 3 then bitOf st 7
        else if b = 7 then true
        else if b = 11 ∨ b = 12 then false
        else if b = 17 ∧ p ≠ .m then false
        else bitOf st b))
    ∧ (s.hart.priv = .m ∨ (s.hart.priv = .s ∧ bitOf st 22 = false) →
      leaves false s.hart.csr.sepc (if bitOf st 8 then .s else .u) (fun b =>
        if b = 1 then bitOf st 5
        else if b = 5 then true
        else if b = 8 ∨ b = 17 then false
        else bitOf st b))
    ∧ (isMilliner s.cur = false →
      (s.hart.priv ≠ .m → Illegal (.xret true) s 0x30200073)
      ∧ (s.hart.priv = .u ∨ (s.hart.priv = .s ∧ bitOf st 22 = true) → Illegal (.xret false) s 0x10200073)))

/-- Vector loads (R170-R172). -/
def Obligations.VectorLoads : Prop :=
  (∀ (s : State) (w : Fld) (pa : Nat → Nat), VecReady s → barred s s.cur true = false → PrefixFits s w true true →
    TypeIn s fmtInt → LengthOk s.hart →
    DestsFit s w (grpOf s) →
    let n := widthOf s / 8
    let stride := signedOf 64 (s.hart.getX w.b).toNat
    let gives (i : Fld → Instr) (va : Nat → Nat) : Prop :=
      (∀ e ∈ actives s w true, Loads s n (va e) n (pa e)) →
        GivesElems i s w true (fun e => readNat s.mem (pa e) n)
    gives .vld (fun e => vectorAddr s w.a (lenOf s * n) (e * n))
    ∧ gives .vlds (fun e => vectorAddr s w.a (lenOf s * stride) (e * stride))
    ∧ (IndexFits s w → Apart s w (grpOf s) w.b (max 1 (grpOf s * (if w.f = 1 then 64 else 32) / widthOf s)) →
      gives .vldx (indexedAddr s w)))
  ∧ (∀ (s : State) (w : Fld) (pa : Nat → Nat → Nat), VecReady s → barred s s.cur true = false → PrefixFits s w true true →
    TypeIn s fmtInt → LengthOk s.hart →
    let n := widthOf s / 8
    let f := w.b.toNat + 1
    let g := grpOf s
    let d := s.hart.vreg w.d
    let va (e j : Nat) := vectorAddr s w.a (lenOf s * f * n) ((e * f + j) * n)
    f * g ≤ 8 → d % g = 0 → d + f * g ≤ 32 →
    (∀ r, s.hart.dregOf = some r → r % g = 0 ∧ (r + g ≤ d ∨ d + f * g ≤ r)) →
    (∀ e ∈ actives s w true, ∀ j < f, Loads s n (va e j) n (pa e j)) →
    ∃ t, exec (.vldseg w) s = .next t ∧ VecFrame s t true ∧ MasksKept s t ∧ XKept s t ∧ FlagsKept s t
      ∧ (∀ i, (h : i < 32) → (i < d ∨ d + f * g ≤ i) → (∀ r, s.hart.dregOf = some r → i < r ∨ r + g ≤ i) →
          t.hart.vec.v[i] = s.hart.vec.v[i])
      ∧ ∀ r j, (j < f ∧ r = d + j * g) ∨ (j = 0 ∧ s.hart.dregOf = some r) → ∀ e, e * widthOf s < 8192 * g →
          t.hart.elem r (widthOf s) e = written s (posOf s) (activeAt s w true) (fun e => s.hart.elem r (widthOf s) e) 0
            (fun e => readNat s.mem (pa e j) n) e)

/-- Vector stores (R170-R173). -/
def Obligations.VectorStores : Prop :=
  (∀ (s : State) (w : Fld) (pa : Nat → Nat), Memory.wf s.mem → VecReady s → barred s s.cur true = false → PrefixFits s w false true →
    TypeIn s fmtInt → LengthOk s.hart →
    SourceFits s w.d (grpOf s) →
    let n := widthOf s / 8
    let stride := signedOf 64 (s.hart.getX w.b).toNat
    let acts := actives s w true
    let all (va : Nat → Nat) : Prop := ∀ e ∈ acts, Stores s n (va e) n (pa e)
    let bytes := acts.flatMap (fun e => bytesAt (pa e) n (elemAt s w.d e))
    (all (fun e => vectorAddr s w.a (lenOf s * n) (e * n)) → StoresBytes (.vst w) s true bytes)
    ∧ (all (fun e => vectorAddr s w.a (lenOf s * stride) (e * stride)) → StoresBytes (.vsts w) s true bytes)
    ∧ (IndexFits s w → all (indexedAddr s w) → StoresBytes (.vstx w) s true bytes)
    ∧ (IndexFits s w → all (indexedAddr s w) →
      ∃ t, exec (.vstxa w) s = .next t ∧ VecStoreFrame s t true
        ∧ (∀ b, (∀ e ∈ acts, b < pa e ∨ pa e + n ≤ b) → readByte t.mem b = readByte s.mem b)
        ∧ ∀ e ∈ acts, ∃ k ∈ acts, pa k = pa e
            ∧ ∀ j < n, readByte t.mem (pa e + j) = bv 8 (elemAt s w.d k / 256 ^ j)))
  ∧ (∀ (s : State) (w : Fld) (pa : Nat → Nat → Nat), Memory.wf s.mem → VecReady s → barred s s.cur true = false → PrefixFits s w false true →
    TypeIn s fmtInt → LengthOk s.hart →
    let n := widthOf s / 8
    let f := w.b.toNat + 1
    let g := grpOf s
    let d := s.hart.vreg w.d
    f * g ≤ 8 → d % g = 0 → d + f * g ≤ 32 →
    (∀ e ∈ actives s w true, ∀ j < f, Stores s n (vectorAddr s w.a (lenOf s * f * n) ((e * f + j) * n)) n (pa e j)) →
    StoresBytes (.vstseg w) s true ((actives s w true).flatMap (fun e => (List.range f).flatMap (fun j =>
      bytesAt (pa e j) n (s.hart.elem (d + j * g) (widthOf s) e)))))

/-- vldm and vstm (R174) and the transfers of MX blocks (R175). -/
def Obligations.MaskAndMxTransfers : Prop :=
  (∀ (s : State) (w : Fld) (pa : Nat → Nat), Memory.wf s.mem → VecReady s → barred s s.cur true = false → NoPrefix s →
    vtIll s.hart.vec.vtype = false → lenOf s ≤ 8192 →
    let count := ceilDiv (lenOf s) 8
    let first := posOf s / 8
    let va (i : Nat) := vectorAddr s w.a count i
    ((∀ i, first ≤ i → i < count → Loads s 1 (va i) 1 (pa i)) →
      ∃ t, exec (.vldm w) s = .next t ∧ VecFrame s t false ∧ RegsKept s t ∧ MasksOutside s t (w.d.toNat % 8) ∧ XKept s t
        ∧ FlagsKept s t
        ∧ ∀ e, e < 8192 → (t.hart.mask w.d.toNat).getLsbD e =
            if e < 8 * first then (s.hart.mask w.d.toNat).getLsbD e
            else if e < lenOf s then (readByte s.mem (pa (e / 8))).getLsbD (e % 8)
            else if vtTail s.hart.vec.vtype then false else (s.hart.mask w.d.toNat).getLsbD e)
    ∧ ((∀ i, first ≤ i → i < count → Stores s 1 (va i) 1 (pa i)) →
      StoresBytes (.vstm w) s false ((List.range' first (count - first)).map (fun i =>
        (pa i, BitVec.ofBoolListLE ((List.range 8).map (fun j =>
          decide (8 * i + j < lenOf s) && (s.hart.mask w.d.toNat).getLsbD (8 * i + j))))))))
  ∧ (∀ (s : State) (w : Fld) (pe : Nat → Nat → Nat) (ps : Nat → Nat), Memory.wf s.mem → VecReady s → barred s s.cur true = false →
    TypeIn s fmtMx → LengthOk s.hart →
    lenOf s % 32 = 0 →
    let fmt := vtFmt s.hart.vec.vtype
    let n := mxBlock fmt
    let ve (b k : Nat) := vectorAddr s w.a (lenOf s / 32 * n) (b * n + k)
    let vs (b : Nat) := vectorAddr s w.b (lenOf s / 32) b
    let first := ceilDiv (posOf s) 32
    let acts := (List.range' first (lenOf s / 32 - first)).filter (fun b => activeAt s w true (32 * b))
    (PrefixFits s w true true → DestsFit s w (grpOf s) →
      (∀ b ∈ acts, (∀ k < n, Loads s (if k = 0 then 8 else 1) (ve b k) 1 (pe b k)) ∧ Loads s 1 (vs b) 1 (ps b)) →
      GivesBlocks (.vld w) s w false first (fun b => activeAt s w true (32 * b)) (fun b => ofBytes ((List.range n).map (fun k => readByte s.mem (pe b k)))
        + (readByte s.mem (ps b)).toNat * 2 ^ (8 * n)) (fun _ => 0))
    ∧ (PrefixFits s w false true → SourceFits s w.d (grpOf s) →
      (∀ b ∈ acts, (∀ k < n, Stores s (if k = 0 then 8 else 1) (ve b k) 1 (pe b k)) ∧ Stores s 1 (vs b) 1 (ps b)) →
      StoresBytes (.vst w) s true (acts.flatMap (fun b =>
        let x := s.hart.mxBlockOf fmt (s.hart.vreg w.d) b
        (List.range n).map (fun k => (pe b k, bv 8 (x / 256 ^ k))) ++ [(ps b, bv 8 (x / 256 ^ n))]))))

/-- Faults of vector loads (R138, R139), vwait (R198) and sld (R187). -/
def Obligations.LoadFaultsAndWaits : Prop :=
  (∀ (s : State) (w : Fld) (pa : Nat → Nat) (k : Nat) (x : Stop), VecReady s → barred s s.cur true = false →
    PrefixFits s w true true → TypeIn s fmtInt →
    LengthOk s.hart → DestsFit s w (grpOf s) → isRep s.hart.pc = false →
    let n := widthOf s / 8
    let stride := signedOf 64 (s.hart.getX w.b).toNat
    let va (e : Nat) := vectorAddr s w.a (lenOf s * stride) (e * stride)
    posOf s ≤ k → k < lenOf s → activeAt s w true k = true → x ≠ .stall → (∀ a, x ≠ .walk a) →
    (∀ e ∈ actives s w true, e < k → Loads s n (va e) n (pa e)) →
    partFault s (vecEnv s) .load ⟨va k, n, n⟩ = some x →
    (actives s w true).any (· < k) = true →
    ∃ t, exec (.vlds w) s = .next t ∧ t.hart.vec.vl = bv 14 k ∧ t.hart.vec.velem = 0 ∧ t.hart.pc = s.hart.pc + 4
      ∧ t.mem = s.mem
      ∧ ∀ r, Dests s w r → ∀ e, e * widthOf s < 8192 * grpOf s → t.hart.elem r (widthOf s) e =
          if e < posOf s then s.hart.elem r (widthOf s) e
          else if e < k then
            if activeAt s w true e then readNat s.mem (pa e) n
            else if s.hart.policy then 0 else s.hart.elem r (widthOf s) e
          else if vtTail s.hart.vec.vtype then 0 else s.hart.elem r (widthOf s) e)
  ∧ (∀ (s : State) (w : Fld) (k cause : Nat) (v : Word), VecReady s → barred s s.cur true = false → PrefixFits s w true true →
    TypeIn s fmtInt →
    LengthOk s.hart → DestsFit s w (grpOf s) → isMilliner s.cur = false → s.hart.vec.vpfx = 0 → s.hart.priv = .m →
    let n := widthOf s / 8
    let stride := signedOf 64 (s.hart.getX w.b).toNat
    (actives s w true).head? = some k → s.hart.policy = false →
    partFault s (vecEnv s) .load ⟨vectorAddr s w.a (lenOf s * stride) (k * stride), n, n⟩ = some (.trap cause v) →
    ∃ t, exec (.vlds w) s = .next t ∧ t.mem = s.mem ∧ t.hart.vec = { s.hart.vec with velem := bv 14 k }
      ∧ t.hart.csr.mcause = bv 64 cause ∧ t.hart.csr.mtval = v ∧ t.hart.csr.mepc = s.hart.pc
      ∧ t.hart.pc = s.hart.csr.mtvec &&& ~~~3#64)
  ∧ (∀ (s : State) (w : Fld) (pa : Nat → Nat), VecReady s → PrefixFits s w false true → TypeIn s (· == 3) → LengthOk s.hart →
    SourceFits s w.b (grpOf s) →
    (∀ e ∈ actives s w true, Loads s 4 (elemAt s w.b e) 4 (pa e)
      ∧ (readNat s.mem (pa e) 4 + 2 ^ 32 - (s.hart.getX w.a).toNat % 2 ^ 32) % 2 ^ 32 < 2 ^ 31) →
    WritesMask (.vwait w) s w.d.toNat true (activeAt s w true) (fun _ => false) (fun _ => 0))
  ∧ (∀ (s : State) (w : Fld) (st : Stream), VecReady s → PrefixFits s w true true → TypeIn s fmtInt → LengthOk s.hart →
    kindOf s.cur = .compute → isRep s.hart.pc = false → s.hart.stream (w.a.toNat % 4) = some st →
    let n := widthOf s / 8
    let g := grpOf s
    let d := s.hart.vreg w.d
    let ready := st.fetched - st.consumed
    let at' (e k : Nat) := tcmAlias (coreOf s.cur) + st.slot k (st.consumed + e)
    st.mode = 0 → st.fmt = vtFmt s.hart.vec.vtype → st.grp = g → d % g = 0 → d + st.parts * g ≤ 32 → 1 ≤ st.parts →
    st.parts * g ≤ 8 → s.hart.dregOf = none → lenOf s ≤ ready →
    (∀ e ∈ actives s w true, ∀ k < st.parts, poisoned s (at' e k) n = none) →
    0 < ready →
    ∃ t, exec (.sld w) s = .next t ∧ t.mem = s.mem ∧ t.cur = s.cur ∧ t.hart.pc = s.hart.pc + 4 ∧ MasksKept s t ∧ XKept s t
      ∧ FKept s t ∧ FlagsKept s t ∧ t.hart.vec.vl = s.hart.vec.vl ∧ t.hart.vec.velem = 0
      ∧ t.hart.vec.vtype = s.hart.vec.vtype ∧ t.hart.vec.vpfx = setBit s.hart.vec.vpfx 0 false
      ∧ t.hart.stream (w.a.toNat % 4) = some { st with consumed := st.consumed + lenOf s }
      ∧ (∀ i, (h : i < 32) → (i < d ∨ d + st.parts * g ≤ i) → t.hart.vec.v[i] = s.hart.vec.v[i])
      ∧ ∀ k < st.parts, ∀ e, e * widthOf s < 8192 * g → t.hart.elem (d + k * g) (widthOf s) e =
          written s (posOf s) (activeAt s w true) (fun e => s.hart.elem (d + k * g) (widthOf s) e) 0
            (fun e => readNat s.mem (at' e k) n) e)

/-- Accesses to control and status registers (R15, R30). -/
def Obligations.CsrAccesses : Prop :=
  (∀ (s : State) (o : CsrOp) (imm : Bool) (csr : BitVec 12) (src rd : BitVec 5), NoPrefix s →
    let i := Instr.csrAccess o imm csr src rd
    let c := csr.toNat
    let writes : Bool := o = .rw || src ≠ 0
    let v : Word := if imm then src.setWidth 64 else s.hart.getX src
    let old : Word := (readCsr s c).getD 0
    let base : Word := if c = 0x344 then s.hart.csr.mipSw else old
    (csrLegal c writes s = true → (0x800 ≤ c ∧ c ≤ 0x802 → s.hart.run.queue = []) →
      Becomes i s (if writes then
          writeCsr s c (match o with
            | .rw => v
            | .rs => base ||| v
            | .rc => base &&& ~~~v) (s.hart.gives rd old)
        else s.hart.gives rd old))
    ∧ (isMilliner s.cur = false →
        readCsr s c = none ∨ s.hart.priv.code < c / 256 % 4 ∨ (writes = true ∧ c / 1024 = 3) →
        Illegal i s ((encode i).getD 0).toNat))
  ∧ (∀ (s : State) (src rd : BitVec 5), NoPrefix s →
    let h := s.hart
    let v := h.getX src
    let r (old : Word) : Hart := h.gives rd old
    let swaps (c : BitVec 12) (old : Word) (new : Hart) : Prop := Becomes (.csrAccess .rw false c src rd) s new
    let reads (c : BitVec 12) (old : Word) : Prop := Becomes (.csrAccess .rs false c 0 rd) s (r old)
    let sets (c : BitVec 12) (old : Word) (g : Csrs → Csrs) : Prop :=
      swaps c old { r old with csr := g (r old).csr }
    let puts (c : BitVec 12) (old : Word) (g : Vec → Vec) : Prop := swaps c old { r old with vec := g (r old).vec }
    let user (c : BitVec 12) (old : Word) (g : Dev → Dev) : Prop := swaps c old { r old with dev := g (r old).dev }
    (kindOf s.cur ≠ .system → h.run.queue = [] →
      swaps 0x801 (h.vec.vpfx.setWidth 64)
        { r (h.vec.vpfx.setWidth 64) with
          vec := { (r (h.vec.vpfx.setWidth 64)).vec with vpfx := v.setWidth 12 }
          run := { (r (h.vec.vpfx.setWidth 64)).run with pfxOwn := false } }
      ∧ puts 0x800 (h.vec.velem.setWidth 64) (fun x => { x with velem := v.setWidth 14 })
      ∧ puts 0x802 (h.vec.vfflags.setWidth 64) (fun x => { x with vfflags := v.setWidth 6 })
      ∧ puts 0x803 (h.vec.vftrap.setWidth 64) (fun x => { x with vftrap := v.setWidth 6 })
      ∧ reads 0xCC0 (h.vec.vl.setWidth 64) ∧ reads 0xCC1 h.vec.vtype
      ∧ reads 0xCC3 (bv 64 (h.dev.held.toNat * 4 + (h.run.leases[1]).isSome.toNat * 2 + (h.run.leases[0]).isSome.toNat)))
    ∧ (kindOf s.cur = .compute →
      user 0x804 h.dev.uivec (fun x => { x with uivec := v &&& ~~~2#64 })
      ∧ user 0x805 h.dev.uicause (fun x => { x with uicause := v &&& 0x80000000000003FF#64 })
      ∧ user 0x806 h.dev.uiepc (fun x => { x with uiepc := v &&& ~~~3#64 })
      ∧ reads 0xCC2 (h.dev.grant.setWidth 64) ∧ reads 0xCC4 h.dev.task ∧ reads 0xCC5 h.dev.chan
      ∧ reads 0xCC6 h.dev.domain
      ∧ (h.priv ≠ .u → user 0x5C0 h.dev.task (fun x => { x with task := v })
        ∧ user 0x5C1 h.dev.chan (fun x => { x with chan := v &&& 0x7FFF#64 })))
    ∧ (h.priv ≠ .u →
      sets 0x140 h.csr.sscratch (fun x => { x with sscratch := v })
      ∧ sets 0x141 h.csr.sepc (fun x => { x with sepc := v &&& ~~~3#64 })
      ∧ sets 0x142 h.csr.scause (fun x => { x with scause := v })
      ∧ sets 0x143 h.csr.stval (fun x => { x with stval := v }))
    ∧ (h.priv = .m →
      sets 0x340 h.csr.mscratch (fun x => { x with mscratch := v })
      ∧ sets 0x341 h.csr.mepc (fun x => { x with mepc := v &&& ~~~3#64 })
      ∧ sets 0x342 h.csr.mcause (fun x => { x with mcause := v })
      ∧ sets 0x343 h.csr.mtval (fun x => { x with mtval := v })
      ∧ reads 0x301 0x8000000000941129#64
      ∧ reads 0xF14 (bv 64 s.cur) ∧ reads 0xC01 (bv 64 s.ticks)))

/-- WFI and fence.i (R15, R169), sfence.vma (R277), the ordering words and vdrain (R179-R182), and the entries of the
vector queue (R157). -/
def Obligations.FencesAndWaits : Prop :=
  (∀ (s : State), NoPrefix s →
    let h := s.hart
    let allowed : Prop := h.priv = .m ∨ (h.priv = .s ∧ bitOf h.csr.mstatus 20 = false)
    let wakes : Prop := mipOf s s.cur &&& h.csr.mie ≠ 0
    (h.priv = .m ∨ (bitOf h.csr.mstatus 21 = false ∧ h.priv = .s) →
      (wakes → Becomes .wfi s h.retire)
      ∧ (¬ wakes → Ends .wfi s (fun t => OnlyHart s t
          ∧ t.hart = { h with run := { h.run with wait := t.hart.run.wait } })))
    ∧ (isMilliner s.cur = false → h.priv ≠ .m → bitOf h.csr.mstatus 21 = true → Illegal .wfi s 0x10500073)
    ∧ (∀ imm rs1 rd, Becomes (.fenceI imm rs1 rd) s { h.retire with run := { h.retire.run with fetch := [] } })
    ∧ (∀ rs2 rs1, allowed → vecDrained s s.cur = false ∨ bothWait s 4 = true → exec (.sfenceVma rs2 rs1) s = .next s)
    ∧ (∀ rs2 rs1, allowed → vecDrained s s.cur = true → bothWait s 4 = false →
        let gone (e : TlbEnt) : Prop :=
          (rs1 = 0 ∨ e.vpn = (h.getX rs1).toNat % 2 ^ 47 / 2 ^ pageBits e.level)
          ∧ (rs2 = 0 ∨ (bitOf e.leaf 5 = false ∧ e.asid.toNat = (h.getX rs2).toNat % 65536))
        Ends (.sfenceVma rs2 rs1) s (fun t => t.mem = s.mem ∧ t.hart = h.retire
          ∧ (∀ c e, e ∈ (t.coreAt c).tlb ↔ e ∈ (s.coreAt c).tlb ∧ (tlbIndex s.cur = some c → ¬ gone e))
          ∧ (∀ c e, e ∈ (t.clusterAt c).tlb ↔ e ∈ (s.clusterAt c).tlb
              ∧ (kindOf s.cur = .compute → c = clusterOf s.cur → ¬ gone e))))
    -- a fence retires; its hart's later accesses of class B wait for its earlier ones of class A that are not performed
    ∧ (let fences (i : Instr) (scope : Nat) (a1 a2 b1 b2 : Bool) : Prop := Ends i s (fun t => t.mem = s.mem
          ∧ t.hart = { h.retire with run := { h.retire.run with bars := t.hart.run.bars } }
          ∧ (∀ k, k ≠ s.cur → t.hartAt k = s.hartAt k)
          ∧ (∀ vec : Bool, barred t s.cur vec = true ↔ barred s s.cur vec = true
              ∨ ((if vec then b2 else b1) = true ∧ s.cur < agentCount ∧ notPerformed s s.cur scope a1 a2 = true))
          ∧ (scope ≠ 5 → OnlyHart s t)
          ∧ (scope = 5 → kindOf s.cur = .compute →
              (t.coreAt (coreOf s.cur)).remote = [] ∧ (t.coreAt (coreOf s.cur)).texRemote = []))
       (∀ w : SFld, fences (.ordSv w) w.x.toNat true false false true ∧ fences (.ordVs w) w.x.toNat false true true false
          ∧ fences (.ordVv w) w.x.toNat false true false true ∧ fences (.ordAll w) w.x.toNat true true true true)
       ∧ (∀ w : SFld, (vecDrained s s.cur = true → fences (.vdrain w) 0 true true true true)
          ∧ (vecDrained s s.cur = false → exec (.vdrain w) s = .next s))))
  ∧ (∀ (s : State) (h : Nat),
    let x := s.hartAt h
    let queued (i : Instr) (l : List VEntry) : Prop := Ends i s (fun t => t.mem = s.mem
      ∧ t.hartAt h = { x with run := { x.run with queue := l } } ∧ ∀ k, k ≠ h → t.hartAt k = s.hartAt k)
    (∀ l e r, x.run.queue = l ++ e :: r → (∀ y ∈ l, y.started = true) → e.started = false →
      kindOf h ≠ .compute ∨ nextStart s (coreOf h) = some (h % 4) →
      queued (.vectorEntryStart h) (l ++ { e with started := true } :: r))
    ∧ (kindOf h = .compute → nextStart s (coreOf h) ≠ some (h % 4) → exec (.vectorEntryStart h) s = .next s)
    ∧ (∀ e r, x.run.queue = e :: r → queued (.vectorEntryRetire h) (if e.started then r else e :: r))
    ∧ (x.run.queue = [] → queued (.vectorEntryRetire h) []))

/-- Atomics (R15). -/
def Obligations.Atomics : Prop :=
  ∀ (s u : State) (sz : AmoW) (aq rl : BitVec 1) (rs2 rs1 rd : BitVec 5) (a : Nat), Memory.wf s.mem → NoPrefix s →
    let n : Nat := match sz with
      | .w32 => 4
      | .w64 => 8
    let va := (s.hart.getX rs1).toNat
    let v := (s.hart.getX rs2).toNat % 256 ^ n
    let old := readNat s.mem a n
    let done (i : Instr) (x : Word) (resv : Option Nat) (mem : State → Prop) : Prop :=
      Ends i s (fun t => t.cur = s.cur ∧ SetsX s t rd x ∧ FKept s t ∧ t.hart.pc = s.hart.pc + 4
        ∧ t.hart.csr = retiredCsr s.hart.csr ∧ t.hart.vec = retiredVec s.hart ∧ t.hart.priv = s.hart.priv
        ∧ t.hart.run.resv = resv ∧ mem t)
    (isMilliner s.cur = false → va % n ≠ 0 →
      Traps (.lr sz aq rl rs1 rd) s 4 (bv 64 va)
      ∧ Traps (.sc sz aq rl rs2 rs1 rd) s 6 (bv 64 va)
      ∧ ∀ o, Traps (.amo o sz aq rl rs2 rs1 rd) s 6 (bv 64 va))
    ∧ (va % n = 0 → Places s .load va n a u → poisoned u a n = none → (rl = 1 → fenceWaits s 4 = false) →
      leaseBlocks u { hart := s.cur, scalar := true } a n = false → u.stepwise = false →
      done (.lr sz aq rl rs1 rd) (sext64 (8 * n) old) (some (a / 8 * 8)) (fun t => t.mem = s.mem))
    ∧ (va % n = 0 → Places s .store va n a u → poisoned u a n = none → (rl = 1 → fenceWaits s 4 = false) →
      u.stepwise = false → leaseBlocks u { hart := s.cur, scalar := true } a n = false →
      (s.hart.run.resv = some (a / 8 * 8) →
        done (.sc sz aq rl rs2 rs1 rd) 0 none (fun t => Stored s t a n v))
      ∧ (s.hart.run.resv ≠ some (a / 8 * 8) → done (.sc sz aq rl rs2 rs1 rd) 1 none (fun t => t.mem = s.mem))
      ∧ ∀ o, done (.amo o sz aq rl rs2 rs1 rd) (sext64 (8 * n) old)
          (if (s.hart.run.resv.any (fun r => touches a n r && inSpad r)) then none else s.hart.run.resv) (fun t =>
          Stored s t a n (match o with
            | .swap => v
            | .add => old + v
            | .xor => old ^^^ v
            | .and => old &&& v
            | .or => old ||| v
            | .min => if signedOf (8 * n) old ≤ signedOf (8 * n) v then old else v
            | .max => if signedOf (8 * n) old ≤ signedOf (8 * n) v then v else old
            | .minu => min old v
            | .maxu => max old v)))

/-- Configuration (R83, R84), the prefix (R85) and repetition (R86-R90). -/
def Obligations.Configuration : Prop :=
  ∀ (s : State), kindOf s.cur ≠ .system →
    let h := s.hart
    let configures (i : Instr) (rd rs1 : BitVec 5) (req : Word) : Prop :=
      h.pfxOn = false → queueFull s = false →
      let illegal := bitOf req 63 ∨ fieldOf req 21 42 ≠ 0 ∨ 5 ≤ vtRm req ∨ vtSlc req = 1 ∨ 10 ≤ vtSlc req
        ∨ (vtFmt req = 15 ∧ vtGrp req ≠ 1)
      let ends (vtype : Word) (vl : Nat) : Prop := Ends i s (fun t => OnlyHart s t ∧ SetsX s t rd (bv 64 vl)
        ∧ t.hart.vec = { h.vec with
            vtype := vtype
            vl := bv 14 vl
            velem := 0 }
        ∧ t.hart.pc = h.pc + 4 ∧ FKept s t ∧ t.hart.priv = h.priv ∧ t.hart.csr = retiredCsr h.csr ∧ t.hart.dev = h.dev
        ∧ t.hart.ctl = h.ctl ∧ t.hart.ints = h.ints ∧ t.hart.run = { h.run with wait := none })
      (illegal → ends 0x8000000000020000#64 0)
      ∧ (¬ illegal → ends req (if rs1 = 0 then vlmax req else min (h.getX rs1).toNat (vlmax req)))
    (∀ w, configures (.vcfg w) w.rd w.rs1 (h.getX w.lo))
    ∧ (∀ w, configures (.vcfgi w) w.rd w.rs1
        (let i := w.hi.toNat * 32 + w.lo.toNat
         bv 64 (i / 16 + i / 4 % 4 * 16 + 0x20000 + i / 2 % 2 * 2 ^ 19 + i % 2 * 2 ^ 20)))
    ∧ (∀ w : PfxFld, (h.pfxOn = false →
        Ends (.pfx w) s (fun t => OnlyHart s t ∧ XKept s t ∧ FKept s t ∧ t.hart.pc = h.nextPc
          ∧ t.hart.vec = { h.vec with
              velem := 0
              vpfx := w.dreg ++ w.dcv ++ w.zero ++ w.inv ++ w.mreg ++ 1#1 }))
      ∧ (h.pfxOn = true → isMilliner s.cur = false → Illegal (.pfx w) s ((encode (.pfx w)).getD 0).toNat))
    ∧ (∀ (w : VrepFld) (words : List W32), NoPrefix s → isRep h.pc = false → isMilliner s.cur = false →
        words.length = w.k.toNat + 1 →
        (∀ j x, words[j]? = some x →
          h.run.fetch.find? (fun p => p.1 == (h.pc + bv 64 (4 + 4 * j)).toNat) = some ((h.pc + bv 64 (4 + 4 * j)).toNat, x)
          ∧ bodyWordOk false (j + 1 = words.length) x s = true) →
        Ends (.vrep w) s (fun t => OnlyHart s t ∧ XKept s t ∧ FKept s t ∧ t.hart.vec = retiredVec h
          ∧ t.hart.pc = bv 64 (2 ^ 47 + h.pc.toNat)
          ∧ t.hart.run.body = some { addr := h.pc, n := w.n.toNat + 1, s := w.s.toNat, words := words }))
    ∧ (∀ b x i r, isRep h.pc = true → h.run.body = some b → b.words[repWord h.pc]? = some x → decode x = .ok i →
        bodyExec i s = some r → exec .plankerPass s = exec i s)
    ∧ (∀ b x w, isRep h.pc = true → h.run.body = some b → b.words[repWord h.pc]? = some x → decode x = .ok (.pfx w) →
        h.pfxOn = false → Ends .plankerPass s (fun t => t.hart.pc = h.nextPc
          ∧ t.hart.vec.vpfx = w.dreg ++ w.dcv ++ w.zero ++ w.inv ++ w.mreg ++ 1#1))

/-- Accumulation windows (R207-R217). -/
def Obligations.Windows : Prop :=
  ∀ (s : State) (w : Fld), Memory.wf s.mem → VecReady s → kindOf s.cur = .compute → vtIll s.hart.vec.vtype = false →
    let h := s.hart
    let busy : Prop := notPerformed s s.cur 5 false true = true
    busy ∨ (∀ k < 4, ∀ x, h.window k = some x → x.merging = false) →
    let fmt := vtFmt h.vec.vtype
    let slot := w.d.toNat % 4
    let core := coreOf s.cur
    let others (t : State) : Prop := ∀ k < 4, k ≠ slot → t.hart.window k = h.window k
    let keeps (t : State) (takes : Bool) : Prop := UnitFrame s t takes ∧ XKept s t ∧ RegsKept s t ∧ t.hart.dev = h.dev
      ∧ others t
      ∧ t.hart.run.bbufs = h.run.bbufs
    let still (t : State) : Prop := keeps t false
    let word (i l wbase : Nat) : Nat := tcmAlias core + wbase * 256 + (16 * i + l) * 8
    -- wdecl: the copies hold the identity, and the slot is OPEN
    (NoPrefix s → ∀ b pa0 pa1,
      let target := (h.getX w.a).toNat
      let decl := (h.getX w.b).toNat
      let size := nbits decl 0 14
      let op := nbits decl 16 3
      let k := min size (16384 - target % 16384)
      h.window slot = none → 0 < size → size ≤ 8192 → size % 8 = 0 → nbits decl 14 2 = 0 → decl < 2 ^ 19 →
      target % 256 = 0 → within target 0x7FFFFFFC0000 0x40000 = false → windowFmt op fmt = true →
      allocate h size = some b → h.ctl.wbase.toNat + h.ctl.wlen.toNat ≤ 1024 →
      let e := vecEnv s
      PlacedBy e s .store target k pa0 s → (k < size → PlacedBy e s .store (target + k) (size - k) pa1 s) →
      (isRep h.pc = true → h.run.body ≠ none) →
      Ends (.wdecl w) s (fun t => still t
        ∧ Filled s t (word 0 0 b) (16 * size) (fun j => bv 8 (identityWord op fmt / 256 ^ (j % 8)))
        ∧ ∃ x, t.hart.window slot = some x ∧ x.op.toNat = op ∧ x.canonical = bitOf w.f 0 ∧ x.fmt.toNat = fmt
          ∧ x.size = size ∧ x.wbase.toNat = b ∧ x.target.toNat = target ∧ x.merging = false ∧ x.pa0 = pa0
          ∧ (k < size → x.pa1 = pa1)))
    -- wacc: every active element updates its lane's copy, in order
    ∧ (PrefixFits s w false true → ∀ x, TypeIn s (fun _ => true) → SourceFits s w.b (grpOf s) → SourceFits s w.a (grpOf s) →
      isMx fmt = false → fmt ≠ 15 →
      h.window slot = some x → x.merging = false → x.op.toNat = w.d.toNat / 4 → x.fmt.toNat = fmt →
      let n := widthOf s / 8
      let off (e : Nat) := elemAt s w.b e
      let copy (e : Nat) := word (off e / 8) (e / (64 / widthOf s) % 16) x.wbase.toNat + off e % 8
      (∀ e ∈ actives s w true, off e % n = 0 ∧ off e + n ≤ x.size ∧ poisoned s (copy e) n = none) →
      Ends (.wacc w) s (fun t => keeps t true ∧ t.hart.window slot = some x
        ∧ t.mem = (actives s w true).foldl (fun m e =>
            writeBytes m (copy e) (toBytes n (combineElem x.op.toNat fmt (readNat m (copy e) n) (elemAt s w.a e)))) s.mem))
    -- wmerge: at LEVEL 0 every target word takes its partial, and the slot is FREE once that is performed; above, the
    -- partial goes to the merge store
    ∧ (NoPrefix s → ∀ x, h.window slot = some x → x.merging = false → poisoned s (word 0 0 x.wbase.toNat) (16 * x.size) = none →
      let part (i : Nat) : Nat := partialWord s s.cur x i
      let a (i : Nat) : Nat := targetAddr x.target.toNat x.pa0 x.pa1 (8 * i)
      let f := combineWord x.op.toNat x.fmt.toNat
      (h.level = 0 → HomesIdle s → barred s s.cur true = false →
        (∀ i < x.size / 8, isOwnMem s (a i) = true ∧ poisoned s (a i) 8 = none) →
        let folded (t : State) : Prop := t.mem = (List.range (x.size / 8)).foldl (fun m i =>
          writeBytes m (a i) (toBytes 8 (f (readNat s.mem (a i) 8) (part i)))) s.mem
        (¬ busy → Ends (.wmerge w) s (fun t => still t ∧ t.hart.window slot = none ∧ folded t))
        ∧ (busy → Ends (.wmerge w) s (fun t => t.hart.pc = h.pc ∧ folded t ∧ others t
            ∧ t.hart.window slot = some { x with merging := true })))
      ∧ (∀ o, h.level ≠ 0 → mergeRoom (s.clusterAt (clusterOf s.cur)) x.size = some o →
        Ends (.wmerge w) s (fun t => still t ∧ t.hart.window slot = none
          ∧ t.mem = writeBytes s.mem (mergeAddr s (clusterOf s.cur) (o + 64))
              ((List.range (x.size / 8)).flatMap (fun i => toBytes 8 (part i)))
          ∧ (t.clusterAt (clusterOf s.cur)).partials = (s.clusterAt (clusterOf s.cur)).partials ++
              [{ hart := s.cur, op := x.op, canonical := x.canonical, fmt := x.fmt, size := x.size, target := x.target,
                 pa0 := x.pa0, pa1 := x.pa1, offset := o }])))
    ∧ (NoPrefix s → h.window slot = none → Ends (.wmerge w) s (fun t => still t ∧ t.mem = s.mem ∧ t.hart.window slot = none))
    -- wdrop, and the status word of wstat
    ∧ (NoPrefix s → (∀ x, h.window slot = some x → x.merging = false) →
      Ends (.wdrop w) s (fun t => still t ∧ t.mem = s.mem ∧ t.hart.window slot = none))
    ∧ (NoPrefix s → WritesX (.wstat w) s w.d (bv 64 (match h.window (w.a.toNat % 4) with
        | none => 0
        | some x => (if x.merging then 2 else 1) * 2 ^ 62 + x.canonical.toNat * 2 ^ 61 + x.op.toNat * 2 ^ 58
            + x.fmt.toNat * 2 ^ 54 + x.wbase.toNat * 2 ^ 44 + x.size)))

/-- The Crown (R228-R236). -/
def Obligations.Crown : Prop :=
  ∀ (s : State) (w : Fld), VecReady s → kindOf s.cur = .compute → NoPrefix s →
    let h := s.hart
    let fmt := vtFmt h.vec.vtype
    let core := coreOf s.cur
    let c := s.coreAt core
    let b := w.f.toNat % 2
    let still (t : State) : Prop := UnitFrame s t false ∧ t.mem = s.mem ∧ t.hart.run.windows = h.run.windows
    let grant (t : State) : Prop := t.hart.dev = h.dev ∧ XKept s t
    let buffers (t : State) : Prop := t.hart.run.bbufs = h.run.bbufs
    -- mattach: GRANT of the lowest run of free tiles, or the reason
    (vtIll h.vec.vtype = false → 1 ≤ w.a.toNat → w.a.toNat ≤ 8 →
      let ends (rd : Word) (g : BitVec 7) : Prop := Ends (.mattach w) s (fun t => still t ∧ RegsKept s t ∧ buffers t
        ∧ t.hart.dev = { h.dev with grant := g } ∧ SetsX s t w.d rd ∧ t.coreAt core = c)
      (h.grantTiles ≠ 0 → ends 2 h.dev.grant)
      ∧ (h.grantTiles = 0 → freeTiles s core w.a.toNat = none → ends 1 h.dev.grant)
      ∧ (∀ f, h.grantTiles = 0 → freeTiles s core w.a.toNat = some f → ends 0 (bv 7 (f * 16 + w.a.toNat))))
    -- mdetach and msync wait while a buffer of the hart waits for the link
    ∧ (passWaits s s.cur = true → exec (.mdetach w) s = .next s ∧ exec (.msync w) s = .next s)
    -- mdetach: GRANT 0 and both buffers EMPTY
    ∧ (passWaits s s.cur = false → Ends (.mdetach w) s (fun t => still t ∧ RegsKept s t ∧ XKept s t
        ∧ (h.grantTiles ≠ 0 → t.hart.dev = { h.dev with grant := 0 }
          ∧ (t.hart.bbuf 0).loaded = false ∧ (t.hart.bbuf 1).loaded = false)
        ∧ (h.grantTiles = 0 → t.hart.dev = h.dev ∧ buffers t)
        ∧ (t.coreAt core).tiles = c.tiles))
    -- mload: the rows and the auxiliary row go to the buffer
    ∧ (∀ (f : CrownFmt) (pa : Nat → Nat → Nat), vtIll h.vec.vtype = false → crownFmt h.vec.vtype = some f →
      c.passing.contains (s.cur % 4, b) = false →
      let va (i : Nat) : Nat := ((h.getX w.a).toNat + i * (h.getX w.b).toNat) % 2 ^ 64
      let row (i n : Nat) : Nat := ofBytes ((List.range n).map (fun k => readByte s.mem (pa i (k / 4) + k % 4)))
      let reach (i n : Nat) : Prop := va i % 8 = 0 ∧ ∀ k < ceilDiv n 4,
        PlacedBy (vecEnv s) s .load ((va i + 4 * k) % 2 ^ 64) 4 (pa i k) s ∧ localPlace s (pa i k) = true ∧ poisoned s (pa i k) 4 = none
      (∀ i < f.kt, reach i f.brow) → (f.baux ≠ 0 → reach f.kt f.baux) →
      Ends (.mload w) s (fun t => still t ∧ RegsKept s t ∧ grant t ∧ t.coreAt core = c
        ∧ t.hart.bbuf (1 - b) = h.bbuf (1 - b) ∧ (t.hart.bbuf b).loaded = true ∧ (t.hart.bbuf b).fmt.toNat = fmt
        ∧ (∀ i < f.kt, fieldOf (t.hart.bbuf b).data (8 * f.brow * i) (8 * f.brow) = row i f.brow)
        ∧ (f.baux ≠ 0 → fieldOf (t.hart.bbuf b).data (8 * f.brow * f.kt) (8 * f.baux) = row f.kt f.baux)))
    -- mmac: the tile takes the sums of its format, and with FWD the buffer goes to the link
    ∧ (∀ (f : CrownFmt) (pa : Nat → Nat → Nat), vtIll h.vec.vtype = false → crownFmt h.vec.vtype = some f →
      let n := w.d.toNat % 8
      let p := h.grantFirst + n
      let count := if fmt = 4 then 2 else 16
      let rows := (List.range count).map (fun i =>
        ofBytes ((List.range (f.rb + f.aaux)).map (fun k => readByte s.mem (pa i (k / 4) + k % 4))))
      let va (i : Nat) : Nat := ((h.getX w.a).toNat + i * (h.getX w.b).toNat) % 2 ^ 64
      let x := h.bbuf b
      n + blockTiles h.vec.vtype ≤ h.grantTiles → x.loaded = true → c.passing = [] → x.fmt.toNat = fmt →
      tilesAgree c h.vec.vtype p = true →
      (∀ i < count, va i % 8 = 0 ∧ within (va i) 0x7FFFFFFC0000 0x40000 = true
        ∧ within (va i + f.rb + f.aaux - 1) 0x7FFFFFFC0000 0x40000 = true
        ∧ ∀ k < ceilDiv (f.rb + f.aaux) 4, PlacedBy (vecEnv s) s .load ((va i + 4 * k) % 2 ^ 64) 4 (pa i k) s
          ∧ localPlace s (pa i k) = true ∧ poisoned s (pa i k) 4 = none) →
      Ends (.mmac w) s (fun t => still t ∧ RegsKept s t ∧ grant t
        ∧ (fmt ≠ 4 → (∀ m < 8, m ≠ p % 8 → (t.coreAt core).tile m = c.tile m)
          ∧ ((t.coreAt core).tile p).mode = (if fmt = 0 then TileMode.int else TileMode.float)
          ∧ ∀ i < 16, ∀ j < 16, ((t.coreAt core).tile p).val (16 * i + j) =
              if fmt = 0 then accumulateInt f.kt (fun k => signedOf 8 (nbits ((rows[i]?).getD 0) (8 * k) 8))
                (fun k => signedOf 8 (fieldOf x.data (8 * f.brow * k + 8 * j) 8)) ((c.tile p).val (16 * i + j))
              else accumulate f.kt (aElem f fmt ((rows[i]?).getD 0)) (bElem f fmt x.data j) ((c.tile p).val (16 * i + j))
                % 2 ^ 32)
        ∧ (fmt = 4 → (t.coreAt core).tiles =
            (c.splitMac (vtSlc h.vec.vtype) (blockTiles h.vec.vtype) p rows x.data).tiles)
        ∧ (w.f.toNat < 2 → buffers t ∧ (t.coreAt core).link = c.link)
        ∧ (2 ≤ w.f.toNat → c.link = none → (t.hart.bbuf b).loaded = false
          ∧ (t.coreAt core).link = some { slot := s.cur % 4, buf := b, fmt := x.fmt, data := x.data })
        ∧ (2 ≤ w.f.toNat → c.link ≠ none → buffers t ∧ (t.coreAt core).link = c.link
          ∧ (t.coreAt core).passing = [(s.cur % 4, b)])))
    -- mzero, mread, mwrite, msync
    ∧ (vtIll h.vec.vtype = false →
      let n := w.d.toNat % 8
      let others (t : State) : Prop := ∀ m < 8, m ≠ (h.grantFirst + n) % 8 → (t.coreAt core).tile m = c.tile m
      (n < h.grantTiles → Ends (.mzero w) s (fun t => still t ∧ RegsKept s t ∧ grant t ∧ buffers t ∧ others t
          ∧ (t.coreAt core).tile (h.grantFirst + n) = {}))
      ∧ (n < h.grantTiles → Ends (.mwrite w) s (fun t => still t ∧ RegsKept s t ∧ grant t ∧ buffers t ∧ others t
          ∧ (t.coreAt core).tile (h.grantFirst + n) =
              { vals := h.vec.v[h.vreg w.b % 32]'(Nat.mod_lt _ (by decide)) }))
      ∧ (let p := h.grantFirst + w.a.toNat % 8
         w.a.toNat % 8 < h.grantTiles → ((c.tile p).mode = .split → (c.tile p).first = 0) →
         Ends (.mread w) s (fun t => still t ∧ grant t ∧ buffers t ∧ t.coreAt core = c
          ∧ (∀ i, (hi : i < 32) → i ≠ h.vreg w.d % 32 → t.hart.vec.v[i] = h.vec.v[i])
          ∧ ((c.tile p).mode ≠ .split →
              t.hart.vec.v[h.vreg w.d % 32]'(Nat.mod_lt _ (by decide)) = (c.tile p).vals)
          ∧ ((c.tile p).mode = .split → ∀ o < 32, t.hart.elem (h.vreg w.d % 32) 64 o =
              splitResult (c.tile p) (fun k => (c.tile (p + k / 256)).val (k % 256)) o % 2 ^ 64))))
    ∧ (passWaits s s.cur = false → Ends (.msync w) s (fun t => still t ∧ RegsKept s t ∧ grant t ∧ buffers t ∧ t.coreAt core = c))

/-- The geometric tests (R296-R302). -/
def Obligations.RayTests : Prop :=
  ∀ (s : State) (w : Fld) (pa : Nat → Nat → Nat),
    let index (e : Nat) : Nat := elemIn s w.d 32 e
    let ray (e k : Nat) : FVal := decodeFloat fp32 (s.hart.elem (s.hart.vreg w.b + k) 32 e)
    let nan (e n : Nat) : Bool := (List.range n).any (fun k => (ray e k).isNan)
    let record (e size run : Nat) : Nat := ofBytes ((List.range (size / run)).flatMap (fun k => readBytes s.mem run (pa e k)))
    let reach (size run : Nat) : Prop := ∀ e ∈ actives s w true, ∀ k < size / run,
      Loads s 1 (((s.hart.getX w.a).toNat + index e * size) % 2 ^ 64 + k * run) run (pa e k)
    (RecordReady s w 1 64 → reach 64 64 →
      GivesRecords .rboxt s w 1 (fun e =>
        nodeResult (nodeOf (record e 64 64)) (nan e 8) (slabHit (nodeOf (record e 64 64)) (ray e)))
      ∧ ∃ free : Nat → Nat, GivesRecords .bbovl s w 1 (fun e =>
        nodeResult (nodeOf (record e 64 64)) (nan e 7) (overlapHit (nodeOf (record e 64 64)) (ray e) (free e))))
    ∧ (RecordReady s w 4 16 → reach 48 16 →
      GivesRecords .rtrit s w 4 (fun e => packWords (index e :: triResult (triOf (record e 48 16)) (ray e))))

/-- Texture sampling (R305-R312). -/
def Obligations.TextureSampling : Prop :=
  ∀ (s : State) (w : Fld) (pa : Nat → Nat) (r : Nat → TexRec),
    let h := s.hart
    let word (e k : Nat) : Nat := h.elem (h.vreg w.b + k) 32 e
    let v (e k : Nat) : FVal := decodeFloat fp32 (word e k)
    let layer (e : Nat) : Nat := min (word e 3 % 2 ^ 16) ((r e).layers - 1)
    let va (e : Nat) : Nat := ((h.getX w.a).toNat + word e 0 * 64) % 2 ^ 64
    let border (e c : Nat) : Nat := compCode ((r e).borderVal c)
    let given (f : State → Prop) : Prop := ∀ vec, f (s.setHart { h with vec := vec })
    let later (f : State → Prop) : Prop := ∀ vec, f (s.useFresh.setHart { h with vec := vec })
    let bad (e : Nat) : Prop := [1, 2, 4, 5, 6, 7].any (fun k => !(v e k).isFin) = true
    let lod (e : Nat) : Lod := lodOf (r e) (v e) (r e).mipf false
    let one (e : Nat) : Lod := { lodOf (r e) (v e) 0 true with filter := 1, coarse := 1 }
    let picks (e : Nat) (q : Lod) (p : Picked) (u : State) : Prop :=
      pickFor (r e) (layer e) (v e) q u = .ok (some p) u ∧ p.misses = []
    h.run.misses = [] → (∀ e ∈ actives s w true, Loads s 1 (va e) 64 (pa e) ∧ texRecOf (readNat s.mem (pa e) 64) = some (r e)) →
    -- a NaN or an infinity in the request
    (RecordReady s w 8 64 → (∀ e ∈ actives s w true, bad e) →
      GivesRecords .txs s w 8 (fun _ => packWords [0x7FC00000, 0x7FC00000, 0x7FC00000, 0x7FC00000, 3, 0x7FC00000, 1, 0])
      ∧ GivesRecords .txg s w 8 (fun _ =>
          packWords [0x7FC00000, 0x7FC00000, 0x7FC00000, 0x7FC00000, 3, 0x7FC00000, 1, 0]))
    ∧ (RecordReady s w 2 64 → (∀ e ∈ actives s w true, bad e) →
      GivesRecords .txlod s w 2 (fun _ => packWords [0x7FC00000, 3]))
    -- finite requests whose level is picked and read without a miss
    ∧ (∀ (p : Nat → Picked) (cs : Nat → List Nat), RecordReady s w 8 64 →
      (∀ e ∈ actives s w true, ¬ bad e ∧ given (fun u => picks e (lod e) (p e) u
        ∧ sampleComps (r e) (layer e) (lod e) (p e) u = .ok (some (cs e)) u)) →
      GivesRecords .txs s w 8 (fun e =>
        packWords (cs e ++ [statusWord (p e) (lod e).want, lamCode (lod e).lam, (lod e).n, 0])))
    ∧ (∀ (p : Nat → Picked) (cs : Nat → List Nat), RecordReady s w 8 64 →
      (∀ e ∈ actives s w true, ¬ bad e ∧ given (fun u => picks e (one e) (p e) u
        ∧ pickedVals (r e) (layer e) (p e) (List.replicate 4 (border e (nbits (word e 3) 16 2))) (coarseFoot (r e) (one e))
            (fun l => l.map (fun t => compCode (t.2 (nbits (word e 3) 16 2)))) u = .ok (some (cs e)) u)) →
      GivesRecords .txg s w 8 (fun e => packWords (cs e ++ [statusWord (p e) (one e).want, lamCode (one e).lam, 1, 0])))
    ∧ (∀ p : Nat → Picked, RecordReady s w 2 64 →
      (∀ e ∈ actives s w true, ¬ bad e ∧ given (picks e (lod e) (p e))) →
      GivesRecords .txlod s w 2 (fun e => packWords [lamCode (lod e).lam, statusWord (p e) (lod e).want]))
    -- txf: coordinates outside the level give the border, those inside one texel
    ∧ (RecordReady s w 8 64 →
      (∀ e ∈ actives s w true, word e 4 < 16
        ∧ ((r e).levels ≤ word e 4 ∨ (r e).w (word e 4) ≤ word e 1 ∨ (r e).h (word e 4) ≤ word e 2)) →
      GivesRecords .txf s w 8 (fun e => packWords ((List.range 4).map (border e) ++
        [2 + word e 4 * 1024, (roundFin (nearestEven fp32) false (word e 4) 0 false).1, 1, 0])))
    ∧ (RecordReady s w 8 64 → ∀ (p : Nat → Picked) (val : Nat → Nat → TexVal),
      (∀ e ∈ actives s w true, word e 4 < (r e).levels ∧ word e 1 < (r e).w (word e 4) ∧ word e 2 < (r e).h (word e 4)
        ∧ (p e).kind = 0 ∧ (p e).d = 0 ∧ (p e).level = word e 4 ∧ (p e).single = false ∧ (p e).misses = []
        ∧ later (fun u =>
            pickLevel (r e) (layer e) (word e 4) 0 (min (word e 1 * 2 ^ word e 4) ((r e).width - 1))
              (min (word e 2 * 2 ^ word e 4) ((r e).height - 1)) (fetchTap (r e) (word e 4) (word e 1) (word e 2) s.fresh) u
              = .ok (some (p e)) u
            ∧ readTexels (r e) (word e 4) (layer e) [⟨some (word e 1, word e 2), 1⟩] u = .ok (some [(1, val e)]) u)) →
      GivesRecords .txf s w 8 (fun e => packWords ((List.range 4).map (fun c => compCode (val e c)) ++
        [word e 4 % 16 * 64 + word e 4 % 16 * 1024, (roundFin (nearestEven fp32) false (word e 4) 0 false).1, 1, 0])))

/-- Spawning (R241-R251; panels: R261). -/
def Obligations.Spawning : Prop :=
  ∀ (s : State) (w : SFld) (ws : List Word), Memory.wf s.mem → NoPrefix s → isMilliner s.cur = false →
    let h := s.hart
    let p := partOf s s.cur
    let w0 := (ws[0]?).getD 0
    let ch := fieldOf w0 0 8
    let at' := h.getX w.rs1
    let answers (i : Instr) (rd : Word) : Prop := Becomes i s (h.gives w.rd rd)
    -- a message that is not aligned
    (at'.toNat % 64 ≠ 0 → Traps (.tspawn w) s 4 at' ∧ Traps (.tspawnp w) s 4 at')
    ∧ (at'.toNat % 64 = 0 → fenceWaits s 4 = false → scalarWords (dataEnv s) 8 at'.toNat s = .ok ws s →
      -- NOCHAN
      ((unassigned s s.cur = true ∨ channelOf s p ch = none) →
        answers (.tspawn w) (bv 64 (2 * 2 ^ 60)) ∧ answers (.tspawnp w) (bv 64 (2 * 2 ^ 60)))
      ∧ ∀ c, unassigned s s.cur = false → channelOf s p ch = some c →
        let bad := fieldOf w0 24 2 ≠ 0 ∨ fieldOf w0 8 8 ≠ 0
        let die := if bitOf w0 26 then fieldOf w0 27 3 else dieOf s.cur
        let r := taskRing s p die c.prio
        let slot := r.base.toNat + r.widx.toNat % 2 ^ r.log2n.toNat * 64
        let shape := fieldOf ((ws[5]?).getD 0) 0 32 ≠ 0 ∧ fieldOf ((ws[5]?).getD 0) 32 32 ≠ 0 ∧ (ws[6]?).getD 0 = 0
        -- a reserved field, or a channel of another kind, is NOCHAN too
        ((bad ∨ c.kind = 1) → answers (.tspawn w) (bv 64 (2 * 2 ^ 60)))
        ∧ ((bad ∨ c.kind ≠ 1) → answers (.tspawnp w) (bv 64 (2 * 2 ^ 60)))
        -- a panel without rows or columns, or with word 6 not zero, is a format fault
        ∧ (¬ bad → c.kind = 1 → ¬ shape → Ends (.tspawnp w) s (fun t =>
            t.hart.ctl.parked = true ∧ t.hart.ctl.pcause = 2 ∧ t.hart.ctl.rpc = h.pc ∧ XKept s t))
        ∧ (∀ i, (i = .tspawn w ∧ c.kind ≠ 1) ∨ (i = .tspawnp w ∧ c.kind = 1 ∧ shape) → ¬ bad →
          -- NORING
          ((6 ≤ die ∨ r.en = false ∨ writable s p slot 64 = false) → answers i (bv 64 (3 * 2 ^ 60)))
          -- FULL: at once, or a wait of 4,096 cc
          ∧ (die < 6 → r.en = true → writable s p slot 64 = true → 2 ^ r.log2n.toNat ≤ (r.widx - r.ridx).toNat →
            (bitOf w.x 0 = false → answers i (bv 64 (2 ^ 60)))
            ∧ (bitOf w.x 0 = true → h.run.wait = none → Ends i s (fun t => OnlyHart s t
                ∧ t.hart = { h with run := { h.run with
                    wait := some { kind := .tspawn, pc := h.pc, ends := s.ccOf s.cur + 4096 } } })))
          -- the task is entered
          ∧ (die < 6 → r.en = true → writable s p slot 64 = true → (r.widx - r.ridx).toNat < 2 ^ r.log2n.toNat →
            HomesIdle s → 8 ≤ ws.length →
            Ends i s (fun t => t.cur = s.cur
              ∧ SetsX s t w.rd (bv 64 (c.prio * 2 ^ 43 + ch * 2 ^ 35 + die * 2 ^ 32 + r.widx.toNat))
              ∧ t.hart.pc = h.pc + 4
              ∧ taskRing t p die c.prio = { r with widx := r.widx + 1 }
              ∧ (∀ k < 8, read8 t.mem (slot + 8 * k) =
                  if k = 0 then setBit w0 31 (!(r.widx.getLsbD r.log2n.toNat)) else (ws[k]?).getD 0)
              ∧ (∀ b, b < slot ∨ slot + 64 ≤ b → readByte t.mem b = readByte s.mem b)
              ∧ ∃ new : Waiting, (t.dieAt die).waiting = (s.dieAt die).waiting ++ [new] ∧ new.part = p
                ∧ new.level = c.prio ∧ new.idx = r.widx ∧ new.channel.toNat = ch ∧ new.kind = c.kind
                ∧ new.key.toNat = fieldOf w0 32 32 ∧ new.written = carderCc s die))))

/-- Retiring and yielding (R252, R257, R258). -/
def Obligations.TaskTurns : Prop :=
  ∀ (s : State) (w : SFld), Memory.wf s.mem → NoPrefix s → isMilliner s.cur = false →
    let h := s.hart
    let die := dieOf s.cur
    let held : Prop := (s.power.shed.getLsbD h.pclass = true ∧ h.level = 0) ∨ quiesceHolds s (clusterOf s.cur) = true
    -- tnext in a handler is illegal; on a system core it only retires
    (h.inHandler = true → Illegal (.tnext w) s ((encode (.tnext w)).getD 0).toNat)
    ∧ (h.inHandler = false → kindOf s.cur = .system → Becomes (.tnext w) s h.retire)
    -- on a compute hart the task retires and the hart asks for the next
    ∧ (h.inHandler = false → kindOf s.cur = .compute →
      ¬ held → Ends (.tnext w) s (fun t => t.mem = s.mem ∧ t.cur = s.cur ∧ t.hart.pc = h.pc + 4 ∧ t.hart.ctl.asks = true
        ∧ t.hart.ctl.parked = h.ctl.parked ∧ t.hart.run.windows = .replicate 4 none
        ∧ t.hart.run.streams = .replicate 4 none ∧ t.hart.run.uiPend = [] ∧ t.hart.run.turn = none
        ∧ XKept s t ∧ FKept s t ∧ t.hart.vec = retiredVec h ∧ t.hart.dev = h.dev
        ∧ (t.dieAt die).requests = (s.dieAt die).requests ++ [s.cur]
        ∧ (t.dieAt die).retiring = (s.dieAt die).retiring ++ (if h.dev.task = 0 then [] else
            [{ hart := s.cur, part := partOf s s.cur, turn := h.run.turn,
               panel := h.run.panel, word0 := h.run.word0, ntf := bitOf h.run.word0 30,
               ids := outstanding s s.cur false ++ outstanding s s.cur true }])))
    -- a hart whose power class is shed (outside a domain) or whose cluster is to quiesce is held
    ∧ (h.inHandler = false → kindOf s.cur = .compute →
      held → Ends (.tnext w) s (fun t => t.mem = s.mem ∧ t.hart.ctl.parked = true ∧ t.hart.ctl.pcause = 4
        ∧ t.hart.ctl.rpc = h.pc + 4 ∧ t.hart.dev.task = 0 ∧ t.hart.dev.chan = 0
        ∧ (t.dieAt die).requests = (s.dieAt die).requests))
    -- tyield: without a task that is offered it only retires, with one it enters a continuation first
    ∧ (kindOf s.cur = .system ∨ yields s s.cur = false → Becomes (.tyield w) s h.retire)
    ∧ (kindOf s.cur = .compute → yields s s.cur = true → h.inHandler = false →
      ¬ held → HomesIdle s →
      let p := partOf s s.cur
      let level := fieldOf h.dev.task 43 3
      let r := taskRing s p die level
      let slot := r.base.toNat + r.widx.toNat % 2 ^ r.log2n.toNat * 64
      ((r.en = false ∨ writable s p slot 64 = false ∨ 2 ^ r.log2n.toNat ≤ (r.widx - r.ridx).toNat) →
        Becomes (.tyield w) s h.retire)
      ∧ (r.en = true → writable s p slot 64 = true → (r.widx - r.ridx).toNat < 2 ^ r.log2n.toNat →
        Ends (.tyield w) s (fun t => t.hart.ctl.asks = true ∧ t.hart.pc = h.pc + 4
          ∧ taskRing t p die level = { r with widx := r.widx + 1 }
          ∧ (∀ k < 8, read8 t.mem (slot + 8 * k) = if k = 0 then
              setBit h.run.word0 31 (!(r.widx.getLsbD r.log2n.toNat)) else h.getX (bv 5 (10 + k)))
          ∧ (∀ b, b < slot ∨ slot + 64 ≤ b → readByte t.mem b = readByte s.mem b)
          ∧ (t.dieAt die).requests = (s.dieAt die).requests ++ [s.cur]
          ∧ ∃ r, (t.dieAt die).retiring = (s.dieAt die).retiring ++ [r] ∧ r.ntf = false ∧ r.hart = s.cur)))

/-- Tickets (R263-R266), blocking (R259) and tqstat (R260). -/
def Obligations.TicketsAndBlocking : Prop :=
  ∀ (s : State) (w : SFld), Memory.wf s.mem → NoPrefix s → isMilliner s.cur = false →
    let h := s.hart
    let p := partOf s s.cur
    let seq := fieldOf (h.getX w.rs1) 0 32
    let q := (s.partAt p).tseq
    let a := q.base.toNat + 8 * seq
    let named : Prop := unassigned s s.cur = false ∧ q.en = true ∧ seq < 2 ^ q.log2n.toNat ∧ isFar s a = false
      ∧ isOwnMem s a = true ∧ ownerOf s a = p
    let away : Prop := unassigned s s.cur = false ∧ q.en = true ∧ seq < 2 ^ q.log2n.toNat ∧ isFar s a = true
    let answers (i : Instr) (rd : Word) : Prop := Becomes i s (h.gives w.rd rd)
    let free : Prop := HomesIdle s ∧ barred s s.cur false = false ∧ poisoned s a 8 = none
    (¬ named → ¬ away → answers (.tticket w) (bv 64 (3 * 2 ^ 60)))
    ∧ (named → free → Ends (.tticket w) s (fun t => t.cur = s.cur ∧ SetsX s t w.rd (bv 64 (fieldOf (read8 s.mem a) 0 32))
        ∧ t.hart.pc = h.pc + 4
        ∧ read8 t.mem a = setField (read8 s.mem a) 0 32 (fieldOf (read8 s.mem a) 0 32 + 1)
        ∧ ∀ b, b < a ∨ a + 8 ≤ b → readByte t.mem b = readByte s.mem b))
    ∧ (let k := fieldOf (h.getX w.rs2) 0 32
      let legal : Prop := kindOf s.cur = .compute ∧ h.run.turn = none ∧ fieldOf h.dev.chan 11 2 = 2
      (¬ legal → answers (.tcommit w) (bv 64 (2 * 2 ^ 60)))
      ∧ (legal → ¬ named → ¬ away → answers (.tcommit w) (bv 64 (3 * 2 ^ 60)))
      ∧ (legal → named → free → fieldOf (read8 s.mem a) 32 32 = k →
        Becomes (.tcommit w) s (((h.takeTurn seq k).setX w.rd (bv 64 k)).retire))
      ∧ (legal → named → free → fieldOf (read8 s.mem a) 32 32 ≠ k →
        Ends (.tcommit w) s (fun t => OnlyHart s t ∧ t.hart = { h with run := { h.run with wait := t.hart.run.wait } }
          ∧ ∃ x, t.hart.run.wait = some x ∧ x.last = some (bv 64 (fieldOf (read8 s.mem a) 32 32)))))
    ∧ (let ch := fieldOf (h.getX w.rs1) 0 8
      let c := (s.partAt p).ttab.base.toNat + ch * 16 + 8
      let blocks (i : Instr) (b : Bool) : Prop :=
        (unassigned s s.cur = true ∨ (s.partAt p).ttab.en = false → fenceWaits s 4 = false →
          Ends i s (fun t => t.mem = s.mem ∧ t.hart = h.retire))
        ∧ (unassigned s s.cur = false → (s.partAt p).ttab.en = true → isOwnMem s c = true → ownerOf s c = p →
          HomesIdle s → poisoned s c 8 = none → fenceWaits s 4 = false →
          Ends i s (fun t => t.cur = s.cur ∧ XKept s t ∧ t.hart.pc = h.pc + 4
            ∧ read8 t.mem c = setBit (read8 s.mem c) 63 b
            ∧ ∀ k, k < c ∨ c + 8 ≤ k → readByte t.mem k = readByte s.mem k))
      blocks (.tblock w) true ∧ blocks (.tunblock w) false)
    ∧ (let v := h.getX w.rs1
      let die := if bitOf v 7 then fieldOf v 4 3 else dieOf s.cur
      let level := fieldOf v 0 3
      let r := taskRing s p die level
      answers (.tqstat w) (if 6 ≤ die ∨ unassigned s s.cur = true then 0
        else bv 64 ((r.widx - r.ridx).toNat * 2 ^ 32 + r.en.toNat * 2 ^ 31 + r.log2n.toNat * 2 ^ 16
          + min 65535 ((s.dieAt die).waiting.filter (fun t => t.part == p && t.level == level)).length)))

/-- The Carder's own events (R252-R257). -/
def Obligations.TaskDelivery : Prop :=
  ∀ (s : State) (h die : Nat), Memory.wf s.mem →
    let x := s.hartAt h
    let s1 := reportChannels s die
    -- a dispatched task: its slot is read, it leaves the index, and its delivery is on its way
    let dispatched (i : Instr) (t : Waiting) (c : Channel) (k : Nat) : Prop :=
      let slot := taskSlot (taskRing s1 t.part die t.level) t.idx
      let word (j : Nat) := tableWord s1 t.part (slot + 8 * j)
      tablePoison s1 slot 64 = false → t.kind ≠ 1 →
      Ends i s (fun u => u.mem = s1.mem
        ∧ (u.dieAt die).waiting = (s1.dieAt die).waiting.filter (fun y => y.order != t.order)
        ∧ (u.dieAt die).requests = (s1.dieAt die).requests.filter (fun y => y != k)
        ∧ (u.dieAt die).deliveries = (s1.dieAt die).deliveries ++
            [{ hart := k, handle := t.handle die, pc := c.pc, word0 := word 0
               chan := bv 64 (c.pclass * 2 ^ 13 + t.kind.toNat * 2 ^ 11 + min 7 (t.level + (carderCc s1 die - t.written) / 65536) * 256
                 + t.channel.toNat)
               args := [word 1, word 2, word 3, word 4, word 5, word 6, word 7] }]
        ∧ (u.hartAt k).ctl.wlen = bv 11 c.foot
        ∧ locOf (u.dieAt die) t.key = some (clusterOf k)
        ∧ u.hartAt k = { s1.hartAt k with ctl := (u.hartAt k).ctl })
    (die = dieOf h → (s.dieAt die).requests.head? = some h →
      (∀ t c, choose s1 h = some (t, c) → dispatched (.taskRequest h) t c h)
      ∧ (choose s1 h = none → Ends (.taskRequest h) s (fun u => u.mem = s1.mem
          ∧ (u.dieAt die).requests = (s1.dieAt die).requests.filter (fun y => y != h)
          ∧ (u.hartAt h).ctl.parked = true ∧ (u.hartAt h).ctl.pcause = 0 ∧ (u.hartAt h).ctl.asks = false
          ∧ (u.hartAt h).ctl.rpc = (s1.hartAt h).pc ∧ (u.hartAt h).ctl.wlen = 0
          ∧ (u.hartAt h).dev = { (s1.hartAt h).dev with
              task := 0
              chan := 0 })))
    ∧ (die < 6 → (s.dieAt die).requests = [] →
      (∀ k t c, placement s1 die = some (k, t, c) → dispatched (.idlePlacement die) t c k)
      ∧ (placement s1 die = none → exec (.idlePlacement die) s = .next s1))
    -- delivery
    ∧ (∀ d, die = dieOf h → (s.dieAt die).deliveries.find? (fun y => y.hart == h) = some d →
        d.args.length = 7 →
        Ends (.taskDelivery h) s (fun u => u.mem = s.mem
          ∧ (u.dieAt die).deliveries = (s.dieAt die).deliveries.filter (fun y => y.hart != h)
          ∧ (u.hartAt h).pc = d.pc ∧ (u.hartAt h).priv = .u ∧ (u.hartAt h).vec = { x.vec with velem := 0 }
          ∧ (u.hartAt h).dev = { x.dev with
              task := d.handle
              chan := d.chan }
          ∧ (u.hartAt h).getX 10 = d.handle
          ∧ (∀ k < 7, (u.hartAt h).getX (bv 5 (11 + k)) = (d.args[k]?).getD 0)
          ∧ (∀ r : BitVec 5, r.toNat < 10 ∨ 17 < r.toNat → (u.hartAt h).getX r = x.getX r)
          ∧ (u.hartAt h).ctl = { x.ctl with
              parked := false
              asks := false }
          ∧ ∀ k, k ≠ h → u.hartAt k = s.hartAt k))
    -- a retirement whose release has been performed: the turn passes on, and NTF opens the channel
    ∧ (∀ r, die = dieOf h → readyRetirement s h = some r → r.panel = none → HomesIdle s →
        Ends (.taskReleasePerformed h) s (fun u =>
          (u.dieAt die).retiring = (s.dieAt die).retiring.erase r
          ∧ (r.turn = none → r.ntf = false → u.mem = s.mem)
          ∧ (∀ q k a, r.turn = some (q, k) → r.ntf = false → sequenceAddr s r.part q = some a → isFar s a = false →
              read8 u.mem a = setField (read8 s.mem a) 32 32 (k + 1)
              ∧ ∀ b, b < a ∨ a + 8 ≤ b → readByte u.mem b = readByte s.mem b)
          ∧ (let c := channelAddr s r.part (fieldOf r.word0 16 8) + 8
            r.turn = none → r.ntf = true → (s.partAt r.part).ttab.en = true → tableAt s r.part c = true → poisoned s c 8 = none →
              read8 u.mem c = setBit (read8 s.mem c) 63 false
              ∧ ∀ b, b < c ∨ c + 8 ≤ b → readByte u.mem b = readByte s.mem b)))

/-- Domains (R218-R227). -/
def Obligations.Domains : Prop :=
  (∀ (s : State) (w : SFld) (r : DomRef), Memory.wf s.mem → NoPrefix s → s.hart.run.wait = none →
    let h := s.hart
    let rd (status phase : Nat) : Word := bv 64 (status * 2 ^ 60 + phase)
    let answers (i : Instr) (v : Word) : Prop := Becomes i s (h.gives w.rd v)
    let passes (i : Instr) (v : Word) : Prop := Becomes i s
      { (h.gives w.rd v) with run := { (h.gives w.rd v).run with arrival := none } }
    let now : Prop := domainOf s h.domainNow = some r
    let held : Prop := domainOf s h.domainHeld = some r
    let cleared : Dev := if h.inHandler then h.dev else { h.dev with domain := setBit h.dev.domain 3 false }
    let missed (keeps : Bool) : Hart := { (h.gives w.rd (rd 3 0)) with
      dev := cleared
      run := { (h.gives w.rd (rd 3 0)).run with arrival := if keeps then h.run.arrival else none } }
    -- no domain: STATUS 3 at once, and dbar clears ARR
    (domainOf s h.domainNow = none → passes (.darrive w) (rd 3 0))
    ∧ (domainOf s h.domainHeld = none → answers (.dwait w) (rd 3 0) ∧ answers (.dphase w) (rd 3 0))
    ∧ (domainOf s h.domainOfDbar = none → Becomes (.dbar w) s (missed (h.arrived && !h.inHandler)))
    ∧ (now ∨ held → HomesIdle s → regionOf s r.addr = .own → regionOf s (r.addr + 8) = .own →
      ownerOf s (r.addr + 8) = r.part → fenceWaits s (levelScope r.level) = false →
      let w0 := read8 s.mem r.addr
      let w1 := read8 s.mem (r.addr + 8)
      let phase := fieldOf w1 0 32
      let live : Prop := bitOf w1 63 = true ∧ fieldOf w1 56 3 = r.level
      let arrives (t : State) : Prop := read8 t.mem r.addr = w0 + bv 64 (2 ^ 32)
        ∧ (∀ b, b < r.addr ∨ r.addr + 8 ≤ b → readByte t.mem b = readByte s.mem b)
        ∧ (fieldOf (w0 + bv 64 (2 ^ 32)) 32 32 = fieldOf (w0 + bv 64 (2 ^ 32)) 0 32 →
            (t.partAt r.part).completing.contains r.id = true)
      let passed (p : Nat) : Prop := (phase + 2 ^ 32 - (p + 1) % 2 ^ 32) % 2 ^ 32 < 2 ^ 31
      -- a descriptor that is not live, or of another level
      (¬ live → (now → passes (.darrive w) (rd 3 0)) ∧ (held → answers (.dwait w) (rd 3 0) ∧ answers (.dphase w) (rd 3 0)))
      -- the current phase
      ∧ (held → live → answers (.dphase w) (rd 0 phase))
      -- an arrival is counted, or finds the domain broken
      ∧ (now → live → bitOf w1 62 = true → passes (.darrive w) (rd 2 phase))
      ∧ (now → live → bitOf w1 62 = false → Ends (.darrive w) s (fun t => arrives t ∧ t.cur = s.cur
          ∧ SetsX s t w.rd (rd 0 phase) ∧ t.hart.pc = h.pc + 4 ∧ t.hart.dev = h.dev
          ∧ t.hart.run.arrival = some (r.level, r.id)))
      -- a wait ends when its phase has passed, or with BROKEN, and goes on otherwise
      ∧ (held → live → bitOf w1 62 = true → passes (.dwait w) (rd 2 phase))
      ∧ (held → live → bitOf w1 62 = false → passed (fieldOf (h.getX w.rs1) 0 32) → r.level < 6 →
          passes (.dwait w) (rd 0 phase))
      ∧ (held → live → bitOf w1 62 = false → ¬ passed (fieldOf (h.getX w.rs1) 0 32) →
          Ends (.dwait w) s (fun t => OnlyHart s t ∧ ∃ x, t.hart = { h with run := { h.run with wait := some x } }
            ∧ x.kind = .dwait ∧ x.ends = s.ccOf s.cur + 2 ^ (2 * w.x.toNat + 8) ∧ x.last = some (bv 64 phase)))
      -- dbar arrives once, keeps the phase in DOMAIN and waits for it
      ∧ (now → h.inHandler = false → h.arrived = false → live → bitOf w1 62 = false →
          Ends (.dbar w) s (fun t => arrives t ∧ t.cur = s.cur ∧ XKept s t ∧ t.hart.pc = h.pc
            ∧ t.hart.dev = { h.dev with domain := setBit (setField h.dev.domain 32 32 phase) 3 true }))
      ∧ (now → h.inHandler = false → h.arrived = false → ¬ live →
          Becomes (.dbar w) s (missed false))
      ∧ (held → h.inHandler = false → h.arrived = true → live → bitOf w1 62 = false → passed (fieldOf h.dev.domain 32 32) →
          r.level < 6 → Ends (.dbar w) s (fun t => t.mem = s.mem ∧ t.cur = s.cur ∧ SetsX s t w.rd (rd 0 phase)
            ∧ t.hart.pc = h.pc + 4 ∧ t.hart.run.arrival = none
            ∧ t.hart.dev = { h.dev with domain := setBit h.dev.domain 3 false }))
      ∧ (held → h.inHandler = false → h.arrived = true → live → bitOf w1 62 = false → ¬ passed (fieldOf h.dev.domain 32 32) →
          Ends (.dbar w) s (fun t => t.mem = s.mem ∧ t.hart.pc = h.pc ∧ t.hart.dev = h.dev ∧ XKept s t))))
  ∧ (∀ (s : State) (part id a : Nat), Memory.wf s.mem → descriptorAddr s part id = some a → HomesFree s → (s.stepwise = true → dirOf s (regionNo a) = none) → a % 32 = 0 →
    let w0 := read8 s.mem a
    let w1 := read8 s.mem (a + 8)
    let phase := fieldOf w1 0 32
    -- without partials the completion clears ARRIVED and counts PHASE
    ((s.partAt part).completing.contains id = true → bitOf w1 62 = false → bitOf w1 63 = true →
      contributions s part id phase = [] →
      Ends (.domainCompletion part id) s (fun t => (t.partAt part).completing.contains id = false
        ∧ read8 t.mem a = setField w0 32 32 0 ∧ read8 t.mem (a + 8) = setField w1 0 32 (phase + 1)
        ∧ ∀ b, b < a ∨ a + 16 ≤ b → readByte t.mem b = readByte s.mem b))
    -- a failed domain, or one that is not live, does not complete
    ∧ ((s.partAt part).completing.contains id = true → bitOf w1 62 = true ∨ bitOf w1 63 = false →
      Ends (.domainCompletion part id) s (fun t => t.mem = s.mem ∧ (t.partAt part).completing.contains id = false))
    -- a break sets FAILED and discards the partials of the phase
    ∧ (regionOf s a = .own → bitOf w1 63 = true → bitOf w1 62 = false → (s.partAt part).fring.en = false →
      Ends (.barrierBreak part id) s (fun t => read8 t.mem (a + 8) = setBit w1 62 true
        ∧ (∀ b, b < a + 8 ∨ a + 16 ≤ b → readByte t.mem b = readByte s.mem b)
        ∧ ∀ c, (t.clusterAt c).partials = (s.clusterAt c).partials.filter
            (fun p => !(p.part = part && p.dom = id && p.phase = some phase))))
    -- the arrival of a waiting hart at the home while message steps are visible
    ∧ (∀ (k : Nat) (w : SFld) (x : Wait) (word : W32), s.stepwise = true → k < agentCount →
      let u := { s with cur := k }
      let y := s.hartAt k
      y.run.wait = some x → x.kind = .other → x.pc = y.pc →
      y.run.fetch.find? (fun p => p.1 == y.pc.toNat) = some (y.pc.toNat, word) → decode word = .ok (.darrive w) →
      domainOf u y.domainNow = some ⟨part, id, y.level, a⟩ → arrivalPhase u = none →
      regionOf s a = .own → regionOf s (a + 8) = .own → ownerOf s (a + 8) = part →
      bitOf w1 63 = true → fieldOf w1 56 3 = y.level → bitOf w1 62 = false →
      Ends (.domainArrival k) s (fun t => t.cur = s.cur ∧ read8 t.mem a = w0 + bv 64 (2 ^ 32)
        ∧ (∀ b, b < a ∨ a + 8 ≤ b → readByte t.mem b = readByte s.mem b)
        ∧ (t.hartAt k).pc = y.pc + 4 ∧ (t.hartAt k).x = (y.setX w.rd (bv 64 phase)).x)))

/-- Streams (R183-R190). -/
def Obligations.Streams : Prop :=
  ∀ (s : State), Memory.wf s.mem → kindOf s.cur = .compute →
    let h := s.hart
    (∀ (w : SFld), NoPrefix s →
      let q := w.x.toNat % 4
      let avl := (h.getX w.rs1).toNat
      let at' := (h.getX w.rs2).toNat
      let mode := w.rd.toNat % 4
      -- sopen
      (∀ ws : List Word,
        let word (k : Nat) : Word := (ws[k]?).getD 0
        let w0 := word 0
        let fmt := fieldOf w0 0 4
        let parts := fieldOf w0 6 2
        let refused : Prop := fieldOf w0 30 2 ≠ 0 ∨ fieldOf w0 12 8 ≠ 0 ∨ bitOf w0 9 = true ∨ fieldOf w0 10 2 = 3 ∨ parts = 0
          ∨ 10 ≤ fmt ∨ (mode ≠ 0 ∧ (parts ≠ 1 ∨ fmt = 8 ∨ fmt = 9))
          ∨ 262144 < fieldOf w0 20 10 * 256 + parts * 2 ^ (fieldOf w0 10 2 + 1) * (1024 * 2 ^ fieldOf w0 4 2)
        let faults : Prop := Ends (.sopen w) s (fun t => XKept s t ∧ t.hart.run.streams = h.run.streams
          ∧ t.hart.ctl.parked = true ∧ t.hart.ctl.pcause = 2 ∧ t.hart.ctl.rpc = h.pc)
        (2 ^ 32 ≤ avl → faults)
        ∧ (avl < 2 ^ 32 → at' % 64 ≠ 0 → Traps (.sopen w) s 4 (bv 64 at'))
        ∧ (avl < 2 ^ 32 → at' % 64 = 0 → scalarWords (dataEnv s) 8 at' s = .ok ws s → refused → faults)
        ∧ (avl < 2 ^ 32 → at' % 64 = 0 → scalarWords (dataEnv s) 8 at' s = .ok ws s → ¬ refused →
          Ends (.sopen w) s (fun t => OnlyHart s t ∧ XKept s t ∧ t.hart.pc = h.pc + 4
            ∧ (∀ k < 4, k ≠ q → t.hart.stream k = h.stream k)
            ∧ ∃ st, t.hart.stream q = some st ∧ st.word0 = w0 ∧ st.base = #v[word 1, word 3, word 5]
              ∧ st.stride = #v[word 2, word 4, word 6] ∧ st.init = word 7 ∧ st.mode.toNat = mode ∧ st.avl = avl
              ∧ st.vtype = h.vec.vtype ∧ st.fetched = 0 ∧ st.consumed = 0 ∧ st.flt = none)))
      -- savail
      ∧ (h.stream q = none → Becomes (.savail w) s (h.gives w.rd 0) ∧ Becomes (.sres w) s (h.gives w.rd 0))
      ∧ (∀ st, h.stream q = some st →
        Becomes (.savail w) s (h.gives w.rd (bv 64 ((if st.mode = 0 then (st.fetched - st.consumed) % 2 ^ 32 else 0)
          + st.flt.isSome.toNat * 2 ^ 62 + (decide (st.avl ≤ st.fetched)).toNat * 2 ^ 63)))
        -- sres
        ∧ (st.mode = 0 → Becomes (.sres w) s (h.gives w.rd (bv 64 (st.avl - st.consumed))))
        ∧ (st.mode ≠ 0 → st.avl ≤ st.fetched →
          Becomes (.sres w) s { (h.gives w.rd (bv 64 st.result.1)) with
            vec := { (h.gives w.rd (bv 64 st.result.1)).vec with vfflags := h.vec.vfflags ||| st.result.2 } })
        ∧ (st.mode ≠ 0 → st.fetched < st.avl → st.flt = none → exec (.sres w) s = .next s))
      -- sclose
      ∧ Ends (.sclose w) s (fun t => OnlyHart s t ∧ XKept s t ∧ t.hart.pc = h.pc + 4 ∧ t.hart.stream q = none
          ∧ ∀ k < 4, k ≠ q → t.hart.stream k = h.stream k))
    -- a fill of one part: the next strip goes to the TCM, or is folded
    ∧ (∀ (k q : Nat) (st : Stream) (pa : Nat → Nat), q < 4 → kindOf k = .compute → (s.hartAt k).stream q = some st →
      let e := streamEnv s k q st
      let n := min (st.limit - st.fetched) (st.strip - st.fetched % st.strip)
      let size := sewOf st.fmt / 8
      let slot (j : Nat) : Nat := tcmAlias (coreOf k) + st.slot 0 (st.fetched + j)
      st.flt = none → st.fetched < st.limit → st.parts = 1 → (s.clusterAt (clusterOf k)).clkOff = false → st.fetched + n < st.avl →
      HomesIdle s → barred s k true = false →
      (∀ j < n, (st.addr 0 (st.fetched + j)) % size = 0 ∧ st.addr 0 (st.fetched + j) < 2 ^ 47
        ∧ resolve s e .load (st.addr 0 (st.fetched + j)) size = .ok (.mem (pa j), s) ∧ poisoned s (pa j) size = none
        ∧ ∀ i < n, pa j + size ≤ slot i ∨ slot i + size ≤ pa j) →
      (st.mode = 0 → Ends (.streamFill k q) s (fun t =>
        (t.hartAt k).stream q = some { st with fetched := st.fetched + n }
        ∧ (∀ j < n, readNat t.mem (slot j) size = readNat s.mem (pa j) size)
        ∧ ∀ b, (∀ j < n, b < slot j ∨ slot j + size ≤ b) → readByte t.mem b = readByte s.mem b))
      ∧ (st.mode = 1 → Ends (.streamFill k q) s (fun t => t.mem = s.mem
        ∧ ∃ st', (t.hartAt k).stream q = some st' ∧ st'.fetched = st.fetched + n
          ∧ st'.acc = ((List.range n).foldl (fun x j => bv 64 (st.plus x.toNat (readNat s.mem (pa j) size)).1) st.acc)))
      ∧ (2 ≤ st.mode.toNat → Ends (.streamFill k q) s (fun t => t.mem = s.mem
        ∧ (t.hartAt k).stream q = some { st with
            fetched := st.fetched + n
            leaves := st.leaves ++ (List.range n).map (fun j => bv 64 (readNat s.mem (pa j) size)) })))

/-- Leases (R192-R195). -/
def Obligations.Leases : Prop :=
  ∀ (s : State), Memory.wf s.mem →
    let h := s.hart
    let live (x : Hart) (k : Nat) : Option Lease := (x.run.leases.toList[k]?).getD none
    (∀ (w : LeaseFld) (u : State) (a : Nat), NoPrefix s → kindOf s.cur ≠ .system →
      let base := h.getX w.rs1
      let words := w.words.toNat + 1
      let n := w.n.toNat + 1
      (isMilliner s.cur = false → (base.toNat % 8 ≠ 0 ∨ 256 < base.toNat % 256 + 8 * words) → Traps (.lease w) s 6 base)
      ∧ (∀ slot, base.toNat % 8 = 0 → base.toNat % 256 + 8 * words ≤ 256 → Places s .store base.toNat (8 * words) a u →
        isOwnMem u a = true → freeLeaseSlot u s.cur = some slot → slot < 2 →
        leaseConflict u s.cur a (8 * words) = false →
        Ends (.lease w) s (fun t => t.mem = s.mem ∧ t.cur = s.cur ∧ t.hart.pc = h.pc + 4 ∧ XKept s t
          ∧ live t.hart slot = some
              { base := base, pa := a, words := words, ends := s.ccOf s.cur + n + 1
                buf := if isMilliner s.cur then readBytes s.mem (8 * words) a else [] }
          ∧ live t.hart (1 - slot) = live h (1 - slot)
          ∧ t.coh.leases = s.coh.leases ++ [{ hart := s.cur, slot := slot, pa := a, len := 8 * words }])))
    ∧ (∀ w : SFld, NoPrefix s → kindOf s.cur ≠ .system → s.stepwise = false → s.coh.queued = [] →
      ((∀ k l, k < 2 → live h k = some l → l.base ≠ h.getX w.rs1) →
        Ends (.unlease w) s (fun t => t.mem = s.mem ∧ t.hart.pc = h.pc + 4 ∧ t.hart.dev.held = 0
          ∧ t.hart.run.leases = h.run.leases ∧ t.coh.leases = s.coh.leases))
      ∧ (∀ l, live h 0 = some l → l.base = h.getX w.rs1 → spanUnperformed s s.cur l.pa (8 * l.words) = false →
        Ends (.unlease w) s (fun t => t.mem = s.mem ∧ t.hart.pc = h.pc + 4 ∧ t.hart.dev.held = 1
          ∧ live t.hart 0 = none ∧ live t.hart 1 = live h 1
          ∧ ∀ l ∈ t.coh.leases, l ∈ s.coh.leases ∧ ¬ (l.hart = s.cur ∧ l.slot = 0))))
    ∧ (∀ k l, live (s.hartAt k) 0 = some l → l.ends ≤ s.ccOf k → s.stepwise = false → s.coh.queued = [] →
      Ends (.leaseExpiry k) s (fun t => t.mem = s.mem ∧ live (t.hartAt k) 0 = none
        ∧ live (t.hartAt k) 1 = live (s.hartAt k) 1
        ∧ ∀ l ∈ t.coh.leases, l ∈ s.coh.leases ∧ ¬ (l.hart = k ∧ l.slot = 0)))

/-- swait (R197) and the ends of timed waits (R56, R197, R198, R224, R251, R265). -/
def Obligations.TimedWaits : Prop :=
  ∀ (s : State), Memory.wf s.mem →
    let h := s.hart
    -- swait samples its word
    (∀ (w : SFld) (a : Nat), NoPrefix s → kindOf s.cur ≠ .system →
      let va := (h.getX w.rs1).toNat
      let v := readNat s.mem a 4
      let met : Prop := (v + 2 ^ 32 - (h.getX w.rs2).toNat % 2 ^ 32) % 2 ^ 32 < 2 ^ 31
      (isMilliner s.cur = false → va % 4 ≠ 0 → Traps (.swait w) s 4 (bv 64 va))
      ∧ (va % 4 = 0 → Places s .load va 4 a s → poisoned s a 4 = none →
        (met → Becomes (.swait w) s (h.gives w.rd (bv 64 v)))
        ∧ (¬ met → h.run.wait = none → Ends (.swait w) s (fun t => OnlyHart s t
            ∧ ∃ x, t.hart = { h with run := { h.run with wait := some x } } ∧ x.kind = .swait ∧ x.pc = h.pc
              ∧ x.ends = s.ccOf s.cur + 2 ^ (2 * w.x.toNat + 8) ∧ x.last = some (bv 64 v) ∧ x.watch = [a] ∧ x.news = []))))
    -- a hart that waits, when its time has come
    ∧ (∀ (k : Nat) (x : Wait) (word : W32) (i : Instr),
      let y := s.hartAt k
      let u := { s with cur := k }
      let other (t : State) : Prop := t.mem = s.mem ∧ t.cur = s.cur ∧ (∀ j, j ≠ k → t.hartAt j = s.hartAt j)
      let last (d : Nat) : Nat := (x.last.map BitVec.toNat).getD d
      let ends (e : Instr) (r : BitVec 5) (v : Word) : Prop := Ends e s (fun t => other t
        ∧ (t.hartAt k).x = (y.setX r v).x ∧ (t.hartAt k).shadow = (y.setX r v).shadow ∧ (t.hartAt k).pc = y.pc + 4
        ∧ (t.hartAt k).run.wait = none)
      y.canRun = true → y.run.wait = some x → x.pc = y.pc → isRep y.pc = false →
      y.run.fetch.find? (fun p => p.1 == y.pc.toNat) = some (y.pc.toNat, word) → decode word = .ok i →
      -- before its time nothing happens
      (s.ccOf k < x.ends → exec (.swaitTimeout k) s = .next s ∧ exec (.vwaitTimeout k) s = .next s
        ∧ exec (.dwaitTimeout k) s = .next s ∧ exec (.tcommitTimeout k) s = .next s
        ∧ exec (.tspawnWaitTimeout k) s = .next s)
      -- the first committed value that satisfies the wait ends it
      ∧ (∀ (w : SFld) (a v : Nat), i = .swait w → x.kind = .swait → y.pfxBlocks = false → kindOf k ≠ .system →
          (y.getX w.rs1).toNat % 4 = 0 → resolve u (dataEnv u) .load (y.getX w.rs1).toNat 4 = .ok (.mem a, u) →
          x.watch.contains a = true →
          ((x.news.filter (fun p => p.1 == a)).map Prod.snd).find? (fun v =>
            (v + 2 ^ 32 - (y.getX w.rs2).toNat % 2 ^ 32) % 2 ^ 32 < 2 ^ 31) = some v →
          ends (.waiterUpdate k) w.rd (bv 64 v))
      -- at its time a last test fails and the wait ends with the last sample
      ∧ (x.ends ≤ s.ccOf k → retestWait u = u → x.last ≠ none →
        (∀ w, i = .swait w → x.kind = .swait → ends (.swaitTimeout k) w.rd (bv 64 (2 ^ 63 + last 0)))
        ∧ (∀ w, i = .dwait w → x.kind = .dwait → ends (.dwaitTimeout k) w.rd (bv 64 (2 ^ 60 + last 0 % 2 ^ 32)))
        ∧ (∀ w, i = .dbar w → x.kind = .dbar → ends (.dwaitTimeout k) w.rd (bv 64 (2 ^ 60 + last 0 % 2 ^ 32)))
        ∧ (∀ w, i = .tcommit w → x.kind = .tcommit → ends (.tcommitTimeout k) w.rd (bv 64 (2 ^ 60 + last 0))))
      -- a spawn whose ring is still full at its time answers FULL
      ∧ (∀ (w : SFld) (panel : Bool) (ws : List Word), i = (if panel then .tspawnp w else .tspawn w) → x.kind = .tspawn →
          x.ends ≤ s.ccOf k → y.pfxBlocks = false → isMilliner k = false → (y.getX w.rs1).toNat % 64 = 0 →
          fenceWaits u 4 = false → scalarWords (dataEnv u) 8 (y.getX w.rs1).toNat u = .ok ws u →
          spawn u k panel ws = .done u (bv 64 (2 ^ 60)) → ends (.tspawnWaitTimeout k) w.rd (bv 64 (2 ^ 60))))
    -- a vector wait that times out gives the elements that were not satisfied
    ∧ (∀ (k : Nat) (x : Wait) (word : W32) (w : Fld),
      let y := s.hartAt k
      let u := { s with cur := k }
      y.canRun = true → y.run.wait = some x → x.kind = .vwait → x.pc = y.pc → isRep y.pc = false → x.ends ≤ s.ccOf k →
      y.run.fetch.find? (fun p => p.1 == y.pc.toNat) = some (y.pc.toNat, word) → decode word = .ok (.vwait w) →
      retestWait u = u → u.hart.run.badRegs = [] → s.stepwise = false → s.bound = none → kindOf k ≠ .system → PrefixFits u w false true →
      TypeIn u (· == 3) → LengthOk y → SourceFits u w.b (grpOf u) →
      Ends (.vwaitTimeout k) s (fun t => t.mem = s.mem ∧ t.cur = s.cur ∧ (t.hartAt k).pc = y.pc + 4
        ∧ (t.hartAt k).run.wait = none ∧ (t.hartAt k).x = y.x
        ∧ ∀ e, posOf u ≤ e → e < lenOf u → activeAt u w true e = true →
            ((t.hartAt k).mask w.d.toNat).getLsbD e = !(x.sat.getLsbD e)))
    -- 256 cc have passed: watches on words of other modules are compared and asked for again
    ∧ (∀ k, let y := s.hartAt k
      let watch (i : Nat) : Word := (y.ctl.watch[i]?).getD 0
      let word (i : Nat) : Nat := fieldOf (watch i) 3 47 * 8
      let asked (i : Nat) (t : State) : Prop := ∃ r ∈ t.coh.remote, r.hart = k ∧ r.slot = 10 + i ∧ r.kind = 1
        ∧ r.addr = word i ∧ r.len = 8 ∧ r.answer = none ∧ r ∉ s.coh.remote
      y.run.wait = none →
      ((∀ i < 4, bitOf (watch i) 0 = false) → Ends (.remoteSampleTick k) s (fun t => t.mem = s.mem ∧ t.coh = s.coh
          ∧ ∀ j, t.hartAt j = s.hartAt j))
      ∧ (∀ i d, i < 4 → bitOf (watch i) 0 = true → regionOf s (word i) = .far d → deliverable s d = true →
        (∀ j < 4, j ≠ i → bitOf (watch j) 0 = false) → s.coh.nextTag < 2 ^ 32 → (∀ r ∈ s.coh.remote, r.tag < s.coh.nextTag) →
        (findRemote s k (10 + i) 1 (word i) 8 = none →
          Ends (.remoteSampleTick k) s (fun t => t.mem = s.mem ∧ asked i t ∧ ∀ j, t.hartAt j = s.hartAt j))
        ∧ (∀ r v, findRemote s k (10 + i) 1 (word i) 8 = some r → r.answer = some v →
          Ends (.remoteSampleTick k) s (fun t => t.mem = s.mem ∧ asked i t
            ∧ (∀ j, j ≠ k → t.hartAt j = s.hartAt j)
            ∧ (t.hartAt k).ctl.watchSeen[i]? = some (some (bv 64 v)) ∧ (t.hartAt k).pc = y.pc
            ∧ ((2, i) ∈ (t.hartAt k).run.uiPend ↔ (2, i) ∈ y.run.uiPend
                ∨ ∃ old, y.ctl.watchSeen[i]? = some (some old) ∧ old ≠ bv 64 v)))))
    -- and a wait on a word of another module asks for it
    ∧ (∀ (k a : Nat) (x : Wait) (word : W32) (w : SFld),
      let y := s.hartAt k
      let u := { s with cur := k }
      y.canRun = true → y.run.wait = some x → x.kind = .swait → x.pc = y.pc → isRep y.pc = false →
      y.run.fetch.find? (fun p => p.1 == y.pc.toNat) = some (y.pc.toNat, word) → decode word = .ok (.swait w) →
      isMilliner k = false → y.pfxBlocks = false → kindOf k ≠ .system → (y.getX w.rs1).toNat % 4 = 0 →
      resolve u (dataEnv u) .load (y.getX w.rs1).toNat 4 = .ok (.far a, u) → deliverable s (a / 2 ^ 40) = true →
      findRemote s k 0 1 a 4 = none → (∀ i < 4, bitOf ((y.ctl.watch[i]?).getD 0) 0 = false) → s.coh.nextTag < 2 ^ 32 →
      (∀ r ∈ s.coh.remote, r.tag < s.coh.nextTag) →
      Ends (.remoteSampleTick k) s (fun t => t.mem = s.mem ∧ t.cur = s.cur ∧ (t.hartAt k).pc = y.pc
        ∧ (∃ r ∈ t.coh.remote, r.hart = k ∧ r.kind = 1 ∧ r.addr = a ∧ r.len = 4 ∧ r ∉ s.coh.remote)
        ∧ ∃ z, (t.hartAt k).run.wait = some z ∧ z.kind = .swait ∧ z.ends = x.ends ∧ z.again = s.ccOf k + 256))

/-- Interrupts (R142, R143, R151-R153), park and hmsg (R147, R148), mkick (R328). -/
def Obligations.Interrupts : Prop :=
  ∀ (s : State), Memory.wf s.mem →
    let h := s.hart
    -- taking an interrupt between words
    (∀ (k : Nat) (toS : Bool) (cause : Nat),
      let x := s.hartAt k
      interruptible s k = true → irqDue s k = some (toS, cause) → (∀ w, x.run.wait = some w → w.kind ≠ .wfi) →
      Ends (.interruptTake k 0) s (fun t => t.mem = s.mem ∧ t.cur = s.cur
        ∧ (t.hartAt k).vec = x.vec ∧ (t.hartAt k).x = x.x ∧ (t.hartAt k).dev = x.dev
        ∧ (t.hartAt k).run.resv = none ∧ (∀ j, j ≠ k → t.hartAt j = s.hartAt j)
        ∧ (toS = false → (t.hartAt k).priv = .m ∧ (t.hartAt k).csr.mepc = x.pc
          ∧ (t.hartAt k).csr.mcause = bv 64 cause ||| 1#64 <<< 63 ∧ (t.hartAt k).csr.mtval = 0
          ∧ fieldOf (t.hartAt k).csr.mstatus 11 2 = x.priv.code
          ∧ bitOf (t.hartAt k).csr.mstatus 7 = bitOf x.csr.mstatus 3 ∧ bitOf (t.hartAt k).csr.mstatus 3 = false
          ∧ (t.hartAt k).pc = (x.csr.mtvec &&& ~~~3#64)
              + (if fieldOf x.csr.mtvec 0 2 = 1 then bv 64 (4 * cause) else 0))
        ∧ (toS = true → (t.hartAt k).priv = .s ∧ (t.hartAt k).csr.sepc = x.pc
          ∧ (t.hartAt k).csr.scause = bv 64 cause ||| 1#64 <<< 63 ∧ (t.hartAt k).csr.stval = 0
          ∧ bitOf (t.hartAt k).csr.mstatus 8 = (x.priv ≠ .u : Bool)
          ∧ bitOf (t.hartAt k).csr.mstatus 5 = bitOf x.csr.mstatus 1 ∧ bitOf (t.hartAt k).csr.mstatus 1 = false
          ∧ (t.hartAt k).pc = (x.csr.stvec &&& ~~~3#64)
              + (if fieldOf x.csr.stvec 0 2 = 1 then bv 64 (4 * cause) else 0))))
    -- a user-level interrupt: the highest CODE, the lowest SLOT
    ∧ (∀ (k code slot : Nat),
      let x := s.hartAt k
      interruptible s k = true → irqDue s k = none → x.priv = .u → bitOf x.dev.uivec 0 = true → x.inHandler = false →
      trapDue { s with cur := k } = false →
      (code, slot) ∈ x.run.uiPend → (code, slot) ∈ uiOrder →
      (∀ c ∈ x.run.uiPend, c ∈ uiOrder → c.1 < code ∨ (c.1 = code ∧ slot ≤ c.2)) →
      Ends (.userInterruptTake k 0) s (fun t => t.mem = s.mem ∧ t.cur = s.cur ∧ (t.hartAt k).vec = x.vec
        ∧ (t.hartAt k).pc = x.dev.uivec &&& ~~~3#64 ∧ (t.hartAt k).priv = .u ∧ (t.hartAt k).x = x.x
        ∧ (t.hartAt k).dev = { x.dev with
            uiepc := x.pc &&& ~~~3#64
            uicause := bv 64 (2 ^ 63 + slot * 256 + code) }
        ∧ ∀ c, c ∈ (t.hartAt k).run.uiPend ↔ c ∈ x.run.uiPend ∧ c ≠ (code, slot)))
    -- uiret
    ∧ (∀ w : SFld, NoPrefix s → kindOf s.cur = .compute →
      (h.inHandler = true → Ends (.uiret w) s (fun t => OnlyHart s t ∧ t.hart.pc = h.dev.uiepc ∧ t.hart.x = h.x
          ∧ t.hart.shadow = h.shadow ∧ t.hart.vec = h.vec
          ∧ t.hart.dev = { h.dev with uicause := setBit h.dev.uicause 63 false }))
      ∧ (h.inHandler = false → Illegal (.uiret w) s ((encode (.uiret w)).getD 0).toNat))
    -- park
    ∧ (∀ w : SFld, NoPrefix s → kindOf s.cur = .compute →
      (h.priv = .u → Illegal (.park w) s ((encode (.park w)).getD 0).toNat)
      ∧ (h.priv ≠ .u → h.run.queue = [] → h.liveLeases = 0 →
        Ends (.park w) s (fun t => OnlyHart s t ∧ XKept s t ∧ t.hart.pc = h.pc + 4
          ∧ t.hart.ctl = { h.ctl with
              parked := true
              pcause := 1
              mode := h.priv
              rpc := h.pc + 4 })))
    ∧ (∀ w : SFld, NoPrefix s → isMilliner s.cur = true → h.run.queue = [] → h.liveLeases = 0 →
      Ends (.park w) s (fun t => t.mem = s.mem ∧ t.hart.ctl.parked = true ∧ t.hart.run.kick = none
        ∧ (t.millAt s.cur).run = .idle ∧ (t.millAt s.cur).kick = none))
    -- hmsg: rd says whether the record was written
    ∧ (∀ w : SFld, NoPrefix s → fenceWaits s 4 = false →
      let p := partOf s s.cur
      let r := (s.partAt p).fring
      let slot := ringSlot s p
      let full := 2 ^ r.log2n.toNat ≤ (r.widx - r.ridx).toNat
      let drops : Prop := Ends (.hmsg w) s (fun t => t.mem = s.mem
          ∧ SetsX s t w.rd (if r.en then 1 else 2) ∧ t.hart.pc = h.pc + 4
          ∧ (t.partAt p).fring = { r with drop := satInc r.drop })
      (p < noPart → r.en = false ∨ full ∨ writable s p slot 32 = false → drops)
      ∧ (RingOpen s p →
        Ends (.hmsg w) s (fun t => SetsX s t w.rd 0 ∧ t.hart.pc = h.pc + 4
          ∧ (t.partAt p).fring = { r with widx := r.widx + 1 }
          ∧ readNat t.mem slot 4 = (!(r.widx.getLsbD r.log2n.toNat)).toNat * 2 ^ 31 + 2 * 65536
          ∧ readNat t.mem (slot + 4) 4 = s.cur % 2 ^ 32 ∧ read8 t.mem (slot + 8) = h.pc
          ∧ read8 t.mem (slot + 16) = h.getX w.rs1 ∧ read8 t.mem (slot + 24) = h.getX w.rs2
          ∧ ∀ b, b < slot ∨ slot + 32 ≤ b → readByte t.mem b = readByte s.mem b)))
    -- mkick to memory is a store of 8 bytes
    ∧ (∀ (w : SFld) (u : State) (a : Nat), NoPrefix s →
      let va := (h.getX w.rs1).toNat
      (isMilliner s.cur = false → va % 8 ≠ 0 → Traps (.mkick w) s 6 (bv 64 va))
      ∧ (va % 8 = 0 → fenceWaits s w.x.toNat = false → Places s .store va 8 a u →
        (∀ p ∈ u.coh.poison, touches a 8 p = true → a ≤ p ∧ p + 8 ≤ a + 8) →
        leaseBlocks u { hart := s.cur, scalar := true } a 8 = false →
        Ends (.mkick w) s (fun t => StoreFrame s t ∧ t.hart.pc = h.pc + 4 ∧ Stored s t a 8 (h.getX w.rs2).toNat)))
    -- the time compare registers, SSIP, the interrupt files, and the end of a reservation
    ∧ (∀ k, Ends (.timecmpMatch k false) s (fun t => (s.hartAt k).ints.mtimecmp.toNat ≤ t.ticks ∧ s.ticks ≤ t.ticks
          ∧ t = { s with ticks := t.ticks })
      ∧ Ends (.timecmpMatch k true) s (fun t => (s.hartAt k).ints.stimecmp.toNat ≤ t.ticks ∧ s.ticks ≤ t.ticks
          ∧ t = { s with ticks := t.ticks }))
    ∧ (∀ k < 9240, Ends (.intSsip k) s (fun t =>
        t.hartAt k = { s.hartAt k with csr := { (s.hartAt k).csr with mipSw := setBit (s.hartAt k).csr.mipSw 1 true } }
        ∧ t.mem = s.mem))
    ∧ (∀ k id, k < 9240 → 0 < id → id < (if kindOf k = .system then 256 else 64) →
      Ends (.imsicSeteipnum k false id) s (fun t => t.mem = s.mem
        ∧ (t.hartAt k).ints.mfile = { (s.hartAt k).ints.mfile with eip := setBit (s.hartAt k).ints.mfile.eip id true }
        ∧ (t.hartAt k).ints.sfile = (s.hartAt k).ints.sfile)
      ∧ Ends (.imsicSeteipnum k true id) s (fun t => t.mem = s.mem
        ∧ (t.hartAt k).ints.sfile = { (s.hartAt k).ints.sfile with eip := setBit (s.hartAt k).ints.sfile.eip id true }
        ∧ (t.hartAt k).ints.mfile = (s.hartAt k).ints.mfile))
    ∧ (∀ k a, (s.hartAt k).run.resv = some a → (s.hartAt k).run.resvEnds ≤ s.ccOf k →
      Ends (.reservationTimeout k) s (fun t => t.mem = s.mem
        ∧ t.hartAt k = { s.hartAt k with run := { (s.hartAt k).run with resv := none } }))

/-- Kicks (R328-R333, R341). -/
def Obligations.Kicks : Prop :=
  ∀ (s : State) (m : Nat), Memory.wf s.mem →
    let x := s.millAt m
    -- a kick is queued while EN is 1, fewer than 8 wait, and the Milliner is neither dead nor quiescing
    (∀ hart block scope, isMilliner m = true → m < agentCount → hart < agentCount →
      let k : Kick := { block := bv 64 block &&& ~~~63#64, satp := (s.hartAt hart).csr.satp, part := partOf s hart,
                        priv := (s.hartAt hart).dataPriv, kicker := hart, scope := bv 3 scope }
      let open' : Prop := x.en = true ∧ x.queue.length < 8 ∧ isDead s m = false
        ∧ ¬ (kindOf m = .clusterMilliner ∧ quiescing s (clusterOf m) = true)
      (open' → Ends (.millinerKick m hart block scope) s (fun t => t.mem = s.mem
          ∧ t.millAt m = { x with queue := x.queue ++ [k] }))
      ∧ (¬ open' → MailboxFree s m → ∀ a token, mailboxOf s m k none = some (a, token) →
          Ends (.millinerKick m hart block scope) s (fun t => Mailed s t a token 6
            ∧ t.millAt m = { x with rej := satInc x.rej })))
    -- the oldest kick starts: its routine is selected, or STATUS 4 ends it
    ∧ (∀ (k : Kick) (r : List Kick) (id : Nat), millReady s m = true → x.kick = none → x.queue = k :: r → s.coh.remote = [] →
      (∃ v, loadVa (kickEnv m k) .load (k.block.toNat % 2 ^ 64) 8 s = .ok v s ∧ v % 2 ^ 16 = id) →
      let known : Prop := id ∈ [0x0001, 0x0010, 0x0020, 0x0040, 0x0041, 0x0042] ∨ (0x8000 ≤ id ∧ id ≤ 0x80FF)
      (known → Ends (.millinerRoutineStart m) s (fun t => t.mem = s.mem
          ∧ t.millAt m = { x with
              kick := some k
              queue := r
              run := .selected id }))
      ∧ (¬ known → MailboxFree s m → ∀ a token, mailboxOf s m k (some false) = some (a, token) → Ends (.millinerRoutineStart m) s (fun t => KickOver t m
          ∧ (t.millAt m).queue = r ∧ Mailed s t a token 4)))
    -- the empty routine
    ∧ (∀ k, x.kick = some k → x.run = .selected 1 → EndsKick (.mailboxOnly m) s m k (some false) 0)
    -- an abort ends what runs and what waits
    ∧ (isMilliner m = true → m < agentCount → x.kick = none → x.queue = [] → x.closing = [] → (s.hartAt m).liveLeases = 0 →
      Ends (.mlAbort m) s (fun t => t.mem = s.mem ∧ KickOver t m ∧ (t.millAt m).queue = []
        ∧ (t.hartAt m).ctl.parked = true))
    ∧ (∀ k, isMilliner m = true → m < agentCount → x.kick = some k → x.queue = [] → (s.hartAt m).liveLeases = 0 →
      MailboxFree s m → ∀ a token, mailboxOf s m k x.run.physical = some (a, token) →
      Ends (.mlAbort m) s (fun t => KickOver t m ∧ (t.millAt m).queue = [] ∧ Mailed s t a token (7 + x.run.flags)
        ∧ (t.hartAt m).ctl.parked = true))

/-- The standard routines 0x0010 and 0x0020 and user routines (R331-R339). -/
def Obligations.Routines : Prop :=
  ∀ (s : State) (m : Nat) (k : Kick), Memory.wf s.mem → (s.millAt m).kick = some k →
    let x := s.millAt m
    let e := kickEnv m k
    -- a copy begins with its block, or ends with STATUS 3
    (∀ ws n, x.run = .selected 0x10 → s.coh.remote = [] →
      (if bitOf ((ws[0]?).getD 0) 22 then
          ∃ w8, loadWords e .load 8 k.block.toNat s = .ok w8 s ∧ bitOf ((w8[0]?).getD 0) 22 = true
            ∧ loadWords e .load 32 k.block.toNat s = .ok ws s
        else loadWords e .load 8 k.block.toNat s = .ok ws s) →
      ((Copying.mk ws).bad = false → Ends (.tensorCopy m n) s (fun t => t.mem = s.mem
          ∧ t.millAt m = { x with
              kick := some (k.noted ws)
              run := .copying ws 0 [] }))
      ∧ ((Copying.mk ws).bad = true → EndsKick (.tensorCopy m n) s m (k.noted ws) (some false) 3))
    -- an element is read, or is padding; then its bytes are written, word by word; STATUS 0 ends the copy
    ∧ (∀ ws n l, x.run = .copying ws n l → s.coh.remote = [] → l.Pairwise (fun p q => p.1 < q.1) →
      let c : Copying := ⟨ws⟩
      let d := c.dest n
      (c.count ≤ n → l = [] → EndsKick (.tensorCopy m 0) s m k (some false) 0)
      ∧ (n < c.count → partFault s e .store { va := d, n := c.size, al := c.size } = none →
          let taken (v : Nat) : Prop := Ends (.tensorCopy m 0) s (fun t => t.mem = s.mem
            ∧ ∃ l', (t.millAt m).run = .copying ws (n + 1) l' ∧ ∀ b, (l'.find? (fun p => p.1 == b)).map Prod.snd =
              if d ≤ b ∧ b < d + c.size then some (bv 8 (v / 256 ^ (b - d)))
              else (l.find? (fun p => p.1 == b)).map Prod.snd)
          (c.source n = none → taken (fieldOf (c.w 26) 0 (8 * c.size)))
          ∧ (∀ a v, c.source n = some a → loadVa e .load a c.size s = .ok v s → taken v))
      ∧ (∀ pa p r, c.count ≤ n → l = p :: r → HomesIdle s →
          let word := l.filter (fun q => q.1 / 8 == p.1 / 8)
          BytesPlaced e s word pa → Ends (.tensorCopy m 0) s (fun t =>
            (t.millAt m).run = .copying ws n (l.filter (fun q => q.1 / 8 != p.1 / 8))
            ∧ ∀ b, readByte t.mem b = storedByte s word pa b)))
    -- a migration: only die Milliners and not in U mode; STATUS 3 for a bad block; then region after region
    ∧ (x.run = .selected 0x20 → kindOf m ≠ .dieMilliner ∨ k.priv = .u → EndsKick (.pageMigration m) s m k (some true) 5)
    ∧ (∀ ws, x.run = .selected 0x20 → kindOf m = .dieMilliner → k.priv ≠ .u → s.coh.remote = [] →
      loadWords e .load 8 k.block.toNat s = .ok ws s → migrationBlock s k ws = none →
      EndsKick (.pageMigration m) s m (k.noted ws) (some true) 3)
    ∧ (∀ old new size next, x.run = .migrating old new size next → size ≤ 256 * next →
      EndsKick (.migrationRegionCopy m) s m k (some true) 0)
    ∧ (∀ ws old new size, x.run = .selected 0x20 → kindOf m = .dieMilliner → k.priv ≠ .u → s.coh.remote = [] →
      loadWords e .load 8 k.block.toNat s = .ok ws s → migrationBlock s k ws = some (old, new, size) →
      s.coh.leases = [] →
      Ends (.pageMigration m) s (fun t => t.mem = s.mem
        ∧ (t.millAt m).run = .migrating old new size 0 ∧ (t.millAt m).kick = some (k.noted ws)
        ∧ t.coh.migs = { old := old, new := new, size := size, next := 0 } :: s.coh.migs.filter (fun g => g.old != old)
        ∧ ∀ j r, (t.hartAt j).run.resv = some r → (s.hartAt j).run.resv = some r ∧ ¬ (old ≤ r ∧ r < old + size)))
    ∧ (∀ old new size next, x.run = .migrating old new size next → 256 * next < size →
      let a := old + 256 * next
      let b := placed s (new + 256 * next)
      s.coh.commits = [] → s.coh.evicting = [] → s.coh.leases = [] → s.coh.queued = [] → poisoned s a 256 = none →
      (s.stepwise = true → dirOf s (regionNo a) = none ∧ dirOf s (regionNo b) = none) →
      Ends (.migrationRegionCopy m) s (fun t => (t.millAt m).run = .migrating old new size (next + 1)
        ∧ (∀ j, readByte t.mem j = if b ≤ j ∧ j < b + 256 then readByte s.mem (a + (j - b)) else readByte s.mem j)
        ∧ ∀ g ∈ t.coh.migs, g.old = old → g.next = next + 1))
    -- a user routine starts in S or U mode with its arguments
    ∧ (∀ id pc len words, x.run = .selected id → 0x8000 ≤ id → s.coh.remote = [] →
      tablePoison s ((s.partAt k.part).mlt.base.toNat + 16 * (id - 0x8000)) 16 = false →
      userEntry s k.part (id - 0x8000) = some (pc, len) → fetchRoutine e (len / 4) pc s = .ok words s →
      Ends (.userRoutine m) s (fun t => t.mem = s.mem ∧ (t.millAt m).run = .user
        ∧ (t.hartAt m).pc = bv 64 pc ∧ (t.hartAt m).priv = (if k.priv = .u then .u else .s)
        ∧ (t.hartAt m).ctl.parked = false ∧ (t.hartAt m).csr.satp = k.satp ∧ (t.hartAt m).run.routine = words
        ∧ (t.hartAt m).getX 10 = k.block ∧ (t.hartAt m).getX 11 = bv 64 m ∧ (t.hartAt m).getX 12 = bv 64 k.kicker))

/-- The collective routines (R398-R403). The layout of a receive area is the model's own (assumption 35). -/
def Obligations.Collectives : Prop :=
  ∀ (s : State) (m : Nat) (k : Kick), Memory.wf s.mem → (s.millAt m).kick = some k →
    let x := s.millAt m
    let e := kickEnv m k
    -- they begin on die Milliners only, with a block that is not bad
    (∀ i id, (i, id) ∈ [(Instr.allReduce m, 0x40), (.reduceScatter m, 0x41), (.allGather m, 0x42)] →
      x.run = .selected id → s.coh.remote = [] →
      (kindOf m ≠ .dieMilliner → EndsKick i s m k (some false) 5)
      ∧ (∀ ws, kindOf m = .dieMilliner → loadWords e .load 8 k.block.toNat s = .ok ws s →
        let w (j : Nat) : Word := (ws[j]?).getD 0
        let kn := k.noted ws
        (collBlockBad w = true → EndsKick i s m kn (some false) 3)
        ∧ (∀ h l, collBlockBad w = false → loadVa e .load (w 6).toNat 8 s = .ok h s →
          loadWords e .load (2 * (h % 64 + 1)) (((w 6).toNat + 8) % 2 ^ 64) s = .ok l s → h < 2 ^ 64 →
          (collOf s m w (bv 64 h) l = none → EndsKick i s m kn (some false) 3)
          ∧ (∀ c, collOf s m w (bv 64 h) l = some c → ∀ vs, readElems e (sewOf c.fmt) c.count c.src s = .ok vs s →
            Ends i s (fun t => t.mem = s.mem ∧ t.millAt m = { x with
              kick := some kn
              run := .collective { c with
                vals := vs
                parts := [(c.own, vs)] } })))))
    -- a step of a stage: values, then entries, then what has come
    ∧ (∀ c, x.run = .collective c → c.done = false →
      (∀ t', c.sent = 0 → slotFree e c s = .ok true s → sendValues e c s = .ok () t' →
        Ends (.collectiveExchange m) s (fun t => t.mem = t'.mem
          ∧ t.millAt m = { (t'.millAt m) with run := .collective { c with sent := 1 } }))
      ∧ (∀ t', c.sent = 1 → Settled s m → sendFlags e c s = .ok () t' →
        Ends (.collectiveExchange m) s (fun t => t.mem = t'.mem
          ∧ t.millAt m = { (t'.millAt m) with run := .collective { c with
              sent := 2
              since := t'.ccOf m } }))
      ∧ (c.sent = 2 → c.routine ≠ 0x42 → c.large = false → c.senderTo c.me c.stage = none →
        Ends (.collectiveExchange m) s (fun t => t.mem = s.mem ∧ t.millAt m = { x with run := .collective c.next }))
      ∧ (c.sent = 2 → (c.routine = 0x42 ∨ c.large = true ∨ c.senderTo c.me c.stage ≠ none) →
        let a := c.entryAt c.me
        (readByte s.mem (placed s a) = 0 → exec (.collectiveExchange m) s = .next s)
        ∧ (s.coh.migs = [] → readByte s.mem a ≠ 0 → readBytes s.mem c.entryBytes a ≠ c.header →
          EndsKick (.collectiveExchange m) s m k (some false) (11 + c.flags.toNat * 256))
        ∧ (HomesIdle s → readByte s.mem a ≠ 0 → readBytes s.mem c.entryBytes a = c.header →
          spanPoisoned s (c.valueAt c.me c.receives.1) (c.receives.2 * c.size) = false →
          let got (j : Nat) : Nat := readNat s.mem (c.valueAt c.me j) c.size
          let low : Bool := flipBit (c.index c.me) c.stage / 2 ^ c.stage < c.index c.me / 2 ^ c.stage
          let n := c.group.length
          Ends (.collectiveExchange m) s (fun t =>
            (∀ b, readByte t.mem b = if a ≤ b ∧ b < a + c.entryBytes then 0 else readByte s.mem b)
            ∧ ∃ c', (t.millAt m).run = .collective c' ∧ c'.stage = c.stage + 1 ∧ c'.sent = 0
              ∧ (c.routine ≠ 0x42 → c.large = false → c.vals.length = c.count → ∀ j < c.count,
                  c'.vals[j]? = some (bv 64 (let v := ((c.vals[j]?).getD 0).toNat
                    if low then (c.combine (got j) v).1 else (c.combine v (got j)).1)))
              ∧ (c.routine ≠ 0x42 → c.large = true → c.stages ≤ c.stage → c.vals.length = c.count →
                  c.receives.1 + c.receives.2 ≤ c.count → ∀ j < c.count, c'.vals[j]? =
                    if c.receives.1 ≤ j ∧ j < c.receives.1 + c.receives.2 then some (bv 64 (got j)) else c.vals[j]?)
              ∧ (c.routine = 0x42 → c'.vals = (List.range c.count).map (fun j => bv 64 (got j))
                  ∧ c'.parts = c.parts ++ [((c.own + n - 1 - c.stage % n) % n, c'.vals)])))))
    -- the end: the result goes to DST, and the timeout
    ∧ (∀ c pa a token, x.run = .collective c → c.done = true → c.dst % c.size = 0 → k.fields ≠ none → MailboxFree s m →
      let l := c.out.getD c.result
      BytesPlaced e s l pa → mailboxOf s m k (some false) = some (a, token) →
      (∀ f, k.fields = some f → NoWalkBy e s f.1.toNat) →
      Ends (.collectiveExchange m) s (fun t => KickOver t m
        ∧ read8 t.mem a = bv 64 (token % 2 ^ 32 + c.flags.toNat * 256 * 2 ^ 32)
        ∧ ∀ b, b < a ∨ a + 8 ≤ b → readByte t.mem b = storedByte s l pa b))
    ∧ (∀ c, x.run = .collective c → c.sent = 2 → c.done = false → c.since + 2 ^ (2 * c.x + 8) ≤ s.ccOf m →
      EndsKick (.collectiveTimeout m) s m k (some false) (10 + c.flags.toNat * 256))

/-- Writes of control registers (R276 and the register tables). -/
def Obligations.RegisterWrites : Prop :=
  (∀ (s : State) (p v : Nat), p < 64 →
    let x := s.partAt p
    let w := bv 64 v
    let n := fieldOf w 0 5
    let gives (i : Instr) (y : Part) : Prop :=
      Ends i s (fun t => t.mem = s.mem ∧ t.harts = s.harts ∧ t.partAt p = y ∧ ∀ q, q ≠ p → t.partAt q = s.partAt q)
    -- LOG2N is kept while EN is 1; EN = 1 is stored only where LOG2N and the alignment of BASE fit
    (∀ fits : Bool, fits = decide (4 ≤ n ∧ n ≤ 16 ∧ x.fring.base.toNat % 2 ^ (n + 5) = 0) →
      (x.fring.en = false →
        gives (.fringCtlWrite p v) { x with fring := { x.fring with en := bitOf w 5 && fits, log2n := bv 5 n } })
      ∧ (x.fring.en = true → gives (.fringCtlWrite p v) { x with fring := { x.fring with en := bitOf w 5 } }))
    ∧ (∀ fits : Bool, fits = decide (x.dom.base.toNat % 2 ^ (min 16 n + 5) = 0) →
      (x.dom.en = false →
        gives (.domCtlWrite p v) { x with dom := { x.dom with en := bitOf w 5 && fits, log2n := bv 5 (min 16 n) } })
      ∧ (x.dom.en = true → gives (.domCtlWrite p v) { x with dom := { x.dom with en := bitOf w 5 } }))
    ∧ (∀ fits : Bool, fits = decide (n ≤ 20 ∧ x.tseq.base.toNat % 2 ^ max 12 (n + 3) = 0) →
      (x.tseq.en = false →
        gives (.tseqCtlWrite p v) { x with tseq := { x.tseq with en := bitOf w 5 && fits, log2n := bv 5 n } })
      ∧ (x.tseq.en = true → gives (.tseqCtlWrite p v) { x with tseq := { x.tseq with en := bitOf w 5 } }))
    ∧ (∀ fits : Bool, fits = decide (4 ≤ n ∧ n ≤ 20 ∧ x.fbr.base.toNat % 2 ^ (n + 4) = 0) →
      (x.fbr.en = false →
        gives (.fbrCtlWrite p v) { x with fbr := { x.fbr with en := bitOf w 5 && fits, log2n := bv 5 n } })
      ∧ (x.fbr.en = true → gives (.fbrCtlWrite p v) { x with fbr := { x.fbr with en := bitOf w 5 } }))
    -- FCLR, alone or written with FBR_CTL, empties the partition's filters and no other
    ∧ (∀ i b, (i, b) ∈ [(Instr.fclr p, true), (.fbrCtlWrite p v, bitOf w 6)] → b = true →
      Ends i s (fun t => ∀ c, (t.clusterAt c).misses = (s.clusterAt c).misses.filter (fun m => m.part != p)))
    ∧ (bitOf w 6 = false → Ends (.fbrCtlWrite p v) s (fun t => t.clusters = s.clusters))
    -- a task ring is enabled empty, and disabled only when empty
    ∧ (∀ die level, die < 6 → level < 8 →
      let r := x.ring die level
      let sets (r' : Ring) : Prop := Ends (.tqRingWrite p die level v) s (fun t => t.mem = s.mem
        ∧ (t.partAt p).ring die level = r'
        ∧ (∀ d l, d < 6 → l < 8 → d ≠ die ∨ l ≠ level → (t.partAt p).ring d l = x.ring d l)
        ∧ ∀ q, q ≠ p → t.partAt q = s.partAt q)
      (r.en = true → bitOf w 5 = false → r.widx = r.ridx → sets { r with en := false })
      ∧ (r.en = true → bitOf w 5 = true ∨ r.widx ≠ r.ridx → sets r)
      ∧ (∀ b : Word, r.en = false → b.toNat = v % 2 ^ 50 / 1024 * 1024 →
        let fits : Prop := 4 ≤ n ∧ n ≤ 16 ∧ b.toNat % 2 ^ (n + 6) = 0
        (bitOf w 5 = true → fits → sets { r with base := b, log2n := bv 5 n, en := true, widx := 0, ridx := 0 })
        ∧ (bitOf w 5 = false ∨ ¬ fits → sets { r with base := b, log2n := bv 5 n })))
    -- a pin is kept where its base is homed on the die and the die's pins fit in 8 MiB, else its LEN is 0
    ∧ (∀ die len, die < 6 →
      let b : Word := bv 64 v &&& bitsFrom 8 49
      let u := s.setPartAt p { x with pin := put x.pin die (b, bv 16 len) }
      let fits : Prop := isOwnMem s b.toNat = true ∧ homeDie s b.toNat = die ∧ pinned u die ≤ 8 * 2 ^ 20
      Ends (.l2pinWrite p die v len) s (fun t => t.mem = s.mem
        ∧ (fits → (t.partAt p).pinOf die = (b, bv 16 len)) ∧ (¬ fits → (t.partAt p).pinOf die = (b, 0))
        ∧ (∀ d, d ≠ die → (t.partAt p).pinOf d = x.pinOf d) ∧ ∀ q, q ≠ p → t.partAt q = s.partAt q)))
  ∧ (∀ (s : State) (v : Nat),
    let w := bv 64 v
    -- CL_MRG keeps its value while partials stand; CL_TREG and HART_WRES store LEN 0 where the region would not fit
    (∀ c, c < 144 →
      let x := s.clusterAt c
      let sets (i : Instr) (y : ClusterSt) : Prop := Ends i s (fun t => t.mem = s.mem ∧ t.harts = s.harts
        ∧ t.clusterAt c = y ∧ ∀ d, d ≠ c → t.clusterAt d = s.clusterAt d)
      (x.mergeUse = 0 →
        sets (.clMrgWrite c v) { x with mrgBase := bv 15 (fieldOf w 0 15), mrgLen := bv 15 (fieldOf w 16 15) })
      ∧ (x.mergeUse ≠ 0 → sets (.clMrgWrite c v) x)
      ∧ (∀ core (hc : core < 16), sets (.clTregWrite c core v) { x with
          tregBase := x.tregBase.set core (bv 10 (fieldOf w 0 10))
          tregLen := x.tregLen.set core
            (if fieldOf w 0 10 + fieldOf w 32 11 ≤ 1024 then bv 11 (fieldOf w 32 11) else 0) }))
    ∧ (∀ h, kindOf h = .compute →
      let x := s.hartAt h
      ((∃ k, ∃ y, x.window k = some y) → (∀ k y, x.window k = some y → y.merging = false) →
        Ends (.hartWresWrite h v) s (fun t => t.mem = s.mem ∧ ∀ k, t.hartAt k = s.hartAt k))
      ∧ ((∀ k, x.window k = none) → Ends (.hartWresWrite h v) s (fun t => t.mem = s.mem
        ∧ t.hartAt h = { x with ctl := { x.ctl with
            wbase := bv 10 (fieldOf w 0 10)
            wlen := if fieldOf w 0 10 + fieldOf w 32 11 ≤ 1024 then bv 11 (fieldOf w 32 11) else 0 } }
        ∧ ∀ k, k ≠ h → t.hartAt k = s.hartAt k)))
    -- a declaration or release waits while the one before it is in progress
    ∧ (∀ die, die < 6 →
      let x := s.dieAt die
      let sets (i : Instr) (y : DieSt) : Prop := Ends i s (fun t => t.mem = s.mem ∧ t.harts = s.harts
        ∧ t.dieAt die = y ∧ ∀ d, d ≠ die → t.dieAt d = s.dieAt d)
      (x.deadBusy = none → sets (.agentDead die v) { x with deadBusy := some (v % 65536) })
      ∧ (x.deadBusy ≠ none → sets (.agentDead die v) x)
      ∧ (x.migBusy = none → sets (.migRel die v) { x with migBusy := some (v % 2 ^ 50 / 16384 * 16384) })
      ∧ (x.migBusy ≠ none → sets (.migRel die v) x))
    -- the requests for a start, and the mark of a successful one
    ∧ exec .cold s = .next { s with pkg := { s.pkg with coldReq := true } }
    ∧ exec .warmreq s = .next { s with pkg := { s.pkg with warmReq := true } }
    ∧ Ends .bootOk s (fun t => t.pkg = { s.pkg with bootOk := true, failCnt := 0 } ∧ t.mem = s.mem ∧ t.harts = s.harts
        ∧ ∀ k (h : k < t.nov.fw.size) (h' : k < s.nov.fw.size), (t.nov.fw[k]).trial = none
          ∧ ((s.nov.fw[k]).trial = none → t.nov.fw[k] = s.nov.fw[k])
          ∧ ∀ n, (s.nov.fw[k]).trial = some n → (t.nov.fw[k]).minSvn = max (s.nov.fw[k]).minSvn n)
    -- a port that retrains is in training, and its unacknowledged messages wait to be sent again
    ∧ (∀ p, p < 16 → Ends (.chrRetrain p) s (fun t => (t.chr.port p).state = 1 ∧ (t.chr.port p).txq = []
        ∧ (∀ q, q < 16 → q ≠ p → t.chr.port q = s.chr.port q)
        ∧ t.chr.held = (s.chr.port p).txq.flatMap (fun f => flitMsgs f.2) ++ s.chr.held
        ∧ t = { s with chr := t.chr }))
    -- a write of part of a register keeps its other bytes; one of a read-only register or of no register has no effect
    ∧ (∀ h k, h < 9240 → k < 8 → Ends (.registerWrite (0x3FE4000000000 + h * 64 + k) 1 v) s (fun t => t.mem = s.mem
        ∧ (∀ j < 8, fieldOf (t.hartAt h).ints.mtimecmp (8 * j) 8 =
            if j = k then v % 256 else fieldOf (s.hartAt h).ints.mtimecmp (8 * j) 8)
        ∧ ∀ g, g ≠ h → t.hartAt g = s.hartAt g))
    ∧ (∀ h, h < 9240 → Ends (.registerWrite (0x3FE4000000000 + h * 64 + 8) 8 v) s (fun t => t.mem = s.mem
        ∧ t.hartAt h = { s.hartAt h with ints := { (s.hartAt h).ints with stimecmp := w } }
        ∧ ∀ g, g ≠ h → t.hartAt g = s.hartAt g))
    ∧ (∀ p n off, p < 64 → n ≤ 8 → off ∈ [0x000, 0x008, 0x010, 0x018, 0x020, 0x028, 0x030, 0x110, 0x1B0] →
      exec (.registerWrite (0x3FF0000000000 + p * 4096 + off) n v) s = .next s)
    ∧ (∀ a n, a < 0x3F00000000000 → exec (.registerWrite a n v) s = .next s))

/-- Waking (R150), pre-emption and restore (R361-R365). -/
def Obligations.Contexts : Prop :=
  ∀ (s : State) (h : Nat), Memory.wf s.mem →
    let x := s.hartAt h
    let base := x.ctl.saveBase.toNat
    let sets (i : Instr) (y : Hart) : Prop := Ends i s (fun t => t.mem = s.mem ∧ t.hartAt h = y
      ∧ ∀ k, k ≠ h → t.hartAt k = s.hartAt k)
    -- a woken hart resumes at RPC in MODE; with PCAUSE 3 only after a restore ended OK, with PCAUSE 4 never
    let wakes : Prop := x.ctl.parked = true ∧ isDead s h = false
      ∧ (x.ctl.pcause = 0 ∨ x.ctl.pcause = 1 ∨ x.ctl.pcause = 2 ∨ (x.ctl.pcause = 3 ∧ x.ctl.recordOk = true))
    (kindOf h = .compute →
      (wakes → sets (.hartCtlWake h) { x with
          pc := x.ctl.rpc
          priv := x.ctl.mode
          ctl := { x.ctl with parked := false }
          run := { x.run with pfxOwn := false } })
      ∧ (¬ wakes → exec (.hartCtlWake h) s = .next s))
    ∧ (kindOf h = .system →
      (x.ctl.parked = true ∧ isDead s h = false →
        sets (.scCtlWake h) { x with
          pc := x.ctl.rpc
          priv := .m
          ctl := { x.ctl with parked := false }
          run := { x.run with pfxOwn := false } })
      ∧ (¬ (x.ctl.parked = true ∧ isDead s h = false) → exec (.scCtlWake h) s = .next s))
    -- the requests
    ∧ (kindOf h = .compute →
      ((s.clusterAt (clusterOf h)).clkOff = false → sets (.preempt h) { x with ctl := { x.ctl with preempt := true } })
      ∧ ((s.clusterAt (clusterOf h)).clkOff = true → sets (.preempt h) { x with ctl := { x.ctl with serr := true } })
      ∧ (let accepted : Prop := x.ctl.parked = true ∧ isDead s h = false ∧ (x.ctl.pcause = 0 ∨ x.ctl.pcause = 3)
            ∧ x.ctl.preempt = false ∧ (s.clusterAt (clusterOf h)).clkOff = false ∧ (x.ctl.done = true ∨ x.ctl.rst ≠ 0)
        (accepted → sets (.restore h) { x with ctl := { x.ctl with restore := true } })
        ∧ (¬ accepted → exec (.restore h) s = .next s)))
    -- a hart that is to be pre-empted halts where it is, and its record is written at BASE
    ∧ (kindOf h = .compute → x.ctl.preempt = true → holdsHalt s h = false → passWaits s h = false
        → (∀ d ∈ (s.dieAt (dieOf h)).deliveries, d.hart ≠ h) → HomesIdle s → recordBusy s h = false → x.liveLeases = 0 →
      (x.ctl.parked = true ∧ x.ctl.saving = false ∨ (x.ctl.parked = false ∧ x.ctl.asks = false ∧ x.uiDue = none)) →
      let pc := if x.ctl.parked then x.ctl.rpc else x.pc
      let mode := if x.ctl.parked then x.ctl.mode else x.priv
      let len := 0xA800 + (x.declared.map Window.size).foldl (fun n k => n + 16 * k) 0 + 1088 * x.grantTiles + 4224
      len < 2 ^ 32 → farParts s base len = [] →
      (spanOwned s (partOf s h) base len = true → Ends (.preemptHalt h 0) s (fun t =>
        let y := t.hartAt h
        y.ctl.parked = true ∧ y.ctl.pcause = 3 ∧ y.ctl.rpc = pc ∧ y.ctl.done = true ∧ y.ctl.serr = false
          ∧ y.ctl.preempt = false ∧ y.ctl.saving = false ∧ y.ctl.wlen = 0 ∧ y.dev.grant = 0 ∧ (∀ k, y.window k = none)
          ∧ (∀ k, y.stream k = none) ∧ y.x = x.x ∧ y.f = x.f ∧ y.vec = x.vec
          ∧ fieldOf (read8 t.mem base) 32 32 = len ∧ Priv.ofCode (fieldOf (read8 t.mem base) 9 2) = mode
          ∧ read8 t.mem (base + 0x10) = pc
          ∧ (∀ i, (hi : i < 32) → 0 < i → read8 t.mem (base + 0x10 + 8 * i) = x.x[i])
          ∧ (∀ i, (hi : i < 32) → read8 t.mem (base + 0x110 + 8 * i) = x.f[i])
          ∧ read8 t.mem (base + 0x210) = x.fcsr.setWidth 64
          ∧ read8 t.mem (base + 0x218) = x.vec.vl.setWidth 64 ∧ read8 t.mem (base + 0x220) = x.vec.vtype
          ∧ read8 t.mem (base + 0x228) = x.vec.velem.setWidth 64 ∧ read8 t.mem (base + 0x230) = x.vec.vpfx.setWidth 64
          ∧ read8 t.mem (base + 0x248) = x.dev.task ∧ read8 t.mem (base + 0x250) = x.dev.chan
          ∧ (∀ r, (hr : r < 32) → ∀ j < 1024, readByte t.mem (base + 0x800 + 1024 * r + j) = x.vec.v[r].extractLsb' (8 * j) 8)
          ∧ (∀ r, (hr : r < 8) → ∀ j < 1024, readByte t.mem (base + 0x8800 + 1024 * r + j) = x.vec.m[r].extractLsb' (8 * j) 8)
          ∧ ∀ a, a < base ∨ base + len ≤ a → readByte t.mem a = readByte s.mem a))
      ∧ (spanOwned s (partOf s h) base len = false → Ends (.preemptHalt h 0) s (fun t => t.mem = s.mem
          ∧ (t.hartAt h).ctl.parked = true ∧ (t.hartAt h).ctl.pcause = 3 ∧ (t.hartAt h).ctl.rpc = pc
          ∧ (t.hartAt h).ctl.serr = true ∧ (t.hartAt h).ctl.done = false ∧ (t.hartAt h).ctl.preempt = false)))
    -- a hart halted by the end of the grace or by a forced quiesce parks with PCAUSE 4 and no record
    ∧ (kindOf h = .compute → x.ctl.preempt = false → x.ctl.shedDue = true → x.ctl.parked = false → x.ctl.asks = false →
        holdsHalt s h = false → passWaits s h = false → x.liveLeases = 0 → x.uiDue = none →
        quiesceHolds s (clusterOf h) = true ∨ isShed s x = true →
      Ends (.preemptHalt h 0) s (fun t => t.mem = s.mem ∧ (t.hartAt h).ctl.parked = true ∧ (t.hartAt h).ctl.pcause = 4
        ∧ (t.hartAt h).ctl.rpc = x.pc ∧ (t.hartAt h).ctl.mode = x.priv ∧ (t.hartAt h).ctl.shedDue = false
        ∧ (t.hartAt h).x = x.x ∧ (t.hartAt h).vec = x.vec))
    -- a restore ends OK with the record's registers, BUSY without tiles, or BAD
    ∧ (x.ctl.restore = true → x.ctl.parked = true → s.coh.migs = [] → farParts s base 0x40000 = [] →
      let free (i : Nat) : Nat := Config.freeNat (s.fresh + i)
      let placing := placeWindows x.dropWindows (keptOf s h) (recordWord s h) free [0, 1, 2, 3]
      let ends (rst : BitVec 2) : Prop :=
        sets (.restoreComplete h) { x with ctl := { x.ctl with restore := false, rst := rst } }
      (recordValid s h = false ∨ placing = none → ends 3)
      ∧ (recordValid s h = true → placing ≠ none → recordRun s h = none → ends 2)
      ∧ (recordValid s h = true → placing ≠ none → recordRun s h ≠ none → Ends (.restoreComplete h) s (fun t =>
        let y := t.hartAt h
        y.ctl.rst = 1 ∧ y.ctl.restore = false ∧ y.ctl.recordOk = true ∧ y.ctl.parked = true
          ∧ y.ctl.rpc = recordWord s h 0x10
          ∧ y.ctl.mode = Priv.ofCode (fieldOf (recordWord s h 0) 9 2)
          ∧ (∀ i, (hi : i < 32) → 0 < i → y.x[i] = recordWord s h (0x10 + 8 * i)) ∧ y.x[0] = 0
          ∧ (∀ i, (hi : i < 32) → y.f[i] = recordWord s h (0x110 + 8 * i))
          ∧ y.fcsr = (recordWord s h 0x210).setWidth 8 ∧ y.vec.velem = (recordWord s h 0x228).setWidth 14
          ∧ (∀ r, (hr : r < 32) → y.vec.v[r] = bv 8192 (physNat s (base + 0x800 + 1024 * r) 1024))
          ∧ (∀ r, (hr : r < 8) → y.vec.m[r] = bv 8192 (physNat s (base + 0x8800 + 1024 * r) 1024))
          ∧ y.dev.task = recordWord s h 0x248
          ∧ ∀ k, k ≠ h → SeesStore (s.hartAt k) (t.hartAt k))))

/-- Messages at their home (R278-R282, R193, R355). -/
def Obligations.HomeMessages : Prop :=
  ∀ (s : State) (n : Nat) (m : Msg), Memory.wf s.mem →
    let rest := restNet s n
    let reply (kind : MsgKind) : Msg := { m with kind := kind, src := homeNo s m.addr, inc := 0, dst := m.src }
    let data : Msg := { reply .data with data := readBytes s.mem m.len m.addr }
    let wack (ret : Nat) : Msg := { reply .wack with data := toBytes 8 ret }
    let fresh (k : MsgKind) : Prop := MayArrive s n m ∧ m.kind = k ∧ m.inc = incOf s m.src
    let lo := m.addr % 256 / 8
    let hi := (m.addr % 256 + m.len - 1) / 8
    -- a message of another incarnation is dropped and counted
    (∀ i k, (i, k) ∈ [(Instr.homeGets n, MsgKind.getS), (.homeRd n, .rd), (.homeWr n, .wr), (.homeAmo n, .amo),
        (.homeUack n, .uack), (.homeInvack n, .invack), (.homeLreq n, .lreq), (.homeLend n, .lend),
        (.homeEvict m.src m.addr n, .evict)] →
      MayArrive s n m → m.kind = k → m.inc ≠ incOf s m.src →
      Ends i s (fun t => t.mem = s.mem ∧ t.harts = s.harts ∧ t.coh = { s.coh with net := rest }
        ∧ (t.dieAt (homeDie s m.addr)).stale = satInc (s.dieAt (homeDie s m.addr)).stale))
    -- one for a region that a migration has not copied, or to a committing word, waits
    ∧ (∀ i k, (i, k) ∈ [(Instr.homeGets n, MsgKind.getS), (.homeRd n, .rd), (.homeWr n, .wr), (.homeAmo n, .amo),
        (.homeLreq n, .lreq)] → fresh k →
      forward s m.addr = none ∨ (forward s m.addr = some m.addr ∧ committing s m.addr m.len = true) → exec i s = .next s)
    -- a sharer's request is recorded and answered; a read is only answered
    ∧ (Served s n m → m.kind = .getS → EndsCoh (.homeGets n) s { s.coh with
        net := rest ++ [data]
        dir := (setDir s (regionNo m.addr) (some (addSharer (dirOf s (regionNo m.addr)) m.src lo hi))).coh.dir })
    ∧ (Served s n m → m.kind = .rd → EndsCoh (.homeRd n) s { s.coh with net := rest ++ [data] })
    -- a store or atomic is queued behind another agent's lease, and behind what waits there, unless its hart holds the lease
    ∧ (∀ i k, (i, k) ∈ [(Instr.homeWr n, MsgKind.wr), (.homeAmo n, .amo)] → Served s n m → m.kind = k →
      leaseBlocks s m.writer m.addr m.len = true
        ∨ (holdsLease s m = false ∧ ∃ q ∈ s.coh.queued, overlap q.addr q.len m.addr m.len = true) →
      EndsCoh i s { s.coh with net := rest, queued := s.coh.queued ++ [m] })
    -- else it is performed: at once without other sharers, or after updates to them
    ∧ (Served s n m → m.kind = .wr → homeBlocks s m = false → m.op = none → m.data ≠ [] → m.slot < 2 → s.stepwise = true →
      let ys := sharersOf s m.src m.addr m.data.length
      (ys = [] → Ends (.homeWr n) s (fun t => t.coh.net = rest ++ [wack 0]
          ∧ (∀ b, readByte t.mem b = if m.addr ≤ b ∧ b < m.addr + m.data.length then (m.data[b - m.addr]?).getD 0
              else readByte s.mem b)
          ∧ ∀ k, SeesStore (s.hartAt k) (t.hartAt k)))
      ∧ (ys ≠ [] → EndsCoh (.homeWr n) s { s.coh with
          net := rest ++ ys.map (fun y => { m with kind := .upd, src := homeNo s m.addr, inc := 0, dst := y })
          commits := s.coh.commits ++ [{ msg := m, old := 0, updated := ys, awaits := ys, since := s.cc, told := [] }] }))
    ∧ (∀ o, Served s n m → m.kind = .amo → homeBlocks s m = false → m.op = some (.amo o) → m.slot < 2 → s.stepwise = true →
      m.len = 4 ∨ m.len = 8 → m.data.length = m.len → sharersOf s m.src m.addr m.len = [] →
      let old := readNat s.mem m.addr m.len
      Ends (.homeAmo n) s (fun t => t.coh.net = rest ++ [wack old]
        ∧ Stored s t m.addr m.len (amoResult o (8 * m.len) old (ofBytes m.data))))
    -- an SC writes only under its hart's reservation
    ∧ (Served s n m → m.kind = .amo → homeBlocks s m = false → m.op = some .sc → m.slot < 2 → s.stepwise = true →
      m.data ≠ [] → sharersOf s m.src m.addr m.data.length = [] →
      Ends (.homeAmo n) s (fun t =>
        (reserved s m.hart m.addr = true → t.coh.net = rest ++ [wack 0]
          ∧ ∀ b, readByte t.mem b = if m.addr ≤ b ∧ b < m.addr + m.data.length then (m.data[b - m.addr]?).getD 0
              else readByte s.mem b)
        ∧ (reserved s m.hart m.addr = false → t.coh.net = rest ++ [wack 1] ∧ t.mem = s.mem ∧ t.harts = s.harts)))
    -- the last acknowledgement commits the store
    ∧ (∀ c, fresh .uack → s.coh.commits = [c] → s.coh.queued = [] → c.awaits ≠ [] → c.msg.slot < 2 → s.stepwise = true →
      overlap c.msg.addr c.msg.len m.addr m.len = true →
      let left := c.awaits.filter (fun y => y != m.src)
      let told (kind : MsgKind) (y : Nat) : Msg := { c.msg with kind := kind, src := homeNo s c.msg.addr, inc := 0, dst := y }
      (left ≠ [] → EndsCoh (.homeUack n) s { s.coh with net := rest, commits := [{ c with awaits := left }] })
      ∧ (left = [] → Ends (.homeUack n) s (fun t => t.coh.commits = []
          ∧ t.coh.net = rest ++ c.updated.map (told .cmt)
              ++ [{ told .wack c.msg.src with data := toBytes 8 c.old.toNat }]
          ∧ ∀ b, readByte t.mem b =
              if c.msg.addr ≤ b ∧ b < c.msg.addr + c.msg.data.length then (c.msg.data[b - c.msg.addr]?).getD 0
              else readByte s.mem b)))
    -- leases: granted with the span's words, of which a compute hart's core is a sharer, or queued behind another agent's
    ∧ (Served s n m → m.kind = .lreq →
      (leaseConflict s m.hart m.addr m.len = false → EndsCoh (.homeLreq n) s { s.coh with
          net := rest ++ [{ reply .lgrant with data := readBytes s.mem m.len m.addr }]
          leases := s.coh.leases ++ [{ hart := m.hart, slot := m.slot, pa := m.addr, len := m.len }]
          dir := if isMilliner m.hart then s.coh.dir
            else (setDir s (regionNo m.addr) (some (addSharer (dirOf s (regionNo m.addr)) m.src lo hi))).coh.dir })
      ∧ (leaseConflict s m.hart m.addr m.len = true →
          EndsCoh (.homeLreq n) s { s.coh with net := rest, queued := s.coh.queued ++ [m] }))
    -- an end frees the span
    ∧ (fresh .lend → s.coh.queued = [] → EndsCoh (.homeLend n) s { s.coh with
        net := rest
        leases := s.coh.leases.filter (fun l => !(l.hart == m.hart && l.slot == m.slot)) })
    -- the last acknowledgement of a displacement frees the entry
    ∧ (∀ e, fresh .invack → s.coh.evicting = [e] → s.coh.queued = [] → e.region = regionNo m.addr → e.awaits ≠ [] →
      let left := e.awaits.filter (fun y => y != m.src)
      (left ≠ [] → EndsCoh (.homeInvack n) s { s.coh with net := rest, evicting := [{ e with awaits := left }] })
      ∧ (left = [] → EndsCoh (.homeInvack n) s { s.coh with
          net := rest
          evicting := []
          dir := s.coh.dir.filter (fun p => p.1 != e.region) }))
    -- a sharer's notice of a whole region, or of some of its words
    ∧ (∀ rs, fresh .evict → dirOf s (regionNo m.addr) = some (.p rs) → m.addr % 8 = 0 → m.len % 8 = 0 → 0 < m.len →
      m.addr % 256 + m.len ≤ 256 → (∀ q ∈ rs, q.2.1 ≤ q.2.2 ∧ q.2.2 < 32) →
      Ends (.homeEvict m.src m.addr n) s (fun t => t.mem = s.mem ∧ t.harts = s.harts ∧ t.coh.net = rest
        ∧ t.coh.copies = s.coh.copies ∧ (∀ k, k ≠ regionNo m.addr → dirOf t k = dirOf s k)
        ∧ (m.len = 256 → dirOf t (regionNo m.addr) =
            if ∀ q ∈ rs, q.1 = m.src then none else some (.p (rs.filter (fun q => q.1 != m.src))))
        ∧ (∀ q ∈ rs, ∀ w < 32, q.2.1 ≤ w ∧ w ≤ q.2.2 → ¬(q.1 = m.src ∧ lo ≤ w ∧ w ≤ hi) →
            ∃ ls, dirOf t (regionNo m.addr) = some (.p ls) ∧ ∃ p ∈ ls, p.1 = q.1 ∧ p.2.1 ≤ w ∧ w ≤ p.2.2)))

/-- Messages at sharers, writers and harts (R278-R282), the ring link (R233), silent and dead agents (R354, R355). -/
def Obligations.SharerMessages : Prop :=
  ∀ (s : State) (n : Nat), Memory.wf s.mem →
    (∀ m, MayArrive s n m →
      let rest := restNet s n
      let back (kind : MsgKind) : Msg :=
        { m with kind := kind, src := m.dst, inc := incOf s m.dst, dst := m.src, data := [] }
      let word (a : Nat) : Word := bv 64 (ofBytes ((m.data.drop (a - m.addr)).take 8))
      -- an update marks the copies it covers, and is acknowledged
      (m.kind = .upd → m.dst ∉ s.coh.dead →
        EndsCoh (.sharerUpd n) s { s.coh with
          net := rest ++ [back .uack]
          copies := s.coh.copies.map (fun c =>
            if c.agent = m.dst ∧ touches m.addr m.data.length c.word = true then { c with held := c.held ++ [m.pend] }
            else c) })
      -- a commit, and the writer's acknowledgement of a store, put the store's bytes into the copies it marks
      ∧ (∀ i k, (i, k) ∈ [(Instr.sharerCmt n, MsgKind.cmt), (.writerWack n, .wack)] → m.kind = k →
        (k = .wack → m.atomic = false) →
        ∃ g : Copy → Copy, EndsCoh i s { s.coh with net := rest, copies := s.coh.copies.map g }
        ∧ ∀ c, ((c.agent ≠ m.dst ∨ ∀ p ∈ c.held, p.id ≠ m.id) → g c = c)
          ∧ (∀ p, c.agent = m.dst → c.held.find? (fun p => p.id == m.id) = some p →
              (g c).agent = c.agent ∧ (g c).word = c.word ∧ (g c).held = c.held.filter (fun q => q.id != m.id)
              ∧ ∀ j < 8, fieldOf (g c).val (8 * j) 8 =
                  if p.addr ≤ c.word + j ∧ c.word + j < p.addr + p.data.length then
                    ((p.data[c.word + j - p.addr]?).getD 0).toNat
                  else fieldOf c.val (8 * j) 8))
      -- an atomic's hart has its answer, and its core has no copy of the words
      ∧ (m.kind = .wack → m.atomic = true → Ends (.writerWack n) s (fun t => t.mem = s.mem ∧ t.coh.net = rest
        ∧ (isMilliner m.hart = false → t.harts = s.harts)
        ∧ t.coh.copies = s.coh.copies.filter (fun c => !(c.agent == m.dst && touches m.addr m.len c.word))
        ∧ ∀ r ∈ t.coh.remote, r.hart = m.hart → r.kind = 100 → r.answer = some (ofBytes m.data)))
      -- Data is held at the requester
      ∧ (m.kind = .data → m.dst ∉ s.coh.dead → Ends (.requesterData n) s (fun t => t.mem = s.mem ∧ t.harts = s.harts
        ∧ ∀ w ∈ wordsOf m.addr m.data.length, ∃ c ∈ t.coh.copies, c.agent = m.dst ∧ c.instr = (m.slot == 3) ∧ c.word = w
            ∧ c.val = word w ∧ c.held = pendsOf s m.dst w))
      -- an invalidate drops the region
      ∧ (m.kind = .inv → m.dst ∉ s.coh.dead → EndsCoh (.sharerInv n) s { s.coh with
          net := rest ++ [back .invack]
          copies := s.coh.copies.filter (fun c => !(c.agent == m.dst && c.word / 256 == m.addr / 256)) })
      -- a lease starts where its hart waits for it, and ends where none does; a compute hart's core takes its words
      ∧ (m.kind = .lgrant →
        let u : State := { s with cur := m.hart, coh := { s.coh with net := rest } }
        let copies : List Copy := if isMilliner m.hart then s.coh.copies
          else installCopies s m.dst false m.addr m.data s.coh.copies
        (awaitedLease m u = none → EndsCoh (.hartLgrant n) s { s.coh with
          net := rest ++
            [{ m with kind := .lend, src := agentNo m.hart, inc := incOf s (agentNo m.hart), dst := m.src, data := [] }]
          copies := copies })
        ∧ (awaitedLease m u ≠ none → NoPrefix u → m.slot < 2 → Ends (.hartLgrant n) s (fun t => t.mem = s.mem
            ∧ t.coh.net = rest ∧ t.coh.copies = copies ∧ t.cur = s.cur
            ∧ (t.hartAt m.hart).pc = (s.hartAt m.hart).pc + 4
            ∧ (t.hartAt m.hart).run.leases[m.slot]? = some (some
                { base := m.base, pa := m.addr, words := m.len / 8, ends := s.ccOf m.hart + m.n + 1
                  buf := if isMilliner m.hart then m.data else [] })
            ∧ ∀ k, k ≠ m.hart → t.hartAt k = s.hartAt k))))
    -- the link of a core delivers its buffer once the next core's is empty
    ∧ (∀ c x, c < 2304 → (s.coreAt c).link = some x → (s.coreAt c).passing = [] →
      let who := 4 * nextCore c + x.slot
      ((s.hartAt who).bbuf x.buf).loaded = false → Ends (.ringDelivery c) s (fun t => t.mem = s.mem
        ∧ t.coreAt c = { s.coreAt c with link := none }
        ∧ (t.hartAt who).bbuf x.buf = { loaded := true, fmt := x.fmt, data := x.data }
        ∧ ∀ k, k ≠ who → t.hartAt k = s.hartAt k))
    -- a home that has waited 65,536 cc for an agent reports it once
    ∧ (∀ a c, s.coh.commits = [c] → s.coh.evicting = [] → a ∈ c.awaits →
      let p := ownerOf s c.msg.addr
      (a ∉ c.told → c.since + 65536 ≤ s.cc → RingOpen s p → Ends (.unresponsiveAgentTimeout a) s (fun t =>
        Recorded s t p 6 0 (0xFFFFFFF8 + homeDie s c.msg.addr) 0 (bv 64 a) (bv 64 (c.msg.addr / 256 * 256))
        ∧ t.coh.commits = [{ c with told := a :: c.told }]))
      ∧ (a ∈ c.told ∨ s.cc < c.since + 65536 → exec (.unresponsiveAgentTimeout a) s = .next s))
    -- a declaration that completes: the agent is dead, its incarnation advances, its copies are gone
    ∧ (∀ die a, (s.dieAt die).deadBusy = some a → s.coh.leases = [] → s.coh.queued = [] → s.coh.commits = [] →
        s.coh.evicting = [] →
      ((∃ q ∈ s.coh.deadAt, q.1 = a ∧ s.ticks < q.2 + 100000) → exec (.agentDeadComplete die) s = .next s)
      ∧ ((∀ q ∈ s.coh.deadAt, q.1 = a → q.2 + 100000 ≤ s.ticks) →
        Ends (.agentDeadComplete die) s (fun t => t.mem = s.mem ∧ (t.dieAt die).deadBusy = none
          ∧ incOf t a = incOf s a + 1 ∧ a ∈ t.coh.dead
          ∧ t.coh.copies = s.coh.copies.filter (fun c => c.agent != a)
          ∧ (∀ r rs, dirOf t r = some (.p rs) → ∀ q ∈ rs, q.1 ≠ a)
          ∧ ∀ h, agentNo h = a → h < agentCount → t.hartAt h = .init h)))
    -- forwarding ends for the released page of the die
    ∧ (∀ die a, (s.dieAt die).migBusy = some a → homeDie s a = die →
      Ends (.migRelComplete die) s (fun t => t.mem = s.mem ∧ t.harts = s.harts ∧ (t.dieAt die).migBusy = none
        ∧ t.coh = { s.coh with migs := s.coh.migs.filter (fun g => g.old != a) }))

/-- Requests of other modules (R390-R396) and through the root port (R407-R409, R419). -/
def Obligations.ForeignRequests : Prop :=
  (∀ (s : State) (n p : Nat) (m : FabMsg), Memory.wf s.mem → LeavesBy s m p → m.op < 16 →
    let requests := [(Instr.chrRd n, 1), (.chrWr n, 2), (.chrAmo n, 3), (.chrLr n, 4), (.chrSc n, 5)]
    -- a request for bytes that no partition shares with the requester is answered without data
    (∀ i op, (i, op) ∈ requests → Received s op n m → acceptedBy s m = none →
      Ends i s (fun t => t.mem = s.mem ∧ t.harts = s.harts ∧ Responded s t n p (m.response s 0x10 m.addr [])))
    -- one whose region a migration has not copied, or whose bytes a store commits, waits
    ∧ (∀ i op, (i, op) ∈ requests → Received s op n m → acceptedBy s m ≠ none →
      (forward s m.addr = none ∨ ∃ a, forward s m.addr = some a ∧ committing s a m.len = true) → exec i s = .next s)
    -- a write that other agents of the package share goes to them as updates, and is answered when it commits
    ∧ (∀ a, Accepted s m a → Received s 2 n m → s.coh.leases = [] → s.stepwise = true → s.coh.migs = [] →
      let ys := sharersOf s (farSender m.mod) a m.data.length
      ys ≠ [] → m.data ≠ [] → Ends (.chrWr n) s (fun t => t.mem = s.mem ∧ t.harts = s.harts ∧ t.chr.outbox = s.chr.outbox
        ∧ t.coh.net.map Msg.dst = s.coh.net.map Msg.dst ++ ys
        ∧ ∃ c, t.coh.commits = s.coh.commits ++ [c] ∧ c.awaits = ys ∧ c.msg.addr = a ∧ c.msg.data = m.data))
    -- reads, writes, atomics
    ∧ (∀ a, Accepted s m a →
      (Received s 1 n m → Ends (.chrRd n) s (fun t => t.mem = s.mem
        ∧ Responded s t n p (m.response s 0x10 a (readBytes s.mem m.len a))))
      ∧ (Received s 4 n m → Ends (.chrLr n) s (fun t => t.mem = s.mem ∧ (m.mod, a / 8 * 8) ∈ t.coh.farResv
        ∧ Responded s t n p (m.response s 0x10 a (readBytes s.mem m.len a))))
      ∧ (s.coh.leases = [] → m.data.length = m.len → (s.stepwise = true → sharersOf s (farSender m.mod) a m.len = []) →
        (Received s 2 n m → Ends (.chrWr n) s (fun t => Responded s t n p (m.response s 0x11 a [])
          ∧ Filled s t a m.len (fun j => (m.data[j]?).getD 0) ∧ ∀ k, SeesStore (s.hartAt k) (t.hartAt k)))
        ∧ (Received s 5 n m →
          ((m.mod, a / 8 * 8) ∈ s.coh.farResv → Ends (.chrSc n) s (fun t =>
            Responded s t n p (m.response s 0x12 a (toBytes m.len 0))
            ∧ Filled s t a m.len (fun j => (m.data[j]?).getD 0) ∧ (m.mod, a / 8 * 8) ∉ t.coh.farResv))
          ∧ ((m.mod, a / 8 * 8) ∉ s.coh.farResv → Ends (.chrSc n) s (fun t => t.mem = s.mem
            ∧ Responded s t n p (m.response s 0x12 a (toBytes m.len 1)))))
        ∧ (Received s 3 n m → ∀ o w, farAmo m.sub = some (o, w) → m.len = w → a % w = 0 →
          (∀ q, (s.partAt q).dom.en = false) →
          let old := readNat s.mem a w
          Ends (.chrAmo n) s (fun t => Responded s t n p (m.response s 0x12 a (toBytes w old))
            ∧ Stored s t a w (amoResult o (8 * w) old (ofBytes m.data)))))))
  ∧ (∀ (s : State) (rid a : Nat), Memory.wf s.mem → NoneWaits s rid →
    -- an inbound write to memory is performed, and a read answers its bytes
    (∀ data : List Byte, RootReaches s rid a data.length → Ends (.pcieInboundWrite rid a data) s (fun t =>
      t.pcie = s.pcie ∧ Filled s t a data.length (fun j => (data[j]?).getD 0)
        ∧ ∀ k, SeesStore (s.hartAt k) (t.hartAt k)))
    ∧ (∀ n tag, RootReaches s rid a n → writesOut s rid = false → Ends (.pcieInboundRead rid a n tag) s (fun t =>
      t.mem = s.mem ∧ t.harts = s.harts
        ∧ t.pcie = { s.pcie with cpl := s.pcie.cpl ++ [(tag, some ((List.range n).map (fun j => readByte s.mem (a + j))))] }))
    -- an MSI makes an identity pending in an interrupt file of the requester's partition
    ∧ (∀ h id, s.pcie.en = true → entryOk s rid = true → bitOf (rootEntry s rid).1 62 = true → writesOut s rid = false →
      h < 9240 → partOf s h = entryPart s rid → 0 < id → id < (if kindOf h = .system then 256 else 64) →
      Ends (.pcieMsi rid (0x3FD8000000000 + h * 0x2000) id) s (fun t => t.mem = s.mem
        ∧ (t.hartAt h).ints.mfile = { (s.hartAt h).ints.mfile with eip := setBit (s.hartAt h).ints.mfile.eip id true }
        ∧ (t.hartAt h).ints.sfile = (s.hartAt h).ints.sfile)
      ∧ Ends (.pcieMsi rid (0x3FD8000000000 + h * 0x2000 + 0x1000) id) s (fun t => t.mem = s.mem
        ∧ (t.hartAt h).ints.sfile = { (s.hartAt h).ints.sfile with eip := setBit (s.hartAt h).ints.sfile.eip id true }
        ∧ (t.hartAt h).ints.mfile = (s.hartAt h).ints.mfile))
    -- reads and MSIs wait for the requester's earlier writes
    ∧ (∀ n tag, writesOut s rid = true →
      Waits (.pcieInboundRead rid a n tag) s { rid := rid, kind := 1, addr := a, data := [], len := n, tag := tag }
      ∧ Waits (.pcieMsi rid a n) s { rid := rid, kind := 2, addr := a, data := toBytes 4 n, len := 4, tag := 0 })
    -- a refused request is recorded: a write is dropped, a read completes as Unsupported Request
    ∧ (s.pcie.en = false ∨ entryOk s rid = false → RingOpen s (entryPart s rid) →
      (∀ data, Ends (.pcieInboundWrite rid a data) s (fun t => t.pcie = s.pcie
        ∧ Recorded s t (entryPart s rid) 8 (rid % 65536) 0xFFFFFFF8 0 (bv 64 a) 7))
      ∧ (∀ n tag, writesOut s rid = false → Ends (.pcieInboundRead rid a n tag) s (fun t =>
        t.pcie = { s.pcie with cpl := s.pcie.cpl ++ [(tag, none)] }
        ∧ Recorded s t (entryPart s rid) 8 (rid % 65536) 0xFFFFFFF8 0 (bv 64 a) 5)))
    -- a completion answers the agent's outbound read
    ∧ (∀ who v r, s.pcie.reads = [r] → r.who = who → r.answer = none →
      exec (.pcieCompletion who v) s = .next { s with pcie := { s.pcie with reads := [{ r with answer := some (bv 64 v) }] } }))

/-- Responses and flits of a hop (R389-R394). -/
def Obligations.FabricLinks : Prop :=
  ∀ (s : State) (n : Nat), Memory.wf s.mem →
    -- a response is given to the request with its tag
    (∀ op m r, Received s op n m → askedBy s m = some r →
      let rest : Chrodon := { s.chr with inbox := s.chr.inbox.eraseIdx n }
      let all (t : State) (p : Remote → Prop) : Prop := ∀ q ∈ t.coh.remote, q.tag = r.tag → q.kind ≠ 100 → p q
      let after (t : State) : Prop := t.mem = s.mem ∧ t.harts = s.harts ∧ t.chr = rest
      (op = 0x10 → r.kind = 1 ∨ r.kind = 4 → m.data.length = r.len →
        Ends (.chrData n) s (fun t => after t ∧ all t (fun q => q.answer = some (ofBytes m.data))))
      ∧ (op = 0x10 → r.kind = 1 ∨ r.kind = 4 → m.data.length ≠ r.len →
        Ends (.chrData n) s (fun t => after t ∧ all t (fun q => q.failed = true)))
      ∧ (op = 0x11 → r.kind = 2 → Ends (.chrWack n) s (fun t => after t
        ∧ t.coh.remote = s.coh.remote.filter (fun q => q.tag != r.tag)))
      ∧ (op = 0x12 → r.kind = 3 ∨ r.kind = 5 →
        Ends (.chrAmoresp n) s (fun t => after t ∧ all t (fun q => q.answer = some (ofBytes m.data)))))
    ∧ (∀ m i op, (i, op) ∈ [(Instr.chrData n, 0x10), (.chrWack n, 0x11), (.chrAmoresp n, 0x12)] →
      Received s op n m → askedBy s m = none →
      exec i s = .next { s with chr := { s.chr with inbox := s.chr.inbox.eraseIdx n } })
    -- a request without a response for 1 ms is abandoned, and recorded
    ∧ (∀ r, s.coh.remote.find? (fun r => r.tag == n && r.late s.ticks) = some r → RingOpen s r.part →
      Ends (.remoteRequestAbandon n) s (fun t => Recorded s t r.part 7 (r.addr / 2 ^ 40 % 64) (requesterNo r) 0 (bv 64 r.addr) 0
        ∧ (r.kind = 2 → ∀ q ∈ t.coh.remote, q.tag ≠ n)
        ∧ (r.kind ≠ 2 → ∀ q ∈ t.coh.remote, q.tag = n → q.kind ≠ 100 → q.failed = true)))
    ∧ (s.coh.remote.find? (fun r => r.tag == n && r.late s.ticks) = none → exec (.remoteRequestAbandon n) s = .next s)
    -- a held message goes out once a port takes it
    ∧ (∀ m, s.chr.held = [m] →
      (exitPort s m = none → exec .routeChangeRelease s = .next s)
      ∧ (∀ p, exitPort s m = some p → p < 16 → Ends .routeChangeRelease s (fun t => t.mem = s.mem ∧ t.chr.held = []
        ∧ t.chr.outbox.length = s.chr.outbox.length + 1 ∧ (t.chr.port p).txSeq = (s.chr.port p).txSeq + 1)))
    -- a port that has trained is up or down
    ∧ (∀ p good, p < 16 → (s.chr.port p).state = 1 → Ends (.chrRetrainDone p good) s (fun t =>
        t = { s with chr := t.chr } ∧ (t.chr.port p).state = (if good then 2 else 0)
        ∧ ∀ q, q < 16 → q ≠ p → t.chr.port q = s.chr.port q))
    -- flits: a port that is not up takes none; an uncorrectable or damaged one asks for a replay; the expected one
    -- delivers its messages and is answered by an idle flit that returns its buffer; one whose TYPE is reserved is counted
    ∧ (∀ p fixed lost f, (s.chr.port p).state ≠ 2 → exec (.chrFlitReceive p fixed lost f) s = .next s)
    ∧ (∀ p fixed lost f, p < 16 → (s.chr.port p).state = 2 → (s.chr.port p).replays < 15 → lost = true ∨ flitOk f = false →
      Ends (.chrFlitReceive p fixed lost f) s (fun t => t = { s with chr := t.chr }
        ∧ t.chr.inbox = s.chr.inbox ∧ t.chr.outbox.length = s.chr.outbox.length + 1
        ∧ (t.chr.port p).rtry = satInc (s.chr.port p).rtry ∧ (t.chr.port p).rxSeq = (s.chr.port p).rxSeq
        ∧ (t.chr.port p).unc = (if lost then satInc (s.chr.port p).unc else (s.chr.port p).unc)
        ∧ (t.chr.port p).replays = (s.chr.port p).replays + 1 ∧ (t.chr.port p).wantReplay = true))
    ∧ (∀ p fixed f, p < 16 → (s.chr.port p).state = 2 → (s.chr.port p).replays = 15 → flitOk f = false →
      Ends (.chrFlitReceive p fixed false f) s (fun t => (t.chr.port p).state = 1 ∧ (t.chr.port p).txq = []))
    ∧ (∀ p fixed f, p < 16 → (s.chr.port p).state = 2 → flitOk f = true → (s.chr.port p).resent < 16 →
      let h := flitHead (bv 64 (ofBytes (f.take 8)))
      let y := s.chr.port p
      h.replay = false → h.ackV = false →
      (∀ l, h.type = 1 ∨ h.type = 2 → bv 12 h.seq = y.rxSeq + 1 →
        parseMsgs h.srcMod h.srcPart h.nmsg ((f.drop 8).take 240) = some l →
        Ends (.chrFlitReceive p fixed false f) s (fun t => t = { s with chr := t.chr } ∧ t.chr.inbox = s.chr.inbox ++ l
          ∧ (∃ g, t.chr.outbox = s.chr.outbox ++ [(p, g)] ∧ flitOk g = true
            ∧ (flitHead (bv 64 (ofBytes (g.take 8)))).type = 0 ∧ (flitHead (bv 64 (ofBytes (g.take 8)))).credit = min 31 (y.owed + 1))
          ∧ (t.chr.port p).rxSeq = y.rxSeq + 1 ∧ (t.chr.port p).credit = y.credit + h.credit
          ∧ (t.chr.port p).fecc.toNat = min (2 ^ 32 - 1) (y.fecc.toNat + fixed)
          ∧ (t.chr.port p).txq = y.txq ∧ (t.chr.port p).unc = y.unc))
      ∧ (4 ≤ h.type → Ends (.chrFlitReceive p fixed false f) s (fun t => t = { s with chr := t.chr }
          ∧ t.chr.inbox = s.chr.inbox ∧ (t.chr.port p).rxSeq = y.rxSeq ∧ (t.chr.port p).unc = satInc y.unc)))
    -- every flit that leaves is 256 bytes with its CRC, and its header holds its fields
    ∧ (∀ h l, (flitBytes h l).length = 256 ∧ flitOk (flitBytes h l) = true)
    ∧ (∀ h : FlitHead, h.seq < 4096 → h.ackSeq < 4096 → h.srcMod < 64 → h.srcPart < 64 → h.dstMod < 64 → h.cls < 8 →
      h.type < 16 → h.credit < 32 → h.nmsg < 16 → flitHead h.word = h)

/-- The management port (R410-R416) and the operations on partitions (R356, R360). -/
def Obligations.Management : Prop :=
  ∀ (s : State) (dst src : Nat) (rest : Bytes),
    let f := frameOf dst src rest
    let r := requestOf f
    let len := fieldBE rest 18 4
    -- the frames that are requests: addressed to Novnum, EtherType, magic and VER, OP, no response flag, and the signature of an
    -- enrolled key over header and body
    (∀ op, takesUp s op f = true ↔ s.pkg.powered = true ∧ dst % 2 ^ 48 = s.nov.mac.toNat ∧ fieldBE rest 0 2 = 0x88B5
      ∧ fieldBE rest 2 3 = 0x5A4E01 ∧ fieldBE rest 5 1 = op ∧ fieldBE rest 6 4 % 2 = 0 ∧ len ≤ 1344
      ∧ ∃ key ∈ s.nov.operators, signedBy key ((rest.drop 2).take (24 + len)) ((rest.drop (26 + len)).take 96) = true)
    ∧ r = { op := fieldBE rest 5 1, ses := fieldBE rest 10 4, seq := fieldBE rest 14 4, off := fieldBE rest 22 4,
            body := (rest.drop 26).take len, sender := src % 2 ^ 48 }
    -- a session is opened while fewer than 4 are open
    ∧ (takesUp s 1 f = true → s.nov.sessions.length < 4 → r.body.length = 48 →
      Ends (.mgmtOpen dst src rest) s (fun t => ∃ x, t.nov.sessions = s.nov.sessions ++ [x] ∧ x.seq = r.seq
        ∧ (∀ y ∈ s.nov.sessions, y.id ≠ x.id) ∧ x.nonces.length = 96 ∧ x.nonces.take 48 = r.body
        ∧ t.nov.out = s.nov.out ++ [responseBytes s r 0 x.id (x.nonces.drop 48)] ∧ t.mem = s.mem))
    ∧ (takesUp s 1 f = true → 4 ≤ s.nov.sessions.length ∨ r.body.length ≠ 48 →
      Ends (.mgmtOpen dst src rest) s (fun t => t.nov.sessions = s.nov.sessions
        ∧ ∃ c, 0 < c ∧ c < 256 ∧ t.nov.out = s.nov.out ++ [responseBytes s r c 0 []]))
    ∧ (takesUp s 1 f = false → exec (.mgmtOpen dst src rest) s = .next s)
    -- a request outside a session has no effect and no response
    ∧ (∀ (p q n off : Nat) (l : Nats) (d : Bytes) (b : Bool), ∀ i op, (i, op) ∈ [(Instr.ident dst src rest off, 2), (.attest dst src rest p n, 3),
        (.partBuild dst src rest p n n n n n l l, 0x10), (.partScrub dst src rest p, 0x11),
        (.partJoin dst src rest p n q, 0x12), (.setFab dst src rest n q, 0x20), (.fwStage dst src rest n off d, 0x30),
        (.fwCommit dst src rest n, 0x31), (.mgmtReset dst src rest b l, 0x40), (.recover dst src rest n off b d, 0x60),
        (.logRead dst src rest off, 0x50), (.telemRead dst src rest off, 0x51)] →
        ¬ InSession s op f → exec i s = .next s)
    -- an event that names another OFFSET than its frame has no effect
    ∧ (∀ n off b l, off ≠ r.off → ∀ i ∈ [Instr.ident dst src rest off, .logRead dst src rest off, .telemRead dst src rest off,
        .fwStage dst src rest n off l, .recover dst src rest n off b l], exec i s = .next s)
    ∧ (let same (t : State) : Prop := t = { s with nov := t.nov } ∧ t.nov.fw = s.nov.fw
      -- identity, attestation, logs
      Manages (.ident dst src rest r.off) s 2 f
        (((toBytesBE 16 s.nov.serial.toNat ++ Config.certificates (s.nov.measured[0])).drop r.off).take 1344) same
      ∧ (∀ p nonce, (p < 64 → Manages (.attest dst src rest p nonce) s 3 f
          (reportBody s p nonce ++ aliasSign s.nov (reportBody s p nonce)) same)
        ∧ (64 ≤ p → Denies (.attest dst src rest p nonce) s 3 f))
      ∧ Manages (.logRead dst src rest r.off) s 0x50 f ((s.nov.log.flatten.drop r.off).take 1344) same
      ∧ Manages (.telemRead dst src rest r.off) s 0x51 f ((s.nov.telem.flatten.drop r.off).take 1344) same
      -- partitions
      ∧ (∀ p cl sc md chr noc gs mm,
        let x : Part :=
          { state := 2, cl := bv 144 cl, sc := bv 24 sc, md := bv 48 md, chr := bv 7 chr, noc := bv 7 noc
            granules := gs, mmio := mm, key := s.fresh + 1 }
        (canBuild s p x = true → Manages (.partBuild dst src rest p cl sc md chr noc gs mm) s 0x10 f [] (fun t =>
          t.mem = s.mem ∧ t.partAt p = x ∧ ∀ q, q ≠ p → t.partAt q = s.partAt q))
        ∧ (canBuild s p x = false → Denies (.partBuild dst src rest p cl sc md chr noc gs mm) s 0x10 f))
      ∧ (∀ p, let x := s.partAt p
        (x.state = 2 → Manages (.partScrub dst src rest p) s 0x11 f [] (fun t => t.partAt p = {}
          ∧ (∀ q, q ≠ p → t.partAt q = s.partAt q)
          ∧ (∀ a, readByte t.mem a = if scrubbed s x a then 0 else readByte s.mem a)
          ∧ (∀ h, ofPart x h = true → t.hartAt h = .init h) ∧ (∀ h, ofPart x h = false → t.hartAt h = s.hartAt h)
          ∧ (∀ d, ∀ w ∈ (t.dieAt d).waiting, w.part ≠ p)
          ∧ ∀ c, ∀ e ∈ (t.coreAt c).tlb, e.part ≠ p))
        ∧ (x.state ≠ 2 → Denies (.partScrub dst src rest p) s 0x11 f))
      ∧ (∀ p n q, let x := s.partAt p
        (x.state = 2 → n < 64 → q < 64 → Manages (.partJoin dst src rest p n q) s 0x12 f [] (fun t =>
          t.mem = s.mem ∧ t.partAt p = { x with joins := x.joins ++ [(n, q)] } ∧ ∀ k, k ≠ p → t.partAt k = s.partAt k))
        ∧ (¬ (x.state = 2 ∧ n < 64 ∧ q < 64) → Denies (.partJoin dst src rest p n q) s 0x12 f))
      -- the values of the next cold start
      ∧ (∀ m memb, (m < 64 → Manages (.setFab dst src rest m memb) s 0x20 f [] (fun t => t = { s with nov := t.nov }
          ∧ t.nov.stagedMod = bv 6 m ∧ t.nov.stagedMemb = bv 64 memb ∧ t.nov.stagedValid = true))
        ∧ (64 ≤ m → Denies (.setFab dst src rest m memb) s 0x20 f))
      -- firmware: chunks go to the inactive slot; a verified image of a sufficient version becomes active for the next start
      ∧ (∀ kind (hk : kind < 3) (data : List Byte), let fw := s.nov.fw[kind]
        let off := r.off
        let l := fw.slot fw.other
        (fw.fresh = none → Manages (.fwStage dst src rest kind off data) s 0x30 f [] (fun t =>
            (t.nov.fw[kind]).slot fw.other = l.take off ++ List.replicate (off - l.length) 0 ++ data ++ l.drop (off + data.length)
            ∧ (t.nov.fw[kind]).image = fw.image ∧ ∀ j (hj : j < 3), j ≠ kind → t.nov.fw[j] = s.nov.fw[j]))
        ∧ (fw.fresh ≠ none → Denies (.fwStage dst src rest kind off data) s 0x30 f)
        ∧ (imageGood s.nov.fwKey kind l = true → fw.minSvn ≤ imageSvn l → Manages (.fwCommit dst src rest kind) s 0x31 f []
            (fun t => t.nov.fw[kind] = { fw with fresh := some (imageSvn l) }
              ∧ ∀ j (hj : j < 3), j ≠ kind → t.nov.fw[j] = s.nov.fw[j]))
        ∧ (imageGood s.nov.fwKey kind l = false ∨ imageSvn l < fw.minSvn → Denies (.fwCommit dst src rest kind) s 0x31 f))
      -- starts and recovery
      ∧ (∀ l, Manages (.mgmtReset dst src rest true l) s 0x40 f [] (fun t => t.pkg = { s.pkg with coldReq := true })
        ∧ Manages (.mgmtReset dst src rest false l) s 0x40 f [] (fun t => t.pkg = { s.pkg with warmReq := true }
          ∧ t.nov.rebuild = l))
      ∧ (∀ kind (hk : kind < 3) (data : List Byte), let off := r.off
        let l := splice s.nov.received off data
        (s.nov.recovery = false → ∀ last, Denies (.recover dst src rest kind off last data) s 0x60 f)
        ∧ (s.nov.recovery = true → Manages (.recover dst src rest kind off false data) s 0x60 f []
            (fun t => same t ∧ t.nov.received = l))
        ∧ (s.nov.recovery = true → imageGood s.nov.fwKey kind l = false → Denies (.recover dst src rest kind off true data) s 0x60 f)
        ∧ (s.nov.recovery = true → imageGood s.nov.fwKey kind l = true → Manages (.recover dst src rest kind off true data) s 0x60 f []
            (fun t => (t.nov.fw[kind]).image = l ∧ t.nov.recovered = true ∧ t.pkg.startDue = true))))

/-- Starts (R378-R380, R415). What a start that fails and a late BOOT_OK leave is the model's reading (assumptions 40
and 42). -/
def Obligations.Starts : Prop :=
  ∀ (s : State) (trained broken : Bool) (excl : Nat), Memory.wf s.mem →
    let wanted : Prop := s.pkg.powered = false ∨ s.pkg.coldReq = true ∨ s.pkg.warmReq = true ∨ s.pkg.startDue = true
    let cold : Prop := s.pkg.powered = false ∨ s.pkg.coldReq = true ∨ s.pkg.warmReq = false
    let failed := s.pkg.failed
    let fw := s.nov.fw.map (fun f => f.begin failed)
    let good : Prop := (∀ k (hk : k < 3), imageGood s.nov.fwKey k (fw[k]).image = true) ∧ s.pkg.linkFailed = false
      ∧ (cold → trained = true ∧ broken = false)
    let halts (t : State) : Prop := t.pkg.stopped = true ∧ t.mem = s.mem ∧ ∀ h, (t.hartAt h).ctl.parked = true
    let measures (t : State) : Prop := ∀ k (hk : k < 3), t.nov.measured[k] = sha384 (imagePayload (fw[k]).image)
    (¬ wanted → exec (.packageStart trained broken excl) s = .next s)
    -- FAILCNT 3: the package stays in recovery; else a start counts, and one that fails leaves the package stopped
    ∧ (wanted → s.pkg.failCnt = 3 → s.nov.recovered = false → Ends (.packageStart trained broken excl) s (fun t =>
        halts t ∧ t.nov.recovery = true ∧ t.pkg.failCnt = 3
          ∧ t.nov.measured[0] = sha384 (imagePayload (s.nov.fw[0]).image)))
    ∧ (wanted → s.pkg.failCnt ≠ 3 → ¬ good → Ends (.packageStart trained broken excl) s (fun t =>
        halts t ∧ t.pkg.failed = true ∧ t.pkg.failCnt = s.pkg.failCnt + 1 ∧ measures t))
    -- a start: sc0 of die 0 runs the system-core image in M mode, every other hart is parked
    ∧ (wanted → s.pkg.failCnt ≠ 3 ∨ s.nov.recovered = true → good → Ends (.packageStart trained broken excl) s (fun t =>
        let l := (fw[1]).image
        let base := ownBase t
        let x := t.hartAt 9216
        t.pkg.stopped = false ∧ t.pkg.powered = true ∧ t.pkg.bootOk = false ∧ measures t
          ∧ t.pkg.failCnt = (if s.pkg.failCnt = 3 then 3 else s.pkg.failCnt + 1)
          ∧ t.pkg.coldReq = false ∧ t.pkg.warmReq = false ∧ t.pkg.startDue = false ∧ t.pkg.startedAt = some s.ticks
          ∧ (∀ j < (imagePayload l).length, readByte t.mem (base + j) = ((imagePayload l)[j]?).getD 0)
          ∧ x.pc = bv 64 (base + imageEntry l) ∧ x.getX 11 = bv 64 base ∧ x.getX 10 = 9216 ∧ x.priv = .m
          ∧ x.ctl.parked = false ∧ x.csr.satp = 0 ∧ (∀ h, h ≠ 9216 → t.hartAt h = .init h)
          ∧ (cold → t.pkg.warm = false ∧ t.pkg.excl = bv 144 excl ∧ t.pkg.calibrated = true
            ∧ (∀ a, a < base ∨ base + (imagePayload l).length ≤ a → readByte t.mem a = 0)
            ∧ t.chr.valid = s.nov.stagedValid ∧ t.chr.modIdx = s.nov.stagedMod)
          ∧ (¬ cold → t.pkg.warm = true ∧ t.chr.modIdx = s.chr.modIdx ∧ t.chr.memb = s.chr.memb
            ∧ ∀ a, a < base ∨ base + (imagePayload l).length ≤ a →
              readByte t.mem a = if isOwnMem s a && !(rebuilt s a) then readByte s.mem a else 0)))
    -- BOOT_OK that does not come within 120 s
    ∧ (∀ n, s.pkg.startedAt = some n → s.pkg.bootOk = false → n + 12000000000 ≤ s.ticks →
      exec .bootTimeout s = .next { s with pkg := { s.pkg with failed := true } })
    ∧ (s.pkg.startedAt = none ∨ s.pkg.bootOk = true → exec .bootTimeout s = .next s)
    -- a loss of power keeps what is always on
    ∧ Ends .powerLoss s (fun t => t.mem = [] ∧ t.harts = [] ∧ t.parts = [] ∧ t.pkg.powered = false
        ∧ t.pkg.failCnt = s.pkg.failCnt ∧ t.pkg.calibrated = s.pkg.calibrated ∧ t.nov.fw = s.nov.fw ∧ t.nov.sessions = [])

/-- Power control (R366-R371) and die-to-die links (R347). -/
def Obligations.PowerControl : Prop :=
  ∀ (s : State),
    let w := s.power
    -- a valid frame: the allowance, and the decision on each class; an invalid one is counted
    (∀ f, frameOk f = true → Ends (.telemetryFrame f) s (fun t =>
        let a := allowance w f % 65536
        t.mem = s.mem ∧ t.harts = s.harts ∧ t.power.link = true ∧ t.power.frames = w.frames + 1
          ∧ t.power.last0 = bv 64 f.toNat ∧ t.power.last1 = bv 64 (f.toNat / 2 ^ 64) ∧ t.power.lastAt = s.ticks
          ∧ t.power.a.toNat = a
          ∧ ∀ c (hc : c < 4),
            (a < w.th c → t.power.shed.getLsbD c = true ∧ t.power.good[c] = 0
              ∧ (w.shed.getLsbD c = false → t.power.shedAt[c] = some s.ticks))
            ∧ (w.th c ≤ a → w.shed.getLsbD c = false → t.power.shed.getLsbD c = false)
            ∧ (w.th c ≤ a → a < w.th c + w.hys c → w.shed.getLsbD c = true →
              t.power.shed.getLsbD c = true ∧ t.power.good[c] = 0)
            ∧ (w.th c + w.hys c ≤ a → w.shed.getLsbD c = true →
              (w.good[c] < 9 → t.power.shed.getLsbD c = true ∧ t.power.good[c] = w.good[c] + 1)
              ∧ (9 ≤ w.good[c] → t.power.shed.getLsbD c = false ∧ t.power.good[c] = 0 ∧ t.power.shedAt[c] = none
                ∧ ∀ h, kindOf h = .compute → (s.hartAt h).ctl.heldShed = true → (s.hartAt h).ctl.shedClass = bv 2 c →
                  islandOf h ∈ t.power.releasing))))
    ∧ (∀ f, frameOk f = false → exec (.telemetryFrame f) s = .next { s with power := { w with
        crcErr := if w.crcErr = 0xFFFF then w.crcErr else w.crcErr + 1
        good := .replicate 4 0 } })
    -- the allowance: CAP where no point and no share counts; else a point, or what lies between two, if it is less
    ∧ (∀ f, w.share = 0 → (∀ q ∈ w.curve.toList, bitOf q 63 = false) → allowance w f = w.cap.toNat)
    ∧ (∀ f, w.share ≠ 0 → (∀ q ∈ w.curve.toList, bitOf q 63 = false) →
        allowance w f = min w.cap.toNat (frameField f 10 2 * 2 * w.share.toNat / 256))
    ∧ (∀ x y p q z : Int, ∀ kind, ∀ a b : CurvePoint, a.x = x → a.p = p → b.x = y → b.p = q → x < y →
        w.curve.toList.filterMap (pointOf kind) = [a, b] →
        curve w kind z = some (if z ≤ x then p else if y ≤ z then q else p + ((q - p) * (z - x)).fdiv (y - x)))
    -- 300 µs without a valid frame: FAILSAFE, with the same decision
    ∧ (w.link = true → w.lastAt + 30000 ≤ s.ticks → Ends .telemetryLinkLoss s (fun t =>
        let a := min w.failsafe.toNat w.cap.toNat
        t.mem = s.mem ∧ t.harts = s.harts ∧ t.power.link = false ∧ t.power.a.toNat = a
          ∧ ∀ c, c < 4 → t.power.shed.getLsbD c = (decide (a < w.th c) || w.shed.getLsbD c)))
    ∧ (¬ (w.link = true ∧ w.lastAt + 30000 ≤ s.ticks) → exec .telemetryLinkLoss s = .next s)
    -- the end of the grace: the class's harts that run a task are to be halted
    ∧ (∀ c (hc : c < 4) n, w.shedAt[c] = some n →
      (s.ticks < n + 100 * w.grace.toNat → exec (.shedGraceExpiry c) s = .next s)
      ∧ (n + 100 * w.grace.toNat ≤ s.ticks → Ends (.shedGraceExpiry c) s (fun t => t.mem = s.mem ∧ t.power.shedAt[c] = none
        ∧ ∀ h, let x := s.hartAt h
          t.hartAt h = if kindOf h = .compute ∧ x.ctl.parked = false ∧ x.ctl.asks = false ∧ x.dev.task ≠ 0 ∧ x.pclass = c
            then { x with ctl := { x.ctl with shedDue := true } } else x)))
    -- an island whose harts are still enters retention while a class is shed
    ∧ (∀ i, coreIsland i = true → islandStill s i = true → i ∉ w.retained → i ∉ w.releasing →
      (w.shed ≠ 0 → exec (.islandRetention i) s = .next { s with power := { w with retained := w.retained ++ [i] } })
      ∧ (w.shed = 0 → exec (.islandRetention i) s = .next s))
    -- the lowest island that waits starts, and its held harts go on where nothing holds them any more
    ∧ (∀ i, i ∈ w.releasing → (∀ k ∈ w.releasing, i ≤ k) →
        let holds (h : Nat) : Bool := (s.clusterAt (clusterOf h)).req && decide ((s.clusterAt (clusterOf h)).wakeStep < 4)
        let goes (h : Nat) : Prop := let x := s.hartAt h
          x.ctl.parked = true ∧ x.ctl.pcause = 4 ∧ isDead s h = false ∧ x.ctl.heldQuiesce = false ∧ holds h = false
          ∧ (x.ctl.heldShed = true → w.shed.getLsbD x.ctl.shedClass.toNat = false)
          ∧ (x.dev.task ≠ 0 → w.shed.getLsbD x.pclass = false)
        Ends .islandStart s (fun t => t.mem = s.mem
          ∧ t.power.releasing = w.releasing.filter (fun k => k != i)
          ∧ ((∃ h ∈ islandHarts i, goes h) → t.power.retained = w.retained.filter (fun k => k != i))
          ∧ ((∃ h ∈ islandHarts i, (s.hartAt h).held = true) → (¬ ∃ h ∈ islandHarts i, goes h) →
            t.power.retained = w.retained)
          ∧ (∀ h, h ∉ islandHarts i → t.hartAt h = s.hartAt h)
          ∧ ∀ h ∈ islandHarts i, let x := s.hartAt h
            (goes h → t.hartAt h = { x with
                ctl := { x.ctl with parked := false, heldShed := false }
                pc := x.ctl.rpc
                priv := x.ctl.mode }
              ∧ (x.ctl.asks = true → h ∈ (t.dieAt (dieOf h)).requests))
            ∧ (¬ goes h → x.ctl.parked = true → x.ctl.pcause = 4 → t.hartAt h = { x with ctl := { x.ctl with
                heldQuiesce := x.ctl.heldQuiesce || holds h
                heldShed := x.ctl.heldShed || (decide (x.dev.task ≠ 0) && w.shed.getLsbD x.pclass)
                shedClass := if x.ctl.heldShed then x.ctl.shedClass else bv 2 x.pclass } })
            ∧ (x.ctl.parked = false ∨ x.ctl.pcause ≠ 4 → t.hartAt h = x)))
    -- links: replays in a row, and retraining after sixteen
    ∧ (∀ l good, l < 7 → l ∉ s.pkg.retraining → Ends (.dieLinkReplay l good) s (fun t =>
        replaysOf t l = (if good then 0 else min 16 (replaysOf s l + 1)) ∧ t = { s with pkg := t.pkg }))
    ∧ (∀ l, l < 7 → l ∉ s.pkg.retraining →
      (16 ≤ replaysOf s l → exec (.dieLinkRetrain l) s =
        .next { s with pkg := { s.pkg with retraining := s.pkg.retraining ++ [l] } })
      ∧ (replaysOf s l < 16 → exec (.dieLinkRetrain l) s = .next s))
    ∧ (∀ l good, l ∈ s.pkg.retraining → Ends (.dieLinkRetrainDone l good) s (fun t => t = { s with pkg := t.pkg }
        ∧ l ∉ t.pkg.retraining ∧ replaysOf t l = 0
        ∧ t.pkg.stopped = (if good then s.pkg.stopped else true)
        ∧ t.pkg.linkFailed = (if good then s.pkg.linkFailed else true)))

/-- Taking a cluster out of service (R372-R374, R386). The layout of the image beyond what R374 gives is the model's
(assumption 33). -/
def Obligations.ClusterQuiesce : Prop :=
  ∀ (s : State) (c : Nat), Memory.wf s.mem → c < 144 →
    let x := s.clusterAt c
    let sets (i : Instr) (y : ClusterSt) : Prop := Ends i s (fun t => t.mem = s.mem ∧ t.harts = s.harts ∧ t.clusterAt c = y
      ∧ ∀ d, d ≠ c → t.clusterAt d = s.clusterAt d)
    let refused (i : Instr) : Prop := sets i { x with err := true }
    let base := x.retBase.toNat
    -- the rails come on after off: the cluster's memory, registers and units are zero, and its control blocks stand
    let cold (m : BitVec 2) (t : State) : Prop := (t.clusterAt c).mode = m ∧ (t.clusterAt c).railOff = false
      ∧ (t.clusterAt c).partials = [] ∧ (t.clusterAt c).tlb = []
      ∧ (∀ h ∈ hartsOfCluster c, (t.hartAt h).x = .replicate 32 0 ∧ (t.hartAt h).f = .replicate 32 0
        ∧ (t.hartAt h).pc = 0 ∧ (t.hartAt h).vec.v = .replicate 32 0 ∧ (t.hartAt h).vec.m = .replicate 8 0
        ∧ (t.hartAt h).ctl = (s.hartAt h).ctl ∧ (t.hartAt h).ints = (s.hartAt h).ints)
      ∧ (∀ a, readByte t.mem a = if within a (spadAlias c) 0x400000 || within a (tcmAlias (16 * c)) 0x400000 then 0
          else readByte s.mem a)
      ∧ ∀ a, within a (spadAlias c) 0x400000 = true ∨ within a (tcmAlias (16 * c)) 0x400000 = true → a ∉ t.coh.poison
    -- a write waits while BUSY is 1
    (x.busy = true → ∀ b, ∀ i ∈ [Instr.clqReq c, .clqForce c, .clqCancel c, .clqErrClear c, .retSave c b, .clkGate c true,
      .clkGate c false, .railCtl c b, .clusterWake c], exec i s = .next s)
    ∧ (x.busy = false →
      sets (.clqReq c) { x with req := true }
      ∧ (x.req = false → refused (.clqForce c))
      ∧ (x.req = true → Ends (.clqForce c) s (fun t => t.mem = s.mem
          ∧ (∀ h ∈ hartsOfCluster c, let y := s.hartAt h
            t.hartAt h = if y.ctl.parked then y else { y with ctl := { y.ctl with shedDue := true } })
          ∧ (∀ h, h ∉ hartsOfCluster c → t.hartAt h = s.hartAt h)
          ∧ (t.clusterAt c).req = true
          ∧ ((t.clusterAt c).force = true ↔ ∃ h ∈ hartsOfCluster c, (s.hartAt h).ctl.parked = false)))
      ∧ (x.clkOff = true → sets (.clqCancel c) x)
      ∧ (x.clkOff = false → Ends (.clqCancel c) s (fun t => t.mem = s.mem ∧ t.clusterAt c = { x with req := false }
          ∧ ∀ h, kindOf h = .compute → clusterOf h = c →
            t.hartAt h = { s.hartAt h with ctl := { (s.hartAt h).ctl with heldQuiesce := false } }))
      ∧ sets (.clqErrClear c) { x with err := false }
      ∧ (∀ v, quiet s c = true → x.clkOff = false → sets (.retSave c v) { x with
          retBase := bv 64 (v % 2 ^ 50 / 65536 * 65536)
          saving := true
          wrote := false
          busy := true
          saved := false })
      ∧ (∀ v, quiet s c = false ∨ x.clkOff = true → refused (.retSave c v))
      ∧ (quiet s c = true → sets (.clkGate c true) { x with clkOff := true })
      ∧ (quiet s c = false → refused (.clkGate c true))
      ∧ (x.mode = 0 → sets (.clkGate c false) { x with clkOff := false })
      ∧ (x.mode ≠ 0 → refused (.clkGate c false))
      ∧ refused (.railCtl c 3)
      ∧ (x.clkOff = false → refused (.railCtl c 1) ∧ refused (.railCtl c 2))
      ∧ (x.saved = false → refused (.railCtl c 2))
      ∧ (∀ m, m = 0 ∨ (m = 1 ∧ x.clkOff = true) ∨ (m = 2 ∧ x.clkOff = true ∧ x.saved = true) →
        sets (.railCtl c m) { x with mode := bv 2 m, modeDue := some (bv 2 m), busy := true })
      ∧ sets (.clusterWake c) { x with
          waking := true
          wakeStep := 0
          wakeDue := x.railOff || x.rbf
          busy := true })
    -- the rails arrive at their mode
    ∧ (∀ m, x.modeDue = some m →
      (x.railOff = false ∨ m = 2 → sets (.railTransitionDone c)
        { x with mode := m, modeDue := none, railOff := m = 2, busy := false })
      ∧ (x.railOff = true → m ≠ 2 → s.coh.leases = [] → s.coh.queued = [] → Ends (.railTransitionDone c) s (fun t =>
        cold m t ∧ (t.clusterAt c).busy = false)))
    -- the image is written at BASE, or the save fails; it is complete once its writes are performed
    ∧ (x.saving = true → x.wrote = true →
      ((∃ m ∈ unsettled s, m.hart = imageWriter c) → exec (.retSaveComplete c) s = .next s)
      ∧ ((∀ m ∈ unsettled s, m.hart ≠ imageWriter c) →
        sets (.retSaveComplete c) { x with saving := false, wrote := false, busy := false, saved := true }))
    ∧ (x.saving = true → x.wrote = false → HomesIdle s →
      (imageOk s c = false → sets (.retSaveComplete c) { x with saving := false, busy := false, err := true })
      ∧ (imageOk s c = true → (∀ m ∈ s.coh.net, m.hart ≠ imageWriter c) → Ends (.retSaveComplete c) s (fun t =>
        (t.clusterAt c).saved = true ∧ (t.clusterAt c).saving = false ∧ (t.clusterAt c).busy = false
          ∧ (∀ j < 0x400000, readByte t.mem (base + 0x1000 + j) = readByte s.mem (spadAlias c + j))
          ∧ (∀ k < 16, ∀ j < 0x40000,
              readByte t.mem (base + 0x401000 + k * 0x80000 + j) = readByte s.mem (tcmAlias (16 * c + k) + j))
          ∧ (∀ k < 16, ∀ g < 4, ∀ i, (hi : i < 32) → 0 < i →
              read8 t.mem (base + 0x401000 + k * 0x80000 + 0x40000 + g * 0xA800 + 0x10 + 8 * i)
                = (s.hartAt (64 * c + 4 * k + g)).x[i])
          ∧ ∀ a, a < base ∨ base + 0xC01000 ≤ a → readByte t.mem a = readByte s.mem a)))
    -- the moments of a wake: the rails come on, the clocks start, an image that is owed is read back, the harts are to go on,
    -- and REQ and BUSY become 0 once their islands have started
    ∧ (x.waking = true →
      (x.wakeStep = 0 →
        (x.mode = 0 → sets (.clusterWakeComplete c) { x with wakeStep := 1 })
        ∧ (x.mode ≠ 0 → x.railOff = false →
          sets (.clusterWakeComplete c) { x with mode := 0, modeDue := none, wakeStep := 1 })
        ∧ (x.mode ≠ 0 → x.railOff = true → s.coh.leases = [] → s.coh.queued = [] →
          Ends (.clusterWakeComplete c) s (fun t => cold 0 t ∧ (t.clusterAt c).wakeStep = 1 ∧ (t.clusterAt c).busy = x.busy)))
      ∧ (x.wakeStep = 1 → sets (.clusterWakeComplete c) { x with clkOff := false, wakeStep := 2 })
      ∧ (x.wakeStep = 2 → s.coh.migs = [] →
        (x.wakeDue = false → sets (.clusterWakeComplete c) { x with wakeStep := 3 })
        ∧ (x.wakeDue = true → imageOk s c = false → sets (.clusterWakeComplete c) { x with
            rbf := true
            err := true
            busy := false
            waking := false
            wakeDue := false
            wakeStep := 0 })
        ∧ (x.wakeDue = true → imageOk s c = true → Ends (.clusterWakeComplete c) s (fun t =>
          (t.clusterAt c).rbf = false ∧ (t.clusterAt c).saved = false ∧ (t.clusterAt c).wakeStep = 3
            ∧ (t.clusterAt c).req = x.req ∧ (t.clusterAt c).busy = x.busy
            ∧ (∀ j < 0x400000, readByte t.mem (spadAlias c + j) = readByte s.mem (base + 0x1000 + j))
            ∧ ∀ k < 16,
              (∀ j < 0x40000,
                readByte t.mem (tcmAlias (16 * c + k) + j) = readByte s.mem (base + 0x401000 + k * 0x80000 + j))
              ∧ ∀ g < 4, let y := t.hartAt (64 * c + 4 * k + g)
                let r := base + 0x401000 + k * 0x80000 + 0x40000 + g * 0xA800
                (∀ i, (hi : i < 32) → 0 < i → y.x[i] = read8 s.mem (r + 0x10 + 8 * i))
                ∧ y.pc = read8 s.mem (r + 0x10) ∧ y.priv = Priv.ofCode (fieldOf (read8 s.mem r) 9 2)
                ∧ y.ctl = (s.hartAt (64 * c + 4 * k + g)).ctl)))
      ∧ (x.wakeStep = 3 → Ends (.clusterWakeComplete c) s (fun t => t.mem = s.mem
        ∧ t.clusterAt c = { x with wakeStep := 4 }
        ∧ ∀ h ∈ hartsOfCluster c, let y := s.hartAt h
          t.hartAt h = { y with ctl := { y.ctl with heldQuiesce := false } }
          ∧ (y.ctl.heldQuiesce = true → islandOf h ∈ t.power.releasing)))
      ∧ (4 ≤ x.wakeStep →
        ((∃ h ∈ hartsOfCluster c, islandOf h ∈ s.power.releasing) → exec (.clusterWakeComplete c) s = .next s)
        ∧ ((∀ h ∈ hartsOfCluster c, islandOf h ∉ s.power.releasing) → sets (.clusterWakeComplete c) { x with
          req := false
          busy := false
          waking := false
          wakeDue := false
          wakeStep := 0 })))

end
end

