-- ==== Sys2Proof/Laws/State.lean ====
section
/-! SUPPORT. One lemma for each field and update of the state: no later proof unfolds a record update. -/

namespace Sys2Proof.Machine

@[simp] theorem look_put_self {α : Type} (d a : α) (l : List (Nat × α)) (k : Nat) : look d (put l k a) k = a := by
  induction l with
  | nil => simp [put, look]
  | cons x r ih =>
    obtain ⟨i, b⟩ := x
    by_cases h : k < i
    · simp [put, h, look]
    · by_cases h' : k = i
      · simp [put, h', look]
      · simp [put, h, h', look, Ne.symm h', ih]

theorem look_put_ne {α : Type} (d a : α) (l : List (Nat × α)) (k j : Nat) (h : j ≠ k) :
    look d (put l k a) j = look d l j := by
  induction l with
  | nil => simp [put, look, Ne.symm h]
  | cons x r ih =>
    obtain ⟨i, b⟩ := x
    by_cases h1 : k < i
    · simp [put, h1, look, Ne.symm h]
    · by_cases h2 : k = i
      · subst h2; simp [put, look, Ne.symm h]
      · simp [put, h1, h2, look, ih]

/-! ## Units by number -/

@[simp] theorem State.hartAt_setHartAt_self (s : State) (k : Nat) (x : Hart) : (s.setHartAt k x).hartAt k = x := look_put_self _ _ _ _
@[simp] theorem State.hartAt_setHartAt_ne (s : State) (k j : Nat) (x : Hart) (h : j ≠ k) : (s.setHartAt k x).hartAt j = s.hartAt j :=
  look_put_ne _ _ _ _ _ h
@[simp] theorem State.coreAt_setCoreAt_self (s : State) (k : Nat) (x : CoreSt) : (s.setCoreAt k x).coreAt k = x := look_put_self _ _ _ _
@[simp] theorem State.coreAt_setCoreAt_ne (s : State) (k j : Nat) (x : CoreSt) (h : j ≠ k) : (s.setCoreAt k x).coreAt j = s.coreAt j :=
  look_put_ne _ _ _ _ _ h
@[simp] theorem State.clusterAt_setClusterAt_self (s : State) (k : Nat) (x : ClusterSt) : (s.setClusterAt k x).clusterAt k = x := look_put_self _ _ _ _
@[simp] theorem State.clusterAt_setClusterAt_ne (s : State) (k j : Nat) (x : ClusterSt) (h : j ≠ k) : (s.setClusterAt k x).clusterAt j = s.clusterAt j :=
  look_put_ne _ _ _ _ _ h
@[simp] theorem State.dieAt_setDieAt_self (s : State) (k : Nat) (x : DieSt) : (s.setDieAt k x).dieAt k = x := look_put_self _ _ _ _
@[simp] theorem State.dieAt_setDieAt_ne (s : State) (k j : Nat) (x : DieSt) (h : j ≠ k) : (s.setDieAt k x).dieAt j = s.dieAt j :=
  look_put_ne _ _ _ _ _ h
@[simp] theorem State.partAt_setPartAt_self (s : State) (k : Nat) (x : Part) : (s.setPartAt k x).partAt k = x := look_put_self _ _ _ _
@[simp] theorem State.partAt_setPartAt_ne (s : State) (k j : Nat) (x : Part) (h : j ≠ k) : (s.setPartAt k x).partAt j = s.partAt j :=
  look_put_ne _ _ _ _ _ h
@[simp] theorem State.millAt_setMillAt_self (s : State) (k : Nat) (x : Mill) : (s.setMillAt k x).millAt k = x := look_put_self _ _ _ _
@[simp] theorem State.millAt_setMillAt_ne (s : State) (k j : Nat) (x : Mill) (h : j ≠ k) : (s.setMillAt k x).millAt j = s.millAt j :=
  look_put_ne _ _ _ _ _ h

@[simp] theorem State.hart_setHart (s : State) (x : Hart) : (s.setHart x).hart = x := look_put_self _ _ _ _
theorem State.hartAt_setHart_ne (s : State) (x : Hart) (j : Nat) (h : j ≠ s.cur) : (s.setHart x).hartAt j = s.hartAt j :=
  look_put_ne _ _ _ _ _ h
@[simp] theorem settleReads_hart (h k : Nat) (s : State) : (settleReads h k s).hart = s.hart := rfl
@[simp] theorem settleReads_hartAt (h k j : Nat) (s : State) : (settleReads h k s).hartAt j = s.hartAt j := rfl
@[simp] theorem State.tick_hart (s : State) : s.tick.hart = s.hart := rfl
@[simp] theorem State.tick_hartAt (s : State) (j : Nat) : s.tick.hartAt j = s.hartAt j := rfl

/-! ## x registers -/

/-- Register x0 reads as zero (R15). -/
@[simp] theorem Hart.getX_zero (h : Hart) : h.getX 0 = 0 := rfl

/-- A write of x0 is discarded (R15). -/
@[simp] theorem Hart.setX_zero (h : Hart) (v : Word) : h.setX 0 v = h := rfl

@[simp] theorem Hart.inHandler_setX (h : Hart) (r : BitVec 5) (v : Word) : (h.setX r v).inHandler = h.inHandler := by
  unfold Hart.setX; split
  · rfl
  · split <;> rfl

/-- A register other than x0 reads as the value written. -/
theorem Hart.getX_setX_self (h : Hart) (r : BitVec 5) (v : Word) (hr : r ≠ 0) : (h.setX r v).getX r = v := by
  unfold Hart.setX
  rw [if_neg hr]
  split
  · rename_i hc
    unfold Hart.getX
    rw [if_neg hr, if_pos (by simpa [Hart.inHandler] using hc)]
    exact Vector.getElem_set_self ..
  · rename_i hc
    unfold Hart.getX
    rw [if_neg hr, if_neg (by simpa [Hart.inHandler] using hc)]
    exact Vector.getElem_set_self ..

/-- A write of a register leaves every other register alone. -/
theorem Hart.getX_setX_ne (h : Hart) (r q : BitVec 5) (v : Word) (hq : q ≠ r) : (h.setX r v).getX q = h.getX q := by
  unfold Hart.getX
  rw [Hart.inHandler_setX]
  have hn : q.toNat ≠ r.toNat := fun e => hq (BitVec.eq_of_toNat_eq e)
  have hr' := r.isLt
  have hq' := q.isLt
  unfold Hart.setX
  by_cases h0 : q = 0
  · simp [h0]
  · by_cases hr : r = 0
    · simp [hr]
    · rw [if_neg h0, if_neg h0, if_neg hr]
      by_cases hc : (h.inHandler && (10 ≤ r.toNat : Bool) && (r.toNat ≤ 17 : Bool)) = true
      · rw [if_pos hc]
        by_cases hd : (h.inHandler && (10 ≤ q.toNat : Bool) && (q.toNat ≤ 17 : Bool)) = true
        · rw [if_pos hd, if_pos hd]
          simp only [Bool.and_eq_true, decide_eq_true_eq] at hc hd
          exact Vector.getElem_set_ne (Nat.mod_lt _ (by decide)) (Nat.mod_lt _ (by decide)) (by omega)
        · rw [if_neg hd, if_neg hd]
      · rw [if_neg hc]
        by_cases hd : (h.inHandler && (10 ≤ q.toNat : Bool) && (q.toNat ≤ 17 : Bool)) = true
        · rw [if_pos hd, if_pos hd]
        · rw [if_neg hd, if_neg hd]
          exact Vector.getElem_set_ne (by omega) (by omega) (by omega)

/-! ## setHartAt -/

@[simp] theorem State.setHartAt_cur (s : State) (h : Nat) (x : Hart) : (s.setHartAt h x).cur = s.cur := rfl
@[simp] theorem State.setHartAt_sched (s : State) (h : Nat) (x : Hart) : (s.setHartAt h x).sched = s.sched := rfl
@[simp] theorem State.setHartAt_stepwise (s : State) (h : Nat) (x : Hart) : (s.setHartAt h x).stepwise = s.stepwise := rfl
@[simp] theorem State.setHartAt_bound (s : State) (h : Nat) (x : Hart) : (s.setHartAt h x).bound = s.bound := rfl
@[simp] theorem State.setHartAt_fresh (s : State) (h : Nat) (x : Hart) : (s.setHartAt h x).fresh = s.fresh := rfl
@[simp] theorem State.setHartAt_cc (s : State) (h : Nat) (x : Hart) : (s.setHartAt h x).cc = s.cc := rfl
@[simp] theorem State.setHartAt_ticks (s : State) (h : Nat) (x : Hart) : (s.setHartAt h x).ticks = s.ticks := rfl
@[simp] theorem State.setHartAt_mem (s : State) (h : Nat) (x : Hart) : (s.setHartAt h x).mem = s.mem := rfl
@[simp] theorem State.setHartAt_cores (s : State) (h : Nat) (x : Hart) : (s.setHartAt h x).cores = s.cores := rfl
@[simp] theorem State.setHartAt_clusters (s : State) (h : Nat) (x : Hart) : (s.setHartAt h x).clusters = s.clusters := rfl
@[simp] theorem State.setHartAt_dies (s : State) (h : Nat) (x : Hart) : (s.setHartAt h x).dies = s.dies := rfl
@[simp] theorem State.setHartAt_parts (s : State) (h : Nat) (x : Hart) : (s.setHartAt h x).parts = s.parts := rfl
@[simp] theorem State.setHartAt_mills (s : State) (h : Nat) (x : Hart) : (s.setHartAt h x).mills = s.mills := rfl
@[simp] theorem State.setHartAt_coh (s : State) (h : Nat) (x : Hart) : (s.setHartAt h x).coh = s.coh := rfl
@[simp] theorem State.setHartAt_power (s : State) (h : Nat) (x : Hart) : (s.setHartAt h x).power = s.power := rfl
@[simp] theorem State.setHartAt_chr (s : State) (h : Nat) (x : Hart) : (s.setHartAt h x).chr = s.chr := rfl
@[simp] theorem State.setHartAt_pcie (s : State) (h : Nat) (x : Hart) : (s.setHartAt h x).pcie = s.pcie := rfl
@[simp] theorem State.setHartAt_nov (s : State) (h : Nat) (x : Hart) : (s.setHartAt h x).nov = s.nov := rfl
@[simp] theorem State.setHartAt_pkg (s : State) (h : Nat) (x : Hart) : (s.setHartAt h x).pkg = s.pkg := rfl

/-! ## setHart -/

@[simp] theorem State.setHart_cur (s : State) (x : Hart) : (s.setHart x).cur = s.cur := rfl
@[simp] theorem State.setHart_sched (s : State) (x : Hart) : (s.setHart x).sched = s.sched := rfl
@[simp] theorem State.setHart_stepwise (s : State) (x : Hart) : (s.setHart x).stepwise = s.stepwise := rfl
@[simp] theorem State.setHart_bound (s : State) (x : Hart) : (s.setHart x).bound = s.bound := rfl
@[simp] theorem State.setHart_fresh (s : State) (x : Hart) : (s.setHart x).fresh = s.fresh := rfl
@[simp] theorem State.setHart_cc (s : State) (x : Hart) : (s.setHart x).cc = s.cc := rfl
@[simp] theorem State.setHart_ticks (s : State) (x : Hart) : (s.setHart x).ticks = s.ticks := rfl
@[simp] theorem State.setHart_mem (s : State) (x : Hart) : (s.setHart x).mem = s.mem := rfl
@[simp] theorem State.setHart_cores (s : State) (x : Hart) : (s.setHart x).cores = s.cores := rfl
@[simp] theorem State.setHart_clusters (s : State) (x : Hart) : (s.setHart x).clusters = s.clusters := rfl
@[simp] theorem State.setHart_dies (s : State) (x : Hart) : (s.setHart x).dies = s.dies := rfl
@[simp] theorem State.setHart_parts (s : State) (x : Hart) : (s.setHart x).parts = s.parts := rfl
@[simp] theorem State.setHart_mills (s : State) (x : Hart) : (s.setHart x).mills = s.mills := rfl
@[simp] theorem State.setHart_coh (s : State) (x : Hart) : (s.setHart x).coh = s.coh := rfl
@[simp] theorem State.setHart_power (s : State) (x : Hart) : (s.setHart x).power = s.power := rfl
@[simp] theorem State.setHart_chr (s : State) (x : Hart) : (s.setHart x).chr = s.chr := rfl
@[simp] theorem State.setHart_pcie (s : State) (x : Hart) : (s.setHart x).pcie = s.pcie := rfl
@[simp] theorem State.setHart_nov (s : State) (x : Hart) : (s.setHart x).nov = s.nov := rfl
@[simp] theorem State.setHart_pkg (s : State) (x : Hart) : (s.setHart x).pkg = s.pkg := rfl

/-! ## setCoreAt -/

@[simp] theorem State.setCoreAt_cur (s : State) (c : Nat) (x : CoreSt) : (s.setCoreAt c x).cur = s.cur := rfl
@[simp] theorem State.setCoreAt_sched (s : State) (c : Nat) (x : CoreSt) : (s.setCoreAt c x).sched = s.sched := rfl
@[simp] theorem State.setCoreAt_stepwise (s : State) (c : Nat) (x : CoreSt) : (s.setCoreAt c x).stepwise = s.stepwise := rfl
@[simp] theorem State.setCoreAt_bound (s : State) (c : Nat) (x : CoreSt) : (s.setCoreAt c x).bound = s.bound := rfl
@[simp] theorem State.setCoreAt_fresh (s : State) (c : Nat) (x : CoreSt) : (s.setCoreAt c x).fresh = s.fresh := rfl
@[simp] theorem State.setCoreAt_cc (s : State) (c : Nat) (x : CoreSt) : (s.setCoreAt c x).cc = s.cc := rfl
@[simp] theorem State.setCoreAt_ticks (s : State) (c : Nat) (x : CoreSt) : (s.setCoreAt c x).ticks = s.ticks := rfl
@[simp] theorem State.setCoreAt_mem (s : State) (c : Nat) (x : CoreSt) : (s.setCoreAt c x).mem = s.mem := rfl
@[simp] theorem State.setCoreAt_harts (s : State) (c : Nat) (x : CoreSt) : (s.setCoreAt c x).harts = s.harts := rfl
@[simp] theorem State.setCoreAt_clusters (s : State) (c : Nat) (x : CoreSt) : (s.setCoreAt c x).clusters = s.clusters := rfl
@[simp] theorem State.setCoreAt_dies (s : State) (c : Nat) (x : CoreSt) : (s.setCoreAt c x).dies = s.dies := rfl
@[simp] theorem State.setCoreAt_parts (s : State) (c : Nat) (x : CoreSt) : (s.setCoreAt c x).parts = s.parts := rfl
@[simp] theorem State.setCoreAt_mills (s : State) (c : Nat) (x : CoreSt) : (s.setCoreAt c x).mills = s.mills := rfl
@[simp] theorem State.setCoreAt_coh (s : State) (c : Nat) (x : CoreSt) : (s.setCoreAt c x).coh = s.coh := rfl
@[simp] theorem State.setCoreAt_power (s : State) (c : Nat) (x : CoreSt) : (s.setCoreAt c x).power = s.power := rfl
@[simp] theorem State.setCoreAt_chr (s : State) (c : Nat) (x : CoreSt) : (s.setCoreAt c x).chr = s.chr := rfl
@[simp] theorem State.setCoreAt_pcie (s : State) (c : Nat) (x : CoreSt) : (s.setCoreAt c x).pcie = s.pcie := rfl
@[simp] theorem State.setCoreAt_nov (s : State) (c : Nat) (x : CoreSt) : (s.setCoreAt c x).nov = s.nov := rfl
@[simp] theorem State.setCoreAt_pkg (s : State) (c : Nat) (x : CoreSt) : (s.setCoreAt c x).pkg = s.pkg := rfl

/-! ## setClusterAt -/

@[simp] theorem State.setClusterAt_cur (s : State) (c : Nat) (x : ClusterSt) : (s.setClusterAt c x).cur = s.cur := rfl
@[simp] theorem State.setClusterAt_sched (s : State) (c : Nat) (x : ClusterSt) : (s.setClusterAt c x).sched = s.sched := rfl
@[simp] theorem State.setClusterAt_stepwise (s : State) (c : Nat) (x : ClusterSt) : (s.setClusterAt c x).stepwise = s.stepwise := rfl
@[simp] theorem State.setClusterAt_bound (s : State) (c : Nat) (x : ClusterSt) : (s.setClusterAt c x).bound = s.bound := rfl
@[simp] theorem State.setClusterAt_fresh (s : State) (c : Nat) (x : ClusterSt) : (s.setClusterAt c x).fresh = s.fresh := rfl
@[simp] theorem State.setClusterAt_cc (s : State) (c : Nat) (x : ClusterSt) : (s.setClusterAt c x).cc = s.cc := rfl
@[simp] theorem State.setClusterAt_ticks (s : State) (c : Nat) (x : ClusterSt) : (s.setClusterAt c x).ticks = s.ticks := rfl
@[simp] theorem State.setClusterAt_mem (s : State) (c : Nat) (x : ClusterSt) : (s.setClusterAt c x).mem = s.mem := rfl
@[simp] theorem State.setClusterAt_harts (s : State) (c : Nat) (x : ClusterSt) : (s.setClusterAt c x).harts = s.harts := rfl
@[simp] theorem State.setClusterAt_cores (s : State) (c : Nat) (x : ClusterSt) : (s.setClusterAt c x).cores = s.cores := rfl
@[simp] theorem State.setClusterAt_dies (s : State) (c : Nat) (x : ClusterSt) : (s.setClusterAt c x).dies = s.dies := rfl
@[simp] theorem State.setClusterAt_parts (s : State) (c : Nat) (x : ClusterSt) : (s.setClusterAt c x).parts = s.parts := rfl
@[simp] theorem State.setClusterAt_mills (s : State) (c : Nat) (x : ClusterSt) : (s.setClusterAt c x).mills = s.mills := rfl
@[simp] theorem State.setClusterAt_coh (s : State) (c : Nat) (x : ClusterSt) : (s.setClusterAt c x).coh = s.coh := rfl
@[simp] theorem State.setClusterAt_power (s : State) (c : Nat) (x : ClusterSt) : (s.setClusterAt c x).power = s.power := rfl
@[simp] theorem State.setClusterAt_chr (s : State) (c : Nat) (x : ClusterSt) : (s.setClusterAt c x).chr = s.chr := rfl
@[simp] theorem State.setClusterAt_pcie (s : State) (c : Nat) (x : ClusterSt) : (s.setClusterAt c x).pcie = s.pcie := rfl
@[simp] theorem State.setClusterAt_nov (s : State) (c : Nat) (x : ClusterSt) : (s.setClusterAt c x).nov = s.nov := rfl
@[simp] theorem State.setClusterAt_pkg (s : State) (c : Nat) (x : ClusterSt) : (s.setClusterAt c x).pkg = s.pkg := rfl

/-! ## setDieAt -/

@[simp] theorem State.setDieAt_cur (s : State) (d : Nat) (x : DieSt) : (s.setDieAt d x).cur = s.cur := rfl
@[simp] theorem State.setDieAt_sched (s : State) (d : Nat) (x : DieSt) : (s.setDieAt d x).sched = s.sched := rfl
@[simp] theorem State.setDieAt_stepwise (s : State) (d : Nat) (x : DieSt) : (s.setDieAt d x).stepwise = s.stepwise := rfl
@[simp] theorem State.setDieAt_bound (s : State) (d : Nat) (x : DieSt) : (s.setDieAt d x).bound = s.bound := rfl
@[simp] theorem State.setDieAt_fresh (s : State) (d : Nat) (x : DieSt) : (s.setDieAt d x).fresh = s.fresh := rfl
@[simp] theorem State.setDieAt_cc (s : State) (d : Nat) (x : DieSt) : (s.setDieAt d x).cc = s.cc := rfl
@[simp] theorem State.setDieAt_ticks (s : State) (d : Nat) (x : DieSt) : (s.setDieAt d x).ticks = s.ticks := rfl
@[simp] theorem State.setDieAt_mem (s : State) (d : Nat) (x : DieSt) : (s.setDieAt d x).mem = s.mem := rfl
@[simp] theorem State.setDieAt_harts (s : State) (d : Nat) (x : DieSt) : (s.setDieAt d x).harts = s.harts := rfl
@[simp] theorem State.setDieAt_cores (s : State) (d : Nat) (x : DieSt) : (s.setDieAt d x).cores = s.cores := rfl
@[simp] theorem State.setDieAt_clusters (s : State) (d : Nat) (x : DieSt) : (s.setDieAt d x).clusters = s.clusters := rfl
@[simp] theorem State.setDieAt_parts (s : State) (d : Nat) (x : DieSt) : (s.setDieAt d x).parts = s.parts := rfl
@[simp] theorem State.setDieAt_mills (s : State) (d : Nat) (x : DieSt) : (s.setDieAt d x).mills = s.mills := rfl
@[simp] theorem State.setDieAt_coh (s : State) (d : Nat) (x : DieSt) : (s.setDieAt d x).coh = s.coh := rfl
@[simp] theorem State.setDieAt_power (s : State) (d : Nat) (x : DieSt) : (s.setDieAt d x).power = s.power := rfl
@[simp] theorem State.setDieAt_chr (s : State) (d : Nat) (x : DieSt) : (s.setDieAt d x).chr = s.chr := rfl
@[simp] theorem State.setDieAt_pcie (s : State) (d : Nat) (x : DieSt) : (s.setDieAt d x).pcie = s.pcie := rfl
@[simp] theorem State.setDieAt_nov (s : State) (d : Nat) (x : DieSt) : (s.setDieAt d x).nov = s.nov := rfl
@[simp] theorem State.setDieAt_pkg (s : State) (d : Nat) (x : DieSt) : (s.setDieAt d x).pkg = s.pkg := rfl

/-! ## setPartAt -/

@[simp] theorem State.setPartAt_cur (s : State) (p : Nat) (x : Part) : (s.setPartAt p x).cur = s.cur := rfl
@[simp] theorem State.setPartAt_sched (s : State) (p : Nat) (x : Part) : (s.setPartAt p x).sched = s.sched := rfl
@[simp] theorem State.setPartAt_stepwise (s : State) (p : Nat) (x : Part) : (s.setPartAt p x).stepwise = s.stepwise := rfl
@[simp] theorem State.setPartAt_bound (s : State) (p : Nat) (x : Part) : (s.setPartAt p x).bound = s.bound := rfl
@[simp] theorem State.setPartAt_fresh (s : State) (p : Nat) (x : Part) : (s.setPartAt p x).fresh = s.fresh := rfl
@[simp] theorem State.setPartAt_cc (s : State) (p : Nat) (x : Part) : (s.setPartAt p x).cc = s.cc := rfl
@[simp] theorem State.setPartAt_ticks (s : State) (p : Nat) (x : Part) : (s.setPartAt p x).ticks = s.ticks := rfl
@[simp] theorem State.setPartAt_mem (s : State) (p : Nat) (x : Part) : (s.setPartAt p x).mem = s.mem := rfl
@[simp] theorem State.setPartAt_harts (s : State) (p : Nat) (x : Part) : (s.setPartAt p x).harts = s.harts := rfl
@[simp] theorem State.setPartAt_cores (s : State) (p : Nat) (x : Part) : (s.setPartAt p x).cores = s.cores := rfl
@[simp] theorem State.setPartAt_clusters (s : State) (p : Nat) (x : Part) : (s.setPartAt p x).clusters = s.clusters := rfl
@[simp] theorem State.setPartAt_dies (s : State) (p : Nat) (x : Part) : (s.setPartAt p x).dies = s.dies := rfl
@[simp] theorem State.setPartAt_mills (s : State) (p : Nat) (x : Part) : (s.setPartAt p x).mills = s.mills := rfl
@[simp] theorem State.setPartAt_coh (s : State) (p : Nat) (x : Part) : (s.setPartAt p x).coh = s.coh := rfl
@[simp] theorem State.setPartAt_power (s : State) (p : Nat) (x : Part) : (s.setPartAt p x).power = s.power := rfl
@[simp] theorem State.setPartAt_chr (s : State) (p : Nat) (x : Part) : (s.setPartAt p x).chr = s.chr := rfl
@[simp] theorem State.setPartAt_pcie (s : State) (p : Nat) (x : Part) : (s.setPartAt p x).pcie = s.pcie := rfl
@[simp] theorem State.setPartAt_nov (s : State) (p : Nat) (x : Part) : (s.setPartAt p x).nov = s.nov := rfl
@[simp] theorem State.setPartAt_pkg (s : State) (p : Nat) (x : Part) : (s.setPartAt p x).pkg = s.pkg := rfl

/-! ## setMillAt -/

@[simp] theorem State.setMillAt_cur (s : State) (h : Nat) (x : Mill) : (s.setMillAt h x).cur = s.cur := rfl
@[simp] theorem State.setMillAt_sched (s : State) (h : Nat) (x : Mill) : (s.setMillAt h x).sched = s.sched := rfl
@[simp] theorem State.setMillAt_stepwise (s : State) (h : Nat) (x : Mill) : (s.setMillAt h x).stepwise = s.stepwise := rfl
@[simp] theorem State.setMillAt_bound (s : State) (h : Nat) (x : Mill) : (s.setMillAt h x).bound = s.bound := rfl
@[simp] theorem State.setMillAt_fresh (s : State) (h : Nat) (x : Mill) : (s.setMillAt h x).fresh = s.fresh := rfl
@[simp] theorem State.setMillAt_cc (s : State) (h : Nat) (x : Mill) : (s.setMillAt h x).cc = s.cc := rfl
@[simp] theorem State.setMillAt_ticks (s : State) (h : Nat) (x : Mill) : (s.setMillAt h x).ticks = s.ticks := rfl
@[simp] theorem State.setMillAt_mem (s : State) (h : Nat) (x : Mill) : (s.setMillAt h x).mem = s.mem := rfl
@[simp] theorem State.setMillAt_harts (s : State) (h : Nat) (x : Mill) : (s.setMillAt h x).harts = s.harts := rfl
@[simp] theorem State.setMillAt_cores (s : State) (h : Nat) (x : Mill) : (s.setMillAt h x).cores = s.cores := rfl
@[simp] theorem State.setMillAt_clusters (s : State) (h : Nat) (x : Mill) : (s.setMillAt h x).clusters = s.clusters := rfl
@[simp] theorem State.setMillAt_dies (s : State) (h : Nat) (x : Mill) : (s.setMillAt h x).dies = s.dies := rfl
@[simp] theorem State.setMillAt_parts (s : State) (h : Nat) (x : Mill) : (s.setMillAt h x).parts = s.parts := rfl
@[simp] theorem State.setMillAt_coh (s : State) (h : Nat) (x : Mill) : (s.setMillAt h x).coh = s.coh := rfl
@[simp] theorem State.setMillAt_power (s : State) (h : Nat) (x : Mill) : (s.setMillAt h x).power = s.power := rfl
@[simp] theorem State.setMillAt_chr (s : State) (h : Nat) (x : Mill) : (s.setMillAt h x).chr = s.chr := rfl
@[simp] theorem State.setMillAt_pcie (s : State) (h : Nat) (x : Mill) : (s.setMillAt h x).pcie = s.pcie := rfl
@[simp] theorem State.setMillAt_nov (s : State) (h : Nat) (x : Mill) : (s.setMillAt h x).nov = s.nov := rfl
@[simp] theorem State.setMillAt_pkg (s : State) (h : Nat) (x : Mill) : (s.setMillAt h x).pkg = s.pkg := rfl

/-! ## modHart -/

@[simp] theorem State.modHart_cur (s : State) (h : Nat) (g : Hart → Hart) : (s.modHart h g).cur = s.cur := rfl
@[simp] theorem State.modHart_sched (s : State) (h : Nat) (g : Hart → Hart) : (s.modHart h g).sched = s.sched := rfl
@[simp] theorem State.modHart_stepwise (s : State) (h : Nat) (g : Hart → Hart) : (s.modHart h g).stepwise = s.stepwise := rfl
@[simp] theorem State.modHart_bound (s : State) (h : Nat) (g : Hart → Hart) : (s.modHart h g).bound = s.bound := rfl
@[simp] theorem State.modHart_fresh (s : State) (h : Nat) (g : Hart → Hart) : (s.modHart h g).fresh = s.fresh := rfl
@[simp] theorem State.modHart_cc (s : State) (h : Nat) (g : Hart → Hart) : (s.modHart h g).cc = s.cc := rfl
@[simp] theorem State.modHart_ticks (s : State) (h : Nat) (g : Hart → Hart) : (s.modHart h g).ticks = s.ticks := rfl
@[simp] theorem State.modHart_mem (s : State) (h : Nat) (g : Hart → Hart) : (s.modHart h g).mem = s.mem := rfl
@[simp] theorem State.modHart_cores (s : State) (h : Nat) (g : Hart → Hart) : (s.modHart h g).cores = s.cores := rfl
@[simp] theorem State.modHart_clusters (s : State) (h : Nat) (g : Hart → Hart) : (s.modHart h g).clusters = s.clusters := rfl
@[simp] theorem State.modHart_dies (s : State) (h : Nat) (g : Hart → Hart) : (s.modHart h g).dies = s.dies := rfl
@[simp] theorem State.modHart_parts (s : State) (h : Nat) (g : Hart → Hart) : (s.modHart h g).parts = s.parts := rfl
@[simp] theorem State.modHart_mills (s : State) (h : Nat) (g : Hart → Hart) : (s.modHart h g).mills = s.mills := rfl
@[simp] theorem State.modHart_coh (s : State) (h : Nat) (g : Hart → Hart) : (s.modHart h g).coh = s.coh := rfl
@[simp] theorem State.modHart_power (s : State) (h : Nat) (g : Hart → Hart) : (s.modHart h g).power = s.power := rfl
@[simp] theorem State.modHart_chr (s : State) (h : Nat) (g : Hart → Hart) : (s.modHart h g).chr = s.chr := rfl
@[simp] theorem State.modHart_pcie (s : State) (h : Nat) (g : Hart → Hart) : (s.modHart h g).pcie = s.pcie := rfl
@[simp] theorem State.modHart_nov (s : State) (h : Nat) (g : Hart → Hart) : (s.modHart h g).nov = s.nov := rfl
@[simp] theorem State.modHart_pkg (s : State) (h : Nat) (g : Hart → Hart) : (s.modHart h g).pkg = s.pkg := rfl

/-! ## modDie -/

@[simp] theorem State.modDie_cur (s : State) (d : Nat) (g : DieSt → DieSt) : (s.modDie d g).cur = s.cur := rfl
@[simp] theorem State.modDie_sched (s : State) (d : Nat) (g : DieSt → DieSt) : (s.modDie d g).sched = s.sched := rfl
@[simp] theorem State.modDie_stepwise (s : State) (d : Nat) (g : DieSt → DieSt) : (s.modDie d g).stepwise = s.stepwise := rfl
@[simp] theorem State.modDie_bound (s : State) (d : Nat) (g : DieSt → DieSt) : (s.modDie d g).bound = s.bound := rfl
@[simp] theorem State.modDie_fresh (s : State) (d : Nat) (g : DieSt → DieSt) : (s.modDie d g).fresh = s.fresh := rfl
@[simp] theorem State.modDie_cc (s : State) (d : Nat) (g : DieSt → DieSt) : (s.modDie d g).cc = s.cc := rfl
@[simp] theorem State.modDie_ticks (s : State) (d : Nat) (g : DieSt → DieSt) : (s.modDie d g).ticks = s.ticks := rfl
@[simp] theorem State.modDie_mem (s : State) (d : Nat) (g : DieSt → DieSt) : (s.modDie d g).mem = s.mem := rfl
@[simp] theorem State.modDie_harts (s : State) (d : Nat) (g : DieSt → DieSt) : (s.modDie d g).harts = s.harts := rfl
@[simp] theorem State.modDie_cores (s : State) (d : Nat) (g : DieSt → DieSt) : (s.modDie d g).cores = s.cores := rfl
@[simp] theorem State.modDie_clusters (s : State) (d : Nat) (g : DieSt → DieSt) : (s.modDie d g).clusters = s.clusters := rfl
@[simp] theorem State.modDie_parts (s : State) (d : Nat) (g : DieSt → DieSt) : (s.modDie d g).parts = s.parts := rfl
@[simp] theorem State.modDie_mills (s : State) (d : Nat) (g : DieSt → DieSt) : (s.modDie d g).mills = s.mills := rfl
@[simp] theorem State.modDie_coh (s : State) (d : Nat) (g : DieSt → DieSt) : (s.modDie d g).coh = s.coh := rfl
@[simp] theorem State.modDie_power (s : State) (d : Nat) (g : DieSt → DieSt) : (s.modDie d g).power = s.power := rfl
@[simp] theorem State.modDie_chr (s : State) (d : Nat) (g : DieSt → DieSt) : (s.modDie d g).chr = s.chr := rfl
@[simp] theorem State.modDie_pcie (s : State) (d : Nat) (g : DieSt → DieSt) : (s.modDie d g).pcie = s.pcie := rfl
@[simp] theorem State.modDie_nov (s : State) (d : Nat) (g : DieSt → DieSt) : (s.modDie d g).nov = s.nov := rfl
@[simp] theorem State.modDie_pkg (s : State) (d : Nat) (g : DieSt → DieSt) : (s.modDie d g).pkg = s.pkg := rfl

/-! ## useFresh -/

@[simp] theorem State.useFresh_cur (s : State) : (s.useFresh).cur = s.cur := rfl
@[simp] theorem State.useFresh_sched (s : State) : (s.useFresh).sched = s.sched := rfl
@[simp] theorem State.useFresh_stepwise (s : State) : (s.useFresh).stepwise = s.stepwise := rfl
@[simp] theorem State.useFresh_bound (s : State) : (s.useFresh).bound = s.bound := rfl
@[simp] theorem State.useFresh_cc (s : State) : (s.useFresh).cc = s.cc := rfl
@[simp] theorem State.useFresh_ticks (s : State) : (s.useFresh).ticks = s.ticks := rfl
@[simp] theorem State.useFresh_mem (s : State) : (s.useFresh).mem = s.mem := rfl
@[simp] theorem State.useFresh_harts (s : State) : (s.useFresh).harts = s.harts := rfl
@[simp] theorem State.useFresh_cores (s : State) : (s.useFresh).cores = s.cores := rfl
@[simp] theorem State.useFresh_clusters (s : State) : (s.useFresh).clusters = s.clusters := rfl
@[simp] theorem State.useFresh_dies (s : State) : (s.useFresh).dies = s.dies := rfl
@[simp] theorem State.useFresh_parts (s : State) : (s.useFresh).parts = s.parts := rfl
@[simp] theorem State.useFresh_mills (s : State) : (s.useFresh).mills = s.mills := rfl
@[simp] theorem State.useFresh_coh (s : State) : (s.useFresh).coh = s.coh := rfl
@[simp] theorem State.useFresh_power (s : State) : (s.useFresh).power = s.power := rfl
@[simp] theorem State.useFresh_chr (s : State) : (s.useFresh).chr = s.chr := rfl
@[simp] theorem State.useFresh_pcie (s : State) : (s.useFresh).pcie = s.pcie := rfl
@[simp] theorem State.useFresh_nov (s : State) : (s.useFresh).nov = s.nov := rfl
@[simp] theorem State.useFresh_pkg (s : State) : (s.useFresh).pkg = s.pkg := rfl

/-! ## tick -/

@[simp] theorem State.tick_cur (s : State) : (s.tick).cur = s.cur := rfl
@[simp] theorem State.tick_sched (s : State) : (s.tick).sched = s.sched := rfl
@[simp] theorem State.tick_stepwise (s : State) : (s.tick).stepwise = s.stepwise := rfl
@[simp] theorem State.tick_bound (s : State) : (s.tick).bound = s.bound := rfl
@[simp] theorem State.tick_fresh (s : State) : (s.tick).fresh = s.fresh := rfl
@[simp] theorem State.tick_ticks (s : State) : (s.tick).ticks = s.ticks := rfl
@[simp] theorem State.tick_mem (s : State) : (s.tick).mem = s.mem := rfl
@[simp] theorem State.tick_harts (s : State) : (s.tick).harts = s.harts := rfl
@[simp] theorem State.tick_cores (s : State) : (s.tick).cores = s.cores := rfl
@[simp] theorem State.tick_clusters (s : State) : (s.tick).clusters = s.clusters := rfl
@[simp] theorem State.tick_dies (s : State) : (s.tick).dies = s.dies := rfl
@[simp] theorem State.tick_parts (s : State) : (s.tick).parts = s.parts := rfl
@[simp] theorem State.tick_mills (s : State) : (s.tick).mills = s.mills := rfl
@[simp] theorem State.tick_coh (s : State) : (s.tick).coh = s.coh := rfl
@[simp] theorem State.tick_chr (s : State) : (s.tick).chr = s.chr := rfl
@[simp] theorem State.tick_pcie (s : State) : (s.tick).pcie = s.pcie := rfl
@[simp] theorem State.tick_nov (s : State) : (s.tick).nov = s.nov := rfl
@[simp] theorem State.tick_pkg (s : State) : (s.tick).pkg = s.pkg := rfl

@[simp] theorem settleReads_cur (h k : Nat) (s : State) : (settleReads h k s).cur = s.cur := rfl
@[simp] theorem settleReads_sched (h k : Nat) (s : State) : (settleReads h k s).sched = s.sched := rfl
@[simp] theorem settleReads_stepwise (h k : Nat) (s : State) : (settleReads h k s).stepwise = s.stepwise := rfl
@[simp] theorem settleReads_bound (h k : Nat) (s : State) : (settleReads h k s).bound = s.bound := rfl
@[simp] theorem settleReads_fresh (h k : Nat) (s : State) : (settleReads h k s).fresh = s.fresh := rfl
@[simp] theorem settleReads_cc (h k : Nat) (s : State) : (settleReads h k s).cc = s.cc := rfl
@[simp] theorem settleReads_ticks (h k : Nat) (s : State) : (settleReads h k s).ticks = s.ticks := rfl
@[simp] theorem settleReads_mem (h k : Nat) (s : State) : (settleReads h k s).mem = s.mem := rfl
@[simp] theorem settleReads_harts (h k : Nat) (s : State) : (settleReads h k s).harts = s.harts := rfl
@[simp] theorem settleReads_cores (h k : Nat) (s : State) : (settleReads h k s).cores = s.cores := rfl
@[simp] theorem settleReads_clusters (h k : Nat) (s : State) : (settleReads h k s).clusters = s.clusters := rfl
@[simp] theorem settleReads_dies (h k : Nat) (s : State) : (settleReads h k s).dies = s.dies := rfl
@[simp] theorem settleReads_parts (h k : Nat) (s : State) : (settleReads h k s).parts = s.parts := rfl
@[simp] theorem settleReads_mills (h k : Nat) (s : State) : (settleReads h k s).mills = s.mills := rfl
@[simp] theorem settleReads_power (h k : Nat) (s : State) : (settleReads h k s).power = s.power := rfl
@[simp] theorem settleReads_chr (h k : Nat) (s : State) : (settleReads h k s).chr = s.chr := rfl
@[simp] theorem settleReads_pcie (h k : Nat) (s : State) : (settleReads h k s).pcie = s.pcie := rfl
@[simp] theorem settleReads_nov (h k : Nat) (s : State) : (settleReads h k s).nov = s.nov := rfl
@[simp] theorem settleReads_pkg (h k : Nat) (s : State) : (settleReads h k s).pkg = s.pkg := rfl

/-! ## retireTo -/

@[simp] theorem Hart.retireTo_x (h : Hart) (p : Word) : (h.retireTo p).x = h.x := rfl
@[simp] theorem Hart.retireTo_shadow (h : Hart) (p : Word) : (h.retireTo p).shadow = h.shadow := rfl
@[simp] theorem Hart.retireTo_f (h : Hart) (p : Word) : (h.retireTo p).f = h.f := rfl
@[simp] theorem Hart.retireTo_fcsr (h : Hart) (p : Word) : (h.retireTo p).fcsr = h.fcsr := rfl
@[simp] theorem Hart.retireTo_priv (h : Hart) (p : Word) : (h.retireTo p).priv = h.priv := rfl
@[simp] theorem Hart.retireTo_ints (h : Hart) (p : Word) : (h.retireTo p).ints = h.ints := rfl
@[simp] theorem Hart.retireTo_dev (h : Hart) (p : Word) : (h.retireTo p).dev = h.dev := rfl
@[simp] theorem Hart.retireTo_ctl (h : Hart) (p : Word) : (h.retireTo p).ctl = h.ctl := rfl

/-! ## retire -/

@[simp] theorem Hart.retire_x (h : Hart) : (h.retire).x = h.x := rfl
@[simp] theorem Hart.retire_shadow (h : Hart) : (h.retire).shadow = h.shadow := rfl
@[simp] theorem Hart.retire_f (h : Hart) : (h.retire).f = h.f := rfl
@[simp] theorem Hart.retire_fcsr (h : Hart) : (h.retire).fcsr = h.fcsr := rfl
@[simp] theorem Hart.retire_priv (h : Hart) : (h.retire).priv = h.priv := rfl
@[simp] theorem Hart.retire_ints (h : Hart) : (h.retire).ints = h.ints := rfl
@[simp] theorem Hart.retire_dev (h : Hart) : (h.retire).dev = h.dev := rfl
@[simp] theorem Hart.retire_ctl (h : Hart) : (h.retire).ctl = h.ctl := rfl

/-! ## setElem -/

@[simp] theorem Hart.setElem_pc (h : Hart) (r n e v : Nat) : (h.setElem r n e v).pc = h.pc := rfl
@[simp] theorem Hart.setElem_x (h : Hart) (r n e v : Nat) : (h.setElem r n e v).x = h.x := rfl
@[simp] theorem Hart.setElem_shadow (h : Hart) (r n e v : Nat) : (h.setElem r n e v).shadow = h.shadow := rfl
@[simp] theorem Hart.setElem_f (h : Hart) (r n e v : Nat) : (h.setElem r n e v).f = h.f := rfl
@[simp] theorem Hart.setElem_fcsr (h : Hart) (r n e v : Nat) : (h.setElem r n e v).fcsr = h.fcsr := rfl
@[simp] theorem Hart.setElem_priv (h : Hart) (r n e v : Nat) : (h.setElem r n e v).priv = h.priv := rfl
@[simp] theorem Hart.setElem_csr (h : Hart) (r n e v : Nat) : (h.setElem r n e v).csr = h.csr := rfl
@[simp] theorem Hart.setElem_ints (h : Hart) (r n e v : Nat) : (h.setElem r n e v).ints = h.ints := rfl
@[simp] theorem Hart.setElem_dev (h : Hart) (r n e v : Nat) : (h.setElem r n e v).dev = h.dev := rfl
@[simp] theorem Hart.setElem_ctl (h : Hart) (r n e v : Nat) : (h.setElem r n e v).ctl = h.ctl := rfl
@[simp] theorem Hart.setElem_run (h : Hart) (r n e v : Nat) : (h.setElem r n e v).run = h.run := rfl

/-! ## setMaskBit -/

@[simp] theorem Hart.setMaskBit_pc (h : Hart) (r e : Nat) (b : Bool) : (h.setMaskBit r e b).pc = h.pc := rfl
@[simp] theorem Hart.setMaskBit_x (h : Hart) (r e : Nat) (b : Bool) : (h.setMaskBit r e b).x = h.x := rfl
@[simp] theorem Hart.setMaskBit_shadow (h : Hart) (r e : Nat) (b : Bool) : (h.setMaskBit r e b).shadow = h.shadow := rfl
@[simp] theorem Hart.setMaskBit_f (h : Hart) (r e : Nat) (b : Bool) : (h.setMaskBit r e b).f = h.f := rfl
@[simp] theorem Hart.setMaskBit_fcsr (h : Hart) (r e : Nat) (b : Bool) : (h.setMaskBit r e b).fcsr = h.fcsr := rfl
@[simp] theorem Hart.setMaskBit_priv (h : Hart) (r e : Nat) (b : Bool) : (h.setMaskBit r e b).priv = h.priv := rfl
@[simp] theorem Hart.setMaskBit_csr (h : Hart) (r e : Nat) (b : Bool) : (h.setMaskBit r e b).csr = h.csr := rfl
@[simp] theorem Hart.setMaskBit_ints (h : Hart) (r e : Nat) (b : Bool) : (h.setMaskBit r e b).ints = h.ints := rfl
@[simp] theorem Hart.setMaskBit_dev (h : Hart) (r e : Nat) (b : Bool) : (h.setMaskBit r e b).dev = h.dev := rfl
@[simp] theorem Hart.setMaskBit_ctl (h : Hart) (r e : Nat) (b : Bool) : (h.setMaskBit r e b).ctl = h.ctl := rfl
@[simp] theorem Hart.setMaskBit_run (h : Hart) (r e : Nat) (b : Bool) : (h.setMaskBit r e b).run = h.run := rfl

/-! ## setMask -/

@[simp] theorem Hart.setMask_pc (h : Hart) (r : Nat) (v : VReg) : (h.setMask r v).pc = h.pc := rfl
@[simp] theorem Hart.setMask_x (h : Hart) (r : Nat) (v : VReg) : (h.setMask r v).x = h.x := rfl
@[simp] theorem Hart.setMask_shadow (h : Hart) (r : Nat) (v : VReg) : (h.setMask r v).shadow = h.shadow := rfl
@[simp] theorem Hart.setMask_f (h : Hart) (r : Nat) (v : VReg) : (h.setMask r v).f = h.f := rfl
@[simp] theorem Hart.setMask_fcsr (h : Hart) (r : Nat) (v : VReg) : (h.setMask r v).fcsr = h.fcsr := rfl
@[simp] theorem Hart.setMask_priv (h : Hart) (r : Nat) (v : VReg) : (h.setMask r v).priv = h.priv := rfl
@[simp] theorem Hart.setMask_csr (h : Hart) (r : Nat) (v : VReg) : (h.setMask r v).csr = h.csr := rfl
@[simp] theorem Hart.setMask_ints (h : Hart) (r : Nat) (v : VReg) : (h.setMask r v).ints = h.ints := rfl
@[simp] theorem Hart.setMask_dev (h : Hart) (r : Nat) (v : VReg) : (h.setMask r v).dev = h.dev := rfl
@[simp] theorem Hart.setMask_ctl (h : Hart) (r : Nat) (v : VReg) : (h.setMask r v).ctl = h.ctl := rfl
@[simp] theorem Hart.setMask_run (h : Hart) (r : Nat) (v : VReg) : (h.setMask r v).run = h.run := rfl

/-! ## addFlags -/

@[simp] theorem Hart.addFlags_pc (h : Hart) (e : Ev) : (h.addFlags e).pc = h.pc := rfl
@[simp] theorem Hart.addFlags_x (h : Hart) (e : Ev) : (h.addFlags e).x = h.x := rfl
@[simp] theorem Hart.addFlags_shadow (h : Hart) (e : Ev) : (h.addFlags e).shadow = h.shadow := rfl
@[simp] theorem Hart.addFlags_f (h : Hart) (e : Ev) : (h.addFlags e).f = h.f := rfl
@[simp] theorem Hart.addFlags_fcsr (h : Hart) (e : Ev) : (h.addFlags e).fcsr = h.fcsr := rfl
@[simp] theorem Hart.addFlags_priv (h : Hart) (e : Ev) : (h.addFlags e).priv = h.priv := rfl
@[simp] theorem Hart.addFlags_csr (h : Hart) (e : Ev) : (h.addFlags e).csr = h.csr := rfl
@[simp] theorem Hart.addFlags_ints (h : Hart) (e : Ev) : (h.addFlags e).ints = h.ints := rfl
@[simp] theorem Hart.addFlags_dev (h : Hart) (e : Ev) : (h.addFlags e).dev = h.dev := rfl
@[simp] theorem Hart.addFlags_ctl (h : Hart) (e : Ev) : (h.addFlags e).ctl = h.ctl := rfl
@[simp] theorem Hart.addFlags_run (h : Hart) (e : Ev) : (h.addFlags e).run = h.run := rfl

/-! ## setF -/

@[simp] theorem Hart.setF_pc (h : Hart) (r : BitVec 5) (v : Word) : (h.setF r v).pc = h.pc := rfl
@[simp] theorem Hart.setF_x (h : Hart) (r : BitVec 5) (v : Word) : (h.setF r v).x = h.x := rfl
@[simp] theorem Hart.setF_shadow (h : Hart) (r : BitVec 5) (v : Word) : (h.setF r v).shadow = h.shadow := rfl
@[simp] theorem Hart.setF_fcsr (h : Hart) (r : BitVec 5) (v : Word) : (h.setF r v).fcsr = h.fcsr := rfl
@[simp] theorem Hart.setF_priv (h : Hart) (r : BitVec 5) (v : Word) : (h.setF r v).priv = h.priv := rfl
@[simp] theorem Hart.setF_ints (h : Hart) (r : BitVec 5) (v : Word) : (h.setF r v).ints = h.ints := rfl
@[simp] theorem Hart.setF_vec (h : Hart) (r : BitVec 5) (v : Word) : (h.setF r v).vec = h.vec := rfl
@[simp] theorem Hart.setF_dev (h : Hart) (r : BitVec 5) (v : Word) : (h.setF r v).dev = h.dev := rfl
@[simp] theorem Hart.setF_ctl (h : Hart) (r : BitVec 5) (v : Word) : (h.setF r v).ctl = h.ctl := rfl
@[simp] theorem Hart.setF_run (h : Hart) (r : BitVec 5) (v : Word) : (h.setF r v).run = h.run := rfl

/-! ## addFflags -/

@[simp] theorem Hart.addFflags_pc (h : Hart) (e : Ev) : (h.addFflags e).pc = h.pc := rfl
@[simp] theorem Hart.addFflags_x (h : Hart) (e : Ev) : (h.addFflags e).x = h.x := rfl
@[simp] theorem Hart.addFflags_shadow (h : Hart) (e : Ev) : (h.addFflags e).shadow = h.shadow := rfl
@[simp] theorem Hart.addFflags_f (h : Hart) (e : Ev) : (h.addFflags e).f = h.f := rfl
@[simp] theorem Hart.addFflags_priv (h : Hart) (e : Ev) : (h.addFflags e).priv = h.priv := rfl
@[simp] theorem Hart.addFflags_ints (h : Hart) (e : Ev) : (h.addFflags e).ints = h.ints := rfl
@[simp] theorem Hart.addFflags_vec (h : Hart) (e : Ev) : (h.addFflags e).vec = h.vec := rfl
@[simp] theorem Hart.addFflags_dev (h : Hart) (e : Ev) : (h.addFflags e).dev = h.dev := rfl
@[simp] theorem Hart.addFflags_ctl (h : Hart) (e : Ev) : (h.addFflags e).ctl = h.ctl := rfl
@[simp] theorem Hart.addFflags_run (h : Hart) (e : Ev) : (h.addFflags e).run = h.run := rfl

/-! ## parkAt -/

@[simp] theorem Hart.parkAt_pc (h : Hart) (c : Nat) (p : Word) : (h.parkAt c p).pc = h.pc := rfl
@[simp] theorem Hart.parkAt_x (h : Hart) (c : Nat) (p : Word) : (h.parkAt c p).x = h.x := rfl
@[simp] theorem Hart.parkAt_shadow (h : Hart) (c : Nat) (p : Word) : (h.parkAt c p).shadow = h.shadow := rfl
@[simp] theorem Hart.parkAt_f (h : Hart) (c : Nat) (p : Word) : (h.parkAt c p).f = h.f := rfl
@[simp] theorem Hart.parkAt_fcsr (h : Hart) (c : Nat) (p : Word) : (h.parkAt c p).fcsr = h.fcsr := rfl
@[simp] theorem Hart.parkAt_priv (h : Hart) (c : Nat) (p : Word) : (h.parkAt c p).priv = h.priv := rfl
@[simp] theorem Hart.parkAt_csr (h : Hart) (c : Nat) (p : Word) : (h.parkAt c p).csr = h.csr := rfl
@[simp] theorem Hart.parkAt_ints (h : Hart) (c : Nat) (p : Word) : (h.parkAt c p).ints = h.ints := rfl
@[simp] theorem Hart.parkAt_vec (h : Hart) (c : Nat) (p : Word) : (h.parkAt c p).vec = h.vec := rfl
@[simp] theorem Hart.parkAt_dev (h : Hart) (c : Nat) (p : Word) : (h.parkAt c p).dev = h.dev := rfl

/-! ## vretire -/

@[simp] theorem Hart.vretire_x (h : Hart) (t : Bool) : (h.vretire t).x = h.x := rfl
@[simp] theorem Hart.vretire_shadow (h : Hart) (t : Bool) : (h.vretire t).shadow = h.shadow := rfl
@[simp] theorem Hart.vretire_f (h : Hart) (t : Bool) : (h.vretire t).f = h.f := rfl
@[simp] theorem Hart.vretire_fcsr (h : Hart) (t : Bool) : (h.vretire t).fcsr = h.fcsr := rfl
@[simp] theorem Hart.vretire_priv (h : Hart) (t : Bool) : (h.vretire t).priv = h.priv := rfl
@[simp] theorem Hart.vretire_ints (h : Hart) (t : Bool) : (h.vretire t).ints = h.ints := rfl
@[simp] theorem Hart.vretire_dev (h : Hart) (t : Bool) : (h.vretire t).dev = h.dev := rfl
@[simp] theorem Hart.vretire_ctl (h : Hart) (t : Bool) : (h.vretire t).ctl = h.ctl := rfl

/-! ## setX -/

@[simp] theorem Hart.setX_pc (h : Hart) (r : BitVec 5) (v : Word) : (h.setX r v).pc = h.pc := by
  unfold Hart.setX; split
  · rfl
  · split <;> rfl
@[simp] theorem Hart.setX_f (h : Hart) (r : BitVec 5) (v : Word) : (h.setX r v).f = h.f := by
  unfold Hart.setX; split
  · rfl
  · split <;> rfl
@[simp] theorem Hart.setX_fcsr (h : Hart) (r : BitVec 5) (v : Word) : (h.setX r v).fcsr = h.fcsr := by
  unfold Hart.setX; split
  · rfl
  · split <;> rfl
@[simp] theorem Hart.setX_priv (h : Hart) (r : BitVec 5) (v : Word) : (h.setX r v).priv = h.priv := by
  unfold Hart.setX; split
  · rfl
  · split <;> rfl
@[simp] theorem Hart.setX_csr (h : Hart) (r : BitVec 5) (v : Word) : (h.setX r v).csr = h.csr := by
  unfold Hart.setX; split
  · rfl
  · split <;> rfl
@[simp] theorem Hart.setX_ints (h : Hart) (r : BitVec 5) (v : Word) : (h.setX r v).ints = h.ints := by
  unfold Hart.setX; split
  · rfl
  · split <;> rfl
@[simp] theorem Hart.setX_vec (h : Hart) (r : BitVec 5) (v : Word) : (h.setX r v).vec = h.vec := by
  unfold Hart.setX; split
  · rfl
  · split <;> rfl
@[simp] theorem Hart.setX_dev (h : Hart) (r : BitVec 5) (v : Word) : (h.setX r v).dev = h.dev := by
  unfold Hart.setX; split
  · rfl
  · split <;> rfl
@[simp] theorem Hart.setX_ctl (h : Hart) (r : BitVec 5) (v : Word) : (h.setX r v).ctl = h.ctl := by
  unfold Hart.setX; split
  · rfl
  · split <;> rfl
@[simp] theorem Hart.setX_run (h : Hart) (r : BitVec 5) (v : Word) : (h.setX r v).run = h.run := by
  unfold Hart.setX; split
  · rfl
  · split <;> rfl

end Sys2Proof.Machine
end

