-- ==== Sys2Proof/Laws/Acts.lean ====
section
/-! SUPPORT. The computations of a meaning: what a sequence of them does, and how an instruction ends. -/

namespace Sys2Proof.Machine

/-! ## Sequences -/

@[simp] theorem getS_bind {α : Type} (f : State → Act α) (s : State) : (getS >>= f) s = f s s := rfl
@[simp] theorem setS_bind {α : Type} (t : State) (f : Unit → Act α) (s : State) : (setS t >>= f) s = f () t := rfl
@[simp] theorem onHart_bind {α : Type} (g : Hart → Hart) (f : Unit → Act α) (s : State) :
    (onHart g >>= f) s = f () (s.setHart (g s.hart)) := rfl
@[simp] theorem stop_bind {α β : Type} (e : Stop) (f : α → Act β) (s : State) : ((stop e : Act α) >>= f) s = .error e s :=
  rfl
@[simp] theorem pure_bind' {α β : Type} (x : α) (f : α → Act β) (s : State) : ((pure x : Act α) >>= f) s = f x s := rfl

theorem ensure_true {c : Bool} (e : Stop) (s : State) (h : c = true) : ensure c e s = .ok () s := by
  subst h; rfl

theorem ensure_bind {α : Type} {c : Bool} (e : Stop) (f : Unit → Act α) (s : State) (h : c = true) :
    (ensure c e >>= f) s = f () s := by
  subst h; rfl

theorem bind_ok {α β : Type} {a : Act α} {s t : State} {x : α} (f : α → Act β) (h : a s = .ok x t) :
    (a >>= f) s = f x t := by
  show EStateM.bind a f s = _
  unfold EStateM.bind
  rw [h]

theorem bind_error {α β : Type} {a : Act α} {s t : State} {e : Stop} (f : α → Act β) (h : a s = .error e t) :
    (a >>= f) s = .error e t := by
  show EStateM.bind a f s = _
  unfold EStateM.bind
  rw [h]

/-! ## The end of an instruction -/

/-- A meaning that ends gives its state, with its remote reads settled. -/
theorem runAct_ok {i : Instr} {a : Act Unit} {s t : State} (h : a s = .ok () t) :
    runAct i a s = .next (settleReads s.cur 0 t) := by
  unfold runAct
  rw [h]

/-- A wait leaves PC where it is. -/
theorem runAct_stall {i : Instr} {a : Act Unit} {s t : State} (h : a s = .error .stall t) : runAct i a s = .next t := by
  unfold runAct
  rw [h]

/-- An instruction that traps answers the state after trap entry. -/
theorem runAct_trap {i : Instr} {a : Act Unit} {s t : State} {c : Nat} {v : Word} (h : a s = .error (.trap c v) t) :
    runAct i a s = .next (raise c v (settleReads s.cur 0 t)) := by
  unfold runAct
  rw [h]
  rfl

/-- An illegal instruction takes cause 2 with its word. -/
theorem runAct_illegal {i : Instr} {a : Act Unit} {s t : State} (h : a s = .error .illegal t) :
    runAct i a s = .next (raise 2 ((wordOf i).setWidth 64) (settleReads s.cur 0 t)) := by
  unfold runAct
  rw [h]
  rfl

/-- Every meaning built by `runAct` answers a next state. -/
theorem runAct_next (i : Instr) (a : Act Unit) (s : State) : ∃ t, runAct i a s = .next t := by
  unfold runAct
  split
  · exact ⟨_, rfl⟩
  · exact ⟨_, rfl⟩
  · exact ⟨_, rfl⟩

end Sys2Proof.Machine
end

