-- ==== Sys2Proof/Laws/Bits.lean ====
section
/-! SUPPORT. What replacing a bit field does to the bits and fields of a vector, and bytes of numbers. -/

namespace Sys2Proof.Machine
theorem getLsbD_setField {w : Nat} (x : BitVec w) (lo n v i : Nat) :
    (setField x lo n v).getLsbD i =
      (if lo ≤ i ∧ i < lo + n then decide (i < w) && v.testBit (i - lo) else x.getLsbD i) := by
  unfold setField
  simp only [BitVec.getLsbD_or, BitVec.getLsbD_and, BitVec.getLsbD_not, BitVec.getLsbD_ofNat]
  have h1 : ((2 ^ n - 1) * 2 ^ lo).testBit i = decide (lo ≤ i ∧ i < lo + n) := by
    rw [Nat.testBit_mul_two_pow, Nat.testBit_two_pow_sub_one]
    by_cases h : lo ≤ i <;> simp [h]; omega
  have h2 : (v % 2 ^ n * 2 ^ lo).testBit i = (decide (lo ≤ i ∧ i < lo + n) && v.testBit (i - lo)) := by
    rw [Nat.testBit_mul_two_pow, Nat.testBit_mod_two_pow]
    by_cases h : lo ≤ i <;> simp [h]
    by_cases h' : i < lo + n
    · simp [h', (by omega : i - lo < n)]
    · simp only [h', decide_false, Bool.false_and, Bool.and_eq_false_imp, decide_eq_true_eq]
      intro h''; omega
  rw [h1, h2]
  by_cases hw : i < w
  · by_cases h : lo ≤ i ∧ i < lo + n <;> simp [h, hw]
  · have : x.getLsbD i = false := BitVec.getLsbD_of_ge x i (by omega)
    simp [hw, this]

theorem fieldOf_setField_same {w : Nat} (x : BitVec w) (lo n v : Nat) (h : lo + n ≤ w) :
    fieldOf (setField x lo n v) lo n = v % 2 ^ n := by
  unfold fieldOf
  apply Nat.eq_of_testBit_eq
  intro i
  rw [BitVec.testBit_toNat, BitVec.getLsbD_extractLsb', getLsbD_setField, Nat.testBit_mod_two_pow]
  by_cases hi : i < n
  · simp [hi, (by omega : lo + i < w)]
  · simp [hi]

theorem fieldOf_setField_apart {w : Nat} (x : BitVec w) (lo n v lo' n' : Nat)
    (h : lo' + n' ≤ lo ∨ lo + n ≤ lo') : fieldOf (setField x lo n v) lo' n' = fieldOf x lo' n' := by
  unfold fieldOf
  apply Nat.eq_of_testBit_eq
  intro i
  rw [BitVec.testBit_toNat, BitVec.testBit_toNat, BitVec.getLsbD_extractLsb', BitVec.getLsbD_extractLsb',
    getLsbD_setField]
  by_cases hi : i < n'
  · have : ¬ (lo ≤ lo' + i ∧ lo' + i < lo + n) := by omega
    simp only [hi, decide_true, Bool.true_and, this, if_false]
  · simp [hi]

theorem bitOf_setBit_same {w : Nat} (x : BitVec w) (i : Nat) (b : Bool) (h : i < w) : bitOf (setBit x i b) i = b := by
  unfold bitOf setBit
  rw [getLsbD_setField]
  cases b <;> simp [h]

theorem bitOf_setBit_ne {w : Nat} (x : BitVec w) (i j : Nat) (b : Bool) (h : j ≠ i) :
    bitOf (setBit x i b) j = bitOf x j := by
  unfold bitOf setBit
  rw [getLsbD_setField, if_neg (by omega)]

/-- Bits outside the field keep their values. -/
theorem bitOf_setField_apart {w : Nat} (x : BitVec w) (lo n v j : Nat) (h : j < lo ∨ lo + n ≤ j) :
    bitOf (setField x lo n v) j = bitOf x j := by
  unfold bitOf
  rw [getLsbD_setField, if_neg (by omega)]

theorem fieldOf_lt {w : Nat} (x : BitVec w) (lo n : Nat) : fieldOf x lo n < 2 ^ n := (x.extractLsb' lo n).isLt

theorem length_toBytes (n x : Nat) : (toBytes n x).length = n := by
  induction n generalizing x with
  | zero => rfl
  | succ n ih => simp [toBytes, ih]

theorem ofBytes_toBytes (n x : Nat) : ofBytes (toBytes n x) = x % 256 ^ n := by
  induction n generalizing x with
  | zero => simp [toBytes, ofBytes, Nat.mod_one]
  | succ n ih =>
    simp only [toBytes, ofBytes, ih, BitVec.toNat_ofNat]
    rw [show (256 : Nat) ^ (n + 1) = 256 * 256 ^ n by rw [Nat.pow_succ, Nat.mul_comm], Nat.mod_mul]

end Sys2Proof.Machine
end

