-- ==== Sys2Proof/Laws/Vector.lean ====
section
/-! SUPPORT. What the shared operations of the vector words do: the checks at issue, elements of register groups, the loop
of R80, the tail and the retirement. -/

namespace Sys2Proof.Machine

/-! ## Elements of a register group (R17) -/

/-- Element `e` of width `n` lies within its register. -/
theorem elem_fits {n : Nat} (hn : n ∣ 8192) (e : Nat) : e * n % 8192 + n ≤ 8192 := by
  obtain ⟨q, hq⟩ := hn
  have hq0 : 0 < q := by
    rcases Nat.eq_zero_or_pos q with h | h
    · subst h; omega
    · exact h
  rw [hq, Nat.mul_comm e n, Nat.mul_mod_mul_left]
  have h1 : e % q + 1 ≤ q := Nat.mod_lt _ hq0
  calc n * (e % q) + n = n * (e % q + 1) := by ring
    _ ≤ n * q := Nat.mul_le_mul_left n h1

/-- Two elements of one register do not overlap. -/
theorem elem_apart {n e k : Nat} (hk : k ≠ e) (hr : e * n / 8192 = k * n / 8192) :
    k * n % 8192 + n ≤ e * n % 8192 ∨ e * n % 8192 + n ≤ k * n % 8192 := by
  have he := Nat.div_add_mod (e * n) 8192
  have hk' := Nat.div_add_mod (k * n) 8192
  rw [hr] at he
  rcases Nat.lt_or_gt_of_ne hk with h | h
  · left
    have : (k + 1) * n ≤ e * n := Nat.mul_le_mul_right n h
    rw [Nat.add_mul] at this
    omega
  · right
    have : (e + 1) * n ≤ k * n := Nat.mul_le_mul_right n h
    rw [Nat.add_mul] at this
    omega

/-- A written element reads back, cut to its width. -/
theorem elem_setElem_self (h : Hart) (r n e x : Nat) (hn : n ∣ 8192) :
    (h.setElem r n e x).elem r n e = x % 2 ^ n := by
  unfold Hart.setElem Hart.elem
  simp only [Vector.getElem_set_self]
  exact fieldOf_setField_same _ _ _ _ (elem_fits hn e)

/-- Writing an element leaves the other elements of its group alone. -/
theorem elem_setElem_ne (h : Hart) (r n e x k g : Nat) (hk : k ≠ e)
    (hg : r + g ≤ 32) (he : e * n < 8192 * g) (hkg : k * n < 8192 * g) :
    (h.setElem r n e x).elem r n k = h.elem r n k := by
  have e1 : e * n / 8192 < g := Nat.div_lt_of_lt_mul he
  have k1 : k * n / 8192 < g := Nat.div_lt_of_lt_mul hkg
  unfold Hart.setElem Hart.elem
  by_cases hr : e * n / 8192 = k * n / 8192
  · simp only [hr, Vector.getElem_set_self]
    exact fieldOf_setField_apart _ _ _ _ _ _ (elem_apart hk hr)
  · simp only
    rw [Vector.getElem_set_ne]
    omega

/-! ## What a word of registers may change -/

/-- `h'` differs from `h` in the flags, in vector registers in `V` and in mask registers in `M` only. -/
structure VecOnly (V M : Nat → Prop) (h h' : Hart) : Prop where
  eq : h' = { h with vec := { h.vec with v := h'.vec.v, m := h'.vec.m, vfflags := h'.vec.vfflags } }
  regs : ∀ i, (hi : i < 32) → ¬ V i → h'.vec.v[i] = h.vec.v[i]
  masks : ∀ i, (hi : i < 8) → ¬ M i → h'.vec.m[i] = h.vec.m[i]

theorem VecOnly.refl (V M : Nat → Prop) (h : Hart) : VecOnly V M h h := ⟨rfl, fun _ _ _ => rfl, fun _ _ _ => rfl⟩

theorem VecOnly.trans {V M : Nat → Prop} {a b c : Hart} (h1 : VecOnly V M a b) (h2 : VecOnly V M b c) : VecOnly V M a c := by
  refine ⟨?_, fun i hi ho => (h2.regs i hi ho).trans (h1.regs i hi ho),
    fun i hi ho => (h2.masks i hi ho).trans (h1.masks i hi ho)⟩
  have e1 := h1.eq
  have e2 := h2.eq
  rw [e1] at e2
  exact e2

theorem VecOnly.mono {V V' M M' : Nat → Prop} {a b : Hart} (h : VecOnly V M a b) (hv : ∀ i, V i → V' i)
    (hm : ∀ i, M i → M' i) : VecOnly V' M' a b :=
  ⟨h.eq, fun i hi ho => h.regs i hi (fun x => ho (hv i x)), fun i hi ho => h.masks i hi (fun x => ho (hm i x))⟩

/-- The registers of the group of `g` registers at `d`. -/
def inGroup (d g i : Nat) : Prop := d ≤ i ∧ i < d + g

theorem vecOnly_setElem (M : Nat → Prop) (h : Hart) (d n e x g : Nat) (hg : d + g ≤ 32) (he : e * n < 8192 * g) :
    VecOnly (inGroup d g) M h (h.setElem d n e x) := by
  refine ⟨rfl, fun i hi ho => ?_, fun _ _ _ => rfl⟩
  have e1 : e * n / 8192 < g := Nat.div_lt_of_lt_mul he
  unfold Hart.setElem
  simp only
  rw [Vector.getElem_set_ne]
  unfold inGroup at ho
  omega

theorem vecOnly_addFlags (V M : Nat → Prop) (h : Hart) (ev : Ev) : VecOnly V M h (h.addFlags ev) :=
  ⟨rfl, fun _ _ _ => rfl, fun _ _ _ => rfl⟩

theorem vecOnly_setMaskBit (V : Nat → Prop) (h : Hart) (r e : Nat) (b : Bool) :
    VecOnly V (fun i => i = r % 8) h (h.setMaskBit r e b) := by
  refine ⟨rfl, fun _ _ _ => rfl, fun i hi ho => ?_⟩
  unfold Hart.setMaskBit
  simp only
  rw [Vector.getElem_set_ne]
  exact fun x => ho x.symm

/-- A written mask bit reads back, and the other bits of the register keep their values. -/
theorem mask_setMaskBit (h : Hart) (r e : Nat) (b : Bool) (j : Nat) (hj : j < 8192) :
    ((h.setMaskBit r e b).mask r).getLsbD j = if j = e then b else (h.mask r).getLsbD j := by
  unfold Hart.setMaskBit
  have : ({ h with vec := { h.vec with m := h.vec.m.set (r % 8) (setBit (h.mask r) e b) (Nat.mod_lt _ (by decide)) } } :
      Hart).mask r = setBit (h.mask r) e b := by
    unfold Hart.mask
    simp
  rw [this]
  by_cases hje : j = e
  · subst hje; rw [if_pos rfl]; exact bitOf_setBit_same _ _ _ hj
  · rw [if_neg hje]; exact bitOf_setBit_ne _ _ _ _ hje

/-! ## What a destination of the loop is -/

/-- How a `put` at indices below `N` writes: `view` is what it writes to, looked at below `J`, and `enc` what an element
holds after the write of a value over an old one. -/
structure PutSpec {α : Type} (V M : Nat → Prop) (N J : Nat) (view : Hart → Nat → α) (enc : Nat → Nat → α → α)
    (put : PutFn) : Prop
    where
  only : ∀ e x h, e < N → VecOnly V M h (put e x h)
  flags : ∀ e x h, e < N → (put e x h).vec.vfflags = h.vec.vfflags
  own : ∀ e x h j, e < N → j < J → view (put e x h) j = if j = e then enc e x (view h j) else view h j
  free : ∀ h ev j, view (h.addFlags ev) j = view h j

/-- Writing one element group. -/
theorem putSpec_setElem (d n g : Nat) (hn : n ∣ 8192) (hg : d + g ≤ 32) :
    ∀ e x (h : Hart) j, e * n < 8192 * g → j * n < 8192 * g →
      (h.setElem d n e x).elem d n j = if j = e then x % 2 ^ n else h.elem d n j := by
  intro e x h j he hj
  by_cases hje : j = e
  · subst hje; rw [if_pos rfl, elem_setElem_self h d n j x hn]
  · rw [if_neg hje, elem_setElem_ne h d n e x j g hje hg he hj]

/-- Writing an element of a group leaves every element of a group apart from it. -/
theorem elem_setElem_apart (h : Hart) (d n e x r k g : Nat) (hd : d + g ≤ 32) (hr : r + g ≤ 32)
    (ha : d + g ≤ r ∨ r + g ≤ d) (he : e * n < 8192 * g) (hk : k * n < 8192 * g) :
    (h.setElem d n e x).elem r n k = h.elem r n k := by
  have e1 : e * n / 8192 < g := Nat.div_lt_of_lt_mul he
  have k1 : k * n / 8192 < g := Nat.div_lt_of_lt_mul hk
  unfold Hart.setElem Hart.elem
  simp only
  rw [Vector.getElem_set_ne]
  omega

/-- Two groups of `g` registers that begin at multiples of `g` are one or apart. -/
theorem groups_apart {d r g : Nat} (hd : d % g = 0) (hr : r % g = 0) : r = d ∨ d + g ≤ r ∨ r + g ≤ d := by
  have h1 := Nat.div_add_mod d g
  have h2 := Nat.div_add_mod r g
  rcases Nat.lt_trichotomy (d / g) (r / g) with h | h | h
  · right; left
    have : g * (d / g + 1) ≤ g * (r / g) := Nat.mul_le_mul_left g h
    rw [Nat.mul_add] at this
    omega
  · left
    rw [h] at h1
    omega
  · right; right
    have : g * (r / g + 1) ≤ g * (d / g) := Nat.mul_le_mul_left g h
    rw [Nat.mul_add] at this
    omega

/-- The destination group and DREG's (R80, R82), seen from either of them. -/
theorem putSpec_putVec (M : Nat → Prop) (c : VCtx) (d n g N : Nat) (V : Nat → Prop) (hn : n ∣ 8192)
    (hN : ∀ e, e < N ↔ e * n < 8192 * g)
    (hd : d + g ≤ 32) (hr : ∀ r, c.dreg = some r → r + g ≤ 32 ∧ (r = d ∨ d + g ≤ r ∨ r + g ≤ d))
    (hV : ∀ i, (inGroup d g i ∨ ∃ r, c.dreg = some r ∧ inGroup r g i) → V i) (b : Nat) (hb : b = d ∨ c.dreg = some b) :
    PutSpec V M N N (fun h => h.elem b n) (fun _ x _ => x % 2 ^ n) (c.putVec d n) := by
  refine ⟨fun e x h he => ?_, fun e x h he => ?_, fun e x h j he hj => ?_, fun _ _ _ => rfl⟩
  · have he' := (hN e).1 he
    unfold VCtx.putVec
    cases hc : c.dreg with
    | none => exact (vecOnly_setElem M h d n e x g hd he').mono (fun i hi => hV i (.inl hi)) (fun _ => id)
    | some r =>
      exact ((vecOnly_setElem M h d n e x g hd he').mono (fun i hi => hV i (.inl hi)) (fun _ => id)).trans
        ((vecOnly_setElem M _ r n e x g (hr r hc).1 he').mono (fun i hi => hV i (.inr ⟨r, hc, hi⟩)) (fun _ => id))
  · unfold VCtx.putVec
    cases c.dreg <;> rfl
  · have he' := (hN e).1 he
    have hj' := (hN j).1 hj
    unfold VCtx.putVec
    cases hc : c.dreg with
    | none =>
      rcases hb with hb | hb
      · subst hb; exact putSpec_setElem b n g hn hd e x h j he' hj'
      · rw [hc] at hb; cases hb
    | some r =>
      obtain ⟨hr1, hr2⟩ := hr r hc
      simp only
      rcases hb with hb | hb
      · subst hb
        rcases hr2 with h2 | h2
        · subst h2
          rw [putSpec_setElem r n g hn hd e x _ j he' hj', putSpec_setElem r n g hn hd e x h j he' hj']
          by_cases hje : j = e
          · rw [if_pos hje, if_pos hje]
          · rw [if_neg hje, if_neg hje]
        · rw [elem_setElem_apart _ r n e x b j g hr1 hd (by omega) he' hj', putSpec_setElem b n g hn hd e x h j he' hj']
      · rw [hc] at hb
        cases hb
        rw [putSpec_setElem b n g hn hr1 e x _ j he' hj']
        rcases hr2 with h2 | h2
        · subst h2
          by_cases hje : j = e
          · rw [if_pos hje, if_pos hje]
          · rw [if_neg hje, if_neg hje, elem_setElem_ne h b n e x j g hje hd he' hj']
        · rw [elem_setElem_apart _ d n e x b j g hd hr1 (by omega) he' hj']

/-- A mask destination. -/
theorem putSpec_putMask (V : Nat → Prop) (d : Nat) :
    PutSpec V (fun i => i = d % 8) 16384 8192 (fun h e => (h.mask d).getLsbD e) (fun _ x _ => decide (x % 2 = 1)) (putMask d) :=
  ⟨fun e _ h _ => vecOnly_setMaskBit V h d e _, fun _ _ _ _ => rfl,
    fun e _ h j _ hj => mask_setMaskBit h d e _ j hj, fun _ _ _ => rfl⟩

/-! ## The loop of R80 -/

/-- A bit of the events of the active elements from `e` on, `k` of them. -/
def gained (c : VCtx) (evs : Nat → Ev) (e k b : Nat) : Prop :=
  ∃ j, e ≤ j ∧ j < e + k ∧ c.sel j = true ∧ bitOf (evs j) b = true

/-- The loop ends at no element, writes each active element's result and each masked-off element's policy, gains the events of
the active elements, and changes nothing else. -/
theorem elemLoop_spec {α : Type} {V M : Nat → Prop} {N J : Nat} {view : Hart → Nat → α} {enc : Nat → Nat → α → α} {put : PutFn}
    (c : VCtx) (res : Nat → Except Ev (Nat × Ev)) (val : Nat → Nat) (evs : Nat → Ev) (hp : PutSpec V M N J view enc put) :
    ∀ (k e : Nat) (h : Hart), e + k ≤ c.bound → e + k ≤ N →
      (∀ j, e ≤ j → j < e + k → c.sel j = true → res j = .ok (val j, evs j)) →
      ∃ h', elemLoop c put res k e h = (h', none) ∧ VecOnly V M h h'
        ∧ (∀ b, bitOf h'.vec.vfflags b = true ↔ bitOf h.vec.vfflags b = true ∨ gained c evs e k b)
        ∧ ∀ j, j < J → view h' j =
          if e ≤ j ∧ j < e + k then (if c.sel j then enc j (val j) (view h j) else if c.pol then enc j 0 (view h j) else view h j)
          else view h j := by
  intro k
  induction k with
  | zero =>
    intro e h _ _ _
    refine ⟨h, rfl, VecOnly.refl _ _ _, fun b => ⟨.inl, fun x => x.elim id ?_⟩, fun j _ => by rw [if_neg (by omega)]⟩
    rintro ⟨j, h1, h2, -⟩
    omega
  | succ k ih =>
    intro e h hb hs hr
    have step : ∀ y : Hart, VecOnly V M h y →
        (∀ b, bitOf y.vec.vfflags b = true ↔ bitOf h.vec.vfflags b = true ∨ (c.sel e = true ∧ bitOf (evs e) b = true)) →
        (∀ j, j < J → view y j =
          if j = e then (if c.sel e then enc e (val e) (view h e) else if c.pol then enc e 0 (view h e) else view h e) else view h j) →
        ∃ h', elemLoop c put res k (e + 1) y = (h', none) ∧ VecOnly V M h h'
        ∧ (∀ b, bitOf h'.vec.vfflags b = true ↔ bitOf h.vec.vfflags b = true ∨ gained c evs e (k + 1) b)
        ∧ ∀ j, j < J → view h' j =
          if e ≤ j ∧ j < e + (k + 1) then (if c.sel j then enc j (val j) (view h j) else if c.pol then enc j 0 (view h j) else view h j)
          else view h j := by
      intro y hy hf hel
      obtain ⟨h', heq, hv, hfl, hel'⟩ := ih (e + 1) y (by omega) (by omega)
        (fun j h1 h2 h3 => hr j (by omega) (by omega) h3)
      refine ⟨h', heq, hy.trans hv, fun b => ?_, fun j hj => ?_⟩
      · rw [hfl b, hf b]
        constructor
        · rintro ((h1 | ⟨h1, h2⟩) | ⟨j, h1, h2, h3⟩)
          · exact .inl h1
          · exact .inr ⟨e, by omega, by omega, h1, h2⟩
          · exact .inr ⟨j, by omega, by omega, h3⟩
        · rintro (h1 | ⟨j, h1, h2, h3⟩)
          · exact .inl (.inl h1)
          · by_cases hje : j = e
            · subst hje; exact .inl (.inr h3)
            · exact .inr ⟨j, by omega, by omega, h3⟩
      · rw [hel' j hj, hel j hj]
        by_cases hje : j = e
        · subst hje
          have n1 : ¬ (j + 1 ≤ j ∧ j < j + 1 + k) := by omega
          have p1 : j ≤ j ∧ j < j + (k + 1) := by omega
          rw [if_neg n1, if_pos rfl, if_pos p1]
        · rw [if_neg hje]
          by_cases hin : e + 1 ≤ j ∧ j < e + 1 + k
          · have hin' : e ≤ j ∧ j < e + (k + 1) := by omega
            rw [if_pos hin, if_pos hin']
          · have hin' : ¬ (e ≤ j ∧ j < e + (k + 1)) := by omega
            rw [if_neg hin, if_neg hin']
    have heN : e < N := by omega
    unfold elemLoop
    rw [if_neg (by omega : ¬ c.bound ≤ e)]
    by_cases hsel : c.sel e = true
    · rw [if_pos hsel, hr e (by omega) (by omega) hsel]
      simp only
      refine step _ ((hp.only e _ h heN).trans (vecOnly_addFlags _ _ _ _)) (fun b => ?_) (fun j hj => ?_)
      · unfold Hart.addFlags bitOf
        simp only [BitVec.getLsbD_or, Bool.or_eq_true, hp.flags e _ h heN, hsel, true_and]
      · rw [hp.free, hp.own e _ h j heN hj]
        by_cases hje : j = e
        · subst hje; rw [if_pos rfl, if_pos rfl, if_pos hsel]
        · rw [if_neg hje, if_neg hje]
    · rw [if_neg hsel]
      by_cases hpol : c.pol = true
      · rw [if_pos hpol]
        refine step _ (hp.only e _ h heN) (fun b => ?_) (fun j hj => ?_)
        · rw [hp.flags e _ h heN]
          exact ⟨.inl, fun x => x.elim id (fun y => absurd y.1 hsel)⟩
        · rw [hp.own e _ h j heN hj]
          by_cases hje : j = e
          · subst hje; rw [if_pos rfl, if_pos rfl, if_neg hsel, if_pos hpol]
          · rw [if_neg hje, if_neg hje]
      · rw [if_neg hpol]
        refine step _ (VecOnly.refl _ _ _) (fun b => ⟨.inl, fun x => x.elim id (fun y => absurd y.1 hsel)⟩)
          (fun j hj => ?_)
        by_cases hje : j = e
        · subst hje; rw [if_pos rfl, if_neg hsel, if_neg hpol]
        · rw [if_neg hje]

/-- Zeros in `k` elements from `e` on. -/
theorem zeroFrom_spec {α : Type} {V M : Nat → Prop} {N J : Nat} {view : Hart → Nat → α} {enc : Nat → Nat → α → α} {put : PutFn}
    (hp : PutSpec V M N J view enc put) :
    ∀ (k e : Nat) (h : Hart), e + k ≤ N →
      VecOnly V M h (zeroFrom put k e h) ∧ (zeroFrom put k e h).vec.vfflags = h.vec.vfflags
        ∧ ∀ j, j < J → view (zeroFrom put k e h) j = if e ≤ j ∧ j < e + k then enc j 0 (view h j) else view h j := by
  intro k
  induction k with
  | zero =>
    intro e h _
    exact ⟨VecOnly.refl _ _ _, rfl, fun j _ => by rw [if_neg (by omega)]; rfl⟩
  | succ k ih =>
    intro e h hs
    have heN : e < N := by omega
    unfold zeroFrom
    obtain ⟨hv, hf, hel⟩ := ih (e + 1) (put e 0 h) (by omega)
    refine ⟨(hp.only e 0 h heN).trans hv, hf.trans (hp.flags e 0 h heN), fun j hj => ?_⟩
    rw [hel j hj, hp.own e 0 h j heN hj]
    by_cases hje : j = e
    · subst hje
      rw [if_neg (by omega), if_pos rfl, if_pos (by omega)]
    · rw [if_neg hje]
      by_cases hin : e + 1 ≤ j ∧ j < e + 1 + k
      · have hin' : e ≤ j ∧ j < e + (k + 1) := by omega
        rw [if_pos hin, if_pos hin']
      · have hin' : ¬ (e ≤ j ∧ j < e + (k + 1)) := by omega
        rw [if_neg hin, if_neg hin']

/-! ## The tail and the retirement -/

/-- The tail of an ordinary destination of `count` elements. -/
theorem tailZero_spec {α : Type} {V M : Nat → Prop} {N J : Nat} {view : Hart → Nat → α} {enc : Nat → Nat → α → α} {put : PutFn}
    (c : VCtx) (hp : PutSpec V M N J view enc put) (count : Nat) (h : Hart) (hm : c.mxDest = none)
    (hl : c.listed = false) (hc : count ≤ N) (hJ : J ≤ count) :
    VecOnly V M h (c.tailZero put count h) ∧ (c.tailZero put count h).vec.vfflags = h.vec.vfflags
      ∧ ∀ j, j < J → view (c.tailZero put count h) j =
        if c.tail = true ∧ max c.vl c.velem ≤ j then enc j 0 (view h j) else view h j := by
  unfold VCtx.tailZero VCtx.mxClear
  rw [hm, hl]
  simp only [Bool.false_eq_true, if_false]
  by_cases ht : c.tail = true
  · rw [if_pos ht]
    by_cases hb : max c.vl c.velem ≤ count
    · obtain ⟨hv, hf, hel⟩ := zeroFrom_spec hp (count - max c.vl c.velem) (max c.vl c.velem) h (by omega)
      refine ⟨hv, hf, fun j hlt => ?_⟩
      rw [hel j hlt]
      by_cases hle : max c.vl c.velem ≤ j
      · have h1 : max c.vl c.velem ≤ j ∧ j < max c.vl c.velem + (count - max c.vl c.velem) := by omega
        rw [if_pos h1, if_pos ⟨ht, hle⟩]
      · have h1 : ¬ (max c.vl c.velem ≤ j ∧ j < max c.vl c.velem + (count - max c.vl c.velem)) := by omega
        rw [if_neg h1, if_neg (fun x => hle x.2)]
    · rw [show count - max c.vl c.velem = 0 by omega]
      refine ⟨VecOnly.refl _ _ _, rfl, fun j hlt => ?_⟩
      rw [if_neg (fun x => by have := x.2; omega)]
      rfl
  · rw [if_neg ht]
    refine ⟨VecOnly.refl _ _ _, rfl, fun j _ => ?_⟩
    rw [if_neg (fun x => ht x.1)]

/-- A hart that differs from another in x registers, vector registers, masks and flags only. -/
def HartOnly (h h' : Hart) : Prop :=
  h' = { h with
    x := h'.x
    shadow := h'.shadow
    vec := { h.vec with v := h'.vec.v, m := h'.vec.m, vfflags := h'.vec.vfflags } }

theorem VecOnly.hartOnly {V M : Nat → Prop} {h h' : Hart} (hv : VecOnly V M h h') :
    HartOnly h h' ∧ h'.x = h.x ∧ h'.shadow = h.shadow := by
  have e := hv.eq
  refine ⟨?_, ?_, ?_⟩
  · unfold HartOnly; rw [e]
  · rw [e]
  · rw [e]

/-- What a retirement keeps of the hart. -/
theorem vretire_frame (h h' : Hart) (takes : Bool) (ho : HartOnly h h') (q : List VEntry) :
    let y : Hart := { h'.vretire takes with run := { (h'.vretire takes).run with queue := q } }
    y.pc = h.nextPc ∧ y.vec.velem = 0 ∧ y.vec.vpfx = (if takes then setBit h.vec.vpfx 0 false else h.vec.vpfx)
      ∧ y.f = h.f ∧ y.fcsr = h.fcsr ∧ y.priv = h.priv ∧ y.csr = { h.csr with minstret := y.csr.minstret }
      ∧ y.vec.vtype = h.vec.vtype ∧ y.vec.vl = h.vec.vl ∧ y.vec.vftrap = h.vec.vftrap ∧ y.dev = h.dev ∧ y.ctl = h.ctl
      ∧ y.ints = h.ints ∧ y.run = { h.run with
          queue := y.run.queue
          wait := y.run.wait
          body := y.run.body
          pfxOwn := y.run.pfxOwn } := by
  have e : h' = _ := ho
  intro y
  have hn : h'.nextPc = h.nextPc := by rw [e]; rfl
  refine ⟨hn, rfl, ?_, ?_, ?_, ?_, ?_, ?_, ?_, ?_, ?_, ?_, ?_, ?_⟩
  · show (if takes then setBit h'.vec.vpfx 0 false else h'.vec.vpfx) = _; rw [e]
  · show h'.f = _; rw [e]
  · show h'.fcsr = _; rw [e]
  · show h'.priv = _; rw [e]
  · have e2 : h'.csr = h.csr := by rw [e]
    rw [← e2]; rfl
  · show h'.vec.vtype = _; rw [e]
  · show h'.vec.vl = _; rw [e]
  · show h'.vec.vftrap = _; rw [e]
  · show h'.dev = _; rw [e]
  · show h'.ctl = _; rw [e]
  · show h'.ints = _; rw [e]
  · have e2 : h'.run = h.run := by rw [e]
    rw [← e2]; rfl

/-- The retirement of a vector word whose effect so far is on the registers of `h'`. -/
theorem retireVec_spec (i : Instr) (takes : Bool) (s : State) (h' : Hart) (ho : HartOnly s.hart h') :
    ∃ t, retireVec i takes (s.setHart h') = .ok () t ∧ VecFrame s (settleReads s.cur 0 t) takes
      ∧ t.hart.vec.v = h'.vec.v ∧ t.hart.vec.m = h'.vec.m ∧ t.hart.x = h'.x ∧ t.hart.shadow = h'.shadow
      ∧ t.hart.vec.vfflags = h'.vec.vfflags := by
  unfold retireVec
  rw [State.hart_setHart]
  refine ⟨_, rfl, ?_⟩
  obtain ⟨q, hq, ho2, hm, hc⟩ : ∃ q, (enqueue i h' ((s.setHart h').setHart (h'.vretire takes))).hart =
      { h'.vretire takes with run := { (h'.vretire takes).run with queue := q } }
      ∧ (∀ k, k ≠ s.cur → (enqueue i h' ((s.setHart h').setHart (h'.vretire takes))).hartAt k = s.hartAt k)
      ∧ (enqueue i h' ((s.setHart h').setHart (h'.vretire takes))).mem = s.mem
      ∧ (enqueue i h' ((s.setHart h').setHart (h'.vretire takes))).cur = s.cur := by
    unfold enqueue
    by_cases hs : s.stepwise = true
    · have hs' : ((s.setHart h').setHart (h'.vretire takes)).stepwise = true := hs
      rw [if_pos hs']
      refine ⟨(h'.vretire takes).run.queue ++ [_], by rw [State.hart_setHart, State.hart_setHart], fun k hk => ?_, rfl, rfl⟩
      rw [State.hartAt_setHart_ne _ _ _ (by exact hk), State.hartAt_setHart_ne _ _ _ (by exact hk),
        State.hartAt_setHart_ne _ _ _ (by exact hk)]
    · have hs' : ¬ ((s.setHart h').setHart (h'.vretire takes)).stepwise = true := hs
      rw [if_neg hs']
      refine ⟨(h'.vretire takes).run.queue, by rw [State.hart_setHart], fun k hk => ?_, rfl, rfl⟩
      rw [State.hartAt_setHart_ne _ _ _ (by exact hk), State.hartAt_setHart_ne _ _ _ (by exact hk)]
  obtain ⟨f1, f2, f3, f4, f5, f6, f7, f8, f9, f10, f11, f12, f13, f14⟩ := vretire_frame s.hart h' takes ho q
  refine ⟨⟨hm, hc, by rw [settleReads_hart, hq]; exact f1,
    by rw [settleReads_hart, hq]; exact f2,
    by rw [settleReads_hart, hq]; exact f3,
    by rw [settleReads_hart, hq]; exact f4,
    by rw [settleReads_hart, hq]; exact f5,
    by rw [settleReads_hart, hq]; exact f6,
    by rw [settleReads_hart, hq]; exact f7,
    by rw [settleReads_hart, hq]; exact f8,
    by rw [settleReads_hart, hq]; exact f9,
    by rw [settleReads_hart, hq]; exact f10,
    by rw [settleReads_hart, hq]; exact f11,
    by rw [settleReads_hart, hq]; exact f12,
    by rw [settleReads_hart, hq]; exact f13,
    by rw [settleReads_hart, hq]; exact f14,
    fun k hk => by rw [settleReads_hartAt]; exact ho2 k hk⟩, ?_, ?_, ?_, ?_, ?_⟩
  all_goals
    rw [hq]
    rfl

end Sys2Proof.Machine
end

