-- ==== Sys2Proof/Laws/Words.lean ====
section
/-! SUPPORT. What a whole vector word does: the checks at issue succeed, the loop of R80 writes the destinations, and the
word retires. -/

namespace Sys2Proof.Machine

/-! ## The checks at issue (R70-R73) -/

/-- The context of a word that passes its checks. -/
def ctxOf (a : Attr) (w : Fld) (s : State) : VCtx :=
  { takes := a.takes, fmt := vtFmt s.hart.vec.vtype, sew := widthOf s, grp := grpOf s, vl := lenOf s, velem := posOf s,
    tail := vtTail s.hart.vec.vtype, pol := s.hart.policy,
    pred := if a.takes then s.hart.governs w a.msk else none, dreg := if a.takes then s.hart.dregOf else none,
    bound := s.bound.getD (lenOf s), vtype := s.hart.vec.vtype }

/-- A word that meets the conditions of issue passes its checks. -/
theorem issue_ok (a : Attr) (w : Fld) (legal : Bool) (s : State) (hr : VecReady s) (hl : legal = true)
    (hp1 : a.takes = false → NoPrefix s) (hp2 : a.takes = true → PrefixFits s w a.dcv (a.msk == .predicate))
    (ht : a.typed = true → TypeIn s a.fmts)
    (he : a.typed = true → a.elementwise = true → isMx (vtFmt s.hart.vec.vtype) = false)
    (hb : a.blocks = true → isMx (vtFmt s.hart.vec.vtype) = true → lenOf s % 32 = 0) (hty : a.typed = false → a.elementwise = false ∧ a.blocks = false) :
    issue a w legal s = .ok (ctxOf a w s) s := by
  unfold issue
  have h1 : vectorAgent s = true := by
    unfold vectorAgent
    simpa using hr.agent
  have h2 : (s.hart.pfxBlocks && !a.takes) = false := by
    cases hx : a.takes with
    | true => simp
    | false =>
      have : s.hart.pfxBlocks = false := hp1 hx
      simp [this]
  have h3 : (s.hart.pfxOn && a.takes && ((bitOf s.hart.vec.vpfx 6 && !a.dcv) || (a.msk = .predicate && w.k ≠ 0))) = false := by
    cases hx : a.takes with
    | false => simp
    | true =>
      cases hon : s.hart.pfxOn with
      | false => simp
      | true =>
        obtain ⟨q1, q2⟩ := hp2 hx hon
        have e1 : (bitOf s.hart.vec.vpfx 6 && !a.dcv) = false := by
          cases hd : bitOf s.hart.vec.vpfx 6 with
          | false => rfl
          | true => simp [q1 hd]
        have e2 : (decide (a.msk = .predicate) && decide (w.k ≠ 0)) = false := by
          by_cases hm : a.msk = .predicate
          · have := q2 (by simp [hm]); simp [this]
          · simp [hm]
        rw [e1, e2]; rfl
  have h4 : (a.typed && vtIll s.hart.vec.vtype) = false := by
    cases hx : a.typed with
    | false => rfl
    | true => simp [(ht hx).1]
  have h5 : (a.typed && !(a.fmts (vtFmt s.hart.vec.vtype))) = false := by
    cases hx : a.typed with
    | false => rfl
    | true => simp [(ht hx).2]
  have h6 : (a.elementwise && isMx (vtFmt s.hart.vec.vtype)) = false := by
    cases hx : a.typed with
    | false => simp [(hty hx).1]
    | true =>
      cases hy : a.elementwise with
      | false => rfl
      | true => simp [he hx hy]
  have h7 : (a.blocks && isMx (vtFmt s.hart.vec.vtype) && decide (s.hart.vec.vl.toNat % 32 ≠ 0)) = false := by
    cases hy : a.blocks with
    | false => rfl
    | true =>
      cases hz : isMx (vtFmt s.hart.vec.vtype) with
      | false => rfl
      | true =>
        have : s.hart.vec.vl.toNat % 32 = 0 := hb hy hz
        simp [this]
  simp only
  rw [h1, h2, h3, hl, h4, h5, h6, h7]
  rfl

/-- The predicate of the context is the governing mask. -/
theorem sel_ctxOf (a : Attr) (w : Fld) (s : State) (ht : a.takes = true) (e : Nat) :
    (ctxOf a w s).sel e = activeAt s w (a.msk == .predicate) e := by
  unfold VCtx.sel ctxOf activeAt Hart.governs
  rw [ht]
  simp only [if_true]
  cases hon : s.hart.pfxOn with
  | true => simp
  | false =>
    simp only [Bool.false_eq_true, if_false]
    cases hm : a.msk with
    | selector => simp
    | unused => simp
    | predicate =>
      by_cases hk : w.k = 0
      · simp [hk]
      · have hk' : (w.k == 0) = false := by simpa using hk
        rw [hk']
        have hz : ¬ w.k = 0#2 := hk
        simp [hz]

/-! ## Element-wise words -/

/-- A context stands for the VL, VELEM, policies and predicate of a state, and no stop boundary cuts its loop. -/
structure CtxFor (s : State) (c : VCtx) (act : Nat → Bool) : Prop where
  vl : c.vl = lenOf s
  velem : c.velem = posOf s
  tail : c.tail = vtTail s.hart.vec.vtype
  pol : c.pol = s.hart.policy
  whole : lenOf s ≤ c.bound
  plain : c.mxDest = none
  tailed : c.listed = false
  sel : ∀ e, c.sel e = act e

theorem ctxOf_for (a : Attr) (w : Fld) (s : State) (hr : VecReady s) (ht : a.takes = true) :
    CtxFor s (ctxOf a w s) (activeAt s w (a.msk == .predicate)) :=
  ⟨rfl, rfl, rfl, rfl, by show lenOf s ≤ s.bound.getD (lenOf s); rw [hr.whole]; exact Nat.le_refl _, rfl, rfl,
    sel_ctxOf a w s ht⟩

/-- The context of a word that takes no prefix and no predicate. -/
theorem ctxOf_for_all (a : Attr) (w : Fld) (s : State) (hr : VecReady s) (ht : a.takes = false) :
    CtxFor s (ctxOf a w s) (fun _ => true) :=
  ⟨rfl, rfl, rfl, rfl, by show lenOf s ≤ s.bound.getD (lenOf s); rw [hr.whole]; exact Nat.le_refl _, rfl, rfl,
    fun e => by unfold VCtx.sel ctxOf; rw [ht]; rfl⟩

/-- A cross-element word's context. -/
theorem CtxFor.cross {s : State} {c : VCtx} {act : Nat → Bool} (h : CtxFor s c act) (hl : lenOf s ≤ 16384) :
    CtxFor s { c with bound := 16384 } act :=
  ⟨h.vl, h.velem, h.tail, h.pol, hl, h.plain, h.tailed, fun e => (h.sel e : _)⟩

theorem lenOf_lt (s : State) : lenOf s < 16384 := s.hart.vec.vl.isLt

/-- An element that a word may write, by what a write of a value over an old one leaves. -/
def writtenBy {α : Type} (s : State) (act : Nat → Bool) (enc : Nat → Nat → α → α) (old : Nat → α) (val : Nat → Nat) (e : Nat) :
    α :=
  if e < posOf s then old e
  else if e < lenOf s then
    if act e then enc e (val e) (old e)
    else if s.hart.policy then enc e 0 (old e) else old e
  else if vtTail s.hart.vec.vtype then enc e 0 (old e) else old e

/-- An element-wise word whose elements all complete: what it writes, and that it retires. -/
theorem elementWise_done {α : Type} {V M : Nat → Prop} {N J : Nat} {view : Hart → Nat → α} {enc : Nat → Nat → α → α} {put : PutFn}
    {s : State} {c : VCtx} {act : Nat → Bool} (i : Instr) (hc : CtxFor s c act) (hp : PutSpec V M N J view enc put)
    (count : Nat) (res : Nat → Except Ev (Nat × Ev)) (val : Nat → Nat) (evs : Nat → Ev)
    (hN : lenOf s ≤ N) (hcN : count ≤ N) (hJ : J ≤ count)
    (hres : ∀ j, posOf s ≤ j → j < lenOf s → act j = true → res j = .ok (val j, evs j)) :
    ∃ t h', elementWise i c put count res s = .ok () t ∧ VecFrame s (settleReads s.cur 0 t) c.takes
      ∧ VecOnly V M s.hart h' ∧ t.hart.vec.v = h'.vec.v ∧ t.hart.vec.m = h'.vec.m ∧ XKept s t ∧ FlagsGain s t act evs
      ∧ ∀ j, j < J → view h' j = writtenBy s act enc (view s.hart) val j := by
  have hk : posOf s + (lenOf s - posOf s) ≤ c.bound ∨ lenOf s - posOf s = 0 := by
    have := hc.whole; omega
  obtain ⟨h1, e1, o1, f1, v1⟩ : ∃ h', elemLoop c put res (c.vl - c.velem) c.velem s.hart = (h', none)
      ∧ VecOnly V M s.hart h'
      ∧ (∀ b, bitOf h'.vec.vfflags b = true ↔ bitOf s.hart.vec.vfflags b = true
          ∨ gained c evs (posOf s) (lenOf s - posOf s) b)
      ∧ ∀ j, j < J → view h' j =
          if posOf s ≤ j ∧ j < lenOf s then (if c.sel j then enc j (val j) (view s.hart j)
            else if c.pol then enc j 0 (view s.hart j) else view s.hart j)
          else view s.hart j := by
    rw [hc.vl, hc.velem]
    by_cases hz : lenOf s - posOf s = 0
    · rw [hz]
      refine ⟨s.hart, rfl, VecOnly.refl _ _ _, fun b => ⟨.inl, fun x => x.elim id ?_⟩, fun j _ => ?_⟩
      · rintro ⟨j, q1, q2, -⟩; omega
      · have : ¬ (posOf s ≤ j ∧ j < lenOf s) := by omega
        rw [if_neg this]
    · obtain ⟨h', q1, q2, q3, q4⟩ := elemLoop_spec c res val evs hp (lenOf s - posOf s) (posOf s) s.hart
        (by omega) (by omega) (fun j a b d => hres j a (by omega) ((hc.sel j).symm.trans d))
      refine ⟨h', q1, q2, q3, fun j hj => ?_⟩
      rw [q4 j hj, show posOf s + (lenOf s - posOf s) = lenOf s by omega]
  obtain ⟨o2, f2, v2⟩ := tailZero_spec c hp count h1 hc.plain hc.tailed hcN hJ
  have o := o1.trans o2
  obtain ⟨ho, hx, hs⟩ := o.hartOnly
  obtain ⟨t, r1, r2, r3, r4, r5, r6, r7⟩ := retireVec_spec i c.takes s _ ho
  refine ⟨t, c.tailZero put count h1, ?_, r2, o, r3, r4, ⟨r5.trans hx, r6.trans hs⟩, fun b => ?_, fun j hj => ?_⟩
  · unfold elementWise
    rw [e1]
    exact r1
  · rw [r7, f2, f1 b]
    constructor
    · rintro (q | ⟨e, q1, q2, q3, q4⟩)
      · exact .inl q
      · exact .inr ⟨e, q1, by omega, (hc.sel e).symm.trans q3, q4⟩
    · rintro (q | ⟨e, q1, q2, q3, q4⟩)
      · exact .inl q
      · exact .inr ⟨e, q1, by omega, (hc.sel e).trans q3, q4⟩
  · rw [v2 j hj, v1 j hj, hc.vl, hc.velem, hc.tail, hc.pol]
    unfold writtenBy
    by_cases c1 : j < posOf s
    · have n1 : ¬ (vtTail s.hart.vec.vtype = true ∧ max (lenOf s) (posOf s) ≤ j) := by omega
      have n2 : ¬ (posOf s ≤ j ∧ j < lenOf s) := by omega
      rw [if_neg n1, if_neg n2, if_pos c1]
    · rw [if_neg c1]
      by_cases c2 : j < lenOf s
      · have n1 : ¬ (vtTail s.hart.vec.vtype = true ∧ max (lenOf s) (posOf s) ≤ j) := by omega
        have n2 : posOf s ≤ j ∧ j < lenOf s := by omega
        rw [if_neg n1, if_pos n2, if_pos c2, hc.sel j]
      · have n2 : ¬ (posOf s ≤ j ∧ j < lenOf s) := by omega
        rw [if_neg n2, if_neg c2]
        by_cases c3 : vtTail s.hart.vec.vtype = true
        · rw [if_pos ⟨c3, by omega⟩, if_pos c3]
        · rw [if_neg (fun x => c3 x.1), if_neg c3]

/-- The value of an element depends on the vector registers only. -/
theorem elem_congr {h h' : Hart} (e : h.vec.v = h'.vec.v) (r n k : Nat) : h.elem r n k = h'.elem r n k := by
  unfold Hart.elem
  simp only [e]

theorem mask_congr {h h' : Hart} (e : h.vec.m = h'.vec.m) (r : Nat) : h.mask r = h'.mask r := by
  unfold Hart.mask
  simp only [e]

/-- The registers of the destination groups. -/
def inDests (s : State) (w : Fld) (g i : Nat) : Prop := ∃ r, Dests s w r ∧ inGroup r g i

/-- Destination groups that fit lie within v0 to v31. -/
theorem group_ends {r g : Nat} (hg : g ∣ 32) (hr : r % g = 0) (hlt : r < 32) : r + g ≤ 32 := by
  obtain ⟨q, hq⟩ := hg
  have h1 := Nat.div_add_mod r g
  have hg0 : 0 < g := by
    rcases Nat.eq_zero_or_pos g with h | h
    · subst h; omega
    · exact h
  have : r / g < q := by
    rw [Nat.div_lt_iff_lt_mul hg0, Nat.mul_comm q g, ← hq]
    exact hlt
  have h2 : g * (r / g + 1) ≤ g * q := Nat.mul_le_mul_left g this
  rw [Nat.mul_add] at h2
  omega

theorem vreg_lt (h : Hart) (f : BitVec 5) : h.vreg f < 32 := by
  unfold Hart.vreg
  split
  · exact Nat.mod_lt _ (by decide)
  · exact f.isLt

theorem dregOf_lt {h : Hart} {r : Nat} (e : h.dregOf = some r) : r < 32 := by
  unfold Hart.dregOf at e
  split at e
  · cases e; exact (h.vec.vpfx.extractLsb' 7 5).isLt
  · cases e

/-- The destination of an element-wise word on register groups. -/
theorem putSpec_dests (s : State) (w : Fld) (c : VCtx) (g n : Nat) (hn : n ∣ 8192) (h0 : 0 < n) (hg : g ∣ 32)
    (hc : c.dreg = s.hart.dregOf) (hf : DestsFit s w g) (b : Nat) (hb : Dests s w b) :
    PutSpec (inDests s w g) (fun _ => False) (8192 * g / n) (8192 * g / n) (fun h => h.elem b n) (fun _ x _ => x % 2 ^ n)
      (c.putVec (s.hart.vreg w.d) n) := by
  have hd : s.hart.vreg w.d % g = 0 := hf _ (.inl rfl)
  refine putSpec_putVec _ c _ n g _ _ hn (fun e => ?_) (group_ends hg hd (vreg_lt _ _)) (fun r hr => ?_) ?_ b ?_
  · obtain ⟨q, hq⟩ := hn
    have hq' : 8192 * g / n = q * g := by
      rw [hq, Nat.mul_assoc, Nat.mul_div_cancel_left _ h0]
    rw [hq', hq, Nat.mul_assoc, Nat.mul_comm e n]
    exact (Nat.mul_lt_mul_left h0).symm
  · rw [hc] at hr
    have hr' : r % g = 0 := hf _ (.inr hr)
    exact ⟨group_ends hg hr' (dregOf_lt hr), groups_apart hd hr'⟩
  · rintro i (h | ⟨r, hr, h⟩)
    · exact ⟨_, .inl rfl, h⟩
    · exact ⟨r, .inr (hc ▸ hr), h⟩
  · rcases hb with h | h
    · exact .inl h
    · exact .inr (hc.trans h)

/-- A vector word that is ready runs its computation. -/
theorem vectorWord_ready {s : State} (hr : VecReady s) (i : Instr) (a : Act Unit) : vectorWord i a s = runAct i a s := by
  unfold vectorWord
  rw [hr.room, hr.sound]
  rfl

/-- An element-wise word on destination groups: from the run of its computation to what the word does. -/
theorem writesGroup_of {s : State} {c : VCtx} {act : Nat → Bool} (i : Instr) (w : Fld) (a : Act Unit) (g n : Nat)
    (hi : exec i s = vectorWord i a s) (hr : VecReady s) (hc : CtxFor s c act) (ht : c.takes = true)
    (hdr : c.dreg = s.hart.dregOf) (hn : n ∣ 8192) (h0 : 0 < n) (hg : g ∣ 32) (hf : DestsFit s w g)
    (hlen : lenOf s ≤ 8192 * g / n) (res : Nat → Except Ev (Nat × Ev)) (val : Nat → Nat) (evs : Nat → Ev)
    (ha : a s = elementWise i c (c.putVec (s.hart.vreg w.d) n) (8192 * g / n) res s)
    (hres : ∀ j, posOf s ≤ j → j < lenOf s → act j = true → res j = .ok (val j, evs j))
    (hval : ∀ j, posOf s ≤ j → j < lenOf s → act j = true → val j < 2 ^ n) :
    WritesGroup i s w g n act val evs := by
  have run (b : Nat) (hb : Dests s w b) := elementWise_done i hc (putSpec_dests s w c g n hn h0 hg hdr hf b hb) (8192 * g / n) res
    val evs hlen (Nat.le_refl _) (Nat.le_refl _) hres
  obtain ⟨t, h', e1, fr, on, ev, em, hx, hfl, hel⟩ := run _ (.inl rfl)
  refine ⟨settleReads s.cur 0 t, ?_, ?_, ?_, ?_, ?_, ?_, ?_⟩
  · rw [hi, vectorWord_ready hr]
    exact runAct_ok (ha.trans e1)
  · rw [← ht]; exact fr
  · intro b hb e he
    obtain ⟨t2, h2, e2, -, -, ev2, -, -, -, hel2⟩ := run b hb
    rw [e1] at e2
    cases e2
    have hlt : e < 8192 * g / n := by
      rw [Nat.lt_div_iff_mul_lt_of_dvd (by omega) (Dvd.dvd.mul_right hn g)]
      exact he
    rw [settleReads_hart, elem_congr ev2, hel2 e hlt]
    unfold written writtenBy
    split
    · rfl
    · split
      · split
        · exact Nat.mod_eq_of_lt (hval e (by omega) (by omega) (by assumption))
        · split
          · exact Nat.zero_mod _
          · rfl
      · split
        · exact Nat.zero_mod _
        · rfl
  · intro k hk ho
    rw [settleReads_hart]
    rw [show t.hart.vec.v[k] = h'.vec.v[k] by simp only [ev]]
    exact on.regs k hk (fun ⟨r, h1, h2⟩ => by have := ho r h1; unfold inGroup at h2; omega)
  · rw [MasksKept, settleReads_hart, em]
    exact Vector.ext (fun k hk => on.masks k hk id)
  · exact hx
  · exact hfl

/-- An element-wise word on a mask destination. -/
theorem writesMask_of {s : State} {c : VCtx} {act : Nat → Bool} (i : Instr) (d : Nat) (a : Act Unit)
    (hi : exec i s = vectorWord i a s) (hr : VecReady s) (hc : CtxFor s c act)
    (res : Nat → Except Ev (Nat × Ev)) (val : Nat → Bool) (evs : Nat → Ev)
    (ha : a s = elementWise i c (putMask d) 8192 res s)
    (hres : ∀ j, posOf s ≤ j → j < lenOf s → act j = true → res j = .ok ((val j).toNat, evs j)) :
    WritesMask i s d c.takes act val evs := by
  obtain ⟨t, h', e1, fr, on, ev, em, hx, hfl, hel⟩ := elementWise_done i hc (putSpec_putMask (fun _ => False) d) 8192 res
    (fun e => (val e).toNat) evs (Nat.le_of_lt (lenOf_lt s)) (by decide) (Nat.le_refl _) hres
  refine ⟨settleReads s.cur 0 t, ?_, fr, ?_, ?_, ?_, hx, hfl⟩
  · rw [hi, vectorWord_ready hr]
    exact runAct_ok (ha.trans e1)
  · intro e he
    rw [settleReads_hart, mask_congr em, hel e he]
    unfold written writtenBy
    split
    · rfl
    · split
      · split
        · show decide ((val e).toNat % 2 = 1) = val e
          cases val e <;> rfl
        · rfl
      · rfl
  · intro k hk hne
    rw [settleReads_hart]
    rw [show t.hart.vec.m[k] = h'.vec.m[k] by simp only [em]]
    exact on.masks k hk hne
  · rw [RegsKept, settleReads_hart, ev]
    exact Vector.ext (fun k hk => on.regs k hk id)

/-! ## Integer words -/

theorem elemIn_lt (s : State) (r : BitVec 5) (n e : Nat) : elemIn s r n e < 2 ^ n := fieldOf_lt _ _ _

theorem widthOf_ok {s : State} : 0 < widthOf s ∧ widthOf s ∣ 8192 := by
  unfold widthOf sewOf
  split <;> exact ⟨by decide, by decide⟩

theorem vlmax_int {s : State} (h : TypeIn s fmtInt) : vlmax s.hart.vec.vtype = 8192 * grpOf s / widthOf s := by
  have h9 : vtFmt s.hart.vec.vtype ≤ 9 := by simpa [fmtInt] using h.2
  unfold vlmax widthOf grpOf isMx
  simp only
  rw [if_neg (by omega), if_neg (by simp; omega)]

theorem grp_dvd (s : State) : grpOf s ∣ 32 := by
  unfold grpOf vtGrp
  have : fieldOf s.hart.vec.vtype 4 2 < 4 := fieldOf_lt _ _ _
  generalize fieldOf s.hart.vec.vtype 4 2 = k at this
  have : k = 0 ∨ k = 1 ∨ k = 2 ∨ k = 3 := by omega
  rcases this with h | h | h | h <;> subst h <;> decide

theorem span_ok {f g : Nat} (hg : g ∣ 32) (hr : f % g = 0) (hl : f < 32) : (Span.mk f g).ok = true := by
  unfold Span.ok
  simp [hr, group_ends hg hr hl]

theorem destOk_of {s : State} {w : Fld} {g : Nat} (hg : g ∣ 32) (hf : DestsFit s w g) :
    destOk s.hart ⟨s.hart.vreg w.d, g⟩ = true := by
  unfold destOk
  rw [span_ok hg (hf _ (.inl rfl)) (vreg_lt _ _)]
  cases e : s.hart.dregOf with
  | none => rfl
  | some r =>
    have hr : r % g = 0 := hf _ (.inr e)
    simp only [Bool.true_and, span_ok hg hr (dregOf_lt e)]
    rcases groups_apart (hf _ (.inl rfl)) hr with h | h
    · simp [h]
    · have : (Span.meets ⟨r, g⟩ ⟨s.hart.vreg w.d, g⟩) = false := by
        unfold Span.meets
        simp only [Bool.and_eq_false_imp, decide_eq_true_eq, decide_eq_false_iff_not]
        omega
      simp [this]

theorem legalBinary_of {s : State} {w : Fld} (h : GroupsFit s w) : legalBinary s.hart w = true := by
  obtain ⟨h1, h2, h3⟩ := h
  unfold legalBinary spanB
  simp only
  have e1 : destOk s.hart ⟨s.hart.vreg w.d, grpHere s.hart⟩ = true := destOk_of (grp_dvd s) h1
  have e2 : (Span.mk (s.hart.vreg w.b) (grpHere s.hart)).ok = true := span_ok (grp_dvd s) h2 (vreg_lt _ _)
  rw [e1, e2]
  by_cases hf : w.f = 0
  · have e3 : (Span.mk (s.hart.vreg w.a) (grpHere s.hart)).ok = true := span_ok (grp_dvd s) (h3 hf) (vreg_lt _ _)
    simp [e3]
  · have : decide (w.f ≠ 0) = true := by simpa using hf
    rw [this]; rfl

theorem operandB_second (s : State) (w : Fld) (zx : Bool) (e : Nat) :
    operandB s w false zx (widthOf s) e = secondAt s w zx e := by
  unfold operandB secondAt
  have h : w.f = 0 ∨ w.f = 1 ∨ w.f = 2 ∨ w.f = 3 := by
    have := w.f.isLt
    have : w.f.toNat = 0 ∨ w.f.toNat = 1 ∨ w.f.toNat = 2 ∨ w.f.toNat = 3 := by omega
    rcases this with h | h | h | h
    · exact .inl (BitVec.eq_of_toNat_eq h)
    · exact .inr (.inl (BitVec.eq_of_toNat_eq h))
    · exact .inr (.inr (.inl (BitVec.eq_of_toNat_eq h)))
    · exact .inr (.inr (.inr (BitVec.eq_of_toNat_eq h)))
  rcases h with h | h | h | h <;> rw [h]
  · rfl
  · rfl
  · show immOperand zx w.a _ = _
    unfold immOperand
    cases zx <;> rfl
  · show immOperand zx w.a _ = _
    unfold immOperand
    cases zx <;> rfl

theorem intWord_gives {s : State} {w : Fld} (i : Instr) (zx : Bool) (op : Nat → Nat → Nat → Nat → Nat × Ev)
    (val : Nat → Nat) (evs : Nat → Ev)
    (hi : exec i s = intWord i w zx op s)
    (hr : VecReady s) (hp : PrefixFits s w true true) (ht : TypeIn s fmtInt) (hl : LengthOk s.hart) (hg : GroupsFit s w)
    (hop : ∀ e, posOf s ≤ e → e < lenOf s → activeAt s w true e = true →
      op (widthOf s) (elemAt s w.b e) (secondAt s w zx e) (elemAt s w.d e) = (val e, evs e))
    (hval : ∀ e, val e < 2 ^ widthOf s)
    (hev : NoTrap s (activeAt s w true) evs) :
    WritesGroup i s w (grpOf s) (widthOf s) (activeAt s w true) val evs := by
  have hc := ctxOf_for attrInt w s hr rfl
  refine writesGroup_of (c := ctxOf attrInt w s) i w _ (grpOf s) (widthOf s) hi hr hc rfl rfl widthOf_ok.2 widthOf_ok.1 (grp_dvd s) hg.1
    (by rw [← vlmax_int ht]; exact hl) (fun e =>
      withEvents s.hart (op (widthOf s) (s.hart.elem (s.hart.vreg w.b) (widthOf s) e) (operandB s w false zx (widthOf s) e)
        (s.hart.elem (s.hart.vreg w.d) (widthOf s) e))) val evs ?_ ?_ (fun e _ _ _ => hval e)
  · rw [getS_bind, bind_ok _ (issue_ok attrInt w _ s hr (legalBinary_of hg) (by intro h; cases h) (fun _ => hp) (fun _ => ht)
      (by intro _ h; cases h) (by intro h; cases h) (by intro h; cases h))]
    rfl
  · intro j h1 h2 h3
    have := hop j h1 h2 h3
    unfold elemAt elemIn at this
    rw [operandB_second, this]
    unfold withEvents Hart.trapping
    rw [if_pos (hev j h1 h2 h3)]

theorem wrapTo_lt (n : Nat) (x : Int) : wrapTo n x < 2 ^ n := by
  unfold wrapTo
  have h1 : (0 : Int) < (2 ^ n : Nat) := by exact_mod_cast Nat.two_pow_pos n
  have := Int.emod_lt_of_pos x h1
  have h2 := Int.emod_nonneg x (ne_of_gt h1)
  omega

theorem plain_gives {s : State} {w : Fld} (i : Fld → Instr) (zx : Bool) (f : Nat → Nat → Nat → Nat → Nat)
    (g : Nat → Nat → Nat → Nat → Int)
    (hi : exec (i w) s = intWord (i w) w zx (fun n a b c => (f n a b c % 2 ^ n, 0)) s)
    (hr : VecReady s) (hp : PrefixFits s w true true) (ht : TypeIn s fmtInt) (hl : LengthOk s.hart) (hg : GroupsFit s w)
    (hfg : ∀ n a b c, 0 < n → a < 2 ^ n → b < 2 ^ n → c < 2 ^ n → f n a b c % 2 ^ n = wrapTo n (g n a b c)) :
    GivesInt i s w zx g := by
  refine intWord_gives (i w) zx _ _ _ hi hr hp ht hl hg (fun e _ _ _ => ?_) (fun e => wrapTo_lt _ _) (fun e _ _ _ => by simp)
  refine Prod.ext ?_ rfl
  refine hfg _ _ _ _ widthOf_ok.1 (elemIn_lt _ _ _ _) ?_ (elemIn_lt _ _ _ _)
  unfold secondAt
  split
  · exact elemIn_lt _ _ _ _
  · split
    · exact Nat.mod_lt _ (Nat.two_pow_pos _)
    · split
      · have : 8 ≤ widthOf s := by
          have h9 : vtFmt s.hart.vec.vtype ≤ 9 := by simpa [fmtInt] using ht.2
          unfold widthOf sewOf
          split <;> omega
        have h1 : 2 ^ 8 ≤ 2 ^ widthOf s := Nat.pow_le_pow_right (by decide) this
        have := w.a.isLt
        omega
      · exact wrapTo_lt _ _

theorem wrapTo_nat (n x : Nat) : wrapTo n (x : Int) = x % 2 ^ n := by
  unfold wrapTo; norm_cast
theorem wrapTo_cong {n : Nat} {x y : Int} (h : x % (2 ^ n : Nat) = y % (2 ^ n : Nat)) : wrapTo n x = wrapTo n y := by
  unfold wrapTo; rw [h]

theorem wrapTo_signed (n a : Nat) : wrapTo n (signedOf n a) = a % 2 ^ n := by
  unfold signedOf
  split
  · rw [wrapTo_nat, Nat.mod_mod]
  · unfold wrapTo
    rw [Int.sub_emod_right]
    norm_cast
    rw [Nat.mod_mod]

end Sys2Proof.Machine
end

