-- ==== Sys2Proof/Laws/Integer.lean ====
section
/-! SUPPORT. What the shared forms of the integer, mask and permute words do. -/

namespace Sys2Proof.Machine

/-- The issue of a typed word that takes a prefix and accepts the integer formats. -/
theorem issue_int (a : Attr) (w : Fld) (legal : Bool) (s : State) (hr : VecReady s) (hl : legal = true) (hat : a.takes = true)
    (haty : a.typed = true) (hp : PrefixFits s w a.dcv (a.msk == .predicate)) (ht : TypeIn s fmtInt)
    (hf : ∀ f, fmtInt f = true → a.fmts f = true) : issue a w legal s = .ok (ctxOf a w s) s := by
  have hmx : isMx (vtFmt s.hart.vec.vtype) = false := by
    have : vtFmt s.hart.vec.vtype ≤ 9 := by simpa [fmtInt] using ht.2
    unfold isMx
    simp only [Bool.and_eq_false_imp, decide_eq_true_eq, decide_eq_false_iff_not]
    omega
  refine issue_ok a w legal s hr hl (by rw [hat]; intro h; cases h) (fun _ => hp) (fun _ => ⟨ht.1, hf _ ht.2⟩) (fun _ _ => hmx)
    (fun _ h => ?_) (by rw [haty]; intro h; cases h)
  rw [hmx] at h
  cases h

/-- A word without events on groups in the grouping: from its computation to what it does. -/
theorem elems_gives {s : State} {w : Fld} (a : Attr) (i : Fld → Instr) (act : Act Unit) (bound : Nat) (res : Nat → Nat)
    (hi : exec (i w) s = vectorWord (i w) act s) (hr : VecReady s) (hat : a.takes = true)
    (ht : TypeIn s fmtInt) (hl : LengthOk s.hart) (hd : DestsFit s w (grpOf s)) (hb : lenOf s ≤ bound)
    (ha : act s = elementWise (i w) { ctxOf a w s with bound := bound }
      ({ ctxOf a w s with bound := bound }.putVec (s.hart.vreg w.d) (widthOf s))
      (8192 * grpOf s / widthOf s) (fun e => .ok (res e, 0)) s)
    (hval : ∀ e, posOf s ≤ e → e < lenOf s → activeAt s w (a.msk == .predicate) e = true → res e < 2 ^ widthOf s) :
    GivesElems i s w (a.msk == .predicate) res := by
  have hc := ctxOf_for a w s hr hat
  have hc' : CtxFor s { ctxOf a w s with bound := bound } (activeAt s w (a.msk == .predicate)) :=
    ⟨hc.vl, hc.velem, hc.tail, hc.pol, hb, hc.plain, hc.tailed, fun e => hc.sel e⟩
  exact writesGroup_of (i w) w act (grpOf s) (widthOf s) hi hr hc' hat (by show (if a.takes then _ else _) = _; rw [hat]; rfl)
    widthOf_ok.2 widthOf_ok.1 (grp_dvd s) hd
    (by rw [← vlmax_int ht]; exact hl) _ res (fun _ => 0) ha (fun _ _ _ _ => rfl) hval

/-- A word without events on a mask destination: from its computation to what it does. -/
theorem bits_gives {s : State} {w : Fld} (a : Attr) (i : Instr) (act : Act Unit) (d bound : Nat) (bit : Nat → Bool)
    (sel : Nat → Bool) (hi : exec i s = vectorWord i act s) (hr : VecReady s)
    (hc : CtxFor s (ctxOf a w s) sel) (hb : lenOf s ≤ bound)
    (ha : act s = elementWise i { ctxOf a w s with bound := bound } (putMask d) 8192 (fun e => .ok ((bit e).toNat, 0)) s) :
    WritesMask i s d a.takes sel bit (fun _ => 0) := by
  have hc' : CtxFor s { ctxOf a w s with bound := bound } sel :=
    ⟨hc.vl, hc.velem, hc.tail, hc.pol, hb, hc.plain, hc.tailed, fun e => hc.sel e⟩
  exact writesMask_of i d act hi hr hc' _ bit (fun _ => 0) ha (fun _ _ _ _ => rfl)

theorem bound_default {s : State} (hr : VecReady s) (a : Attr) (w : Fld) :
    ctxOf a w s = { ctxOf a w s with bound := lenOf s } := by
  unfold ctxOf
  rw [hr.whole]
  rfl

/-- An integer compare. -/
theorem compareWord_gives {s : State} {w : Fld} (i : Fld → Instr) (rel : Nat → Nat → Nat → Bool)
    (hi : exec (i w) s = compareWord (i w) w rel s) (hr : VecReady s) (hp : PrefixFits s w false true) (ht : TypeIn s fmtInt)
    (hb : SourceFits s w.b (grpOf s)) (ha : w.f = 0 → SourceFits s w.a (grpOf s)) : GivesRelation i s w rel := by
  have hc := ctxOf_for { fmts := fmtInt, dcv := false } w s hr rfl
  refine bits_gives (w := w) { fmts := fmtInt, dcv := false } (i w) _ w.d.toNat (lenOf s) _ _ hi hr hc (Nat.le_refl _) ?_
  have hleg : ((Span.mk (s.hart.vreg w.b) (grpHere s.hart)).ok && spanB s.hart w (grpHere s.hart)) = true := by
    have e2 : (Span.mk (s.hart.vreg w.b) (grpHere s.hart)).ok = true := span_ok (grp_dvd s) hb (vreg_lt _ _)
    rw [e2]
    unfold spanB
    by_cases hf : w.f = 0
    · have e3 : (Span.mk (s.hart.vreg w.a) (grpHere s.hart)).ok = true := span_ok (grp_dvd s) (ha hf) (vreg_lt _ _)
      simp [e3]
    · have : decide (w.f ≠ 0) = true := by simpa using hf
      rw [this]; rfl
  rw [getS_bind, bind_ok _ (issue_int { fmts := fmtInt, dcv := false } w _ s hr hleg rfl rfl hp ht (fun _ h => h)),
    ← bound_default hr]
  congr 1
  funext e
  rw [show (ctxOf { fmts := fmtInt, dcv := false } w s).sew = widthOf s from rfl, operandB_second]
  rfl

/-- A mask operation. -/
theorem maskWord_gives {s : State} {w : Fld} (i : Instr) (legal cross : Bool) (bit : State → Nat → Bool)
    (hi : exec i s = maskWord i w legal cross bit s) (hr : VecReady s) (hp : NoPrefix s) (hl : legal = true) :
    GivesBits i s w (bit s) := by
  have hc := ctxOf_for_all attrMask w s hr rfl
  refine bits_gives (w := w) attrMask i _ w.d.toNat (if cross then 16384 else lenOf s) _ _ hi hr hc ?_ ?_
  · split
    · exact Nat.le_of_lt (lenOf_lt s)
    · exact Nat.le_refl _
  · rw [getS_bind, bind_ok _ (issue_ok attrMask w legal s hr hl (fun _ => hp) (by intro h; cases h) (by intro h; cases h)
      (by intro h; cases h) (by intro h; cases h) (fun _ => ⟨rfl, rfl⟩))]
    cases cross
    · simp only [Bool.false_eq_true, if_false]
      rw [← bound_default hr]
    · rfl

/-- A vector word whose effect is a write of an x register. -/
theorem setX_gives {s : State} (i : Instr) (act : Act Unit) (r : BitVec 5) (v : Word)
    (hi : exec i s = vectorWord i act s) (hr : VecReady s)
    (ha : act s = retireVec i false (s.setHart (s.hart.setX r v))) : WritesX i s r v := by
  have ho : HartOnly s.hart (s.hart.setX r v) := by
    unfold HartOnly Hart.setX
    split
    · rfl
    · split <;> rfl
  have hv : (s.hart.setX r v).vec = s.hart.vec := by
    unfold Hart.setX
    split
    · rfl
    · split <;> rfl
  obtain ⟨t, r1, r2, r3, r4, r5, r6, r7⟩ := retireVec_spec i false s _ ho
  refine ⟨settleReads s.cur 0 t, ?_, r2, r3.trans (by rw [hv]), r4.trans (by rw [hv]), r7.trans (by rw [hv]), r5, r6⟩
  rw [hi, vectorWord_ready hr]
  exact runAct_ok (ha.trans r1)

/-- mpop and mfirst. -/
theorem maskScalar_gives {s : State} {w : Fld} (i : Instr) (val : VReg → Nat → Word)
    (hi : exec i s = maskScalar i w val s) (hr : VecReady s) (hp : NoPrefix s) (hl : isRep s.hart.pc = false) :
    WritesX i s w.d (val (s.hart.mask w.b.toNat) (lenOf s)) := by
  refine setX_gives i _ w.d _ hi hr ?_
  rw [getS_bind, bind_ok _ (issue_ok attrMask w _ s hr (by rw [hl]; rfl) (fun _ => hp) (by intro h; cases h) (by intro h; cases h)
      (by intro h; cases h) (by intro h; cases h) (fun _ => ⟨rfl, rfl⟩))]
  rfl

/-- A one-source element-wise word. -/
theorem unaryWord_gives {s : State} {w : Fld} (i : Fld → Instr) (op : Nat → Nat → Nat)
    (hi : exec (i w) s = unaryWord (i w) w op s) (hr : VecReady s) (hp : PrefixFits s w true true) (ht : TypeIn s fmtInt)
    (hl : LengthOk s.hart) (hd : DestsFit s w (grpOf s)) (hb : SourceFits s w.b (grpOf s))
    (hop : ∀ a, a < 2 ^ widthOf s → op (widthOf s) a < 2 ^ widthOf s) :
    GivesElems i s w true (fun e => op (widthOf s) (elemAt s w.b e)) := by
  refine elems_gives attrInt i _ (lenOf s) _ hi hr rfl ht hl hd (Nat.le_refl _) ?_ (fun e _ _ _ => hop _ (elemIn_lt _ _ _ _))
  have hleg : (destOk s.hart ⟨s.hart.vreg w.d, grpHere s.hart⟩ && (Span.mk (s.hart.vreg w.b) (grpHere s.hart)).ok) = true := by
    have e1 : destOk s.hart ⟨s.hart.vreg w.d, grpHere s.hart⟩ = true := destOk_of (grp_dvd s) hd
    have e2 : (Span.mk (s.hart.vreg w.b) (grpHere s.hart)).ok = true := span_ok (grp_dvd s) hb (vreg_lt _ _)
    rw [e1, e2]; rfl
  rw [getS_bind, bind_ok _ (issue_int attrInt w _ s hr hleg rfl rfl hp ht (fun _ h => h)), ← bound_default hr]
  rfl

/-- Destinations apart from a source pass the check of R81. -/
theorem destApart_of {s : State} {w : Fld} {g m : Nat} {r : BitVec 5} (h : Apart s w g r m) :
    destApart s.hart ⟨s.hart.vreg w.d, g⟩ ⟨s.hart.vreg r, m⟩ = true := by
  have key : ∀ d, Dests s w d → (Span.meets ⟨d, g⟩ ⟨s.hart.vreg r, m⟩) = false := by
    intro d hd
    have := h d hd
    unfold Span.meets
    simp only [Bool.and_eq_false_imp, decide_eq_true_eq, decide_eq_false_iff_not]
    omega
  unfold destApart
  rw [key _ (.inl rfl)]
  cases e : s.hart.dregOf with
  | none => rfl
  | some x => simp [key x (.inr e)]

theorem legalCross_of {s : State} {w : Fld} (hd : DestsFit s w (grpOf s)) (hb : SourceFits s w.b (grpOf s))
    (ha : Apart s w (grpOf s) w.b (grpOf s)) : legalCross s.hart w = true := by
  unfold legalCross
  have e1 : destOk s.hart ⟨s.hart.vreg w.d, grpHere s.hart⟩ = true := destOk_of (grp_dvd s) hd
  have e2 : (Span.mk (s.hart.vreg w.b) (grpHere s.hart)).ok = true := span_ok (grp_dvd s) hb (vreg_lt _ _)
  have e3 : destApart s.hart ⟨s.hart.vreg w.d, grpHere s.hart⟩ ⟨s.hart.vreg w.b, grpHere s.hart⟩ = true := destApart_of ha
  simp only [e1, e2, e3, Bool.and_self]

end Sys2Proof.Machine
end

