-- ==== Sys2Proof/Laws/Floating.lean ====
section
/-! SUPPORT. What the shared forms of the floating words do. -/

namespace Sys2Proof.Machine

theorem float_int (f : Nat) (h : fmtFloat f = true) : fmtInt f = true := by
  unfold fmtFloat fmtInt at *
  simp only [Bool.and_eq_true, decide_eq_true_eq] at *
  omega

theorem TypeIn.int {s : State} (h : TypeIn s fmtFloat) : TypeIn s fmtInt := ⟨h.1, float_int _ h.2⟩

/-- The second operand of a floating word. -/
theorem operandB_float (s : State) (w : Fld) (e : Nat) : operandB s w true false (widthOf s) e = secondFloat s w e := by
  have h := operandB_second s w false e
  unfold secondFloat
  by_cases hf : w.f = 1
  · rw [← h]
    unfold operandB
    rw [hf]
    show scalarOperand s true w.a (widthOf s) = _
    unfold scalarOperand
    cases isMilliner s.cur <;> rfl
  · have h1 : decide (w.f = 1) = false := by simpa using hf
    rw [h1, Bool.false_and, ← h]
    unfold operandB
    have h2 : w.f.toNat ≠ 1 := fun x => hf (BitVec.eq_of_toNat_eq x)
    split
    · rfl
    · rename_i x; exact absurd x h2
    · rfl

/-- The results of an element-wise word whose events may trap, when none does. -/
theorem withEvents_ok {α : Type} {h : Hart} {r : α × Ev} (ht : h.vec.vftrap &&& r.2 = 0) : withEvents h r = .ok r := by
  unfold withEvents Hart.trapping
  rw [if_pos ht]

/-- The computation of a floating word with operands in the grouping. -/
theorem float_gives {s : State} {w : Fld} (i : Fld → Instr) (a : Attr) (act : Act Unit) (f : Nat → Nat × Ev)
    (hat : a.takes = true) (hm : (a.msk == .predicate) = true)
    (hi : exec (i w) s = vectorWord (i w) act s) (hr : VecReady s) (ht : TypeIn s fmtInt) (hl : LengthOk s.hart)
    (hd : DestsFit s w (grpOf s))
    (ha : act s = elementWise (i w) (ctxOf a w s) ((ctxOf a w s).putVec (s.hart.vreg w.d) (widthOf s))
      (8192 * grpOf s / widthOf s) (fun e => withEvents s.hart (f e)) s) : GivesFloat i s w f := by
  intro hn
  have hc := ctxOf_for a w s hr hat
  rw [hm] at hc
  have run (b : Nat) (hb : Dests s w b) := elementWise_done (i w) hc
    (putSpec_dests s w (ctxOf a w s) (grpOf s) (widthOf s) widthOf_ok.2 widthOf_ok.1 (grp_dvd s)
      (by show (if a.takes then _ else _) = _; rw [hat]; rfl) hd b hb) (8192 * grpOf s / widthOf s)
    (fun e => withEvents s.hart (f e)) (fun e => (f e).1) (fun e => (f e).2) (by rw [← vlmax_int ht]; exact hl)
    (Nat.le_refl _) (Nat.le_refl _) (fun j h1 h2 h3 => withEvents_ok (hn j h1 h2 h3))
  obtain ⟨t, h', e1, fr, on, ev, em, hx, hfl, hel⟩ := run _ (.inl rfl)
  refine ⟨settleReads s.cur 0 t, ?_, ?_, ?_, ?_, ?_, hx, hfl⟩
  · rw [hi, vectorWord_ready hr]
    exact runAct_ok (ha.trans e1)
  · have : (ctxOf a w s).takes = true := hat
    rw [← this]; exact fr
  · intro b hb e he
    obtain ⟨t2, h2, e2, -, -, ev2, -, -, -, hel2⟩ := run b hb
    rw [e1] at e2
    cases e2
    have hlt : e < 8192 * grpOf s / widthOf s := by
      rw [Nat.lt_div_iff_mul_lt_of_dvd (by have := widthOf_ok (s := s); omega) (Dvd.dvd.mul_right widthOf_ok.2 (grpOf s))]
      exact he
    rw [settleReads_hart, elem_congr ev2, hel2 e hlt]
    unfold written writtenBy
    split
    · rfl
    · split
      · split
        · rfl
        · split
          · exact Nat.zero_mod _
          · rfl
      · split
        · exact Nat.zero_mod _
        · rfl
  · intro k hk ho
    rw [settleReads_hart]
    rw [show t.hart.vec.v[k] = h'.vec.v[k] by simp only [ev]]
    exact on.regs k hk (fun ⟨r, h1, h2⟩ => by have := ho r h1; unfold inGroup at h2; omega)
  · rw [MasksKept, settleReads_hart, em]
    exact Vector.ext (fun k hk => on.masks k hk id)

/-- A floating word of two operands and the old value of the destination. -/
theorem floatWord_gives {s : State} {w : Fld} (i : Fld → Instr) (op : Rounding → Nat → Nat → Nat → Nat × Ev)
    (hi : exec (i w) s = floatWord (i w) w op s) (hr : VecReady s) (hp : PrefixFits s w true true) (ht : TypeIn s fmtFloat)
    (hl : LengthOk s.hart) (hg : GroupsFit s w) :
    GivesFloat i s w (fun e => op (roundingOf s (vtFmt s.hart.vec.vtype)) (elemAt s w.b e) (secondFloat s w e)
      (elemAt s w.d e)) := by
  refine float_gives i attrFloat _ _ rfl rfl hi hr ht.int hl hg.1 ?_
  rw [getS_bind, bind_ok _ (issue_ok attrFloat w _ s hr (legalBinary_of hg) (by intro h; cases h) (fun _ => hp) (fun _ => ht)
    (by intro _ h; cases h) (by intro h; cases h) (by intro h; cases h))]
  show elementWise _ _ _ _ _ _ = _
  congr 1
  funext e
  rw [show (ctxOf attrFloat w s).sew = widthOf s from rfl, operandB_float]
  rfl

/-- A floating word of one operand. -/
theorem floatUnary_gives {s : State} {w : Fld} (i : Fld → Instr) (op : Rounding → Nat → Nat × Ev)
    (hi : exec (i w) s = floatUnary (i w) w op s) (hr : VecReady s) (hp : PrefixFits s w true true) (ht : TypeIn s fmtFloat)
    (hl : LengthOk s.hart) (hd : DestsFit s w (grpOf s)) (hb : SourceFits s w.b (grpOf s)) :
    GivesFloat i s w (fun e => op (roundingOf s (vtFmt s.hart.vec.vtype)) (elemAt s w.b e)) := by
  refine float_gives i attrFloat _ _ rfl rfl hi hr ht.int hl hd ?_
  have hleg : (destOk s.hart ⟨s.hart.vreg w.d, grpHere s.hart⟩ && (Span.mk (s.hart.vreg w.b) (grpHere s.hart)).ok) = true := by
    have e1 : destOk s.hart ⟨s.hart.vreg w.d, grpHere s.hart⟩ = true := destOk_of (grp_dvd s) hd
    have e2 : (Span.mk (s.hart.vreg w.b) (grpHere s.hart)).ok = true := span_ok (grp_dvd s) hb (vreg_lt _ _)
    rw [e1, e2]; rfl
  rw [getS_bind, bind_ok _ (issue_ok attrFloat w _ s hr hleg (by intro h; cases h) (fun _ => hp) (fun _ => ht)
    (by intro _ h; cases h) (by intro h; cases h) (by intro h; cases h))]
  rfl

end Sys2Proof.Machine
end

