-- ==== Sys2Proof/Laws/Memory.lean ====
section
/-! SUPPORT. The laws of memory: reading after writing, and the canonical form, which every memory operation keeps. -/

namespace Sys2Proof.Machine

open Sys2Proof

/-! ## The canonical form -/

/-- Every listed address is at least `a`. -/
def Above (a : Nat) (m : List Host.Cell) : Prop := ∀ c ∈ m, a ≤ c.1

theorem memWf_cons (i : Nat) (b : Byte) (m : List Host.Cell) :
    memWf ((i, b) :: m) = true ↔ b ≠ 0 ∧ Above (i + 1) m ∧ memWf m = true := by
  induction m generalizing i b with
  | nil => simp [memWf, Above]
  | cons x r ih =>
    obtain ⟨j, c⟩ := x
    simp only [memWf, Bool.and_eq_true, bne_iff_ne, decide_eq_true_eq, ne_eq]
    constructor
    · rintro ⟨⟨hb, hij⟩, hw⟩
      refine ⟨hb, ?_, hw⟩
      have := (ih j c).1 hw
      intro y hy
      rcases List.mem_cons.1 hy with rfl | hy
      · exact hij
      · exact Nat.le_trans (by omega) (this.2.1 y hy)
    · rintro ⟨hb, ha, hw⟩
      exact ⟨⟨hb, ha (j, c) (by simp)⟩, hw⟩

theorem Above.mono {a b : Nat} {m : List Host.Cell} (h : Above a m) (hb : b ≤ a) : Above b m :=
  fun c hc => Nat.le_trans hb (h c hc)

theorem readByte_above {a b : Nat} {m : List Host.Cell} (h : Above b m) (hab : a < b) : readByte m a = 0 := by
  induction m with
  | nil => rfl
  | cons x r ih =>
    obtain ⟨i, c⟩ := x
    have h1 : b ≤ i := h (i, c) (by simp)
    simp only [readByte, if_neg (by omega : ¬ i = a)]
    exact ih (fun y hy => h y (List.mem_cons_of_mem _ hy))

theorem writeByte_above {a b : Nat} {v : Byte} {m : List Host.Cell} (h : Above b m) (hab : b ≤ a) :
    Above b (writeByte m a v) := by
  induction m with
  | nil =>
    unfold writeByte
    split
    · intro c hc; cases hc
    · intro c hc; rw [List.mem_singleton.1 hc]; exact hab
  | cons x r ih =>
    obtain ⟨i, w⟩ := x
    have h1 : b ≤ i := h (i, w) (by simp)
    have hr : Above b r := fun y hy => h y (List.mem_cons_of_mem _ hy)
    unfold writeByte
    split
    · split
      · exact h
      · intro c hc
        rcases List.mem_cons.1 hc with rfl | hc
        · exact hab
        · exact h c hc
    · split
      · split
        · exact hr
        · intro c hc
          rcases List.mem_cons.1 hc with rfl | hc
          · exact hab
          · exact hr c hc
      · intro c hc
        rcases List.mem_cons.1 hc with rfl | hc
        · exact h1
        · exact ih hr c hc

/-- Storing a byte keeps the canonical form. -/
theorem writeByte_wf {m : List Host.Cell} (a : Nat) (v : Byte) (h : Memory.wf m) : Memory.wf (writeByte m a v) := by
  unfold Memory.wf at *
  induction m with
  | nil =>
    unfold writeByte
    split
    · rfl
    · rename_i hv; exact (memWf_cons a v []).2 ⟨hv, (fun c hc => absurd hc List.not_mem_nil), rfl⟩
  | cons x r ih =>
    obtain ⟨i, w⟩ := x
    obtain ⟨hw, ha, hr⟩ := (memWf_cons i w r).1 h
    unfold writeByte
    split
    · rename_i hlt
      split
      · exact h
      · rename_i hv
        refine (memWf_cons a v _).2 ⟨hv, ?_, h⟩
        intro c hc
        rcases List.mem_cons.1 hc with rfl | hc
        · exact hlt
        · exact Nat.le_trans (by omega) (ha c hc)
    · split
      · rename_i hlt heq
        split
        · exact hr
        · rename_i hv; exact (memWf_cons a v _).2 ⟨hv, heq ▸ ha, hr⟩
      · rename_i hlt hne
        exact (memWf_cons i w _).2 ⟨hw, writeByte_above ha (by omega), ih hr⟩

/-- Storing bytes keeps the canonical form. -/
theorem writeBytes_wf {m : List Host.Cell} (a : Nat) (bs : List Byte) (h : Memory.wf m) :
    Memory.wf (writeBytes m a bs) := by
  induction bs generalizing m a with
  | nil => exact h
  | cons b r ih => exact ih (a + 1) (writeByte_wf a b h)

/-- Removing listed bytes keeps the canonical form. -/
theorem filter_wf {m : List Host.Cell} (p : Host.Cell → Bool) (h : Memory.wf m) : Memory.wf (m.filter p) := by
  unfold Memory.wf at *
  induction m with
  | nil => rfl
  | cons x r ih =>
    obtain ⟨i, w⟩ := x
    obtain ⟨hw, ha, hr⟩ := (memWf_cons i w r).1 h
    rw [List.filter_cons]
    split
    · exact (memWf_cons i w _).2 ⟨hw, fun c hc => ha c (List.mem_of_mem_filter hc), ih hr⟩
    · exact ih hr

/-- A store keeps the canonical form. -/
theorem store_wf {s : State} (w : Writer) (a : Nat) (bs : List Byte) (h : Memory.wf s.mem) :
    Memory.wf (s.store w a bs).mem := writeBytes_wf a bs h

/-- A message of the fabric leaves memory alone. -/
@[simp] theorem sendFabric_mem (m : FabMsg) (s : State) : (sendFabric m s).mem = s.mem := by
  unfold sendFabric
  split
  · rfl
  · rfl

/-- An acknowledgement leaves memory alone. -/
@[simp] theorem sendWack_mem (s : State) (m : Msg) (ret : Nat) : (sendWack s m ret).mem = s.mem := by
  unfold sendWack
  split
  · exact sendFabric_mem _ _
  · split <;> rfl

/-- A request performed at its home keeps the canonical form. -/
theorem perform_wf {s : State} (m : Msg) (h : Memory.wf s.mem) : Memory.wf (perform s m).mem := by
  unfold perform
  dsimp only
  split
  · rwa [sendWack_mem]
  · split
    · rw [sendWack_mem]; exact writeBytes_wf _ _ h
    · exact h

/-- A store of a unit keeps the canonical form. -/
theorem pushStore_wf {s : State} (w : Writer) (a : Nat) (bs : List Byte) (h : Memory.wf s.mem) :
    Memory.wf (s.pushStore w a bs).mem := by
  unfold State.pushStore
  extract_lets a y m s1 s2
  have h2 : s2.mem = s.mem := by
    show (if _ then _ else _ : State).mem = _
    split <;> rfl
  have hw : Memory.wf s2.mem := h2 ▸ h
  split
  · exact store_wf w _ bs hw
  · split
    · exact hw
    · split
      · exact perform_wf m hw
      · exact store_wf w _ bs hw

/-! ## Reading after writing -/

/-- In canonical memory a byte reads as the value last stored there. -/
theorem readByte_writeByte_self {m : List Host.Cell} (a : Nat) (v : Byte) (h : Memory.wf m) :
    readByte (writeByte m a v) a = v := by
  unfold Memory.wf at h
  induction m with
  | nil =>
    unfold writeByte
    split
    · rename_i hv; rw [hv]; rfl
    · simp [readByte]
  | cons x r ih =>
    obtain ⟨i, w⟩ := x
    obtain ⟨hw, ha, hr⟩ := (memWf_cons i w r).1 h
    unfold writeByte
    split
    · rename_i hlt
      split
      · rename_i hv
        rw [hv]
        simp only [readByte, if_neg (by omega : ¬ i = a)]
        exact readByte_above ha (by omega)
      · simp [readByte]
    · split
      · rename_i hlt heq
        split
        · rename_i hv; rw [hv]; exact readByte_above ha (by omega)
        · simp [readByte]
      · rename_i hlt hne
        simp only [readByte, if_neg (Ne.symm hne)]
        exact ih hr

/-- A store of a byte leaves every other byte alone. -/
theorem readByte_writeByte_ne (m : List Host.Cell) (a b : Nat) (v : Byte) (h : b ≠ a) :
    readByte (writeByte m a v) b = readByte m b := by
  induction m with
  | nil =>
    unfold writeByte
    split
    · rfl
    · simp [readByte, Ne.symm h]
  | cons x r ih =>
    obtain ⟨i, w⟩ := x
    unfold writeByte
    split
    · split
      · rfl
      · simp [readByte, Ne.symm h]
    · split
      · rename_i hlt heq
        split
        · simp [readByte, heq ▸ Ne.symm h]
        · simp [readByte, heq ▸ Ne.symm h, Ne.symm h]
      · simp only [readByte, ih]

/-- A store of bytes leaves every byte outside it alone. -/
theorem readByte_writeBytes_ne (m : List Host.Cell) (a b : Nat) (bs : List Byte) (h : b < a ∨ a + bs.length ≤ b) :
    readByte (writeBytes m a bs) b = readByte m b := by
  induction bs generalizing m a with
  | nil => rfl
  | cons x r ih =>
    simp only [List.length_cons] at h
    rw [writeBytes, ih (writeByte m a x) (a + 1) (by omega), readByte_writeByte_ne m a b x (by omega)]

theorem readBytes_writeBytes_self {m : List Host.Cell} (a : Nat) (bs : List Byte) (h : Memory.wf m) :
    readBytes (writeBytes m a bs) bs.length a = bs := by
  induction bs generalizing m a with
  | nil => rfl
  | cons x r ih =>
    simp only [List.length_cons, readBytes, writeBytes]
    rw [ih (a + 1) (writeByte_wf a x h), readByte_writeBytes_ne _ _ _ _ (by omega), readByte_writeByte_self a x h]

/-- In canonical memory a number reads back as it was stored. -/
theorem readNat_writeBytes_self {m : List Host.Cell} (a n x : Nat) (h : Memory.wf m) :
    readNat (writeBytes m a (toBytes n x)) a n = x % 256 ^ n := by
  have := readBytes_writeBytes_self a (toBytes n x) h
  rw [length_toBytes] at this
  rw [readNat, this, ofBytes_toBytes]

theorem readBytes_writeBytes_apart (m : List Host.Cell) (a b n : Nat) (bs : List Byte)
    (h : b + n ≤ a ∨ a + bs.length ≤ b) : readBytes (writeBytes m a bs) n b = readBytes m n b := by
  induction n generalizing b with
  | zero => rfl
  | succ n ih =>
    simp only [readBytes]
    rw [ih (b + 1) (by omega), readByte_writeBytes_ne _ _ _ _ (by omega)]

/-- A store leaves a number outside it alone. -/
theorem readNat_writeBytes_apart (m : List Host.Cell) (a b n : Nat) (bs : List Byte)
    (h : b + n ≤ a ∨ a + bs.length ≤ b) : readNat (writeBytes m a bs) b n = readNat m b n := by
  rw [readNat, readNat, readBytes_writeBytes_apart m a b n bs h]

end Sys2Proof.Machine
end

