-- ==== Sys2Proof/Laws/Scalar.lean ====
section
/-! SUPPORT. What the shared operations of the scalar words do: the prefix check, the write of a register with the
retirement, the jump, and trap entry. -/

namespace Sys2Proof.Machine

/-- A scalar word that no prefix blocks and that is legal runs. -/
theorem scalarWord_runs {i : Instr} {legal : State → Bool} {a : Act Unit} {s : State} (hp : NoPrefix s)
    (hl : legal s = true) : scalarWord i legal a s = runAct i a s := by
  have : (s.hart.pfxBlocks || !(legal s)) = false := by
    have hp' : s.hart.pfxBlocks = false := hp
    rw [hp', hl]; rfl
  unfold scalarWord
  rw [this]
  rfl

/-- A scalar word that a prefix blocks, or that is not legal, is an illegal instruction. -/
theorem scalarWord_illegal {i : Instr} {legal : State → Bool} {a : Act Unit} {s : State}
    (h : s.hart.pfxBlocks = true ∨ legal s = false) : scalarWord i legal a s = .next (afterStop i .illegal s) := by
  have : (s.hart.pfxBlocks || !(legal s)) = true := by
    rcases h with h | h <;> simp [h]
  unfold scalarWord
  rw [this]
  rfl

theorem setX_zero (h : Hart) (v : Word) : h.setX 0 v = h := by unfold Hart.setX; rfl

/-- The state after a word has written an x register and goes on at `pc`. -/
theorem setX_retireTo_spec (s u : State) (rd : BitVec 5) (v pc : Word) (hu : u = s.setHart ((s.hart.setX rd v).retireTo pc)) :
    ScalarFrame s (settleReads s.cur 0 u) ∧ SetsX s u rd v ∧ FKept s u ∧ u.hart.csr = retiredCsr s.hart.csr ∧ u.hart.pc = pc := by
  subst hu
  have e : (s.setHart ((s.hart.setX rd v).retireTo pc)).hart = (s.hart.setX rd v).retireTo pc := State.hart_setHart _ _
  have h1 : ∃ x sh, s.hart.setX rd v = { s.hart with x := x, shadow := sh } := by
    unfold Hart.setX
    split
    · exact ⟨_, _, rfl⟩
    · split
      · exact ⟨_, _, rfl⟩
      · exact ⟨_, _, rfl⟩
  obtain ⟨x, sh, h1⟩ := h1
  refine ⟨⟨rfl, rfl, ?_, ?_, ?_, ?_, ?_, ?_, fun k hk => ?_⟩, ?_, ?_, ?_, ?_⟩
  · rw [settleReads_hart, e, h1]; rfl
  · rw [settleReads_hart, e, h1]; rfl
  · rw [settleReads_hart, e, h1]; rfl
  · rw [settleReads_hart, e, h1]; rfl
  · rw [settleReads_hart, e, h1]; rfl
  · rw [settleReads_hart, e, h1]; rfl
  · rw [settleReads_hartAt]; exact State.hartAt_setHart_ne _ _ _ hk
  · rw [SetsX, e]; exact ⟨rfl, rfl⟩
  · rw [FKept, e, h1]; exact ⟨rfl, rfl⟩
  · rw [e, h1]; rfl
  · rw [e]; rfl

/-- A word whose computation writes an x register and retires at `pc` from the state it began in. -/
theorem givesX_of {s : State} {i : Instr} {legal : State → Bool} {a : Act Unit} {rd : BitVec 5} {v pc : Word}
    (hi : exec i s = scalarWord i legal a s) (hp : NoPrefix s) (hl : legal s = true)
    (ha : a s = .ok () (s.setHart ((s.hart.setX rd v).retireTo pc))) : GivesX i s rd v pc := by
  obtain ⟨h1, h2, h3, h4, h5⟩ := setX_retireTo_spec s _ rd v pc rfl
  refine ⟨settleReads s.cur 0 (s.setHart ((s.hart.setX rd v).retireTo pc)), ?_, h1, h2, h3, h4, h5⟩
  rw [hi, scalarWord_runs hp hl]
  exact runAct_ok ha

theorem setX_pc (h : Hart) (r : BitVec 5) (v : Word) : (h.setX r v).pc = h.pc := by
  unfold Hart.setX
  split
  · rfl
  · split <;> rfl

theorem retireWith_eq (s : State) (rd : BitVec 5) (v : Word) :
    retireWith rd v s = .ok () (s.setHart ((s.hart.setX rd v).retireTo (s.hart.pc + 4))) := by
  unfold retireWith onHart Hart.retire
  simp only [setX_pc]

/-- A jump to a word of the virtual space. -/
theorem jumpTo_ok {g : Hart → Hart} {t : Word} {s : State} (h4 : t.toNat % 4 = 0) (h47 : isRep t = false) :
    jumpTo g t s = .ok () (s.setHart ((g s.hart).retireTo t)) := by
  unfold jumpTo
  rw [if_neg (by omega), h47]
  rfl

/-- Trap entry by the current agent, in a state with its memory and its harts. -/
theorem takeTrap_spec (i : Instr) (s u : State) (cause : Nat) (tval : Word) (hm : u.mem = s.mem) (hc : u.cur = s.cur)
    (hh : u.harts = s.harts) (hi : exec i s = .next (takeTrap cause tval u)) : Traps i s cause tval := by
  refine ⟨_, hi, hm, hc, ?_⟩
  have e0 : ∀ k, u.hartAt k = s.hartAt k := fun k => by unfold State.hartAt; rw [hh]
  have e1 : u.hart = s.hart := by unfold State.hart; rw [hc]; exact e0 _
  have e : (takeTrap cause tval u).hart = s.hart.enterTrap (s.hart.delegates cause) false cause tval := by
    rw [← e1]; exact State.hart_setHart _ _
  have ho : ∀ k, k ≠ s.cur → (takeTrap cause tval u).hartAt k = s.hartAt k :=
    fun k hk => (State.hartAt_setHart_ne _ _ _ (by rw [hc]; exact hk)).trans (e0 k)
  rw [FKept, e]
  unfold Hart.enterTrap
  cases hd : s.hart.delegates cause with
  | true =>
    refine ⟨rfl, rfl, ⟨rfl, rfl⟩, rfl, rfl, rfl, rfl, ho, rfl, fun _ => ⟨rfl, rfl, ?_⟩, fun h => absurd ?_ h⟩
    · simp
    · unfold Hart.delegates at hd
      simpa using hd
  | false =>
    refine ⟨rfl, rfl, ⟨rfl, rfl⟩, rfl, rfl, rfl, rfl, ho, rfl, fun h => ?_, fun _ => ⟨rfl, rfl, ?_⟩⟩
    · unfold Hart.delegates at hd
      rw [Bool.and_eq_false_iff] at hd
      rcases hd with hd | hd
      · exact absurd h.1 (by simpa using hd)
      · rw [h.2] at hd; cases hd
    · simp

/-- A word of an agent that is no Milliner, whose computation traps in the state it began in. -/
theorem traps_of {s : State} {i : Instr} {legal : State → Bool} {a : Act Unit} {cause : Nat} {tval : Word}
    (hi : exec i s = scalarWord i legal a s) (hp : NoPrefix s) (hl : legal s = true) (hm : isMilliner s.cur = false)
    (ha : a s = .error (.trap cause tval) s) : Traps i s cause tval := by
  refine takeTrap_spec i s (settleReads s.cur 0 s) cause tval rfl rfl rfl ?_
  rw [hi, scalarWord_runs hp hl, runAct_trap ha]
  unfold raise
  have : isMilliner (settleReads s.cur 0 s).cur = false := hm
  rw [this]
  rfl

/-- Nothing but the current agent's hart changes when only it is replaced. -/
theorem onlyHart_setHart (s : State) (h : Hart) : OnlyHart s (settleReads s.cur 0 (s.setHart h)) :=
  ⟨fun k hk => by rw [settleReads_hartAt]; exact State.hartAt_setHart_ne _ _ _ hk, rfl⟩

/-- A scalar word whose computation replaces the hart of the state it began in. -/
theorem becomes_of {s : State} {i : Instr} {legal : State → Bool} {a : Act Unit} {h : Hart}
    (hi : exec i s = scalarWord i legal a s) (hp : NoPrefix s) (hl : legal s = true)
    (ha : a s = .ok () (s.setHart h)) : Becomes i s h := by
  refine ⟨settleReads s.cur 0 (s.setHart h), ?_, onlyHart_setHart s h, ?_⟩
  · rw [hi, scalarWord_runs hp hl]
    exact runAct_ok ha
  · rw [settleReads_hart]
    exact State.hart_setHart _ _

/-- A scalar word that is not legal traps with its own word, on an agent that is no Milliner. -/
theorem illegal_of {s : State} {i : Instr} {legal : State → Bool} {a : Act Unit}
    (hi : exec i s = scalarWord i legal a s) (hl : legal s = false) (hm : isMilliner s.cur = false) :
    Traps i s 2 ((wordOf i).setWidth 64) := by
  refine takeTrap_spec i s s 2 _ rfl rfl rfl ?_
  rw [hi, scalarWord_illegal (.inr hl)]
  show Host.Outcome.next (raise 2 _ s) = _
  unfold raise
  rw [hm]
  rfl

end Sys2Proof.Machine
end

