-- ==== Sys2Proof/Tests/Slice0.lean ====
section
/-! SUPPORT. Tests of the model: words decoded as the spec encodes them, ill-formed terms that the check refuses, results
of single steps, and for every statement of Obligations.lean a witness that its hypotheses can be met. -/

namespace Sys2Proof.Tests
open Sys2Proof Sys2Proof.Machine
/-- Fields of a word of majors A, F, P, M, K and G. -/
def fl (k t f b a d : Nat) : Fld := { k := BitVec.ofNat 2 k, t := BitVec.ofNat 1 t, f := BitVec.ofNat 2 f, b := BitVec.ofNat 5 b, a := BitVec.ofNat 5 a, d := BitVec.ofNat 5 d }
/-- Fields of an S-format word. -/
def sf (x rs2 rs1 rd : Nat) : SFld := { x := BitVec.ofNat 3 x, rs2 := BitVec.ofNat 5 rs2, rs1 := BitVec.ofNat 5 rs1, rd := BitVec.ofNat 5 rd }
/-- Fields of a lease word. -/
def lf (n z rs1 words : Nat) : LeaseFld := { n := BitVec.ofNat 8 n, z := BitVec.ofNat 4 z, rs1 := BitVec.ofNat 5 rs1, words := BitVec.ofNat 5 words }
/-- Fields of a vrep word. -/
def vf (n s k z : Nat) : VrepFld := { n := BitVec.ofNat 12 n, s := BitVec.ofNat 5 s, k := BitVec.ofNat 4 k, z := BitVec.ofNat 1 z }
/-- Fields of a pfx word. -/
def pf (z dcv dreg y mreg inv clear : Nat) : PfxFld := { z := BitVec.ofNat 6 z, dcv := BitVec.ofNat 1 dcv, dreg := BitVec.ofNat 5 dreg, y := BitVec.ofNat 5 y, mreg := BitVec.ofNat 3 mreg, inv := BitVec.ofNat 1 inv, zero := BitVec.ofNat 1 clear }
/-- Fields of a configuration word. -/
def cf (hi lo rs1 rd : Nat) : CfgFld := { hi := BitVec.ofNat 3 hi, lo := BitVec.ofNat 5 lo, rs1 := BitVec.ofNat 5 rs1, rd := BitVec.ofNat 5 rd }

/-! ## States for the witnesses -/

/-- A partition with cluster 0, a system core, a die Milliner, two granules and every table. -/
def part3 : Part :=
  { state := 2, cl := 1, sc := 1, md := 1, granules := [0, 1], noc := 8
    fring := { base := 0x50000, en := true, log2n := 4 }
    task := [(2, { base := 0x60000, en := true, log2n := 4 })]
    dom := { base := 0x70000, en := true, log2n := 5 }
    ttab := { base := 0x80000, en := true, log2n := 8 }
    tseq := { base := 0x90000, en := true, log2n := 5 }
    mlt := { base := 0xA0000, en := true, log2n := 4 }
    fbr := { base := 0xB0000, en := true, log2n := 8 } }

/-- Hart 5 running in M mode, with addresses in x10 and x11 and small numbers in x12 and x13. -/
def hart5 : Hart :=
  { pc := 0x1000, priv := .m, ctl := { parked := false }
    x := #v[0, 0, 0, 0, 0, 0, 0, 0, 0, 0, 0x100000, 0x100800, 8, 3, 0, 0, 0, 0, 0, 0, 0, 0, 0, 0, 0, 0, 0, 0, 0, 0, 0, 0] }

/-- A package whose hart 5 is in a state. -/
def pack (h : Hart) : State := { cur := 5, harts := [(5, h)], parts := [(3, part3)], pkg := { startDue := false } }

/-- Hart 5 with a vector type and a vector length. -/
def vec5 (vtype : Word) (vl : Nat) : State := pack { hart5 with vec := { vtype := vtype, vl := bv 14 vl } }

/-- What holds of vd and there is no DREG holds of every destination. -/
theorem forall_dests {s : State} {w : Fld} {p : Nat → Prop} (h : p (s.hart.vreg w.d)) (n : s.hart.dregOf = none) :
    ∀ r, Dests s w r → p r := by
  rintro r (rfl | e)
  · exact h
  · rw [n] at e; cases e

/-- What holds of vd and of DREG holds of every destination. -/
theorem forall_dests_dreg {s : State} {w : Fld} {p : Nat → Prop} {k : Nat} (h : p (s.hart.vreg w.d))
    (n : s.hart.dregOf = some k) (g : p k) : ∀ r, Dests s w r → p r := by
  rintro r (rfl | e)
  · exact h
  · rw [n] at e; cases e; exact g

set_option maxRecDepth 100000

/-! ## Witnesses: vector words

Each theorem shows a state and operands that meet the hypotheses of a clause of the statement it names. -/

/-- No event traps while VFTRAP is zero. -/
theorem no_trap {s : State} {act : Nat → Bool} {evs : Nat → Ev} (h : s.hart.vec.vftrap = 0) : NoTrap s act evs := by
  intro e _ _ _
  rw [h]
  exact BitVec.zero_and

/-- Hart 5 with 20 elements of INT32. -/
def vInt : State := vec5 0x20002 20
/-- The same behind a prefix with DREG = v8. -/
def vPre : State := pack { hart5 with vec := { vtype := 0x20002, vl := 20, vpfx := 0x441 } }
/-- v4, v3 and v2, form VV, msk 00. -/
def wVv : Fld := fl 0 0 0 2 3 4
/-- The same with msk 01. -/
def wMsk : Fld := fl 1 0 0 2 3 4

theorem ready_vInt : VecReady vInt := ⟨by decide, by decide, by decide, by decide⟩
theorem ready_vPre : VecReady vPre := ⟨by decide, by decide, by decide, by decide⟩
theorem type_vInt : TypeIn vInt fmtInt := ⟨by decide, by decide⟩
theorem length_vInt : LengthOk vInt.hart := by unfold LengthOk; decide
theorem prefix_vInt (w : Fld) (d p : Bool) : PrefixFits vInt w d p := fun h => absurd h (by decide)
theorem alone_vInt : NoPrefix vInt := by unfold NoPrefix; decide

theorem witness_IntegerWords : VecReady vInt ∧ PrefixFits vInt wMsk true true ∧ TypeIn vInt fmtInt ∧ LengthOk vInt.hart
    ∧ GroupsFit vInt wMsk ∧ bitOf vInt.hart.vec.vftrap 5 = false :=
  ⟨ready_vInt, prefix_vInt _ _ _, type_vInt, length_vInt,
    ⟨forall_dests (by decide) (by decide), rfl, fun _ => rfl⟩, by decide⟩

/-- The same under a prefix with a second destination. -/
theorem witness_IntegerWords_prefix : VecReady vPre ∧ PrefixFits vPre wVv true true ∧ TypeIn vPre fmtInt ∧ LengthOk vPre.hart
    ∧ GroupsFit vPre wVv ∧ vPre.hart.dregOf = some 8 :=
  ⟨ready_vPre, fun _ => ⟨fun _ => rfl, fun _ => by decide⟩, ⟨by decide, by decide⟩, by unfold LengthOk; decide,
    ⟨forall_dests_dreg (k := 8) (by decide) (by decide) (by decide), rfl, fun _ => rfl⟩, by decide⟩

theorem witness_CarriesAndCompares : VecReady vInt ∧ PrefixFits vInt wMsk true false ∧ TypeIn vInt fmtInt ∧ LengthOk vInt.hart
    ∧ GroupsFit vInt wMsk :=
  ⟨ready_vInt, prefix_vInt _ _ _, type_vInt, length_vInt, forall_dests (by decide) (by decide), rfl, fun _ => rfl⟩

theorem witness_CarriesAndCompares_relations : VecReady vInt ∧ PrefixFits vInt wMsk false true ∧ TypeIn vInt fmtInt
    ∧ SourceFits vInt wMsk.b (grpOf vInt) ∧ (wMsk.f = 0 → SourceFits vInt wMsk.a (grpOf vInt)) :=
  ⟨ready_vInt, prefix_vInt _ _ _, type_vInt, rfl, fun _ => rfl⟩

theorem witness_MaskWords : VecReady vInt ∧ NoPrefix vInt ∧ isRep vInt.hart.pc = false ∧ wVv.d ≠ wVv.b
    ∧ TypeIn vInt fmtInt ∧ PrefixFits vInt wVv false true ∧ SourceFits vInt wVv.b (grpOf vInt)
    ∧ PrefixFits vInt wVv true true ∧ LengthOk vInt.hart ∧ DestsFit vInt wVv (grpOf vInt) :=
  ⟨ready_vInt, alone_vInt, by decide, by decide, type_vInt, prefix_vInt _ _ _, rfl, prefix_vInt _ _ _, length_vInt,
    forall_dests (by decide) (by decide)⟩

theorem witness_ElementMoves : VecReady vInt ∧ PrefixFits vInt wMsk true true ∧ TypeIn vInt fmtInt ∧ LengthOk vInt.hart
    ∧ DestsFit vInt wMsk (grpOf vInt) ∧ SourceFits vInt wMsk.b (grpOf vInt) ∧ NoPrefix vInt ∧ isRep vInt.hart.pc = false
    ∧ SourceFits vInt wMsk.d (grpOf vInt) :=
  ⟨ready_vInt, prefix_vInt _ _ _, type_vInt, length_vInt, forall_dests (by decide) (by decide), rfl, alone_vInt, by decide, rfl⟩

theorem witness_SlidesAndGathers : VecReady vInt ∧ PrefixFits vInt wMsk true true ∧ TypeIn vInt fmtInt ∧ LengthOk vInt.hart
    ∧ DestsFit vInt wMsk (grpOf vInt) ∧ SourceFits vInt wMsk.b (grpOf vInt) ∧ Apart vInt wMsk (grpOf vInt) wMsk.b (grpOf vInt)
    ∧ wMsk.f = 0 ∧ GroupsFit vInt wMsk ∧ Apart vInt wMsk (grpOf vInt) wMsk.a (grpOf vInt) ∧ PrefixFits vInt wMsk true false :=
  ⟨ready_vInt, prefix_vInt _ _ _, type_vInt, length_vInt, forall_dests (by decide) (by decide), rfl,
    forall_dests (by decide) (by decide), rfl, ⟨forall_dests (by decide) (by decide), rfl, fun _ => rfl⟩,
    forall_dests (by decide) (by decide), prefix_vInt _ _ _⟩

/-- vcomp, vexpd and vconf; vsext and vzext from 16 bits. -/
theorem witness_PacksAndWidths : VecReady vInt ∧ TypeIn vInt fmtInt ∧ LengthOk vInt.hart ∧ DestsFit vInt wMsk (grpOf vInt)
    ∧ SourceFits vInt wMsk.b (grpOf vInt) ∧ Apart vInt wMsk (grpOf vInt) wMsk.b (grpOf vInt)
    ∧ PrefixFits vInt wMsk true false ∧ PrefixFits vInt wMsk true true ∧ 8 * 2 ^ ((fl 1 0 3 2 1 4).a.toNat % 4) < widthOf vInt :=
  ⟨ready_vInt, type_vInt, length_vInt, forall_dests (by decide) (by decide), rfl, forall_dests (by decide) (by decide),
    prefix_vInt _ _ _, prefix_vInt _ _ _, by decide⟩

/-- vwiden by 2 of INT32, and vnarrow by 4 of INT32 with clamping. -/
theorem witness_PacksAndWidths_widths :
    (32 * 2 ≤ 64 ∧ grpOf vInt * 2 ≤ 8 ∧ DestsFit vInt (fl 1 0 3 2 4 4) (grpOf vInt * 2)
      ∧ Apart vInt (fl 1 0 3 2 4 4) (grpOf vInt * 2) 2 (grpOf vInt))
    ∧ 8 ≤ widthOf vInt / 4 ∧ DestsFit vInt (fl 1 0 3 2 5 4) (max 1 (grpOf vInt / 4))
      ∧ Apart vInt (fl 1 0 3 2 5 4) (max 1 (grpOf vInt / 4)) 2 (grpOf vInt)
      ∧ NoTrap vInt (activeAt vInt (fl 1 0 3 2 5 4) true) (fun _ => 32) :=
  ⟨⟨by decide, by decide, forall_dests (by decide) (by decide), forall_dests (by decide) (by decide)⟩, by decide,
    forall_dests (by decide) (by decide), forall_dests (by decide) (by decide), no_trap rfl⟩

theorem witness_BitCounts : VecReady vInt ∧ PrefixFits vInt wMsk true true ∧ TypeIn vInt fmtInt ∧ LengthOk vInt.hart
    ∧ DestsFit vInt wMsk (grpOf vInt) ∧ SourceFits vInt wMsk.b (grpOf vInt) :=
  ⟨ready_vInt, prefix_vInt _ _ _, type_vInt, length_vInt, forall_dests (by decide) (by decide), rfl⟩

theorem witness_IntegerReductions : VecReady vInt ∧ PrefixFits vInt wMsk true true ∧ TypeIn vInt fmtInt ∧ LengthOk vInt.hart
    ∧ GroupsFit vInt wMsk ∧ Apart vInt wMsk (grpOf vInt) wMsk.b (grpOf vInt) :=
  ⟨ready_vInt, prefix_vInt _ _ _, type_vInt, length_vInt, ⟨forall_dests (by decide) (by decide), rfl, fun _ => rfl⟩,
    forall_dests (by decide) (by decide)⟩

/-! ### Floating-point, MX and planar words -/

/-- Hart 5 with 20 elements of FP32. -/
def vFlt : State := vec5 0x20005 20

theorem ready_vFlt : VecReady vFlt := ⟨by decide, by decide, by decide, by decide⟩
theorem type_vFlt : TypeIn vFlt fmtFloat := ⟨by decide, by decide⟩
theorem length_vFlt : LengthOk vFlt.hart := by unfold LengthOk; decide
theorem prefix_vFlt (w : Fld) (d p : Bool) : PrefixFits vFlt w d p := fun h => absurd h (by decide)

theorem witness_FloatArithmetic : VecReady vFlt ∧ PrefixFits vFlt wMsk true true ∧ TypeIn vFlt fmtFloat ∧ LengthOk vFlt.hart
    ∧ GroupsFit vFlt wMsk ∧ NoTrap vFlt (activeAt vFlt wMsk true) (fun _ => 31) :=
  ⟨ready_vFlt, prefix_vFlt _ _ _, type_vFlt, length_vFlt, ⟨forall_dests (by decide) (by decide), rfl, fun _ => rfl⟩, no_trap rfl⟩

theorem witness_FloatSelect : VecReady vFlt ∧ PrefixFits vFlt wMsk true true ∧ TypeIn vFlt fmtFloat ∧ LengthOk vFlt.hart
    ∧ GroupsFit vFlt wMsk ∧ NoTrap vFlt (activeAt vFlt wMsk true) (fun _ => 16) :=
  ⟨ready_vFlt, prefix_vFlt _ _ _, type_vFlt, length_vFlt, ⟨forall_dests (by decide) (by decide), rfl, fun _ => rfl⟩, no_trap rfl⟩

theorem witness_FloatComparesAndUnary : VecReady vFlt ∧ PrefixFits vFlt wMsk false true ∧ PrefixFits vFlt wMsk true true
    ∧ TypeIn vFlt fmtFloat ∧ LengthOk vFlt.hart ∧ DestsFit vFlt wMsk (grpOf vFlt) ∧ SourceFits vFlt wMsk.b (grpOf vFlt)
    ∧ (wMsk.f = 0 → SourceFits vFlt wMsk.a (grpOf vFlt)) ∧ NoTrap vFlt (activeAt vFlt wMsk true) (fun _ => 16) :=
  ⟨ready_vFlt, prefix_vFlt _ _ _, prefix_vFlt _ _ _, type_vFlt, length_vFlt, forall_dests (by decide) (by decide), rfl,
    fun _ => rfl, no_trap rfl⟩

/-- vfcvt from FP64 to FP32: the source group has two registers. -/
theorem witness_FloatConversionsAndReductions : VecReady vFlt ∧ PrefixFits vFlt (fl 0 0 3 2 4 5) true true
    ∧ TypeIn vFlt fmtInt ∧ LengthOk vFlt.hart ∧ DestsFit vFlt (fl 0 0 3 2 4 5) (grpOf vFlt)
    ∧ max 1 (grpOf vFlt * sewOf 4 / widthOf vFlt) = 2 ∧ SourceFits vFlt 2 2 ∧ vFlt.hart.vreg 2 + 2 ≤ vFlt.hart.vreg 5 :=
  ⟨ready_vFlt, prefix_vFlt _ _ _, ⟨by decide, by decide⟩, length_vFlt, forall_dests (by decide) (by decide), by decide, rfl,
    by decide⟩

theorem witness_FloatConversionsAndReductions_sums : VecReady vFlt ∧ PrefixFits vFlt wMsk true true ∧ TypeIn vFlt fmtFloat
    ∧ LengthOk vFlt.hart ∧ ReduceFits vFlt wMsk ∧ vFlt.hart.vec.vftrap &&& 31 = 0 :=
  ⟨ready_vFlt, prefix_vFlt _ _ _, type_vFlt, length_vFlt,
    ⟨⟨forall_dests (by decide) (by decide), rfl, fun _ => rfl⟩, forall_dests (by decide) (by decide)⟩, by decide⟩

/-- Hart 5 with 64 elements of an MX format. -/
def vMx : State := vec5 0x2000A 64

theorem ready_vMx : VecReady vMx := ⟨by decide, by decide, by decide, by decide⟩
theorem type_vMx : TypeIn vMx fmtMx := ⟨by decide, by decide⟩
theorem length_vMx : LengthOk vMx.hart := by unfold LengthOk; decide
theorem prefix_vMx (w : Fld) (d p : Bool) : PrefixFits vMx w d p := fun h => absurd h (by decide)

theorem witness_MxWords : VecReady vMx ∧ TypeIn vMx fmtMx ∧ LengthOk vMx.hart ∧ lenOf vMx % 32 = 0
    ∧ DestsFit vMx wMsk (grpOf vMx) ∧ SourceFits vMx wMsk.b (grpOf vMx) ∧ PrefixFits vMx wMsk true true
    ∧ Apart vMx wMsk (grpOf vMx) wMsk.b (grpOf vMx) ∧ PrefixFits vMx wMsk true false ∧ wMsk.f = 0
    ∧ SourceFits vMx wMsk.a (grpOf vMx) :=
  ⟨ready_vMx, type_vMx, length_vMx, by decide, forall_dests (by decide) (by decide), rfl, prefix_vMx _ _ _,
    forall_dests (by decide) (by decide), prefix_vMx _ _ _, rfl, rfl⟩

/-- mxpack from FP32 and mxunpack to it: the ordinary span has four registers. -/
theorem witness_MxWords_packs : PrefixFits vMx (fl 0 0 3 4 5 8) true true ∧ mxSpan 10 5 (grpOf vMx) = 4
    ∧ DestsFit vMx (fl 0 0 3 4 5 8) (grpOf vMx) ∧ SourceFits vMx 4 4 ∧ Apart vMx (fl 0 0 3 4 5 8) (grpOf vMx) 4 4
    ∧ DestsFit vMx (fl 0 0 3 4 5 8) 4 ∧ SourceFits vMx 4 (grpOf vMx) ∧ Apart vMx (fl 0 0 3 4 5 8) 4 4 (grpOf vMx)
    ∧ NoTrap vMx (activeAt vMx (fl 0 0 3 4 5 8) true) (fun _ => 31) :=
  ⟨prefix_vMx _ _ _, by decide, forall_dests (by decide) (by decide), rfl, forall_dests (by decide) (by decide),
    forall_dests (by decide) (by decide), rfl, forall_dests (by decide) (by decide), no_trap rfl⟩

/-- mxdot: one register of results. -/
theorem witness_MxWords_dot : PrefixFits vMx wVv true true ∧ max 1 (ceilDiv (vlmax vMx.hart.vec.vtype) 8192) = 1
    ∧ DestsFit vMx wVv 1 ∧ Apart vMx wVv 1 wVv.b (grpOf vMx) ∧ Apart vMx wVv 1 wVv.a (grpOf vMx) ∧ vMx.hart.vec.vftrap = 0 :=
  ⟨prefix_vMx _ _ _, by decide, forall_dests (by decide) (by decide), forall_dests (by decide) (by decide),
    forall_dests (by decide) (by decide), rfl⟩

/-- Hart 5 with 100 planar elements of 4 bits. -/
def vPln : State := vec5 0x200CF 100

theorem ready_vPln : VecReady vPln := ⟨by decide, by decide, by decide, by decide⟩
theorem prefix_vPln (w : Fld) (d p : Bool) : PrefixFits vPln w d p := fun h => absurd h (by decide)

/-- pladd, plsub and plmul on v16, v4 and v8. -/
theorem witness_PlanarWords : VecReady vPln ∧ TypeIn vPln fmtPlanar ∧ LengthOk vPln.hart ∧ planesOf vPln = 4
    ∧ PrefixFits vPln (fl 0 0 0 4 8 16) true true ∧ PlanarDests vPln (fl 0 0 0 4 8 16) 4
    ∧ PlanarSource vPln (fl 0 0 0 4 8 16) 4 4 ∧ PlanarSource vPln (fl 0 0 0 4 8 16) 8 4 :=
  ⟨ready_vPln, ⟨by decide, by decide⟩, by unfold LengthOk; decide, by decide, prefix_vPln _ _ _,
    forall_dests (by decide) (by decide), ⟨by decide, forall_dests (by decide) (by decide)⟩,
    ⟨by decide, forall_dests (by decide) (by decide)⟩⟩

/-- pldot and plcmp. -/
theorem witness_PlanarWords_dot : PlanarDests vPln (fl 0 0 0 4 8 16) 1 ∧ vPln.hart.vreg 4 + 4 ≤ 32 ∧ vPln.hart.vreg 8 + 4 ≤ 32
    ∧ (∀ d, Dests vPln (fl 0 0 0 4 8 16) d →
      (d < vPln.hart.vreg 4 ∨ vPln.hart.vreg 4 + 4 ≤ d) ∧ (d < vPln.hart.vreg 8 ∨ vPln.hart.vreg 8 + 4 ≤ d))
    ∧ PrefixFits vPln (fl 0 0 0 4 8 16) false true :=
  ⟨forall_dests (by decide) (by decide), by decide, by decide, forall_dests (by decide) (by decide), prefix_vPln _ _ _⟩

/-- plconv in both directions, with elements of 16 bits in one register. -/
theorem witness_PlanarWords_conversion : max 1 (ceilDiv (lenOf vPln * 16) 8192) = 1
    ∧ (bitOf (fl 0 0 3 4 5 16).a 2 = true ∧ PlanarDests vPln (fl 0 0 3 4 5 16) 1 ∧ Apart vPln (fl 0 0 3 4 5 16) 1 4 4)
    ∧ bitOf (fl 0 0 3 4 1 16).a 2 = false ∧ PlanarDests vPln (fl 0 0 3 4 1 16) 4 ∧ Apart vPln (fl 0 0 3 4 1 16) 4 4 1 :=
  ⟨by decide, ⟨by decide, forall_dests (by decide) (by decide), forall_dests (by decide) (by decide)⟩, by decide,
    forall_dests (by decide) (by decide), forall_dests (by decide) (by decide)⟩


/-! ### Scalar words -/

/-- Hart 5 with nothing but its addresses. -/
def s5 : State := pack hart5

theorem alone_s5 : NoPrefix s5 := by unfold NoPrefix; decide

/-- A jump forward, and a branch that is taken to a misaligned address. -/
theorem witness_ScalarIntegersAndJumps : NoPrefix s5 ∧ (s5.hart.pc + ((4 : BitVec 20) ++ (0 : BitVec 1)).signExtend 64).toNat % 4 = 0
    ∧ bitOf (s5.hart.pc + ((4 : BitVec 20) ++ (0 : BitVec 1)).signExtend 64) 47 = false
    ∧ (brTaken .eq (s5.hart.getX 0) (s5.hart.getX 0) = true
      ∧ (s5.hart.pc + ((1 : BitVec 12) ++ (0 : BitVec 1)).signExtend 64).toNat % 4 ≠ 0 ∧ isMilliner s5.cur = false)
    ∧ brTaken .ne (s5.hart.getX 0) (s5.hart.getX 0) = false :=
  ⟨alone_s5, by decide, by decide, ⟨by decide, by decide, by decide⟩, by decide⟩

/-- The last doubleword of 16 KiB, which crosses no boundary, and the one a byte above it, which does. -/
theorem witness_ScalarLoadsAndStores : Memory.wf s5.mem ∧ NoPrefix s5 ∧ s5.stepwise = false
    ∧ (0x103FF8 % 16384 + 8 = 16384 ∧ Places s5 .load 0x103FF8 8 0x103FF8 s5 ∧ poisoned s5 0x103FF8 8 = none
      ∧ Places s5 .store 0x103FF8 8 0x103FF8 s5 ∧ (∀ p ∈ s5.coh.poison, touches 0x103FF8 8 p = true → 0x103FF8 ≤ p ∧ p + 8 ≤ 0x103FF8 + 8)
      ∧ leaseBlocks s5 { hart := s5.cur, scalar := true } 0x103FF8 8 = false)
    ∧ (16384 < 0x103FF9 % 16384 + 8 ∧ isMilliner s5.cur = false)
    ∧ (s5.setHart { hart5 with csr := { hart5.csr with mstatus := 0xA00006000 } }).hart.fpOn = true :=
  ⟨by decide, alone_s5, rfl, ⟨by decide, ⟨rfl, by decide, rfl⟩, by decide, ⟨rfl, by decide, rfl⟩, by decide, by decide⟩,
    ⟨by decide, by decide⟩, by decide⟩

/-- The same with the floating-point unit on. -/
def sFp : State := pack { hart5 with csr := { hart5.csr with mstatus := 0xA00006000 } }

theorem witness_ScalarFloats : NoPrefix sFp ∧ sFp.hart.fpOn = true ∧ isMilliner sFp.cur = false
    ∧ fieldOf sFp.hart.fcsr 5 3 ≤ 4 := ⟨by unfold NoPrefix; decide, by decide, by decide, by decide⟩

/-- ecall and ebreak in M mode, mret and sret there, and sret of a U-mode hart. -/
theorem witness_TrapsAndReturns : NoPrefix s5 ∧ isMilliner s5.cur = false ∧ s5.hart.priv = .m
    ∧ (NoPrefix (pack { hart5 with priv := .u }) ∧ (pack { hart5 with priv := .u }).hart.priv = .u) :=
  ⟨alone_s5, by decide, rfl, ⟨by unfold NoPrefix; decide, rfl⟩⟩

/-! ### Vector loads and stores -/

/-- Hart 5 with one element of INT32. -/
def vOne : State := vec5 0x20002 1
/-- v4 at x10, with offsets in v8. -/
def wMem : Fld := fl 0 0 0 8 10 4

theorem ready_vOne : VecReady vOne := ⟨by decide, by decide, by decide, by decide⟩
theorem type_vOne : TypeIn vOne fmtInt := ⟨by decide, by decide⟩
theorem length_vOne : LengthOk vOne.hart := by unfold LengthOk; decide
theorem prefix_vOne (w : Fld) (d p : Bool) : PrefixFits vOne w d p := fun h => absurd h (by decide)
theorem loads_vOne : Loads vOne 4 0x100000 4 0x100000 :=
  ⟨⟨rfl, by decide, .inr (.inl rfl), ⟨rfl, by decide, rfl⟩⟩, by decide⟩
theorem stores_vOne : Stores vOne 4 0x100000 4 0x100000 :=
  ⟨⟨rfl, by decide, .inr (.inl rfl), ⟨rfl, by decide, rfl⟩⟩, by decide, by decide⟩
theorem only_zero {p : Nat → Prop} (h : p 0) : ∀ e ∈ actives vOne wMem true, p e := by
  have e : actives vOne wMem true = [0] := by decide
  rw [e]; intro k hk; rw [List.mem_singleton] at hk; rw [hk]; exact h

theorem witness_VectorLoads : VecReady vOne ∧ barred vOne vOne.cur true = false ∧ PrefixFits vOne wMem true true
    ∧ TypeIn vOne fmtInt ∧ LengthOk vOne.hart ∧ DestsFit vOne wMem (grpOf vOne)
    ∧ (∀ e ∈ actives vOne wMem true, Loads vOne 4 (vectorAddr vOne wMem.a (lenOf vOne * (4 : Nat)) (e * (4 : Nat))) 4 (0x100000 + 4 * e))
    ∧ IndexFits vOne wMem ∧ Apart vOne wMem (grpOf vOne) wMem.b 1
    ∧ ∀ e ∈ actives vOne wMem true, Loads vOne 4 (indexedAddr vOne wMem e) 4 0x100000 :=
  ⟨ready_vOne, by decide, prefix_vOne _ _ _, type_vOne, length_vOne, forall_dests (by decide) (by decide),
    only_zero loads_vOne, ⟨by decide, rfl⟩, forall_dests (by decide) (by decide), only_zero loads_vOne⟩

/-- vldseg with two fields. -/
theorem witness_VectorLoads_segments : let w := fl 0 0 0 1 10 4
    (w.b.toNat + 1) * grpOf vOne ≤ 8 ∧ vOne.hart.vreg w.d % grpOf vOne = 0
    ∧ vOne.hart.vreg w.d + (w.b.toNat + 1) * grpOf vOne ≤ 32 ∧ vOne.hart.dregOf = none ∧ actives vOne w true = [0]
    ∧ Loads vOne 4 (vectorAddr vOne w.a 8 0) 4 0x100000 ∧ Loads vOne 4 (vectorAddr vOne w.a 8 4) 4 0x100004 :=
  ⟨by decide, by decide, by decide, by decide, by decide, loads_vOne,
    ⟨⟨rfl, by decide, .inr (.inl rfl), ⟨rfl, by decide, rfl⟩⟩, by decide⟩⟩

theorem witness_VectorStores : Memory.wf vOne.mem ∧ VecReady vOne ∧ barred vOne vOne.cur true = false
    ∧ PrefixFits vOne wMem false true ∧ TypeIn vOne fmtInt ∧ LengthOk vOne.hart ∧ SourceFits vOne wMem.d (grpOf vOne)
    ∧ (∀ e ∈ actives vOne wMem true, Stores vOne 4 (vectorAddr vOne wMem.a (lenOf vOne * (4 : Nat)) (e * (4 : Nat))) 4 (0x100000 + 4 * e))
    ∧ IndexFits vOne wMem ∧ ∀ e ∈ actives vOne wMem true, Stores vOne 4 (indexedAddr vOne wMem e) 4 0x100000 :=
  ⟨by decide, ready_vOne, by decide, prefix_vOne _ _ _, type_vOne, length_vOne, rfl, only_zero stores_vOne, ⟨by decide, rfl⟩,
    only_zero stores_vOne⟩

/-- vstseg with two fields. -/
theorem witness_VectorStores_segments : let w := fl 0 0 0 1 10 4
    (w.b.toNat + 1) * grpOf vOne ≤ 8 ∧ vOne.hart.vreg w.d % grpOf vOne = 0
    ∧ vOne.hart.vreg w.d + (w.b.toNat + 1) * grpOf vOne ≤ 32 ∧ actives vOne w true = [0]
    ∧ Stores vOne 4 (vectorAddr vOne w.a 8 0) 4 0x100000 ∧ Stores vOne 4 (vectorAddr vOne w.a 8 4) 4 0x100004 :=
  ⟨by decide, by decide, by decide, by decide, stores_vOne,
    ⟨⟨rfl, by decide, .inr (.inl rfl), ⟨rfl, by decide, rfl⟩⟩, by decide, by decide⟩⟩

/-- vldm and vstm of one element: one byte. -/
theorem witness_MaskAndMxTransfers : Memory.wf vOne.mem ∧ VecReady vOne ∧ barred vOne vOne.cur true = false ∧ NoPrefix vOne
    ∧ vtIll vOne.hart.vec.vtype = false ∧ lenOf vOne ≤ 8192 ∧ ceilDiv (lenOf vOne) 8 = 1 ∧ posOf vOne / 8 = 0
    ∧ Loads vOne 1 (vectorAddr vOne wMem.a 1 0) 1 0x100000 ∧ Stores vOne 1 (vectorAddr vOne wMem.a 1 0) 1 0x100000 :=
  ⟨by decide, ready_vOne, by decide, by unfold NoPrefix; decide, by decide, by decide, by decide, by decide,
    ⟨⟨rfl, by decide, .inr (.inl rfl), ⟨rfl, by decide, rfl⟩⟩, by decide⟩,
    ⟨⟨rfl, by decide, .inr (.inl rfl), ⟨rfl, by decide, rfl⟩⟩, by decide, by decide⟩⟩

/-- Hart 5 with one MX block. -/
def vBlk : State := vec5 0x2000A 32

/-- A byte of this state at its own address. -/
theorem byte_vBlk (al a : Nat) (h : a % al = 0) (b : a < 2 ^ 47) (r : resolve vBlk (vecEnv vBlk) .load a 1 = .ok (.mem a, vBlk)) :
    Reaches vBlk .load al a 1 a := ⟨h, b, .inr (.inl rfl), ⟨rfl, by decide, r⟩⟩

/-- vld of one block: its first element byte is aligned to 8 bytes, its scale is a byte at x11. -/
theorem witness_MaskAndMxTransfers_blocks : VecReady vBlk ∧ TypeIn vBlk fmtMx ∧ LengthOk vBlk.hart ∧ lenOf vBlk % 32 = 0
    ∧ PrefixFits vBlk (fl 0 0 0 11 10 4) true true ∧ DestsFit vBlk (fl 0 0 0 11 10 4) (grpOf vBlk)
    ∧ (List.range' (ceilDiv (posOf vBlk) 32) (lenOf vBlk / 32 - ceilDiv (posOf vBlk) 32)).filter
        (fun b => activeAt vBlk (fl 0 0 0 11 10 4) true (32 * b)) = [0]
    ∧ Reaches vBlk .load 8 (vectorAddr vBlk 10 (mxBlock 10) 0) 1 0x100000
    ∧ Reaches vBlk .load 1 (vectorAddr vBlk 10 (mxBlock 10) 1) 1 0x100001
    ∧ Reaches vBlk .load 1 (vectorAddr vBlk 11 1 0) 1 0x100800 :=
  ⟨⟨by decide, by decide, by decide, by decide⟩, ⟨by decide, by decide⟩, by unfold LengthOk; decide, by decide,
    fun h => absurd h (by decide), forall_dests (by decide) (by decide), by decide, byte_vBlk _ _ rfl (by decide) rfl,
    byte_vBlk _ _ rfl (by decide) rfl, byte_vBlk _ _ rfl (by decide) rfl⟩

/-- Hart 5 with two elements, 18 bytes apart: the second is misaligned. -/
def vFlt2 : State := pack { hart5 with x := hart5.x.set 11 18, vec := { vtype := 0x20002, vl := 2 } }

/-- vlds: element 0 is loaded, element 1 faults (the stride does not keep the alignment). -/
theorem witness_LoadFaultsAndWaits : let w := fl 0 0 0 11 10 4
    VecReady vFlt2 ∧ barred vFlt2 vFlt2.cur true = false ∧ TypeIn vFlt2 fmtInt ∧ LengthOk vFlt2.hart
    ∧ DestsFit vFlt2 w (grpOf vFlt2) ∧ isRep vFlt2.hart.pc = false ∧ posOf vFlt2 ≤ 1 ∧ 1 < lenOf vFlt2
    ∧ activeAt vFlt2 w true 1 = true ∧ actives vFlt2 w true = [0, 1]
    ∧ Loads vFlt2 4 (vectorAddr vFlt2 w.a (2 * 18) 0) 4 0x100000
    ∧ partFault vFlt2 (vecEnv vFlt2) .load ⟨vectorAddr vFlt2 w.a (2 * 18) 18, 4, 4⟩ = some (.trap 4 0x100012) :=
  ⟨⟨by decide, by decide, by decide, by decide⟩, by decide, ⟨by decide, by decide⟩, by unfold LengthOk; decide,
    forall_dests (by decide) (by decide), by decide, by decide, by decide, by decide, by decide,
    ⟨⟨rfl, by decide, .inr (.inl rfl), ⟨rfl, by decide, rfl⟩⟩, by decide⟩, rfl⟩

/-- The first active element faults: hart 5 in M mode with a misaligned base. -/
theorem witness_LoadFaultsAndWaits_trap : let s := pack { hart5 with x := hart5.x.set 10 0x100002, vec := { vtype := 0x20002, vl := 1 } }
    isMilliner s.cur = false ∧ s.hart.vec.vpfx = 0 ∧ s.hart.priv = .m ∧ s.hart.policy = false
    ∧ (actives s (fl 0 0 0 0 10 4) true).head? = some 0
    ∧ partFault s (vecEnv s) .load ⟨vectorAddr s 10 0 0, 4, 4⟩ = some (.trap 4 0x100002) :=
  ⟨by decide, rfl, rfl, by decide, by decide, rfl⟩

/-- vwait of one address, 0, whose word has passed the value 0. -/
theorem witness_LoadFaultsAndWaits_vwait : let s := vec5 0x20003 1
    let w := fl 0 0 1 8 0 1
    VecReady s ∧ PrefixFits s w false true ∧ TypeIn s (· == 3) ∧ LengthOk s.hart ∧ SourceFits s w.b (grpOf s)
    ∧ actives s w true = [0] ∧ Loads s 4 (elemAt s w.b 0) 4 0
    ∧ (readNat s.mem 0 4 + 2 ^ 32 - (s.hart.getX w.a).toNat % 2 ^ 32) % 2 ^ 32 < 2 ^ 31 :=
  ⟨⟨by decide, by decide, by decide, by decide⟩, fun h => absurd h (by decide), ⟨by decide, by decide⟩,
    by unfold LengthOk; decide, rfl, by decide, ⟨⟨rfl, by decide, .inr (.inl rfl), ⟨rfl, by decide, rfl⟩⟩, by decide⟩, by decide⟩

/-- sld of one element that a stream has in the TCM. -/
theorem witness_LoadFaultsAndWaits_sld :
    let st : Stream := { word0 := 0x42, base := .replicate 3 0x100000, stride := .replicate 3 4, init := 0, mode := 0
                         avl := 40, vtype := 0x20002, fetched := 24, consumed := 5 }
    let s := pack { hart5 with vec := { vtype := 0x20002, vl := 1 }, run := { streams := .replicate 4 (some st) } }
    VecReady s ∧ TypeIn s fmtInt ∧ LengthOk s.hart ∧ kindOf s.cur = .compute ∧ isRep s.hart.pc = false
    ∧ s.hart.stream 1 = some st ∧ st.fmt = vtFmt s.hart.vec.vtype ∧ st.grp = grpOf s ∧ st.parts = 1
    ∧ s.hart.dregOf = none ∧ lenOf s ≤ st.fetched - st.consumed
    ∧ poisoned s (tcmAlias (coreOf s.cur) + st.slot 0 (st.consumed + 0)) 4 = none :=
  ⟨⟨by decide, by decide, by decide, by decide⟩, ⟨by decide, by decide⟩, by unfold LengthOk; decide, by decide, by decide, rfl,
    by decide, by decide, by decide, by decide, by decide, by decide⟩


/-! ### Registers, fences, atomics, configuration -/

/-- Hart 5 in S mode. -/
def sSup : State := pack { hart5 with priv := .s }

/-- The last special vector register that waits for the queue and the first that does not; the last register of the mode and
the first of the mode above; the first read-only number and the last number that may be written; a number of no register. -/
theorem witness_CsrAccesses : NoPrefix s5 ∧ csrLegal 0x802 true s5 = true ∧ csrLegal 0x803 true s5 = true ∧ s5.hart.run.queue = []
    ∧ kindOf s5.cur = .compute ∧ s5.hart.priv = .m ∧ NoPrefix sSup ∧ sSup.hart.priv ≠ .u ∧ csrLegal 0x180 true sSup = true
    ∧ (isMilliner sSup.cur = false ∧ sSup.hart.priv.code < 0x300 / 256 % 4)
    ∧ (0xC01 / 1024 = 3 ∧ csrLegal 0xC01 false s5 = true ∧ csrLegal 0xC01 true s5 = false)
    ∧ (0xBFF / 1024 = 2 ∧ (readCsr s5 0x7A0).isNone = true) :=
  ⟨alone_s5, by decide, by decide, rfl, by decide, rfl, by unfold NoPrefix; decide, by decide, by decide,
    ⟨by decide, by decide⟩, ⟨by decide, by decide, by decide⟩, by decide, by decide⟩

/-- wfi with and without a pending enabled interrupt; sfence.vma and vdrain with an empty queue; the queue of another hart with a
started entry and one that is next. -/
theorem witness_FencesAndWaits : NoPrefix s5 ∧ s5.hart.priv = .m ∧ mipOf s5 s5.cur &&& s5.hart.csr.mie = 0
    ∧ (let t := pack { hart5 with csr := { hart5.csr with mie := 2, mipSw := 2 } }
       NoPrefix t ∧ mipOf t t.cur &&& t.hart.csr.mie ≠ 0)
    ∧ (isMilliner sSup.cur = false ∧ (let t := pack { hart5 with priv := .s, csr := { hart5.csr with mstatus := 0x200000 } }
       NoPrefix t ∧ t.hart.priv ≠ .m ∧ bitOf t.hart.csr.mstatus 21 = true))
    ∧ vecDrained s5 s5.cur = true ∧ bothWait s5 4 = false := by
  refine ⟨alone_s5, rfl, by decide, ⟨?_, by decide⟩, ⟨by decide, ?_, by decide, by decide⟩, by decide, by decide⟩ <;>
    (unfold NoPrefix; decide)

/-- Two entries of a vector queue, of which the first has started and the second is its core's next. -/
theorem witness_FencesAndWaits_queue :
    let e (b : Bool) : VEntry := { word := 0x001101DB, pc := 0x1000, vl := 1, vtype := 0x20002, vpfx := 0, velem := 0, task := 0, started := b }
    let s := pack { hart5 with run := { queue := [e true, e false] } }
    (s.hartAt 5).run.queue = [e true] ++ e false :: [] ∧ (∀ y ∈ [e true], y.started = true) ∧ nextStart s (coreOf 5) = some 1 := by
  refine ⟨rfl, by decide, by decide⟩

/-- Hart 5 with a reservation. -/
def sRes : State := pack { hart5 with run := { resv := some 0x100000 } }

/-- A word at the end of its size's alignment, one just after it; with the reservation of the word and without. -/
theorem witness_Atomics : Memory.wf s5.mem ∧ NoPrefix s5 ∧ (s5.hart.getX 10).toNat % 8 = 0 ∧ Places s5 .load 0x100000 8 0x100000 s5
    ∧ Places s5 .store 0x100000 8 0x100000 s5 ∧ poisoned s5 0x100000 8 = none ∧ fenceWaits s5 4 = false
    ∧ leaseBlocks s5 { hart := s5.cur, scalar := true } 0x100000 8 = false ∧ s5.hart.run.resv ≠ some (0x100000 / 8 * 8)
    ∧ (NoPrefix sRes ∧ sRes.hart.run.resv = some (0x100000 / 8 * 8) ∧ Places sRes .store 0x100000 8 0x100000 sRes)
    ∧ (Places s5 .store 0x100004 4 0x100004 s5 ∧ 0x100004 / 8 * 8 = 0x100000)
    ∧ isMilliner s5.cur = false ∧ (let t := pack { hart5 with x := hart5.x.set 10 0x100004 }
        NoPrefix t ∧ (t.hart.getX 10).toNat % 8 ≠ 0 ∧ (t.hart.getX 10).toNat % 4 = 0) :=
  ⟨by decide, alone_s5, by decide, ⟨rfl, by decide, rfl⟩, ⟨rfl, by decide, rfl⟩, by decide, by decide, by decide, by decide,
    ⟨by unfold NoPrefix; decide, rfl, ⟨rfl, by decide, rfl⟩⟩, ⟨⟨rfl, by decide, rfl⟩, by decide⟩, by decide,
    by unfold NoPrefix; decide, by decide, by decide⟩

/-- Requests for VTYPE: RM = 4 and SLC = 9 are legal, RM = 5 and SLC = 10 are not. -/
theorem witness_Configuration : kindOf s5.cur ≠ .system ∧ s5.hart.pfxOn = false ∧ queueFull s5 = false
    ∧ (vtRm 0x30002 = 4 ∧ vtRm 0x34002 = 5 ∧ vtSlc 0x22402 = 9 ∧ vtSlc 0x22802 = 10 ∧ vtSlc 0x20402 = 1)
    ∧ (vtFmt 0x2000F = 15 ∧ vtGrp 0x2000F = 1 ∧ vtGrp 0x2001F = 2)
    ∧ NoPrefix s5 ∧ isRep s5.hart.pc = false ∧ isMilliner s5.cur = false
    ∧ (vPre.hart.pfxOn = true ∧ isMilliner vPre.cur = false) :=
  ⟨by decide, by decide, by decide, by decide, by decide, alone_s5, by decide, by decide, by decide, by decide⟩

/-- vrep with one body word, vadd v3,v1,v2, in the buffer; and a hart at the body's first position. -/
theorem witness_Configuration_body : let s := pack { hart5 with run := { fetch := [(0x1004, 0x001101DB)] } }
    let t := pack { hart5 with pc := bv 64 (2 ^ 47 + 0x1000), run := { body := some { addr := 0x1000, n := 2, s := 1, words := [0x001101DB] } } }
    NoPrefix s ∧ isRep s.hart.pc = false ∧ s.hart.run.fetch.find? (fun p => p.1 == (s.hart.pc + bv 64 4).toNat) = some (0x1004, 0x001101DB)
    ∧ bodyWordOk false true 0x001101DB s = true
    ∧ isRep t.hart.pc = true ∧ t.hart.run.body = some { addr := 0x1000, n := 2, s := 1, words := [0x001101DB] }
    ∧ repWord t.hart.pc = 0 ∧ decode 0x001101DB = .ok (.vadd (fl 0 0 0 1 2 3))
    ∧ bodyExec (.vadd (fl 0 0 0 1 2 3)) t = some (execVadd (fl 0 0 0 1 2 3) t) :=
  ⟨by unfold NoPrefix; decide, by decide, by decide, rfl, by decide, rfl, by decide, rfl, rfl⟩

/-! ### Windows, the Crown, major G -/

/-- Hart 5 with a window region in its TCM and, in slot 1, a window of 16 bytes at 0x100400. -/
def sWin : State :=
  pack { hart5 with
    x := (hart5.x.set 10 0x100400).set 11 16
    vec := { vtype := 0x20002, vl := 1 }
    ctl := { parked := false, wbase := 8, wlen := 100 }
    run := { windows := #v[none, some { op := 0, canonical := false, fmt := 2, size := 16, wbase := 40, target := 0x100400,
                                        pa0 := 0x100400, pa1 := 0 }, none, none] } }

theorem witness_Windows : Memory.wf sWin.mem ∧ VecReady sWin ∧ kindOf sWin.cur = .compute ∧ vtIll sWin.hart.vec.vtype = false
    ∧ (∀ k < 4, ∀ x, sWin.hart.window k = some x → x.merging = false) ∧ NoPrefix sWin := by
  refine ⟨by decide, ⟨by decide, by decide, by decide, by decide⟩, by decide, by decide, ?_, by unfold NoPrefix; decide⟩
  decide

/-- wdecl of slot 2 with 16 bytes, wacc and wmerge of slot 1, wdrop and wmerge of slot 0. -/
theorem witness_Windows_words : let size := nbits (sWin.hart.getX 11).toNat 0 14
    sWin.hart.window 2 = none ∧ 0 < size ∧ size ≤ 8192 ∧ size % 8 = 0 ∧ nbits (sWin.hart.getX 11).toNat 14 2 = 0
    ∧ (sWin.hart.getX 11).toNat < 2 ^ 19 ∧ (sWin.hart.getX 10).toNat % 256 = 0
    ∧ within (sWin.hart.getX 10).toNat 0x7FFFFFFC0000 0x40000 = false ∧ windowFmt 0 2 = true ∧ (allocate sWin.hart size).isSome = true
    ∧ PlacedBy (vecEnv sWin) sWin .store 0x100400 16 0x100400 sWin
    ∧ (activeAt sWin (fl 0 0 0 0 0 1) true 0 = true ∧ elemAt sWin 0 0 % 4 = 0 ∧ elemAt sWin 0 0 + 4 ≤ 16)
    ∧ sWin.hart.level = 0 ∧ HomesIdle sWin ∧ barred sWin sWin.cur true = false ∧ notPerformed sWin sWin.cur 5 false true = false
    ∧ (∀ i < 2, isOwnMem sWin (targetAddr 0x100400 0x100400 0 (8 * i)) = true) ∧ sWin.hart.window 0 = none := by
  refine ⟨rfl, by decide, by decide, by decide, by decide, by decide, by decide, by decide, by decide, by decide,
    ⟨rfl, by decide, rfl⟩, ⟨by decide, by decide, by decide⟩, by decide, ⟨⟨rfl, rfl, rfl, rfl, rfl⟩, rfl⟩, by decide, by decide, by decide, rfl⟩

/-- The two sides of "a partial is not performed": a merging window counts as busy only while a store is outstanding; above
LEVEL 0 a partial needs room in the merge store. -/
theorem witness_Windows_merge : let s := { sWin with clusters := [(0, { mrgBase := 5, mrgLen := 10 })] }
    (mergeRoom (s.clusterAt 0) 16).isSome = true := by decide

/-- Hart 5 with a GRANT of 3 tiles from tile 1, a loaded buffer 0 of INT8 and rows in its TCM window. -/
def sCrown : State :=
  { pack { hart5 with
      x := (hart5.x.set 10 0x7FFFFFFC1000).set 11 144
      vec := { vtype := 0x20000, vl := 1 }
      dev := { grant := 0x13 }
      run := { bbufs := #v[{ loaded := true, fmt := 0, data := 0 }, {}] } } with cores := [(1, {})] }

/-- With a GRANT of 3 tiles the last of them is granted and the next is not; without one the largest count is free, but not where
another hart holds a tile. -/
theorem witness_Crown : VecReady sCrown ∧ kindOf sCrown.cur = .compute ∧ NoPrefix sCrown ∧ vtIll sCrown.hart.vec.vtype = false
    ∧ (2 + blockTiles sCrown.hart.vec.vtype ≤ sCrown.hart.grantTiles ∧ ¬ 3 < sCrown.hart.grantTiles)
    ∧ passWaits sCrown sCrown.cur = false
    ∧ (let t := sCrown.setHart { sCrown.hart with dev := {} }
       t.hart.grantTiles = 0 ∧ freeTiles t 1 8 = some 0
       ∧ freeTiles (t.setHartAt 6 { hart5 with dev := { grant := 1 } }) 1 8 = none
       ∧ freeTiles (t.setHartAt 6 { hart5 with dev := { grant := 1 } }) 1 7 = some 1)
    ∧ (sCrown.hart.bbuf 0).loaded = true ∧ (sCrown.hart.bbuf 0).fmt.toNat = vtFmt sCrown.hart.vec.vtype
    ∧ (sCrown.coreAt 1).passing = [] ∧ (sCrown.coreAt 1).link = none ∧ tilesAgree (sCrown.coreAt 1) sCrown.hart.vec.vtype 3 = true
    ∧ ((sCrown.coreAt 1).tile 3).mode ≠ .split :=
  ⟨⟨by decide, by decide, by decide, by decide⟩, by decide, by unfold NoPrefix; decide, by decide, by decide, by decide,
    by decide, by decide, rfl, rfl, rfl, by decide, by decide⟩

/-- The rows of mload and mmac: the first and the last word of the last of 16 rows of 64 bytes, 144 bytes apart, in the TCM window. -/
theorem witness_Crown_rows : crownFmt sCrown.hart.vec.vtype = some ⟨64, 64, 0, 16, 0, 8⟩
    ∧ ((sCrown.hart.getX 10).toNat + 15 * (sCrown.hart.getX 11).toNat) % 2 ^ 64 = 0x7FFFFFFC1870
    ∧ 0x7FFFFFFC1870 % 8 = 0 ∧ within 0x7FFFFFFC1870 0x7FFFFFFC0000 0x40000 = true
    ∧ within (0x7FFFFFFC1870 + 63) 0x7FFFFFFC0000 0x40000 = true
    ∧ PlacedBy (vecEnv sCrown) sCrown .load 0x7FFFFFFC1870 4 (tcmAlias 1 + 0x1870) sCrown
    ∧ PlacedBy (vecEnv sCrown) sCrown .load 0x7FFFFFFC18AC 4 (tcmAlias 1 + 0x18AC) sCrown
    ∧ localPlace sCrown (tcmAlias 1 + 0x18AC) = true ∧ poisoned sCrown (tcmAlias 1 + 0x18AC) 4 = none :=
  ⟨rfl, by decide, by decide, by decide, by decide, ⟨rfl, by decide, rfl⟩, ⟨rfl, by decide, rfl⟩, by decide, by decide⟩

/-- Hart 5 with one ray: node or triangle 0 at x10. -/
def sRay : State := vec5 0x20005 1

theorem ready_sRay (w : Fld) (n al : Nat) (d : DestsFit sRay w n) (b : SourceFits sRay w.b 8) (a : Apart sRay w n w.b 8)
    (r : (sRay.hart.getX w.a).toNat % al = 0) : RecordReady sRay w n al :=
  ⟨⟨by decide, by decide, by decide, by decide⟩, by decide, fun h => absurd h (by decide), ⟨by decide, by decide⟩, by decide,
    by unfold LengthOk; decide, d, b, a, r⟩

/-- A node is read in one run of 64 bytes, a triangle in three of 16; their last bytes are read too. -/
theorem witness_RayTests : RecordReady sRay (fl 0 0 0 8 10 16) 1 64 ∧ RecordReady sRay (fl 0 0 0 8 10 16) 4 16
    ∧ actives sRay (fl 0 0 0 8 10 16) true = [0] ∧ elemIn sRay 16 32 0 = 0 ∧ Loads sRay 1 0x100000 64 0x100000
    ∧ Loads sRay 1 (0x100000 + 0 * 16) 16 0x100000 ∧ Loads sRay 1 (0x100000 + 2 * 16) 16 0x100020 :=
  ⟨ready_sRay _ _ _ (forall_dests (by decide) (by decide)) rfl (forall_dests (by decide) (by decide)) (by decide),
    ready_sRay _ _ _ (forall_dests (by decide) (by decide)) rfl (forall_dests (by decide) (by decide)) (by decide),
    by decide, by decide, ⟨⟨rfl, by decide, .inr (.inl rfl), ⟨rfl, by decide, rfl⟩⟩, by decide⟩,
    ⟨⟨rfl, by decide, .inr (.inl rfl), ⟨rfl, by decide, rfl⟩⟩, by decide⟩,
    ⟨⟨rfl, by decide, .inr (.inl rfl), ⟨rfl, by decide, rfl⟩⟩, by decide⟩⟩

/-- A texture record of one level of 64 by 64 texels at 0x200000. -/
def texRec64 : Nat := 0x200000 + (63 + 63 * 2 ^ 16 + 2 ^ 48) * 2 ^ 192 + 0x3F8000003F800000 <<< 320

/-- Hart 5 with one request for that texture: txf of level 1, which the texture does not have, and a request with u = infinity. -/
def sTex : State :=
  { pack { hart5 with vec := { vtype := 0x20005, vl := 1
                               v := ((Vector.replicate 32 0).set 12 1).set 9 0x7F800000 } } with
    mem := writeBytes [] 0x100000 (toBytes 64 texRec64) }

theorem witness_TextureSampling : (texRecOf texRec64).isSome = true ∧ sTex.hart.run.misses = []
    ∧ actives sTex (fl 0 0 0 8 10 16) true = [0] ∧ readNat sTex.mem 0x100000 64 = texRec64
    ∧ Loads sTex 1 0x100000 64 0x100000
    ∧ ((texRecOf texRec64).map TexRec.levels = some 1 ∧ sTex.hart.elem 12 32 0 = 1)
    ∧ ((decodeFloat fp32 (sTex.hart.elem 9 32 0)).isFin = false) :=
  ⟨by decide, rfl, by decide, by decide, ⟨⟨rfl, by decide, .inr (.inl rfl), ⟨rfl, by decide, rfl⟩⟩, by decide⟩,
    ⟨by decide, by decide⟩, by decide⟩

theorem witness_TextureSampling_ready : RecordReady sTex (fl 0 0 0 8 10 16) 8 64 ∧ RecordReady sTex (fl 0 0 0 8 10 16) 2 64 :=
  ⟨⟨⟨by decide, by decide, by decide, by decide⟩, by decide, fun h => absurd h (by decide), ⟨by decide, by decide⟩, by decide,
      by unfold LengthOk; decide, forall_dests (by decide) (by decide), rfl, forall_dests (by decide) (by decide), by decide⟩,
    ⟨⟨by decide, by decide, by decide, by decide⟩, by decide, fun h => absurd h (by decide), ⟨by decide, by decide⟩, by decide,
      by unfold LengthOk; decide, forall_dests (by decide) (by decide), rfl, forall_dests (by decide) (by decide), by decide⟩⟩


/-! ### Tasks -/

/-- A package with hart 5 in a state and bytes in memory. -/
def packMem (h : Hart) (l : List (Nat × List Byte)) : State :=
  { pack h with mem := l.foldl (fun m p => writeBytes m p.1 p.2) [] }

/-- A channel entry: entry PC, FOOT, class, KIND and level. -/
def channelBytes (pc foot cls kind prio : Nat) : List Byte :=
  toBytes 8 (2 ^ 63 + pc) ++ toBytes 8 (foot * 2 ^ 32 + cls * 2 ^ 13 + kind * 2 ^ 11 + prio * 2 ^ 8)

/-- A message: word 0 and its shape word. -/
def messageBytes (w0 shape : Nat) : List Byte := toBytes 8 w0 ++ toBytes 32 0 ++ toBytes 8 shape ++ toBytes 16 0

/-- Hart 5 with the message for channel 0, an ordinary one of level 2, at x10. -/
def sSpawn : State :=
  packMem hart5 [(0x80000, channelBytes 0x40000 4 0 0 2 ++ channelBytes 0x41000 0 1 1 2), (0x100000, messageBytes 0 0),
    (0x100800, messageBytes 1 (2 ^ 32 + 1))]

/-- The words of the two messages. -/
def spawnWords (w0 shape : Word) : List Word := [w0, 0, 0, 0, 0, shape, 0, 0]

/-- Die 5 is the last; a ring of 16 slots with 15 waiting has room, with 16 it is full; one row and one column is a shape. -/
theorem witness_Spawning : Memory.wf sSpawn.mem ∧ NoPrefix sSpawn ∧ isMilliner sSpawn.cur = false
    ∧ (sSpawn.hart.getX 10).toNat % 64 = 0 ∧ fenceWaits sSpawn 4 = false
    ∧ scalarWords (dataEnv sSpawn) 8 0x100000 sSpawn = .ok (spawnWords 0 0) sSpawn
    ∧ scalarWords (dataEnv sSpawn) 8 0x100800 sSpawn = .ok (spawnWords 1 0x100000001) sSpawn
    ∧ unassigned sSpawn sSpawn.cur = false ∧ (channelOf sSpawn 3 0).map Channel.kind = some 0
    ∧ (channelOf sSpawn 3 1).map Channel.kind = some 1 ∧ channelOf sSpawn 3 2 = none
    ∧ (taskRing sSpawn 3 0 2).en = true ∧ writable sSpawn 3 0x60000 64 = true ∧ HomesIdle sSpawn :=
  ⟨by decide, by unfold NoPrefix; decide, by decide, by decide, by decide, rfl, rfl, by decide, by decide, by decide, by decide,
    by decide, by decide, ⟨⟨rfl, rfl, rfl, rfl, rfl⟩, rfl⟩⟩

theorem witness_Spawning_rings : let part (w : BitVec 32) : Part := { part3 with task := [(2, { base := 0x60000, en := true, log2n := 4, widx := w })] }
    let s (w : BitVec 32) : State := { sSpawn with parts := [(3, part w)] }
    (2 ^ 4 ≤ ((taskRing (s 16) 3 0 2).widx - (taskRing (s 16) 3 0 2).ridx).toNat)
    ∧ (((taskRing (s 15) 3 0 2).widx - (taskRing (s 15) 3 0 2).ridx).toNat < 2 ^ 4)
    ∧ (taskRing (s 15) 3 5 2).en = false ∧ (pack { hart5 with x := hart5.x.set 10 0x100020 }).hart.getX 10 % 64 ≠ 0 := by
  decide

/-- Hart 5 running a task of level 2 on channel 0, and a waiting task of its own key. -/
def sTask : State :=
  { sSpawn with
    harts := [(5, { hart5 with priv := .u, dev := { task := bv 64 (2 * 2 ^ 43 + 3), chan := bv 64 (2 ^ 13 + 2 * 256) } })]
    dies := [(0, { waiting := [{ part := 3, level := 2, idx := 20, channel := 0, key := 7, kind := 0, written := 0, order := 1, id := 1 }] })]
    clusters := [(0, { tregBase := .replicate 16 5, tregLen := .replicate 16 100 })] }

theorem witness_TaskTurns : Memory.wf sTask.mem ∧ NoPrefix sTask ∧ isMilliner sTask.cur = false ∧ sTask.hart.inHandler = false
    ∧ kindOf sTask.cur = .compute ∧ sTask.power.shed.getLsbD sTask.hart.pclass = false
    ∧ quiesceHolds sTask (clusterOf sTask.cur) = false
    ∧ (let t := sTask.setHart { sTask.hart with dev := { sTask.hart.dev with uicause := 0x8000000000000000 } }
       t.hart.inHandler = true)
    ∧ (let t := { sTask with power := { shed := 2 } }
       t.power.shed.getLsbD t.hart.pclass = true ∧ t.hart.level = 0)
    ∧ yields s5 5 = false ∧ yields sTask 5 = true ∧ HomesIdle sTask ∧ (taskRing sTask 3 0 2).en = true
    ∧ writable sTask 3 0x60000 64 = true :=
  ⟨by decide, by unfold NoPrefix; decide, by decide, by decide, by decide, by decide, by decide, by decide, by decide, by decide,
    by decide, ⟨⟨rfl, rfl, rfl, rfl, rfl⟩, rfl⟩, by decide, by decide⟩

/-- Hart 5 running a sequenced task, with the number of a sequence in x12, tickets in x13, and sequence 8 at NEXT 3, SERVED 3. -/
def sSeq : State := packMem { hart5 with dev := { chan := 0x1000 } } [(0x90040, toBytes 8 (3 * 2 ^ 32 + 3))]

/-- The last sequence of a table of 32 is named, the next is not. -/
theorem witness_TicketsAndBlocking : Memory.wf sSeq.mem ∧ NoPrefix sSeq ∧ isMilliner sSeq.cur = false
    ∧ unassigned sSeq sSeq.cur = false ∧ (sSeq.partAt 3).tseq.en = true ∧ (31 < 2 ^ (sSeq.partAt 3).tseq.log2n.toNat ∧ ¬ 32 < 2 ^ (sSeq.partAt 3).tseq.log2n.toNat)
    ∧ isFar sSeq 0x90040 = false ∧ isOwnMem sSeq 0x90040 = true ∧ ownerOf sSeq 0x90040 = 3
    ∧ HomesIdle sSeq ∧ barred sSeq sSeq.cur false = false ∧ poisoned sSeq 0x90040 8 = none
    ∧ kindOf sSeq.cur = .compute ∧ sSeq.hart.run.turn = none ∧ fieldOf sSeq.hart.dev.chan 11 2 = 2
    ∧ fieldOf (read8 sSeq.mem 0x90040) 32 32 = fieldOf (sSeq.hart.getX 13) 0 32
    ∧ fieldOf (read8 sSeq.mem 0x90040) 32 32 ≠ fieldOf (sSeq.hart.getX 12) 0 32
    ∧ (sSeq.partAt 3).ttab.en = true ∧ fenceWaits sSeq 4 = false ∧ isOwnMem sSeq 0x80018 = true ∧ ownerOf sSeq 0x80018 = 3 :=
  ⟨by decide, by unfold NoPrefix; decide, by decide, by decide, by decide, by decide, by decide, by decide, by decide,
    ⟨⟨rfl, rfl, rfl, rfl, rfl⟩, rfl⟩, by decide, by decide, by decide, rfl, by decide, by decide, by decide, by decide, by decide,
    by decide, by decide⟩

/-- Hart 5 asks for a task: one waits; and with none waiting it parks. -/
theorem witness_TaskDelivery : let s := { sTask with dies := [(0, { requests := [5], waiting := (sTask.dieAt 0).waiting })] }
    let t := { sTask with dies := [(0, { requests := [5] })] }
    Memory.wf s.mem ∧ (s.dieAt 0).requests.head? = some 5 ∧ (choose (reportChannels s 0) 5).isSome = true
    ∧ (t.dieAt 0).requests.head? = some 5 ∧ choose (reportChannels t 0) 5 = none
    ∧ tablePoison s (taskSlot (taskRing s 3 0 2) 20) 64 = false := by
  decide

/-- A delivery on its way; a retirement whose writes are performed, with a turn of sequence 8, and one with NTF. -/
theorem witness_TaskDelivery_ends :
    let r : Retirement := { hart := 5, part := 3, turn := some (8, 3), panel := none, word0 := 0, ntf := false, ids := [] }
    let s := { sSeq with dies := [(0, { deliveries := [⟨5, 0x77, 0x200, 0x40000, [1, 2, 3, 4, 5, 6, 7], 9, none⟩], retiring := [r] })] }
    (s.dieAt 0).deliveries.find? (fun y => y.hart == 5) = some ⟨5, 0x77, 0x200, 0x40000, [1, 2, 3, 4, 5, 6, 7], 9, none⟩
    ∧ readyRetirement s 5 = some r ∧ sequenceAddr s 3 8 = some 0x90040 ∧ isFar s 0x90040 = false
    ∧ (s.partAt 3).ttab.en = true ∧ tableAt s 3 (channelAddr s 3 0 + 8) = true := by
  decide

/-! ### Domains, streams, leases, waits -/

/-- A descriptor: MEMBERS, ARRIVED, PHASE, LEVEL, FAILED and LIVE. -/
def descriptorBytes (mem arr phase level failed live : Nat) : List Byte :=
  toBytes 8 (arr * 2 ^ 32 + mem) ++ toBytes 8 (phase + level * 2 ^ 56 + failed * 2 ^ 62 + live * 2 ^ 63) ++ toBytes 16 0

/-- Hart 5, a member of domain 0 at LEVEL 2, with phase 6 in x10: the domain is at phase 7 and lacks one arrival. -/
def sDom : State :=
  packMem { hart5 with x := hart5.x.set 10 6, dev := { domain := 2 } } [(0x70000, descriptorBytes 4 3 7 2 0 1),
    (0x70020, descriptorBytes 4 4 7 2 1 1), (0x70040, descriptorBytes 4 4 7 2 0 0)]

/-- Domain 0 is live; phase 6 has passed and phase 7 has not. -/
theorem witness_Domains : Memory.wf sDom.mem ∧ NoPrefix sDom ∧ sDom.hart.run.wait = none
    ∧ domainOf sDom sDom.hart.domainNow = some ⟨3, 0, 2, 0x70000⟩ ∧ domainOf sDom sDom.hart.domainHeld = some ⟨3, 0, 2, 0x70000⟩
    ∧ HomesIdle sDom ∧ regionOf sDom 0x70000 = .own ∧ regionOf sDom 0x70008 = .own ∧ ownerOf sDom 0x70008 = 3
    ∧ fenceWaits sDom (levelScope 2) = false
    ∧ (bitOf (read8 sDom.mem 0x70008) 63 = true ∧ fieldOf (read8 sDom.mem 0x70008) 56 3 = 2 ∧ bitOf (read8 sDom.mem 0x70008) 62 = false)
    ∧ (fieldOf (read8 sDom.mem 0x70008) 0 32 = 7 ∧ (7 + 2 ^ 32 - (6 + 1) % 2 ^ 32) % 2 ^ 32 < 2 ^ 31 ∧ ¬ (7 + 2 ^ 32 - (7 + 1) % 2 ^ 32) % 2 ^ 32 < 2 ^ 31)
    ∧ sDom.hart.inHandler = false ∧ sDom.hart.arrived = false
    ∧ (let t := sDom.setHart { sDom.hart with dev := { domain := 0 } }
       domainOf t t.hart.domainNow = none)
    ∧ (bitOf (read8 sDom.mem 0x70028) 62 = true ∧ bitOf (read8 sDom.mem 0x70048) 63 = false) :=
  ⟨by decide, by unfold NoPrefix; decide, rfl, by decide, by decide, ⟨⟨rfl, rfl, rfl, rfl, rfl⟩, rfl⟩, by decide, by decide,
    by decide, by decide, by decide, by decide, by decide, by decide, by decide, by decide⟩

/-- A completion, one of a failed domain, a break. -/
theorem witness_Domains_events : let s := { sDom with parts := [(3, { part3 with completing := [0, 1, 2], fring := {} })] }
    descriptorAddr s 3 0 = some 0x70000 ∧ HomesFree s ∧ s.stepwise = false ∧ 0x70000 % 32 = 0
    ∧ (s.partAt 3).completing.contains 0 = true ∧ contributions s 3 0 7 = []
    ∧ descriptorAddr s 3 1 = some 0x70020 ∧ (s.partAt 3).completing.contains 1 = true ∧ (s.partAt 3).fring.en = false :=
  ⟨by decide, ⟨rfl, rfl, rfl, rfl, rfl⟩, rfl, by decide, by decide, by decide, by decide, by decide, by decide⟩

/-- Hart 5 with a stream descriptor at x10, AVL below 2^32 in x12, and a stream in slot 1. -/
def sStr : State :=
  packMem { hart5 with
      x := hart5.x.set 13 0x100000000
      vec := { vtype := 0x20002, vl := 1 }
      run := { streams := #v[none, some { word0 := 0x300042, base := .replicate 3 0x100000, stride := .replicate 3 8, init := 0,
                                          mode := 0, avl := 40, vtype := 0x20002 }, none, none] } }
    [(0x100000, toBytes 8 (64 + 2 + 2 ^ 20) ++ toBytes 56 0)]

/-- AVL = 2^32 - 1 opens a stream, 2^32 does not; a descriptor at an address that is no multiple of 64 traps. -/
theorem witness_Streams : Memory.wf sStr.mem ∧ kindOf sStr.cur = .compute ∧ NoPrefix sStr
    ∧ scalarWords (dataEnv sStr) 8 0x100000 sStr = .ok [0x100042, 0, 0, 0, 0, 0, 0, 0] sStr
    ∧ ((sStr.hart.getX 12).toNat < 2 ^ 32 ∧ 2 ^ 32 ≤ (sStr.hart.getX 13).toNat)
    ∧ ((sStr.hart.getX 10).toNat % 64 = 0 ∧ (sStr.hart.getX 12).toNat % 64 ≠ 0)
    ∧ sStr.hart.stream 0 = none ∧ (sStr.hart.stream 1).map Stream.mode = some 0 :=
  ⟨by decide, by decide, by unfold NoPrefix; decide, rfl, by decide, by decide, rfl, rfl⟩

/-- A fill of that stream: its first element comes from 0x100000, its last but one from 32 bytes before the end. -/
theorem witness_Streams_fill : let st : Stream := { word0 := 0x300042, base := .replicate 3 0x100000, stride := .replicate 3 8, init := 0,
                                                    mode := 0, avl := 4000, vtype := 0x20002, priv := .m }
    let s := pack { hart5 with run := { streams := .replicate 4 (some st) } }
    (s.hartAt 5).stream 1 = some st ∧ st.flt = none ∧ st.fetched < st.limit ∧ st.parts = 1 ∧ (s.clusterAt 0).clkOff = false
    ∧ HomesIdle s ∧ barred s 5 true = false ∧ st.addr 0 0 = 0x100000
    ∧ resolve s (streamEnv s 5 1 st) .load 0x100000 4 = .ok (.mem 0x100000, s) ∧ poisoned s 0x100000 4 = none :=
  ⟨rfl, rfl, by decide, by decide, by decide, ⟨⟨rfl, rfl, rfl, rfl, rfl⟩, rfl⟩, by decide, by decide, rfl, by decide⟩

/-- A lease of the last three doublewords of 256 bytes, one of four from there, which would pass the end, and one at an odd base. -/
theorem witness_Leases : let s := pack { hart5 with x := (hart5.x.set 10 0x1000E8).set 12 0x1000E4 }
    Memory.wf s.mem ∧ NoPrefix s ∧ kindOf s.cur ≠ .system ∧ isMilliner s.cur = false
    ∧ ((s.hart.getX 10).toNat % 8 = 0 ∧ 0x1000E8 % 256 + 8 * 3 = 256 ∧ 256 < 0x1000E8 % 256 + 8 * 4)
    ∧ (s.hart.getX 12).toNat % 8 ≠ 0
    ∧ Places s .store 0x1000E8 24 0x1000E8 s ∧ isOwnMem s 0x1000E8 = true ∧ freeLeaseSlot s s.cur = some 0
    ∧ leaseConflict s s.cur 0x1000E8 24 = false ∧ s.stepwise = false ∧ s.coh.queued = [] :=
  ⟨by decide, by unfold NoPrefix; decide, by decide, by decide, by decide, by decide, ⟨rfl, by decide, rfl⟩, by decide,
    by decide, by decide, rfl, rfl⟩

/-- A lease that ends at 40: it stands at 39 and has run out at 40; unlease with its base and with another. -/
theorem witness_Leases_end : let l : Lease := { base := 0x100000, pa := 0x100000, words := 2, ends := 40, buf := [] }
    let s (cc : Nat) : State := { pack { hart5 with run := { leases := #v[some l, none] } } with cc := cc }
    ((s 40).hartAt 5).run.leases[0] = some l ∧ l.ends ≤ (s 40).ccOf 5 ∧ ¬ l.ends ≤ (s 39).ccOf 5
    ∧ (s 40).coh.queued = [] ∧ l.base = (s 40).hart.getX 10 ∧ l.base ≠ (s 40).hart.getX 11
    ∧ spanUnperformed (s 40) 5 l.pa (8 * l.words) = false := by
  decide

/-- Hart 5 waits in an swait of its word at x10 (its last value was 33) until 4000. -/
def sWait (cc : Nat) (i : W32) (k : WaitKind) (news : List (Nat × Nat)) : State :=
  { pack { hart5 with run := { wait := some { kind := k, pc := 0x1000, ends := 4000, last := some 33, watch := [0x100000], news := news }
                               fetch := [(0x1000, i)] } } with cc := cc }

/-- swait: a word at the comparand satisfies it and one just below does not. -/
theorem witness_TimedWaits : Memory.wf s5.mem ∧ NoPrefix s5 ∧ kindOf s5.cur ≠ .system ∧ isMilliner s5.cur = false
    ∧ ((s5.hart.getX 10).toNat % 4 = 0 ∧ Places s5 .load 0x100000 4 0x100000 s5 ∧ poisoned s5 0x100000 4 = none)
    ∧ s5.hart.run.wait = none
    ∧ ((readNat s5.mem 0x100000 4 + 2 ^ 32 - (s5.hart.getX 0).toNat % 2 ^ 32) % 2 ^ 32 < 2 ^ 31
      ∧ ¬ (readNat s5.mem 0x100000 4 + 2 ^ 32 - (s5.hart.getX 13).toNat % 2 ^ 32) % 2 ^ 32 < 2 ^ 31) :=
  ⟨by decide, alone_s5, by decide, by decide, ⟨by decide, ⟨rfl, by decide, rfl⟩, by decide⟩, rfl, by decide⟩

/-- A hart that waits in swait a3, (a0), a1: before its time and at it; and one whose word has taken a value that satisfies it. -/
theorem witness_TimedWaits_ends : let s (cc : Nat) := sWait cc 0x16C5D50B .swait []
    let t := sWait 0 0x16C5D50B .swait [(0x100000, 8)]
    (s 3999).hart.canRun = true ∧ isRep (s 3999).hart.pc = false ∧ decode 0x16C5D50B = .ok (.swait (sf 3 12 11 10))
    ∧ (s 3999).hart.run.fetch.find? (fun p => p.1 == (s 3999).hart.pc.toNat) = some (0x1000, 0x16C5D50B)
    ∧ ((s 3999).ccOf 5 < 4000 ∧ 4000 ≤ (s 4000).ccOf 5)
    ∧ t.hart.pfxBlocks = false ∧ (8 + 2 ^ 32 - (t.hart.getX 12).toNat % 2 ^ 32) % 2 ^ 32 < 2 ^ 31
    ∧ ¬ (7 + 2 ^ 32 - (t.hart.getX 12).toNat % 2 ^ 32) % 2 ^ 32 < 2 ^ 31 := by
  decide

/-- A full ring at the end of the wait: the spawn answers FULL. -/
theorem witness_TimedWaits_spawn : let part : Part := { part3 with task := [(2, { base := 0x60000, en := true, log2n := 4, widx := 16 })] }
    let s := { sSpawn with parts := [(3, part)] }
    scalarWords (dataEnv s) 8 0x100000 s = .ok (spawnWords 0 0) s ∧ spawn s 5 false (spawnWords 0 0) = .done s (bv 64 (2 ^ 60)) :=
  ⟨rfl, rfl⟩

/-- remoteSampleTick: no watch is enabled; or watch 3, the last, is enabled on a word of module 7. -/
theorem witness_TimedWaits_tick : let s := pack { hart5 with ctl := { parked := false, watch := (Vector.replicate 4 0).set 3 (bv 64 (7 * 2 ^ 40 + 0x100001)) } }
    (∀ i < 4, bitOf ((s5.hart.ctl.watch[i]?).getD 0) 0 = false)
    ∧ s.hart.run.wait = none ∧ bitOf ((s.hart.ctl.watch[3]?).getD 0) 0 = true
    ∧ (∀ j < 4, j ≠ 3 → bitOf ((s.hart.ctl.watch[j]?).getD 0) 0 = false)
    ∧ regionOf { s with chr := { valid := true, memb := 0x88, modIdx := 3 } } (7 * 2 ^ 40 + 0x100000) = .far 7
    ∧ s.coh.nextTag < 2 ^ 32 := by
  decide

/-- A machine timer interrupt that is due in M mode, an S-level one, and a user-level one: the highest CODE and the lowest SLOT. -/
theorem witness_Interrupts : let m := pack { hart5 with csr := { hart5.csr with mstatus := 8, mie := 0xFFF, mipSw := 2 } }
    let u := pack { hart5 with priv := .u, dev := { uivec := 0x44001 }, run := { uiPend := [(1, 0), (2, 2), (2, 1)], fetch := [(0x1000, 0x13)] } }
    Memory.wf m.mem ∧ interruptible m 5 = true ∧ (irqDue m 5).map Prod.fst = some false ∧ m.hart.run.wait = none
    ∧ interruptible u 5 = true ∧ irqDue u 5 = none ∧ u.hart.priv = .u ∧ bitOf u.hart.dev.uivec 0 = true ∧ u.hart.inHandler = false
    ∧ (2, 1) ∈ u.hart.run.uiPend ∧ (2, 1) ∈ uiOrder
    ∧ (∀ c ∈ u.hart.run.uiPend, c ∈ uiOrder → c.1 < 2 ∨ (c.1 = 2 ∧ 1 ≤ c.2))
    ∧ trapDue { u with cur := 5 } = false := by
  decide

/-- uiret in and out of a handler, park in S mode, hmsg with a ring that has room, mkick to memory, the last identity of an
interrupt file of a compute hart and of a system core, a reservation that ends. -/
theorem witness_Interrupts_words : let i := pack { hart5 with dev := { uicause := 0x8000000000000000 } }
    let r : State := { pack { hart5 with run := { resv := some 0x100, resvEnds := 10 } } with cc := 10 }
    NoPrefix i ∧ i.hart.inHandler = true ∧ s5.hart.inHandler = false ∧ NoPrefix sSup ∧ sSup.hart.priv ≠ .u
    ∧ sSup.hart.run.queue = [] ∧ sSup.hart.liveLeases = 0 ∧ fenceWaits s5 4 = false
    ∧ ((s5.hart.getX 10).toNat % 8 = 0 ∧ Places s5 .store 0x100000 8 0x100000 s5)
    ∧ (5 < 9240 ∧ 0 < 63 ∧ 63 < (if kindOf 5 = .system then 256 else 64) ∧ ¬ 64 < (if kindOf 5 = .system then 256 else 64))
    ∧ 255 < (if kindOf 9216 = .system then 256 else 64)
    ∧ (r.hartAt 5).run.resv = some 0x100 ∧ (r.hartAt 5).run.resvEnds ≤ r.ccOf 5 := by
  refine ⟨by unfold NoPrefix; decide, by decide, by decide, by unfold NoPrefix; decide, by decide, rfl, by decide, by decide,
    ⟨by decide, ⟨rfl, by decide, rfl⟩⟩, by decide, by decide, rfl, by decide⟩

/-- The supervisor ring of partition 3 takes a record: one slot is free. -/
theorem ring_open (s : State) (h : s.parts = [(3, part3)]) (w : writable s 3 (ringSlot s 3) 32 = true) (c : s.coh = {})
    (p : s.stepwise = false) : RingOpen s 3 where
  part := by decide
  en := by simp only [State.partAt, h]; decide
  room := by simp only [State.partAt, h]; decide
  slot := w
  aligned := by simp only [ringSlot, State.partAt, h]; decide
  leases := by rw [c]
  queued := by rw [c]
  units := by rw [c]; intro x hx; cases hx
  settled := by simp only [committing, c]; rfl
  shared := by rw [p]; intro x; cases x
  migs := by rw [c]

theorem witness_Interrupts_ring : RingOpen s5 3 := ring_open s5 rfl (by decide) rfl rfl


/-! ### Milliners -/

/-- A kick with its block at 0x100000 in partition 3, kicked by hart 5 in M mode. -/
def kick5 : Kick := { block := 0x100000, satp := 0, part := 3, priv := .m, kicker := 5, scope := 0 }

/-- A block: word 0, words 1 and 2, MBOX 0x100800, words 4 to 6 and TOKEN 0xABCD. -/
def blockBytes (w0 w1 w2 w4 w5 w6 : Nat) : List Byte :=
  toBytes 8 w0 ++ toBytes 8 w1 ++ toBytes 8 w2 ++ toBytes 8 0x100800 ++ toBytes 8 w4 ++ toBytes 8 w5 ++ toBytes 8 w6 ++ toBytes 8 0xABCD

/-- The die Milliner 9528 in a state, with a block in memory. -/
def sMill (x : Mill) (b : List Byte) : State :=
  { packMem hart5 [(0x100000, b)] with
    mills := [(9528, x)]
    harts := [(5, hart5), (9528, { hart5 with ctl := { parked := true } })] }

/-- The seventh waiting kick leaves room for an eighth, which fills the queue. -/
theorem witness_Kicks : let s (n : Nat) := sMill { en := true, queue := List.replicate n kick5 } (blockBytes 1 0 0 0 0 0)
    Memory.wf (s 0).mem ∧ isMilliner 9528 = true ∧ 9528 < agentCount
    ∧ ((s 7).millAt 9528).en = true ∧ ((s 7).millAt 9528).queue.length < 8 ∧ ¬ ((s 8).millAt 9528).queue.length < 8
    ∧ isDead (s 7) 9528 = false ∧ kindOf 9528 = .dieMilliner
    ∧ millReady (s 1) 9528 = true ∧ ((s 1).millAt 9528).queue = kick5 :: [] ∧ (s 1).coh.remote = []
    ∧ mailboxOf (s 1) 9528 kick5 (some false) = some (0x100800, 0xABCD) ∧ ((s 1).hartAt 9528).liveLeases = 0 := by
  decide

theorem witness_Kicks_start : let s := sMill { en := true, queue := [kick5] } (blockBytes 1 0 0 0 0 0)
    MailboxFree s 9528 ∧ loadVa (kickEnv 9528 kick5) .load 0x100000 8 s = .ok 1 s :=
  ⟨⟨⟨⟨rfl, rfl, rfl, rfl, rfl⟩, rfl⟩, by decide, by decide, by decide⟩, rfl⟩

/-- A copy of two rows of three elements of 4 bytes: its block is good; its first element is read; after its sixth it ends. -/
theorem witness_Routines :
    let ws : List Word := [0x110010, 0x100000, 0x100900, 0x100800, 0x200000003, 64, 32, 0xABCD]
    let b := blockBytes 0x110010 0x100000 0x100900 0x200000003 64 32
    let s (r : MillRun) := sMill { en := true, kick := some kick5, run := r } b
    loadWords (kickEnv 9528 kick5) .load 8 0x100000 (s (.selected 0x10)) = .ok ws (s (.selected 0x10))
    ∧ (Copying.mk ws).bad = false ∧ (Copying.mk ws).count = 6 ∧ (Copying.mk ws).size = 4
    ∧ (Copying.mk ws).source 0 = some 0x100000
    ∧ partFault (s (.copying ws 5 [])) (kickEnv 9528 kick5) .store { va := (Copying.mk ws).dest 5, n := 4, al := 4 } = none
    ∧ MailboxFree (s (.copying ws 6 [])) 9528 :=
  ⟨rfl, by decide, by decide, by decide, by decide, by decide, ⟨⟨⟨rfl, rfl, rfl, rfl, rfl⟩, rfl⟩, by decide, by decide, by decide⟩⟩

/-- A migration of 16 KiB: its block is good, its last region is the 64th; and a page that is not aligned. -/
theorem witness_Routines_migration :
    let ws (a : Word) : List Word := [0x20, a, 0x104000, 0x100800, 0, 0, 0, 0xABCD]
    let s (a : Nat) := sMill { en := true, kick := some kick5, run := .selected 0x20 } (blockBytes 0x20 a 0x104000 0 0 0)
    kindOf 9528 = .dieMilliner ∧ kick5.priv ≠ .u
    ∧ loadWords (kickEnv 9528 kick5) .load 8 0x100000 (s 0x108000) = .ok (ws 0x108000) (s 0x108000)
    ∧ migrationBlock (s 0x108000) kick5 (ws 0x108000) = some (0x108000, 0x104000, 0x4000)
    ∧ migrationBlock (s 0x108100) kick5 (ws 0x108100) = none ∧ (s 0x108000).coh.leases = []
    ∧ (0x4000 ≤ 256 * 64 ∧ 256 * 63 < 0x4000) ∧ poisoned (s 0x108000) (0x108000 + 256 * 63) 256 = none :=
  ⟨by decide, by decide, rfl, by decide, by decide, rfl, by decide, by decide⟩

/-- A user routine of one word. -/
theorem witness_Routines_user :
    let s := { sMill { en := true, kick := some kick5, run := .selected 0x8000 } [] with
      mem := writeBytes (writeBytes [] 0xA0000 (toBytes 8 (2 ^ 63 + 0x40000) ++ toBytes 8 4)) 0x40000 (toBytes 4 0x13) }
    tablePoison s 0xA0000 16 = false ∧ userEntry s 3 0 = some (0x40000, 4)
    ∧ fetchRoutine (kickEnv 9528 kick5) 1 0x40000 s = .ok [(0x40000, 0x13)] s :=
  ⟨by decide, by decide, rfl⟩

/-- An all-reduce of four elements by two participants: participant 0 at this Milliner. -/
def coll (stage sent : Nat) : CollRun :=
  { routine := 0x40, src := 0x100000, dst := 0x100900, count := 4, seq := 7, fmt := 2, op := 0, blk := 0, x := 2
    group := [⟨0, 0, 0, 0, 0x101000⟩, ⟨0, 1, 0, 1, 0x102000⟩], own := 0, stage := stage, vals := [5, 6, 7, 8], flags := 0
    sent := sent, since := 10, parts := [(0, [5, 6, 7, 8])] }

/-- The three moments of its one stage, the bank without an entry; the end; and the timeout at 4,096 cc, not before. -/
theorem witness_Collectives : let s (c : CollRun) (cc : Nat) :=
      { sMill { en := true, kick := some { kick5 with fields := some (0x100800, 0xABCD) }, run := .collective c } [] with cc := cc }
    (coll 0 0).done = false ∧ slotFree (kickEnv 9528 kick5) (coll 0 0) (s (coll 0 0) 0) = .ok true (s (coll 0 0) 0)
    ∧ (coll 0 2).senderTo (coll 0 2).me 0 ≠ none
    ∧ readByte (s (coll 0 2) 0).mem (placed (s (coll 0 2) 0) ((coll 0 2).entryAt (coll 0 2).me)) = 0
    ∧ (coll 1 0).done = true ∧ (coll 1 0).dst % (coll 1 0).size = 0
    ∧ (10 + 2 ^ 12 ≤ (s (coll 0 2) 4106).ccOf 9528 ∧ ¬ 10 + 2 ^ 12 ≤ (s (coll 0 2) 4105).ccOf 9528) :=
  ⟨by decide, rfl, by decide, by decide, by decide, by decide, by decide⟩

/-! ### Registers, contexts, messages -/

/-- LOG2N 4 and 16, the ends of the range of the supervisor ring; bases that fit and one that does not; a region that ends at 1,024
and one a unit longer. -/
theorem witness_RegisterWrites : (4 ≤ fieldOf 0x24#64 0 5 ∧ fieldOf 0x30#64 0 5 ≤ 16 ∧ ¬ fieldOf 0x31#64 0 5 ≤ 16 ∧ ¬ 4 ≤ fieldOf 0x23#64 0 5)
    ∧ (part3.fring.base.toNat % 2 ^ (4 + 5) = 0 ∧ ¬ part3.fring.base.toNat % 2 ^ (16 + 5) = 0) ∧ part3.fring.en = true
    ∧ (part3.task.map (fun p => p.2.widx == p.2.ridx)) = [true]
    ∧ ((s5.clusterAt 0).mergeUse = 0)
    ∧ (fieldOf 0x100000003F0#64 0 10 + fieldOf 0x1000000300#64 32 11 ≤ 1024 ∧ ¬ fieldOf 0x3F0#64 0 10 + fieldOf 0x1100000000#64 32 11 ≤ 1024)
    ∧ (s5.dieAt 5).deadBusy = none ∧ (s5.dieAt 5).migBusy = none ∧ (s5.hartAt 5).window 3 = none := by
  decide

/-- Hart 5 parked with PCAUSE 3 and a good record, a restore that is accepted, and a running hart that is to be pre-empted. -/
theorem witness_Contexts : let s (c : Ctl) := pack { hart5 with ctl := c }
    let w : Ctl := { parked := true, pcause := 3, recordOk := true }
    let r : Ctl := { parked := true, pcause := 3, done := true }
    let p : Ctl := { parked := false, preempt := true, saveBase := 0x200000 }
    Memory.wf (s w).mem ∧ kindOf 5 = .compute ∧ isDead (s w) 5 = false ∧ ((s r).clusterAt 0).clkOff = false
    ∧ holdsHalt (s p) 5 = false ∧ passWaits (s p) 5 = false ∧ ((s p).dieAt 0).deliveries = [] ∧ HomesIdle (s p)
    ∧ recordBusy (s p) 5 = false ∧ ((s p).hartAt 5).liveLeases = 0 ∧ ((s p).hartAt 5).uiDue = none
    ∧ ((s p).hartAt 5).declared = [] ∧ ((s p).hartAt 5).grantTiles = 0 ∧ farParts (s p) 0x200000 (0xA800 + 4224) = []
    ∧ spanOwned (s p) 3 0x200000 (0xA800 + 4224) = true
    ∧ spanOwned (s { p with saveBase := 0x3FC000000000000 }) 3 0x3FC000000000000 (0xA800 + 4224) = false :=
  ⟨by decide, by decide, by decide, by decide, by decide, by decide, by decide, ⟨⟨rfl, rfl, rfl, rfl, rfl⟩, rfl⟩, by decide,
    by decide, by decide, by decide, by decide, by decide, by decide, by decide⟩

/-- A hart whose grace has ended in a shed class; and a restore of a record that is not valid. -/
theorem witness_Contexts_shed : let s : State :=
      { pack { hart5 with ctl := { parked := false, shedDue := true }, dev := { chan := 0x2000 } } with power := { shed := 2 } }
    let r := pack { hart5 with ctl := { parked := true, restore := true, saveBase := 0x200000 } }
    isShed s (s.hartAt 5) = true ∧ holdsHalt s 5 = false ∧ (s.hartAt 5).uiDue = none
    ∧ r.coh.migs = [] ∧ farParts r 0x200000 0x40000 = [] ∧ recordValid r 5 = false := by
  decide

/-- A message of agent 1 for the 8 bytes at 0x100100, and the state with it alone in flight. -/
def msg1 (k : MsgKind) (d : List Byte) : Msg :=
  { kind := k, src := 1, inc := 0, dst := 0, hart := 5, addr := 0x100100, len := 8, data := d, id := 3 }

/-- A package with a memory system, message steps visible. -/
def sNet (c : Coh) : State := { s5 with stepwise := true, coh := c }

theorem arrives (c : Coh) (m : Msg) (h : c.net = [m]) (f : linkHolds (sNet c) m = false) : MayArrive (sNet c) 0 m :=
  ⟨by simp only [sNet, h]; rfl, f, fun j _ h => absurd h (Nat.not_lt_zero j)⟩

/-- A sharer's request, a store without other sharers and one that has some, the last acknowledgement of a commit, a request
for a lease, a notice of a displacement; a message of an old incarnation. -/
theorem witness_HomeMessages : let g := msg1 .getS []
    let w := msg1 .wr [1, 2, 3, 4, 5, 6, 7, 8]
    Memory.wf s5.mem ∧ Served (sNet { net := [g] }) 0 g ∧ Served (sNet { net := [w] }) 0 w
    ∧ homeBlocks (sNet { net := [w] }) w = false
    ∧ sharersOf (sNet { net := [w] }) 1 0x100100 8 = []
    ∧ sharersOf (sNet { net := [w], dir := [(0x1001, .p [(2, 0, 0)])] }) 1 0x100100 8 = [2]
    ∧ sharersOf (sNet { net := [w], dir := [(0x1001, .p [(2, 1, 1)])] }) 1 0x100100 8 = []
    ∧ { g with inc := 1 }.inc ≠ incOf (sNet { net := [g] }) 1 :=
  ⟨by decide, ⟨arrives _ _ rfl (by decide), by decide, by decide, by decide⟩,
    ⟨arrives _ _ rfl (by decide), by decide, by decide, by decide⟩, by decide, by decide, by decide, by decide, by decide⟩

theorem witness_HomeMessages_ends : let u := msg1 .uack []
    let c : Commit := { msg := { msg1 .wr [1, 2, 3, 4, 5, 6, 7, 8] with src := 7, hart := 30 }, old := 0, updated := [2, 1], awaits := [1] }
    let l := msg1 .lreq []
    MayArrive (sNet { net := [u], commits := [c] }) 0 u ∧ u.inc = incOf (sNet { net := [u] }) 1
    ∧ c.awaits.filter (fun y => y != u.src) = [] ∧ overlap c.msg.addr c.msg.len u.addr u.len = true
    ∧ Served (sNet { net := [l] }) 0 l ∧ leaseConflict (sNet { net := [l] }) 5 0x100100 8 = false
    ∧ leaseConflict (sNet { net := [l], leases := [⟨6, 0, 0x100107, 8⟩] }) 5 0x100100 8 = true
    ∧ leaseConflict (sNet { net := [l], leases := [⟨6, 0, 0x100108, 8⟩] }) 5 0x100100 8 = false :=
  ⟨arrives _ _ rfl (by decide), by decide, by decide, by decide, ⟨arrives _ _ rfl (by decide), by decide, by decide, by decide⟩,
    by decide, by decide, by decide⟩

/-- Updates, commits, data and invalidates at a sharer that lives; a buffer on a link; a home that has waited 65,536 cc and one that
has waited one less; a second declaration after 1 ms. -/
theorem witness_SharerMessages : let m (k : MsgKind) : Msg := { msg1 k [1, 2, 3, 4, 5, 6, 7, 8] with dst := 1, src := 0 }
    let c : Commit := { msg := msg1 .wr [], old := 0, updated := [1], awaits := [1], since := 10 }
    let q (cc : Nat) : State := { s5 with cc := cc, coh := { commits := [c] } }
    MayArrive (sNet { net := [m .upd] }) 0 (m .upd) ∧ MayArrive (sNet { net := [m .cmt] }) 0 (m .cmt)
    ∧ MayArrive (sNet { net := [m .data] }) 0 (m .data) ∧ MayArrive (sNet { net := [m .inv] }) 0 (m .inv)
    ∧ 1 ∉ (sNet { net := [m .upd] }).coh.dead
    ∧ (10 + 65536 ≤ (q 65546).cc ∧ (q 65545).cc < 10 + 65536) ∧ ownerOf (q 0) c.msg.addr = 3
    ∧ (let l : State := { s5 with cores := [(0, { link := some { slot := 1, buf := 1, fmt := 2, data := 77 } })] }
       (l.coreAt 0).passing = [] ∧ ((l.hartAt (4 * nextCore 0 + 1)).bbuf 1).loaded = false)
    ∧ (let d (t : Nat) : State := { s5 with ticks := t, dies := [(0, { deadBusy := some 1 })], coh := { deadAt := [(1, 400)] } }
       (d 100399).ticks < 400 + 100000 ∧ 400 + 100000 ≤ (d 100400).ticks) :=
  ⟨arrives _ _ rfl (by decide), arrives _ _ rfl (by decide), arrives _ _ rfl (by decide), arrives _ _ rfl (by decide), by decide,
    by decide, by decide, by decide, by decide⟩

/-! ### The fabric and the root port -/

/-- A request of partition 9 of module 7 for 8 bytes. -/
def req7 (op a : Nat) (d : List Byte) : FabMsg := { mod := 7, part := 9, op := op, sub := 3, addr := a, len := 8, tag := 77, data := d }

/-- Module 3 with port 2 up, with requests received, and partition 3 joined with partition 9 of module 7. -/
def sFab (l : List FabMsg) : State :=
  { s5 with
    parts := [(3, { part3 with joins := [(7, 9)], dom := {} })]
    chr := { modIdx := 3, route := .replicate 64 2, ports := .replicate 16 { state := 2, txSeq := 5, rxSeq := 6 }, inbox := l } }

/-- The last 8 bytes of the joined partition's granules are accepted and those behind them are not; an atomic on words of 8 bytes. -/
theorem witness_ForeignRequests : let r := req7 1 0x100100 []
    let top := 2 * 2 ^ 25 - 8
    Memory.wf s5.mem ∧ LeavesBy (sFab [r]) r 1 ∧ r.op < 16 ∧ Received (sFab [r]) 1 0 r ∧ Accepted (sFab [r]) r 0x100100
    ∧ (acceptedBy (sFab []) (req7 1 top []) ≠ none ∧ acceptedBy (sFab []) (req7 1 (top + 8) []) = none
      ∧ acceptedBy (sFab []) (req7 1 (top + 1) []) = none)
    ∧ acceptedBy (sFab []) { r with part := 8 } = none
    ∧ (farAmo 3).isSome = true ∧ ((sFab []).partAt 3).dom.en = false :=
  ⟨by decide, ⟨by decide, rfl⟩, by decide, ⟨rfl, rfl, fun _ j _ h => absurd h (Nat.not_lt_zero j)⟩,
    ⟨by decide, by decide, by decide, rfl, rfl⟩, by decide, by decide, by decide, by decide⟩


theorem witness_ForeignRequests_root : let s : State :=
      { sFab [] with
        mem := writeBytes [] 0x3000 (toBytes 8 (2 ^ 63 + 2 ^ 62 + 3 * 2 ^ 56))
        pcie := { en := true, xbase := 0x3000 } }
    NoneWaits s 0 ∧ RootReaches s 0 (2 * 2 ^ 25 - 4) 4 ∧ regionOf s (2 * 2 ^ 25) = .own ∧ ownerOf s (2 * 2 ^ 25) ≠ 3
    ∧ writesOut s 0 = false ∧ (entryOk s 1 = false ∧ entryPart s 1 = 0) ∧ partOf s 5 = entryPart s 0
    ∧ ({ s with pcie := { s.pcie with en := false } }).pcie.en = false :=
  ⟨fun _ h => absurd h List.not_mem_nil, ⟨rfl, by decide, by decide, by decide, by decide, ⟨⟨rfl, rfl, rfl, rfl, rfl⟩, rfl⟩, rfl⟩,
    by decide, by decide, by decide, by decide, by decide, rfl⟩

/-- A Data response for a request in flight; a request that is abandoned at 1 ms and not before; a held message with a port; the
fifteenth replay in a row and the sixteenth; the largest header. -/
theorem witness_FabricLinks :
    let r : Remote := { tag := 77, hart := 5, part := 3, kind := 1, addr := 7 * 2 ^ 40 + 0x100100, len := 8, port := 1, since := 100 }
    let d := req7 0x10 0x100100 [1, 2, 3, 4, 5, 6, 7, 8]
    let s : State := { sFab [d] with coh := { remote := [r] } }
    Received s 0x10 0 d ∧ askedBy s d = some r ∧ d.data.length = r.len
    ∧ (r.late 100099 = false ∧ r.late 100100 = true)
    ∧ (exitPort s (req7 0x11 0x100100 []) = some 1)
    ∧ ((s.chr.port 1).state = 2 ∧ (s.chr.port 1).replays < 15 ∧ flitOk [] = false) :=
  ⟨⟨rfl, rfl, fun h => absurd h (by decide)⟩, by decide, rfl, by decide, by decide, by decide⟩

/-- A flit with the next number and one with a reserved TYPE: 3 is the last that is no error, 4 the first that is. -/
theorem witness_FabricLinks_flits : let h (t : Nat) : FlitHead :=
      { seq := 7, ackSeq := 4, replay := false, ackV := false, srcMod := 7, srcPart := 9, dstMod := 3, cls := 5, type := t, credit := 2, nmsg := 1 }
    let y : Port := { state := 2, txSeq := 5, rxSeq := 6 }
    bv 12 (flitHead (h 1).word).seq = y.rxSeq + 1 ∧ (flitHead (h 1).word).type = 1 ∧ (flitHead (h 4).word).type = 4
    ∧ (flitHead (h 1).word).replay = false ∧ (flitHead (h 1).word).ackV = false ∧ y.resent < 16 := by
  decide

/-! ### The management port, starts, power -/

/-- A package with a session, one operator key and one firmware key, whose signatures are cheap to check. -/
def sNov : State := { s5 with nov := { operators := [(1, 0)], fwKey := (1, 0), sessions := [⟨7, 41, []⟩] } }
/-- IDENT of session 7, SEQ 42, after the addresses. -/
def identFrame : List Byte :=
  toBytesBE 122 0x88b55a4e010200000000000000070000002a0000000000000000b895507a01bd8675cc720bd936da8ae05a01ccdbb9b53bb63f3538cf0f08710e11f203cc9b8e716bc706668ddf8b6019e60035de58759f4ad61acf26efc24c4c620b459010f7ec9b3311efe012ee81c9d9ee747fc41ee04b80de44d227005c2f
/-- OPEN with a nonce of 48 bytes. -/
def openFrame : List Byte :=
  toBytesBE 170 0x88b55a4e010100000000000000000000002900000030000000000102030405060708090a0b0c0d0e0f101112131415161718191a1b1c1d1e1f202122232425262728292a2b2c2d2e2f3067f39a3c9bc8fe5e39d3f1ae12eab17f32e370dcaa1ddc241a9c581ecd3c93975eb1ca91b24ba1620d0f66a431f1ff6d6738933d84de1d0c61cbf31b89a4b7187fbb2eaa82784b6b626c754c4c59e7cdb7be3be0c0e805f97dee57666922e934
/-- A system-core image of version 6. -/
def image6 : List Byte :=
  toBytesBE 272 0x010000000600000010000000080000009b5cd6642eedb146c00b494bf709c53d514e389b7ebc883d8f37ef6e0119b83031519d45129998d110d01370c237f0ea000000000000000000000000000000000000000000000000000000000000000000000000000000000000000000000000000000000000000000000000000000000000000000000000000000000000000000000000000000000000000000000000b895507a01bd8675cc720bd936da8ae05a01ccdbb9b53bb63f3538cf0f08710e11f203cc9b8e716bc706668ddf8b6019e5794a27b2d8942b05ebefb214d90af5682623106ffe35afce9b890828f146f890bd95e95926fa6e7bd2c9c1cb1caf8c0102030405060708090a0b0c0d0e0f10

theorem witness_Management : InSession sNov 2 (frameOf 0 5 identFrame) :=
  ⟨by decide, ⟨⟨7, 41, []⟩, List.mem_singleton.2 rfl, by decide, by decide⟩⟩

/-- Three sessions leave room for a fourth, four do not; the smallest version is met and not met. -/
theorem witness_Management_open : let s (n : Nat) : State := { sNov with nov := { sNov.nov with sessions := (List.range n).map (fun k => ⟨k, 0, []⟩) } }
    takesUp (s 3) 1 (frameOf 0 5 openFrame) = true ∧ (requestOf (frameOf 0 5 openFrame)).body.length = 48
    ∧ (s 3).nov.sessions.length < 4 ∧ 4 ≤ (s 4).nov.sessions.length := by
  decide

theorem witness_Management_image : imageGood sNov.nov.fwKey 1 image6 = true ∧ (6 ≤ imageSvn image6 ∧ imageSvn image6 < 7)
    ∧ (sNov.partAt 3).state = 2 ∧ (sNov.partAt 4).state ≠ 2 ∧ (63 < 64 ∧ ¬ 64 < 64) := by
  decide

/-- The next state of a partition that can be built, and one that holds a granule of another. -/
theorem witness_Management_build :
    canBuild sNov 4 { state := 2, cl := 2, granules := [5], noc := 8, key := 1 } = true
    ∧ canBuild sNov 4 { state := 2, cl := 2, granules := [1], noc := 8, key := 1 } = false := by
  decide

/-- Power comes on with three good images, FAILCNT 2, the last that starts; FAILCNT 3; no reason to start. -/
theorem witness_Starts_wanted : let s (p : Pkg) : State := { sNov with pkg := p }
    ¬ ((s { startDue := false }).pkg.powered = false ∨ (s { startDue := false }).pkg.coldReq = true
      ∨ (s { startDue := false }).pkg.warmReq = true ∨ (s { startDue := false }).pkg.startDue = true)
    ∧ (s { startDue := true, failCnt := 2 }).pkg.failCnt ≠ 3
    ∧ ((s { startDue := true, failCnt := 3 }).pkg.failCnt = 3 ∧ (s { startDue := true, failCnt := 3 }).nov.recovered = false)
    ∧ imageGood sNov.nov.fwKey 0 ((sNov.nov.fw[0]).begin false).image = false
    ∧ (1 + 12000000000 ≤ 12000000001 ∧ ¬ 1 + 12000000000 ≤ 12000000000) := by
  decide


/-- Images of the other two kinds. -/
def image0 : List Byte :=
  toBytesBE 272 0x000000000600000010000000000000009b5cd6642eedb146c00b494bf709c53d514e389b7ebc883d8f37ef6e0119b83031519d45129998d110d01370c237f0ea000000000000000000000000000000000000000000000000000000000000000000000000000000000000000000000000000000000000000000000000000000000000000000000000000000000000000000000000000000000000000000000000e9af3a494fcd08ce91b54c5852efdcadd1bf33c1c84636da06f6eef0ca4f6292221feb7a2b35bc54c67959506903a406f1aa304914020b38e733d31bcab2d5e6657a45e9eb7e322ccb1c90653417a673946ae785a491f5d4e625619524b9c7510102030405060708090a0b0c0d0e0f10
def image2 : List Byte :=
  toBytesBE 272 0x020000000600000010000000000000009b5cd6642eedb146c00b494bf709c53d514e389b7ebc883d8f37ef6e0119b83031519d45129998d110d01370c237f0ea000000000000000000000000000000000000000000000000000000000000000000000000000000000000000000000000000000000000000000000000000000000000000000000000000000000000000000000000000000000000000000000000e9af3a494fcd08ce91b54c5852efdcadd1bf33c1c84636da06f6eef0ca4f6292221feb7a2b35bc54c67959506903a406cba2ce79cce734fd030d33b48557be7ba52412c5c8244aa50c9f220c3c236d4c1ca577fe195b3a7ce01220c403b201d20102030405060708090a0b0c0d0e0f10

theorem witness_Starts : imageGood sNov.nov.fwKey 0 (Firmware.begin { slot0 := image0 } false).image = true
    ∧ imageGood sNov.nov.fwKey 1 (Firmware.begin { slot0 := image6 } false).image = true
    ∧ imageGood sNov.nov.fwKey 2 (Firmware.begin { slot0 := image2 } false).image = true := by decide

/-- Power control with TH 800 and HYS 100 for class 0. -/
def power0 : Power := { cls := #v[0x00640320#32, 0, 0, 0] }

/-- The thresholds of class 0 meet: an allowance of TH sheds no more and one below it does; TH + HYS counts towards the release and one
below it does not. -/
theorem witness_PowerControl : (799 < power0.th 0 ∧ ¬ 800 < power0.th 0) ∧ (800 + power0.hys 0 ≤ 900 ∧ ¬ 800 + power0.hys 0 ≤ 899) := by
  decide

theorem witness_PowerControl_curve : power0.share = 0 ∧ ∀ q ∈ power0.curve.toList, bitOf q 63 = false := by
  refine ⟨rfl, fun q h => ?_⟩
  have e : q = 0 := by simpa [power0] using h
  rw [e]; decide

/-- A frame whose last two bytes hold the CRC of the others. -/
def frame1 : BitVec 128 := 0xbdf4000003e800140000c35000000001

/-- A frame with a good CRC and one with another; 300 µs without a frame; the end of a grace; an island that is still; the sixteenth
replay in a row. -/
theorem witness_PowerControl_events : let s (t : Nat) : State := { s5 with ticks := t, power := { link := true, lastAt := 50, shedAt := #v[some 0, none, none, none] } }
    frameOk frame1 = true ∧ frameOk (frame1 + 1) = false
    ∧ (50 + 30000 ≤ (s 30050).ticks ∧ ¬ 50 + 30000 ≤ (s 30049).ticks)
    ∧ (0 + 100 * (s 0).power.grace.toNat ≤ (s (100 * (s 0).power.grace.toNat)).ticks)
    ∧ coreIsland 9 = true ∧ islandStill (s 0) 9 = true ∧ 9 ∉ (s 0).power.retained
    ∧ (let l := { s5 with pkg := { links := [(0, 15), (1, 16)], startDue := false } }
       ¬ 16 ≤ replaysOf l 0 ∧ 16 ≤ replaysOf l 1 ∧ 6 < 7 ∧ 6 ∉ l.pkg.retraining) := by
  decide

/-- A hart of island 0 held for a class that is shed no more goes on; one whose task's class is still shed does not. -/
theorem witness_PowerControl_start : let x (c : Word) : Hart :=
      { hart5 with ctl := { parked := true, pcause := 4, heldShed := true, shedClass := 0 }, dev := { task := 7, chan := c } }
    let s (c : Word) : State := { pack (x c) with power := { shed := 2, releasing := [0], retained := [0] } }
    5 ∈ islandHarts 0 ∧ (∀ k ∈ (s 0).power.releasing, 0 ≤ k)
    ∧ (s 0).power.shed.getLsbD ((s 0).hartAt 5).pclass = false ∧ (s 0x2000).power.shed.getLsbD ((s 0x2000).hartAt 5).pclass = true
    ∧ isDead (s 0) 5 = false := by
  decide

/-- A busy cluster; one that is quiet, and one with a running hart; the last cluster and the number behind it. -/
theorem witness_ClusterQuiesce : let s (x : ClusterSt) (h : Hart) : State := { pack h with clusters := [(0, x)] }
    let still : Hart := { Hart.init 5 with ctl := { parked := true } }
    (143 < 144 ∧ ¬ 144 < 144) ∧ ((s { busy := true } still).clusterAt 0).busy = true
    ∧ quiet (s { req := true } still) 0 = true ∧ quiet (s { req := true } hart5) 0 = false
    ∧ ((s { req := true } hart5).clusterAt 0).req = true ∧ ((s { clkOff := true } still).clusterAt 0).clkOff = true
    ∧ ((s { mode := 1 } still).clusterAt 0).mode ≠ 0 := by
  decide

/-! ### Steps, invariants, encodings -/

/-- Hart 5 is to take its turn at an add in its buffer. -/
def sTurn : State := pack { hart5 with run := { fetch := [(0x1000, 0x003100b3)] } }

theorem witness_StepRunsDecoded : Turns sTurn ∧ sTurn.sched = [] ∧ fetchWord sTurn = .ok 0x003100b3 sTurn :=
  ⟨⟨rfl, rfl, by decide, by decide, by decide, by decide, by decide, by decide, by decide⟩, rfl, rfl⟩

/-- A word that decodes to nothing; an event of the schedule; a start that is due; an interrupt that is due. -/
theorem witness_StepRunsDecoded_others : (∃ e, decode 0 = .error e)
    ∧ encode (.telemetryLinkLoss) = none ∧ (dueEvent { s5 with pkg := { startDue := false, links := [(1, 16)] } }).isSome = true
    ∧ (let m := pack { hart5 with csr := { hart5.csr with mstatus := 8, mie := 0xFFF, mipSw := 2 } }
       dueEvent m = none ∧ ownChange m = none ∧ m.cur < agentCount ∧ clockStopped m m.cur = false ∧ interruptible m m.cur = true
       ∧ (irqDue m m.cur).isSome = true) :=
  ⟨⟨_, rfl⟩, rfl, by decide, by decide, by decide, by decide, by decide, by decide, by decide⟩

/-- The word at PC comes from memory. -/
theorem witness_StepRunsDecoded_fetch : FetchesAt s5 0x1000 := ⟨by decide, by decide, by decide, rfl, rfl, rfl⟩

/-- Memory after reset and after a store. -/
theorem witness_MemoryStaysCanonical : Memory.wf State.reset.mem ∧ Memory.wf (writeBytes State.reset.mem 0x100 [1, 0, 2])
    ∧ readByte (writeBytes State.reset.mem 0x100 [1, 0, 2]) 0x102 = 2 := by decide

/-- VL at VLMAX is legal and one more is not. -/
theorem witness_LengthsStayLegal : LengthOk (vec5 0x20002 (vlmax 0x20002)).hart ∧ ¬ LengthOk (vec5 0x20002 (vlmax 0x20002 + 1)).hart := by
  unfold LengthOk; decide

theorem witness_EncodingRoundTrip : (Instr.vadd (fl 0 0 0 1 2 3)).wellFormed = true ∧ encode (.vadd (fl 0 0 0 1 2 3)) = some 0x001101DB
    ∧ decode 0x001101DB = .ok (.vadd (fl 0 0 0 1 2 3)) := ⟨by decide, by decide, rfl⟩

/-- Form 2 is the last of major A. -/
theorem witness_MajorAEncoding : ([Instr.vadd, .vsub, .vrsub, .vadc, .vsbc, .vmul, .vmulh, .vmulhz] : List (Fld → Instr))[7]? = some .vmulhz
    ∧ (2 < 3 ∧ ¬ 3 < 3) := ⟨rfl, by decide⟩


/-! ## Decoding: words written out by hand

The standard words are written from the RISC-V encodings that R15 and R52 name; the others are the words that the spec's own
worked examples give with their encodings. -/

/-- Integer words of RV64I, M, Zba and Zbb (R15, R52). -/
theorem test_decode_integers :
    decode 0x003100B3 = .ok (.riscvInstruction (.op .add 1 2 3))
    ∧ decode 0x00000013 = .ok (.riscvInstruction (.opImm .addi 0 0 0))
    ∧ decode 0x123452B7 = .ok (.riscvInstruction (.lui 5 0x12345))
    ∧ decode 0x00001297 = .ok (.riscvInstruction (.auipc 5 1))
    ∧ decode 0x03F09093 = .ok (.riscvInstruction (.shImm .slli 1 1 63))
    ∧ decode 0x023100B3 = .ok (.riscvInstruction (.op .mul 1 2 3))
    ∧ decode 0x203120B3 = .ok (.riscvInstruction (.op .sh1add 1 2 3))
    ∧ decode 0x60011093 = .ok (.riscvInstruction (.unary .clz 1 2))
    ∧ decode 0x6B815093 = .ok (.riscvInstruction (.unary .rev8 1 2)) := by decide

/-- Jumps, branches, loads, stores and environment calls (R15, R52). -/
theorem test_decode_jumps_and_memory :
    decode 0x008000EF = .ok (.riscvInstruction (.jal 1 4))
    ∧ decode 0x00008067 = .ok (.riscvInstruction (.jalr 0 1 0))
    ∧ decode 0x00208863 = .ok (.riscvInstruction (.branch .eq 1 2 8))
    ∧ decode 0x00452283 = .ok (.riscvInstruction (.load .lw 5 10 4))
    ∧ decode 0x1085B303 = .ok (.riscvInstruction (.load .ld 6 11 264))
    ∧ decode 0x1055B023 = .ok (.riscvInstruction (.store .sd 5 11 256))
    ∧ decode 0x0FF0000F = .ok (.riscvInstruction (.fence 0 15 15 0 0))
    ∧ decode 0x00000073 = .ok (.riscvInstruction .ecall)
    ∧ decode 0x00100073 = .ok (.riscvInstruction .ebreak) := by decide

/-- Scalar floating-point words (R15, R52). -/
theorem test_decode_floats :
    decode 0x003100D3 = .ok (.riscvInstruction (.farith .add .s 1 2 3 0))
    ∧ decode 0x223170C3 = .ok (.riscvInstruction (.fma .madd .d 1 2 3 4 7))
    ∧ decode 0xC20110D3 = .ok (.riscvInstruction (.fcvtToInt .w .d 1 2 1))
    ∧ decode 0xE00100D3 = .ok (.riscvInstruction (.fmvToX .s 1 2))
    ∧ decode 0x00452287 = .ok (.riscvInstruction (.fload .s 5 10 4))
    ∧ decode 0x00553427 = .ok (.riscvInstruction (.fstore .d 5 10 8)) := by decide

/-- Atomics, CSR accesses and privileged words (R15, R52). -/
theorem test_decode_system :
    decode 0x100532AF = .ok (.lr .w64 0 0 10 5)
    ∧ decode 0x186522AF = .ok (.sc .w32 0 0 6 10 5)
    ∧ decode 0x066522AF = .ok (.amo .add .w32 1 1 6 10 5)
    ∧ decode 0xC0102EF3 = .ok (.csrAccess .rs false 0xC01 0 29)
    ∧ decode 0x3001D2F3 = .ok (.csrAccess .rw true 0x300 3 5)
    ∧ decode 0x0000100F = .ok (.fenceI 0 0 0)
    ∧ decode 0x30200073 = .ok (.xret true)
    ∧ decode 0x10200073 = .ok (.xret false)
    ∧ decode 0x10500073 = .ok .wfi
    ∧ decode 0x12B50073 = .ok (.sfenceVma 11 10) := by decide

/-- Words of tasks, tickets and barriers in the spec's examples. -/
theorem test_decode_examples_tasks :
    decode 0x0005850B = .ok (.tspawn (sf 0 0 11 10))
    ∧ decode 0x1205850B = .ok (.tspawnp (sf 1 0 11 10))
    ∧ decode 0x2000000B = .ok (.tnext (sf 0 0 0 0))
    ∧ decode 0x3000000B = .ok (.tyield (sf 0 0 0 0))
    ∧ decode 0x4005800B = .ok (.tblock (sf 0 0 11 0))
    ∧ decode 0x5005800B = .ok (.tunblock (sf 0 0 11 0))
    ∧ decode 0x6005850B = .ok (.tticket (sf 0 0 11 10))
    ∧ decode 0x74C5850B = .ok (.tcommit (sf 2 12 11 10))
    ∧ decode 0x8005850B = .ok (.tqstat (sf 0 0 11 10))
    ∧ decode 0x0000150B = .ok (.darrive (sf 0 0 0 10))
    ∧ decode 0x2600150B = .ok (.dbar (sf 3 0 0 10))
    ∧ decode 0x3000150B = .ok (.dphase (sf 0 0 0 10)) := by decide

/-- Words of streams, leases, waits, kicks and messages in the spec's examples. -/
theorem test_decode_examples_streams :
    decode 0x1200350B = .ok (.savail (sf 1 0 0 10))
    ∧ decode 0x2200350B = .ok (.sres (sf 1 0 0 10))
    ∧ decode 0x3200300B = .ok (.sclose (sf 1 0 0 0))
    ∧ decode 0x0003500B = .ok (.unlease (sf 0 0 6 0))
    ∧ decode 0x3F03400B = .ok (.lease (lf 63 0 6 0))
    ∧ decode 0x16C5D50B = .ok (.swait (sf 3 12 11 10))
    ∧ decode 0x26E7D00B = .ok (.mkick (sf 3 14 15 0))
    ∧ decode 0x28E7D00B = .ok (.mkick (sf 4 14 15 0))
    ∧ decode 0x30C5D50B = .ok (.hmsg (sf 0 12 11 10))
    ∧ decode 0x5000500B = .ok (.uiret (sf 0 0 0 0)) := by decide

/-- Window and Crown words in the spec's examples. -/
theorem test_decode_examples_cluster :
    decode 0x0084926B = .ok (.wacc (fl 0 0 0 8 9 4))
    ∧ decode 0x000020EB = .ok (.wmerge (fl 0 0 0 0 0 1))
    ∧ decode 0x000030EB = .ok (.wdrop (fl 0 0 0 0 0 1))
    ∧ decode 0x0000C56B = .ok (.wstat (fl 0 0 0 0 1 10))
    ∧ decode 0x0000606B = .ok (.mdetach (fl 0 0 0 0 0 0))
    ∧ decode 0x02D6706B = .ok (.mload (fl 0 0 1 13 12 0))
    ∧ decode 0x44B500EB = .ok (.mmac (fl 0 0 2 11 10 1))
    ∧ decode 0x4000106B = .ok (.mzero (fl 0 0 0 0 0 0))
    ∧ decode 0x4000A26B = .ok (.mread (fl 0 0 0 0 1 4))
    ∧ decode 0x404030EB = .ok (.mwrite (fl 0 0 0 4 0 1))
    ∧ decode 0x4000406B = .ok (.msync (fl 0 0 0 0 0 0)) := by decide

/-- Vector words in the spec's examples. -/
theorem test_decode_examples_vector :
    decode 0x028560AB = .ok (.vwait (fl 0 0 1 8 10 1))
    ∧ decode 0x4006022B = .ok (.vst (fl 0 0 0 0 12 4))
    ∧ decode 0x0285222B = .ok (.vldx (fl 0 0 1 8 10 4))
    ∧ decode 0x0000D12B = .ok (.sld (fl 0 0 0 0 1 2))
    ∧ decode 0x86300ED7 = .ok (.mpop (fl 0 0 3 3 0 29))
    ∧ decode 0xC410C1D7 = .ok (.mshl (fl 0 0 2 1 1 3))
    ∧ decode 0x101131DB = .ok (.vadc (fl 1 0 0 1 2 3))
    ∧ decode 0x143031DB = .ok (.vadc (fl 1 0 2 3 0 3))
    ∧ decode 0xD31372D7 = .ok (.vcfgi (cf 1 17 6 5))
    ∧ decode 0x0682F27B = .ok (.mxpack (fl 0 0 3 8 5 4))
    ∧ decode 0xC202A47B = .ok (.plmul (fl 0 0 1 0 5 8))
    ∧ decode 0x01063477 = .ok (.txs (fl 0 0 0 16 12 8)) := by decide

/-- Words with no meaning are rejected: all zeros and all ones, a word of another length. -/
theorem test_decode_rejects :
    (decode 0).toOption = none ∧ (decode 0xFFFFFFFF).toOption = none ∧ (decode 0x0000007F).toOption = none
    ∧ decodeTableWord 32 0x003100B3 = some (.riscvInstruction (.op .add 1 2 3)) := by decide

/-! ## Ill-formed terms -/

/-- Forms, sub-operations and registers that no word of the instruction has (R55, R60-R67). -/
theorem test_illformed_forms :
    ([Instr.vadd (fl 0 0 3 1 2 3), Instr.vslup (fl 0 0 0 1 2 3), Instr.vslup (fl 0 0 3 1 2 3), Instr.vbcast (fl 0 0 0 0 2 3),
      Instr.vxget (fl 0 0 0 1 2 3), Instr.mshl (fl 0 0 3 1 1 3), Instr.vldx (fl 0 0 3 8 10 4), Instr.vfcvt (fl 0 0 3 2 10 4),
      Instr.vfround (fl 0 0 3 2 5 4), Instr.vfround (fl 0 0 3 2 6 4), Instr.mxpack (fl 0 0 3 8 4 4), Instr.vmerge (fl 0 0 0 1 2 3),
      Instr.vcomp (fl 0 0 3 2 0 4), Instr.vexpd (fl 0 0 3 2 0 4), Instr.vwiden (fl 1 0 3 2 3 4), Instr.vnarrow (fl 1 0 3 2 3 4),
      Instr.vsext (fl 1 0 3 2 3 4), Instr.vldseg (fl 0 0 0 0 10 4), Instr.vldseg (fl 0 0 0 8 10 4), Instr.vstseg (fl 0 0 0 0 10 4),
      Instr.vstseg (fl 0 0 0 8 10 4)] : List Instr).all (fun i => !i.wellFormed) = true := by decide

/-- Registers and fields of the other majors (R56-R58, R66), and of the standard words. -/
theorem test_illformed_scalar :
    ([Instr.wacc (fl 0 0 0 8 9 28), Instr.mattach (fl 0 0 0 0 0 0), Instr.mattach (fl 0 0 0 0 9 0), Instr.sopen (sf 0 0 10 3),
      Instr.ordSv (sf 6 0 0 0), Instr.ordVs (sf 6 0 0 0), Instr.ordVv (sf 6 0 0 0), Instr.ordAll (sf 6 0 0 0), Instr.mkick (sf 6 14 15 0),
      Instr.riscvInstruction (.shImm .slliw 1 1 32), Instr.riscvInstruction (.farith .add .s 1 2 3 5)] : List Instr).all
      (fun i => !i.wellFormed) = true := by decide

/-! ## Decoding: every row of the opcode table with a word -/

/-- Words of the opcode table's encodings: vadd, vsub, vrsub, vadc, vsbc, vmul, vmulh, vmulhz. -/
theorem test_decode_majorA_1 :
    decode 0x2B9B09DB = .ok (.vadd (fl 2 1 1 25 22 19))
    ∧ decode 0x2B9B19DB = .ok (.vsub (fl 2 1 1 25 22 19))
    ∧ decode 0x2B9B29DB = .ok (.vrsub (fl 2 1 1 25 22 19))
    ∧ decode 0x2B9B39DB = .ok (.vadc (fl 2 1 1 25 22 19))
    ∧ decode 0x2B9B49DB = .ok (.vsbc (fl 2 1 1 25 22 19))
    ∧ decode 0x2B9B59DB = .ok (.vmul (fl 2 1 1 25 22 19))
    ∧ decode 0x2B9B69DB = .ok (.vmulh (fl 2 1 1 25 22 19))
    ∧ decode 0x2B9B79DB = .ok (.vmulhz (fl 2 1 1 25 22 19)) := by decide
/-- Words of the opcode table's encodings: vmacc, vnmsac, vdiv, vdivz, vrem, vremz, vmin, vminz. -/
theorem test_decode_majorA_2 :
    decode 0x6B9B09DB = .ok (.vmacc (fl 2 1 1 25 22 19))
    ∧ decode 0x6B9B19DB = .ok (.vnmsac (fl 2 1 1 25 22 19))
    ∧ decode 0x6B9B29DB = .ok (.vdiv (fl 2 1 1 25 22 19))
    ∧ decode 0x6B9B39DB = .ok (.vdivz (fl 2 1 1 25 22 19))
    ∧ decode 0x6B9B49DB = .ok (.vrem (fl 2 1 1 25 22 19))
    ∧ decode 0x6B9B59DB = .ok (.vremz (fl 2 1 1 25 22 19))
    ∧ decode 0x6B9B69DB = .ok (.vmin (fl 2 1 1 25 22 19))
    ∧ decode 0x6B9B79DB = .ok (.vminz (fl 2 1 1 25 22 19)) := by decide
/-- Words of the opcode table's encodings: vmax, vmaxz, vsadd, vsaddz, vssub, vssubz, vavg, vabsd. -/
theorem test_decode_majorA_3 :
    decode 0xAB9B09DB = .ok (.vmax (fl 2 1 1 25 22 19))
    ∧ decode 0xAB9B19DB = .ok (.vmaxz (fl 2 1 1 25 22 19))
    ∧ decode 0xAB9B29DB = .ok (.vsadd (fl 2 1 1 25 22 19))
    ∧ decode 0xAB9B39DB = .ok (.vsaddz (fl 2 1 1 25 22 19))
    ∧ decode 0xAB9B49DB = .ok (.vssub (fl 2 1 1 25 22 19))
    ∧ decode 0xAB9B59DB = .ok (.vssubz (fl 2 1 1 25 22 19))
    ∧ decode 0xAB9B69DB = .ok (.vavg (fl 2 1 1 25 22 19))
    ∧ decode 0xAB9B79DB = .ok (.vabsd (fl 2 1 1 25 22 19)) := by decide
/-- Words of the opcode table's encodings: vand, vor, vxor, vandn, vsll, vsrl, vsra, vrol. -/
theorem test_decode_majorA_4 :
    decode 0xEB9B09DB = .ok (.vand (fl 2 1 1 25 22 19))
    ∧ decode 0xEB9B19DB = .ok (.vor (fl 2 1 1 25 22 19))
    ∧ decode 0xEB9B29DB = .ok (.vxor (fl 2 1 1 25 22 19))
    ∧ decode 0xEB9B39DB = .ok (.vandn (fl 2 1 1 25 22 19))
    ∧ decode 0xEB9B49DB = .ok (.vsll (fl 2 1 1 25 22 19))
    ∧ decode 0xEB9B59DB = .ok (.vsrl (fl 2 1 1 25 22 19))
    ∧ decode 0xEB9B69DB = .ok (.vsra (fl 2 1 1 25 22 19))
    ∧ decode 0xEB9B79DB = .ok (.vrol (fl 2 1 1 25 22 19)) := by decide
/-- Words of the opcode table's encodings: vfadd, vfsub, vfmul, vfdiv, vfmadd, vfmsub, vfnmadd, vfnmsub. -/
theorem test_decode_majorF_1 :
    decode 0x2B9B09FB = .ok (.vfadd (fl 2 1 1 25 22 19))
    ∧ decode 0x2B9B19FB = .ok (.vfsub (fl 2 1 1 25 22 19))
    ∧ decode 0x2B9B29FB = .ok (.vfmul (fl 2 1 1 25 22 19))
    ∧ decode 0x2B9B39FB = .ok (.vfdiv (fl 2 1 1 25 22 19))
    ∧ decode 0x2B9B49FB = .ok (.vfmadd (fl 2 1 1 25 22 19))
    ∧ decode 0x2B9B59FB = .ok (.vfmsub (fl 2 1 1 25 22 19))
    ∧ decode 0x2B9B69FB = .ok (.vfnmadd (fl 2 1 1 25 22 19))
    ∧ decode 0x2B9B79FB = .ok (.vfnmsub (fl 2 1 1 25 22 19)) := by decide
/-- Words of the opcode table's encodings: vfmin, vfmax, vfsgnj, vfsgnjn, vfsgnjx, vfceq, vfclt, vfcle. -/
theorem test_decode_majorF_2 :
    decode 0x6B9B09FB = .ok (.vfmin (fl 2 1 1 25 22 19))
    ∧ decode 0x6B9B19FB = .ok (.vfmax (fl 2 1 1 25 22 19))
    ∧ decode 0x6B9B29FB = .ok (.vfsgnj (fl 2 1 1 25 22 19))
    ∧ decode 0x6B9B39FB = .ok (.vfsgnjn (fl 2 1 1 25 22 19))
    ∧ decode 0x6B9B49FB = .ok (.vfsgnjx (fl 2 1 1 25 22 19))
    ∧ decode 0x6B9B51FB = .ok (.vfceq (fl 2 1 1 25 22 3))
    ∧ decode 0x6B9B61FB = .ok (.vfclt (fl 2 1 1 25 22 3))
    ∧ decode 0x6B9B71FB = .ok (.vfcle (fl 2 1 1 25 22 3)) := by decide
/-- Words of the opcode table's encodings: vfredsum, vfredtree, vfredmin, vfredmax, mxdot, pladd, plsub, plmul. -/
theorem test_decode_majorF_3 :
    decode 0xAB9B09FB = .ok (.vfredsum (fl 2 1 1 25 22 19))
    ∧ decode 0xAB9B19FB = .ok (.vfredtree (fl 2 1 1 25 22 19))
    ∧ decode 0xAB9B29FB = .ok (.vfredmin (fl 2 1 1 25 22 19))
    ∧ decode 0xAB9B39FB = .ok (.vfredmax (fl 2 1 1 25 22 19))
    ∧ decode 0xA99B49FB = .ok (.mxdot (fl 2 1 0 25 22 19))
    ∧ decode 0xEB9B09FB = .ok (.pladd (fl 2 1 1 25 22 19))
    ∧ decode 0xEB9B19FB = .ok (.plsub (fl 2 1 1 25 22 19))
    ∧ decode 0xEB9B29FB = .ok (.plmul (fl 2 1 1 25 22 19)) := by decide
/-- Words of the opcode table's encodings: pldot, plcmp, vfsqrt, vfclass, vfrec, vfrsq, vfexp2, vfcvt. -/
theorem test_decode_majorF_4 :
    decode 0xE99B39FB = .ok (.pldot (fl 2 1 0 25 22 19))
    ∧ decode 0xEB9B4EFB = .ok (.plcmp (fl 2 1 1 25 22 29))
    ∧ decode 0x2F9009FB = .ok (.vfsqrt (fl 2 1 3 25 0 19))
    ∧ decode 0x2F9019FB = .ok (.vfclass (fl 2 1 3 25 0 19))
    ∧ decode 0x2F9029FB = .ok (.vfrec (fl 2 1 3 25 0 19))
    ∧ decode 0x2F9039FB = .ok (.vfrsq (fl 2 1 3 25 0 19))
    ∧ decode 0x2F9049FB = .ok (.vfexp2 (fl 2 1 3 25 0 19))
    ∧ decode 0x2F9AD9FB = .ok (.vfcvt (fl 2 1 3 25 21 19)) := by decide
/-- Words of the opcode table's encodings: vfround, mxpack, mxunpack, plconv. -/
theorem test_decode_majorF_5 :
    decode 0x2F93E9FB = .ok (.vfround (fl 2 1 3 25 7 19))
    ∧ decode 0x2F9379FB = .ok (.mxpack (fl 2 1 3 25 6 19))
    ∧ decode 0x6F9389FB = .ok (.mxunpack (fl 2 1 3 25 7 19))
    ∧ decode 0x6F9519FB = .ok (.plconv (fl 2 1 3 25 10 19)) := by decide
/-- Words of the opcode table's encodings: vceq, vcne, vclt, vcltz, vcle, vclez, vcgt, vcgtz. -/
theorem test_decode_majorP_1 :
    decode 0x2B9B01D7 = .ok (.vceq (fl 2 1 1 25 22 3))
    ∧ decode 0x2B9B11D7 = .ok (.vcne (fl 2 1 1 25 22 3))
    ∧ decode 0x2B9B21D7 = .ok (.vclt (fl 2 1 1 25 22 3))
    ∧ decode 0x2B9B31D7 = .ok (.vcltz (fl 2 1 1 25 22 3))
    ∧ decode 0x2B9B41D7 = .ok (.vcle (fl 2 1 1 25 22 3))
    ∧ decode 0x2B9B51D7 = .ok (.vclez (fl 2 1 1 25 22 3))
    ∧ decode 0x2B9B61D7 = .ok (.vcgt (fl 2 1 1 25 22 3))
    ∧ decode 0x2B9B71D7 = .ok (.vcgtz (fl 2 1 1 25 22 3)) := by decide
/-- Words of the opcode table's encodings: vredsum, vredmin, vredminz, vredmax, vredmaxz, vredand, vredor, vredxor. -/
theorem test_decode_majorP_2 :
    decode 0x6B9B09D7 = .ok (.vredsum (fl 2 1 1 25 22 19))
    ∧ decode 0x6B9B19D7 = .ok (.vredmin (fl 2 1 1 25 22 19))
    ∧ decode 0x6B9B29D7 = .ok (.vredminz (fl 2 1 1 25 22 19))
    ∧ decode 0x6B9B39D7 = .ok (.vredmax (fl 2 1 1 25 22 19))
    ∧ decode 0x6B9B49D7 = .ok (.vredmaxz (fl 2 1 1 25 22 19))
    ∧ decode 0x6B9B59D7 = .ok (.vredand (fl 2 1 1 25 22 19))
    ∧ decode 0x6B9B69D7 = .ok (.vredor (fl 2 1 1 25 22 19))
    ∧ decode 0x6B9B79D7 = .ok (.vredxor (fl 2 1 1 25 22 19)) := by decide
/-- Words of the opcode table's encodings: vslup, vsldn, vsl1up, vsl1dn, vgath, vmerge, vxput, vxget. -/
theorem test_decode_majorP_3 :
    decode 0xAB9B09D7 = .ok (.vslup (fl 2 1 1 25 22 19))
    ∧ decode 0xAB9B19D7 = .ok (.vsldn (fl 2 1 1 25 22 19))
    ∧ decode 0xAB9B29D7 = .ok (.vsl1up (fl 2 1 1 25 22 19))
    ∧ decode 0xAB9B39D7 = .ok (.vsl1dn (fl 2 1 1 25 22 19))
    ∧ decode 0xA89B49D7 = .ok (.vgath (fl 2 1 0 9 22 19))
    ∧ decode 0xAB9B59D7 = .ok (.vmerge (fl 2 1 1 25 22 19))
    ∧ decode 0x839B69D7 = .ok (.vxput (fl 0 0 1 25 22 19))
    ∧ decode 0x839B79D7 = .ok (.vxget (fl 0 0 1 25 22 19)) := by decide
/-- Words of the opcode table's encodings: mand, mor, mxor, mandn, mshl, vbcast, vcfg, vcfgi. -/
theorem test_decode_majorP_4 :
    decode 0xC06281D7 = .ok (.mand (fl 0 0 0 6 5 3))
    ∧ decode 0xC06291D7 = .ok (.mor (fl 0 0 0 6 5 3))
    ∧ decode 0xC062A1D7 = .ok (.mxor (fl 0 0 0 6 5 3))
    ∧ decode 0xC062B1D7 = .ok (.mandn (fl 0 0 0 6 5 3))
    ∧ decode 0xC26B41D7 = .ok (.mshl (fl 0 0 1 6 22 3))
    ∧ decode 0xEA0B59D7 = .ok (.vbcast (fl 2 1 1 0 22 19))
    ∧ decode 0xC19B79D7 = .ok (.vcfg (cf 0 25 22 19))
    ∧ decode 0xDAAB79D7 = .ok (.vcfgi (cf 5 10 22 19)) := by decide
/-- Words of the opcode table's encodings: vmov, vcomp, vexpd, vconf, viota, vidx, vwiden, vnarrow. -/
theorem test_decode_majorP_5 :
    decode 0x2F9009D7 = .ok (.vmov (fl 2 1 3 25 0 19))
    ∧ decode 0x2F9019D7 = .ok (.vcomp (fl 2 1 3 25 0 19))
    ∧ decode 0x2F9029D7 = .ok (.vexpd (fl 2 1 3 25 0 19))
    ∧ decode 0x2F9039D7 = .ok (.vconf (fl 2 1 3 25 0 19))
    ∧ decode 0x2E6049D7 = .ok (.viota (fl 2 1 3 6 0 19))
    ∧ decode 0x2E0059D7 = .ok (.vidx (fl 2 1 3 0 0 19))
    ∧ decode 0x2F9369D7 = .ok (.vwiden (fl 2 1 3 25 6 19))
    ∧ decode 0x2F9379D7 = .ok (.vnarrow (fl 2 1 3 25 6 19)) := by decide
/-- Words of the opcode table's encodings: vsext, vzext, vclz, vctz, vpopc, vbrev, mnot, mmov. -/
theorem test_decode_majorP_6 :
    decode 0x6F9109D7 = .ok (.vsext (fl 2 1 3 25 2 19))
    ∧ decode 0x6F9099D7 = .ok (.vzext (fl 2 1 3 25 1 19))
    ∧ decode 0x6F9029D7 = .ok (.vclz (fl 2 1 3 25 0 19))
    ∧ decode 0x6F9039D7 = .ok (.vctz (fl 2 1 3 25 0 19))
    ∧ decode 0x6F9049D7 = .ok (.vpopc (fl 2 1 3 25 0 19))
    ∧ decode 0x6F9059D7 = .ok (.vbrev (fl 2 1 3 25 0 19))
    ∧ decode 0x466061D7 = .ok (.mnot (fl 0 0 3 6 0 3))
    ∧ decode 0x466071D7 = .ok (.mmov (fl 0 0 3 6 0 3)) := by decide
/-- Words of the opcode table's encodings: mpop, mfirst, mvtom, mmtov. -/
theorem test_decode_majorP_7 :
    decode 0x866009D7 = .ok (.mpop (fl 0 0 3 6 0 19))
    ∧ decode 0x866019D7 = .ok (.mfirst (fl 0 0 3 6 0 19))
    ∧ decode 0xAF9021D7 = .ok (.mvtom (fl 2 1 3 25 0 3))
    ∧ decode 0xAE6039D7 = .ok (.mmtov (fl 2 1 3 6 0 19)) := by decide
/-- Words of the opcode table's encodings: vld, vlds, vldx, vldseg, vldm, sld, vwait, vst. -/
theorem test_decode_majorM_1 :
    decode 0x299B09AB = .ok (.vld (fl 2 1 0 25 22 19))
    ∧ decode 0x299B19AB = .ok (.vlds (fl 2 1 0 25 22 19))
    ∧ decode 0x2B9B29AB = .ok (.vldx (fl 2 1 1 25 22 19))
    ∧ decode 0x283B39AB = .ok (.vldseg (fl 2 1 0 3 22 19))
    ∧ decode 0x000B41AB = .ok (.vldm (fl 0 0 0 0 22 3))
    ∧ decode 0x2800D9AB = .ok (.sld (fl 2 1 0 0 1 19))
    ∧ decode 0x2B9B61AB = .ok (.vwait (fl 2 1 1 25 22 3))
    ∧ decode 0x699B09AB = .ok (.vst (fl 2 1 0 25 22 19)) := by decide
/-- Words of the opcode table's encodings: vsts, vstx, vstxa, vstseg, vstm. -/
theorem test_decode_majorM_2 :
    decode 0x699B19AB = .ok (.vsts (fl 2 1 0 25 22 19))
    ∧ decode 0x6B9B29AB = .ok (.vstx (fl 2 1 1 25 22 19))
    ∧ decode 0x6B9B39AB = .ok (.vstxa (fl 2 1 1 25 22 19))
    ∧ decode 0x683B49AB = .ok (.vstseg (fl 2 1 0 3 22 19))
    ∧ decode 0x400B51AB = .ok (.vstm (fl 0 0 0 0 22 3)) := by decide
/-- Words of the opcode table's encodings: wdecl, wacc, wmerge, wdrop, wstat, mattach, mdetach, mload. -/
theorem test_decode_majorK_1 :
    decode 0x039B00EB = .ok (.wdecl (fl 0 0 1 25 22 1))
    ∧ decode 0x299B1B6B = .ok (.wacc (fl 2 1 0 25 22 22))
    ∧ decode 0x000020EB = .ok (.wmerge (fl 0 0 0 0 0 1))
    ∧ decode 0x000030EB = .ok (.wdrop (fl 0 0 0 0 0 1))
    ∧ decode 0x0000C9EB = .ok (.wstat (fl 0 0 0 0 1 19))
    ∧ decode 0x0002D9EB = .ok (.mattach (fl 0 0 0 0 5 19))
    ∧ decode 0x0000606B = .ok (.mdetach (fl 0 0 0 0 0 0))
    ∧ decode 0x039B706B = .ok (.mload (fl 0 0 1 25 22 0)) := by decide
/-- Words of the opcode table's encodings: mmac, mzero, mread, mwrite, msync. -/
theorem test_decode_majorK_2 :
    decode 0x479B016B = .ok (.mmac (fl 0 0 3 25 22 2))
    ∧ decode 0x4000116B = .ok (.mzero (fl 0 0 0 0 0 2))
    ∧ decode 0x400129EB = .ok (.mread (fl 0 0 0 0 2 19))
    ∧ decode 0x4190316B = .ok (.mwrite (fl 0 0 0 25 0 2))
    ∧ decode 0x4000406B = .ok (.msync (fl 0 0 0 0 0 0)) := by decide
/-- Words of the opcode table's encodings: rboxt, rtrit, bbovl, txs, txg, txf, txlod. -/
theorem test_decode_majorG_1 :
    decode 0x299B09F7 = .ok (.rboxt (fl 2 1 0 25 22 19))
    ∧ decode 0x299B19F7 = .ok (.rtrit (fl 2 1 0 25 22 19))
    ∧ decode 0x299B29F7 = .ok (.bbovl (fl 2 1 0 25 22 19))
    ∧ decode 0x299B39F7 = .ok (.txs (fl 2 1 0 25 22 19))
    ∧ decode 0x299B49F7 = .ok (.txg (fl 2 1 0 25 22 19))
    ∧ decode 0x299B59F7 = .ok (.txf (fl 2 1 0 25 22 19))
    ∧ decode 0x299B69F7 = .ok (.txlod (fl 2 1 0 25 22 19)) := by decide
/-- Words of the opcode table's encodings: tspawn, tspawnp, tnext, tyield, tblock, tunblock, tticket, tcommit. -/
theorem test_decode_majorT_1 :
    decode 0x020B098B = .ok (.tspawn (sf 1 0 22 19))
    ∧ decode 0x120B098B = .ok (.tspawnp (sf 1 0 22 19))
    ∧ decode 0x2000000B = .ok (.tnext (sf 0 0 0 0))
    ∧ decode 0x3000000B = .ok (.tyield (sf 0 0 0 0))
    ∧ decode 0x400B000B = .ok (.tblock (sf 0 0 22 0))
    ∧ decode 0x500B000B = .ok (.tunblock (sf 0 0 22 0))
    ∧ decode 0x600B098B = .ok (.tticket (sf 0 0 22 19))
    ∧ decode 0x759B098B = .ok (.tcommit (sf 2 25 22 19)) := by decide
/-- Words of the opcode table's encodings: tqstat, darrive, dwait, dbar, dphase, ordSv, ordVs, ordVv. -/
theorem test_decode_majorT_2 :
    decode 0x800B098B = .ok (.tqstat (sf 0 0 22 19))
    ∧ decode 0x0000198B = .ok (.darrive (sf 0 0 0 19))
    ∧ decode 0x140B198B = .ok (.dwait (sf 2 0 22 19))
    ∧ decode 0x2400198B = .ok (.dbar (sf 2 0 0 19))
    ∧ decode 0x3000198B = .ok (.dphase (sf 0 0 0 19))
    ∧ decode 0x0A00200B = .ok (.ordSv (sf 5 0 0 0))
    ∧ decode 0x1800200B = .ok (.ordVs (sf 4 0 0 0))
    ∧ decode 0x2600200B = .ok (.ordVv (sf 3 0 0 0)) := by decide
/-- Words of the opcode table's encodings: ordAll, vdrain, sopen, savail, sres, sclose, lease, unlease. -/
theorem test_decode_majorT_3 :
    decode 0x3400200B = .ok (.ordAll (sf 2 0 0 0))
    ∧ decode 0x4000200B = .ok (.vdrain (sf 0 0 0 0))
    ∧ decode 0x079B310B = .ok (.sopen (sf 3 25 22 2))
    ∧ decode 0x1200398B = .ok (.savail (sf 1 0 0 19))
    ∧ decode 0x2200398B = .ok (.sres (sf 1 0 0 19))
    ∧ decode 0x3200300B = .ok (.sclose (sf 1 0 0 0))
    ∧ decode 0xAA0B4A8B = .ok (.lease (lf 170 0 22 21))
    ∧ decode 0x000B500B = .ok (.unlease (sf 0 0 22 0)) := by decide
/-- Words of the opcode table's encodings: swait, mkick, hmsg, park, uiret, vrep, pfx. -/
theorem test_decode_majorT_4 :
    decode 0x159B598B = .ok (.swait (sf 2 25 22 19))
    ∧ decode 0x299B500B = .ok (.mkick (sf 4 25 22 0))
    ∧ decode 0x319B598B = .ok (.hmsg (sf 0 25 22 19))
    ∧ decode 0x4000500B = .ok (.park (sf 0 0 0 0))
    ∧ decode 0x5000500B = .ok (.uiret (sf 0 0 0 0))
    ∧ decode 0x555AE20B = .ok (.vrep (vf 1365 21 2 0))
    ∧ decode 0x0350758B = .ok (.pfx (pf 0 1 21 0 2 1 1)) := by decide
/-! ## Ill-formed terms: every fixed field -/

/-- Fields that the encodings fix (R55, R57, R58, R60-R67). -/
theorem test_illformed_fixed_1 : ([Instr.vfadd (fl 2 1 3 25 22 19), Instr.vfsub (fl 2 1 3 25 22 19), Instr.vfmul (fl 2 1 3 25
    22 19), Instr.vfdiv (fl 2 1 3 25 22 19), Instr.vfmadd (fl 2 1 3 25 22 19), Instr.vfmsub (fl 2 1 3 25 22 19),
    Instr.vfnmadd (fl 2 1 3 25 22 19), Instr.vfnmsub (fl 2 1 3 25 22 19), Instr.vfmin (fl 2 1 3 25 22 19), Instr.vfmax (fl 2
    1 3 25 22 19), Instr.vfsgnj (fl 2 1 3 25 22 19), Instr.vfsgnjn (fl 2 1 3 25 22 19), Instr.vfsgnjx (fl 2 1 3 25 22 19),
    Instr.vfceq (fl 2 1 3 25 22 3), Instr.vfceq (fl 2 1 1 25 22 11), Instr.vfceq (fl 2 1 1 25 22 19), Instr.vfclt (fl 2 1 3
    25 22 3), Instr.vfclt (fl 2 1 1 25 22 11), Instr.vfclt (fl 2 1 1 25 22 19), Instr.vfcle (fl 2 1 3 25 22 3), Instr.vfcle
    (fl 2 1 1 25 22 11), Instr.vfcle (fl 2 1 1 25 22 19), Instr.vfredsum (fl 2 1 3 25 22 19), Instr.vfredtree (fl 2 1 3 25 22
    19)] : List Instr).all (fun i => !i.wellFormed) = true := by decide
/-- Fields that the encodings fix (R55, R57, R58, R60-R67). -/
theorem test_illformed_fixed_2 : ([Instr.vfredmin (fl 2 1 3 25 22 19), Instr.vfredmax (fl 2 1 3 25 22 19), Instr.mxdot (fl 2
    1 1 25 22 19), Instr.mxdot (fl 2 1 2 25 22 19), Instr.pladd (fl 2 1 3 25 22 19), Instr.plsub (fl 2 1 3 25 22 19),
    Instr.plmul (fl 2 1 3 25 22 19), Instr.pldot (fl 2 1 1 25 22 19), Instr.pldot (fl 2 1 2 25 22 19), Instr.plcmp (fl 2 1 3
    25 22 29), Instr.vfsqrt (fl 2 1 2 25 0 19), Instr.vfsqrt (fl 2 1 1 25 0 19), Instr.vfsqrt (fl 2 1 3 25 16 19),
    Instr.vfsqrt (fl 2 1 3 25 1 19), Instr.vfclass (fl 2 1 2 25 0 19), Instr.vfclass (fl 2 1 1 25 0 19), Instr.vfclass (fl 2
    1 3 25 16 19), Instr.vfclass (fl 2 1 3 25 1 19), Instr.vfrec (fl 2 1 2 25 0 19), Instr.vfrec (fl 2 1 1 25 0 19),
    Instr.vfrec (fl 2 1 3 25 16 19), Instr.vfrec (fl 2 1 3 25 1 19), Instr.vfrsq (fl 2 1 2 25 0 19), Instr.vfrsq (fl 2 1 1 25
    0 19)] : List Instr).all (fun i => !i.wellFormed) = true := by decide
/-- Fields that the encodings fix (R55, R57, R58, R60-R67). -/
theorem test_illformed_fixed_3 : ([Instr.vfrsq (fl 2 1 3 25 16 19), Instr.vfrsq (fl 2 1 3 25 1 19), Instr.vfexp2 (fl 2 1 2 25
    0 19), Instr.vfexp2 (fl 2 1 1 25 0 19), Instr.vfexp2 (fl 2 1 3 25 16 19), Instr.vfexp2 (fl 2 1 3 25 1 19), Instr.vfcvt
    (fl 2 1 2 25 21 19), Instr.vfcvt (fl 2 1 1 25 21 19), Instr.vfround (fl 2 1 2 25 7 19), Instr.vfround (fl 2 1 1 25 7 19),
    Instr.vfround (fl 2 1 3 25 15 19), Instr.vfround (fl 2 1 3 25 23 19), Instr.mxpack (fl 2 1 2 25 6 19), Instr.mxpack (fl 2
    1 1 25 6 19), Instr.mxpack (fl 2 1 3 25 22 19), Instr.mxunpack (fl 2 1 2 25 7 19), Instr.mxunpack (fl 2 1 1 25 7 19),
    Instr.mxunpack (fl 2 1 3 25 23 19), Instr.plconv (fl 2 1 2 25 10 19), Instr.plconv (fl 2 1 1 25 10 19), Instr.plconv (fl
    2 1 3 25 26 19), Instr.vceq (fl 2 1 1 25 22 11), Instr.vceq (fl 2 1 1 25 22 19), Instr.vcne (fl 2 1 1 25 22 11)] : List
    Instr).all (fun i => !i.wellFormed) = true := by decide
/-- Fields that the encodings fix (R55, R57, R58, R60-R67). -/
theorem test_illformed_fixed_4 : ([Instr.vcne (fl 2 1 1 25 22 19), Instr.vclt (fl 2 1 1 25 22 11), Instr.vclt (fl 2 1 1 25 22
    19), Instr.vcltz (fl 2 1 1 25 22 11), Instr.vcltz (fl 2 1 1 25 22 19), Instr.vcle (fl 2 1 1 25 22 11), Instr.vcle (fl 2 1
    1 25 22 19), Instr.vclez (fl 2 1 1 25 22 11), Instr.vclez (fl 2 1 1 25 22 19), Instr.vcgt (fl 2 1 1 25 22 11), Instr.vcgt
    (fl 2 1 1 25 22 19), Instr.vcgtz (fl 2 1 1 25 22 11), Instr.vcgtz (fl 2 1 1 25 22 19), Instr.vsl1up (fl 2 1 0 25 22 19),
    Instr.vsl1up (fl 2 1 3 25 22 19), Instr.vsl1dn (fl 2 1 0 25 22 19), Instr.vsl1dn (fl 2 1 3 25 22 19), Instr.vgath (fl 2 1
    1 9 22 19), Instr.vgath (fl 2 1 2 9 22 19), Instr.vxput (fl 1 0 1 25 22 19), Instr.vxput (fl 2 0 1 25 22 19), Instr.vxput
    (fl 0 1 1 25 22 19), Instr.vxput (fl 0 0 0 25 22 19), Instr.vxput (fl 0 0 3 25 22 19)] : List Instr).all (fun i =>
    !i.wellFormed) = true := by decide
/-- Fields that the encodings fix (R55, R57, R58, R60-R67). -/
theorem test_illformed_fixed_5 : ([Instr.vxget (fl 1 0 1 25 22 19), Instr.vxget (fl 2 0 1 25 22 19), Instr.vxget (fl 0 1 1 25
    22 19), Instr.mand (fl 1 0 0 6 5 3), Instr.mand (fl 2 0 0 6 5 3), Instr.mand (fl 0 1 0 6 5 3), Instr.mand (fl 0 0 1 6 5
    3), Instr.mand (fl 0 0 2 6 5 3), Instr.mand (fl 0 0 0 22 5 3), Instr.mand (fl 0 0 0 14 5 3), Instr.mand (fl 0 0 0 6 13
    3), Instr.mand (fl 0 0 0 6 21 3), Instr.mand (fl 0 0 0 6 5 11), Instr.mand (fl 0 0 0 6 5 19), Instr.mor (fl 1 0 0 6 5 3),
    Instr.mor (fl 2 0 0 6 5 3), Instr.mor (fl 0 1 0 6 5 3), Instr.mor (fl 0 0 1 6 5 3), Instr.mor (fl 0 0 2 6 5 3), Instr.mor
    (fl 0 0 0 22 5 3), Instr.mor (fl 0 0 0 14 5 3), Instr.mor (fl 0 0 0 6 13 3), Instr.mor (fl 0 0 0 6 21 3), Instr.mor (fl 0
    0 0 6 5 11)] : List Instr).all (fun i => !i.wellFormed) = true := by decide
/-- Fields that the encodings fix (R55, R57, R58, R60-R67). -/
theorem test_illformed_fixed_6 : ([Instr.mor (fl 0 0 0 6 5 19), Instr.mxor (fl 1 0 0 6 5 3), Instr.mxor (fl 2 0 0 6 5 3),
    Instr.mxor (fl 0 1 0 6 5 3), Instr.mxor (fl 0 0 1 6 5 3), Instr.mxor (fl 0 0 2 6 5 3), Instr.mxor (fl 0 0 0 22 5 3),
    Instr.mxor (fl 0 0 0 14 5 3), Instr.mxor (fl 0 0 0 6 13 3), Instr.mxor (fl 0 0 0 6 21 3), Instr.mxor (fl 0 0 0 6 5 11),
    Instr.mxor (fl 0 0 0 6 5 19), Instr.mandn (fl 1 0 0 6 5 3), Instr.mandn (fl 2 0 0 6 5 3), Instr.mandn (fl 0 1 0 6 5 3),
    Instr.mandn (fl 0 0 1 6 5 3), Instr.mandn (fl 0 0 2 6 5 3), Instr.mandn (fl 0 0 0 22 5 3), Instr.mandn (fl 0 0 0 14 5 3),
    Instr.mandn (fl 0 0 0 6 13 3), Instr.mandn (fl 0 0 0 6 21 3), Instr.mandn (fl 0 0 0 6 5 11), Instr.mandn (fl 0 0 0 6 5
    19), Instr.mshl (fl 1 0 1 6 22 3)] : List Instr).all (fun i => !i.wellFormed) = true := by decide
/-- Fields that the encodings fix (R55, R57, R58, R60-R67). -/
theorem test_illformed_fixed_7 : ([Instr.mshl (fl 2 0 1 6 22 3), Instr.mshl (fl 0 1 1 6 22 3), Instr.mshl (fl 0 0 1 22 22 3),
    Instr.mshl (fl 0 0 1 14 22 3), Instr.mshl (fl 0 0 1 6 22 11), Instr.mshl (fl 0 0 1 6 22 19), Instr.vbcast (fl 2 1 1 16 22
    19), Instr.vbcast (fl 2 1 1 1 22 19), Instr.vcfg (cf 1 25 22 19), Instr.vcfg (cf 4 25 22 19), Instr.vmov (fl 2 1 2 25 0
    19), Instr.vmov (fl 2 1 1 25 0 19), Instr.vmov (fl 2 1 3 25 16 19), Instr.vmov (fl 2 1 3 25 1 19), Instr.vcomp (fl 2 1 2
    25 0 19), Instr.vcomp (fl 2 1 1 25 0 19), Instr.vcomp (fl 2 1 3 25 16 19), Instr.vcomp (fl 2 1 3 25 1 19), Instr.vexpd
    (fl 2 1 2 25 0 19), Instr.vexpd (fl 2 1 1 25 0 19), Instr.vexpd (fl 2 1 3 25 16 19), Instr.vexpd (fl 2 1 3 25 1 19),
    Instr.vconf (fl 2 1 2 25 0 19), Instr.vconf (fl 2 1 1 25 0 19)] : List Instr).all (fun i => !i.wellFormed) = true := by
    decide
/-- Fields that the encodings fix (R55, R57, R58, R60-R67). -/
theorem test_illformed_fixed_8 : ([Instr.vconf (fl 2 1 3 25 16 19), Instr.vconf (fl 2 1 3 25 1 19), Instr.viota (fl 2 1 2 6 0
    19), Instr.viota (fl 2 1 1 6 0 19), Instr.viota (fl 2 1 3 22 0 19), Instr.viota (fl 2 1 3 14 0 19), Instr.viota (fl 2 1 3
    6 16 19), Instr.viota (fl 2 1 3 6 1 19), Instr.vidx (fl 2 1 2 0 0 19), Instr.vidx (fl 2 1 1 0 0 19), Instr.vidx (fl 2 1 3
    16 0 19), Instr.vidx (fl 2 1 3 1 0 19), Instr.vidx (fl 2 1 3 0 16 19), Instr.vidx (fl 2 1 3 0 1 19), Instr.vwiden (fl 2 1
    2 25 6 19), Instr.vwiden (fl 2 1 1 25 6 19), Instr.vwiden (fl 2 1 3 25 14 19), Instr.vwiden (fl 2 1 3 25 22 19),
    Instr.vnarrow (fl 2 1 2 25 6 19), Instr.vnarrow (fl 2 1 1 25 6 19), Instr.vnarrow (fl 2 1 3 25 22 19), Instr.vsext (fl 2
    1 2 25 2 19), Instr.vsext (fl 2 1 1 25 2 19), Instr.vsext (fl 2 1 3 25 6 19)] : List Instr).all (fun i => !i.wellFormed)
    = true := by decide
/-- Fields that the encodings fix (R55, R57, R58, R60-R67). -/
theorem test_illformed_fixed_9 : ([Instr.vsext (fl 2 1 3 25 18 19), Instr.vzext (fl 2 1 2 25 1 19), Instr.vzext (fl 2 1 1 25
    1 19), Instr.vzext (fl 2 1 3 25 5 19), Instr.vzext (fl 2 1 3 25 17 19), Instr.vclz (fl 2 1 2 25 0 19), Instr.vclz (fl 2 1
    1 25 0 19), Instr.vclz (fl 2 1 3 25 16 19), Instr.vclz (fl 2 1 3 25 1 19), Instr.vctz (fl 2 1 2 25 0 19), Instr.vctz (fl
    2 1 1 25 0 19), Instr.vctz (fl 2 1 3 25 16 19), Instr.vctz (fl 2 1 3 25 1 19), Instr.vpopc (fl 2 1 2 25 0 19),
    Instr.vpopc (fl 2 1 1 25 0 19), Instr.vpopc (fl 2 1 3 25 16 19), Instr.vpopc (fl 2 1 3 25 1 19), Instr.vbrev (fl 2 1 2 25
    0 19), Instr.vbrev (fl 2 1 1 25 0 19), Instr.vbrev (fl 2 1 3 25 16 19), Instr.vbrev (fl 2 1 3 25 1 19), Instr.mnot (fl 1
    0 3 6 0 3), Instr.mnot (fl 2 0 3 6 0 3), Instr.mnot (fl 0 1 3 6 0 3)] : List Instr).all (fun i => !i.wellFormed) = true
    := by decide
/-- Fields that the encodings fix (R55, R57, R58, R60-R67). -/
theorem test_illformed_fixed_10 : ([Instr.mnot (fl 0 0 2 6 0 3), Instr.mnot (fl 0 0 1 6 0 3), Instr.mnot (fl 0 0 3 22 0 3),
    Instr.mnot (fl 0 0 3 14 0 3), Instr.mnot (fl 0 0 3 6 16 3), Instr.mnot (fl 0 0 3 6 1 3), Instr.mnot (fl 0 0 3 6 0 11),
    Instr.mnot (fl 0 0 3 6 0 19), Instr.mmov (fl 1 0 3 6 0 3), Instr.mmov (fl 2 0 3 6 0 3), Instr.mmov (fl 0 1 3 6 0 3),
    Instr.mmov (fl 0 0 2 6 0 3), Instr.mmov (fl 0 0 1 6 0 3), Instr.mmov (fl 0 0 3 22 0 3), Instr.mmov (fl 0 0 3 14 0 3),
    Instr.mmov (fl 0 0 3 6 16 3), Instr.mmov (fl 0 0 3 6 1 3), Instr.mmov (fl 0 0 3 6 0 11), Instr.mmov (fl 0 0 3 6 0 19),
    Instr.mpop (fl 1 0 3 6 0 19), Instr.mpop (fl 2 0 3 6 0 19), Instr.mpop (fl 0 1 3 6 0 19), Instr.mpop (fl 0 0 2 6 0 19),
    Instr.mpop (fl 0 0 1 6 0 19)] : List Instr).all (fun i => !i.wellFormed) = true := by decide
/-- Fields that the encodings fix (R55, R57, R58, R60-R67). -/
theorem test_illformed_fixed_11 : ([Instr.mpop (fl 0 0 3 22 0 19), Instr.mpop (fl 0 0 3 14 0 19), Instr.mpop (fl 0 0 3 6 16
    19), Instr.mpop (fl 0 0 3 6 1 19), Instr.mfirst (fl 1 0 3 6 0 19), Instr.mfirst (fl 2 0 3 6 0 19), Instr.mfirst (fl 0 1 3
    6 0 19), Instr.mfirst (fl 0 0 2 6 0 19), Instr.mfirst (fl 0 0 1 6 0 19), Instr.mfirst (fl 0 0 3 22 0 19), Instr.mfirst
    (fl 0 0 3 14 0 19), Instr.mfirst (fl 0 0 3 6 16 19), Instr.mfirst (fl 0 0 3 6 1 19), Instr.mvtom (fl 2 1 2 25 0 3),
    Instr.mvtom (fl 2 1 1 25 0 3), Instr.mvtom (fl 2 1 3 25 16 3), Instr.mvtom (fl 2 1 3 25 1 3), Instr.mvtom (fl 2 1 3 25 0
    11), Instr.mvtom (fl 2 1 3 25 0 19), Instr.mmtov (fl 2 1 2 6 0 19), Instr.mmtov (fl 2 1 1 6 0 19), Instr.mmtov (fl 2 1 3
    22 0 19), Instr.mmtov (fl 2 1 3 14 0 19), Instr.mmtov (fl 2 1 3 6 16 19)] : List Instr).all (fun i => !i.wellFormed) =
    true := by decide
/-- Fields that the encodings fix (R55, R57, R58, R60-R67). -/
theorem test_illformed_fixed_12 : ([Instr.mmtov (fl 2 1 3 6 1 19), Instr.vld (fl 2 1 1 25 22 19), Instr.vld (fl 2 1 2 25 22
    19), Instr.vlds (fl 2 1 1 25 22 19), Instr.vlds (fl 2 1 2 25 22 19), Instr.vldseg (fl 2 1 1 3 22 19), Instr.vldseg (fl 2
    1 2 3 22 19), Instr.vldm (fl 1 0 0 0 22 3), Instr.vldm (fl 2 0 0 0 22 3), Instr.vldm (fl 0 1 0 0 22 3), Instr.vldm (fl 0
    0 1 0 22 3), Instr.vldm (fl 0 0 2 0 22 3), Instr.vldm (fl 0 0 0 16 22 3), Instr.vldm (fl 0 0 0 1 22 3), Instr.vldm (fl 0
    0 0 0 22 11), Instr.vldm (fl 0 0 0 0 22 19), Instr.sld (fl 2 1 1 0 1 19), Instr.sld (fl 2 1 2 0 1 19), Instr.sld (fl 2 1
    0 16 1 19), Instr.sld (fl 2 1 0 1 1 19), Instr.sld (fl 2 1 0 0 5 19), Instr.sld (fl 2 1 0 0 17 19), Instr.vwait (fl 2 1 1
    25 22 11), Instr.vwait (fl 2 1 1 25 22 19)] : List Instr).all (fun i => !i.wellFormed) = true := by decide
/-- Fields that the encodings fix (R55, R57, R58, R60-R67). -/
theorem test_illformed_fixed_13 : ([Instr.vst (fl 2 1 1 25 22 19), Instr.vst (fl 2 1 2 25 22 19), Instr.vsts (fl 2 1 1 25 22
    19), Instr.vsts (fl 2 1 2 25 22 19), Instr.vstseg (fl 2 1 1 3 22 19), Instr.vstseg (fl 2 1 2 3 22 19), Instr.vstm (fl 1 0
    0 0 22 3), Instr.vstm (fl 2 0 0 0 22 3), Instr.vstm (fl 0 1 0 0 22 3), Instr.vstm (fl 0 0 1 0 22 3), Instr.vstm (fl 0 0 2
    0 22 3), Instr.vstm (fl 0 0 0 16 22 3), Instr.vstm (fl 0 0 0 1 22 3), Instr.vstm (fl 0 0 0 0 22 11), Instr.vstm (fl 0 0 0
    0 22 19), Instr.wdecl (fl 1 0 1 25 22 1), Instr.wdecl (fl 2 0 1 25 22 1), Instr.wdecl (fl 0 1 1 25 22 1), Instr.wdecl (fl
    0 0 3 25 22 1), Instr.wdecl (fl 0 0 1 25 22 5), Instr.wdecl (fl 0 0 1 25 22 17), Instr.wacc (fl 2 1 1 25 22 22),
    Instr.wacc (fl 2 1 2 25 22 22), Instr.wmerge (fl 1 0 0 0 0 1)] : List Instr).all (fun i => !i.wellFormed) = true := by
    decide
/-- Fields that the encodings fix (R55, R57, R58, R60-R67). -/
theorem test_illformed_fixed_14 : ([Instr.wmerge (fl 2 0 0 0 0 1), Instr.wmerge (fl 0 1 0 0 0 1), Instr.wmerge (fl 0 0 1 0 0
    1), Instr.wmerge (fl 0 0 2 0 0 1), Instr.wmerge (fl 0 0 0 16 0 1), Instr.wmerge (fl 0 0 0 1 0 1), Instr.wmerge (fl 0 0 0
    0 16 1), Instr.wmerge (fl 0 0 0 0 1 1), Instr.wmerge (fl 0 0 0 0 0 5), Instr.wmerge (fl 0 0 0 0 0 17), Instr.wdrop (fl 1
    0 0 0 0 1), Instr.wdrop (fl 2 0 0 0 0 1), Instr.wdrop (fl 0 1 0 0 0 1), Instr.wdrop (fl 0 0 1 0 0 1), Instr.wdrop (fl 0 0
    2 0 0 1), Instr.wdrop (fl 0 0 0 16 0 1), Instr.wdrop (fl 0 0 0 1 0 1), Instr.wdrop (fl 0 0 0 0 16 1), Instr.wdrop (fl 0 0
    0 0 1 1), Instr.wdrop (fl 0 0 0 0 0 5), Instr.wdrop (fl 0 0 0 0 0 17), Instr.wstat (fl 1 0 0 0 1 19), Instr.wstat (fl 2 0
    0 0 1 19), Instr.wstat (fl 0 1 0 0 1 19)] : List Instr).all (fun i => !i.wellFormed) = true := by decide
/-- Fields that the encodings fix (R55, R57, R58, R60-R67). -/
theorem test_illformed_fixed_15 : ([Instr.wstat (fl 0 0 1 0 1 19), Instr.wstat (fl 0 0 2 0 1 19), Instr.wstat (fl 0 0 0 16 1
    19), Instr.wstat (fl 0 0 0 1 1 19), Instr.wstat (fl 0 0 0 0 5 19), Instr.wstat (fl 0 0 0 0 17 19), Instr.mattach (fl 1 0
    0 0 5 19), Instr.mattach (fl 2 0 0 0 5 19), Instr.mattach (fl 0 1 0 0 5 19), Instr.mattach (fl 0 0 1 0 5 19),
    Instr.mattach (fl 0 0 2 0 5 19), Instr.mattach (fl 0 0 0 16 5 19), Instr.mattach (fl 0 0 0 1 5 19), Instr.mdetach (fl 1 0
    0 0 0 0), Instr.mdetach (fl 2 0 0 0 0 0), Instr.mdetach (fl 0 1 0 0 0 0), Instr.mdetach (fl 0 0 1 0 0 0), Instr.mdetach
    (fl 0 0 2 0 0 0), Instr.mdetach (fl 0 0 0 16 0 0), Instr.mdetach (fl 0 0 0 1 0 0), Instr.mdetach (fl 0 0 0 0 16 0),
    Instr.mdetach (fl 0 0 0 0 1 0), Instr.mdetach (fl 0 0 0 0 0 16), Instr.mdetach (fl 0 0 0 0 0 1)] : List Instr).all (fun i
    => !i.wellFormed) = true := by decide
/-- Fields that the encodings fix (R55, R57, R58, R60-R67). -/
theorem test_illformed_fixed_16 : ([Instr.mload (fl 1 0 1 25 22 0), Instr.mload (fl 2 0 1 25 22 0), Instr.mload (fl 0 1 1 25
    22 0), Instr.mload (fl 0 0 3 25 22 0), Instr.mload (fl 0 0 1 25 22 16), Instr.mload (fl 0 0 1 25 22 1), Instr.mmac (fl 1
    0 3 25 22 2), Instr.mmac (fl 2 0 3 25 22 2), Instr.mmac (fl 0 1 3 25 22 2), Instr.mmac (fl 0 0 3 25 22 10), Instr.mmac
    (fl 0 0 3 25 22 18), Instr.mzero (fl 1 0 0 0 0 2), Instr.mzero (fl 2 0 0 0 0 2), Instr.mzero (fl 0 1 0 0 0 2),
    Instr.mzero (fl 0 0 1 0 0 2), Instr.mzero (fl 0 0 2 0 0 2), Instr.mzero (fl 0 0 0 16 0 2), Instr.mzero (fl 0 0 0 1 0 2),
    Instr.mzero (fl 0 0 0 0 16 2), Instr.mzero (fl 0 0 0 0 1 2), Instr.mzero (fl 0 0 0 0 0 10), Instr.mzero (fl 0 0 0 0 0
    18), Instr.mread (fl 1 0 0 0 2 19), Instr.mread (fl 2 0 0 0 2 19)] : List Instr).all (fun i => !i.wellFormed) = true :=
    by decide
/-- Fields that the encodings fix (R55, R57, R58, R60-R67). -/
theorem test_illformed_fixed_17 : ([Instr.mread (fl 0 1 0 0 2 19), Instr.mread (fl 0 0 1 0 2 19), Instr.mread (fl 0 0 2 0 2
    19), Instr.mread (fl 0 0 0 16 2 19), Instr.mread (fl 0 0 0 1 2 19), Instr.mread (fl 0 0 0 0 10 19), Instr.mread (fl 0 0 0
    0 18 19), Instr.mwrite (fl 1 0 0 25 0 2), Instr.mwrite (fl 2 0 0 25 0 2), Instr.mwrite (fl 0 1 0 25 0 2), Instr.mwrite
    (fl 0 0 1 25 0 2), Instr.mwrite (fl 0 0 2 25 0 2), Instr.mwrite (fl 0 0 0 25 16 2), Instr.mwrite (fl 0 0 0 25 1 2),
    Instr.mwrite (fl 0 0 0 25 0 10), Instr.mwrite (fl 0 0 0 25 0 18), Instr.msync (fl 1 0 0 0 0 0), Instr.msync (fl 2 0 0 0 0
    0), Instr.msync (fl 0 1 0 0 0 0), Instr.msync (fl 0 0 1 0 0 0), Instr.msync (fl 0 0 2 0 0 0), Instr.msync (fl 0 0 0 16 0
    0), Instr.msync (fl 0 0 0 1 0 0), Instr.msync (fl 0 0 0 0 16 0)] : List Instr).all (fun i => !i.wellFormed) = true := by
    decide
/-- Fields that the encodings fix (R55, R57, R58, R60-R67). -/
theorem test_illformed_fixed_18 : ([Instr.msync (fl 0 0 0 0 1 0), Instr.msync (fl 0 0 0 0 0 16), Instr.msync (fl 0 0 0 0 0
    1), Instr.rboxt (fl 2 1 1 25 22 19), Instr.rboxt (fl 2 1 2 25 22 19), Instr.rtrit (fl 2 1 1 25 22 19), Instr.rtrit (fl 2
    1 2 25 22 19), Instr.bbovl (fl 2 1 1 25 22 19), Instr.bbovl (fl 2 1 2 25 22 19), Instr.txs (fl 2 1 1 25 22 19), Instr.txs
    (fl 2 1 2 25 22 19), Instr.txg (fl 2 1 1 25 22 19), Instr.txg (fl 2 1 2 25 22 19), Instr.txf (fl 2 1 1 25 22 19),
    Instr.txf (fl 2 1 2 25 22 19), Instr.txlod (fl 2 1 1 25 22 19), Instr.txlod (fl 2 1 2 25 22 19), Instr.tspawn (sf 3 0 22
    19), Instr.tspawn (sf 5 0 22 19), Instr.tspawn (sf 1 16 22 19), Instr.tspawn (sf 1 1 22 19), Instr.tspawnp (sf 3 0 22
    19), Instr.tspawnp (sf 5 0 22 19), Instr.tspawnp (sf 1 16 22 19)] : List Instr).all (fun i => !i.wellFormed) = true := by
    decide
/-- Fields that the encodings fix (R55, R57, R58, R60-R67). -/
theorem test_illformed_fixed_19 : ([Instr.tspawnp (sf 1 1 22 19), Instr.tnext (sf 1 0 0 0), Instr.tnext (sf 4 0 0 0),
    Instr.tnext (sf 0 16 0 0), Instr.tnext (sf 0 1 0 0), Instr.tnext (sf 0 0 16 0), Instr.tnext (sf 0 0 1 0), Instr.tnext (sf
    0 0 0 16), Instr.tnext (sf 0 0 0 1), Instr.tyield (sf 1 0 0 0), Instr.tyield (sf 4 0 0 0), Instr.tyield (sf 0 16 0 0),
    Instr.tyield (sf 0 1 0 0), Instr.tyield (sf 0 0 16 0), Instr.tyield (sf 0 0 1 0), Instr.tyield (sf 0 0 0 16),
    Instr.tyield (sf 0 0 0 1), Instr.tblock (sf 1 0 22 0), Instr.tblock (sf 4 0 22 0), Instr.tblock (sf 0 16 22 0),
    Instr.tblock (sf 0 1 22 0), Instr.tblock (sf 0 0 22 16), Instr.tblock (sf 0 0 22 1), Instr.tunblock (sf 1 0 22 0)] : List
    Instr).all (fun i => !i.wellFormed) = true := by decide
/-- Fields that the encodings fix (R55, R57, R58, R60-R67). -/
theorem test_illformed_fixed_20 : ([Instr.tunblock (sf 4 0 22 0), Instr.tunblock (sf 0 16 22 0), Instr.tunblock (sf 0 1 22
    0), Instr.tunblock (sf 0 0 22 16), Instr.tunblock (sf 0 0 22 1), Instr.tticket (sf 1 0 22 19), Instr.tticket (sf 4 0 22
    19), Instr.tticket (sf 0 16 22 19), Instr.tticket (sf 0 1 22 19), Instr.tqstat (sf 1 0 22 19), Instr.tqstat (sf 4 0 22
    19), Instr.tqstat (sf 0 16 22 19), Instr.tqstat (sf 0 1 22 19), Instr.darrive (sf 1 0 0 19), Instr.darrive (sf 4 0 0 19),
    Instr.darrive (sf 0 16 0 19), Instr.darrive (sf 0 1 0 19), Instr.darrive (sf 0 0 16 19), Instr.darrive (sf 0 0 1 19),
    Instr.dwait (sf 2 16 22 19), Instr.dwait (sf 2 1 22 19), Instr.dbar (sf 2 16 0 19), Instr.dbar (sf 2 1 0 19), Instr.dbar
    (sf 2 0 16 19)] : List Instr).all (fun i => !i.wellFormed) = true := by decide
/-- Fields that the encodings fix (R55, R57, R58, R60-R67). -/
theorem test_illformed_fixed_21 : ([Instr.dbar (sf 2 0 1 19), Instr.dphase (sf 1 0 0 19), Instr.dphase (sf 4 0 0 19),
    Instr.dphase (sf 0 16 0 19), Instr.dphase (sf 0 1 0 19), Instr.dphase (sf 0 0 16 19), Instr.dphase (sf 0 0 1 19),
    Instr.ordSv (sf 5 16 0 0), Instr.ordSv (sf 5 1 0 0), Instr.ordSv (sf 5 0 16 0), Instr.ordSv (sf 5 0 1 0), Instr.ordSv (sf
    5 0 0 16), Instr.ordSv (sf 5 0 0 1), Instr.ordVs (sf 4 16 0 0), Instr.ordVs (sf 4 1 0 0), Instr.ordVs (sf 4 0 16 0),
    Instr.ordVs (sf 4 0 1 0), Instr.ordVs (sf 4 0 0 16), Instr.ordVs (sf 4 0 0 1), Instr.ordVv (sf 3 16 0 0), Instr.ordVv (sf
    3 1 0 0), Instr.ordVv (sf 3 0 16 0), Instr.ordVv (sf 3 0 1 0), Instr.ordVv (sf 3 0 0 16)] : List Instr).all (fun i =>
    !i.wellFormed) = true := by decide
/-- Fields that the encodings fix (R55, R57, R58, R60-R67). -/
theorem test_illformed_fixed_22 : ([Instr.ordVv (sf 3 0 0 1), Instr.ordAll (sf 2 16 0 0), Instr.ordAll (sf 2 1 0 0),
    Instr.ordAll (sf 2 0 16 0), Instr.ordAll (sf 2 0 1 0), Instr.ordAll (sf 2 0 0 16), Instr.ordAll (sf 2 0 0 1),
    Instr.vdrain (sf 1 0 0 0), Instr.vdrain (sf 4 0 0 0), Instr.vdrain (sf 0 16 0 0), Instr.vdrain (sf 0 1 0 0), Instr.vdrain
    (sf 0 0 16 0), Instr.vdrain (sf 0 0 1 0), Instr.vdrain (sf 0 0 0 16), Instr.vdrain (sf 0 0 0 1), Instr.sopen (sf 7 25 22
    2), Instr.sopen (sf 3 25 22 6), Instr.sopen (sf 3 25 22 18), Instr.savail (sf 5 0 0 19), Instr.savail (sf 1 16 0 19),
    Instr.savail (sf 1 1 0 19), Instr.savail (sf 1 0 16 19), Instr.savail (sf 1 0 1 19), Instr.sres (sf 5 0 0 19)] : List
    Instr).all (fun i => !i.wellFormed) = true := by decide
/-- Fields that the encodings fix (R55, R57, R58, R60-R67). -/
theorem test_illformed_fixed_23 : ([Instr.sres (sf 1 16 0 19), Instr.sres (sf 1 1 0 19), Instr.sres (sf 1 0 16 19),
    Instr.sres (sf 1 0 1 19), Instr.sclose (sf 5 0 0 0), Instr.sclose (sf 1 16 0 0), Instr.sclose (sf 1 1 0 0), Instr.sclose
    (sf 1 0 16 0), Instr.sclose (sf 1 0 1 0), Instr.sclose (sf 1 0 0 16), Instr.sclose (sf 1 0 0 1), Instr.lease (lf 170 1 22
    21), Instr.lease (lf 170 8 22 21), Instr.unlease (sf 1 0 22 0), Instr.unlease (sf 4 0 22 0), Instr.unlease (sf 0 16 22
    0), Instr.unlease (sf 0 1 22 0), Instr.unlease (sf 0 0 22 16), Instr.unlease (sf 0 0 22 1), Instr.mkick (sf 4 25 22 16),
    Instr.mkick (sf 4 25 22 1), Instr.hmsg (sf 1 25 22 19), Instr.hmsg (sf 4 25 22 19), Instr.park (sf 1 0 0 0)] : List
    Instr).all (fun i => !i.wellFormed) = true := by decide
/-- Fields that the encodings fix (R55, R57, R58, R60-R67). -/
theorem test_illformed_fixed_24 : ([Instr.park (sf 4 0 0 0), Instr.park (sf 0 16 0 0), Instr.park (sf 0 1 0 0), Instr.park
    (sf 0 0 16 0), Instr.park (sf 0 0 1 0), Instr.park (sf 0 0 0 16), Instr.park (sf 0 0 0 1), Instr.uiret (sf 1 0 0 0),
    Instr.uiret (sf 4 0 0 0), Instr.uiret (sf 0 16 0 0), Instr.uiret (sf 0 1 0 0), Instr.uiret (sf 0 0 16 0), Instr.uiret (sf
    0 0 1 0), Instr.uiret (sf 0 0 0 16), Instr.uiret (sf 0 0 0 1), Instr.vrep (vf 1365 21 2 1), Instr.pfx (pf 1 1 21 0 2 1
    1), Instr.pfx (pf 32 1 21 0 2 1 1), Instr.pfx (pf 0 1 21 16 2 1 1), Instr.pfx (pf 0 1 21 1 2 1 1)] : List Instr).all (fun
    i => !i.wellFormed) = true := by decide

/-! ## Behaviour

Each expected value is the spec's own worked result, or the published standard's (R15, R11). -/

/-- The state after an outcome; without a next state, the empty package. -/
def after : Host.Outcome State Fault Refusal → State
  | .next t => t
  | _ => {}

/-- A vector register that holds 32-bit elements. -/
def elems32 (l : List Nat) : VReg := bv 8192 (packNat 32 l)

/-- Elements 0 to 7 of a vector register of hart 5, of 32 bits. -/
def elems (s : State) (r : Nat) : List Nat := (List.range 8).map (fun e => (s.hartAt 5).elem r 32 e)

/-! ### The conflict round of spec/04 -/

/-- The keys 5, 9, 5, 2, 9, 5, 7, 2 in v1, 8 elements of INT32. -/
def keys (m1 : Nat) : State :=
  pack { hart5 with vec := { vtype := 0x20002, vl := 8, v := (Vector.replicate 32 0).set 1 (elems32 [5, 9, 5, 2, 9, 5, 7, 2]), m := (Vector.replicate 8 0).set 1 (bv 8192 m1) } }

theorem test_vconf_ranks : elems (after (exec (.vconf (fl 0 0 3 1 0 2)) (keys 0))) 2 = [0, 0, 1, 0, 1, 2, 0, 1] := by decide +kernel

theorem test_vceq_first_occurrences :
    (let s := keys 0
     let t := after (exec (.vceq (fl 0 0 2 2 0 1)) (s.setHart { s.hart with vec := { s.hart.vec with v := s.hart.vec.v.set 2 (elems32 [0, 0, 1, 0, 1, 2, 0, 1]) } }))
     ((t.hartAt 5).mask 1).toNat % 256) = 0x4B := by decide +kernel

theorem test_vcomp_packs : elems (after (exec (.vcomp (fl 1 0 3 1 0 3)) (keys 0x4B))) 3 = [5, 9, 2, 7, 0, 0, 0, 0] := by decide +kernel

theorem test_mpop_counts : (after (exec (.mpop (fl 0 0 3 1 0 11)) (keys 0x4B))).hart.getX 11 = 4 := by decide +kernel

/-- Of VTYPE 0x20003 the word vcfgi t0, t1, #0x20 makes 0x20002, and VL 8. -/
theorem test_vcfgi_example :
    (let t := after (exec (.vcfgi (cf 1 0 6 5)) (pack { hart5 with x := hart5.x.set 6 8, vec := { vtype := 0x20003 } }))
     (t.hart.vec.vtype, t.hart.vec.vl, t.hart.getX 5)) = (0x20002, 8, 8) := by decide +kernel

/-! ### Other worked results -/

/-- R199: the counter's wrap. -/
theorem test_swait_serial_order : (satisfies 0xFFFFFFE8 0xFFFFFFF0, satisfies 0xFFFFFFF8 0xFFFFFFF0, satisfies 8 0xFFFFFFF0) = (false, true, true) := by decide

/-- R90: pass 5, word 2 of the body of the vrep word at 0x401000. -/
theorem test_repetition_position : repPos 5 2 0x401000 = 0x0052800000401000 := by decide

/-- The k-group of spec/10: 2^24 and eight products 1.0 × 0.25, rounded once. -/
theorem test_mmac_group :
    accumulate 64 (fun k => if k < 8 then decodeFloat (floatFmt 8) 0x38 else decodeFloat (floatFmt 8) 0)
      (fun k => if k < 8 then decodeFloat (floatFmt 8) 0x28 else decodeFloat (floatFmt 8) 0) 0x4B800000 = 0x4B800001 := by decide +kernel

/-- The block of the transposed, padded copy of spec/15. -/
def transpose : Copying :=
  { words := [0x510010, 0x70000000, 0x70000100, 0x70000200, 0x200000004, 4, 16, 0x21, 8, 4] ++ List.replicate 13 0
      ++ [0x200000003, 0, 0, 0xFFFFFFFF, 0, 0, 0, 0, 0] }

/-- Row 0 of D takes A[0][0], A[1][0], A[2][0] and FILL; row 1 the other column. -/
theorem test_tensor_copy_addresses :
    (List.range 8).map (fun n => (transpose.dest n, transpose.source n)) =
      [ (0x70000100, some 0x70000000), (0x70000104, some 0x70000008), (0x70000108, some 0x70000010), (0x7000010C, none),
        (0x70000110, some 0x70000004), (0x70000114, some 0x7000000C), (0x70000118, some 0x70000014), (0x7000011C, none) ] := by decide +kernel

theorem test_tensor_copy_legal : transpose.bad = false := by decide +kernel

/-! ### The published standards -/

/-- FIPS 180-4: the SHA-384 of the three bytes "abc". -/
theorem test_sha384_abc :
    sha384 [0x61, 0x62, 0x63] = 0xCB00753F45A35E8BB5A03D699AC65007272C32AB0EDED1631A8B605A43FF5BED8086072BA1E7CC2358BAECA134C825A7 := by
  decide +kernel

/-- FIPS 180-4: the round constants are the first 64 bits of the fractions of the cube roots of the first 80 primes. -/
theorem test_sha_constants :
    (((List.range 410).filter Nat.Prime).take 80).length = 80 ∧ ([2, 3, 5, 7, 11, 13, 17, 19, 23, 29, 31, 37, 41, 43, 47, 53, 59, 61, 67, 71, 73, 79, 83, 89, 97, 101, 103, 107, 109, 113,
      127, 131, 137, 139, 149, 151, 157, 163, 167, 173, 179, 181, 191, 193, 197, 199, 211, 223, 227, 229, 233, 239, 241, 251,
      257, 263, 269, 271, 277, 281, 283, 293, 307, 311, 313, 317, 331, 337, 347, 349, 353, 359, 367, 373, 379, 383, 389, 397,
      401, 409].zip shaConstants).all (fun (p, c) =>
        (List.range 8).any (fun r => (r * 2 ^ 64 + c) ^ 3 ≤ p * 2 ^ 192 && p * 2 ^ 192 < (r * 2 ^ 64 + c + 1) ^ 3)) = true := by decide +kernel

/-- FIPS 186-5: the base point of P-384 lies on its curve. -/
theorem test_p384_base_point :
    (g384.2 * g384.2 % p384) = (g384.1 * g384.1 * g384.1 + (p384 - 3) * g384.1
      + 0xB3312FA7E23EE7E4988E056BE3F82D19181D9C6EFE8141120314088F5013875AC656398D8A2ED19D2A85C8EDD3EC2AEF) % p384 := by decide +kernel

/-! ### Corners of the standard words (R15) -/

/-- Division by zero, the overflow of division, and the sign of a remainder. -/
theorem test_div_corners :
    (let t (o : RegOp) (a b : Word) : Word := (after (exec (.riscvInstruction (.op o 1 2 3)) (pack { hart5 with x := (hart5.x.set 2 a).set 3 b }))).hart.getX 1
     (t .div 7 0, t .rem 7 0, t .div 0x8000000000000000 0xFFFFFFFFFFFFFFFF, t .rem 0xFFFFFFFFFFFFFFF9 2, t .divuw 0x180000000 1))
    = (0xFFFFFFFFFFFFFFFF, 7, 0x8000000000000000, 0xFFFFFFFFFFFFFFFF, 0xFFFFFFFF80000000) := by decide +kernel

/-- x0 reads zero and discards writes. -/
theorem test_x0_discards : (after (exec (.riscvInstruction (.opImm .addi 0 10 1)) (pack hart5))).hart.getX 0 = 0 := by decide +kernel

/-- An environment call from M mode: cause 11, mepc the call, the PC at the vector. -/
theorem test_ecall_enters :
    (let t := after (exec (.riscvInstruction .ecall) (pack { hart5 with csr := { hart5.csr with mtvec := 0x4000 } }))
     (t.hart.pc, t.hart.csr.mepc, t.hart.csr.mcause)) = (0x4000, 0x1000, 11) := by decide +kernel

/-- The step runs the word that is placed where it fetches. -/
theorem test_step_runs_placed_word :
    ((after (step (State.reset.withFetchWord 32 0x00500093))).hartAt 0).getX 1 = 5 := by decide +kernel

/-- A stored doubleword is little-endian. -/
theorem test_sd_byte_order :
    (let t := after (exec (.riscvInstruction (.store .sd 11 10 8)) (pack { hart5 with x := hart5.x.set 11 0x1122334455667788 }))
     (t.mem.map Prod.snd, t.mem.map Prod.fst)) =
      ([0x88, 0x77, 0x66, 0x55, 0x44, 0x33, 0x22, 0x11], (List.range 8).map (· + 0x100008)) := by decide +kernel

/-- amoadd.w returns the old word with its sign and wraps at 32 bits. -/
theorem test_amoadd_wraps :
    (let s := pack { hart5 with x := hart5.x.set 6 1 }
     let t := after (exec (.amo .add .w32 0 0 6 10 5) { s with mem := writeBytes [] 0x100000 (toBytes 4 0xFFFFFFFF) })
     (t.hart.getX 5, t.mem)) = (0xFFFFFFFFFFFFFFFF, []) := by decide +kernel

/-- sc without a reservation fails and stores nothing. -/
theorem test_sc_fails :
    (let t := after (exec (.sc .w64 0 0 11 10 5) (pack hart5))
     (t.hart.getX 5, t.mem)) = (1, []) := by decide +kernel

/-- vadd at 32 bits wraps; element 2, inactive under m1 with MSKP 0, keeps its value. -/
theorem test_vadd_wraps_and_masks :
    (let v := (((Vector.replicate 32 0).set 1 (elems32 [0xFFFFFFFF, 5, 7, 0])).set 2 (elems32 [2, 3, 4, 5])).set 3 (elems32 [9, 9, 9, 9])
     let t := after (exec (.vadd (fl 1 0 0 1 2 3)) (pack { hart5 with vec := { vtype := 0x20002, vl := 4, v := v, m := (Vector.replicate 8 0).set 1 0xB } }))
     ((elems t 3).take 5, t.hart.vec.velem, t.hart.pc)) = ([1, 8, 9, 5, 0], 0, 0x1004) := by decide +kernel

/-- A vector store and load of four words meet in memory. -/
theorem test_vst_vld :
    (let v := (Vector.replicate 32 0).set 1 (elems32 [1, 2, 3, 4])
     let t := after (exec (.vst (fl 0 0 0 0 10 1)) (pack { hart5 with vec := { vtype := 0x20002, vl := 4, v := v } }))
     (elems (after (exec (.vld (fl 0 0 0 0 10 2)) t)) 2, t.mem)) =
      ([1, 2, 3, 4, 0, 0, 0, 0], [(0x100000, 1), (0x100004, 2), (0x100008, 3), (0x10000C, 4)]) := by decide +kernel

/-- mret to U mode: the PC of mepc, MPP cleared, MIE from MPIE. -/
theorem test_mret_returns :
    (let t := after (exec (.xret true) (pack { hart5 with csr := { hart5.csr with mepc := 0x2000, mstatus := 0x80 } }))
     (t.hart.pc, t.hart.priv, bitOf t.hart.csr.mstatus 3)) = (0x2000, Priv.u, true) := by decide +kernel

/-- A word of the system level is illegal in U mode: cause 2 with the word. -/
theorem test_illegal_in_u_mode :
    (let t := after (exec (.csrAccess .rs false 0x300 0 5) (pack { hart5 with priv := .u, csr := { hart5.csr with mtvec := 0x4000 } }))
     (t.hart.pc, t.hart.priv, t.hart.csr.mcause, t.hart.csr.mtval)) = (0x4000, Priv.m, 2, 0x300022F3) := by decide +kernel

end Sys2Proof.Tests
end

section
/-! SUPPORT. What reset leaves of the harts and of memory. -/

namespace Sys2Proof.Machine

/-- Reset lists no hart, so each is as it starts. -/
@[simp] theorem reset_hartAt (h : Nat) : State.reset.hartAt h = Hart.init h := rfl

/-- Every hart but a system core starts with the default registers. -/
theorem init_of_ne_system {h : Nat} (hk : kindOf h ≠ .system) : Hart.init h = {} := if_neg hk

/-- A system core starts with its mhartid in a0. -/
theorem init_of_system {h : Nat} (hk : kindOf h = .system) :
    Hart.init h = { x := (Vector.replicate 32 0).set 10 (bv 64 h) } := if_pos hk

/-- Every hart starts with the default vector state. -/
@[simp] theorem init_vec (h : Nat) : (Hart.init h).vec = {} := by
  unfold Hart.init
  split <;> rfl

/-- A hart with the vector state of reset has VL within VLMAX: its VL is 0. -/
theorem lengthOk_init (h : Nat) : LengthOk (Hart.init h) := by
  rw [LengthOk, init_vec]
  exact Nat.zero_le _

/-- Settles O1: reset lists no hart and no byte of memory, so every register is read off the default hart. -/
theorem resetState : Obligations.ResetState := by
  refine ⟨fun h hk => ?_, fun h hk => ?_, rfl, fun _ => rfl, lengthOk_init⟩
  · rw [reset_hartAt, init_of_ne_system (by rw [hk]; decide)]
    refine ⟨rfl, rfl, fun i hi => ?_, fun i hi => ?_, by decide, rfl, rfl, rfl, rfl, rfl, rfl, rfl⟩
    · simp
    · simp
  · rw [reset_hartAt, init_of_system hk]
    refine ⟨Vector.getElem_set_self .., rfl, ?_⟩
    show fieldOf ({} : Csrs).mstatus 13 2 = 1
    decide

end Sys2Proof.Machine
end

section
/-! SUPPORT. A fetch behind a migration whose new page does not begin at a word: the clause of O2 on the fetched word
fails there. -/

namespace Sys2Proof.Machine

/-- Hart 0 at address 0, whose region migrates to address 63: the four bytes of its word lie across two lines. The byte at
63 is 1. No PAGE_MIGRATE makes such a record; the statement does not exclude it. -/
def tornFetch : State :=
  { mem := [(63, 1)]
    harts := [(0, {})]
    parts := [(0, { granules := [0] })]
    coh := { migs := [{ old := 0, new := 63, size := 4, next := 1 }] } }

/-- The word at PC resolves to address 63, as the clause asks. -/
theorem tornFetch_fetchesAt : FetchesAt tornFetch 63 := ⟨by decide, by decide, by decide, rfl, rfl, rfl⟩

/-- The rest of the line at address 63 holds no whole word, so the fetch finds none and gives 0. -/
theorem tornFetch_fetchWord :
    fetchWord tornFetch = .ok 0 (tornFetch.setHart { tornFetch.hart with run := { tornFetch.hart.run with fetch := [] } }) :=
  rfl

/-- The four bytes at the place of PC are 1. -/
theorem tornFetch_word : bv 32 (readNat tornFetch.mem 63 4) = 1 := by decide

/-- Refutes O2: `lineWords` counts no word at a physical address less than 4 bytes before the end of its line, and
`FetchesAt` does not say that the physical address is aligned, so in `tornFetch` the fetched word is 0 where the bytes at
the place of PC are 1. -/
theorem not_stepRunsDecoded : ¬ Obligations.StepRunsDecoded := by
  rintro ⟨-, -, -, -, -, -, fetched, -⟩
  obtain ⟨t, ht, -⟩ := fetched tornFetch 63 tornFetch_fetchesAt
  rw [tornFetch_fetchWord, tornFetch_word] at ht
  injection ht with hw
  exact absurd hw (by decide)

end Sys2Proof.Machine
end

section
/-! SUPPORT. A pfx word in the second pass of a body: its DREG is advanced by the pass, which the clause of O33 on a pass of
pfx does not say. -/

namespace Sys2Proof.Machine

/-- pfx with DREG = v0, on m5 inverted. -/
def plainPfx : PfxFld := { z := 0, dcv := 0, dreg := 0, y := 0, mreg := 5, inv := 1, zero := 0 }

/-- Hart 0 in pass 1 of a body of one word, that pfx, whose register fields advance by 1 a pass. -/
def secondPass : State :=
  { harts := [(0, { pc := repPos 1 0 0
                    run := { body := some { addr := 0, n := 2, s := 1, words := [0x00007B0B] } } })] }

theorem decode_plainPfx : decode 0x00007B0B = .ok (.pfx plainPfx) := by decide +kernel

/-- The pass sets DREG to v1: register field 0 advanced once (R87). -/
theorem secondPass_vpfx :
    ∃ t, exec .plankerPass secondPass = .next t ∧ t.hart.vec.vpfx = bv 12 (1 * 128 + 16 + 5 * 2 + 1) :=
  ⟨_, rfl, by decide +kernel⟩

/-- Refutes O33: `execPfx` advances DREG by the pass, as R87 has it, so in `secondPass` VPFX.DREG is v1, where the clause on a
pass of pfx asks for the field of the word, v0. -/
theorem not_configuration : ¬ Obligations.Configuration := by
  intro h
  obtain ⟨-, -, -, -, -, pass⟩ := h secondPass (by decide)
  obtain ⟨t, ht, -, hv⟩ := pass _ 0x00007B0B plainPfx (by decide) rfl (by decide) decode_plainPfx (by decide)
  obtain ⟨u, hu, hw⟩ := secondPass_vpfx
  have e : u = t := by
    rw [hu] at ht
    injection ht
  rw [← e, hw] at hv
  exact absurd hv (by decide)

end Sys2Proof.Machine
end

section
/-! SUPPORT. What a fence leaves: the accesses it holds, and that neither retirement nor settled reads change what is held. -/

namespace Sys2Proof.Machine

/-! ## What is outstanding -/

/-- What a hart has outstanding depends on the messages alone. -/
theorem outstanding_congr {s t : State} (hn : t.coh.net = s.coh.net) (hc : t.coh.commits = s.coh.commits)
    (hq : t.coh.queued = s.coh.queued) (h : Nat) (vec : Bool) : outstanding t h vec = outstanding s h vec := by
  unfold outstanding unsettled
  rw [hn, hc, hq]

/-- What holds an access of a hart depends on its fences and on what it has outstanding. -/
theorem barred_congr {s t : State} {h : Nat} (hb : (t.hartAt h).run.bars = (s.hartAt h).run.bars)
    (ho : ∀ vec, outstanding t h vec = outstanding s h vec) (hr : remoteOut t h = remoteOut s h) (vec : Bool) :
    barred t h vec = barred s h vec := by
  unfold barred Bar.holds
  rw [hb, ho, ho, hr]

@[simp] theorem outstanding_setHart (s : State) (x : Hart) (h : Nat) (vec : Bool) :
    outstanding (s.setHart x) h vec = outstanding s h vec := rfl

@[simp] theorem outstanding_settleReads (k q : Nat) (s : State) (h : Nat) (vec : Bool) :
    outstanding (settleReads k q s) h vec = outstanding s h vec := rfl

@[simp] theorem remoteOut_setHart (s : State) (x : Hart) (h : Nat) : remoteOut (s.setHart x) h = remoteOut s h := rfl

/-- Settling the reads of a hart leaves its stores to other modules. -/
@[simp] theorem remoteOut_settleReads (k q : Nat) (s : State) (h : Nat) :
    remoteOut (settleReads k q s) h = remoteOut s h := by
  unfold remoteOut settleReads
  rw [List.filter_filter]
  congr 2
  funext r
  by_cases hk : r.kind = 2 <;> simp [hk]

/-! ## Laying a fence -/

/-- A fence over what its hart has outstanding holds the accesses of a class B while an access of class A is not performed
(R180, R181). -/
theorem makeBar_holds (s : State) (h scope : Nat) (a1 a2 b1 b2 vec : Bool) :
    (makeBar s h scope a1 a2 b1 b2).holds s h vec = ((if vec then b2 else b1) && notPerformed s h scope a1 a2) := by
  have any_self (l m : List Nat) : l.any (fun i => l.contains i || m.contains i) = !l.isEmpty := by
    cases l <;> simp
  have any_right (l m : List Nat) : l.any (fun i => m.contains i || l.contains i) = !l.isEmpty := by
    cases l <;> simp
  have any_tags (l : List Nat) : l.any (fun t => l.contains t) = !l.isEmpty := by
    cases l <;> simp
  unfold Bar.holds makeBar notPerformed remoteUnacked
  congr 1
  cases a1 <;> cases a2 <;> by_cases h5 : 5 ≤ scope <;> simp only [h5, any_self, any_right, any_tags, List.any_append,
    List.any_nil, if_true, if_false, Bool.false_eq_true, decide_true, decide_false, Bool.true_and, Bool.false_and,
    Bool.or_false, Bool.false_or]

/-- A further fence holds what the earlier ones hold, and what it holds itself; the fences that are forgotten hold nothing. -/
theorem barred_addBar (s : State) (h : Nat) (b : Bar) (vec : Bool) :
    barred (addBar s h b) h vec = (barred s h vec || (decide (h < agentCount) && b.holds s h vec)) := by
  let live (x : Bar) : Bool := x.holds s h true || x.holds s h false
  have hl (x : Bar) (hx : x.holds s h vec = true) : live x = true := by
    cases vec <;> simp [live, hx]
  have hb : ((addBar s h b).hartAt h).run.bars = ((s.hartAt h).run.bars ++ [b]).filter live := by
    unfold addBar State.modHart
    rw [State.hartAt_setHartAt_self]
  have he : (((s.hartAt h).run.bars ++ [b]).filter live).any (Bar.holds s h vec)
      = ((s.hartAt h).run.bars ++ [b]).any (Bar.holds s h vec) := by
    rw [List.any_filter]
    congr 1
    funext x
    cases hx : x.holds s h vec with
    | true => simp [hl x hx]
    | false => simp
  unfold barred
  rw [hb]
  show (decide _ && (List.filter live _).any (Bar.holds s h vec)) = _
  rw [he, List.any_append, Bool.and_or_distrib_left]
  simp

/-- What a fence leaves when it has been laid, and its word has retired in a state `t` with the same messages. -/
theorem barred_layBar {s t : State} {scope : Nat} {a1 a2 b1 b2 : Bool}
    (hb : t.hart.run.bars = (addBar s s.cur (makeBar s s.cur scope a1 a2 b1 b2)).hart.run.bars) (hc : t.cur = s.cur)
    (ho : ∀ vec, outstanding t s.cur vec = outstanding s s.cur vec) (hr : remoteOut t s.cur = remoteOut s s.cur)
    (vec : Bool) :
    barred t s.cur vec = true ↔ barred s s.cur vec = true
      ∨ ((if vec then b2 else b1) = true ∧ s.cur < agentCount ∧ notPerformed s s.cur scope a1 a2 = true) := by
  have ht : t.hartAt s.cur = t.hart := by rw [State.hart, hc]
  have hb' : (t.hartAt s.cur).run.bars = ((addBar s s.cur (makeBar s s.cur scope a1 a2 b1 b2)).hartAt s.cur).run.bars := by
    rw [ht]
    exact hb
  rw [barred_congr hb' ho hr, barred_addBar, makeBar_holds]
  simp only [Bool.or_eq_true, Bool.and_eq_true, decide_eq_true_eq]
  tauto

/-! ## The end of a fence's word -/

/-- A fence with classes A (`a1` scalar, `a2` vector) and B at a scope has been laid by the current agent, whose word has
retired, and nothing else of the harts and of memory has changed (R181). -/
def FenceLaid (s t : State) (scope : Nat) (a1 a2 b1 b2 : Bool) : Prop :=
  t.mem = s.mem
  ∧ t.hart = { s.hart.retire with run := { s.hart.retire.run with bars := t.hart.run.bars } }
  ∧ (∀ k, k ≠ s.cur → t.hartAt k = s.hartAt k)
  ∧ ∀ vec : Bool, barred t s.cur vec = true ↔ barred s s.cur vec = true
      ∨ ((if vec then b2 else b1) = true ∧ s.cur < agentCount ∧ notPerformed s s.cur scope a1 a2 = true)

/-- A word that lays a fence and retires has laid it; what it changes besides in `v` is neither a hart, memory nor a
message. -/
theorem fenceLaid_retire {s v : State} {scope : Nat} {a1 a2 b1 b2 : Bool}
    (hm : v.mem = s.mem) (hc : v.cur = s.cur) (hk : v.coh = s.coh)
    (hh : v.harts = (addBar s s.cur (makeBar s s.cur scope a1 a2 b1 b2)).harts) :
    FenceLaid s (settleReads s.cur 0 (v.setHart v.hart.retire)) scope a1 a2 b1 b2 := by
  have hv (k : Nat) : v.hartAt k = (addBar s s.cur (makeBar s s.cur scope a1 a2 b1 b2)).hartAt k := by
    unfold State.hartAt
    rw [hh]
  have hcur : v.hart = (addBar s s.cur (makeBar s s.cur scope a1 a2 b1 b2)).hart := by
    unfold State.hart
    rw [hc]
    exact hv _
  have hbars : v.hart = { s.hart with run := { s.hart.run with bars := v.hart.run.bars } } := by
    rw [hcur]
    unfold addBar State.modHart
    rw [State.hart, State.setHartAt_cur, State.hartAt_setHartAt_self]
    rfl
  refine ⟨hm, ?_, fun k hne => ?_, barred_layBar ?_ hc (fun vec => ?_) ?_⟩
  · rw [settleReads_hart, State.hart_setHart, hbars]
    rfl
  · rw [settleReads_hartAt, State.hartAt_setHart_ne _ _ _ (by rw [hc]; exact hne), hv]
    exact State.hartAt_setHartAt_ne _ _ _ _ hne
  · rw [settleReads_hart, State.hart_setHart, ← hcur]
    rfl
  · rw [outstanding_settleReads, outstanding_setHart]
    exact outstanding_congr (by rw [hk]) (by rw [hk]) (by rw [hk]) _ _
  · rw [remoteOut_settleReads, remoteOut_setHart]
    unfold remoteOut
    rw [hk]

end Sys2Proof.Machine
end

section
/-! SUPPORT. The scalar integer words, FENCE, jumps and branches (R15). -/

namespace Sys2Proof.Machine

/-- FENCE lays its fence over the stores before it and retires (R287). -/
theorem fenceNow_eq (pred : BitVec 4) (s : State) :
    let v := addBar s s.cur (makeBar s s.cur 4 (bitOf pred 0) false true false)
    fenceNow pred s = .ok () (v.setHart v.hart.retire) := rfl

/-- A FENCE holds the hart's later scalar accesses while it has stores before it that are not performed. -/
theorem fence_ends {s : State} (hp : NoPrefix s) (fm pred succ : BitVec 4) (rs1 rd : BitVec 5) :
    Ends (.riscvInstruction (.fence fm pred succ rs1 rd)) s
      (fun t => FenceLaid s t 4 (bitOf pred 0) false true false) := by
  refine ⟨_, ?_, fenceLaid_retire (v := addBar s s.cur (makeBar s s.cur 4 (bitOf pred 0) false true false)) rfl rfl rfl rfl⟩
  refine (scalarWord_runs hp rfl).trans (runAct_ok ?_)
  exact fenceNow_eq pred s

/-- The fence of a scalar class before scalar accesses alone: what `fenceWaits` says, where the fence is over stores. -/
theorem notPerformed_scalar (s : State) (a : Bool) :
    notPerformed s s.cur 4 a false = true ↔ a = true ∧ fenceWaits s 4 = true := by
  unfold fenceWaits notPerformed
  cases a <;> simp

/-- The target of a jump lies in the virtual space at a word. -/
def Lands (t : Word) : Prop := t.toNat % 4 = 0 ∧ bitOf t 47 = false

/-- A jump that lands writes its link and goes on at its target. -/
theorem jump_givesX {s : State} {o : Rv} {rd : BitVec 5} {t : Word} (hp : NoPrefix s) (hl : rvLegal o s = true)
    (ho : rvMeaning o s = jumpTo (fun h => h.setX rd (h.pc + 4)) t s) (ht : Lands t) :
    GivesX (.riscvInstruction o) s rd (s.hart.pc + 4) t :=
  givesX_of rfl hp hl (ho.trans (jumpTo_ok ht.1 ht.2))

/-- A taken branch lands and writes no register. -/
theorem branch_taken {s : State} (hp : NoPrefix s) {c : BrCond} {rs1 rs2 : BitVec 5} {imm : BitVec 12}
    (hc : brTaken c (s.hart.getX rs1) (s.hart.getX rs2) = true)
    (ht : Lands (s.hart.pc + (imm ++ (0 : BitVec 1)).signExtend 64)) :
    GivesPc (.riscvInstruction (.branch c rs1 rs2 imm)) s (s.hart.pc + (imm ++ (0 : BitVec 1)).signExtend 64) :=
  givesX_of rfl hp rfl ((if_pos hc).trans (jumpTo_ok ht.1 ht.2))

/-- A branch that is not taken goes on at the next word. -/
theorem branch_not_taken {s : State} (hp : NoPrefix s) {c : BrCond} {rs1 rs2 : BitVec 5} {imm : BitVec 12}
    (hc : brTaken c (s.hart.getX rs1) (s.hart.getX rs2) = false) :
    GivesPc (.riscvInstruction (.branch c rs1 rs2 imm)) s (s.hart.pc + 4) :=
  givesX_of rfl hp rfl (if_neg (by rw [hc]; exact Bool.false_ne_true))

/-- A taken branch to a misaligned target traps with cause 0. -/
theorem branch_misaligned {s : State} (hp : NoPrefix s) {c : BrCond} {rs1 rs2 : BitVec 5} {imm : BitVec 12}
    (hc : brTaken c (s.hart.getX rs1) (s.hart.getX rs2) = true) (hm : isMilliner s.cur = false)
    (ht : (s.hart.pc + (imm ++ (0 : BitVec 1)).signExtend 64).toNat % 4 ≠ 0) :
    Traps (.riscvInstruction (.branch c rs1 rs2 imm)) s 0 (s.hart.pc + (imm ++ (0 : BitVec 1)).signExtend 64) :=
  traps_of rfl hp rfl hm ((if_pos hc).trans (if_pos ht))

/-- A word whose meaning writes an x register and retires. -/
theorem retireWith_givesX {s : State} {o : Rv} {rd : BitVec 5} {v : Word} (hp : NoPrefix s) (hl : rvLegal o s = true)
    (ho : rvMeaning o s = retireWith rd v s) : GivesX (.riscvInstruction o) s rd v (s.hart.pc + 4) :=
  givesX_of rfl hp hl (ho.trans (retireWith_eq s rd v))

/-- Settles O22: the words that write a register retire with its value, FENCE lays a fence, and jumps and branches land or
trap. -/
theorem scalarIntegersAndJumps : Obligations.ScalarIntegersAndJumps := by
  refine ⟨fun s hp => ⟨?_, ?_, ?_, ?_, ?_, ?_, fun fm pred succ rs1 rd => ?_⟩, fun s hp => ⟨?_, ?_, ?_⟩⟩
  · exact fun rd imm => retireWith_givesX hp rfl rfl
  · exact fun rd imm => retireWith_givesX hp rfl rfl
  · exact fun o rd rs1 imm => retireWith_givesX hp rfl rfl
  · exact fun o rd rs1 sh => retireWith_givesX hp rfl rfl
  · exact fun o rd rs1 rs2 => retireWith_givesX hp rfl rfl
  · exact fun o rd rs1 => retireWith_givesX hp rfl rfl
  · obtain ⟨t, ht, hmem, hhart, hothers, hbars⟩ := fence_ends hp fm pred succ rs1 rd
    refine ⟨t, ht, hmem, hhart, hothers, fun vec => (hbars vec).trans ?_⟩
    rw [notPerformed_scalar]
    cases vec <;> simp
  · exact fun rd imm => jump_givesX hp rfl rfl
  · exact fun rd rs1 imm => jump_givesX hp rfl rfl
  · exact fun c rs1 rs2 imm =>
      ⟨branch_taken hp, branch_not_taken hp, fun hc ht hm => branch_misaligned hp hc hm ht⟩

end Sys2Proof.Machine
end

section
/-! SUPPORT. The scalar words of F and D (R15): what a word that replaces the current agent's hart leaves, and the writes of
f registers and flags. -/

namespace Sys2Proof.Machine

/-! ## Words that replace the current agent's hart -/

/-- What a scalar word may leave of its hart: everything but PC, the x and f registers, fcsr, mstatus and the count, VELEM
and a wait. -/
structure HartFrame (h h' : Hart) : Prop where
  priv : h'.priv = h.priv
  vec : h'.vec = retiredVec h
  dev : h'.dev = h.dev
  ctl : h'.ctl = h.ctl
  ints : h'.ints = h.ints
  run : h'.run = { h.run with wait := h'.run.wait }

/-- Retirement keeps the frame of what it retires. -/
theorem hartFrame_retire {h h' : Hart} (hp : h'.priv = h.priv) (hv : h'.vec = h.vec) (hd : h'.dev = h.dev)
    (hc : h'.ctl = h.ctl) (hi : h'.ints = h.ints) (hr : h'.run = h.run) : HartFrame h h'.retire := by
  refine ⟨hp, ?_, hd, hc, hi, ?_⟩
  · show retiredVec h' = retiredVec h
    unfold retiredVec Hart.handling Hart.inHandler
    rw [hv, hp, hd]
  · simp only [Hart.retire, Hart.retireTo, hr]

/-- The frame of a scalar word holds of a state with the memory and the harts it began with, in which the current agent's
hart is then replaced. -/
theorem scalarFrame_setHart {s u : State} {h' : Hart} (hm : u.mem = s.mem) (hc : u.cur = s.cur) (hh : u.harts = s.harts)
    (hf : HartFrame s.hart h') : ScalarFrame s (settleReads s.cur 0 (u.setHart h')) := by
  obtain ⟨hpriv, hvec, hdev, hctl, hints, hrun⟩ := hf
  have others (k : Nat) (hk : k ≠ s.cur) : (u.setHart h').hartAt k = s.hartAt k := by
    rw [State.hartAt_setHart_ne _ _ _ (by rw [hc]; exact hk)]
    unfold State.hartAt
    rw [hh]
  refine ⟨hm, hc, ?_, ?_, ?_, ?_, ?_, ?_, others⟩ <;> rw [settleReads_hart, State.hart_setHart] <;> assumption

/-- A legal scalar word whose meaning replaces the hart completes with that hart. -/
theorem exec_setHart {s : State} {o : Rv} {h' : Hart} (hp : NoPrefix s) (hl : rvLegal o s = true)
    (ho : rvMeaning o s = .ok () (s.setHart h')) :
    exec (.riscvInstruction o) s = .next (settleReads s.cur 0 (s.setHart h')) :=
  (scalarWord_runs hp hl).trans (runAct_ok ho)

/-! ## Writes of f registers -/

/-- The value of an f register that holds a number of a format: an FP32 number is NaN-boxed (R15). -/
def fpBox (p : FpFmt) (v : Nat) : Word :=
  match p with
  | .d => bv 64 v
  | .s => bv 64 (v % 2 ^ 32 + (2 ^ 64 - 2 ^ 32))

theorem setFp_eq (h : Hart) (p : FpFmt) (r : BitVec 5) (v : Nat) : h.setFp p r v = h.setF r (fpBox p v) := by
  cases p <;> rfl

/-- A word of F or D writes an f register and goes on; its flags join fcsr, and FS is Dirty. -/
def WritesF (o : Rv) (s : State) (p : FpFmt) (rd : BitVec 5) (r : Nat × Ev) : Prop :=
  ∃ t, exec (.riscvInstruction o) s = .next t ∧ ScalarFrame s t ∧ XKept s t ∧ t.hart.pc = s.hart.pc + 4
    ∧ t.hart.f = s.hart.f.set rd.toNat (fpBox p r.1) rd.isLt
    ∧ t.hart.fcsr = s.hart.fcsr ||| (r.2 &&& 31).setWidth 8
    ∧ t.hart.csr = dirtyCsr (retiredCsr s.hart.csr)

/-- Setting FS to Dirty twice is setting it once. -/
theorem dirty_addFflags (h : Hart) (rd : BitVec 5) (v : Word) (ev : Ev) :
    ((h.setF rd v).addFflags ev).csr = dirtyCsr h.csr := by
  have twice : setField (setField h.csr.mstatus 13 2 3) 13 2 3 = setField h.csr.mstatus 13 2 3 := by
    apply BitVec.eq_of_getLsbD_eq
    intro i hi
    simp only [getLsbD_setField]
    split <;> rfl
  unfold Hart.addFflags Hart.setF dirtyCsr
  simp only [twice, ite_self]

/-- The word that puts a floating result in its register. -/
theorem putFp_writesF {s : State} {o : Rv} {p : FpFmt} {rd : BitVec 5} {r : Nat × Ev} (hp : NoPrefix s)
    (hl : rvLegal o s = true) (ho : rvMeaning o s = putFp p rd r s) : WritesF o s p rd r := by
  have ho' : rvMeaning o s = .ok () (s.setHart ((s.hart.setF rd (fpBox p r.1)).addFflags r.2).retire) := by
    rw [ho, ← setFp_eq]
    rfl
  refine ⟨_, exec_setHart hp hl ho', scalarFrame_setHart rfl rfl rfl (hartFrame_retire rfl rfl rfl rfl rfl rfl), ⟨?_, ?_⟩, ?_, ?_, ?_, ?_⟩
    <;> rw [settleReads_hart, State.hart_setHart]
  · rfl
  · rfl
  · rfl
  · rfl
  · rfl
  · show retiredCsr ((s.hart.setF rd (fpBox p r.1)).addFflags r.2).csr = _
    rw [dirty_addFflags]
    rfl

/-- A word that rounds, in a mode that is not reserved. -/
theorem rounded_writesF {s : State} {o : Rv} {p : FpFmt} {rd : BitVec 5} {rm : BitVec 3} {f : Hart → Rounding → Nat × Ev}
    (hp : NoPrefix s) (hl : rvLegal o s = true) (hm : s.hart.roundMode rm ≤ 4)
    (ho : rvMeaning o s = rounded p rd rm f s) : WritesF o s p rd (f s.hart (fpRounding p (s.hart.roundMode rm))) := by
  refine putFp_writesF hp hl (ho.trans ?_)
  exact ensure_bind _ _ _ (decide_eq_true hm)

/-! ## Writes of x registers by words of F and D -/

/-- A word of F or D writes an x register and goes on; its flags join fcsr, and FS is Dirty where there are any. -/
def WritesIntF (o : Rv) (s : State) (rd : BitVec 5) (v : Word) (ev : Ev) : Prop :=
  ∃ t, exec (.riscvInstruction o) s = .next t ∧ ScalarFrame s t ∧ SetsX s t rd v ∧ t.hart.pc = s.hart.pc + 4
    ∧ t.hart.f = s.hart.f ∧ t.hart.fcsr = s.hart.fcsr ||| (ev &&& 31).setWidth 8
    ∧ t.hart.csr = floatCsr (retiredCsr s.hart.csr) ev

/-- The count and FS are written independently. -/
theorem retiredCsr_addFflags (h : Hart) (ev : Ev) :
    retiredCsr (h.addFflags ev).csr = floatCsr (retiredCsr h.csr) ev := by
  unfold Hart.addFflags floatCsr retiredCsr
  split <;> rfl

/-- The word that puts an integer result and flags in their registers. -/
theorem putFx_writesIntF {s : State} {o : Rv} {rd : BitVec 5} {v : Word} {ev : Ev} (hp : NoPrefix s)
    (hl : rvLegal o s = true) (ho : rvMeaning o s = putFx rd v ev s) : WritesIntF o s rd v ev := by
  refine ⟨_, exec_setHart hp hl ho, scalarFrame_setHart rfl rfl rfl (hartFrame_retire ?_ ?_ ?_ ?_ ?_ ?_), ?_, ?_, ?_, ?_, ?_⟩
  iterate 6 simp
  · rw [SetsX, settleReads_hart, State.hart_setHart]
    exact ⟨rfl, rfl⟩
  · rw [settleReads_hart, State.hart_setHart]
    show ((s.hart.setX rd v).addFflags ev).pc + 4 = _
    simp
  · rw [settleReads_hart, State.hart_setHart]
    simp
  · rw [settleReads_hart, State.hart_setHart]
    show (s.hart.setX rd v).fcsr ||| _ = _
    simp
  · rw [settleReads_hart, State.hart_setHart]
    show retiredCsr ((s.hart.setX rd v).addFflags ev).csr = _
    rw [retiredCsr_addFflags, Hart.setX_csr]

/-- No events leave fcsr and mstatus as they are. -/
theorem addFflags_zero (h : Hart) : h.addFflags 0 = h := by
  have hz : ((0 : Ev) &&& 31).setWidth 8 = 0#8 := by decide
  unfold Hart.addFflags
  rw [if_pos (by decide), hz, BitVec.or_zero]

/-- A word that only writes an x register has no events. -/
theorem retireWith_writesIntF {s : State} {o : Rv} {rd : BitVec 5} {v : Word} (hp : NoPrefix s)
    (hl : rvLegal o s = true) (ho : rvMeaning o s = retireWith rd v s) : WritesIntF o s rd v 0 := by
  refine putFx_writesIntF hp hl (ho.trans ?_)
  show EStateM.Result.ok () (s.setHart (s.hart.setX rd v).retire)
    = EStateM.Result.ok () (s.setHart ((s.hart.setX rd v).addFflags 0).retire)
  rw [addFflags_zero]

/-- A move of a number from an x register has no events. -/
theorem fmvFromX_writesF {s : State} {p : FpFmt} {rd rs1 : BitVec 5} (hp : NoPrefix s)
    (hl : rvLegal (.fmvFromX p rd rs1) s = true) : WritesF (.fmvFromX p rd rs1) s p rd ((s.hart.getX rs1).toNat, 0) := by
  refine putFp_writesF hp hl ?_
  show EStateM.Result.ok () (s.setHart (s.hart.setFp p rd (s.hart.getX rs1).toNat).retire)
    = EStateM.Result.ok () (s.setHart ((s.hart.setFp p rd (s.hart.getX rs1).toNat).addFflags 0).retire)
  rw [addFflags_zero]

/-- A move of an FP64 number to an x register gives the f register as it is. -/
theorem fmvToX_d_writesIntF {s : State} {rd rs1 : BitVec 5} (hp : NoPrefix s) (hl : rvLegal (.fmvToX .d rd rs1) s = true) :
    WritesIntF (.fmvToX .d rd rs1) s rd (s.hart.getF rs1) 0 := by
  have e : bv 64 (s.hart.getF rs1).toNat = s.hart.getF rs1 := by simp
  exact retireWith_writesIntF hp hl (by rw [← e]; rfl)

/-- Settles O24: each word is one of the four forms of a write, with its operation as the model has it. -/
theorem scalarFloats : Obligations.ScalarFloats := by
  intro s hp hf hm val mode box floats ints
  have legal (o : Rv) : rvLegal o s = true := by
    unfold rvLegal
    rw [hf, hm]
    simp
  have inF {o : Rv} {p : FpFmt} {rd : BitVec 5} {r : Nat × Ev} (h : WritesF o s p rd r) : floats o p rd r := h
  refine ⟨?_, ?_, ?_, ?_, ?_, ?_, ?_, ?_, ?_, ?_, ?_⟩
  · exact fun o p rd rs1 rs2 rm h =>
      rounded_writesF (f := fun h r => fpArith o r (h.fpVal p rs1) (h.fpVal p rs2)) hp (legal _) h rfl
  · exact fun o p rd rs1 rs2 rs3 rm h =>
      rounded_writesF (f := fun h r => fpFma o r (h.fpVal p rs1) (h.fpVal p rs2) (h.fpVal p rs3)) hp (legal _) h rfl
  · exact fun p rd rs1 rm h => rounded_writesF (f := fun h r => sqrtVal r (h.fpVal p rs1)) hp (legal _) h rfl
  · exact fun o p rd rs1 rs2 => putFp_writesF hp (legal _) rfl
  · exact fun i p rd rs1 rm h =>
      rounded_writesF (f := fun _ r => roundVal r (fpFromInt i (s.hart.getX rs1))) hp (legal _) h rfl
  · intro rd rs1 rm h
    have single := inF (rounded_writesF (o := .fcvtSD rd rs1 rm) (p := .s) (rd := rd)
      (f := fun h r => roundVal r (h.fpVal .d rs1)) hp (legal _) h rfl)
    have double := inF (rounded_writesF (o := .fcvtDS rd rs1 rm) (p := .d) (rd := rd)
      (f := fun h r => roundVal r (h.fpVal .s rs1)) hp (legal _) h rfl)
    exact ⟨single, double⟩
  · exact fun p rd rs1 => fmvFromX_writesF hp (legal _)
  · exact fun o p rd rs1 rs2 => putFx_writesIntF hp (legal _) rfl
  · exact fun i p rd rs1 rm h => putFx_writesIntF hp (legal _) (if_neg (Nat.not_lt.mpr h))
  · exact fun p rd rs1 => retireWith_writesIntF hp (legal _) rfl
  · exact fun rd rs1 => ⟨retireWith_writesIntF hp (legal _) rfl, fmvToX_d_writesIntF hp (legal _)⟩

end Sys2Proof.Machine
end

section
/-! SUPPORT. ECALL, EBREAK and the returns from traps (R15, R135). -/

namespace Sys2Proof.Machine

/-- The bits of a status register after a return: each replaced bit, and the others as they were. -/
theorem bitOf_setBit {w : Nat} (x : BitVec w) (i j : Nat) (b : Bool) (hi : i < w) :
    bitOf (setBit x i b) j = if j = i then b else bitOf x j := by
  by_cases h : j = i
  · rw [if_pos h, h, bitOf_setBit_same x i b hi]
  · rw [if_neg h, bitOf_setBit_ne x i j b h]

/-- The bits of a field that is cleared are 0. -/
theorem bitOf_setField_zero {w : Nat} (x : BitVec w) (lo n j : Nat) :
    bitOf (setField x lo n 0) j = if lo ≤ j ∧ j < lo + n then false else bitOf x j := by
  split
  · rename_i hj
    unfold bitOf
    rw [getLsbD_setField]
    simp [hj]
  · exact bitOf_setField_apart x lo n 0 j (by omega)

/-- What a return from a trap leaves of its hart but mstatus: PC and the mode are the saved ones, and what was under way is
dropped. -/
def Hart.returned (h : Hart) (pc : Word) (p : Priv) (st : Word) : Hart :=
  { h with
    pc := pc
    priv := p
    csr := { retiredCsr h.csr with mstatus := st }
    run := { h.run with fetch := [], wait := none, body := none, pfxOwn := false } }

/-- mstatus after mret (R135). -/
def mretStatus (st : Word) : Word :=
  let new := setField (setBit (setBit st 3 (bitOf st 7)) 7 true) 11 2 0
  if Priv.ofCode (fieldOf st 11 2) = .m then new else setBit new 17 false

/-- mstatus after sret (R135). -/
def sretStatus (st : Word) : Word := setBit (setBit (setBit (setBit st 1 (bitOf st 5)) 5 true) 8 false) 17 false

theorem leaveTrap_m (h : Hart) : (h.leaveTrap true).countRetired
    = h.returned h.csr.mepc (.ofCode (fieldOf h.csr.mstatus 11 2)) (mretStatus h.csr.mstatus) := rfl

theorem leaveTrap_s (h : Hart) : (h.leaveTrap false).countRetired
    = h.returned h.csr.sepc (if bitOf h.csr.mstatus 8 then .s else .u) (sretStatus h.csr.mstatus) := rfl

/-- The mode that MPP names; the reserved number stands for U. -/
theorem ofCode_eq (c : Nat) : Priv.ofCode c = if c = 3 then .m else if c = 1 then .s else .u := by
  unfold Priv.ofCode
  split <;> simp_all

theorem bitOf_mretStatus (st : Word) (b : Nat) :
    bitOf (mretStatus st) b = if b = 3 then bitOf st 7
      else if b = 7 then true
      else if b = 11 ∨ b = 12 then false
      else if b = 17 ∧ Priv.ofCode (fieldOf st 11 2) ≠ .m then false
      else bitOf st b := by
  have hnew : bitOf (setField (setBit (setBit st 3 (bitOf st 7)) 7 true) 11 2 0) b = if b = 3 then bitOf st 7
      else if b = 7 then true else if b = 11 ∨ b = 12 then false else bitOf st b := by
    rw [bitOf_setField_zero, bitOf_setBit _ _ _ _ (by decide), bitOf_setBit _ _ _ _ (by decide)]
    split_ifs <;> grind
  unfold mretStatus
  split
  · rename_i hm
    simp only [hnew, hm]
    simp
  · rename_i hm
    rw [bitOf_setBit _ _ _ _ (by decide), hnew]
    split_ifs <;> simp_all

theorem bitOf_sretStatus (st : Word) (b : Nat) :
    bitOf (sretStatus st) b = if b = 1 then bitOf st 5
      else if b = 5 then true
      else if b = 8 ∨ b = 17 then false
      else bitOf st b := by
  unfold sretStatus
  simp only [bitOf_setBit _ _ _ _ (show (17 : Nat) < 64 by decide), bitOf_setBit _ _ _ _ (show (8 : Nat) < 64 by decide),
    bitOf_setBit _ _ _ _ (show (5 : Nat) < 64 by decide), bitOf_setBit _ _ _ _ (show (1 : Nat) < 64 by decide)]
  split_ifs <;> grind

/-- The meaning of a return: the mode decides whether it is legal, and its effect is on the hart alone. -/
theorem exec_xret (fromM : Bool) (s : State) : exec (.xret fromM) s = scalarWord (.xret fromM)
    (fun s => s.hart.priv = .m || (!fromM && s.hart.priv = .s && !(bitOf s.hart.csr.mstatus 22)))
    (onHart (fun h => (h.leaveTrap fromM).countRetired)) s := rfl

/-- A return that is legal completes with the returned hart. -/
theorem xret_becomes {s : State} {fromM : Bool} {pc st : Word} {p : Priv} (hp : NoPrefix s)
    (hl : s.hart.priv = .m ∨ (fromM = false ∧ s.hart.priv = .s ∧ bitOf s.hart.csr.mstatus 22 = false))
    (he : (s.hart.leaveTrap fromM).countRetired = s.hart.returned pc p st) :
    Becomes (.xret fromM) s (s.hart.returned pc p st) := by
  refine becomes_of (exec_xret fromM s) hp ?_ ?_
  · rcases hl with h | ⟨h1, h2, h3⟩
    · simp [h]
    · simp [h1, h2, h3]
  · rw [← he]
    rfl

/-- A return in a mode that may not execute it is illegal. -/
theorem xret_illegal {s : State} {fromM : Bool} {word : Nat} (hm : isMilliner s.cur = false) (hp : s.hart.priv ≠ .m)
    (hl : fromM = true ∨ s.hart.priv = .u ∨ bitOf s.hart.csr.mstatus 22 = true)
    (hw : (wordOf (.xret fromM)).setWidth 64 = bv 64 word) : Illegal (.xret fromM) s word := by
  unfold Illegal
  rw [← hw]
  refine illegal_of (exec_xret fromM s) ?_ hm
  rcases hl with h | h | h
  · simp [h, hp]
  · simp [h]
  · simp [h, hp]

/-- Settles O25: the calls trap with the cause of their mode, and a return replaces the hart, bit by bit of mstatus. -/
theorem trapsAndReturns : Obligations.TrapsAndReturns := by
  refine ⟨fun s hp hm => ⟨?_, traps_of rfl hp rfl hm rfl⟩, fun s hp => ⟨fun hpriv => ?_, fun hmode => ?_, fun hm => ⟨?_, ?_⟩⟩⟩
  · have call : Traps (.riscvInstruction .ecall) s (ecallCause s.hart.priv) 0 := traps_of rfl hp rfl hm rfl
    convert call using 1
    cases s.hart.priv <;> rfl
  · obtain ⟨t, ht, honly, hhart⟩ := xret_becomes hp (.inl hpriv) (leaveTrap_m s.hart)
    refine ⟨t, ht, honly, ?_, fun b => ?_⟩
    · rw [hhart, ← ofCode_eq]
      rfl
    · rw [hhart, ← ofCode_eq]
      exact bitOf_mretStatus _ _
  · obtain ⟨t, ht, honly, hhart⟩ := xret_becomes hp (hmode.imp_right fun h => ⟨rfl, h⟩) (leaveTrap_s s.hart)
    exact ⟨t, ht, honly, by rw [hhart]; rfl, fun b => by rw [hhart]; exact bitOf_sretStatus _ _⟩
  · exact fun h => xret_illegal hm h (.inl rfl) (by decide)
  · rintro (h | ⟨h, hb⟩)
    · exact xret_illegal hm (by rw [h]; decide) (.inr (.inl h)) (by decide)
    · exact xret_illegal hm (by rw [h]; decide) (.inr (.inr hb)) (by decide)

end Sys2Proof.Machine
end

section
/-! SUPPORT. Control and status registers (R15, R23-R30): one lemma for an access, one for when it is legal, and the
registers by their address. -/

namespace Sys2Proof.Machine

/-! ## An access -/

/-- The value an access works with: an x register, or the immediate. -/
def csrOperand (s : State) (imm : Bool) (src : BitVec 5) : Word := if imm then src.setWidth 64 else s.hart.getX src

/-- The hart after an access: the old value in `rd`, and the register written after the word's retirement. -/
def csrAfter (s : State) (o : CsrOp) (imm : Bool) (c : Nat) (src rd : BitVec 5) : Hart :=
  let h := s.hart.gives rd ((readCsr s c).getD 0)
  if (o = .rw || src ≠ 0 : Bool) then writeCsr s c (csrNew o (csrOld s c) (csrOperand s imm src)) h else h

/-- An access that is legal, and that does not wait for the vector queue, completes. -/
theorem csr_becomes {s : State} {o : CsrOp} {imm : Bool} {csr : BitVec 12} {src rd : BitVec 5} (hp : NoPrefix s)
    (hl : csrLegal csr.toNat (o = .rw || src ≠ 0) s = true) (hq : csrWaits s csr.toNat = false) :
    Becomes (.csrAccess o imm csr src rd) s (csrAfter s o imm csr.toNat src rd) := by
  refine becomes_of (i := .csrAccess o imm csr src rd) rfl hp hl ?_
  exact ensure_bind _ _ _ (by rw [hq]; rfl)

/-- VELEM, VPFX and VFFLAGS are the registers whose access waits for the vector queue (R24). -/
theorem csrWaits_false {s : State} {c : Nat} (h : 0x800 ≤ c ∧ c ≤ 0x802 → s.hart.run.queue = []) : csrWaits s c = false := by
  unfold csrWaits
  by_cases hc : 0x800 ≤ c ∧ c ≤ 0x802
  · simp [h hc]
  · simp only [Bool.and_eq_false_iff, decide_eq_false_iff_not]
    exact .inl (not_and_or.mp hc)

/-- A swap gives the old value and writes the operand. -/
theorem csr_swaps {s : State} {csr : BitVec 12} {c : Nat} {src rd : BitVec 5} {old : Word} (hc : csr.toNat = c)
    (hp : NoPrefix s) (hl : csrLegal c true s = true) (hq : 0x800 ≤ c ∧ c ≤ 0x802 → s.hart.run.queue = [])
    (hr : readCsr s c = some old) :
    Becomes (.csrAccess .rw false csr src rd) s (writeCsr s c (s.hart.getX src) (s.hart.gives rd old)) := by
  have h := csr_becomes (o := .rw) (imm := false) (csr := csr) (src := src) (rd := rd) hp (by rw [hc]; exact hl)
    (csrWaits_false (by rw [hc]; exact hq))
  unfold csrAfter at h
  rw [hc, hr] at h
  exact h

/-- A set with x0 gives the old value and writes nothing. -/
theorem csr_reads {s : State} {csr : BitVec 12} {c : Nat} {rd : BitVec 5} {old : Word} (hc : csr.toNat = c)
    (hp : NoPrefix s) (hl : csrLegal c false s = true) (hq : 0x800 ≤ c ∧ c ≤ 0x802 → s.hart.run.queue = [])
    (hr : readCsr s c = some old) : Becomes (.csrAccess .rs false csr 0 rd) s (s.hart.gives rd old) := by
  have h := csr_becomes (o := .rs) (imm := false) (csr := csr) (src := 0) (rd := rd) hp (by rw [hc]; exact hl)
    (csrWaits_false (by rw [hc]; exact hq))
  unfold csrAfter at h
  rw [hc, hr] at h
  exact h

/-- An access to no register, beyond the mode, or that writes a read-only register is illegal. -/
theorem csr_illegal {s : State} {o : CsrOp} {imm : Bool} {csr : BitVec 12} {src rd : BitVec 5}
    (hm : isMilliner s.cur = false) (h : readCsr s csr.toNat = none ∨ s.hart.priv.code < csr.toNat / 256 % 4
      ∨ ((o = .rw || src ≠ 0 : Bool) = true ∧ csr.toNat / 1024 = 3)) :
    Illegal (.csrAccess o imm csr src rd) s ((encode (.csrAccess o imm csr src rd)).getD 0).toNat := by
  unfold Illegal
  have hl : csrLegal csr.toNat (o = .rw || src ≠ 0) s = false := by
    unfold csrLegal
    rcases h with h | h | ⟨h, h'⟩
    · simp [h]
    · simp [Nat.not_le.mpr h]
    · rw [h, h']
      simp
  have hi := illegal_of (i := .csrAccess o imm csr src rd) rfl hl hm
  rwa [wordOf, ← BitVec.ofNat_toNat] at hi

/-! ## When an access is legal -/

/-- What makes an access legal, for the registers that are neither of floating point, of an interrupt file, a counter that a
mode may close, nor satp (R14, R30, R73, R324). -/
theorem csrLegal_of {s : State} {c : Nat} {writes : Bool} (hr : (readCsr s c).isSome = true)
    (hmode : c / 256 % 4 ≤ s.hart.priv.code) (hw : writes = true → c / 1024 ≠ 3)
    (hd : isDeviceCsr s.hart c = true → kindOf s.cur ≠ .system ∧ (isMilliner s.cur = true → millinerCsr c = true))
    (hf : 3 < c) (hfile : isFileCsr c = false) (hcount : 0xC00 ≤ c → c < 0xC20 → s.hart.priv = .m) (hsatp : c ≠ 0x180) :
    csrLegal c writes s = true := by
  have hopen : 0xC00 ≤ c → c < 0xC20 → counterOpen s.hart c = true := by
    intro h1 h2
    unfold counterOpen
    rw [hcount h1 h2]
  unfold csrLegal
  rw [hr, hfile]
  simp only [Bool.and_eq_true, decide_eq_true_eq, Bool.not_eq_true', Bool.and_eq_false_iff, Bool.or_eq_true,
    Bool.or_eq_false_iff, decide_eq_false_iff_not, true_and, Bool.or_false, Bool.not_eq_false']
  refine ⟨⟨⟨⟨⟨⟨hmode, ?_⟩, ?_⟩, .inr (Nat.not_le.mpr hf)⟩, .inl hf⟩, ?_⟩, .inl (.inl hsatp)⟩
  · cases writes
    · exact .inl rfl
    · exact .inr (hw rfl)
  · cases hdc : isDeviceCsr s.hart c
    · exact .inl rfl
    · obtain ⟨hk, hmil⟩ := hd hdc
      refine .inr ⟨hk, ?_⟩
      cases hm : isMilliner s.cur
      · exact .inl rfl
      · exact .inr (hmil hm)
  · by_cases h1 : 0xC00 ≤ c
    · by_cases h2 : c < 0xC20
      · exact .inr (hopen h1 h2)
      · exact .inl (.inr h2)
    · exact .inl (.inl h1)

/-- A register without a condition of its own beside its mode: none of floating point, of an interrupt file, a counter or
satp. -/
def plainCsr (c : Nat) : Bool := 3 < c && !(isFileCsr c) && !(0xC00 ≤ c && c < 0xC20) && c ≠ 0x180

/-- An access to a plain register that the mode allows is legal. -/
theorem csrLegal_plain {s : State} {c : Nat} {writes : Bool} {old : Word} (hp : plainCsr c = true)
    (hr : readCsr s c = some old) (hmode : c / 256 % 4 ≤ s.hart.priv.code) (hw : (writes && c / 1024 = 3) = false)
    (hd : isDeviceCsr s.hart c = true → kindOf s.cur ≠ .system ∧ (isMilliner s.cur = true → millinerCsr c = true)) :
    csrLegal c writes s = true := by
  simp only [plainCsr, Bool.and_eq_true, decide_eq_true_eq, Bool.not_eq_true', Bool.and_eq_false_iff,
    decide_eq_false_iff_not] at hp hw
  obtain ⟨⟨⟨hf, hfile⟩, hcount⟩, hsatp⟩ := hp
  refine csrLegal_of (by rw [hr]; rfl) hmode (fun h => ?_) hd hf hfile (fun h1 h2 => ?_) hsatp
  · rcases hw with hw | hw
    · rw [h] at hw
      cases hw
    · exact hw
  · rcases hcount with hcount | hcount
    · exact absurd h1 hcount
    · exact absurd h2 hcount

/-- A compute hart has every register of R30. -/
theorem compute_csr {s : State} (h : kindOf s.cur = .compute) (c : Nat) :
    isDeviceCsr s.hart c = true → kindOf s.cur ≠ .system ∧ (isMilliner s.cur = true → millinerCsr c = true) := by
  intro _
  refine ⟨by rw [h]; decide, fun hm => ?_⟩
  unfold kindOf at h
  unfold isMilliner at hm
  have hm' := of_decide_eq_true hm
  split_ifs at h with h1
  omega

/-- A mode above U may access the registers of S mode. -/
theorem one_le_code {p : Priv} (h : p ≠ .u) : 1 ≤ p.code := by
  cases p
  · exact absurd rfl h
  · decide
  · decide

/-- LSTAT counts the running leases (R27). -/
theorem lstat_eq (h : Hart) : h.lstat
    = bv 64 (h.dev.held.toNat * 4 + (h.run.leases[1]).isSome.toNat * 2 + (h.run.leases[0]).isSome.toNat) := by
  simp [Hart.lstat]

/-! ## The statement -/

/-- Settles O30: an access is `csrAfter`, and each register's read and write stand in the tables of the model by its
address. -/
theorem csrAccesses : Obligations.CsrAccesses := by
  refine ⟨fun s o imm csr src rd hp => ⟨fun hl hq => ?_, csr_illegal⟩,
    fun s src rd hp => ⟨fun hk hq => ?_, fun hk => ?_, fun hpriv => ?_, fun hpriv => ?_⟩⟩
  · have h := csr_becomes (imm := imm) (src := src) (rd := rd) hp hl (csrWaits_false hq)
    cases o <;> exact h
  · have legal {c : Nat} {writes : Bool} {old : Word} (hc : plainCsr c = true) (hm : millinerCsr c = true)
        (hr : readCsr s c = some old) (h0 : c / 256 % 4 = 0) (hw : (writes && c / 1024 = 3) = false) :
        csrLegal c writes s = true :=
      csrLegal_plain hc hr (by rw [h0]; exact Nat.zero_le _) hw fun _ => ⟨hk, fun _ => hm⟩
    refine ⟨?_, ?_, ?_, ?_, ?_, ?_, ?_⟩
    · exact csr_swaps rfl hp (legal rfl rfl rfl rfl rfl) (fun _ => hq) rfl
    · exact csr_swaps rfl hp (legal rfl rfl rfl rfl rfl) (fun _ => hq) rfl
    · exact csr_swaps rfl hp (legal rfl rfl rfl rfl rfl) (fun _ => hq) rfl
    · exact csr_swaps rfl hp (legal rfl rfl rfl rfl rfl) (fun _ => hq) rfl
    · exact csr_reads rfl hp (legal rfl rfl rfl rfl rfl) (fun _ => hq) rfl
    · exact csr_reads rfl hp (legal rfl rfl rfl rfl rfl) (fun _ => hq) rfl
    · exact csr_reads rfl hp (legal rfl rfl rfl rfl rfl) (fun _ => hq) (congrArg some (lstat_eq _))
  · have legal {c : Nat} {writes : Bool} {old : Word} (hc : plainCsr c = true) (hr : readCsr s c = some old)
        (h0 : c / 256 % 4 ≤ s.hart.priv.code) (hw : (writes && c / 1024 = 3) = false) : csrLegal c writes s = true :=
      csrLegal_plain hc hr h0 hw (compute_csr hk c)
    have user : 0 ≤ s.hart.priv.code := Nat.zero_le _
    have late {c : Nat} (h : 0x802 < c) : 0x800 ≤ c ∧ c ≤ 0x802 → s.hart.run.queue = [] := fun hc => by omega
    refine ⟨?_, ?_, ?_, ?_, ?_, ?_, ?_, fun hpriv => ⟨?_, ?_⟩⟩
    · exact csr_swaps rfl hp (legal rfl rfl user rfl) (late (by decide)) rfl
    · exact csr_swaps rfl hp (legal rfl rfl user rfl) (late (by decide)) rfl
    · exact csr_swaps rfl hp (legal rfl rfl user rfl) (late (by decide)) rfl
    · exact csr_reads rfl hp (legal rfl rfl user rfl) (late (by decide)) rfl
    · exact csr_reads rfl hp (legal rfl rfl user rfl) (late (by decide)) rfl
    · exact csr_reads rfl hp (legal rfl rfl user rfl) (late (by decide)) rfl
    · exact csr_reads rfl hp (legal rfl rfl user rfl) (late (by decide)) rfl
    · exact csr_swaps rfl hp (legal rfl rfl (one_le_code hpriv) rfl) (fun h => absurd h (by decide)) rfl
    · exact csr_swaps rfl hp (legal rfl rfl (one_le_code hpriv) rfl) (fun h => absurd h (by decide)) rfl
  · have legal {c : Nat} {old : Word} (hc : plainCsr c = true) (hr : readCsr s c = some old) (h0 : c / 256 % 4 = 1)
        (hw : c / 1024 = 0) (hd : isDeviceCsr s.hart c = false) : csrLegal c true s = true :=
      csrLegal_plain hc hr (by rw [h0]; exact one_le_code hpriv) (by rw [hw]; rfl) fun h => by rw [hd] at h; cases h
    refine ⟨?_, ?_, ?_, ?_⟩
    · exact csr_swaps rfl hp (legal rfl rfl rfl rfl rfl) (fun h => absurd h (by decide)) rfl
    · exact csr_swaps rfl hp (legal rfl rfl rfl rfl rfl) (fun h => absurd h (by decide)) rfl
    · exact csr_swaps rfl hp (legal rfl rfl rfl rfl rfl) (fun h => absurd h (by decide)) rfl
    · exact csr_swaps rfl hp (legal rfl rfl rfl rfl rfl) (fun h => absurd h (by decide)) rfl
  · have machine {c : Nat} : c / 256 % 4 ≤ s.hart.priv.code := by
      rw [hpriv]
      exact Nat.le_of_lt_succ (Nat.mod_lt _ (by decide))
    have legal {c : Nat} {writes : Bool} {old : Word} (hc : plainCsr c = true) (hr : readCsr s c = some old)
        (hw : (writes && c / 1024 = 3) = false) (hd : isDeviceCsr s.hart c = false) : csrLegal c writes s = true :=
      csrLegal_plain hc hr machine hw fun h => by rw [hd] at h; cases h
    refine ⟨?_, ?_, ?_, ?_, ?_, ?_, ?_⟩
    · exact csr_swaps rfl hp (legal rfl rfl rfl rfl) (fun h => absurd h (by decide)) rfl
    · exact csr_swaps rfl hp (legal rfl rfl rfl rfl) (fun h => absurd h (by decide)) rfl
    · exact csr_swaps rfl hp (legal rfl rfl rfl rfl) (fun h => absurd h (by decide)) rfl
    · exact csr_swaps rfl hp (legal rfl rfl rfl rfl) (fun h => absurd h (by decide)) rfl
    · exact csr_reads rfl hp (legal rfl rfl rfl rfl) (fun h => absurd h (by decide)) rfl
    · exact csr_reads rfl hp (legal rfl rfl rfl rfl) (fun h => absurd h (by decide)) rfl
    · exact csr_reads rfl hp (csrLegal_of rfl machine (fun h => by cases h) (fun h => by cases h) (by decide) rfl
        (fun _ _ => hpriv) (by decide)) (fun h => absurd h (by decide)) rfl

end Sys2Proof.Machine
end

section
/-! SUPPORT. WFI and fence.i (R15, R169), sfence.vma (R277), the ordering words and vdrain (R179-R182), and the entries of the
vector queue (R157). -/

namespace Sys2Proof.Machine

/-! ## WFI and fence.i -/

/-- The meaning of WFI: it retires where an enabled interrupt is pending, and else waits. -/
theorem exec_wfi (s : State) : exec .wfi s = scalarWord .wfi
    (fun s => s.hart.priv = .m || (!(bitOf s.hart.csr.mstatus 21) && (s.hart.priv = .s || wfiEnds s)))
    (do
      let s ← getS
      if wfiEnds s then onHart Hart.retire else stallWith (waitHere s .wfi (2 ^ 63))) s := rfl

theorem wfi_retires {s : State} (hp : NoPrefix s) (hl : s.hart.priv = .m ∨ bitOf s.hart.csr.mstatus 21 = false ∧ s.hart.priv = .s)
    (hw : mipOf s s.cur &&& s.hart.csr.mie ≠ 0) : Becomes .wfi s s.hart.retire := by
  refine becomes_of (exec_wfi s) hp ?_ ?_
  · rcases hl with h | ⟨h1, h2⟩
    · simp [h]
    · simp [h1, h2]
  · have hw' : wfiEnds s = true := decide_eq_true hw
    simp only [getS_bind, hw', if_true]
    rfl

theorem wfi_waits {s : State} (hp : NoPrefix s) (hl : s.hart.priv = .m ∨ bitOf s.hart.csr.mstatus 21 = false ∧ s.hart.priv = .s)
    (hw : ¬ mipOf s s.cur &&& s.hart.csr.mie ≠ 0) :
    Ends .wfi s (fun t => OnlyHart s t ∧ t.hart = { s.hart with run := { s.hart.run with wait := t.hart.run.wait } }) := by
  refine ⟨_, (exec_wfi s).trans ((scalarWord_runs hp ?_).trans (runAct_stall (t := s.setHart { s.hart with
    run := { s.hart.run with wait := some (waitHere s .wfi (2 ^ 63)) } }) ?_)),
    ⟨fun k hk => State.hartAt_setHart_ne _ _ _ hk, rfl⟩, ?_⟩
  · rcases hl with h | ⟨h1, h2⟩
    · simp [h]
    · simp [h1, h2]
  · have hw' : wfiEnds s = false := decide_eq_false hw
    simp only [getS_bind, hw', Bool.false_eq_true, if_false]
    rfl
  · rw [State.hart_setHart]

theorem wfi_illegal {s : State} (hm : isMilliner s.cur = false) (hp : s.hart.priv ≠ .m)
    (hw : bitOf s.hart.csr.mstatus 21 = true) : Illegal .wfi s 0x10500073 := by
  have h := illegal_of (exec_wfi s) (by simp [hp, hw]) hm
  exact h

/-- fence.i empties the fetch buffer and retires (R169). -/
theorem fenceI_becomes {s : State} (hp : NoPrefix s) (imm : BitVec 12) (rs1 rd : BitVec 5) :
    Becomes (.fenceI imm rs1 rd) s { s.hart.retire with run := { s.hart.retire.run with fetch := [] } } :=
  becomes_of (legal := fun _ => true) (a := onHart fun h => { h.retire with run := { h.retire.run with fetch := [] } })
    rfl hp rfl rfl

/-! ## sfence.vma -/

/-- The translations that sfence.vma removes (R277): of the page of rs1, or all, and of the ASID of rs2 but for global
ones, or all. -/
def Fenced (h : Hart) (rs2 rs1 : BitVec 5) (e : TlbEnt) : Prop :=
  (rs1 = 0 ∨ e.vpn = (h.getX rs1).toNat % 2 ^ 47 / 2 ^ pageBits e.level)
    ∧ (rs2 = 0 ∨ (bitOf e.leaf 5 = false ∧ e.asid.toNat = (h.getX rs2).toNat % 65536))

theorem fenced_iff (h : Hart) (rs2 rs1 : BitVec 5) (e : TlbEnt) :
    fenced (if rs1 = 0 then none else some (h.getX rs1).toNat) (if rs2 = 0 then none else some (h.getX rs2).toNat) e = true
      ↔ Fenced h rs2 rs1 e := by
  unfold fenced Fenced
  rw [Bool.and_eq_true]
  refine and_congr ?_ ?_
  · by_cases h : rs1 = 0
    · rw [if_pos h]
      exact iff_of_true rfl (.inl h)
    · rw [if_neg h, or_iff_right h]
      exact decide_eq_true_iff
  · by_cases h : rs2 = 0
    · rw [if_pos h]
      exact iff_of_true rfl (.inl h)
    · rw [if_neg h, or_iff_right h]
      simp

/-- Removing translations leaves memory, the harts and the current agent. -/
theorem fenceTlbs_frame (who : Nat) (f : TlbEnt → Bool) (s : State) :
    (fenceTlbs who f s).mem = s.mem ∧ (fenceTlbs who f s).harts = s.harts ∧ (fenceTlbs who f s).cur = s.cur := by
  unfold fenceTlbs
  split
  · exact ⟨rfl, rfl, rfl⟩
  · split <;> exact ⟨rfl, rfl, rfl⟩

/-- Removing translations keeps exactly the others in the L1 TLB the agent uses, and every other L1 TLB. -/
theorem mem_tlb_fenceTlbs (who : Nat) (f : TlbEnt → Bool) (s : State) (c : Nat) (e : TlbEnt) :
    e ∈ ((fenceTlbs who f s).coreAt c).tlb ↔ e ∈ (s.coreAt c).tlb ∧ (tlbIndex who = some c → f e = false) := by
  unfold fenceTlbs
  cases hi : tlbIndex who with
  | none => simp
  | some i =>
    have hcore : e ∈ ((s.setCoreAt i { s.coreAt i with tlb := (s.coreAt i).tlb.filter (fun t => !(f t)) }).coreAt c).tlb
        ↔ e ∈ (s.coreAt c).tlb ∧ (some i = some c → f e = false) := by
      by_cases hc : c = i
      · subst hc
        simp
      · rw [State.coreAt_setCoreAt_ne _ _ _ _ hc]
        simp [Ne.symm hc]
    dsimp only
    split
    · exact hcore
    · exact hcore

/-- On a compute hart removing translations keeps exactly the others in its cluster's L2 TLB; no other L2 TLB changes. -/
theorem mem_tlb2_fenceTlbs (who : Nat) (f : TlbEnt → Bool) (s : State) (c : Nat) (e : TlbEnt) :
    e ∈ ((fenceTlbs who f s).clusterAt c).tlb ↔ e ∈ (s.clusterAt c).tlb
      ∧ (kindOf who = .compute → c = clusterOf who → f e = false) := by
  unfold fenceTlbs
  cases hi : tlbIndex who with
  | none =>
    have hk : kindOf who ≠ .compute := by
      intro h
      unfold tlbIndex at hi
      rw [h] at hi
      cases hi
    simp [hk]
  | some i =>
    dsimp only
    by_cases hk : kindOf who = .compute
    · rw [if_pos hk]
      unfold State.modCluster
      by_cases hc : c = clusterOf who
      · subst hc
        rw [State.clusterAt_setClusterAt_self, State.clusterAt, State.setCoreAt_clusters]
        simp [State.clusterAt, hk]
      · rw [State.clusterAt_setClusterAt_ne _ _ _ _ hc, State.clusterAt, State.setCoreAt_clusters]
        simp [State.clusterAt, hc]
    · rw [if_neg hk, State.clusterAt, State.setCoreAt_clusters]
      simp [State.clusterAt, hk]

/-- The meaning of sfence.vma: it waits for the vector queue and for the hart's stores, removes translations and retires. -/
theorem exec_sfenceVma (rs2 rs1 : BitVec 5) (s : State) : exec (.sfenceVma rs2 rs1) s = scalarWord (.sfenceVma rs2 rs1)
    (fun s => s.hart.priv = .m || (s.hart.priv = .s && !(bitOf s.hart.csr.mstatus 20))) (do
      let s ← getS
      let h := s.hart
      ensure (vecDrained s s.cur && !(bothWait s 4)) .stall
      let va := if rs1 = 0 then none else some (h.getX rs1).toNat
      let asid := if rs2 = 0 then none else some (h.getX rs2).toNat
      setS (fenceTlbs s.cur (fenced va asid) s)
      onHart Hart.retire) s := rfl

theorem sfence_legal {s : State} (h : s.hart.priv = .m ∨ (s.hart.priv = .s ∧ bitOf s.hart.csr.mstatus 20 = false)) :
    (decide (s.hart.priv = .m) || (decide (s.hart.priv = .s) && !(bitOf s.hart.csr.mstatus 20))) = true := by
  rcases h with h | ⟨h1, h2⟩
  · simp [h]
  · simp [h1, h2]

/-- sfence.vma waits while the queue is not drained or a store is not performed. -/
theorem sfence_waits {s : State} (hp : NoPrefix s) (rs2 rs1 : BitVec 5)
    (hl : s.hart.priv = .m ∨ (s.hart.priv = .s ∧ bitOf s.hart.csr.mstatus 20 = false))
    (hw : vecDrained s s.cur = false ∨ bothWait s 4 = true) : exec (.sfenceVma rs2 rs1) s = .next s := by
  rw [exec_sfenceVma, scalarWord_runs hp (sfence_legal hl)]
  refine runAct_stall ((getS_bind _ _).trans (bind_error _ ?_))
  have hw' : (vecDrained s s.cur && !(bothWait s 4)) = false := by
    rcases hw with h | h <;> simp [h]
  unfold ensure
  rw [hw']
  rfl

/-- sfence.vma removes the translations its operands name, and retires. -/
theorem sfence_removes {s : State} (hp : NoPrefix s) (rs2 rs1 : BitVec 5)
    (hl : s.hart.priv = .m ∨ (s.hart.priv = .s ∧ bitOf s.hart.csr.mstatus 20 = false))
    (hd : vecDrained s s.cur = true) (hb : bothWait s 4 = false) :
    Ends (.sfenceVma rs2 rs1) s (fun t => t.mem = s.mem ∧ t.hart = s.hart.retire
      ∧ (∀ c e, e ∈ (t.coreAt c).tlb ↔ e ∈ (s.coreAt c).tlb ∧ (tlbIndex s.cur = some c → ¬ Fenced s.hart rs2 rs1 e))
      ∧ (∀ c e, e ∈ (t.clusterAt c).tlb ↔ e ∈ (s.clusterAt c).tlb
          ∧ (kindOf s.cur = .compute → c = clusterOf s.cur → ¬ Fenced s.hart rs2 rs1 e))) := by
  let f := fenced (if rs1 = 0 then none else some (s.hart.getX rs1).toNat)
    (if rs2 = 0 then none else some (s.hart.getX rs2).toNat)
  let v := fenceTlbs s.cur f s
  have hf (e : TlbEnt) : f e = false ↔ ¬ Fenced s.hart rs2 rs1 e := by
    rw [← fenced_iff, Bool.not_eq_true]
  obtain ⟨hmem, hharts, hcur⟩ := fenceTlbs_frame s.cur f s
  have hv : v.hart = s.hart := by
    unfold State.hart State.hartAt
    rw [hharts, hcur]
  have hrun : (ensure (vecDrained s s.cur && !(bothWait s 4)) .stall : Act Unit) s = .ok () s :=
    ensure_true _ _ (by rw [hd, hb]; rfl)
  refine ⟨settleReads s.cur 0 (v.setHart v.hart.retire), ?_, hmem, ?_, fun c e => ?_, fun c e => ?_⟩
  · rw [exec_sfenceVma, scalarWord_runs hp (sfence_legal hl)]
    exact runAct_ok (bind_ok _ hrun)
  · rw [settleReads_hart, State.hart_setHart, hv]
  · rw [← hf]
    exact mem_tlb_fenceTlbs s.cur f s c e
  · rw [← hf]
    exact mem_tlb2_fenceTlbs s.cur f s c e

/-! ## The ordering words and vdrain -/

/-- What the word of a fence leaves: the fence is laid, and beside the hart only the words of other modules that its core
held may be gone, as they are at domain scope (R181, R283). -/
def FenceEnds (s t : State) (scope : Nat) (a1 a2 b1 b2 : Bool) : Prop :=
  t.mem = s.mem
  ∧ t.hart = { s.hart.retire with run := { s.hart.retire.run with bars := t.hart.run.bars } }
  ∧ (∀ k, k ≠ s.cur → t.hartAt k = s.hartAt k)
  ∧ (∀ vec : Bool, barred t s.cur vec = true ↔ barred s s.cur vec = true
      ∨ ((if vec then b2 else b1) = true ∧ s.cur < agentCount ∧ notPerformed s s.cur scope a1 a2 = true))
  ∧ (scope ≠ 5 → OnlyHart s t)
  ∧ (scope = 5 → kindOf s.cur = .compute → (t.coreAt (coreOf s.cur)).remote = [] ∧ (t.coreAt (coreOf s.cur)).texRemote = [])

/-- A fence that has been laid in a word that only replaces the hart. -/
theorem fenceEnds_setHart (s : State) (scope : Nat) (a1 a2 b1 b2 : Bool) (h5 : scope ≠ 5) :
    let u := addBar s s.cur (makeBar s s.cur scope a1 a2 b1 b2)
    FenceEnds s (settleReads s.cur 0 (u.setHart u.hart.retire)) scope a1 a2 b1 b2 := by
  intro u
  obtain ⟨hmem, hhart, hothers, hbars⟩ :=
    fenceLaid_retire (v := u) (scope := scope) (a1 := a1) (a2 := a2) (b1 := b1) (b2 := b2) (s := s) rfl rfl rfl rfl
  exact ⟨hmem, hhart, hothers, hbars, fun _ => ⟨hothers, rfl⟩, fun h => absurd h h5⟩

/-- A hart's core that drops the words of other modules changes nothing else. -/
theorem dropRemoteWords_frame (s : State) (h : Nat) :
    (dropRemoteWords s h).mem = s.mem ∧ (dropRemoteWords s h).cur = s.cur ∧ (dropRemoteWords s h).coh = s.coh
      ∧ (dropRemoteWords s h).harts = s.harts := by
  unfold dropRemoteWords
  split <;> exact ⟨rfl, rfl, rfl, rfl⟩

/-- A fence at domain scope, whose core has dropped the words of other modules. -/
theorem fenceEnds_domain (s : State) (a1 a2 b1 b2 : Bool) :
    let u := addBar s s.cur (makeBar s s.cur 5 a1 a2 b1 b2)
    let v := dropRemoteWords u u.cur
    FenceEnds s (settleReads s.cur 0 (v.setHart v.hart.retire)) 5 a1 a2 b1 b2 := by
  intro u v
  obtain ⟨hm, hc, hk, hh⟩ := dropRemoteWords_frame u u.cur
  obtain ⟨hmem, hhart, hothers, hbars⟩ :=
    fenceLaid_retire (v := v) (scope := 5) (a1 := a1) (a2 := a2) (b1 := b1) (b2 := b2) (s := s) hm hc hk hh
  refine ⟨hmem, hhart, hothers, hbars, fun h => absurd rfl h, fun _ hcomp => ?_⟩
  have hv : v = u.setCoreAt (coreOf s.cur) { u.coreAt (coreOf s.cur) with remote := [], texRemote := [] } := if_pos hcomp
  have hcore : (settleReads s.cur 0 (v.setHart v.hart.retire)).coreAt (coreOf s.cur) = v.coreAt (coreOf s.cur) := rfl
  rw [hcore, hv, State.coreAt_setCoreAt_self]
  exact ⟨rfl, rfl⟩

/-- An ordering word lays its fence and retires; at domain scope its core drops the words of other modules (R181, R283). -/
theorem fenceWord_ends {s : State} (hp : NoPrefix s) {i : Instr} {w : SFld} {a1 a2 b1 b2 : Bool}
    (hi : exec i s = fenceWord i w a1 a2 b1 b2 s) :
    Ends i s (fun t => FenceEnds s t w.x.toNat a1 a2 b1 b2) := by
  let u := addBar s s.cur (makeBar s s.cur w.x.toNat a1 a2 b1 b2)
  let v := if w.x = 5 then dropRemoteWords u u.cur else u
  have hrun : exec i s = .next (settleReads s.cur 0 (v.setHart v.hart.retire)) :=
    hi.trans ((scalarWord_runs hp rfl).trans (runAct_ok rfl))
  refine ⟨_, hrun, ?_⟩
  by_cases h5 : w.x = 5
  · have hv : v = dropRemoteWords u u.cur := if_pos h5
    have hx : w.x.toNat = 5 := by rw [h5]; rfl
    rw [hv]
    unfold u
    rw [hx]
    exact fenceEnds_domain s a1 a2 b1 b2
  · have hv : v = u := if_neg h5
    rw [hv]
    exact fenceEnds_setHart s w.x.toNat a1 a2 b1 b2 fun h => h5 (BitVec.eq_of_toNat_eq h)

/-- The meaning of vdrain: it waits for the vector queue, then orders at the hart's own scope (R182). -/
theorem exec_vdrain (w : SFld) (s : State) : exec (.vdrain w) s = scalarWord (.vdrain w) (fun _ => true) (do
    let s ← getS
    ensure (vecDrained s s.cur) .stall
    layFence 0 true true true true
    onHart Hart.retire) s := rfl

theorem vdrain_ends {s : State} (hp : NoPrefix s) (w : SFld) (hd : vecDrained s s.cur = true) :
    Ends (.vdrain w) s (fun t => FenceEnds s t 0 true true true true) := by
  refine ⟨_, ?_, fenceEnds_setHart s 0 true true true true (by decide)⟩
  rw [exec_vdrain, scalarWord_runs hp rfl]
  exact runAct_ok ((getS_bind _ _).trans (ensure_bind _ _ _ hd))

/-- vdrain waits while the queue is not drained. -/
theorem vdrain_waits {s : State} (hp : NoPrefix s) (w : SFld) (hd : vecDrained s s.cur = false) :
    exec (.vdrain w) s = .next s := by
  rw [exec_vdrain, scalarWord_runs hp rfl]
  refine runAct_stall ((getS_bind _ _).trans (bind_error _ ?_))
  unfold ensure
  rw [hd]
  rfl

/-! ## The entries of the vector queue -/

/-- The first entry that has not started is the one that starts. -/
theorem startFirst_append {l r : List VEntry} {e : VEntry} (hl : ∀ y ∈ l, y.started = true) (he : e.started = false) :
    startFirst (l ++ e :: r) = l ++ { e with started := true } :: r := by
  induction l with
  | nil => simp [startFirst, he]
  | cons y l ih =>
    simp only [List.cons_append, startFirst, hl y List.mem_cons_self, if_true]
    rw [ih fun z hz => hl z (List.mem_cons_of_mem _ hz)]

/-- A hart whose queue is replaced, and nothing else of the harts and of memory. -/
def Queued (i : Instr) (s : State) (h : Nat) (l : List VEntry) : Prop :=
  Ends i s (fun t => t.mem = s.mem
    ∧ t.hartAt h = { s.hartAt h with run := { (s.hartAt h).run with queue := l } } ∧ ∀ k, k ≠ h → t.hartAt k = s.hartAt k)

/-- An entry starts when it is its core's turn, or on a Milliner, which has its queue alone. -/
theorem entryStart_queued {s : State} {h : Nat} {l r : List VEntry} {e : VEntry} (hq : (s.hartAt h).run.queue = l ++ e :: r)
    (hl : ∀ y ∈ l, y.started = true) (he : e.started = false)
    (hk : kindOf h ≠ .compute ∨ nextStart s (coreOf h) = some (h % 4)) :
    Queued (.vectorEntryStart h) s h (l ++ { e with started := true } :: r) := by
  have hs : startFirst (s.hartAt h).run.queue = l ++ { e with started := true } :: r := by
    rw [hq, startFirst_append hl he]
  rw [← hs]
  by_cases hc : kindOf h = .compute
  · have hn := hk.resolve_left (not_not.mpr hc)
    refine ⟨_, (if_pos hc).trans (if_pos hn), rfl, ?_, fun k hne => ?_⟩
    · exact State.hartAt_setHartAt_self _ _ _
    · exact State.hartAt_setHartAt_ne _ _ _ _ hne
  · refine ⟨_, if_neg hc, rfl, ?_, fun k hne => ?_⟩
    · exact State.hartAt_setHartAt_self _ _ _
    · exact State.hartAt_setHartAt_ne _ _ _ _ hne

theorem entryStart_not_next {s : State} {h : Nat} (hk : kindOf h = .compute) (hn : nextStart s (coreOf h) ≠ some (h % 4)) :
    exec (.vectorEntryStart h) s = .next s :=
  (if_pos hk).trans (if_neg hn)

/-- The queue after its oldest entry, if it has started, has left. -/
def retiredQueue : List VEntry → List VEntry
  | [] => []
  | e :: r => if e.started then r else e :: r

theorem entryRetire_queued (s : State) (h : Nat) :
    Queued (.vectorEntryRetire h) s h (retiredQueue (s.hartAt h).run.queue) := by
  refine ⟨_, rfl, rfl, (State.hartAt_setHartAt_self _ _ _).trans ?_, fun k hne => State.hartAt_setHartAt_ne _ _ _ _ hne⟩
  generalize s.hartAt h = x
  beta_reduce
  split
  next e r hq =>
    rw [hq, retiredQueue]
    split
    · rfl
    · rw [← hq]
  next hq => rw [hq, retiredQueue, ← hq]

/-! ## The statement -/

/-- Settles O31: WFI and sfence.vma by their meanings, each ordering word by the fence it lays, and the queue by its first
entries. -/
theorem fencesAndWaits : Obligations.FencesAndWaits := by
  refine ⟨fun s hp => ⟨fun hl => ⟨wfi_retires hp hl, wfi_waits hp hl⟩, wfi_illegal, fenceI_becomes hp,
      fun rs2 rs1 hl hw => sfence_waits hp rs2 rs1 hl hw, fun rs2 rs1 hl hd hb => sfence_removes hp rs2 rs1 hl hd hb, ?_, ?_⟩,
    fun s h => ⟨fun l e r => entryStart_queued, entryStart_not_next, fun e r hq => ?_, fun hq => ?_⟩⟩
  · exact fun w => ⟨fenceWord_ends hp rfl, fenceWord_ends hp rfl, fenceWord_ends hp rfl, fenceWord_ends hp rfl⟩
  · exact fun w => ⟨vdrain_ends hp w, vdrain_waits hp w⟩
  · have hr := entryRetire_queued s h
    rwa [hq] at hr
  · have hr := entryRetire_queued s h
    rwa [hq] at hr

end Sys2Proof.Machine
end

section
/-! SUPPORT. Scalar accesses that are performed at once (R270-R277): what finding their place changes, what they load, and
what their stores leave. -/

namespace Sys2Proof.Machine

/-! ## Finding the place of an access -/

/-- Nothing but cached translations differs. -/
def SameButTlb (s u : State) : Prop := u = { s with cores := u.cores, clusters := u.clusters }

theorem sameButTlb_tlbFill (s : State) (e : Env) (t : TlbEnt) : SameButTlb s (tlbFill s e t) := by
  unfold tlbFill
  split
  · rfl
  · dsimp only
    split <;> rfl

/-- Finding a leaf at most caches it. -/
theorem sameButTlb_findLeaf {s u : State} {e : Env} {k : Acc} {va lv : Nat} {p : Word}
    (h : findLeaf s e k va = .ok (lv, p, u)) : SameButTlb s u := by
  unfold findLeaf at h
  split at h
  · cases h
    rfl
  · split at h
    · cases h
    · cases h
      exact sameButTlb_tlbFill s e _

/-- Translating an address at most caches its leaf. -/
theorem sameButTlb_translate {s u : State} {e : Env} {k : Acc} {va a : Nat} {d : Bool}
    (h : translate s e k va = .ok (a, d, u)) : SameButTlb s u := by
  unfold translate at h
  split at h
  · cases h
    rfl
  · split at h
    · cases h
    · split at h
      · cases h
      · next hl =>
        split at h
        · cases h
        · split at h
          · cases h
          · cases h
            exact sameButTlb_findLeaf hl

/-- Resolving an address at most caches its leaf. -/
theorem sameButTlb_resolve {s u : State} {e : Env} {k : Acc} {va n : Nat} {l : Loc}
    (h : resolve s e k va n = .ok (l, u)) : SameButTlb s u := by
  unfold resolve at h
  split at h
  · dsimp only at h
    split_ifs at h <;> cases h <;> rfl
  · split at h
    · cases h
    · next ht =>
      split at h
      · cases h
      · cases h
        exact sameButTlb_translate ht

section
variable {s u : State} (hu : SameButTlb s u)
include hu

theorem SameButTlb.mem : u.mem = s.mem := by rw [hu]
theorem SameButTlb.cur : u.cur = s.cur := by rw [hu]
theorem SameButTlb.harts : u.harts = s.harts := by rw [hu]
theorem SameButTlb.coh : u.coh = s.coh := by rw [hu]
theorem SameButTlb.hartAt (k : Nat) : u.hartAt k = s.hartAt k := by unfold State.hartAt; rw [hu.harts]
theorem SameButTlb.hart : u.hart = s.hart := by unfold State.hart; rw [hu.cur]; exact hu.hartAt _

end

/-- An access that is placed in this package finds its place. -/
theorem locate_of_places {s u : State} {k : Acc} {va n a : Nat} (h : Places s k va n a u) :
    locate (dataEnv s) k va n s = .ok (.mem a) u := by
  obtain ⟨-, -, hr⟩ := h
  unfold locate
  rw [hr]

/-- No fence holds an access that is placed. -/
theorem pastBars_of_places {s u : State} {k : Acc} {va n a : Nat} (h : Places s k va n a u) :
    pastBars (dataEnv s) s = .ok () s := by
  obtain ⟨-, hb, -⟩ := h
  have hb' : barred s (dataEnv s).who (dataEnv s).vec = false := hb
  unfold pastBars
  rw [hb']
  rfl

theorem SameButTlb.of_places {s u : State} {k : Acc} {va n a : Nat} (h : Places s k va n a u) : SameButTlb s u :=
  sameButTlb_resolve h.2.2

/-- Where messages are not visible no access travels by one (assumption 2). -/
theorem byMessage_false {u : State} (h : u.stepwise = false) (e : Env) (a : Nat) : byMessage u e a = false := by
  unfold byMessage
  rw [h]
  rfl

/-! ## Loads -/

/-- A load of sound memory that is performed at once gives its bytes. -/
theorem loadMem_ok {u : State} {k : Acc} {va a n : Nat} (hp : poisoned u a n = none) :
    loadMem k va a n u = .ok (readNat u.mem a n) u := by
  unfold loadMem
  rw [hp]

theorem loadAt_ok {u : State} {e : Env} {k : Acc} {va a n : Nat} (hs : u.stepwise = false) (hp : poisoned u a n = none) :
    loadAt e k va a n u = .ok (readNat u.mem a n) u := by
  unfold loadAt
  rw [byMessage_false hs]
  exact loadMem_ok hp

/-- A scalar load on one page that is placed in sound memory gives the bytes there. -/
theorem scalarLoad_ok {s u : State} {va n a : Nat} (hn : va % 16384 + n ≤ 16384) (h : Places s .load va n a u)
    (hs : u.stepwise = false) (hp : poisoned u a n = none) :
    scalarLoad (dataEnv s) va n s = .ok (readNat s.mem a n) u := by
  have hc : crossesPage va n = false := decide_eq_false (Nat.not_lt.mpr hn)
  rw [← (SameButTlb.of_places h).mem]
  unfold scalarLoad
  rw [ensure_bind _ _ _ (by rw [hc]; rfl), bind_ok _ (pastBars_of_places h), bind_ok _ (locate_of_places h)]
  exact loadAt_ok hs hp

/-- A scalar load that crosses a 16 KiB boundary traps (R15). -/
theorem scalarLoad_crosses {s : State} {e : Env} {va n : Nat} (hn : 16384 < va % 16384 + n) :
    scalarLoad e va n s = .error (.trap 4 (bv 64 va)) s := by
  have hc : crossesPage va n = true := decide_eq_true hn
  unfold scalarLoad
  refine bind_error _ ?_
  unfold ensure
  rw [hc]
  rfl

/-- A scalar store that crosses a 16 KiB boundary traps (R15). -/
theorem scalarStore_crosses {s : State} {e : Env} {scope va n v : Nat} (hn : 16384 < va % 16384 + n) :
    scalarStore e scope va n v s = .error (.trap 6 (bv 64 va)) s := by
  have hc : crossesPage va n = true := decide_eq_true hn
  unfold scalarStore
  refine bind_error _ ?_
  unfold ensure
  rw [hc]
  rfl

/-! ## Stored bytes -/

theorem getElem?_toBytes (n x i : Nat) : (toBytes n x)[i]? = if i < n then some (bv 8 (x / 256 ^ i)) else none := by
  induction n generalizing x i with
  | zero => simp [toBytes]
  | succ n ih =>
    cases i with
    | zero => simp [toBytes]
    | succ i =>
      simp only [toBytes, List.getElem?_cons_succ, ih, Nat.add_lt_add_iff_right]
      rw [Nat.div_div_eq_div_mul, ← Nat.pow_succ']

theorem getElem?_readBytes (m : List Host.Cell) (n a i : Nat) :
    (readBytes m n a)[i]? = if i < n then some (readByte m (a + i)) else none := by
  induction n generalizing a i with
  | zero => simp [readBytes]
  | succ n ih =>
    cases i with
    | zero => simp [readBytes]
    | succ i =>
      simp only [readBytes, List.getElem?_cons_succ, ih, Nat.add_lt_add_iff_right]
      rw [Nat.add_right_comm, Nat.add_assoc]

/-- A byte of memory after the low bytes of a number have been stored. -/
theorem readByte_writeBytes_toBytes {m : List Host.Cell} (hm : Memory.wf m) (a n x b : Nat) :
    readByte (writeBytes m a (toBytes n x)) b
      = if a ≤ b ∧ b < a + n then bv 8 (x / 256 ^ (b - a)) else readByte m b := by
  by_cases h : a ≤ b ∧ b < a + n
  · rw [if_pos h]
    have hb := getElem?_readBytes (writeBytes m a (toBytes n x)) (toBytes n x).length a (b - a)
    rw [readBytes_writeBytes_self a _ hm, getElem?_toBytes, length_toBytes, if_pos (by omega), if_pos (by omega),
      Nat.add_sub_cancel' h.1] at hb
    exact (Option.some.inj hb).symm
  · rw [if_neg h]
    exact readByte_writeBytes_ne _ _ _ _ (by rw [length_toBytes]; omega)

/-- Numbers that agree modulo 256^n have the same low n bytes. -/
theorem byte_congr {n x y i : Nat} (h : x % 256 ^ n = y % 256 ^ n) (hi : i < n) :
    bv 8 (x / 256 ^ i) = bv 8 (y / 256 ^ i) := by
  have low (z : Nat) : z / 256 ^ i % 256 = z % 256 ^ n / 256 ^ i % 256 := by
    obtain ⟨k, rfl⟩ := Nat.exists_eq_add_of_lt hi
    have he : 256 ^ (i + k + 1) = 256 ^ i * 256 ^ (k + 1) := by ring
    rw [he, Nat.mod_mul_right_div_self, Nat.pow_succ', Nat.mod_mul_right_mod]
  apply BitVec.eq_of_toNat_eq
  rw [BitVec.toNat_ofNat, BitVec.toNat_ofNat]
  show x / 256 ^ i % 256 = y / 256 ^ i % 256
  rw [low x, low y, h]

/-- The bytes of a number that are stored are those of every number with the same low bytes. -/
theorem stored_of {s t : State} {a n x y : Nat} (hm : Memory.wf s.mem) (ht : t.mem = writeBytes s.mem a (toBytes n x))
    (hxy : x % 256 ^ n = y % 256 ^ n) : Stored s t a n y := by
  intro b
  rw [ht, readByte_writeBytes_toBytes hm]
  split
  · next h => exact byte_congr hxy (by omega)
  · rfl

end Sys2Proof.Machine
end

section
/-! SUPPORT. Stores that are performed at once (R278): what they leave of memory and of every hart (R15, R205, R325, R340);
the scalar loads and stores. -/

namespace Sys2Proof.Machine

/-! ## What every hart sees of a store -/

/-- An entry of a list whose entries were mapped is the image of the old entry, or neither list has it. -/
theorem look_map {α : Type} (d : α) (f : Nat → α → α) (l : List (Nat × α)) (k : Nat) :
    look d (l.map (fun p => (p.1, f p.1 p.2))) k = f k (look d l k)
      ∨ look d (l.map (fun p => (p.1, f p.1 p.2))) k = d ∧ look d l k = d := by
  induction l with
  | nil => exact .inr ⟨rfl, rfl⟩
  | cons p l ih =>
    obtain ⟨i, x⟩ := p
    simp only [List.map_cons, look]
    split
    · next h => exact .inl (by rw [h])
    · exact ih

/-- A hart after a store has seen it, or is none of the listed ones. -/
theorem hartAt_store (u : State) (w : Writer) (a : Nat) (bs : List Byte) (k : Nat) :
    (u.store w a bs).hartAt k = (u.hartAt k).seesStore k w (writeBytes u.mem a bs) a bs.length
      ∨ (u.store w a bs).hartAt k = Hart.init k ∧ u.hartAt k = Hart.init k :=
  look_map (Hart.init k) (fun k h => h.seesStore k w (writeBytes u.mem a bs) a bs.length) u.harts k

theorem SeesStore.refl (x : Hart) : SeesStore x x := rfl

theorem SeesStore.trans {x y z : Hart} (h1 : SeesStore x y) (h2 : SeesStore y z) : SeesStore x z := by
  unfold SeesStore at *
  rw [h1] at h2
  exact h2

theorem seesStore_pendUi (x : Hart) (code slot : Nat) : SeesStore x (x.pendUi code slot) := by
  unfold Hart.pendUi
  split <;> rfl

/-- Firing watches raises user-level interrupts only. -/
theorem seesStore_fireWatches (x : Hart) (a n : Nat) : SeesStore x (x.fireWatches a n) := by
  unfold Hart.fireWatches
  refine List.foldlRecOn _ _ (SeesStore.refl x) (fun y hy i _ => ?_)
  dsimp only
  split
  · exact hy.trans (seesStore_pendUi _ _ _)
  · exact hy

theorem seesStore_seesStore (x : Hart) (self : Nat) (w : Writer) (m : List Host.Cell) (a n : Nat) :
    SeesStore x (x.seesStore self w m a n) := by
  unfold Hart.seesStore
  dsimp only
  split
  · rfl
  · exact SeesStore.trans (y := { x with run := { x.run with
      resv := x.keepsResv self w a n, wait := x.run.wait.map (Wait.hears m a n) } }) rfl (seesStore_fireWatches _ _ _)

theorem seesStore_hartAt (u : State) (w : Writer) (a : Nat) (bs : List Byte) (k : Nat) :
    SeesStore (u.hartAt k) ((u.store w a bs).hartAt k) := by
  rcases hartAt_store u w a bs k with h | ⟨h, hu⟩
  · rw [h]
    exact seesStore_seesStore _ _ _ _ _ _
  · rw [h, hu]
    exact SeesStore.refl _

/-! ## The scalar store of the current agent -/

/-- The current agent's scalar writer. -/
abbrev ownWriter (s : State) : Writer := { hart := s.cur, scalar := true }

/-- What an own store leaves of its hart: the reservation may be lost, a wait hears of it, and leased bytes follow. -/
def OwnStore (s : State) (a n : Nat) (h' : Hart) : Prop :=
  h' = { s.hart with run := { s.hart.run with
    resv := s.hart.keepsResv s.cur (ownWriter s) a n, wait := h'.run.wait, leases := h'.run.leases } }

/-- A state after the current agent has stored bytes. -/
structure AfterStore (s v : State) (a n x : Nat) : Prop where
  mem : v.mem = writeBytes s.mem a (toBytes n x)
  cur : v.cur = s.cur
  hart : OwnStore s a n v.hart
  others : ∀ k, k ≠ s.cur → SeesStore (s.hartAt k) (v.hartAt k)

/-- The x registers are all that tells a system core's hart from another at the start. -/
theorem run_init (k : Nat) : (Hart.init k).run = {} := by
  unfold Hart.init
  split <;> rfl

theorem ownStore_store (s : State) (a : Nat) (bs : List Byte) :
    OwnStore s a bs.length ((s.store (ownWriter s) a bs).hartAt s.cur) := by
  rcases hartAt_store s (ownWriter s) a bs s.cur with h | ⟨h, hs⟩
  · rw [h]
    unfold Hart.seesStore
    rw [if_pos (beq_self_eq_true _)]
    rfl
  · have hs' : s.hart = Hart.init s.cur := hs
    have hr : (Hart.init s.cur).keepsResv s.cur (ownWriter s) a bs.length = (Hart.init s.cur).run.resv := by
      unfold Hart.keepsResv
      rw [run_init]
    rw [OwnStore, h, hs', hr]

/-- A Milliner's leased bytes follow its own store; nothing else of its hart does. -/
theorem ownStore_patchLeases {s : State} {a n b : Nat} {bs : List Byte} {h : Hart} (hh : OwnStore s a n h) :
    OwnStore s a n (h.patchLeases b bs) := by
  unfold OwnStore at *
  rw [hh]
  rfl

theorem afterStore_store (s : State) (a n x : Nat) : AfterStore s (s.store (ownWriter s) a (toBytes n x)) a n x := by
  refine ⟨rfl, rfl, ?_, fun k _ => seesStore_hartAt _ _ _ _ _⟩
  have h := ownStore_store s a (toBytes n x)
  rw [length_toBytes] at h
  exact h

theorem AfterStore.patchOwn {s v : State} {a n x b : Nat} {bs : List Byte} (h : AfterStore s v a n x) (hc : v.cur = s.cur) :
    AfterStore s (patchOwn (dataEnv s) b bs v) a n x := by
  unfold Machine.patchOwn
  split
  · have he : (dataEnv s).who = v.cur := hc.symm
    refine ⟨h.mem, h.cur, ?_, fun k hk => ?_⟩
    · rw [he]
      show OwnStore s a n ((v.setHart (v.hart.patchLeases b bs)).hart)
      rw [State.hart_setHart]
      exact ownStore_patchLeases h.hart
    · rw [he]
      show SeesStore _ ((v.setHart (v.hart.patchLeases b bs)).hartAt k)
      rw [State.hartAt_setHart_ne _ _ _ (by rw [hc]; exact hk)]
      exact h.others k hk
  · exact h

/-- A store begun where only cached translations have changed is one of the state it began with. -/
theorem AfterStore.of_sameButTlb {s u v : State} {a n x : Nat} (hu : SameButTlb s u) (h : AfterStore u v a n x) :
    AfterStore s v a n x := by
  obtain ⟨hmem, hcur, hhart, hothers⟩ := h
  refine ⟨by rw [hmem, hu.mem], hcur.trans hu.cur, ?_, fun k hk => ?_⟩
  · unfold OwnStore ownWriter at *
    rwa [hu.hart, hu.cur] at hhart
  · rw [← hu.hartAt k]
    exact hothers k (by rw [hu.cur]; exact hk)

/-- A store on sound memory that is performed at once. -/
theorem storeMem_ok {u : State} {w : Writer} {va a n x : Nat}
    (hp : ∀ p ∈ u.coh.poison, touches a n p = true → a ≤ p ∧ p + 8 ≤ a + n) (hl : leaseBlocks u w a n = false) :
    storeMem w va a (toBytes n x) u = .ok () (u.store w a (toBytes n x)) := by
  have whole : u.coh.poison.find? (fun p => touches a n p && !(a ≤ p && p + 8 ≤ a + n)) = none := by
    rw [List.find?_eq_none]
    intro p hm ht
    rw [Bool.and_eq_true] at ht
    have hp' := hp p hm ht.1
    simp [hp'] at ht
  unfold storeMem
  rw [length_toBytes, whole, hl]
  rfl

/-- A scalar store on one page that is placed in sound memory, not leased by another, is performed at once. -/
theorem scalarStore_ok {s u : State} {scope va n a x : Nat} (hn : va % 16384 + n ≤ 16384) (h : Places s .store va n a u)
    (hs : u.stepwise = false) (hp : ∀ p ∈ u.coh.poison, touches a n p = true → a ≤ p ∧ p + 8 ≤ a + n)
    (hl : leaseBlocks u (ownWriter s) a n = false) :
    ∃ v, scalarStore (dataEnv s) scope va n x s = .ok () v ∧ AfterStore s v a n x := by
  have hu := SameButTlb.of_places h
  have hc : crossesPage va n = false := decide_eq_false (Nat.not_lt.mpr hn)
  have hw : ownWriter u = ownWriter s := by rw [ownWriter, hu.cur]
  refine ⟨patchOwn (dataEnv s) a (toBytes n x) (u.store (ownWriter s) a (toBytes n x)), ?_, ?_⟩
  · unfold scalarStore
    rw [ensure_bind _ _ _ (by rw [hc]; rfl), bind_ok _ (pastBars_of_places h), bind_ok _ (locate_of_places h)]
    show storeAt (dataEnv s) va a (toBytes n x) u = _
    unfold storeAt
    rw [getS_bind, byMessage_false hs]
    exact bind_ok _ (storeMem_ok hp hl)
  · refine AfterStore.patchOwn (AfterStore.of_sameButTlb hu ?_) hu.cur
    rw [← hw]
    exact afterStore_store u a n x

end Sys2Proof.Machine
end

section
/-! SUPPORT. The scalar loads and stores of the integer and f registers (R15, R206, R270). -/

namespace Sys2Proof.Machine

/-! ## Stores -/

/-- A hart that has stored and retires keeps the frame of a store. -/
theorem storeFrame_retire {s v : State} {a n x : Nat} (h : AfterStore s v a n x) :
    StoreFrame s (settleReads s.cur 0 (v.setHart v.hart.retire))
      ∧ (settleReads s.cur 0 (v.setHart v.hart.retire)).hart.pc = s.hart.pc + 4 := by
  obtain ⟨-, hcur, hhart, hothers⟩ := h
  have others (k : Nat) (hk : k ≠ s.cur) :
      SeesStore (s.hartAt k) ((settleReads s.cur 0 (v.setHart v.hart.retire)).hartAt k) := by
    rw [settleReads_hartAt, State.hartAt_setHart_ne _ _ _ (by rw [hcur]; exact hk)]
    exact hothers k hk
  unfold OwnStore at hhart
  refine ⟨⟨hcur, ?_, ?_, ?_, ?_, ?_, ?_, ?_, ?_, ?_, others⟩, ?_⟩
  case refine_2 =>
    unfold FKept
    rw [settleReads_hart, State.hart_setHart, hhart]
    exact ⟨rfl, rfl⟩
  all_goals
    rw [settleReads_hart, State.hart_setHart, hhart]
  · exact ⟨rfl, rfl⟩
  all_goals rfl

/-- A word whose meaning is a scalar store that is performed at once stores its bytes and goes on. -/
theorem stores_of {s u : State} {o : Rv} {va n a x y : Nat} (hm : Memory.wf s.mem) (hp : NoPrefix s)
    (hl : rvLegal o s = true) (ho : rvMeaning o s = (do scalarStore (dataEnv s) 4 va n x; onHart Hart.retire) s)
    (hn : va % 16384 + n ≤ 16384) (h : Places s .store va n a u) (hs : u.stepwise = false)
    (hpo : ∀ p ∈ u.coh.poison, touches a n p = true → a ≤ p ∧ p + 8 ≤ a + n)
    (hle : leaseBlocks u (ownWriter s) a n = false) (hxy : x % 256 ^ n = y % 256 ^ n) :
    ∃ t, exec (.riscvInstruction o) s = .next t ∧ StoreFrame s t ∧ t.hart.pc = s.hart.pc + 4 ∧ Stored s t a n y := by
  obtain ⟨v, hv, ha⟩ := scalarStore_ok (scope := 4) (x := x) hn h hs hpo hle
  obtain ⟨frame, pc⟩ := storeFrame_retire ha
  refine ⟨_, (scalarWord_runs hp hl).trans (runAct_ok (t := v.setHart v.hart.retire) ?_), frame, pc, stored_of hm ha.mem hxy⟩
  rw [ho, bind_ok _ hv]
  rfl

/-- A word whose meaning begins with a scalar store that crosses a 16 KiB boundary traps. -/
theorem store_crosses_traps {s : State} {o : Rv} {scope va n x : Nat} {f : Unit → Act Unit} (hp : NoPrefix s)
    (hl : rvLegal o s = true) (hm : isMilliner s.cur = false)
    (ho : rvMeaning o s = (scalarStore (dataEnv s) scope va n x >>= f) s) (hn : 16384 < va % 16384 + n) :
    Traps (.riscvInstruction o) s 6 (bv 64 va) :=
  traps_of rfl hp hl hm (ho.trans (bind_error _ (scalarStore_crosses hn)))

/-! ## Loads -/

/-- A word whose meaning begins with a scalar load that crosses a 16 KiB boundary traps. -/
theorem load_crosses_traps {s : State} {o : Rv} {va n : Nat} {f : Nat → Act Unit} (hp : NoPrefix s)
    (hl : rvLegal o s = true) (hm : isMilliner s.cur = false)
    (ho : rvMeaning o s = (scalarLoad (dataEnv s) va n >>= f) s) (hn : 16384 < va % 16384 + n) :
    Traps (.riscvInstruction o) s 4 (bv 64 va) :=
  traps_of rfl hp hl hm (ho.trans (bind_error _ (scalarLoad_crosses hn)))

/-- A word whose meaning is a scalar load and a change of the hart completes with that change. -/
theorem exec_load {s u : State} {o : Rv} {va n a : Nat} {g : Nat → Hart → Hart} (hp : NoPrefix s)
    (hl : rvLegal o s = true) (ho : rvMeaning o s = (do let v ← scalarLoad (dataEnv s) va n; onHart (g v)) s)
    (hn : va % 16384 + n ≤ 16384) (h : Places s .load va n a u) (hs : u.stepwise = false)
    (hpo : poisoned u a n = none) :
    exec (.riscvInstruction o) s = .next (settleReads s.cur 0 (u.setHart (g (readNat s.mem a n) s.hart))) := by
  refine (scalarWord_runs hp hl).trans (runAct_ok ?_)
  rw [ho, bind_ok _ (scalarLoad_ok hn h hs hpo), ← (SameButTlb.of_places h).hart]
  rfl

/-- What a load leaves where only cached translations have changed beside the hart. -/
theorem scalarFrame_load {s u : State} {h' : Hart} (hu : SameButTlb s u) (hf : HartFrame s.hart h') :
    ScalarFrame s (settleReads s.cur 0 (u.setHart h')) :=
  scalarFrame_setHart hu.mem hu.cur hu.harts hf

/-- A load of an x register. -/
theorem load_givesX {s u : State} {w : LdKind} {rd rs1 : BitVec 5} {imm : BitVec 12} {a : Nat} (hp : NoPrefix s)
    (hn : offsetAddr s.hart rs1 imm % 16384 + (ldWidth w).1 ≤ 16384)
    (h : Places s .load (offsetAddr s.hart rs1 imm) (ldWidth w).1 a u) (hs : u.stepwise = false)
    (hpo : poisoned u a (ldWidth w).1 = none) :
    GivesX (.riscvInstruction (.load w rd rs1 imm)) s rd (ldValue w (readNat s.mem a (ldWidth w).1)) (s.hart.pc + 4) := by
  refine ⟨_, exec_load (g := fun v h => (h.setX rd (ldValue w v)).retire) hp rfl rfl hn h hs hpo,
    scalarFrame_load (SameButTlb.of_places h) (hartFrame_retire ?_ ?_ ?_ ?_ ?_ ?_), ?_, ?_, ?_, ?_⟩
  iterate 6 simp
  · rw [SetsX, settleReads_hart, State.hart_setHart]
    exact ⟨rfl, rfl⟩
  · rw [FKept, settleReads_hart, State.hart_setHart]
    show (s.hart.setX rd _).f = _ ∧ (s.hart.setX rd _).fcsr = _
    simp
  all_goals rw [settleReads_hart, State.hart_setHart]
  · show retiredCsr (s.hart.setX rd _).csr = _
    simp
  · show (s.hart.setX rd _).pc + 4 = _
    simp

/-- A number of n bytes is below 256^n. -/
theorem readNat_lt (m : List Host.Cell) (n a : Nat) : readNat m a n < 256 ^ n := by
  induction n generalizing a with
  | zero => exact Nat.one_pos
  | succ n ih =>
    have hi : ofBytes (readBytes m n (a + 1)) < 256 ^ n := ih (a + 1)
    have hb : (readByte m a).toNat < 256 := (readByte m a).isLt
    show (readByte m a).toNat + 256 * ofBytes (readBytes m n (a + 1)) < 256 ^ (n + 1)
    rw [Nat.pow_succ']
    omega

/-- The box of the number that a load of a format's width reads. -/
theorem fpBox_readNat (p : FpFmt) (m : List Host.Cell) (a : Nat) :
    fpBox p (readNat m a (fpBytes p)) = bv 64 (if fpBytes p = 4 then readNat m a (fpBytes p) + (2 ^ 64 - 2 ^ 32)
      else readNat m a (fpBytes p)) := by
  cases p with
  | d => rfl
  | s =>
    have h : readNat m a 4 % 2 ^ 32 = readNat m a 4 := Nat.mod_eq_of_lt (readNat_lt m 4 a)
    show bv 64 (readNat m a 4 % 2 ^ 32 + (2 ^ 64 - 2 ^ 32)) = _
    rw [h]
    rfl

/-- A load of an f register. -/
theorem fload_writes {s u : State} {p : FpFmt} {rd rs1 : BitVec 5} {imm : BitVec 12} {a : Nat} (hp : NoPrefix s)
    (hl : rvLegal (.fload p rd rs1 imm) s = true) (hn : offsetAddr s.hart rs1 imm % 16384 + fpBytes p ≤ 16384)
    (h : Places s .load (offsetAddr s.hart rs1 imm) (fpBytes p) a u) (hs : u.stepwise = false)
    (hpo : poisoned u a (fpBytes p) = none) :
    ∃ t, exec (.riscvInstruction (.fload p rd rs1 imm)) s = .next t ∧ ScalarFrame s t ∧ XKept s t
      ∧ t.hart.pc = s.hart.pc + 4
      ∧ t.hart.f = s.hart.f.set rd.toNat (bv 64 (if fpBytes p = 4 then readNat s.mem a (fpBytes p) + (2 ^ 64 - 2 ^ 32)
          else readNat s.mem a (fpBytes p))) rd.isLt
      ∧ t.hart.fcsr = s.hart.fcsr ∧ t.hart.csr = dirtyCsr (retiredCsr s.hart.csr) := by
  rw [← fpBox_readNat]
  refine ⟨_, exec_load (g := fun v h => (h.setFp p rd v).retire) hp hl rfl hn h hs hpo,
    scalarFrame_load (SameButTlb.of_places h) ?_, ?_, ?_, ?_, ?_, ?_⟩
  · rw [setFp_eq]
    exact hartFrame_retire rfl rfl rfl rfl rfl rfl
  · rw [XKept, settleReads_hart, State.hart_setHart, setFp_eq]
    exact ⟨rfl, rfl⟩
  all_goals
    rw [settleReads_hart, State.hart_setHart, setFp_eq]
    rfl

/-! ## The obligation -/

/-- The low bytes of a stored number are those of the register it comes from. -/
theorem stores_low {s u : State} {o : Rv} {va n a y : Nat} (hm : Memory.wf s.mem) (hp : NoPrefix s)
    (hl : rvLegal o s = true)
    (ho : rvMeaning o s = (do scalarStore (dataEnv s) 4 va n (y % 256 ^ n); onHart Hart.retire) s)
    (hs : u.stepwise = false)
    (h : va % 16384 + n ≤ 16384 ∧ Places s .store va n a u
      ∧ (∀ p ∈ u.coh.poison, touches a n p = true → a ≤ p ∧ p + 8 ≤ a + n)
      ∧ leaseBlocks u (ownWriter s) a n = false) :
    ∃ t, exec (.riscvInstruction o) s = .next t ∧ StoreFrame s t ∧ t.hart.pc = s.hart.pc + 4 ∧ Stored s t a n y := by
  obtain ⟨hn, hpl, hpo, hle⟩ := h
  exact stores_of hm hp hl ho hn hpl hs hpo hle (Nat.mod_mod _ _)

/-- Settles O23: an access is its place, the load or store there, and the change of the hart. -/
theorem scalarLoadsAndStores : Obligations.ScalarLoadsAndStores := by
  intro s u rs1 imm a hm hp hs va next crosses loads stores
  have width (p : FpFmt) : (match p with | .s => 4 | .d => 8 : Nat) = fpBytes p := by cases p <;> rfl
  refine ⟨?_, ?_, ?_⟩
  · intro w rd i n
    exact ⟨fun hc hmi => load_crosses_traps hp rfl hmi rfl hc, fun h => load_givesX hp h.1 h.2.1 hs h.2.2⟩
  · intro w rs2 i n
    exact ⟨fun hc hmi => store_crosses_traps hp rfl hmi rfl hc, fun h => stores_low hm hp rfl rfl hs h⟩
  · intro hf hmi p r i j n v
    have hli : rvLegal (.fload p r rs1 imm) s = true := by
      unfold rvLegal
      rw [hf, hmi]
      rfl
    have hlj : rvLegal (.fstore p r rs1 imm) s = true := hli
    have hw : n = fpBytes p := width p
    clear_value n
    subst hw
    exact ⟨fun hc => ⟨load_crosses_traps hp hli hmi rfl hc, store_crosses_traps hp hlj hmi rfl hc⟩,
      fun h => fload_writes hp hli h.1 h.2.1 hs h.2.2, fun h => stores_low hm hp hlj rfl hs h⟩

end Sys2Proof.Machine
end

section
/-! SUPPORT. Atomics that are performed at once (R15, R281). -/

namespace Sys2Proof.Machine

/-! ## What every atomic does first -/

/-- What follows the test of an atomic's alignment does not run at a misaligned address. -/
theorem misaligned_stops {s : State} {c n va : Nat} (f : Unit → Act Unit) (hn : va % n ≠ 0) :
    (ensure (va % n = 0) (.trap c (bv 64 va)) >>= f) s = .error (.trap c (bv 64 va)) s := by
  refine bind_error _ ?_
  unfold ensure
  rw [decide_eq_false hn]
  rfl

/-- An atomic that is aligned, held by no release and placed goes on at its place. -/
theorem atomic_placed {s u : State} {rl : BitVec 1} {k : Acc} {c n va a : Nat} {f : Loc → Act Unit} (hn : va % n = 0)
    (hrl : rl = 1 → fenceWaits s 4 = false) (h : Places s k va n a u) :
    (do
      ensure (va % n = 0) (.trap c (bv 64 va))
      ensure (!(releaseWaits s rl)) .stall
      pastBars (dataEnv s)
      let l ← locate (dataEnv s) k va n
      f l : Act Unit) s = f (.mem a) u := by
  have hr : releaseWaits s rl = false := by
    unfold releaseWaits
    by_cases h1 : rl = 1
    · rw [hrl h1, Bool.and_false]
    · rw [decide_eq_false h1, Bool.false_and]
  rw [ensure_bind _ _ _ (decide_eq_true hn), ensure_bind _ _ _ (by rw [hr]; rfl), bind_ok _ (pastBars_of_places h),
    bind_ok _ (locate_of_places h)]

/-! ## What every atomic does last -/

/-- A hart after an atomic: rd is written, the word retires, and what is in progress is `r`. -/
def atomicHart (h : Hart) (rd : BitVec 5) (x : Word) (r : Run) : Hart := { (h.setX rd x).retire with run := r }

/-- How an atomic ends: rd and the reservation are written, and memory is as `p` says. -/
def AtomicEnds (i : Instr) (s : State) (rd : BitVec 5) (x : Word) (resv : Option Nat) (p : State → Prop) : Prop :=
  Ends i s (fun t => t.cur = s.cur ∧ SetsX s t rd x ∧ FKept s t ∧ t.hart.pc = s.hart.pc + 4
    ∧ t.hart.csr = retiredCsr s.hart.csr ∧ t.hart.vec = retiredVec s.hart ∧ t.hart.priv = s.hart.priv
    ∧ t.hart.run.resv = resv ∧ p t)

/-- What is in progress has no part in a write of an x register. -/
theorem setX_withRun (h : Hart) (q : Run) (rd : BitVec 5) (x : Word) :
    ({ h with run := q } : Hart).setX rd x = { h.setX rd x with run := q } := by
  have handler : ({ h with run := q } : Hart).inHandler = h.inHandler := rfl
  unfold Hart.setX
  rw [handler]
  split
  · rfl
  · split <;> rfl

/-- An atomic whose hart has changed only in what is in progress before it writes rd. -/
theorem atomicEnds_of {s v : State} {i : Instr} {a : Act Unit} {rd : BitVec 5} {x : Word} {r : Run}
    {p : State → Prop} (hi : exec i s = scalarWord i (fun _ => true) a s) (hp : NoPrefix s)
    (ha : a s = .ok () (v.setHart (atomicHart v.hart rd x r))) (hc : v.cur = s.cur)
    (hv : v.hart = { s.hart with run := v.hart.run })
    (hm : p (settleReads s.cur 0 (v.setHart (atomicHart v.hart rd x r)))) : AtomicEnds i s rd x r.resv p := by
  have hart : (settleReads s.cur 0 (v.setHart (atomicHart v.hart rd x r))).hart = atomicHart v.hart rd x r := by
    rw [settleReads_hart, State.hart_setHart]
  generalize v.hart.run = q at hv
  refine ⟨_, hi.trans ((scalarWord_runs hp rfl).trans (runAct_ok ha)), hc, ?_, ?_, ?_, ?_, ?_, ?_, ?_, hm⟩
  · rw [SetsX, hart, hv, atomicHart, setX_withRun]
    exact ⟨rfl, rfl⟩
  · rw [FKept, hart, hv, atomicHart, setX_withRun]
    exact ⟨Hart.setX_f _ _ _, Hart.setX_fcsr _ _ _⟩
  all_goals rw [hart, hv, atomicHart, setX_withRun]
  · exact congrArg (· + 4) (Hart.setX_pc _ _ _)
  · exact congrArg retiredCsr (Hart.setX_csr _ _ _)
  · show retiredVec (s.hart.setX rd x) = _
    simp [retiredVec, Hart.handling, Hart.inHandler]
  · exact Hart.setX_priv _ _ _

/-! ## Load-reserved -/

theorem lr_ends {s u : State} {sz : AmoW} {aq rl : BitVec 1} {rs1 rd : BitVec 5} {a : Nat} (hp : NoPrefix s)
    (hn : (s.hart.getX rs1).toNat % amoBytes sz = 0) (h : Places s .load (s.hart.getX rs1).toNat (amoBytes sz) a u)
    (hpo : poisoned u a (amoBytes sz) = none) (hrl : rl = 1 → fenceWaits s 4 = false)
    (hle : leaseBlocks u (ownWriter s) a (amoBytes sz) = false) (hs : u.stepwise = false) :
    AtomicEnds (.lr sz aq rl rs1 rd) s rd (amoValue sz (readNat s.mem a (amoBytes sz))) (some (a / 8 * 8))
      (fun t => t.mem = s.mem) := by
  have hu := SameButTlb.of_places h
  have free : (!(leaseBlocks u (dataEnv s).writer a (amoBytes sz))
      && !(byMessage u (dataEnv s) a && (ownPending u (dataEnv s) a (amoBytes sz) || committing u a (amoBytes sz)))) = true := by
    rw [byMessage_false hs]
    have hle' : leaseBlocks u (dataEnv s).writer a (amoBytes sz) = false := hle
    rw [hle']
    rfl
  refine atomicEnds_of (v := u) (r := { u.hart.run with
    wait := none, resv := some (a / 8 * 8), resvEnds := s.ccOf s.cur + 1024 }) rfl hp ?_ hu.cur (by rw [hu.hart]) hu.mem
  refine (getS_bind _ _).trans ((atomic_placed hn hrl h).trans ?_)
  dsimp only
  rw [getS_bind, ensure_bind _ _ _ free, bind_ok _ (loadMem_ok hpo), hu.mem, ← Hart.setX_run u.hart rd]
  rfl

/-! ## Store-conditional -/

/-- Sound memory may be stored to. -/
theorem whole_of_sound {u : State} {a n : Nat} (h : poisoned u a n = none) :
    ∀ p ∈ u.coh.poison, touches a n p = true → a ≤ p ∧ p + 8 ≤ a + n := by
  intro p hm ht
  exact absurd ht (List.find?_eq_none.mp h p hm)

/-- A store of an atomic on sound memory, not leased by another. -/
theorem atomicStore_ok {s u : State} {k : Acc} {va a n x : Nat} (h : Places s k va n a u) (hpo : poisoned u a n = none)
    (hle : leaseBlocks u (ownWriter s) a n = false) :
    ∃ v, storeMem (dataEnv s).writer va a (toBytes n x) u = .ok () v
      ∧ AfterStore s (patchOwn (dataEnv s) a (toBytes n x) v) a n x := by
  have hu := SameButTlb.of_places h
  have hw : ownWriter u = ownWriter s := by rw [ownWriter, hu.cur]
  refine ⟨_, storeMem_ok (whole_of_sound hpo) hle, AfterStore.patchOwn (AfterStore.of_sameButTlb hu ?_) hu.cur⟩
  show AfterStore u (u.store (ownWriter s) a (toBytes n x)) a n x
  rw [← hw]
  exact afterStore_store u a n x

theorem reserved_eq {s u : State} (hu : SameButTlb s u) (a : Nat) :
    reserved u u.cur a = (s.hart.run.resv == some (a / 8 * 8)) := by
  show (u.hart.run.resv == some (a / 8 * 8)) = _
  rw [hu.hart]

/-- An own store takes a reservation only of a scratchpad word it touches (R205). -/
theorem keepsResv_own (h : Hart) (k a n : Nat) : h.keepsResv k { hart := k, scalar := true } a n
    = if h.run.resv.any (fun r => touches a n r && inSpad r) then none else h.run.resv := by
  unfold Hart.keepsResv
  cases hr : h.run.resv with
  | none => rfl
  | some r => simp

section
variable {s u : State} {sz : AmoW} {aq rl : BitVec 1} {rs2 rs1 rd : BitVec 5} {a : Nat}
  (hp : NoPrefix s) (hn : (s.hart.getX rs1).toNat % amoBytes sz = 0)
  (h : Places s .store (s.hart.getX rs1).toNat (amoBytes sz) a u) (hrl : rl = 1 → fenceWaits s 4 = false)
include hp hn h hrl

/-- SC at its place is what it does at once and the end of the reservation. -/
theorem sc_ends {v : State} {r : Nat} {p : State → Prop}
    (hr : scNow (dataEnv s) (s.hart.getX rs1).toNat a (amoBytes sz) ((s.hart.getX rs2).toNat % 256 ^ amoBytes sz) u = .ok r v)
    (hc : v.cur = s.cur) (hv : v.hart = { s.hart with run := v.hart.run }) (hq : ∀ h', p (settleReads s.cur 0 (v.setHart h'))) :
    AtomicEnds (.sc sz aq rl rs2 rs1 rd) s rd (bv 64 r) none p := by
  refine atomicEnds_of (v := v) (r := { v.hart.run with wait := none, resv := none }) rfl hp ?_ hc hv (hq _)
  refine (getS_bind _ _).trans ((atomic_placed hn hrl h).trans ?_)
  dsimp only
  rw [byMessage_false h.1, Bool.false_and, Bool.false_and, if_neg Bool.false_ne_true, bind_ok _ hr,
    ← Hart.setX_run v.hart rd]
  rfl

/-- SC without the reservation of its word gives 1. -/
theorem sc_fails (hr : s.hart.run.resv ≠ some (a / 8 * 8)) :
    AtomicEnds (.sc sz aq rl rs2 rs1 rd) s rd 1 none (fun t => t.mem = s.mem) := by
  have hu := SameButTlb.of_places h
  refine sc_ends (r := 1) hp hn h hrl (v := u) ?_ hu.cur (by rw [hu.hart]) (fun _ => hu.mem)
  unfold scNow
  rw [getS_bind, reserved_eq hu, beq_false_of_ne hr]
  rfl

variable (hm : Memory.wf s.mem) (hpo : poisoned u a (amoBytes sz) = none)
  (hle : leaseBlocks u (ownWriter s) a (amoBytes sz) = false)
include hm hpo hle

/-- SC with the reservation of its word stores and gives 0. -/
theorem sc_stores (hr : s.hart.run.resv = some (a / 8 * 8)) :
    AtomicEnds (.sc sz aq rl rs2 rs1 rd) s rd 0 none
      (fun t => Stored s t a (amoBytes sz) ((s.hart.getX rs2).toNat % 256 ^ amoBytes sz)) := by
  obtain ⟨v, hv, hmem, hcur, hhart, -⟩ :=
    atomicStore_ok (x := (s.hart.getX rs2).toNat % 256 ^ amoBytes sz) h hpo hle
  refine sc_ends (r := 0) hp hn h hrl ?_ hcur (by rw [hhart]) (fun _ => stored_of hm hmem rfl)
  unfold scNow
  rw [getS_bind, reserved_eq (SameButTlb.of_places h), hr, if_pos (beq_self_eq_true _)]
  exact bind_ok _ hv

/-! ## The AMO operations -/

/-- An AMO returns the old value and stores its result. -/
theorem amo_ends (o : AmoOp) {y : Nat}
    (hy : amoResult o (8 * amoBytes sz) (readNat s.mem a (amoBytes sz)) ((s.hart.getX rs2).toNat % 256 ^ amoBytes sz)
      % 256 ^ amoBytes sz = y % 256 ^ amoBytes sz) :
    AtomicEnds (.amo o sz aq rl rs2 rs1 rd) s rd (amoValue sz (readNat s.mem a (amoBytes sz)))
      (if s.hart.run.resv.any (fun r => touches a (amoBytes sz) r && inSpad r) then none else s.hart.run.resv)
      (fun t => Stored s t a (amoBytes sz) y) := by
  have hu := SameButTlb.of_places h
  obtain ⟨v, hv, hmem, hcur, hhart, -⟩ := atomicStore_ok
    (x := amoResult o (8 * amoBytes sz) (readNat s.mem a (amoBytes sz)) ((s.hart.getX rs2).toNat % 256 ^ amoBytes sz)) h hpo hle
  have now : amoNow o (dataEnv s) (s.hart.getX rs1).toNat a (amoBytes sz) ((s.hart.getX rs2).toNat % 256 ^ amoBytes sz) u
      = .ok (readNat s.mem a (amoBytes sz)) (patchOwn (dataEnv s) a (toBytes (amoBytes sz) (amoResult o (8 * amoBytes sz)
        (readNat s.mem a (amoBytes sz)) ((s.hart.getX rs2).toNat % 256 ^ amoBytes sz))) v) := by
    unfold amoNow
    dsimp only
    rw [hpo, hu.mem, hv]
  rw [← keepsResv_own s.hart s.cur]
  generalize patchOwn _ _ _ v = v' at *
  have resv : s.hart.keepsResv s.cur (ownWriter s) a (amoBytes sz) = v'.hart.run.resv := by rw [hhart]
  rw [show ({ hart := s.cur, scalar := true } : Writer) = ownWriter s from rfl, resv]
  refine atomicEnds_of (v := v') (r := { v'.hart.run with wait := none }) rfl hp ?_ hcur (by rw [hhart])
    (stored_of hm hmem hy)
  refine (getS_bind _ _).trans ((atomic_placed hn hrl h).trans ?_)
  dsimp only
  rw [byMessage_false h.1, Bool.false_and, if_neg Bool.false_ne_true, bind_ok _ now, ← Hart.setX_run v'.hart rd]
  rfl

end

/-! ## The obligation -/

/-- The result of each AMO operation, as the obligation writes it. -/
def amoStores (o : AmoOp) (n old v : Nat) : Nat :=
  match o with
  | .swap => v
  | .add => old + v
  | .xor => old ^^^ v
  | .and => old &&& v
  | .or => old ||| v
  | .min => if signedOf (8 * n) old ≤ signedOf (8 * n) v then old else v
  | .max => if signedOf (8 * n) old ≤ signedOf (8 * n) v then v else old
  | .minu => min old v
  | .maxu => max old v

/-- A sum is stored modulo 2^(8n); the other results as they are. -/
theorem amoResult_low (o : AmoOp) (n old v : Nat) :
    amoResult o (8 * n) old v % 256 ^ n = amoStores o n old v % 256 ^ n := by
  cases o
  case add =>
    have hw : 2 ^ (8 * n) = 256 ^ n := Nat.pow_mul 2 8 n
    show (old + v) % 2 ^ (8 * n) % 256 ^ n = (old + v) % 256 ^ n
    rw [hw, Nat.mod_mod]
  all_goals rfl

/-- Settles O32: what each atomic does first and last is the same; between, it loads, stores or does both at its place. -/
theorem atomics : Obligations.Atomics := by
  intro s u sz aq rl rs2 rs1 rd a hm hp n va v old done
  have width : n = amoBytes sz := by cases sz <;> rfl
  clear_value n
  subst width
  refine ⟨fun hmi hn => ⟨?_, ?_, fun o => ?_⟩, fun hn h hpo hrl hle hs => ?_, fun hn h hpo hrl hs hle => ⟨fun hr => ?_, fun hr => ?_, fun o => ?_⟩⟩
  · refine traps_of (legal := fun _ => true) rfl hp rfl hmi ?_
    exact (getS_bind _ _).trans (misaligned_stops _ hn)
  · refine traps_of (legal := fun _ => true) rfl hp rfl hmi ?_
    exact (getS_bind _ _).trans (misaligned_stops _ hn)
  · refine traps_of (legal := fun _ => true) rfl hp rfl hmi ?_
    exact (getS_bind _ _).trans (misaligned_stops _ hn)
  · exact lr_ends hp hn h hpo hrl hle hs
  · exact sc_stores hp hn h hrl hm hpo hle hr
  · exact sc_fails hp hn h hrl hr
  · exact amo_ends hp hn h hrl hm hpo hle o (amoResult_low o _ _ _)

end Sys2Proof.Machine
end

section
/-! SUPPORT. VTYPE and VL of every hart (R19, R21): the rules by which they are kept. -/

namespace Sys2Proof.Machine

/-! ## VTYPE and VL -/

/-- VTYPE and VL of a hart. -/
def Hart.lens (h : Hart) : Word × BitVec 14 := (h.vec.vtype, h.vec.vl)

/-- VTYPE and VL of the harts of a list. -/
def lensIn (l : List (Nat × Hart)) (k : Nat) : Word × BitVec 14 := (look (Hart.init k) l k).lens

/-- The current agent, and VTYPE and VL of every hart. -/
def State.lens (s : State) : Nat × (Nat → Word × BitVec 14) := (s.cur, lensIn s.harts)

@[simp] theorem Hart.lens_mk (pc : Word) (x : Vector Word 32) (sh : Vector Word 8) (f : Vector Word 32) (fcsr : Byte)
    (priv : Priv) (csr : Csrs) (ints : Ints) (vec : Vec) (dev : Dev) (ctl : Ctl) (run : Run) :
    (Hart.mk pc x sh f fcsr priv csr ints vec dev ctl run).lens = (vec.vtype, vec.vl) := rfl

@[simp] theorem Hart.lens_fold (h : Hart) : (h.vec.vtype, h.vec.vl) = h.lens := rfl

@[simp] theorem Hart.lens_ite {c : Prop} [Decidable c] (a b : Hart) :
    (if c then a else b).lens = if c then a.lens else b.lens := apply_ite Hart.lens c a b

@[simp] theorem State.lens_mk (cur : Nat) (sched : List Move) (stepwise : Bool) (bound : Option Nat) (fresh cc ticks : Nat)
    (mem : List Host.Cell) (harts : List (Nat × Hart)) (cores : List (Nat × CoreSt)) (clusters : List (Nat × ClusterSt))
    (dies : List (Nat × DieSt)) (parts : List (Nat × Part)) (mills : List (Nat × Mill)) (coh : Coh) (power : Power)
    (chr : Chrodon) (pcie : Pcie) (nov : Nov) (pkg : Pkg) :
    (State.mk cur sched stepwise bound fresh cc ticks mem harts cores clusters dies parts mills coh power chr pcie nov
      pkg).lens = (cur, lensIn harts) := rfl

@[simp] theorem State.lens_fold (s : State) : (s.cur, lensIn s.harts) = s.lens := rfl

@[simp] theorem State.lens_ite {c : Prop} [Decidable c] (a b : State) :
    (if c then a else b).lens = if c then a.lens else b.lens := apply_ite State.lens c a b

/-! ## Harts of a state -/

@[simp] theorem State.hartAt_lens (s : State) (k : Nat) : (s.hartAt k).lens = lensIn s.harts k := rfl

@[simp] theorem State.hart_lens (s : State) : s.hart.lens = lensIn s.harts s.cur := rfl

@[simp] theorem State.lens_setHartAt (s : State) (k : Nat) (h : Hart) :
    (s.setHartAt k h).lens = (s.cur, Function.update (lensIn s.harts) k h.lens) := by
  refine Prod.ext rfl (funext fun j => ?_)
  show (look (Hart.init j) (put s.harts k h) j).lens = _
  by_cases hj : j = k
  · subst hj
    rw [look_put_self]
    exact (Function.update_self j h.lens (lensIn s.harts)).symm
  · rw [look_put_ne _ _ _ _ _ hj]
    exact (Function.update_of_ne hj h.lens (lensIn s.harts)).symm

@[simp] theorem State.lens_setHart (s : State) (h : Hart) :
    (s.setHart h).lens = (s.cur, Function.update (lensIn s.harts) s.cur h.lens) :=
  State.lens_setHartAt s s.cur h

@[simp] theorem State.lens_modHart (s : State) (k : Nat) (g : Hart → Hart) :
    (s.modHart k g).lens = (s.cur, Function.update (lensIn s.harts) k (g (s.hartAt k)).lens) :=
  State.lens_setHartAt s k (g (s.hartAt k))

/-- A hart is replaced by one with its VTYPE and VL. -/
theorem State.lens_setHart_same {s t : State} {h : Hart} (ht : t.lens = s.lens) (hh : h.lens = s.hart.lens) :
    (t.setHart h).lens = s.lens := by
  have hc : t.cur = s.cur := congrArg Prod.fst ht
  have hl : lensIn t.harts = lensIn s.harts := congrArg Prod.snd ht
  rw [State.lens_setHart, hh, hl, hc, State.hart_lens, Function.update_eq_self]
  rfl

/-- The same for a hart that is not the current agent's. -/
theorem State.lens_setHartAt_same {s t : State} {k : Nat} {h : Hart} (ht : t.lens = s.lens)
    (hh : h.lens = (s.hartAt k).lens) : (t.setHartAt k h).lens = s.lens := by
  have hc : t.cur = s.cur := congrArg Prod.fst ht
  have hl : lensIn t.harts = lensIn s.harts := congrArg Prod.snd ht
  rw [State.lens_setHartAt, hh, hl, hc, State.hartAt_lens, Function.update_eq_self]
  rfl

/-- The same in the state itself. -/
theorem State.lens_setHart_self {s : State} {h : Hart} (hh : h.lens = s.hart.lens) : (s.setHart h).lens = s.lens :=
  State.lens_setHart_same rfl hh

/-- Harts that are each changed without a change of VTYPE or VL. -/
theorem lensIn_map (f : Nat → Hart → Hart) (hf : ∀ k h, (f k h).lens = h.lens) (l : List (Nat × Hart)) :
    lensIn (l.map (fun p => (p.1, f p.1 p.2))) = lensIn l := by
  funext k
  unfold lensIn
  rcases look_map (Hart.init k) f l k with h | ⟨h, h'⟩
  · rw [h, hf]
  · rw [h, h']

theorem State.lens_harts {s : State} {l : List (Nat × Hart)} (h : lensIn l = lensIn s.harts) :
    (s.cur, lensIn l) = s.lens := by
  rw [h]
  rfl

/-- A state that another agent's part has left, again as the current agent's. -/
theorem State.lens_asCur {s t : State} {k : Nat} (h : t.lens = (k, lensIn s.harts)) :
    ({ t with cur := s.cur } : State).lens = s.lens := by
  have hl : lensIn t.harts = lensIn s.harts := congrArg Prod.snd h
  exact State.lens_harts hl

/-- A fold of steps that keep VTYPE and VL keeps them. -/
@[simp] theorem foldl_lens {α : Type} (g : State → α → State) (h : ∀ s a, (g s a).lens = s.lens) (l : List α)
    (s : State) : (l.foldl g s).lens = s.lens := by
  induction l generalizing s with
  | nil => rfl
  | cons a l ih => rw [List.foldl_cons, ih, h]

/-- The same for a hart. -/
@[simp] theorem foldl_hartLens {α : Type} (g : Hart → α → Hart) (hg : ∀ h a, (g h a).lens = h.lens) (l : List α)
    (h : Hart) : (l.foldl g h).lens = h.lens := by
  induction l generalizing h with
  | nil => rfl
  | cons a l ih => rw [List.foldl_cons, ih, hg]

/-! ## Computations -/

/-- The current agent, and VTYPE and VL of every hart, at a computation's end. -/
def lensOf {α : Type} : EStateM.Result Stop State α → Nat × (Nat → Word × BitVec 14)
  | .ok _ t => t.lens
  | .error _ t => t.lens

@[simp] theorem lensOf_ok {α : Type} (x : α) (t : State) : lensOf (.ok x t) = t.lens := rfl
@[simp] theorem lensOf_error {α : Type} (e : Stop) (t : State) : lensOf (.error e t : EStateM.Result Stop State α) = t.lens :=
  rfl
@[simp] theorem lensOf_ite {α : Type} {c : Prop} [Decidable c] (a b : EStateM.Result Stop State α) :
    lensOf (if c then a else b) = if c then lensOf a else lensOf b := apply_ite lensOf c a b

/-- A computation that keeps the current agent, and VTYPE and VL of every hart. -/
def Steady {α : Type} (a : Act α) : Prop := ∀ s, lensOf (a s) = s.lens

theorem Steady.ok {α : Type} {a : Act α} {s t : State} {x : α} (ha : Steady a) (h : a s = .ok x t) : t.lens = s.lens := by
  rw [← ha s, h]
  rfl

theorem Steady.error {α : Type} {a : Act α} {s t : State} {e : Stop} (ha : Steady a) (h : a s = .error e t) :
    t.lens = s.lens := by
  rw [← ha s, h]
  rfl

theorem Steady.bind {α β : Type} {a : Act α} {f : α → Act β} (ha : Steady a) (hf : ∀ x, Steady (f x)) :
    Steady (a >>= f) := by
  intro s
  cases h : a s with
  | ok x t => rw [bind_ok f h, hf x t, ha.ok h]
  | error e t => rw [bind_error f h, lensOf_error, ha.error h]

/-- A computation that keeps VTYPE and VL, and then one that keeps them from its end. -/
theorem lensOf_bind {α β : Type} {a : Act α} {f : α → Act β} {s : State} {l : Nat × (Nat → Word × BitVec 14)} (ha : Steady a)
    (hs : s.lens = l) (hf : ∀ x t, t.lens = l → lensOf (f x t) = l) : lensOf ((a >>= f) s) = l := by
  cases h : a s with
  | ok x t => rw [bind_ok f h, hf x t ((ha.ok h).trans hs)]
  | error e t => rw [bind_error f h, lensOf_error, ha.error h, hs]

/-- A computation keeps VTYPE and VL of every hart of a state. -/
def KeepsAt {α : Type} (s : State) (a : Act α) : Prop := lensOf (a s) = s.lens

@[simp] theorem KeepsAt.of_steady {α : Type} {a : Act α} (h : Steady a) (s : State) : KeepsAt s a := h s

theorem KeepsAt.ok {α : Type} {a : Act α} {s t : State} {x : α} (ha : KeepsAt s a) (h : a s = .ok x t) :
    t.lens = s.lens := by
  rw [← show lensOf (a s) = s.lens from ha, h]
  rfl

theorem KeepsAt.error {α : Type} {a : Act α} {s t : State} {e : Stop} (ha : KeepsAt s a) (h : a s = .error e t) :
    t.lens = s.lens := by
  rw [← show lensOf (a s) = s.lens from ha, h]
  rfl

theorem KeepsAt.bind {α β : Type} {a : Act α} {f : α → Act β} {s : State} (ha : KeepsAt s a)
    (hf : ∀ x t, t.lens = s.lens → KeepsAt t (f x)) : KeepsAt s (a >>= f) := by
  unfold KeepsAt
  cases h : a s with
  | ok x t => rw [bind_ok f h, show lensOf (f x t) = t.lens from hf x t (ha.ok h), ha.ok h]
  | error e t => rw [bind_error f h, lensOf_error, ha.error h]

theorem KeepsAt.getS {α : Type} {f : State → Act α} {s : State} (h : KeepsAt s (f s)) : KeepsAt s (getS >>= f) := h

theorem Steady.getS {α : Type} {f : State → Act α} (h : ∀ s, KeepsAt s (f s)) : Steady (getS >>= f) := h

theorem KeepsAt.setS {α : Type} {f : Unit → Act α} {s t : State} (ht : t.lens = s.lens) (h : KeepsAt t (f ())) :
    KeepsAt s (setS t >>= f) := h.trans ht

@[simp] theorem keepsAt_setS (s t : State) : KeepsAt s (setS t) ↔ t.lens = s.lens := Iff.rfl

@[simp] theorem lensOf_setS (s t : State) : lensOf (setS t s) = t.lens := rfl

@[simp] theorem steady_pure {α : Type} (x : α) : Steady (pure x : Act α) := fun _ => rfl
@[simp] theorem steady_ok {α : Type} (x : α) : Steady (fun s => .ok x s : Act α) := fun _ => rfl
@[simp] theorem steady_getS : Steady getS := fun _ => rfl
@[simp] theorem steady_stop {α : Type} (e : Stop) : Steady (stop e : Act α) := fun _ => rfl

@[simp] theorem steady_ensure (c : Bool) (e : Stop) : Steady (ensure c e) := by
  unfold ensure
  split <;> exact fun _ => rfl

@[simp] theorem steady_ite {α : Type} {c : Prop} [Decidable c] {a b : Act α} (ha : Steady a) (hb : Steady b) :
    Steady (if c then a else b) := by
  split
  · exact ha
  · exact hb

/-- One of two computations, and what follows either. -/
theorem Steady.ite_bind {α β : Type} {p : Prop} [Decidable p] {a b : Act α} {f : α → Act β} (ha : Steady a) (hb : Steady b)
    (hf : ∀ x, Steady (f x)) : Steady (if p then a >>= f else b >>= f) := steady_ite (.bind ha hf) (.bind hb hf)

/-- A change of the current agent's hart that keeps VTYPE and VL. -/
@[simp] theorem steady_onHart {g : Hart → Hart} (hg : ∀ h, (g h).lens = h.lens) : Steady (onHart g) := by
  intro s
  exact State.lens_setHart_self (hg s.hart)

/-- An action for each element of a list. -/
@[simp] theorem actEach_steady {α : Type} (g : α → Act Unit) (hg : ∀ a, Steady (g a)) (l : List α) :
    Steady (actEach g l) := by
  induction l with
  | nil => exact fun _ => rfl
  | cons a l ih =>
    intro s
    unfold actEach
    split
    · next h => rw [ih, (hg a).ok h]
    · next h => rw [lensOf_error, (hg a).error h]

end Sys2Proof.Machine
end

section
/-! SUPPORT. VTYPE and VL of every hart are kept (R19, R21):
Ops, Flit, Address, Coherence, Flags, Access, Finish. -/

namespace Sys2Proof.Machine

/-! ## Ops -/

@[simp] theorem State.setCoreAt_lens (s : State) (c : Nat) (x : CoreSt) : (State.setCoreAt s c x).lens = s.lens := rfl

@[simp] theorem State.setClusterAt_lens (s : State) (c : Nat) (x : ClusterSt) :
    (State.setClusterAt s c x).lens = s.lens := rfl

@[simp] theorem State.setDieAt_lens (s : State) (d : Nat) (x : DieSt) : (State.setDieAt s d x).lens = s.lens := rfl

@[simp] theorem State.setPartAt_lens (s : State) (p : Nat) (x : Part) : (State.setPartAt s p x).lens = s.lens := rfl

@[simp] theorem State.setMillAt_lens (s : State) (h : Nat) (x : Mill) : (State.setMillAt s h x).lens = s.lens := rfl

@[simp] theorem State.modDie_lens (s : State) (d : Nat) (g : DieSt → DieSt) : (State.modDie s d g).lens = s.lens := rfl

@[simp] theorem State.useFresh_lens (s : State) : (State.useFresh s).lens = s.lens := rfl

@[simp] theorem Hart.setX_lens (h : Hart) (r : BitVec 5) (v : Word) : (Hart.setX h r v).lens = h.lens := by simp [Hart.setX]

@[simp] theorem Hart.setF_lens (h : Hart) (r : BitVec 5) (v : Word) : (Hart.setF h r v).lens = h.lens := rfl

@[simp] theorem Hart.retireTo_lens (h : Hart) (pc : Word) : (Hart.retireTo h pc).lens = h.lens := rfl

@[simp] theorem Hart.retire_lens (h : Hart) : (Hart.retire h).lens = h.lens := rfl

@[simp] theorem Hart.pendUi_lens (h : Hart) (code slot : Nat) : (Hart.pendUi h code slot).lens = h.lens := by
  simp [Hart.pendUi]

@[simp] theorem Hart.fireWatches_lens (h : Hart) (a n : Nat) : (Hart.fireWatches h a n).lens = h.lens := by
  simp [Hart.fireWatches]

@[simp] theorem Hart.seesStore_lens (h : Hart) (self : Nat) (w : Writer) (m : List Host.Cell) (a n : Nat) :
    (Hart.seesStore h self w m a n).lens = h.lens := by simp [Hart.seesStore]

@[simp] theorem State.commitBytes_lens (s : State) (w : Writer) (a : Nat) (bs : List Byte) :
    (s.commitBytes w a bs).lens = s.lens :=
  State.lens_harts <| lensIn_map (fun k h => h.seesStore k w (writeBytes s.mem a bs) a bs.length) (fun _ _ => by simp) s.harts

@[simp] theorem State.store_lens (s : State) (w : Writer) (a : Nat) (bs : List Byte) :
    (State.store s w a bs).lens = s.lens := by simp [State.store]

@[simp] theorem State.storeNat_lens (s : State) (w : Writer) (a n x : Nat) : (State.storeNat s w a n x).lens = s.lens := by
  simp [State.storeNat]

@[simp] theorem Hart.enterTrap_lens (h : Hart) (toS irq : Bool) (cause : Nat) (tval : Word) :
    (Hart.enterTrap h toS irq cause tval).lens = h.lens := by simp [Hart.enterTrap]

@[simp] theorem takeTrap_lens (cause : Nat) (tval : Word) (s : State) : (takeTrap cause tval s).lens = s.lens := by
  simp [takeTrap]

@[simp] theorem Hart.leaveTrap_lens (h : Hart) (fromM : Bool) : (Hart.leaveTrap h fromM).lens = h.lens := by
  simp [Hart.leaveTrap]

@[simp] theorem Hart.parkAt_lens (h : Hart) (cause : Nat) (pc : Word) : (Hart.parkAt h cause pc).lens = h.lens := rfl

/-! ## Flit -/

@[simp] theorem transmit_lens (p : Nat) (m : FabMsg) (s : State) : (transmit p m s).lens = s.lens := rfl

@[simp] theorem sendIdle_lens (p : Nat) (s : State) : (sendIdle p s).lens = s.lens := rfl

@[simp] theorem markSent_lens (s : State) (m : FabMsg) (p : Nat) : (markSent s m p).lens = s.lens := rfl

@[simp] theorem sendFabric_lens (m : FabMsg) (s : State) : (sendFabric m s).lens = s.lens := by
  unfold sendFabric
  split <;> rfl

@[simp] theorem releaseOne_lens (s : State) (m : FabMsg) : (releaseOne s m).lens = s.lens := by
  unfold releaseOne
  dsimp only
  split <;> simp

@[simp] theorem releaseHeld_lens (s : State) : (releaseHeld s).lens = s.lens := by simp [releaseHeld]

/-! ## Address -/

@[simp] theorem sendRemote_lens (s : State) (part hart slot kind : Nat) (sub : Byte) (a n : Nat) (data : List Byte) :
    (sendRemote s part hart slot kind sub a n data).lens = s.lens := by simp [sendRemote]

@[simp] theorem dropRemote_lens (s : State) (tag : Nat) : (dropRemote s tag).lens = s.lens := rfl

@[simp] theorem tlbFill_lens (s : State) (e : Env) (t : TlbEnt) : (tlbFill s e t).lens = s.lens := by
  unfold tlbFill
  split <;> simp

theorem resolve_lens {s u : State} {e : Env} {k : Acc} {va n : Nat} {l : Loc} (h : resolve s e k va n = .ok (l, u)) :
    u.lens = s.lens := by
  have hu := sameButTlb_resolve h
  rw [State.lens, hu.cur, hu.harts]
  rfl

@[simp] theorem settleReads_lens (h slot : Nat) (s : State) : (settleReads h slot s).lens = s.lens := rfl

@[simp] theorem holdWord_lens (s : State) (e : Env) (a n v : Nat) : (holdWord s e a n v).lens = s.lens := by simp [holdWord]

@[simp] theorem remoteRead_steady (e : Env) (k : Acc) (va a n : Nat) : Steady (remoteRead e k va a n) := by
  intro s
  unfold remoteRead
  dsimp only
  repeat' split
  all_goals simp

@[simp] theorem remoteWrite_steady (e : Env) (k : Acc) (va a : Nat) (bs : List Byte) : Steady (remoteWrite e k va a bs) := by
  intro s
  simp [remoteWrite]

@[simp] theorem remoteAtomic_steady (e : Env) (kind : Nat) (sub : Byte) (va a n : Nat) (data : List Byte) :
    Steady (remoteAtomic e kind sub va a n data) := by
  intro s
  unfold remoteAtomic
  dsimp only
  repeat' split
  all_goals simp

@[simp] theorem stopAccess_steady {α : Type} (e : Env) (x : Stop) : Steady (stopAccess e x : Act α) := by
  intro s
  unfold stopAccess
  split <;> simp

@[simp] theorem locate_steady (e : Env) (k : Acc) (va n : Nat) : Steady (locate e k va n) := by
  intro s
  unfold locate
  split
  · next h => exact resolve_lens h
  · exact stopAccess_steady e _ s

/-! ## Coherence -/

@[simp] theorem State.send_lens (s : State) (m : Msg) : (State.send s m).lens = s.lens := rfl

@[simp] theorem State.useId_lens (s : State) : (State.useId s).lens = s.lens := rfl

theorem staleDrop_lens (s : State) (m : Msg) {t : State} (ht : staleDrop s m = some t) : t.lens = s.lens := by
  unfold staleDrop at ht
  split at ht
  · cases ht
    simp
  · cases ht

@[simp] theorem setDir_lens (s : State) (region : Nat) (d : Option DirState) : (setDir s region d).lens = s.lens := rfl

@[simp] theorem State.mapCopies_lens (s : State) (f : List Copy → List Copy) : (State.mapCopies s f).lens = s.lens := rfl

@[simp] theorem sendWack_lens (s : State) (m : Msg) (ret : Nat) : (sendWack s m ret).lens = s.lens := by simp [sendWack]

@[simp] theorem perform_lens (s : State) (m : Msg) : (perform s m).lens = s.lens := by simp [perform]

@[simp] theorem commitNow_lens (s : State) (c : Commit) : (commitNow s c).lens = s.lens := by simp [commitNow]

@[simp] theorem recordSharer_lens (s : State) (y a n : Nat) : (recordSharer s y a n).lens = s.lens := rfl

@[simp] theorem grantLease_lens (s : State) (m : Msg) : (grantLease s m).lens = s.lens := by simp [grantLease]

@[simp] theorem invalidate_lens (region : Nat) (s : State) : (invalidate region s).lens = s.lens := by simp [invalidate]

@[simp] theorem State.enqueue_lens (s : State) (m : Msg) : (State.enqueue s m).lens = s.lens := rfl

@[simp] theorem serveOne_lens (s : State) (m : Msg) : (serveOne s m).lens = s.lens := by simp [serveOne]

@[simp] theorem serveQueue_lens (s : State) (a : List Msg) : (serveQueue s a).lens = s.lens := by
  induction a generalizing s with
  | nil => rfl
  | cons a l ih => simp [serveQueue, ih]

@[simp] theorem settleQueue_lens (s : State) : (settleQueue s).lens = s.lens := by simp [settleQueue]

@[simp] theorem releaseLease_lens (s : State) (hart slot : Nat) : (releaseLease s hart slot).lens = s.lens := by
  simp [releaseLease]

@[simp] theorem endLease_lens (s : State) (hart slot : Nat) : (endLease s hart slot).lens = s.lens := by
  unfold endLease
  dsimp only
  repeat' split
  all_goals simp

@[simp] theorem State.pushStore_lens (s : State) (w : Writer) (old : Nat) (bs : List Byte) :
    (State.pushStore s w old bs).lens = s.lens := by simp [State.pushStore]

@[simp] theorem addBar_lens (s : State) (hart : Nat) (b : Bar) : (addBar s hart b).lens = s.lens := by simp [addBar]

@[simp] theorem ask_lens (s : State) (e : Env) (instr : Bool) (a n : Nat) : (ask s e instr a n).lens = s.lens := by
  simp [ask]

@[simp] theorem loadByMessage_steady (e : Env) (instr : Bool) (a n : Nat) : Steady (loadByMessage e instr a n) := by
  intro s
  unfold loadByMessage
  split <;> simp

@[simp] theorem sendStore_lens (s : State) (e : Env) (a : Nat) (bs : List Byte) : (sendStore s e a bs).lens = s.lens := rfl

@[simp] theorem storeMaskByMessage_steady (e : Env) (a : Nat) (mask : Byte) (bs : List Byte) :
    Steady (storeMaskByMessage e a mask bs) := by
  intro s
  rfl

@[simp] theorem Hart.patchLeases_lens (h : Hart) (a : Nat) (bs : List Byte) : (Hart.patchLeases h a bs).lens = h.lens := rfl

@[simp] theorem storeByMessage_steady (e : Env) (a : Nat) (bs : List Byte) : Steady (storeByMessage e a bs) := by
  intro s
  simp [storeByMessage]

/-! ## Flags -/

@[simp] theorem Hart.addFlags_lens (h : Hart) (e : Ev) : (Hart.addFlags h e).lens = h.lens := rfl

@[simp] theorem Hart.addFflags_lens (h : Hart) (e : Ev) : (Hart.addFflags h e).lens = h.lens := rfl

/-! ## Access -/

@[simp] theorem loadMem_steady (k : Acc) (va a n : Nat) : Steady (loadMem k va a n) := by
  intro s
  unfold loadMem
  split <;> simp

@[simp] theorem storeMem_steady (w : Writer) (va a : Nat) (bs : List Byte) : Steady (storeMem w va a bs) := by
  intro s
  unfold storeMem
  split <;> simp

@[simp] theorem loadAt_steady (e : Env) (k : Acc) (va a n : Nat) : Steady (loadAt e k va a n) := by
  intro s
  unfold loadAt
  split
  · exact loadByMessage_steady _ _ _ _ s
  · exact loadMem_steady _ _ _ _ s

@[simp] theorem patchOwn_lens (e : Env) (a : Nat) (bs : List Byte) (s : State) : (patchOwn e a bs s).lens = s.lens := by
  simp [patchOwn]

@[simp] theorem storeAt_steady (e : Env) (va a : Nat) (bs : List Byte) : Steady (storeAt e va a bs) := by
  unfold storeAt
  refine .getS fun s => ?_
  split
  · exact .bind (.of_steady (storeByMessage_steady _ _ _) s) fun _ t ht => patchOwn_lens _ _ _ t
  · exact .bind (.of_steady (storeMem_steady _ _ _ _) s) fun _ t ht => patchOwn_lens _ _ _ t

@[simp] theorem pastBars_steady (e : Env) : Steady (pastBars e) := by
  intro s
  simp [pastBars]

@[simp] theorem loadVa_steady (e : Env) (k : Acc) (va n : Nat) : Steady (loadVa e k va n) := by
  refine .bind (pastBars_steady e) fun _ => .bind (locate_steady _ _ _ _) fun l => ?_
  split
  · exact loadAt_steady _ _ _ _ _
  · exact remoteRead_steady _ _ _ _ _
  · exact steady_stop _

@[simp] theorem storeVa_steady (e : Env) (va : Nat) (bs : List Byte) : Steady (storeVa e va bs) := by
  refine .bind (pastBars_steady e) fun _ => .bind (locate_steady _ _ _ _) fun l => ?_
  split
  · exact storeAt_steady _ _ _ _
  · exact remoteWrite_steady _ _ _ _ _
  · exact steady_stop _

@[simp] theorem storeRuns_steady (e : Env) (l : List (Nat × List Byte)) : Steady (storeRuns e l) := by
  induction l with
  | nil => exact fun _ => rfl
  | cons p l ih => exact .bind (storeVa_steady _ _ _) fun _ => ih

@[simp] theorem storeMasked_steady (e : Env) (l : List (Nat × Byte)) : Steady (storeMasked e l) := by
  intro s
  unfold storeMasked
  dsimp only
  split
  · split
    · next h =>
      split
      · rw [storeMaskByMessage_steady, resolve_lens h]
      · exact storeRuns_steady _ _ s
    · exact storeRuns_steady _ _ s
  · exact storeRuns_steady _ _ s

@[simp] theorem loadRun_steady (e : Env) (k : Acc) (n va : Nat) : Steady (loadRun e k n va) := by
  induction n generalizing va with
  | zero => exact fun _ => rfl
  | succ n ih => exact .bind (loadVa_steady _ _ _ _) fun _ => .bind (ih _) fun _ => steady_pure _

@[simp] theorem loadWords_steady (e : Env) (k : Acc) (n va : Nat) : Steady (loadWords e k n va) := by
  induction n generalizing va with
  | zero => exact fun _ => rfl
  | succ n ih => exact .bind (loadVa_steady _ _ _ _) fun _ => .bind (ih _) fun _ => steady_pure _

@[simp] theorem postRecord_lens (s : State) (p kind detail hart : Nat) (pc a b : Word) :
    (postRecord s p kind detail hart pc a b).1.lens = s.lens := by
  unfold postRecord
  extract_lets pt r body word0 lg lg' s' slot dropped
  split
  · rfl
  · split
    · rfl
    · split
      · rfl
      · dsimp only
        rw [State.pushStore_lens, State.pushStore_lens]
        rfl

@[simp] theorem formatFault_lens (word : W32) (detail : Nat) (b : Word) (s : State) :
    (formatFault word detail b s).lens = s.lens := by simp [formatFault]

@[simp] theorem endPayload_lens (unit a : Nat) (s : State) : (endPayload unit a s).lens = s.lens := by simp [endPayload]

@[simp] theorem errorRecord_lens (unit a : Nat) (s : State) : (errorRecord unit a s).lens = s.lens := by simp [errorRecord]

/-! ## Finish -/

@[simp] theorem millRecord_lens (h : Nat) (k : Kick) (a b : Word) (s : State) : (millRecord h k a b s).lens = s.lens := by
  simp [millRecord]

@[simp] theorem closingWord_steady (h : Nat) (k : Kick) (off : Nat) : Steady (closingWord h k off) :=
  .bind (loadVa_steady _ _ _ _) fun _ => steady_pure _

@[simp] theorem closingFields_steady (h : Nat) (c : Closing) : Steady (closingFields h c) := by
  have read (physical : Bool) : Steady (closingWord h c.kick 0x18 >>= fun mbox => closingWord h c.kick 0x38 >>= fun token =>
      pure (mbox, token, physical)) :=
    .bind (closingWord_steady _ _ _) fun _ => .bind (closingWord_steady _ _ _) fun _ => steady_pure _
  unfold closingFields
  split
  · split
    · exact .bind (steady_pure _) fun _ => steady_pure _
    · exact .bind (closingWord_steady _ _ _) fun _ => .bind (steady_pure _) fun _ => steady_pure _
  · split
    · exact .bind (steady_pure _) read
    · exact .bind (closingWord_steady _ _ _) fun _ => .bind (steady_pure _) read

@[simp] theorem blockLost_lens (h : Nat) (c : Closing) (x : Stop) (s : State) : (blockLost h c x s).lens = s.lens := by
  unfold blockLost
  split <;> simp

@[simp] theorem completeKick_steady (h : Nat) (c : Closing) : Steady (completeKick h c) := by
  intro s
  unfold completeKick
  split
  · next hc => exact (closingFields_steady h c).error hc
  · next hc => exact (blockLost_lens _ _ _ _).trans ((closingFields_steady h c).error hc)
  · next hc =>
    have hs := (closingFields_steady h c).ok hc
    dsimp only
    split
    · exact (millRecord_lens _ _ _ _ _).trans hs
    · split
      · next hl => rw [lensOf_ok, State.pushStore_lens, (locate_steady _ _ _ _).ok hl, hs]
      · next hl =>
        split
        · next hr => rw [lensOf_ok, (remoteWrite_steady _ _ _ _ _).ok hr, (locate_steady _ _ _ _).ok hl, hs]
        · next hr =>
          rw [lensOf_ok, millRecord_lens, (remoteWrite_steady _ _ _ _ _).error hr, (locate_steady _ _ _ _).ok hl, hs]
      · next hl => rw [lensOf_ok, millRecord_lens, (locate_steady _ _ _ _).ok hl, hs]
      · next hl => rw [lensOf_error, (locate_steady _ _ _ _).error hl, hs]
      · next hl => rw [lensOf_ok, millRecord_lens, (locate_steady _ _ _ _).error hl, hs]

@[simp] theorem closeKicks_lens (h n : Nat) (s : State) : (closeKicks h n s).lens = s.lens := by
  induction n generalizing s with
  | zero => rfl
  | succ n ih =>
    unfold closeKicks
    split
    · rfl
    · split
      · rfl
      · split
        · next hk => rw [ih, settleReads_lens, State.setMillAt_lens, (completeKick_steady _ _).ok hk]
        · next hk => rw [(completeKick_steady _ _).error hk]

@[simp] theorem closeKick_lens (h : Nat) (c : Closing) (s : State) : (closeKick h c s).lens = s.lens := by simp [closeKick]

@[simp] theorem endRoutine_lens (h status : Nat) (physical : Bool) (s : State) :
    (endRoutine h status physical s).lens = s.lens := by
  unfold endRoutine
  dsimp only
  split <;> simp

@[simp] theorem faultRoutine_lens (h status cause : Nat) (addr : Word) (physical : Bool) (s : State) :
    (faultRoutine h status cause addr physical s).lens = s.lens := by simp [faultRoutine]

@[simp] theorem parkMilliner_lens (h : Nat) (s : State) : (parkMilliner h s).lens = s.lens := by simp [parkMilliner]

@[simp] theorem trapMilliner_lens (cause : Nat) (tval : Word) (s : State) : (trapMilliner cause tval s).lens = s.lens := by
  simp [trapMilliner]

@[simp] theorem raise_lens (cause : Nat) (tval : Word) (s : State) : (raise cause tval s).lens = s.lens := by simp [raise]

@[simp] theorem afterStop_lens (i : Instr) (e : Stop) (s : State) : (afterStop i e s).lens = s.lens := by
  unfold afterStop
  split <;> simp

theorem runAct_lens {i : Instr} {a : Act Unit} {s t : State} (ha : Steady a) (h : runAct i a s = .next t) :
    t.lens = s.lens := by
  unfold runAct at h
  split at h
  · next h' =>
    cases h
    rw [settleReads_lens, ha.ok h']
  · next h' =>
    cases h
    exact ha.error h'
  · next h' =>
    cases h
    rw [afterStop_lens, settleReads_lens, ha.error h']

end Sys2Proof.Machine
end

section
/-! SUPPORT. VTYPE and VL of every hart are kept (R19, R21):
Operands, Sources, VecPerm, VecMx, VecMem, Order, Window, Crown, Rays, Texture. -/

namespace Sys2Proof.Machine

/-! ## Operands -/

@[simp] theorem Hart.setElem_lens (h : Hart) (r n e x : Nat) : (Hart.setElem h r n e x).lens = h.lens := rfl

@[simp] theorem Hart.setMaskBit_lens (h : Hart) (r e : Nat) (b : Bool) : (Hart.setMaskBit h r e b).lens = h.lens := rfl

@[simp] theorem Hart.setMask_lens (h : Hart) (r : Nat) (v : VReg) : (Hart.setMask h r v).lens = h.lens := rfl

@[simp] theorem Hart.vretire_lens (h : Hart) (takes : Bool) : (Hart.vretire h takes).lens = h.lens := rfl

@[simp] theorem issue_steady (a : Attr) (w : Fld) (legal : Bool) : Steady (issue a w legal) := by
  intro s
  simp [issue]

@[simp] theorem VCtx.putVec_lens (c : VCtx) (d n : Nat) (e x : Nat) (h : Hart) :
    (VCtx.putVec c d n e x h).lens = h.lens := by
  unfold VCtx.putVec
  split <;> rfl

@[simp] theorem putMask_lens (d : Nat) (e x : Nat) (h : Hart) : (putMask d e x h).lens = h.lens := rfl

@[simp] theorem elemLoop_lens (c : VCtx) (put : PutFn) (res : Nat → Except Ev (Nat × Ev)) (n e : Nat) (h : Hart)
    (hp : ∀ e x h, (put e x h).lens = h.lens) : (elemLoop c put res n e h).1.lens = h.lens := by
  induction n generalizing e h with
  | zero => rfl
  | succ n ih =>
    unfold elemLoop
    split
    · rfl
    · split
      · split
        · rw [ih, Hart.addFlags_lens, hp]
        · rfl
      · rw [ih]
        split
        · exact hp _ _ _
        · rfl

@[simp] theorem zeroFrom_lens (put : PutFn) (n e : Nat) (h : Hart) (hp : ∀ e x h, (put e x h).lens = h.lens) :
    (zeroFrom put n e h).lens = h.lens := by
  induction n generalizing e h with
  | zero => rfl
  | succ n ih => rw [zeroFrom, ih, hp]

@[simp] theorem Hart.clearUnused_lens (h : Hart) (fmt a b : Nat) : (Hart.clearUnused h fmt a b).lens = h.lens := by
  induction a generalizing h fmt b with
  | zero => rfl
  | succ n ih => simp [Hart.clearUnused, ih]

@[simp] theorem VCtx.mxClear_lens (c : VCtx) (h : Hart) : (VCtx.mxClear c h).lens = h.lens := by
  unfold VCtx.mxClear
  repeat' split
  all_goals simp

@[simp] theorem VCtx.tailZero_lens (c : VCtx) (put : PutFn) (n : Nat) (h : Hart) (hp : ∀ e x h, (put e x h).lens = h.lens) :
    (c.tailZero put n h).lens = h.lens := by
  unfold VCtx.tailZero
  split <;> simp [hp]

@[simp] theorem stopElem_steady (e : Nat) (ev : Ev) : Steady (stopElem e ev) := by
  intro s
  simp [stopElem]

@[simp] theorem enqueue_lens (i : Instr) (old : Hart) (s : State) : (enqueue i old s).lens = s.lens := by simp [enqueue]

@[simp] theorem retireVec_steady (i : Instr) (takes : Bool) : Steady (retireVec i takes) := by
  intro s
  simp [retireVec]

@[simp] theorem elementWise_steady (i : Instr) (c : VCtx) (put : PutFn) (count : Nat) (res : Nat → Except Ev (Nat × Ev))
    (hp : ∀ e x h, (put e x h).lens = h.lens) : Steady (elementWise i c put count res) := by
  intro s
  unfold elementWise
  have loop := elemLoop_lens c put res (c.vl - c.velem) c.velem s.hart hp
  split
  · next h =>
    rw [h] at loop
    rw [retireVec_steady, State.lens_setHart_self ((VCtx.tailZero_lens _ _ _ _ hp).trans loop)]
  · next h =>
    rw [h] at loop
    rw [stopElem_steady, State.lens_setHart_self loop]

@[simp] theorem crossElement_steady (i : Instr) (c : VCtx) (put : PutFn) (count : Nat) (res : Nat → Nat)
    (hp : ∀ e x h, (put e x h).lens = h.lens) : Steady (crossElement i c put count res) :=
  elementWise_steady _ _ _ _ _ hp

/-! ## Sources -/

@[simp] theorem Hart.flipWord_lens (h : Hart) (p : Nat × Nat) : (Hart.flipWord h p).lens = h.lens := by simp [Hart.flipWord]

@[simp] theorem healed_lens (i : Instr) (a : Act Unit) (s t : State) : (healed i a s t).lens = t.lens := by
  unfold healed
  split <;> simp

theorem struckEnd_lens (i : Instr) (e u r : Nat) (s t : State) :
    (struckEnd i e u r s t).lens = t.lens ∨ (struckEnd i e u r s t).lens = s.lens := by
  unfold struckEnd
  repeat' split
  all_goals simp

@[simp] theorem strikeReg_lens (h r k : Nat) (s : State) : (strikeReg h r k s).lens = s.lens := by simp [strikeReg]

/-! ## VecPerm -/

@[simp] theorem Hart.setMxBlock_lens (h : Hart) (fmt r b x : Nat) : (Hart.setMxBlock h fmt r b x).lens = h.lens := rfl

@[simp] theorem VCtx.putBlock_lens (c : VCtx) (d : Nat) (e x : Nat) (h : Hart) :
    (VCtx.putBlock c d e x h).lens = h.lens := by
  unfold VCtx.putBlock
  split <;> rfl

@[simp] theorem packLoop_lens (c : VCtx) (put : PutFn) (sel : Nat → Bool) (src : Nat → Nat) (n e k : Nat) (h : Hart)
    (hp : ∀ e x h, (put e x h).lens = h.lens) : (packLoop c put sel src n e k h).2.lens = h.lens := by
  induction n generalizing e k h with
  | zero => rfl
  | succ n ih =>
    unfold packLoop
    split
    · rw [ih, hp]
    · exact ih _ _ _

@[simp] theorem unpackLoop_lens (c : VCtx) (put : PutFn) (sel : Nat → Bool) (src : Nat → Nat) (n e j : Nat) (h : Hart)
    (hp : ∀ e x h, (put e x h).lens = h.lens) : (unpackLoop c put sel src n e j h).lens = h.lens := by
  induction n generalizing e j h with
  | zero => rfl
  | succ n ih =>
    unfold unpackLoop
    split
    · rw [ih, hp]
    · rw [ih]
      split
      · exact hp _ _ _
      · rfl

@[simp] theorem VCtx.putReduced_lens (c : VCtx) (d x : Nat) (h : Hart) : (VCtx.putReduced c d x h).lens = h.lens := by
  simp [VCtx.putReduced]

/-! ## VecMx -/

@[simp] theorem Hart.setPlanar_lens (r e x n : Nat) (h : Hart) : (Hart.setPlanar r e x n h).lens = h.lens := by
  induction n with
  | zero => rfl
  | succ n ih => exact ih

@[simp] theorem VCtx.putPlanar_lens (c : VCtx) (d n : Nat) (e x : Nat) (h : Hart) :
    (VCtx.putPlanar c d n e x h).lens = h.lens := by
  unfold VCtx.putPlanar
  split <;> simp

/-! ## VecMem -/

@[simp] theorem readParts_steady (e : Env) (l : List MPart) : Steady (readParts e l) := by
  induction l with
  | nil => exact fun _ => rfl
  | cons p l ih => exact .bind (loadVa_steady _ _ _ _) fun _ => .bind ih fun _ => steady_pure _

@[simp] theorem readElem_steady (e : Env) (ps : List MPart) : Steady (readElem e ps) := by
  intro s
  unfold readElem
  split
  · exact stopAccess_steady e _ s
  · exact readParts_steady e ps s

@[simp] theorem loadLoop_lens (c : VCtx) (put : PutFn) (rd : Nat → Act Nat) (n e : Nat) (first : Bool) (s : State)
    (hp : ∀ e x h, (put e x h).lens = h.lens) (hr : ∀ e, Steady (rd e)) :
    (loadLoop c put rd n e first s).1.lens = s.lens := by
  induction n generalizing e first s with
  | zero => rfl
  | succ n ih =>
    unfold loadLoop
    split
    · rfl
    · split
      · split
        · next h => simp [ih, hp, (hr e).ok h]
        · next h => exact (hr e).error h
      · rw [ih]
        split
        · simp [hp]
        · rfl

@[simp] theorem State.setVelem_lens (s : State) (e : Nat) : (State.setVelem s e).lens = s.lens := by simp [State.setVelem]

@[simp] theorem performStores_steady (e : Env) (l : List PartStore) : Steady (performStores e l) :=
  actEach_steady _ (fun _ => storeVa_steady _ _ _) l

@[simp] theorem storeWord_steady (i : Instr) (c : VCtx) (env : Env) (ps : Nat → List MPart) (val : Nat → Nat)
    (pick : State → Env → List PartStore → List PartStore) : Steady (storeWord i c env ps val pick) := by
  intro s
  unfold storeWord
  dsimp only
  split
  · rfl
  · split
    · rfl
    · exact stopAccess_steady _ _ s
    · exact (Steady.bind (performStores_steady _ _) fun _ => retireVec_steady _ _) s
    · split
      · next h => simpa using (performStores_steady _ _).ok h
      · next h => exact (performStores_steady _ _).error h

@[simp] theorem askRegion_lens (e : Env) (l : List (Nat × Nat)) (s : State) (r : Nat) :
    (askRegion e l s r).lens = s.lens := by
  unfold askRegion
  dsimp only
  split <;> simp

@[simp] theorem askGroup_lens (e : Env) (s : State) (ps : List MPart) : (askGroup e s ps).lens = s.lens := by simp [askGroup]

@[simp] theorem askGroups_steady (e : Env) (c : VCtx) (per : Nat) (ps : Nat → List MPart) :
    Steady (askGroups e c per ps) := by
  intro s
  simp [askGroups]

@[simp] theorem putFields_lens (d g sew : Nat) (dreg : Option Nat) (n j e x : Nat) (h : Hart) :
    (putFields d g sew dreg n j e x h).lens = h.lens := by
  induction n generalizing j x h with
  | zero => rfl
  | succ n ih =>
    unfold putFields
    rw [ih]
    split <;> simp

@[simp] theorem putMaskByte_lens (d vl : Nat) (tail : Bool) (e x : Nat) (h : Hart) :
    (putMaskByte d vl tail e x h).lens = h.lens := by simp [putMaskByte]

@[simp] theorem Hart.setStream_lens (h : Hart) (q : Nat) (st : Option Stream) : (Hart.setStream h q st).lens = h.lens := rfl

@[simp] theorem readTuple_steady (s : State) (st : Stream) (t : Nat) : Steady (readTuple s st t) := by
  unfold readTuple
  induction List.range st.parts with
  | nil => exact steady_pure _
  | cons k l ih => exact .bind (loadMem_steady _ _ _ _) fun _ => .bind ih fun _ => steady_pure _

@[simp] theorem stallWith_steady (w : Wait) : Steady (stallWith w) :=
  .bind (steady_onHart fun _ => rfl) fun _ => steady_stop _

@[simp] theorem sampleWord_steady (e : Env) (t : Wait) (va : Nat) : Steady (sampleWord e t va) := by
  intro s
  unfold sampleWord
  split
  · next h => exact (locate_steady _ _ _ _).error h
  · next h => exact (locate_steady _ _ _ _).ok h
  · next h =>
    rw [← (locate_steady _ _ _ _).ok h]
    split
    · rfl
    · split
      · rfl
      · split
        · next h' => exact (loadMem_steady _ _ _ _).ok h'
        · next h' => exact (loadMem_steady _ _ _ _).error h'
  · next h =>
    rw [← (locate_steady _ _ _ _).ok h]
    repeat' split
    all_goals simp

@[simp] theorem sampleLoop_steady (c : VCtx) (env : Env) (h : Hart) (r target : Nat) (t : Wait) (n e : Nat)
    (p : VReg × List Nat) : Steady (sampleLoop c env h r target t n e p) := by
  induction n generalizing e p with
  | zero => exact fun _ => rfl
  | succ n ih =>
    obtain ⟨sat, l⟩ := p
    exact steady_ite (.bind (sampleWord_steady _ _ _) fun _ => ih _ _) (ih _ _)

@[simp] theorem finishVwait_steady (w : Fld) (c : VCtx) (sat : VReg) : Steady (finishVwait w c sat) :=
  crossElement_steady _ _ _ _ _ (by simp)

@[simp] theorem issueVwait_steady (w : Fld) : Steady (issueVwait w) := by
  intro s
  exact issue_steady _ _ _ s

/-! ## Order -/

@[simp] theorem retireWith_steady (rd : BitVec 5) (v : Word) : Steady (retireWith rd v) := by
  unfold retireWith
  exact steady_onHart fun h => by simp

@[simp] theorem dropRemoteWords_lens (s : State) (h : Nat) : (dropRemoteWords s h).lens = s.lens := by simp [dropRemoteWords]

@[simp] theorem layFence_steady (scope : Nat) (a1 a2 b1 b2 : Bool) : Steady (layFence scope a1 a2 b1 b2) := by
  intro s
  simp [layFence]

@[simp] theorem Hart.startLease_lens (h : Hart) (slot : Nat) (l : Lease) : (Hart.startLease h slot l).lens = h.lens := rfl

@[simp] theorem leaseNow_lens (s : State) (base : Word) (a words slot n : Nat) :
    (leaseNow s base a words slot n).lens = s.lens := by simp [leaseNow]

/-! ## Window -/

@[simp] theorem Hart.setWindow_lens (h : Hart) (n : Nat) (w : Option Window) : (Hart.setWindow h n w).lens = h.lens := rfl

@[simp] theorem settleWindows_lens (who : Nat) (s : State) : (settleWindows who s).lens = s.lens := by simp [settleWindows]

@[simp] theorem targetPlace_steady (e : Env) (va n : Nat) : Steady (targetPlace e va n) := by
  refine .bind (locate_steady _ _ _ _) fun l => ?_
  split
  · exact steady_pure _
  · exact steady_pure _
  · exact steady_stop _

@[simp] theorem waccLoop_lens (c : VCtx) (who : Nat) (x : Window) (off val : Nat → Nat) (n e : Nat) (s : State) :
    (waccLoop c who x off val n e s).1.lens = s.lens := by
  induction n generalizing e s with
  | zero => rfl
  | succ n ih =>
    unfold waccLoop
    dsimp only
    split
    · rfl
    · split
      · exact ih _ _
      · split
        · rfl
        · split
          · rfl
          · split
            · rfl
            · rw [ih, State.storeNat_lens]

@[simp] theorem readTargets_steady (e : Env) (target pa0 pa1 n i : Nat) : Steady (readTargets e target pa0 pa1 n i) := by
  induction n generalizing i with
  | zero => exact fun _ => rfl
  | succ n ih =>
    refine .getS fun s => .of_steady ?_ s
    split
    · exact .bind (remoteRead_steady _ _ _ _ _) fun _ => .bind (ih _) fun _ => steady_pure _
    · exact .bind (loadAt_steady _ _ _ _ _) fun _ => .bind (ih _) fun _ => steady_pure _

@[simp] theorem foldStore_steady (e : Env) (a : Nat) (bs : List Byte) : Steady (foldStore e a bs) := by
  intro s
  unfold foldStore
  split
  · exact storeByMessage_steady _ _ _ s
  · exact State.pushStore_lens _ _ _ _

@[simp] theorem writeTargets_steady (e : Env) (target pa0 pa1 i : Nat) (l : List Nat) :
    Steady (writeTargets e target pa0 pa1 i l) := by
  induction l generalizing i with
  | nil => exact fun _ => rfl
  | cons x l ih =>
    refine .getS fun s => .of_steady ?_ s
    split
    · exact .bind (remoteWrite_steady _ _ _ _ _) fun _ => ih _
    · exact .bind (foldStore_steady _ _ _) fun _ => ih _

@[simp] theorem beginWait_steady : Steady (beginWait) := by
  intro s
  simp [beginWait]

@[simp] theorem foldOwn_steady (w : Fld) (c : VCtx) (x : Window) (ps : List Nat) : Steady (foldOwn w c x ps) := by
  refine .getS fun s => .of_steady ?_ s
  refine .bind (pastBars_steady _) fun _ => .bind (readTargets_steady _ _ _ _ _ _) fun _ =>
    .bind (writeTargets_steady _ _ _ _ _ _) fun _ => .bind (steady_onHart (by simp)) fun _ =>
    .bind beginWait_steady fun _ => .getS fun s => .setS (settleWindows_lens _ _) (.getS (.of_steady ?_ _))
  exact .bind (steady_ensure _ _) fun _ => retireVec_steady _ _

@[simp] theorem completeDomain.dropCompleting_lens (part id : Nat) (s : State) :
    (completeDomain.dropCompleting part id s).lens = s.lens := rfl

@[simp] theorem foldValue_steady (e : Env) (a : Nat) : Steady (foldValue e a) := by
  intro s
  unfold foldValue
  repeat' split
  all_goals simp

@[simp] theorem foldTargets_steady (e : Env) (cs : List Contribution) (l : List Nat) : Steady (foldTargets e cs l) := by
  induction l with
  | nil => exact fun _ => rfl
  | cons a l ih =>
    unfold foldTargets
    refine .bind (foldValue_steady e a) fun v => .bind ih fun _ => ?_
    split
    · simp
    · refine .getS fun s => ?_
      split <;> simp

@[simp] theorem dropPartials_lens (s : State) (part dom phase : Nat) : (dropPartials s part dom phase).lens = s.lens := rfl

@[simp] theorem foldPhase_steady (part dom phase : Nat) : Steady (foldPhase part dom phase) := by
  intro s
  unfold foldPhase
  rw [getS_bind]
  refine lensOf_bind (foldTargets_steady _ _ _) rfl fun _ t ht => ?_
  rw [getS_bind, setS_bind, steady_ensure, settleReads_lens, dropPartials_lens, ht]

/-! ## Crown -/

@[simp] theorem Hart.setBbuf_lens (h : Hart) (b : Nat) (x : BBuf) : (Hart.setBbuf h b x).lens = h.lens := rfl

@[simp] theorem moveToLink_lens (s : State) (c : Nat) : (moveToLink s c).lens = s.lens := by
  unfold moveToLink
  dsimp only
  split <;> simp

@[simp] theorem deliverLink_lens (s : State) (c : Nat) : (deliverLink s c).lens = s.lens := by
  unfold deliverLink
  dsimp only
  split <;> simp

@[simp] theorem needFmt_steady (t : Word) : Steady (needFmt t) := by
  unfold needFmt
  split <;> simp

@[simp] theorem loadPieces_steady (e : Env) (ok : State → Nat → Bool) (n va : Nat) : Steady (loadPieces e ok n va) := by
  induction n generalizing va with
  | zero => exact fun _ => rfl
  | succ n ih =>
    refine .bind (locate_steady _ _ _ _) fun l => .getS fun s => .of_steady ?_ s
    split
    · exact .bind (steady_ensure _ _) fun _ => .bind (loadMem_steady _ _ _ _) fun _ => .bind (ih _) fun _ => steady_pure _
    · exact steady_stop _

@[simp] theorem loadRows_steady (e : Env) (ok : State → Nat → Bool) (stride bytes n va : Nat) :
    Steady (loadRows e ok stride bytes n va) := by
  induction n generalizing va with
  | zero => exact fun _ => rfl
  | succ n ih =>
    exact .bind (steady_ensure _ _) fun _ => .bind (loadPieces_steady _ _ _ _) fun _ => .bind (ih _) fun _ => steady_pure _

@[simp] theorem loadARow_steady (e : Env) (bytes va : Nat) : Steady (loadARow e bytes va) :=
  .bind (steady_ensure _ _) fun _ => .bind (steady_ensure _ _) fun _ => .bind (steady_ensure _ _) fun _ =>
    loadPieces_steady _ _ _ _

@[simp] theorem loadARows_steady (e : Env) (stride bytes n va : Nat) : Steady (loadARows e stride bytes n va) := by
  induction n generalizing va with
  | zero => exact fun _ => rfl
  | succ n ih => exact .bind (loadARow_steady _ _ _) fun _ => .bind (ih _) fun _ => steady_pure _

@[simp] theorem setTileHere_steady (n : Nat) (t : Tile) : Steady (setTileHere n t) := by
  intro s
  rfl

/-! ## Rays -/

@[simp] theorem issueG_steady (w : Fld) (size align : Nat) : Steady (issueG w size align) :=
  .getS fun s => .of_steady (.bind (issue_steady _ _ _) fun _ => .bind (steady_ensure _ _) fun _ =>
    .bind (steady_ensure _ _) fun _ => steady_pure _) s

@[simp] theorem gLoop_steady (i : Instr) (w : Fld) (c : VCtx) (size : Nat) (res : Nat → Act Nat) (hr : ∀ e, Steady (res e)) :
    Steady (gLoop i w c size res) := by
  intro s
  unfold gLoop
  have hp (e x : Nat) (h : Hart) :
    (putFields (s.hart.vreg w.d) 1 32 c.dreg size 0 e x h).lens = h.lens := putFields_lens _ _ _ _ _ _ _ _ _
  have loop := loadLoop_lens c _ res (c.vl - c.velem) c.velem true s hp hr
  dsimp only
  split
  · next h =>
    rw [h] at loop
    rw [retireVec_steady, State.lens_setHart_self (VCtx.tailZero_lens _ _ _ _ hp), loop]
  · next h =>
    rw [h] at loop
    exact State.lens_setHart_same loop rfl
  · next h =>
    rw [h] at loop
    simpa using loop

@[simp] theorem readNode_steady (w : Fld) (e : Nat) : Steady (readNode w e) :=
  .getS fun s => .of_steady (.bind (readElem_steady _ _) fun _ => steady_pure _) s

/-! ## Texture -/

@[simp] theorem texRead_steady (va n : Nat) : Steady (texRead va n) := by
  intro s
  unfold texRead
  split
  · next h => exact (loadVa_steady _ _ _ _).ok h
  · next h => exact (loadVa_steady _ _ _ _).error h
  · next h => exact (errorRecord_lens _ _ _).trans ((loadVa_steady _ _ _ _).error h)
  · next h => exact (loadVa_steady _ _ _ _).error h

@[simp] theorem resident_steady (r : TexRec) (num : Nat) : Steady (resident r num) :=
  .bind (texRead_steady _ _) fun _ => steady_pure _

@[simp] theorem missing_steady (r : TexRec) (l : List TexTile) : Steady (missing r l) := by
  induction l with
  | nil => exact fun _ => rfl
  | cons t l ih => exact .bind (resident_steady _ _) fun _ => .bind ih fun _ => steady_pure _

@[simp] theorem findLevel_steady (r : TexRec) (layer : Nat) (foot : Nat → List Tap) (n l : Nat) :
    Steady (findLevel r layer foot n l) := by
  induction n generalizing l with
  | zero => exact fun _ => rfl
  | succ n ih =>
    unfold findLevel
    refine steady_ite (fun _ => rfl) (.bind (missing_steady _ _) fun m => ?_)
    split
    · exact steady_pure _
    · exact steady_pure _
    · exact ih _

@[simp] theorem pickLevel_steady (r : TexRec) (layer want frac x0 y0 : Nat) (foot : Nat → List Tap) :
    Steady (pickLevel r layer want frac x0 y0 foot) := by
  refine .bind (texRead_steady _ _) fun m => ?_
  split
  · exact steady_pure _
  refine .bind (findLevel_steady _ _ _ _ _) fun l => ?_
  split
  · exact steady_pure _
  refine steady_ite (steady_ite (steady_pure _) (.bind (missing_steady _ _) fun ms => ?_))
    (.bind (missing_steady _ _) fun ms => ?_)
  · split <;> exact steady_pure _
  · split
    · exact steady_pure _
    · exact steady_ite (steady_pure _) (steady_pure _)

@[simp] theorem readTexels_steady (r : TexRec) (l layer : Nat) (ts : List Tap) : Steady (readTexels r l layer ts) := by
  induction ts with
  | nil => exact fun _ => rfl
  | cons t ts ih =>
    unfold readTexels
    split
    · exact .bind ih fun _ => steady_pure _
    · exact .bind (texRead_steady _ _) fun _ => .bind ih fun _ => steady_pure _

@[simp] theorem postMiss_lens (cl : Nat) (m : TexMiss) (s : State) : (postMiss cl m s).lens = s.lens := by simp [postMiss]

@[simp] theorem postMisses_steady (r : TexRec) (layer : Nat) (p : Picked) : Steady (postMisses r layer p) := by
  intro s
  simp [postMisses]

@[simp] theorem endTexture_lens (s : State) : (endTexture s).lens = s.lens := by simp [endTexture]

@[simp] theorem readRecord_steady (w : Fld) (e : Nat) : Steady (readRecord w e) := by
  refine .getS fun s => .of_steady (.bind (readElem_steady _ _) fun b => ?_) s
  split
  · exact steady_pure _
  · exact steady_stop _

@[simp] theorem pickFor_steady (r : TexRec) (layer : Nat) (v : Nat → FVal) (q : Lod) : Steady (pickFor r layer v q) :=
  pickLevel_steady _ _ _ _ _ _ _

@[simp] theorem sampleComps_steady (r : TexRec) (layer : Nat) (q : Lod) (p : Picked) : Steady (sampleComps r layer q p) :=
  steady_ite (steady_pure _) (.bind (readTexels_steady _ _ _ _) fun _ =>
    steady_ite (.bind (readTexels_steady _ _ _ _) fun _ => steady_pure _) (steady_pure _))

@[simp] theorem txsElem_steady (w : Fld) (e : Nat) : Steady (txsElem w e) := by
  refine .getS fun s => .of_steady (.bind (readRecord_steady _ _) fun r => steady_ite (steady_pure _) ?_) s
  refine .bind (pickFor_steady _ _ _ _) fun p => ?_
  split
  · exact steady_pure _
  · refine .bind (sampleComps_steady _ _ _ _) fun c => ?_
    split
    · exact steady_pure _
    · exact .bind (postMisses_steady _ _ _) fun _ => steady_pure _

@[simp] theorem pickedVals_steady (r : TexRec) (layer : Nat) (p : Picked) (border : List Nat) (foot : Nat → List Tap)
    (f : List (Nat × (Nat → TexVal)) → List Nat) : Steady (pickedVals r layer p border foot f) :=
  steady_ite (fun _ => rfl) (.bind (readTexels_steady _ _ _ _) fun _ => steady_pure _)

@[simp] theorem txgElem_steady (w : Fld) (e : Nat) : Steady (txgElem w e) := by
  refine .getS fun s => .of_steady (.bind (readRecord_steady _ _) fun r => steady_ite (steady_pure _) ?_) s
  refine .bind (pickFor_steady _ _ _ _) fun p => ?_
  split
  · exact steady_pure _
  · refine .bind (pickedVals_steady _ _ _ _ _ _) fun c => ?_
    split
    · exact steady_pure _
    · exact .bind (postMisses_steady _ _ _) fun _ => steady_pure _

@[simp] theorem txfElem_steady (w : Fld) (free e : Nat) : Steady (txfElem w free e) := by
  refine .getS fun s => .of_steady (.bind (readRecord_steady _ _) fun r => steady_ite (steady_pure _) ?_) s
  refine .bind (pickLevel_steady _ _ _ _ _ _ _) fun p => ?_
  split
  · exact steady_pure _
  · refine .bind (pickedVals_steady _ _ _ _ _ _) fun c => ?_
    split
    · exact steady_pure _
    · exact .bind (postMisses_steady _ _ _) fun _ => steady_pure _

@[simp] theorem txlodElem_steady (w : Fld) (e : Nat) : Steady (txlodElem w e) := by
  refine .getS fun s => .of_steady (.bind (readRecord_steady _ _) fun r => steady_ite (steady_pure _) ?_) s
  refine .bind (pickFor_steady _ _ _ _) fun p => ?_
  split <;> exact steady_pure _

end Sys2Proof.Machine
end

section
/-! SUPPORT. VTYPE and VL of every hart are kept (R19, R21):
Domain, Control, Quiesce, Turn, Devices, Scalar. -/

namespace Sys2Proof.Machine

/-! ## Domain -/

@[simp] theorem descriptorWord_steady (r : DomRef) (off : Nat) : Steady (descriptorWord r off) := by
  intro s
  unfold descriptorWord
  dsimp only
  split
  · split
    · rfl
    · split <;> rfl
  · split
    · next h => exact (remoteAtomic_steady _ _ _ _ _ _ _).ok h
    · next h => exact (remoteAtomic_steady _ _ _ _ _ _ _).error h
  · rfl

@[simp] theorem setDescriptor_lens (s : State) (a : Nat) (v : Word) : (setDescriptor s a v).lens = s.lens := by
  simp [setDescriptor]

@[simp] theorem stampPartials_lens (s : State) (who : Nat) (r : DomRef) (phase : Nat) :
    (stampPartials s who r phase).lens = s.lens := by simp [stampPartials]

@[simp] theorem noteArrived_lens (s : State) (part id a arrived : Nat) :
    (noteArrived s part id a arrived).lens = s.lens := by simp [noteArrived]

@[simp] theorem Hart.arriveIn_lens (h : Hart) (r : DomRef) : (Hart.arriveIn h r).lens = h.lens := rfl

@[simp] theorem passDomain_steady : Steady (passDomain) := by
  unfold passDomain
  exact steady_onHart fun h => by simp

@[simp] theorem arriveFar_steady (r : DomRef) (phase : Nat) : Steady (arriveFar r phase) := by
  refine .getS fun s => .of_steady (.bind (remoteAtomic_steady _ _ _ _ _ _ _) fun _ => .getS fun s => ?_) s
  exact .setS (stampPartials_lens _ _ _ _) (.of_steady (.bind (steady_onHart (by simp)) fun _ => steady_pure _) _)

@[simp] theorem arriveHere_steady (r : DomRef) (phase : Nat) : Steady (arriveHere r phase) := by
  refine .getS fun s => .bind (.of_steady (steady_ensure _ _) s) fun _ t ht => ?_
  refine .setS ?_ (.of_steady (.bind (steady_onHart (by simp)) fun _ => steady_pure _) _)
  rw [noteArrived_lens, stampPartials_lens, setDescriptor_lens, ht]

@[simp] theorem arrive_steady (r : DomRef) : Steady (arrive r) := by
  refine .getS fun s => .of_steady ?_ s
  split
  · exact arriveFar_steady _ _
  · refine .bind (descriptorWord_steady _ _) fun w => steady_ite (steady_pure _) (steady_ite (steady_pure _) ?_)
    split
    · exact .bind (steady_onHart fun _ => rfl) fun _ => arriveFar_steady _ _
    · exact arriveHere_steady _ _

@[simp] theorem retireDomain_steady (rd : BitVec 5) (st p : Nat) : Steady (retireDomain rd st p) := by
  unfold retireDomain
  exact steady_onHart fun h => by simp

@[simp] theorem retireDarrive_steady (rd : BitVec 5) (st p : Nat) : Steady (retireDarrive rd st p) :=
  steady_ite (retireDomain_steady _ _ _) (.bind passDomain_steady fun _ => retireDomain_steady _ _ _)

@[simp] theorem awaitArrival_steady : Steady awaitArrival := fun s => stallWith_steady _ s

@[simp] theorem acquireDomain_lens (r : DomRef) (s : State) : (acquireDomain r s).lens = s.lens := by simp [acquireDomain]

@[simp] theorem foldHere_steady (r : DomRef) (p : Nat) : Steady (foldHere r p) := by
  intro s
  unfold foldHere
  split
  · exact foldPhase_steady _ _ _ s
  · rfl

@[simp] theorem Hart.heldPark_lens (h : Hart) (shed quiesce : Bool) : (Hart.heldPark h shed quiesce).lens = h.lens := rfl

@[simp] theorem holdFar_steady (r : DomRef) : Steady (holdFar r) := by
  refine .getS fun s => .of_steady ?_ s
  generalize heldAt s s.cur s.hart = p
  obtain ⟨shed, quiesce⟩ := p
  cases regionOf s r.addr
  case far m => exact steady_ite (.bind (steady_onHart (by simp)) fun _ => steady_stop _) (fun _ => rfl)
  all_goals exact fun _ => rfl

@[simp] theorem testPhase_steady (r : DomRef) (t : Wait) (p : Nat) (done : Nat → Nat → Act Unit)
    (hd : ∀ a b, Steady (done a b)) : Steady (testPhase r t p done) := by
  unfold testPhase
  refine .getS fun s => ?_
  extract_lets here
  refine .of_steady (.bind (steady_onHart ?_) fun _ => ?_) s
  · exact fun _ => rfl
  refine steady_ite (steady_stop _) (.bind (descriptorWord_steady _ _) fun w => ?_)
  refine steady_ite (.bind passDomain_steady fun _ => hd _ _) (steady_ite ?_ ?_)
  · refine .bind (foldHere_steady _ _) fun _ => .bind (holdFar_steady _) fun _ => .bind passDomain_steady fun _ => ?_
    exact .getS fun s => .setS (acquireDomain_lens _ _) (.of_steady (hd _ _) _)
  · exact stallWith_steady _

@[simp] theorem issueWait_steady (r : DomRef) (waiting : Bool) : Steady (issueWait r waiting) :=
  steady_ite (steady_pure _) (.bind (descriptorWord_steady _ _) fun _ => steady_pure _)

@[simp] theorem retireDbar_steady (rd : BitVec 5) (st p : Nat) : Steady (retireDbar rd st p) := by
  unfold retireDbar
  exact steady_onHart fun h => by simp

@[simp] theorem arriveDbar_steady (x p : Nat) : Steady (arriveDbar x p) := by
  intro s
  simp [arriveDbar]

@[simp] theorem waitDbar_steady (r : DomRef) (w : SFld) : Steady (waitDbar r w) := by
  intro s
  unfold waitDbar
  exact testPhase_steady _ _ _ _ (fun _ _ => retireDbar_steady _ _ _) s

@[simp] theorem retireMissed_steady (rd : BitVec 5) (st p : Nat) : Steady (retireMissed rd st p) :=
  .getS fun s => .of_steady (steady_ite (retireDbar_steady _ _ _)
    (.bind passDomain_steady fun _ => retireDbar_steady _ _ _)) s

@[simp] theorem holdMembers_lens (s : State) (part id : Nat) : (holdMembers s part id).lens = s.lens :=
  State.lens_harts <| lensIn_map (fun k h => if inDomain s k h part id && ((heldAt s k h).1 || (heldAt s k h).2)
    then h.heldPark (heldAt s k h).1 (heldAt s k h).2 else h) (fun k h => by split <;> simp) s.harts

@[simp] theorem completeDomain_steady (part id : Nat) : Steady (completeDomain part id) := by
  unfold completeDomain
  refine .getS fun s => ?_
  split
  · simp
  · dsimp only
    split
    · simp
    · refine .bind (.of_steady (foldPhase_steady _ _ _) s) fun _ t ht => .getS ?_
      refine .bind (.of_steady (steady_ensure _ _) t) fun _ u hu => ?_
      simp [hu]

@[simp] theorem breakDomain_lens (part id : Nat) (s : State) : (breakDomain part id s).lens = s.lens := by
  unfold breakDomain
  split <;> simp

@[simp] theorem strikeWord_lens (s : State) (w : Nat) : (strikeWord s w).lens = s.lens := by simp [strikeWord]

@[simp] theorem strikeStored_lens (s : State) (w : Nat) : (strikeStored s w).lens = s.lens := by simp [strikeStored]

@[simp] theorem strikeIn_lens (unit w : Nat) (s : State) : (strikeIn unit w s).lens = s.lens := by simp [strikeIn]

@[simp] theorem countCorrected_lens (die : Nat) (s : State) : (countCorrected die s).lens = s.lens := by
  simp [countCorrected]

/-! ## Control -/

@[simp] theorem Hart.interrupted_lens (h : Hart) : (Hart.interrupted h).lens = h.lens := rfl

@[simp] theorem Hart.takeUi_lens (h : Hart) (c : Nat × Nat) : (Hart.takeUi h c).lens = h.lens := rfl

@[simp] theorem Hart.takeDueUi_lens (h : Hart) : (Hart.takeDueUi h).lens = h.lens := by
  unfold Hart.takeDueUi
  split <;> rfl

@[simp] theorem releaseIsland_lens (s : State) (i : Nat) : (releaseIsland s i).lens = s.lens := by simp [releaseIsland]

@[simp] theorem leaveRetention_lens (s : State) (i : Nat) : (leaveRetention s i).lens = s.lens := rfl

@[simp] theorem State.mapHarts_lens (s : State) (t : Nat → Hart → Bool) (g : Hart → Hart) (hg : ∀ h, (g h).lens = h.lens) :
    (s.mapHarts t g).lens = s.lens :=
  State.lens_harts <| lensIn_map (fun k h => if t k h then g h else h) (fun k h => by split <;> simp [hg]) s.harts

@[simp] theorem releaseHarts_lens (s : State) (t : Nat → Hart → Bool) : (releaseHarts s t).lens = s.lens := by
  simp [releaseHarts]

@[simp] theorem Hart.unpark_lens (h : Hart) : (Hart.unpark h).lens = h.lens := rfl

@[simp] theorem wakeHart_lens (h : Nat) (s : State) : (wakeHart h s).lens = s.lens := by simp [wakeHart]

@[simp] theorem wakeSystem_lens (h : Nat) (s : State) : (wakeSystem h s).lens = s.lens := by simp [wakeSystem]

@[simp] theorem endLeases_lens (h : Nat) (s : State) : (endLeases h s).lens = s.lens := by simp [endLeases]

@[simp] theorem Hart.withCtl_lens (h : Hart) (g : Ctl → Ctl) : (Hart.withCtl h g).lens = h.lens := rfl

@[simp] theorem requestPreempt_lens (h : Nat) (s : State) : (requestPreempt h s).lens = s.lens := by simp [requestPreempt]

@[simp] theorem requestRestore_lens (h : Nat) (s : State) : (requestRestore h s).lens = s.lens := by simp [requestRestore]

@[simp] theorem writeReservation_lens (h : Nat) (v : Word) (s : State) : (writeReservation h v s).lens = s.lens := by
  simp [writeReservation]

@[simp] theorem performKick_lens (m : Nat) (k : Kick) (s : State) : (performKick m k s).lens = s.lens := by
  simp [performKick]

@[simp] theorem abortMilliner_lens (m : Nat) (s : State) : (abortMilliner m s).lens = s.lens := by simp [abortMilliner]

/-! ## Quiesce -/

@[simp] theorem State.modCluster_lens (s : State) (c : Nat) (g : ClusterSt → ClusterSt) :
    (State.modCluster s c g).lens = s.lens := rfl

@[simp] theorem refuse_lens (s : State) (c : Nat) : (refuse s c).lens = s.lens := rfl

@[simp] theorem releaseQuiesce_lens (c : Nat) (s : State) : (releaseQuiesce c s).lens = s.lens := by
  unfold releaseQuiesce
  dsimp only
  rw [State.mapHarts_lens _ _ _ (by simp), releaseHarts_lens]

@[simp] theorem setReq_lens (c : Nat) (s : State) : (setReq c s).lens = s.lens := rfl

@[simp] theorem setForce_lens (c : Nat) (s : State) : (setForce c s).lens = s.lens := by simp [setForce]

@[simp] theorem cancelReq_lens (c : Nat) (s : State) : (cancelReq c s).lens = s.lens := by simp [cancelReq]

@[simp] theorem writeReq_lens (c : Nat) (req force : Bool) (s : State) : (writeReq c req force s).lens = s.lens := by
  simp [writeReq]

@[simp] theorem writeSave_lens (c : Nat) (base : Word) (save : Bool) (s : State) :
    (writeSave c base save s).lens = s.lens := by simp [writeSave]

@[simp] theorem writeGate_lens (c : Nat) (gate : Bool) (s : State) : (writeGate c gate s).lens = s.lens := by
  simp [writeGate]

@[simp] theorem writeRail_lens (c : Nat) (mode : BitVec 2) (s : State) : (writeRail c mode s).lens = s.lens := by
  simp [writeRail]

@[simp] theorem writeWake_lens (c : Nat) (s : State) : (writeWake c s).lens = s.lens := rfl

/-! ## Turn -/

@[simp] theorem fetchLine_steady (e : Env) (va a : Nat) : Steady (fetchLine e va a) := by
  intro s
  unfold fetchLine
  dsimp only
  split
  · next h => exact (loadAt_steady _ _ _ _ _).ok h
  · next h => exact (loadAt_steady _ _ _ _ _).error h

@[simp] theorem refill_steady (a : Word) : Steady (refill a) := by
  intro s
  unfold refill
  dsimp only
  split
  · rfl
  · split
    · next h => exact (locate_steady _ _ _ _).error h
    · next h => exact (locate_steady _ _ _ _).ok h
    · next h =>
      rw [← (locate_steady _ _ _ _).ok h]
      split
      · next h' => exact (remoteRead_steady _ _ _ _ _).ok h'
      · next h' => exact (remoteRead_steady _ _ _ _ _).error h'
    · next h => rw [fetchLine_steady, (locate_steady _ _ _ _).ok h]

@[simp] theorem fetchAhead_lens (h va : Nat) (s : State) : (fetchAhead h va s).lens = s.lens := by
  unfold fetchAhead
  split
  · rfl
  · dsimp only
    split
    · next hr =>
      have ht := (refill_steady _).error hr
      exact State.lens_asCur ht
    · rfl
    · next l t hr =>
      have ht := (refill_steady _).ok hr
      have hu {x : List (Nat × W32)} : (t.setHart { t.hart with run := { t.hart.run with fetch := x } }).lens = t.lens :=
        State.lens_setHart_self rfl
      exact State.lens_asCur (hu.trans ht)

@[simp] theorem fetchAt_steady (a : Word) : Steady (fetchAt a) := by
  intro s
  unfold fetchAt
  dsimp only
  split
  · split <;> rfl
  · split
    · rfl
    · split
      · next h => simpa using (refill_steady a).ok h
      · next h => exact (refill_steady a).error h

@[simp] theorem fetchWord_steady : Steady fetchWord := fun s => fetchAt_steady s.hart.pc s

@[simp] theorem State.loseCc_lens (s : State) (l : List Nat) (n : Nat) : (State.loseCc s l n).lens = s.lens := rfl

@[simp] theorem State.pass_lens (s : State) (n : Nat) : (State.pass s n).lens = s.lens := rfl

@[simp] theorem State.tick_lens (s : State) : (State.tick s).lens = s.lens := rfl

/-! ## Devices -/

@[simp] theorem setSsip_lens (h : Nat) (s : State) : (setSsip h s).lens = s.lens := by simp [setSsip]

@[simp] theorem writeInts_lens (h off : Nat) (w : RegWrite) (s : State) : (writeInts h off w s).lens = s.lens := by
  unfold writeInts
  split <;> simp

@[simp] theorem setIdentity_lens (h : Nat) (sFile : Bool) (id : Nat) (s : State) :
    (setIdentity h sFile id s).lens = s.lens := by simp [setIdentity]

@[simp] theorem writeHartSave_lens (h : Nat) (w : RegWrite) (s : State) : (writeHartSave h w s).lens = s.lens := by
  simp [writeHartSave]

@[simp] theorem writeCtl_lens (h off : Nat) (w : RegWrite) (s : State) : (writeCtl h off w s).lens = s.lens := by
  unfold writeCtl
  split <;> simp

@[simp] theorem writeMill_lens (m off : Nat) (w : RegWrite) (s : State) : (writeMill m off w s).lens = s.lens := by
  unfold writeMill
  split <;> simp

@[simp] theorem writeSystem_lens (h off : Nat) (w : RegWrite) (s : State) : (writeSystem h off w s).lens = s.lens := by
  unfold writeSystem
  split <;> simp

@[simp] theorem writeMerge_lens (c : Nat) (v : Word) (s : State) : (writeMerge c v s).lens = s.lens := rfl

@[simp] theorem writeTreg_lens (c core : Nat) (v : Word) (s : State) : (writeTreg c core v s).lens = s.lens := rfl

theorem writeCluster_lens (c off : Nat) (w : RegWrite) (s : State) {t : State} (ht : writeCluster c off w s = some t) :
    t.lens = s.lens := by
  unfold writeCluster at ht
  dsimp only at ht
  repeat' split at ht
  all_goals cases ht
  all_goals simp

@[simp] theorem checkPin_lens (p die : Nat) (s : State) : (checkPin p die s).lens = s.lens := by simp [checkPin]

@[simp] theorem setPin_lens (p die : Nat) (b : Word) (len : BitVec 16) (s : State) :
    (setPin p die b len s).lens = s.lens := by simp [setPin]

@[simp] theorem clearFilters_lens (p : Nat) (s : State) : (clearFilters p s).lens = s.lens := rfl

@[simp] theorem writePart_lens (p off : Nat) (w : RegWrite) (s : State) : (writePart p off w s).lens = s.lens := by
  unfold writePart
  split <;> simp

theorem writeDie_lens (d off : Nat) (w : RegWrite) (s : State) {t : State} (ht : writeDie d off w s = some t) :
    t.lens = s.lens := by
  unfold writeDie at ht
  dsimp only at ht
  repeat' split at ht
  all_goals cases ht
  all_goals simp

@[simp] theorem bootOk_lens (s : State) : (bootOk s).lens = s.lens := rfl

@[simp] theorem writeModule_lens (off : Nat) (w : RegWrite) (s : State) : (writeModule off w s).lens = s.lens := by
  unfold writeModule
  split <;> simp

theorem writeReg_lens {b : Block} {off : Nat} {w : RegWrite} {s t : State} (ht : writeReg b off w s = some t) :
    t.lens = s.lens := by
  cases b
  case cluster c => exact writeCluster_lens _ _ _ _ ht
  case die d => exact writeDie_lens _ _ _ _ ht
  all_goals
    cases ht
    simp

@[simp] theorem outboundRead_steady (who a n : Nat) : Steady (outboundRead who a n) := by
  intro s
  unfold outboundRead
  dsimp only
  repeat' split
  all_goals simp

@[simp] theorem deviceLoad_steady (d : DevAcc) (va a n : Nat) : Steady (deviceLoad d va a n) := by
  intro s
  unfold deviceLoad
  split
  · dsimp only
    split
    · rfl
    · split
      · exact outboundRead_steady _ _ _ s
      · rfl
  · rfl

@[simp] theorem deviceStore_steady (d : DevAcc) (scope va a n v : Nat) : Steady (deviceStore d scope va a n v) := by
  intro s
  unfold deviceStore
  split
  · dsimp only
    split
    · rfl
    · split
      · rw [lensOf_ok]
        split <;> simp
      · rfl
      · rfl
      · split
        · rfl
        · next h =>
          split
          · exact writeReg_lens h
          · split
            · exact writeReg_lens h
            · next h' => exact (writeReg_lens h').trans (writeReg_lens h)
  · rfl

/-! ## Scalar -/

@[simp] theorem jumpTo_steady (g : Hart → Hart) (t : Word) (hg : ∀ h, (g h).lens = h.lens) : Steady (jumpTo g t) := by
  intro s
  unfold jumpTo
  split
  · rfl
  · split
    · rfl
    · exact State.lens_setHart_self (by simp [hg])

@[simp] theorem loadDevice_steady (e : Env) (va a n : Nat) : Steady (loadDevice e va a n) := by
  intro s
  unfold loadDevice
  split
  · exact deviceLoad_steady _ _ _ _ s
  · split
    · exact remoteAtomic_steady _ _ _ _ _ _ _ s
    · split
      · rfl
      · exact loadMem_steady _ _ _ _ s

@[simp] theorem scalarLoad_steady (e : Env) (va n : Nat) : Steady (scalarLoad e va n) := by
  refine .bind (steady_ensure _ _) fun _ => .bind (pastBars_steady e) fun _ => .bind (locate_steady _ _ _ _) fun l => ?_
  split
  · exact loadAt_steady _ _ _ _ _
  · exact remoteRead_steady _ _ _ _ _
  · exact loadDevice_steady _ _ _ _

@[simp] theorem storeDevice_steady (e : Env) (scope va a n v : Nat) : Steady (storeDevice e scope va a n v) := by
  intro s
  unfold storeDevice
  split
  · exact deviceStore_steady _ _ _ _ _ _ s
  · split
    · exact remoteWrite_steady _ _ _ _ _ s
    · split
      · rfl
      · exact storeAt_steady _ _ _ _ s

@[simp] theorem scalarStore_steady (e : Env) (scope va n v : Nat) : Steady (scalarStore e scope va n v) := by
  refine .bind (steady_ensure _ _) fun _ => .bind (pastBars_steady e) fun _ => .bind (locate_steady _ _ _ _) fun l => ?_
  split
  · exact storeAt_steady _ _ _ _
  · exact remoteWrite_steady _ _ _ _ _
  · exact storeDevice_steady _ _ _ _ _ _

@[simp] theorem Hart.setFp_lens (h : Hart) (p : FpFmt) (r : BitVec 5) (v : Nat) : (Hart.setFp h p r v).lens = h.lens := rfl

@[simp] theorem putFp_steady (p : FpFmt) (rd : BitVec 5) (r : Nat × Ev) : Steady (putFp p rd r) := by
  unfold putFp
  exact steady_onHart fun h => by simp

@[simp] theorem putFx_steady (rd : BitVec 5) (v : Word) (e : Ev) : Steady (putFx rd v e) := by
  unfold putFx
  exact steady_onHart fun h => by simp

@[simp] theorem rounded_steady (p : FpFmt) (rd : BitVec 5) (rm : BitVec 3) (f : Hart → Rounding → Nat × Ev) :
    Steady (rounded p rd rm f) :=
  .getS fun s => .of_steady (.bind (steady_ensure _ _) fun _ => putFp_steady _ _ _) s

@[simp] theorem fenceNow_steady (p : BitVec 4) : Steady (fenceNow p) :=
  .bind (layFence_steady _ _ _ _ _) fun _ => steady_onHart (by simp)

theorem lensOf_retireWith {s : State} {rd : BitVec 5} {v : Word} : lensOf (retireWith rd v s) = s.lens :=
  retireWith_steady rd v s

@[simp] theorem rvMeaning_steady (o : Rv) : Steady (rvMeaning o) := by
  intro s
  cases o <;> simp only [rvMeaning, lensOf_retireWith]
  case jal | jalr =>
    refine jumpTo_steady _ _ (fun h => ?_) s
    simp
  case branch =>
    split
    · exact jumpTo_steady _ _ (fun _ => rfl) s
    · exact State.lens_setHart_self (by simp)
  case load => exact (Steady.bind (scalarLoad_steady _ _ _) fun _ => retireWith_steady _ _) s
  case store | fstore => exact (Steady.bind (scalarStore_steady _ _ _ _ _) fun _ => steady_onHart (by simp)) s
  case fload => exact (Steady.bind (scalarLoad_steady _ _ _) fun _ => steady_onHart (by simp)) s
  case fcvtToInt =>
    split
    · rfl
    · exact putFx_steady _ _ _ s
  case fence => exact fenceNow_steady _ s
  case ecall | ebreak => rfl
  case fma | farith | fsqrt | fcvtFromInt | fcvtSD | fcvtDS => exact rounded_steady _ _ _ _ s
  case fsel => exact putFp_steady _ _ _ s
  case fcmp => exact putFx_steady _ _ _ s
  case fmvFromX => exact State.lens_setHart_self (by simp)

@[simp] theorem atomicByMessage_steady (op : AtomicOp) (aq rl : Bool) (a n v : Nat) :
    Steady (atomicByMessage op aq rl a n v) := by
  intro s
  unfold atomicByMessage
  dsimp only
  repeat' split
  all_goals simp

@[simp] theorem scNow_steady (e : Env) (va a n v : Nat) : Steady (scNow e va a n v) := by
  refine .getS fun s => .of_steady (steady_ite ?_ (steady_pure _)) s
  exact .bind (storeMem_steady _ _ _ _) fun _ => patchOwn_lens _ _ _

@[simp] theorem endSc_steady (rd : BitVec 5) (v : Nat) : Steady (endSc rd v) := by
  unfold endSc
  exact steady_onHart fun h => by simp

@[simp] theorem amoNow_steady (o : AmoOp) (e : Env) (va a n v : Nat) : Steady (amoNow o e va a n v) := by
  intro s
  unfold amoNow
  split
  · rfl
  · dsimp only
    split
    · next h => exact (patchOwn_lens _ _ _ _).trans ((storeMem_steady _ _ _ _).ok h)
    · next h => exact (storeMem_steady _ _ _ _).error h

@[simp] theorem scalarWords_steady (e : Env) (n va : Nat) : Steady (scalarWords e n va) := by
  induction n generalizing va with
  | zero => exact fun _ => rfl
  | succ n ih => exact .bind (scalarLoad_steady _ _ _) fun _ => .bind (ih _) fun _ => steady_pure _

end Sys2Proof.Machine
end

section
/-! SUPPORT. VTYPE and VL of every hart are kept (R19, R21):
Carder, Milliner, System, Planker, Interrupts, Taking, Preempt, Collective. -/

namespace Sys2Proof.Machine

/-! ## Carder -/

@[simp] theorem setTable_lens (s : State) (p die a : Nat) (v : Word) : (setTable s p die a v).lens = s.lens := by
  simp [setTable]

@[simp] theorem setBlk_lens (s : State) (p die ch : Nat) (b : Bool) : (setBlk s p die ch b).lens = s.lens := by simp [setBlk]

@[simp] theorem setTaskRing_lens (s : State) (p die level : Nat) (r : Ring) :
    (setTaskRing s p die level r).lens = s.lens := rfl

@[simp] theorem advanceHead_lens (s : State) (p die level : Nat) : (advanceHead s p die level).lens = s.lens := rfl

@[simp] theorem enterTask_lens (s : State) (p die level : Nat) (kind : BitVec 2) (w0 : Word) (words : List Word) :
    (enterTask s p die level kind w0 words).1.lens = s.lens := by
  unfold enterTask
  dsimp only
  repeat' split
  all_goals simp

theorem spawn_lens {s t : State} {who : Nat} {panel : Bool} {words : List Word} {rd : Word}
    (h : spawn s who panel words = .done t rd) : t.lens = s.lens := by
  unfold spawn at h
  dsimp only at h
  split at h
  · cases h
    rfl
  · next c _ =>
    generalize (if bitOf ((words[0]?).getD 0) 26 then fieldOf ((words[0]?).getD 0) 27 3 else dieOf who) = die at h
    split_ifs at h
    · cases h
      rfl
    · cases h
      rfl
    · cases h
      exact enterTask_lens _ _ _ _ _ _ _

@[simp] theorem spawnWord_steady (w : SFld) (panel : Bool) : Steady (spawnWord w panel) := by
  refine .getS fun s => .of_steady (.bind (steady_ensure _ _) fun _ => .bind (steady_ensure _ _) fun _ =>
    .bind (scalarWords_steady _ _ _) fun words => .getS fun s => ?_) s
  split
  · exact .of_steady (steady_stop _) s
  · next h =>
    dsimp only
    split
    · exact .of_steady (stallWith_steady _) s
    · exact .setS (spawn_lens h) (.of_steady (retireWith_steady _ _) _)

@[simp] theorem taskRecord_lens (s : State) (die p detail : Nat) (handle key slot : Word) :
    (taskRecord s die p detail handle key slot).lens = s.lens := by simp [taskRecord]

@[simp] theorem dropWaiting_lens (s : State) (die : Nat) (t : Waiting) : (dropWaiting s die t).lens = s.lens := rfl

@[simp] theorem discardTask_lens (s : State) (die : Nat) (t : Waiting) : (discardTask s die t).lens = s.lens := by
  simp [discardTask]

@[simp] theorem loseTask_lens (s : State) (die order : Nat) : (loseTask s die order).lens = s.lens := by
  unfold loseTask
  split <;> simp

@[simp] theorem reportChannels_lens (s : State) (die : Nat) : (reportChannels s die).lens = s.lens := by
  simp [reportChannels]

@[simp] theorem dispatch_lens (s : State) (die h : Nat) (t : Waiting) (c : Channel) :
    (dispatch s die h t c).lens = s.lens := by simp [dispatch]

@[simp] theorem Hart.setArgs_lens (h : Hart) (a : Nat) (b : List Word) : (Hart.setArgs h a b).lens = h.lens := by
  induction b generalizing h a with
  | nil => rfl
  | cons a l ih => simp [Hart.setArgs, ih]

@[simp] theorem Hart.deliver_lens (h : Hart) (d : Delivery) : (Hart.deliver h d).lens = h.lens := by simp [Hart.deliver]

@[simp] theorem Hart.goIdle_lens (h : Hart) : (Hart.goIdle h).lens = h.lens := rfl

@[simp] theorem settleStreams_lens (h : Nat) (s : State) : (settleStreams h s).lens = s.lens := by simp [settleStreams]

@[simp] theorem Hart.closeStreams_lens (h : Hart) : (Hart.closeStreams h).lens = h.lens := rfl

@[simp] theorem Hart.dropWindows_lens (h : Hart) : (Hart.dropWindows h).lens = h.lens := rfl

@[simp] theorem leaveTask_lens (h : Nat) (ntf : Bool) (s : State) : (leaveTask h ntf s).lens = s.lens := by
  unfold leaveTask
  extract_lets x shed pc quiesce s1 s2 x1 r x2 x3 s3
  have hx : x2.lens = (s.hartAt h).lens := by simp [x2, x1, x]
  have hs : s2.lens = s.lens := by
    have h1 : s1.lens = s.lens := settleStreams_lens _ _
    simp only [s2]
    split
    · exact h1
    · simpa using h1
  split
  · refine State.lens_setHartAt_same hs ?_
    rw [Hart.withCtl_lens, ← hx]
    exact Hart.goIdle_lens _
  · rw [State.modDie_lens]
    refine State.lens_setHartAt_same hs ?_
    rw [Hart.withCtl_lens, ← hx]

@[simp] theorem sequenceWord_steady (a : Nat) : Steady (sequenceWord a) := by
  intro s
  unfold sequenceWord
  split <;> simp

@[simp] theorem Hart.takeTurn_lens (h : Hart) (seq k : Nat) : (Hart.takeTurn h seq k).lens = h.lens := rfl

@[simp] theorem sampleSequence_steady (t : Wait) (a : Nat) : Steady (sampleSequence t a) := by
  intro s
  unfold sampleSequence
  split
  · split
    · next h => exact (sequenceWord_steady a).ok h
    · next h => exact (sequenceWord_steady a).error h
  · repeat' split
    all_goals simp

@[simp] theorem releaseTurn_lens (s : State) (die p : Nat) (t : Option (Nat × Nat)) :
    (releaseTurn s die p t).lens = s.lens := by
  unfold releaseTurn
  repeat' split
  all_goals simp

@[simp] theorem retireTake_lens (s : State) (die : Nat) (r : Retirement) (id : Nat) :
    (retireTake s die r id).lens = s.lens := by simp [retireTake]

@[simp] theorem finishRetirement_lens (s : State) (die : Nat) (r : Retirement) :
    (finishRetirement s die r).lens = s.lens := by
  unfold finishRetirement
  split <;> simp

@[simp] theorem blockWord_steady (w : SFld) (b : Bool) : Steady (blockWord w b) := by
  have retires : Steady (onHart Hart.retire) := steady_onHart (by simp)
  refine .getS fun s => .bind (.of_steady (steady_ensure _ _) s) fun _ t ht => ?_
  split
  · exact .of_steady retires t
  · refine .bind (.of_steady (steady_ensure _ _) t) fun _ u hu => ?_
    exact .setS (by rw [setBlk_lens, hu, ht]) (.of_steady retires _)

@[simp] theorem timeoutTcommit_steady (w : SFld) (t : Wait) : Steady (timeoutTcommit w t) := by
  unfold timeoutTcommit
  exact steady_onHart fun h => by simp

@[simp] theorem timeoutTspawn_steady (w : SFld) : Steady (timeoutTspawn w) := by
  unfold timeoutTspawn
  exact steady_onHart fun h => by simp

/-! ## Milliner -/

@[simp] theorem kickWord_steady (m : Nat) (k : Kick) (off : Nat) : Steady (kickWord m k off) := by
  intro s
  unfold kickWord
  split
  · next h => exact (loadVa_steady _ _ _ _).ok h
  · next h => exact (loadVa_steady _ _ _ _).error h

@[simp] theorem blockWords_steady (m : Nat) (k : Kick) (n : Nat) : Steady (blockWords m k n) := loadWords_steady _ _ _ _

@[simp] theorem millError_lens (m unit a : Nat) (s : State) : (millError m unit a s).lens = s.lens := by simp [millError]

@[simp] theorem stopRoutine_lens (m fault : Nat) (physical : Bool) (e : Stop) (s : State) :
    (stopRoutine m fault physical e s).lens = s.lens := by
  unfold stopRoutine
  split <;> simp

@[simp] theorem finishRoutine_lens (m status : Nat) (physical : Bool) (s : State) :
    (finishRoutine m status physical s).lens = s.lens := by simp [finishRoutine]

@[simp] theorem noteBlock_lens (m : Nat) (ws : List Word) (s : State) : (noteBlock m ws s).lens = s.lens := rfl

@[simp] theorem setRun_lens (m : Nat) (r : MillRun) (s : State) : (setRun m r s).lens = s.lens := rfl

@[simp] theorem selectRoutine_lens (m : Nat) (k : Kick) (s : State) : (selectRoutine m k s).lens = s.lens := by
  unfold selectRoutine
  split
  · next h =>
    dsimp only
    split <;> simp [(kickWord_steady _ _ _).ok h]
  all_goals
    next h => simp [(kickWord_steady _ _ _).error h]

@[simp] theorem copyRead_steady (m : Nat) (k : Kick) (c : Copying) (n : Nat) : Steady (copyRead m k c n) := by
  unfold copyRead
  split <;> simp

theorem copyElement_ok {m : Nat} {k : Kick} {c : Copying} {n : Nat} {l l' : List (Nat × Byte)} {s t : State}
    (h : copyElement m k c n l s = .ok (l', t)) : t.lens = s.lens := by
  unfold copyElement at h
  split at h
  · cases h
  · next hr =>
    split at h
    · cases h
    · split at h <;> cases h
    · cases h
      rw [settleReads_lens, (copyRead_steady _ _ _ _).ok hr]

theorem copyElement_error {m : Nat} {k : Kick} {c : Copying} {n : Nat} {l : List (Nat × Byte)} {s t : State}
    (h : copyElement m k c n l s = .error t) : t.lens = s.lens := by
  unfold copyElement at h
  split at h
  · next hr =>
    cases h
    rw [stopRoutine_lens, (copyRead_steady _ _ _ _).error hr]
  · next hr =>
    have hu := (copyRead_steady _ _ _ _).ok hr
    split at h
    · cases h
      exact hu
    · split at h
      · next hs =>
        cases h
        rw [stopRoutine_lens, (stopAccess_steady _ _).error hs, hu]
      · next hs =>
        cases h
        rw [(stopAccess_steady _ _).ok hs, hu]
    · cases h

@[simp] theorem copyRun_lens (m : Nat) (k : Kick) (c : Copying) (fuel n : Nat) (l : List (Nat × Byte)) (s : State) :
    (copyRun m k c fuel n l s).lens = s.lens := by
  induction fuel generalizing n l s with
  | zero => exact setRun_lens _ _ _
  | succ fuel ih =>
    unfold copyRun
    split
    · split
      · next h => rw [copyElement_error h, setRun_lens]
      · next h => rw [ih, copyElement_ok h, setRun_lens]
    · split
      · rw [finishRoutine_lens, setRun_lens]
      · dsimp only
        split
        · next h => rw [stopRoutine_lens, setRun_lens, (storeMasked_steady _ _).error h]
        · next h => rw [ih, (storeMasked_steady _ _).ok h]

@[simp] theorem beginCopy_lens (m : Nat) (k : Kick) (s : State) : (beginCopy m k s).lens = s.lens := by
  have load : Steady (do
      let a ← blockWords m k 8
      if bitOf ((a[0]?).getD 0) 22 then blockWords m k 32 else return a) :=
    .bind (blockWords_steady _ _ _) fun _ => steady_ite (blockWords_steady _ _ _) (steady_pure _)
  unfold beginCopy
  dsimp only
  split
  · next h => rw [stopRoutine_lens, load.error h]
  · next h =>
    split
    · rw [endRoutine_lens, noteBlock_lens, settleReads_lens, load.ok h]
    · rw [setRun_lens, noteBlock_lens, settleReads_lens, load.ok h]

@[simp] theorem enterMigration_lens (old new size : Nat) (s : State) : (enterMigration old new size s).lens = s.lens := by
  unfold enterMigration
  dsimp only
  rw [State.mapHarts_lens]
  · rw [foldl_lens _ (fun _ _ => endLease_lens _ _ _), foldl_lens _ (fun _ _ => invalidate_lens _ _)]
    rfl
  · exact fun _ => rfl

@[simp] theorem beginMigration_lens (m : Nat) (k : Kick) (s : State) : (beginMigration m k s).lens = s.lens := by
  unfold beginMigration
  split
  · exact endRoutine_lens _ _ _ _
  · split
    · next h => rw [stopRoutine_lens, (blockWords_steady _ _ _).error h]
    · next h =>
      dsimp only
      split
      · rw [endRoutine_lens, noteBlock_lens, settleReads_lens, (blockWords_steady _ _ _).ok h]
      · rw [enterMigration_lens, setRun_lens, noteBlock_lens, settleReads_lens, (blockWords_steady _ _ _).ok h]

@[simp] theorem copyRegion_lens (m old new size next : Nat) (s : State) :
    (copyRegion m old new size next s).lens = s.lens := by
  unfold copyRegion
  dsimp only
  repeat' split
  all_goals simp

@[simp] theorem fetchRoutine_steady (e : Env) (n a : Nat) : Steady (fetchRoutine e n a) := by
  induction n generalizing a with
  | zero => exact fun _ => rfl
  | succ n ih => exact .bind (loadVa_steady _ _ _ _) fun _ => .bind (ih _) fun _ => steady_pure _

/-! ## System -/

@[simp] theorem writeDevice_lens (c : Nat) (v : Word) (h : Hart) : (writeDevice c v h).lens = h.lens := by
  unfold writeDevice
  split <;> rfl

@[simp] theorem writeInhibit_lens (s : State) (h : Hart) (v : Word) : (writeInhibit s h v).lens = h.lens := rfl

@[simp] theorem writeStandard_lens (s : State) (c : Nat) (v : Word) (h : Hart) : (writeStandard s c v h).lens = h.lens := by
  unfold writeStandard
  split <;> rfl

@[simp] theorem writeCsr_lens (s : State) (c : Nat) (v : Word) (h : Hart) : (writeCsr s c v h).lens = h.lens := by
  simp [writeCsr]

@[simp] theorem fenceTlbs_lens (who : Nat) (f : TlbEnt → Bool) (s : State) : (fenceTlbs who f s).lens = s.lens := by
  unfold fenceTlbs
  split <;> simp

@[simp] theorem Hart.countRetired_lens (h : Hart) : (Hart.countRetired h).lens = h.lens := rfl

/-! ## Planker -/

@[simp] theorem fetchRun_steady (n : Nat) (a : Word) : Steady (fetchRun n a) := by
  induction n generalizing a with
  | zero => exact fun _ => rfl
  | succ n ih => exact .bind (fetchAt_steady a) fun _ => .bind (ih _) fun _ => steady_pure _

@[simp] theorem capture_steady (w : VrepFld) (addr : Word) : Steady (capture w addr) := by
  refine .bind (fetchRun_steady _ _) fun ws => .getS fun s => .of_steady ?_ s
  split
  · exact steady_stop _
  · exact steady_onHart fun _ => rfl

@[simp] theorem ensureBody_steady : Steady ensureBody := by
  refine .getS fun s => .of_steady (steady_ite (steady_pure _) (.bind (fetchAt_steady _) fun w => ?_)) s
  split
  · exact steady_ite (capture_steady _ _) (steady_stop _)
  · exact steady_stop _

/-! ## Interrupts -/

@[simp] theorem endUserRoutine_steady : Steady (endUserRoutine) := by
  intro s
  simp [endUserRoutine]

theorem asAgent_lens (h : Nat) (g : State → State) (s : State) (hg : ∀ t, (g t).lens = t.lens) :
    (asAgent h g s).lens = s.lens := State.lens_asCur (hg _)

/-! ## Taking -/

@[simp] theorem leaveWfi_lens (s : State) : (leaveWfi s).lens = s.lens := by
  unfold leaveWfi
  dsimp only
  split <;> simp

@[simp] theorem timeoutSwait_lens (s : State) : (timeoutSwait s).lens = s.lens := by
  unfold timeoutSwait
  split <;> simp

@[simp] theorem timeoutVwait_lens (s : State) : (timeoutVwait s).lens = s.lens := by
  unfold timeoutVwait
  split
  · split
    · next h =>
      refine runAct_lens (.bind (issueVwait_steady _) fun _ => .bind (finishVwait_steady _ _ _) fun _ => ?_) h
      exact steady_onHart (by simp)
    · rfl
  · rfl

@[simp] theorem timeoutDwait_lens (s : State) : (timeoutDwait s).lens = s.lens := by
  have run {a : Act Unit} (ha : Steady a) : State.lens (match a s.useFresh with
      | .ok _ u => settleReads s.cur 0 u
      | .error _ _ => s) = s.lens := by
    split
    · next h => rw [settleReads_lens, ha.ok h, State.useFresh_lens]
    · rfl
  unfold timeoutDwait
  dsimp only
  split
  · exact run (retireWith_steady _ _)
  · exact run (retireDbar_steady _ _ _)
  · rfl

@[simp] theorem endWait_lens (a : Act Unit) (s : State) (ha : Steady a) : (endWait a s).lens = s.lens := by
  unfold endWait
  split
  · next h => exact ha.ok h
  · rfl

@[simp] theorem endTcommit_lens (s : State) : (endTcommit s).lens = s.lens := by
  unfold endTcommit
  split <;> simp

@[simp] theorem endTspawn_lens (s : State) : (endTspawn s).lens = s.lens := by
  unfold endTspawn
  split <;> simp

@[simp] theorem seeWatch_lens (h i : Nat) (v : Word) (s : State) : (seeWatch h i v s).lens = s.lens := by simp [seeWatch]

@[simp] theorem sampleWatch_lens (h : Nat) (s : State) (i : Nat) : (sampleWatch h s i).lens = s.lens := by
  unfold sampleWatch
  dsimp only
  repeat' split
  all_goals simp

/-! ## Preempt -/

@[simp] theorem haltHart_lens (h cause : Nat) (s : State) : (haltHart h cause s).lens = s.lens := by simp [haltHart]

@[simp] theorem endForce_lens (c : Nat) (s : State) : (endForce c s).lens = s.lens := by simp [endForce]

@[simp] theorem heldHalt_lens (h : Nat) (s : State) : (heldHalt h s).lens = s.lens := by simp [heldHalt]

@[simp] theorem storeRegions_lens (w : Writer) (p n a : Nat) (bs : List Byte) (s : State) :
    (storeRegions w p n a bs s).lens = s.lens := by
  induction n generalizing a bs s with
  | zero => rfl
  | succ n ih =>
    unfold storeRegions
    split
    · rfl
    · split
      · rw [ih, sendRemote_lens]
      · rw [ih, State.pushStore_lens]

@[simp] theorem storePhys_lens (w : Writer) (p a : Nat) (bs : List Byte) (s : State) :
    (storePhys w p a bs s).lens = s.lens := by simp [storePhys]

@[simp] theorem askParts_lens (h a n : Nat) (s : State) : (askParts h a n s).lens = s.lens := by simp [askParts]

@[simp] theorem Hart.savedAway_lens (h : Hart) : (Hart.savedAway h).lens = h.lens := rfl

@[simp] theorem keepTask_lens (s : State) (h : Nat) : (keepTask s h).lens = s.lens := rfl

@[simp] theorem Hart.beforeSave_lens (h : Hart) : (Hart.beforeSave h).lens = h.lens := rfl

@[simp] theorem finishSave_lens (h : Nat) (s : State) : (finishSave h s).lens = s.lens := by simp [finishSave]

@[simp] theorem saveContext_lens (h : Nat) (s : State) : (saveContext h s).lens = s.lens := by
  unfold saveContext
  extract_lets s1 a bs
  have hs : s1.lens = s.lens := by simp [s1]
  split <;> simp [hs]

@[simp] theorem restoreLanes_lens (h : Nat) (a : List Window) (b : Nat) (c : State) :
    (restoreLanes h a b c).lens = c.lens := by
  induction a generalizing h b c with
  | nil => rfl
  | cons a l ih => simp [restoreLanes, ih]

@[simp] theorem forgetKept_lens (a : Option Away) (s : State) : (forgetKept a s).lens = s.lens := by
  unfold forgetKept
  split <;> simp

/-! ## Collective -/

@[simp] theorem readElems_steady (e : Env) (sew n a : Nat) : Steady (readElems e sew n a) := by
  induction n generalizing a with
  | zero => exact fun _ => rfl
  | succ n ih => exact .bind (readElem_steady _ _) fun _ => .bind (ih _) fun _ => steady_pure _

@[simp] theorem loadSource_lens (m : Nat) (k : Kick) (c : CollRun) (s : State) : (loadSource m k c s).lens = s.lens := by
  unfold loadSource
  split
  · next h => rw [stopRoutine_lens, (readElems_steady _ _ _ _).error h]
  · next h => rw [setRun_lens, settleReads_lens, (readElems_steady _ _ _ _).ok h]

@[simp] theorem beginColl_lens (m : Nat) (k : Kick) (s : State) : (beginColl m k s).lens = s.lens := by
  unfold beginColl
  split
  · exact endRoutine_lens _ _ _ _
  · split
    · next h => rw [stopRoutine_lens, (blockWords_steady _ _ _).error h]
    · next ws t h =>
      have ht := (blockWords_steady _ _ _).ok h
      dsimp only
      split
      · rw [finishRoutine_lens, noteBlock_lens, ht]
      · have load : Steady (do
            let h ← loadVa (kickEnv m k) .load ((ws[6]?).getD 0).toNat 8
            let l ← loadWords (kickEnv m k) .load (2 * (h % 64 + 1)) ((((ws[6]?).getD 0).toNat + 8) % 2 ^ 64)
            return (bv 64 h, l)) :=
          .bind (loadVa_steady _ _ _ _) fun _ => .bind (loadWords_steady _ _ _ _) fun _ => steady_pure _
        split
        · next h' => rw [stopRoutine_lens, load.error h', noteBlock_lens, ht]
        · next h' =>
          have hu := load.ok h'
          split
          · rw [endRoutine_lens, settleReads_lens, hu, noteBlock_lens, ht]
          · rw [loadSource_lens, settleReads_lens, hu, noteBlock_lens, ht]

@[simp] theorem storePiece_steady (e : Env) (a : Nat) (bs : List Byte) : Steady (storePiece e a bs) := by
  intro s
  unfold storePiece
  split
  · exact remoteWrite_steady _ _ _ _ _ s
  · split
    · exact State.pushStore_lens _ _ _ _
    · rfl
  · rfl

@[simp] theorem storePieces_steady (e : Env) (n a : Nat) (bs : List Byte) : Steady (storePieces e n a bs) := by
  induction n generalizing a bs with
  | zero => exact fun _ => rfl
  | succ n ih => exact steady_ite (fun _ => rfl) (.bind (storePiece_steady _ _ _) fun _ => ih _ _)

@[simp] theorem sendValues_steady (e : Env) (c : CollRun) : Steady (sendValues e c) :=
  actEach_steady _ (fun _ => storePieces_steady _ _ _ _) _

@[simp] theorem sendFlags_steady (e : Env) (c : CollRun) : Steady (sendFlags e c) :=
  actEach_steady _ (fun _ => storePiece_steady _ _ _) _

@[simp] theorem slotFree_steady (e : Env) (c : CollRun) : Steady (slotFree e c) := by
  intro s
  unfold slotFree
  dsimp only
  split
  · rfl
  · split
    · split
      · next h => exact (remoteAtomic_steady _ _ _ _ _ _ _).ok h
      · next h => exact (remoteAtomic_steady _ _ _ _ _ _ _).error h
    · rfl

@[simp] theorem receiveExchange_lens (m : Nat) (c : CollRun) (s : State) : (receiveExchange m c s).lens = s.lens := by
  simp [receiveExchange]

@[simp] theorem writeResult_lens (m : Nat) (k : Kick) (c : CollRun) (n : Nat) (l : List (Nat × Byte)) (s : State) :
    (writeResult m k c n l s).lens = s.lens := by
  induction n generalizing l s with
  | zero => exact setRun_lens _ _ _
  | succ n ih =>
    unfold writeResult
    split
    · exact finishRoutine_lens _ _ _ _
    · dsimp only
      split
      · exact stopRoutine_lens _ _ _ _ _
      · split
        · next h => rw [stopRoutine_lens, setRun_lens, (storeMasked_steady _ _).error h]
        · next h => rw [ih, (storeMasked_steady _ _).ok h]

@[simp] theorem exchange_lens (m : Nat) (k : Kick) (c : CollRun) (s : State) : (exchange m k c s).lens = s.lens := by
  unfold exchange
  dsimp only
  split
  · exact writeResult_lens _ _ _ _ _ _
  · split
    · split
      · next h => rw [stopRoutine_lens, (slotFree_steady _ _).error h]
      · next h =>
        have ht := (slotFree_steady _ _).ok h
        split
        · exact ht
        · split
          · next h' => rw [stopRoutine_lens, (sendValues_steady _ _).error h', ht]
          · next h' => rw [setRun_lens, (sendValues_steady _ _).ok h', ht]
    · split
      · split
        · rfl
        · split
          · next h => rw [stopRoutine_lens, (sendFlags_steady _ _).error h]
          · next h => rw [setRun_lens, (sendFlags_steady _ _).ok h]
      · split
        · exact setRun_lens _ _ _
        · split
          · rfl
          · exact receiveExchange_lens _ _ _

end Sys2Proof.Machine
end

section
/-! SUPPORT. VTYPE and VL of every hart are kept (R19, R21):
Home, Fabric, Power, Root, Start, Novnum, Retention, Streams, Schedule. -/

namespace Sys2Proof.Machine

/-! ## Home -/

@[simp] theorem answerData_lens (m : Msg) (s : State) : (answerData m s).lens = s.lens := rfl

theorem serveGetS_lens (m : Msg) (s : State) {t : State} (ht : serveGetS m s = some t) : t.lens = s.lens := by
  unfold serveGetS at ht
  repeat' split at ht
  all_goals cases ht
  all_goals simp

theorem serveStore_lens (m : Msg) (s : State) {t : State} (ht : serveStore m s = some t) : t.lens = s.lens := by
  unfold serveStore at ht
  repeat' split at ht
  all_goals cases ht
  all_goals simp

@[simp] theorem commitReady_lens (s : State) : (commitReady s).lens = s.lens := by simp [commitReady]

@[simp] theorem acknowledge_lens (y a n : Nat) (s : State) : (acknowledge y a n s).lens = s.lens := by simp [acknowledge]

@[simp] theorem replyHome_lens (m : Msg) (kind : MsgKind) (s : State) : (replyHome m kind s).lens = s.lens := rfl

@[simp] theorem answerAtomic_lens (m : Msg) (s : State) : (answerAtomic m s).lens = s.lens := rfl

@[simp] theorem forgetAtomic_lens (m : Msg) (s : State) : (forgetAtomic m s).lens = s.lens := by simp [forgetAtomic]

@[simp] theorem sendEvict_lens (y a n : Nat) (s : State) : (sendEvict y a n s).lens = s.lens := by simp [sendEvict]

@[simp] theorem dropUnit_lens (y : Nat) (instr : Bool) (u : Nat) (s : State) : (dropUnit y instr u s).lens = s.lens := by
  simp [dropUnit]

@[simp] theorem makeRoom_lens (y : Nat) (instr : Bool) (u : Nat) (s : State) : (makeRoom y instr u s).lens = s.lens := by
  unfold makeRoom
  dsimp only
  split <;> simp

@[simp] theorem dropSpan_lens (y a n : Nat) (s : State) : (dropSpan y a n s).lens = s.lens := by simp [dropSpan]

@[simp] theorem displace_lens (region : Nat) (s : State) : (displace region s).lens = s.lens := by simp [displace]

@[simp] theorem freeEntries_lens (s : State) : (freeEntries s).lens = s.lens := by
  unfold freeEntries
  dsimp only
  rw [settleQueue_lens, foldl_lens _ (fun _ _ => setDir_lens _ _ _)]
  rfl

@[simp] theorem acknowledgeInv_lens (y region : Nat) (s : State) : (acknowledgeInv y region s).lens = s.lens := by
  simp [acknowledgeInv]

@[simp] theorem takeGrant_lens (m : Msg) (s : State) : (takeGrant m s).lens = s.lens := by
  unfold takeGrant
  dsimp only
  split <;> simp

@[simp] theorem unresponsive_lens (y a : Nat) (s : State) : (unresponsive y a s).lens = s.lens := by simp [unresponsive]

@[simp] theorem dropLeases_lens (a : Nat) (s : State) : (dropLeases a s).lens = s.lens := by simp [dropLeases]

@[simp] theorem dropQueued_lens (a : Nat) (s : State) : (dropQueued a s).lens = s.lens := by
  unfold dropQueued
  dsimp only
  rw [foldl_lens _ (fun _ _ => State.modDie_lens _ _ _)]
  rfl

/-! ## Fabric -/

@[simp] theorem takeAck_lens (p : Nat) (h : FlitHead) (s : State) : (takeAck p h s).lens = s.lens := rfl

@[simp] theorem askReplay_lens (p : Nat) (s : State) : (askReplay p s).lens = s.lens := rfl

@[simp] theorem countUnc_lens (p : Nat) (s : State) : (countUnc p s).lens = s.lens := rfl

@[simp] theorem takeFlit_lens (p : Nat) (h : FlitHead) (f : List Byte) (s : State) : (takeFlit p h f s).lens = s.lens := by
  unfold takeFlit
  split <;> simp

@[simp] theorem respond_lens (m : FabMsg) (op a : Nat) (data : List Byte) (s : State) :
    (respond m op a data s).lens = s.lens := by simp [respond]

@[simp] theorem refuseFabric_lens (m : FabMsg) (s : State) : (refuseFabric m s).lens = s.lens := by simp [refuseFabric]

@[simp] theorem farError_lens (q a : Nat) (s : State) : (farError q a s).lens = s.lens := by simp [farError]

@[simp] theorem farStore_lens (m : FabMsg) (a : Nat) (op : Option AtomicOp) (s : State) :
    (farStore m a op s).lens = s.lens := by simp [farStore]

@[simp] theorem modRemote_lens (s : State) (tag : Nat) (g : Remote → Remote) : (modRemote s tag g).lens = s.lens := rfl

@[simp] theorem refusedStore_lens (h : Nat) (s : State) : (refusedStore h s).lens = s.lens := by
  have raised (v : Word) (s : State) : (asAgent h (raise 7 v) s).lens = s.lens :=
    asAgent_lens h _ s fun _ => raise_lens _ _ _
  unfold refusedStore
  repeat' split
  all_goals simp [raised]

@[simp] theorem answered_lens (r : Remote) (v : Nat) (s : State) : (answered r v s).lens = s.lens := rfl

@[simp] theorem refusedRequest_lens (r : Remote) (s : State) : (refusedRequest r s).lens = s.lens := by simp [refusedRequest]

/-! ## Power -/

@[simp] theorem shedClass_lens (c : Nat) (s : State) : (shedClass c s).lens = s.lens := by simp [shedClass]

@[simp] theorem releaseEmpty_lens (s : State) : (releaseEmpty s).lens = s.lens := by simp [releaseEmpty]

@[simp] theorem restoreClass_lens (c : Nat) (s : State) : (restoreClass c s).lens = s.lens := by simp [restoreClass]

@[simp] theorem decideClass_lens (frame : Bool) (s : State) (c : Nat) : (decideClass frame s c).lens = s.lens := by
  simp [decideClass]

@[simp] theorem decidePower_lens (frame : Bool) (a : Nat) (s : State) : (decidePower frame a s).lens = s.lens := by
  simp [decidePower]

@[simp] theorem acceptFrame_lens (f : BitVec 128) (s : State) : (acceptFrame f s).lens = s.lens := by simp [acceptFrame]

@[simp] theorem releaseHart_lens (s : State) (h : Nat) : (releaseHart s h).lens = s.lens := by simp [releaseHart]

@[simp] theorem setReplays_lens (s : State) (l n : Nat) : (setReplays s l n).lens = s.lens := rfl

/-! ## Root -/

@[simp] theorem refuseInbound_lens (rid a cause : Nat) (s : State) : (refuseInbound rid a cause s).lens = s.lens := by
  simp [refuseInbound]

@[simp] theorem inboundStore_steady (rid a : Nat) (data : List Byte) : Steady (inboundStore rid a data) := by
  intro s
  unfold inboundStore
  dsimp only
  split
  · exact storeDevice_steady _ _ _ _ _ _ s
  · split
    · split
      · exact performKick_lens _ _ _
      · rfl
    · exact deviceStore_steady _ _ _ _ _ _ s
    · rfl

@[simp] theorem inboundLoad_steady (rid a n : Nat) : Steady (inboundLoad rid a n) := by
  intro s
  unfold inboundLoad
  split
  · split
    · rfl
    · split
      · next h => exact (loadDevice_steady _ _ _ _).ok h
      · next h => exact (loadDevice_steady _ _ _ _).error h
  · exact loadRun_steady _ _ _ _ s

@[simp] theorem postRegion_steady (e : Env) (va : Nat) (bs : List Byte) : Steady (postRegion e va bs) := by
  refine .bind (locate_steady _ _ _ _) fun l => ?_
  split
  · intro s
    dsimp only
    split
    · rfl
    · exact State.pushStore_lens _ _ _ _
  · exact remoteWrite_steady _ _ _ _ _
  · exact steady_stop _

@[simp] theorem postRun_steady (e : Env) (n va : Nat) (bs : List Byte) : Steady (postRun e n va bs) := by
  induction n generalizing va bs with
  | zero => exact fun _ => rfl
  | succ n ih =>
    unfold postRun
    exact steady_ite (fun _ => rfl) (.bind (postRegion_steady _ _ _) fun _ => ih _ _)

@[simp] theorem inboundWrite_steady (rid a : Nat) (data : List Byte) : Steady (inboundWrite rid a data) := by
  intro s
  unfold inboundWrite
  split
  · split
    · exact inboundStore_steady _ _ _ s
    · rfl
  · exact postRun_steady _ _ _ _ s

@[simp] theorem completeRead_lens (tag : Nat) (l : Option (List Byte)) (s : State) :
    (completeRead tag l s).lens = s.lens := rfl

@[simp] theorem Inbound.effect_steady (q : Inbound) : Steady q.effect := by
  intro s
  unfold Inbound.effect
  split
  · split
    · next h => rw [lensOf_ok, completeRead_lens, settleReads_lens, (inboundLoad_steady _ _ _).ok h]
    · next h => exact (inboundLoad_steady _ _ _).error h
  · exact inboundWrite_steady _ _ _ s

@[simp] theorem Inbound.refuse_lens (q : Inbound) (cause : Nat) (s : State) : (Inbound.refuse q cause s).lens = s.lens := by
  simp [Inbound.refuse]

@[simp] theorem serveInbound_lens (q : Inbound) (s : State) : (serveInbound q s).2.lens = s.lens := by
  unfold serveInbound
  split
  · rfl
  · split
    · exact Inbound.refuse_lens _ _ _
    · split
      · next h => exact q.effect_steady.ok h
      · rfl
      · exact Inbound.refuse_lens _ _ _

@[simp] theorem arriveInbound_lens (q : Inbound) (s : State) : (arriveInbound q s).lens = s.lens := by
  have serve := serveInbound_lens q s
  unfold arriveInbound
  dsimp only
  split
  · rfl
  · split
    · next h =>
      rw [h] at serve
      exact serve
    · next h =>
      rw [h] at serve
      exact serve

theorem inboundReady_lens {s t : State} {b l : List Inbound} {q : Inbound} {d : Bool}
    (h : inboundReady s b l = some (q, d, t)) : t.lens = s.lens := by
  induction l generalizing b with
  | nil => cases h
  | cons p l ih =>
    unfold inboundReady at h
    dsimp only at h
    split at h
    · exact ih h
    · split at h
      · cases h
        exact serveInbound_lens _ _
      · exact ih h

theorem goOnInbound_lens {s t : State} (ht : goOnInbound s = some t) : t.lens = s.lens := by
  obtain ⟨⟨q, d, u⟩, hu, rfl⟩ := Option.map_eq_some_iff.mp ht
  dsimp only
  split
  · exact (show _ = u.lens from rfl).trans (inboundReady_lens hu)
  · exact inboundReady_lens hu

/-! ## Start -/

@[simp] theorem grantPayload_lens (n : Nat) (s : State) : (grantPayload n s).lens = s.lens := rfl

@[simp] theorem startedNov_lens (s : State) : (startedNov s).lens = s.lens := rfl

/-! ## Novnum -/

@[simp] theorem reply_lens (r : Request) (result ses : Nat) (body : List Byte) (s : State) :
    (reply r result ses body s).lens = s.lens := rfl

@[simp] theorem deny_lens (r : Request) (ses : Nat) (s : State) : (deny r ses s).lens = s.lens := rfl

@[simp] theorem countSeq_lens (s : State) (r : Request) : (countSeq s r).lens = s.lens := rfl

@[simp] theorem setFirmware_lens (s : State) (kind : Nat) (f : Firmware) : (setFirmware s kind f).lens = s.lens := rfl

/-! ## Retention -/

@[simp] theorem keepUnits_lens (s : State) (c : Nat) : (keepUnits s c).lens = s.lens := rfl

@[simp] theorem finishImage_lens (c : Nat) (s : State) : (finishImage c s).lens = s.lens := by simp [finishImage]

@[simp] theorem saveImage_lens (c : Nat) (s : State) : (saveImage c s).lens = s.lens := by
  unfold saveImage
  extract_lets a bs t
  have ht : t.lens = s.lens := (storePhys_lens _ _ _ _ _).trans (keepUnits_lens _ _)
  split
  · rw [finishImage_lens, State.lens_mk, State.lens_fold, State.modCluster_lens, ht]
  · exact State.modCluster_lens _ _ _

@[simp] theorem toStep_lens (n c : Nat) (s : State) : (toStep n c s).lens = s.lens := rfl

@[simp] theorem finishWake_lens (c : Nat) (s : State) : (finishWake c s).lens = s.lens := rfl

/-! ## Streams -/

@[simp] theorem fillParts_steady (e : Env) (st : Stream) (t n k : Nat) : Steady (fillParts e st t n k) := by
  induction n generalizing k with
  | zero => exact fun _ => rfl
  | succ n ih =>
    refine .bind (readElem_steady _ _) fun x s => ?_
    rw [getS_bind, setS_bind, ih, State.pushStore_lens]

@[simp] theorem fillTuple_steady (h q : Nat) : Steady (fillTuple h q) := by
  unfold fillTuple
  refine .getS fun s => ?_
  split
  · simp
  · split
    · refine .bind (.of_steady ?_ s) fun st t ht => .getS ?_
      · split
        · exact .bind (fillParts_steady _ _ _ _ _) fun _ => steady_pure _
        · exact .bind (readElem_steady _ _) fun _ => steady_pure _
      · simp
    · simp

@[simp] theorem fillRun_steady (h q n : Nat) : Steady (fillRun h q n) := by
  induction n with
  | zero => exact fun _ => rfl
  | succ n ih => exact .bind (fillTuple_steady _ _) fun _ => ih

@[simp] theorem Hart.faultStream_lens (h : Hart) (q cause : Nat) (a : Word) :
    (Hart.faultStream h q cause a).lens = h.lens := by
  unfold Hart.faultStream
  split <;> rfl

@[simp] theorem Hart.notifyStream_lens (h : Hart) (q : Nat) : (Hart.notifyStream h q).lens = h.lens := by
  unfold Hart.notifyStream
  split <;> simp

/-! ## Schedule -/

@[simp] theorem setStepwise_lens (b : Bool) (s : State) : (setStepwise b s).lens = s.lens := by simp [setStepwise]

theorem breakDue_lens {s t : State} (ht : breakDue s = some t) : t.lens = s.lens := by
  obtain ⟨p, -, hp⟩ := List.exists_of_findSome?_eq_some ht
  obtain ⟨id, -, rfl⟩ := Option.map_eq_some_iff.mp hp
  exact breakDomain_lens _ _ _

theorem ownChange_lens {s t : State} (ht : ownChange s = some t) : t.lens = s.lens := by
  unfold ownChange at ht
  split at ht
  · next h =>
    cases ht
    exact breakDue_lens h
  · exact goOnInbound_lens ht

end Sys2Proof.Machine
end

section
/-! SUPPORT. VL within VLMAX on every hart (R21): the rules by which it is kept, and the operations of the units that change
VTYPE and VL. -/

namespace Sys2Proof.Machine

/-! ## VL within VLMAX -/

/-- VL is within VLMAX on every hart. -/
def Legal (s : State) : Prop := ∀ k, LengthOk (s.hartAt k)

theorem LengthOk.of_lens {h h' : Hart} (hl : h'.lens = h.lens) (hh : LengthOk h) : LengthOk h' := by
  have ht : h'.vec.vtype = h.vec.vtype := congrArg Prod.fst hl
  have hv : h'.vec.vl = h.vec.vl := congrArg Prod.snd hl
  unfold LengthOk
  rw [ht, hv]
  exact hh

theorem Legal.of_harts {s t : State} (h : lensIn t.harts = lensIn s.harts) (hs : Legal s) : Legal t :=
  fun k => LengthOk.of_lens (congrFun h k) (hs k)

theorem Legal.of_lens {s t : State} (h : t.lens = s.lens) (hs : Legal s) : Legal t :=
  hs.of_harts (congrArg Prod.snd h)

theorem Legal.hart {s : State} (hs : Legal s) : LengthOk s.hart := hs s.cur

theorem Legal.setHartAt {s : State} {k : Nat} {h : Hart} (hs : Legal s) (hh : LengthOk h) : Legal (s.setHartAt k h) := by
  intro j
  by_cases hj : j = k
  · subst hj
    rw [State.hartAt_setHartAt_self]
    exact hh
  · have e : (s.setHartAt k h).hartAt j = s.hartAt j := look_put_ne _ _ _ _ _ hj
    rw [e]
    exact hs j

theorem Legal.setHart {s : State} {h : Hart} (hs : Legal s) (hh : LengthOk h) : Legal (s.setHart h) := hs.setHartAt hh

theorem Legal.modHart {s : State} {k : Nat} {g : Hart → Hart} (hs : Legal s) (hg : LengthOk (g (s.hartAt k))) :
    Legal (s.modHart k g) := hs.setHartAt hg

theorem Legal.foldl {α : Type} {g : State → α → State} (hg : ∀ s a, Legal s → Legal (g s a)) (l : List α) {s : State}
    (hs : Legal s) : Legal (l.foldl g s) := by
  induction l generalizing s with
  | nil => exact hs
  | cons a l ih => exact ih (hg s a hs)

/-- Another agent's part of a step. -/
theorem Legal.asAgent {s : State} {k : Nat} {g : State → State} (hg : ∀ t, Legal t → Legal (g t)) (hs : Legal s) :
    Legal (asAgent k g s) := hg { s with cur := k } hs

/-! ## Harts with a legal VL -/

theorem lengthOk_vl_zero {h : Hart} (hv : h.vec.vl = 0) : LengthOk h := by
  unfold LengthOk
  rw [hv]
  exact Nat.zero_le _

theorem lengthOk_coldHart (h : Hart) : LengthOk (coldHart h) := lengthOk_vl_zero rfl

/-- Configuration never leaves more than VLMAX (R83). -/
theorem lengthOk_configure (h : Hart) (req : Word) (avl : Option Word) : LengthOk (h.configure req avl) := by
  have clamped {n m : Nat} (hn : n ≤ m) : (bv 14 n).toNat ≤ m := by
    rw [BitVec.toNat_ofNat]
    exact (Nat.mod_le _ _).trans hn
  unfold Hart.configure
  split
  · exact lengthOk_vl_zero rfl
  · cases avl with
    | none => exact clamped le_rfl
    | some a => exact clamped (Nat.min_le_right _ _)

/-- A saved context comes back with VL within VLMAX: its VTYPE and VL are configured (R83). -/
theorem lengthOk_loadRecord (h : Hart) (w : Nat → Word) (reg : Nat → VReg) : LengthOk (h.loadRecord w reg) := by
  unfold Hart.loadRecord
  extract_lets x h1 h2
  refine LengthOk.of_lens (h := h2) ?_ (lengthOk_configure _ _ _)
  rw [Hart.lens_mk, Hart.lens_fold]

theorem legal_init {s : State} (h : s.harts = []) : Legal s := by
  intro k
  have e : s.hartAt k = Hart.init k := by
    unfold State.hartAt
    rw [h]
    rfl
  rw [e]
  exact lengthOk_init k

/-! ## Resets and images of units -/

theorem zeroCluster_legal {s : State} (c : Nat) (hs : Legal s) : Legal (zeroCluster c s) := by
  unfold zeroCluster
  extract_lets cores s1 s2 s3 s4 m on
  have h1 : Legal s1 := .foldl (fun _ _ h => h.of_lens (endLeases_lens _ _)) _ hs
  have h2 : Legal s2 := .foldl (fun _ _ h => h.of_lens (State.setCoreAt_lens _ _ _)) _ h1
  have h3 : Legal s3 := .foldl (fun _ _ h => h.modHart (lengthOk_coldHart _)) _ h2
  have h4 : Legal s4 := .foldl (fun _ _ h => h.of_lens (State.setMillAt_lens _ _ _)) _ h3
  refine h4.of_lens ?_
  rw [State.lens_mk, State.lens_fold, State.modCluster_lens]

theorem moveRails_legal {s : State} (c : Nat) (mode : BitVec 2) (hs : Legal s) : Legal (moveRails c mode s) := by
  unfold moveRails
  dsimp only
  split
  · exact zeroCluster_legal c (hs.of_lens (State.modCluster_lens _ _ _))
  · exact hs.of_lens (State.modCluster_lens _ _ _)

theorem lengthOk_readHart (s : State) (a h : Nat) (runs : List (Nat × Run)) (x : Hart) : LengthOk (readHart s a h runs x) := by
  unfold readHart
  extract_lets r b w y run
  refine LengthOk.of_lens (h := y) ?_ (lengthOk_loadRecord _ _ _)
  rw [Hart.lens_mk, Hart.lens_fold]

theorem readCore_legal {s : State} (c core : Nat) (hs : Legal s) : Legal (readCore c s core) := by
  unfold readCore
  extract_lets k a tcm s1 s2
  have h2 : Legal s2 := hs.of_lens (by rw [State.setCoreAt_lens, State.lens_mk, State.lens_fold])
  exact Legal.foldl (fun _ _ h => h.modHart (lengthOk_readHart _ _ _ _ _)) _ h2

theorem readImage_legal {s : State} (c : Nat) (hs : Legal s) : Legal (readImage c s) := by
  unfold readImage
  extract_lets k spad s1
  have h1 : Legal s1 := Legal.foldl (fun _ _ => readCore_legal c _) _ (hs.of_lens (by rw [State.lens_mk, State.lens_fold]))
  exact h1.of_lens (State.modCluster_lens _ _ _)

theorem readBack_legal {s : State} (c : Nat) (hs : Legal s) : Legal (readBack c s) := by
  unfold readBack
  split
  · exact hs.of_lens (toStep_lens _ _ _)
  · split
    · exact (readImage_legal c hs).of_lens (toStep_lens _ _ _)
    · exact hs.of_lens ((toStep_lens _ _ _).trans (State.modCluster_lens _ _ _))

theorem wakeCluster_legal {s : State} (c : Nat) (hs : Legal s) : Legal (wakeCluster c s) := by
  unfold wakeCluster
  dsimp only
  split
  · refine Legal.of_lens (toStep_lens _ _ _) ?_
    split
    · exact hs
    · exact moveRails_legal c 0 hs
  · exact hs.of_lens ((toStep_lens _ _ _).trans (State.modCluster_lens _ _ _))
  · split
    · exact hs
    · exact readBack_legal c hs
  · exact hs.of_lens ((releaseQuiesce_lens _ _).trans (toStep_lens _ _ _))
  · split
    · exact hs.of_lens (finishWake_lens _ _)
    · exact hs

theorem resetAgent_legal {s : State} (a : Nat) (hs : Legal s) : Legal (resetAgent a s) := by
  have harts : Legal ((hartsOfAgent a).foldl (fun s h =>
      let s := endLeases h s
      let s := s.modDie (dieOf h) (fun d => { d with
        requests := d.requests.filter (fun k => k != h)
        deliveries := d.deliveries.filter (fun k => k.hart != h) })
      if isMilliner h then (s.setHartAt h (.init h)).setMillAt h {} else s.setHartAt h (.init h)) s) := by
    refine Legal.foldl (fun t h ht => ?_) _ hs
    have h1 : Legal (endLeases h t) := ht.of_lens (endLeases_lens _ _)
    dsimp only
    split <;> exact Legal.setHartAt (s := State.modDie _ _ _) h1 (lengthOk_init h)
  unfold resetAgent
  dsimp only
  split
  · exact harts
  · split <;> exact harts

theorem declareDead_legal {s : State} (a : Nat) (hs : Legal s) : Legal (declareDead a s) := by
  have h1 : Legal (dropLeases a (dropQueued a (resetAgent a s))) :=
    (resetAgent_legal a hs).of_lens ((dropLeases_lens _ _).trans (dropQueued_lens _ _))
  unfold declareDead
  exact Legal.of_lens ((freeEntries_lens _).trans (commitReady_lens _)) h1

/-- The entries that a filter of the numbers leaves. -/
theorem look_filter {α : Type} (d : α) (q : Nat → Bool) (l : List (Nat × α)) (k : Nat) :
    look d (l.filter (fun p => q p.1)) k = if q k then look d l k else d := by
  induction l with
  | nil => simp [look]
  | cons p l ih =>
    obtain ⟨i, x⟩ := p
    rw [List.filter_cons]
    by_cases hi : i = k
    · subst hi
      cases hq : q i
      · rw [if_neg Bool.false_ne_true, ih, hq]
        rfl
      · simp [look]
    · split
      · simp [look, hi, ih]
      · simp [look, hi, ih]

/-- The harts that scrubbing a partition drops are as at the start. -/
theorem scrubPart_legal {s : State} (p : Nat) (hs : Legal s) : Legal (scrubPart p s) := by
  intro k
  have e : (scrubPart p s).hartAt k = if !(ofPart (s.partAt p) k) then s.hartAt k else Hart.init k :=
    look_filter (Hart.init k) (fun h => !(ofPart (s.partAt p) h)) s.harts k
  rw [e]
  split
  · exact hs k
  · exact lengthOk_init k

/-! ## The start of the package -/

theorem notStarted_legal (s : State) (p : Pkg → Pkg) (n : Nov → Nov) : Legal (notStarted s p n) := legal_init rfl

theorem coldState_legal (s : State) (excl : BitVec 144) : Legal (coldState excl s) := legal_init rfl

theorem warmState_legal (s : State) : Legal (warmState s) := legal_init rfl

theorem bootFirmware_legal {s : State} (hs : Legal s) : Legal (bootFirmware s) := by
  unfold bootFirmware
  extract_lets l base pc h s1
  have h1 : Legal s1 := hs.of_lens (by rw [grantPayload_lens, State.lens_mk, State.lens_fold])
  refine h1.setHartAt (LengthOk.of_lens ?_ (lengthOk_init 9216))
  rw [Hart.lens_mk, Hart.lens_fold]

theorem startPackage_legal (s : State) (cold trained broken : Bool) (excl : BitVec 144) :
    Legal (startPackage cold trained broken excl s) := by
  unfold startPackage
  extract_lets failed s1
  split
  · refine bootFirmware_legal (Legal.of_lens (startedNov_lens _) ?_)
    split
    · exact coldState_legal _ _
    · exact warmState_legal _
  · exact notStarted_legal _ _ _

/-! ## Contexts and routines -/

theorem lengthOk_contextOf (s : State) (h f : Nat) (y : Hart) : LengthOk (contextOf s h f y) := by
  unfold contextOf
  extract_lets a tiles b pc y1 mode
  refine LengthOk.of_lens (h := y1) ?_ (lengthOk_loadRecord _ _ _)
  rw [Hart.lens_mk, Hart.lens_fold]

theorem takeContext_legal {s : State} (h f : Nat) (y : Hart) (hs : Legal s) : Legal (takeContext h f y s) := by
  unfold takeContext
  extract_lets a ws y1 ts k k1 s1 s2
  have h1 : Legal s1 := hs.of_lens (State.setCoreAt_lens _ _ _)
  have h2 : Legal s2 := (h1.setHartAt (lengthOk_contextOf s h f y)).of_lens (forgetKept_lens _ _)
  refine h2.of_lens ?_
  rw [restoreLanes_lens, State.lens_mk, State.lens_fold]

theorem lengthOk_userHart (m : Nat) (k : Kick) (pc : Nat) (ws : List (Nat × W32)) : LengthOk (userHart m k pc ws) := by
  unfold userHart
  extract_lets h h1
  refine LengthOk.of_lens (h := h) ?_ (lengthOk_vl_zero rfl)
  rw [Hart.lens_mk, Hart.lens_fold, Hart.setX_lens, Hart.setX_lens, Hart.setX_lens]

theorem beginUser_legal {s : State} (m : Nat) (k : Kick) (n : Nat) (hs : Legal s) : Legal (beginUser m k n s) := by
  unfold beginUser
  dsimp only
  split
  · exact hs.of_lens (stopRoutine_lens _ _ _ _ _)
  · split
    · exact hs.of_lens (endRoutine_lens _ _ _ _)
    · split
      · next h => exact hs.of_lens ((stopRoutine_lens _ _ _ _ _).trans ((fetchRoutine_steady _ _ _).error h))
      · next h =>
        refine Legal.of_lens (setRun_lens _ _ _) (Legal.setHartAt ?_ (lengthOk_userHart m k _ _))
        exact hs.of_lens ((settleReads_lens _ _ _).trans ((fetchRoutine_steady _ _ _).ok h))

end Sys2Proof.Machine
end

section
/-! SUPPORT. VL within VLMAX (R21) through a word: computations, vector and scalar words, vector loads. -/

namespace Sys2Proof.Machine

/-! ## Computations and words -/

/-- The state at a computation's end. -/
def endOf {α : Type} : EStateM.Result Stop State α → State
  | .ok _ t => t
  | .error _ t => t

/-- A computation keeps VL within VLMAX from a state. -/
def LegalAt {α : Type} (s : State) (a : Act α) : Prop := Legal s → Legal (endOf (a s))

/-- A computation keeps VL within VLMAX. -/
def Lawful {α : Type} (a : Act α) : Prop := ∀ s, LegalAt s a

theorem KeepsAt.legalAt {α : Type} {a : Act α} {s : State} (h : KeepsAt s a) : LegalAt s a := by
  intro hs
  have e : (endOf (a s)).lens = lensOf (a s) := by cases a s <;> rfl
  exact hs.of_lens (e.trans h)

theorem Steady.lawful {α : Type} {a : Act α} (h : Steady a) : Lawful a := fun s => (KeepsAt.of_steady h s).legalAt

theorem LegalAt.ok {α : Type} {a : Act α} {s t : State} {x : α} (ha : LegalAt s a) (hs : Legal s) (h : a s = .ok x t) : Legal t := by
  have := ha hs
  rw [h] at this
  exact this

theorem LegalAt.error {α : Type} {a : Act α} {s t : State} {e : Stop} (ha : LegalAt s a) (hs : Legal s)
    (h : a s = .error e t) : Legal t := by
  have := ha hs
  rw [h] at this
  exact this

theorem LegalAt.bind {α β : Type} {a : Act α} {f : α → Act β} {s : State} (ha : LegalAt s a)
    (hf : ∀ x t, a s = .ok x t → LegalAt t (f x)) : LegalAt s (a >>= f) := by
  intro hs
  cases h : a s with
  | ok x t =>
    rw [bind_ok f h]
    exact hf x t h (ha.ok hs h)
  | error e t =>
    rw [bind_error f h]
    exact ha.error hs h

theorem LegalAt.getS {α : Type} {f : State → Act α} {s : State} (h : LegalAt s (f s)) : LegalAt s (getS >>= f) := h

theorem LegalAt.setS {α : Type} {f : Unit → Act α} {s t : State} (ht : Legal s → Legal t) (h : LegalAt t (f ())) :
    LegalAt s (setS t >>= f) := fun hs => h (ht hs)

/-- VL is within VLMAX in the state a step answers. -/
def LegalNext (o : Host.Outcome State Fault Refusal) : Prop := ∀ t, o = .next t → Legal t

theorem LegalNext.of_legal {s : State} (hs : Legal s) : LegalNext (.next s) := by
  intro t h
  cases h
  exact hs

theorem LegalNext.of_ite {c : Prop} [Decidable c] {a b : Host.Outcome State Fault Refusal} (ha : LegalNext a) (hb : LegalNext b) :
    LegalNext (if c then a else b) := by
  split
  · exact ha
  · exact hb

theorem runAct_legal {i : Instr} {a : Act Unit} {s : State} (ha : LegalAt s a) (hs : Legal s) : LegalNext (runAct i a s) := by
  intro t h
  unfold runAct at h
  split at h
  · next h' =>
    cases h
    exact (ha.ok hs h').of_lens (settleReads_lens _ _ _)
  · next h' =>
    cases h
    exact ha.error hs h'
  · next h' =>
    cases h
    exact (ha.error hs h').of_lens ((afterStop_lens _ _ _).trans (settleReads_lens _ _ _))

/-- A struck register holds a vector word back, or stops it before one of its elements. -/
theorem struckWord_legal {i : Instr} {a : Act Unit} {s : State} (ha : Lawful a) (hs : Legal s) : LegalNext (struckWord i a s) := by
  intro t h
  unfold struckWord at h
  split at h
  · split at h
    · next h' =>
      cases h
      exact (runAct_legal (ha s) hs _ h').of_lens (healed_lens _ _ _ _)
    · exact runAct_legal (ha s) hs t h
  · split at h
    · exact runAct_legal (ha s) hs t h
    · split at h
      · next u h' =>
        cases h
        have hu : Legal u := by
          refine runAct_legal (ha _) ?_ u h'
          exact hs
        rcases struckEnd_lens i _ _ _ s { u with bound := s.bound } with e | e
        · exact Legal.of_lens e (show Legal { u with bound := s.bound } from hu)
        · exact hs.of_lens e
      · next h' => exact absurd h (h' t)

theorem vectorWord_legal {i : Instr} {a : Act Unit} {s : State} (ha : Lawful a) (hs : Legal s) : LegalNext (vectorWord i a s) :=
  .of_ite (.of_legal hs) (.of_ite (runAct_legal (ha s) hs) (struckWord_legal ha hs))

theorem scalarWord_legal {i : Instr} {legal : State → Bool} {a : Act Unit} {s : State} (ha : LegalAt s a) (hs : Legal s) :
    LegalNext (scalarWord i legal a s) :=
  .of_ite (.of_legal (hs.of_lens (afterStop_lens _ _ _))) (runAct_legal ha hs)

/-! ## Vector words that compute -/

/-- A vector word whose part after the issue keeps VTYPE and VL. -/
theorem issuedWord_legal {i : Instr} {a : Attr} {w : Fld} {legal : State → Bool} {f : State → VCtx → Act Unit} {s : State}
    (hs : Legal s) (hf : ∀ s c, Steady (f s c)) :
    LegalNext (vectorWord i (getS >>= fun s => issue a w (legal s) >>= f s) s) :=
  vectorWord_legal (Steady.lawful (.getS fun s => .of_steady (.bind (issue_steady _ _ _) (hf s)) s)) hs

/-- A vector word that changes its hart in one step. -/
theorem hartWord_legal {i : Instr} {a : Attr} {w : Fld} {legal : State → Bool} {g : State → VCtx → Hart} {s : State}
    (hs : Legal s) (hg : ∀ s c, (g s c).lens = s.hart.lens) :
    LegalNext (vectorWord i (getS >>= fun s => issue a w (legal s) >>= fun c =>
      setS (s.setHart (g s c)) >>= fun _ => retireVec i c.takes) s) := by
  refine vectorWord_legal (Steady.lawful (.getS fun s => .bind (.of_steady (issue_steady _ _ _) s) fun c t ht =>
    .setS ?_ (.of_steady (retireVec_steady _ _) _))) hs
  exact (State.lens_setHart_self (hg s c)).trans ht.symm

section
variable {s : State} (hs : Legal s) {i : Instr} {w : Fld}
include hs

theorem intWord_legal {zx : Bool} {op : Nat → Nat → Nat → Nat → Nat × Ev} : LegalNext (intWord i w zx op s) :=
  issuedWord_legal hs fun _ _ => elementWise_steady _ _ _ _ _ (by simp)

theorem carryWord_legal {op : Nat → Nat → Nat → Nat → Nat × Bool} : LegalNext (carryWord i w op s) := by
  refine issuedWord_legal hs fun _ _ => elementWise_steady _ _ _ _ _ fun e x h => ?_
  split <;> simp

theorem floatWord_legal {op : Rounding → Nat → Nat → Nat → Nat × Ev} : LegalNext (floatWord i w op s) :=
  issuedWord_legal hs fun _ _ => elementWise_steady _ _ _ _ _ (by simp)

theorem floatCompare_legal {op : Nat} : LegalNext (floatCompare i w op s) :=
  issuedWord_legal hs fun _ _ => elementWise_steady _ _ _ _ _ (by simp)

theorem floatReduce_legal {fold : VCtx → (Nat → Nat) → Nat → Nat × Ev} : LegalNext (floatReduce i w fold s) := by
  refine vectorWord_legal (Steady.lawful (.getS fun s => .bind (.of_steady (issue_steady _ _ _) s) fun c t ht => ?_)) hs
  refine .bind (.of_steady (steady_ensure _ _) t) fun _ u hu => .setS ?_ (.of_steady (retireVec_steady _ _) _)
  rw [hu, ht]
  exact State.lens_setHart_self (by simp)

theorem planarWord_legal {op : Nat → Nat → Nat → Nat} : LegalNext (planarWord i w op s) :=
  issuedWord_legal hs fun _ _ => crossElement_steady _ _ _ _ _ (by simp)

theorem floatUnary_legal {op : Rounding → Nat → Nat × Ev} : LegalNext (floatUnary i w op s) :=
  issuedWord_legal hs fun _ _ => elementWise_steady _ _ _ _ _ (by simp)

theorem compareWord_legal {rel : Nat → Nat → Nat → Bool} : LegalNext (compareWord i w rel s) :=
  issuedWord_legal hs fun _ _ => elementWise_steady _ _ _ _ _ (by simp)

theorem reduceWord_legal {op : Nat → Nat → Nat → Nat} : LegalNext (reduceWord i w op s) := hartWord_legal hs (by simp)

theorem slideWord_legal {up : Bool} : LegalNext (slideWord i w up s) := by
  refine issuedWord_legal hs fun s c => crossElement_steady _ _ _ _ _ fun e x h => ?_
  repeat' split
  all_goals simp

theorem slide1Word_legal {up : Bool} : LegalNext (slide1Word i w up s) :=
  issuedWord_legal hs fun _ _ => crossElement_steady _ _ _ _ _ (by simp)

theorem maskWord_legal {legal cross : Bool} {bit : State → Nat → Bool} : LegalNext (maskWord i w legal cross bit s) :=
  issuedWord_legal hs fun _ _ => elementWise_steady _ _ _ _ _ (by simp)

theorem extendWord_legal {signed : Bool} : LegalNext (extendWord i w signed s) :=
  issuedWord_legal hs fun _ _ => .bind (steady_ensure _ _) fun _ => elementWise_steady _ _ _ _ _ (by simp)

theorem unaryWord_legal {op : Nat → Nat → Nat} : LegalNext (unaryWord i w op s) :=
  issuedWord_legal hs fun _ _ => elementWise_steady _ _ _ _ _ (by simp)

theorem maskScalar_legal {val : VReg → Nat → Word} : LegalNext (maskScalar i w val s) := hartWord_legal hs (by simp)

theorem indexedStore_legal {pick : State → Env → List PartStore → List PartStore} : LegalNext (indexedStore i w pick s) := by
  refine vectorWord_legal (Steady.lawful (.getS fun s => .bind (.of_steady (issue_steady _ _ _) s) fun c t ht =>
    .setS ?_ (.of_steady (storeWord_steady _ _ _ _ _ _) _))) hs
  rw [ht, State.useFresh_lens]

/-- A word of the texture unit: its texel reads keep VTYPE and VL. -/
theorem texWord_legal {size : Nat} {res : Nat → Act Nat} (hr : ∀ e, Steady (res e)) : LegalNext (texWord i w size res s) := by
  refine vectorWord_legal (Steady.lawful (.bind (issueG_steady _ _ _) fun c s => ?_)) hs
  have loop := gLoop_steady i w c size res hr
  split
  · next h => exact (endTexture_lens _).trans (loop.ok h)
  · next h =>
    rw [lensOf_error]
    split
    · exact loop.error h
    · exact (endTexture_lens _).trans (loop.error h)
  · next h => exact (endTexture_lens _).trans (loop.error h)

/-- Configuration leaves VL within VLMAX (R83). -/
theorem configWord_legal {w : CfgFld} {req : Hart → Word} : LegalNext (configWord i w req s) := by
  refine vectorWord_legal (fun s hs => ?_) hs
  dsimp only
  split
  · exact hs
  · refine hs.setHart (LengthOk.of_lens ?_ (lengthOk_configure s.hart (req s.hart)
      (if w.rs1 = 0 then none else some (s.hart.getX w.rs1))))
    rw [Hart.lens_mk, Hart.lens_fold, Hart.retire_lens, Hart.setX_lens]

end

/-! ## Vector loads -/

/-- A load loop ends before one of its own elements. -/
theorem loadLoop_lt {c : VCtx} {put : PutFn} {rd : Nat → Act Nat} {n e : Nat} {first : Bool} {s t : State} {k : Nat}
    {x : Option Stop × Bool} (h : loadLoop c put rd n e first s = (t, some (k, x))) : e ≤ k ∧ k < e + n := by
  induction n generalizing e first s with
  | zero => cases h
  | succ n ih =>
    unfold loadLoop at h
    split at h
    · cases h
      omega
    · split at h
      · split at h
        · have := ih h
          omega
        · cases h
          omega
      · have := ih h
        omega

/-- The current agent's hart of a state with the same VTYPE and VL. -/
theorem hart_lens_of {s t : State} (h : t.lens = s.lens) : t.hart.lens = s.hart.lens := by
  have hc : t.cur = s.cur := congrArg Prod.fst h
  have hl : lensIn t.harts = lensIn s.harts := congrArg Prod.snd h
  rw [State.hart_lens, State.hart_lens, hc, hl]

/-- A vector load keeps VL within VLMAX: where it trims VL, it trims it to elements that it had (R138). -/
theorem loadWord_legal {i : Instr} {c : VCtx} {put : PutFn} {count : Nat} {rd : Nat → Act Nat} {s : State}
    (hp : ∀ e x h, (put e x h).lens = h.lens) (hr : ∀ e, Steady (rd e))
    (hvl : ∀ e < c.vl, e * c.unit ≤ s.hart.vec.vl.toNat) : LegalAt s (loadWord i c put count rd) := by
  intro hs
  have loop := loadLoop_lens c put rd (c.vl - c.velem) c.velem true s hp hr
  unfold loadWord
  split
  · next t h =>
    rw [h] at loop
    have ht : Legal (t.setHart (c.tailZero put count t.hart)) :=
      hs.of_lens ((State.lens_setHart_self (VCtx.tailZero_lens _ _ _ _ hp)).trans loop)
    exact (retireVec_steady i c.takes).lawful _ ht
  · next t e b h =>
    rw [h] at loop
    exact hs.of_lens ((State.setVelem_lens _ _).trans loop)
  · next t e b h =>
    rw [h] at loop
    exact hs.of_lens (State.lens_setHart_same loop rfl)
  · next t e x first _ h =>
    rw [h] at loop
    split
    · exact hs.of_lens ((State.setVelem_lens _ _).trans loop)
    · refine (retireVec_steady i c.takes).lawful _ ?_
      have hlt := loadLoop_lt h
      have hu : (t.setHart (VCtx.tailZero { c with vl := e } put count t.hart)).lens = s.lens :=
        (State.lens_setHart_self (VCtx.tailZero_lens _ _ _ _ hp)).trans loop
      generalize t.setHart (VCtx.tailZero { c with vl := e } put count t.hart) = u at hu
      have hvt : u.hart.vec.vtype = s.hart.vec.vtype := congrArg Prod.fst (hart_lens_of hu)
      refine (hs.of_lens hu).setHart ?_
      show (bv 14 (e * c.unit)).toNat ≤ vlmax u.hart.vec.vtype
      rw [hvt, BitVec.toNat_ofNat]
      have he := hvl e (by omega)
      exact (Nat.mod_le _ _).trans (he.trans hs.hart)

/-- An issued word's VL is the hart's. -/
theorem issue_vl {a : Attr} {w : Fld} {legal : Bool} {s t : State} {c : VCtx} (h : issue a w legal s = .ok c t) :
    t = s ∧ c.vl = s.hart.vec.vl.toNat ∧ c.unit = 1 := by
  unfold issue at h
  dsimp only at h
  split_ifs at h <;> cases h <;> exact ⟨rfl, rfl, rfl⟩

/-- A load of elements, blocks or bytes of a mask register. -/
theorem loadParts_legal {i : Instr} {c : VCtx} {per : Nat} {put : PutFn} {count : Nat} {ps : Nat → List MPart} {s : State}
    (hp : ∀ e x h, (put e x h).lens = h.lens) (hvl : ∀ e < c.vl, e * c.unit ≤ s.hart.vec.vl.toNat) :
    LegalAt s (loadParts i c per put count ps) := by
  refine .getS (.bind ((pastBars_steady _).lawful s) fun _ t ht => .bind ((askGroups_steady _ _ _ _).lawful t) fun _ u hu => ?_)
  have hl : u.hart.lens = s.hart.lens := hart_lens_of (((askGroups_steady _ _ _ _).ok hu).trans ((pastBars_steady _).ok ht))
  have hv : u.hart.vec.vl = s.hart.vec.vl := congrArg Prod.snd hl
  exact loadWord_legal hp (fun _ => readElem_steady _ _) (by rw [hv]; exact hvl)

section
variable {s : State} (hs : Legal s) {w : Fld}
include hs

theorem execVld_legal : LegalNext (execVld w s) := by
  refine vectorWord_legal (fun s => .getS (.bind ((issue_steady _ _ _).lawful s) fun c t ht => ?_)) hs
  obtain ⟨rfl, hvl, hu⟩ := issue_vl ht
  split
  · refine loadParts_legal (by simp) fun e he => ?_
    show e * 32 ≤ _
    have he' : e < c.vl / 32 := he
    omega
  · refine loadParts_legal (by simp) fun e he => ?_
    rw [hu]
    omega

theorem execVlds_legal : LegalNext (execVlds w s) := by
  refine vectorWord_legal (fun s => .getS (.bind ((issue_steady _ _ _).lawful s) fun c t ht => ?_)) hs
  obtain ⟨rfl, hvl, hu⟩ := issue_vl ht
  exact loadParts_legal (by simp) fun e he => by rw [hu]; omega

theorem execVldx_legal : LegalNext (execVldx w s) := by
  refine vectorWord_legal (fun s => .getS (.bind ((issue_steady _ _ _).lawful s) fun c t ht => ?_)) hs
  obtain ⟨rfl, hvl, hu⟩ := issue_vl ht
  exact loadParts_legal (by simp) fun e he => by rw [hu]; omega

theorem execVldseg_legal : LegalNext (execVldseg w s) := by
  refine vectorWord_legal (fun s => .getS (.bind ((issue_steady _ _ _).lawful s) fun c t ht => ?_)) hs
  obtain ⟨rfl, hvl, hu⟩ := issue_vl ht
  refine loadParts_legal (fun e x h => ?_) fun e he => by rw [hu]; omega
  split <;> simp

theorem execVldm_legal : LegalNext (execVldm w s) := by
  refine vectorWord_legal (fun s => .getS (.bind ((issue_steady _ _ _).lawful s) fun c t ht => ?_)) hs
  obtain ⟨rfl, hvl, hu⟩ := issue_vl ht
  refine loadParts_legal (by simp) fun e he => ?_
  show e * 8 ≤ _
  have he' : e < ceilDiv c.vl 8 := he
  unfold ceilDiv at he'
  omega

end

/-! ## sld (R187) -/

theorem sldFault_lens {h h' : Hart} {st : Stream} {r : Except (Hart × Stop) Nat} (hr : sldLength.sldFault h st = r) :
    (∀ n, r ≠ .ok n) ∧ ∀ x, r = .error (h', x) → h'.lens = h.lens := by
  unfold sldLength.sldFault at hr
  dsimp only at hr
  repeat' split at hr
  all_goals
    subst hr
    refine ⟨nofun, fun x hx => ?_⟩
    cases hx
    simp

/-- sld takes no more elements than VL. -/
theorem sldLength_le {h : Hart} {st : Stream} {vl : Nat} (hl : sldLength h st = .ok vl) : vl ≤ h.vec.vl.toNat := by
  have fault (n : Nat) : sldLength.sldFault h st ≠ .ok n := (sldFault_lens (h' := h) rfl).1 n
  unfold sldLength at hl
  dsimp only at hl
  split_ifs at hl
  · cases hl
    exact le_rfl
  · exact absurd hl (fault _)
  · cases hl
    exact Nat.zero_le _
  · exact absurd hl (fault _)
  · cases hl
    exact Nat.min_le_left _ _

/-- sld that takes no element marks its stream at most. -/
theorem sldLength_lens {h h' : Hart} {st : Stream} {x : Stop} (hl : sldLength h st = .error (h', x)) : h'.lens = h.lens := by
  have fault (hf : sldLength.sldFault h st = .error (h', x)) : h'.lens = h.lens := (sldFault_lens rfl).2 x hf
  unfold sldLength at hl
  dsimp only at hl
  split_ifs at hl
  · cases hl
    rfl
  · exact fault hl
  · cases hl
    rfl
  · exact fault hl
  · cases hl
    rfl

theorem execSld_legal {s : State} (hs : Legal s) {w : Fld} : LegalNext (execSld w s) := by
  refine vectorWord_legal (fun s => .getS (.bind ((issue_steady _ _ _).lawful s) fun c t ht => ?_)) hs
  obtain ⟨rfl, hvl, hu⟩ := issue_vl ht
  split
  · exact .setS (fun hs => hs.of_lens (State.useFresh_lens _)) ((steady_stop _).lawful _)
  · next st _ =>
    refine .bind ((steady_ensure _ _).lawful t) fun _ u hu' => ?_
    obtain rfl : u = t := by
      unfold ensure at hu'
      split at hu' <;> cases hu'
      rfl
    split
    · next h => exact .setS (fun hs => hs.of_lens (State.lens_setHart_self (sldLength_lens h))) ((steady_stop _).lawful _)
    · next vl h =>
      have hle := sldLength_le h
      have hlt : vl < 2 ^ 14 := hle.trans_lt u.hart.vec.vl.isLt
      have hset : (bv 14 vl).toNat = vl := by rw [BitVec.toNat_ofNat, Nat.mod_eq_of_lt hlt]
      refine .setS (fun hs => hs.setHart ?_) (.bind ?_ fun _ v _ => (steady_onHart fun h => ?_).lawful v)
      · show (bv 14 vl).toNat ≤ _
        rw [hset]
        exact hle.trans hs.hart
      · refine loadWord_legal (by simp) (fun _ => readTuple_steady _ _ _) fun e he => ?_
        have he' : e < vl := he
        show e * c.unit ≤ ((u.setVl vl).hart.vec.vl).toNat
        rw [State.setVl, State.hart_setHart]
        show e * c.unit ≤ (bv 14 vl).toNat
        rw [hset, hu]
        omega
      · split <;> simp

end Sys2Proof.Machine
end

section
/-! SUPPORT. VL within VLMAX (R21) through the vector words that have a form of their own. -/

namespace Sys2Proof.Machine

theorem execVfredsum_legal {s : State} (hs : Legal s) (w : Fld) : LegalNext (execVfredsum w s) := by
  refine vectorWord_legal (Steady.lawful (.getS fun s => .bind (.of_steady (issue_steady _ _ _) s) fun c t ht => ?_)) hs
  dsimp only
  split
  · refine .setS ?_ ?_
    · rw [ht]
      exact State.lens_setHart_self (by simp)
    · exact .of_steady (retireVec_steady _ _) _
  · refine .setS ?_ ?_
    · rw [ht]
      exact State.lens_setHart_self (by simp)
    · exact .of_steady (stopElem_steady _ _) _

theorem execMxdot_legal {s : State} (hs : Legal s) (w : Fld) : LegalNext (execMxdot w s) :=
  issuedWord_legal hs fun _ _ => elementWise_steady _ _ _ _ _ (by simp)

theorem execPldot_legal {s : State} (hs : Legal s) (w : Fld) : LegalNext (execPldot w s) :=
  hartWord_legal hs (by simp)

theorem execPlcmp_legal {s : State} (hs : Legal s) (w : Fld) : LegalNext (execPlcmp w s) :=
  issuedWord_legal hs fun _ _ => elementWise_steady _ _ _ _ _ (by simp)

theorem execVfcvt_legal {s : State} (hs : Legal s) (w : Fld) : LegalNext (execVfcvt w s) :=
  issuedWord_legal hs fun _ _ => .bind (steady_ensure _ _) fun _ => elementWise_steady _ _ _ _ _ (by simp)

theorem execMxpack_legal {s : State} (hs : Legal s) (w : Fld) : LegalNext (execMxpack w s) :=
  issuedWord_legal hs fun _ _ => elementWise_steady _ _ _ _ _ (by simp)

theorem execMxunpack_legal {s : State} (hs : Legal s) (w : Fld) : LegalNext (execMxunpack w s) :=
  issuedWord_legal hs fun _ _ => elementWise_steady _ _ _ _ _ (by simp)

theorem execPlconv_legal {s : State} (hs : Legal s) (w : Fld) : LegalNext (execPlconv w s) :=
  issuedWord_legal hs fun _ _ => steady_ite (crossElement_steady _ _ _ _ _ (by simp)) (crossElement_steady _ _ _ _ _ (by simp))

theorem execVgath_legal {s : State} (hs : Legal s) (w : Fld) : LegalNext (execVgath w s) :=
  issuedWord_legal hs fun _ _ => elementWise_steady _ _ _ _ _ (by simp)

theorem execVmerge_legal {s : State} (hs : Legal s) (w : Fld) : LegalNext (execVmerge w s) :=
  issuedWord_legal hs fun _ _ => steady_ite (elementWise_steady _ _ _ _ _ (by simp)) (elementWise_steady _ _ _ _ _ (by simp))

theorem execVxput_legal {s : State} (hs : Legal s) (w : Fld) : LegalNext (execVxput w s) :=
  hartWord_legal hs (by simp)

theorem execVxget_legal {s : State} (hs : Legal s) (w : Fld) : LegalNext (execVxget w s) :=
  hartWord_legal hs (by simp)

theorem execVbcast_legal {s : State} (hs : Legal s) (w : Fld) : LegalNext (execVbcast w s) :=
  issuedWord_legal hs fun _ _ => elementWise_steady _ _ _ _ _ (by simp)

theorem execVmov_legal {s : State} (hs : Legal s) (w : Fld) : LegalNext (execVmov w s) :=
  issuedWord_legal hs fun _ _ => steady_ite (elementWise_steady _ _ _ _ _ (by simp)) (elementWise_steady _ _ _ _ _ (by simp))

theorem execVcomp_legal {s : State} (hs : Legal s) (w : Fld) : LegalNext (execVcomp w s) :=
  hartWord_legal hs (by simp)

theorem execVexpd_legal {s : State} (hs : Legal s) (w : Fld) : LegalNext (execVexpd w s) :=
  hartWord_legal hs (by simp)

theorem execVconf_legal {s : State} (hs : Legal s) (w : Fld) : LegalNext (execVconf w s) :=
  issuedWord_legal hs fun _ _ => elementWise_steady _ _ _ _ _ (by simp)

theorem execViota_legal {s : State} (hs : Legal s) (w : Fld) : LegalNext (execViota w s) :=
  issuedWord_legal hs fun _ _ => elementWise_steady _ _ _ _ _ (by simp)

theorem execVidx_legal {s : State} (hs : Legal s) (w : Fld) : LegalNext (execVidx w s) :=
  issuedWord_legal hs fun _ _ => elementWise_steady _ _ _ _ _ (by simp)

theorem execVwiden_legal {s : State} (hs : Legal s) (w : Fld) : LegalNext (execVwiden w s) :=
  issuedWord_legal hs fun _ _ => .bind (steady_ensure _ _) fun _ => crossElement_steady _ _ _ _ _ (by simp)

theorem execVnarrow_legal {s : State} (hs : Legal s) (w : Fld) : LegalNext (execVnarrow w s) :=
  issuedWord_legal hs fun _ _ => .bind (steady_ensure _ _) fun _ => .bind (steady_ensure _ _) fun _ =>
    elementWise_steady _ _ _ _ _ (by simp)

theorem execMvtom_legal {s : State} (hs : Legal s) (w : Fld) : LegalNext (execMvtom w s) :=
  issuedWord_legal hs fun _ _ => elementWise_steady _ _ _ _ _ (by simp)

theorem execMmtov_legal {s : State} (hs : Legal s) (w : Fld) : LegalNext (execMmtov w s) :=
  issuedWord_legal hs fun _ _ => elementWise_steady _ _ _ _ _ (by simp)

theorem execVwait_legal {s : State} (hs : Legal s) (w : Fld) : LegalNext (execVwait w s) := by
  refine vectorWord_legal (Steady.lawful (.getS fun s => .of_steady (.bind (issueVwait_steady _) fun c => ?_) s)) hs
  extract_lets r
  split
  · exact stopAccess_steady _ _
  · refine .bind (sampleLoop_steady _ _ _ _ _ _ _ _ _) fun p => ?_
    obtain ⟨sat, l⟩ := p
    exact steady_ite (finishVwait_steady _ _ _) (stallWith_steady _)

theorem execVst_legal {s : State} (hs : Legal s) (w : Fld) : LegalNext (execVst w s) :=
  issuedWord_legal hs fun _ _ => steady_ite (storeWord_steady _ _ _ _ _ _) (storeWord_steady _ _ _ _ _ _)

theorem execVsts_legal {s : State} (hs : Legal s) (w : Fld) : LegalNext (execVsts w s) :=
  issuedWord_legal hs fun _ _ => storeWord_steady _ _ _ _ _ _

theorem execVstseg_legal {s : State} (hs : Legal s) (w : Fld) : LegalNext (execVstseg w s) :=
  issuedWord_legal hs fun _ _ => storeWord_steady _ _ _ _ _ _

theorem execVstm_legal {s : State} (hs : Legal s) (w : Fld) : LegalNext (execVstm w s) :=
  issuedWord_legal hs fun _ _ => storeWord_steady _ _ _ _ _ _

theorem execWdecl_legal {s : State} (hs : Legal s) (w : Fld) : LegalNext (execWdecl w s) := by
  refine vectorWord_legal (Steady.lawful (.getS fun s => .setS (settleWindows_lens _ _) (.getS ?_))) hs
  generalize settleWindows s.cur s = s
  refine .bind (.of_steady (issue_steady _ _ _) _) fun c t ht => .setS (by rw [State.useFresh_lens, ht]) ?_
  dsimp only
  split
  · exact .of_steady (steady_stop _) _
  refine .bind (.of_steady (steady_ensure _ _) _) fun _ u hu => ?_
  split
  · exact .of_steady (steady_stop _) _
  refine .bind (.of_steady (targetPlace_steady _ _ _) _) fun pa0 v hv => .of_steady ?_ v
  refine .ite_bind (targetPlace_steady _ _ _) (steady_ok 0) fun pa1 => .getS fun s => ?_
  refine .setS ?_ ?_
  · rw [State.store_lens]
  · exact .of_steady (.bind (steady_onHart (by simp)) fun _ => retireVec_steady _ _) _

theorem execWacc_legal {s : State} (hs : Legal s) (w : Fld) : LegalNext (execWacc w s) := by
  refine vectorWord_legal (Steady.lawful (.getS fun s => .setS (settleWindows_lens _ _) (.getS ?_))) hs
  generalize settleWindows s.cur s = s
  refine .bind (.of_steady (issue_steady _ _ _) _) fun c t ht => .setS (by rw [State.useFresh_lens, ht]) ?_
  split
  · exact .of_steady (steady_stop _) _
  · next x _ =>
    refine .bind (.of_steady (steady_ensure _ _) _) fun _ u hu => ?_
    have loop := waccLoop_lens c s.cur x (s.hart.elem (s.hart.vreg w.b) c.sew) (s.hart.elem (s.hart.vreg w.a) c.sew)
      (c.vl - c.velem) c.velem s.useFresh
    split
    · next h =>
      rw [h] at loop
      refine .setS (loop.trans hu.symm) ?_
      exact .of_steady (retireVec_steady _ _) _
    · next h =>
      rw [h] at loop
      refine .setS ((State.setVelem_lens _ _).trans (loop.trans hu.symm)) ?_
      exact .of_steady (steady_stop _) _

theorem execWmerge_legal {s : State} (hs : Legal s) (w : Fld) : LegalNext (execWmerge w s) := by
  refine vectorWord_legal (Steady.lawful (.getS fun s => .setS (settleWindows_lens _ _) (.getS ?_))) hs
  generalize settleWindows s.cur s = s
  refine .bind (.of_steady (issue_steady _ _ _) _) fun c t ht => ?_
  dsimp only
  split
  · exact .of_steady (retireVec_steady _ _) _
  split
  · exact .of_steady (.bind (steady_ensure _ _) fun _ => retireVec_steady _ _) _
  split
  · exact .of_steady (steady_stop _) _
  split
  · exact .of_steady (foldOwn_steady _ _ _ _) _
  refine .setS (by rw [State.useFresh_lens, ht]) ?_
  split
  · exact .of_steady (steady_stop _) _
  refine .setS ?_ ?_
  · rw [State.store_lens, State.setClusterAt_lens]
  · exact .of_steady (.bind (steady_onHart (by simp)) fun _ => retireVec_steady _ _) _

theorem execWdrop_legal {s : State} (hs : Legal s) (w : Fld) : LegalNext (execWdrop w s) := by
  refine vectorWord_legal (Steady.lawful (.getS fun s => .setS (settleWindows_lens _ _) (.of_steady ?_ _))) hs
  refine .bind (issue_steady _ _ _) fun _ => .bind (steady_onHart fun h => ?_) fun _ => retireVec_steady _ _
  repeat' split
  all_goals simp

theorem execWstat_legal {s : State} (hs : Legal s) (w : Fld) : LegalNext (execWstat w s) := by
  refine vectorWord_legal (Steady.lawful (.getS fun s => .setS (settleWindows_lens _ _) (.of_steady ?_ _))) hs
  exact .bind (issue_steady _ _ _) fun _ => .bind (steady_onHart (by simp)) fun _ => retireVec_steady _ _

theorem execMattach_legal {s : State} (hs : Legal s) (w : Fld) : LegalNext (execMattach w s) := by
  refine issuedWord_legal hs fun s c => steady_ite (.bind (steady_onHart (by simp)) fun _ => retireVec_steady _ _) ?_
  split
  · exact .bind (steady_onHart (by simp)) fun _ => retireVec_steady _ _
  · exact .bind (steady_onHart (by simp)) fun _ => retireVec_steady _ _

theorem execMdetach_legal {s : State} (hs : Legal s) (w : Fld) : LegalNext (execMdetach w s) := by
  refine vectorWord_legal (Steady.lawful (.getS fun s => .bind (.of_steady (issue_steady _ _ _) s) fun c t ht =>
    .bind (.of_steady (steady_ensure _ _) t) fun _ u hu => ?_)) hs
  split
  · refine .setS (by rw [State.useFresh_lens, State.useFresh_lens, hu, ht]) (.of_steady ?_ _)
    exact .bind (steady_onHart (by simp)) fun _ => retireVec_steady _ _
  · exact .of_steady (retireVec_steady _ _) _

theorem execMload_legal {s : State} (hs : Legal s) (w : Fld) : LegalNext (execMload w s) :=
  issuedWord_legal hs fun _ _ => .bind (needFmt_steady _) fun _ => .bind (steady_ensure _ _) fun _ =>
    .bind (pastBars_steady _) fun _ => .bind (loadRows_steady _ _ _ _ _ _) fun _ => .bind (loadRows_steady _ _ _ _ _ _) fun _ =>
    .bind (steady_onHart (by simp)) fun _ => retireVec_steady _ _

theorem execMmac_legal {s : State} (hs : Legal s) (w : Fld) : LegalNext (execMmac w s) := by
  refine issuedWord_legal hs fun _ _ => .bind (needFmt_steady _) fun _ => .bind (steady_ensure _ _) fun _ =>
    .bind (steady_ensure _ _) fun _ => .bind (pastBars_steady _) fun _ => .bind (loadARows_steady _ _ _ _ _) fun _ =>
    .getS fun s => .setS ?_ (.of_steady (retireVec_steady _ _) _)
  exact (moveToLink_lens _ _).trans (State.setCoreAt_lens _ _ _)

theorem execMzero_legal {s : State} (hs : Legal s) (w : Fld) : LegalNext (execMzero w s) :=
  issuedWord_legal hs fun _ _ => .bind (setTileHere_steady _ _) fun _ => retireVec_steady _ _

theorem execMread_legal {s : State} (hs : Legal s) (w : Fld) : LegalNext (execMread w s) :=
  issuedWord_legal hs fun _ _ => .bind (steady_ensure _ _) fun _ => .bind (steady_onHart fun _ => rfl) fun _ =>
    retireVec_steady _ _

theorem execMwrite_legal {s : State} (hs : Legal s) (w : Fld) : LegalNext (execMwrite w s) :=
  issuedWord_legal hs fun _ _ => .bind (setTileHere_steady _ _) fun _ => retireVec_steady _ _

theorem execMsync_legal {s : State} (hs : Legal s) (w : Fld) : LegalNext (execMsync w s) :=
  issuedWord_legal hs fun _ _ => .bind (steady_ensure _ _) fun _ => retireVec_steady _ _

theorem execRboxt_legal {s : State} (hs : Legal s) (w : Fld) : LegalNext (execRboxt w s) :=
  vectorWord_legal (Steady.lawful (.bind (issueG_steady _ _ _) fun _ => .getS fun s => .of_steady (gLoop_steady _ _ _ _ _
    fun _ => .bind (readNode_steady _ _) fun _ => steady_pure _) s)) hs

theorem execRtrit_legal {s : State} (hs : Legal s) (w : Fld) : LegalNext (execRtrit w s) :=
  vectorWord_legal (Steady.lawful (.bind (issueG_steady _ _ _) fun _ => .getS fun s => .of_steady (gLoop_steady _ _ _ _ _
    fun _ => .getS fun t => .of_steady (.bind (readElem_steady _ _) fun _ => steady_pure _) t) s)) hs

theorem execBbovl_legal {s : State} (hs : Legal s) (w : Fld) : LegalNext (execBbovl w s) :=
  vectorWord_legal (Steady.lawful (.bind (issueG_steady _ _ _) fun _ => .getS fun s => .setS (State.useFresh_lens _)
    (.of_steady (gLoop_steady _ _ _ _ _ fun _ => .bind (readNode_steady _ _) fun _ => steady_pure _) _))) hs

end Sys2Proof.Machine
end

section
/-! SUPPORT. VL within VLMAX (R21) through the scalar words. -/

namespace Sys2Proof.Machine

theorem execRiscvInstruction_legal {s : State} (hs : Legal s) (op : Rv) : LegalNext (execRiscvInstruction op s) := by
  refine scalarWord_legal (Steady.lawful ?_ s) hs
  simp

theorem execLr_legal {s : State} (hs : Legal s) (sz : AmoW) (aq rl : BitVec 1) (rs1 rd : BitVec 5) :
    LegalNext (execLr sz aq rl rs1 rd s) := by
  refine scalarWord_legal (KeepsAt.legalAt (.getS (.of_steady ?_ s))) hs
  refine .bind (steady_ensure _ _) fun _ => .bind (steady_ensure _ _) fun _ => .bind (pastBars_steady _) fun _ =>
    .bind (locate_steady _ _ _ _) fun p => ?_
  cases p with
  | mem a => exact .getS fun u => .of_steady (.bind (steady_ensure _ _) fun _ => .bind (loadMem_steady _ _ _ _) fun _ =>
      steady_onHart (by simp)) u
  | far a => exact .bind (remoteAtomic_steady _ _ _ _ _ _ _) fun _ => steady_onHart (by simp)
  | dev d => exact steady_stop _

theorem execSc_legal {s : State} (hs : Legal s) (sz : AmoW) (aq rl : BitVec 1) (rs2 rs1 rd : BitVec 5) :
    LegalNext (execSc sz aq rl rs2 rs1 rd s) := by
  refine scalarWord_legal (KeepsAt.legalAt (.getS (.of_steady ?_ s))) hs
  refine .bind (steady_ensure _ _) fun _ => .bind (steady_ensure _ _) fun _ => .bind (pastBars_steady _) fun _ =>
    .bind (locate_steady _ _ _ _) fun p => ?_
  cases p with
  | mem a => exact .ite_bind (atomicByMessage_steady _ _ _ _ _ _) (scNow_steady _ _ _ _ _) fun _ => endSc_steady _ _
  | far a => exact .ite_bind (remoteAtomic_steady _ _ _ _ _ _ _) (steady_ok 1) fun _ => endSc_steady _ _
  | dev d => exact steady_stop _

theorem execAmo_legal {s : State} (hs : Legal s) (o : AmoOp) (sz : AmoW) (aq rl : BitVec 1) (rs2 rs1 rd : BitVec 5) :
    LegalNext (execAmo o sz aq rl rs2 rs1 rd s) := by
  refine scalarWord_legal (KeepsAt.legalAt (.getS (.of_steady ?_ s))) hs
  refine .bind (steady_ensure _ _) fun _ => .bind (steady_ensure _ _) fun _ => .bind (pastBars_steady _) fun _ =>
    .bind (locate_steady _ _ _ _) fun p => ?_
  cases p with
  | mem a => exact .ite_bind (atomicByMessage_steady _ _ _ _ _ _) (amoNow_steady _ _ _ _ _ _) fun _ => retireWith_steady _ _
  | far a => exact .bind (remoteAtomic_steady _ _ _ _ _ _ _) fun _ => retireWith_steady _ _
  | dev d => exact steady_stop _

theorem execFenceI_legal {s : State} (hs : Legal s) (imm : BitVec 12) (rs1 : BitVec 5) (rd : BitVec 5) :
    LegalNext (execFenceI imm rs1 rd s) :=
  scalarWord_legal ((steady_onHart (by simp)).lawful s) hs

theorem execSfenceVma_legal {s : State} (hs : Legal s) (rs2 rs1 : BitVec 5) : LegalNext (execSfenceVma rs2 rs1 s) := by
  refine scalarWord_legal (KeepsAt.legalAt (.getS (.bind (.of_steady (steady_ensure _ _) s) fun _ t ht => .setS ?_ ?_))) hs
  · rw [fenceTlbs_lens, ht]
  · exact .of_steady (steady_onHart (by simp)) _

theorem execWfi_legal {s : State} (hs : Legal s) : LegalNext (execWfi s) :=
  scalarWord_legal (KeepsAt.legalAt (.getS (.of_steady (steady_ite (steady_onHart (by simp)) (stallWith_steady _)) s))) hs

theorem execXret_legal {s : State} (hs : Legal s) (fromM : Bool) : LegalNext (execXret fromM s) :=
  scalarWord_legal ((steady_onHart (by simp)).lawful s) hs

theorem execTnext_legal {s : State} (hs : Legal s) (w : SFld) : LegalNext (execTnext w s) := by
  refine scalarWord_legal (KeepsAt.legalAt (.bind (.of_steady (steady_onHart (by simp)) s) fun _ t _ => .getS ?_)) hs
  split
  · rw [keepsAt_setS, leaveTask_lens]
  · exact .of_steady (steady_pure _) t

theorem execVdrain_legal {s : State} (hs : Legal s) (w : SFld) : LegalNext (execVdrain w s) :=
  scalarWord_legal (KeepsAt.legalAt (.getS (.of_steady (.bind (steady_ensure _ _) fun _ =>
    .bind (layFence_steady _ _ _ _ _) fun _ => steady_onHart (by simp)) s))) hs

theorem execSopen_legal {s : State} (hs : Legal s) (w : SFld) : LegalNext (execSopen w s) := by
  refine scalarWord_legal (KeepsAt.legalAt (.getS (.of_steady ?_ s))) hs
  refine .bind (steady_ensure _ _) fun _ => .bind (steady_ensure _ _) fun _ => .bind (scalarWords_steady _ _ _) fun _ =>
    .bind (steady_ensure _ _) fun _ => steady_onHart fun h => ?_
  rw [Hart.retire_lens, Hart.lens_ite, Hart.pendUi_lens, Hart.setStream_lens, ite_self]

theorem execSavail_legal {s : State} (hs : Legal s) (w : SFld) : LegalNext (execSavail w s) :=
  scalarWord_legal (KeepsAt.legalAt (.getS (.of_steady (retireWith_steady _ _) s))) hs

theorem execSres_legal {s : State} (hs : Legal s) (w : SFld) : LegalNext (execSres w s) := by
  refine scalarWord_legal (KeepsAt.legalAt (.getS (.of_steady ?_ s))) hs
  split
  · exact retireWith_steady _ _
  · refine steady_ite (retireWith_steady _ _) (steady_ite ?_ ?_)
    · exact .bind (steady_onHart (by simp)) fun _ => retireWith_steady _ _
    · split
      · exact steady_stop _
      · exact steady_ite (.bind (steady_onHart (by simp)) fun _ => steady_stop _)
          (.bind (steady_onHart (by simp)) fun _ => steady_stop _)

theorem execSclose_legal {s : State} (hs : Legal s) (w : SFld) : LegalNext (execSclose w s) :=
  scalarWord_legal ((steady_onHart (by simp)).lawful s) hs

theorem execLease_legal {s : State} (hs : Legal s) (w : LeaseFld) : LegalNext (execLease w s) := by
  refine scalarWord_legal (KeepsAt.legalAt (.getS (.of_steady (.bind (steady_ensure _ _) fun _ =>
    .bind (locate_steady _ _ _ _) fun p => ?_) s))) hs
  cases p with
  | mem a =>
    refine .getS fun t => .bind (.of_steady (steady_ensure _ _) t) fun _ u hu => ?_
    split
    · exact .of_steady (steady_stop _) u
    · split
      · refine .setS ?_ ?_
        · rw [State.lens_ite, State.send_lens, ite_self, hu]
        · exact .of_steady (stallWith_steady _) _
      · refine .bind (.of_steady (steady_ensure _ _) u) fun _ v hv => ?_
        rw [keepsAt_setS, leaseNow_lens, hv, hu]
  | far a => exact steady_stop _
  | dev d => exact steady_stop _

theorem execUnlease_legal {s : State} (hs : Legal s) (w : SFld) : LegalNext (execUnlease w s) := by
  refine scalarWord_legal (KeepsAt.legalAt (.getS ?_)) hs
  extract_lets h base mine
  split
  · refine .bind (.of_steady (steady_ensure _ _) s) fun _ t ht => .setS ?_ ?_
    · rw [endLease_lens, ht]
    · exact .of_steady (steady_onHart (by simp)) _
  · exact .of_steady (steady_onHart (by simp)) s

theorem execSwait_legal {s : State} (hs : Legal s) (w : SFld) : LegalNext (execSwait w s) := by
  refine scalarWord_legal (KeepsAt.legalAt (.getS (.of_steady (.bind (steady_ensure _ _) fun _ =>
    .bind (sampleWord_steady _ _ _) fun p => ?_) s))) hs
  obtain ⟨vs, l⟩ := p
  dsimp only
  split
  · exact retireWith_steady _ _
  · exact stallWith_steady _

theorem execMkick_legal {s : State} (hs : Legal s) (w : SFld) : LegalNext (execMkick w s) :=
  scalarWord_legal (KeepsAt.legalAt (.getS (.of_steady (.bind (steady_ensure _ _) fun _ => .bind (steady_ensure _ _) fun _ =>
    .bind (scalarStore_steady _ _ _ _ _) fun _ => steady_onHart (by simp)) s))) hs

theorem execHmsg_legal {s : State} (hs : Legal s) (w : SFld) : LegalNext (execHmsg w s) := by
  refine scalarWord_legal (KeepsAt.legalAt (.getS (.bind (.of_steady (steady_ensure _ _) s) fun _ t ht => ?_))) hs
  have post := postRecord_lens s (partOf s s.cur) 0x02 0 s.cur s.hart.pc (s.hart.getX w.rs1) (s.hart.getX w.rs2)
  split
  next h =>
    rw [h] at post
    exact .setS (post.trans ht.symm) (.of_steady (retireWith_steady _ _) _)

theorem execPark_legal {s : State} (hs : Legal s) (w : SFld) : LegalNext (execPark w s) :=
  scalarWord_legal (KeepsAt.legalAt (.getS (.of_steady (.bind (steady_ensure _ _) fun _ =>
    steady_ite endUserRoutine_steady (steady_onHart (by simp))) s))) hs

theorem execUiret_legal {s : State} (hs : Legal s) (w : SFld) : LegalNext (execUiret w s) :=
  scalarWord_legal ((steady_onHart (by simp)).lawful s) hs

theorem execTspawn_legal {s : State} (hs : Legal s) (w : SFld) : LegalNext (execTspawn w s) := by
  refine scalarWord_legal (Steady.lawful ?_ s) hs
  simp

theorem execTspawnp_legal {s : State} (hs : Legal s) (w : SFld) : LegalNext (execTspawnp w s) := by
  refine scalarWord_legal (Steady.lawful ?_ s) hs
  simp

theorem execTyield_legal {s : State} (hs : Legal s) (w : SFld) : LegalNext (execTyield w s) := by
  refine scalarWord_legal (KeepsAt.legalAt (.getS ?_)) hs
  dsimp only
  split
  · split
    · exact .of_steady (steady_onHart (by simp)) s
    · refine .bind (.of_steady (steady_ensure _ _) s) fun _ t ht => .setS ?_ ?_
      · rw [enterTask_lens, ht]
      · refine .bind (.of_steady (steady_onHart (by simp)) _) fun _ u _ => .getS ?_
        rw [keepsAt_setS, leaveTask_lens]
  · exact .of_steady (steady_onHart (by simp)) s

theorem execTblock_legal {s : State} (hs : Legal s) (w : SFld) : LegalNext (execTblock w s) := by
  refine scalarWord_legal (Steady.lawful ?_ s) hs
  simp

theorem execTunblock_legal {s : State} (hs : Legal s) (w : SFld) : LegalNext (execTunblock w s) := by
  refine scalarWord_legal (Steady.lawful ?_ s) hs
  simp

theorem execTticket_legal {s : State} (hs : Legal s) (w : SFld) : LegalNext (execTticket w s) := by
  refine scalarWord_legal (KeepsAt.legalAt (.getS ?_)) hs
  split
  · exact .of_steady (retireWith_steady _ _) s
  · refine .bind (.of_steady (pastBars_steady _) s) fun _ t ht => ?_
    split
    · exact .of_steady (.bind (remoteAtomic_steady _ _ _ _ _ _ _) fun _ => retireWith_steady _ _) t
    · refine .bind (.of_steady (steady_ensure _ _) t) fun _ u hu => .bind (.of_steady (sequenceWord_steady _) u) fun _ v hv =>
        .setS ?_ ?_
      · rw [State.pushStore_lens, hv, hu, ht]
      · exact .of_steady (retireWith_steady _ _) _

theorem execTcommit_legal {s : State} (hs : Legal s) (w : SFld) : LegalNext (execTcommit w s) := by
  refine scalarWord_legal (KeepsAt.legalAt (.getS (.of_steady (steady_ite (retireWith_steady _ _) ?_) s))) hs
  split
  · exact retireWith_steady _ _
  · refine .bind (sampleSequence_steady _ _) fun v => ?_
    cases v with
    | none => exact stallWith_steady _
    | some v => exact steady_ite (.bind (steady_onHart (by simp)) fun _ => retireWith_steady _ _) (stallWith_steady _)

theorem execTqstat_legal {s : State} (hs : Legal s) (w : SFld) : LegalNext (execTqstat w s) :=
  scalarWord_legal (KeepsAt.legalAt (.getS (.of_steady (retireWith_steady _ _) s))) hs

/-- A word on a domain. -/
theorem domainWord_legal {i : Instr} {d : Hart → Nat × Nat} {out : Nat → Nat → Act Unit} {a : DomRef → Act Unit} {s : State}
    (hout : ∀ st p, Steady (out st p)) (ha : ∀ r, KeepsAt s (a r)) (hs : Legal s) : LegalNext (domainWord i d out a s) := by
  refine scalarWord_legal (KeepsAt.legalAt ?_) hs
  unfold KeepsAt
  dsimp only
  split
  · exact hout 3 0 s
  · exact ha _

theorem execDarrive_legal {s : State} (hs : Legal s) (w : SFld) : LegalNext (execDarrive w s) := by
  refine domainWord_legal (retireDarrive_steady _) (fun r => .getS (.of_steady (.bind (steady_ensure _ _) fun _ => ?_) s)) hs
  exact steady_ite awaitArrival_steady (.bind (arrive_steady _) fun _ => retireDarrive_steady _ _ _)

theorem execDwait_legal {s : State} (hs : Legal s) (w : SFld) : LegalNext (execDwait w s) := by
  refine domainWord_legal (retireDomain_steady _) (fun r => .getS (.of_steady (.bind (issueWait_steady _ _) fun ok => ?_) s)) hs
  exact steady_ite (testPhase_steady _ _ _ _ (retireDomain_steady _)) (retireDomain_steady _ _ _)

theorem execDbar_legal {s : State} (hs : Legal s) (w : SFld) : LegalNext (execDbar w s) := by
  refine domainWord_legal (retireMissed_steady _) (fun r => .getS (.of_steady ?_ s)) hs
  refine steady_ite (waitDbar_steady _ _) (steady_ite ?_ ?_)
  · exact .bind (issueWait_steady _ _) fun ok => steady_ite (waitDbar_steady _ _) (retireDbar_steady _ _ _)
  · refine .bind (steady_ensure _ _) fun _ => steady_ite awaitArrival_steady (.bind (arrive_steady _) fun p => ?_)
    exact steady_ite (.bind (arriveDbar_steady _ _) fun _ => waitDbar_steady _ _) (retireMissed_steady _ _ _)

theorem execDphase_legal {s : State} (hs : Legal s) (w : SFld) : LegalNext (execDphase w s) :=
  domainWord_legal (retireDomain_steady _) (fun r => .of_steady (.bind (descriptorWord_steady _ _) fun _ =>
    steady_ite (retireDomain_steady _ _ _) (retireDomain_steady _ _ _)) s) hs

theorem fenceWord_legal {i : Instr} {w : SFld} {a1 a2 b1 b2 : Bool} {s : State} (hs : Legal s) :
    LegalNext (fenceWord i w a1 a2 b1 b2 s) := by
  refine scalarWord_legal (KeepsAt.legalAt (.bind (.of_steady (layFence_steady _ _ _ _ _) s) fun _ t _ =>
    .getS (.setS ?_ ?_))) hs
  · rw [State.lens_ite, dropRemoteWords_lens, ite_self]
  · exact .of_steady (steady_onHart (by simp)) _

theorem execOrdSv_legal {s : State} (hs : Legal s) (w : SFld) : LegalNext (execOrdSv w s) := fenceWord_legal hs

theorem execOrdVs_legal {s : State} (hs : Legal s) (w : SFld) : LegalNext (execOrdVs w s) := fenceWord_legal hs

theorem execOrdVv_legal {s : State} (hs : Legal s) (w : SFld) : LegalNext (execOrdVv w s) := fenceWord_legal hs

theorem execOrdAll_legal {s : State} (hs : Legal s) (w : SFld) : LegalNext (execOrdAll w s) := fenceWord_legal hs

theorem execCsrAccess_legal {s : State} (hs : Legal s) (o : CsrOp) (imm : Bool) (csr : BitVec 12) (src rd : BitVec 5) :
    LegalNext (execCsrAccess o imm csr src rd s) :=
  scalarWord_legal (KeepsAt.legalAt (.getS (.of_steady (.bind (steady_ensure _ _) fun _ => steady_onHart (by simp)) s))) hs

theorem execVrep_legal {s : State} (hs : Legal s) (w : VrepFld) : LegalNext (execVrep w s) :=
  .of_ite (.of_legal (hs.of_lens (afterStop_lens _ _ _)))
    (runAct_legal (KeepsAt.legalAt (.of_steady (.bind (capture_steady _ _) fun _ => steady_onHart (by simp)) s)) hs)

theorem execPfx_legal {s : State} (hs : Legal s) (w : PfxFld) : LegalNext (execPfx w s) :=
  .of_ite (.of_legal (hs.of_lens (afterStop_lens _ _ _))) (.of_legal (hs.of_lens (State.lens_setHart_self (by simp))))

end Sys2Proof.Machine
end

section
/-! SUPPORT. VL within VLMAX (R21) through a word by its instruction, and through the runs of an agent's position. -/

namespace Sys2Proof.Machine

/-! ## Words by their instructions -/

/-- VL is within VLMAX in the state a word answers, where the instruction has one. -/
def LegalSome (x : Option (Host.Outcome State Fault Refusal)) : Prop := ∀ t, x = some (.next t) → Legal t

theorem LegalSome.none : LegalSome none := fun _ h => nomatch h

theorem LegalSome.some {o : Host.Outcome State Fault Refusal} (h : LegalNext o) : LegalSome (some o) :=
  fun t e => h t (Option.some.inj e)

theorem LegalSome.get {x : Option (Host.Outcome State Fault Refusal)} {o : Host.Outcome State Fault Refusal} (h : LegalSome x)
    (e : x = Option.some o) : LegalNext o := fun t ht => h t (e.trans (congrArg Option.some ht))

theorem bodyExec_legal (i : Instr) {s : State} (hs : Legal s) : LegalSome (bodyExec i s) := by
  cases i with
  | pfx w => exact .some (execPfx_legal hs w)
  | vadd w | vsub w | vrsub w | vmul w | vmulh w | vmulhz w | vmacc w | vnmsac w | vdiv w | vdivz w | vrem w
  | vremz w | vmin w | vminz w | vmax w | vmaxz w | vsadd w | vsaddz w | vssub w | vssubz w | vavg w | vabsd w
  | vand w | vor w | vxor w | vandn w | vsll w | vsrl w | vsra w | vrol w => exact .some (intWord_legal hs)
  | vadc w | vsbc w => exact .some (carryWord_legal hs)
  | vfadd w | vfsub w | vfmul w | vfdiv w | vfmadd w | vfmsub w | vfnmadd w | vfnmsub w | vfmin w | vfmax w
  | vfsgnj w | vfsgnjn w | vfsgnjx w => exact .some (floatWord_legal hs)
  | vfceq w | vfclt w | vfcle w => exact .some (floatCompare_legal hs)
  | vfredsum w => exact .some (execVfredsum_legal hs w)
  | vfredtree w | vfredmin w | vfredmax w => exact .some (floatReduce_legal hs)
  | mxdot w => exact .some (execMxdot_legal hs w)
  | pladd w | plsub w | plmul w => exact .some (planarWord_legal hs)
  | pldot w => exact .some (execPldot_legal hs w)
  | plcmp w => exact .some (execPlcmp_legal hs w)
  | vfsqrt w | vfclass w | vfrec w | vfrsq w | vfexp2 w | vfround w => exact .some (floatUnary_legal hs)
  | vfcvt w => exact .some (execVfcvt_legal hs w)
  | mxpack w => exact .some (execMxpack_legal hs w)
  | mxunpack w => exact .some (execMxunpack_legal hs w)
  | plconv w => exact .some (execPlconv_legal hs w)
  | vceq w | vcne w | vclt w | vcltz w | vcle w | vclez w | vcgt w | vcgtz w => exact .some (compareWord_legal hs)
  | vredsum w | vredmin w | vredminz w | vredmax w | vredmaxz w | vredand w | vredor w | vredxor w =>
    exact .some (reduceWord_legal hs)
  | vslup w | vsldn w => exact .some (slideWord_legal hs)
  | vsl1up w | vsl1dn w => exact .some (slide1Word_legal hs)
  | vgath w => exact .some (execVgath_legal hs w)
  | vmerge w => exact .some (execVmerge_legal hs w)
  | vxput w => exact .some (execVxput_legal hs w)
  | mand w | mor w | mxor w | mandn w | mshl w | mnot w | mmov w => exact .some (maskWord_legal hs)
  | vbcast w => exact .some (execVbcast_legal hs w)
  | vmov w => exact .some (execVmov_legal hs w)
  | vcomp w => exact .some (execVcomp_legal hs w)
  | vexpd w => exact .some (execVexpd_legal hs w)
  | vconf w => exact .some (execVconf_legal hs w)
  | viota w => exact .some (execViota_legal hs w)
  | vidx w => exact .some (execVidx_legal hs w)
  | vwiden w => exact .some (execVwiden_legal hs w)
  | vnarrow w => exact .some (execVnarrow_legal hs w)
  | vsext w | vzext w => exact .some (extendWord_legal hs)
  | vclz w | vctz w | vpopc w | vbrev w => exact .some (unaryWord_legal hs)
  | mvtom w => exact .some (execMvtom_legal hs w)
  | mmtov w => exact .some (execMmtov_legal hs w)
  | vld w => exact .some (execVld_legal hs)
  | vlds w => exact .some (execVlds_legal hs)
  | vldx w => exact .some (execVldx_legal hs)
  | vldseg w => exact .some (execVldseg_legal hs)
  | vldm w => exact .some (execVldm_legal hs)
  | sld w => exact .some (execSld_legal hs)
  | vwait w => exact .some (execVwait_legal hs w)
  | vst w => exact .some (execVst_legal hs w)
  | vsts w => exact .some (execVsts_legal hs w)
  | vstx w | vstxa w => exact .some (indexedStore_legal hs)
  | vstseg w => exact .some (execVstseg_legal hs w)
  | vstm w => exact .some (execVstm_legal hs w)
  | wdecl w => exact .some (execWdecl_legal hs w)
  | wacc w => exact .some (execWacc_legal hs w)
  | wmerge w => exact .some (execWmerge_legal hs w)
  | wdrop w => exact .some (execWdrop_legal hs w)
  | mdetach w => exact .some (execMdetach_legal hs w)
  | mload w => exact .some (execMload_legal hs w)
  | mmac w => exact .some (execMmac_legal hs w)
  | mzero w => exact .some (execMzero_legal hs w)
  | mread w => exact .some (execMread_legal hs w)
  | mwrite w => exact .some (execMwrite_legal hs w)
  | msync w => exact .some (execMsync_legal hs w)
  | rboxt w => exact .some (execRboxt_legal hs w)
  | rtrit w => exact .some (execRtrit_legal hs w)
  | bbovl w => exact .some (execBbovl_legal hs w)
  | txs w => exact .some (texWord_legal hs (txsElem_steady w))
  | txg w => exact .some (texWord_legal hs (txgElem_steady w))
  | txf w => exact .some (texWord_legal (hs.of_lens (State.useFresh_lens s)) (txfElem_steady w s.fresh))
  | txlod w => exact .some (texWord_legal hs (txlodElem_steady w))
  | _ => exact .none

theorem scalarExec_legal (i : Instr) {s : State} (hs : Legal s) : LegalSome (scalarExec i s) := by
  cases i with
  | riscvInstruction op => exact .some (execRiscvInstruction_legal hs op)
  | csrAccess o imm csr src rd => exact .some (execCsrAccess_legal hs o imm csr src rd)
  | lr sz aq rl rs1 rd => exact .some (execLr_legal hs sz aq rl rs1 rd)
  | sc sz aq rl rs2 rs1 rd => exact .some (execSc_legal hs sz aq rl rs2 rs1 rd)
  | amo o sz aq rl rs2 rs1 rd => exact .some (execAmo_legal hs o sz aq rl rs2 rs1 rd)
  | fenceI imm rs1 rd => exact .some (execFenceI_legal hs imm rs1 rd)
  | sfenceVma rs2 rs1 => exact .some (execSfenceVma_legal hs rs2 rs1)
  | wfi => exact .some (execWfi_legal hs)
  | xret fromM => exact .some (execXret_legal hs fromM)
  | vxget w => exact .some (execVxget_legal hs w)
  | vcfg w | vcfgi w => exact .some (configWord_legal hs)
  | mpop w | mfirst w => exact .some (maskScalar_legal hs)
  | wstat w => exact .some (execWstat_legal hs w)
  | mattach w => exact .some (execMattach_legal hs w)
  | tspawn w => exact .some (execTspawn_legal hs w)
  | tspawnp w => exact .some (execTspawnp_legal hs w)
  | tnext w => exact .some (execTnext_legal hs w)
  | tyield w => exact .some (execTyield_legal hs w)
  | tblock w => exact .some (execTblock_legal hs w)
  | tunblock w => exact .some (execTunblock_legal hs w)
  | tticket w => exact .some (execTticket_legal hs w)
  | tcommit w => exact .some (execTcommit_legal hs w)
  | tqstat w => exact .some (execTqstat_legal hs w)
  | darrive w => exact .some (execDarrive_legal hs w)
  | dwait w => exact .some (execDwait_legal hs w)
  | dbar w => exact .some (execDbar_legal hs w)
  | dphase w => exact .some (execDphase_legal hs w)
  | ordSv w => exact .some (execOrdSv_legal hs w)
  | ordVs w => exact .some (execOrdVs_legal hs w)
  | ordVv w => exact .some (execOrdVv_legal hs w)
  | ordAll w => exact .some (execOrdAll_legal hs w)
  | vdrain w => exact .some (execVdrain_legal hs w)
  | sopen w => exact .some (execSopen_legal hs w)
  | savail w => exact .some (execSavail_legal hs w)
  | sres w => exact .some (execSres_legal hs w)
  | sclose w => exact .some (execSclose_legal hs w)
  | lease w => exact .some (execLease_legal hs w)
  | unlease w => exact .some (execUnlease_legal hs w)
  | swait w => exact .some (execSwait_legal hs w)
  | mkick w => exact .some (execMkick_legal hs w)
  | hmsg w => exact .some (execHmsg_legal hs w)
  | park w => exact .some (execPark_legal hs w)
  | uiret w => exact .some (execUiret_legal hs w)
  | vrep w => exact .some (execVrep_legal hs w)
  | _ => exact .none

theorem wordExec_legal (i : Instr) {s : State} (hs : Legal s) : LegalSome (wordExec i s) := by
  unfold wordExec
  split
  · next o h => exact .some ((bodyExec_legal i hs).get h)
  · exact scalarExec_legal i hs

/-! ## Runs of the word at an agent's position -/

theorem execPlankerPass_legal {s : State} (hs : Legal s) : LegalNext (execPlankerPass s) := by
  refine .of_ite (.of_legal hs) ?_
  split
  · next h => exact .of_legal (hs.of_lens (ensureBody_steady.error h))
  · next h => exact .of_legal (hs.of_lens ((afterStop_lens _ _ _).trans (ensureBody_steady.error h)))
  · next t h =>
    have ht : Legal t := hs.of_lens (ensureBody_steady.ok h)
    split
    · next i _ =>
      cases e : bodyExec i t with
      | none => exact .of_legal ht
      | some o => exact (bodyExec_legal i ht).get e
    · exact .of_legal ht

theorem attempt_legal {s : State} (hs : Legal s) : Legal (attempt s) := by
  unfold attempt
  dsimp only
  split
  · next t h =>
    split at h
    · exact execPlankerPass_legal hs t (Option.some.inj h)
    split at h
    · next hf =>
      cases h
      exact hs.of_lens ((afterStop_lens _ _ _).trans (fetchWord_steady.error hf))
    · next hf =>
      have ht := hs.of_lens (fetchWord_steady.ok hf)
      split at h
      · exact wordExec_legal _ ht t h
      · cases h
        exact ht.of_lens (raise_lens _ _ _)
  · exact hs

theorem runVector_legal {s : State} (hs : Legal s) : LegalSome (runVector s) := by
  unfold runVector
  split
  · exact .some (execPlankerPass_legal hs)
  split
  · exact .none
  · next hf =>
    split
    · exact .none
    · exact bodyExec_legal _ (hs.of_lens (fetchWord_steady.ok hf))
    · exact .none

theorem runTo_legal {b : Nat} {s t : State} (hs : Legal s) (h : runTo b s = some t) : Legal t := by
  unfold runTo at h
  split at h
  · next u hu =>
    cases h
    have hu' : Legal u := runVector_legal (s := { s with bound := Option.some b }) hs u hu
    exact hu'
  · cases h

theorem runTo_getD_legal {b : Nat} {s : State} (hs : Legal s) : Legal ((runTo b s).getD s) := by
  cases h : runTo b s with
  | none => exact hs
  | some t => exact runTo_legal hs h

theorem runBounded_legal {b : Nat} {s : State} (hs : Legal s) : Legal (runBounded b s) := by
  unfold runBounded
  dsimp only
  split
  · exact hs
  split
  · exact hs
  · next h =>
    split
    · split
      · exact runTo_getD_legal hs
      · exact hs
    · exact runTo_legal hs h

theorem takeUserAt_legal {b : Nat} {s : State} (hs : Legal s) : Legal (takeUserAt b s) := by
  have taken {t : State} (ht : Legal t) : Legal ((settleReads s.cur 0 t).setHart (settleReads s.cur 0 t).hart.takeDueUi) :=
    ht.of_lens (State.lens_setHart_self (Hart.takeDueUi_lens _))
  unfold takeUserAt
  dsimp only
  split
  · split
    · exact runTo_getD_legal hs
    · exact taken (runTo_getD_legal hs)
  · split
    · exact attempt_legal hs
    · exact taken hs

theorem retestWait_legal {s : State} (hs : Legal s) : Legal (retestWait s) := by
  unfold retestWait
  dsimp only
  split
  · next t h =>
    split at h
    · exact execSwait_legal hs _ t (Option.some.inj h)
    · exact execVwait_legal hs _ t (Option.some.inj h)
    · exact execDwait_legal hs _ t (Option.some.inj h)
    · exact execDbar_legal hs _ t (Option.some.inj h)
    · exact execTcommit_legal hs _ t (Option.some.inj h)
    · exact execTspawn_legal hs _ t (Option.some.inj h)
    · exact execTspawnp_legal hs _ t (Option.some.inj h)
    · cases h
  · exact hs

end Sys2Proof.Machine
end

section
/-! SUPPORT. VL within VLMAX (R21) through the shapes that events share. -/

namespace Sys2Proof.Machine

/-- An event whose state keeps VTYPE and VL of every hart. -/
theorem LegalNext.of_lens {s t : State} (hs : Legal s) (h : t.lens = s.lens) : LegalNext (.next t) := .of_legal (hs.of_lens h)

/-- An event that answers one of two states. -/
theorem LegalNext.next_ite {c : Prop} [Decidable c] {s t u : State} (hs : Legal s) (ht : t.lens = s.lens) (hu : u.lens = s.lens) :
    LegalNext (if c then .next t else .next u) := .of_ite (.of_lens hs ht) (.of_lens hs hu)

/-- A hart is changed without a change of VTYPE or VL. -/
theorem State.modHart_lens_of {s t : State} {k : Nat} {g : Hart → Hart} (ht : t.lens = s.lens) (hg : ∀ h, (g h).lens = h.lens) :
    (t.modHart k g).lens = s.lens := by
  rw [State.lens_modHart, hg, State.hartAt_lens, Function.update_eq_self]
  exact ht

theorem takeMsg_lens {s t : State} {kind : MsgKind} {n : Nat} {m : Msg} (h : takeMsg s kind n = some (m, t)) :
    t.lens = s.lens := by
  unfold takeMsg at h
  split at h
  · cases h
  · split_ifs at h
    cases h
    rfl

theorem takeFabric_lens {s t : State} {op n : Nat} {m : FabMsg} (h : takeFabric s op n = some (m, t)) : t.lens = s.lens := by
  unfold takeFabric at h
  split at h
  · cases h
  · split_ifs at h
    cases h
    rfl

section
variable {s : State} (hs : Legal s)
include hs

/-- The end of a wait: the word's last test, and its result. -/
theorem waitTimeout_legal {h : Nat} {kinds : List WaitKind} {g : State → State} (hg : ∀ t, (g t).lens = t.lens) :
    LegalNext (waitTimeout h kinds g s) :=
  .of_ite (.of_legal (Legal.asAgent (fun t ht => (retestWait_legal ht).of_lens (hg _)) hs)) (.of_legal hs)

theorem onRoutine_legal {m : Nat} {g : Kick → MillRun → State} (hg : ∀ k r, Legal (g k r)) : LegalNext (onRoutine m g s) := by
  unfold onRoutine
  split
  · exact .of_legal (hg _ _)
  · exact .of_legal hs

theorem collEvent_legal {id m : Nat} : LegalNext (collEvent id m s) := by
  refine onRoutine_legal hs fun k r => ?_
  split
  · exact hs.of_lens (beginColl_lens _ _ _)
  · exact hs

/-- An event at a line's home. -/
theorem atHome_legal {kind : MsgKind} {n : Nat} {g : Msg → State → Option State}
    (hg : ∀ m t u, g m t = some u → u.lens = t.lens) : LegalNext (atHome kind n g s) := by
  unfold atHome
  split
  · exact .of_legal hs
  · next m t h =>
    have ht := takeMsg_lens h
    split
    · next h' => exact .of_lens hs ((staleDrop_lens _ _ h').trans ht)
    · split
      · exact .of_legal hs
      · next m' _ =>
        cases e : g m' t with
        | none => exact .of_legal hs
        | some u => exact .of_lens hs ((hg _ _ _ e).trans ht)

/-- A notice at a line's home. -/
theorem noticeHome_legal {kind : MsgKind} {n : Nat} {g : Msg → State → State} (hg : ∀ m t, (g m t).lens = t.lens) :
    LegalNext (noticeHome kind n g s) := by
  unfold noticeHome
  split
  · exact .of_legal hs
  · next h =>
    have ht := takeMsg_lens h
    split
    · next h' => exact .of_lens hs ((staleDrop_lens _ _ h').trans ht)
    · exact .of_lens hs ((hg _ _).trans ht)

/-- An event at a sharer. -/
theorem atSharer_legal {kind : MsgKind} {n : Nat} {g : Msg → State → State} (hg : ∀ m t, (g m t).lens = t.lens) :
    LegalNext (atSharer kind n g s) := by
  unfold atSharer
  split
  · exact .of_legal hs
  · next h => exact .of_lens hs ((hg _ _).trans (takeMsg_lens h))

/-- A request to the management unit. -/
theorem manage_legal {op : Nat} {f : List Byte} {g : Request → State → Option (State × List Byte)}
    (hg : ∀ r t u b, g r t = some (u, b) → Legal t → Legal u) : LegalNext (manage op f g s) := by
  refine .of_ite ?_ (.of_legal hs)
  have ht : Legal (countSeq s (requestOf f)) := hs.of_lens (countSeq_lens _ _)
  split
  · next h => exact .of_lens (hg _ _ _ _ h ht) (reply_lens _ _ _ _ _)
  · exact .of_lens ht (deny_lens _ _ _)

theorem manageAt_legal {op : Nat} {f : List Byte} {off : Nat} {g : Request → State → Option (State × List Byte)}
    (hg : ∀ r t u b, g r t = some (u, b) → Legal t → Legal u) : LegalNext (manageAt op f off g s) :=
  .of_ite (manage_legal hs hg) (.of_legal hs)

/-- A write of a device register. -/
theorem writeReg_legal {b : Block} {off : Nat} {w : RegWrite} : LegalNext (.next ((writeReg b off w s).getD s)) := by
  cases h : writeReg b off w s with
  | none => exact .of_legal hs
  | some t => exact .of_lens hs (writeReg_lens h)

theorem quiesceWrite_legal {c : Nat} {g : State → State} (hg : (g s).lens = s.lens) : LegalNext (quiesceWrite c g s) :=
  .next_ite hs hg rfl

/-- A request that another module sends. -/
theorem serveFabric_legal {op n : Nat} {g : FabMsg → Nat → Nat → State → State} (hg : ∀ m q a t, (g m q a t).lens = t.lens) :
    LegalNext (serveFabric op n g s) := by
  unfold serveFabric
  split
  · exact .of_legal hs
  · next h =>
    have ht := takeFabric_lens h
    split
    · exact .of_lens hs ((refuseFabric_lens _ _).trans ht)
    · split
      · exact .of_legal hs
      · refine .of_ite (.of_legal hs) ?_
        split
        · exact .of_lens hs ((refuseFabric_lens _ _).trans ((farError_lens _ _ _).trans ht))
        · exact .of_lens hs ((hg _ _ _ _).trans ht)

/-- A response of another module. -/
theorem response_legal {op n : Nat} {g : FabMsg → Remote → State → State} (hg : ∀ m r t, (g m r t).lens = t.lens) :
    LegalNext (response op n g s) := by
  unfold response
  split
  · exact .of_legal hs
  · next h =>
    have ht := takeFabric_lens h
    split
    · exact .of_lens hs ((hg _ _ _).trans ht)
    · exact .of_lens hs ht

end

end Sys2Proof.Machine
end

section
/-! SUPPORT. VL within VLMAX (R21) through the events that have a form of their own. -/

namespace Sys2Proof.Machine

theorem execLeaseExpiry_legal {s : State} (hs : Legal s) (h : Nat) : LegalNext (execLeaseExpiry h s) := by
  unfold execLeaseExpiry
  extract_lets late
  split
  · exact .of_lens hs (endLease_lens _ _ _)
  · exact .of_legal hs

theorem execPreemptHalt_legal {s : State} (hs : Legal s) (h b : Nat) : LegalNext (execPreemptHalt h b s) := by
  have ht : Legal (asAgent h (runBounded b) s) := Legal.asAgent (fun _ => runBounded_legal) hs
  refine .of_ite (.of_legal hs) (.of_ite (.of_ite ?_ (.of_ite ?_ (.of_ite ?_ ?_))) (.of_ite ?_ (.of_ite ?_ (.of_ite ?_ ?_))))
  · exact .of_lens hs (by simp)
  · exact .of_lens hs (finishSave_lens _ _)
  · exact .of_lens hs (saveContext_lens _ _)
  · exact .of_legal hs
  · exact .of_legal hs
  · exact .of_legal ht
  · exact .next_ite ht ((saveContext_lens _ _).trans (haltHart_lens _ _ _)) rfl
  · exact .of_lens ht (heldHalt_lens _ _)

theorem restoreContext_legal {h : Nat} {s t : State} (hs : Legal s) (ht : restoreContext h s = .ok t) : Legal t := by
  unfold restoreContext at ht
  split at ht
  · cases ht
  split at ht
  · cases ht
  split at ht
  · cases ht
  · cases ht
    exact takeContext_legal _ _ _ hs

theorem execRestoreComplete_legal {s : State} (hs : Legal s) (h : Nat) : LegalNext (execRestoreComplete h s) := by
  unfold execRestoreComplete
  extract_lets finish a n
  have done (rst : Nat) (t : State) : (finish rst t).lens = t.lens := by simp [finish]
  refine .of_ite (.of_legal hs) (.of_ite (.of_lens hs (askParts_lens _ _ _ _)) ?_)
  split
  · next h => exact .of_lens (restoreContext_legal hs h) (done _ _)
  · exact .of_lens hs (done _ _)
  · exact .of_lens hs (done _ _)

theorem execShedGraceExpiry_legal {s : State} (hs : Legal s) (c : Nat) : LegalNext (execShedGraceExpiry c s) :=
  .next_ite hs (State.mapHarts_lens _ _ _ (by simp)) rfl

theorem execRemoteRequestAbandon_legal {s : State} (hs : Legal s) (tag : Nat) : LegalNext (execRemoteRequestAbandon tag s) := by
  unfold execRemoteRequestAbandon
  split
  · exact .of_legal hs
  · exact .of_lens hs (by simp)

theorem execUnresponsiveAgentTimeout_legal {s : State} (hs : Legal s) (a : Nat) :
    LegalNext (execUnresponsiveAgentTimeout a s) := by
  unfold execUnresponsiveAgentTimeout
  extract_lets cs es t u c1 e1
  refine .of_lens hs ?_
  rw [State.lens_mk, State.lens_fold, foldl_lens _ fun _ _ => unresponsive_lens _ _ _,
    foldl_lens _ fun _ _ => unresponsive_lens _ _ _]

theorem execCollectiveTimeout_legal {s : State} (hs : Legal s) (m : Nat) : LegalNext (execCollectiveTimeout m s) := by
  refine onRoutine_legal hs fun k r => ?_
  split
  · split
    · exact hs.of_lens (finishRoutine_lens _ _ _ _)
    · exact hs
  · exact hs

theorem execDomainCompletion_legal {s : State} (hs : Legal s) (part id : Nat) : LegalNext (execDomainCompletion part id s) := by
  refine .of_ite ?_ (.of_legal hs)
  split
  · next h => exact .of_lens hs ((completeDomain_steady _ _).ok h)
  · next h => exact .of_lens hs ((completeDomain_steady _ _).error h)

theorem execTaskDelivery_legal {s : State} (hs : Legal s) (h : Nat) : LegalNext (execTaskDelivery h s) := by
  unfold execTaskDelivery
  dsimp only
  split
  · exact .of_legal hs
  · exact .of_lens hs (State.modHart_lens_of (State.modDie_lens _ _ _) fun x => Hart.deliver_lens x _)

theorem execTaskRequest_legal {s : State} (hs : Legal s) (h : Nat) : LegalNext (execTaskRequest h s) := by
  refine .of_ite ?_ (.of_legal hs)
  split
  · exact .of_lens hs (by simp)
  · exact .of_lens hs (by simp)

theorem execTaskReleasePerformed_legal {s : State} (hs : Legal s) (h : Nat) : LegalNext (execTaskReleasePerformed h s) := by
  unfold execTaskReleasePerformed
  split
  · exact .of_legal hs
  · exact .of_lens hs (by simp)

theorem execIdlePlacement_legal {s : State} (hs : Legal s) (d : Nat) : LegalNext (execIdlePlacement d s) := by
  refine .of_ite ?_ (.of_legal hs)
  dsimp only
  split
  · exact .of_lens hs (by simp)
  · exact .of_lens hs (reportChannels_lens _ _)

theorem afterFill_lens (h q : Nat) (r : EStateM.Result Stop State Unit) : (afterFill h q r).lens = lensOf r := by
  unfold afterFill
  split
  · rfl
  · simp
  · next c u a s =>
    rw [settleReads_lens, lensOf_error]
    exact State.modHart_lens_of (State.lens_asCur (errorRecord_lens u a { s with cur := h }))
      fun x => Hart.faultStream_lens x _ _ _
  · rfl

theorem execStreamFill_legal {s : State} (hs : Legal s) (h q : Nat) : LegalNext (execStreamFill h q s) := by
  unfold execStreamFill
  split
  · exact .of_legal hs
  · refine .next_ite hs (State.modHart_lens_of ?_ fun x => Hart.notifyStream_lens x q) rfl
    exact (afterFill_lens _ _ _).trans (fillRun_steady _ _ _ _)

theorem execInterruptTake_legal {s : State} (hs : Legal s) (h b : Nat) : LegalNext (execInterruptTake h b s) := by
  refine .of_ite (.of_legal hs) ?_
  split
  · exact .of_legal hs
  · refine .of_legal (Legal.asAgent (fun t ht => ?_) hs)
    refine (runBounded_legal (b := b) ht).of_lens ?_
    have e := (settleReads_lens h 0 (leaveWfi (runBounded b t))).trans (leaveWfi_lens _)
    exact State.lens_setHart_same e ((Hart.enterTrap_lens _ _ _ _ _).trans (hart_lens_of e))

theorem execUserInterruptTake_legal {s : State} (hs : Legal s) (h b : Nat) : LegalNext (execUserInterruptTake h b s) :=
  .of_ite (.of_legal hs) (.of_legal (Legal.asAgent (fun _ => takeUserAt_legal) hs))

theorem execPackageStart_legal {s : State} (hs : Legal s) (trained broken : Bool) (excl : Nat) :
    LegalNext (execPackageStart trained broken excl s) :=
  .of_ite (.of_legal hs) (.of_ite (.of_legal (notStarted_legal _ _ _)) (.of_legal (startPackage_legal _ _ _ _ _)))

theorem execMillinerRoutineStart_legal {s : State} (hs : Legal s) (m : Nat) : LegalNext (execMillinerRoutineStart m s) := by
  unfold execMillinerRoutineStart
  extract_lets t x
  have ht : t.lens = s.lens := closeKicks_lens _ _ _
  refine .of_ite (.of_lens hs ht) ?_
  split
  · exact .of_lens hs ((selectRoutine_lens _ _ _).trans ht)
  · exact .of_lens hs ((selectRoutine_lens _ _ _).trans ((State.setMillAt_lens _ _ _).trans ht))
  · exact .of_lens hs ht

theorem execTensorCopy_legal {s : State} (hs : Legal s) (m n : Nat) : LegalNext (execTensorCopy m n s) := by
  refine onRoutine_legal hs fun k r => ?_
  split
  · split
    · exact hs.of_lens (beginCopy_lens _ _ _)
    · exact hs
  · exact hs.of_lens (copyRun_lens _ _ _ _ _ _ _)
  · exact hs

theorem execMailboxOnly_legal {s : State} (hs : Legal s) (m : Nat) : LegalNext (execMailboxOnly m s) := by
  refine onRoutine_legal hs fun k r => ?_
  split
  · exact hs.of_lens (endRoutine_lens _ _ _ _)
  · exact hs

theorem execPageMigration_legal {s : State} (hs : Legal s) (m : Nat) : LegalNext (execPageMigration m s) := by
  refine onRoutine_legal hs fun k r => ?_
  split
  · exact hs.of_lens (beginMigration_lens _ _ _)
  · exact hs

theorem execMigrationRegionCopy_legal {s : State} (hs : Legal s) (m : Nat) : LegalNext (execMigrationRegionCopy m s) := by
  refine onRoutine_legal hs fun k r => ?_
  split
  · split
    · exact hs.of_lens (finishRoutine_lens _ _ _ _)
    · exact hs.of_lens (copyRegion_lens _ _ _ _ _ _)
  · exact hs

theorem execCollectiveExchange_legal {s : State} (hs : Legal s) (m : Nat) : LegalNext (execCollectiveExchange m s) := by
  refine onRoutine_legal hs fun k r => ?_
  split
  · exact hs.of_lens (exchange_lens _ _ _ _)
  · exact hs

theorem execUserRoutine_legal {s : State} (hs : Legal s) (m : Nat) : LegalNext (execUserRoutine m s) := by
  refine onRoutine_legal hs fun k r => ?_
  split
  · split
    · exact beginUser_legal _ _ _ hs
    · exact hs
  · exact hs

theorem execRegisterWrite_legal {s : State} (hs : Legal s) (a n v : Nat) : LegalNext (execRegisterWrite a n v s) := by
  unfold execRegisterWrite
  split
  · exact .of_ite (writeReg_legal hs) (.of_legal hs)
  · exact .of_legal hs

theorem execDomainArrival_legal {s : State} (hs : Legal s) (h : Nat) : LegalNext (execDomainArrival h s) := by
  unfold execDomainArrival
  extract_lets t back
  have ht : Legal t := hs
  have there {o : Host.Outcome State Fault Refusal} (ho : LegalNext o) : LegalNext (back o) := by
    cases o with
    | next u =>
      have hu : Legal u := ho u rfl
      exact .of_legal (show Legal { u with cur := s.cur } from hu)
    | _ => exact fun _ e => nomatch e
  refine .of_ite ?_ (.of_legal hs)
  split
  · exact there (runAct_legal (KeepsAt.legalAt (.of_steady (.bind (arrive_steady _) fun _ => retireDarrive_steady _ _ _) t)) ht)
  · exact there (runAct_legal (KeepsAt.legalAt (.of_steady (.bind (arrive_steady _) fun _ =>
      steady_ite (arriveDbar_steady _ _) (retireMissed_steady _ _ _)) t)) ht)
  · exact .of_legal hs

theorem execHomeRd_legal {s : State} (hs : Legal s) (n : Nat) : LegalNext (execHomeRd n s) := by
  refine atHome_legal hs fun m t u h => ?_
  split_ifs at h
  cases h
  exact answerData_lens _ _

theorem execHomeWr_legal {s : State} (hs : Legal s) (n : Nat) : LegalNext (execHomeWr n s) :=
  atHome_legal hs fun m t _ h => serveStore_lens m t h

theorem execHomeAmo_legal {s : State} (hs : Legal s) (n : Nat) : LegalNext (execHomeAmo n s) :=
  atHome_legal hs fun m t _ h => serveStore_lens m t h

theorem execHomeGets_legal {s : State} (hs : Legal s) (n : Nat) : LegalNext (execHomeGets n s) :=
  atHome_legal hs fun m t _ h => serveGetS_lens m t h

theorem execTelemetryFrame_legal {s : State} (hs : Legal s) (f : BitVec 128) : LegalNext (execTelemetryFrame f s) :=
  .next_ite hs (acceptFrame_lens _ _) rfl

theorem execPartBuild_legal {s : State} (hs : Legal s) (dst src : Nat) (rest : Bytes) (p cl sc md chr noc : Nat)
    (granules mmio : Nats) : LegalNext (execPartBuild dst src rest p cl sc md chr noc granules mmio s) := by
  refine manage_legal hs fun r t u b h ht => ?_
  dsimp only at h
  split_ifs at h
  cases h
  exact ht.of_lens (by simp)

theorem execMgmtOpen_legal {s : State} (hs : Legal s) (dst src : Nat) (rest : Bytes) :
    LegalNext (execMgmtOpen dst src rest s) :=
  .of_ite (.of_legal hs) (.of_ite (.of_lens hs (deny_lens _ _ _)) (.of_lens hs (reply_lens _ _ _ _ _)))

theorem execVectorEntryStart_legal {s : State} (hs : Legal s) (h : Nat) : LegalNext (execVectorEntryStart h s) :=
  .of_ite (.of_ite (.of_lens hs (by simp)) (.of_legal hs)) (.of_lens hs (by simp))

theorem execVectorEntryRetire_legal {s : State} (hs : Legal s) (h : Nat) : LegalNext (execVectorEntryRetire h s) := by
  refine .of_lens hs (State.modHart_lens_of rfl fun x => ?_)
  repeat' split
  all_goals rfl

theorem execIntSsip_legal {s : State} (hs : Legal s) (h : Nat) : LegalNext (execIntSsip h s) :=
  .next_ite hs (setSsip_lens _ _) rfl

theorem execWaiterUpdate_legal {s : State} (hs : Legal s) (h : Nat) : LegalNext (execWaiterUpdate h s) :=
  .of_ite (.of_legal (Legal.asAgent (fun _ => retestWait_legal) hs)) (.of_legal hs)

theorem execRemoteSampleTick_legal {s : State} (hs : Legal s) (h : Nat) : LegalNext (execRemoteSampleTick h s) := by
  unfold execRemoteSampleTick
  extract_lets t u
  have ht : t.lens = s.lens := foldl_lens _ (sampleWatch_lens h) _ _
  have hu : Legal u := hs.of_lens (State.modHart_lens_of ht fun x => rfl)
  exact .of_ite (.of_legal (Legal.asAgent (fun _ => retestWait_legal) hu)) (.of_legal hu)

theorem execHomeEvict_legal {s : State} (hs : Legal s) (y a n : Nat) : LegalNext (execHomeEvict y a n s) :=
  .of_ite (noticeHome_legal hs fun _ _ => setDir_lens _ _ _) (.of_legal hs)

theorem execHomeLreq_legal {s : State} (hs : Legal s) (n : Nat) : LegalNext (execHomeLreq n s) := by
  refine atHome_legal hs fun m t u h => ?_
  split_ifs at h
  · cases h
    exact State.enqueue_lens _ _
  · cases h
    exact grantLease_lens _ _

theorem execHartLgrant_legal {s : State} (hs : Legal s) (n : Nat) : LegalNext (execHartLgrant n s) :=
  atSharer_legal hs fun _ _ => asAgent_lens _ _ _ (takeGrant_lens _)

theorem execBarrierBreak_legal {s : State} (hs : Legal s) (part id : Nat) : LegalNext (execBarrierBreak part id s) := by
  unfold execBarrierBreak
  split
  · exact .of_legal hs
  · exact .next_ite hs (breakDomain_lens _ _ _) ((breakDomain_lens _ _ _).trans (strikeWord_lens _ _))

theorem execIslandStart_legal {s : State} (hs : Legal s) : LegalNext (execIslandStart s) := by
  unfold execIslandStart
  split
  · exact .of_legal hs
  · exact .of_lens hs (by simp)

theorem execClqErrClear_legal {s : State} (hs : Legal s) (c : Nat) : LegalNext (execClqErrClear c s) :=
  quiesceWrite_legal hs (State.modCluster_lens _ _ _)

theorem execRailTransitionDone_legal {s : State} (hs : Legal s) (c : Nat) : LegalNext (execRailTransitionDone c s) := by
  unfold execRailTransitionDone
  split
  · exact .of_lens (moveRails_legal _ _ hs) (State.modCluster_lens _ _ _)
  · exact .of_legal hs

theorem execClusterWakeComplete_legal {s : State} (hs : Legal s) (c : Nat) : LegalNext (execClusterWakeComplete c s) :=
  .of_ite (.of_legal (wakeCluster_legal _ hs)) (.of_legal hs)

theorem execAgentDeadComplete_legal {s : State} (hs : Legal s) (die : Nat) : LegalNext (execAgentDeadComplete die s) := by
  unfold execAgentDeadComplete
  split
  · exact .of_legal hs
  · exact .of_ite (.of_legal hs) (.of_lens (declareDead_legal _ hs) (State.modDie_lens _ _ _))

theorem execChrFlitReceive_legal {s : State} (hs : Legal s) (p fixed : Nat) (lost : Bool) (f : Bytes) :
    LegalNext (execChrFlitReceive p fixed lost f s) := by
  refine .of_ite (.of_legal hs) (.of_ite (.of_lens hs ?_) (.of_ite (.of_lens hs ?_) (.of_ite (.of_lens hs ?_) (.next_ite hs ?_ ?_))))
  all_goals simp

theorem execChrAmo_legal {s : State} (hs : Legal s) (n : Nat) : LegalNext (execChrAmo n s) := by
  refine serveFabric_legal hs fun m q a t => ?_
  split
  · exact refuseFabric_lens _ _
  split
  · exact refuseFabric_lens _ _
  split
  · exact farStore_lens _ _ _ _
  · simp

theorem execIdent_legal {s : State} (hs : Legal s) (dst src : Nat) (rest : Bytes) (off : Nat) :
    LegalNext (execIdent dst src rest off s) := by
  refine manageAt_legal hs fun r t u b h ht => ?_
  cases h
  exact ht

theorem execAttest_legal {s : State} (hs : Legal s) (dst src : Nat) (rest : Bytes) (p nonce : Nat) :
    LegalNext (execAttest dst src rest p nonce s) := by
  refine manage_legal hs fun r t u b h ht => ?_
  dsimp only at h
  split_ifs at h
  cases h
  exact ht

theorem execPartScrub_legal {s : State} (hs : Legal s) (dst src : Nat) (rest : Bytes) (p : Nat) :
    LegalNext (execPartScrub dst src rest p s) := by
  refine manage_legal hs fun r t u b h ht => ?_
  split_ifs at h
  cases h
  exact scrubPart_legal _ ht

theorem execPartJoin_legal {s : State} (hs : Legal s) (dst src : Nat) (rest : Bytes) (p mod q : Nat) :
    LegalNext (execPartJoin dst src rest p mod q s) := by
  refine manage_legal hs fun r t u b h ht => ?_
  dsimp only at h
  split_ifs at h
  cases h
  exact ht.of_lens (State.setPartAt_lens _ _ _)

theorem execSetFab_legal {s : State} (hs : Legal s) (dst src : Nat) (rest : Bytes) (m memb : Nat) :
    LegalNext (execSetFab dst src rest m memb s) := by
  refine manage_legal hs fun r t u b h ht => ?_
  split_ifs at h
  cases h
  exact ht

theorem execFwStage_legal {s : State} (hs : Legal s) (dst src : Nat) (rest : Bytes) (kind off : Nat) (data : Bytes) :
    LegalNext (execFwStage dst src rest kind off data s) := by
  refine manageAt_legal hs fun r t u b h ht => ?_
  dsimp only at h
  split_ifs at h
  cases h
  exact ht.of_lens (setFirmware_lens _ _ _)

theorem execFwCommit_legal {s : State} (hs : Legal s) (dst src : Nat) (rest : Bytes) (kind : Nat) :
    LegalNext (execFwCommit dst src rest kind s) := by
  refine manage_legal hs fun r t u b h ht => ?_
  dsimp only at h
  split_ifs at h
  cases h
  exact ht.of_lens (setFirmware_lens _ _ _)

theorem execMgmtReset_legal {s : State} (hs : Legal s) (dst src : Nat) (rest : Bytes) (cold : Bool) (rebuild : Nats) :
    LegalNext (execMgmtReset dst src rest cold rebuild s) := by
  refine manage_legal hs fun r t u b h ht => ?_
  cases h
  exact ht

theorem execLogRead_legal {s : State} (hs : Legal s) (dst src : Nat) (rest : Bytes) (off : Nat) :
    LegalNext (execLogRead dst src rest off s) := by
  refine manageAt_legal hs fun r t u b h ht => ?_
  cases h
  exact ht

theorem execTelemRead_legal {s : State} (hs : Legal s) (dst src : Nat) (rest : Bytes) (off : Nat) :
    LegalNext (execTelemRead dst src rest off s) := by
  refine manageAt_legal hs fun r t u b h ht => ?_
  cases h
  exact ht

theorem execRecover_legal {s : State} (hs : Legal s) (dst src : Nat) (rest : Bytes) (kind off : Nat) (last : Bool)
    (data : Bytes) : LegalNext (execRecover dst src rest kind off last data s) := by
  refine manageAt_legal hs fun r t u b h ht => ?_
  dsimp only at h
  split_ifs at h
  · cases h
    exact ht
  · cases h
    exact ht.of_lens rfl

theorem execMigRelComplete_legal {s : State} (hs : Legal s) (die : Nat) : LegalNext (execMigRelComplete die s) := by
  unfold execMigRelComplete
  split
  · exact .of_legal hs
  · exact .of_lens hs (by simp)

theorem execPowerLoss_legal (s : State) : LegalNext (execPowerLoss s) := .of_legal (legal_init rfl)

end Sys2Proof.Machine
end

section
/-! SUPPORT. O7: every step keeps VL within VLMAX (R19-R21). -/

namespace Sys2Proof.Machine

/-! ## Instructions and events -/

/-- An instruction that has a word answers what the word does. -/
theorem exec_legal_of_word {i : Instr} {s : State} (hs : Legal s) (h : wordExec i s = some (exec i s)) : LegalNext (exec i s) :=
  (wordExec_legal i hs).get h

theorem exec_legal (i : Instr) {s : State} (hs : Legal s) : LegalNext (exec i s) := by
  cases i with
  | leaseExpiry h => exact execLeaseExpiry_legal hs h
  | preemptHalt h b => exact execPreemptHalt_legal hs h b
  | restoreComplete h => exact execRestoreComplete_legal hs h
  | shedGraceExpiry c => exact execShedGraceExpiry_legal hs c
  | remoteRequestAbandon tag => exact execRemoteRequestAbandon_legal hs tag
  | unresponsiveAgentTimeout a => exact execUnresponsiveAgentTimeout_legal hs a
  | collectiveTimeout m => exact execCollectiveTimeout_legal hs m
  | domainCompletion part id => exact execDomainCompletion_legal hs part id
  | taskDelivery h => exact execTaskDelivery_legal hs h
  | taskRequest h => exact execTaskRequest_legal hs h
  | taskReleasePerformed h => exact execTaskReleasePerformed_legal hs h
  | idlePlacement d => exact execIdlePlacement_legal hs d
  | streamFill h q => exact execStreamFill_legal hs h q
  | interruptTake h b => exact execInterruptTake_legal hs h b
  | userInterruptTake h b => exact execUserInterruptTake_legal hs h b
  | packageStart trained broken excl => exact execPackageStart_legal hs trained broken excl
  | millinerRoutineStart m => exact execMillinerRoutineStart_legal hs m
  | tensorCopy m n => exact execTensorCopy_legal hs m n
  | mailboxOnly m => exact execMailboxOnly_legal hs m
  | pageMigration m => exact execPageMigration_legal hs m
  | migrationRegionCopy m => exact execMigrationRegionCopy_legal hs m
  | collectiveExchange m => exact execCollectiveExchange_legal hs m
  | userRoutine m => exact execUserRoutine_legal hs m
  | registerWrite a n v => exact execRegisterWrite_legal hs a n v
  | domainArrival h => exact execDomainArrival_legal hs h
  | homeRd n => exact execHomeRd_legal hs n
  | homeWr n => exact execHomeWr_legal hs n
  | homeAmo n => exact execHomeAmo_legal hs n
  | homeGets n => exact execHomeGets_legal hs n
  | telemetryFrame f => exact execTelemetryFrame_legal hs f
  | partBuild dst src rest p cl sc md chr noc granules mmio =>
    exact execPartBuild_legal hs dst src rest p cl sc md chr noc granules mmio
  | mgmtOpen dst src rest => exact execMgmtOpen_legal hs dst src rest
  | vectorEntryStart h => exact execVectorEntryStart_legal hs h
  | vectorEntryRetire h => exact execVectorEntryRetire_legal hs h
  | intSsip h => exact execIntSsip_legal hs h
  | waiterUpdate h => exact execWaiterUpdate_legal hs h
  | remoteSampleTick h => exact execRemoteSampleTick_legal hs h
  | homeEvict y a n => exact execHomeEvict_legal hs y a n
  | homeLreq n => exact execHomeLreq_legal hs n
  | hartLgrant n => exact execHartLgrant_legal hs n
  | barrierBreak part id => exact execBarrierBreak_legal hs part id
  | islandStart => exact execIslandStart_legal hs
  | clqErrClear c => exact execClqErrClear_legal hs c
  | railTransitionDone c => exact execRailTransitionDone_legal hs c
  | clusterWakeComplete c => exact execClusterWakeComplete_legal hs c
  | agentDeadComplete die => exact execAgentDeadComplete_legal hs die
  | chrFlitReceive p fixed lost f => exact execChrFlitReceive_legal hs p fixed lost f
  | chrAmo n => exact execChrAmo_legal hs n
  | ident dst src rest off => exact execIdent_legal hs dst src rest off
  | attest dst src rest p nonce => exact execAttest_legal hs dst src rest p nonce
  | partScrub dst src rest p => exact execPartScrub_legal hs dst src rest p
  | partJoin dst src rest p mod q => exact execPartJoin_legal hs dst src rest p mod q
  | setFab dst src rest m memb => exact execSetFab_legal hs dst src rest m memb
  | fwStage dst src rest kind off data => exact execFwStage_legal hs dst src rest kind off data
  | fwCommit dst src rest kind => exact execFwCommit_legal hs dst src rest kind
  | mgmtReset dst src rest cold rebuild => exact execMgmtReset_legal hs dst src rest cold rebuild
  | logRead dst src rest off => exact execLogRead_legal hs dst src rest off
  | telemRead dst src rest off => exact execTelemRead_legal hs dst src rest off
  | recover dst src rest kind off last data => exact execRecover_legal hs dst src rest kind off last data
  | migRelComplete die => exact execMigRelComplete_legal hs die
  | powerLoss => exact execPowerLoss_legal s
  | swaitTimeout h | vwaitTimeout h | dwaitTimeout h | tcommitTimeout h | tspawnWaitTimeout h =>
    exact waitTimeout_legal hs (by simp)
  | allReduce m | reduceScatter m | allGather m => exact collEvent_legal hs
  | homeUack n | homeInvack n | homeLend n => exact noticeHome_legal hs (by simp)
  | sharerUpd n | sharerCmt n | writerWack n | requesterData n | sharerInv n => exact atSharer_legal hs (by simp)
  | chrRd n | chrWr n | chrLr n | chrSc n => exact serveFabric_legal hs (by simp)
  | chrData n | chrWack n | chrAmoresp n => exact response_legal hs (by simp)
  | fringCtlWrite p v | domCtlWrite p v | tqRingWrite p die level v | tseqCtlWrite p v | fbrCtlWrite p v
  | agentDead die a | migRel die pa => exact .of_ite (writeReg_legal hs) (.of_legal hs)
  | cold | warmreq => exact writeReg_legal hs
  | clqReq c | clqForce c | clqCancel c | retSave c base | clkGate c b | railCtl c mode | clusterWake c =>
    exact quiesceWrite_legal hs (by simp)
  | reservationTimeout h | dieLinkRetrain l | ringDelivery c | preempt h | restore h | hartCtlWake h
  | imsicSeteipnum h sFile id | millinerKick m hart block scope | mlAbort m | hartWresWrite h v | clMrgWrite c v
  | clTregWrite c core v | l2pinWrite p die base len | telemetryLinkLoss | islandRetention isl
  | dieLinkReplay l good | dieLinkRetrainDone l good | bootTimeout | scCtlWake n | chrRetrain p
  | chrRetrainDone p good => exact .next_ite hs (by simp) rfl
  | retSaveComplete c => exact .of_ite (.of_lens hs (by simp)) (.next_ite hs (by simp) rfl)
  | timecmpMatch h sLevel | fclr p | bootOk | routeChangeRelease | pcieInboundWrite rid a data
  | pcieInboundRead rid a n tag | pcieMsi rid a id | pcieCompletion who v => exact .of_lens hs (by simp)
  | plankerPass => exact execPlankerPass_legal hs
  | _ => exact exec_legal_of_word hs rfl

/-! ## What a step does -/

/-- The state a step runs from, or answers, has VL within VLMAX. -/
def LegalTodo : Todo → Prop
  | .run _ t => Legal t
  | .done t => Legal t
  | .halt _ => True

theorem LegalTodo.of_ite {c : Prop} [Decidable c] {a b : Todo} (ha : LegalTodo a) (hb : LegalTodo b) :
    LegalTodo (if c then a else b) := by
  split
  · exact ha
  · exact hb

theorem turn_legal {s : State} (hs : Legal s) : LegalTodo (turn s) := by
  refine .of_ite hs (.of_ite hs (.of_ite hs (.of_ite hs ?_)))
  split
  · next h => exact hs.of_lens ((afterStop_lens _ _ _).trans (fetchWord_steady.error h))
  · next h =>
    have ht := hs.of_lens (fetchWord_steady.ok h)
    split
    · exact ht
    · exact ht.of_lens (raise_lens _ _ _)

theorem coreTurn_legal {c : Nat} {s : State} (hs : Legal s) : LegalTodo (coreTurn c s) := by
  unfold coreTurn
  dsimp only
  split
  · exact turn_legal hs
  · exact hs

theorem move_legal (m : Move) {s : State} (hs : Legal s) : LegalTodo (move m s) := by
  cases m with
  | agent h => exact .of_ite (turn_legal (s := { s with cur := h }) hs) trivial
  | event i => exact .of_ite hs hs
  | time c t => exact hs
  | slow i k c t => exact hs
  | stepwise b => exact hs.of_lens (setStepwise_lens _ _)
  | strike w => exact hs.of_lens (strikeStored_lens _ _)
  | strikeIn u w => exact hs.of_lens (strikeIn_lens _ _ _)
  | strikeReg h r k => exact .of_ite (hs.of_lens (strikeReg_lens _ _ _ _)) hs
  | correct d => exact hs.of_lens (countCorrected_lens _ _)
  | loseTask die order => exact hs.of_lens (loseTask_lens _ _ _)
  | displace region => exact hs.of_lens (displace_lens _ _)
  | drop y a n => exact hs.of_lens (dropSpan_lens _ _ _ _)
  | core c => exact .of_ite (coreTurn_legal hs) hs
  | fetch h va => exact .of_ite (hs.of_lens (fetchAhead_lens _ _ _)) hs

theorem stoppedMove_legal (m : Move) {s : State} (hs : Legal s) : LegalTodo (stoppedMove m s) := by
  cases m with
  | event i => exact .of_ite hs hs
  | _ => exact hs

theorem todo_legal {s : State} (hs : Legal s) : LegalTodo (todo s) := by
  unfold todo
  split
  · split
    · exact stoppedMove_legal _ (s := { s with sched := _ }) hs
    · trivial
  · split
    · exact hs
    · next h => exact hs.of_lens (ownChange_lens h)
    · split
      · exact .of_ite (turn_legal hs) trivial
      · exact move_legal _ (s := { s with sched := _ }) hs

theorem tickOutcome_legal {o : Host.Outcome State Fault Refusal} (ho : LegalNext o) : LegalNext (tickOutcome o) := by
  cases o with
  | next s => exact .of_lens (ho s rfl) (State.tick_lens s)
  | _ => exact fun _ h => nomatch h

theorem step_legal {s : State} (hs : Legal s) : LegalNext (step s) := by
  have ht := todo_legal hs
  unfold step
  split
  · next h =>
    rw [h] at ht
    exact tickOutcome_legal (exec_legal _ ht)
  · next h =>
    rw [h] at ht
    exact .of_lens ht (State.tick_lens _)
  · exact fun _ h => nomatch h

/-- Settles O7: an operation either keeps VTYPE and VL of every hart (`State.lens`), or it is configuration, a load that
trims VL, sld, a restored record or image, or a reset, and each of these leaves VL within VLMAX. -/
theorem lengthsStayLegal : Obligations.LengthsStayLegal := by
  unfold Obligations.LengthsStayLegal
  exact fun s t hs h => step_legal hs t h

end Sys2Proof.Machine
end

section
/-! SUPPORT. Registers of MX blocks (R41, R105): the bits in use, a block read after a block is written, and the unused bytes
of a destination group. -/

namespace Sys2Proof.Machine

/-! ## The layout of an MX register -/

/-- The blocks of a register, the bytes of its scale beat and the bytes of a block, by format (R41). -/
theorem mx_layout (fmt : Nat) :
    mxPer fmt = 31 ∧ mxScale fmt = 32 ∧ mxBlock fmt = 32 ∨ mxPer fmt = 40 ∧ mxScale fmt = 48 ∧ mxBlock fmt = 24
      ∨ mxPer fmt = 60 ∧ mxScale fmt = 64 ∧ mxBlock fmt = 16 := by
  unfold mxPer mxElems mxScale mxBlock
  by_cases h1 : fmt ≤ 11
  · simp only [if_pos h1]
    decide
  · by_cases h2 : fmt ≤ 13
    · simp only [if_neg h1, if_pos h2]
      decide
    · simp only [if_neg h1, if_neg h2]
      decide

theorem mxPer_pos (fmt : Nat) : 0 < mxPer fmt := by
  rcases mx_layout fmt with ⟨h, -⟩ | ⟨h, -⟩ | ⟨h, -⟩ <;> rw [h] <;> decide

/-- Two adjacent runs of ones, the second from bit `c` on. -/
theorem testBit_two_runs (a b c i : Nat) (h : a ≤ c) :
    (2 ^ a - 1 + (2 ^ b - 1) * 2 ^ c).testBit i = decide (i < a ∨ c ≤ i ∧ i < c + b) := by
  have hlt : 2 ^ a - 1 < 2 ^ c := by
    have h1 : 2 ^ a ≤ 2 ^ c := Nat.pow_le_pow_right (by decide) h
    have h2 : 0 < 2 ^ a := Nat.two_pow_pos a
    omega
  rw [Nat.add_comm, Nat.mul_comm, Nat.testBit_two_pow_mul_add _ hlt, Nat.testBit_two_pow_sub_one,
    Nat.testBit_two_pow_sub_one]
  split <;> exact decide_eq_decide.mpr (by omega)

/-- A bit of a register is in use where it belongs to the scale of a block or to its elements. -/
theorem getLsbD_mxUsed (fmt i : Nat) (hi : i < 8192) : (mxUsed fmt).getLsbD i =
    decide (i < 8 * mxPer fmt ∨ 8 * mxScale fmt ≤ i ∧ i < 8 * mxScale fmt + 8 * mxBlock fmt * mxPer fmt) := by
  unfold mxUsed
  rw [BitVec.getLsbD_ofNat, testBit_two_runs _ _ _ _ (by rcases mx_layout fmt with h | h | h <;> omega), decide_eq_true hi,
    Bool.true_and]

/-! ## Blocks of one register -/

/-- Block `k` of a register's contents: its scale above its elements. -/
def blockIn (fmt : Nat) (v : VReg) (k : Nat) : Nat :=
  fieldOf v (mxScale fmt * 8 + k * (8 * mxBlock fmt)) (8 * mxBlock fmt) + fieldOf v (8 * k) 8 * 2 ^ (8 * mxBlock fmt)

/-- A register's contents with block `k` written and its unused bytes zero. -/
def withBlock (fmt : Nat) (v : VReg) (k x : Nat) : VReg :=
  setField (setField v (mxScale fmt * 8 + k * (8 * mxBlock fmt)) (8 * mxBlock fmt) (x % 2 ^ (8 * mxBlock fmt))) (8 * k) 8
    (x / 2 ^ (8 * mxBlock fmt)) &&& mxUsed fmt

/-- A field whose bits are all in a mask is kept by the mask. -/
theorem fieldOf_and {n : Nat} (v m : BitVec n) (lo len : Nat) (h : ∀ i, lo ≤ i → i < lo + len → m.getLsbD i = true) :
    fieldOf (v &&& m) lo len = fieldOf v lo len := by
  unfold fieldOf
  congr 1
  apply BitVec.eq_of_getLsbD_eq
  intro i hi
  rw [BitVec.getLsbD_extractLsb', BitVec.getLsbD_extractLsb', BitVec.getLsbD_and, h (lo + i) (by omega) (by omega),
    Bool.and_true]

/-- The scale of a block lies in the scale beat, its elements lie behind that beat, and both are bits in use. -/
theorem block_bounds (fmt k : Nat) (hk : k < mxPer fmt) :
    8 * k + 8 ≤ 8 * mxPer fmt ∧ 8 * mxPer fmt ≤ mxScale fmt * 8
      ∧ mxScale fmt * 8 + k * (8 * mxBlock fmt) + 8 * mxBlock fmt ≤ 8 * mxScale fmt + 8 * mxBlock fmt * mxPer fmt
      ∧ 8 * mxScale fmt + 8 * mxBlock fmt * mxPer fmt ≤ 8192 := by
  rcases mx_layout fmt with ⟨p, q, r⟩ | ⟨p, q, r⟩ | ⟨p, q, r⟩ <;> rw [p] at hk <;> rw [p, q, r] <;> omega

/-- The elements of two blocks do not overlap. -/
theorem blocks_apart (n : Nat) {j k : Nat} (h : j ≠ k) : j * n + n ≤ k * n ∨ k * n + n ≤ j * n := by
  have step (a b : Nat) (hab : a < b) : a * n + n ≤ b * n := by
    rw [← Nat.succ_mul]
    exact Nat.mul_le_mul_right n hab
  exact (Nat.lt_or_gt_of_ne h).imp (step j k) (step k j)

/-- Zeroing the unused bytes of a register keeps its blocks. -/
theorem blockIn_and_mxUsed (fmt : Nat) (v : VReg) (k : Nat) (hk : k < mxPer fmt) :
    blockIn fmt (v &&& mxUsed fmt) k = blockIn fmt v k := by
  obtain ⟨b1, b2, b3, b4⟩ := block_bounds fmt k hk
  unfold blockIn
  rw [fieldOf_and v (mxUsed fmt) (mxScale fmt * 8 + k * (8 * mxBlock fmt)) (8 * mxBlock fmt) fun i h1 h2 => ?_,
    fieldOf_and v (mxUsed fmt) (8 * k) 8 fun i h1 h2 => ?_]
  · rw [getLsbD_mxUsed _ _ (by omega)]
    exact decide_eq_true (by omega)
  · rw [getLsbD_mxUsed _ _ (by omega)]
    exact decide_eq_true (by omega)

/-- A block reads back as written, cut to its scale and elements, and the other blocks of the register are kept. -/
theorem blockIn_withBlock (fmt : Nat) (v : VReg) (k j x : Nat) (hk : k < mxPer fmt) (hj : j < mxPer fmt) :
    blockIn fmt (withBlock fmt v k x) j = if j = k then x % 2 ^ (8 * mxBlock fmt + 8) else blockIn fmt v j := by
  obtain ⟨k1, k2, k3, k4⟩ := block_bounds fmt k hk
  obtain ⟨j1, j2, j3, j4⟩ := block_bounds fmt j hj
  unfold withBlock
  rw [blockIn_and_mxUsed fmt _ j hj]
  unfold blockIn
  by_cases h : j = k
  · subst h
    rw [if_pos rfl, fieldOf_setField_apart _ _ _ _ _ _ (by omega), fieldOf_setField_same _ _ _ _ (by omega),
      fieldOf_setField_same _ _ _ _ (by omega), Nat.mod_mod, Nat.pow_add, Nat.mod_mul, Nat.mul_comm (2 ^ _)]
  · have hjk := blocks_apart (8 * mxBlock fmt) h
    rw [if_neg h, fieldOf_setField_apart _ _ _ _ _ _ (by omega), fieldOf_setField_apart _ _ _ _ _ _ (by omega),
      fieldOf_setField_apart _ _ _ _ _ _ (by omega), fieldOf_setField_apart _ _ _ _ _ _ (by omega)]

/-- A block is a scale byte above its elements. -/
theorem blockIn_lt (fmt : Nat) (v : VReg) (k : Nat) : blockIn fmt v k < 2 ^ (8 * mxBlock fmt + 8) := by
  unfold blockIn
  have h1 := fieldOf_lt v (mxScale fmt * 8 + k * (8 * mxBlock fmt)) (8 * mxBlock fmt)
  have h2 : fieldOf v (8 * k) 8 + 1 ≤ 2 ^ 8 := fieldOf_lt v (8 * k) 8
  rw [Nat.pow_add, Nat.mul_comm (2 ^ (8 * mxBlock fmt))]
  calc _ < 2 ^ (8 * mxBlock fmt) + fieldOf v (8 * k) 8 * 2 ^ (8 * mxBlock fmt) := Nat.add_lt_add_right h1 _
    _ = (fieldOf v (8 * k) 8 + 1) * 2 ^ (8 * mxBlock fmt) := by ring
    _ ≤ 2 ^ 8 * 2 ^ (8 * mxBlock fmt) := Nat.mul_le_mul_right _ h2

/-! ## Blocks of a group -/

theorem mxBlockOf_eq (h : Hart) (fmt r b : Nat) : h.mxBlockOf fmt r b =
    blockIn fmt (h.vec.v[(r + b / mxPer fmt) % 32]'(Nat.mod_lt _ (by decide))) (b % mxPer fmt) := rfl

theorem setMxBlock_eq (h : Hart) (fmt r b x : Nat) : h.setMxBlock fmt r b x = { h with vec := { h.vec with
    v := h.vec.v.set ((r + b / mxPer fmt) % 32)
      (withBlock fmt (h.vec.v[(r + b / mxPer fmt) % 32]'(Nat.mod_lt _ (by decide))) (b % mxPer fmt) x)
      (Nat.mod_lt _ (by decide)) } } := rfl

theorem mxBlockOf_lt (h : Hart) (fmt r b : Nat) : h.mxBlockOf fmt r b < 2 ^ (8 * mxBlock fmt + 8) := blockIn_lt _ _ _

/-- A written block reads back in its group; the other blocks of the group, and a group apart from it, are kept. -/
theorem mxBlockOf_setMxBlock (h : Hart) (fmt d r b j x g : Nat) (hd : d + g ≤ 32) (hr : r + g ≤ 32)
    (ha : r = d ∨ d + g ≤ r ∨ r + g ≤ d) (hb : b < mxPer fmt * g) (hj : j < mxPer fmt * g) :
    (h.setMxBlock fmt d b x).mxBlockOf fmt r j =
      if r = d ∧ j = b then x % 2 ^ (8 * mxBlock fmt + 8) else h.mxBlockOf fmt r j := by
  have hb1 : b / mxPer fmt < g := Nat.div_lt_of_lt_mul hb
  have hj1 : j / mxPer fmt < g := Nat.div_lt_of_lt_mul hj
  rw [mxBlockOf_eq, mxBlockOf_eq, setMxBlock_eq]
  have hsame (x y : Nat) (hx : x < g) (hy : y < g) (e : (d + x) % 32 = (r + y) % 32) : r = d ∧ x = y := by omega
  by_cases hreg : (d + b / mxPer fmt) % 32 = (r + j / mxPer fmt) % 32
  · obtain ⟨hrd, hdiv⟩ := hsame _ _ hb1 hj1 hreg
    simp only [hreg, Vector.getElem_set_self]
    rw [blockIn_withBlock fmt _ _ _ x (Nat.mod_lt _ (mxPer_pos fmt)) (Nat.mod_lt _ (mxPer_pos fmt))]
    have hjb : j % mxPer fmt = b % mxPer fmt ↔ r = d ∧ j = b := by
      refine ⟨fun e => ⟨hrd, ?_⟩, fun e => by rw [e.2]⟩
      rw [← Nat.div_add_mod j (mxPer fmt), ← Nat.div_add_mod b (mxPer fmt), hdiv, e]
    simp only [hjb]
  · have hne : ¬ (r = d ∧ j = b) := by
      rintro ⟨rfl, rfl⟩
      exact hreg rfl
    rw [if_neg hne]
    simp only
    rw [Vector.getElem_set_ne _ _ hreg]

theorem vecOnly_setMxBlock (M : Nat → Prop) (h : Hart) (fmt d b x g : Nat) (hd : d + g ≤ 32) (hb : b < mxPer fmt * g) :
    VecOnly (inGroup d g) M h (h.setMxBlock fmt d b x) := by
  refine ⟨rfl, fun i hi ho => ?_, fun _ _ _ => rfl⟩
  have hb1 : b / mxPer fmt < g := Nat.div_lt_of_lt_mul hb
  have hne (x : Nat) (hx : x < g) (e : (d + x) % 32 = i) : inGroup d g i := by
    unfold inGroup
    omega
  rw [setMxBlock_eq]
  simp only
  rw [Vector.getElem_set_ne _ _ fun e => ho (hne _ hb1 e)]

/-- The blocks of the destination groups: what a block write at `vd` and DREG does, seen from either of them. -/
theorem putSpec_putBlock (s : State) (w : Fld) (c : VCtx) (g : Nat) (hg : g ∣ 32) (hc : c.dreg = s.hart.dregOf)
    (hf : DestsFit s w g) (r : Nat) (hr : Dests s w r) :
    PutSpec (inDests s w g) (fun _ => False) (mxPer c.fmt * g) (mxPer c.fmt * g) (fun h => h.mxBlockOf c.fmt r)
      (fun _ x _ => x % 2 ^ (8 * mxBlock c.fmt + 8)) (c.putBlock (s.hart.vreg w.d)) := by
  have hd : s.hart.vreg w.d % g = 0 := hf _ (.inl rfl)
  have hd32 : s.hart.vreg w.d + g ≤ 32 := group_ends hg hd (vreg_lt _ _)
  have hq (q : Nat) (hq : c.dreg = some q) : q % g = 0 ∧ q + g ≤ 32 := by
    rw [hc] at hq
    have hq' : q % g = 0 := hf _ (.inr hq)
    exact ⟨hq', group_ends hg hq' (dregOf_lt hq)⟩
  have hd1 : ∀ i, inGroup (s.hart.vreg w.d) g i → inDests s w g i := fun i h => ⟨_, .inl rfl, h⟩
  have hr' : r % g = 0 ∧ r + g ≤ 32 := by
    rcases hr with h | h
    · rw [h]; exact ⟨hd, hd32⟩
    · exact hq r (hc.trans h)
  refine ⟨fun e x h he => ?_, fun e x h he => ?_, fun e x h j he hj => ?_, fun _ _ _ => rfl⟩
  · unfold VCtx.putBlock
    have h1 := (vecOnly_setMxBlock (fun _ => False) h c.fmt _ e x g hd32 he).mono hd1 (fun _ => id)
    cases hdr : c.dreg with
    | none => exact h1
    | some q =>
      refine h1.trans ((vecOnly_setMxBlock _ _ c.fmt q e x g (hq q hdr).2 he).mono (fun i h => ?_) (fun _ => id))
      exact ⟨q, .inr (hc ▸ hdr), h⟩
  · unfold VCtx.putBlock
    cases c.dreg <;> rfl
  · unfold VCtx.putBlock
    have h1 := mxBlockOf_setMxBlock h c.fmt (s.hart.vreg w.d) r e j x g hd32 hr'.2 (groups_apart hd hr'.1) he hj
    cases hdr : c.dreg with
    | none =>
      have hrd : r = s.hart.vreg w.d := hr.resolve_right (by rw [← hc, hdr]; exact fun h => nomatch h)
      simpa [hrd] using h1
    | some q =>
      have hqg := hq q hdr
      simp only
      rw [mxBlockOf_setMxBlock _ c.fmt q r e j x g hqg.2 hr'.2 (groups_apart hqg.1 hr'.1) he hj, h1]
      have hrq : r = s.hart.vreg w.d ∨ r = q := hr.imp id (fun h => by rw [← hc, hdr] at h; exact (Option.some.inj h).symm)
      by_cases hje : j = e
      · rcases hrq with h | h <;> simp [h, hje]
      · simp [hje]

/-! ## The unused bytes of the destinations -/

theorem clearUnused_getElem (h : Hart) (fmt n r i : Nat) (hi : i < 32) (hr : r + n ≤ 32) :
    (h.clearUnused fmt n r).vec.v[i] = if r ≤ i ∧ i < r + n then h.vec.v[i] &&& mxUsed fmt else h.vec.v[i] := by
  induction n generalizing r with
  | zero => rw [if_neg (by omega)]; rfl
  | succ n ih =>
    have h1 := ih (r + 1) (by omega)
    have hrm : r % 32 = r := Nat.mod_eq_of_lt (by omega)
    unfold Hart.clearUnused
    simp only [hrm]
    by_cases hir : i = r
    · subst hir
      rw [Vector.getElem_set_self, h1, if_neg (by omega), if_pos (by omega)]
    · rw [Vector.getElem_set_ne _ _ (Ne.symm hir), h1]
      have hiff : (r + 1 ≤ i ∧ i < r + 1 + n) ↔ (r ≤ i ∧ i < r + (n + 1)) := by omega
      simp only [hiff]

theorem clearUnused_eq (h : Hart) (fmt n r : Nat) :
    h.clearUnused fmt n r = { h with vec := { h.vec with v := (h.clearUnused fmt n r).vec.v } } := by
  induction n generalizing r with
  | zero => rfl
  | succ n ih =>
    unfold Hart.clearUnused
    rw [ih (r + 1)]

theorem clearUnused_vfflags (h : Hart) (fmt n r : Nat) : (h.clearUnused fmt n r).vec.vfflags = h.vec.vfflags := by
  rw [clearUnused_eq]

theorem vecOnly_clearUnused (M : Nat → Prop) (h : Hart) (fmt n r : Nat) (hr : r + n ≤ 32) :
    VecOnly (inGroup r n) M h (h.clearUnused fmt n r) := by
  refine ⟨?_, fun i hi ho => ?_, fun i hi _ => ?_⟩
  · rw [clearUnused_eq]
  · rw [clearUnused_getElem h fmt n r i hi hr]
    exact if_neg ho
  · have hm : (h.clearUnused fmt n r).vec.m = h.vec.m := by rw [clearUnused_eq]
    simp only [hm]

/-- What the clearing at the end of a word on MX blocks leaves: the registers of the destination groups lose their unused
bytes, and nothing else changes (R41, assumption 47). -/
theorem mxClear_spec (s : State) (w : Fld) (c : VCtx) (hg : c.grp ∣ 32) (hm : c.mxDest = some (s.hart.vreg w.d))
    (hc : c.dreg = s.hart.dregOf) (hf : DestsFit s w c.grp) (h : Hart) :
    VecOnly (inDests s w c.grp) (fun _ => False) h (c.mxClear h) ∧ (c.mxClear h).vec.vfflags = h.vec.vfflags
      ∧ ∀ i, (hi : i < 32) → inDests s w c.grp i → (c.mxClear h).vec.v[i] = h.vec.v[i] &&& mxUsed c.fmt := by
  have hd32 : s.hart.vreg w.d + c.grp ≤ 32 := group_ends hg (hf _ (.inl rfl)) (vreg_lt _ _)
  have h1 := (vecOnly_clearUnused (fun _ => False) h c.fmt c.grp _ hd32).mono
    (V' := inDests s w c.grp) (fun i hi => ⟨_, .inl rfl, hi⟩) (fun _ => id)
  unfold VCtx.mxClear
  rw [hm]
  cases hq : c.dreg with
  | none =>
    refine ⟨h1, clearUnused_vfflags _ _ _ _, fun i hi hin => ?_⟩
    rw [clearUnused_getElem h _ _ _ i hi hd32]
    obtain ⟨r, hr, hir⟩ := hin
    have hrd : r = s.hart.vreg w.d := hr.resolve_right (by rw [← hc, hq]; exact fun h => nomatch h)
    exact if_pos (hrd ▸ hir)
  | some q =>
    have hq' : s.hart.dregOf = some q := hc ▸ hq
    have hq32 : q + c.grp ≤ 32 := group_ends hg (hf q (.inr hq')) (dregOf_lt hq')
    refine ⟨h1.trans ((vecOnly_clearUnused _ _ c.fmt c.grp q hq32).mono (fun i hi => ⟨_, .inr hq', hi⟩) (fun _ => id)),
      (clearUnused_vfflags _ _ _ _).trans (clearUnused_vfflags _ _ _ _), fun i hi hin => ?_⟩
    simp only
    rw [clearUnused_getElem _ _ _ _ i hi hq32, clearUnused_getElem h _ _ _ i hi hd32]
    obtain ⟨r, hr, hir⟩ := hin
    unfold inGroup at hir
    rcases hr with hr | hr
    · rw [hr] at hir
      rw [if_pos hir, BitVec.and_assoc, BitVec.and_self, ite_self]
    · rw [hq'] at hr
      rw [← Option.some.inj hr] at hir
      rw [if_pos hir]
      split
      · rw [BitVec.and_assoc, BitVec.and_self]
      · rfl

/-- The clearing keeps the blocks of the destination groups. -/
theorem mxBlockOf_mxClear (s : State) (w : Fld) (c : VCtx) (hg : c.grp ∣ 32) (hm : c.mxDest = some (s.hart.vreg w.d))
    (hc : c.dreg = s.hart.dregOf) (hf : DestsFit s w c.grp) (h : Hart) (r b : Nat) (hr : Dests s w r)
    (hb : b < mxPer c.fmt * c.grp) : (c.mxClear h).mxBlockOf c.fmt r b = h.mxBlockOf c.fmt r b := by
  obtain ⟨-, -, hin⟩ := mxClear_spec s w c hg hm hc hf h
  have hr32 : r + c.grp ≤ 32 := group_ends hg (hf r hr) (by
    rcases hr with hr | hr
    · rw [hr]; exact vreg_lt _ _
    · exact dregOf_lt hr)
  have hbg : b / mxPer c.fmt < c.grp := Nat.div_lt_of_lt_mul hb
  have hgrp (x : Nat) (hx : x < c.grp) : inDests s w c.grp ((r + x) % 32) := by
    refine ⟨r, hr, ?_⟩
    unfold inGroup
    omega
  rw [mxBlockOf_eq, mxBlockOf_eq, hin _ _ (hgrp _ hbg), blockIn_and_mxUsed _ _ _ (Nat.mod_lt _ (mxPer_pos _))]

end Sys2Proof.Machine
end

section
/-! SUPPORT. Words that loop over any context of R80, MX blocks and the listings of mxpack and mxdot included. -/

namespace Sys2Proof.Machine

/-- What a word leaves at turn `j` of its loop and tail: turns before the first are kept, unless the tail of a listing has
them (R126, R128); an active turn takes its value, a masked-off one the policy, the others the tail. -/
def turned {α : Type} (c : VCtx) (enc : Nat → Nat → α → α) (old : Nat → α) (val : Nat → Nat) (j : Nat) : α :=
  if j < c.velem && !(c.listed && c.vl ≤ j) then old j
  else if j < c.vl then if c.sel j then enc j (val j) (old j) else if c.pol then enc j 0 (old j) else old j
  else if c.tail then enc j 0 (old j) else old j

/-- The turns of a listing: its tail does not depend on VELEM (R126, R128). -/
theorem turned_listed {α : Type} {c : VCtx} (hl : c.listed = true) (enc : Nat → Nat → α → α) (old : Nat → α) (val : Nat → Nat)
    (j : Nat) : turned c enc old val j =
      if c.vl ≤ j then if c.tail then enc j 0 (old j) else old j
      else if j < c.velem then old j
      else if c.sel j then enc j (val j) (old j) else if c.pol then enc j 0 (old j) else old j := by
  unfold turned
  rw [hl]
  by_cases hvl : c.vl ≤ j
  · have hlt : ¬ j < c.vl := by omega
    simp [hvl, hlt]
  · have hlt : j < c.vl := by omega
    simp [hvl, hlt]

/-- The loop and then the tail, turn by turn. -/
theorem turned_of_steps {α : Type} (c : VCtx) (enc : Nat → Nat → α → α) (old : Nat → α) (val : Nat → Nat) (j : Nat) :
    (if c.tail = true ∧ (if c.listed then c.vl else max c.vl c.velem) ≤ j then
      enc j 0 (if c.velem ≤ j ∧ j < c.vl then
        (if c.sel j then enc j (val j) (old j) else if c.pol then enc j 0 (old j) else old j) else old j)
    else if c.velem ≤ j ∧ j < c.vl then
      (if c.sel j then enc j (val j) (old j) else if c.pol then enc j 0 (old j) else old j) else old j)
    = turned c enc old val j := by
  unfold turned
  have htail : (if c.listed = true then c.vl else max c.vl c.velem) ≤ j ↔ c.vl ≤ j ∧ (c.listed = true ∨ c.velem ≤ j) := by
    cases c.listed <;> simp
  have hkept : (decide (j < c.velem) && !(c.listed && decide (c.vl ≤ j))) = true
      ↔ j < c.velem ∧ (c.listed = false ∨ j < c.vl) := by
    cases c.listed <;> simp
  simp only [htail, hkept]
  by_cases hvl : j < c.vl
  · have hno : ¬ c.vl ≤ j := by omega
    by_cases hve : j < c.velem
    · have hno2 : ¬ c.velem ≤ j := by omega
      simp [hno, hno2, hve, hvl]
    · have hve2 : c.velem ≤ j := by omega
      simp [hno, hvl, hve, hve2]
  · have hvl2 : c.vl ≤ j := by omega
    cases hl : c.listed with
    | true => simp [hvl, hvl2]
    | false =>
      by_cases hve : j < c.velem
      · have hno : ¬ c.velem ≤ j := by omega
        simp [hvl, hve, hno]
      · have hve2 : c.velem ≤ j := by omega
        simp [hvl, hvl2, hve, hve2]

/-- A clearing at the end of a word keeps what the loop writes to. -/
structure Clears {α : Type} (V M : Nat → Prop) (N : Nat) (view : Hart → Nat → α) (clear : Hart → Hart) : Prop where
  only : ∀ h, VecOnly V M h (clear h)
  flags : ∀ h, (clear h).vec.vfflags = h.vec.vfflags
  keeps : ∀ h j, j < N → view (clear h) j = view h j

/-- A word that writes no MX-typed destination clears nothing. -/
theorem clears_plain {α : Type} (V M : Nat → Prop) (N : Nat) (view : Hart → Nat → α) {c : VCtx} (h : c.mxDest = none) :
    Clears V M N view c.mxClear := by
  have e (y : Hart) : c.mxClear y = y := by
    unfold VCtx.mxClear
    rw [h]
  exact ⟨fun y => by rw [e]; exact .refl _ _ _, fun y => by rw [e], fun y _ _ => by rw [e]⟩

section
variable {α : Type} {V M : Nat → Prop} {N : Nat} {view : Hart → Nat → α} {enc : Nat → Nat → α → α} {put : PutFn}
variable (hp : PutSpec V M N N view enc put)
include hp

/-- Zeros from `b` to the end of the destination. -/
theorem zeroTail_spec (b : Nat) (h : Hart) :
    VecOnly V M h (zeroFrom put (N - b) b h) ∧ (zeroFrom put (N - b) b h).vec.vfflags = h.vec.vfflags
      ∧ ∀ j, j < N → view (zeroFrom put (N - b) b h) j = if b ≤ j then enc j 0 (view h j) else view h j := by
  by_cases hb : b ≤ N
  · obtain ⟨ho, hf, hv⟩ := zeroFrom_spec hp (N - b) b h (by omega)
    refine ⟨ho, hf, fun j hj => ?_⟩
    have hiff : (b ≤ j ∧ j < b + (N - b)) ↔ b ≤ j := by omega
    rw [hv j hj]
    simp only [hiff]
  · rw [show N - b = 0 by omega]
    exact ⟨.refl _ _ _, rfl, fun j hj => (if_neg (by omega)).symm⟩

/-- The loop over the turns of a context: it ends at no turn. -/
theorem turnLoop_spec (c : VCtx) (res : Nat → Except Ev (Nat × Ev)) (val : Nat → Nat) (evs : Nat → Ev)
    (hb : c.vl ≤ c.bound) (hN : c.vl ≤ N)
    (hres : ∀ j, c.velem ≤ j → j < c.vl → c.sel j = true → res j = .ok (val j, evs j)) (h : Hart) :
    ∃ y, elemLoop c put res (c.vl - c.velem) c.velem h = (y, none) ∧ VecOnly V M h y
      ∧ (∀ b, bitOf y.vec.vfflags b = true ↔ bitOf h.vec.vfflags b = true
          ∨ ∃ e, c.velem ≤ e ∧ e < c.vl ∧ c.sel e = true ∧ bitOf (evs e) b = true)
      ∧ ∀ j, j < N → view y j = if c.velem ≤ j ∧ j < c.vl then
          (if c.sel j then enc j (val j) (view h j) else if c.pol then enc j 0 (view h j) else view h j) else view h j := by
  by_cases hz : c.velem ≤ c.vl
  · obtain ⟨y, h1, h2, h3, h4⟩ := elemLoop_spec c res val evs hp (c.vl - c.velem) c.velem h (by omega) (by omega)
      (fun j a b d => hres j a (by omega) d)
    rw [Nat.add_sub_cancel' hz] at h4
    refine ⟨y, h1, h2, fun b => ?_, h4⟩
    rw [h3 b]
    unfold gained
    rw [Nat.add_sub_cancel' hz]
  · rw [show c.vl - c.velem = 0 by omega]
    refine ⟨h, rfl, .refl _ _ _, fun b => ⟨.inl, fun x => x.elim id ?_⟩, fun j _ => (if_neg (by omega)).symm⟩
    rintro ⟨e, h1, h2, -⟩
    omega

/-- A word whose turns all complete, in any context: what it writes, and that it retires. -/
theorem elementWise_turned {s : State} {c : VCtx} (i : Instr) (hcl : Clears V M N view c.mxClear)
    (res : Nat → Except Ev (Nat × Ev)) (val : Nat → Nat) (evs : Nat → Ev) (hb : c.vl ≤ c.bound) (hN : c.vl ≤ N)
    (hres : ∀ j, c.velem ≤ j → j < c.vl → c.sel j = true → res j = .ok (val j, evs j)) :
    ∃ t y, elementWise i c put N res s = .ok () t ∧ VecFrame s (settleReads s.cur 0 t) c.takes
      ∧ VecOnly V M s.hart (c.mxClear y) ∧ t.hart.vec.v = (c.mxClear y).vec.v ∧ t.hart.vec.m = (c.mxClear y).vec.m
      ∧ XKept s t
      ∧ (∀ b, bitOf t.hart.vec.vfflags b = true ↔ bitOf s.hart.vec.vfflags b = true
          ∨ ∃ e, c.velem ≤ e ∧ e < c.vl ∧ c.sel e = true ∧ bitOf (evs e) b = true)
      ∧ ∀ j, j < N → view (c.mxClear y) j = turned c enc (view s.hart) val j := by
  obtain ⟨x, e1, o1, f1, v1⟩ := turnLoop_spec hp c res val evs hb hN hres s.hart
  obtain ⟨o2, f2, v2⟩ := zeroTail_spec hp (if c.listed then c.vl else max c.vl c.velem) x
  obtain ⟨y, hy, oy, fy, vy⟩ : ∃ y, c.tailZero put N x = c.mxClear y ∧ VecOnly V M x y ∧ y.vec.vfflags = x.vec.vfflags
      ∧ ∀ j, j < N → view y j = if c.tail = true ∧ (if c.listed then c.vl else max c.vl c.velem) ≤ j
          then enc j 0 (view x j) else view x j := by
    unfold VCtx.tailZero
    cases ht : c.tail with
    | true => exact ⟨_, rfl, o2, f2, fun j hj => (v2 j hj).trans (by simp only [true_and])⟩
    | false => exact ⟨_, rfl, .refl _ _ _, rfl, fun j _ => by simp⟩
  have o := (o1.trans oy).trans (hcl.only y)
  obtain ⟨ho, hx, hs⟩ := o.hartOnly
  obtain ⟨t, r1, r2, r3, r4, r5, r6, r7⟩ := retireVec_spec i c.takes s _ ho
  refine ⟨t, y, ?_, r2, o, r3, r4, ⟨r5.trans hx, r6.trans hs⟩, fun b => ?_, fun j hj => ?_⟩
  · unfold elementWise
    rw [e1]
    simp only [hy]
    exact r1
  · rw [r7, hcl.flags, fy, f1 b]
  · rw [hcl.keeps y j hj, vy j hj, v1 j hj, turned_of_steps]

end

end Sys2Proof.Machine
end

section
/-! SUPPORT. What a whole word in any context of R80 does to its destination groups, and words on MX blocks (R105). -/

namespace Sys2Proof.Machine

/-! ## Destination groups -/

/-- What a word whose turns all complete leaves, its destination groups of `g` registers seen by `view`. -/
structure TurnsDone (s t : State) (w : Fld) (c : VCtx) (g N : Nat) (view : Nat → Hart → Nat → Nat)
    (enc : Nat → Nat → Nat → Nat) (val : Nat → Nat) (evs : Nat → Ev) : Prop where
  frame : VecFrame s t true
  outside : RegsOutside s t (Dests s w) g
  masks : MasksKept s t
  xs : XKept s t
  flags : ∀ b, bitOf t.hart.vec.vfflags b = true ↔ bitOf s.hart.vec.vfflags b = true
    ∨ ∃ e, c.velem ≤ e ∧ e < c.vl ∧ c.sel e = true ∧ bitOf (evs e) b = true
  cleared : ∃ y, t.hart.vec.v = (c.mxClear y).vec.v
  turns : ∀ r, Dests s w r → ∀ j, j < N → view r t.hart j = turned c enc (view r s.hart) val j

/-- A word whose turns all complete: from the run of its computation to what it does. -/
theorem turned_dests {s : State} {w : Fld} {c : VCtx} (i : Instr) (a : Act Unit) (g N : Nat) (view : Nat → Hart → Nat → Nat)
    (enc : Nat → Nat → Nat → Nat) (put : PutFn) (hi : exec i s = vectorWord i a s) (hr : VecReady s)
    (hview : ∀ r h h', h.vec.v = h'.vec.v → view r h = view r h')
    (hp : ∀ r, Dests s w r → PutSpec (inDests s w g) (fun _ => False) N N (view r) enc put)
    (hcl : ∀ r, Dests s w r → Clears (inDests s w g) (fun _ => False) N (view r) c.mxClear)
    (ht : c.takes = true) (hb : c.vl ≤ c.bound) (hN : c.vl ≤ N)
    (res : Nat → Except Ev (Nat × Ev)) (val : Nat → Nat) (evs : Nat → Ev)
    (ha : a s = elementWise i c put N res s)
    (hres : ∀ j, c.velem ≤ j → j < c.vl → c.sel j = true → res j = .ok (val j, evs j)) :
    ∃ t, exec i s = .next t ∧ TurnsDone s t w c g N view enc val evs := by
  have run (r : Nat) (h : Dests s w r) := elementWise_turned (s := s) (hp r h) i (hcl r h) res val evs hb hN hres
  obtain ⟨t, y, e1, fr, on, ev, em, hx, hfl, -⟩ := run _ (.inl rfl)
  refine ⟨settleReads s.cur 0 t, ?_, ?_, fun k hk ho => ?_, ?_, hx, hfl, ⟨y, ev⟩, fun r hd j hj => ?_⟩
  · rw [hi, vectorWord_ready hr]
    exact runAct_ok (ha.trans e1)
  · rw [← ht]
    exact fr
  · rw [settleReads_hart]
    rw [show t.hart.vec.v[k] = (c.mxClear y).vec.v[k] by simp only [ev]]
    refine on.regs k hk fun ⟨r, h1, h2⟩ => ?_
    have := ho r h1
    unfold inGroup at h2
    omega
  · rw [MasksKept, settleReads_hart, em]
    exact Vector.ext (fun k hk => on.masks k hk id)
  · obtain ⟨t2, y2, e2, -, -, ev2, -, -, -, hel⟩ := run r hd
    rw [e1] at e2
    cases e2
    rw [settleReads_hart, hview r _ _ ev2, hel j hj]

/-! ## Contexts in blocks -/

theorem ceilDiv_le (p b : Nat) : ceilDiv p 32 ≤ b ↔ p ≤ 32 * b := by
  unfold ceilDiv
  omega

theorem sel_inBlocks (a : Attr) (w : Fld) (s : State) (ht : a.takes = true) (d : Option Nat) (b : Nat) :
    ((ctxOf a w s).inBlocks d).sel b = activeAt s w (a.msk == .predicate) (32 * b) := by
  rw [← sel_ctxOf a w s ht, Nat.mul_comm]
  unfold VCtx.sel VCtx.inBlocks ctxOf
  simp only [Nat.mul_one, Nat.zero_le]

theorem sel_inListed (a : Attr) (w : Fld) (s : State) (ht : a.takes = true) (d : Option Nat) (b : Nat) :
    ((ctxOf a w s).inListed d).sel b = (posOf s ≤ 32 * b && activeAt s w (a.msk == .predicate) (32 * b)) := by
  have hlow : decide (ceilDiv (posOf s) 32 ≤ b) = decide (posOf s ≤ 32 * b) := decide_eq_decide.mpr (ceilDiv_le _ _)
  rw [← sel_inBlocks a w s ht d, ← hlow]
  unfold VCtx.sel VCtx.inListed VCtx.inBlocks ctxOf
  simp only [Nat.zero_le, decide_true, Bool.true_and]

/-- A context in blocks of the state's type, with its destination. -/
structure BlockCtx (s : State) (w : Fld) (c : VCtx) : Prop where
  takes : c.takes = true
  fmt : c.fmt = vtFmt s.hart.vec.vtype
  grp : c.grp = grpOf s
  dest : c.mxDest = some (s.hart.vreg w.d)
  dreg : c.dreg = s.hart.dregOf
  vl : c.vl = lenOf s / 32
  tail : c.tail = vtTail s.hart.vec.vtype
  pol : c.pol = s.hart.policy
  whole : c.vl ≤ c.bound

theorem blockCtx_inBlocks (a : Attr) (w : Fld) (s : State) (hr : VecReady s) (ht : a.takes = true) :
    BlockCtx s w ((ctxOf a w s).inBlocks (some (s.hart.vreg w.d))) := by
  refine ⟨ht, rfl, rfl, rfl, ?_, rfl, rfl, rfl, ?_⟩
  · show (if a.takes then _ else _) = _
    rw [if_pos ht]
  · show lenOf s / 32 ≤ s.bound.getD (lenOf s) / 32
    rw [hr.whole]
    exact Nat.le_refl _

theorem blockCtx_inListed (a : Attr) (w : Fld) (s : State) (hr : VecReady s) (ht : a.takes = true) :
    BlockCtx s w ((ctxOf a w s).inListed (some (s.hart.vreg w.d))) :=
  let h := blockCtx_inBlocks a w s hr ht
  ⟨h.takes, h.fmt, h.grp, h.dest, h.dreg, h.vl, h.tail, h.pol, h.whole⟩

/-- The largest vector length of an MX type (R20). -/
theorem vlmax_mx {s : State} (ht : TypeIn s fmtMx) :
    vlmax s.hart.vec.vtype = mxElems (vtFmt s.hart.vec.vtype) * grpOf s := by
  have hmx : isMx (vtFmt s.hart.vec.vtype) = true := ht.2
  have h15 : vtFmt s.hart.vec.vtype ≠ 15 := by
    intro h
    rw [h] at hmx
    cases hmx
  unfold vlmax
  simp only [if_neg h15, hmx, if_true]
  rfl

/-- The blocks below VL stand in the destination groups (R20, R41). -/
theorem blocks_fit {s : State} (ht : TypeIn s fmtMx) (hl : LengthOk s.hart) :
    lenOf s / 32 ≤ mxPer (vtFmt s.hart.vec.vtype) * grpOf s := by
  have h32 : mxElems (vtFmt s.hart.vec.vtype) = 32 * mxPer (vtFmt s.hart.vec.vtype) := by
    unfold mxPer mxElems
    split_ifs <;> rfl
  have hl' : lenOf s ≤ vlmax s.hart.vec.vtype := hl
  rw [vlmax_mx ht, h32, Nat.mul_assoc] at hl'
  omega

/-- A word on MX blocks, from the run of its computation to what its destination blocks are. -/
theorem blocks_turned {s : State} {w : Fld} {c : VCtx} (i : Instr) (a : Act Unit) (hc : BlockCtx s w c)
    (enc : Nat → Nat → Nat → Nat) (put : PutFn) (hi : exec i s = vectorWord i a s) (hr : VecReady s) (ht : TypeIn s fmtMx)
    (hl : LengthOk s.hart) (hd : DestsFit s w (grpOf s))
    (hp : ∀ r, Dests s w r → PutSpec (inDests s w c.grp) (fun _ => False) (mxPer c.fmt * c.grp) (mxPer c.fmt * c.grp)
      (fun h => h.mxBlockOf c.fmt r) enc put)
    (res : Nat → Except Ev (Nat × Ev)) (val : Nat → Nat) (evs : Nat → Ev)
    (ha : a s = elementWise i c put c.blockCount res s)
    (hres : ∀ j, c.velem ≤ j → j < c.vl → c.sel j = true → res j = .ok (val j, evs j)) :
    ∃ t, exec i s = .next t
      ∧ TurnsDone s t w c (grpOf s) (mxPer (vtFmt s.hart.vec.vtype) * grpOf s)
          (fun r h => h.mxBlockOf (vtFmt s.hart.vec.vtype) r) enc val evs
      ∧ ∀ k, (hk : k < 32) → (∃ r, Dests s w r ∧ r ≤ k ∧ k < r + grpOf s) →
          t.hart.vec.v[k] &&& ~~~(mxUsed (vtFmt s.hart.vec.vtype)) = 0 := by
  rw [← hc.grp] at hd ⊢
  simp only [← hc.fmt]
  have hg : c.grp ∣ 32 := hc.grp ▸ grp_dvd s
  have hclr := mxClear_spec s w c hg hc.dest hc.dreg hd
  have hview (r : Nat) (h h' : Hart) (e : h.vec.v = h'.vec.v) : h.mxBlockOf c.fmt r = h'.mxBlockOf c.fmt r := by
    funext b
    rw [mxBlockOf_eq, mxBlockOf_eq]
    simp only [e]
  obtain ⟨t, ht', done⟩ := turned_dests (c := c) i a c.grp (mxPer c.fmt * c.grp) (fun r h => h.mxBlockOf c.fmt r) enc put hi hr
    hview hp (fun r hdr => ⟨fun h => (hclr h).1, fun h => (hclr h).2.1,
      fun h j hj => mxBlockOf_mxClear s w c hg hc.dest hc.dreg hd h r j hdr hj⟩) hc.takes hc.whole
    (by rw [hc.vl, hc.fmt, hc.grp]; exact blocks_fit ht hl) res val evs ha hres
  refine ⟨t, ht', done, fun k hk hin => ?_⟩
  obtain ⟨y, hy⟩ := done.cleared
  obtain ⟨-, -, hmask⟩ := hclr y
  rw [show t.hart.vec.v[k] = (c.mxClear y).vec.v[k] by simp only [hy], hmask k hk hin, BitVec.and_assoc, BitVec.and_not_self]
  exact BitVec.and_zero

/-- A word on MX blocks that writes each active block whole. -/
theorem givesBlocks_of {s : State} {w : Fld} {c : VCtx} (i : Instr) (a : Act Unit) (hc : BlockCtx s w c)
    (act : Nat → Bool) (hi : exec i s = vectorWord i a s) (hr : VecReady s) (ht : TypeIn s fmtMx)
    (hl : LengthOk s.hart) (hd : DestsFit s w (grpOf s)) (hsel : ∀ b, c.sel b = act b)
    (res : Nat → Except Ev (Nat × Ev)) (val : Nat → Nat) (evs : Nat → Ev)
    (ha : a s = elementWise i c (c.putBlock (s.hart.vreg w.d)) c.blockCount res s)
    (hres : ∀ j, c.velem ≤ j → j < lenOf s / 32 → act j = true → res j = .ok (val j, evs j)) :
    GivesBlocks i s w c.listed c.velem act
      (fun b => val b % 2 ^ (8 * mxBlock (vtFmt s.hart.vec.vtype) + 8)) evs := by
  have hg : c.grp ∣ 32 := hc.grp ▸ grp_dvd s
  obtain ⟨t, ht', done, hunused⟩ := blocks_turned i a hc (fun _ x _ => x % 2 ^ (8 * mxBlock c.fmt + 8)) _ hi hr ht hl hd
    (putSpec_putBlock s w c c.grp hg hc.dreg (hc.grp ▸ hd)) res val evs ha
    (fun j hve hvl hact => hres j hve (hc.vl ▸ hvl) ((hsel j).symm.trans hact))
  refine ⟨t, ht', done.frame, ⟨fun r hr b hb => ?_, hunused⟩, done.outside, done.masks, done.xs, fun b => ?_⟩
  · rw [done.turns r hr b hb]
    unfold turned
    simp only [hsel, hc.vl, hc.pol, hc.tail, hc.fmt, Nat.zero_mod]
  · rw [done.flags b]
    simp only [hsel, hc.vl]

end Sys2Proof.Machine
end

section
/-! SUPPORT. Moves, slides and merges of MX blocks (R105). -/

namespace Sys2Proof.Machine

/-- The issue of a typed word under an MX format. -/
theorem issue_mx (a : Attr) (w : Fld) (legal : Bool) (s : State) (hr : VecReady s) (hl : legal = true) (hat : a.takes = true)
    (haty : a.typed = true) (hel : a.elementwise = false) (hp : PrefixFits s w a.dcv (a.msk == .predicate))
    (ht : TypeIn s fmtMx) (hf : ∀ f, fmtMx f = true → a.fmts f = true) (hb : a.blocks = true → lenOf s % 32 = 0) :
    issue a w legal s = .ok (ctxOf a w s) s :=
  issue_ok a w legal s hr hl (fun h => by rw [hat] at h; cases h) (fun _ => hp) (fun _ => ⟨ht.1, hf _ ht.2⟩)
    (fun _ h => by rw [hel] at h; cases h) (fun h _ => hb h) (fun h => by rw [haty] at h; cases h)

theorem fmtMove_of_mx (f : Nat) (h : fmtMx f = true) : fmtMove f = true := by
  unfold fmtMx isMx at h
  unfold fmtMove
  rw [Bool.and_eq_true] at h
  exact h.2

/-- A word without events on MX blocks, whose results are blocks. -/
theorem givesBlocks_move {s : State} {w : Fld} {c : VCtx} (i : Instr) (a : Act Unit) (hc : BlockCtx s w c)
    (act : Nat → Bool) (hi : exec i s = vectorWord i a s) (hr : VecReady s) (ht : TypeIn s fmtMx)
    (hl : LengthOk s.hart) (hd : DestsFit s w (grpOf s)) (hsel : ∀ b, c.sel b = act b) (val : Nat → Nat)
    (ha : a s = elementWise i c (c.putBlock (s.hart.vreg w.d)) c.blockCount (fun b => .ok (val b, 0)) s)
    (hval : ∀ b, val b < 2 ^ (8 * mxBlock (vtFmt s.hart.vec.vtype) + 8)) :
    GivesBlocks i s w c.listed c.velem act val (fun _ => 0) := by
  have h := givesBlocks_of i a hc act hi hr ht hl hd hsel _ val (fun _ => 0) ha (fun _ _ _ _ => rfl)
  simpa only [Nat.mod_eq_of_lt (hval _)] using h

section
variable {s : State} {w : Fld} (hr : VecReady s) (ht : TypeIn s fmtMx) (hl : LengthOk s.hart) (h32 : lenOf s % 32 = 0)
  (hd : DestsFit s w (grpOf s)) (hb : SourceFits s w.b (grpOf s))
include hr ht hl h32 hd hb

/-- vmov moves whole blocks. -/
theorem vmov_givesBlocks (hp : PrefixFits s w true true) :
    GivesBlocks (.vmov w) s w false (ceilDiv (posOf s) 32) (fun b => activeAt s w true (32 * b))
      (s.hart.mxBlockOf (vtFmt s.hart.vec.vtype) (s.hart.vreg w.b)) (fun _ => 0) := by
  have hleg : (destOk s.hart ⟨s.hart.vreg w.d, grpHere s.hart⟩ && (Span.mk (s.hart.vreg w.b) (grpHere s.hart)).ok) = true := by
    rw [show destOk s.hart ⟨s.hart.vreg w.d, grpHere s.hart⟩ = true from destOk_of (grp_dvd s) hd,
      show (Span.mk (s.hart.vreg w.b) (grpHere s.hart)).ok = true from span_ok (grp_dvd s) hb (vreg_lt _ _)]
    rfl
  refine givesBlocks_move (.vmov w) _ (blockCtx_inBlocks attrBlocks w s hr rfl) _ rfl hr ht hl hd
    (sel_inBlocks attrBlocks w s rfl _) _ ?_ (mxBlockOf_lt _ _ _)
  rw [getS_bind, bind_ok _ (issue_mx attrBlocks w _ s hr hleg rfl rfl rfl hp ht fmtMove_of_mx (fun _ => h32))]
  exact congrFun (if_pos ht.2) s

/-- vmerge of two vectors chooses whole blocks. -/
theorem vmerge_givesBlocks (hp : PrefixFits s w true false) (hf : w.f = 0) (ha : SourceFits s w.a (grpOf s)) :
    GivesBlocks (.vmerge w) s w false (ceilDiv (posOf s) 32) (fun b => activeAt s w false (32 * b))
      (fun b => if (s.hart.mask w.k.toNat).getLsbD (32 * b) then
          s.hart.mxBlockOf (vtFmt s.hart.vec.vtype) (s.hart.vreg w.a) b
        else s.hart.mxBlockOf (vtFmt s.hart.vec.vtype) (s.hart.vreg w.b) b) (fun _ => 0) := by
  have hel : (w.f != 0) = false := by rw [hf]; rfl
  refine givesBlocks_move (.vmerge w) _
    (blockCtx_inBlocks { attrBlocks with msk := .selector, elementwise := w.f != 0 } w s hr rfl) _ rfl hr ht hl hd
    (sel_inBlocks { attrBlocks with msk := .selector, elementwise := w.f != 0 } w s rfl _) _ ?_ (fun b => ?_)
  · rw [getS_bind, bind_ok _ (issue_mx { attrBlocks with msk := .selector, elementwise := w.f != 0 } w _ s hr
      (legalBinary_of ⟨hd, hb, fun _ => ha⟩) rfl rfl hel hp ht fmtMove_of_mx (fun _ => h32))]
    refine (congrFun (if_pos ht.2) s).trans ?_
    congr 1
    funext b
    exact congrArg (fun x => Except.ok (x, 0)) (apply_ite (fun r => s.hart.mxBlockOf (vtFmt s.hart.vec.vtype) r b) _ _ _)
  · split <;> exact mxBlockOf_lt _ _ _ _

end

/-! ## Slides -/

/-- A destination that some turns leave alone. -/
theorem PutSpec.skip {α : Type} {V M : Nat → Prop} {N J : Nat} {view : Hart → Nat → α} {enc : Nat → Nat → α → α} {put : PutFn}
    (hp : PutSpec V M N J view enc put) (p : Nat → Bool) :
    PutSpec V M N J view (fun e x v => if p e then v else enc e x v) (fun e x h => if p e then h else put e x h) := by
  refine ⟨fun e x h he => ?_, fun e x h he => ?_, fun e x h j he hj => ?_, hp.free⟩
  · split
    · exact .refl _ _ _
    · exact hp.only e x h he
  · split
    · rfl
    · exact hp.flags e x h he
  · split
    · exact (ite_self _).symm
    · exact hp.own e x h j he hj

/-- A context whose loop no boundary stops. -/
theorem BlockCtx.cross {s : State} {w : Fld} {c : VCtx} (h : BlockCtx s w c) : BlockCtx s w { c with bound := 16384 } :=
  ⟨h.takes, h.fmt, h.grp, h.dest, h.dreg, h.vl, h.tail, h.pol, by
    have := lenOf_lt s
    show c.vl ≤ 16384
    rw [h.vl]
    omega⟩

/-- The computation of a slide under an MX format: its context and its loop. -/
theorem slide_blocks {s : State} {w : Fld} (i : Instr) (up : Bool) (hi : exec i s = slideWord i w up s) (hr : VecReady s)
    (ht : TypeIn s fmtMx) (h32 : lenOf s % 32 = 0) (hp : PrefixFits s w true true) (hleg : legalCross s.hart w = true) :
    ∃ a c, exec i s = vectorWord i a s ∧ BlockCtx s w c ∧ c.velem = ceilDiv (posOf s) 32 ∧ c.listed = false
      ∧ (∀ b, c.sel b = activeAt s w true (32 * b))
      ∧ a s = elementWise i c
          (fun e x h => if up && e < offsetOf s w && e < lenOf s / 32 then h else c.putBlock (s.hart.vreg w.d) e x h) c.blockCount
          (fun e => .ok (if up then s.hart.mxBlockOf (vtFmt s.hart.vec.vtype) (s.hart.vreg w.b) (e - offsetOf s w)
            else if e + offsetOf s w < lenOf s / 32 then
              s.hart.mxBlockOf (vtFmt s.hart.vec.vtype) (s.hart.vreg w.b) (e + offsetOf s w) else 0, 0)) s := by
  refine ⟨_, _, hi, (blockCtx_inBlocks attrBlocks w s hr rfl).cross, rfl, rfl,
    sel_inBlocks attrBlocks w s rfl (some (s.hart.vreg w.d)), ?_⟩
  have hmx : isMx (ctxOf attrBlocks w s).fmt = true := ht.2
  rw [getS_bind, bind_ok _ (issue_mx attrBlocks w _ s hr hleg rfl rfl rfl hp ht fmtMove_of_mx (fun _ => h32))]
  simp only [hmx, if_true]
  rfl

section
variable {s : State} {w : Fld} (hr : VecReady s) (ht : TypeIn s fmtMx) (hl : LengthOk s.hart) (h32 : lenOf s % 32 = 0)
  (hd : DestsFit s w (grpOf s)) (hb : SourceFits s w.b (grpOf s)) (hp : PrefixFits s w true true)
  (hap : Apart s w (grpOf s) w.b (grpOf s))
include hr ht hl h32 hd hb hp hap

/-- vsldn moves whole blocks down, and zeros in behind VL. -/
theorem vsldn_givesBlocks :
    GivesBlocks (.vsldn w) s w false (ceilDiv (posOf s) 32) (fun b => activeAt s w true (32 * b))
      (fun b => if b + offsetOf s w < lenOf s / 32 then
          s.hart.mxBlockOf (vtFmt s.hart.vec.vtype) (s.hart.vreg w.b) (b + offsetOf s w) else 0) (fun _ => 0) := by
  obtain ⟨a, c, hi, hc, hv, hli, hsel, ha⟩ := slide_blocks (.vsldn w) false rfl hr ht h32 hp (legalCross_of hd hb hap)
  rw [← hv, ← hli]
  refine givesBlocks_move (.vsldn w) a hc _ hi hr ht hl hd hsel _ ha (fun b => ?_)
  split
  · exact mxBlockOf_lt _ _ _ _
  · exact Nat.two_pow_pos _

/-- vslup moves whole blocks up; it writes no block below the offset. -/
theorem vslup_givesBlocks :
    GivesBlocks (.vslup w) s w false (max (ceilDiv (posOf s) 32) (min (offsetOf s w) (lenOf s / 32)))
      (fun b => activeAt s w true (32 * b))
      (fun b => s.hart.mxBlockOf (vtFmt s.hart.vec.vtype) (s.hart.vreg w.b) (b - offsetOf s w)) (fun _ => 0) := by
  obtain ⟨a, c, hi, hc, hv, hli, hsel, ha⟩ := slide_blocks (.vslup w) true rfl hr ht h32 hp (legalCross_of hd hb hap)
  obtain ⟨t, ht', done, hunused⟩ := blocks_turned (.vslup w) a hc _ _ hi hr ht hl hd
    (fun r hdr => (putSpec_putBlock s w c _ (hc.grp ▸ grp_dvd s) hc.dreg (hc.grp ▸ hd) r hdr).skip
      (fun e => true && e < offsetOf s w && e < lenOf s / 32)) _ _ (fun _ => 0) ha (fun _ _ _ _ => rfl)
  refine ⟨t, ht', done.frame, ⟨fun r hdr b hb => ?_, hunused⟩, done.outside, done.masks, done.xs, fun b => ?_⟩
  · rw [done.turns r hdr b hb]
    unfold turned
    simp only [hsel, hv, hli, hc.vl, hc.pol, hc.tail, hc.fmt, Nat.zero_mod, Nat.mod_eq_of_lt (mxBlockOf_lt _ _ _ _),
      Bool.true_and, Bool.false_and, Bool.not_false, Bool.and_true, Bool.and_eq_true, decide_eq_true_eq, if_true]
    by_cases hvl : b < lenOf s / 32
    · by_cases hoff : b < offsetOf s w
      · rw [if_pos (by omega : b < max (ceilDiv (posOf s) 32) (min (offsetOf s w) (lenOf s / 32)))]
        simp only [hvl, hoff, and_self, if_true, ite_self]
      · have hiff : b < max (ceilDiv (posOf s) 32) (min (offsetOf s w) (lenOf s / 32)) ↔ b < ceilDiv (posOf s) 32 := by omega
        simp only [hvl, hoff, hiff, false_and, if_false, if_true]
    · have hiff : b < max (ceilDiv (posOf s) 32) (min (offsetOf s w) (lenOf s / 32)) ↔ b < ceilDiv (posOf s) 32 := by omega
      simp only [hvl, hiff, and_false, if_false]
  · rw [done.flags b]
    simp [bitOf]

end

end Sys2Proof.Machine
end

section
/-! SUPPORT. O20: mxpack, mxunpack and mxdot (R125-R128), and the words on MX blocks together. -/

namespace Sys2Proof.Machine

/-! ## The registers of the ordinary side -/

theorem grpOf_cases (s : State) : grpOf s = 1 ∨ grpOf s = 2 ∨ grpOf s = 4 ∨ grpOf s = 8 := by
  unfold grpOf vtGrp
  have h : fieldOf s.hart.vec.vtype 4 2 < 4 := fieldOf_lt _ _ _
  generalize fieldOf s.hart.vec.vtype 4 2 = k at h
  have hk : k = 0 ∨ k = 1 ∨ k = 2 ∨ k = 3 := by omega
  rcases hk with rfl | rfl | rfl | rfl <;> decide

/-- The ordinary format that mxpack and mxunpack name (R125). -/
def ordFmt (w : Fld) : Nat := w.a.toNat % 16

/-- The registers of the ordinary group for a group of MX registers (R125). -/
def ordRegs (s : State) (w : Fld) : Nat := mxSpan (vtFmt s.hart.vec.vtype) (ordFmt w) (grpOf s)

section
variable {s : State} {w : Fld} (ht : TypeIn s fmtMx)
include ht

theorem ordRegs_eq :
    ordRegs s w = (if vtFmt s.hart.vec.vtype ≤ 11 then 4 else 8) / (if ordFmt w = 5 then 1 else 2) * grpOf s := by
  have hmx : isMx (vtFmt s.hart.vec.vtype) = true := ht.2
  unfold ordRegs mxSpan
  simp only [hmx, Bool.not_true, Bool.false_eq_true, if_false]

/-- An ordinary group of at most 8 registers that begins at a multiple of its size ends by v31. -/
theorem ordRegs_dvd (h8 : ordRegs s w ≤ 8) : ordRegs s w ∣ 32 := by
  rw [ordRegs_eq ht] at h8 ⊢
  rcases grpOf_cases s with g | g | g | g <;> rw [g] at h8 ⊢ <;> split_ifs at h8 ⊢ <;> revert h8 <;> decide

/-- The elements of an MX group fit in the ordinary group for it. -/
theorem ordRegs_hold (hl : LengthOk s.hart) (ho : ordFmt w = 5 ∨ ordFmt w = 6 ∨ ordFmt w = 7) :
    lenOf s ≤ 8192 * ordRegs s w / sewOf (ordFmt w) := by
  have hl' : lenOf s ≤ vlmax s.hart.vec.vtype := hl
  rw [vlmax_mx ht] at hl'
  rw [ordRegs_eq ht]
  unfold mxElems at hl'
  rcases ho with h | h | h <;> rw [h] <;> simp only [sewOf] <;> split_ifs at hl' ⊢ <;> omega

end

/-! ## mxpack -/

/-- Block `b` that mxpack makes of 32 elements, with its events (R126). -/
def packedAt (s : State) (w : Fld) (b : Nat) : Nat × Ev :=
  quantBlock (roundingOf s (vtFmt s.hart.vec.vtype)) (vtFmt s.hart.vec.vtype)
    ((List.range 32).map (fun k => decodeFloat (floatFmt (ordFmt w)) (elemIn s w.b (sewOf (ordFmt w)) (32 * b + k))))

/-- mxpack makes a block of every 32 elements (R126). -/
theorem mxpack_givesBlocks {s : State} {w : Fld} (hr : VecReady s) (hp : PrefixFits s w true true) (ht : TypeIn s fmtMx)
    (hl : LengthOk s.hart) (h8 : ordRegs s w ≤ 8) (h32 : lenOf s % 32 = 0) (hd : DestsFit s w (grpOf s))
    (hb : SourceFits s w.b (ordRegs s w)) (hap : Apart s w (grpOf s) w.b (ordRegs s w))
    (hn : ∀ b, ceilDiv (posOf s) 32 ≤ b → b < lenOf s / 32 → activeAt s w true (32 * b) = true →
      s.hart.vec.vftrap &&& (packedAt s w b).2 = 0) :
    GivesBlocks (.mxpack w) s w true (posOf s / 32) (fun b => posOf s ≤ 32 * b && activeAt s w true (32 * b))
      (fun b => (packedAt s w b).1 % 2 ^ (8 * mxBlock (vtFmt s.hart.vec.vtype) + 8)) (fun b => (packedAt s w b).2) := by
  have hleg : (decide (ordRegs s w ≤ 8) && destOk s.hart ⟨s.hart.vreg w.d, grpOf s⟩
      && (Span.mk (s.hart.vreg w.b) (ordRegs s w)).ok
      && destApart s.hart ⟨s.hart.vreg w.d, grpOf s⟩ ⟨s.hart.vreg w.b, ordRegs s w⟩) = true := by
    rw [decide_eq_true h8, destOk_of (grp_dvd s) hd, span_ok (ordRegs_dvd ht h8) hb (vreg_lt _ _), destApart_of hap]
    rfl
  refine givesBlocks_of (.mxpack w) _ (blockCtx_inListed { attrMx with blocks := true } w s hr rfl) _ rfl hr ht hl hd
    (sel_inListed { attrMx with blocks := true } w s rfl _) (fun b => withEvents s.hart (packedAt s w b)) _ _ ?_ (fun b _ hvl hact => ?_)
  · exact bind_ok _ (issue_mx { attrMx with blocks := true } w _ s hr hleg rfl rfl rfl hp ht (fun _ h => h) (fun _ => h32))
  · rw [Bool.and_eq_true, decide_eq_true_eq] at hact
    exact withEvents_ok (hn b ((ceilDiv_le _ _).2 hact.1) hvl hact.2)

/-! ## mxunpack -/

/-- A word on ordinary destination groups whose results are cut to the element width. -/
theorem writesGroup_turned {s : State} {c : VCtx} {act : Nat → Bool} (i : Instr) (w : Fld) (a : Act Unit) (g n : Nat)
    (hi : exec i s = vectorWord i a s) (hr : VecReady s) (hc : CtxFor s c act) (ht : c.takes = true)
    (hdr : c.dreg = s.hart.dregOf) (hn : n ∣ 8192) (h0 : 0 < n) (hg : g ∣ 32) (hf : DestsFit s w g)
    (hlen : lenOf s ≤ 8192 * g / n) (res : Nat → Except Ev (Nat × Ev)) (val : Nat → Nat) (evs : Nat → Ev)
    (ha : a s = elementWise i c (c.putVec (s.hart.vreg w.d) n) (8192 * g / n) res s)
    (hres : ∀ j, posOf s ≤ j → j < lenOf s → act j = true → res j = .ok (val j, evs j)) :
    WritesGroup i s w g n act (fun e => val e % 2 ^ n) evs := by
  obtain ⟨t, ht', done⟩ := turned_dests i a g (8192 * g / n) (fun r h => h.elem r n) (fun _ x _ => x % 2 ^ n) _
    hi hr (fun r h h' e => funext (elem_congr e r n)) (putSpec_dests s w c g n hn h0 hg hdr hf)
    (fun _ _ => clears_plain _ _ _ _ hc.plain) ht (hc.vl ▸ hc.whole) (hc.vl ▸ hlen) res val evs ha
    (fun j hve hvl hact => hres j (hc.velem ▸ hve) (hc.vl ▸ hvl) ((hc.sel j).symm.trans hact))
  refine ⟨t, ht', done.frame, fun r hdr e he => ?_, done.outside, done.masks, done.xs, fun b => ?_⟩
  · have hlt : e < 8192 * g / n := by
      rw [Nat.lt_div_iff_mul_lt_of_dvd (Nat.pos_iff_ne_zero.mp h0) (Dvd.dvd.mul_right hn g)]
      exact he
    rw [done.turns r hdr e hlt]
    unfold turned written
    simp only [hc.sel, hc.vl, hc.velem, hc.pol, hc.tail, hc.tailed, Nat.zero_mod, Bool.false_and, Bool.not_false, Bool.and_true,
      decide_eq_true_eq]
  · rw [done.flags b]
    simp only [hc.sel, hc.vl, hc.velem]

/-- The element that mxunpack makes of element `e`, with its events (R127). -/
def openedAt (s : State) (w : Fld) (e : Nat) : Nat × Ev :=
  roundVal (roundingOf s (ordFmt w)) (s.hart.mxElem (vtFmt s.hart.vec.vtype) (s.hart.vreg w.b) e)

/-- mxunpack makes an element of every MX element (R127). -/
theorem mxunpack_writesGroup {s : State} {w : Fld} (hr : VecReady s) (hp : PrefixFits s w true true) (ht : TypeIn s fmtMx)
    (hl : LengthOk s.hart) (ho : ordFmt w = 5 ∨ ordFmt w = 6 ∨ ordFmt w = 7) (h8 : ordRegs s w ≤ 8)
    (hd : DestsFit s w (ordRegs s w)) (hb : SourceFits s w.b (grpOf s)) (hap : Apart s w (ordRegs s w) w.b (grpOf s))
    (hn : NoTrap s (activeAt s w true) (fun e => (openedAt s w e).2)) :
    WritesGroup (.mxunpack w) s w (ordRegs s w) (sewOf (ordFmt w)) (activeAt s w true)
      (fun e => (openedAt s w e).1 % 2 ^ sewOf (ordFmt w)) (fun e => (openedAt s w e).2) := by
  have hleg : (decide (ordRegs s w ≤ 8) && destOk s.hart ⟨s.hart.vreg w.d, ordRegs s w⟩
      && (Span.mk (s.hart.vreg w.b) (grpOf s)).ok
      && destApart s.hart ⟨s.hart.vreg w.d, ordRegs s w⟩ ⟨s.hart.vreg w.b, grpOf s⟩) = true := by
    rw [decide_eq_true h8, destOk_of (ordRegs_dvd ht h8) hd, span_ok (grp_dvd s) hb (vreg_lt _ _), destApart_of hap]
    rfl
  have hsew : sewOf (ordFmt w) ∣ 8192 ∧ 0 < sewOf (ordFmt w) := by
    rcases ho with h | h | h <;> rw [h] <;> decide
  refine writesGroup_turned (.mxunpack w) w _ _ _ rfl hr (ctxOf_for attrMx w s hr rfl) rfl rfl hsew.1 hsew.2 (ordRegs_dvd ht h8) hd
    (ordRegs_hold ht hl ho) (fun e => withEvents s.hart (openedAt s w e)) _ _ ?_ (fun e h1 h2 h3 => withEvents_ok (hn e h1 h2 h3))
  exact bind_ok _ (issue_mx attrMx w _ s hr hleg rfl rfl rfl hp ht (fun _ h => h) (fun h => by cases h))

/-! ## mxdot -/

/-- The exact products of the elements of block `k` of two groups (R128). -/
def productsAt (s : State) (w : Fld) (k : Nat) : List FVal :=
  ((List.range 32).map (fun j => 32 * k + j)).map (fun e =>
    if (s.hart.mxElem (vtFmt s.hart.vec.vtype) (s.hart.vreg w.b) e).isNan
        || (s.hart.mxElem (vtFmt s.hart.vec.vtype) (s.hart.vreg w.a) e).isNan then .nan false
    else mulExact (s.hart.mxElem (vtFmt s.hart.vec.vtype) (s.hart.vreg w.b) e)
      (s.hart.mxElem (vtFmt s.hart.vec.vtype) (s.hart.vreg w.a) e))

/-- The old value to which mxdot adds the dot product of block `k`. -/
def oldAt (s : State) (w : Fld) (k : Nat) : FVal := decodeFloat fp32 (elemIn s w.d 32 k)

/-- Whether the dot product of block `k` is an invalid operation (R128). -/
def dotInvalid (s : State) (w : Fld) (k : Nat) : Bool :=
  (productsAt s w k).any FVal.isSig || (oldAt s w k).isSig
    || ((productsAt s w k).contains (.inf true) && (productsAt s w k).contains (.inf false))

/-- The result of mxdot for block `k`, with its events (R128). -/
def dotAt (s : State) (w : Fld) (k : Nat) : Nat × Ev :=
  if (productsAt s w k).any FVal.isNan then (fp32.nanCode, if dotInvalid s w k then 16 else 0)
  else match sumProducts (productsAt s w k) with
    | .nan _ => (fp32.nanCode, if dotInvalid s w k then 16 else 0)
    | v => addVal (roundingOf s 5) (oldAt s w k) v

theorem isNan_of_isSig {x : FVal} (h : x.isSig = true) : x.isNan = true := by
  cases x with
  | nan s => rfl
  | inf n => exact h
  | fin n m e => exact h

/-- Numbers of which none is a NaN have no signalling one. -/
theorem any_isSig_of_no_nan {ps : List FVal} (h : ps.any FVal.isNan = false) : ps.any FVal.isSig = false := by
  rw [List.any_eq_false] at h ⊢
  exact fun x hx hn => h x hx (isNan_of_isSig hn)

/-- A sum of products of which none is a NaN is one only by infinities of both signs. -/
theorem sumProducts_nan {ps : List FVal} (h : ps.any FVal.isNan = false) {sig : Bool} (hs : sumProducts ps = .nan sig) :
    sig = (ps.contains (.inf true) && ps.contains (.inf false)) := by
  have hc (v : FVal) : ps.any (fun p => decide (p = v)) = ps.contains v := by
    rw [List.contains_eq_any_beq]
    congr 1
    funext p
    rw [Bool.eq_iff_iff, decide_eq_true_iff, beq_iff_eq, eq_comm]
  unfold sumProducts at hs
  rw [any_isSig_of_no_nan h, h, hc, hc] at hs
  simp only [Bool.false_or] at hs
  split at hs
  · rw [Bool.and_comm]
    exact (FVal.nan.inj hs).symm
  · split at hs <;> cases hs

/-- The model's dot product of two blocks is the one of R128. -/
theorem dotBlock_eq (s : State) (w : Fld) (k : Nat) :
    dotBlock (roundingOf s 5) ((List.range 32).map (fun j =>
      (s.hart.mxElem (vtFmt s.hart.vec.vtype) (s.hart.vreg w.b) (32 * k + j),
        s.hart.mxElem (vtFmt s.hart.vec.vtype) (s.hart.vreg w.a) (32 * k + j)))) (oldAt s w k) = dotAt s w k := by
  have hps : ((List.range 32).map (fun j =>
      (s.hart.mxElem (vtFmt s.hart.vec.vtype) (s.hart.vreg w.b) (32 * k + j),
        s.hart.mxElem (vtFmt s.hart.vec.vtype) (s.hart.vreg w.a) (32 * k + j)))).map
      (fun p => if p.1.isNan || p.2.isNan then .nan false else mulExact p.1 p.2) = productsAt s w k := by
    unfold productsAt
    rw [List.map_map, List.map_map]
    rfl
  unfold dotBlock dotAt
  simp only [hps]
  have hnv (b : Bool) : evNV.when b = if b then 16 else 0 := rfl
  cases hn : (productsAt s w k).any FVal.isNan with
  | true =>
    have hi : ((productsAt s w k).any FVal.isSig || (productsAt s w k).contains (.inf false)
        && (productsAt s w k).contains (.inf true) || (oldAt s w k).isSig) = dotInvalid s w k := by
      unfold dotInvalid
      rw [Bool.and_comm, Bool.or_right_comm]
    rw [if_pos rfl, if_pos rfl, hi, hnv]
  | false =>
    rw [if_neg Bool.false_ne_true, if_neg Bool.false_ne_true]
    cases hs : sumProducts (productsAt s w k) with
    | nan sig =>
      have hi : (sig || (oldAt s w k).isSig) = dotInvalid s w k := by
        unfold dotInvalid
        rw [sumProducts_nan hn hs, any_isSig_of_no_nan hn, Bool.false_or, Bool.or_comm]
      simp only [hi, hnv]
    | inf n => rfl
    | fin n m e => rfl

/-- The destination registers of mxdot (R128). -/
def dotRegs (s : State) : Nat := max 1 (ceilDiv (vlmax s.hart.vec.vtype) 8192)

theorem dotRegs_dvd {s : State} (ht : TypeIn s fmtMx) : dotRegs s ∣ 32 := by
  unfold dotRegs ceilDiv
  rw [vlmax_mx ht]
  unfold mxElems
  rcases grpOf_cases s with g | g | g | g <;> rw [g] <;> split_ifs <;> decide

/-- The blocks below VL have their elements in the destination of mxdot. -/
theorem dotRegs_hold {s : State} (hl : LengthOk s.hart) : lenOf s / 32 ≤ 256 * dotRegs s := by
  have hl' : lenOf s ≤ vlmax s.hart.vec.vtype := hl
  unfold dotRegs ceilDiv
  omega

/-- Whether mxdot writes block `k`: its predicate bit is the bit of the block's number (R128). -/
def dotActive (s : State) (w : Fld) (k : Nat) : Bool := posOf s ≤ 32 * k && activeAt s w true k

/-- The context of mxdot. -/
def dotCtx (s : State) (w : Fld) : VCtx := { (ctxOf { attrMx with blocks := true } w s).inListed none with sunit := 1 }

theorem dotCtx_velem (s : State) (w : Fld) : (dotCtx s w).velem = posOf s / 32 := rfl
theorem dotCtx_vl (s : State) (w : Fld) : (dotCtx s w).vl = lenOf s / 32 := rfl

theorem sel_dotCtx (s : State) (w : Fld) (k : Nat) : (dotCtx s w).sel k = dotActive s w k := by
  have hlow : decide (ceilDiv (posOf s) 32 ≤ k) = decide (posOf s ≤ 32 * k) := decide_eq_decide.mpr (ceilDiv_le _ _)
  have hsel : (ctxOf { attrMx with blocks := true } w s).sel k = activeAt s w true k := sel_ctxOf _ w s rfl k
  unfold dotActive
  rw [← hsel, ← hlow]
  unfold VCtx.sel dotCtx VCtx.inListed VCtx.inBlocks ctxOf
  simp only [Nat.zero_le, decide_true, Bool.true_and]

/-- mxdot adds to element `k` the dot product of blocks `k` (R128). -/
theorem mxdot_ends {s : State} {w : Fld} (hr : VecReady s) (hp : PrefixFits s w true true) (ht : TypeIn s fmtMx)
    (hl : LengthOk s.hart) (h32 : lenOf s % 32 = 0) (hb : SourceFits s w.b (grpOf s)) (ha : SourceFits s w.a (grpOf s))
    (hd : DestsFit s w (dotRegs s)) (hapb : Apart s w (dotRegs s) w.b (grpOf s)) (hapa : Apart s w (dotRegs s) w.a (grpOf s))
    (hn : ∀ k, k < lenOf s / 32 → dotActive s w k = true → s.hart.vec.vftrap &&& (dotAt s w k).2 = 0) :
    ∃ t, exec (.mxdot w) s = .next t ∧ VecFrame s t true ∧ RegsOutside s t (Dests s w) (dotRegs s) ∧ MasksKept s t ∧ XKept s t
      ∧ (∀ r, Dests s w r → ∀ k, k < 256 * dotRegs s → t.hart.elem r 32 k =
          if lenOf s / 32 ≤ k then if vtTail s.hart.vec.vtype then 0 else s.hart.elem r 32 k
          else if k < posOf s / 32 then s.hart.elem r 32 k
          else if dotActive s w k then (dotAt s w k).1 % 2 ^ 32
          else if s.hart.policy then 0 else s.hart.elem r 32 k)
      ∧ ∀ b, bitOf t.hart.vec.vfflags b = true ↔ bitOf s.hart.vec.vfflags b = true
        ∨ ∃ k, k < lenOf s / 32 ∧ dotActive s w k = true ∧ bitOf (dotAt s w k).2 b = true := by
  have hleg : (destOk s.hart ⟨s.hart.vreg w.d, dotRegs s⟩ && (Span.mk (s.hart.vreg w.b) (grpOf s)).ok
      && (Span.mk (s.hart.vreg w.a) (grpOf s)).ok
      && destApart s.hart ⟨s.hart.vreg w.d, dotRegs s⟩ ⟨s.hart.vreg w.b, grpOf s⟩
      && destApart s.hart ⟨s.hart.vreg w.d, dotRegs s⟩ ⟨s.hart.vreg w.a, grpOf s⟩) = true := by
    rw [destOk_of (dotRegs_dvd ht) hd, span_ok (grp_dvd s) hb (vreg_lt _ _), span_ok (grp_dvd s) ha (vreg_lt _ _),
      destApart_of hapb, destApart_of hapa]
    rfl
  have hN : 8192 * dotRegs s / 32 = 256 * dotRegs s := by omega
  obtain ⟨t, ht', done⟩ := turned_dests
    (c := dotCtx s w) (.mxdot w) _ (dotRegs s) (256 * dotRegs s)
    (fun r h => h.elem r 32) (fun _ x _ => x % 2 ^ 32) _ rfl hr (fun r h h' e => funext (elem_congr e r 32))
    (fun r hr => hN ▸ putSpec_dests s w (dotCtx s w) (dotRegs s) 32 (by decide) (by decide) (dotRegs_dvd ht) rfl hd r hr)
    (fun _ _ => clears_plain _ _ _ _ rfl) rfl (blockCtx_inListed { attrMx with blocks := true } w s hr rfl).whole (dotRegs_hold hl)
    (fun k => withEvents s.hart (dotAt s w k)) (fun k => (dotAt s w k).1) (fun k => (dotAt s w k).2)
    ((bind_ok _ (issue_mx { attrMx with blocks := true } w _ s hr hleg rfl rfl rfl hp ht (fun _ h => h) (fun _ => h32))).trans
      (congrArg (fun res => elementWise (.mxdot w) (dotCtx s w) ((dotCtx s w).putVec (s.hart.vreg w.d) 32) (256 * dotRegs s) res s)
        (funext fun k => congrArg (withEvents s.hart) (dotBlock_eq s w k))))
    (fun k _ hk hact => withEvents_ok (hn k hk ((sel_dotCtx s w k).symm.trans hact)))
  refine ⟨t, ht', done.frame, done.outside, done.masks, done.xs, fun r hdr k hk => ?_, fun b => ?_⟩
  · rw [done.turns r hdr k hk, turned_listed rfl, sel_dotCtx]
    rfl
  · rw [done.flags b]
    simp only [sel_dotCtx, dotCtx_velem, dotCtx_vl]
    have hpos (k : Nat) (h : dotActive s w k = true) : posOf s / 32 ≤ k := by
      unfold dotActive at h
      rw [Bool.and_eq_true, decide_eq_true_eq] at h
      omega
    exact or_congr_right (exists_congr fun k => ⟨fun h => h.2, fun h => ⟨hpos k h.2.1, h⟩⟩)

/-! ## The statement -/

/-- Settles O20: each word runs the loop of R80 over blocks or elements, in the context of its listing; the bytes of a destination
group that no block uses are zeroed at the end of every word that writes blocks (assumption 47). -/
theorem mxWords : Obligations.MxWords := by
  refine ⟨fun s w hr ht hl h32 hd hb => ⟨fun hp => ⟨vmov_givesBlocks hr ht hl h32 hd hb hp, fun hap =>
      ⟨vslup_givesBlocks hr ht hl h32 hd hb hp hap, vsldn_givesBlocks hr ht hl h32 hd hb hp hap⟩⟩,
      fun hp hf ha => vmerge_givesBlocks hr ht hl h32 hd hb hp hf ha⟩,
    fun s w hr hp ht hl => ?_, fun s w hr hp ht hl h32 hb ha => ?_⟩
  · intro fmt other n regs packed opened ho h8
    exact ⟨fun h32 hd hb hap hn => mxpack_givesBlocks hr hp ht hl h8 h32 hd hb hap hn,
      fun hd hb hap hn => mxunpack_writesGroup hr hp ht hl ho h8 hd hb hap hn⟩
  · intro fmt size x y js old products invalid dot act hd hapb hapa hn
    exact mxdot_ends hr hp ht hl h32 hb ha hd hapb hapa hn

end Sys2Proof.Machine
end

section
/-! SUPPORT. Words of a unit (a window, the Crown): what a word that ends in the retirement of a vector word leaves. -/

namespace Sys2Proof.Machine

/-! ## Retirement -/

/-- A hart that differs from another in x registers, vector registers, GRANT, the windows and the B buffers only. -/
def UnitOnly (h h' : Hart) : Prop :=
  h' = { h with
    x := h'.x
    shadow := h'.shadow
    vec := { h.vec with v := h'.vec.v }
    dev := { h.dev with grant := h'.dev.grant }
    run := { h.run with windows := h'.run.windows, bbufs := h'.run.bbufs } }

theorem UnitOnly.refl (h : Hart) : UnitOnly h h := rfl

theorem UnitOnly.setX {h h' : Hart} (ho : UnitOnly h h') (r : BitVec 5) (v : Word) : UnitOnly h (h'.setX r v) := by
  have e : h' = _ := ho
  unfold UnitOnly Hart.setX
  split
  · exact ho
  · split
    all_goals
      rw [e]

theorem UnitOnly.setBbuf {h h' : Hart} (ho : UnitOnly h h') (b : Nat) (x : BBuf) : UnitOnly h (h'.setBbuf b x) := by
  have e : h' = _ := ho
  unfold UnitOnly Hart.setBbuf
  rw [e]

/-- What stands after a retirement as the word left it. -/
structure Retired (u t : State) : Prop where
  mem : t.mem = u.mem
  cores : t.cores = u.cores
  x : t.hart.x = u.hart.x
  shadow : t.hart.shadow = u.hart.shadow
  regs : t.hart.vec.v = u.hart.vec.v
  dev : t.hart.dev = u.hart.dev
  windows : t.hart.run.windows = u.hart.run.windows
  bbufs : t.hart.run.bbufs = u.hart.run.bbufs

/-- The record in the vector queue changes nothing but the queue. -/
theorem enqueue_frame (i : Instr) (old : Hart) (s : State) :
    ∃ q, (enqueue i old s).hart = { s.hart with run := { s.hart.run with queue := q } }
      ∧ (enqueue i old s).mem = s.mem ∧ (enqueue i old s).cur = s.cur ∧ (enqueue i old s).cores = s.cores := by
  unfold enqueue
  by_cases hs : s.stepwise = true
  · rw [if_pos hs]
    exact ⟨_, State.hart_setHart _ _, rfl, rfl, rfl⟩
  · rw [if_neg hs]
    exact ⟨s.hart.run.queue, rfl, rfl, rfl, rfl⟩

/-- A hart whose word has retired is framed as the words of a unit frame it. -/
theorem unitFrame_of_vretire {s t : State} {h' : Hart} {takes : Bool} {q : List VEntry} (hc : t.cur = s.cur)
    (ho : UnitOnly s.hart h')
    (hh : t.hart = { h'.vretire takes with run := { (h'.vretire takes).run with queue := q } }) : UnitFrame s t takes := by
  have e : h' = _ := ho
  refine ⟨hc, ?_, ⟨?_, ?_⟩, ?_, ?_, ?_, ?_, ?_, ?_, ?_⟩
  all_goals
    rw [hh, e]
    rfl

/-- The retirement of a word of a unit that has made `u` of the state. -/
theorem retireVec_unit (i : Instr) (takes : Bool) (s u : State) (hc : u.cur = s.cur) (ho : UnitOnly s.hart u.hart) :
    ∃ t, retireVec i takes u = .ok () t ∧ UnitFrame s (settleReads s.cur 0 t) takes ∧ Retired u (settleReads s.cur 0 t) := by
  obtain ⟨q, hh, hm, hcur, hco⟩ := enqueue_frame i u.hart (u.setHart (u.hart.vretire takes))
  rw [State.hart_setHart] at hh
  refine ⟨_, rfl, unitFrame_of_vretire (hcur.trans hc) ho hh, ?_⟩
  constructor
  · exact hm
  · exact hco
  all_goals
    rw [settleReads_hart, hh]
    rfl

/-- A word of a unit whose computation comes to the retirement of `u` ends in a state that keeps what `u` holds. -/
theorem ends_of_retireVec {s u : State} {i : Instr} {a : Act Unit} (hi : exec i s = vectorWord i a s) (hr : VecReady s)
    (ha : a s = retireVec i false u) (hc : u.cur = s.cur) (ho : UnitOnly s.hart u.hart) {p : State → Prop}
    (hp : ∀ t, UnitFrame s t false → Retired u t → p t) : Ends i s p := by
  obtain ⟨t, ht, hf, hu⟩ := retireVec_unit i false s u hc ho
  exact ⟨_, by rw [hi, vectorWord_ready hr, runAct_ok (ha.trans ht)], hp _ hf hu⟩

/-- A word of a unit that waits leaves the state as it is. -/
theorem stalls_of {s : State} {i : Instr} {a : Act Unit} (hi : exec i s = vectorWord i a s) (hr : VecReady s)
    (ha : a s = .error .stall s) : exec i s = .next s := by
  rw [hi, vectorWord_ready hr, runAct_stall ha]

theorem Retired.coreAt {u t : State} (h : Retired u t) (c : Nat) : t.coreAt c = u.coreAt c := by
  unfold State.coreAt
  rw [h.cores]

end Sys2Proof.Machine
end

section
/-! SUPPORT. The Crown's state: B buffers, tiles and the ring link (R228-R234), and the issue of its words. -/

namespace Sys2Proof.Machine

/-! ## Buffers and tiles -/

theorem Hart.bbuf_setBbuf (h : Hart) (b c : Nat) (x : BBuf) :
    (h.setBbuf b x).bbuf c = if b % 2 = c % 2 then x else h.bbuf c := by
  unfold Hart.bbuf Hart.setBbuf
  exact Vector.getElem_set (Nat.mod_lt _ (by decide)) (Nat.mod_lt _ (by decide))

theorem Hart.bbuf_setBbuf_self (h : Hart) (b : Nat) (x : BBuf) : (h.setBbuf b x).bbuf b = x := by
  rw [Hart.bbuf_setBbuf, if_pos rfl]

theorem Hart.bbuf_congr {h h' : Hart} (hb : h'.run.bbufs = h.run.bbufs) (b : Nat) : h'.bbuf b = h.bbuf b := by
  unfold Hart.bbuf
  rw [hb]

theorem CoreSt.tile_setTile (k : CoreSt) (n m : Nat) (t : Tile) :
    (k.setTile n t).tile m = if n % 8 = m % 8 then t else k.tile m := by
  unfold CoreSt.tile CoreSt.setTile
  exact Vector.getElem_set (Nat.mod_lt _ (by decide)) (Nat.mod_lt _ (by decide))

theorem CoreSt.tile_setTile_self (k : CoreSt) (n : Nat) (t : Tile) : (k.setTile n t).tile n = t := by
  rw [CoreSt.tile_setTile, if_pos rfl]

/-- A tile of the core other than the one replaced. -/
theorem CoreSt.tile_setTile_of_ne (k : CoreSt) {n m : Nat} (t : Tile) (hm : m < 8) (h : m ≠ n % 8) :
    (k.setTile n t).tile m = k.tile m := by
  rw [CoreSt.tile_setTile, if_neg (by omega)]

theorem CoreSt.splitMac_kept (k : CoreSt) (s nt p : Nat) (rows : List Nat) (d : BitVec 16640) :
    (k.splitMac s nt p rows d).link = k.link ∧ (k.splitMac s nt p rows d).passing = k.passing := by
  unfold CoreSt.splitMac
  exact List.foldlRecOn (motive := fun x : CoreSt => x.link = k.link ∧ x.passing = k.passing) _ _ ⟨rfl, rfl⟩
    (fun _ hx _ _ => hx)

/-! ## The ring link (R232) -/

theorem hart_of_core (s : State) : s.hartAt (4 * coreOf s.cur + s.cur % 4) = s.hart := by
  unfold coreOf State.hart
  rw [Nat.div_add_mod]

/-- Where no buffer waits, nothing moves into a link. -/
theorem moveToLink_idle {s : State} {c : Nat} (h : (s.coreAt c).passing = []) : moveToLink s c = s := by
  unfold moveToLink
  simp only [h]
  split
  · next he => cases he
  · rfl

/-- A link that holds a message takes no other. -/
theorem moveToLink_busy {s : State} {c : Nat} (h : (s.coreAt c).link ≠ none) : moveToLink s c = s := by
  unfold moveToLink
  simp only
  split
  · next he _ => exact absurd he h
  · rfl

/-- A free link takes the one buffer that waits, which becomes EMPTY. -/
theorem moveToLink_takes {s : State} {b : Nat} (hl : (s.coreAt (coreOf s.cur)).link = none)
    (hp : (s.coreAt (coreOf s.cur)).passing = [(s.cur % 4, b)]) :
    moveToLink s (coreOf s.cur) =
      (s.setHart (s.hart.setBbuf b { s.hart.bbuf b with loaded := false })).setCoreAt (coreOf s.cur)
        { s.coreAt (coreOf s.cur) with
          link := some { slot := s.cur % 4, buf := b, fmt := (s.hart.bbuf b).fmt, data := (s.hart.bbuf b).data }
          passing := [] } := by
  unfold moveToLink
  simp only [hl, hp, hart_of_core]
  unfold State.setHart coreOf
  rw [Nat.div_add_mod]

/-! ## Issue -/

/-- A K word on a hart that may run it passes its checks. -/
theorem issue_crown {s : State} (w : Fld) {typed legal : Bool} (hr : VecReady s) (hn : NoPrefix s) (hl : legal = true)
    (ht : typed = true → vtIll s.hart.vec.vtype = false) :
    issue (attrCrown typed) w legal s = .ok (ctxOf (attrCrown typed) w s) s :=
  issue_ok _ w legal s hr hl (fun _ => hn) (fun h => by cases h) (fun h => ⟨ht h, rfl⟩) (fun _ h => by cases h)
    (fun h => by cases h) (fun _ => ⟨rfl, rfl⟩)

theorem onCompute_of {s : State} (h : kindOf s.cur = .compute) : onCompute s = true := by
  unfold onCompute
  exact decide_eq_true h

end Sys2Proof.Machine
end

section
/-! SUPPORT. Numbers that stand in rows: the digits of a packed list, the fields of a bit vector, and the bytes of a row
(R230). -/

namespace Sys2Proof.Machine

/-! ## Packed numbers -/

theorem packNat_nil (n : Nat) : packNat n [] = 0 := rfl

theorem packNat_cons (n x : Nat) (l : List Nat) : packNat n (x :: l) = x % 2 ^ n + packNat n l * 2 ^ n := rfl

theorem packNat_lt (n : Nat) (l : List Nat) : packNat n l < 2 ^ (n * l.length) := by
  induction l with
  | nil => exact Nat.two_pow_pos _
  | cons x l ih =>
    have hx : x % 2 ^ n < 2 ^ n := Nat.mod_lt _ (Nat.two_pow_pos n)
    calc packNat n (x :: l) < 2 ^ n + packNat n l * 2 ^ n := Nat.add_lt_add_right hx _
      _ = (packNat n l + 1) * 2 ^ n := by ring
      _ ≤ 2 ^ (n * l.length) * 2 ^ n := Nat.mul_le_mul_right _ ih
      _ = 2 ^ (n * (x :: l).length) := by rw [← Nat.pow_add, List.length_cons, Nat.mul_succ]

/-- Digit `i` of a packed list that has `a` above it. -/
theorem packNat_digit (n a : Nat) (l : List Nat) (i : Nat) (hi : i < l.length) :
    (packNat n l + a * 2 ^ (n * l.length)) / 2 ^ (n * i) % 2 ^ n = (l[i]?).getD 0 % 2 ^ n := by
  induction l generalizing i with
  | nil => exact absurd hi (Nat.not_lt_zero _)
  | cons x l ih =>
    have e : packNat n (x :: l) + a * 2 ^ (n * (x :: l).length)
        = x % 2 ^ n + (packNat n l + a * 2 ^ (n * l.length)) * 2 ^ n := by
      rw [packNat_cons, List.length_cons, Nat.mul_succ, Nat.pow_add]
      ring
    rw [e]
    cases i with
    | zero => simp
    | succ i =>
      rw [Nat.mul_succ, Nat.add_comm (n * i), Nat.pow_add, ← Nat.div_div_eq_div_mul,
        Nat.add_mul_div_right _ _ (Nat.two_pow_pos n), Nat.div_eq_of_lt (Nat.mod_lt _ (Nat.two_pow_pos n)), Nat.zero_add,
        ih i (Nat.lt_of_succ_lt_succ hi)]
      rfl

/-- What stands above a packed list. -/
theorem packNat_above (n a : Nat) (l : List Nat) : (packNat n l + a * 2 ^ (n * l.length)) / 2 ^ (n * l.length) = a := by
  rw [Nat.add_mul_div_right _ _ (Nat.two_pow_pos _), Nat.div_eq_of_lt (packNat_lt n l), Nat.zero_add]

/-- A field of the low bits of a number. -/
theorem fieldOf_bv {w lo len : Nat} (x : Nat) (h : lo + len ≤ w) : fieldOf (bv w x) lo len = x / 2 ^ lo % 2 ^ len := by
  unfold fieldOf
  rw [BitVec.extractLsb'_toNat, BitVec.toNat_ofNat, Nat.shiftRight_eq_div_pow]
  obtain ⟨k, rfl⟩ := Nat.exists_eq_add_of_le h
  rw [Nat.add_assoc, Nat.pow_add, Nat.mod_mul_right_div_self, Nat.pow_add, Nat.mod_mul_right_mod]

/-- A field of a packed list of `m` functions' values. -/
theorem fieldOf_packNat_range {w n m : Nat} (f : Nat → Nat) {i : Nat} (hi : i < m) (hw : n * m ≤ w) :
    fieldOf (bv w (packNat n ((List.range m).map f))) (n * i) n = f i % 2 ^ n := by
  have hl : ((List.range m).map f).length = m := by simp
  have hd := packNat_digit n 0 ((List.range m).map f) i (by omega)
  have hin : n * i + n ≤ n * m := Nat.mul_succ n i ▸ Nat.mul_le_mul_left n hi
  rw [fieldOf_bv _ (by omega)]
  simpa [hi] using hd

/-! ## Bytes of a row -/

theorem ofBytes_lt (l : List Byte) : ofBytes l < 256 ^ l.length := by
  induction l with
  | nil => exact Nat.one_pos
  | cons b l ih =>
    have hb := b.isLt
    simp only [ofBytes, List.length_cons, Nat.pow_succ]
    omega

theorem ofBytes_append (l r : List Byte) : ofBytes (l ++ r) = ofBytes l + 256 ^ l.length * ofBytes r := by
  induction l with
  | nil => simp [ofBytes]
  | cons b l ih =>
    simp only [List.cons_append, ofBytes, List.length_cons, ih]
    ring

/-- The low `n` bytes of a list's number are those of its first `n` entries. -/
theorem ofBytes_mod (l : List Byte) (n : Nat) : ofBytes l % 256 ^ n = ofBytes (l.take n) := by
  rcases Nat.le_total l.length n with h | h
  · rw [List.take_of_length_le h]
    exact Nat.mod_eq_of_lt (lt_of_lt_of_le (ofBytes_lt l) (Nat.pow_le_pow_right (by decide) h))
  · have hl : (l.take n).length = n := List.length_take_of_le h
    conv_lhs => rw [← List.take_append_drop n l, ofBytes_append, hl, Nat.add_mul_mod_self_left]
    exact Nat.mod_eq_of_lt (by have := ofBytes_lt (l.take n); rwa [hl] at this)

/-- `n` bytes of memory whose byte `k` stands in piece `k / 4` at an address of its own (R230). -/
def rowAt (s : State) (pa : Nat → Nat) (n : Nat) : Nat :=
  ofBytes ((List.range n).map (fun k => readByte s.mem (pa (k / 4) + k % 4)))

theorem readBytes_eq_map (m : List Host.Cell) (n a : Nat) :
    readBytes m n a = (List.range n).map (fun k => readByte m (a + k)) := by
  apply List.ext_getElem?
  intro i
  rw [getElem?_readBytes]
  by_cases h : i < n <;> simp [h]

theorem rowAt_zero (s : State) (pa : Nat → Nat) : rowAt s pa 0 = 0 := rfl

/-- The bytes of a piece stand below those of the pieces after it. -/
theorem rowAt_succ (s : State) (pa : Nat → Nat) (n : Nat) :
    rowAt s pa (4 * (n + 1)) = readNat s.mem (pa 0) 4 + rowAt s (fun k => pa (k + 1)) (4 * n) * 2 ^ 32 := by
  have hsplit : (List.range (4 * (n + 1))).map (fun k => readByte s.mem (pa (k / 4) + k % 4))
      = readBytes s.mem 4 (pa 0) ++ (List.range (4 * n)).map (fun k => readByte s.mem (pa (k / 4 + 1) + k % 4)) := by
    rw [show 4 * (n + 1) = 4 + 4 * n by ring, List.range_add, List.map_append, List.map_map, readBytes_eq_map]
    congr 1
    exact List.map_congr_left (fun k _ => by
      show readByte s.mem (pa ((4 + k) / 4) + (4 + k) % 4) = _
      rw [Nat.add_div_left k (by decide), Nat.add_mod_left])
  unfold rowAt readNat
  rw [hsplit, ofBytes_append, readBytes_eq_map, List.length_map, List.length_range]
  ring

/-- A row of `n` bytes is the low part of the pieces that hold it. -/
theorem rowAt_mod (s : State) (pa : Nat → Nat) (n : Nat) : rowAt s pa (4 * ceilDiv n 4) % 2 ^ (8 * n) = rowAt s pa n := by
  have h : n ≤ 4 * ceilDiv n 4 := by
    unfold ceilDiv
    omega
  unfold rowAt
  rw [Nat.pow_mul, ofBytes_mod, ← List.map_take, List.take_range, Nat.min_eq_left h]

theorem rowAt_lt (s : State) (pa : Nat → Nat) (n : Nat) : rowAt s pa n < 2 ^ (8 * n) := by
  have := ofBytes_lt ((List.range n).map (fun k => readByte s.mem (pa (k / 4) + k % 4)))
  rw [List.length_map, List.length_range] at this
  rw [Nat.pow_mul]
  exact this

end Sys2Proof.Machine
end

section
/-! SUPPORT. The Crown's words that read no memory: grants, tiles and msync (R229, R236). -/

namespace Sys2Proof.Machine

/-- What every word of the Crown leaves alone. -/
def CrownStill (s t : State) : Prop :=
  UnitFrame s t false ∧ t.mem = s.mem ∧ t.hart.run.windows = s.hart.run.windows

/-- GRANT and the x registers keep their values. -/
def GrantKept (s t : State) : Prop := t.hart.dev = s.hart.dev ∧ XKept s t

/-- The B buffers keep their contents. -/
def BuffersKept (s t : State) : Prop := t.hart.run.bbufs = s.hart.run.bbufs

/-- A word that changes nothing of its hart but by retiring keeps the registers, GRANT and the buffers. -/
theorem crown_kept {s u t : State} (hf : UnitFrame s t false) (hd : Retired u t) (hm : u.mem = s.mem)
    (hu : u.hart = s.hart) :
    CrownStill s t ∧ RegsKept s t ∧ GrantKept s t ∧ BuffersKept s t := by
  obtain ⟨hmem, -, hx, hsh, hregs, hdev, hwin, hbb⟩ := hd
  rw [hu] at hx hsh hregs hdev hwin hbb
  exact ⟨⟨hf, hmem.trans hm, hwin⟩, hregs, ⟨hdev, hx, hsh⟩, hbb⟩

/-! ## Grants (R229) -/

/-- A hart after mattach has answered `rd` and left `g` in GRANT. -/
def Hart.attached (h : Hart) (r : BitVec 5) (rd : Word) (g : BitVec 7) : Hart :=
  { h.setX r rd with dev := { h.dev with grant := g } }

theorem Hart.setX_frame (h : Hart) (r : BitVec 5) (v : Word) :
    (h.setX r v).dev = h.dev ∧ (h.setX r v).vec = h.vec ∧ (h.setX r v).run = h.run := by
  unfold Hart.setX
  split
  · exact ⟨rfl, rfl, rfl⟩
  · split <;> exact ⟨rfl, rfl, rfl⟩

/-- An answer that grants nothing leaves GRANT. -/
theorem Hart.attached_same (h : Hart) (r : BitVec 5) (rd : Word) : h.attached r rd h.dev.grant = h.setX r rd := by
  obtain ⟨hd, -, -⟩ := h.setX_frame r rd
  show { h.setX r rd with dev := h.dev } = _
  rw [← hd]

/-- What mattach makes of its hart. -/
def attach (w : Fld) (s : State) : Hart :=
  if s.hart.grantTiles ≠ 0 then s.hart.attached w.d 2 s.hart.dev.grant
  else match freeTiles s (coreOf s.cur) w.a.toNat with
    | none => s.hart.attached w.d 1 s.hart.dev.grant
    | some f => s.hart.attached w.d 0 (bv 7 (f * 16 + w.a.toNat))

/-- What mdetach makes of a hart that holds a grant: the buffers hold what they held, or zero (R229). -/
def emptied (s : State) : Hart :=
  let empty (b : Nat) : BBuf :=
    { s.hart.bbuf b with
      loaded := false
      data := if Config.freeNat (s.fresh + b) % 2 = 0 then (s.hart.bbuf b).data else 0 }
  (({ s.hart with dev := { s.hart.dev with grant := 0 } } : Hart).setBbuf 0 (empty 0)).setBbuf 1 (empty 1)

theorem emptied_only (s : State) : UnitOnly s.hart (emptied s) := by
  have freed : UnitOnly s.hart { s.hart with dev := { s.hart.dev with grant := 0 } } := rfl
  exact (freed.setBbuf _ _).setBbuf _ _

theorem emptied_empty (s : State) : ((emptied s).bbuf 0).loaded = false ∧ ((emptied s).bbuf 1).loaded = false := by
  unfold emptied
  rw [Hart.bbuf_setBbuf, Hart.bbuf_setBbuf, Hart.bbuf_setBbuf]
  exact ⟨rfl, rfl⟩

section
variable {s : State} (hr : VecReady s) (hk : kindOf s.cur = .compute) (hn : NoPrefix s)
include hr hk hn

/-- mattach answers `rd` and leaves `g` in GRANT where its cases say so. -/
theorem mattach_ends (w : Fld) (ht : vtIll s.hart.vec.vtype = false) (h1 : 1 ≤ w.a.toNat) (h8 : w.a.toNat ≤ 8) {rd : Word}
    {g : BitVec 7} (hg : attach w s = s.hart.attached w.d rd g) :
    Ends (.mattach w) s (fun t => CrownStill s t ∧ RegsKept s t ∧ BuffersKept s t
      ∧ t.hart.dev = { s.hart.dev with grant := g } ∧ SetsX s t w.d rd
      ∧ t.coreAt (coreOf s.cur) = s.coreAt (coreOf s.cur)) := by
  have hi := issue_crown (typed := true) w hr hn (legal := onCompute s && 1 ≤ w.a.toNat && w.a.toNat ≤ 8)
    (by simp [onCompute_of hk, h1, h8]) (fun _ => ht)
  have hu : (s.setHart (attach w s)).hart = s.hart.attached w.d rd g := (State.hart_setHart _ _).trans hg
  refine ends_of_retireVec (u := s.setHart (attach w s)) rfl hr ?_ rfl ?_ (fun t hf hd => ?_)
  · rw [getS_bind, bind_ok _ hi]
    unfold attach
    by_cases h0 : s.hart.grantTiles ≠ 0
    · rw [if_pos h0, if_pos h0, Hart.attached_same]
      rfl
    · rw [if_neg h0, if_neg h0]
      cases freeTiles s (coreOf s.cur) w.a.toNat with
      | none =>
        rw [Hart.attached_same]
        rfl
      | some f => rfl
  · rw [hu]
    have e : s.hart.setX w.d rd = _ := (UnitOnly.refl s.hart).setX w.d rd
    unfold UnitOnly Hart.attached
    rw [e]
  · obtain ⟨-, hvec, hrun⟩ := s.hart.setX_frame w.d rd
    have hcore := hd.coreAt (coreOf s.cur)
    obtain ⟨hmem, -, hx, hsh, hregs, hdev, hwin, hbb⟩ := hd
    rw [hu] at hx hsh hregs hdev hwin hbb
    exact ⟨⟨hf, hmem, hwin.trans (congrArg Run.windows hrun)⟩, hregs.trans (congrArg Vec.v hvec),
      hbb.trans (congrArg Run.bbufs hrun), hdev, ⟨hx, hsh⟩, hcore⟩

/-- mdetach and msync wait while a buffer of the hart waits for the link. -/
theorem detached_waits (w : Fld) (hp : passWaits s s.cur = true) :
    exec (.mdetach w) s = .next s ∧ exec (.msync w) s = .next s := by
  have hi := issue_crown (typed := false) w hr hn (onCompute_of hk) (fun h => by cases h)
  have hw : ensure (!(passWaits s s.cur)) .stall s = .error .stall s := by
    rw [hp]
    rfl
  constructor
  · refine stalls_of rfl hr ?_
    rw [getS_bind, bind_ok _ hi, bind_error _ hw]
  · refine stalls_of rfl hr ?_
    rw [getS_bind, bind_ok _ hi, bind_error _ hw]

/-- mdetach of a hart that holds a grant gives the tiles back and empties both buffers. -/
theorem mdetach_ends (w : Fld) (hp : passWaits s s.cur = false) :
    Ends (.mdetach w) s (fun t => CrownStill s t ∧ RegsKept s t ∧ XKept s t
      ∧ (s.hart.grantTiles ≠ 0 → t.hart.dev = { s.hart.dev with grant := 0 }
        ∧ (t.hart.bbuf 0).loaded = false ∧ (t.hart.bbuf 1).loaded = false)
      ∧ (s.hart.grantTiles = 0 → t.hart.dev = s.hart.dev ∧ BuffersKept s t)
      ∧ (t.coreAt (coreOf s.cur)).tiles = (s.coreAt (coreOf s.cur)).tiles) := by
  have hi := issue_crown (typed := false) w hr hn (onCompute_of hk) (fun h => by cases h)
  have hw : (!(passWaits s s.cur)) = true := by rw [hp]; rfl
  by_cases h0 : s.hart.grantTiles ≠ 0
  · refine ends_of_retireVec (u := s.useFresh.useFresh.setHart (emptied s)) rfl hr ?_ rfl ?_ (fun t hf hd => ?_)
    · rw [getS_bind, bind_ok _ hi, ensure_bind _ _ _ hw, if_pos h0]
      rfl
    · rw [State.hart_setHart]
      exact emptied_only s
    · have hcore := hd.coreAt (coreOf s.cur)
      obtain ⟨hmem, -, hx, hsh, hregs, hdev, hwin, hbb⟩ := hd
      rw [State.hart_setHart] at hx hsh hregs hdev hwin hbb
      obtain ⟨e0, e1⟩ := emptied_empty s
      refine ⟨⟨hf, hmem, hwin⟩, hregs, ⟨hx, hsh⟩, fun _ => ⟨hdev, ?_, ?_⟩, fun h => absurd h h0, congrArg CoreSt.tiles hcore⟩
      · rw [Hart.bbuf_congr hbb, e0]
      · rw [Hart.bbuf_congr hbb, e1]
  · refine ends_of_retireVec (u := s) rfl hr ?_ rfl (UnitOnly.refl _) (fun t hf hd => ?_)
    · rw [getS_bind, bind_ok _ hi, ensure_bind _ _ _ hw, if_neg h0]
      rfl
    · obtain ⟨hs, hv, ⟨hdev, hx⟩, hb⟩ := crown_kept hf hd rfl rfl
      exact ⟨hs, hv, hx, fun h => absurd h h0, fun _ => ⟨hdev, hb⟩, congrArg CoreSt.tiles (hd.coreAt _)⟩

/-! ## msync and the tiles (R236) -/

/-- msync goes on once no buffer of the hart waits. -/
theorem msync_ends (w : Fld) (hp : passWaits s s.cur = false) :
    Ends (.msync w) s (fun t => CrownStill s t ∧ RegsKept s t ∧ GrantKept s t ∧ BuffersKept s t
      ∧ t.coreAt (coreOf s.cur) = s.coreAt (coreOf s.cur)) := by
  have hi := issue_crown (typed := false) w hr hn (onCompute_of hk) (fun h => by cases h)
  have hw : (!(passWaits s s.cur)) = true := by rw [hp]; rfl
  refine ends_of_retireVec (u := s) rfl hr ?_ rfl (UnitOnly.refl _) (fun t hf hd => ?_)
  · rw [getS_bind, bind_ok _ hi, ensure_bind _ _ _ hw]
    rfl
  · obtain ⟨hs, hv, hg, hb⟩ := crown_kept hf hd rfl rfl
    exact ⟨hs, hv, hg, hb, hd.coreAt _⟩

omit hk hn in
/-- What a word leaves that replaces tile `n` of the hart's core by `x` and changes nothing else. -/
theorem setTile_ends {i : Instr} {a : Act Unit} {n : Nat} {x : Tile} (hx : exec i s = vectorWord i a s)
    (ha : a s = (setTileHere n x >>= fun _ => retireVec i false) s) :
    Ends i s (fun t => CrownStill s t ∧ RegsKept s t ∧ GrantKept s t ∧ BuffersKept s t
      ∧ (∀ m < 8, m ≠ n % 8 → (t.coreAt (coreOf s.cur)).tile m = (s.coreAt (coreOf s.cur)).tile m)
      ∧ (t.coreAt (coreOf s.cur)).tile n = x) := by
  refine ends_of_retireVec (u := s.setCoreAt (coreOf s.cur) ((s.coreAt (coreOf s.cur)).setTile n x)) hx hr ha rfl
    (UnitOnly.refl _) (fun t hf hd => ?_)
  obtain ⟨hs, hv, hg, hb⟩ := crown_kept hf hd rfl rfl
  have hcore := (hd.coreAt (coreOf s.cur)).trans (State.coreAt_setCoreAt_self _ _ _)
  refine ⟨hs, hv, hg, hb, fun m hm hne => ?_, ?_⟩
  · rw [hcore, CoreSt.tile_setTile_of_ne _ _ hm hne]
  · rw [hcore, CoreSt.tile_setTile_self]

/-- mzero clears a tile. -/
theorem mzero_ends (w : Fld) (ht : vtIll s.hart.vec.vtype = false) (hg : w.d.toNat % 8 < s.hart.grantTiles) :
    let n := s.hart.grantFirst + w.d.toNat % 8
    Ends (.mzero w) s (fun t => CrownStill s t ∧ RegsKept s t ∧ GrantKept s t ∧ BuffersKept s t
      ∧ (∀ m < 8, m ≠ n % 8 → (t.coreAt (coreOf s.cur)).tile m = (s.coreAt (coreOf s.cur)).tile m)
      ∧ (t.coreAt (coreOf s.cur)).tile n = {}) := by
  have hi := issue_crown (typed := true) w hr hn (legal := onCompute s && w.d.toNat % 8 < s.hart.grantTiles)
    (by simp [onCompute_of hk, hg]) (fun _ => ht)
  refine setTile_ends hr rfl ?_
  rw [getS_bind, bind_ok _ hi]
  rfl

/-- mwrite sets the values of a tile from a vector register. -/
theorem mwrite_ends (w : Fld) (ht : vtIll s.hart.vec.vtype = false) (hg : w.d.toNat % 8 < s.hart.grantTiles) :
    let n := s.hart.grantFirst + w.d.toNat % 8
    Ends (.mwrite w) s (fun t => CrownStill s t ∧ RegsKept s t ∧ GrantKept s t ∧ BuffersKept s t
      ∧ (∀ m < 8, m ≠ n % 8 → (t.coreAt (coreOf s.cur)).tile m = (s.coreAt (coreOf s.cur)).tile m)
      ∧ (t.coreAt (coreOf s.cur)).tile n = { vals := s.hart.vec.v[s.hart.vreg w.b % 32]'(Nat.mod_lt _ (by decide)) }) := by
  have hi := issue_crown (typed := true) w hr hn (legal := onCompute s && w.d.toNat % 8 < s.hart.grantTiles)
    (by simp [onCompute_of hk, hg]) (fun _ => ht)
  refine setTile_ends hr rfl ?_
  rw [getS_bind, bind_ok _ hi]
  rfl

/-- mread writes a register from a tile, or from the split block that it heads. -/
theorem mread_ends (w : Fld) (ht : vtIll s.hart.vec.vtype = false) (hg : w.a.toNat % 8 < s.hart.grantTiles) :
    let c := s.coreAt (coreOf s.cur)
    let p := s.hart.grantFirst + w.a.toNat % 8
    ((c.tile p).mode = .split → (c.tile p).first = 0) →
    Ends (.mread w) s (fun t => CrownStill s t ∧ GrantKept s t ∧ BuffersKept s t ∧ t.coreAt (coreOf s.cur) = c
      ∧ (∀ i, (hi : i < 32) → i ≠ s.hart.vreg w.d % 32 → t.hart.vec.v[i] = s.hart.vec.v[i])
      ∧ t.hart.vec.v[s.hart.vreg w.d % 32]'(Nat.mod_lt _ (by decide)) = readTile c p) := by
  intro c p hfirst
  have hi := issue_crown (typed := true) w hr hn (legal := onCompute s && w.a.toNat % 8 < s.hart.grantTiles)
    (by simp [onCompute_of hk, hg]) (fun _ => ht)
  have hhead : ((c.tile p).mode ≠ .split || (c.tile p).first = 0) = true := by
    by_cases hm : (c.tile p).mode = .split
    · simp [hm, hfirst hm]
    · simp [hm]
  refine ends_of_retireVec (u := s.setHart { s.hart with vec := { s.hart.vec with
    v := s.hart.vec.v.set (s.hart.vreg w.d % 32) (readTile c p) (Nat.mod_lt _ (by decide)) } }) rfl hr ?_ rfl ?_
    (fun t hf hd => ?_)
  · rw [getS_bind, bind_ok _ hi, ensure_bind _ _ _ hhead]
    rfl
  · rw [State.hart_setHart]
    rfl
  · have hcore := hd.coreAt (coreOf s.cur)
    obtain ⟨hmem, -, hx, hsh, hregs, hdev, hwin, hbb⟩ := hd
    rw [State.hart_setHart] at hx hsh hregs hdev hwin hbb
    refine ⟨⟨hf, hmem, hwin⟩, ⟨hdev, hx, hsh⟩, hbb, hcore, fun i hi hne => ?_, ?_⟩
    · simp only [hregs]
      exact Vector.getElem_set_ne _ hi (Ne.symm hne)
    · simp only [hregs]
      exact Vector.getElem_set_self _

end

/-! ## What mread writes -/

theorem readTile_plain {k : CoreSt} {p : Nat} (h : (k.tile p).mode ≠ .split) : readTile k p = (k.tile p).vals := by
  unfold readTile
  exact if_neg h

/-- A result of a split block stands in its doubleword of the register. -/
theorem readTile_split {k : CoreSt} {p o : Nat} (h : (k.tile p).mode = .split) (ho : o < 32) :
    fieldOf (readTile k p) (64 * o) 64 =
      splitResult (k.tile p) (fun n => (k.tile (p + n / 256)).val (n % 256)) o % 2 ^ 64 := by
  unfold readTile
  simp only [if_pos h]
  exact fieldOf_packNat_range _ ho (by decide)

/-- A doubleword of one register. -/
theorem elem_doubleword (h : Hart) {r o : Nat} (hr : r < 32) (ho : o < 32) : h.elem r 64 o = fieldOf h.vec.v[r] (64 * o) 64 := by
  have hi : (r + o * 64 / 8192) % 32 = r := by omega
  have hm : o * 64 % 8192 = 64 * o := by omega
  unfold Hart.elem
  simp only [hi, hm]

end Sys2Proof.Machine
end

section
/-! SUPPORT. The operands that the Crown's words read: rows of memory in pieces of 4 bytes (R230-R232). -/

namespace Sys2Proof.Machine

/-- An access that is placed in this package finds its place. -/
theorem locate_of_placedBy {e : Env} {s u : State} {k : Acc} {va n a : Nat} (h : PlacedBy e s k va n a u) :
    locate e k va n s = .ok (.mem a) u := by
  obtain ⟨-, -, hr⟩ := h
  unfold locate
  rw [hr]

/-- No fence holds a vector access that is placed. -/
theorem pastBars_of_placedBy {s u : State} {k : Acc} {va n a : Nat} (h : PlacedBy (vecEnv s) s k va n a u) :
    pastBars (vecEnv s) s = .ok () s := by
  obtain ⟨-, hb, -⟩ := h
  have hb' : barred s (vecEnv s).who (vecEnv s).vec = false := hb
  unfold pastBars
  rw [hb']
  rfl

/-- A piece of an operand at a virtual address stands at a place that the word may read, in sound memory. -/
def PieceAt (e : Env) (s : State) (va a : Nat) : Prop :=
  PlacedBy e s .load va 4 a s ∧ localPlace s a = true ∧ poisoned s a 4 = none

/-- `n` pieces of a row that stands at a virtual address. -/
theorem loadPieces_ok {e : Env} {s : State} {pa : Nat → Nat} {va n : Nat} (hva : va < 2 ^ 64)
    (h : ∀ k < n, PieceAt e s ((va + 4 * k) % 2 ^ 64) (pa k)) :
    loadPieces e localPlace n va s = .ok (rowAt s pa (4 * n)) s := by
  induction n generalizing va pa with
  | zero => rfl
  | succ n ih =>
    obtain ⟨hp, hl, hs⟩ := h 0 (Nat.succ_pos n)
    rw [Nat.mul_zero, Nat.add_zero, Nat.mod_eq_of_lt hva] at hp
    have hrest := ih (pa := fun k => pa (k + 1)) (Nat.mod_lt (va + 4) (by decide)) (fun k hk => by
      have := h (k + 1) (Nat.succ_lt_succ hk)
      rwa [show (va + 4 * (k + 1)) % 2 ^ 64 = ((va + 4) % 2 ^ 64 + 4 * k) % 2 ^ 64 by omega] at this)
    unfold loadPieces
    rw [bind_ok _ (locate_of_placedBy hp), getS_bind]
    show (ensure (localPlace s (pa 0)) _ >>= _) s = _
    rw [ensure_bind _ _ _ hl, bind_ok _ (loadMem_ok hs), bind_ok _ hrest, rowAt_succ]
    rfl

/-- The address `i` strides after a base. -/
def strided (base stride i : Nat) : Nat := (base + i * stride) % 2 ^ 64

theorem strided_succ (base stride i : Nat) : strided ((base + stride) % 2 ^ 64) stride i = strided base stride (i + 1) := by
  unfold strided
  rw [Nat.mod_add_mod, Nat.succ_mul]
  congr 1
  omega

/-- Row `i` of `n` bytes of an operand at a base and a stride: it begins at a multiple of 8, and its pieces can be read. -/
def RowAt (e : Env) (s : State) (pa : Nat → Nat) (va n : Nat) : Prop :=
  va % 8 = 0 ∧ ∀ k < ceilDiv n 4, PieceAt e s ((va + 4 * k) % 2 ^ 64) (pa k)

/-- The rows of a B operand. -/
theorem loadRows_ok {e : Env} {s : State} {pa : Nat → Nat → Nat} {base stride bytes n : Nat} (hb : base < 2 ^ 64)
    (h : ∀ i < n, RowAt e s (pa i) (strided base stride i) bytes) :
    loadRows e localPlace stride bytes n base s = .ok ((List.range n).map (fun i => rowAt s (pa i) bytes)) s := by
  induction n generalizing base pa with
  | zero => rfl
  | succ n ih =>
    obtain ⟨ha, hp⟩ := h 0 (Nat.succ_pos n)
    have h0 : strided base stride 0 = base := by
      unfold strided
      rw [Nat.zero_mul, Nat.add_zero, Nat.mod_eq_of_lt hb]
    rw [h0] at ha hp
    have hrest := ih (pa := fun i => pa (i + 1)) (Nat.mod_lt (base + stride) (by decide)) (fun i hi => by
      rw [strided_succ]
      exact h (i + 1) (Nat.succ_lt_succ hi))
    unfold loadRows
    rw [ensure_bind _ _ _ (decide_eq_true ha), bind_ok _ (loadPieces_ok hb hp), bind_ok _ hrest, rowAt_mod,
      List.range_succ_eq_map, List.map_cons, List.map_map]
    rfl

/-- The A rows of a multiply-accumulate, which lie in the TCM window. -/
theorem loadARows_ok {e : Env} {s : State} {pa : Nat → Nat → Nat} {base stride bytes n : Nat} (hb : base < 2 ^ 64)
    (h : ∀ i < n, RowAt e s (pa i) (strided base stride i) bytes ∧ tcmWindow (strided base stride i) = true
      ∧ tcmWindow (strided base stride i + bytes - 1) = true) :
    loadARows e stride bytes n base s = .ok ((List.range n).map (fun i => rowAt s (pa i) bytes)) s := by
  induction n generalizing base pa with
  | zero => rfl
  | succ n ih =>
    obtain ⟨⟨ha, hp⟩, hw1, hw2⟩ := h 0 (Nat.succ_pos n)
    have h0 : strided base stride 0 = base := by
      unfold strided
      rw [Nat.zero_mul, Nat.add_zero, Nat.mod_eq_of_lt hb]
    rw [h0] at ha hp hw1 hw2
    have hrow : loadARow e bytes base s = .ok (rowAt s (pa 0) (4 * ceilDiv bytes 4)) s := by
      unfold loadARow
      rw [ensure_bind _ _ _ (decide_eq_true ha), ensure_bind _ _ _ hw1, ensure_bind _ _ _ hw2]
      exact loadPieces_ok hb hp
    have hrest := ih (pa := fun i => pa (i + 1)) (Nat.mod_lt (base + stride) (by decide)) (fun i hi => by
      rw [strided_succ]
      exact h (i + 1) (Nat.succ_lt_succ hi))
    unfold loadARows
    rw [bind_ok _ hrow, bind_ok _ hrest, rowAt_mod, List.range_succ_eq_map, List.map_cons, List.map_map]
    rfl

end Sys2Proof.Machine
end

section
/-! SUPPORT. mload and mmac (R230-R235). -/

namespace Sys2Proof.Machine

/-! ## Formats (R230) -/

/-- Every Crown format has rows, and a B tile with its auxiliary row fits a buffer. -/
theorem crownFmt_fits {t : Word} {f : CrownFmt} (h : crownFmt t = some f) :
    0 < f.kt ∧ 0 < f.brow ∧ 0 < f.rb ∧ 8 * f.brow * f.kt + 8 * f.baux ≤ 16640 := by
  unfold crownFmt at h
  split at h
  case h_11 =>
    split at h
    · cases h
    · cases h
      decide
  case h_12 => cases h
  all_goals
    cases h
    decide

theorem needFmt_ok {s : State} {f : CrownFmt} (w : Fld) (h : crownFmt s.hart.vec.vtype = some f) :
    needFmt (ctxOf (attrCrown true) w s).vtype s = .ok f s := by
  show needFmt s.hart.vec.vtype s = _
  unfold needFmt
  rw [h]

/-! ## mload (R231) -/

theorem loadAux_ok {e : Env} {s : State} {pa : Nat → Nat} {base stride n : Nat} (hb : base < 2 ^ 64)
    (h : n ≠ 0 → RowAt e s pa base n) :
    ∃ l, loadRows e localPlace stride n (if n = 0 then 0 else 1) base s = .ok l s ∧ l.headD 0 = rowAt s pa n := by
  by_cases hn : n = 0
  · exact ⟨[], by rw [if_pos hn]; rfl, by rw [hn]; rfl⟩
  · have h0 : strided base stride 0 = base := by
      unfold strided
      rw [Nat.zero_mul, Nat.add_zero, Nat.mod_eq_of_lt hb]
    have hrow := loadRows_ok (pa := fun _ => pa) (n := 1) (stride := stride) hb (fun i hi => by
      rw [Nat.lt_one_iff.mp hi, h0]
      exact h hn)
    exact ⟨_, by rw [if_neg hn]; exact hrow, rfl⟩

/-- The content of a buffer: the rows of a B tile, then its auxiliary row. -/
def bufferData (f : CrownFmt) (row : Nat → Nat) (aux : Nat) : BitVec 16640 :=
  bv 16640 (packNat (8 * f.brow) ((List.range f.kt).map row) + aux * 2 ^ (8 * f.brow * f.kt))

theorem bufferData_row {f : CrownFmt} (hf : 8 * f.brow * f.kt + 8 * f.baux ≤ 16640) (row : Nat → Nat) (aux : Nat) {i : Nat}
    (hi : i < f.kt) : fieldOf (bufferData f row aux) (8 * f.brow * i) (8 * f.brow) = row i % 2 ^ (8 * f.brow) := by
  have hd := packNat_digit (8 * f.brow) aux ((List.range f.kt).map row) i (by simpa using hi)
  rw [List.length_map, List.length_range] at hd
  have hfit : 8 * f.brow * i + 8 * f.brow ≤ 8 * f.brow * f.kt := Nat.mul_succ (8 * f.brow) i ▸ Nat.mul_le_mul_left _ hi
  unfold bufferData
  rw [fieldOf_bv _ (by omega), hd]
  simp [hi]

theorem bufferData_aux {f : CrownFmt} (hf : 8 * f.brow * f.kt + 8 * f.baux ≤ 16640) (row : Nat → Nat) (aux : Nat) :
    fieldOf (bufferData f row aux) (8 * f.brow * f.kt) (8 * f.baux) = aux % 2 ^ (8 * f.baux) := by
  have hd := packNat_above (8 * f.brow) aux ((List.range f.kt).map row)
  rw [List.length_map, List.length_range] at hd
  unfold bufferData
  rw [fieldOf_bv _ hf, hd]

/-- The buffer that mload leaves, whose row `i` stands at `pa i` and whose auxiliary row follows the last. -/
def loadedBuffer (s : State) (f : CrownFmt) (pa : Nat → Nat → Nat) : BBuf where
  loaded := true
  fmt := bv 4 (vtFmt s.hart.vec.vtype)
  data := bufferData f (fun i => rowAt s (pa i) f.brow) (rowAt s (pa f.kt) f.baux)

section
variable {s : State} (hr : VecReady s) (hk : kindOf s.cur = .compute) (hn : NoPrefix s)
  (ht : vtIll s.hart.vec.vtype = false) {f : CrownFmt} (hf : crownFmt s.hart.vec.vtype = some f)
include hr hk hn ht hf

/-- mload fills a buffer with the rows that it reads. -/
theorem mload_ends (w : Fld) (pa : Nat → Nat → Nat)
    (hp : (s.coreAt (coreOf s.cur)).passing.contains (s.cur % 4, w.f.toNat % 2) = false)
    (hrow : ∀ i < f.kt, RowAt (vecEnv s) s (pa i) (strided (s.hart.getX w.a).toNat (s.hart.getX w.b).toNat i) f.brow)
    (haux : f.baux ≠ 0 →
      RowAt (vecEnv s) s (pa f.kt) (strided (s.hart.getX w.a).toNat (s.hart.getX w.b).toNat f.kt) f.baux) :
    Ends (.mload w) s (fun t => CrownStill s t ∧ RegsKept s t ∧ GrantKept s t
      ∧ t.coreAt (coreOf s.cur) = s.coreAt (coreOf s.cur)
      ∧ t.hart.run.bbufs = (s.hart.setBbuf (w.f.toNat % 2) (loadedBuffer s f pa)).run.bbufs) := by
  obtain ⟨hkt, hbrow, -, -⟩ := crownFmt_fits hf
  have hi := issue_crown (typed := true) w hr hn (onCompute_of hk) (fun _ => ht)
  have hw : (!(isPassing s s.cur (w.f.toNat % 2))) = true := by
    unfold isPassing
    rw [hp]
    rfl
  have hbars : pastBars (vecEnv s) s = .ok () s :=
    pastBars_of_placedBy ((hrow 0 hkt).2 0 (by unfold ceilDiv; omega)).1
  have hrows := loadRows_ok (s.hart.getX w.a).isLt hrow
  obtain ⟨l, hl, hhead⟩ := loadAux_ok (stride := (s.hart.getX w.b).toNat) (Nat.mod_lt _ (by decide)) haux
  refine ends_of_retireVec (u := s.setHart (s.hart.setBbuf (w.f.toNat % 2) (loadedBuffer s f pa))) rfl hr ?_ rfl ?_ (fun t ht hd => ?_)
  · rw [getS_bind, bind_ok _ hi, bind_ok _ (needFmt_ok w hf), ensure_bind _ _ _ hw, bind_ok _ hbars, bind_ok _ hrows,
      bind_ok _ hl, hhead]
    rfl
  · rw [State.hart_setHart]
    exact (UnitOnly.refl _).setBbuf _ _
  · have hcore := hd.coreAt (coreOf s.cur)
    obtain ⟨hmem, -, hx, hsh, hregs, hdev, hwin, hbb⟩ := hd
    rw [State.hart_setHart] at hx hsh hregs hdev hwin hbb
    exact ⟨⟨ht, hmem, hwin⟩, hregs, ⟨hdev, hx, hsh⟩, hcore, hbb⟩

end

end Sys2Proof.Machine
end

section
/-! SUPPORT. mmac: the tiles of a multiply-accumulate and the buffer that it forwards (R232, R234, R235). -/

namespace Sys2Proof.Machine

/-! ## The tiles -/

/-- The core after the multiply-accumulate of A rows `rows` and the B tile of buffer `b` on the tiles at `p`. -/
def macCore (s : State) (f : CrownFmt) (b p : Nat) (rows : List Nat) : CoreSt :=
  let k := s.coreAt (coreOf s.cur)
  let vt := s.hart.vec.vtype
  if vtFmt vt = 4 then k.splitMac (vtSlc vt) (blockTiles vt) p rows (s.hart.bbuf b).data
  else k.setTile p { k.tile p with
    mode := if vtFmt vt = 0 then .int else .float
    vals := macVals f (vtFmt vt) rows (s.hart.bbuf b).data (k.tile p) }

theorem macCore_split {s : State} (f : CrownFmt) (b p : Nat) (rows : List Nat) (h : vtFmt s.hart.vec.vtype = 4) :
    macCore s f b p rows = (s.coreAt (coreOf s.cur)).splitMac (vtSlc s.hart.vec.vtype) (blockTiles s.hart.vec.vtype) p rows
      (s.hart.bbuf b).data :=
  if_pos h

theorem macCore_tile {s : State} (f : CrownFmt) (b p : Nat) (rows : List Nat) (h : vtFmt s.hart.vec.vtype ≠ 4) :
    let t := (s.coreAt (coreOf s.cur)).tile p
    macCore s f b p rows = (s.coreAt (coreOf s.cur)).setTile p { t with
      mode := if vtFmt s.hart.vec.vtype = 0 then .int else .float
      vals := macVals f (vtFmt s.hart.vec.vtype) rows (s.hart.bbuf b).data t } :=
  if_neg h

theorem macCore_kept (s : State) (f : CrownFmt) (b p : Nat) (rows : List Nat) :
    (macCore s f b p rows).link = (s.coreAt (coreOf s.cur)).link
      ∧ (macCore s f b p rows).passing = (s.coreAt (coreOf s.cur)).passing := by
  by_cases h : vtFmt s.hart.vec.vtype = 4
  · rw [macCore_split f b p rows h]
    exact CoreSt.splitMac_kept _ _ _ _ _ _
  · rw [macCore_tile f b p rows h]
    exact ⟨rfl, rfl⟩

/-- Value (i, j) of a tile after a multiply-accumulate that is not split. -/
theorem macVals_val (f : CrownFmt) (fmt : Nat) (rows : List Nat) (d : BitVec 16640) (t : Tile) {i j : Nat} (hi : i < 16)
    (hj : j < 16) : fieldOf (macVals f fmt rows d t) (32 * (16 * i + j)) 32 =
      if fmt = 0 then accumulateInt f.kt (fun k => signedOf 8 (nbits ((rows[i]?).getD 0) (8 * k) 8))
        (fun k => signedOf 8 (fieldOf d (8 * f.brow * k + 8 * j) 8)) (t.val (16 * i + j))
      else accumulate f.kt (aElem f fmt ((rows[i]?).getD 0)) (bElem f fmt d j) (t.val (16 * i + j)) % 2 ^ 32 := by
  have hrow : (16 * i + j) / 16 = i := by omega
  have hcol : (16 * i + j) % 16 = j := by omega
  unfold macVals
  rw [fieldOf_packNat_range _ (by omega) (by decide)]
  simp only [hrow, hcol]
  split
  · exact Nat.mod_eq_of_lt (wrapTo_lt 32 _)
  · rfl

/-! ## The ring link -/

/-- The core whose buffer waits for the link, where the word forwards it. -/
def CoreSt.forward (k : CoreSt) (w : Fld) (slot : Nat) : CoreSt :=
  if w.f.toNat / 2 = 1 then { k with passing := k.passing ++ [(slot, w.f.toNat % 2)] } else k

/-- What the link carries of buffer `b` of the hart (R233). -/
def linkMessage (s : State) (b : Nat) : RingMsg where
  slot := s.cur % 4
  buf := b
  fmt := (s.hart.bbuf b).fmt
  data := (s.hart.bbuf b).data

/-- The state after a multiply-accumulate has made `k` of the hart's core. -/
def passed (s : State) (k : CoreSt) (w : Fld) : State :=
  moveToLink (s.setCoreAt (coreOf s.cur) (k.forward w (s.cur % 4))) (coreOf s.cur)

section
variable {s : State} {k : CoreSt} (hp : k.passing = []) {w : Fld}
include hp

/-- A word without FWD moves nothing into the link. -/
theorem passed_kept (hw : w.f.toNat < 2) : passed s k w = s.setCoreAt (coreOf s.cur) k := by
  have hk : k.forward w (s.cur % 4) = k := if_neg (by omega)
  unfold passed
  rw [hk]
  exact moveToLink_idle (by rw [State.coreAt_setCoreAt_self]; exact hp)

theorem forward_fwd (hw : 2 ≤ w.f.toNat) (slot : Nat) :
    k.forward w slot = { k with passing := [(slot, w.f.toNat % 2)] } := by
  have hf : w.f.toNat / 2 = 1 := by
    have := w.f.isLt
    omega
  unfold CoreSt.forward
  rw [if_pos hf, hp]
  rfl

/-- A word with FWD waits for a link that is not free. -/
theorem passed_waits (hw : 2 ≤ w.f.toNat) (hl : k.link ≠ none) :
    passed s k w = s.setCoreAt (coreOf s.cur) { k with passing := [(s.cur % 4, w.f.toNat % 2)] } := by
  unfold passed
  rw [forward_fwd hp hw, moveToLink_busy (by rw [State.coreAt_setCoreAt_self]; exact hl)]

/-- A word with FWD moves its buffer into a free link. -/
theorem passed_moves (hw : 2 ≤ w.f.toNat) (hl : k.link = none) :
    let b := w.f.toNat % 2
    let x := s.hart.bbuf b
    ∃ u : State, u.cur = s.cur ∧ u.mem = s.mem
      ∧ passed s k w = (u.setHart (s.hart.setBbuf b { x with loaded := false })).setCoreAt (coreOf s.cur)
        { k with link := some (linkMessage s b), passing := [] } := by
  intro b x
  have hk := State.coreAt_setCoreAt_self s (coreOf s.cur) { k with passing := [(s.cur % 4, b)] }
  refine ⟨s.setCoreAt (coreOf s.cur) { k with passing := [(s.cur % 4, b)] }, rfl, rfl, ?_⟩
  unfold passed
  rw [forward_fwd hp hw]
  refine (moveToLink_takes ((congrArg CoreSt.link hk).trans hl) (congrArg CoreSt.passing hk)).trans ?_
  show State.setCoreAt _ _ { State.coreAt _ (coreOf s.cur) with link := _, passing := [] } = _
  rw [hk]
  rfl

end

/-- What a multiply-accumulate leaves that has made `k` of the hart's core: only its buffer may have moved into the link. -/
structure Passed (s : State) (k : CoreSt) (w : Fld) (u : State) : Prop where
  cur : u.cur = s.cur
  mem : u.mem = s.mem
  hart : u.hart = { s.hart with run := { s.hart.run with bbufs := u.hart.run.bbufs } }
  tiles : (u.coreAt (coreOf s.cur)).tiles = k.tiles
  kept : w.f.toNat < 2 → BuffersKept s u ∧ (u.coreAt (coreOf s.cur)).link = k.link
  moves : 2 ≤ w.f.toNat → k.link = none → (u.hart.bbuf (w.f.toNat % 2)).loaded = false
    ∧ (u.coreAt (coreOf s.cur)).link = some (linkMessage s (w.f.toNat % 2))
  waits : 2 ≤ w.f.toNat → k.link ≠ none → BuffersKept s u ∧ (u.coreAt (coreOf s.cur)).link = k.link
    ∧ (u.coreAt (coreOf s.cur)).passing = [(s.cur % 4, w.f.toNat % 2)]

/-- Replacing a B buffer changes the buffers only. -/
theorem Hart.setBbuf_only {h h' : Hart} {b : Nat} {x : BBuf} (e : h' = h.setBbuf b x) :
    h' = { h with run := { h.run with bbufs := h'.run.bbufs } } := by
  rw [e]
  rfl

theorem passed_spec {s : State} {k : CoreSt} (hp : k.passing = []) (w : Fld) : Passed s k w (passed s k w) := by
  rcases Nat.lt_or_ge w.f.toNat 2 with hw | hw
  · have hk := State.coreAt_setCoreAt_self s (coreOf s.cur) k
    rw [passed_kept hp hw]
    exact ⟨rfl, rfl, rfl, congrArg CoreSt.tiles hk, fun _ => ⟨rfl, congrArg CoreSt.link hk⟩,
      fun h => absurd hw (Nat.not_lt.mpr h), fun h => absurd hw (Nat.not_lt.mpr h)⟩
  · by_cases hl : k.link = none
    · obtain ⟨u, hcur, hmem, e⟩ := passed_moves hp hw hl
      have hh := State.hart_setHart u (s.hart.setBbuf (w.f.toNat % 2) { s.hart.bbuf (w.f.toNat % 2) with loaded := false })
      rw [e]
      refine ⟨hcur, hmem, Hart.setBbuf_only hh, ?_, fun h => absurd h (Nat.not_lt.mpr hw), fun _ _ => ⟨?_, ?_⟩,
        fun _ h => absurd hl h⟩
      · rw [State.coreAt_setCoreAt_self]
      · exact (congrArg (fun h => (Hart.bbuf h (w.f.toNat % 2)).loaded) hh).trans
          (congrArg BBuf.loaded (Hart.bbuf_setBbuf_self _ _ _))
      · rw [State.coreAt_setCoreAt_self]
    · have hk := State.coreAt_setCoreAt_self s (coreOf s.cur) { k with passing := [(s.cur % 4, w.f.toNat % 2)] }
      rw [passed_waits hp hw hl]
      exact ⟨rfl, rfl, rfl, by rw [hk], fun h => absurd h (Nat.not_lt.mpr hw), fun _ h => absurd h hl,
        fun _ _ => ⟨rfl, by rw [hk], by rw [hk]⟩⟩

theorem Passed.unitOnly {s u : State} {k : CoreSt} {w : Fld} (h : Passed s k w u) : UnitOnly s.hart u.hart := by
  unfold UnitOnly
  rw [h.hart]

/-! ## mmac -/

section
variable {s : State} (hr : VecReady s) (hk : kindOf s.cur = .compute) (hn : NoPrefix s)
  (ht : vtIll s.hart.vec.vtype = false) {f : CrownFmt} (hf : crownFmt s.hart.vec.vtype = some f)
include hr hk hn ht hf

/-- mmac accumulates on its tiles, and with FWD its buffer goes to the link. -/
theorem mmac_ends (w : Fld) (pa : Nat → Nat → Nat) :
    let n := w.d.toNat % 8
    let p := s.hart.grantFirst + n
    let b := w.f.toNat % 2
    let c := s.coreAt (coreOf s.cur)
    let count := if vtFmt s.hart.vec.vtype = 4 then 2 else 16
    let rows := (List.range count).map (fun i => rowAt s (pa i) (f.rb + f.aaux))
    let va (i : Nat) : Nat := strided (s.hart.getX w.a).toNat (s.hart.getX w.b).toNat i
    n + blockTiles s.hart.vec.vtype ≤ s.hart.grantTiles → (s.hart.bbuf b).loaded = true → c.passing = [] →
    (s.hart.bbuf b).fmt.toNat = vtFmt s.hart.vec.vtype → tilesAgree c s.hart.vec.vtype p = true →
    (∀ i < count, RowAt (vecEnv s) s (pa i) (va i) (f.rb + f.aaux) ∧ tcmWindow (va i) = true
      ∧ tcmWindow (va i + (f.rb + f.aaux) - 1) = true) →
    Ends (.mmac w) s (fun t => CrownStill s t ∧ RegsKept s t ∧ GrantKept s t
      ∧ ∃ u, Passed s (macCore s f b p rows) w u ∧ t.coreAt (coreOf s.cur) = u.coreAt (coreOf s.cur)
        ∧ t.hart.run.bbufs = u.hart.run.bbufs) := by
  intro n p b c count rows va hgrant hload hpass hfmt hagree hrow
  obtain ⟨-, -, hrb, -⟩ := crownFmt_fits hf
  have hi := issue_crown (typed := true) w hr hn
    (legal := onCompute s && n + blockTiles s.hart.vec.vtype ≤ s.hart.grantTiles)
    (by simp [onCompute_of hk, hgrant]) (fun _ => ht)
  have hw : ((s.hart.bbuf b).loaded && !(isPassing s s.cur b)) = true := by
    unfold isPassing
    rw [hload, hpass]
    rfl
  have hcount : 0 < count := by
    show 0 < if vtFmt s.hart.vec.vtype = 4 then 2 else 16
    split <;> decide
  have hbars : pastBars (vecEnv s) s = .ok () s :=
    pastBars_of_placedBy ((hrow 0 hcount).1.2 0 (by unfold ceilDiv; omega)).1
  have hmatch : (decide ((s.hart.bbuf b).fmt.toNat = (ctxOf (attrCrown true) w s).fmt)
      && tilesAgree c (ctxOf (attrCrown true) w s).vtype p) = true := by
    show (decide (_ = vtFmt s.hart.vec.vtype) && tilesAgree c s.hart.vec.vtype p) = true
    rw [hagree, decide_eq_true hfmt]
    rfl
  have hrows := loadARows_ok (s.hart.getX w.a).isLt hrow
  have hq : Passed s (macCore s f b p rows) w (passed s (macCore s f b p rows) w) :=
    passed_spec ((macCore_kept s f b p rows).2.trans hpass) w
  refine ends_of_retireVec (u := passed s (macCore s f b p rows) w) rfl hr ?_ hq.cur hq.unitOnly (fun t hfr hd => ?_)
  · rw [getS_bind, bind_ok _ hi, bind_ok _ (needFmt_ok w hf), ensure_bind _ _ _ hw, ensure_bind _ _ _ hmatch,
      bind_ok _ hbars]
    exact bind_ok _ hrows
  · have hcore := hd.coreAt (coreOf s.cur)
    have hh := hq.hart
    obtain ⟨hmem, -, hx, hsh, hregs, hdev, hwin, hbb⟩ := hd
    rw [hh] at hx hsh hregs hdev hwin
    exact ⟨⟨hfr, hmem.trans hq.mem, hwin⟩, hregs, ⟨hdev, hx, hsh⟩, _, hq, hcore, hbb⟩

end

end Sys2Proof.Machine
end

section
/-! SUPPORT. The Crown (R228-R236): its words together. -/

namespace Sys2Proof.Machine

section
variable {s : State} (hr : VecReady s) (hk : kindOf s.cur = .compute) (hn : NoPrefix s)
include hr hk hn

/-- The three answers of mattach (R229). -/
theorem mattach_answers (w : Fld) (ht : vtIll s.hart.vec.vtype = false) (h1 : 1 ≤ w.a.toNat) (h8 : w.a.toNat ≤ 8) :
    let ends (rd : Word) (g : BitVec 7) : Prop := Ends (.mattach w) s (fun t => CrownStill s t ∧ RegsKept s t ∧ BuffersKept s t
      ∧ t.hart.dev = { s.hart.dev with grant := g } ∧ SetsX s t w.d rd
      ∧ t.coreAt (coreOf s.cur) = s.coreAt (coreOf s.cur))
    (s.hart.grantTiles ≠ 0 → ends 2 s.hart.dev.grant)
    ∧ (s.hart.grantTiles = 0 → freeTiles s (coreOf s.cur) w.a.toNat = none → ends 1 s.hart.dev.grant)
    ∧ (∀ f, s.hart.grantTiles = 0 → freeTiles s (coreOf s.cur) w.a.toNat = some f → ends 0 (bv 7 (f * 16 + w.a.toNat))) := by
  refine ⟨fun h0 => mattach_ends hr hk hn w ht h1 h8 ?_, fun h0 hf => mattach_ends hr hk hn w ht h1 h8 ?_,
    fun f h0 hf => mattach_ends hr hk hn w ht h1 h8 ?_⟩
  · unfold attach
    rw [if_pos h0]
  · unfold attach
    rw [if_neg (fun h => h h0), hf]
  · unfold attach
    rw [if_neg (fun h => h h0), hf]

end

/-- The tag of a loaded buffer is the format in force (R231). -/
theorem loadedBuffer_fmt (s : State) (f : CrownFmt) (pa : Nat → Nat → Nat) :
    (loadedBuffer s f pa).fmt.toNat = vtFmt s.hart.vec.vtype := by
  show (bv 4 (vtFmt s.hart.vec.vtype)).toNat = _
  rw [BitVec.toNat_ofNat]
  exact Nat.mod_eq_of_lt (fieldOf_lt _ _ _)

/-- The values of a tile that a multiply-accumulate of a format other than FP64 leaves. -/
theorem macCore_vals {s : State} (f : CrownFmt) (b p : Nat) (rows : List Nat) {c : CoreSt}
    (hc : c.tiles = (macCore s f b p rows).tiles) (h : vtFmt s.hart.vec.vtype ≠ 4) :
    let k := s.coreAt (coreOf s.cur)
    let fmt := vtFmt s.hart.vec.vtype
    let d := (s.hart.bbuf b).data
    (∀ m < 8, m ≠ p % 8 → c.tile m = k.tile m)
    ∧ (c.tile p).mode = (if fmt = 0 then TileMode.int else TileMode.float)
    ∧ ∀ i < 16, ∀ j < 16, (c.tile p).val (16 * i + j) =
        if fmt = 0 then accumulateInt f.kt (fun k => signedOf 8 (nbits ((rows[i]?).getD 0) (8 * k) 8))
          (fun k => signedOf 8 (fieldOf d (8 * f.brow * k + 8 * j) 8)) ((k.tile p).val (16 * i + j))
        else accumulate f.kt (aElem f fmt ((rows[i]?).getD 0)) (bElem f fmt d j) ((k.tile p).val (16 * i + j)) % 2 ^ 32 := by
  have htile (m : Nat) : c.tile m = (macCore s f b p rows).tile m := by
    unfold CoreSt.tile
    rw [hc]
  rw [macCore_tile f b p rows h] at htile
  have hp := (htile p).trans (CoreSt.tile_setTile_self _ _ _)
  refine ⟨fun m hm hne => (htile m).trans (CoreSt.tile_setTile_of_ne _ _ hm hne), by rw [hp], fun i hi j hj => ?_⟩
  rw [hp]
  exact macVals_val f _ rows _ _ hi hj

end Sys2Proof.Machine

namespace Sys2Proof

open Sys2Proof.Machine

/-- Settles O35, word by word: each passes its checks, does its effect on the tiles, the buffers or the link, and retires as
the words of a unit do. That mdetach and msync wait for the pass of a buffer is the model's reading of R232 (log 72), and so
is the order of the tiles in `CoreSt.splitMac` (log 19). -/
theorem crown : Obligations.Crown := by
  unfold Obligations.Crown
  intro s w hr hk hn h fmt core c b still grant buffers
  refine ⟨fun ht h1 h8 => mattach_answers hr hk hn w ht h1 h8, fun hp => detached_waits hr hk hn w hp,
    fun hp => mdetach_ends hr hk hn w hp, ?_, ?_, ?_, fun hp => msync_ends hr hk hn w hp⟩
  case refine_1 =>
    intro f pa ht hf hp va row reach hrow haux
    obtain ⟨-, -, -, hfit⟩ := crownFmt_fits hf
    obtain ⟨t, he, hs, hv, hg, hcore, hbb⟩ := mload_ends hr hk hn ht hf w pa hp hrow haux
    have hload : t.hart.bbuf b = loadedBuffer s f pa := (Hart.bbuf_congr hbb b).trans (Hart.bbuf_setBbuf_self _ _ _)
    have hother : t.hart.bbuf (1 - b) = h.bbuf (1 - b) := (Hart.bbuf_congr hbb (1 - b)).trans (by
      rw [Hart.bbuf_setBbuf, if_neg (by omega)])
    refine ⟨t, he, hs, hv, hg, hcore, hother, by rw [hload]; rfl, ?_, fun i hi => ?_, fun _ => ?_⟩
    · rw [hload]
      exact loadedBuffer_fmt s f pa
    · rw [hload]
      exact (bufferData_row hfit _ _ hi).trans (Nat.mod_eq_of_lt (rowAt_lt _ _ _))
    · rw [hload]
      exact (bufferData_aux hfit _ _).trans (Nat.mod_eq_of_lt (rowAt_lt _ _ _))
  case refine_2 =>
    intro f pa ht hf n p count rows va x hgrant hx hpass hfmt hagree hrow
    obtain ⟨t, he, hs, hv, hg, u, hu, hcore, hbb⟩ := mmac_ends hr hk hn ht hf w pa hgrant hx hpass hfmt hagree (fun i hi => by
      obtain ⟨h8, hw1, hw2, hpiece⟩ := hrow i hi
      exact ⟨⟨h8, hpiece⟩, hw1, by rw [← Nat.add_assoc]; exact hw2⟩)
    have htiles : (t.coreAt core).tiles = (macCore s f b p rows).tiles := (congrArg CoreSt.tiles hcore).trans hu.tiles
    have hlink : (macCore s f b p rows).link = c.link := (macCore_kept s f b p rows).1
    have hsplit (h4 : fmt = 4) : (t.coreAt core).tiles =
        (c.splitMac (vtSlc h.vec.vtype) (blockTiles h.vec.vtype) p rows x.data).tiles := by
      rw [htiles, macCore_split f b p rows h4]
    refine ⟨t, he, hs, hv, hg, macCore_vals f b p rows htiles, hsplit, fun hw => ?_, fun hw hl => ?_, fun hw hl => ?_⟩
    all_goals rw [hcore]
    · obtain ⟨hb, hk⟩ := hu.kept hw
      exact ⟨hbb.trans hb, hk.trans hlink⟩
    · obtain ⟨hb, hk⟩ := hu.moves hw (hlink.trans hl)
      exact ⟨(congrArg BBuf.loaded (Hart.bbuf_congr hbb b)).trans hb, hk⟩
    · obtain ⟨hb, hk, hp⟩ := hu.waits hw (fun h0 => hl (hlink.symm.trans h0))
      exact ⟨hbb.trans hb, hk.trans hlink, hp⟩
  case refine_3 =>
    intro ht n others
    refine ⟨fun hg => mzero_ends hr hk hn w ht hg, fun hg => mwrite_ends hr hk hn w ht hg, fun hg hfirst => ?_⟩
    obtain ⟨t, he, hs, hgr, hb, hcore, hothers, hread⟩ := mread_ends hr hk hn w ht hg hfirst
    refine ⟨t, he, hs, hgr, hb, hcore, hothers, fun hm => hread.trans (readTile_plain hm), fun hm o ho => ?_⟩
    rw [elem_doubleword _ (Nat.mod_lt _ (by decide)) ho, hread]
    exact readTile_split hm ho

end Sys2Proof
end

section
/-! SUPPORT. The fields of a word (R54-R59, R63): packing fields into a word and taking them out again are inverse. -/

namespace Sys2Proof

open BitVec (extractLsb'_append_eq_of_le extractLsb'_append_eq_of_add_le extractLsb'_eq_self
  extractLsb'_append_extractLsb'_eq_extractLsb')

/-- The major opcode of a word (R52). -/
abbrev majorOf (w : W32) : BitVec 7 := w.extractLsb' 0 7

/-! ## Formats A, F, P, M, K and G (R54, R59) -/

@[simp] theorem majorOf_pack (x : Fld) (k : Nat) (m : BitVec 7) : majorOf (x.pack k m) = m := by
  simp (disch := omega) only [majorOf, Fld.pack, extractLsb'_append_eq_of_add_le, extractLsb'_eq_self]

@[simp] theorem formOf_pack (x : Fld) (k : Nat) (m : BitVec 7) : (x.pack k m).extractLsb' 25 2 = x.f := by
  simp (disch := omega) only [Fld.pack, extractLsb'_append_eq_of_le, extractLsb'_append_eq_of_add_le, Nat.reduceSub,
    extractLsb'_eq_self]

@[simp] theorem Fld.ofWord_pack (x : Fld) (k : Nat) (m : BitVec 7) : Fld.ofWord (x.pack k m) = x := by
  simp (disch := omega) only [Fld.ofWord, Fld.pack, extractLsb'_append_eq_of_le, extractLsb'_append_eq_of_add_le,
    Nat.reduceSub, extractLsb'_eq_self]

theorem opIndex_pack {k : Nat} (hk : k < 32) (x : Fld) (m : BitVec 7) : opIndex (x.pack k m) = k := by
  simp (disch := omega) only [opIndex, Fld.pack, extractLsb'_append_eq_of_le, extractLsb'_append_eq_of_add_le,
    Nat.reduceSub, extractLsb'_eq_self, BitVec.toNat_ofNat]
  omega

theorem opIndex_div (w : W32) : opIndex w / 8 = (w.extractLsb' 30 2).toNat := by
  unfold opIndex
  omega

theorem opIndex_mod (w : W32) : opIndex w % 8 = (w.extractLsb' 12 3).toNat := by
  unfold opIndex
  omega

theorem Fld.pack_ofWord {w : W32} {m : BitVec 7} (hm : majorOf w = m) : (Fld.ofWord w).pack (opIndex w) m = w := by
  subst hm
  simp (disch := omega) only [Fld.ofWord, Fld.pack, majorOf, opIndex_div, opIndex_mod, BitVec.ofNat_toNat,
    BitVec.setWidth_eq, extractLsb'_append_extractLsb'_eq_extractLsb']
  exact extractLsb'_eq_self

/-! ## Format S (R56-R58) -/

/-- The group of an S-format word. -/
def groupOf (w : W32) : BitVec 3 := w.extractLsb' 12 3

/-- OP of an S-format word. -/
def sOpOf (w : W32) : BitVec 4 := w.extractLsb' 28 4

@[simp] theorem majorOf_packS (x : SFld) (o g : Nat) : majorOf (x.pack o g) = majorS := by
  simp (disch := omega) only [majorOf, SFld.pack, extractLsb'_append_eq_of_add_le, extractLsb'_eq_self]

@[simp] theorem groupOf_pack (x : SFld) (o g : Nat) : groupOf (x.pack o g) = BitVec.ofNat 3 g := by
  simp (disch := omega) only [groupOf, SFld.pack, extractLsb'_append_eq_of_le, extractLsb'_append_eq_of_add_le, Nat.reduceSub,
    extractLsb'_eq_self]

@[simp] theorem sOpOf_pack (x : SFld) (o g : Nat) : sOpOf (x.pack o g) = BitVec.ofNat 4 o := by
  simp (disch := omega) only [sOpOf, SFld.pack, extractLsb'_append_eq_of_le, Nat.reduceSub, extractLsb'_eq_self]

@[simp] theorem SFld.ofWord_pack (x : SFld) (o g : Nat) : SFld.ofWord (x.pack o g) = x := by
  simp (disch := omega) only [SFld.ofWord, SFld.pack, extractLsb'_append_eq_of_le, extractLsb'_append_eq_of_add_le,
    Nat.reduceSub, extractLsb'_eq_self]

theorem SFld.pack_ofWord {w : W32} (hm : majorOf w = majorS) :
    (SFld.ofWord w).pack (sOpOf w).toNat (groupOf w).toNat = w := by
  simp (disch := omega) only [SFld.ofWord, SFld.pack, sOpOf, groupOf, ← hm, majorOf, BitVec.ofNat_toNat,
    BitVec.setWidth_eq, extractLsb'_append_extractLsb'_eq_extractLsb']
  exact extractLsb'_eq_self

@[simp] theorem LeaseFld.ofWord_pack (x : LeaseFld) : LeaseFld.ofWord x.pack = x := by
  simp (disch := omega) only [LeaseFld.ofWord, LeaseFld.pack, extractLsb'_append_eq_of_le, extractLsb'_append_eq_of_add_le,
    Nat.reduceSub, extractLsb'_eq_self]

@[simp] theorem majorOf_packLease (x : LeaseFld) : majorOf x.pack = majorS := by
  simp (disch := omega) only [majorOf, LeaseFld.pack, extractLsb'_append_eq_of_add_le, extractLsb'_eq_self]

@[simp] theorem groupOf_packLease (x : LeaseFld) : groupOf x.pack = 4#3 := by
  simp (disch := omega) only [groupOf, LeaseFld.pack, extractLsb'_append_eq_of_le, extractLsb'_append_eq_of_add_le,
    Nat.reduceSub, extractLsb'_eq_self]

theorem LeaseFld.pack_ofWord {w : W32} (hm : majorOf w = majorS) (hg : groupOf w = 4#3) : (LeaseFld.ofWord w).pack = w := by
  simp (disch := omega) only [LeaseFld.ofWord, LeaseFld.pack, ← hm, ← hg, majorOf, groupOf,
    extractLsb'_append_extractLsb'_eq_extractLsb']
  exact extractLsb'_eq_self

@[simp] theorem VrepFld.ofWord_pack (x : VrepFld) : VrepFld.ofWord x.pack = x := by
  simp (disch := omega) only [VrepFld.ofWord, VrepFld.pack, extractLsb'_append_eq_of_le, extractLsb'_append_eq_of_add_le,
    Nat.reduceSub, extractLsb'_eq_self]

@[simp] theorem majorOf_packVrep (x : VrepFld) : majorOf x.pack = majorS := by
  simp (disch := omega) only [majorOf, VrepFld.pack, extractLsb'_append_eq_of_add_le, extractLsb'_eq_self]

@[simp] theorem groupOf_packVrep (x : VrepFld) : groupOf x.pack = 6#3 := by
  simp (disch := omega) only [groupOf, VrepFld.pack, extractLsb'_append_eq_of_le, extractLsb'_append_eq_of_add_le,
    Nat.reduceSub, extractLsb'_eq_self]

theorem VrepFld.pack_ofWord {w : W32} (hm : majorOf w = majorS) (hg : groupOf w = 6#3) : (VrepFld.ofWord w).pack = w := by
  simp (disch := omega) only [VrepFld.ofWord, VrepFld.pack, ← hm, ← hg, majorOf, groupOf,
    extractLsb'_append_extractLsb'_eq_extractLsb']
  exact extractLsb'_eq_self

@[simp] theorem PfxFld.ofWord_pack (x : PfxFld) : PfxFld.ofWord x.pack = x := by
  simp (disch := omega) only [PfxFld.ofWord, PfxFld.pack, extractLsb'_append_eq_of_le, extractLsb'_append_eq_of_add_le,
    Nat.reduceSub, extractLsb'_eq_self]

@[simp] theorem majorOf_packPfx (x : PfxFld) : majorOf x.pack = majorS := by
  simp (disch := omega) only [majorOf, PfxFld.pack, extractLsb'_append_eq_of_add_le, extractLsb'_eq_self]

@[simp] theorem groupOf_packPfx (x : PfxFld) : groupOf x.pack = 7#3 := by
  simp (disch := omega) only [groupOf, PfxFld.pack, extractLsb'_append_eq_of_le, extractLsb'_append_eq_of_add_le,
    Nat.reduceSub, extractLsb'_eq_self]

theorem PfxFld.pack_ofWord {w : W32} (hm : majorOf w = majorS) (hg : groupOf w = 7#3) : (PfxFld.ofWord w).pack = w := by
  simp (disch := omega) only [PfxFld.ofWord, PfxFld.pack, ← hm, ← hg, majorOf, groupOf,
    extractLsb'_append_extractLsb'_eq_extractLsb']
  exact extractLsb'_eq_self

/-! ## Configuration words (R63) -/

@[simp] theorem majorOf_packCfg (x : CfgFld) (q : Nat) : majorOf (x.pack q) = majorP := by
  simp (disch := omega) only [majorOf, CfgFld.pack, extractLsb'_append_eq_of_add_le, extractLsb'_eq_self]

@[simp] theorem opIndex_packCfg (x : CfgFld) (q : Nat) : opIndex (x.pack q) = 31 := by
  simp (disch := omega) only [opIndex, CfgFld.pack, extractLsb'_append_eq_of_le, extractLsb'_append_eq_of_add_le,
    Nat.reduceSub, extractLsb'_eq_self]
  rfl

@[simp] theorem kindOf_packCfg (x : CfgFld) (q : Nat) : (x.pack q).extractLsb' 28 2 = BitVec.ofNat 2 q := by
  simp (disch := omega) only [CfgFld.pack, extractLsb'_append_eq_of_le, extractLsb'_append_eq_of_add_le, Nat.reduceSub,
    extractLsb'_eq_self]

@[simp] theorem CfgFld.ofWord_pack (x : CfgFld) (q : Nat) : CfgFld.ofWord (x.pack q) = x := by
  simp (disch := omega) only [CfgFld.ofWord, CfgFld.pack, extractLsb'_append_eq_of_le, extractLsb'_append_eq_of_add_le,
    Nat.reduceSub, extractLsb'_eq_self]

theorem CfgFld.pack_ofWord {w : W32} (hm : majorOf w = majorP) (hi : opIndex w = 31) :
    (CfgFld.ofWord w).pack (w.extractLsb' 28 2).toNat = w := by
  have h2 : 0b11#2 = w.extractLsb' 30 2 := by
    have := opIndex_div w
    exact BitVec.eq_of_toNat_eq (by rw [← this, hi]; rfl)
  have h3 : 0b111#3 = w.extractLsb' 12 3 := by
    have := opIndex_mod w
    exact BitVec.eq_of_toNat_eq (by rw [← this, hi]; rfl)
  simp (disch := omega) only [CfgFld.ofWord, CfgFld.pack, h2, h3, ← hm, majorOf, BitVec.ofNat_toNat, BitVec.setWidth_eq,
    extractLsb'_append_extractLsb'_eq_extractLsb']
  exact extractLsb'_eq_self

/-! ## Standard formats (R52) -/

theorem packI_fields {w : W32} {m : BitVec 7} {k : Nat} (hm : majorOf w = m) (hk : fF3 w = k) :
    packI (fI w) (fRs1 w) k (fRd w) m = w := by
  subst hm hk
  simp (disch := omega) only [packI, fI, fRs1, fF3, fRd, majorOf, BitVec.ofNat_toNat, BitVec.setWidth_eq,
    extractLsb'_append_extractLsb'_eq_extractLsb']
  exact extractLsb'_eq_self

theorem packR_fields {w : W32} {m : BitVec 7} {k j : Nat} (hm : majorOf w = m) (hk : fF3 w = k) (hj : fF7 w = j) :
    packR j (fRs2 w) (fRs1 w) k (fRd w) m = w := by
  subst hm hk hj
  simp (disch := omega) only [packR, fF7, fRs2, fRs1, fF3, fRd, majorOf, BitVec.ofNat_toNat, BitVec.setWidth_eq,
    extractLsb'_append_extractLsb'_eq_extractLsb']
  exact extractLsb'_eq_self

theorem packS_fields {w : W32} {m : BitVec 7} {k : Nat} (hm : majorOf w = m) (hk : fF3 w = k) :
    packS (immS w) (fRs2 w) (fRs1 w) k m = w := by
  subst hm hk
  simp (disch := omega) only [packS, immS, fRs2, fRs1, fF3, majorOf, BitVec.ofNat_toNat, BitVec.setWidth_eq,
    extractLsb'_append_eq_of_le, extractLsb'_append_eq_of_add_le, Nat.reduceSub, extractLsb'_eq_self,
    extractLsb'_append_extractLsb'_eq_extractLsb']

theorem packB_fields {w : W32} {m : BitVec 7} {k : Nat} (hm : majorOf w = m) (hk : fF3 w = k) :
    packB (immB w) (fRs2 w) (fRs1 w) k m = w := by
  subst hm hk
  simp (disch := omega) only [packB, immB, fRs2, fRs1, fF3, majorOf, BitVec.ofNat_toNat, BitVec.setWidth_eq,
    extractLsb'_append_eq_of_le, extractLsb'_append_eq_of_add_le, Nat.reduceSub, extractLsb'_eq_self,
    extractLsb'_append_extractLsb'_eq_extractLsb']

theorem packU_fields {w : W32} {m : BitVec 7} (hm : majorOf w = m) : packU (w.extractLsb' 12 20) (fRd w) m = w := by
  subst hm
  simp (disch := omega) only [packU, fRd, majorOf, extractLsb'_append_extractLsb'_eq_extractLsb']
  exact extractLsb'_eq_self

theorem packJ_fields {w : W32} {m : BitVec 7} (hm : majorOf w = m) : packJ (immJ w) (fRd w) m = w := by
  subst hm
  simp (disch := omega) only [packJ, immJ, fRd, majorOf, extractLsb'_append_eq_of_le, extractLsb'_append_eq_of_add_le,
    Nat.reduceSub, extractLsb'_eq_self, extractLsb'_append_extractLsb'_eq_extractLsb']

end Sys2Proof
end

section
/-! SUPPORT. The opcode map of the device's majors (R52, R57-R66): what the decoder finds at a point is what the encoder puts
there. -/

namespace Sys2Proof

/-! ## Points of the maps -/

/-- Every assigned point of a map is the word of its instruction under a major. -/
def Encodes (t : List (Option (Fld → Instr))) (m : BitVec 7) : Prop :=
  ∀ (k : Nat) (c : Fld → Instr), t[k]? = some (some c) → ∀ x, encode (c x) = some (x.pack k m)

theorem encodes_aTable : Encodes aTable majorA := by
  intro k c h x
  have hk : k < 32 := (List.getElem?_eq_some_iff.mp h).1
  interval_cases k <;> cases h <;> rfl

theorem encodes_fTable : Encodes fTable majorF := by
  intro k c h x
  have hk : k < 29 := (List.getElem?_eq_some_iff.mp h).1
  interval_cases k <;> cases h <;> rfl

theorem encodes_fUnary : Encodes fUnary majorF := by
  intro k c h x
  have hk : k < 10 := (List.getElem?_eq_some_iff.mp h).1
  interval_cases k <;> cases h <;> rfl

theorem encodes_pTable : Encodes pTable majorP := by
  intro k c h x
  have hk : k < 30 := (List.getElem?_eq_some_iff.mp h).1
  interval_cases k <;> cases h <;> rfl

theorem encodes_pUnary : Encodes pUnary majorP := by
  intro k c h x
  have hk : k < 20 := (List.getElem?_eq_some_iff.mp h).1
  interval_cases k <;> cases h <;> rfl

theorem encodes_mTable : Encodes mTable majorM := by
  intro k c h x
  have hk : k < 14 := (List.getElem?_eq_some_iff.mp h).1
  interval_cases k <;> cases h <;> rfl

theorem encodes_kTable : Encodes kTable majorK := by
  intro k c h x
  have hk : k < 13 := (List.getElem?_eq_some_iff.mp h).1
  interval_cases k <;> cases h <;> rfl

theorem encodes_gTable : Encodes gTable majorG := by
  intro k c h x
  have hk : k < 7 := (List.getElem?_eq_some_iff.mp h).1
  interval_cases k <;> cases h <;> rfl

/-- The instruction of a word at its point of a map. -/
def pick (t : List (Option (Fld → Instr))) (w : W32) : Except DecodeError Instr := do
  let c ← point t (opIndex w)
  .ok (c (Fld.ofWord w))

theorem point_eq_ok {α : Type} {t : List (Option α)} {k : Nat} {c : α} : point t k = .ok c ↔ t[k]? = some (some c) := by
  unfold point
  split
  · next h => simp [h]
  · next h =>
    simp only [reduceCtorEq, false_iff]
    exact h c

theorem pick_eq_ok {t : List (Option (Fld → Instr))} {w : W32} {i : Instr} :
    pick t w = .ok i ↔ ∃ c, t[opIndex w]? = some (some c) ∧ c (Fld.ofWord w) = i := by
  unfold pick
  cases h : point t (opIndex w) with
  | error e => simpa [bind, Except.bind] using fun c hc => nomatch h.symm.trans (point_eq_ok.mpr hc)
  | ok c =>
    rw [point_eq_ok] at h
    simp [bind, Except.bind, h]

/-- A word at an assigned point is the word of what the decoder finds there. -/
theorem encode_of_pick {t : List (Option (Fld → Instr))} {m : BitVec 7} {w : W32} {i : Instr} (ht : Encodes t m)
    (hm : majorOf w = m) (h : pick t w = .ok i) : encode i = some w := by
  obtain ⟨c, hc, rfl⟩ := pick_eq_ok.mp h
  rw [ht _ c hc, Fld.pack_ofWord hm]

theorem pick_pack {t : List (Option (Fld → Instr))} {k : Nat} {c : Fld → Instr} (h : t[k]? = some (some c)) (hk : k < 32)
    (x : Fld) (m : BitVec 7) : pick t (x.pack k m) = .ok (c x) :=
  pick_eq_ok.mpr ⟨c, by rwa [opIndex_pack hk], by rw [Fld.ofWord_pack]⟩

/-! ## The majors of the map (R52) -/

theorem decodePoint_majorS {w : W32} (h : majorOf w = majorS) : decodePoint w = decodeS w := by
  unfold decodePoint
  rw [show w.extractLsb' 0 7 = majorS from h]
  rfl

theorem decodePoint_majorM {w : W32} (h : majorOf w = majorM) : decodePoint w = pick mTable w := by
  unfold decodePoint
  rw [show w.extractLsb' 0 7 = majorM from h]
  rfl

theorem decodePoint_majorA {w : W32} (h : majorOf w = majorA) : decodePoint w = pick aTable w := by
  unfold decodePoint
  rw [show w.extractLsb' 0 7 = majorA from h]
  rfl

theorem decodePoint_majorF {w : W32} (h : majorOf w = majorF) :
    decodePoint w = pick (if w.extractLsb' 25 2 = 3#2 then fUnary else fTable) w := by
  unfold decodePoint
  rw [show w.extractLsb' 0 7 = majorF from h]
  rfl

theorem decodePoint_majorP {w : W32} (h : majorOf w = majorP) : decodePoint w = decodeP w := by
  unfold decodePoint
  rw [show w.extractLsb' 0 7 = majorP from h]
  rfl

theorem decodePoint_majorK {w : W32} (h : majorOf w = majorK) : decodePoint w = pick kTable w := by
  unfold decodePoint
  rw [show w.extractLsb' 0 7 = majorK from h]
  rfl

theorem decodePoint_majorG {w : W32} (h : majorOf w = majorG) : decodePoint w = pick gTable w := by
  unfold decodePoint
  rw [show w.extractLsb' 0 7 = majorG from h]
  rfl

theorem decodeP_of_ne {w : W32} (h : opIndex w ≠ 31) :
    decodeP w = pick (if w.extractLsb' 25 2 = 3#2 then pUnary else pTable) w :=
  if_neg h

theorem decodeP_vcfg {w : W32} (h : opIndex w = 31) (hq : w.extractLsb' 28 2 = 0#2) :
    decodeP w = .ok (.vcfg (CfgFld.ofWord w)) := by
  unfold decodeP
  rw [if_pos h, hq]
  rfl

theorem decodeP_vcfgi {w : W32} (h : opIndex w = 31) (hq : w.extractLsb' 28 2 = 1#2) :
    decodeP w = .ok (.vcfgi (CfgFld.ofWord w)) := by
  unfold decodeP
  rw [if_pos h, hq]
  rfl

theorem decodeP_cfg_error {w : W32} (h : opIndex w = 31) (h0 : w.extractLsb' 28 2 ≠ 0#2) (h1 : w.extractLsb' 28 2 ≠ 1#2) :
    decodeP w = .error .unassigned := by
  have hq : w.extractLsb' 28 2 = 2#2 ∨ w.extractLsb' 28 2 = 3#2 := by bv_omega
  unfold decodeP
  rw [if_pos h]
  obtain hq | hq := hq <;> rw [hq] <;> rfl

/-! ## Format S (R57, R58) -/

/-- Every operation of a group of format S is the word of its instruction. -/
def EncodesS (t : List (SFld → Instr)) (g : Nat) : Prop :=
  ∀ (k : Nat) (c : SFld → Instr), t[k]? = some c → ∀ x, encode (c x) = some (x.pack k g)

theorem encodesS_sGroup0 : EncodesS sGroup0 0 := by
  intro k c h x
  have hk : k < 9 := (List.getElem?_eq_some_iff.mp h).1
  interval_cases k <;> cases h <;> rfl

theorem encodesS_sGroup1 : EncodesS sGroup1 1 := by
  intro k c h x
  have hk : k < 4 := (List.getElem?_eq_some_iff.mp h).1
  interval_cases k <;> cases h <;> rfl

theorem encodesS_sGroup2 : EncodesS sGroup2 2 := by
  intro k c h x
  have hk : k < 5 := (List.getElem?_eq_some_iff.mp h).1
  interval_cases k <;> cases h <;> rfl

theorem encodesS_sGroup3 : EncodesS sGroup3 3 := by
  intro k c h x
  have hk : k < 4 := (List.getElem?_eq_some_iff.mp h).1
  interval_cases k <;> cases h <;> rfl

theorem encodesS_sGroup5 : EncodesS sGroup5 5 := by
  intro k c h x
  have hk : k < 6 := (List.getElem?_eq_some_iff.mp h).1
  interval_cases k <;> cases h <;> rfl

/-- The instruction of an S-format word in its group. -/
def pickS (t : List (SFld → Instr)) (w : W32) : Except DecodeError Instr :=
  match t[(sOpOf w).toNat]? with
  | some c => .ok (c (SFld.ofWord w))
  | none => .error .unassigned

theorem pickS_eq_ok {t : List (SFld → Instr)} {w : W32} {i : Instr} :
    pickS t w = .ok i ↔ ∃ c, t[(sOpOf w).toNat]? = some c ∧ c (SFld.ofWord w) = i := by
  unfold pickS
  split
  · next c h => simp [h]
  · next h => simp [h]

theorem encode_of_pickS {t : List (SFld → Instr)} {g : Nat} {w : W32} {i : Instr} (ht : EncodesS t g)
    (hm : majorOf w = majorS) (hg : (groupOf w).toNat = g) (h : pickS t w = .ok i) : encode i = some w := by
  obtain ⟨c, hc, rfl⟩ := pickS_eq_ok.mp h
  rw [ht _ c hc, ← hg, SFld.pack_ofWord hm]

theorem pickS_pack {t : List (SFld → Instr)} {k : Nat} {c : SFld → Instr} (h : t[k]? = some c) (hk : k < 16) (x : SFld)
    (g : Nat) : pickS t (x.pack k g) = .ok (c x) :=
  pickS_eq_ok.mpr ⟨c, by rwa [sOpOf_pack, BitVec.toNat_ofNat, Nat.mod_eq_of_lt hk], by rw [SFld.ofWord_pack]⟩

theorem decodeS_group0 {w : W32} (h : groupOf w = 0#3) : decodeS w = pickS sGroup0 w := by
  unfold decodeS
  rw [show w.extractLsb' 12 3 = 0#3 from h]
  rfl

theorem decodeS_group1 {w : W32} (h : groupOf w = 1#3) : decodeS w = pickS sGroup1 w := by
  unfold decodeS
  rw [show w.extractLsb' 12 3 = 1#3 from h]
  rfl

theorem decodeS_group2 {w : W32} (h : groupOf w = 2#3) : decodeS w = pickS sGroup2 w := by
  unfold decodeS
  rw [show w.extractLsb' 12 3 = 2#3 from h]
  rfl

theorem decodeS_group3 {w : W32} (h : groupOf w = 3#3) : decodeS w = pickS sGroup3 w := by
  unfold decodeS
  rw [show w.extractLsb' 12 3 = 3#3 from h]
  rfl

theorem decodeS_lease {w : W32} (h : groupOf w = 4#3) : decodeS w = .ok (.lease (LeaseFld.ofWord w)) := by
  unfold decodeS
  rw [show w.extractLsb' 12 3 = 4#3 from h]
  rfl

theorem decodeS_group5 {w : W32} (h : groupOf w = 5#3) : decodeS w = pickS sGroup5 w := by
  unfold decodeS
  rw [show w.extractLsb' 12 3 = 5#3 from h]
  rfl

theorem decodeS_vrep {w : W32} (h : groupOf w = 6#3) : decodeS w = .ok (.vrep (VrepFld.ofWord w)) := by
  unfold decodeS
  rw [show w.extractLsb' 12 3 = 6#3 from h]
  rfl

theorem decodeS_pfx {w : W32} (h : groupOf w = 7#3) : decodeS w = .ok (.pfx (PfxFld.ofWord w)) := by
  unfold decodeS
  rw [show w.extractLsb' 12 3 = 7#3 from h]
  rfl

/-! ## Words of the device's majors are the words of their instructions -/

theorem encode_of_decodeS {w : W32} {i : Instr} (hm : majorOf w = majorS) (h : decodeS w = .ok i) : encode i = some w := by
  have groups : ∀ g : BitVec 3, g = 0#3 ∨ g = 1#3 ∨ g = 2#3 ∨ g = 3#3 ∨ g = 4#3 ∨ g = 5#3 ∨ g = 6#3 ∨ g = 7#3 := by decide
  obtain hg | hg | hg | hg | hg | hg | hg | hg := groups (groupOf w)
  · exact encode_of_pickS encodesS_sGroup0 hm (congrArg BitVec.toNat hg) (decodeS_group0 hg ▸ h)
  · exact encode_of_pickS encodesS_sGroup1 hm (congrArg BitVec.toNat hg) (decodeS_group1 hg ▸ h)
  · exact encode_of_pickS encodesS_sGroup2 hm (congrArg BitVec.toNat hg) (decodeS_group2 hg ▸ h)
  · exact encode_of_pickS encodesS_sGroup3 hm (congrArg BitVec.toNat hg) (decodeS_group3 hg ▸ h)
  · cases (decodeS_lease hg).symm.trans h
    exact congrArg some (LeaseFld.pack_ofWord hm hg)
  · exact encode_of_pickS encodesS_sGroup5 hm (congrArg BitVec.toNat hg) (decodeS_group5 hg ▸ h)
  · cases (decodeS_vrep hg).symm.trans h
    exact congrArg some (VrepFld.pack_ofWord hm hg)
  · cases (decodeS_pfx hg).symm.trans h
    exact congrArg some (PfxFld.pack_ofWord hm hg)

theorem encode_of_decodeP {w : W32} {i : Instr} (hm : majorOf w = majorP) (h : decodeP w = .ok i) : encode i = some w := by
  by_cases hi : opIndex w = 31
  · have hw := CfgFld.pack_ofWord hm hi
    by_cases h0 : w.extractLsb' 28 2 = 0#2
    · cases (decodeP_vcfg hi h0).symm.trans h
      rw [h0] at hw
      exact congrArg some hw
    · by_cases h1 : w.extractLsb' 28 2 = 1#2
      · cases (decodeP_vcfgi hi h1).symm.trans h
        rw [h1] at hw
        exact congrArg some hw
      · cases (decodeP_cfg_error hi h0 h1).symm.trans h
  · rw [decodeP_of_ne hi] at h
    split at h
    · exact encode_of_pick encodes_pUnary hm h
    · exact encode_of_pick encodes_pTable hm h

theorem encode_of_decodeF {w : W32} {i : Instr} (hm : majorOf w = majorF) (h : decodePoint w = .ok i) : encode i = some w := by
  rw [decodePoint_majorF hm] at h
  split at h
  · exact encode_of_pick encodes_fUnary hm h
  · exact encode_of_pick encodes_fTable hm h

/-! ## The forms that select a bank (R61, R62) -/

/-- The forms that some instruction of the binary banks takes are not that of the unary bank. -/
theorem Fld.form_ne_unary {x : Fld} (h : (x.formA || x.formB || x.formAB || x.formBC || x.formABC) = true) : x.f ≠ 3#2 := by
  intro hf
  simp [Fld.formA, Fld.formB, Fld.formAB, Fld.formBC, Fld.formABC, hf] at h

theorem wellFormed_fTable {k : Nat} {c : Fld → Instr} {x : Fld} (h : fTable[k]? = some (some c))
    (hw : (c x).wellFormed = true) : x.f ≠ 3#2 := by
  have hk : k < 29 := (List.getElem?_eq_some_iff.mp h).1
  obtain ⟨xk, t, f, b, a, d⟩ := x
  rintro rfl
  interval_cases k <;> cases h <;> exact Bool.false_ne_true hw

theorem wellFormed_fUnary {k : Nat} {c : Fld → Instr} {x : Fld} (h : fUnary[k]? = some (some c))
    (hw : (c x).wellFormed = true) : x.f = 3#2 := by
  have hk : k < 10 := (List.getElem?_eq_some_iff.mp h).1
  have hu : x.unary = true := by
    interval_cases k <;> cases h <;> exact (Bool.and_eq_true_iff.mp hw).1
  exact eq_of_beq hu

theorem wellFormed_pTable {k : Nat} {c : Fld → Instr} {x : Fld} (h : pTable[k]? = some (some c))
    (hw : (c x).wellFormed = true) : x.f ≠ 3#2 := by
  have hk : k < 30 := (List.getElem?_eq_some_iff.mp h).1
  obtain ⟨xk, t, f, b, a, d⟩ := x
  rintro rfl
  interval_cases k <;> cases h <;> exact Bool.false_ne_true hw

theorem wellFormed_pUnary {k : Nat} {c : Fld → Instr} {x : Fld} (h : pUnary[k]? = some (some c))
    (hw : (c x).wellFormed = true) : x.f = 3#2 := by
  have hk : k < 20 := (List.getElem?_eq_some_iff.mp h).1
  obtain ⟨xk, t, f, b, a, d⟩ := x
  have hf : f = 0#2 ∨ f = 1#2 ∨ f = 2#2 ∨ f = 3#2 := by bv_omega
  obtain rfl | rfl | rfl | hf := hf
  case inr.inr.inr => exact hf
  all_goals interval_cases k <;> cases h <;> exact absurd hw Bool.false_ne_true

/-! ## The words of the device's instructions are at their points -/

section
variable {k : Nat} {c : Fld → Instr} {x : Fld} {w : W32}

theorem decodePoint_of_aTable (he : some (x.pack k majorA) = some w) (h : aTable[k]? = some (some c)) :
    decodePoint w = .ok (c x) := by
  cases he
  have hk : k < 32 := (List.getElem?_eq_some_iff.mp h).1
  rw [decodePoint_majorA (majorOf_pack ..), pick_pack h hk]

theorem decodePoint_of_mTable (he : some (x.pack k majorM) = some w) (h : mTable[k]? = some (some c)) :
    decodePoint w = .ok (c x) := by
  cases he
  have hk : k < 14 := (List.getElem?_eq_some_iff.mp h).1
  rw [decodePoint_majorM (majorOf_pack ..), pick_pack h (by omega)]

theorem decodePoint_of_kTable (he : some (x.pack k majorK) = some w) (h : kTable[k]? = some (some c)) :
    decodePoint w = .ok (c x) := by
  cases he
  have hk : k < 13 := (List.getElem?_eq_some_iff.mp h).1
  rw [decodePoint_majorK (majorOf_pack ..), pick_pack h (by omega)]

theorem decodePoint_of_gTable (he : some (x.pack k majorG) = some w) (h : gTable[k]? = some (some c)) :
    decodePoint w = .ok (c x) := by
  cases he
  have hk : k < 7 := (List.getElem?_eq_some_iff.mp h).1
  rw [decodePoint_majorG (majorOf_pack ..), pick_pack h (by omega)]

theorem decodePoint_of_fTable (he : some (x.pack k majorF) = some w) (hw : (c x).wellFormed = true)
    (h : fTable[k]? = some (some c)) : decodePoint w = .ok (c x) := by
  cases he
  have hk : k < 29 := (List.getElem?_eq_some_iff.mp h).1
  rw [decodePoint_majorF (majorOf_pack ..), formOf_pack, if_neg (wellFormed_fTable h hw), pick_pack h (by omega)]

theorem decodePoint_of_fUnary (he : some (x.pack k majorF) = some w) (hw : (c x).wellFormed = true)
    (h : fUnary[k]? = some (some c)) : decodePoint w = .ok (c x) := by
  cases he
  have hk : k < 10 := (List.getElem?_eq_some_iff.mp h).1
  rw [decodePoint_majorF (majorOf_pack ..), formOf_pack, if_pos (wellFormed_fUnary h hw), pick_pack h (by omega)]

theorem decodePoint_of_pTable (he : some (x.pack k majorP) = some w) (hw : (c x).wellFormed = true)
    (h : pTable[k]? = some (some c)) : decodePoint w = .ok (c x) := by
  cases he
  have hk : k < 30 := (List.getElem?_eq_some_iff.mp h).1
  rw [decodePoint_majorP (majorOf_pack ..), decodeP_of_ne (by rw [opIndex_pack (by omega)]; omega), formOf_pack,
    if_neg (wellFormed_pTable h hw), pick_pack h (by omega)]

theorem decodePoint_of_pUnary (he : some (x.pack k majorP) = some w) (hw : (c x).wellFormed = true)
    (h : pUnary[k]? = some (some c)) : decodePoint w = .ok (c x) := by
  cases he
  have hk : k < 20 := (List.getElem?_eq_some_iff.mp h).1
  rw [decodePoint_majorP (majorOf_pack ..), decodeP_of_ne (by rw [opIndex_pack (by omega)]; omega), formOf_pack,
    if_pos (wellFormed_pUnary h hw), pick_pack h (by omega)]

end

section
variable {k g : Nat} {c : SFld → Instr} {x : SFld} {w : W32}

/-- A word of a group of format S that lists operations. -/
theorem decodePoint_of_group {t : List (SFld → Instr)} (ht : ∀ {w}, groupOf w = BitVec.ofNat 3 g → decodeS w = pickS t w)
    (he : some (x.pack k g) = some w) (hk : k < 16) (h : t[k]? = some c) : decodePoint w = .ok (c x) := by
  cases he
  rw [decodePoint_majorS (majorOf_packS ..), ht (groupOf_pack ..), pickS_pack h hk]

end

end Sys2Proof
end

section
/-! SUPPORT. Standard instructions (R15, R52): the fields of the words the encoder packs, and the operations by their codes. -/

namespace Sys2Proof

open BitVec (extractLsb'_append_eq_of_le extractLsb'_append_eq_of_add_le extractLsb'_eq_self
  extractLsb'_append_extractLsb'_eq_extractLsb')

/-! ## Fields of packed words -/

section
variable (imm : BitVec 12) (rs2 rs1 : BitVec 5) (k j : Nat) (rd : BitVec 5) (m : BitVec 7)

@[simp] theorem majorOf_packI : majorOf (packI imm rs1 k rd m) = m := by
  simp (disch := omega) only [majorOf, packI, extractLsb'_append_eq_of_add_le, extractLsb'_eq_self]

@[simp] theorem fRd_packI : fRd (packI imm rs1 k rd m) = rd := by
  simp (disch := omega) only [fRd, packI, extractLsb'_append_eq_of_le, extractLsb'_append_eq_of_add_le, Nat.reduceSub,
    extractLsb'_eq_self]

@[simp] theorem fF3_packI : fF3 (packI imm rs1 k rd m) = k % 8 := by
  simp (disch := omega) only [fF3, packI, extractLsb'_append_eq_of_le, extractLsb'_append_eq_of_add_le, Nat.reduceSub,
    extractLsb'_eq_self, BitVec.toNat_ofNat, Nat.reducePow]

@[simp] theorem fRs1_packI : fRs1 (packI imm rs1 k rd m) = rs1 := by
  simp (disch := omega) only [fRs1, packI, extractLsb'_append_eq_of_le, extractLsb'_append_eq_of_add_le, Nat.reduceSub,
    extractLsb'_eq_self]

@[simp] theorem fI_packI : fI (packI imm rs1 k rd m) = imm := by
  simp (disch := omega) only [fI, packI, extractLsb'_append_eq_of_le, Nat.reduceSub, extractLsb'_eq_self]

@[simp] theorem majorOf_packR : majorOf (packR j rs2 rs1 k rd m) = m := by
  simp (disch := omega) only [majorOf, packR, extractLsb'_append_eq_of_add_le, extractLsb'_eq_self]

@[simp] theorem fRd_packR : fRd (packR j rs2 rs1 k rd m) = rd := by
  simp (disch := omega) only [fRd, packR, extractLsb'_append_eq_of_le, extractLsb'_append_eq_of_add_le, Nat.reduceSub,
    extractLsb'_eq_self]

@[simp] theorem fF3_packR : fF3 (packR j rs2 rs1 k rd m) = k % 8 := by
  simp (disch := omega) only [fF3, packR, extractLsb'_append_eq_of_le, extractLsb'_append_eq_of_add_le, Nat.reduceSub,
    extractLsb'_eq_self, BitVec.toNat_ofNat, Nat.reducePow]

@[simp] theorem fRs1_packR : fRs1 (packR j rs2 rs1 k rd m) = rs1 := by
  simp (disch := omega) only [fRs1, packR, extractLsb'_append_eq_of_le, extractLsb'_append_eq_of_add_le, Nat.reduceSub,
    extractLsb'_eq_self]

@[simp] theorem fRs2_packR : fRs2 (packR j rs2 rs1 k rd m) = rs2 := by
  simp (disch := omega) only [fRs2, packR, extractLsb'_append_eq_of_le, extractLsb'_append_eq_of_add_le, Nat.reduceSub,
    extractLsb'_eq_self]

@[simp] theorem fF7_packR : fF7 (packR j rs2 rs1 k rd m) = j % 128 := by
  simp (disch := omega) only [fF7, packR, extractLsb'_append_eq_of_le, Nat.reduceSub, extractLsb'_eq_self,
    BitVec.toNat_ofNat, Nat.reducePow]

@[simp] theorem majorOf_packS' : majorOf (packS imm rs2 rs1 k m) = m := by
  simp (disch := omega) only [majorOf, packS, extractLsb'_append_eq_of_add_le, extractLsb'_eq_self]

@[simp] theorem fF3_packS : fF3 (packS imm rs2 rs1 k m) = k % 8 := by
  simp (disch := omega) only [fF3, packS, extractLsb'_append_eq_of_le, extractLsb'_append_eq_of_add_le, Nat.reduceSub,
    extractLsb'_eq_self, BitVec.toNat_ofNat, Nat.reducePow]

@[simp] theorem fRs1_packS : fRs1 (packS imm rs2 rs1 k m) = rs1 := by
  simp (disch := omega) only [fRs1, packS, extractLsb'_append_eq_of_le, extractLsb'_append_eq_of_add_le, Nat.reduceSub,
    extractLsb'_eq_self]

@[simp] theorem fRs2_packS : fRs2 (packS imm rs2 rs1 k m) = rs2 := by
  simp (disch := omega) only [fRs2, packS, extractLsb'_append_eq_of_le, extractLsb'_append_eq_of_add_le, Nat.reduceSub,
    extractLsb'_eq_self]

@[simp] theorem immS_packS : immS (packS imm rs2 rs1 k m) = imm := by
  simp (disch := omega) only [immS, packS, extractLsb'_append_eq_of_le, extractLsb'_append_eq_of_add_le, Nat.reduceSub,
    extractLsb'_eq_self, extractLsb'_append_extractLsb'_eq_extractLsb']

@[simp] theorem majorOf_packB : majorOf (packB imm rs2 rs1 k m) = m := by
  simp (disch := omega) only [majorOf, packB, extractLsb'_append_eq_of_add_le, extractLsb'_eq_self]

@[simp] theorem fF3_packB : fF3 (packB imm rs2 rs1 k m) = k % 8 := by
  simp (disch := omega) only [fF3, packB, extractLsb'_append_eq_of_le, extractLsb'_append_eq_of_add_le, Nat.reduceSub,
    extractLsb'_eq_self, BitVec.toNat_ofNat, Nat.reducePow]

@[simp] theorem fRs1_packB : fRs1 (packB imm rs2 rs1 k m) = rs1 := by
  simp (disch := omega) only [fRs1, packB, extractLsb'_append_eq_of_le, extractLsb'_append_eq_of_add_le, Nat.reduceSub,
    extractLsb'_eq_self]

@[simp] theorem fRs2_packB : fRs2 (packB imm rs2 rs1 k m) = rs2 := by
  simp (disch := omega) only [fRs2, packB, extractLsb'_append_eq_of_le, extractLsb'_append_eq_of_add_le, Nat.reduceSub,
    extractLsb'_eq_self]

@[simp] theorem immB_packB : immB (packB imm rs2 rs1 k m) = imm := by
  simp (disch := omega) only [immB, packB, extractLsb'_append_eq_of_le, extractLsb'_append_eq_of_add_le, Nat.reduceSub,
    extractLsb'_eq_self, extractLsb'_append_extractLsb'_eq_extractLsb']

end

section
variable (imm : BitVec 20) (rd : BitVec 5) (m : BitVec 7)

@[simp] theorem majorOf_packU : majorOf (packU imm rd m) = m := by
  simp (disch := omega) only [majorOf, packU, extractLsb'_append_eq_of_add_le, extractLsb'_eq_self]

@[simp] theorem fRd_packU : fRd (packU imm rd m) = rd := by
  simp (disch := omega) only [fRd, packU, extractLsb'_append_eq_of_le, extractLsb'_append_eq_of_add_le, Nat.reduceSub,
    extractLsb'_eq_self]

@[simp] theorem immU_packU : (packU imm rd m).extractLsb' 12 20 = imm := by
  simp (disch := omega) only [packU, extractLsb'_append_eq_of_le, Nat.reduceSub, extractLsb'_eq_self]

@[simp] theorem majorOf_packJ : majorOf (packJ imm rd m) = m := by
  simp (disch := omega) only [majorOf, packJ, extractLsb'_append_eq_of_add_le, extractLsb'_eq_self]

@[simp] theorem fRd_packJ : fRd (packJ imm rd m) = rd := by
  simp (disch := omega) only [fRd, packJ, extractLsb'_append_eq_of_le, extractLsb'_append_eq_of_add_le, Nat.reduceSub,
    extractLsb'_eq_self]

@[simp] theorem immJ_packJ : immJ (packJ imm rd m) = imm := by
  simp (disch := omega) only [immJ, packJ, extractLsb'_append_eq_of_le, extractLsb'_append_eq_of_add_le, Nat.reduceSub,
    extractLsb'_eq_self, extractLsb'_append_extractLsb'_eq_extractLsb']

end

/-! ## Parts of the fields -/

section
variable (imm : BitVec 12) (rs2 rs1 : BitVec 5) (k j : Nat) (rd : BitVec 5) (m : BitVec 7)

@[simp] theorem funct3_packR : (packR j rs2 rs1 k rd m).extractLsb' 12 3 = BitVec.ofNat 3 k := by
  simp (disch := omega) only [packR, extractLsb'_append_eq_of_le, extractLsb'_append_eq_of_add_le, Nat.reduceSub,
    extractLsb'_eq_self]

@[simp] theorem funct5_packR : (packR j rs2 rs1 k rd m).extractLsb' 27 5 = BitVec.ofNat 5 (j / 4) := by
  have h := fF7_packR rs2 rs1 k j rd m
  unfold fF7 at h
  apply BitVec.eq_of_toNat_eq
  simp only [BitVec.extractLsb'_toNat, Nat.shiftRight_eq_div_pow, BitVec.toNat_ofNat] at h ⊢
  omega

@[simp] theorem fmtBits_packR : (packR j rs2 rs1 k rd m).extractLsb' 25 2 = BitVec.ofNat 2 j := by
  have h := fF7_packR rs2 rs1 k j rd m
  unfold fF7 at h
  apply BitVec.eq_of_toNat_eq
  simp only [BitVec.extractLsb'_toNat, Nat.shiftRight_eq_div_pow, BitVec.toNat_ofNat] at h ⊢
  omega

@[simp] theorem aqBit_packR : (packR j rs2 rs1 k rd m).extractLsb' 26 1 = BitVec.ofNat 1 (j / 2) := by
  have h := fF7_packR rs2 rs1 k j rd m
  unfold fF7 at h
  apply BitVec.eq_of_toNat_eq
  simp only [BitVec.extractLsb'_toNat, Nat.shiftRight_eq_div_pow, BitVec.toNat_ofNat] at h ⊢
  omega

@[simp] theorem rlBit_packR : (packR j rs2 rs1 k rd m).extractLsb' 25 1 = BitVec.ofNat 1 j := by
  have h := fF7_packR rs2 rs1 k j rd m
  unfold fF7 at h
  apply BitVec.eq_of_toNat_eq
  simp only [BitVec.extractLsb'_toNat, Nat.shiftRight_eq_div_pow, BitVec.toNat_ofNat] at h ⊢
  omega

/-- Bits of the immediate of an I-type word. -/
theorem extractLsb'_packI (i n : Nat) :
    (packI imm rs1 k rd m).extractLsb' (20 + i) n = imm.extractLsb' i n := by
  unfold packI
  rw [extractLsb'_append_eq_of_le (by omega), extractLsb'_append_eq_of_le (by omega),
    extractLsb'_append_eq_of_le (by omega), extractLsb'_append_eq_of_le (by omega)]
  congr 1
  omega

@[simp] theorem funct6_packI : (packI imm rs1 k rd m).extractLsb' 26 6 = imm.extractLsb' 6 6 :=
  extractLsb'_packI imm rs1 k rd m 6 6

@[simp] theorem shamt_packI : (packI imm rs1 k rd m).extractLsb' 20 6 = imm.extractLsb' 0 6 :=
  extractLsb'_packI imm rs1 k rd m 0 6

theorem fF7_packI : fF7 (packI imm rs1 k rd m) = imm.toNat / 32 := by
  have h : (packI imm rs1 k rd m).extractLsb' 25 7 = imm.extractLsb' 5 7 := extractLsb'_packI imm rs1 k rd m 5 7
  unfold fF7
  rw [h, BitVec.extractLsb'_toNat, Nat.shiftRight_eq_div_pow]
  omega

@[simp] theorem fm_packI : (packI imm rs1 k rd m).extractLsb' 28 4 = imm.extractLsb' 8 4 :=
  extractLsb'_packI imm rs1 k rd m 8 4

@[simp] theorem pred_packI : (packI imm rs1 k rd m).extractLsb' 24 4 = imm.extractLsb' 4 4 :=
  extractLsb'_packI imm rs1 k rd m 4 4

@[simp] theorem succ_packI : (packI imm rs1 k rd m).extractLsb' 20 4 = imm.extractLsb' 0 4 :=
  extractLsb'_packI imm rs1 k rd m 0 4

end

end Sys2Proof
end

section
/-! SUPPORT. Standard instructions (R15, R52): decoding the word of an instruction gives the instruction back. -/

namespace Sys2Proof

/-! ## Operations by their codes -/

theorem find1_brOps (o : BrCond) : find1 brOps (code1 brOps o % 8) = some o := by
  cases o <;> rfl

theorem find1_immOps {o : ImmOp} (h : o ≠ .addiw) : find1 immOps (code1 immOps o % 8) = some o := by
  revert h
  cases o <;> decide

theorem ldKinds_code (o : LdKind) : ldKinds[o.code % 8]? = some o := by
  cases o <;> rfl

theorem stKinds_code (o : StKind) : stKinds[o.code % 8]? = some o := by
  cases o <;> rfl

theorem find2_regOps {o : RegOp} (h : o.isW = false) :
    find2 regOps ((code2 regOps o).1 % 128) ((code2 regOps o).2 % 8) = some o := by
  revert h
  cases o <;> decide

/-- The codes under OP-32; the point of zext.h is none of them. -/
theorem find2_regOps32 {o : RegOp} (h : o.isW = true) :
    ¬ ((code2 regOps32 o).1 % 128 = 4 ∧ (code2 regOps32 o).2 % 8 = 4)
      ∧ find2 regOps32 ((code2 regOps32 o).1 % 128) ((code2 regOps32 o).2 % 8) = some o := by
  revert h
  cases o <;> decide

theorem find2_shOps {o : ShOp} (h : o.isW = false) :
    find1 immOps ((code2 shOps o).2 % 8) = none
      ∧ find2 shOps ((code2 shOps o).1 % 64) ((code2 shOps o).2 % 8) = some o := by
  revert h
  cases o <;> decide

theorem find2_shOps32 {o : ShOp} (h : o.isW = true) :
    (code2 shOps32 o).2 % 8 ≠ 0 ∧ ((code2 shOps32 o).1 ≤ 2 ∨ (code2 shOps32 o).2 % 8 ≠ 1)
      ∧ find2 shOps32 ((code2 shOps32 o).1 % 64) ((code2 shOps32 o).2 % 8) = some o := by
  revert h
  cases o <;> decide

theorem find2_unOps {o : UnOp} (h : o.isW = false) (hz : o ≠ .zextH) :
    find1 immOps ((code2 unOps o).2 % 8) = none
      ∧ find2 shOps ((code2 unOps o).1 / 64 % 64) ((code2 unOps o).2 % 8) = none
      ∧ find2 unOps ((code2 unOps o).1 % 4096) ((code2 unOps o).2 % 8) = some o := by
  revert h hz
  cases o <;> decide

theorem find2_unOps32 {o : UnOp} (h : o.isW = true) :
    (code2 unOps32 o).2 % 8 ≠ 0 ∧ find2 unOps32 ((code2 unOps32 o).1 % 4096) ((code2 unOps32 o).2 % 8) = some o := by
  revert h
  cases o <;> decide

/-- The one-operand words under OP-IMM-32 have codes from 0x600 on with funct3 1. -/
theorem find2_unOps32_none {p q : Nat} (h : p < 0x600 ∨ q ≠ 1) : find2 unOps32 p q = none := by
  simp only [unOps32, find2]
  rw [if_neg (by omega), if_neg (by omega), if_neg (by omega)]

/-! ## Words under OP-IMM and OP-IMM-32 -/

theorem encode_opImm {o : ImmOp} (h : o ≠ .addiw) (rd rs1 : BitVec 5) (imm : BitVec 12) :
    Rv.encode (.opImm o rd rs1 imm) = packI imm rs1 (code1 immOps o) rd 0x13#7 := by
  cases o
  case addiw => exact absurd rfl h
  all_goals rfl

theorem encode_unary {o : UnOp} (h : o ≠ .zextH) (rd rs1 : BitVec 5) :
    Rv.encode (.unary o rd rs1) =
      if o.isW then packI (BitVec.ofNat 12 (code2 unOps32 o).1) rs1 (code2 unOps32 o).2 rd 0x1b#7
      else packI (BitVec.ofNat 12 (code2 unOps o).1) rs1 (code2 unOps o).2 rd 0x13#7 := by
  cases o
  case zextH => exact absurd rfl h
  all_goals rfl

theorem decodeRv_opImm (o : ImmOp) (rd rs1 : BitVec 5) (imm : BitVec 12) :
    decodeRv (Rv.encode (.opImm o rd rs1 imm)) = some (.opImm o rd rs1 imm) := by
  by_cases h : o = .addiw
  · subst h
    simp [decodeRv, Rv.encode, decodeOpImm32]
  · rw [encode_opImm h]
    simp [decodeRv, decodeOpImm, find1_immOps h]

theorem decodeRv_shImm (o : ShOp) (rd rs1 : BitVec 5) (sh : BitVec 6) :
    decodeRv (Rv.encode (.shImm o rd rs1 sh)) = some (.shImm o rd rs1 sh) := by
  have six (c : Nat) : (BitVec.ofNat 6 c ++ sh).extractLsb' 6 6 = BitVec.ofNat 6 c := BitVec.extractLsb'_append_eq_left
  have amount (c : Nat) : (BitVec.ofNat 6 c ++ sh).extractLsb' 0 6 = sh := BitVec.extractLsb'_append_eq_right
  by_cases h : o.isW = true
  · obtain ⟨h0, hp, hf⟩ := find2_shOps32 h
    have hn : find2 unOps32 (BitVec.ofNat 6 (code2 shOps32 o).1 ++ sh).toNat ((code2 shOps32 o).2 % 8) = none := by
      apply find2_unOps32_none
      rw [BitVec.toNat_append, Nat.shiftLeft_eq, Nat.mul_comm, ← Nat.two_pow_add_eq_or_of_lt sh.isLt, BitVec.toNat_ofNat]
      omega
    simp [decodeRv, Rv.encode, h, decodeOpImm32, h0, hn, six, amount, hf]
  · obtain ⟨h0, hf⟩ := find2_shOps (eq_false_of_ne_true h)
    simp [decodeRv, Rv.encode, h, decodeOpImm, h0, six, amount, hf]

theorem decodeRv_unary (o : UnOp) (rd rs1 : BitVec 5) : decodeRv (Rv.encode (.unary o rd rs1)) = some (.unary o rd rs1) := by
  by_cases hz : o = .zextH
  · subst hz
    simp [decodeRv, Rv.encode]
  rw [encode_unary hz]
  by_cases h : o.isW = true
  · obtain ⟨h0, hf⟩ := find2_unOps32 h
    simp [decodeRv, h, decodeOpImm32, h0, hf]
  · obtain ⟨h0, hs, hf⟩ := find2_unOps (eq_false_of_ne_true h) hz
    have six (c : Nat) : (BitVec.ofNat 12 c).extractLsb' 6 6 = BitVec.ofNat 6 (c / 64) := by
      apply BitVec.eq_of_toNat_eq
      simp only [BitVec.extractLsb'_toNat, Nat.shiftRight_eq_div_pow, BitVec.toNat_ofNat]
      omega
    simp [decodeRv, h, decodeOpImm, h0, six, hs, hf]

theorem decodeRv_op (o : RegOp) (rd rs1 rs2 : BitVec 5) : decodeRv (Rv.encode (.op o rd rs1 rs2)) = some (.op o rd rs1 rs2) := by
  by_cases h : o.isW = true
  · obtain ⟨hz, hf⟩ := find2_regOps32 h
    simp [decodeRv, Rv.encode, h, hz, hf]
  · simp [decodeRv, Rv.encode, h, find2_regOps]

theorem decodeRv_fence (fm pred succ : BitVec 4) (rs1 rd : BitVec 5) :
    decodeRv (Rv.encode (.fence fm pred succ rs1 rd)) = some (.fence fm pred succ rs1 rd) := by
  have hfm : (fm ++ pred ++ succ).extractLsb' 8 4 = fm := by
    rw [BitVec.extractLsb'_append_eq_of_le (by decide)]
    exact BitVec.extractLsb'_append_eq_left
  have hpred : (fm ++ pred ++ succ).extractLsb' 4 4 = pred := by
    rw [BitVec.extractLsb'_append_eq_of_le (by decide)]
    exact BitVec.extractLsb'_append_eq_right
  have hsucc : (fm ++ pred ++ succ).extractLsb' 0 4 = succ := BitVec.extractLsb'_append_eq_right
  simp [decodeRv, Rv.encode, hfm, hpred, hsucc]

/-! ## Floating-point words -/

/-- The rs3 field stands above the two bits of the format. -/
theorem ofNat_mul_four_add_div (x : BitVec 5) {c : Nat} (hc : c < 4) : BitVec.ofNat 5 ((x.toNat * 4 + c) / 4) = x := by
  apply BitVec.eq_of_toNat_eq
  rw [BitVec.toNat_ofNat]
  omega

theorem decodeRv_fma (o : FmaOp) (p : FpFmt) (rd rs1 rs2 rs3 : BitVec 5) (rm : BitVec 3) :
    decodeRv (Rv.encode (.fma o p rd rs1 rs2 rs3 rm)) = some (.fma o p rd rs1 rs2 rs3 rm) := by
  cases o <;> cases p <;>
    simp [decodeRv, Rv.encode, decodeFma, FmaOp.major, FpFmt.code, ofNat_mul_four_add_div]

section
variable (f5 : Nat) (p : FpFmt) (rs2 rs1 : BitVec 5) (rm : BitVec 3) (rd : BitVec 5)

@[simp] theorem majorOf_packFp : majorOf (packFp f5 p rs2 rs1 rm rd) = 0x53#7 := majorOf_packR ..
@[simp] theorem fRd_packFp : fRd (packFp f5 p rs2 rs1 rm rd) = rd := fRd_packR ..
@[simp] theorem fRs1_packFp : fRs1 (packFp f5 p rs2 rs1 rm rd) = rs1 := fRs1_packR ..
@[simp] theorem fRs2_packFp : fRs2 (packFp f5 p rs2 rs1 rm rd) = rs2 := fRs2_packR ..

@[simp] theorem funct3_packFp : (packFp f5 p rs2 rs1 rm rd).extractLsb' 12 3 = rm := by
  rw [packFp, funct3_packR, BitVec.ofNat_toNat, BitVec.setWidth_eq]

@[simp] theorem funct5_packFp : (packFp f5 p rs2 rs1 rm rd).extractLsb' 27 5 = BitVec.ofNat 5 f5 := by
  rw [packFp, funct5_packR]
  cases p
  · rw [show (f5 * 4 + FpFmt.code .s) / 4 = f5 by simp only [FpFmt.code]; omega]
  · rw [show (f5 * 4 + FpFmt.code .d) / 4 = f5 by simp only [FpFmt.code]; omega]

@[simp] theorem fmtBits_packFp : (packFp f5 p rs2 rs1 rm rd).extractLsb' 25 2 = BitVec.ofNat 2 p.code := by
  rw [packFp, fmtBits_packR]
  apply BitVec.eq_of_toNat_eq
  rw [BitVec.toNat_ofNat, BitVec.toNat_ofNat]
  omega

theorem decodeRv_packFp : decodeRv (packFp f5 p rs2 rs1 rm rd) = decodeOpFp (packFp f5 p rs2 rs1 rm rd) := by
  have hm : (packFp f5 p rs2 rs1 rm rd).extractLsb' 0 7 = 0x53#7 := majorOf_packFp ..
  unfold decodeRv
  rw [hm]
  rfl

end

theorem decodeRv_encode (r : Rv) : decodeRv r.encode = some r := by
  cases r with
  | lui => simp [decodeRv, Rv.encode]
  | auipc => simp [decodeRv, Rv.encode]
  | jal => simp [decodeRv, Rv.encode]
  | jalr => simp [decodeRv, Rv.encode]
  | branch => simp [decodeRv, Rv.encode, find1_brOps]
  | load => simp [decodeRv, Rv.encode, ldKinds_code]
  | store => simp [decodeRv, Rv.encode, stKinds_code]
  | opImm => exact decodeRv_opImm ..
  | shImm => exact decodeRv_shImm ..
  | op => exact decodeRv_op ..
  | unary => exact decodeRv_unary ..
  | fence => exact decodeRv_fence ..
  | ecall => simp [decodeRv, Rv.encode]
  | ebreak => simp [decodeRv, Rv.encode]
  | fload p => cases p <;> simp [decodeRv, Rv.encode, FpFmt.code]
  | fstore p => cases p <;> simp [decodeRv, Rv.encode, FpFmt.code]
  | fma => exact decodeRv_fma ..
  | farith o p | fsel o p | fcmp o p =>
    cases o <;> refine (decodeRv_packFp ..).trans ?_ <;> cases p <;> simp [decodeOpFp, FpFmt.code, FpOp.code]
  | fsqrt p | fclass p | fmvToX p | fmvFromX p =>
    refine (decodeRv_packFp ..).trans ?_
    cases p <;> simp [decodeOpFp, FpFmt.code]
  | fcvtToInt i p | fcvtFromInt i p =>
    refine (decodeRv_packFp ..).trans ?_
    cases p <;> cases i <;> simp [decodeOpFp, FpFmt.code, IntFmt.code]
  | fcvtSD | fcvtDS =>
    refine (decodeRv_packFp ..).trans ?_
    simp [decodeOpFp, FpFmt.code]

end Sys2Proof
end

section
/-! SUPPORT. Standard instructions (R15, R52): a word that decodes to an instruction is that instruction's word. -/

namespace Sys2Proof

/-! ## Codes of the operations found -/

theorem code1_of_find1 {α : Type} [DecidableEq α] {l : List (α × Nat)} (hl : (l.map Prod.fst).Nodup) {p : Nat} {o : α}
    (h : find1 l p = some o) : o ∈ l.map Prod.fst ∧ code1 l o = p := by
  induction l with
  | nil => cases h
  | cons e r ih =>
    obtain ⟨o', p'⟩ := e
    rw [List.map_cons, List.nodup_cons] at hl
    unfold find1 at h
    split at h
    · next hp =>
      cases h
      simp [code1, hp]
    · obtain ⟨hm, hc⟩ := ih hl.2 h
      have hne : o' ≠ o := fun he => hl.1 (he ▸ hm)
      simp [code1, hne, hm, hc]

theorem code2_of_find2 {α : Type} [DecidableEq α] {l : List (α × Nat × Nat)} (hl : (l.map Prod.fst).Nodup) {p q : Nat} {o : α}
    (h : find2 l p q = some o) : o ∈ l.map Prod.fst ∧ code2 l o = (p, q) := by
  induction l with
  | nil => cases h
  | cons e r ih =>
    obtain ⟨o', p', q'⟩ := e
    rw [List.map_cons, List.nodup_cons] at hl
    unfold find2 at h
    split at h
    · next hp =>
      cases h
      simp [code2, hp]
    · obtain ⟨hm, hc⟩ := ih hl.2 h
      have hne : o' ≠ o := fun he => hl.1 (he ▸ hm)
      simp [code2, hne, hm, hc]

theorem ldKinds_getElem? {k : Nat} {o : LdKind} (h : ldKinds[k]? = some o) : o.code = k := by
  have hk : k < 7 := (List.getElem?_eq_some_iff.mp h).1
  interval_cases k <;> cases h <;> rfl

theorem stKinds_getElem? {k : Nat} {o : StKind} (h : stKinds[k]? = some o) : o.code = k := by
  have hk : k < 4 := (List.getElem?_eq_some_iff.mp h).1
  interval_cases k <;> cases h <;> rfl

/-! ## Words under OP-IMM and OP-IMM-32 -/

theorem isW_shOps {o : ShOp} (h : o ∈ shOps.map Prod.fst) : o.isW = false := by
  revert h
  cases o <;> decide

theorem isW_shOps32 {o : ShOp} (h : o ∈ shOps32.map Prod.fst) : o.isW = true := by
  revert h
  cases o <;> decide

theorem isW_unOps {o : UnOp} (h : o ∈ unOps.map Prod.fst) : o.isW = false ∧ o ≠ .zextH := by
  revert h
  cases o <;> decide

theorem isW_unOps32 {o : UnOp} (h : o ∈ unOps32.map Prod.fst) : o.isW = true ∧ o ≠ .zextH := by
  revert h
  cases o <;> decide

theorem isW_regOps {o : RegOp} (h : o ∈ regOps.map Prod.fst) : o.isW = false := by
  revert h
  cases o <;> decide

theorem isW_regOps32 {o : RegOp} (h : o ∈ regOps32.map Prod.fst) : o.isW = true := by
  revert h
  cases o <;> decide

theorem addiw_notMem_immOps {o : ImmOp} (h : o ∈ immOps.map Prod.fst) : o ≠ .addiw := by
  revert h
  cases o <;> decide

theorem fI_split (w : W32) : w.extractLsb' 26 6 ++ w.extractLsb' 20 6 = fI w :=
  BitVec.extractLsb'_append_extractLsb'_eq_extractLsb' rfl

theorem encode_of_decodeOpImm {w : W32} {r : Rv} (hm : majorOf w = 0x13#7) (h : decodeOpImm w = some r) : r.encode = w := by
  unfold decodeOpImm at h
  split at h
  · next o ho =>
    cases h
    obtain ⟨hmem, hc⟩ := code1_of_find1 (by decide) ho
    rw [encode_opImm (addiw_notMem_immOps hmem), packI_fields hm hc.symm]
  · split at h
    · next o ho =>
      cases h
      obtain ⟨hmem, hc⟩ := code2_of_find2 (by decide) ho
      simp only [Rv.encode, isW_shOps hmem, hc, BitVec.ofNat_toNat, BitVec.setWidth_eq, Bool.false_eq_true, if_false]
      rw [fI_split, packI_fields hm rfl]
    · obtain ⟨o, ho, rfl⟩ := Option.map_eq_some_iff.mp h
      obtain ⟨hmem, hc⟩ := code2_of_find2 (by decide) ho
      obtain ⟨hw, hz⟩ := isW_unOps hmem
      rw [encode_unary hz, hw, hc]
      simp only [BitVec.ofNat_toNat, BitVec.setWidth_eq, Bool.false_eq_true, if_false]
      rw [packI_fields hm rfl]

theorem encode_of_decodeOpImm32 {w : W32} {r : Rv} (hm : majorOf w = 0x1b#7) (h : decodeOpImm32 w = some r) :
    r.encode = w := by
  unfold decodeOpImm32 at h
  split at h
  · next h0 =>
    cases h
    exact packI_fields hm h0
  · split at h
    · next o ho =>
      cases h
      obtain ⟨hmem, hc⟩ := code2_of_find2 (by decide) ho
      obtain ⟨hw, hz⟩ := isW_unOps32 hmem
      rw [encode_unary hz, hw, hc]
      simp only [BitVec.ofNat_toNat, BitVec.setWidth_eq, if_true]
      rw [packI_fields hm rfl]
    · obtain ⟨o, ho, rfl⟩ := Option.map_eq_some_iff.mp h
      obtain ⟨hmem, hc⟩ := code2_of_find2 (by decide) ho
      simp only [Rv.encode, isW_shOps32 hmem, hc, BitVec.ofNat_toNat, BitVec.setWidth_eq, if_true]
      rw [fI_split, packI_fields hm rfl]

/-! ## Floating-point words -/

theorem fF7_split (w : W32) : (w.extractLsb' 27 5).toNat * 4 + (w.extractLsb' 25 2).toNat = fF7 w := by
  simp only [fF7, BitVec.extractLsb'_toNat, Nat.shiftRight_eq_div_pow]
  omega

theorem packFp_fields {w : W32} {f5 : Nat} {p : FpFmt} {rs2 : BitVec 5} {rm : BitVec 3} (hm : majorOf w = 0x53#7)
    (h5 : (w.extractLsb' 27 5).toNat = f5) (hp : (w.extractLsb' 25 2).toNat = p.code) (h2 : fRs2 w = rs2)
    (hrm : (w.extractLsb' 12 3) = rm) : packFp f5 p rs2 (fRs1 w) rm (fRd w) = w := by
  subst h5 h2 hrm
  unfold packFp
  rw [← hp, fF7_split]
  exact packR_fields hm rfl rfl

theorem encode_of_decodeFma {w : W32} {o : FmaOp} {r : Rv} (hm : majorOf w = o.major) (h : decodeFma o w = some r) :
    r.encode = w := by
  unfold decodeFma at h
  split at h
  · next hp =>
    cases h
    refine packR_fields hm rfl ?_
    rw [← fF7_split, hp]
    rfl
  · next hp =>
    cases h
    refine packR_fields hm rfl ?_
    rw [← fF7_split, hp]
    rfl
  · cases h

/-- The format of an OP-FP word that decodes. -/
theorem fmt_of_decodeOpFp {w : W32} {r : Rv} (h : decodeOpFp w = some r) : ∃ p : FpFmt, (w.extractLsb' 25 2).toNat = p.code := by
  unfold decodeOpFp at h
  split at h
  · exact ⟨.s, by assumption⟩
  · exact ⟨.d, by assumption⟩
  · cases h

theorem encode_of_decodeOpFp {w : W32} {r : Rv} (hm : majorOf w = 0x53#7) (h : decodeOpFp w = some r) : r.encode = w := by
  obtain ⟨p, hp⟩ := fmt_of_decodeOpFp h
  cases p
  all_goals
    simp only [decodeOpFp, hp, FpFmt.code] at h
    split at h
    · next h5 =>
      cases h
      exact packFp_fields hm h5 hp rfl rfl
    · next h5 =>
      cases h
      exact packFp_fields hm h5 hp rfl rfl
    · next h5 =>
      cases h
      exact packFp_fields hm h5 hp rfl rfl
    · next h5 =>
      cases h
      exact packFp_fields hm h5 hp rfl rfl
    · next h5 =>
      split at h <;> cases h
      exact packFp_fields hm h5 hp (by assumption) rfl
    · next h5 =>
      split at h <;> cases h <;> exact packFp_fields hm h5 hp rfl (BitVec.eq_of_toNat_eq (by assumption))
    · next h5 =>
      split at h <;> cases h <;> exact packFp_fields hm h5 hp rfl (BitVec.eq_of_toNat_eq (by assumption))
    · next h5 =>
      split at h
      · next hf h2 =>
        cases h
        exact packFp_fields hm h5 (hp.trans (congrArg FpFmt.code hf)) (BitVec.eq_of_toNat_eq h2) rfl
      · next hf h2 =>
        cases h
        exact packFp_fields hm h5 (hp.trans (congrArg FpFmt.code hf)) (BitVec.eq_of_toNat_eq h2) rfl
      · cases h
    · next h5 =>
      split at h <;> cases h <;> exact packFp_fields hm h5 hp rfl (BitVec.eq_of_toNat_eq (by assumption))
    · next h5 =>
      split at h <;> cases h <;> exact packFp_fields hm h5 hp (BitVec.eq_of_toNat_eq (by assumption)) rfl
    · next h5 =>
      split at h <;> cases h <;> exact packFp_fields hm h5 hp (BitVec.eq_of_toNat_eq (by assumption)) rfl
    · next h5 =>
      split at h
      · next h2 =>
        split at h <;> cases h <;> exact packFp_fields hm h5 hp h2 (BitVec.eq_of_toNat_eq (by assumption))
      · cases h
    · next h5 =>
      split at h
      · next h2 =>
        cases h
        exact packFp_fields hm h5 hp h2.1 h2.2
      · cases h
    · cases h

/-! ## Every standard major -/

theorem majorOf_eq {w : W32} {m : BitVec 7} (h : (w.extractLsb' 0 7).toNat = m.toNat) : majorOf w = m :=
  BitVec.eq_of_toNat_eq h

theorem encode_of_decodeRv {w : W32} {r : Rv} (h : decodeRv w = some r) : r.encode = w := by
  unfold decodeRv at h
  split at h
  · next hm =>
    cases h
    exact packU_fields (majorOf_eq hm)
  · next hm =>
    cases h
    exact packU_fields (majorOf_eq hm)
  · next hm =>
    cases h
    exact packJ_fields (majorOf_eq hm)
  · next hm =>
    split at h <;> cases h
    exact packI_fields (majorOf_eq hm) (by assumption)
  · next hm =>
    obtain ⟨c, hc, rfl⟩ := Option.map_eq_some_iff.mp h
    exact packB_fields (majorOf_eq hm) (code1_of_find1 (by decide) hc).2.symm
  · next hm =>
    obtain ⟨c, hc, rfl⟩ := Option.map_eq_some_iff.mp h
    exact packI_fields (majorOf_eq hm) (ldKinds_getElem? hc).symm
  · next hm =>
    obtain ⟨c, hc, rfl⟩ := Option.map_eq_some_iff.mp h
    exact packS_fields (majorOf_eq hm) (stKinds_getElem? hc).symm
  · next hm => exact encode_of_decodeOpImm (majorOf_eq hm) h
  · next hm => exact encode_of_decodeOpImm32 (majorOf_eq hm) h
  · next hm =>
    obtain ⟨o, ho, rfl⟩ := Option.map_eq_some_iff.mp h
    obtain ⟨hmem, hc⟩ := code2_of_find2 (by decide) ho
    simp only [Rv.encode, isW_regOps hmem, hc, Bool.false_eq_true, if_false]
    exact packR_fields (majorOf_eq hm) rfl rfl
  · next hm =>
    split at h
    · next hz =>
      split at h <;> cases h
      next h2 =>
      simp only [Rv.encode, ← h2]
      exact packR_fields (majorOf_eq hm) hz.2 hz.1
    · obtain ⟨o, ho, rfl⟩ := Option.map_eq_some_iff.mp h
      obtain ⟨hmem, hc⟩ := code2_of_find2 (by decide) ho
      simp only [Rv.encode, isW_regOps32 hmem, hc, if_true]
      exact packR_fields (majorOf_eq hm) rfl rfl
  · next hm =>
    split at h <;> cases h
    have hI : w.extractLsb' 28 4 ++ w.extractLsb' 24 4 ++ w.extractLsb' 20 4 = fI w := by
      rw [show w.extractLsb' 28 4 ++ w.extractLsb' 24 4 = w.extractLsb' 24 8 from
        BitVec.extractLsb'_append_extractLsb'_eq_extractLsb' rfl]
      exact BitVec.extractLsb'_append_extractLsb'_eq_extractLsb' rfl
    simp only [Rv.encode, hI]
    exact packI_fields (majorOf_eq hm) (by assumption)
  · next hm =>
    split at h
    · next hz =>
      obtain ⟨h3, hd, h1⟩ := hz
      have hw := packI_fields (majorOf_eq hm : majorOf w = 0x73#7) h3
      rw [hd, h1] at hw
      split at h
      · next hI =>
        cases h
        rwa [show fI w = 0 from BitVec.eq_of_toNat_eq hI] at hw
      · next hI =>
        cases h
        rwa [show fI w = 1 from BitVec.eq_of_toNat_eq hI] at hw
      · cases h
    · cases h
  · next hm => 
    split at h <;> cases h <;> exact packI_fields (majorOf_eq hm) (by assumption)
  · next hm =>
    split at h <;> cases h <;> exact packS_fields (majorOf_eq hm) (by assumption)
  · next hm => exact encode_of_decodeFma (o := .madd) (majorOf_eq hm) h
  · next hm => exact encode_of_decodeFma (o := .msub) (majorOf_eq hm) h
  · next hm => exact encode_of_decodeFma (o := .nmsub) (majorOf_eq hm) h
  · next hm => exact encode_of_decodeFma (o := .nmadd) (majorOf_eq hm) h
  · next hm => exact encode_of_decodeOpFp (majorOf_eq hm) h
  · cases h

end Sys2Proof
end

section
/-! SUPPORT. The standard majors (R15, R52): the A extension's words, CSR words and privileged words. -/

namespace Sys2Proof

/-! ## Words that are instructions of a row of their own -/

/-- What the decoder finds at a standard word that `decodeRv` does not list. -/
def rowOfStandard (w : W32) : Option Instr :=
  match (w.extractLsb' 0 7).toNat with
  | 0x0f => if fF3 w = 1 then some (.fenceI (fI w) (fRs1 w) (fRd w)) else none
  | 0x2f => decodeAmo w
  | 0x73 => decodeSystem w
  | _ => none

theorem decodeStandard_of_rv {w : W32} {r : Rv} (h : decodeRv w = some r) :
    decodeStandard w = .ok (.riscvInstruction r) := by
  simp only [decodeStandard, h]

theorem decodeStandard_of_none {w : W32} (h : decodeRv w = none) :
    decodeStandard w = match rowOfStandard w with
      | some i => .ok i
      | none => .error .undefinedStandard := by
  unfold decodeStandard
  rw [h]
  rfl

theorem decodeStandard_of_row {w : W32} {i : Instr} (hr : decodeRv w = none) (h : rowOfStandard w = some i) :
    decodeStandard w = .ok i := by
  rw [decodeStandard_of_none hr, h]

theorem decodeStandard_eq_ok {w : W32} {i : Instr} (h : decodeStandard w = .ok i) :
    (∃ r, decodeRv w = some r ∧ i = .riscvInstruction r) ∨ rowOfStandard w = some i := by
  cases hr : decodeRv w with
  | some r =>
    cases (decodeStandard_of_rv hr).symm.trans h
    exact .inl ⟨r, rfl, rfl⟩
  | none =>
    rw [decodeStandard_of_none hr] at h
    split at h
    · next ho =>
      cases h
      exact .inr ho
    · cases h

theorem rowOfStandard_fence {w : W32} (h : majorOf w = 0x0f#7) :
    rowOfStandard w = if fF3 w = 1 then some (.fenceI (fI w) (fRs1 w) (fRd w)) else none := by
  unfold rowOfStandard
  rw [show w.extractLsb' 0 7 = 0x0f#7 from h]
  rfl

theorem rowOfStandard_amo {w : W32} (h : majorOf w = 0x2f#7) : rowOfStandard w = decodeAmo w := by
  unfold rowOfStandard
  rw [show w.extractLsb' 0 7 = 0x2f#7 from h]
  rfl

theorem rowOfStandard_system {w : W32} (h : majorOf w = 0x73#7) : rowOfStandard w = decodeSystem w := by
  unfold rowOfStandard
  rw [show w.extractLsb' 0 7 = 0x73#7 from h]
  rfl

/-! ## They are words of their instructions -/

theorem packAmo_fields {w : W32} {f5 : Nat} {sz : AmoW} {rs2 : BitVec 5} (hm : majorOf w = 0x2f#7)
    (h5 : (w.extractLsb' 27 5).toNat = f5) (hs : fF3 w = match sz with | .w32 => 2 | .w64 => 3) (h2 : fRs2 w = rs2) :
    packAmo f5 (w.extractLsb' 26 1) (w.extractLsb' 25 1) rs2 (fRs1 w) sz (fRd w) = w := by
  subst h5 h2
  refine packR_fields hm hs ?_
  simp only [fF7, BitVec.extractLsb'_toNat, Nat.shiftRight_eq_div_pow]
  omega

/-- The size of an A extension's word that decodes. -/
theorem size_of_decodeAmo {w : W32} {i : Instr} (h : decodeAmo w = some i) :
    ∃ sz : AmoW, fF3 w = match sz with | .w32 => 2 | .w64 => 3 := by
  unfold decodeAmo at h
  split at h
  · exact ⟨.w32, by assumption⟩
  · exact ⟨.w64, by assumption⟩
  · cases h

theorem encode_of_decodeAmo {w : W32} {i : Instr} (hm : majorOf w = 0x2f#7) (h : decodeAmo w = some i) :
    encode i = some w := by
  obtain ⟨sz, hs⟩ := size_of_decodeAmo h
  cases sz
  all_goals
    simp only [decodeAmo, hs] at h
    split at h
    · next h5 =>
      split at h <;> cases h
      exact congrArg some (packAmo_fields hm h5 hs (by assumption))
    · next h5 =>
      cases h
      exact congrArg some (packAmo_fields hm h5 hs rfl)
    · obtain ⟨o, ho, rfl⟩ := Option.map_eq_some_iff.mp h
      exact congrArg some (packAmo_fields hm (code1_of_find1 (by decide) ho).2.symm hs rfl)

theorem encode_of_decodeSystem {w : W32} {i : Instr} (hm : majorOf w = 0x73#7) (h : decodeSystem w = some i) :
    encode i = some w := by
  unfold decodeSystem at h
  split at h
  · next h3 =>
    split at h
    · next hz =>
      cases h
      have hw := packR_fields hm h3 hz.1
      rw [hz.2] at hw
      exact congrArg some hw
    · split at h
      · next hz =>
        have hw := packI_fields hm h3
        rw [hz.1, hz.2] at hw
        split at h
        · next hI =>
          cases h
          rw [show fI w = 0x302#12 from BitVec.eq_of_toNat_eq hI] at hw
          exact congrArg some hw
        · next hI =>
          cases h
          rw [show fI w = 0x102#12 from BitVec.eq_of_toNat_eq hI] at hw
          exact congrArg some hw
        · next hI =>
          cases h
          rw [show fI w = 0x105#12 from BitVec.eq_of_toNat_eq hI] at hw
          exact congrArg some hw
        · cases h
      · cases h
  all_goals cases h
  all_goals exact congrArg some (packI_fields hm (by assumption))

theorem encode_of_rowOfStandard {w : W32} {i : Instr} (h : rowOfStandard w = some i) : encode i = some w := by
  unfold rowOfStandard at h
  split at h
  · next hm =>
    split at h <;> cases h
    exact congrArg some (packI_fields (majorOf_eq hm) (by assumption))
  · next hm => exact encode_of_decodeAmo (majorOf_eq hm) h
  · next hm => exact encode_of_decodeSystem (majorOf_eq hm) h
  · cases h

theorem encode_of_decodeStandard {w : W32} {i : Instr} (h : decodeStandard w = .ok i) : encode i = some w := by
  obtain ⟨r, hr, rfl⟩ | ho := decodeStandard_eq_ok h
  · exact congrArg some (encode_of_decodeRv hr)
  · exact encode_of_rowOfStandard ho

/-! ## The decoder finds them at their words -/

theorem decodeRv_amo {w : W32} (h : majorOf w = 0x2f#7) : decodeRv w = none := by
  unfold decodeRv
  rw [show w.extractLsb' 0 7 = 0x2f#7 from h]
  rfl

theorem decodeRv_fence_ne {w : W32} (h : majorOf w = 0x0f#7) (h3 : fF3 w ≠ 0) : decodeRv w = none := by
  unfold decodeRv
  rw [show w.extractLsb' 0 7 = 0x0f#7 from h]
  exact if_neg h3

/-- SYSTEM words other than ECALL and EBREAK. -/
theorem decodeRv_system_ne {w : W32} (h : majorOf w = 0x73#7) (hn : fF3 w ≠ 0 ∨ 1 < (fI w).toNat) : decodeRv w = none := by
  unfold decodeRv
  rw [show w.extractLsb' 0 7 = 0x73#7 from h]
  change (if _ then _ else _) = _
  split
  · next hz =>
    split
    · omega
    · omega
    · rfl
  · rfl

theorem find1_amoOps (o : AmoOp) : ∃ n, code1 amoOps o = n ∧ n < 32 ∧ n ≠ 2 ∧ n ≠ 3 ∧ find1 amoOps n = some o := by
  cases o <;> exact ⟨_, rfl, by decide⟩

section
variable (f5 : Nat) (aq rl : BitVec 1) (rs2 rs1 : BitVec 5) (sz : AmoW) (rd : BitVec 5)

@[simp] theorem majorOf_packAmo : majorOf (packAmo f5 aq rl rs2 rs1 sz rd) = 0x2f#7 := majorOf_packR ..
@[simp] theorem fRd_packAmo : fRd (packAmo f5 aq rl rs2 rs1 sz rd) = rd := fRd_packR ..
@[simp] theorem fRs1_packAmo : fRs1 (packAmo f5 aq rl rs2 rs1 sz rd) = rs1 := fRs1_packR ..
@[simp] theorem fRs2_packAmo : fRs2 (packAmo f5 aq rl rs2 rs1 sz rd) = rs2 := fRs2_packR ..

@[simp] theorem fF3_packAmo : fF3 (packAmo f5 aq rl rs2 rs1 sz rd) = match sz with | .w32 => 2 | .w64 => 3 := by
  cases sz <;> exact fF3_packR ..

@[simp] theorem funct5_packAmo : (packAmo f5 aq rl rs2 rs1 sz rd).extractLsb' 27 5 = BitVec.ofNat 5 f5 := by
  unfold packAmo
  rw [funct5_packR]
  congr 1
  omega

@[simp] theorem aqBit_packAmo : (packAmo f5 aq rl rs2 rs1 sz rd).extractLsb' 26 1 = aq := by
  unfold packAmo
  rw [aqBit_packR]
  apply BitVec.eq_of_toNat_eq
  rw [BitVec.toNat_ofNat]
  omega

@[simp] theorem rlBit_packAmo : (packAmo f5 aq rl rs2 rs1 sz rd).extractLsb' 25 1 = rl := by
  unfold packAmo
  rw [rlBit_packR]
  apply BitVec.eq_of_toNat_eq
  rw [BitVec.toNat_ofNat]
  omega

end

theorem decodeAmo_lr (sz : AmoW) (aq rl : BitVec 1) (rs1 rd : BitVec 5) :
    decodeAmo (packAmo 2 aq rl 0 rs1 sz rd) = some (.lr sz aq rl rs1 rd) := by
  cases sz <;> simp [decodeAmo]

theorem decodeAmo_sc (sz : AmoW) (aq rl : BitVec 1) (rs2 rs1 rd : BitVec 5) :
    decodeAmo (packAmo 3 aq rl rs2 rs1 sz rd) = some (.sc sz aq rl rs2 rs1 rd) := by
  cases sz <;> simp [decodeAmo]

theorem decodeAmo_amo (o : AmoOp) (sz : AmoW) (aq rl : BitVec 1) (rs2 rs1 rd : BitVec 5) :
    decodeAmo (packAmo (code1 amoOps o) aq rl rs2 rs1 sz rd) = some (.amo o sz aq rl rs2 rs1 rd) := by
  obtain ⟨n, hn, hlt, h2, h3, hf⟩ := find1_amoOps o
  rw [hn]
  cases sz <;> simp [decodeAmo, Nat.mod_eq_of_lt hlt, hf]

theorem decodeSystem_csr (o : CsrOp) (imm : Bool) (csr : BitVec 12) (src rd : BitVec 5) :
    decodeSystem (packI csr src (csrF3 o imm) rd 0x73#7) = some (.csrAccess o imm csr src rd) := by
  cases o <;> cases imm <;> simp [decodeSystem, csrF3]

theorem csrF3_ne_zero (o : CsrOp) (imm : Bool) : csrF3 o imm % 8 ≠ 0 := by
  cases o <;> cases imm <;> decide

/-- The immediate field of a SYSTEM word with funct7 9 is not that of ECALL or EBREAK. -/
theorem one_lt_fI_of_fF7 {w : W32} (h : fF7 w = 9) : 1 < (fI w).toNat := by
  simp only [fF7, fI, BitVec.extractLsb'_toNat, Nat.shiftRight_eq_div_pow] at h ⊢
  omega

/-! ## The standard majors in the map (R52) -/

/-- The majors under which a standard instruction stands. -/
def standardMajors : List Nat :=
  [0x37, 0x17, 0x6f, 0x67, 0x63, 0x03, 0x23, 0x13, 0x1b, 0x33, 0x3b, 0x0f, 0x73, 0x07, 0x27, 0x43, 0x47, 0x4b, 0x4f, 0x53, 0x2f]

/-- Under a standard major the two low bits are 11 and no device major matches. -/
theorem decodePoint_standard {w : W32} (h : (majorOf w).toNat ∈ standardMajors) : decodePoint w = decodeStandard w := by
  have hlow : w.extractLsb' 0 2 = BitVec.ofNat 2 (majorOf w).toNat := by
    apply BitVec.eq_of_toNat_eq
    simp only [majorOf, BitVec.extractLsb'_toNat, BitVec.toNat_ofNat]
    omega
  unfold decodePoint
  rw [hlow, show w.extractLsb' 0 7 = majorOf w from rfl]
  generalize (majorOf w).toNat = n at h
  simp only [standardMajors, List.mem_cons, List.not_mem_nil, or_false] at h
  rcases h with h | h | h | h | h | h | h | h | h | h | h | h | h | h | h | h | h | h | h | h | h <;> subst h <;> rfl

theorem majorOf_of_decodeRv {w : W32} {r : Rv} (h : decodeRv w = some r) : (majorOf w).toNat ∈ standardMajors := by
  unfold decodeRv at h
  split at h
  case h_21 => cases h
  all_goals
    rename_i hm
    rw [show (majorOf w).toNat = _ from hm]
    decide

theorem decodePoint_of_rv (r : Rv) : decodePoint r.encode = .ok (.riscvInstruction r) := by
  have h := decodeRv_encode r
  rw [decodePoint_standard (majorOf_of_decodeRv h), decodeStandard_of_rv h]

/-- A word under a standard major that `decodeRv` does not list is the instruction of its row. -/
theorem decodePoint_of_row {w : W32} {i : Instr} (hm : (majorOf w).toNat ∈ standardMajors) (hr : decodeRv w = none)
    (h : rowOfStandard w = some i) : decodePoint w = .ok i := by
  rw [decodePoint_standard hm, decodeStandard_of_row hr h]

theorem decodePoint_amo {w : W32} {i : Instr} (hm : majorOf w = 0x2f#7) (h : decodeAmo w = some i) :
    decodePoint w = .ok i :=
  decodePoint_of_row (by rw [hm]; decide) (decodeRv_amo hm) (by rw [rowOfStandard_amo hm, h])

theorem decodePoint_system {w : W32} {i : Instr} (hm : majorOf w = 0x73#7) (hn : fF3 w ≠ 0 ∨ 1 < (fI w).toNat)
    (h : decodeSystem w = some i) : decodePoint w = .ok i :=
  decodePoint_of_row (by rw [hm]; decide) (decodeRv_system_ne hm hn) (by rw [rowOfStandard_system hm, h])

theorem decodePoint_csrAccess (o : CsrOp) (imm : Bool) (csr : BitVec 12) (src rd : BitVec 5) :
    decodePoint (packI csr src (csrF3 o imm) rd 0x73#7) = .ok (.csrAccess o imm csr src rd) :=
  decodePoint_system (majorOf_packI ..) (.inl (by rw [fF3_packI]; exact csrF3_ne_zero o imm)) (decodeSystem_csr ..)

theorem decodePoint_fenceI (imm : BitVec 12) (rs1 rd : BitVec 5) :
    decodePoint (packI imm rs1 1 rd 0x0f#7) = .ok (.fenceI imm rs1 rd) := by
  have hm := majorOf_packI imm rs1 1 rd 0x0f#7
  refine decodePoint_of_row (by rw [hm]; decide) (decodeRv_fence_ne hm (by simp)) ?_
  rw [rowOfStandard_fence hm]
  simp

theorem decodePoint_sfenceVma (rs2 rs1 : BitVec 5) :
    decodePoint (packR 0x09 rs2 rs1 0 0 0x73#7) = .ok (.sfenceVma rs2 rs1) := by
  have h7 : fF7 (packR 0x09 rs2 rs1 0 0 0x73#7) = 9 := fF7_packR ..
  refine decodePoint_system (majorOf_packR ..) (.inr (one_lt_fI_of_fF7 h7)) ?_
  simp [decodeSystem]

/-- The words without operands: the trap returns and WFI. -/
theorem decodePoint_privileged {imm : BitVec 12} {i : Instr} (hi : 1 < imm.toNat)
    (h : decodeSystem (packI imm 0 0 0 0x73#7) = some i) : decodePoint (packI imm 0 0 0 0x73#7) = .ok i :=
  decodePoint_system (majorOf_packI ..) (.inr (by rwa [fI_packI])) h

theorem decodePoint_wfi : decodePoint (packI 0x105 0 0 0 0x73#7) = .ok .wfi :=
  decodePoint_privileged (by decide) (by decide)

theorem decodePoint_xret_machine : decodePoint (packI 0x302 0 0 0 0x73#7) = .ok (.xret true) :=
  decodePoint_privileged (by decide) (by decide)

theorem decodePoint_xret_supervisor : decodePoint (packI 0x102 0 0 0 0x73#7) = .ok (.xret false) :=
  decodePoint_privileged (by decide) (by decide)

end Sys2Proof
end

section
/-! SUPPORT. Decoding and encoding (R52-R68): the two directions, for every instruction and every word. -/

namespace Sys2Proof

theorem decode_eq_ok {w : W32} {i : Instr} : decode w = .ok i ↔ decodePoint w = .ok i ∧ i.wellFormed = true := by
  unfold decode
  split
  · next j hj =>
    split
    · next hw => simp [hj, and_iff_left_of_imp (fun h : j = i => h ▸ hw)]
    · next hw => simpa [hj] using fun h : j = i => h ▸ Bool.eq_false_of_not_eq_true hw
  · next e he => simp [he]

/-- The word of a well-formed instruction names its constructor. -/
theorem decodePoint_encode {i : Instr} {w : W32} (hw : i.wellFormed = true) (he : encode i = some w) :
    decodePoint w = .ok i := by
  cases i with
  | riscvInstruction r =>
    cases he
    exact decodePoint_of_rv r
  | csrAccess =>
    cases he
    exact decodePoint_csrAccess ..
  | lr =>
    cases he
    exact decodePoint_amo (majorOf_packAmo ..) (decodeAmo_lr ..)
  | sc =>
    cases he
    exact decodePoint_amo (majorOf_packAmo ..) (decodeAmo_sc ..)
  | amo =>
    cases he
    exact decodePoint_amo (majorOf_packAmo ..) (decodeAmo_amo ..)
  | fenceI =>
    cases he
    exact decodePoint_fenceI ..
  | sfenceVma =>
    cases he
    exact decodePoint_sfenceVma ..
  | wfi =>
    cases he
    exact decodePoint_wfi
  | xret machine =>
    cases machine with
    | true =>
      cases he
      exact decodePoint_xret_machine
    | false =>
      cases he
      exact decodePoint_xret_supervisor
  | vadd x | vsub x | vrsub x | vadc x | vsbc x | vmul x | vmulh x | vmulhz x | vmacc x | vnmsac x | vdiv x | vdivz x
  | vrem x | vremz x | vmin x | vminz x | vmax x | vmaxz x | vsadd x | vsaddz x | vssub x | vssubz x | vavg x
  | vabsd x | vand x | vor x | vxor x | vandn x | vsll x | vsrl x | vsra x | vrol x =>
    exact decodePoint_of_aTable he rfl
  | vfadd x | vfsub x | vfmul x | vfdiv x | vfmadd x | vfmsub x | vfnmadd x | vfnmsub x | vfmin x | vfmax x
  | vfsgnj x | vfsgnjn x | vfsgnjx x | vfceq x | vfclt x | vfcle x | vfredsum x | vfredtree x | vfredmin x
  | vfredmax x | mxdot x | pladd x | plsub x | plmul x | pldot x | plcmp x =>
    exact decodePoint_of_fTable he hw rfl
  | vfsqrt x | vfclass x | vfrec x | vfrsq x | vfexp2 x | vfcvt x | vfround x | mxpack x | mxunpack x | plconv x =>
    exact decodePoint_of_fUnary he hw rfl
  | vceq x | vcne x | vclt x | vcltz x | vcle x | vclez x | vcgt x | vcgtz x | vredsum x | vredmin x | vredminz x
  | vredmax x | vredmaxz x | vredand x | vredor x | vredxor x | vslup x | vsldn x | vsl1up x | vsl1dn x | vgath x
  | vmerge x | vxput x | vxget x | mand x | mor x | mxor x | mandn x | mshl x | vbcast x =>
    exact decodePoint_of_pTable he hw rfl
  | vmov x | vcomp x | vexpd x | vconf x | viota x | vidx x | vwiden x | vnarrow x | vsext x | vzext x | vclz x
  | vctz x | vpopc x | vbrev x | mnot x | mmov x | mpop x | mfirst x | mvtom x | mmtov x =>
    exact decodePoint_of_pUnary he hw rfl
  | vld x | vlds x | vldx x | vldseg x | vldm x | sld x | vwait x | vst x | vsts x | vstx x | vstxa x | vstseg x
  | vstm x =>
    exact decodePoint_of_mTable he rfl
  | wdecl x | wacc x | wmerge x | wdrop x | wstat x | mattach x | mdetach x | mload x | mmac x | mzero x | mread x
  | mwrite x | msync x =>
    exact decodePoint_of_kTable he rfl
  | rboxt x | rtrit x | bbovl x | txs x | txg x | txf x | txlod x =>
    exact decodePoint_of_gTable he rfl
  | tspawn x | tspawnp x | tnext x | tyield x | tblock x | tunblock x | tticket x | tcommit x | tqstat x =>
    exact decodePoint_of_group decodeS_group0 he (by decide) rfl
  | darrive x | dwait x | dbar x | dphase x =>
    exact decodePoint_of_group decodeS_group1 he (by decide) rfl
  | ordSv x | ordVs x | ordVv x | ordAll x | vdrain x =>
    exact decodePoint_of_group decodeS_group2 he (by decide) rfl
  | sopen x | savail x | sres x | sclose x =>
    exact decodePoint_of_group decodeS_group3 he (by decide) rfl
  | unlease x | swait x | mkick x | hmsg x | park x | uiret x =>
    exact decodePoint_of_group decodeS_group5 he (by decide) rfl
  | vcfg x =>
    cases he
    rw [decodePoint_majorP (majorOf_packCfg ..), decodeP_vcfg (opIndex_packCfg ..) (kindOf_packCfg ..), CfgFld.ofWord_pack]
  | vcfgi x =>
    cases he
    rw [decodePoint_majorP (majorOf_packCfg ..), decodeP_vcfgi (opIndex_packCfg ..) (kindOf_packCfg ..), CfgFld.ofWord_pack]
  | lease x =>
    cases he
    rw [decodePoint_majorS (majorOf_packLease ..), decodeS_lease (groupOf_packLease ..), LeaseFld.ofWord_pack]
  | vrep x =>
    cases he
    rw [decodePoint_majorS (majorOf_packVrep ..), decodeS_vrep (groupOf_packVrep ..), VrepFld.ofWord_pack]
  | pfx x =>
    cases he
    rw [decodePoint_majorS (majorOf_packPfx ..), decodeS_pfx (groupOf_packPfx ..), PfxFld.ofWord_pack]
  | _ => cases he

/-- A word that names a constructor is the word of what it names. -/
theorem encode_of_decodePoint {w : W32} {i : Instr} (h : decodePoint w = .ok i) : encode i = some w := by
  have hp := h
  unfold decodePoint at h
  split at h
  · next hm => exact encode_of_decodeS (majorOf_eq hm) h
  · next hm => exact encode_of_pick encodes_mTable (majorOf_eq hm) h
  · next hm => exact encode_of_pick encodes_aTable (majorOf_eq hm) h
  · next hm => exact encode_of_decodeF (majorOf_eq hm) hp
  · next hm => exact encode_of_decodeP (majorOf_eq hm) h
  · next hm => exact encode_of_pick encodes_kTable (majorOf_eq hm) h
  · next hm => exact encode_of_pick encodes_gTable (majorOf_eq hm) h
  · cases h
  · cases h
  · cases h
  · cases h
  · split at h
    · exact encode_of_decodeStandard h
    · cases h

/-- Settles O4: the decoder's points and the encoder's agree constructor by constructor, and major by major back. -/
theorem encodingRoundTrip : Obligations.EncodingRoundTrip := by
  refine ⟨fun i w hw he => decode_eq_ok.mpr ⟨decodePoint_encode hw he, hw⟩, fun w i h => ?_⟩
  obtain ⟨hp, hw⟩ := decode_eq_ok.mp h
  exact ⟨hw, encode_of_decodePoint hp⟩

end Sys2Proof
end

section
/-! The opcode map of major A (R60) and the worked encodings (R52-R65). -/

namespace Sys2Proof

open Machine

/-- Every operation of major A takes the forms VV, VS and VI. -/
theorem wellFormed_aTable {k : Nat} {c : Fld → Instr} (h : aTable[k]? = some (some c)) (x : Fld) :
    (c x).wellFormed = x.formABC := by
  have hk : k < 32 := (List.getElem?_eq_some_iff.mp h).1
  interval_cases k <;> cases h <;> rfl

theorem decode_aTable {k : Nat} {c : Fld → Instr} {x : Fld} (h : aTable[k]? = some (some c)) (hf : x.f ≠ 3#2) :
    decode (x.pack k majorA) = .ok (c x) := by
  refine decode_eq_ok.mpr ⟨decodePoint_of_aTable rfl h, ?_⟩
  rw [wellFormed_aTable h]
  exact bne_iff_ne.mpr hf

theorem decode_aTable_form3 {k : Nat} {c : Fld → Instr} {x : Fld} (h : aTable[k]? = some (some c)) (hf : x.f = 3#2) :
    decode (x.pack k majorA) = .error .illFormed := by
  have hw : (c x).wellFormed = false := by
    rw [wellFormed_aTable h, Fld.formABC, hf]
    rfl
  simp only [decode, decodePoint_of_aTable rfl h, hw, Bool.false_eq_true, if_false]

/-- The word of an operation of major A, its funct2 and funct3 apart. -/
theorem pack_majorA (x : Fld) {f2 f3 : Nat} (h3 : f3 < 8) :
    bv 2 f2 ++ x.k ++ x.t ++ x.f ++ x.b ++ x.a ++ bv 3 f3 ++ x.d ++ 0b1011011#7 = x.pack (f2 * 8 + f3) majorA := by
  unfold Fld.pack
  rw [show (f2 * 8 + f3) / 8 = f2 by omega, show (f2 * 8 + f3) % 8 = f3 by omega]

/-- The operations of one funct2 are eight consecutive points of the map. -/
theorem getElem?_of_aTable_row {f2 f3 : Nat} {ops : List (Fld → Instr)} {c : Fld → Instr}
    (hops : (aTable.drop (f2 * 8)).take 8 = ops.map some) (hc : ops[f3]? = some c) :
    f3 < 8 ∧ aTable[f2 * 8 + f3]? = some (some c) := by
  have h : ((aTable.drop (f2 * 8)).take 8)[f3]? = some (some c) := by simp [hops, hc]
  have h3 : f3 < 8 := (List.getElem?_eq_some_iff.mp h).1.trans_le (List.length_take_le ..)
  rw [List.getElem?_take_of_lt h3, List.getElem?_drop] at h
  exact ⟨h3, h⟩

/-- One row of R60's table. -/
theorem decode_majorA_row {f2 : Nat} {ops : List (Fld → Instr)} (hops : (aTable.drop (f2 * 8)).take 8 = ops.map some)
    (k t f b a d f3 : Nat) (c : Fld → Instr) (hc : ops[f3]? = some c) :
    (f < 3 → decode (bv 2 f2 ++ bv 2 k ++ bv 1 t ++ bv 2 f ++ bv 5 b ++ bv 5 a ++ bv 3 f3 ++ bv 5 d ++ 0b1011011#7) =
      .ok (c { k := bv 2 k, t := bv 1 t, f := bv 2 f, b := bv 5 b, a := bv 5 a, d := bv 5 d }))
    ∧ ∃ e, decode (bv 2 f2 ++ bv 2 k ++ bv 1 t ++ bv 2 3 ++ bv 5 b ++ bv 5 a ++ bv 3 f3 ++ bv 5 d ++ 0b1011011#7) = .error e := by
  obtain ⟨h3, hp⟩ := getElem?_of_aTable_row hops hc
  constructor
  · intro hf
    have hne : bv 2 f ≠ 3#2 := fun h => by
      have := congrArg BitVec.toNat h
      simp only [BitVec.toNat_ofNat] at this
      omega
    rw [← decode_aTable hp hne, ← pack_majorA _ h3]
  · refine ⟨.illFormed, ?_⟩
    rw [← decode_aTable_form3 (x := { k := bv 2 k, t := bv 1 t, f := 3, b := bv 5 b, a := bv 5 a, d := bv 5 d }) hp rfl,
      ← pack_majorA _ h3]
    rfl

/-- Settles O5: each row of the table is eight points of the map, and form 11 is not well formed at any of them. -/
theorem majorAEncoding : Obligations.MajorAEncoding :=
  ⟨decode_majorA_row rfl, decode_majorA_row rfl, decode_majorA_row rfl, decode_majorA_row rfl⟩

/-- Settles O3: the decoder evaluated at each of the words. -/
theorem decodedWords : Obligations.DecodedWords := by
  unfold Obligations.DecodedWords
  decide +kernel

end Sys2Proof
end

section
/-! SUPPORT. A swait that has heard two values since its last test: it ends with the first, which the clause of O45 on a swait
that finds its word satisfied does not say. -/

namespace Sys2Proof.Machine

/-- swait x1, x0 (the target), x0 (the address). -/
def swaitZero : SFld := { x := 0, rs2 := 0, rs1 := 0, rd := 1 }

/-- Hart 0 at address 0 waits there for the word at address 0: since its last test the word took the value 1, then 2, which it
still holds. -/
def heardTwo : State :=
  { mem := [(0, 2)]
    harts := [(0, { run := { wait := some { kind := .swait, pc := 0, ends := 0, watch := [0], news := [(0, 1), (0, 2)] } } })]
    parts := [(0, { granules := [0] })] }

theorem heardTwo_places : Places heardTwo .load 0 4 0 heardTwo := ⟨rfl, rfl, rfl⟩

theorem heardTwo_word : readNat heardTwo.mem 0 4 = 2 := by decide

/-- The wait ends with the first value it has heard (R197, R418). -/
theorem heardTwo_swait : ∃ t, exec (.swait swaitZero) heardTwo = .next t ∧ t.hart.getX 1 = 1 :=
  ⟨_, rfl, by decide +kernel⟩

/-- The clause asks for the word as it stands in memory. -/
theorem heardTwo_gives : (heardTwo.hart.gives swaitZero.rd (bv 64 2)).getX 1 = 2 := by decide

/-- Refutes O45: the clause on a swait whose word satisfies the target does not say that no wait of the hart is under way; in
`heardTwo` one is, and it ends with 1, the first value it heard, where the clause asks for the 2 that memory holds. -/
theorem not_timedWaits : ¬ Obligations.TimedWaits := by
  intro h
  obtain ⟨swait, -⟩ := h heardTwo (by decide)
  obtain ⟨-, sampled⟩ := swait swaitZero 0 rfl (by decide)
  obtain ⟨met, -⟩ := sampled rfl heardTwo_places rfl
  obtain ⟨t, ht, -, hart⟩ := met (by decide)
  obtain ⟨u, hu, hx⟩ := heardTwo_swait
  have e : u = t := by
    rw [hu] at ht
    injection ht
  rw [e, hart, heardTwo_word, heardTwo_gives] at hx
  exact absurd hx (by decide)

end Sys2Proof.Machine
end

section
/-! SUPPORT. Leases (R192-R194): the slots of a hart, the start and the end of a lease, and the words lease and unlease. -/

namespace Sys2Proof.Machine

/-! ## The slots of a hart -/

/-- The lease in a slot of a hart. -/
def leaseAt (h : Hart) (k : Nat) : Option Lease := (h.run.leases.toList[k]?).getD none

/-- A hart whose lease slot is free. -/
def Hart.dropLease (h : Hart) (slot : Nat) : Hart :=
  { h with run := { h.run with leases := h.run.leases.set (slot % 2) none (Nat.mod_lt _ (by decide)) } }

theorem leaseAt_eq {h : Hart} {k : Nat} (hk : k < 2) : leaseAt h k = h.run.leases[k] := by
  unfold leaseAt
  rw [List.getElem?_eq_getElem (by rw [Vector.length_toList]; exact hk), Option.getD_some, Vector.getElem_toList]

theorem leaseAt_startLease_self (h : Hart) (l : Lease) {slot : Nat} (hs : slot < 2) :
    leaseAt (h.startLease slot l) slot = some l := by
  rw [leaseAt_eq hs]
  simp [Hart.startLease, Nat.mod_eq_of_lt hs]

theorem leaseAt_startLease_ne (h : Hart) (l : Lease) {slot k : Nat} (hs : slot < 2) (hk : k < 2) (hne : k ≠ slot) :
    leaseAt (h.startLease slot l) k = leaseAt h k := by
  rw [leaseAt_eq hk, leaseAt_eq hk]
  simp [Hart.startLease, Nat.mod_eq_of_lt hs, hne.symm]

theorem leaseAt_dropLease_zero (h : Hart) : leaseAt (h.dropLease 0) 0 = none := by
  rw [leaseAt_eq (by decide)]
  simp [Hart.dropLease]

theorem leaseAt_dropLease_one (h : Hart) : leaseAt (h.dropLease 0) 1 = leaseAt h 1 := by
  rw [leaseAt_eq (by decide), leaseAt_eq (by decide)]
  simp [Hart.dropLease]

/-- The first slot is the first that a test accepts, when the test accepts its lease. -/
theorem findIdx?_leases_zero {h : Hart} {p : Option Lease → Bool} (hp : p (leaseAt h 0) = true) :
    h.run.leases.toList.findIdx? p = some 0 := by
  rw [leaseAt_eq (by decide)] at hp
  rw [List.findIdx?_eq_some_iff_getElem]
  exact ⟨by simp, by simpa using hp, by simp⟩

/-- No slot is found by a test that refuses both. -/
theorem findIdx?_leases_none {h : Hart} {p : Option Lease → Bool} (hp : ∀ k, k < 2 → p (leaseAt h k) = false) :
    h.run.leases.toList.findIdx? p = none := by
  rw [List.findIdx?_eq_none_iff]
  intro l hl
  obtain ⟨k, hk, rfl⟩ := List.getElem_of_mem hl
  rw [Vector.length_toList] at hk
  have := hp k hk
  rwa [leaseAt_eq hk] at this

/-! ## The end of a lease -/

/-- The state after the lease in a slot of a hart has ended and nothing waited at its home. -/
def leaseEnded (s : State) (k slot : Nat) : State :=
  let s := s.setHartAt k ((s.hartAt k).dropLease slot)
  { s with coh := { s.coh with
      leases := s.coh.leases.filter (fun l => !(l.hart == k && l.slot == slot))
      queued := [] } }

theorem endLease_eq {s : State} {k slot : Nat} {l : Lease} (hs : s.stepwise = false) (hq : s.coh.queued = [])
    (hslot : slot < 2) (hl : leaseAt (s.hartAt k) slot = some l) : endLease s k slot = leaseEnded s k slot := by
  rw [leaseAt_eq hslot] at hl
  unfold endLease
  simp only [Nat.mod_eq_of_lt hslot, hl, State.setHartAt_stepwise, hs, Bool.false_eq_true, if_false]
  unfold releaseLease settleQueue leaseEnded Hart.dropLease
  simp only [State.setHartAt_coh, hq, serveQueue, Nat.mod_eq_of_lt hslot]

@[simp] theorem leaseEnded_mem (s : State) (k slot : Nat) : (leaseEnded s k slot).mem = s.mem := rfl
@[simp] theorem leaseEnded_cur (s : State) (k slot : Nat) : (leaseEnded s k slot).cur = s.cur := rfl

@[simp] theorem leaseEnded_hartAt (s : State) (k slot : Nat) :
    (leaseEnded s k slot).hartAt k = (s.hartAt k).dropLease slot :=
  State.hartAt_setHartAt_self ..

theorem leaseEnded_hart (s : State) (slot : Nat) : (leaseEnded s s.cur slot).hart = s.hart.dropLease slot :=
  leaseEnded_hartAt s s.cur slot

theorem mem_leases_leaseEnded {s : State} {k slot : Nat} {l : HomeLease} (h : l ∈ (leaseEnded s k slot).coh.leases) :
    l ∈ s.coh.leases ∧ ¬ (l.hart = k ∧ l.slot = slot) := by
  obtain ⟨hm, hl⟩ := List.mem_filter.mp h
  refine ⟨hm, ?_⟩
  rintro ⟨rfl, rfl⟩
  simp at hl

/-- LEASE_EXPIRY ends the lease in the first slot when its last clock has passed (R194). -/
theorem execLeaseExpiry_late {s : State} {k : Nat} {l : Lease} (hl : leaseAt (s.hartAt k) 0 = some l)
    (ht : l.ends ≤ s.ccOf k) : exec (.leaseExpiry k) s = .next (endLease s k 0) := by
  show execLeaseExpiry k s = _
  unfold execLeaseExpiry
  simp only
  rw [findIdx?_leases_zero (by rw [hl]; exact decide_eq_true ht)]

theorem leaseExpiry_ends {s : State} {k : Nat} {l : Lease} (hl : leaseAt (s.hartAt k) 0 = some l)
    (ht : l.ends ≤ s.ccOf k) (hs : s.stepwise = false) (hq : s.coh.queued = []) :
    Ends (.leaseExpiry k) s (fun t => t.mem = s.mem ∧ leaseAt (t.hartAt k) 0 = none
      ∧ leaseAt (t.hartAt k) 1 = leaseAt (s.hartAt k) 1
      ∧ ∀ l ∈ t.coh.leases, l ∈ s.coh.leases ∧ ¬ (l.hart = k ∧ l.slot = 0)) := by
  refine ⟨leaseEnded s k 0, ?_, rfl, ?_, ?_, fun l => mem_leases_leaseEnded⟩
  · rw [execLeaseExpiry_late hl ht, endLease_eq hs hq (by decide) hl]
  · rw [leaseEnded_hartAt, leaseAt_dropLease_zero]
  · rw [leaseEnded_hartAt, leaseAt_dropLease_one]

/-! ## unlease -/

/-- A slot holds the lease of a base. -/
def hasBase (base : Word) : Option Lease → Bool
  | some l => l.base == base
  | none => false

/-- unlease says in HELD whether the lease was held, and retires (R194). -/
def Hart.unleased (h : Hart) (held : BitVec 1) : Hart := { h.retire with dev := { h.dev with held := held } }

/-- A lease waits for its hart's stores to its span. -/
def leaseWaits (s : State) (l : Option Lease) : Bool :=
  match l with
  | some l => spanUnperformed s s.cur l.pa (8 * l.words)
  | none => false

/-- The meaning of unlease: it ends the lease of its base once the hart's stores to the span are performed. -/
theorem exec_unlease (w : SFld) (s : State) : exec (.unlease w) s = scalarWord (.unlease w) notSystem (do
    let s ← getS
    match s.hart.run.leases.toList.findIdx? (hasBase (s.hart.getX w.rs1)) with
    | some slot =>
      ensure (!(leaseWaits s (s.hart.run.leases[slot % 2]'(Nat.mod_lt _ (by decide))))) .stall
      setS (endLease s s.cur slot)
      onHart (Hart.unleased · 1)
    | none => onHart (Hart.unleased · 0)) s := rfl

theorem notSystem_of {s : State} (h : kindOf s.cur ≠ .system) : notSystem s = true := decide_eq_true h

section
variable {s : State} {w : SFld} (hp : NoPrefix s) (hk : kindOf s.cur ≠ .system)
include hp hk

theorem exec_unlease_none (hf : ∀ k, k < 2 → hasBase (s.hart.getX w.rs1) (leaseAt s.hart k) = false) :
    exec (.unlease w) s = .next (settleReads s.cur 0 (s.setHart (s.hart.unleased 0))) := by
  rw [exec_unlease, scalarWord_runs hp (notSystem_of hk)]
  refine runAct_ok ((getS_bind _ _).trans ?_)
  rw [findIdx?_leases_none hf]
  rfl

theorem exec_unlease_zero {l : Lease} (hl : leaseAt s.hart 0 = some l) (hb : l.base = s.hart.getX w.rs1)
    (hw : spanUnperformed s s.cur l.pa (8 * l.words) = false) :
    exec (.unlease w) s =
      .next (settleReads s.cur 0 ((endLease s s.cur 0).setHart ((endLease s s.cur 0).hart.unleased 1))) := by
  have hf : hasBase (s.hart.getX w.rs1) (leaseAt s.hart 0) = true := by
    rw [hl]
    exact beq_iff_eq.mpr hb
  rw [leaseAt_eq (by decide)] at hl
  rw [exec_unlease, scalarWord_runs hp (notSystem_of hk)]
  refine runAct_ok ((getS_bind _ _).trans ?_)
  rw [findIdx?_leases_zero hf]
  refine (ensure_bind _ _ _ ?_).trans rfl
  show (!(leaseWaits s s.hart.run.leases[0])) = true
  rw [hl, leaseWaits, hw]
  rfl

/-- unlease without a lease of its base changes HELD alone. -/
theorem unlease_notHeld (hf : ∀ k l, k < 2 → leaseAt s.hart k = some l → l.base ≠ s.hart.getX w.rs1) :
    Ends (.unlease w) s (fun t => t.mem = s.mem ∧ t.hart.pc = s.hart.pc + 4 ∧ t.hart.dev.held = 0
      ∧ t.hart.run.leases = s.hart.run.leases ∧ t.coh.leases = s.coh.leases) := by
  have hn : ∀ k, k < 2 → hasBase (s.hart.getX w.rs1) (leaseAt s.hart k) = false := by
    intro k hk
    cases hl : leaseAt s.hart k with
    | none => rfl
    | some l => exact beq_eq_false_iff_ne.mpr (hf k l hk hl)
  refine ⟨_, exec_unlease_none hp hk hn, rfl, ?_, ?_, ?_, rfl⟩
  all_goals
    rw [settleReads_hart, State.hart_setHart]
    rfl

/-- unlease ends the lease of its base in the first slot. -/
theorem unlease_held (hs : s.stepwise = false) (hq : s.coh.queued = []) {l : Lease} (hl : leaseAt s.hart 0 = some l)
    (hb : l.base = s.hart.getX w.rs1) (hw : spanUnperformed s s.cur l.pa (8 * l.words) = false) :
    Ends (.unlease w) s (fun t => t.mem = s.mem ∧ t.hart.pc = s.hart.pc + 4 ∧ t.hart.dev.held = 1
      ∧ leaseAt t.hart 0 = none ∧ leaseAt t.hart 1 = leaseAt s.hart 1
      ∧ ∀ l ∈ t.coh.leases, l ∈ s.coh.leases ∧ ¬ (l.hart = s.cur ∧ l.slot = 0)) := by
  refine ⟨_, exec_unlease_zero hp hk hl hb hw, ?_⟩
  rw [endLease_eq hs hq (by decide) hl, leaseEnded_hart]
  dsimp only
  rw [settleReads_hart, State.hart_setHart]
  exact ⟨rfl, rfl, rfl, leaseAt_dropLease_zero s.hart, leaseAt_dropLease_one s.hart, fun l => mem_leases_leaseEnded⟩

end

/-! ## lease -/

/-- The meaning of lease: the span is checked, found and granted (R192, R193). -/
theorem exec_lease (w : LeaseFld) (s : State) : exec (.lease w) s = scalarWord (.lease w) notSystem (do
    let s ← getS
    let base := s.hart.getX w.rs1
    let words := w.words.toNat + 1
    let n := w.n.toNat + 1
    ensure (base.toNat % 8 = 0 && base.toNat % 256 + 8 * words ≤ 256) (.trap 6 base)
    match ← locate (dataEnv s) .store base.toNat (8 * words) with
    | .mem a =>
      let s ← getS
      ensure (isOwnMem s a) (.trap 7 base)
      match freeLeaseSlot s s.cur with
      | none => stop .stall
      | some slot =>
        if s.stepwise then
          setS (if leaseAsked s s.cur then s else s.send (leaseRequest s base a words slot n))
          stallWith (waitHere s .other (2 ^ 63))
        else
          ensure (!(leaseConflict s s.cur a (8 * words))) .stall
          setS (leaseNow s base a words slot n)
    | _ => stop (.trap 7 base)) s := rfl

section
variable {s : State} {w : LeaseFld} (hp : NoPrefix s) (hk : kindOf s.cur ≠ .system)
include hp hk

/-- A span that is misaligned or crosses a region traps. -/
theorem lease_traps (hm : isMilliner s.cur = false)
    (hb : (s.hart.getX w.rs1).toNat % 8 ≠ 0 ∨ 256 < (s.hart.getX w.rs1).toNat % 256 + 8 * (w.words.toNat + 1)) :
    Traps (.lease w) s 6 (s.hart.getX w.rs1) := by
  refine traps_of (exec_lease w s) hp (notSystem_of hk) hm ((getS_bind _ _).trans (bind_error _ ?_))
  unfold ensure
  refine if_neg ?_
  rw [Bool.and_eq_true, decide_eq_true_eq, decide_eq_true_eq]
  omega

/-- A lease that nothing withholds is granted at once. -/
theorem exec_lease_granted {u : State} {a slot : Nat} (ha : (s.hart.getX w.rs1).toNat % 8 = 0)
    (hr : (s.hart.getX w.rs1).toNat % 256 + 8 * (w.words.toNat + 1) ≤ 256)
    (hpl : Places s .store (s.hart.getX w.rs1).toNat (8 * (w.words.toNat + 1)) a u) (ho : isOwnMem u a = true)
    (hf : freeLeaseSlot u s.cur = some slot) (hc : leaseConflict u s.cur a (8 * (w.words.toNat + 1)) = false) :
    exec (.lease w) s =
      .next (settleReads s.cur 0 (leaseNow u (s.hart.getX w.rs1) a (w.words.toNat + 1) slot (w.n.toNat + 1))) := by
  have hu := SameButTlb.of_places hpl
  have hs : u.stepwise = false := by
    rw [hu]
    exact hpl.1
  rw [exec_lease, scalarWord_runs hp (notSystem_of hk)]
  refine runAct_ok ((getS_bind _ _).trans ((ensure_bind _ _ _ ?_).trans ((bind_ok _ (locate_of_places hpl)).trans
    ((getS_bind _ _).trans ((ensure_bind _ _ _ ho).trans ?_)))))
  · rw [decide_eq_true ha, decide_eq_true hr]
    rfl
  · rw [hu.cur, hf]
    simp only [hs, Bool.false_eq_true, if_false]
    rw [ensure_bind _ _ _ (by rw [hc]; rfl)]
    rfl

end

/-- A lease as it starts at once: it runs from the next clock for `n` (R193). -/
def newLease (s : State) (base : Word) (a words n : Nat) : Lease :=
  { base := base, pa := a, words := words, ends := s.ccOf s.cur + n + 1
    buf := if isMilliner s.cur then readBytes s.mem (8 * words) a else [] }

theorem leaseNow_hart (s : State) (base : Word) (a words slot n : Nat) :
    (leaseNow s base a words slot n).hart = (s.hart.startLease slot (newLease s base a words n)).retire :=
  State.hart_setHart ..

theorem SameButTlb.newLease {s u : State} (hu : SameButTlb s u) (base : Word) (a words n : Nat) :
    newLease u base a words n = newLease s base a words n := by
  rw [hu]
  rfl

/-- A granted lease runs in its slot; the other slot and the x registers keep what they hold. -/
theorem lease_granted {s u : State} {w : LeaseFld} {a slot : Nat} (hp : NoPrefix s) (hk : kindOf s.cur ≠ .system)
    (hs : slot < 2) (ha : (s.hart.getX w.rs1).toNat % 8 = 0)
    (hr : (s.hart.getX w.rs1).toNat % 256 + 8 * (w.words.toNat + 1) ≤ 256)
    (hpl : Places s .store (s.hart.getX w.rs1).toNat (8 * (w.words.toNat + 1)) a u) (ho : isOwnMem u a = true)
    (hf : freeLeaseSlot u s.cur = some slot) (hc : leaseConflict u s.cur a (8 * (w.words.toNat + 1)) = false) :
    Ends (.lease w) s (fun t => t.mem = s.mem ∧ t.cur = s.cur ∧ t.hart.pc = s.hart.pc + 4 ∧ XKept s t
      ∧ leaseAt t.hart slot = some (newLease s (s.hart.getX w.rs1) a (w.words.toNat + 1) (w.n.toNat + 1))
      ∧ leaseAt t.hart (1 - slot) = leaseAt s.hart (1 - slot)
      ∧ t.coh.leases = s.coh.leases ++ [{ hart := s.cur, slot := slot, pa := a, len := 8 * (w.words.toNat + 1) }]) := by
  have hu := SameButTlb.of_places hpl
  refine ⟨_, exec_lease_granted hp hk ha hr hpl ho hf hc, ?_⟩
  unfold XKept
  dsimp only
  rw [settleReads_hart, leaseNow_hart, hu.hart, hu.newLease]
  refine ⟨hu.mem, hu.cur, rfl, ⟨rfl, rfl⟩, leaseAt_startLease_self _ _ hs, ?_, ?_⟩
  · exact leaseAt_startLease_ne _ _ hs (by omega) (by omega)
  · rw [← hu.coh, ← hu.cur]
    rfl

/-- Settles O44: the words and the expiry end in the states that their clauses describe. -/
theorem leases : Obligations.Leases := by
  intro s _
  refine ⟨fun w u a hp hk => ⟨lease_traps hp hk, fun slot ha hr hpl ho hf hs hc => ?_⟩,
    fun w hp hk hs hq => ⟨unlease_notHeld hp hk, fun l hl hb hw => unlease_held hp hk hs hq hl hb hw⟩,
    fun k l hl ht hs hq => leaseExpiry_ends hl ht hs hq⟩
  exact lease_granted hp hk hs ha hr hpl ho hf hc

end Sys2Proof.Machine
end

section
/-! SUPPORT. What the words of the integer formats read: element widths, operands and words without events (R20, R54). -/

namespace Sys2Proof.Machine

/-- An integer element has at least 8 bits (R20). -/
theorem eight_le_widthOf {s : State} (ht : TypeIn s fmtInt) : 8 ≤ widthOf s := by
  have h9 : vtFmt s.hart.vec.vtype ≤ 9 := by simpa [fmtInt] using ht.2
  unfold widthOf sewOf
  split <;> omega

/-- A group of integer elements holds at most 8,192 of them (R17, R20). -/
theorem groupCount_le {s : State} (ht : TypeIn s fmtInt) : 8192 * grpOf s / widthOf s ≤ 8192 := by
  have h8 := eight_le_widthOf ht
  refine Nat.div_le_of_le_mul ?_
  rcases grpOf_cases s with g | g | g | g <;> rw [g] <;> omega

/-- A group holds an element. -/
theorem count_pos (s : State) : 0 < 8192 * grpOf s / widthOf s := by
  refine Nat.div_pos ?_ widthOf_ok.1
  have hw := Nat.le_of_dvd (by decide) (widthOf_ok (s := s)).2
  rcases grpOf_cases s with g | g | g | g <;> rw [g] <;> omega

/-- The elements below VL stand in a group (R21). -/
theorem lenOf_le_count {s : State} (ht : TypeIn s fmtInt) (hl : LengthOk s.hart) : lenOf s ≤ 8192 * grpOf s / widthOf s := by
  rw [← vlmax_int ht]
  exact hl

/-- An integer format is not MX. -/
theorem isMx_int {s : State} (ht : TypeIn s fmtInt) : isMx (vtFmt s.hart.vec.vtype) = false := by
  have h9 : vtFmt s.hart.vec.vtype ≤ 9 := by simpa [fmtInt] using ht.2
  unfold isMx
  rw [decide_eq_false (by omega : ¬ 10 ≤ vtFmt s.hart.vec.vtype)]
  rfl

theorem fmtMove_of_int (f : Nat) (h : fmtInt f = true) : fmtMove f = true := by
  simp only [fmtInt, fmtMove, decide_eq_true_eq] at h ⊢
  omega

theorem elemAt_lt (s : State) (r : BitVec 5) (e : Nat) : elemAt s r e < 2 ^ widthOf s := elemIn_lt s r _ e

/-- The second operand has the width of an element (R54). -/
theorem secondAt_lt {s : State} (ht : TypeIn s fmtInt) (w : Fld) (zx : Bool) (e : Nat) :
    secondAt s w zx e < 2 ^ widthOf s := by
  unfold secondAt
  split_ifs
  · exact elemAt_lt _ _ _
  · exact Nat.mod_lt _ (Nat.two_pow_pos _)
  · calc w.a.toNat < 2 ^ 5 := w.a.isLt
      _ ≤ 2 ^ widthOf s := Nat.pow_le_pow_right (by decide) ((by decide : 5 ≤ 8).trans (eight_le_widthOf ht))
  · exact wrapTo_lt _ _

/-- Flags that gain the events of a word without events are kept. -/
theorem FlagsGain.kept {s t : State} {act : Nat → Bool} (h : FlagsGain s t act (fun _ => 0)) : FlagsKept s t := by
  refine BitVec.eq_of_getLsbD_eq fun b _ => Bool.eq_iff_iff.mpr ((h b).trans (or_iff_left ?_))
  rintro ⟨e, -, -, -, hb⟩
  simp [bitOf] at hb

/-- A word that leaves vector registers changed and retires. -/
theorem retires_regs {s : State} {V : Nat → Prop} {y : Hart} (i : Instr) (a : Act Unit) (takes : Bool)
    (hi : exec i s = vectorWord i a s) (hr : VecReady s) (ha : a s = retireVec i takes (s.setHart y))
    (only : VecOnly V (fun _ => False) s.hart y) (hf : y.vec.vfflags = s.hart.vec.vfflags) :
    ∃ t, exec i s = .next t ∧ VecFrame s t takes ∧ MasksKept s t ∧ XKept s t ∧ FlagsKept s t
      ∧ (∀ k, (hk : k < 32) → ¬ V k → t.hart.vec.v[k] = s.hart.vec.v[k]) ∧ t.hart.vec.v = y.vec.v := by
  obtain ⟨honly, hx, hshadow⟩ := only.hartOnly
  obtain ⟨t, retired, frame, hv, hm, hx', hshadow', hf'⟩ := retireVec_spec i takes s _ honly
  refine ⟨settleReads s.cur 0 t, ?_, frame, ?_, ⟨hx'.trans hx, hshadow'.trans hshadow⟩, hf'.trans hf, fun k hk ho => ?_, hv⟩
  · rw [hi, vectorWord_ready hr]
    exact runAct_ok (ha.trans retired)
  · rw [MasksKept, settleReads_hart, hm]
    exact Vector.ext fun k hk => only.masks k hk id
  · rw [settleReads_hart, show t.hart.vec.v[k] = y.vec.v[k] by simp only [hv]]
    exact only.regs k hk ho

/-- Registers outside the destination groups are none that the groups hold. -/
theorem notInDests {s : State} {w : Fld} {g k : Nat} (h : ∀ r, Dests s w r → k < r ∨ r + g ≤ k) : ¬ inDests s w g k := by
  rintro ⟨r, hd, hin⟩
  have := h r hd
  unfold inGroup at hin
  omega

/-- Destinations in the grouping obey R17 and R82. -/
theorem destOk_here {s : State} {w : Fld} (hd : DestsFit s w (grpOf s)) :
    destOk s.hart ⟨s.hart.vreg w.d, grpHere s.hart⟩ = true := destOk_of (grp_dvd s) hd

/-- A source in the grouping obeys R17. -/
theorem span_here {s : State} {r : BitVec 5} (h : SourceFits s r (grpOf s)) :
    (Span.mk (s.hart.vreg r) (grpHere s.hart)).ok = true := span_ok (grp_dvd s) h (vreg_lt _ _)

/-- An element below the end of its group, by its number. -/
theorem lt_count_iff {s : State} {e : Nat} : e < 8192 * grpOf s / widthOf s ↔ e * widthOf s < 8192 * grpOf s :=
  Nat.lt_div_iff_mul_lt_of_dvd widthOf_ok.1.ne' (Dvd.dvd.mul_right widthOf_ok.2 _)

end Sys2Proof.Machine
end

section
/-! SUPPORT. Integer arithmetic modulo 2^n (R91, R92): the results that the words compute in natural numbers are integer
functions of their operands, cut to n bits. -/

namespace Sys2Proof.Machine

/-! ## Wrapped integers -/

/-- A natural number that differs from an integer by a multiple of 2^n has its low n bits. -/
theorem mod_eq_wrapTo {n x : Nat} {y : Int} (k : Int) (h : (x : Int) = y + (2 ^ n : Nat) * k) : x % 2 ^ n = wrapTo n y := by
  rw [← wrapTo_nat, h]
  exact wrapTo_cong (Int.add_mul_emod_self_left ..)

@[simp] theorem wrapTo_mod (n : Nat) (x : Int) : wrapTo n x % 2 ^ n = wrapTo n x := Nat.mod_eq_of_lt (wrapTo_lt n x)

theorem wrapTo_neg_one (n : Nat) : (2 ^ n - 1) % 2 ^ n = wrapTo n (-1) := by
  refine mod_eq_wrapTo 1 ?_
  rw [Nat.cast_sub Nat.one_le_two_pow]
  push_cast
  ring

/-- a + 2^n − b is the difference modulo 2^n. -/
theorem sub_mod_eq_wrapTo {n a b : Nat} (hb : b < 2 ^ n) : (a + 2 ^ n - b) % 2 ^ n = wrapTo n ((a : Int) - b) := by
  refine mod_eq_wrapTo 1 ?_
  rw [Nat.cast_sub (by omega)]
  push_cast
  ring

/-- The high half of the low 2n bits is the quotient by 2^n. -/
theorem highHalf_eq_wrapTo (n : Nat) (x : Int) : wrapTo (2 * n) x / 2 ^ n % 2 ^ n = wrapTo n (x / (2 ^ n : Nat)) := by
  have hpos : ((2 ^ n : Nat) : Int) ≠ 0 := by exact_mod_cast (Nat.two_pow_pos n).ne'
  have hsq : ((2 ^ (2 * n) : Nat) : Int) = (2 ^ n : Nat) * (2 ^ n : Nat) := by
    rw [Nat.two_mul, Nat.pow_add]
    push_cast
    ring
  have hw : (wrapTo (2 * n) x : Int) = x % (2 ^ (2 * n) : Nat) :=
    Int.toNat_of_nonneg (Int.emod_nonneg _ (by exact_mod_cast (Nat.two_pow_pos (2 * n)).ne'))
  have hx := Int.emod_add_mul_ediv x (2 ^ (2 * n) : Nat)
  refine mod_eq_wrapTo (-(x / (2 ^ (2 * n) : Nat))) ?_
  have hq : x / (2 ^ n : Nat) = (x % (2 ^ (2 * n) : Nat)) / (2 ^ n : Nat) + (2 ^ n : Nat) * (x / (2 ^ (2 * n) : Nat)) := by
    rw [hsq] at hx ⊢
    calc x / (2 ^ n : Nat) = (x % ((2 ^ n : Nat) * (2 ^ n : Nat))
          + (2 ^ n : Nat) * ((2 ^ n : Nat) * (x / ((2 ^ n : Nat) * (2 ^ n : Nat))))) / (2 ^ n : Nat) := by
          rw [← mul_assoc, hx]
      _ = _ := Int.add_mul_ediv_left _ _ hpos
  rw [hq, Int.natCast_ediv, hw]
  ring

/-- A number below 2^n, read as signed and cut to n bits, is the number. -/
theorem wrapTo_signed_of_lt {n a : Nat} (ha : a < 2 ^ n) : wrapTo n (signedOf n a) = a := by
  rw [wrapTo_signed, Nat.mod_eq_of_lt ha]

/-- The lesser of two signed operands, chosen by comparing them. -/
theorem minSigned_eq_wrapTo (n a b : Nat) :
    (if signedOf n a ≤ signedOf n b then a else b) % 2 ^ n = wrapTo n (min (signedOf n a) (signedOf n b)) := by
  rw [min_def]
  split <;> exact (wrapTo_signed _ _).symm

/-- The greater of two signed operands, chosen by comparing them. -/
theorem maxSigned_eq_wrapTo (n a b : Nat) :
    (if signedOf n a ≤ signedOf n b then b else a) % 2 ^ n = wrapTo n (max (signedOf n a) (signedOf n b)) := by
  rw [max_def]
  split <;> exact (wrapTo_signed _ _).symm

/-- The distance of two integers. -/
theorem natAbs_eq_wrapTo (n : Nat) (x : Int) : x.natAbs % 2 ^ n = wrapTo n |x| := by
  rw [← wrapTo_nat, Int.natCast_natAbs]

/-- The bits that leave at the top of a rotation come in at the bottom, where the shift has left zeros. -/
theorem rotate_eq_or {n a k : Nat} (ha : a < 2 ^ n) (hk : k < n) :
    a * 2 ^ k + a / 2 ^ (n - k) = a <<< k ||| a >>> (n - k) := by
  have hlow : a >>> (n - k) < 2 ^ k := by
    rw [Nat.shiftRight_eq_div_pow]
    refine Nat.div_lt_of_lt_mul ?_
    rwa [← Nat.pow_add, Nat.sub_add_cancel hk.le]
  rw [← Nat.shiftLeft_add_eq_or_of_lt hlow, Nat.shiftLeft_eq, Nat.shiftRight_eq_div_pow]

/-! ## Division (R92) -/

theorem divS_eq_wrapTo (n a b : Nat) :
    divS n a b % 2 ^ n = wrapTo n (if b = 0 then -1 else Int.tdiv (signedOf n a) (signedOf n b)) := by
  unfold divS
  split
  · exact wrapTo_neg_one n
  · exact wrapTo_mod _ _

theorem divU_eq_wrapTo (n a b : Nat) : divU n a b % 2 ^ n = wrapTo n (if b = 0 then -1 else ((a / b : Nat) : Int)) := by
  unfold divU
  split
  · exact wrapTo_neg_one n
  · exact (wrapTo_nat _ _).symm

theorem remS_eq_wrapTo (n a b : Nat) :
    remS n a b % 2 ^ n = wrapTo n (if b = 0 then (a : Int) else Int.tmod (signedOf n a) (signedOf n b)) := by
  unfold remS
  split
  · exact (wrapTo_nat _ _).symm
  · exact wrapTo_mod _ _

theorem remU_eq_wrapTo (n a b : Nat) : remU n a b % 2 ^ n = wrapTo n (if b = 0 then (a : Int) else ((a % b : Nat) : Int)) := by
  unfold remU
  split <;> exact (wrapTo_nat _ _).symm

/-! ## Saturation (R92) -/

theorem minS_eq (n : Nat) : minS n = -2 ^ (n - 1) := by
  unfold minS
  push_cast
  rfl

theorem maxS_eq (n : Nat) : maxS n = 2 ^ (n - 1) - 1 := by
  unfold maxS
  push_cast
  rfl

/-- Whether a value changes by being clamped to [lo, hi]. -/
def clamps (lo hi x : Int) : Bool := max lo (min hi x) ≠ x

/-- What `clampEv` answers: the clamped value, and SAT where it changed. -/
theorem clampEv_eq (n : Nat) (lo hi x : Int) :
    clampEv n lo hi x = (wrapTo n (max lo (min hi x)), evSAT.when (clamps lo hi x)) := rfl

/-- A value changes when it lies outside the bounds. -/
theorem clamps_iff {lo hi x : Int} (h : lo ≤ hi) : clamps lo hi x = true ↔ x < lo ∨ hi < x := by
  unfold clamps
  rw [decide_eq_true_iff]
  omega

/-- SAT is bit 5 of the flags (R26). -/
theorem bitOf_evSAT_when (c : Bool) (b : Nat) : bitOf (evSAT.when c) b = true ↔ b = 5 ∧ c = true := by
  have h : bitOf evSAT b = decide (b = 5) := by
    show (BitVec.twoPow 6 5).getLsbD b = _
    rw [BitVec.getLsbD_twoPow]
    simp [eq_comm]
  unfold Ev.when
  cases c with
  | false => simp [bitOf]
  | true => simp [h]

/-- VFTRAP traps SAT by its bit 5 (R26). -/
theorem and_evSAT_when (x : Ev) (c : Bool) (h : c = true → bitOf x 5 = false) : x &&& evSAT.when c = 0 := by
  cases c with
  | false => exact BitVec.and_zero
  | true =>
    refine BitVec.eq_of_getLsbD_eq fun i _ => ?_
    rw [BitVec.getLsbD_and, show BitVec.getLsbD (0 : Ev) i = false from BitVec.getLsbD_zero, Bool.and_eq_false_iff]
    by_cases hi : i = 5
    · exact .inl (hi ▸ h rfl)
    · exact .inr (Bool.eq_false_iff.mpr fun hb => hi ((bitOf_evSAT_when true i).mp hb).1)

/-! ## The words of major A -/

section
variable {s : State} {w : Fld} (hr : VecReady s) (hp : PrefixFits s w true true) (ht : TypeIn s fmtInt) (hl : LengthOk s.hart)
  (hg : GroupsFit s w)
include hr hp ht hl hg

/-- A word of major A without events whose result depends on its two operands. -/
theorem plainWord_gives (i : Fld → Instr) (zx : Bool) {f : Nat → Nat → Nat → Nat} {g : Nat → Nat → Nat → Int}
    (hi : exec (i w) s = intWord (i w) w zx (plain f) s)
    (hfg : ∀ n a b, 0 < n → a < 2 ^ n → b < 2 ^ n → f n a b % 2 ^ n = wrapTo n (g n a b)) :
    GivesInt i s w zx (fun n a b _ => g n a b) :=
  plain_gives i zx (fun n a b _ => f n a b) _ hi hr hp ht hl hg (fun n a b _ hn ha hb _ => hfg n a b hn ha hb)

/-- A word of major A that clamps an exact sum or difference. -/
theorem clampWord_gives (i : Fld → Instr) {lo hi lo' hi' : Nat → Int} {f : Nat → Nat → Nat → Int}
    (he : exec (i w) s = intWord (i w) w false (fun n a b _ => clampEv n (lo' n) (hi' n) (f n a b)) s)
    (hlo : ∀ n, lo' n = lo n) (hhi : ∀ n, hi' n = hi n) (hle : ∀ n, lo n ≤ hi n) : GivesClamped i s w lo hi f := by
  simp only [hlo, hhi, clampEv_eq] at he
  intro htrap
  have hout (e : Nat) : clamps (lo (widthOf s)) (hi (widthOf s)) (exactAt s w f e) = true ↔ Outside s w lo hi f e :=
    clamps_iff (hle _)
  refine ⟨fun e => evSAT.when (clamps (lo (widthOf s)) (hi (widthOf s)) (exactAt s w f e)),
    fun e b => (bitOf_evSAT_when _ _).trans (and_congr_right' (hout e)), ?_⟩
  refine intWord_gives (i w) false _ _ _ he hr hp ht hl hg (fun _ _ _ _ => rfl) (fun _ => wrapTo_lt _ _)
    (fun e hlow hlen hact => and_evSAT_when _ _ fun hc => Bool.eq_false_iff.mpr fun hb => ?_)
  exact htrap hb e hlow hlen hact ((hout e).mp hc)

/-- vmacc and vnmsac take the old element as a third operand (R91). -/
theorem accumulators_give :
    GivesInt .vmacc s w false (fun _ a b acc => acc + a * b) ∧ GivesInt .vnmsac s w false (fun _ a b acc => acc - a * b) := by
  have hprod (a b : Nat) : ((a * b : Nat) : Int) = a * b := by push_cast; rfl
  refine ⟨plain_gives .vmacc false (fun _ a b acc => acc + a * b) _ rfl hr hp ht hl hg fun n a b acc _ _ _ _ => ?_,
    intWord_gives (.vnmsac w) false (fun n a b acc => (wrapTo n ((acc : Int) - (a * b : Nat)), 0)) _ (fun _ => 0) rfl
      hr hp ht hl hg (fun e _ _ _ => ?_) (fun _ => wrapTo_lt _ _) fun e _ _ _ => BitVec.and_zero⟩
  · exact mod_eq_wrapTo 0 (by push_cast; ring)
  · simp only [hprod]

/-- The arithmetic of R91. -/
theorem arithmetic_gives :
    GivesInt .vadd s w false (fun _ a b _ => a + b)
    ∧ GivesInt .vsub s w false (fun _ a b _ => a - b)
    ∧ GivesInt .vrsub s w false (fun _ a b _ => b - a)
    ∧ GivesInt .vmul s w false (fun _ a b _ => a * b)
    ∧ GivesInt .vmulh s w false (fun n a b _ => signedOf n a * signedOf n b / (2 ^ n : Nat))
    ∧ GivesInt .vmulhz s w false (fun n a b _ => (a * b / 2 ^ n : Nat))
    ∧ GivesInt .vmacc s w false (fun _ a b acc => acc + a * b)
    ∧ GivesInt .vnmsac s w false (fun _ a b acc => acc - a * b)
    ∧ GivesInt .vmin s w false (fun n a b _ => min (signedOf n a) (signedOf n b))
    ∧ GivesInt .vminz s w false (fun _ a b _ => (min a b : Nat))
    ∧ GivesInt .vmax s w false (fun n a b _ => max (signedOf n a) (signedOf n b))
    ∧ GivesInt .vmaxz s w false (fun _ a b _ => (max a b : Nat))
    ∧ GivesInt .vavg s w false (fun n a b _ => (signedOf n a + signedOf n b + 1) / 2)
    ∧ GivesInt .vabsd s w false (fun n a b _ => |signedOf n a - signedOf n b|) := by
  have gives := @plainWord_gives s w hr hp ht hl hg
  obtain ⟨hmacc, hnmsac⟩ := accumulators_give hr hp ht hl hg
  refine ⟨gives .vadd false rfl fun n a b _ _ _ => mod_eq_wrapTo 0 (by push_cast; ring),
    gives .vsub false rfl fun n a b _ _ hb => sub_mod_eq_wrapTo hb,
    gives .vrsub false rfl fun n a b _ ha _ => sub_mod_eq_wrapTo ha,
    gives .vmul false rfl fun n a b _ _ _ => mod_eq_wrapTo 0 (by push_cast; ring),
    gives .vmulh false rfl fun n a b _ _ _ => highHalf_eq_wrapTo _ _,
    gives .vmulhz false rfl fun n a b _ _ _ => (wrapTo_nat _ _).symm, hmacc, hnmsac,
    gives .vmin false rfl fun n a b _ _ _ => minSigned_eq_wrapTo _ _ _,
    gives .vminz false rfl fun n a b _ _ _ => (wrapTo_nat _ _).symm,
    gives .vmax false rfl fun n a b _ _ _ => maxSigned_eq_wrapTo _ _ _,
    gives .vmaxz false rfl fun n a b _ _ _ => (wrapTo_nat _ _).symm,
    gives .vavg false rfl fun n a b _ _ _ => wrapTo_mod _ _,
    gives .vabsd false rfl fun n a b _ _ _ => natAbs_eq_wrapTo _ _⟩

/-- The divisions of R92. -/
theorem divisions_give :
    GivesInt .vdiv s w false (fun n a b _ => if b = 0 then -1 else Int.tdiv (signedOf n a) (signedOf n b))
    ∧ GivesInt .vdivz s w false (fun _ a b _ => if b = 0 then -1 else (a / b : Nat))
    ∧ GivesInt .vrem s w false (fun n a b _ => if b = 0 then a else Int.tmod (signedOf n a) (signedOf n b))
    ∧ GivesInt .vremz s w false (fun _ a b _ => if b = 0 then a else (a % b : Nat)) := by
  have gives := @plainWord_gives s w hr hp ht hl hg
  exact ⟨gives .vdiv false rfl fun n a b _ _ _ => divS_eq_wrapTo n a b,
    gives .vdivz false rfl fun n a b _ _ _ => divU_eq_wrapTo n a b,
    gives .vrem false rfl fun n a b _ _ _ => remS_eq_wrapTo n a b,
    gives .vremz false rfl fun n a b _ _ _ => remU_eq_wrapTo n a b⟩

/-- The logic and the shifts of R91. -/
theorem logic_gives :
    GivesInt .vand s w false (fun _ a b _ => (a &&& b : Nat))
    ∧ GivesInt .vor s w false (fun _ a b _ => (a ||| b : Nat))
    ∧ GivesInt .vxor s w false (fun _ a b _ => (a ^^^ b : Nat))
    ∧ GivesInt .vandn s w false (fun n a b _ => (a &&& (2 ^ n - 1 - b) : Nat))
    ∧ GivesInt .vsll s w true (fun n a b _ => (a <<< (b % n) : Nat))
    ∧ GivesInt .vsrl s w true (fun n a b _ => (a >>> (b % n) : Nat))
    ∧ GivesInt .vsra s w true (fun n a b _ => signedOf n a / (2 ^ (b % n) : Nat))
    ∧ GivesInt .vrol s w true (fun n a b _ => (a <<< (b % n) ||| a >>> (n - b % n) : Nat)) := by
  have gives := @plainWord_gives s w hr hp ht hl hg
  refine ⟨gives .vand false rfl fun n a b _ _ _ => (wrapTo_nat _ _).symm,
    gives .vor false rfl fun n a b _ _ _ => (wrapTo_nat _ _).symm,
    gives .vxor false rfl fun n a b _ _ _ => (wrapTo_nat _ _).symm,
    gives .vandn false rfl fun n a b _ _ _ => (wrapTo_nat _ _).symm,
    gives .vsll true rfl fun n a b _ _ _ => ?_, gives .vsrl true rfl fun n a b _ _ _ => ?_,
    gives .vsra true rfl fun n a b _ _ _ => wrapTo_mod _ _, gives .vrol true rfl fun n a b hn ha _ => ?_⟩
  · rw [wrapTo_nat, Nat.shiftLeft_eq]
    rfl
  · rw [wrapTo_nat, Nat.shiftRight_eq_div_pow]
    rfl
  · rw [wrapTo_nat, ← rotate_eq_or ha (Nat.mod_lt b hn)]
    rfl

/-- The saturating words of R92. -/
theorem saturating_give :
    GivesClamped .vsadd s w (fun n => -2 ^ (n - 1)) (fun n => 2 ^ (n - 1) - 1) (fun n a b => signedOf n a + signedOf n b)
    ∧ GivesClamped .vsaddz s w (fun _ => 0) (fun n => 2 ^ n - 1) (fun _ a b => a + b)
    ∧ GivesClamped .vssub s w (fun n => -2 ^ (n - 1)) (fun n => 2 ^ (n - 1) - 1) (fun n a b => signedOf n a - signedOf n b)
    ∧ GivesClamped .vssubz s w (fun _ => 0) (fun n => 2 ^ n - 1) (fun _ a b => a - b) := by
  have gives := @clampWord_gives s w hr hp ht hl hg
  have hpow (n : Nat) : (0 : Int) < 2 ^ n := by positivity
  have hsigned (n : Nat) : -(2 : Int) ^ (n - 1) ≤ 2 ^ (n - 1) - 1 := by
    have := hpow (n - 1)
    omega
  have hunsigned (n : Nat) : (0 : Int) ≤ 2 ^ n - 1 := by
    have := hpow n
    omega
  have hmax (n : Nat) : ((2 ^ n : Nat) : Int) - 1 = 2 ^ n - 1 := by push_cast; rfl
  exact ⟨gives .vsadd (lo' := minS) (hi' := maxS) rfl minS_eq maxS_eq hsigned,
    gives .vsaddz (lo' := fun _ => 0) (hi' := fun n => (2 ^ n : Nat) - 1) rfl (fun _ => rfl) hmax hunsigned,
    gives .vssub (lo' := minS) (hi' := maxS) rfl minS_eq maxS_eq hsigned,
    gives .vssubz (lo' := fun _ => 0) (hi' := fun n => (2 ^ n : Nat) - 1) rfl (fun _ => rfl) hmax hunsigned⟩

end

/-- Settles O8: the 30 words are `intWord` of functions that agree with R91's and R92's modulo 2^SEW. -/
theorem integerWords : Obligations.IntegerWords :=
  ⟨fun _ _ => arithmetic_gives, fun _ _ => divisions_give, fun _ _ => logic_gives, fun _ _ => saturating_give⟩

end Sys2Proof.Machine
end

section
/-! SUPPORT. vadc and vsbc (R93): the loop of R80 over a destination group and the carry register together; and the compares
(R94). -/

namespace Sys2Proof.Machine

/-! ## Any destination of the loop -/

/-- An element-wise word on a destination seen by `view`: from the run of its computation to what the word does. -/
theorem elementWise_runs {α : Type} {V M : Nat → Prop} {N J : Nat} {view : Hart → Nat → α} {enc : Nat → Nat → α → α}
    {put : PutFn} {s : State} {c : VCtx} {act : Nat → Bool} (i : Instr) (a : Act Unit) (hi : exec i s = vectorWord i a s)
    (hr : VecReady s) (hc : CtxFor s c act) (hp : PutSpec V M N J view enc put)
    (hview : ∀ h h', h.vec.v = h'.vec.v → h.vec.m = h'.vec.m → view h = view h')
    (count : Nat) (val : Nat → Nat) (hN : lenOf s ≤ N) (hcN : count ≤ N) (hJ : J ≤ count)
    (ha : a s = elementWise i c put count (fun e => .ok (val e, 0)) s) :
    ∃ t, exec i s = .next t ∧ VecFrame s t c.takes ∧ XKept s t ∧ FlagsKept s t
      ∧ (∀ k, (hk : k < 32) → ¬ V k → t.hart.vec.v[k] = s.hart.vec.v[k])
      ∧ (∀ k, (hk : k < 8) → ¬ M k → t.hart.vec.m[k] = s.hart.vec.m[k])
      ∧ ∀ j, j < J → view t.hart j = writtenBy s act enc (view s.hart) val j := by
  obtain ⟨t, y, run, frame, only, hv, hm, xs, flags, written⟩ := elementWise_done i hc hp count _ val (fun _ => 0) hN hcN hJ
    (fun _ _ _ _ => rfl)
  refine ⟨settleReads s.cur 0 t, ?_, frame, xs, FlagsGain.kept flags, fun k hk ho => ?_, fun k hk ho => ?_, fun j hj => ?_⟩
  · rw [hi, vectorWord_ready hr]
    exact runAct_ok (ha.trans run)
  · rw [settleReads_hart, show t.hart.vec.v[k] = y.vec.v[k] by simp only [hv]]
    exact only.regs k hk ho
  · rw [settleReads_hart, show t.hart.vec.m[k] = y.vec.m[k] by simp only [hm]]
    exact only.masks k hk ho
  · rw [settleReads_hart, hview _ _ hv hm]
    exact written j hj

/-! ## The carry register as a second destination -/

/-- A destination of which some writes set a bit of mask register `r` too: bit `e`, by a test of the value. -/
def withBit (put : PutFn) (r : Nat) (p : Nat → Bool) (q : Nat → Bool) : PutFn := fun e x h =>
  if p e then (put e x h).setMaskBit r e (q x) else put e x h

section
variable {α : Type} {V M : Nat → Prop} {N J : Nat} {view : Hart → Nat → α} {enc : Nat → Nat → α → α} {put : PutFn}
  (hp : PutSpec V (fun _ => False) N J view enc put) (r : Nat) (p q : Nat → Bool) (hM : ∀ e, p e = true → M (r % 8))
include hp hM

theorem withBit_only (e x : Nat) (h : Hart) (he : e < N) : VecOnly V M h (withBit put r p q e x h) := by
  have hput := (hp.only e x h he).mono (fun _ => id) (fun i (hi : False) => (hi.elim : M i))
  unfold withBit
  split
  · next hpe => exact hput.trans ((vecOnly_setMaskBit V _ r e _).mono (fun _ => id) (fun i hi => hi ▸ hM e hpe))
  · exact hput

/-- What sees no mask sees the write of the element alone. -/
theorem putSpec_withBit (hview : ∀ h h', h.vec.v = h'.vec.v → view h = view h') :
    PutSpec V M N J view enc (withBit put r p q) := by
  have same (e x : Nat) (h : Hart) : (withBit put r p q e x h).vec.v = (put e x h).vec.v := by
    unfold withBit
    split <;> rfl
  refine ⟨withBit_only hp r p q hM, fun e x h he => ?_, fun e x h j he hj => ?_, hp.free⟩
  · rw [← hp.flags e x h he]
    unfold withBit
    split <;> rfl
  · rw [hview _ _ (same e x h)]
    exact hp.own e x h j he hj

/-- Bits below `N` of the mask register. -/
theorem putSpec_withBit_bits (hN : N ≤ 8192) :
    PutSpec V M N N (fun h j => (h.mask r).getLsbD j) (fun e x b => if p e then q x else b) (withBit put r p q) := by
  have keeps (e x : Nat) (h : Hart) (he : e < N) : (put e x h).mask r = h.mask r := 
    (hp.only e x h he).masks _ _ id
  refine ⟨withBit_only hp r p q hM, fun e x h he => ?_, fun e x h j he hj => ?_, fun _ _ _ => rfl⟩
  · rw [← hp.flags e x h he]
    unfold withBit
    split <;> rfl
  · unfold withBit
    split
    · next hpe => rw [mask_setMaskBit _ _ _ _ _ (by omega), keeps e x h he]
    · rw [keeps e x h he, ite_self]

/-- Bits of the mask register from `N` on. -/
theorem putSpec_withBit_above (k : Nat) (hk : k < 8192) (hN : N ≤ k) :
    PutSpec V M N N (fun h _ => (h.mask r).getLsbD k) (fun _ _ b => b) (withBit put r p q) := by
  refine ⟨withBit_only hp r p q hM, fun e x h he => ?_, fun e x h j he hj => ?_, fun _ _ _ => rfl⟩
  · rw [← hp.flags e x h he]
    unfold withBit
    split <;> rfl
  · have keeps : (put e x h).mask r = h.mask r := (hp.only e x h he).masks _ _ id
    rw [ite_self]
    unfold withBit
    split
    · rw [mask_setMaskBit _ _ _ _ _ hk, if_neg (by omega), keeps]
    · rw [keeps]

end

/-! ## vadc and vsbc -/

/-- The carry-in of element `e`: 0 where msk is 00 (R93). -/
def carryIn (s : State) (w : Fld) (e : Nat) : Nat :=
  if w.k ≠ 0 && (s.hart.mask w.k.toNat).getLsbD e then 1 else 0

/-- A word with carries completes: `sum e` is the exact sum and `cout e` the carry-out of an element (R93). -/
def GivesCarry (i : Fld → Instr) (s : State) (w : Fld) (sum : Nat → Int) (cout : Nat → Bool) : Prop :=
  ∃ t, exec (i w) s = .next t ∧ VecFrame s t true
    ∧ ElemsAre s t (Dests s w) (grpOf s) (widthOf s) (posOf s) (activeAt s w false) (fun e => wrapTo (widthOf s) (sum e))
    ∧ RegsOutside s t (Dests s w) (grpOf s) ∧ XKept s t ∧ FlagsKept s t
    ∧ (w.k = 0 → MasksKept s t) ∧ MasksOutside s t w.k.toNat
    ∧ (w.k ≠ 0 → ∀ e, e < 8192 → (t.hart.mask w.k.toNat).getLsbD e =
        if posOf s ≤ e ∧ e < lenOf s ∧ activeAt s w false e = true then cout e else (s.hart.mask w.k.toNat).getLsbD e)

/-- The sum and its carry-out as one number: the carry stands above the n bits of the sum. -/
theorem carried_le_iff (n x : Nat) (b : Bool) : decide (2 ^ n ≤ x % 2 ^ n + b.toNat * 2 ^ n) = b := by
  have := Nat.mod_lt x (Nat.two_pow_pos n)
  cases b
  · simpa using this
  · simp

/-- A destination whose values are changed before the write. -/
theorem PutSpec.of_value {α : Type} {V M : Nat → Prop} {N J : Nat} {view : Hart → Nat → α} {enc : Nat → Nat → α → α}
    {put : PutFn} (hp : PutSpec V M N J view enc put) (f : Nat → Nat) :
    PutSpec V M N J view (fun e x => enc e (f x)) (fun e x => put e (f x)) :=
  ⟨fun e x => hp.only e (f x), fun e x => hp.flags e (f x), fun e x => hp.own e (f x), hp.free⟩

/-- The elements that write the carry register. -/
def carries (s : State) (w : Fld) (e : Nat) : Bool :=
  w.k ≠ 0 && activeAt s w false e && posOf s ≤ e && e < lenOf s

/-- The destinations of a word with carries: the sum's low bits, and its carry where msk names a register. -/
def carryPut (s : State) (w : Fld) : PutFn :=
  withBit (fun e x => (ctxOf attrCarry w s).putVec (s.hart.vreg w.d) (widthOf s) e (x % 2 ^ widthOf s)) w.k.toNat
    (carries s w) (fun x => 2 ^ widthOf s ≤ x)

/-- The computation of a word with carries, after its checks. -/
theorem carryWord_computes {s : State} {w : Fld} (hr : VecReady s) (hp : PrefixFits s w true false) (ht : TypeIn s fmtInt)
    (hg : GroupsFit s w) (i : Instr) (op : Nat → Nat → Nat → Nat → Nat × Bool) :
    ∃ a, carryWord i w op s = vectorWord i a s
      ∧ a s = elementWise i (ctxOf attrCarry w s) (carryPut s w) (8192 * grpOf s / widthOf s) (fun e =>
          let r := op (widthOf s) (elemAt s w.b e) (secondAt s w false e) (carryIn s w e)
          .ok (r.1 % 2 ^ widthOf s + r.2.toNat * 2 ^ widthOf s, 0)) s := by
  refine ⟨_, rfl, ?_⟩
  rw [getS_bind, bind_ok _ (issue_int attrCarry w _ s hr (legalBinary_of hg) rfl rfl hp ht (fun _ h => h))]
  have hin (e : Nat) : (if w.k = 0 then 0 else ((s.hart.mask w.k.toNat).getLsbD e).toNat) = carryIn s w e := by
    unfold carryIn
    by_cases hk : w.k = 0
    · simp [hk]
    · cases (s.hart.mask w.k.toNat).getLsbD e <;> simp
  have hsel (e : Nat) : (ctxOf attrCarry w s).sel e = activeAt s w false e := sel_ctxOf attrCarry w s rfl e
  simp only [hin, hsel, show (ctxOf attrCarry w s).sew = widthOf s from rfl, operandB_second]
  rfl

/-- The mask registers that a word with carries may write. -/
def carryRegs (w : Fld) (r : Nat) : Prop := w.k ≠ 0 ∧ r = w.k.toNat

theorem carries_carryRegs (s : State) (w : Fld) (e : Nat) (h : carries s w e = true) : carryRegs w (w.k.toNat % 8) := by
  have hk := w.k.isLt
  unfold carries at h
  simp only [Bool.and_eq_true, decide_eq_true_eq] at h
  exact ⟨h.1.1.1, Nat.mod_eq_of_lt (by omega)⟩

/-- A carry bit after the word: an active element's bit is its carry-out, the others are kept (R93). -/
theorem writtenBy_carry {s : State} {w : Fld} (hk : w.k ≠ 0) {old : Nat → Bool} {val : Nat → Nat} {q : Nat → Bool} (e : Nat) :
    writtenBy s (activeAt s w false) (fun e x b => if carries s w e then q x else b) old val e =
      if posOf s ≤ e ∧ e < lenOf s ∧ activeAt s w false e = true then q (val e) else old e := by
  have hc : carries s w e = true ↔ posOf s ≤ e ∧ e < lenOf s ∧ activeAt s w false e = true := by
    unfold carries
    simp only [Bool.and_eq_true, decide_eq_true_eq]
    tauto
  unfold writtenBy
  simp only [hc]
  by_cases hlow : e < posOf s
  · rw [if_pos hlow, if_neg (by omega)]
  · by_cases hlen : e < lenOf s
    · cases activeAt s w false e with
      | true => simp only [hlow, hlen, not_lt.mp hlow, and_self, if_true, if_false]
      | false => simp only [hlow, hlen, Bool.false_eq_true, and_false, if_false, ite_self]
    · simp only [hlow, hlen, false_and, and_false, if_false, ite_self]

section
variable {s : State} {w : Fld} (hr : VecReady s) (hp : PrefixFits s w true false) (ht : TypeIn s fmtInt)
  (hl : LengthOk s.hart) (hg : GroupsFit s w)
include hr hp ht hl hg

section
variable (i : Fld → Instr) {op : Nat → Nat → Nat → Nat → Nat × Bool} {sum : Nat → Int} {cout : Nat → Bool}
  (hi : exec (i w) s = carryWord (i w) w op s)
  (hsum : ∀ e, (op (widthOf s) (elemAt s w.b e) (secondAt s w false e) (carryIn s w e)).1 % 2 ^ widthOf s
    = wrapTo (widthOf s) (sum e))
  (hcout : ∀ e, (op (widthOf s) (elemAt s w.b e) (secondAt s w false e) (carryIn s w e)).2 = cout e)
include hi hsum hcout

/-- A word with carries, by its operation, on a part of its destinations: the low bits of the operation's result are the
sum's, its second part the carry-out. -/
theorem carryWord_sees {α : Type} {view : Hart → Nat → α} {enc : Nat → Nat → α → α}
    (hput : PutSpec (inDests s w (grpOf s)) (carryRegs w) (8192 * grpOf s / widthOf s) (8192 * grpOf s / widthOf s) view enc
      (carryPut s w))
    (hview : ∀ h h', h.vec.v = h'.vec.v → h.vec.m = h'.vec.m → view h = view h') :
    ∃ t, exec (i w) s = .next t ∧ VecFrame s t true ∧ XKept s t ∧ FlagsKept s t
      ∧ (∀ k, (hk : k < 32) → ¬ inDests s w (grpOf s) k → t.hart.vec.v[k] = s.hart.vec.v[k])
      ∧ (∀ k, (hk : k < 8) → ¬ carryRegs w k → t.hart.vec.m[k] = s.hart.vec.m[k])
      ∧ ∀ j, j < 8192 * grpOf s / widthOf s → view t.hart j = writtenBy s (activeAt s w false) enc (view s.hart)
          (fun e => wrapTo (widthOf s) (sum e) + (cout e).toNat * 2 ^ widthOf s) j := by
  obtain ⟨a, hcw, ha⟩ := carryWord_computes hr hp ht hg (i w) op
  simp only [hsum, hcout] at ha
  exact elementWise_runs (i w) a (hi.trans hcw) hr (ctxOf_for attrCarry w s hr rfl) hput hview _ _ (lenOf_le_count ht hl) le_rfl
    le_rfl ha

/-- A word with carries writes sums to its destinations, and carries to the register that msk names (R93). -/
theorem carryWord_gives : GivesCarry i s w sum cout := by
  have sees {α : Type} {view : Hart → Nat → α} {enc} := @carryWord_sees s w hr hp ht hl hg i op sum cout hi hsum hcout α view enc
  have dests (b : Nat) (hb : Dests s w b) := (putSpec_dests s w (ctxOf attrCarry w s) (grpOf s) (widthOf s) widthOf_ok.2
    widthOf_ok.1 (grp_dvd s) rfl hg.1 b hb).of_value (· % 2 ^ widthOf s)
  have hreg := carries_carryRegs s w
  obtain ⟨t, run, frame, xs, flags, regs, masks, bits⟩ := sees
    (putSpec_withBit_bits (dests _ (.inl rfl)) w.k.toNat _ _ hreg (groupCount_le ht))
    (fun h h' _ hm => by simp only [mask_congr hm])
  refine ⟨t, run, frame, fun b hb e he => ?_, fun k hk ho => regs k hk (notInDests ho), xs, flags,
    fun hk => Vector.ext fun k hk' => masks k hk' fun h => h.1 hk, fun k hk hne => masks k hk fun h => hne h.2,
    fun hk e he => ?_⟩
  · obtain ⟨t', run', -, -, -, -, -, elems⟩ := sees
      (putSpec_withBit (dests b hb) w.k.toNat _ _ hreg (fun h h' hv => funext fun _ => elem_congr hv _ _ _))
      (fun h h' hv _ => funext fun _ => elem_congr hv _ _ _)
    rw [run] at run'
    cases run'
    rw [elems e (lt_count_iff.mpr he)]
    unfold written writtenBy
    simp only [Nat.zero_mod, Nat.add_mul_mod_self_right, wrapTo_mod]
  · by_cases hcnt : e < 8192 * grpOf s / widthOf s
    · rw [bits e hcnt, writtenBy_carry hk, ← wrapTo_mod, carried_le_iff]
    · obtain ⟨t', run', -, -, -, -, -, above⟩ := sees
        (putSpec_withBit_above (dests _ (.inl rfl)) w.k.toNat _ _ hreg e he (not_lt.mp hcnt))
        (fun h h' _ hm => by simp only [mask_congr hm])
      rw [run] at run'
      cases run'
      have hlen := lenOf_le_count ht hl
      rw [if_neg (by omega), above 0 (count_pos s)]
      unfold writtenBy
      simp only [ite_self]

end

/-- vadc (R93). -/
theorem vadc_gives : GivesCarry .vadc s w (fun e => elemAt s w.b e + secondAt s w false e + carryIn s w e)
    (fun e => 2 ^ widthOf s ≤ (elemAt s w.b e + secondAt s w false e + carryIn s w e : Int)) := by
  refine carryWord_gives hr hp ht hl hg .vadc (op := fun n a b c => (a + b + c, 2 ^ n ≤ a + b + c)) rfl
    (fun e => mod_eq_wrapTo 0 ?_) (fun e => decide_eq_decide.mpr ?_)
  · push_cast
    ring
  · norm_cast

/-- vsbc (R93). -/
theorem vsbc_gives : GivesCarry .vsbc s w (fun e => elemAt s w.b e - secondAt s w false e - carryIn s w e)
    (fun e => (elemAt s w.b e - secondAt s w false e - carryIn s w e : Int) < 0) := by
  refine carryWord_gives hr hp ht hl hg .vsbc (op := fun n a b c => (a + 2 ^ n + 2 ^ n - b - c, a < b + c)) rfl
    (fun e => mod_eq_wrapTo 2 ?_) (fun e => decide_eq_decide.mpr ?_)
  · have hb := secondAt_lt ht w false e
    have hc : carryIn s w e ≤ 2 ^ widthOf s := by
      unfold carryIn
      split
      · exact Nat.one_le_two_pow
      · exact Nat.zero_le _
    dsimp only
    rw [Nat.cast_sub (by omega), Nat.cast_sub (by omega)]
    push_cast
    ring
  · omega

end

/-- Settles O9: `carryWord` writes sums and carries in one loop, and each compare is `compareWord` of its relation. -/
theorem carriesAndCompares : Obligations.CarriesAndCompares := by
  refine ⟨fun s w hr hp ht hl hg => ⟨vadc_gives hr hp ht hl hg, vsbc_gives hr hp ht hl hg⟩, fun s w hr hp ht hb ha => ?_⟩
  have gives := fun i rel hi => compareWord_gives (s := s) (w := w) i rel hi hr hp ht hb ha
  exact ⟨gives .vceq _ rfl, gives .vcne _ rfl, gives .vclt _ rfl, gives .vcltz _ rfl, gives .vcle _ rfl,
    gives .vclez _ rfl, gives .vcgt _ rfl, gives .vcgtz _ rfl⟩

end Sys2Proof.Machine
end

section
/-! SUPPORT. Mask operations (R95), counts of mask bits (R96), and moves between masks and vectors (R97). -/

namespace Sys2Proof.Machine

/-! ## Bits of a mask -/

/-- `popMask` counts the set bits. -/
theorem popMask_eq (m : VReg) (n : Nat) : popMask m n = ((List.range n).filter m.getLsbD).length := by
  induction n with
  | zero => rfl
  | succ n ih =>
    rw [popMask, ih, List.range_succ, List.filter_append, List.length_append]
    cases h : m.getLsbD n <;> simp [h]

/-- `firstMask` finds the first of the set bits, in order. -/
theorem firstMask_eq (m : VReg) (n e : Nat) : firstMask m n e = ((List.range' e n).filter m.getLsbD).head? := by
  induction n generalizing e with
  | zero => rfl
  | succ n ih =>
    rw [firstMask, ih, List.range'_succ, List.filter_cons]
    split <;> rfl

/-! ## The mask operations -/

section
variable {s : State} {w : Fld} (hr : VecReady s) (hp : NoPrefix s)
include hr hp

/-- The logical mask operations (R95). -/
theorem maskLogic_gives :
    GivesBits (.mand w) s w (fun e => maskAt s w.b e && maskAt s w.a e)
    ∧ GivesBits (.mor w) s w (fun e => maskAt s w.b e || maskAt s w.a e)
    ∧ GivesBits (.mxor w) s w (fun e => xor (maskAt s w.b e) (maskAt s w.a e))
    ∧ GivesBits (.mandn w) s w (fun e => maskAt s w.b e && !(maskAt s w.a e))
    ∧ GivesBits (.mnot w) s w (fun e => !(maskAt s w.b e))
    ∧ GivesBits (.mmov w) s w (fun e => maskAt s w.b e) := by
  have gives := fun i bit hi => maskWord_gives (s := s) (w := w) i true false bit hi hr hp rfl
  refine ⟨gives (.mand w) (fun s e => maskAt s w.b e && maskAt s w.a e) rfl,
    gives (.mor w) (fun s e => maskAt s w.b e || maskAt s w.a e) rfl, ?_,
    gives (.mandn w) (fun s e => maskAt s w.b e && !(maskAt s w.a e)) rfl, gives (.mnot w) (fun s e => !(maskAt s w.b e)) rfl,
    gives (.mmov w) (fun s e => maskAt s w.b e) rfl⟩
  simp only [← Bool.bne_eq_xor]
  exact gives (.mxor w) (fun s e => maskAt s w.b e != maskAt s w.a e) rfl

/-- mshl takes each bit from `offset` below (R95). -/
theorem mshl_gives (hd : w.d ≠ w.b) :
    GivesBits (.mshl w) s w (fun e => offsetOf s w ≤ e && maskAt s w.b (e - offsetOf s w)) :=
  maskWord_gives (.mshl w) (w.d != w.b) true _ rfl hr hp (bne_iff_ne.mpr hd)

/-- mpop counts the set bits below VL (R96). -/
theorem mpop_gives (hpc : isRep s.hart.pc = false) :
    WritesX (.mpop w) s w.d (bv 64 ((List.range (lenOf s)).filter (maskAt s w.b)).length) := by
  have h := maskScalar_gives (.mpop w) (fun m vl => bv 64 (popMask m vl)) rfl hr hp hpc
  rwa [popMask_eq] at h

/-- mfirst finds the first set bit below VL (R96). -/
theorem mfirst_gives (hpc : isRep s.hart.pc = false) :
    WritesX (.mfirst w) s w.d (match (List.range (lenOf s)).filter (maskAt s w.b) with
      | e :: _ => bv 64 e
      | [] => BitVec.allOnes 64) := by
  have h := maskScalar_gives (.mfirst w) (fun m vl => match firstMask m vl 0 with
    | some e => bv 64 e
    | none => BitVec.allOnes 64) rfl hr hp hpc
  rw [firstMask_eq, ← List.range_eq_range'] at h
  change WritesX _ _ _ (match ((List.range (lenOf s)).filter (maskAt s w.b)).head? with | some e => bv 64 e | none => _) at h
  cases hl : (List.range (lenOf s)).filter (maskAt s w.b) with
  | nil =>
    rw [hl] at h
    exact h
  | cons e l =>
    rw [hl] at h
    exact h

end

/-! ## Masks and vectors -/

section
variable {s : State} {w : Fld} (hr : VecReady s) (ht : TypeIn s fmtInt)
include hr ht

/-- mvtom marks the elements that are not zero (R97). -/
theorem mvtom_gives (hp : PrefixFits s w false true) (hb : SourceFits s w.b (grpOf s)) :
    WritesMask (.mvtom w) s w.d.toNat true (activeAt s w true) (fun e => elemAt s w.b e != 0) (fun _ => 0) := by
  refine bits_gives { fmts := fmtInt, dcv := false } (.mvtom w) _ w.d.toNat (lenOf s) _ _ rfl hr
    (ctxOf_for { fmts := fmtInt, dcv := false } w s hr rfl) le_rfl ?_
  rw [getS_bind, bind_ok _ (issue_int { fmts := fmtInt, dcv := false } w _ s hr (span_here hb) rfl rfl
    hp ht (fun _ h => h)), ← bound_default hr]
  rfl

/-- mmtov writes the bits of a mask as elements (R97). -/
theorem mmtov_gives (hp : PrefixFits s w true true) (hl : LengthOk s.hart) (hd : DestsFit s w (grpOf s)) :
    GivesElems .mmtov s w true (fun e => (maskAt s w.b e).toNat) := by
  refine elems_gives { fmts := fmtInt } .mmtov _ (lenOf s) _ rfl hr rfl ht hl hd le_rfl ?_ (fun e _ _ _ => ?_)
  · rw [getS_bind, bind_ok _ (issue_int { fmts := fmtInt } w _ s hr (destOk_here hd) rfl rfl hp ht (fun _ h => h)),
      ← bound_default hr]
    rfl
  · calc (maskAt s w.b e).toNat < 2 ^ 1 := Bool.toNat_lt _
      _ ≤ 2 ^ widthOf s := Nat.pow_le_pow_right (by decide) ((by decide : 1 ≤ 8).trans (eight_le_widthOf ht))

end

/-- Settles O10: the mask operations are `maskWord` of their functions; the counts read the set bits below VL. -/
theorem maskWords : Obligations.MaskWords := by
  refine ⟨fun s w hr hp => ?_, fun s w hr hp hpc => ⟨mpop_gives hr hp hpc, mfirst_gives hr hp hpc⟩,
    fun s w hr ht => ⟨mvtom_gives hr ht, mmtov_gives hr ht⟩⟩
  obtain ⟨hand, hor, hxor, handn, hnot, hmov⟩ := maskLogic_gives (w := w) hr hp
  exact ⟨hand, hor, hxor, handn, hnot, hmov, mshl_gives hr hp⟩

end Sys2Proof.Machine
end

section
/-! SUPPORT. Moves, indices and single elements (R98, R104). -/

namespace Sys2Proof.Machine

/-! ## Words of one result for each element -/

/-- The checks of moves at issue succeed, outside the MX formats. -/
theorem issue_elems {s : State} {w : Fld} {legal : Bool} (hr : VecReady s) (hp : PrefixFits s w true true) (ht : TypeIn s fmtInt)
    (hleg : legal = true) : issue attrElems w legal s = .ok (ctxOf attrElems w s) s :=
  issue_int attrElems w legal s hr hleg rfl rfl hp ht fmtMove_of_int

/-- The checks of words that move MX blocks too succeed, outside the MX formats. -/
theorem issue_blocks {s : State} {w : Fld} {legal : Bool} (hr : VecReady s) (hp : PrefixFits s w true true) (ht : TypeIn s fmtInt)
    (hleg : legal = true) : issue attrBlocks w legal s = .ok (ctxOf attrBlocks w s) s :=
  issue_int attrBlocks w legal s hr hleg rfl rfl hp ht fmtMove_of_int

section
variable {s : State} {w : Fld} (hr : VecReady s) (hp : PrefixFits s w true true) (ht : TypeIn s fmtInt)
  (hl : LengthOk s.hart) (hd : DestsFit s w (grpOf s))
include hr hp ht hl hd

/-- vbcast writes its operand to every active element (R98). -/
theorem vbcast_gives : GivesElems .vbcast s w true (secondAt s w false) := by
  refine elems_gives attrElems .vbcast _ (lenOf s) _ rfl hr rfl ht hl hd le_rfl ?_ (fun e _ _ _ => secondAt_lt ht w false e)
  rw [getS_bind, bind_ok _ (issue_elems hr hp ht (destOk_here hd)), ← bound_default hr]
  simp only [show (ctxOf attrElems w s).sew = widthOf s from rfl, operandB_second]
  rfl

/-- vidx writes the index (R104). -/
theorem vidx_gives : GivesElems .vidx s w true (fun e => e % 2 ^ widthOf s) := by
  refine elems_gives attrInt .vidx _ (lenOf s) _ rfl hr rfl ht hl hd le_rfl ?_ (fun e _ _ _ => Nat.mod_lt _ (Nat.two_pow_pos _))
  rw [getS_bind, bind_ok _ (issue_int attrInt w _ s hr (destOk_here hd) rfl rfl hp ht (fun _ h => h)), ← bound_default hr]
  rfl

/-- viota counts the set bits below the index (R104). -/
theorem viota_gives :
    GivesElems .viota s w true (fun e => ((List.range e).filter (maskAt s w.b)).length % 2 ^ widthOf s) := by
  refine elems_gives attrInt .viota _ 16384 _ rfl hr rfl ht hl hd (lenOf_lt s).le ?_
    (fun e _ _ _ => Nat.mod_lt _ (Nat.two_pow_pos _))
  rw [getS_bind, bind_ok _ (issue_int attrInt w _ s hr (destOk_here hd) rfl rfl hp ht (fun _ h => h))]
  simp only [popMask_eq]
  rfl

/-- vmov copies the elements (R98). -/
theorem vmov_gives (hb : SourceFits s w.b (grpOf s)) : GivesElems .vmov s w true (fun e => elemAt s w.b e) := by
  refine elems_gives attrBlocks .vmov _ (lenOf s) _ rfl hr rfl ht hl hd le_rfl ?_ (fun e _ _ _ => elemAt_lt _ _ _)
  rw [getS_bind, bind_ok _ (issue_blocks hr hp ht (by rw [destOk_here hd, span_here hb]; rfl)), ← bound_default hr]
  exact congrFun (if_neg (by rw [show (ctxOf attrBlocks w s).fmt = vtFmt s.hart.vec.vtype from rfl, isMx_int ht]; decide)) s

end

/-! ## Single elements -/

section
variable {s : State} {w : Fld} (hr : VecReady s) (hp : NoPrefix s) (ht : TypeIn s fmtInt)
include hr hp ht

/-- The issue of vxget and vxput. -/
theorem issue_index {legal : Bool} (hleg : legal = true) : issue attrIndex w legal s = .ok (ctxOf attrIndex w s) s :=
  issue_ok attrIndex w legal s hr hleg (fun _ => hp) (fun h => by cases h) (fun _ => ⟨ht.1, fmtMove_of_int _ ht.2⟩)
    (fun _ _ => isMx_int ht) (fun h => by cases h) (fun h => by cases h)

/-- vxget reads an element of the group, and 0 beyond it (R98). -/
theorem vxget_gives (hb : SourceFits s w.b (grpOf s)) (hpc : isRep s.hart.pc = false) :
    WritesX (.vxget w) s w.d (if offsetOf s w < vlmax s.hart.vec.vtype then
      sext64 (widthOf s) (elemAt s w.b (offsetOf s w)) else 0) := by
  refine setX_gives (.vxget w) _ w.d _ rfl hr ?_
  rw [getS_bind, bind_ok _ (issue_index hr hp ht (by rw [span_here hb, hpc]; rfl))]
  rfl

end

/-- The hart after vxput has written its element, if the group has it (R98). -/
def putElement (s : State) (w : Fld) : Hart :=
  if (s.hart.getX w.b).toNat < vlmax s.hart.vec.vtype then
    s.hart.setElem (s.hart.vreg w.d) (widthOf s) (s.hart.getX w.b).toNat ((s.hart.getX w.a).toNat % 2 ^ widthOf s)
  else s.hart

section
variable {s : State} {w : Fld} (ht : TypeIn s fmtInt) (hd : SourceFits s w.d (grpOf s))
include ht hd

theorem putElement_only : VecOnly (inGroup (s.hart.vreg w.d) (grpOf s)) (fun _ => False) s.hart (putElement s w) := by
  unfold putElement
  split
  · next h =>
    rw [vlmax_int ht] at h
    exact vecOnly_setElem _ _ _ _ _ _ _ (group_ends (grp_dvd s) hd (vreg_lt _ _)) (lt_count_iff.mp h)
  · exact VecOnly.refl _ _ _

/-- vxput writes one element and no other (R98). -/
theorem elem_putElement {e : Nat} (he : e < vlmax s.hart.vec.vtype) :
    (putElement s w).elem (s.hart.vreg w.d) (widthOf s) e =
      if e = (s.hart.getX w.b).toNat then (s.hart.getX w.a).toNat % 2 ^ widthOf s else elemAt s w.d e := by
  unfold putElement
  split
  · next h =>
    rw [vlmax_int ht] at h he
    rw [putSpec_setElem _ _ _ widthOf_ok.2 (group_ends (grp_dvd s) hd (vreg_lt _ _)) _ _ _ _ (lt_count_iff.mp h)
      (lt_count_iff.mp he), Nat.mod_mod]
    rfl
  · next h =>
    rw [if_neg (by rintro rfl; exact h he)]
    rfl

/-- vxput (R98). -/
theorem vxput_gives (hr : VecReady s) (hp : NoPrefix s) :
    ∃ t, exec (.vxput w) s = .next t ∧ VecFrame s t false ∧ MasksKept s t ∧ XKept s t ∧ FlagsKept s t
      ∧ RegsOutside s t (· = s.hart.vreg w.d) (grpOf s)
      ∧ ∀ e, e < vlmax s.hart.vec.vtype → t.hart.elem (s.hart.vreg w.d) (widthOf s) e =
          if e = (s.hart.getX w.b).toNat then (s.hart.getX w.a).toNat % 2 ^ widthOf s else elemAt s w.d e := by
  have hflags : (putElement s w).vec.vfflags = s.hart.vec.vfflags := by
    unfold putElement
    split <;> rfl
  obtain ⟨a, hi, ha⟩ : ∃ a, exec (.vxput w) s = vectorWord (.vxput w) a s
      ∧ a s = retireVec (.vxput w) false (s.setHart (putElement s w)) := by
    refine ⟨_, rfl, ?_⟩
    rw [getS_bind, bind_ok _ (issue_index hr hp ht (span_here hd))]
    rfl
  obtain ⟨t, run, frame, masks, xs, flags, regs, hv⟩ := retires_regs (.vxput w) a false hi hr ha (putElement_only ht hd) hflags
  refine ⟨t, run, frame, masks, xs, flags, fun k hk ho => regs k hk fun hin => ?_, fun e he => ?_⟩
  · have := ho _ rfl
    unfold inGroup at hin
    omega
  · rw [elem_congr hv, elem_putElement ht hd he]

end

/-- Settles O11: each word's computation gives the element that R98 or R104 names. -/
theorem elementMoves : Obligations.ElementMoves :=
  ⟨fun _ _ hr hp ht hl hd => ⟨vbcast_gives hr hp ht hl hd, vidx_gives hr hp ht hl hd, viota_gives hr hp ht hl hd,
      vmov_gives hr hp ht hl hd⟩,
    fun _ _ hr hp ht => ⟨vxget_gives hr hp ht, fun hd => vxput_gives ht hd hr hp⟩⟩

end Sys2Proof.Machine
end

section
/-! SUPPORT. Slides, gathers and merges (R99-R101). -/

namespace Sys2Proof.Machine

/-! ## Slides by an offset -/

/-- What an offset slide reads for element `e`, upwards or downwards (R99). -/
def slidOf (s : State) (w : Fld) (up : Bool) (e : Nat) : Nat :=
  if up then elemAt s w.b (e - offsetOf s w) else if e + offsetOf s w < lenOf s then elemAt s w.b (e + offsetOf s w) else 0

theorem slidOf_lt (s : State) (w : Fld) (up : Bool) (e : Nat) : slidOf s w up e < 2 ^ widthOf s := by
  unfold slidOf
  split_ifs
  · exact elemAt_lt _ _ _
  · exact elemAt_lt _ _ _
  · exact Nat.two_pow_pos _

/-- The context of a cross-element word: no boundary stops its loop (R81). -/
abbrev crossCtx (a : Attr) (w : Fld) (s : State) : VCtx := { ctxOf a w s with bound := 16384 }

section
variable {s : State} {w : Fld} (hr : VecReady s) (hp : PrefixFits s w true true) (ht : TypeIn s fmtInt)
  (hl : LengthOk s.hart) (hd : DestsFit s w (grpOf s)) (hb : SourceFits s w.b (grpOf s))
  (hap : Apart s w (grpOf s) w.b (grpOf s))

include hr hp ht hd hb hap in
/-- The computation of an offset slide outside the MX formats, after its checks. -/
theorem slideWord_computes (i : Instr) (up : Bool) :
    ∃ a, slideWord i w up s = vectorWord i a s
      ∧ a s = elementWise i (crossCtx attrBlocks w s)
          (fun e x h => if up && e < offsetOf s w && e < lenOf s then h
            else (crossCtx attrBlocks w s).putVec (s.hart.vreg w.d) (widthOf s) e x h)
          (8192 * grpOf s / widthOf s) (fun e => .ok (slidOf s w up e, 0)) s := by
  refine ⟨_, rfl, ?_⟩
  have hmx : isMx (ctxOf attrBlocks w s).fmt = false := isMx_int ht
  rw [getS_bind, bind_ok _ (issue_blocks hr hp ht (legalCross_of hd hb hap))]
  simp only [hmx, Bool.false_eq_true, if_false]
  rfl

/-- An upward slide, element by element: elements below the offset and VL are kept, as if it began there. -/
theorem turned_slideUp {c : VCtx} {act : Nat → Bool} (hc : CtxFor s c act) {val : Nat → Nat}
    (hval : ∀ e, val e < 2 ^ widthOf s) (old : Nat → Nat) (e : Nat) :
    turned c (fun e x v => if (true && e < offsetOf s w && e < lenOf s) = true then v else x % 2 ^ widthOf s) old val e =
      written s (max (posOf s) (min (offsetOf s w) (lenOf s))) act old 0 val e := by
  unfold turned written
  simp only [hc.vl, hc.velem, hc.tail, hc.pol, hc.tailed, hc.sel, Nat.mod_eq_of_lt (hval _), Nat.zero_mod, Bool.true_and,
    Bool.false_and, Bool.not_false, Bool.and_true, Bool.and_eq_true, decide_eq_true_eq]
  by_cases hlen : e < lenOf s
  · by_cases hoff : e < offsetOf s w
    · simp only [hlen, hoff, and_self, if_true, ite_self, lt_max_iff, lt_min_iff, or_true]
    · simp only [hlen, hoff, false_and, if_true, if_false, lt_max_iff, lt_min_iff, or_false]
  · simp only [hlen, and_false, if_false, lt_max_iff, lt_min_iff, or_false]

include hr hp ht hl hd hb hap

/-- vsldn (R99). -/
theorem vsldn_gives : GivesElems .vsldn s w true
    (fun e => if e + offsetOf s w < lenOf s then elemAt s w.b (e + offsetOf s w) else 0) := by
  obtain ⟨a, hi, ha⟩ := slideWord_computes hr hp ht hd hb hap (.vsldn w) false
  exact elems_gives attrBlocks .vsldn a 16384 (slidOf s w false) hi hr rfl ht hl hd (lenOf_lt s).le ha
    (fun e _ _ _ => slidOf_lt s w false e)

/-- vslup writes nothing below the offset, and the tail whatever the offset is (R99). -/
theorem vslup_gives : WritesFrom (max (posOf s) (min (offsetOf s w) (lenOf s))) (.vslup w) s w (grpOf s) (widthOf s)
    (activeAt s w true) (fun e => elemAt s w.b (e - offsetOf s w)) (fun _ => 0) := by
  obtain ⟨a, hi, ha⟩ := slideWord_computes hr hp ht hd hb hap (.vslup w) true
  have hlen := lenOf_le_count ht hl
  have hc : CtxFor s (crossCtx attrBlocks w s) (activeAt s w true) := (ctxOf_for attrBlocks w s hr rfl).cross (lenOf_lt s).le
  obtain ⟨t, run, done⟩ := turned_dests (c := crossCtx attrBlocks w s) (.vslup w) a (grpOf s) (8192 * grpOf s / widthOf s)
    (fun r h => h.elem r (widthOf s)) _ _ hi hr (fun r h h' hv => funext fun _ => elem_congr hv _ _ _)
    (fun r hdr => (putSpec_dests s w (crossCtx attrBlocks w s) (grpOf s) (widthOf s) widthOf_ok.2 widthOf_ok.1 (grp_dvd s) rfl
      hd r hdr).skip (fun e => true && e < offsetOf s w && e < lenOf s))
    (fun r _ => clears_plain _ _ _ _ rfl) rfl (lenOf_lt s).le hlen _ _ (fun _ => 0) ha (fun _ _ _ _ => rfl)
  refine ⟨t, run, done.frame, fun r hdr e he => ?_, done.outside, done.masks, done.xs, fun b => ?_⟩
  · rw [done.turns r hdr e (lt_count_iff.mpr he)]
    exact turned_slideUp hc (fun e => slidOf_lt s w true e) _ e
  · rw [done.flags b]
    simp [bitOf]

/-! ## Slides by one -/

/-- A slide by one (R99). -/
theorem slide1Word_gives (i : Fld → Instr) (up : Bool) (hi : exec (i w) s = slide1Word (i w) w up s) :
    GivesElems i s w true (fun e =>
      if up then (if e = 0 then (s.hart.getX w.a).toNat % 2 ^ widthOf s else elemAt s w.b (e - 1))
      else if e + 1 < lenOf s then elemAt s w.b (e + 1) else (s.hart.getX w.a).toNat % 2 ^ widthOf s) := by
  refine elems_gives attrElems i _ 16384 _ hi hr rfl ht hl hd (lenOf_lt s).le ?_ (fun e _ _ _ => ?_)
  · rw [getS_bind, bind_ok _ (issue_elems hr hp ht (legalCross_of hd hb hap))]
    rfl
  · have hx : (s.hart.getX w.a).toNat % 2 ^ widthOf s < 2 ^ widthOf s := Nat.mod_lt _ (Nat.two_pow_pos _)
    cases up with
    | true =>
      show (if e = 0 then _ else _) < _
      split
      · exact hx
      · exact elemAt_lt _ _ _
    | false =>
      show (if e + 1 < lenOf s then _ else _) < _
      split
      · exact elemAt_lt _ _ _
      · exact hx

/-- vsl1up (R99). -/
theorem vsl1up_gives : GivesElems .vsl1up s w true
    (fun e => if e = 0 then (s.hart.getX w.a).toNat % 2 ^ widthOf s else elemAt s w.b (e - 1)) :=
  slide1Word_gives hr hp ht hl hd hb hap .vsl1up true rfl

/-- vsl1dn (R99). -/
theorem vsl1dn_gives : GivesElems .vsl1dn s w true
    (fun e => if e + 1 < lenOf s then elemAt s w.b (e + 1) else (s.hart.getX w.a).toNat % 2 ^ widthOf s) :=
  slide1Word_gives hr hp ht hl hd hb hap .vsl1dn false rfl

/-! ## Gathers and merges -/

/-- vgath (R100). -/
theorem vgath_gives (ha : SourceFits s w.a (grpOf s)) (hapa : Apart s w (grpOf s) w.a (grpOf s)) :
    GivesElems .vgath s w true (fun e =>
      if elemAt s w.a e < vlmax s.hart.vec.vtype then elemAt s w.b (elemAt s w.a e) else 0) := by
  refine elems_gives attrElems .vgath _ 16384 _ rfl hr rfl ht hl hd (lenOf_lt s).le ?_ (fun e _ _ _ => ?_)
  · have hleg : (legalCross s.hart w && (Span.mk (s.hart.vreg w.a) (grpHere s.hart)).ok
        && destApart s.hart ⟨s.hart.vreg w.d, grpHere s.hart⟩ ⟨s.hart.vreg w.a, grpHere s.hart⟩) = true := by
      rw [legalCross_of hd hb hap, span_here ha, show destApart s.hart ⟨s.hart.vreg w.d, grpHere s.hart⟩
        ⟨s.hart.vreg w.a, grpHere s.hart⟩ = true from destApart_of hapa]
      rfl
    rw [getS_bind, bind_ok _ (issue_elems hr hp ht hleg)]
    rfl
  · split
    · exact elemAt_lt _ _ _
    · exact Nat.two_pow_pos _

end

/-- What vmerge is checked for: msk names the selector (R101), and only form VV moves MX blocks (R105). -/
abbrev attrMerge (w : Fld) : Attr := { attrBlocks with msk := .selector, elementwise := w.f != 0 }

/-- vmerge (R101). -/
theorem vmerge_gives {s : State} {w : Fld} (hr : VecReady s) (hp : PrefixFits s w true false) (ht : TypeIn s fmtInt)
    (hl : LengthOk s.hart) (hg : GroupsFit s w) : GivesElems .vmerge s w false (fun e =>
      if (s.hart.mask w.k.toNat).getLsbD e then secondAt s w false e else elemAt s w.b e) := by
  have hmx : isMx (ctxOf (attrMerge w) w s).fmt = false := isMx_int ht
  refine elems_gives (attrMerge w) .vmerge _ (lenOf s) _ rfl hr rfl ht hl hg.1 le_rfl ?_ (fun e _ _ _ => ?_)
  · rw [getS_bind, bind_ok _ (issue_int (attrMerge w) w _ s hr (legalBinary_of hg) rfl rfl hp ht fmtMove_of_int), ← bound_default hr]
    simp only [hmx, Bool.false_eq_true, if_false, show (ctxOf (attrMerge w) w s).sew = widthOf s from rfl, operandB_second]
    rfl
  · split
    · exact secondAt_lt ht w false e
    · exact elemAt_lt _ _ _

/-- Settles O12: each word writes, for an active element, the element that its rule names. -/
theorem slidesAndGathers : Obligations.SlidesAndGathers :=
  ⟨fun _ _ hr hp ht hl hd hb hap => ⟨vslup_gives hr hp ht hl hd hb hap, vsldn_gives hr hp ht hl hd hb hap,
      vsl1up_gives hr hp ht hl hd hb hap, vsl1dn_gives hr hp ht hl hd hb hap⟩,
    fun _ _ hr ht hl => ⟨fun hp hf hg hapb hapa => vgath_gives hr hp ht hl hg.1 hg.2.1 hapb (hg.2.2 hf) hapa,
      fun hp hg => vmerge_gives hr hp ht hl hg⟩⟩

end Sys2Proof.Machine
end

section
/-! SUPPORT. Bit counts (R108): the counts as searches through the bits of a number. -/

namespace Sys2Proof.Machine

/-! ## Bits of a number -/

/-- The lowest one bit is the first found from below. -/
theorem lowestOne_eq (n x : Nat) : lowestOne n x = (List.range n).findIdx (fun i => x.testBit i) := by
  induction n generalizing x with
  | zero => rfl
  | succ n ih =>
    rw [lowestOne, ih, List.range_succ_eq_map, List.findIdx_cons, List.findIdx_map, Nat.testBit_zero]
    simp only [Function.comp_def, Nat.testBit_succ]
    by_cases h : x % 2 = 1
    · simp [h]
    · simp [h, Nat.add_comm]

/-- The one bits are counted one by one. -/
theorem countOnes_eq (n x : Nat) : countOnes n x = ((List.range n).filter (fun i => x.testBit i)).length := by
  induction n generalizing x with
  | zero => rfl
  | succ n ih =>
    rw [countOnes, ih, List.range_succ_eq_map, List.filter_cons, List.filter_map, Nat.testBit_zero]
    simp only [Function.comp_def, Nat.testBit_succ]
    rcases Nat.mod_two_eq_zero_or_one x with h | h
    · simp [h]
    · simp [h, Nat.add_comm]

/-- The zeros above the highest one bit end where the first one bit is found from above. -/
theorem leadingZeros_eq {n x : Nat} (hx : x < 2 ^ n) :
    leadingZeros n x = (List.range n).findIdx (fun i => x.testBit (n - 1 - i)) := by
  unfold leadingZeros
  rw [Nat.mod_eq_of_lt hx]
  by_cases h0 : x = 0
  · subst h0
    refine ((List.findIdx_eq_length.mpr fun i _ => Nat.zero_testBit _).trans List.length_range).symm
  · have hlog : Nat.log2 x < n := (Nat.log2_lt h0).mpr hx
    rw [if_neg h0]
    symm
    rw [List.findIdx_eq (by rw [List.length_range]; omega)]
    simp only [List.getElem_range]
    refine ⟨?_, fun j hj => Nat.testBit_lt_two_pow ?_⟩
    · rw [show n - 1 - (n - (Nat.log2 x + 1)) = Nat.log2 x by omega]
      exact Nat.testBit_log2 h0
    · calc x < 2 ^ (Nat.log2 x + 1) := Nat.lt_log2_self
        _ ≤ 2 ^ (n - 1 - j) := Nat.pow_le_pow_right (by decide) (by omega)

theorem reverseBits_lt (n x : Nat) : reverseBits n x < 2 ^ n := by
  induction n generalizing x with
  | zero => exact Nat.one_pos
  | succ n ih =>
    have hbit : x % 2 * 2 ^ n ≤ 1 * 2 ^ n := Nat.mul_le_mul_right _ (Nat.le_of_lt_succ (Nat.mod_lt _ (by decide)))
    rw [reverseBits, Nat.pow_succ]
    have := ih (x / 2)
    omega

/-- Bit `i` of the reversed number is bit `n - 1 - i`. -/
theorem testBit_reverseBits (n x i : Nat) :
    (reverseBits n x).testBit i = (decide (i < n) && x.testBit (n - 1 - i)) := by
  induction n generalizing x with
  | zero => simp [reverseBits]
  | succ n ih =>
    rw [reverseBits, Nat.mul_comm, Nat.testBit_two_pow_mul_add _ (reverseBits_lt n _)]
    split
    · next h =>
      rw [ih, ← Nat.testBit_succ, show n + 1 - 1 - i = (n - 1 - i) + 1 by omega]
      simp [h, Nat.lt_succ_of_lt h]
    · next h =>
      by_cases hi : i = n
      · subst hi
        simp [Nat.testBit_zero]
      · have hlow : x % 2 < 2 ^ (i - n) := calc
          x % 2 < 2 ^ 1 := Nat.mod_lt x (by decide)
          _ ≤ 2 ^ (i - n) := Nat.pow_le_pow_right (by decide) (by omega)
        rw [Nat.testBit_lt_two_pow hlow, decide_eq_false (by omega : ¬ i < n + 1), Bool.false_and]

/-! ## The words -/

/-- A count of at most `n` bits is an element of width `n`. -/
theorem lt_two_pow_of_le {k n : Nat} (h : k ≤ n) : k < 2 ^ n := h.trans_lt Nat.lt_two_pow_self

/-- Settles O14: `unaryWord` applies each count to every active element. -/
theorem bitCounts : Obligations.BitCounts := by
  intro s w hr hp ht hl hd hb
  have gives := fun i op hi hop => unaryWord_gives (s := s) (w := w) i op hi hr hp ht hl hd hb hop
  have hclz (e : Nat) := leadingZeros_eq (elemAt_lt s w.b e)
  refine ⟨?_, ?_, ?_, fun e => reverseBits (widthOf s) (elemAt s w.b e), fun e i => testBit_reverseBits _ _ _,
    gives .vbrev reverseBits rfl fun a _ => reverseBits_lt _ a⟩
  · simp only [← hclz]
    exact gives .vclz leadingZeros rfl fun a _ => lt_two_pow_of_le (Nat.sub_le _ _)
  · simp only [← lowestOne_eq]
    refine gives .vctz lowestOne rfl fun a _ => lt_two_pow_of_le ?_
    rw [lowestOne_eq]
    exact List.findIdx_le_length.trans_eq List.length_range
  · simp only [← countOnes_eq]
    refine gives .vpopc countOnes rfl fun a _ => lt_two_pow_of_le ?_
    rw [countOnes_eq]
    exact (List.length_filter_le _ _).trans_eq List.length_range

end Sys2Proof.Machine
end

section
/-! SUPPORT. Integer reductions (R109). -/

namespace Sys2Proof.Machine

/-! ## Folds -/

/-- The loop of a reduction folds the active elements in order. -/
theorem foldLoop_eq (c : VCtx) (op : Nat → Nat → Nat) (src : Nat → Nat) (n e acc : Nat) :
    foldLoop c op src n e acc = (((List.range' e n).filter c.sel).map src).foldl op acc := by
  induction n generalizing e acc with
  | zero => rfl
  | succ n ih =>
    rw [foldLoop, ih, List.range'_succ, List.filter_cons]
    split <;> rfl

/-- Two operations that agree on elements of a kind, and stay within it, have one fold, of that kind. -/
theorem foldl_congr_of {α : Type} {P : α → Prop} {op op' : α → α → α}
    (hop : ∀ a b, P a → P b → op a b = op' a b ∧ P (op' a b)) {l : List α} (hl : ∀ x ∈ l, P x) {init : α} (h0 : P init) :
    l.foldl op init = l.foldl op' init ∧ P (l.foldl op' init) := by
  induction l generalizing init with
  | nil => exact ⟨rfl, h0⟩
  | cons x l ih =>
    obtain ⟨heq, hP⟩ := hop init x h0 (hl x List.mem_cons_self)
    rw [List.foldl_cons, List.foldl_cons, heq]
    exact ih (fun y hy => hl y (List.mem_cons_of_mem x hy)) hP

/-! ## The destination -/

/-- The destination of a reduction: element 0, and the tail from element 1 on (R109). -/
theorem putReduced_spec {V M : Nat → Prop} {N : Nat} {view : Hart → Nat → Nat} {enc : Nat → Nat → Nat → Nat} (c : VCtx)
    (d x : Nat) (h : Hart) (hp : PutSpec V M N N view enc (c.putVec d c.sew)) (hN : c.count = N) (h0 : 0 < N) :
    VecOnly V M h (c.putReduced d x h) ∧ (c.putReduced d x h).vec.vfflags = h.vec.vfflags
      ∧ ∀ j, j < N → view (c.putReduced d x h) j =
        if j = 0 then enc 0 x (view h 0) else if c.tail then enc j 0 (view h j) else view h j := by
  obtain ⟨only, flags, tail⟩ := zeroTail_spec hp 1 (c.putVec d c.sew 0 x h)
  have own (j : Nat) (hj : j < N) := hp.own 0 x h j h0 hj
  unfold VCtx.putReduced
  rw [hN]
  dsimp only
  split
  · next ht =>
    refine ⟨(hp.only 0 x h h0).trans only, flags.trans (hp.flags 0 x h h0), fun j hj => ?_⟩
    rw [tail j hj, own j hj]
    by_cases hj0 : j = 0
    · rw [if_neg (by omega), if_pos hj0, if_pos hj0, hj0]
    · rw [if_pos (by omega), if_neg hj0, if_neg hj0]
  · next ht =>
    refine ⟨hp.only 0 x h h0, hp.flags 0 x h h0, fun j hj => ?_⟩
    rw [own j hj]
    by_cases hj0 : j = 0
    · rw [if_pos hj0, if_pos hj0, hj0]
    · rw [if_neg hj0, if_neg hj0]

/-- Groups that coincide or share nothing pass the check of a reduction's destinations (R81). -/
theorem same_or_apart {d a g : Nat} (hd : d % g = 0) (ha : a % g = 0) :
    (d == a || !(Span.meets ⟨d, g⟩ ⟨a, g⟩)) = true := by
  unfold Span.meets
  rw [Bool.or_eq_true, beq_iff_eq, Bool.not_eq_true', Bool.and_eq_false_iff, decide_eq_false_iff_not, decide_eq_false_iff_not]
  have h := groups_apart ha hd
  dsimp only
  omega

/-- The register fields of a reduction are legal (R81). -/
theorem legalReduce_of {s : State} {w : Fld} (hg : GroupsFit s w) (hap : Apart s w (grpOf s) w.b (grpOf s)) :
    legalReduce s.hart w = true := by
  obtain ⟨hd, hb, ha⟩ := hg
  unfold legalReduce
  dsimp only
  rw [legalCross_of hd hb hap, Bool.true_and]
  by_cases hf : w.f = 0
  · have same (d : Nat) (h : Dests s w d) :
        (d == s.hart.vreg w.a || !(Span.meets ⟨d, grpHere s.hart⟩ ⟨s.hart.vreg w.a, grpHere s.hart⟩)) = true :=
      same_or_apart (hd d h) (ha hf)
    rw [span_here (ha hf), same _ (.inl rfl)]
    cases h : s.hart.dregOf with
    | none => simp
    | some r => simp [same r (.inr h)]
  · rw [decide_eq_true hf, Bool.true_or]

/-! ## The words -/

/-- The greater of two elements read as signed is the same whichever is kept when they are equal. -/
theorem maxSigned_congr {n a b : Nat} (ha : a < 2 ^ n) (hb : b < 2 ^ n) :
    (if signedOf n a ≤ signedOf n b then b else a) = if signedOf n a < signedOf n b then b else a := by
  rcases lt_trichotomy (signedOf n a) (signedOf n b) with h | h | h
  · rw [if_pos h.le, if_pos h]
  · have hab : a = b := by rw [← wrapTo_signed_of_lt ha, h, wrapTo_signed_of_lt hb]
    rw [hab, ite_self, ite_self]
  · rw [if_neg h.not_ge, if_neg h.not_gt]

/-- A reduction with an operation completes (R109). -/
def GivesFold (i : Fld → Instr) (s : State) (w : Fld) (op : Nat → Nat → Nat) : Prop :=
  GivesScalar (i w) s w (grpOf s) (widthOf s) (((actives s w true).map (elemAt s w.b)).foldl op (secondAt s w false 0)) 0

section
variable {s : State} {w : Fld} (hr : VecReady s) (hp : PrefixFits s w true true) (ht : TypeIn s fmtInt) (hg : GroupsFit s w)
  (hap : Apart s w (grpOf s) w.b (grpOf s))
include hr hp ht hg hap

/-- A reduction folds the active elements with its operation, which may be given by another that agrees on elements. -/
theorem reduceWord_gives (i : Fld → Instr) {op : Nat → Nat → Nat → Nat} {op' : Nat → Nat → Nat}
    (hi : exec (i w) s = reduceWord (i w) w op s)
    (hop : ∀ a b, a < 2 ^ widthOf s → b < 2 ^ widthOf s → op (widthOf s) a b = op' a b ∧ op' a b < 2 ^ widthOf s) :
    GivesFold i s w op' := by
  unfold GivesFold
  obtain ⟨hfold, hlt⟩ := foldl_congr_of (P := (· < 2 ^ widthOf s)) hop (l := (actives s w true).map (elemAt s w.b))
    (fun x hx => by obtain ⟨e, -, rfl⟩ := List.mem_map.mp hx; exact elemAt_lt _ _ _) (secondAt_lt ht w false 0)
  have hacc : foldLoop (ctxOf attrInt w s) (op (widthOf s)) (elemAt s w.b) (lenOf s - posOf s) (posOf s)
      (operandB s w false false (widthOf s) 0)
      = ((actives s w true).map (elemAt s w.b)).foldl op' (secondAt s w false 0) := by
    rw [foldLoop_eq, operandB_second, ← hfold,
      show (ctxOf attrInt w s).sel = activeAt s w true from funext (sel_ctxOf attrInt w s rfl)]
    rfl
  generalize ((actives s w true).map (elemAt s w.b)).foldl op' (secondAt s w false 0) = x at hacc hlt
  obtain ⟨a, hcomp, ha⟩ : ∃ a, exec (i w) s = vectorWord (i w) a s
      ∧ a s = retireVec (i w) true (s.setHart ((ctxOf attrInt w s).putReduced (s.hart.vreg w.d) x s.hart)) := by
    refine ⟨_, hi, ?_⟩
    rw [getS_bind, bind_ok _ (issue_int attrInt w _ s hr (legalReduce_of hg hap) rfl rfl hp ht (fun _ h => h)), ← hacc]
    rfl
  have dests (r : Nat) (hdr : Dests s w r) := putReduced_spec (ctxOf attrInt w s) (s.hart.vreg w.d) x s.hart
    (putSpec_dests s w (ctxOf attrInt w s) (grpOf s) (widthOf s) widthOf_ok.2 widthOf_ok.1 (grp_dvd s) rfl hg.1 r hdr) rfl
    (count_pos s)
  obtain ⟨only, hflags, -⟩ := dests _ (.inl rfl)
  obtain ⟨t, run, frame, masks, xs, flags, regs, hv⟩ := retires_regs (i w) a true hcomp hr ha only hflags
  refine ⟨t, run, frame, fun r hdr e he => ?_, fun k hk ho => regs k hk (notInDests ho), masks, xs,
    flags.trans BitVec.or_zero.symm⟩
  obtain ⟨-, -, elems⟩ := dests r hdr
  rw [elem_congr hv, elems e (lt_count_iff.mpr he), Nat.mod_eq_of_lt hlt, Nat.zero_mod]
  rfl

/-- The reductions of R109. -/
theorem reductions_give :
    GivesFold .vredsum s w (fun a b => (a + b) % 2 ^ widthOf s)
    ∧ GivesFold .vredmin s w (fun a b => if signedOf (widthOf s) b < signedOf (widthOf s) a then b else a)
    ∧ GivesFold .vredminz s w min
    ∧ GivesFold .vredmax s w (fun a b => if signedOf (widthOf s) a < signedOf (widthOf s) b then b else a)
    ∧ GivesFold .vredmaxz s w max
    ∧ GivesFold .vredand s w (· &&& ·) ∧ GivesFold .vredor s w (· ||| ·) ∧ GivesFold .vredxor s w (· ^^^ ·) := by
  have gives := @reduceWord_gives s w hr hp ht hg hap
  refine ⟨gives .vredsum (op := fun n a b => (a + b) % 2 ^ n) rfl fun a b _ _ => ⟨rfl, Nat.mod_lt _ (Nat.two_pow_pos _)⟩,
    gives .vredmin (op := fun n a b => if signedOf n a ≤ signedOf n b then a else b) rfl fun a b ha hb => ⟨?_, ?_⟩,
    gives .vredminz (op := fun _ a b => min a b) rfl fun a b ha _ => ⟨rfl, min_lt_of_left_lt ha⟩,
    gives .vredmax (op := fun n a b => if signedOf n a ≤ signedOf n b then b else a) rfl
      fun a b ha hb => ⟨maxSigned_congr ha hb, ?_⟩,
    gives .vredmaxz (op := fun _ a b => max a b) rfl fun a b ha hb => ⟨rfl, max_lt ha hb⟩,
    gives .vredand (op := fun _ a b => a &&& b) rfl fun a b _ hb => ⟨rfl, Nat.and_lt_two_pow _ hb⟩,
    gives .vredor (op := fun _ a b => a ||| b) rfl fun a b ha hb => ⟨rfl, Nat.or_lt_two_pow ha hb⟩,
    gives .vredxor (op := fun _ a b => a ^^^ b) rfl fun a b ha hb => ⟨rfl, Nat.xor_lt_two_pow ha hb⟩⟩
  · simp only [← not_lt, ite_not]
  · split <;> assumption
  · split <;> assumption

end

/-- Settles O15: each reduction is `reduceWord` of an operation that agrees with R109's on elements. -/
theorem integerReductions : Obligations.IntegerReductions :=
  fun _ _ hr hp ht _ hg hap => reductions_give hr hp ht hg hap

end Sys2Proof.Machine
end

section
/-! SUPPORT. A vexpd that resumes above VL: R102 has the whole tail follow TAIL, which the clause of O13 on vexpd does not
say of the elements below VELEM. -/

namespace Sys2Proof.Machine

/-- vexpd v2, v1, m1. -/
def expandOne : Fld := { k := 1, t := 0, f := 3, b := 1, a := 0, d := 2 }

/-- Hart 0 with 64-bit integers, VL = 0, VELEM = 1 and TAIL = 1; element 0 of every vector register is 1. -/
def pastLength : State :=
  { harts := [(0, { vec := { vtype := 0xA0003, vl := 0, velem := 1, v := .replicate 32 1 } })] }

theorem pastLength_ready : VecReady pastLength := ⟨by decide, rfl, rfl, rfl⟩

theorem pastLength_type : TypeIn pastLength fmtInt := ⟨by decide, by decide⟩

theorem pastLength_width : widthOf pastLength = 64 := by decide

theorem pastLength_length : LengthOk pastLength.hart := Nat.zero_le _

/-- VPFX.V is 0, so v2 alone is a destination. -/
theorem pastLength_dests {r : Nat} (h : Dests pastLength expandOne r) : r = 2 :=
  h.resolve_right fun hd => absurd (hd.symm.trans (by decide : pastLength.hart.dregOf = none)) (Option.some_ne_none _)

theorem pastLength_prefixFits (dcv pred : Bool) : PrefixFits pastLength expandOne dcv pred :=
  fun h => absurd h (by decide)

theorem pastLength_elem : pastLength.hart.elem 2 64 0 = 1 := by decide +kernel

/-- vexpd zeroes the tail from VL on (R102): element 0 of v2 too. -/
theorem pastLength_vexpd : ∃ t, exec (.vexpd expandOne) pastLength = .next t ∧ t.hart.elem 2 64 0 = 0 :=
  ⟨_, rfl, by decide +kernel⟩

/-- Refutes O13: `execVexpd` zeroes the tail from VL on, as the listing of R102 has it; the clause on vexpd keeps every element
below VELEM. In `pastLength` VELEM is 1 and VL is 0, so element 0 of v2 becomes 0, where the clause asks for the 1 it held. -/
theorem not_packsAndWidths : ¬ Obligations.PacksAndWidths := by
  rintro ⟨packs, -, -⟩
  obtain ⟨selected, -⟩ := packs pastLength expandOne pastLength_ready pastLength_type pastLength_length
    (fun r hr => by rw [pastLength_dests hr]; decide) (by unfold SourceFits; decide)
    (fun r hr => by rw [pastLength_dests hr]; decide)
  obtain ⟨-, t, ht, -, elems, -⟩ := selected (pastLength_prefixFits _ _)
  obtain ⟨u, hu, hzero⟩ := pastLength_vexpd
  have e : u = t := by
    rw [hu] at ht
    injection ht
  have kept := elems 2 (.inl rfl) 0 (by decide)
  rw [pastLength_width, ← e, hzero] at kept
  exact absurd ((kept.trans (if_pos (by decide))).trans pastLength_elem) (by decide)

end Sys2Proof.Machine
end

section
/-! SUPPORT. The element-wise floating words (R111-R119, R122): each is a shared form with its function on codes. -/

namespace Sys2Proof.Machine

/-! ## Signs (R116) -/

/-- A floating element is as wide as its format (R20, R34). -/
theorem width_floatFmt {s : State} (ht : TypeIn s fmtFloat) : (floatFmt (vtFmt s.hart.vec.vtype)).width = widthOf s := by
  obtain ⟨-, hf⟩ := ht
  unfold widthOf
  generalize vtFmt s.hart.vec.vtype = f at hf
  have hcases : f = 4 ∨ f = 5 ∨ f = 6 ∨ f = 7 := by
    simp only [fmtFloat, Bool.and_eq_true, decide_eq_true_eq] at hf
    omega
  rcases hcases with rfl | rfl | rfl | rfl <;> rfl

/-- A code of width `n` with another sign. -/
def withSign (n x : Nat) (neg : Bool) : Nat := x % 2 ^ (n - 1) + if neg then 2 ^ (n - 1) else 0

theorem withSign_eq (n x : Nat) (neg : Bool) : withSign n x neg = x % 2 ^ (n - 1) + neg.toNat * 2 ^ (n - 1) := by
  cases neg <;> simp [withSign]

theorem signInject_copy (n a b : Nat) : signInject n 0 a b = withSign n a (b.testBit (n - 1)) := by
  rw [withSign_eq, Nat.toNat_testBit]
  rfl

theorem signInject_inverse (n a b : Nat) : signInject n 1 a b = withSign n a !(b.testBit (n - 1)) := by
  have hnot (p : Bool) : (!p).toNat = 1 - p.toNat := by cases p <;> rfl
  rw [withSign_eq, hnot, Nat.toNat_testBit]
  rfl

theorem signInject_xor (n a b : Nat) :
    signInject n 2 a b = withSign n a (xor (a.testBit (n - 1)) (b.testBit (n - 1))) := by
  have hxor (p q : Bool) : (xor p q).toNat = (p.toNat + q.toNat) % 2 := by cases p <;> cases q <;> rfl
  rw [withSign_eq, hxor, Nat.toNat_testBit, Nat.toNat_testBit]
  rfl

/-! ## Minimum and maximum (R115) -/

/-- Whether the first of two numbers is the lesser, −0 being below +0. -/
def FVal.least (x y : FVal) : Bool := x.lt y || (x.eq y && x.neg && !y.neg)

/-- The code that vfmin or vfmax chooses of two: `first` says which of two numbers it is. -/
def pickCode (f : FloatFmt) (a b : Nat) (first : Bool) : Nat :=
  if (decodeFloat f a).isNan && (decodeFloat f b).isNan then f.nanCode
  else if (decodeFloat f a).isNan then b else if (decodeFloat f b).isNan then a else if first then a else b

theorem minMaxFloat_eq (f : FloatFmt) (wantMax : Bool) (a b : Nat) : minMaxFloat f wantMax a b =
    (pickCode f a b ((decodeFloat f a).least (decodeFloat f b) != wantMax),
      evNV.when ((decodeFloat f a).isSig || (decodeFloat f b).isSig)) := by
  unfold minMaxFloat pickCode FVal.least
  dsimp only
  split_ifs <;> rfl

/-! ## Compares (R118) -/

/-- The relation of a compare on two numbers: equal, less, less or equal. -/
def FVal.related : Nat → FVal → FVal → Bool
  | 0, x, y => x.eq y
  | 1, x, y => x.lt y
  | _, x, y => x.lt y || x.eq y

/-- Whether a compare is invalid: a test for equality only for a signalling NaN, an order for any. -/
def FVal.incomparable : Nat → FVal → FVal → Bool
  | 0, x, y => x.isSig || y.isSig
  | _, x, y => x.isNan || y.isNan

theorem isSig_of_not_nan {x : FVal} (h : x.isNan = false) : x.isSig = false :=
  Bool.eq_false_iff.mpr fun hs => Bool.eq_false_iff.mp h (isNan_of_isSig hs)

theorem compareFloat_eq (f : FloatFmt) (op a b : Nat) : compareFloat f op a b =
    (!((decodeFloat f a).isNan || (decodeFloat f b).isNan) && (decodeFloat f a).related op (decodeFloat f b),
      evNV.when ((decodeFloat f a).incomparable op (decodeFloat f b))) := by
  unfold compareFloat
  generalize decodeFloat f a = x
  generalize decodeFloat f b = y
  dsimp only
  cases hn : x.isNan || y.isNan with
  | true =>
    rcases op with _ | op
    · rfl
    · rw [show x.incomparable (op + 1) y = true from hn]
      rfl
  | false =>
    obtain ⟨hx, hy⟩ := Bool.or_eq_false_iff.mp hn
    rcases op with _ | _ | op
    · rw [show x.incomparable 0 y = false from Bool.or_eq_false_iff.mpr ⟨isSig_of_not_nan hx, isSig_of_not_nan hy⟩]
      rfl
    · rw [show x.incomparable 1 y = false from hn]
      rfl
    · rw [show x.incomparable (op + 2) y = false from hn]
      rfl

/-- The checks at issue of a typed word that heeds a pending pfx and moves no MX blocks. -/
theorem issue_typed (a : Attr) (w : Fld) (legal : Bool) (s : State) (hr : VecReady s) (hl : legal = true)
    (htakes : a.takes = true) (htyped : a.typed = true) (hel : a.elementwise = false) (hbl : a.blocks = false)
    (hp : PrefixFits s w a.dcv (a.msk == .predicate)) (ht : TypeIn s a.fmts) : issue a w legal s = .ok (ctxOf a w s) s :=
  issue_ok a w legal s hr hl (fun h => by rw [htakes] at h; cases h) (fun _ => hp) (fun _ => ht)
    (fun _ h => by rw [hel] at h; cases h) (fun h => by rw [hbl] at h; cases h) (fun h => by rw [htyped] at h; cases h)

/-- vs1 of form VV in the grouping obeys R17. -/
theorem spanB_here {s : State} {w : Fld} (ha : w.f = 0 → SourceFits s w.a (grpOf s)) :
    spanB s.hart w (grpHere s.hart) = true := by
  unfold spanB
  by_cases hf : w.f = 0
  · rw [span_here (ha hf), Bool.or_true]
  · rw [decide_eq_true hf, Bool.true_or]

/-- The outcome of a compare for element `e`, with its events. -/
def comparedAt (s : State) (w : Fld) (op e : Nat) : Bool × Ev :=
  compareFloat (floatFmt (vtFmt s.hart.vec.vtype)) op (elemAt s w.b e) (secondFloat s w e)

/-- A floating compare writes its outcomes to a mask. -/
theorem floatCompare_gives {s : State} {w : Fld} (i : Fld → Instr) (op : Nat) (hi : exec (i w) s = floatCompare (i w) w op s)
    (hr : VecReady s) (hp : PrefixFits s w false true) (ht : TypeIn s fmtFloat) (hb : SourceFits s w.b (grpOf s))
    (ha : w.f = 0 → SourceFits s w.a (grpOf s)) (hn : NoTrap s (activeAt s w true) (fun e => (comparedAt s w op e).2)) :
    WritesMask (i w) s w.d.toNat true (activeAt s w true) (fun e => (comparedAt s w op e).1)
      (fun e => (comparedAt s w op e).2) := by
  refine writesMask_of (i w) w.d.toNat _ hi hr (ctxOf_for { attrFloat with dcv := false } w s hr rfl)
    (fun e => withEvents s.hart ((comparedAt s w op e).1.toNat, (comparedAt s w op e).2)) _ _ ?_
    (fun e hpos hlen hact => withEvents_ok (hn e hpos hlen hact))
  rw [getS_bind, bind_ok _ (issue_typed { attrFloat with dcv := false } w _ s hr
    (by rw [span_here hb, spanB_here ha]; rfl) rfl rfl rfl rfl hp ht)]
  simp only [show (ctxOf { attrFloat with dcv := false } w s).sew = widthOf s from rfl, operandB_float]
  rfl

/-! ## The statements -/

/-- Settles O16: each word is `floatWord` of its function on values. -/
theorem floatArithmetic : Obligations.FloatArithmetic := by
  intro s w hr hp ht hl hg r a b c
  have gives := fun i op hi => floatWord_gives (s := s) (w := w) i op hi hr hp ht hl hg
  exact ⟨gives .vfadd (onVals addVal) rfl, gives .vfsub (onVals fun r a b => addVal r a b.negate) rfl,
    gives .vfmul (onVals mulVal) rfl, gives .vfdiv (onVals divVal) rfl, gives .vfmadd (onFused false false) rfl,
    gives .vfmsub (onFused false true) rfl, gives .vfnmadd (onFused true true) rfl, gives .vfnmsub (onFused true false) rfl⟩

/-- Settles O17: vfmin and vfmax choose a code (`pickCode`), the sign injections change one bit of it (`withSign`). -/
theorem floatSelect : Obligations.FloatSelect := by
  intro s w hr hp ht hl hg a b n sign signed va vb nv least pick
  have gives := fun i op hi => floatWord_gives (s := s) (w := w) i op hi hr hp ht hl hg
  have hmin := gives .vfmin (fun r a b _ => minMaxFloat r.fmt false a b) rfl
  have hmax := gives .vfmax (fun r a b _ => minMaxFloat r.fmt true a b) rfl
  have hcopy := gives .vfsgnj (fun r a b _ => (signInject r.fmt.width 0 a b, 0)) rfl
  have hinverse := gives .vfsgnjn (fun r a b _ => (signInject r.fmt.width 1 a b, 0)) rfl
  have hxor := gives .vfsgnjx (fun r a b _ => (signInject r.fmt.width 2 a b, 0)) rfl
  simp only [minMaxFloat_eq, Bool.bne_false, Bool.bne_true] at hmin hmax
  simp only [roundingOf, width_floatFmt ht, signInject_copy, signInject_inverse, signInject_xor] at hcopy hinverse hxor
  exact ⟨hmin, hmax, hcopy, hinverse, hxor⟩

/-- Settles O18: a compare is `floatCompare` of its relation, the other words are `floatUnary` of their function. -/
theorem floatComparesAndUnary : Obligations.FloatComparesAndUnary := by
  refine ⟨fun s w hr hp ht hb ha => ?_, fun s w hr hp ht hl hd hb => ?_⟩
  · intro a b nan sig gives
    have compares := fun i op hi => floatCompare_gives (s := s) (w := w) i op hi hr hp ht hb ha
    simp only [comparedAt, compareFloat_eq] at compares
    exact ⟨compares .vfceq 0 rfl, compares .vfclt 1 rfl, compares .vfcle 2 rfl⟩
  · intro fmt r a mode
    have gives := fun i op hi => floatUnary_gives (s := s) (w := w) i op hi hr hp ht hl hd hb
    exact ⟨gives .vfsqrt (fun r a => sqrtVal r (decodeFloat r.fmt a)) rfl,
      gives .vfclass (fun r a => (classFloat r.fmt a, 0)) rfl,
      gives .vfrec (fun r a => recipVal r (decodeFloat r.fmt a)) rfl,
      gives .vfrsq (fun r a => rsqrtVal r (decodeFloat r.fmt a)) rfl,
      gives .vfexp2 (fun r a => exp2Val r (decodeFloat r.fmt a)) rfl,
      gives .vfround (fun r a => roundIntegral r.fmt (if w.a.toNat % 8 = 7 then r.rm else w.a.toNat % 8) a) rfl⟩

end Sys2Proof.Machine
end

section
/-! SUPPORT. vfcvt (R120, R121): the group of its source, which has another element width. -/

namespace Sys2Proof.Machine

/-- An element width is a power of two (R20). -/
theorem sewOf_eq_pow (f : Nat) : ∃ k, sewOf f = 2 ^ k := by
  refine ⟨Nat.log2 (sewOf f), ?_⟩
  unfold sewOf
  split <;> decide

/-- The registers of vfcvt's source group (R121). -/
def convertRegs (s : State) (w : Fld) : Nat := max 1 (grpOf s * sewOf (w.a.toNat % 16) / widthOf s)

/-- A quotient of powers of two, but at least 1, is one. -/
theorem max_one_pow_div (a b : Nat) : max 1 (2 ^ a / 2 ^ b) = 2 ^ (a - b) := by
  by_cases h : b ≤ a
  · rw [Nat.pow_div h (by decide), max_eq_right Nat.one_le_two_pow]
  · rw [Nat.div_eq_of_lt (Nat.pow_lt_pow_right (by decide) (by omega)), Nat.sub_eq_zero_of_le (by omega)]
    rfl

/-- A source group of at most 8 registers that begins at a multiple of its size ends by v31. -/
theorem convertRegs_dvd {s : State} {w : Fld} (h8 : convertRegs s w ≤ 8) : convertRegs s w ∣ 32 := by
  obtain ⟨a, ha⟩ := sewOf_eq_pow (w.a.toNat % 16)
  obtain ⟨b, hb⟩ : ∃ b, widthOf s = 2 ^ b := sewOf_eq_pow _
  have hpow : convertRegs s w = 2 ^ (fieldOf s.hart.vec.vtype 4 2 + a - b) := by
    unfold convertRegs grpOf vtGrp
    rw [ha, hb, ← Nat.pow_add, max_one_pow_div]
  rw [hpow] at h8 ⊢
  have hk := (Nat.pow_le_pow_iff_right (a := 2) (m := 3) (by decide)).mp h8
  exact Nat.pow_dvd_pow 2 (n := 5) (hk.trans (by decide))

/-- Register runs apart do not meet. -/
theorem meets_of_apart {a b m n : Nat} (h : a + m ≤ b ∨ b + n ≤ a) : Span.meets ⟨a, m⟩ ⟨b, n⟩ = false := by
  unfold Span.meets
  rw [Bool.and_eq_false_iff, decide_eq_false_iff_not, decide_eq_false_iff_not]
  dsimp only
  omega

/-- The element that vfcvt makes of element `e`, with its events (R120). -/
def convertedAt (s : State) (w : Fld) (e : Nat) : Nat × Ev :=
  convertElem (roundingOf s (vtFmt s.hart.vec.vtype)) (w.a.toNat % 16) (vtFmt s.hart.vec.vtype) (bitOf w.a 4)
    (elemIn s w.b (sewOf (w.a.toNat % 16)) e)

/-- vfcvt converts each active element. -/
theorem vfcvt_gives {s : State} {w : Fld} (hr : VecReady s) (hp : PrefixFits s w true true) (ht : TypeIn s fmtInt)
    (hl : LengthOk s.hart) (hd : DestsFit s w (grpOf s)) (hf : 4 ≤ w.a.toNat % 16 ∨ 4 ≤ vtFmt s.hart.vec.vtype)
    (h8 : convertRegs s w ≤ 8) (hb : SourceFits s w.b (convertRegs s w))
    (hap : sewOf (w.a.toNat % 16) = widthOf s ∨ s.hart.vreg w.d + grpOf s ≤ s.hart.vreg w.b
      ∨ s.hart.vreg w.b + convertRegs s w ≤ s.hart.vreg w.d) :
    GivesFloat .vfcvt s w (convertedAt s w) := by
  have hover : (sewOf (w.a.toNat % 16) == widthOf s
      || !(Span.meets ⟨s.hart.vreg w.d, grpOf s⟩ ⟨s.hart.vreg w.b, convertRegs s w⟩)) = true := by
    rw [Bool.or_eq_true, beq_iff_eq, Bool.not_eq_true']
    exact hap.imp_right meets_of_apart
  have hleg : (decide (convertRegs s w ≤ 8) && destOk s.hart ⟨s.hart.vreg w.d, grpOf s⟩
      && (Span.mk (s.hart.vreg w.b) (convertRegs s w)).ok && (sewOf (w.a.toNat % 16) == widthOf s
        || !(Span.meets ⟨s.hart.vreg w.d, grpOf s⟩ ⟨s.hart.vreg w.b, convertRegs s w⟩))) = true := by
    rw [decide_eq_true h8, destOk_of (grp_dvd s) hd, span_ok (convertRegs_dvd h8) hb (vreg_lt _ _), hover]
    rfl
  refine float_gives .vfcvt attrInt _ _ rfl rfl rfl hr ht hl hd ?_
  have hclass : (decide (4 ≤ w.a.toNat % 16) || decide (4 ≤ vtFmt s.hart.vec.vtype)) = true := by
    rw [Bool.or_eq_true, decide_eq_true_eq, decide_eq_true_eq]
    exact hf
  exact (bind_ok _ (issue_typed attrInt w _ s hr hleg rfl rfl rfl rfl hp ht)).trans (ensure_bind _ _ _ hclass)

end Sys2Proof.Machine
end

section
/-! SUPPORT. Words that write element 0 of their destinations and raise flags: the reductions of floating-point elements (R123,
R124), and later the planar dot product (R131). -/

namespace Sys2Proof.Machine

/-! ## The destination -/

/-- A word that writes `x` to element 0 of its destinations, has the tail follow TAIL, raises `ev` and retires. -/
theorem putReduced_gives {s : State} {w : Fld} {c : VCtx} (i : Instr) (a : Act Unit) (x : Nat) (ev : Ev)
    (hi : exec i s = vectorWord i a s) (hr : VecReady s) (hdr : c.dreg = s.hart.dregOf)
    (ht : c.tail = vtTail s.hart.vec.vtype) (hg : c.grp ∣ 32) (hn : c.sew ∣ 8192) (hd : DestsFit s w c.grp)
    (ha : a s = retireVec i true (s.setHart ((c.putReduced (s.hart.vreg w.d) x s.hart).addFlags ev))) :
    GivesScalar i s w c.grp c.sew (x % 2 ^ c.sew) ev := by
  have hsew : 0 < c.sew := Nat.pos_of_dvd_of_pos hn (by decide)
  have hgrp : 0 < c.grp := Nat.pos_of_dvd_of_pos hg (by decide)
  have hcount : 0 < c.count := Nat.div_pos (by have := Nat.le_of_dvd (by decide) hn; omega) hsew
  have dests (r : Nat) (hdr' : Dests s w r) := putReduced_spec c (s.hart.vreg w.d) x s.hart
    (putSpec_dests s w c c.grp c.sew hn hsew hg hdr hd r hdr') rfl hcount
  obtain ⟨only, hflags, -⟩ := dests _ (.inl rfl)
  obtain ⟨honly, hx, hshadow⟩ := (only.trans (vecOnly_addFlags _ _ _ ev)).hartOnly
  obtain ⟨t, retired, frame, hv, hm, hx', hshadow', hf⟩ := retireVec_spec i true s _ honly
  refine ⟨settleReads s.cur 0 t, ?_, frame, fun r hdr' e he => ?_, fun k hk ho => ?_, ?_,
    ⟨hx'.trans hx, hshadow'.trans hshadow⟩, hf.trans (congrArg (· ||| ev) hflags)⟩
  · rw [hi, vectorWord_ready hr]
    exact runAct_ok (ha.trans retired)
  · obtain ⟨-, -, elems⟩ := dests r hdr'
    have hlt : e < 8192 * c.grp / c.sew := by
      rw [Nat.lt_div_iff_mul_lt_of_dvd hsew.ne' (Dvd.dvd.mul_right hn _)]
      exact he
    rw [settleReads_hart, elem_congr hv]
    exact (elems e hlt).trans (by rw [Nat.zero_mod, ht])
  · rw [settleReads_hart]
    simp only [hv]
    exact only.regs k hk (notInDests ho)
  · rw [MasksKept, settleReads_hart, hm]
    exact Vector.ext fun k hk => only.masks k hk id

/-! ## Folds with events -/

theorem mem_actives {s : State} {w : Fld} {pred : Bool} {e : Nat} :
    e ∈ actives s w pred ↔ posOf s ≤ e ∧ e < lenOf s ∧ activeAt s w pred e = true := by
  unfold actives
  rw [List.mem_filter, List.mem_range'_1]
  exact ⟨fun ⟨⟨hpos, hlen⟩, hact⟩ => ⟨hpos, by omega, hact⟩, fun ⟨hpos, hlen, hact⟩ => ⟨⟨hpos, by omega⟩, hact⟩⟩

/-- A step of a fold with events. -/
def eventStep (op : Nat → Nat → Nat × Ev) (p : Nat × Ev) (x : Nat) : Nat × Ev := ((op p.1 x).1, p.2 ||| (op p.1 x).2)

/-- Of two sets of events none is enabled where none is of their union. -/
theorem and_or_eq_zero {x a b : Ev} (h : x &&& (a ||| b) = 0) : x &&& a = 0 ∧ x &&& b = 0 :=
  BitVec.or_eq_zero_iff.mp (BitVec.and_or_distrib_left.symm.trans h)

/-- A fold keeps the events it begins with. -/
theorem trap_foldl {op : Nat → Nat → Nat × Ev} {x : Ev} {l : List Nat} {p : Nat × Ev}
    (h : x &&& (l.foldl (eventStep op) p).2 = 0) : x &&& p.2 = 0 := by
  induction l generalizing p with
  | nil => exact h
  | cons y l ih => exact (and_or_eq_zero (ih h)).1

/-- The ordered fold of vfredsum stops at no element where VFTRAP enables none of its events. -/
theorem orderedFold_eq {c : VCtx} {h : Hart} {add : Nat → Nat → Nat × Ev} {src : Nat → Nat} {n e acc : Nat} {ev : Ev}
    (hb : ∀ j, j < e + n → e ≤ j → j < c.bound)
    (hn : h.vec.vftrap &&& ((((List.range' e n).filter c.sel).map src).foldl (eventStep add) (acc, ev)).2 = 0) :
    orderedFold c h add src n e acc ev =
      (((((List.range' e n).filter c.sel).map src).foldl (eventStep add) (acc, ev)).1,
        ((((List.range' e n).filter c.sel).map src).foldl (eventStep add) (acc, ev)).2, none) := by
  induction n generalizing e acc ev with
  | zero => rfl
  | succ n ih =>
    rw [List.range'_succ, List.filter_cons] at hn ⊢
    unfold orderedFold
    rw [if_neg (hb e (by omega) le_rfl).not_ge]
    by_cases hsel : c.sel e = true
    · simp only [hsel, if_true, List.map_cons, List.foldl_cons] at hn ⊢
      have hquiet : h.trapping (add acc (src e)).2 = 0 := (and_or_eq_zero (trap_foldl hn)).2
      rw [if_pos hquiet]
      exact ih (fun j hj he => hb j (by omega) (by omega)) hn
    · simp only [if_neg hsel] at hn ⊢
      exact ih (fun j hj he => hb j (by omega) (by omega)) hn

theorem minMaxFold_eq (c : VCtx) (wantMax : Bool) (src : Nat → Nat) (n e acc : Nat) (ev : Ev) :
    minMaxFold c wantMax src n e acc ev =
      (((List.range' e n).filter c.sel).map src).foldl (eventStep (minMaxFloat (floatFmt c.fmt) wantMax)) (acc, ev) := by
  induction n generalizing e acc ev with
  | zero => rfl
  | succ n ih =>
    rw [minMaxFold, List.range'_succ, List.filter_cons]
    split
    · exact ih _ _ _
    · exact ih _ _ _

/-! ## The reductions -/

section
variable {s : State} {w : Fld} (hr : VecReady s) (hp : PrefixFits s w true true) (ht : TypeIn s fmtFloat) (hf : ReduceFits s w)
include hr hp ht hf

/-- The issue of a reduction of floating-point elements. -/
theorem issue_reduce : issue attrFloat w (legalReduce s.hart w) s = .ok (ctxOf attrFloat w s) s :=
  issue_typed attrFloat w _ s hr (legalReduce_of hf.1 hf.2) rfl rfl rfl rfl hp ht

/-- A reduction that never stops part-way writes its fold. -/
theorem floatReduce_gives (i : Fld → Instr) {fold : VCtx → (Nat → Nat) → Nat → Nat × Ev} {p : Nat × Ev}
    (hi : exec (i w) s = floatReduce (i w) w fold s)
    (hfold : fold (ctxOf attrFloat w s) (elemAt s w.b) (secondFloat s w 0) = p) (hn : s.hart.vec.vftrap &&& p.2 = 0) :
    GivesScalar (i w) s w (grpOf s) (widthOf s) (p.1 % 2 ^ widthOf s) p.2 := by
  refine putReduced_gives (c := ctxOf attrFloat w s) (i w) _ p.1 p.2 hi hr rfl rfl (grp_dvd s) widthOf_ok.2 hf.1.1 ?_
  rw [getS_bind, bind_ok _ (issue_reduce hr hp ht hf)]
  simp only [show (ctxOf attrFloat w s).sew = widthOf s from rfl, operandB_float]
  rw [show fold (ctxOf attrFloat w s) (fun e => s.hart.elem (s.hart.vreg w.b) (widthOf s) e) (secondFloat s w 0) = p from hfold]
  exact ensure_bind _ _ _ (decide_eq_true hn)

/-- vfredsum adds the active elements in order (R43, R123). -/
theorem vfredsum_gives {p : Nat × Ev}
    (hfold : foldEvents (addCodes (roundingOf s (vtFmt s.hart.vec.vtype)))
      (if posOf s = 0 then secondFloat s w 0 else elemAt s w.d 0) ((actives s w true).map (elemAt s w.b)) = p)
    (hn : s.hart.vec.vftrap &&& p.2 = 0) :
    GivesScalar (.vfredsum w) s w (grpOf s) (widthOf s) (p.1 % 2 ^ widthOf s) p.2 := by
  subst hfold
  refine putReduced_gives (c := ctxOf attrFloat w s) (.vfredsum w) _ _ _ rfl hr rfl rfl (grp_dvd s) widthOf_ok.2 hf.1.1 ?_
  have hsel : (ctxOf attrFloat w s).sel = activeAt s w true := funext (sel_ctxOf attrFloat w s rfl)
  have hwhole (j : Nat) (hj : j < posOf s + (lenOf s - posOf s)) (hpos : posOf s ≤ j) : j < (ctxOf attrFloat w s).bound := by
    have := (ctxOf_for attrFloat w s hr rfl).whole
    omega
  have hsum := orderedFold_eq (h := s.hart) (src := elemAt s w.b) hwhole (by rw [hsel]; exact hn)
  rw [hsel] at hsum
  rw [getS_bind, bind_ok _ (issue_reduce hr hp ht hf)]
  simp only [show (ctxOf attrFloat w s).sew = widthOf s from rfl, operandB_float]
  rw [show orderedFold (ctxOf attrFloat w s) s.hart (addCodes ((ctxOf attrFloat w s).rounding (ctxOf attrFloat w s).fmt))
    (fun e => s.hart.elem (s.hart.vreg w.b) (widthOf s) e) ((ctxOf attrFloat w s).vl - (ctxOf attrFloat w s).velem)
    (ctxOf attrFloat w s).velem (if (ctxOf attrFloat w s).velem = 0 then secondFloat s w 0 else
      s.hart.elem (s.hart.vreg w.d) (widthOf s) 0) 0 = _ from hsum]
  rfl

/-- vfredtree adds the active elements over the canonical tree (R44, R123). -/
theorem vfredtree_gives {p : Nat × Ev}
    (hfold : canonicalSum (addCodes (roundingOf s (vtFmt s.hart.vec.vtype)))
      (fun e => if e ∈ actives s w true then some (elemAt s w.b e) else none) (ceilLog2 (lenOf s)) (secondFloat s w 0) = p)
    (hn : s.hart.vec.vftrap &&& p.2 = 0) :
    GivesScalar (.vfredtree w) s w (grpOf s) (widthOf s) (p.1 % 2 ^ widthOf s) p.2 := by
  refine floatReduce_gives hr hp ht hf .vfredtree (fold := fun c src init =>
    canonicalSum (addCodes (c.rounding c.fmt))
      (fun e => if c.velem ≤ e && e < c.vl && c.sel e then some (src e) else none) (ceilLog2 c.vl) init) rfl ?_ hn
  rw [← hfold]
  refine congrArg (fun leaf => canonicalSum _ leaf _ _) (funext fun e => if_congr ?_ rfl rfl)
  rw [mem_actives, Bool.and_eq_true, Bool.and_eq_true, decide_eq_true_eq, decide_eq_true_eq,
    sel_ctxOf attrFloat w s rfl, and_assoc]
  rfl

/-- vfredmin and vfredmax fold the active elements with minima or maxima (R123). -/
theorem minMaxReduce_gives (i : Fld → Instr) (wantMax : Bool)
    (hi : exec (i w) s = floatReduce (i w) w (fun c src init => minMaxFold c wantMax src (c.vl - c.velem) c.velem init 0) s)
    {p : Nat × Ev} (hfold : foldEvents (minMaxFloat (floatFmt (vtFmt s.hart.vec.vtype)) wantMax) (secondFloat s w 0)
      ((actives s w true).map (elemAt s w.b)) = p)
    (hn : s.hart.vec.vftrap &&& p.2 = 0) :
    GivesScalar (i w) s w (grpOf s) (widthOf s) (p.1 % 2 ^ widthOf s) p.2 := by
  refine floatReduce_gives hr hp ht hf i hi ?_ hn
  rw [minMaxFold_eq, show (ctxOf attrFloat w s).sel = activeAt s w true from funext (sel_ctxOf attrFloat w s rfl), ← hfold]
  rfl

end

/-- Settles O19: vfcvt converts element by element; the reductions write the result of their fold, `orderedFold`, `canonicalSum` or
`minMaxFold`, over the active elements. -/
theorem floatConversionsAndReductions : Obligations.FloatConversionsAndReductions :=
  ⟨fun _ _ hr hp ht hl hd hclass h8 hb hap => vfcvt_gives hr hp ht hl hd hclass h8 hb hap,
    fun _ _ hr hp ht _ hf => ⟨vfredsum_gives hr hp ht hf rfl, vfredtree_gives hr hp ht hf rfl,
      minMaxReduce_gives hr hp ht hf .vfredmin false rfl rfl, minMaxReduce_gives hr hp ht hf .vfredmax true rfl rfl⟩⟩

end Sys2Proof.Machine
end

section
/-! SUPPORT. Planar elements (R42): the bits of a plane, an element read after an element is written, and the checks of planar
register runs (R129). -/

namespace Sys2Proof.Machine

/-! ## Elements in planes -/

theorem planar_lt (h : Hart) (r e n : Nat) : h.planar r e n < 2 ^ n := by
  induction n with
  | zero => exact Nat.one_pos
  | succ n ih =>
    have hbit := Nat.mul_le_mul_right (2 ^ n) (Bool.toNat_le (bitOf (h.vec.v[(r + n) % 32]'(Nat.mod_lt _ (by decide))) e))
    rw [Hart.planar, Nat.pow_succ]
    omega

/-- Bit `k` of a planar element stands in plane `k`. -/
theorem testBit_planar (h : Hart) (r e n k : Nat) : (h.planar r e n).testBit k =
    (decide (k < n) && bitOf (h.vec.v[(r + k) % 32]'(Nat.mod_lt _ (by decide))) e) := by
  induction n with
  | zero => simp [Hart.planar]
  | succ n ih =>
    rw [Hart.planar, Nat.add_comm, Nat.mul_comm, Nat.testBit_two_pow_mul_add _ (planar_lt h r e n)]
    rcases lt_trichotomy k n with hk | rfl | hk
    · rw [if_pos hk, ih, decide_eq_true hk, decide_eq_true (by omega : k < n + 1)]
    · rw [if_neg (lt_irrefl k), Nat.sub_self, decide_eq_true (Nat.lt_succ_self k), Bool.true_and]
      cases bitOf (h.vec.v[(r + k) % 32]'(Nat.mod_lt _ (by decide))) e <;> rfl
    · rw [if_neg hk.not_gt, decide_eq_false (by omega : ¬ k < n + 1), Bool.false_and]
      refine Nat.testBit_lt_two_pow ((Bool.toNat_lt _).trans_le ?_)
      exact Nat.pow_le_pow_right (by decide : 0 < 2) (by omega : 1 ≤ k - n)

/-- The value of a planar element depends on the vector registers only. -/
theorem planar_congr {h h' : Hart} (e : h.vec.v = h'.vec.v) (r j n : Nat) : h.planar r j n = h'.planar r j n :=
  Nat.eq_of_testBit_eq fun k => by simp only [testBit_planar, e]

theorem planar_addFlags (h : Hart) (ev : Ev) (r j n : Nat) : (h.addFlags ev).planar r j n = h.planar r j n :=
  planar_congr (h := h.addFlags ev) (h' := h) rfl r j n

theorem setPlanar_eq (r e x n : Nat) (h : Hart) :
    Hart.setPlanar r e x n h = { h with vec := { h.vec with v := (Hart.setPlanar r e x n h).vec.v } } := by
  induction n with
  | zero => rfl
  | succ n ih =>
    unfold Hart.setPlanar
    rw [ih]

theorem setPlanar_vfflags (r e x n : Nat) (h : Hart) : (Hart.setPlanar r e x n h).vec.vfflags = h.vec.vfflags := by
  rw [setPlanar_eq]

/-- A planar write sets one bit of each of its planes. -/
theorem setPlanar_getElem (r e x n : Nat) (h : Hart) (hr : r + n ≤ 32) (i : Nat) (hi : i < 32) :
    (Hart.setPlanar r e x n h).vec.v[i] =
      if r ≤ i ∧ i < r + n then setBit h.vec.v[i] e (x.testBit (i - r)) else h.vec.v[i] := by
  induction n with
  | zero => rw [if_neg (by omega)]; rfl
  | succ n ih =>
    have hmod : (r + n) % 32 = r + n := Nat.mod_eq_of_lt (by omega)
    unfold Hart.setPlanar
    simp only [hmod]
    by_cases hlast : i = r + n
    · subst hlast
      rw [Vector.getElem_set_self, ih (by omega), if_neg (by omega), if_pos (by omega), Nat.add_sub_cancel_left,
        Nat.testBit_eq_decide_div_mod_eq]
    · have hiff : (r ≤ i ∧ i < r + (n + 1)) ↔ (r ≤ i ∧ i < r + n) := by omega
      rw [Vector.getElem_set_ne _ _ (Ne.symm hlast), ih (by omega)]
      simp only [hiff]

theorem vecOnly_setPlanar (M : Nat → Prop) (r e x n : Nat) (h : Hart) (hr : r + n ≤ 32) :
    VecOnly (inGroup r n) M h (Hart.setPlanar r e x n h) := by
  refine ⟨?_, fun i hi ho => ?_, fun i hi _ => ?_⟩
  · rw [setPlanar_eq]
  · exact (setPlanar_getElem r e x n h hr i hi).trans (if_neg ho)
  · have hm : (Hart.setPlanar r e x n h).vec.m = h.vec.m := by rw [setPlanar_eq]
    simp only [hm]

/-- A written planar element reads back, cut to its width; the other elements of its planes, and planes apart from them, are
kept. -/
theorem planar_setPlanar (h : Hart) (d r e j x n : Nat) (hd : d + n ≤ 32) (hr : r + n ≤ 32)
    (hap : r = d ∨ r + n ≤ d ∨ d + n ≤ r) (he : e < 8192) :
    (Hart.setPlanar d e x n h).planar r j n = if r = d ∧ j = e then x % 2 ^ n else h.planar r j n := by
  refine Nat.eq_of_testBit_eq fun k => ?_
  rw [apply_ite (Nat.testBit · k), testBit_planar, testBit_planar, Nat.testBit_mod_two_pow]
  by_cases hk : k < n
  · rw [decide_eq_true hk, setPlanar_getElem d e x n h hd _ (Nat.mod_lt _ (by decide))]
    have hin : (d ≤ (r + k) % 32 ∧ (r + k) % 32 < d + n) ↔ r = d := by omega
    simp only [hin, Bool.true_and]
    by_cases hrd : r = d
    · subst hrd
      rw [if_pos rfl, show (r + k) % 32 - r = k by omega]
      by_cases hje : j = e
      · subst hje
        rw [bitOf_setBit_same _ _ _ he, if_pos ⟨rfl, rfl⟩]
      · rw [bitOf_setBit_ne _ _ _ _ hje, if_neg (fun h => hje h.2)]
    · rw [if_neg hrd, if_neg (fun h => hrd h.1)]
  · rw [decide_eq_false hk, Bool.false_and, Bool.false_and, Bool.false_and, ite_self]

/-- The destinations of a planar word: vd's planes and DREG's (R129), seen from either of them. -/
theorem putSpec_putPlanar {s : State} {w : Fld} {c : VCtx} {n : Nat} (hc : c.dreg = s.hart.dregOf) (hd : PlanarDests s w n)
    (b : Nat) (hb : Dests s w b) :
    PutSpec (inDests s w n) (fun _ => False) 8192 8192 (fun h j => h.planar b j n) (fun _ x _ => x % 2 ^ n)
      (c.putPlanar (s.hart.vreg w.d) n) := by
  obtain ⟨hd32, -⟩ := hd _ (.inl rfl)
  obtain ⟨hb32, hbd⟩ := hd b hb
  have hvd (e x : Nat) (h : Hart) := (vecOnly_setPlanar (fun _ => False) (s.hart.vreg w.d) e x n h hd32).mono
    (V' := inDests s w n) (fun i hi => ⟨_, .inl rfl, hi⟩) (fun _ => id)
  have hown (e x : Nat) (h : Hart) (j : Nat) (he : e < 8192) := planar_setPlanar h (s.hart.vreg w.d) b e j x n hd32 hb32 hbd he
  unfold VCtx.putPlanar
  cases hq : c.dreg with
  | none =>
    refine ⟨fun e x h _ => hvd e x h, fun e x h _ => setPlanar_vfflags _ _ _ _ _, fun e x h j he _ => ?_,
      fun h ev j => planar_addFlags h ev b j n⟩
    have hbeq : b = s.hart.vreg w.d := hb.resolve_right (by rw [← hc, hq]; exact fun h => nomatch h)
    simpa [hbeq] using hown e x h j he
  | some q =>
    have hq' : s.hart.dregOf = some q := hc ▸ hq
    obtain ⟨hq32, -⟩ := hd q (.inr hq')
    have hbq : b = s.hart.vreg w.d ∨ b = q := hb.imp_right fun h => (Option.some.inj (hq'.symm.trans h)).symm
    have hapart : b = q ∨ b + n ≤ q ∨ q + n ≤ b := by
      have := (hd q (.inr hq')).2
      omega
    have hdreg (e x : Nat) (h : Hart) := (vecOnly_setPlanar (fun _ => False) q e x n h hq32).mono
      (V' := inDests s w n) (fun i hi => ⟨q, .inr hq', hi⟩) (fun _ => id)
    refine ⟨fun e x h _ => (hvd e x h).trans (hdreg e x _),
      fun e x h _ => (setPlanar_vfflags _ _ _ _ _).trans (setPlanar_vfflags _ _ _ _ _), fun e x h j he _ => ?_,
      fun h ev j => planar_addFlags h ev b j n⟩
    rw [planar_setPlanar _ q b e j x n hq32 hb32 hapart he, hown e x h j he]
    by_cases hje : j = e
    · rcases hbq with h | h <;> simp [h, hje]
    · simp [hje]

/-- Ordinary elements in planar destinations of `g` registers (R133). -/
theorem putSpec_planarVec {s : State} {w : Fld} {c : VCtx} {n g N : Nat} (hc : c.dreg = s.hart.dregOf) (hd : PlanarDests s w g)
    (hn : n ∣ 8192) (hN : ∀ e, e < N ↔ e * n < 8192 * g) (b : Nat) (hb : Dests s w b) :
    PutSpec (inDests s w g) (fun _ => False) N N (fun h => h.elem b n) (fun _ x _ => x % 2 ^ n)
      (c.putVec (s.hart.vreg w.d) n) := by
  refine putSpec_putVec _ c _ n g N _ hn hN (hd _ (.inl rfl)).1 (fun r hr => ?_) ?_ b (hb.imp_right fun h => hc.trans h)
  · obtain ⟨hr32, hrd⟩ := hd r (.inr (hc ▸ hr))
    exact ⟨hr32, by omega⟩
  · rintro i (h | ⟨r, hr, h⟩)
    · exact ⟨_, .inl rfl, h⟩
    · exact ⟨r, .inr (hc ▸ hr), h⟩

/-! ## The checks of register runs (R129) -/

theorem fits_of {r n : Nat} (h : r + n ≤ 32) : (Span.mk r n).fits = true := decide_eq_true h

/-- Planar runs that coincide or are apart do not clash. -/
theorem clashes_of {a b n : Nat} (h : a = b ∨ a + n ≤ b ∨ b + n ≤ a) : Span.clashes ⟨a, n⟩ ⟨b, n⟩ = false := by
  unfold Span.clashes
  rcases h with rfl | h
  · rw [bne_self_eq_false, Bool.and_false]
  · rw [meets_of_apart h, Bool.false_and]

theorem planarDest_of {s : State} {w : Fld} {n : Nat} (hd : PlanarDests s w n) :
    planarDest s.hart ⟨s.hart.vreg w.d, n⟩ = true := by
  unfold planarDest
  rw [fits_of (hd _ (.inl rfl)).1]
  cases hq : s.hart.dregOf with
  | none => rfl
  | some q =>
    obtain ⟨hq32, hqd⟩ := hd q (.inr hq)
    simp only [fits_of hq32, clashes_of hqd]
    rfl

/-- A source that may coincide with a destination. -/
theorem planarApart_source {s : State} {w : Fld} {r : BitVec 5} {n : Nat} (h : PlanarSource s w r n) :
    planarApart s.hart true ⟨s.hart.vreg w.d, n⟩ ⟨s.hart.vreg r, n⟩ = true := by
  have hclash (d : Nat) (hd : Dests s w d) := clashes_of (h.2 d hd)
  unfold planarApart
  simp only [if_true, hclash _ (.inl rfl)]
  cases hq : s.hart.dregOf with
  | none => rfl
  | some q => simp only [hclash q (.inr hq)]; rfl

/-- A source that may not meet a destination. -/
theorem planarApart_apart {s : State} {w : Fld} {r : BitVec 5} {m n : Nat} (h : Apart s w m r n) :
    planarApart s.hart false ⟨s.hart.vreg w.d, m⟩ ⟨s.hart.vreg r, n⟩ = true := by
  have hmeet (d : Nat) (hd : Dests s w d) := meets_of_apart (h d hd)
  unfold planarApart
  simp only [Bool.false_eq_true, if_false, hmeet _ (.inl rfl)]
  cases hq : s.hart.dregOf with
  | none => rfl
  | some q => simp only [hmeet q (.inr hq)]; rfl

end Sys2Proof.Machine
end

section
/-! SUPPORT. The planar words (R129-R133). -/

namespace Sys2Proof.Machine

/-! ## The forms of the words -/

/-- The vector length of planar elements is at most 8192 (R20, R21). -/
theorem lenOf_planar {s : State} (ht : TypeIn s fmtPlanar) (hl : LengthOk s.hart) : lenOf s ≤ 8192 := by
  have h15 : vtFmt s.hart.vec.vtype = 15 := of_decide_eq_true ht.2
  have hmax : vlmax s.hart.vec.vtype = 8192 := if_pos h15
  exact hmax ▸ hl

/-- The context of a planar word: no boundary stops its loop (R129). -/
theorem planar_ctxFor {s : State} {w : Fld} (hr : VecReady s) : CtxFor s (crossCtx attrPlanar w s) (activeAt s w true) :=
  (ctxOf_for attrPlanar w s hr rfl).cross (lenOf_lt s).le

section
variable {s : State} {w : Fld} (hr : VecReady s) (hp : PrefixFits s w true true) (ht : TypeIn s fmtPlanar)
include hr hp ht

/-- The issue of a planar word. -/
theorem issue_planar {legal : Bool} (hleg : legal = true) : issue attrPlanar w legal s = .ok (ctxOf attrPlanar w s) s :=
  issue_typed attrPlanar w _ s hr hleg rfl rfl rfl rfl hp ht

end

/-- A word without events whose destination groups are seen by `view`: what it leaves. -/
theorem view_written {s : State} {w : Fld} {c : VCtx} {act : Nat → Bool} (i : Instr) (a : Act Unit) {g n N : Nat}
    {view : Nat → Hart → Nat → Nat} {put : PutFn} {val res : Nat → Nat} (hr : VecReady s) (hc : CtxFor s c act)
    (ht : c.takes = true) (hview : ∀ r h h', h.vec.v = h'.vec.v → view r h = view r h')
    (hp : ∀ r, Dests s w r → PutSpec (inDests s w g) (fun _ => False) N N (view r) (fun _ x _ => x % 2 ^ n) put)
    (hN : lenOf s ≤ N) (hi : exec i s = vectorWord i a s) (ha : a s = elementWise i c put N (fun e => .ok (val e, 0)) s)
    (hval : ∀ e, val e % 2 ^ n = res e) :
    ∃ t, exec i s = .next t ∧ VecFrame s t true ∧ RegsOutside s t (Dests s w) g ∧ MasksKept s t ∧ XKept s t
      ∧ FlagsGain s t act (fun _ => 0)
      ∧ ∀ r, Dests s w r → ∀ e, e < N → view r t.hart e = written s (posOf s) act (view r s.hart) 0 res e := by
  obtain ⟨t, run, done⟩ := turned_dests i a g N view _ put hi hr hview hp (fun _ _ => clears_plain _ _ _ _ hc.plain) ht
    (hc.vl ▸ hc.whole) (hc.vl ▸ hN) _ val (fun _ => 0) ha (fun _ _ _ _ => rfl)
  refine ⟨t, run, done.frame, done.outside, done.masks, done.xs, fun b => ?_, fun r hdr e he => ?_⟩
  · rw [done.flags b]
    simp only [hc.sel, hc.vl, hc.velem]
  · rw [done.turns r hdr e he]
    unfold turned written
    simp only [hc.sel, hc.vl, hc.velem, hc.pol, hc.tail, hc.tailed, hval, Nat.zero_mod, Bool.false_and, Bool.not_false,
      Bool.and_true, decide_eq_true_eq]

/-- A word that writes planar elements. -/
theorem givesPlanar_of {s : State} {w : Fld} (i : Instr) (a : Act Unit) {val res : Nat → Nat} (hr : VecReady s)
    (ht : TypeIn s fmtPlanar) (hl : LengthOk s.hart) (hd : PlanarDests s w (planesOf s)) (hi : exec i s = vectorWord i a s)
    (ha : a s = elementWise i (crossCtx attrPlanar w s) ((crossCtx attrPlanar w s).putPlanar (s.hart.vreg w.d) (planesOf s)) 8192
      (fun e => .ok (val e, 0)) s)
    (hval : ∀ e, val e % 2 ^ planesOf s = res e) : GivesPlanar i s w res := by
  obtain ⟨t, run, frame, outside, masks, xs, flags, elems⟩ := view_written i a
    (view := fun r h j => h.planar r j (planesOf s)) hr (planar_ctxFor hr) rfl (fun r h h' e => funext fun j => planar_congr e r j _) (putSpec_putPlanar rfl hd) (lenOf_planar ht hl)
    hi ha hval
  exact ⟨t, run, frame, elems, outside, masks, xs, flags.kept⟩

/-! ## Arithmetic (R130) -/

theorem planarAt_lt (s : State) (r : BitVec 5) (e : Nat) : planarAt s r e < 2 ^ planesOf s := planar_lt _ _ _ _

theorem planarSecond_lt (s : State) (w : Fld) (e : Nat) : planarSecond s w e < 2 ^ planesOf s := by
  unfold planarSecond
  split
  · exact planarAt_lt _ _ _
  · exact Nat.mod_lt _ (Nat.two_pow_pos _)

section
variable {s : State} {w : Fld} (hr : VecReady s) (hp : PrefixFits s w true true) (ht : TypeIn s fmtPlanar)
  (hl : LengthOk s.hart)

section
variable (hd : PlanarDests s w (planesOf s)) (hb : PlanarSource s w w.b (planesOf s))
  (ha : w.f = 0 → PlanarSource s w w.a (planesOf s))
include hr hp ht hl hd hb ha

/-- A planar word of two operands, by its operation modulo 2^w. -/
theorem planarWord_gives (i : Fld → Instr) {op : Nat → Nat → Nat → Nat} {f : Nat → Nat → Int}
    (hi : exec (i w) s = planarWord (i w) w op s)
    (hop : ∀ n a b, b < 2 ^ n → op n a b % 2 ^ n = wrapTo n (f a b)) :
    GivesPlanar (i w) s w (fun e => wrapTo (planesOf s) (f (planarAt s w.b e) (planarSecond s w e))) := by
  have hleg : (planarDest s.hart ⟨s.hart.vreg w.d, planesOf s⟩ && (Span.mk (s.hart.vreg w.b) (planesOf s)).fits
      && planarApart s.hart true ⟨s.hart.vreg w.d, planesOf s⟩ ⟨s.hart.vreg w.b, planesOf s⟩
      && (w.f != 0 || ((Span.mk (s.hart.vreg w.a) (planesOf s)).fits
        && planarApart s.hart true ⟨s.hart.vreg w.d, planesOf s⟩ ⟨s.hart.vreg w.a, planesOf s⟩))) = true := by
    rw [planarDest_of hd, fits_of hb.1, planarApart_source hb]
    by_cases hf : w.f = 0
    · rw [fits_of (ha hf).1, planarApart_source (ha hf), Bool.and_self, Bool.or_true]
      rfl
    · rw [bne_iff_ne.mpr hf]
      rfl
  refine givesPlanar_of (val := fun e => op (planesOf s) (planarAt s w.b e) (planarSecond s w e) % 2 ^ planesOf s) (i w) _ hr ht hl
    hd hi ?_ fun e => ?_
  · exact bind_ok _ (issue_planar hr hp ht hleg)
  · rw [Nat.mod_mod, hop _ _ _ (planarSecond_lt s w e)]

/-- The planar arithmetic (R130). -/
theorem planarArithmetic_gives :
    GivesPlanar (.pladd w) s w (fun e => wrapTo (planesOf s) ((planarAt s w.b e : Int) + planarSecond s w e))
    ∧ GivesPlanar (.plsub w) s w (fun e => wrapTo (planesOf s) ((planarAt s w.b e : Int) - planarSecond s w e))
    ∧ GivesPlanar (.plmul w) s w (fun e => wrapTo (planesOf s) ((planarAt s w.b e : Int) * planarSecond s w e)) := by
  have gives := @planarWord_gives s w hr hp ht hl hd hb ha
  exact ⟨gives .pladd (op := fun _ a b => a + b) (f := fun a b => a + b) rfl fun n a b _ => mod_eq_wrapTo 0 (by push_cast; ring),
    gives .plsub (op := fun n a b => a + 2 ^ n - b) (f := fun a b => a - b) rfl fun n a b hb => sub_mod_eq_wrapTo hb,
    gives .plmul (op := fun _ a b => a * b) (f := fun a b => a * b) rfl fun n a b _ => mod_eq_wrapTo 0 (by push_cast; ring)⟩

end

/-! ## The dot product (R131) -/

theorem dotFold_eq (c : VCtx) (prod : Nat → Int) (n e : Nat) (acc : Int) :
    dotFold c prod n e acc = acc + (((List.range' e n).filter c.sel).map prod).sum := by
  induction n generalizing e acc with
  | zero => exact (add_zero acc).symm
  | succ n ih =>
    rw [dotFold, ih, List.range'_succ, List.filter_cons]
    split
    · rw [List.map_cons, List.sum_cons, add_assoc]
    · rfl

theorem addFlags_zero (h : Hart) : h.addFlags 0 = h := by
  unfold Hart.addFlags
  rw [show h.vec.vfflags ||| 0 = h.vec.vfflags from BitVec.or_zero]

/-- The context of pldot's destination: one register of 64-bit elements (R131). -/
def pldotCtx (s : State) (w : Fld) : VCtx := { ctxOf attrPlanar w s with sew := 64, grp := 1 }

theorem pldotCtx_count (s : State) (w : Fld) : (pldotCtx s w).count = 128 := by
  norm_num [VCtx.count, pldotCtx]

include hr hp ht in
/-- pldot adds the products of the active elements to element 0 (R131). -/
theorem pldot_gives (hd : PlanarDests s w 1) (hb : s.hart.vreg w.b + planesOf s ≤ 32) (ha : s.hart.vreg w.a + planesOf s ≤ 32)
    (hapb : Apart s w 1 w.b (planesOf s)) (hapa : Apart s w 1 w.a (planesOf s)) :
    GivesScalar (.pldot w) s w 1 64 (wrapTo 64 (signedOf 64 (elemIn s w.d 64 0)
      + ((actives s w true).map (fun e => (planarAt s w.b e : Int) * signedOf (planesOf s) (planarAt s w.a e))).sum)) 0 := by
  have hleg : (planarDest s.hart ⟨s.hart.vreg w.d, 1⟩ && (Span.mk (s.hart.vreg w.b) (planesOf s)).fits
      && (Span.mk (s.hart.vreg w.a) (planesOf s)).fits
      && planarApart s.hart false ⟨s.hart.vreg w.d, 1⟩ ⟨s.hart.vreg w.b, planesOf s⟩
      && planarApart s.hart false ⟨s.hart.vreg w.d, 1⟩ ⟨s.hart.vreg w.a, planesOf s⟩) = true := by
    rw [planarDest_of hd, fits_of hb, fits_of ha, planarApart_apart hapb, planarApart_apart hapa]
    rfl
  have hacc := dotFold_eq (ctxOf attrPlanar w s)
    (fun e => (planarAt s w.b e : Int) * signedOf (planesOf s) (planarAt s w.a e)) (lenOf s - posOf s) (posOf s)
    (signedOf 64 (elemIn s w.d 64 0))
  rw [show (ctxOf attrPlanar w s).sel = activeAt s w true from funext (sel_ctxOf attrPlanar w s rfl)] at hacc
  have h := putReduced_gives (s := s) (w := w) (c := pldotCtx s w) (.pldot w) _
    (wrapTo 64 (signedOf 64 (elemIn s w.d 64 0)
      + ((actives s w true).map (fun e => (planarAt s w.b e : Int) * signedOf (planesOf s) (planarAt s w.a e))).sum)) 0
    rfl hr rfl rfl (one_dvd 32) (by decide : 64 ∣ 8192) (fun r _ => Nat.mod_one r) ?_
  · rwa [show (pldotCtx s w).sew = 64 from rfl, wrapTo_mod] at h
  · refine (bind_ok _ (issue_planar hr hp ht hleg)).trans ?_
    unfold actives VCtx.putReduced
    rw [addFlags_zero, pldotCtx_count, ← hacc]
    rfl

end

/-! ## Compares (R132) -/

/-- The relation that plcmp's condition names, on two planar elements of width `n`. -/
def planarHolds (n x y : Nat) : Nat → Bool
  | 0 => x == y
  | 1 => x != y
  | 2 => signedOf n x < signedOf n y
  | _ => x < y

theorem planarHolds_eq (n x y k : Nat) : planarHolds n x y k =
    if k = 0 then decide ((x : Int) = y) else if k = 1 then decide ((x : Int) ≠ y)
    else if k = 2 then decide (signedOf n x < signedOf n y) else decide ((x : Int) < y) := by
  rw [Bool.eq_iff_iff]
  rcases k with _ | _ | _ | k
  · simp [planarHolds]
  · simp [planarHolds]
  · exact Iff.rfl
  · simp [planarHolds]

/-- plcmp writes a relation to a mask (R132). -/
theorem plcmp_gives {s : State} {w : Fld} (hr : VecReady s) (hp : PrefixFits s w false true) (ht : TypeIn s fmtPlanar)
    (hb : s.hart.vreg w.b + planesOf s ≤ 32) (ha : w.f = 0 → s.hart.vreg w.a + planesOf s ≤ 32) :
    WritesMask (.plcmp w) s (w.d.toNat % 8) true (activeAt s w true)
      (fun e => planarHolds (planesOf s) (planarAt s w.b e) (planarSecond s w e) (w.d.toNat / 8)) (fun _ => 0) := by
  have hleg : ((Span.mk (s.hart.vreg w.b) (planesOf s)).fits
      && (w.f != 0 || (Span.mk (s.hart.vreg w.a) (planesOf s)).fits)) = true := by
    rw [fits_of hb]
    by_cases hf : w.f = 0
    · rw [fits_of (ha hf), Bool.or_true]
      rfl
    · rw [bne_iff_ne.mpr hf]
      rfl
  refine bits_gives (w := w) { attrPlanar with dcv := false } (.plcmp w) _ _ 16384 _ _ rfl hr
    (ctxOf_for { attrPlanar with dcv := false } w s hr rfl) (lenOf_lt s).le ?_
  exact bind_ok _ (issue_typed { attrPlanar with dcv := false } w _ s hr hleg rfl rfl rfl rfl hp ht)

/-! ## Conversions (R133) -/

/-- The width of the ordinary elements that plconv names. -/
def ordBits (w : Fld) : Nat := 8 * 2 ^ (w.a.toNat % 4)

/-- The registers that hold VL ordinary elements. -/
def ordSpan (s : State) (w : Fld) : Nat := max 1 (ceilDiv (lenOf s * ordBits w) 8192)

theorem ordBits_dvd (w : Fld) : ordBits w ∣ 8192 := by
  have h : w.a.toNat % 4 < 4 := Nat.mod_lt _ (by decide)
  unfold ordBits
  generalize w.a.toNat % 4 = k at h
  have hk : k = 0 ∨ k = 1 ∨ k = 2 ∨ k = 3 := by omega
  rcases hk with rfl | rfl | rfl | rfl <;> decide

theorem ordBits_pos (w : Fld) : 0 < ordBits w := Nat.pos_of_dvd_of_pos (ordBits_dvd w) (by decide)

theorem lt_ordSpan_iff (s : State) (w : Fld) (e : Nat) :
    e < ordSpan s w * 8192 / ordBits w ↔ e * ordBits w < 8192 * ordSpan s w := by
  rw [Nat.mul_comm 8192]
  exact Nat.lt_div_iff_mul_lt_of_dvd (ordBits_pos w).ne' (Dvd.dvd.mul_left (ordBits_dvd w) _)

/-- The ordinary elements below VL stand in their registers. -/
theorem lenOf_le_ordSpan (s : State) (w : Fld) : lenOf s ≤ ordSpan s w * 8192 / ordBits w := by
  rw [Nat.le_div_iff_mul_le (ordBits_pos w)]
  unfold ordSpan ceilDiv
  omega

/-- The ordinary element that plconv makes of planar element `e`: extended by its sign where the word says so. -/
def ordAt (s : State) (w : Fld) (e : Nat) : Nat :=
  if bitOf w.a 3 then wrapTo (ordBits w) (signedOf (planesOf s) (planarAt s w.b e)) else planarAt s w.b e % 2 ^ ordBits w

theorem ordAt_mod (s : State) (w : Fld) (e : Nat) : ordAt s w e % 2 ^ ordBits w = ordAt s w e := by
  unfold ordAt
  split
  · exact wrapTo_mod _ _
  · exact Nat.mod_mod _ _

section
variable {s : State} {w : Fld} (hr : VecReady s) (hp : PrefixFits s w true true) (ht : TypeIn s fmtPlanar)
  (h16 : ordSpan s w ≤ 16)
include hr hp ht h16

/-- plconv from planes to ordinary elements. -/
theorem plconv_out_gives (hout : bitOf w.a 2 = true) (hd : PlanarDests s w (ordSpan s w))
    (hb : s.hart.vreg w.b + planesOf s ≤ 32) (hap : Apart s w (ordSpan s w) w.b (planesOf s)) :
    WritesGroup (.plconv w) s w (ordSpan s w) (ordBits w) (activeAt s w true) (ordAt s w) (fun _ => 0) := by
  have hleg : (decide (ordSpan s w ≤ 16) && planarDest s.hart ⟨s.hart.vreg w.d, ordSpan s w⟩
      && (Span.mk (s.hart.vreg w.b) (planesOf s)).fits
      && planarApart s.hart false ⟨s.hart.vreg w.d, ordSpan s w⟩ ⟨s.hart.vreg w.b, planesOf s⟩) = true := by
    rw [decide_eq_true h16, planarDest_of hd, fits_of hb, planarApart_apart hap]
    rfl
  obtain ⟨a, hi, ha⟩ : ∃ a, exec (.plconv w) s = vectorWord (.plconv w) a s
      ∧ a s = elementWise (.plconv w) (crossCtx attrPlanar w s) ((crossCtx attrPlanar w s).putVec (s.hart.vreg w.d) (ordBits w))
        (ordSpan s w * 8192 / ordBits w) (fun e => .ok (ordAt s w e, 0)) s := by
    refine ⟨_, rfl, ?_⟩
    simp only [getS_bind, hout, if_true]
    exact bind_ok _ (issue_planar hr hp ht hleg)
  obtain ⟨t, run, frame, outside, masks, xs, flags, elems⟩ := view_written (.plconv w) a
    (view := fun r h => h.elem r (ordBits w)) hr (planar_ctxFor hr) rfl (fun r h h' e => funext fun j => elem_congr e r _ j)
    (putSpec_planarVec rfl hd (ordBits_dvd w) (lt_ordSpan_iff s w)) (lenOf_le_ordSpan s w) hi ha (ordAt_mod s w)
  exact ⟨t, run, frame, fun r hdr e he => elems r hdr e ((lt_ordSpan_iff s w e).mpr he), outside, masks, xs, flags⟩

/-- plconv from ordinary elements to planes. -/
theorem plconv_in_gives (hl : LengthOk s.hart) (hout : bitOf w.a 2 = false) (hd : PlanarDests s w (planesOf s))
    (hb : s.hart.vreg w.b + ordSpan s w ≤ 32) (hap : Apart s w (planesOf s) w.b (ordSpan s w)) :
    GivesPlanar (.plconv w) s w (fun e => elemIn s w.b (ordBits w) e % 2 ^ planesOf s) := by
  have hleg : (decide (ordSpan s w ≤ 16) && planarDest s.hart ⟨s.hart.vreg w.d, planesOf s⟩
      && (Span.mk (s.hart.vreg w.b) (ordSpan s w)).fits
      && planarApart s.hart false ⟨s.hart.vreg w.d, planesOf s⟩ ⟨s.hart.vreg w.b, ordSpan s w⟩) = true := by
    rw [decide_eq_true h16, planarDest_of hd, fits_of hb, planarApart_apart hap]
    rfl
  refine givesPlanar_of (val := fun e => elemIn s w.b (ordBits w) e % 2 ^ min (ordBits w) (planesOf s)) (.plconv w) _ hr ht hl
    hd rfl ?_ fun e => ?_
  · simp only [getS_bind, hout, Bool.false_eq_true, if_false]
    exact bind_ok _ (issue_planar hr hp ht hleg)
  · rcases le_total (ordBits w) (planesOf s) with h | h
    · rw [min_eq_left h, Nat.mod_eq_of_lt (elemIn_lt s w.b _ e)]
    · rw [min_eq_right h, Nat.mod_mod]

end

/-- Settles O21: each word runs the loop of R80 over planar or ordinary elements; pldot is a fold whose destination is
one register. -/
theorem planarWords : Obligations.PlanarWords := by
  refine ⟨fun s w hr ht hl => ?_, fun s w hr hp ht hl => ?_⟩
  · intro n a b
    refine ⟨fun hp hd hb ha => planarArithmetic_gives hr hp ht hl hd hb ha,
      fun hp hd hb ha hap => pldot_gives hr hp ht hd hb ha (fun d h => (hap d h).1) (fun d h => (hap d h).2),
      fun hp hb ha => ?_⟩
    have h := plcmp_gives hr hp ht hb ha
    simp only [planarHolds_eq] at h
    exact h
  · intro p n regs h16
    exact ⟨plconv_out_gives hr hp ht h16, plconv_in_gives hr hp ht h16 hl⟩

end Sys2Proof.Machine
end

section
/-! SUPPORT. A vwait under way that has heard nothing since its last test: it waits on, which the clause of O29 on vwait does
not say. -/

namespace Sys2Proof.Machine

/-- vwait m0, v1, x0: the target is 0. -/
def vwaitZero : Fld := { k := 0, t := 0, f := 0, b := 1, a := 0, d := 0 }

/-- Hart 0 at address 0 waits there for the word at address 0, which element 0 of v1 names; it is registered for the word and
has heard of no value since its last test. The word is 0. -/
def heardNone : State :=
  { harts := [(0, { vec := { vtype := 3, vl := 1 }
                    run := { wait := some { kind := .vwait, pc := 0, ends := 0, watch := [0] } } })]
    parts := [(0, { granules := [0] })] }

theorem heardNone_ready : VecReady heardNone := ⟨by decide, rfl, rfl, rfl⟩

/-- Element 0 is the one active element. -/
theorem heardNone_actives : actives heardNone vwaitZero true = [0] := by decide +kernel

theorem heardNone_elem : elemAt heardNone vwaitZero.b 0 = 0 := by decide +kernel

theorem heardNone_loads : Loads heardNone 4 0 4 0 := ⟨⟨by decide, by decide, .inr (.inl rfl), rfl, rfl, rfl⟩, rfl⟩

/-- The wait takes its samples from what it has heard (R418), finds none and goes on: PC stays. -/
theorem heardNone_waits : (match exec (.vwait vwaitZero) heardNone with
    | .next t => t.hart.pc == 0
    | _ => false) = true := by decide +kernel

/-- Refutes O29: the clause on vwait does not say that no wait of the hart is under way. In `heardNone` one is: it is
registered for a word whose value in memory satisfies the target, but has not heard of it, so it waits on, where the clause
asks that the word retire. -/
theorem not_loadFaultsAndWaits : ¬ Obligations.LoadFaultsAndWaits := by
  rintro ⟨-, -, waits, -⟩
  obtain ⟨t, ht, frame, -⟩ := waits heardNone vwaitZero (fun _ => 0) heardNone_ready (fun h => absurd h (by decide))
    ⟨by decide, by decide⟩ (by unfold LengthOk; decide) (by unfold SourceFits; decide) fun e he => by
      rw [heardNone_actives, List.mem_singleton] at he
      subst he
      rw [heardNone_elem]
      exact ⟨heardNone_loads, by decide⟩
  have stays : (t.hart.pc == 0) = true := by simpa only [ht] using heardNone_waits
  have retired : t.hart.pc = 4 := frame.pc.trans (by decide)
  rw [retired] at stays
  exact absurd stays (by decide)

end Sys2Proof.Machine
end

section
/-! SUPPORT. Bytes of memory after a row of bytes has been stored, and the stores of a unit of the package that nothing holds
up at their home (R145, R245, R362). -/

namespace Sys2Proof.Machine

/-! ## A row of stored bytes -/

theorem writeBytes_append (m : List Host.Cell) (a : Nat) (l r : List Byte) :
    writeBytes m a (l ++ r) = writeBytes (writeBytes m a l) (a + l.length) r := by
  induction l generalizing m a with
  | nil => rfl
  | cons b l ih =>
    rw [List.cons_append, writeBytes, writeBytes, ih, List.length_cons, Nat.add_right_comm, Nat.add_assoc]

/-- The bytes within a row of stored bytes. -/
theorem readBytes_writeBytes_within {m : List Host.Cell} (hm : Memory.wf m) (a : Nat) (l r : List Byte) (k : Nat)
    (h : k ≤ r.length) : readBytes (writeBytes m a (l ++ r)) k (a + l.length) = r.take k := by
  have hr := readBytes_writeBytes_self (a + l.length) r (writeBytes_wf a l hm)
  rw [writeBytes_append]
  apply List.ext_getElem?
  intro i
  have hi := congrArg (·[i]?) hr
  simp only [getElem?_readBytes] at hi ⊢
  rw [List.getElem?_take, ← hi]
  split
  · rw [if_pos (by omega)]
  · rfl

/-- A number within a row of stored bytes. -/
theorem readNat_writeBytes_within {m : List Host.Cell} (hm : Memory.wf m) (a : Nat) (l r : List Byte) (n x : Nat) :
    readNat (writeBytes m a (l ++ (toBytes n x ++ r))) (a + l.length) n = x % 256 ^ n := by
  have hn := length_toBytes n x
  rw [readNat, readBytes_writeBytes_within hm a l _ n (by rw [List.length_append]; omega), List.take_left' hn, ofBytes_toBytes]

/-! ## Stores of a unit -/

/-- A unit has stored bytes: beside memory and what every hart sees of a store, only the number of the next store, the words
with errors, other modules' reservations and the copies may differ. -/
structure Pushed (s t : State) (a : Nat) (bs : List Byte) : Prop where
  mem : t.mem = writeBytes s.mem a bs
  harts : ∀ k, SeesStore (s.hartAt k) (t.hartAt k)
  rest : t = { s with
    mem := t.mem
    harts := t.harts
    coh := { s.coh with
      nextId := t.coh.nextId
      poison := t.coh.poison
      farResv := t.coh.farResv
      copies := t.coh.copies } }

/-- Nothing holds up a unit's store at its home, and where messages are visible nobody shares its region. -/
structure HomeOpen (s : State) (a n : Nat) : Prop where
  leases : s.coh.leases = []
  queued : s.coh.queued = []
  units : ∀ c ∈ s.coh.commits, c.msg.slot ≠ 2
  settled : committing s a n = false
  shared : s.stepwise = true → dirOf s (regionNo a) = none
  migs : s.coh.migs = []

section
variable {s t u : State} {a b n : Nat} {bs cs : List Byte}

theorem Pushed.refl (s : State) (a : Nat) : Pushed s s a [] := ⟨rfl, fun _ => SeesStore.refl _, rfl⟩

theorem Pushed.trans (h : Pushed s t a bs) (k : Pushed t u (a + bs.length) cs) : Pushed s u a (bs ++ cs) := by
  refine ⟨?_, fun j => (h.harts j).trans (k.harts j), ?_⟩
  · rw [k.mem, h.mem, writeBytes_append]
  · conv_lhs => rw [k.rest, h.rest]

theorem Pushed.parts (h : Pushed s t a bs) : t.parts = s.parts := by rw [h.rest]
theorem Pushed.cur (h : Pushed s t a bs) : t.cur = s.cur := by rw [h.rest]
theorem Pushed.chr (h : Pushed s t a bs) : t.chr = s.chr := by rw [h.rest]

theorem Pushed.hart (h : Pushed s t a bs) : SeesStore s.hart t.hart := by
  unfold State.hart
  rw [h.cur]
  exact h.harts s.cur

theorem Pushed.partAt (h : Pushed s t a bs) (p : Nat) : t.partAt p = s.partAt p := by
  unfold State.partAt
  rw [h.parts]

/-- A home that is open stays open while units store. -/
theorem HomeOpen.of_pushed (o : HomeOpen s b n) (h : Pushed s t a bs) : HomeOpen t b n := by
  obtain ⟨leases, queued, units, settled, shared, migs⟩ := o
  rw [h.rest]
  exact ⟨leases, queued, units, settled, shared, migs⟩

/-- The same of a part of the span within its region. -/
theorem HomeOpen.within (o : HomeOpen s a n) {k : Nat} (hb : a ≤ b) (hn : b + k ≤ a + n) (hr : regionNo b = regionNo a) :
    HomeOpen s b k := by
  obtain ⟨leases, queued, units, settled, shared, migs⟩ := o
  refine ⟨leases, queued, units, ?_, fun h => hr ▸ shared h, migs⟩
  unfold committing at settled ⊢
  rw [Bool.or_eq_false_iff] at settled ⊢
  obtain ⟨apart, displaced⟩ := settled
  refine ⟨?_, by rw [hr]; exact displaced⟩
  rw [List.any_eq_false] at apart ⊢
  intro c hc
  have := apart c hc
  unfold overlap at this ⊢
  simp only [Bool.and_eq_true, decide_eq_true_eq] at this ⊢
  omega

/-- A home at rest is open to every store. -/
theorem HomesIdle.open (h : HomesIdle s) (a n : Nat) : HomeOpen s a n := by
  obtain ⟨⟨leases, queued, commits, evicting, migs⟩, stepwise⟩ := h
  refine ⟨leases, queued, ?_, ?_, ?_, migs⟩
  · rw [commits]
    intro c hc
    cases hc
  · unfold committing
    rw [commits, evicting]
    rfl
  · rw [stepwise]
    intro h
    cases h

/-- A store that every copy takes at once. -/
theorem pushed_store (s : State) (w : Writer) (a : Nat) (bs : List Byte) : Pushed s (s.store w a bs) a bs :=
  ⟨rfl, seesStore_hartAt s w a bs, rfl⟩

theorem Pushed.of_useId (h : Pushed s.useId t a bs) : Pushed s t a bs := ⟨h.mem, h.harts, h.rest⟩

theorem placed_of_no_migs (h : s.coh.migs = []) (a : Nat) : placed s a = a := by
  unfold placed
  rw [h]
  rfl

/-- A region that nobody shares has no sharers to update. -/
theorem sharersOf_of_unshared {y : Nat} (h : dirOf s (regionNo a) = none) : sharersOf s y a n = [] := by
  unfold sharersOf
  rw [h]

/-- A unit's store that reaches a region nobody shares is committed at once. -/
theorem perform_pushed {m : Msg} (hu : m.slot = 2) (ho : m.op = none) (hd : dirOf s (regionNo m.addr) = none) :
    Pushed s (perform s m) m.addr m.data := by
  have ends (v : State) : sendWack v m 0 = v := by
    unfold sendWack
    rw [hu]
    rfl
  have he : effectOf s m = (m.data, 0) := by
    unfold effectOf
    rw [ho]
  unfold perform
  simp only [he, sharersOf_of_unshared hd, List.isEmpty_nil, if_true, ends]
  split
  · next h =>
    rw [List.isEmpty_iff.mp h]
    exact Pushed.refl s _
  · refine ⟨rfl, fun k => ?_, rfl⟩
    exact seesStore_hartAt s m.writer m.addr m.data k

/-- Nothing blocks a unit's store at an open home. -/
theorem homeBlocks_of_open {m : Msg} (o : HomeOpen s a n) (hk : m.kind = .wr) (hu : m.slot = 2) :
    homeBlocks s m = false := by
  obtain ⟨leases, queued, units, -, -, -⟩ := o
  have hc : s.coh.commits.any (fun c => c.msg.slot == 2 && c.msg.hart == m.hart) = false := by
    rw [List.any_eq_false]
    intro c hc
    simp [units c hc]
  unfold homeBlocks leaseBlocks
  rw [hk, hu, leases, queued, hc]
  simp

/-- A store of a unit to an open home is performed at once. -/
theorem pushStore_pushed (o : HomeOpen s a bs.length) (hart : Nat) :
    Pushed s (s.pushStore { hart := hart, scalar := true } a bs) a bs := by
  apply Pushed.of_useId
  have ou : HomeOpen s.useId a bs.length := ⟨o.leases, o.queued, o.units, o.settled, o.shared, o.migs⟩
  unfold State.pushStore
  simp only [placed_of_no_migs o.migs, if_true, Bool.not_true, Bool.and_false, Bool.false_eq_true, if_false]
  split
  · exact pushed_store _ _ _ _
  · rw [homeBlocks_of_open ou rfl rfl, ou.settled, Bool.or_self, if_neg Bool.false_ne_true]
    split
    · next hs => exact perform_pushed rfl rfl (ou.shared hs)
    · exact pushed_store _ _ _ _

end

end Sys2Proof.Machine
end

section
/-! SUPPORT. Interrupts and user-level interrupts (R142, R143, R151): the trap entry of an interrupt, and the order of the
user-level sources. -/

namespace Sys2Proof.Machine

/-! ## Interrupts of M and S mode -/

section
variable {s : State} {k : Nat}

/-- At boundary 0 no element of the word in progress is processed. -/
theorem runBounded_zero (s : State) : runBounded 0 s = s := by
  unfold runBounded
  exact if_pos (Nat.zero_le _)

/-- A wait that is no WFI does not retire. -/
theorem leaveWfi_of_ne (h : ∀ w, s.hart.run.wait = some w → w.kind ≠ .wfi) : leaveWfi s = s := by
  unfold leaveWfi
  dsimp only
  split
  · next w hw => rw [decide_eq_false (h w hw), Bool.false_and, if_neg Bool.false_ne_true]
  · rfl

/-- An interrupt between words is trap entry alone. -/
theorem interruptTake_runs {toS : Bool} {cause : Nat} (hi : interruptible s k = true) (hd : irqDue s k = some (toS, cause))
    (hw : ∀ w, (s.hartAt k).run.wait = some w → w.kind ≠ .wfi) :
    exec (.interruptTake k 0) s
      = .next ((settleReads k 0 s).setHartAt k ((s.hartAt k).enterTrap toS true cause 0)) := by
  show execInterruptTake k 0 s = _
  unfold execInterruptTake asAgent
  simp only [hi, hd, Bool.not_true, Bool.false_eq_true, if_false, runBounded_zero]
  rw [leaveWfi_of_ne (s := { s with cur := k }) hw]
  rfl

end

theorem code_lt (p : Priv) : p.code < 2 ^ 2 := by cases p <;> decide

/-- mstatus after entry to M mode: MPP, MPIE and MIE. -/
theorem machineStatus (st : Word) (p : Priv) :
    let st' := setField (setBit (setBit st 7 (bitOf st 3)) 3 false) 11 2 p.code
    fieldOf st' 11 2 = p.code ∧ bitOf st' 7 = bitOf st 3 ∧ bitOf st' 3 = false := by
  refine ⟨?_, ?_, ?_⟩
  · rw [fieldOf_setField_same _ _ _ _ (by decide), Nat.mod_eq_of_lt (code_lt p)]
  · rw [bitOf_setField_apart _ _ _ _ _ (by decide), bitOf_setBit_ne _ _ _ _ (by decide), bitOf_setBit_same _ _ _ (by decide)]
  · rw [bitOf_setField_apart _ _ _ _ _ (by decide), bitOf_setBit_same _ _ _ (by decide)]

/-- mstatus after entry to S mode: SPP, SPIE and SIE. -/
theorem supervisorStatus (st : Word) (u : Bool) :
    let st' := setBit (setBit (setBit st 5 (bitOf st 1)) 1 false) 8 u
    bitOf st' 8 = u ∧ bitOf st' 5 = bitOf st 1 ∧ bitOf st' 1 = false := by
  refine ⟨bitOf_setBit_same _ _ _ (by decide), ?_, ?_⟩
  · rw [bitOf_setBit_ne _ _ _ _ (by decide), bitOf_setBit_ne _ _ _ _ (by decide), bitOf_setBit_same _ _ _ (by decide)]
  · rw [bitOf_setBit_ne _ _ _ _ (by decide), bitOf_setBit_same _ _ _ (by decide)]

/-- Where the handler of an interrupt begins. -/
theorem handlerPc_irq (tvec : Word) (cause : Nat) : handlerPc tvec true cause
    = (tvec &&& ~~~3#64) + (if fieldOf tvec 0 2 = 1 then bv 64 (4 * cause) else 0) := by
  unfold handlerPc
  by_cases h : fieldOf tvec 0 2 = 1 <;> simp [h]

/-- Trap entry leaves the registers, and drops the reservation. -/
theorem enterTrap_keeps (h : Hart) (toS irq : Bool) (cause : Nat) (v : Word) :
    (h.enterTrap toS irq cause v).vec = h.vec ∧ (h.enterTrap toS irq cause v).x = h.x
      ∧ (h.enterTrap toS irq cause v).dev = h.dev ∧ (h.enterTrap toS irq cause v).run.resv = none := by
  cases toS <;> exact ⟨rfl, rfl, rfl, rfl⟩

/-! ## User-level interrupts -/

/-- The order of the sources: a higher CODE first, of one CODE the lower SLOT (R151). -/
def UiBefore (a b : Nat × Nat) : Prop := b.1 < a.1 ∨ (a.1 = b.1 ∧ a.2 < b.2)

theorem uiOrder_sorted : uiOrder.Pairwise UiBefore := by
  unfold uiOrder UiBefore
  decide

/-- The first pending source of the order is the one that no other pending source comes before. -/
theorem uiOrder_find {l : List (Nat × Nat)} {c : Nat × Nat} (hl : c ∈ l) (ho : c ∈ uiOrder)
    (hm : ∀ d ∈ l, d ∈ uiOrder → ¬ UiBefore d c) : uiOrder.find? (fun p => l.contains p) = some c := by
  obtain ⟨as, bs, he⟩ := List.append_of_mem ho
  have hp := uiOrder_sorted
  rw [he, List.pairwise_append] at hp
  obtain ⟨-, -, before⟩ := hp
  refine List.find?_eq_some_iff_append.mpr ⟨List.contains_iff_mem.mpr hl, as, bs, he, fun d hd => ?_⟩
  have hn : d ∉ l := fun hdl =>
    hm d hdl (by rw [he]; exact List.mem_append_left _ hd) (before d hd c List.mem_cons_self)
  simpa using hn

section
variable {s : State} {k : Nat} {c : Nat × Nat}

/-- A user-level interrupt that is due between words is taken there, where the word at PC does not trap. -/
theorem userInterruptTake_runs (hi : interruptible s k = true) (hd : irqDue s k = none) (hu : (s.hartAt k).uiDue = some c)
    (ht : trapDue { s with cur := k } = false) :
    exec (.userInterruptTake k 0) s = .next ((settleReads k 0 s).setHartAt k ((s.hartAt k).takeUi c)) := by
  have taken : (s.hartAt k).takeDueUi = (s.hartAt k).takeUi c := by
    unfold Hart.takeDueUi
    rw [hu]
  rw [← taken]
  show execUserInterruptTake k 0 s = _
  unfold execUserInterruptTake asAgent takeUserAt
  simp only [hi, hd, hu, ht, Bool.not_true, Option.isSome_none, Option.isNone_some, Bool.or_self, Bool.false_eq_true,
    if_false, Nat.not_lt_zero]
  rfl

/-- The source a hart takes. -/
theorem uiDue_eq {x : Hart} (hp : x.priv = .u) (hv : bitOf x.dev.uivec 0 = true) (ha : x.inHandler = false)
    (hf : uiOrder.find? (fun p => x.run.uiPend.contains p) = some c) : x.uiDue = some c := by
  unfold Hart.uiDue
  rw [hp, hv, ha]
  exact hf

end

end Sys2Proof.Machine
end

section
/-! SUPPORT. uiret, park, hmsg and mkick (R147, R148, R152, R328). -/

namespace Sys2Proof.Machine

section
variable {s : State} {w : SFld}

/-! ## uiret and park -/

theorem compute_not_milliner {k : Nat} (h : kindOf k = .compute) : isMilliner k = false := by
  unfold kindOf at h
  unfold isMilliner
  by_cases hk : k < 9216
  · exact decide_eq_false (by omega)
  · rw [if_neg hk] at h
    split_ifs at h

/-- The instruction word as a trap value. -/
theorem wordOf_setWidth (i : Instr) : (wordOf i).setWidth 64 = bv 64 ((encode i).getD 0).toNat :=
  (BitVec.ofNat_toNat ..).symm

/-- The hart after uiret: it goes on where the interrupt was taken (R152). -/
def Hart.afterUiret (h : Hart) : Hart :=
  { h.interrupted.countRetired with
    pc := h.dev.uiepc
    dev := { h.dev with uicause := setBit h.dev.uicause 63 false } }

theorem exec_uiret (w : SFld) (s : State) : exec (.uiret w) s
    = scalarWord (.uiret w) (fun s => onCompute s && s.hart.inHandler) (onHart Hart.afterUiret) s := rfl

theorem uiret_becomes (hp : NoPrefix s) (hk : kindOf s.cur = .compute) (ha : s.hart.inHandler = true) :
    Becomes (.uiret w) s s.hart.afterUiret :=
  becomes_of (exec_uiret w s) hp (by rw [onCompute_of hk, ha]; rfl) rfl

theorem uiret_illegal (hk : kindOf s.cur = .compute) (ha : s.hart.inHandler = false) :
    Illegal (.uiret w) s ((encode (.uiret w)).getD 0).toNat := by
  unfold Illegal
  rw [← wordOf_setWidth]
  exact illegal_of (exec_uiret w s) (by rw [ha, Bool.and_false]) (compute_not_milliner hk)

/-- The meaning of park (R147). -/
theorem exec_park (w : SFld) (s : State) : exec (.park w) s
    = scalarWord (.park w) (fun s => isMilliner s.cur || (onCompute s && s.hart.priv ≠ .u)) (do
      let s ← getS
      ensure (s.hart.run.queue.isEmpty && s.hart.liveLeases = 0) .stall
      if isMilliner s.cur then endUserRoutine
      else onHart (fun h =>
        let h := h.retire
        h.parkAt 1 h.pc)) s := rfl

/-- park waits for nothing where the queue is empty and no lease lives. -/
theorem parkReady (hq : s.hart.run.queue = []) (hl : s.hart.liveLeases = 0) :
    (s.hart.run.queue.isEmpty && s.hart.liveLeases = 0 : Bool) = true := by
  rw [hq, hl]
  rfl

theorem park_becomes (hp : NoPrefix s) (hk : kindOf s.cur = .compute) (hu : s.hart.priv ≠ .u) (hq : s.hart.run.queue = [])
    (hl : s.hart.liveLeases = 0) : Becomes (.park w) s (s.hart.retire.parkAt 1 s.hart.retire.pc) := by
  refine becomes_of (exec_park w s) hp (by simp [onCompute_of hk, hu]) ?_
  rw [getS_bind, ensure_bind _ _ _ (parkReady hq hl), compute_not_milliner hk]
  rfl

theorem park_illegal (hk : kindOf s.cur = .compute) (hu : s.hart.priv = .u) :
    Illegal (.park w) s ((encode (.park w)).getD 0).toNat := by
  unfold Illegal
  rw [← wordOf_setWidth]
  exact illegal_of (exec_park w s) (by simp [compute_not_milliner hk, hu]) (compute_not_milliner hk)

/-- A Milliner's hart that is parked (R331). -/
def Hart.routineOver (h : Hart) : Hart :=
  { h with
    ctl := { h.ctl with parked := true }
    run := { h.run with fetch := [], wait := none, body := none, resv := none, kick := none } }

/-- park of a Milliner ends its user routine (R331). -/
theorem park_milliner (hp : NoPrefix s) (hm : isMilliner s.cur = true) (hq : s.hart.run.queue = [])
    (hl : s.hart.liveLeases = 0) :
    exec (.park w) s = .next (settleReads s.cur 0
      ((s.setMillAt s.cur { s.millAt s.cur with kick := none, run := .idle }).setHart s.hart.routineOver)) := by
  rw [exec_park, scalarWord_runs hp (by rw [hm]; rfl)]
  refine runAct_ok ?_
  rw [getS_bind, ensure_bind _ _ _ (parkReady hq hl), hm]
  rfl

/-! ## hmsg -/

/-- What hmsg gives for the outcome of its record (R148). -/
def Posted.code : Posted → Word
  | .written => 0
  | .full => 1
  | .off => 2

/-- A write of an x register after a store has been seen. -/
theorem SeesStore.setX {x y : Hart} (h : SeesStore x y) (r : BitVec 5) (v : Word) :
    (y.setX r v).x = (x.setX r v).x ∧ (y.setX r v).shadow = (x.setX r v).shadow := by
  unfold SeesStore at h
  rw [h]
  unfold Hart.setX Hart.inHandler
  dsimp only
  split_ifs <;> exact ⟨rfl, rfl⟩

theorem SeesStore.pc {x y : Hart} (h : SeesStore x y) : y.pc = x.pc := by
  rw [h]

/-- hmsg posts its record and retires with the outcome. -/
theorem hmsg_runs (hp : NoPrefix s) (hf : fenceWaits s 4 = false) {v : State} {r : Posted}
    (hr : postRecord s (partOf s s.cur) 0x02 0 s.cur s.hart.pc (s.hart.getX w.rs1) (s.hart.getX w.rs2) = (v, r))
    (seen : SeesStore s.hart v.hart) :
    ∃ t, exec (.hmsg w) s = .next t ∧ t.mem = v.mem ∧ t.parts = v.parts ∧ SetsX s t w.rd r.code
      ∧ t.hart.pc = s.hart.pc + 4 := by
  refine ⟨settleReads s.cur 0 (v.setHart ((v.hart.setX w.rd r.code).retireTo (v.hart.pc + 4))),
    (scalarWord_runs (legal := fun _ => true) hp rfl).trans (runAct_ok ?_), rfl, rfl, ?_, ?_⟩
  · rw [getS_bind]
    dsimp only
    rw [ensure_bind _ _ _ (by rw [hf]; rfl), hr]
    dsimp only
    rw [setS_bind, retireWith_eq]
    cases r <;> rfl
  · rw [SetsX, settleReads_hart, State.hart_setHart]
    exact seen.setX w.rd r.code
  · rw [settleReads_hart, State.hart_setHart]
    exact congrArg (· + 4) seen.pc

/-- Bytes 4 to 31 of a record (R145). -/
def recordBody (hart : Nat) (pc a b : Word) : List Byte :=
  toBytes 4 hart ++ (toBytes 8 pc.toNat ++ (toBytes 8 a.toNat ++ (toBytes 8 b.toNat ++ [])))

theorem length_recordBody (hart : Nat) (pc a b : Word) : (recordBody hart pc a b).length = 28 := by
  simp [recordBody, length_toBytes]

/-- Word 0 of a record of the index at which the ring stands (R145). -/
def recordHead (r : Ring) (kind detail : Nat) : List Byte :=
  toBytes 4 ((r.phase r.widx).toNat * 2 ^ 31 + kind * 65536 + detail)

/-- The supervisor ring of a partition replaced. -/
def State.setFring (s : State) (p : Nat) (r : Ring) : State := s.setPartAt p { s.partAt p with fring := r }

/-- The state after a record has been stored: an index is allocated, then bytes 4 to 31 and word 0 are written. -/
def recordStored (s : State) (p kind detail hart : Nat) (pc a b : Word) : State :=
  let r := (s.partAt p).fring
  ((s.setFring p { r with widx := r.widx + 1 }).pushStore { hart := hart, scalar := true } (ringSlot s p + 4)
    (recordBody hart pc a b)).pushStore { hart := hart, scalar := true } (ringSlot s p) (recordHead r kind detail)

/-- Posting a record of a kind that is not logged (R145, R146, R416). -/
theorem postRecord_eq {kind : Nat} (hk : kind < 5) (s : State) (p detail hart : Nat) (pc a b : Word) :
    let r := (s.partAt p).fring
    let dropped := s.setFring p { r with drop := satInc r.drop }
    postRecord s p kind detail hart pc a b =
      if noPart ≤ p then (s, .off)
      else if !r.en then (dropped, .off)
      else if r.full || !(writable s p (ringSlot s p) 32) then (dropped, .full)
      else (recordStored s p kind detail hart pc a b, .written) := by
  have small : (decide (5 ≤ kind) && decide (kind ≤ 8)) = false := by
    rw [decide_eq_false (Nat.not_le.mpr hk), Bool.false_and]
  have body : recordBody hart pc a b = toBytes 4 hart ++ toBytes 8 pc.toNat ++ toBytes 8 a.toNat ++ toBytes 8 b.toNat := by
    simp [recordBody]
  unfold recordStored
  rw [body]
  unfold postRecord
  simp only [small, Bool.false_eq_true, if_false]
  rfl

/-- A record that the ring does not take counts in DROP (R146). -/
theorem postRecord_dropped {p kind detail hart : Nat} {pc a b : Word} (hk : kind < 5) (hp : p < noPart)
    (h : (s.partAt p).fring.en = false ∨ 2 ^ (s.partAt p).fring.log2n.toNat
        ≤ ((s.partAt p).fring.widx - (s.partAt p).fring.ridx).toNat ∨ writable s p (ringSlot s p) 32 = false) :
    postRecord s p kind detail hart pc a b
      = (s.setFring p { (s.partAt p).fring with drop := satInc (s.partAt p).fring.drop },
        if (s.partAt p).fring.en then .full else .off) := by
  rw [postRecord_eq hk, if_neg (Nat.not_le.mpr hp)]
  rcases Bool.eq_false_or_eq_true (s.partAt p).fring.en with he | he
  · have refused : ((s.partAt p).fring.full || !(writable s p (ringSlot s p) 32)) = true := by
      rcases h with h | h | h
      · rw [he] at h
        cases h
      · rw [Ring.full, Ring.slots, decide_eq_true h, Bool.true_or]
      · rw [h, Bool.not_false, Bool.or_true]
    rw [if_neg (by rw [he]; decide), if_pos refused, if_pos he]
  · rw [if_pos (by rw [he]; rfl), if_neg (by rw [he]; decide)]

section
variable {p kind detail hart : Nat} {pc a b : Word} (o : RingOpen s p)
include o

/-- A record that the ring takes is stored. -/
theorem postRecord_written (hk : kind < 5) :
    postRecord s p kind detail hart pc a b = (recordStored s p kind detail hart pc a b, .written) := by
  have taken : ((s.partAt p).fring.full || !(writable s p (ringSlot s p) 32)) = false := by
    rw [Ring.full, Ring.slots, decide_eq_false (Nat.not_le.mpr o.room), o.slot]
    rfl
  rw [postRecord_eq hk, if_neg (Nat.not_le.mpr o.part), o.en, taken]
  rfl

/-- The two stores of a record are performed at once where the ring is open. -/
theorem recordStored_pushed :
    let r := (s.partAt p).fring
    ∃ t, Pushed (s.setFring p { r with widx := r.widx + 1 }) t (ringSlot s p + 4) (recordBody hart pc a b)
      ∧ Pushed t (recordStored s p kind detail hart pc a b) (ringSlot s p) (recordHead r kind detail) := by
  intro r
  have open1 : HomeOpen (s.setFring p { r with widx := r.widx + 1 }) (ringSlot s p) 32 :=
    ⟨o.leases, o.queued, o.units, o.settled, o.shared, o.migs⟩
  have region : regionNo (ringSlot s p + 4) = regionNo (ringSlot s p) := by
    have := o.aligned
    unfold regionNo
    omega
  have body := pushStore_pushed (bs := recordBody hart pc a b)
    (open1.within (Nat.le_add_right _ 4) (by rw [length_recordBody, Nat.add_assoc]) region) hart
  exact ⟨_, body, pushStore_pushed
    ((open1.of_pushed body).within (le_refl _) (by unfold recordHead; rw [length_toBytes]; omega) rfl) hart⟩

theorem recordStored_frame : (recordStored s p kind detail hart pc a b).cur = s.cur
    ∧ SeesStore s.hart (recordStored s p kind detail hart pc a b).hart
    ∧ ((recordStored s p kind detail hart pc a b).partAt p).fring
        = { (s.partAt p).fring with widx := (s.partAt p).fring.widx + 1 } := by
  obtain ⟨t, body, head⟩ := recordStored_pushed (kind := kind) (detail := detail) (hart := hart) (pc := pc) (a := a) (b := b) o
  refine ⟨head.cur.trans body.cur, body.hart.trans head.hart, ?_⟩
  rw [head.partAt, body.partAt]
  unfold State.setFring
  rw [State.partAt_setPartAt_self]

/-- The bytes of a stored record, and no other, are in memory. -/
theorem recordStored_mem (hm : Memory.wf s.mem) :
    let t := recordStored s p kind detail hart pc a b
    let slot := ringSlot s p
    readNat t.mem slot 4 = (((s.partAt p).fring.phase (s.partAt p).fring.widx).toNat * 2 ^ 31 + kind * 65536 + detail) % 256 ^ 4
      ∧ readNat t.mem (slot + 4) 4 = hart % 256 ^ 4 ∧ read8 t.mem (slot + 8) = pc ∧ read8 t.mem (slot + 16) = a
      ∧ read8 t.mem (slot + 24) = b ∧ ∀ j, j < slot ∨ slot + 32 ≤ j → readByte t.mem j = readByte s.mem j := by
  intro t slot
  obtain ⟨u, body, head⟩ := recordStored_pushed (kind := kind) (detail := detail) (hart := hart) (pc := pc) (a := a) (b := b) o
  have hb : (recordBody hart pc a b).length = 28 := length_recordBody hart pc a b
  have hh : (recordHead (s.partAt p).fring kind detail).length = 4 := length_toBytes 4 _
  have field (l q : List Byte) (n x : Nat) (hl : recordBody hart pc a b = l ++ (toBytes n x ++ q)) :
      readNat t.mem (slot + 4 + l.length) n = x % 256 ^ n := by
    rw [head.mem, readNat_writeBytes_apart _ _ _ _ _ (by omega), body.mem, hl]
    exact readNat_writeBytes_within hm _ l q n x
  have word (l q : List Byte) (x : Word) (hl : recordBody hart pc a b = l ++ (toBytes 8 x.toNat ++ q)) :
      read8 t.mem (slot + 4 + l.length) = x := by
    rw [read8, field l q 8 x.toNat hl, Nat.mod_eq_of_lt (show x.toNat < 256 ^ 8 from x.isLt)]
    exact (BitVec.ofNat_toNat ..).trans (BitVec.setWidth_eq x)
  refine ⟨?_, field [] _ 4 hart rfl, ?_, ?_, ?_, fun j hj => ?_⟩
  · rw [head.mem]
    exact readNat_writeBytes_self _ _ _ (body.mem ▸ writeBytes_wf _ _ hm)
  · simpa [length_toBytes] using word (toBytes 4 hart) _ pc rfl
  · simpa [length_toBytes] using word (toBytes 4 hart ++ toBytes 8 pc.toNat) _ a
      (by rw [recordBody, List.append_assoc])
  · simpa [length_toBytes] using word (toBytes 4 hart ++ toBytes 8 pc.toNat ++ toBytes 8 a.toNat) _ b
      (by rw [recordBody, List.append_assoc, List.append_assoc])
  · rw [head.mem, readByte_writeBytes_ne _ _ _ _ (by omega), body.mem, readByte_writeBytes_ne _ _ _ _ (by omega)]
    rfl

end

/-- hmsg whose record the ring does not take (R148). -/
theorem hmsg_drops (hp : NoPrefix s) (hf : fenceWaits s 4 = false) (hn : partOf s s.cur < noPart)
    (h : let p := partOf s s.cur
      (s.partAt p).fring.en = false ∨ 2 ^ (s.partAt p).fring.log2n.toNat
        ≤ ((s.partAt p).fring.widx - (s.partAt p).fring.ridx).toNat ∨ writable s p (ringSlot s p) 32 = false) :
    let p := partOf s s.cur
    let r := (s.partAt p).fring
    Ends (.hmsg w) s (fun t => t.mem = s.mem ∧ SetsX s t w.rd (if r.en then 1 else 2) ∧ t.hart.pc = s.hart.pc + 4
      ∧ (t.partAt p).fring = { r with drop := satInc r.drop }) := by
  intro p r
  have posted := postRecord_dropped (detail := 0) (hart := s.cur) (pc := s.hart.pc) (a := s.hart.getX w.rs1)
    (b := s.hart.getX w.rs2) (by decide : 0x02 < 5) hn h
  obtain ⟨t, run, mem, parts, sets, pc⟩ := hmsg_runs (w := w) hp hf posted (SeesStore.refl _)
  have code : (if r.en then Posted.full else Posted.off).code = if r.en then 1 else 2 := by
    cases r.en <;> rfl
  refine ⟨t, run, mem, code ▸ sets, pc, ?_⟩
  unfold State.partAt
  rw [parts]
  exact congrArg Part.fring (State.partAt_setPartAt_self ..)

/-- hmsg whose record the ring takes (R145, R148). -/
theorem hmsg_records (hm : Memory.wf s.mem) (hp : NoPrefix s) (hf : fenceWaits s 4 = false)
    (o : RingOpen s (partOf s s.cur)) :
    let p := partOf s s.cur
    let r := (s.partAt p).fring
    let slot := ringSlot s p
    Ends (.hmsg w) s (fun t => SetsX s t w.rd 0 ∧ t.hart.pc = s.hart.pc + 4
      ∧ (t.partAt p).fring = { r with widx := r.widx + 1 }
      ∧ readNat t.mem slot 4 = (!(r.widx.getLsbD r.log2n.toNat)).toNat * 2 ^ 31 + 2 * 65536
      ∧ readNat t.mem (slot + 4) 4 = s.cur % 2 ^ 32 ∧ read8 t.mem (slot + 8) = s.hart.pc
      ∧ read8 t.mem (slot + 16) = s.hart.getX w.rs1 ∧ read8 t.mem (slot + 24) = s.hart.getX w.rs2
      ∧ ∀ b, b < slot ∨ slot + 32 ≤ b → readByte t.mem b = readByte s.mem b) := by
  intro p r slot
  have posted := postRecord_written (kind := 0x02) (detail := 0) (hart := s.cur) (pc := s.hart.pc) (a := s.hart.getX w.rs1)
    (b := s.hart.getX w.rs2) o (by decide)
  obtain ⟨-, seen, ring⟩ := recordStored_frame (kind := 0x02) (detail := 0) (hart := s.cur) (pc := s.hart.pc)
    (a := s.hart.getX w.rs1) (b := s.hart.getX w.rs2) o
  obtain ⟨head, hart, mem⟩ := recordStored_mem (kind := 0x02) (detail := 0) (hart := s.cur) (pc := s.hart.pc)
    (a := s.hart.getX w.rs1) (b := s.hart.getX w.rs2) o hm
  have bound : (r.phase r.widx).toNat * 2 ^ 31 + 0x02 * 65536 + 0 < 256 ^ 4 := by
    have := Bool.toNat_le (r.phase r.widx)
    omega
  rw [Nat.mod_eq_of_lt bound, Nat.add_zero] at head
  obtain ⟨t, run, hmem, parts, sets, pc⟩ := hmsg_runs (w := w) hp hf posted seen
  refine ⟨t, run, sets, pc, ?_, ?_⟩
  · unfold State.partAt
    rw [parts]
    exact ring
  · rw [hmem]
    exact ⟨head, hart, mem⟩

/-! ## mkick to memory -/

/-- The meaning of mkick (R328). -/
theorem exec_mkick (w : SFld) (s : State) : exec (.mkick w) s = scalarWord (.mkick w) (fun _ => true) (do
    let s ← getS
    let h := s.hart
    let a := h.getX w.rs1
    ensure (a.toNat % 8 = 0) (.trap 6 a)
    ensure (!(fenceWaits s w.x.toNat)) .stall
    scalarStore (dataEnv s) w.x.toNat a.toNat 8 (h.getX w.rs2).toNat
    onHart Hart.retire) s := rfl

theorem mkick_misaligned (hp : NoPrefix s) (hm : isMilliner s.cur = false) (ha : (s.hart.getX w.rs1).toNat % 8 ≠ 0) :
    Traps (.mkick w) s 6 (bv 64 (s.hart.getX w.rs1).toNat) := by
  have hv : bv 64 (s.hart.getX w.rs1).toNat = s.hart.getX w.rs1 := (BitVec.ofNat_toNat ..).trans (BitVec.setWidth_eq _)
  rw [hv]
  refine traps_of (exec_mkick w s) hp rfl hm ?_
  rw [getS_bind]
  refine bind_error _ ?_
  unfold ensure
  rw [decide_eq_false ha]
  rfl

theorem mkick_stores {u : State} {a : Nat} (hm : Memory.wf s.mem) (hp : NoPrefix s)
    (ha : (s.hart.getX w.rs1).toNat % 8 = 0) (hf : fenceWaits s w.x.toNat = false)
    (h : Places s .store (s.hart.getX w.rs1).toNat 8 a u)
    (hpo : ∀ p ∈ u.coh.poison, touches a 8 p = true → a ≤ p ∧ p + 8 ≤ a + 8)
    (hle : leaseBlocks u (ownWriter s) a 8 = false) :
    Ends (.mkick w) s (fun t => StoreFrame s t ∧ t.hart.pc = s.hart.pc + 4 ∧ Stored s t a 8 (s.hart.getX w.rs2).toNat) := by
  have hs : u.stepwise = false := by
    rw [SameButTlb.of_places h]
    exact h.1
  obtain ⟨v, hv, hstored⟩ := scalarStore_ok (scope := w.x.toNat) (x := (s.hart.getX w.rs2).toNat) (by omega) h hs hpo hle
  obtain ⟨frame, pc⟩ := storeFrame_retire hstored
  refine ⟨_, ?_, frame, pc, stored_of hm hstored.mem rfl⟩
  rw [exec_mkick, scalarWord_runs hp rfl]
  refine runAct_ok ?_
  rw [getS_bind, ensure_bind _ _ _ (decide_eq_true ha), ensure_bind _ _ _ (by rw [hf]; rfl), bind_ok _ hv]
  rfl

end

end Sys2Proof.Machine
end

section
/-! SUPPORT. Interrupts (R142-R153): the ends of timed states, and O46. -/

namespace Sys2Proof.Machine

/-- A write of an identity within the limits of a file sets it pending (R143). -/
theorem setIdentity_of {s : State} {k id : Nat} (h0 : 0 < id) (hn : id < identities k) (sFile : Bool) :
    setIdentity k sFile id s = s.modHart k (fun x =>
      let set (f : Imsic) : Imsic := { f with eip := setBit f.eip id true }
      { x with ints := if sFile then { x.ints with sfile := set x.ints.sfile } else { x.ints with mfile := set x.ints.mfile } }) := by
  have refused : (decide (id = 0) || decide (identities k ≤ id)) = false := by
    rw [decide_eq_false (by omega), decide_eq_false (by omega)]
    rfl
  unfold setIdentity
  rw [refused]
  rfl

@[simp] theorem modHart_hartAt_self (s : State) (k : Nat) (g : Hart → Hart) : (s.modHart k g).hartAt k = g (s.hartAt k) :=
  State.hartAt_setHartAt_self ..

/-- A reservation ends when its last clock has passed (R15). -/
theorem reservationTimeout_runs {s : State} {k a : Nat} (ha : (s.hartAt k).run.resv = some a)
    (he : (s.hartAt k).run.resvEnds ≤ s.ccOf k) : exec (.reservationTimeout k) s
      = .next (s.setHartAt k { s.hartAt k with run := { (s.hartAt k).run with resv := none } }) := by
  show execReservationTimeout k s = _
  unfold execReservationTimeout
  simp only [ha, he, Option.isSome_some, decide_true, Bool.and_self, if_true]

/-- Settles O46: an interrupt is trap entry of the hart where it stands; the words and events are each one change of a
hart, one record or one store. -/
theorem interrupts : Obligations.Interrupts := by
  intro s hm h
  refine ⟨?_, ?_, ?_, ?_, ?_, ?_, ?_, ?_, ?_, ?_, ?_⟩
  · intro k toS cause x hi hd hw
    obtain ⟨vec, xs, dev, resv⟩ := enterTrap_keeps x toS true cause 0
    refine ⟨_, interruptTake_runs hi hd hw, rfl, rfl, ?_⟩
    rw [State.hartAt_setHartAt_self]
    refine ⟨vec, xs, dev, resv, fun j hj => State.hartAt_setHartAt_ne _ _ _ _ hj, ?_, ?_⟩
    · rintro rfl
      obtain ⟨mpp, mpie, mie⟩ := machineStatus x.csr.mstatus x.priv
      exact ⟨rfl, rfl, rfl, rfl, mpp, mpie, mie, handlerPc_irq _ _⟩
    · rintro rfl
      obtain ⟨spp, spie, sie⟩ := supervisorStatus x.csr.mstatus (x.priv ≠ .u)
      exact ⟨rfl, rfl, rfl, rfl, spp, spie, sie, handlerPc_irq _ _⟩
  · intro k code slot x hi hd hu hv ha ht hp ho hmax
    have first := uiOrder_find hp ho fun c hc hco hb => by
      have := hmax c hc hco
      unfold UiBefore at hb
      dsimp only at hb
      omega
    refine ⟨_, userInterruptTake_runs hi hd (uiDue_eq hu hv ha first) ht, rfl, rfl, ?_⟩
    rw [State.hartAt_setHartAt_self]
    exact ⟨rfl, rfl, hu, rfl, rfl, fun c => by
      show c ∈ x.run.uiPend.filter (fun p => p != (code, slot)) ↔ _
      rw [List.mem_filter, bne_iff_ne]⟩
  · intro w hp hk
    refine ⟨fun ha => ?_, uiret_illegal hk⟩
    obtain ⟨t, run, only, hart⟩ := uiret_becomes (w := w) hp hk ha
    refine ⟨t, run, only, ?_⟩
    rw [hart]
    exact ⟨rfl, rfl, rfl, rfl, rfl⟩
  · intro w hp hk
    refine ⟨park_illegal hk, fun hu hq hl => ?_⟩
    obtain ⟨t, run, only, hart⟩ := park_becomes (w := w) hp hk hu hq hl
    refine ⟨t, run, only, ?_⟩
    rw [XKept, hart]
    exact ⟨⟨rfl, rfl⟩, rfl, rfl⟩
  · intro w hp hmi hq hl
    refine ⟨_, park_milliner hp hmi hq hl, rfl, ?_⟩
    have idle : ((s.setMillAt s.cur { s.millAt s.cur with kick := none, run := .idle }).millAt s.cur)
        = { s.millAt s.cur with kick := none, run := .idle } := State.millAt_setMillAt_self ..
    rw [settleReads_hart, State.hart_setHart]
    exact ⟨rfl, rfl, congrArg Mill.run idle, congrArg Mill.kick idle⟩
  · intro w hp hf
    exact ⟨hmsg_drops hp hf, hmsg_records hm hp hf⟩
  · intro w u a hp
    exact ⟨mkick_misaligned hp, fun ha hf h hpo hle => mkick_stores hm hp ha hf h hpo hle⟩
  · exact fun k => ⟨⟨_, rfl, le_max_right _ _, le_max_left _ _, rfl⟩, ⟨_, rfl, le_max_right _ _, le_max_left _ _, rfl⟩⟩
  · intro k hk
    exact ⟨_, if_pos hk, modHart_hartAt_self .., rfl⟩
  · intro k id hk h0 hn
    refine ⟨⟨setIdentity k false id s, if_pos hk, ?_⟩, ⟨setIdentity k true id s, if_pos hk, ?_⟩⟩
    all_goals
      rw [setIdentity_of h0 hn]
      dsimp only
      rw [modHart_hartAt_self]
      exact ⟨rfl, rfl, rfl⟩
  · intro k a ha he
    exact ⟨_, reservationTimeout_runs ha he, rfl, State.hartAt_setHartAt_self ..⟩

end Sys2Proof.Machine
end

section
/-! SUPPORT. Writes of control registers (R276): a whole write, and what each register of a partition, cluster, hart and die
takes of it (R146, R207, R217, R219, R246, R248, R263, R313, R358, R377). -/

namespace Sys2Proof.Machine

/-! ## A whole write -/

theorem byteMask_whole : byteMask 255 = BitVec.allOnes 64 := by decide
theorem bitsFrom_whole : bitsFrom 0 63 = BitVec.allOnes 64 := by decide

/-- The written bits of a whole write are the value. -/
@[simp] theorem wholeWrite_ones (v : Nat) : (wholeWrite v).ones = bv 64 v := by
  unfold wholeWrite RegWrite.ones
  rw [byteMask_whole, BitVec.and_allOnes]

/-- A whole write leaves nothing of the old value. -/
@[simp] theorem wholeWrite_over (v : Nat) (old : Word) : (wholeWrite v).over old (bitsFrom 0 63) = bv 64 v := by
  unfold RegWrite.over
  rw [wholeWrite_ones, bitsFrom_whole, BitVec.and_allOnes]
  show old &&& ~~~(byteMask 255) ||| bv 64 v = bv 64 v
  rw [byteMask_whole, BitVec.not_allOnes, BitVec.and_zero, BitVec.zero_or]

/-- The value of a field of the bits [hi:lo] of a number. -/
theorem toNat_and_bitsFrom (v : Nat) {lo hi : Nat} (h : lo ≤ hi) (hh : hi < 64) :
    (bv 64 v &&& bitsFrom lo hi).toNat = v % 2 ^ (hi + 1) / 2 ^ lo * 2 ^ lo := by
  have hb : bitsFrom lo hi = bv 64 ((2 ^ (hi + 1 - lo) - 1) * 2 ^ lo) := by
    unfold bitsFrom
    congr 1
    rw [Nat.sub_mul, ← pow_add, Nat.sub_add_cancel (by omega), one_mul]
  apply Nat.eq_of_testBit_eq
  intro i
  rw [hb, BitVec.toNat_and, Nat.testBit_and, Nat.testBit_mul_two_pow, Nat.testBit_div_two_pow, Nat.testBit_mod_two_pow,
    BitVec.toNat_ofNat, BitVec.toNat_ofNat, Nat.testBit_mod_two_pow, Nat.testBit_mod_two_pow, Nat.testBit_mul_two_pow,
    Nat.testBit_two_pow_sub_one]
  by_cases hl : lo ≤ i
  · rw [Nat.sub_add_cancel hl]
    by_cases hr : i < hi + 1
    · simp [hl, hr, show i < 64 by omega, show i - lo < hi + 1 - lo by omega]
    · simp [hr, show ¬ i - lo < hi + 1 - lo by omega]
  · simp [hl]

/-! ## Rings and tables -/

theorem toNat_bv5_field {v : Word} : (bv 5 (fieldOf v 0 5)).toNat = fieldOf v 0 5 := by
  rw [BitVec.toNat_ofNat, Nat.mod_eq_of_lt (fieldOf_lt v 0 5)]

section
variable {ok : Nat → Bool} {v : Word} {top : Nat}

/-- While EN is 1 a write changes only EN. -/
theorem Ring.writeEn_of_enabled {r : Ring} (h : r.en = true) : r.writeEn ok v = { r with en := bitOf v 5 } := by
  unfold Ring.writeEn Machine.writeEn
  rw [h]
  simp only [if_true, Bool.true_or, Bool.and_true]

/-- While EN is 0 a write stores LOG2N, and EN where LOG2N fits. -/
theorem Ring.writeEn_of_disabled {r : Ring} (h : r.en = false) :
    r.writeEn ok v = { r with en := bitOf v 5 && ok (fieldOf v 0 5), log2n := bv 5 (fieldOf v 0 5) } := by
  have hn := fieldOf_lt v 0 5
  unfold Ring.writeEn Machine.writeEn
  rw [h, Nat.min_eq_right (by omega)]
  simp only [Bool.false_eq_true, if_false, Bool.false_or, toNat_bv5_field]

theorem TableReg.writeEn_of_enabled {r : TableReg} (h : r.en = true) :
    r.writeEn top ok v = { r with en := bitOf v 5 } := by
  unfold TableReg.writeEn Machine.writeEn
  rw [h]
  simp only [if_true, Bool.true_or, Bool.and_true]

theorem TableReg.writeEn_of_disabled {r : TableReg} (h : r.en = false) :
    r.writeEn top ok v
      = { r with en := bitOf v 5 && ok (min top (fieldOf v 0 5)), log2n := bv 5 (min top (fieldOf v 0 5)) } := by
  have hn : (bv 5 (min top (fieldOf v 0 5))).toNat = min top (fieldOf v 0 5) := by
    rw [BitVec.toNat_ofNat, Nat.mod_eq_of_lt (lt_of_le_of_lt (min_le_right _ _) (fieldOf_lt v 0 5))]
  unfold TableReg.writeEn Machine.writeEn
  rw [h]
  simp only [Bool.false_eq_true, if_false, Bool.false_or, hn]

end

section
variable {v : Word} {fits : Bool}

/-- FRING_CTL while EN is 0 (R146). -/
theorem Ring.ctlFring_of_disabled {r : Ring} (h : r.en = false)
    (hf : fits = decide (4 ≤ fieldOf v 0 5 ∧ fieldOf v 0 5 ≤ 16 ∧ r.base.toNat % 2 ^ (fieldOf v 0 5 + 5) = 0)) :
    r.ctlFring v = { r with en := bitOf v 5 && fits, log2n := bv 5 (fieldOf v 0 5) } := by
  unfold Ring.ctlFring aligned
  rw [writeEn_of_disabled h, hf, Bool.decide_and, Bool.decide_and, Bool.and_assoc, beq_eq_decide]

/-- FBR_CTL while EN is 0 (R313). -/
theorem Ring.ctlFbr_of_disabled {r : Ring} (h : r.en = false)
    (hf : fits = decide (4 ≤ fieldOf v 0 5 ∧ fieldOf v 0 5 ≤ 20 ∧ r.base.toNat % 2 ^ (fieldOf v 0 5 + 4) = 0)) :
    r.ctlFbr v = { r with en := bitOf v 5 && fits, log2n := bv 5 (fieldOf v 0 5) } := by
  unfold Ring.ctlFbr aligned
  rw [writeEn_of_disabled h, hf, Bool.decide_and, Bool.decide_and, Bool.and_assoc, beq_eq_decide]

/-- DOM_CTL while EN is 0 (R219). -/
theorem TableReg.ctlDom_of_disabled {r : TableReg} (h : r.en = false)
    (hf : fits = decide (r.base.toNat % 2 ^ (min 16 (fieldOf v 0 5) + 5) = 0)) :
    r.ctlDom v = { r with en := bitOf v 5 && fits, log2n := bv 5 (min 16 (fieldOf v 0 5)) } := by
  unfold TableReg.ctlDom aligned
  rw [writeEn_of_disabled h, hf, beq_eq_decide]

/-- TSEQ_CTL while EN is 0 (R263). -/
theorem TableReg.ctlTseq_of_disabled {r : TableReg} (h : r.en = false)
    (hf : fits = decide (fieldOf v 0 5 ≤ 20 ∧ r.base.toNat % 2 ^ max 12 (fieldOf v 0 5 + 3) = 0)) :
    r.ctlTseq v = { r with en := bitOf v 5 && fits, log2n := bv 5 (fieldOf v 0 5) } := by
  have hn := fieldOf_lt v 0 5
  unfold TableReg.ctlTseq aligned
  rw [writeEn_of_disabled h, Nat.min_eq_right (by omega), hf, Bool.decide_and, beq_eq_decide]

end

/-! ## Registers of a partition -/

/-- Of the harts, memory and partitions only partition `p` is changed. -/
def SetsPart (s : State) (p : Nat) (y : Part) (t : State) : Prop :=
  t.mem = s.mem ∧ t.harts = s.harts ∧ t.partAt p = y ∧ ∀ q, q ≠ p → t.partAt q = s.partAt q

theorem setsPart_setPartAt (s : State) (p : Nat) (y : Part) : SetsPart s p y (s.setPartAt p y) :=
  ⟨rfl, rfl, State.partAt_setPartAt_self s p y, fun q hq => State.partAt_setPartAt_ne s p q y hq⟩

/-- FCLR is about clusters only. -/
theorem SetsPart.clearFilters {s t : State} {p : Nat} {y : Part} (h : SetsPart s p y t) (q : Nat) :
    SetsPart s p y (clearFilters q t) := h

/-- FCLR empties the partition's filters of every cluster, and no other. -/
theorem clearFilters_misses (p : Nat) (s : State) (c : Nat) :
    ((clearFilters p s).clusterAt c).misses = (s.clusterAt c).misses.filter (fun m => m.part != p) := by
  have h := look_map ({} : ClusterSt) (fun _ x => { x with misses := x.misses.filter (fun m => m.part != p) }) s.clusters c
  unfold State.clusterAt
  rcases h with h | ⟨h, h'⟩
  · exact congrArg ClusterSt.misses h
  · rw [h']
    exact congrArg ClusterSt.misses h

section
variable {s : State} {p v : Nat} (hp : p < 64)
include hp

/-- A whole write of a register of a partition. -/
theorem partWrite_runs {i : Instr} {off : Nat} (hi : exec i s = if p < 64 then writeBlock (.part p) off v s else .next s) :
    exec i s = .next (writePart p off (wholeWrite v) s) := by
  rw [hi, if_pos hp]
  rfl

theorem fringCtlWrite_runs : exec (.fringCtlWrite p v) s
    = .next (s.setPartAt p { s.partAt p with fring := (s.partAt p).fring.ctlFring (bv 64 v) }) := by
  rw [partWrite_runs (off := 0x108) (v := v) hp rfl]
  simp only [writePart, wholeWrite_over]

theorem domCtlWrite_runs : exec (.domCtlWrite p v) s
    = .next (s.setPartAt p { s.partAt p with dom := (s.partAt p).dom.ctlDom (bv 64 v) }) := by
  rw [partWrite_runs (off := 0x148) (v := v) hp rfl]
  simp only [writePart, wholeWrite_over]

theorem tseqCtlWrite_runs : exec (.tseqCtlWrite p v) s
    = .next (s.setPartAt p { s.partAt p with tseq := (s.partAt p).tseq.ctlTseq (bv 64 v) }) := by
  rw [partWrite_runs (off := 0x198) (v := v) hp rfl]
  simp only [writePart, wholeWrite_over]

theorem fbrCtlWrite_runs : exec (.fbrCtlWrite p v) s
    = .next (let t := s.setPartAt p { s.partAt p with fbr := (s.partAt p).fbr.ctlFbr (bv 64 v) }
        if bitOf (bv 64 v) 6 then clearFilters p t else t) := by
  rw [partWrite_runs (off := 0x1A8) (v := v) hp rfl]
  simp only [writePart, wholeWrite_over, wholeWrite_ones]

/-- FBR_CTL sets its ring whether or not it clears the filters. -/
theorem fbrCtlWrite_sets {r : Ring} (hr : (s.partAt p).fbr.ctlFbr (bv 64 v) = r) :
    Ends (.fbrCtlWrite p v) s (SetsPart s p { s.partAt p with fbr := r }) := by
  subst hr
  refine ⟨_, fbrCtlWrite_runs hp, ?_⟩
  dsimp only
  split
  · exact (setsPart_setPartAt s p _).clearFilters p
  · exact setsPart_setPartAt s p _

theorem fringCtlWrite_sets {r : Ring} (hr : (s.partAt p).fring.ctlFring (bv 64 v) = r) :
    Ends (.fringCtlWrite p v) s (SetsPart s p { s.partAt p with fring := r }) :=
  hr ▸ ⟨_, fringCtlWrite_runs hp, setsPart_setPartAt s p _⟩

theorem domCtlWrite_sets {r : TableReg} (hr : (s.partAt p).dom.ctlDom (bv 64 v) = r) :
    Ends (.domCtlWrite p v) s (SetsPart s p { s.partAt p with dom := r }) :=
  hr ▸ ⟨_, domCtlWrite_runs hp, setsPart_setPartAt s p _⟩

theorem tseqCtlWrite_sets {r : TableReg} (hr : (s.partAt p).tseq.ctlTseq (bv 64 v) = r) :
    Ends (.tseqCtlWrite p v) s (SetsPart s p { s.partAt p with tseq := r }) :=
  hr ▸ ⟨_, tseqCtlWrite_runs hp, setsPart_setPartAt s p _⟩

/-- FCLR, alone or with FBR_CTL, empties the partition's filters. -/
theorem fclr_filters (i : Instr) (b : Bool) (hi : (i, b) ∈ [(Instr.fclr p, true), (.fbrCtlWrite p v, bitOf (bv 64 v) 6)])
    (hb : b = true) :
    Ends i s (fun t => ∀ c, (t.clusterAt c).misses = (s.clusterAt c).misses.filter (fun m => m.part != p)) := by
  simp only [List.mem_cons, List.not_mem_nil, or_false, Prod.mk.injEq] at hi
  rcases hi with ⟨rfl, -⟩ | ⟨rfl, hb'⟩
  · exact ⟨_, rfl, clearFilters_misses p s⟩
  · refine ⟨_, fbrCtlWrite_runs hp, fun c => ?_⟩
    dsimp only
    rw [if_pos (hb'.symm.trans hb)]
    exact clearFilters_misses p _ c

/-- Without FCLR a write of FBR_CTL leaves the clusters. -/
theorem fbrCtlWrite_clusters (hb : bitOf (bv 64 v) 6 = false) :
    Ends (.fbrCtlWrite p v) s (fun t => t.clusters = s.clusters) := by
  refine ⟨_, fbrCtlWrite_runs hp, ?_⟩
  dsimp only
  rw [hb]
  rfl

end

/-! ## Task rings -/

/-- The register of the ring of a die and level is in the task-ring range alone. -/
theorem writePart_tq {die level : Nat} (hd : die < 6) (hl : level < 8) (p v : Nat) (s : State) :
    writePart p (0x200 + die * 0x80 + level * 0x10) (wholeWrite v) s
      = s.setPartAt p { s.partAt p with
          task := put (s.partAt p).task (die * 8 + level) (((s.partAt p).ring die level).writeTq (bv 64 v)) } := by
  have ho : 0x200 ≤ 0x200 + die * 0x80 + level * 0x10 := by omega
  have hdie : (0x200 + die * 0x80 + level * 0x10 - 0x200) / 0x80 = die := by omega
  have hlev : (0x200 + die * 0x80 + level * 0x10 - 0x200) % 0x80 / 16 = level := by omega
  have hr : 0x200 + die * 0x80 + level * 0x10 < 0x500 ∧ (0x200 + die * 0x80 + level * 0x10) % 16 = 0 := by omega
  obtain ⟨hlt, hmod⟩ := hr
  unfold writePart
  simp only [wholeWrite_over]
  split
  any_goals omega
  rw [if_pos (by simp only [ho, hlt, hmod, decide_true, Bool.and_true]), hdie, hlev]

theorem Part.ring_put_self (x : Part) (die level : Nat) (r : Ring) :
    Part.ring { x with task := put x.task (die * 8 + level) r } die level = r := look_put_self _ _ _ _

theorem Part.ring_put_ne (x : Part) {die level d l : Nat} (r : Ring) (hl : level < 8) (hl' : l < 8)
    (h : d ≠ die ∨ l ≠ level) :
    Part.ring { x with task := put x.task (die * 8 + level) r } d l = x.ring d l :=
  look_put_ne _ _ _ _ _ (by omega)

theorem tqRingWrite_runs {die level : Nat} {s : State} {p v : Nat} (hp : p < 64) (hd : die < 6) (hl : level < 8) :
    exec (.tqRingWrite p die level v) s = .next (s.setPartAt p { s.partAt p with
      task := put (s.partAt p).task (die * 8 + level) (((s.partAt p).ring die level).writeTq (bv 64 v)) }) := by
  show execTqRingWrite p die level v s = _
  unfold execTqRingWrite
  rw [if_pos (by simp [hp, hd, hl])]
  exact congrArg Host.Outcome.next (writePart_tq hd hl p v s)

/-- A write of a task ring sets that ring alone. -/
theorem tqRingWrite_sets {die level : Nat} {s : State} {p v : Nat} (hp : p < 64) (hd : die < 6) (hl : level < 8) {r : Ring}
    (hr : ((s.partAt p).ring die level).writeTq (bv 64 v) = r) :
    Ends (.tqRingWrite p die level v) s (fun t => t.mem = s.mem ∧ (t.partAt p).ring die level = r
      ∧ (∀ d l, d < 6 → l < 8 → d ≠ die ∨ l ≠ level → (t.partAt p).ring d l = (s.partAt p).ring d l)
      ∧ ∀ q, q ≠ p → t.partAt q = s.partAt q) := by
  refine ⟨_, tqRingWrite_runs hp hd hl, rfl, ?_, fun d l _ hl' hne => ?_, fun q hq => State.partAt_setPartAt_ne s p q _ hq⟩
  · rw [State.partAt_setPartAt_self, hr]
    exact Part.ring_put_self _ _ _ _
  · rw [State.partAt_setPartAt_self]
    exact Part.ring_put_ne _ _ hl hl' hne

/-- While a task ring is enabled a write disables it where it is empty, and does nothing else. -/
theorem Ring.writeTq_of_enabled {r : Ring} (h : r.en = true) (v : Word) :
    r.writeTq v = if bitOf v 5 = false ∧ r.widx = r.ridx then { r with en := false } else r := by
  unfold Ring.writeTq
  simp [h]

/-- While a task ring is disabled a write stores BASE and LOG2N, and enables it empty where they fit. -/
theorem Ring.writeTq_of_disabled {r : Ring} (h : r.en = false) (v : Word) :
    let n := fieldOf v 0 5
    let b := v &&& bitsFrom 10 49
    r.writeTq v = if bitOf v 5 = true ∧ 4 ≤ n ∧ n ≤ 16 ∧ b.toNat % 2 ^ (n + 6) = 0
      then { r with base := b, log2n := bv 5 n, en := true, widx := 0, ridx := 0 }
      else { r with base := b, log2n := bv 5 n } := by
  unfold Ring.writeTq aligned
  simp [h, and_assoc]

/-! ## Pins -/

theorem Part.pinOf_put_self (x : Part) (die : Nat) (q : Word × BitVec 16) :
    Part.pinOf { x with pin := put x.pin die q } die = q := look_put_self _ _ _ _

theorem Part.pinOf_put_ne (x : Part) {die d : Nat} (q : Word × BitVec 16) (h : d ≠ die) :
    Part.pinOf { x with pin := put x.pin die q } d = x.pinOf d := look_put_ne _ _ _ _ _ h

/-- The partition with the pin of a die set. -/
def Part.setPin (x : Part) (die : Nat) (q : Word × BitVec 16) : Part := { x with pin := put x.pin die q }

/-- A pin keeps its length where its base is homed on the die and the die's pins fit. -/
theorem setPin_eq (s : State) (p die : Nat) (b : Word) (len : BitVec 16) :
    let u := s.setPartAt p ((s.partAt p).setPin die (b, len))
    Machine.setPin p die b len s
      = if isOwnMem s b.toNat = true ∧ homeDie s b.toNat = die ∧ pinned u die ≤ 8 * 2 ^ 20 then u
        else u.setPartAt p (((s.partAt p).setPin die (b, len)).setPin die (b, 0)) := by
  intro u
  have hu : u.partAt p = (s.partAt p).setPin die (b, len) := State.partAt_setPartAt_self _ _ _
  have hq : ((s.partAt p).setPin die (b, len)).pinOf die = (b, len) := Part.pinOf_put_self _ _ _
  show checkPin p die u = _
  unfold checkPin
  rw [hu, hq]
  simp only [Bool.and_eq_true, decide_eq_true_eq, and_assoc]
  rfl

theorem l2pinWrite_sets {s : State} {p die v len : Nat} (hp : p < 64) (hd : die < 6) :
    let x := s.partAt p
    let b : Word := bv 64 v &&& bitsFrom 8 49
    let u := s.setPartAt p (x.setPin die (b, bv 16 len))
    let fits : Prop := isOwnMem s b.toNat = true ∧ homeDie s b.toNat = die ∧ pinned u die ≤ 8 * 2 ^ 20
    Ends (.l2pinWrite p die v len) s (fun t => t.mem = s.mem
      ∧ (fits → (t.partAt p).pinOf die = (b, bv 16 len)) ∧ (¬ fits → (t.partAt p).pinOf die = (b, 0))
      ∧ (∀ d, d ≠ die → (t.partAt p).pinOf d = x.pinOf d) ∧ ∀ q, q ≠ p → t.partAt q = s.partAt q) := by
  intro x b u fits
  have hrun : exec (.l2pinWrite p die v len) s = .next (Machine.setPin p die b (bv 16 len) s) := by
    show execL2pinWrite p die v len s = _
    unfold execL2pinWrite
    rw [if_pos (by simp [hp, hd])]
  refine ⟨_, hrun, ?_⟩
  rw [setPin_eq]
  split
  · next h =>
    refine ⟨rfl, fun _ => ?_, fun h' => absurd h h', fun d hd => ?_, fun q hq => State.partAt_setPartAt_ne s p q _ hq⟩
    · rw [State.partAt_setPartAt_self]
      exact Part.pinOf_put_self _ _ _
    · rw [State.partAt_setPartAt_self]
      exact Part.pinOf_put_ne _ _ hd
  · next h =>
    refine ⟨rfl, fun h' => absurd h' h, fun _ => ?_, fun d hd => ?_, fun q hq => ?_⟩
    · rw [State.partAt_setPartAt_self]
      exact Part.pinOf_put_self _ _ _
    · rw [State.partAt_setPartAt_self]
      exact (Part.pinOf_put_ne _ _ hd).trans (Part.pinOf_put_ne _ _ hd)
    · rw [State.partAt_setPartAt_ne _ _ _ _ hq, State.partAt_setPartAt_ne _ _ _ _ hq]

/-! ## Registers of a cluster -/

/-- Of the harts, memory and clusters only cluster `c` is changed. -/
def SetsCluster (s : State) (c : Nat) (y : ClusterSt) (t : State) : Prop :=
  t.mem = s.mem ∧ t.harts = s.harts ∧ t.clusterAt c = y ∧ ∀ d, d ≠ c → t.clusterAt d = s.clusterAt d

theorem setsCluster_modCluster (s : State) (c : Nat) (g : ClusterSt → ClusterSt) :
    SetsCluster s c (g (s.clusterAt c)) (s.modCluster c g) :=
  ⟨rfl, rfl, State.clusterAt_setClusterAt_self s c _, fun d hd => State.clusterAt_setClusterAt_ne s c d _ hd⟩

theorem clMrgWrite_sets {s : State} {c v : Nat} (hc : c < 144) {y : ClusterSt} (hy : (if (s.clusterAt c).mergeUse ≠ 0
      then s.clusterAt c
      else { s.clusterAt c with mrgBase := bv 15 (fieldOf (bv 64 v) 0 15), mrgLen := bv 15 (fieldOf (bv 64 v) 16 15) }) = y) :
    Ends (.clMrgWrite c v) s (SetsCluster s c y) :=
  hy ▸ ⟨_, if_pos hc, setsCluster_modCluster s c _⟩

/-- A length is stored as 0 where its span would end above the TCM. -/
theorem fittingLength (base len : Nat) :
    bv 11 (if 1024 < base + len then 0 else len) = if base + len ≤ 1024 then bv 11 len else 0 := by
  by_cases h : base + len ≤ 1024
  · rw [if_pos h, if_neg (by omega)]
  · rw [if_neg h, if_pos (by omega)]
    rfl

theorem clTregWrite_sets {s : State} {c v : Nat} (hc : c < 144) (core : Nat) (hk : core < 16) :
    Ends (.clTregWrite c core v) s (SetsCluster s c { s.clusterAt c with
      tregBase := (s.clusterAt c).tregBase.set core (bv 10 (fieldOf (bv 64 v) 0 10))
      tregLen := (s.clusterAt c).tregLen.set core
        (if fieldOf (bv 64 v) 0 10 + fieldOf (bv 64 v) 32 11 ≤ 1024 then bv 11 (fieldOf (bv 64 v) 32 11) else 0) }) := by
  have hrun : exec (.clTregWrite c core v) s = .next (writeTreg c core (bv 64 v) s) := if_pos (by simp [hc, hk])
  refine ⟨_, hrun, ?_⟩
  unfold writeTreg
  simp only [Nat.mod_eq_of_lt hk, fittingLength]
  exact setsCluster_modCluster s c _

/-! ## HART_WRES -/

section
variable {s : State} {h v : Nat}

/-- A slot of a hart's windows. -/
theorem Hart.window_of_lt (x : Hart) {i : Nat} (hi : i < 4) : x.window i = x.run.windows[i] := by
  unfold Hart.window
  congr 1
  exact Nat.mod_eq_of_lt hi

/-- Where no slot of a hart is MERGING its slots stand as they are. -/
theorem settleWindows_hartAt (hw : ∀ k y, (s.hartAt h).window k = some y → y.merging = false) (k : Nat) :
    (settleWindows h s).hartAt k = s.hartAt k := by
  unfold settleWindows
  split
  · rfl
  · by_cases hk : k = h
    · subst hk
      refine (State.hartAt_setHartAt_self s k _).trans (congrArg
        (fun w => { s.hartAt k with run := { (s.hartAt k).run with windows := w } }) (?_ : _ = (s.hartAt k).run.windows))
      ext i hi : 1
      have hi' := hw i
      rw [Hart.window_of_lt _ hi] at hi'
      rw [Vector.getElem_map]
      split
      · next y hy => rw [hi' y hy, hy, if_neg Bool.false_ne_true]
      · next hy => rw [hy]
    · exact State.hartAt_setHartAt_ne s h k _ hk

theorem settleWindows_mem (who : Nat) (s : State) : (settleWindows who s).mem = s.mem := by
  unfold settleWindows
  split <;> rfl

/-- Some slot of the hart's windows is not FREE. -/
theorem anyWindow_iff (x : Hart) : x.run.windows.toList.any Option.isSome = true ↔ ∃ k y, x.window k = some y := by
  simp only [List.any_eq_true, Option.isSome_iff_exists, Vector.mem_toList_iff, Vector.mem_iff_getElem]
  constructor
  · rintro ⟨w, ⟨i, hi, rfl⟩, y, hy⟩
    exact ⟨i, y, (x.window_of_lt hi).trans hy⟩
  · rintro ⟨k, y, hy⟩
    exact ⟨_, ⟨k % 4, Nat.mod_lt _ (by decide), rfl⟩, y, hy⟩

theorem hartWresWrite_runs (hk : kindOf h = .compute) :
    exec (.hartWresWrite h v) s = .next (writeReservation h (bv 64 v) s) := if_pos hk

/-- A reservation with a declared window is kept. -/
theorem writeReservation_kept (hs : ∃ k y, (s.hartAt h).window k = some y)
    (hm : ∀ k y, (s.hartAt h).window k = some y → y.merging = false) (w : Word) :
    (writeReservation h w s).mem = s.mem ∧ ∀ k, (writeReservation h w s).hartAt k = s.hartAt k := by
  have hr : writeReservation h w s = settleWindows h s := by
    unfold writeReservation
    dsimp only
    rw [settleWindows_hartAt hm, if_pos ((anyWindow_iff _).mpr hs)]
  rw [hr]
  exact ⟨settleWindows_mem h s, settleWindows_hartAt hm⟩

/-- A reservation without a declared window takes BASE, and LEN where the region fits. -/
theorem writeReservation_taken (hn : ∀ k, (s.hartAt h).window k = none) (w : Word) :
    let t := writeReservation h w s
    t.mem = s.mem
      ∧ t.hartAt h = { s.hartAt h with ctl := { (s.hartAt h).ctl with
          wbase := bv 10 (fieldOf w 0 10)
          wlen := if fieldOf w 0 10 + fieldOf w 32 11 ≤ 1024 then bv 11 (fieldOf w 32 11) else 0 } }
      ∧ ∀ k, k ≠ h → t.hartAt k = s.hartAt k := by
  have hm : ∀ k y, (s.hartAt h).window k = some y → y.merging = false := fun k y hy => by rw [hn k] at hy; cases hy
  have hany : ¬ (s.hartAt h).run.windows.toList.any Option.isSome = true := by
    rw [anyWindow_iff]
    rintro ⟨k, y, hy⟩
    exact Option.some_ne_none y (hy.symm.trans (hn k))
  have hlen : (if 1024 < fieldOf w 0 10 + fieldOf w 32 11 then 0 else bv 11 (fieldOf w 32 11))
      = if fieldOf w 0 10 + fieldOf w 32 11 ≤ 1024 then bv 11 (fieldOf w 32 11) else 0 := by
    simp only [← Nat.not_le, ite_not]
  intro t
  have ht : t = (settleWindows h s).setHartAt h { s.hartAt h with ctl := { (s.hartAt h).ctl with
      wbase := bv 10 (fieldOf w 0 10)
      wlen := if fieldOf w 0 10 + fieldOf w 32 11 ≤ 1024 then bv 11 (fieldOf w 32 11) else 0 } } := by
    show writeReservation h w s = _
    unfold writeReservation
    dsimp only
    rw [settleWindows_hartAt hm, if_neg hany, hlen]
    rfl
  rw [ht]
  refine ⟨settleWindows_mem h s, State.hartAt_setHartAt_self _ h _, fun k hk => ?_⟩
  rw [State.hartAt_setHartAt_ne _ _ _ _ hk, settleWindows_hartAt hm]

end

/-! ## Registers of a die -/

/-- Of the harts, memory and dies only die `d` is changed. -/
def SetsDie (s : State) (d : Nat) (y : DieSt) (t : State) : Prop :=
  t.mem = s.mem ∧ t.harts = s.harts ∧ t.dieAt d = y ∧ ∀ e, e ≠ d → t.dieAt e = s.dieAt e

theorem setsDie_setDieAt (s : State) (d : Nat) (y : DieSt) : SetsDie s d y (s.setDieAt d y) :=
  ⟨rfl, rfl, State.dieAt_setDieAt_self s d y, fun e he => State.dieAt_setDieAt_ne s d e y he⟩

theorem setsDie_refl (s : State) (d : Nat) : SetsDie s d (s.dieAt d) s := ⟨rfl, rfl, rfl, fun _ _ => rfl⟩

section
variable {s : State} {die v : Nat} (hd : die < 6)
include hd

/-- A declaration is taken where none is in progress. -/
theorem agentDead_sets {y : DieSt} (hy : (if (s.dieAt die).deadBusy = none
      then { s.dieAt die with deadBusy := some (v % 65536) } else s.dieAt die) = y) :
    Ends (.agentDead die v) s (SetsDie s die y) := by
  have hrun : exec (.agentDead die v) s = writeBlock (.die die) 0x18 v s := if_pos hd
  have hv : fieldOf (bv 64 v) 0 16 = v % 65536 :=
    (fieldOf_bv v (by decide)).trans (by rw [Nat.pow_zero, Nat.div_one, show 2 ^ 16 = 65536 from rfl])
  refine ⟨_, hrun.trans rfl, ?_⟩
  subst hy
  simp only [writeReg, writeDie, wholeWrite_ones, hv]
  cases hb : (s.dieAt die).deadBusy with
  | none => exact setsDie_setDieAt s die _
  | some a => exact setsDie_refl s die

/-- A release is taken where none is in progress. -/
theorem migRel_sets {y : DieSt} (hy : (if (s.dieAt die).migBusy = none
      then { s.dieAt die with migBusy := some (v % 2 ^ 50 / 16384 * 16384) } else s.dieAt die) = y) :
    Ends (.migRel die v) s (SetsDie s die y) := by
  have hrun : exec (.migRel die v) s = writeBlock (.die die) 0x20 v s := if_pos hd
  have hv : (bv 64 v &&& bitsFrom 14 49).toNat = v % 2 ^ 50 / 16384 * 16384 := toNat_and_bitsFrom v (by decide) (by decide)
  refine ⟨_, hrun.trans rfl, ?_⟩
  subst hy
  simp only [writeReg, writeDie, wholeWrite_ones, hv]
  cases hb : (s.dieAt die).migBusy with
  | none => exact setsDie_setDieAt s die _
  | some a => exact setsDie_refl s die

end

/-! ## Requests for a start -/

theorem cold_runs (s : State) : exec .cold s = .next { s with pkg := { s.pkg with coldReq := true } } := by
  show writeBlock .module 0x08 2 s = _
  unfold writeBlock writeReg
  simp only [writeModule, wholeWrite_ones, Option.getD_some]
  rw [show bitOf (bv 64 2) 1 = true by decide, show bitOf (bv 64 2) 0 = false by decide, Bool.or_true, Bool.or_false]

theorem warmreq_runs (s : State) : exec .warmreq s = .next { s with pkg := { s.pkg with warmReq := true } } := by
  show writeBlock .module 0x08 1 s = _
  unfold writeBlock writeReg
  simp only [writeModule, wholeWrite_ones, Option.getD_some]
  rw [show bitOf (bv 64 1) 1 = false by decide, show bitOf (bv 64 1) 0 = true by decide, Bool.or_true, Bool.or_false]

/-- A pair of firmware slots after its start: nothing is on trial, and a version that was is the lowest accepted. -/
theorem Firmware.proved_spec (f : Firmware) :
    f.proved.trial = none ∧ (f.trial = none → f.proved = f)
      ∧ ∀ n, f.trial = some n → f.proved.minSvn = max f.minSvn n := by
  unfold Firmware.proved
  cases h : f.trial with
  | none => exact ⟨h, fun _ => rfl, fun n hn => nomatch hn⟩
  | some m =>
    refine ⟨rfl, ?_, ?_⟩
    · intro hn
      cases hn
    · intro n hn
      cases hn
      rfl

/-! ## Retraining -/

/-- A retrained port is in training; its messages are held, and the other ports stand. -/
theorem retrainPort_spec (x : Chrodon) {p : Nat} (hp : p < 16) :
    let y := retrainPort p x
    (y.port p).state = 1 ∧ (y.port p).txq = [] ∧ (∀ q, q < 16 → q ≠ p → y.port q = x.port q)
      ∧ y.held = (x.port p).txq.flatMap (fun f => flitMsgs f.2) ++ x.held := by
  refine ⟨?_, ?_, fun q hq hne => ?_, rfl⟩
  · simp [retrainPort, Chrodon.dropPort, Chrodon.port, Chrodon.setPort]
  · simp [retrainPort, Chrodon.dropPort, Chrodon.port, Chrodon.setPort]
  · have : p % 16 ≠ q % 16 := by omega
    simp [retrainPort, Chrodon.dropPort, Chrodon.port, Chrodon.setPort, this]

/-! ## Stores to part of a register -/

theorem within_iff (a b n : Nat) : within a b n = true ↔ b ≤ a ∧ a < b + n := by
  unfold within
  rw [Bool.and_eq_true, decide_eq_true_eq, decide_eq_true_eq]

/-- The registers of an interrupt block. -/
theorem blockOf_ints {h k : Nat} (hh : h < 9240) (hk : k < 64) :
    blockOf (0x3FE4000000000 + h * 64 + k) = some (.ints h, k) := by
  have hrel : (0x3FE4000000000 + h * 64 + k - 0x3FE4000000000) / 0x40 = h := by omega
  have hmod : (0x3FE4000000000 + h * 64 + k) % 0x40 = k := by omega
  unfold blockOf
  rw [if_pos ((within_iff _ _ _).mpr (by omega))]
  dsimp only
  rw [hrel, hmod]

/-- The registers of a partition. -/
theorem blockOf_part {p off : Nat} (hp : p < 64) (ho : off < 4096) :
    blockOf (0x3FF0000000000 + p * 4096 + off) = some (.part p, off) := by
  have hrel : (0x3FF0000000000 + p * 4096 + off - 0x3FF0000000000) / 0x1000 = p := by omega
  have hmod : (0x3FF0000000000 + p * 4096 + off) % 0x1000 = off := by omega
  unfold blockOf
  simp only [within_iff]
  rw [if_neg (by omega), if_neg (by omega), if_neg (by omega), if_neg (by omega), if_neg (by omega), if_neg (by omega),
    if_pos (by omega), hrel, hmod]

/-- Below the device ranges there is no register. -/
theorem blockOf_none {a : Nat} (h : a < 0x3F00000000000) : blockOf a = none := by
  unfold blockOf
  simp only [within_iff]
  repeat rw [if_neg (by omega)]

/-- A store within one register. -/
theorem registerWrite_runs {a n off : Nat} {b : Block} (hb : blockOf a = some (b, off)) (hn : off % 8 + n ≤ 8) (v : Nat)
    (s : State) : exec (.registerWrite a n v) s
      = .next ((writeReg b (off / 8 * 8) (regPart off n (off / 8 * 8) v) s).getD s) := by
  show execRegisterWrite a n v s = _
  unfold execRegisterWrite
  rw [hb]
  exact if_pos (by rw [Bool.and_eq_true, decide_eq_true_eq, decide_eq_true_eq]; omega)

/-- The mask of one byte, and its complement. -/
theorem byteMask_byte : ∀ k < 8, ∀ j < 8,
    (byteMask (2 ^ k)).extractLsb' (8 * j) 8 = (if j = k then BitVec.allOnes 8 else 0#8)
      ∧ (~~~(byteMask (2 ^ k))).extractLsb' (8 * j) 8 = (if j = k then 0#8 else BitVec.allOnes 8) := by decide

/-- A write of one byte of a register leaves the others. -/
theorem byteWrite_over {w : RegWrite} {k j : Nat} (hk : k < 8) (hj : j < 8) (hw : w.mask = 2 ^ k) (old : Word) :
    fieldOf (w.over old (bitsFrom 0 63)) (8 * j) 8 = if j = k then fieldOf w.val (8 * j) 8 else fieldOf old (8 * j) 8 := by
  obtain ⟨hm, hc⟩ := byteMask_byte k hk j hj
  unfold RegWrite.over RegWrite.ones fieldOf
  rw [bitsFrom_whole, BitVec.and_allOnes, hw, BitVec.extractLsb'_or, BitVec.extractLsb'_and, BitVec.extractLsb'_and, hm, hc]
  split
  · rw [BitVec.and_allOnes, BitVec.and_zero, BitVec.zero_or]
  · rw [BitVec.and_allOnes, BitVec.and_zero, BitVec.or_zero]

/-- The part of a one-byte store in its register. -/
theorem regPart_byte {k : Nat} (hk : k < 8) (v : Nat) :
    regPart k 1 0 v = { mask := 2 ^ k, val := bv 64 (v % 256 * 256 ^ k) } := by
  unfold regPart
  dsimp only
  rw [Nat.max_eq_left (by omega), Nat.min_eq_left (by omega), Nat.add_sub_cancel_left, Nat.sub_self, Nat.sub_zero]
  simp

/-- The whole of an aligned 8-byte store is in its register. -/
theorem regPart_whole (off v : Nat) : regPart off 8 off v = wholeWrite v := by
  unfold regPart wholeWrite
  dsimp only
  rw [Nat.max_self, Nat.min_self, Nat.add_sub_cancel_left, Nat.sub_self]
  simp only [Nat.pow_zero, Nat.div_one, Nat.mul_one]
  rw [show 256 ^ 8 = 2 ^ 64 by decide]
  congr 1
  exact BitVec.eq_of_toNat_eq (by simp)

/-- A store of one byte of mtimecmp. -/
theorem timerByte_sets {h k v : Nat} {s : State} (hh : h < 9240) (hk : k < 8) :
    Ends (.registerWrite (0x3FE4000000000 + h * 64 + k) 1 v) s (fun t => t.mem = s.mem
      ∧ (∀ j < 8, fieldOf (t.hartAt h).ints.mtimecmp (8 * j) 8 =
          if j = k then v % 256 else fieldOf (s.hartAt h).ints.mtimecmp (8 * j) 8)
      ∧ ∀ g, g ≠ h → t.hartAt g = s.hartAt g) := by
  have hrun := registerWrite_runs (blockOf_ints hh (show k < 64 by omega)) (n := 1) (by omega) v s
  rw [show k / 8 * 8 = 0 by omega, regPart_byte hk] at hrun
  refine ⟨_, hrun, rfl, fun j hj => ?_, fun g hg => State.hartAt_setHartAt_ne s h g _ hg⟩
  simp only [writeReg, writeInts, Option.getD_some, State.modHart, State.hartAt_setHartAt_self]
  rw [byteWrite_over hk hj rfl]
  split
  · next hjk =>
    subst hjk
    rw [fieldOf_bv _ (by omega), pow_mul, show 2 ^ 8 = 256 by decide, Nat.mul_div_cancel _ (by positivity), Nat.mod_mod]
  · rfl

/-- A store of the whole of stimecmp. -/
theorem timerWord_sets {h v : Nat} {s : State} (hh : h < 9240) :
    Ends (.registerWrite (0x3FE4000000000 + h * 64 + 8) 8 v) s (fun t => t.mem = s.mem
      ∧ t.hartAt h = { s.hartAt h with ints := { (s.hartAt h).ints with stimecmp := bv 64 v } }
      ∧ ∀ g, g ≠ h → t.hartAt g = s.hartAt g) := by
  have hrun := registerWrite_runs (blockOf_ints hh (show 8 < 64 by decide)) (n := 8) (by decide) v s
  rw [show 8 / 8 * 8 = 8 by decide, regPart_whole] at hrun
  refine ⟨_, hrun, rfl, ?_, fun g hg => State.hartAt_setHartAt_ne s h g _ hg⟩
  simp only [writeReg, writeInts, Option.getD_some, State.modHart, State.hartAt_setHartAt_self, wholeWrite_over]

/-- A write of a read-only register of a partition has no effect. -/
theorem writePart_readOnly {off : Nat}
    (ho : off ∈ [0x000, 0x008, 0x010, 0x018, 0x020, 0x028, 0x030, 0x110, 0x1B0]) (p : Nat) (w : RegWrite) (s : State) :
    writePart p off w s = s := by
  simp only [List.mem_cons, List.not_mem_nil, or_false] at ho
  rcases ho with rfl | rfl | rfl | rfl | rfl | rfl | rfl | rfl | rfl <;> rfl

theorem readOnly_runs {p n off v : Nat} {s : State} (hp : p < 64) (hn : n ≤ 8)
    (ho : off ∈ [0x000, 0x008, 0x010, 0x018, 0x020, 0x028, 0x030, 0x110, 0x1B0]) :
    exec (.registerWrite (0x3FF0000000000 + p * 4096 + off) n v) s = .next s := by
  have hoff : off < 4096 ∧ off / 8 * 8 = off := by
    simp only [List.mem_cons, List.not_mem_nil, or_false] at ho
    omega
  obtain ⟨hlt, hal⟩ := hoff
  rw [registerWrite_runs (blockOf_part hp hlt) (by omega), hal]
  exact congrArg Host.Outcome.next (writePart_readOnly ho p _ s)

theorem noRegister_runs {a n v : Nat} {s : State} (ha : a < 0x3F00000000000) :
    exec (.registerWrite a n v) s = .next s := by
  show execRegisterWrite a n v s = _
  unfold execRegisterWrite
  rw [blockOf_none ha]

/-! ## The obligation -/

/-- Settles O50: each register's write is computed by the lemma about its register. -/
theorem registerWrites : Obligations.RegisterWrites := by
  unfold Obligations.RegisterWrites
  refine ⟨?partitions, ?others⟩
  case partitions =>
    intro s p v hp x w n gives
    refine ⟨?fring, ?dom, ?tseq, ?fbr, fclr_filters hp, fbrCtlWrite_clusters hp, ?tasks, fun _ _ hd => l2pinWrite_sets hp hd⟩
    case fring => exact fun _ hf => ⟨fun h => fringCtlWrite_sets hp (Ring.ctlFring_of_disabled h hf),
      fun h => fringCtlWrite_sets hp (Ring.writeEn_of_enabled h)⟩
    case dom => exact fun _ hf => ⟨fun h => domCtlWrite_sets hp (TableReg.ctlDom_of_disabled h hf),
      fun h => domCtlWrite_sets hp (TableReg.writeEn_of_enabled h)⟩
    case tseq => exact fun _ hf => ⟨fun h => tseqCtlWrite_sets hp (TableReg.ctlTseq_of_disabled h hf),
      fun h => tseqCtlWrite_sets hp (TableReg.writeEn_of_enabled h)⟩
    case fbr => exact fun _ hf => ⟨fun h => fbrCtlWrite_sets hp (Ring.ctlFbr_of_disabled h hf),
      fun h => fbrCtlWrite_sets hp (Ring.writeEn_of_enabled h)⟩
    case tasks =>
      intro die level hd hl r sets
      refine ⟨fun he hw hr => ?_, fun he hw => ?_, fun b he hb => ?_⟩
      · exact tqRingWrite_sets hp hd hl ((Ring.writeTq_of_enabled he w).trans (if_pos ⟨hw, hr⟩))
      · refine tqRingWrite_sets hp hd hl ((Ring.writeTq_of_enabled he w).trans (if_neg ?_))
        rintro ⟨hw', hr⟩
        rcases hw with hw | hw
        · exact absurd (hw.symm.trans hw') (by decide)
        · exact hw hr
      · obtain rfl : b = w &&& bitsFrom 10 49 :=
          BitVec.eq_of_toNat_eq (hb.trans (toNat_and_bitsFrom (lo := 10) (hi := 49) v (by decide) (by decide)).symm)
        refine ⟨fun hw hf => ?_, fun hf => ?_⟩
        · exact tqRingWrite_sets hp hd hl ((Ring.writeTq_of_disabled he w).trans (if_pos ⟨hw, hf⟩))
        · refine tqRingWrite_sets hp hd hl ((Ring.writeTq_of_disabled he w).trans (if_neg ?_))
          rintro ⟨hw', hf'⟩
          rcases hf with hw | hf
          · exact absurd (hw.symm.trans hw') (by decide)
          · exact hf hf'
  case others =>
    intro s v w
    refine ⟨?clusters, ?windows, ?dies, cold_runs s, warmreq_runs s, ?boot, ?retrain,
      fun h k hh hk => timerByte_sets hh hk, fun h hh => timerWord_sets hh,
      fun p n off hp hn ho => readOnly_runs hp hn ho, fun a n ha => noRegister_runs ha⟩
    case clusters =>
      intro c hc x sets
      exact ⟨fun hu => clMrgWrite_sets hc (if_neg (not_not_intro hu)), fun hu => clMrgWrite_sets hc (if_pos hu),
        fun core hk => clTregWrite_sets hc core hk⟩
    case windows =>
      intro h hk x
      exact ⟨fun hs hm => ⟨_, hartWresWrite_runs hk, writeReservation_kept hs hm w⟩,
        fun hn => ⟨_, hartWresWrite_runs hk, writeReservation_taken hn w⟩⟩
    case dies =>
      intro die hd x sets
      exact ⟨fun h => agentDead_sets hd (if_pos h), fun h => agentDead_sets hd (if_neg h),
        fun h => migRel_sets hd (if_pos h), fun h => migRel_sets hd (if_neg h)⟩
    case boot =>
      refine ⟨bootOk s, rfl, rfl, rfl, rfl, fun k h h' => ?_⟩
      have hk : (bootOk s).nov.fw[k] = (s.nov.fw[k]).proved := Vector.getElem_map Firmware.proved h'
      rw [hk]
      exact (s.nov.fw[k]).proved_spec
    case retrain =>
      intro p hp
      obtain ⟨hstate, htxq, hothers, hheld⟩ := retrainPort_spec s.chr hp
      exact ⟨_, if_pos hp, hstate, htxq, hothers, hheld, rfl⟩

end Sys2Proof.Machine
end

section
/-! SUPPORT. The save record as stored bytes (R364): its length, and where the registers of the hart stand in it. -/

namespace Sys2Proof.Machine

/-! ## Rows of blocks of equal length -/

theorem length_flatMap_blocks {α β : Type} {f : α → List β} {n : Nat} (hf : ∀ x, (f x).length = n) (l : List α) :
    (l.flatMap f).length = n * l.length := by
  rw [List.length_flatMap, List.map_congr_left (fun x _ => hf x), List.map_const', List.sum_replicate, smul_eq_mul, Nat.mul_comm]

/-- Block `i` within a row of blocks. -/
theorem flatMap_blocks_split {α β : Type} {f : α → List β} {n : Nat} (hf : ∀ x, (f x).length = n) {l : List α} {i : Nat}
    {x : α} (hx : l[i]? = some x) :
    ∃ p r, l.flatMap f = p ++ (f x ++ r) ∧ p.length = n * i := by
  obtain ⟨hi, rfl⟩ := List.getElem?_eq_some_iff.mp hx
  refine ⟨(l.take i).flatMap f, (l.drop (i + 1)).flatMap f, ?_, ?_⟩
  · conv_lhs => rw [← List.take_append_drop i l, List.drop_eq_getElem_cons hi]
    rw [List.flatMap_append, List.flatMap_cons]
  · rw [length_flatMap_blocks hf, List.length_take, Nat.min_eq_left hi.le]

section
variable {m : List Host.Cell} (hm : Memory.wf m) {a : Nat}
include hm

/-- A word of a row of stored words. -/
theorem read8_storedWords {ws : List Word} {i : Nat} {w : Word} (hw : ws[i]? = some w) (r : List Byte) :
    read8 (writeBytes m a (ws.flatMap (fun w => toBytes 8 w.toNat) ++ r)) (a + 8 * i) = w := by
  obtain ⟨p, q, hs, hp⟩ := flatMap_blocks_split (f := fun w : Word => toBytes 8 w.toNat) (fun _ => length_toBytes 8 _) hw
  rw [hs, List.append_assoc, List.append_assoc, ← hp, read8, readNat_writeBytes_within hm]
  apply BitVec.eq_of_toNat_eq
  rw [BitVec.toNat_ofNat, show 256 ^ 8 = 2 ^ 64 by decide, Nat.mod_mod, Nat.mod_eq_of_lt w.isLt]

/-- A byte of a stored register. -/
theorem readByte_storedRegister {w : Nat} (x : BitVec w) (p r : List Byte) {n j : Nat} (hj : j < n) :
    readByte (writeBytes m a (p ++ (bytesOf x n ++ r))) (a + p.length + j) = x.extractLsb' (8 * j) 8 := by
  have hn : (bytesOf x n).length = n := length_toBytes n _
  have hb := readBytes_writeBytes_within hm a p (bytesOf x n ++ r) n (by rw [List.length_append]; omega)
  rw [List.take_left' hn] at hb
  have hi := congrArg (·[j]?) hb
  simp only [getElem?_readBytes, if_pos hj, bytesOf, getElem?_toBytes] at hi
  rw [show 256 ^ j = 2 ^ (8 * j) by rw [pow_mul, show 2 ^ 8 = 256 from rfl]] at hi
  rw [show (bytesOf x n) = toBytes n x.toNat from rfl, Option.some.inj hi]
  apply BitVec.eq_of_toNat_eq
  rw [BitVec.toNat_ofNat, BitVec.extractLsb'_toNat, Nat.shiftRight_eq_div_pow]

/-- A byte of a register in a row of stored registers. -/
theorem readByte_storedRegisters {k : Nat} (p r : List Byte) (v : Vector VReg k) {i j : Nat} (hi : i < k) (hj : j < 1024) :
    readByte (writeBytes m a (p ++ (v.toList.flatMap (fun x => bytesOf x 1024) ++ r))) (a + p.length + 1024 * i + j)
      = v[i].extractLsb' (8 * j) 8 := by
  have hx : v.toList[i]? = some v[i] := by simp
  obtain ⟨q, t, hs, hq⟩ := flatMap_blocks_split (f := fun x : VReg => bytesOf x 1024) (fun _ => length_toBytes 1024 _) hx
  have := readByte_storedRegister hm (a := a) v[i] (p ++ q) (t ++ r) hj
  rw [List.length_append, hq] at this
  rw [hs, ← this]
  simp only [List.append_assoc, Nat.add_assoc]

end

/-! ## The words of the record -/

/-- The words behind the registers: shadows, streams and windows. -/
def recordTail (h : Hart) : List Word :=
  h.shadow.toList ++ ((List.range 4).flatMap (fun q => match h.stream q with
      | some st => st.saved
      | none => List.replicate 8 0) ++ recordWindows h)

/-- The turn word of the record. -/
def recordTurn (h : Hart) : Word :=
  match h.run.turn with
  | some (q, k) => bv 64 (q + k * 2 ^ 32)
  | none => 0

theorem recordWords_eq (h : Hart) (len : Nat) : recordWords h len
    = [recordHeader h len, recordTurn h, h.ctl.rpc] ++ (h.x.toList.drop 1 ++ (h.f.toList
        ++ ([h.fcsr.setWidth 64] ++ (recordRegs h ++ recordTail h)))) := by
  unfold recordWords recordTail
  simp only [List.append_assoc]
  rfl

theorem length_recordTail (h : Hart) : (recordTail h).length = 52 := by
  have hs : ∀ q, (match h.stream q with
      | some st => st.saved
      | none => List.replicate 8 (0 : Word)).length = 8 := by
    intro q
    split <;> rfl
  unfold recordTail recordWindows
  simp only [List.length_append, Vector.length_toList, length_flatMap_blocks hs, List.length_range]
  rfl

theorem length_recordWords (h : Hart) (len : Nat) : (recordWords h len).length = 133 := by
  rw [recordWords_eq]
  simp [length_recordTail, recordRegs]

section
variable (h : Hart) (len : Nat)

theorem recordWords_header : (recordWords h len)[0]? = some (recordHeader h len) := by
  rw [recordWords_eq]
  rfl

theorem recordWords_pc : (recordWords h len)[2]? = some h.ctl.rpc := by
  rw [recordWords_eq]
  rfl

theorem recordWords_x {i : Nat} (hi : i < 32) (h0 : 0 < i) : (recordWords h len)[2 + i]? = some h.x[i] := by
  rw [recordWords_eq, List.getElem?_append_right (by simp; omega), List.getElem?_append_left (by simp; omega)]
  simp [show 2 + i - 3 + 1 = i by omega]

theorem recordWords_f {i : Nat} (hi : i < 32) : (recordWords h len)[34 + i]? = some h.f[i] := by
  rw [recordWords_eq, List.getElem?_append_right (by simp; omega), List.getElem?_append_right (by simp; omega),
    List.getElem?_append_left (by simp; omega)]
  simp [show 34 + i - 3 - 31 = i by omega]

/-- FCSR, and the registers of R19 to R27. -/
theorem recordWords_regs {i : Nat} (hi : i < 15) :
    (recordWords h len)[66 + i]? = (h.fcsr.setWidth 64 :: recordRegs h)[i]? := by
  have hl : (h.fcsr.setWidth 64 :: recordRegs h).length = 15 := rfl
  rw [recordWords_eq, List.getElem?_append_right (by simp; omega), List.getElem?_append_right (by simp; omega),
    List.getElem?_append_right (by simp; omega), ← List.append_assoc, List.getElem?_append_left (by simp [recordRegs]; omega)]
  simp [show 66 + i - 3 - 31 - 32 = i by omega]

end

/-! ## The header -/

/-- Bit flags of the numbers below `n` that a test selects. -/
theorem foldl_bits_lt (p : Nat → Bool) (n : Nat) :
    (List.range n).foldl (fun m i => if p i = true then m + 2 ^ i else m) 0 < 2 ^ n := by
  induction n with
  | zero => exact Nat.one_pos
  | succ n ih =>
    rw [List.range_succ, List.foldl_append, List.foldl_cons, List.foldl_nil, Nat.pow_succ]
    split <;> omega

theorem slotBits_lt {α : Type} (l : List (Option α)) : slotBits l < 16 :=
  foldl_bits_lt (fun i => ((l[i]?).getD none).isSome) 4

section
variable (h : Hart) {len : Nat}

theorem recordHeader_len (hl : len < 2 ^ 32) : fieldOf (recordHeader h len) 32 32 = len := by
  have hs := slotBits_lt h.run.streams.toList
  have hw := slotBits_lt ((List.range 4).map h.declaredAt)
  have ht := Bool.toNat_le h.run.turn.isSome
  have hm := code_lt h.ctl.mode
  unfold recordHeader
  rw [fieldOf_bv _ (by decide)]
  omega

theorem recordHeader_mode : Priv.ofCode (fieldOf (recordHeader h len) 9 2) = h.ctl.mode := by
  have hs := slotBits_lt h.run.streams.toList
  have hw := slotBits_lt ((List.range 4).map h.declaredAt)
  have ht := Bool.toNat_le h.run.turn.isSome
  have hm := code_lt h.ctl.mode
  have hf : fieldOf (recordHeader h len) 9 2 = h.ctl.mode.code := by
    unfold recordHeader
    rw [fieldOf_bv _ (by decide)]
    omega
  rw [hf]
  cases h.ctl.mode <;> rfl

end

/-! ## The whole record -/

/-- The length of the lane copies of windows. -/
theorem foldl_lanes (l : List Nat) (n : Nat) : l.foldl (fun n k => n + 16 * k) n = n + (l.map (16 * ·)).sum := by
  induction l generalizing n with
  | nil => rfl
  | cons k l ih => rw [List.foldl_cons, ih, List.map_cons, List.sum_cons, Nat.add_assoc]

theorem length_tileSaved (t : Tile) : t.saved.length = 1088 := by
  unfold Tile.saved bytesOf
  simp [length_toBytes, List.length_flatMap]

theorem length_bbufSaved (b : BBuf) : b.saved.length = 2112 := by
  unfold BBuf.saved bytesOf
  simp [length_toBytes]

/-- What follows the fixed part: lanes, tiles and B buffers. -/
def recordRest (s : State) (h : Nat) : List Byte :=
  let x := s.hartAt h
  x.declared.flatMap (fun w => readBytes s.mem (16 * w.size) (laneAddr h w.wbase.toNat 0 0))
    ++ ((grantedTiles s h).flatMap Tile.saved ++ ((x.bbuf 0).saved ++ (x.bbuf 1).saved))

/-- The length of the record of a hart. -/
def Hart.recordLength (x : Hart) : Nat := recordLen (x.declared.map Window.size) x.grantTiles

theorem recordBytes_eq (s : State) (h : Nat) : recordBytes s h
    = recordFixed (s.hartAt h) (s.hartAt h).recordLength
      ++ recordRest s h := by
  unfold recordBytes recordRest Hart.recordLength
  simp only [List.append_assoc]

/-- The words of the record, and the zeros up to the vector registers. -/
def recordFront (h : Hart) (len : Nat) : List Byte :=
  (recordWords h len).flatMap (fun w => toBytes 8 w.toNat) ++ List.replicate (0x800 - 0x428) 0

theorem recordFixed_eq (h : Hart) (len : Nat) : recordFixed h len
    = recordFront h len ++ (h.vec.v.toList.flatMap (fun r => bytesOf r 1024)
        ++ h.vec.m.toList.flatMap (fun r => bytesOf r 1024)) := by
  unfold recordFixed recordFront
  simp only [List.append_assoc]

theorem length_recordFront (h : Hart) (len : Nat) : (recordFront h len).length = 0x800 := by
  unfold recordFront
  rw [List.length_append, length_flatMap_blocks (n := 8) (fun _ => length_toBytes 8 _), length_recordWords,
    List.length_replicate]

theorem length_registers {k : Nat} (v : Vector VReg k) : (v.toList.flatMap (fun r => bytesOf r 1024)).length = 1024 * k := by
  rw [length_flatMap_blocks (f := fun r : VReg => bytesOf r 1024) (fun _ => length_toBytes 1024 _), Vector.length_toList]

theorem length_recordBytes (s : State) (h : Nat) : (recordBytes s h).length
    = (s.hartAt h).recordLength := by
  have hl : ((s.hartAt h).declared.flatMap
      (fun w => readBytes s.mem (16 * w.size) (laneAddr h w.wbase.toNat 0 0))).length
      = ((s.hartAt h).declared.map Window.size).foldl (fun n k => n + 16 * k) 0 := by
    rw [foldl_lanes, Nat.zero_add, List.length_flatMap, List.map_map]
    congr 1
    apply List.map_congr_left
    intro w _
    rw [readBytes_eq_map, List.length_map, List.length_range]
    rfl
  have hg : (grantedTiles s h).length = (s.hartAt h).grantTiles := by
    unfold grantedTiles
    rw [List.length_map, List.length_range]
  rw [recordBytes_eq, recordFixed_eq]
  unfold recordRest Hart.recordLength recordLen
  simp only [List.length_append, length_recordFront, length_registers, hl, length_flatMap_blocks length_tileSaved, hg,
    length_bbufSaved]
  omega

section
variable {s : State} {h : Nat} {m : List Host.Cell} (hm : Memory.wf m) (a : Nat)
include hm

/-- A word of the stored record. -/
theorem read8_record {i : Nat} {w : Word} (hw : (recordWords (s.hartAt h)
      (s.hartAt h).recordLength)[i]? = some w) :
    read8 (writeBytes m a (recordBytes s h)) (a + 8 * i) = w := by
  rw [recordBytes_eq, recordFixed_eq, recordFront, List.append_assoc, List.append_assoc]
  exact read8_storedWords hm hw _

theorem read8_record_header : read8 (writeBytes m a (recordBytes s h)) a
    = recordHeader (s.hartAt h) (s.hartAt h).recordLength :=
  read8_record hm a (i := 0) (recordWords_header _ _)

/-- A byte of a vector register in the stored record. -/
theorem readByte_record_v {r j : Nat} (hr : r < 32) (hj : j < 1024) :
    readByte (writeBytes m a (recordBytes s h)) (a + 0x800 + 1024 * r + j)
      = (s.hartAt h).vec.v[r].extractLsb' (8 * j) 8 := by
  rw [recordBytes_eq, recordFixed_eq, List.append_assoc, List.append_assoc, ← length_recordFront (s.hartAt h)
    (s.hartAt h).recordLength]
  exact readByte_storedRegisters hm _ _ (s.hartAt h).vec.v hr hj

/-- A byte of a mask register in the stored record. -/
theorem readByte_record_m {r j : Nat} (hr : r < 8) (hj : j < 1024) :
    readByte (writeBytes m a (recordBytes s h)) (a + 0x8800 + 1024 * r + j)
      = (s.hartAt h).vec.m[r].extractLsb' (8 * j) 8 := by
  have hp : (recordFront (s.hartAt h) (s.hartAt h).recordLength
      ++ (s.hartAt h).vec.v.toList.flatMap (fun r => bytesOf r 1024)).length = 0x8800 := by
    rw [List.length_append, length_recordFront, length_registers]
  rw [recordBytes_eq, recordFixed_eq, ← List.append_assoc, List.append_assoc, ← hp]
  exact readByte_storedRegisters hm _ _ (s.hartAt h).vec.m hr hj

end

/-- What the stored record holds of a hart (R364). -/
structure RecordHolds (m : List Host.Cell) (a : Nat) (y : Hart) : Prop where
  len : fieldOf (read8 m a) 32 32 = y.recordLength
  mode : Priv.ofCode (fieldOf (read8 m a) 9 2) = y.ctl.mode
  pc : read8 m (a + 0x10) = y.ctl.rpc
  x : ∀ i, (hi : i < 32) → 0 < i → read8 m (a + 0x10 + 8 * i) = y.x[i]
  f : ∀ i, (hi : i < 32) → read8 m (a + 0x110 + 8 * i) = y.f[i]
  fcsr : read8 m (a + 0x210) = y.fcsr.setWidth 64
  vl : read8 m (a + 0x218) = y.vec.vl.setWidth 64
  vtype : read8 m (a + 0x220) = y.vec.vtype
  velem : read8 m (a + 0x228) = y.vec.velem.setWidth 64
  vpfx : read8 m (a + 0x230) = y.vec.vpfx.setWidth 64
  task : read8 m (a + 0x248) = y.dev.task
  chan : read8 m (a + 0x250) = y.dev.chan
  v : ∀ r, (hr : r < 32) → ∀ j < 1024, readByte m (a + 0x800 + 1024 * r + j) = y.vec.v[r].extractLsb' (8 * j) 8
  m : ∀ r, (hr : r < 8) → ∀ j < 1024, readByte m (a + 0x8800 + 1024 * r + j) = y.vec.m[r].extractLsb' (8 * j) 8

theorem recordHolds {s : State} {h : Nat} {m : List Host.Cell} (hm : Memory.wf m) (a : Nat)
    (hl : (s.hartAt h).recordLength < 2 ^ 32) :
    RecordHolds (writeBytes m a (recordBytes s h)) a (s.hartAt h) where
  len := by rw [read8_record_header hm a, recordHeader_len _ hl]
  mode := by rw [read8_record_header hm a, recordHeader_mode]
  pc := read8_record hm a (i := 2) (recordWords_pc _ _)
  x i hi h0 := by
    rw [Nat.add_assoc, show 0x10 + 8 * i = 8 * (2 + i) by omega]
    exact read8_record hm a (recordWords_x _ _ hi h0)
  f i hi := by
    rw [Nat.add_assoc, show 0x110 + 8 * i = 8 * (34 + i) by omega]
    exact read8_record hm a (recordWords_f _ _ hi)
  fcsr := read8_record hm a (i := 66 + 0) (recordWords_regs _ _ (i := 0) (by decide))
  vl := read8_record hm a (i := 66 + 1) (recordWords_regs _ _ (i := 1) (by decide))
  vtype := read8_record hm a (i := 66 + 2) (recordWords_regs _ _ (i := 2) (by decide))
  velem := read8_record hm a (i := 66 + 3) (recordWords_regs _ _ (i := 3) (by decide))
  vpfx := read8_record hm a (i := 66 + 4) (recordWords_regs _ _ (i := 4) (by decide))
  task := read8_record hm a (i := 66 + 7) (recordWords_regs _ _ (i := 7) (by decide))
  chan := read8_record hm a (i := 66 + 8) (recordWords_regs _ _ (i := 8) (by decide))
  v _ hr _ hj := readByte_record_v hm a hr hj
  m _ hr _ hj := readByte_record_m hm a hr hj

end Sys2Proof.Machine
end

section
/-! SUPPORT. Pre-emption (R362, R363): a halted hart, and its record stored region by region. -/

namespace Sys2Proof.Machine

/-! ## A span of memory of the package -/

theorem isFar_iff (s : State) (a : Nat) : isFar s a = true ↔ ∃ d, regionOf s a = .far d := by
  unfold isFar
  split
  · next d hd => exact ⟨fun _ => ⟨d, hd⟩, fun _ => rfl⟩
  · next hn => exact ⟨fun h => (nomatch h), fun ⟨d, hd⟩ => absurd hd (hn d)⟩

/-- Below the devices an address is the package's own memory, another module's, or none. -/
theorem regionOf_of_low {s : State} {a : Nat} (ha : a < 2 ^ 46) :
    regionOf s a = .own ∨ regionOf s a = .hole ∨ ∃ d, regionOf s a = .far d := by
  unfold regionOf
  rw [if_pos ha]
  split
  · exact .inl rfl
  · split
    · exact .inr (.inl rfl)
    · split
      · exact .inl rfl
      · exact .inr (.inr ⟨_, rfl⟩)

/-- Memory of another module is below the devices, and is not the package's own. -/
theorem isFar_bounds {s : State} {a : Nat} (h : isFar s a = true) : a < 2 ^ 46 ∧ isOwnMem s a = false := by
  obtain ⟨d, hd⟩ := (isFar_iff s a).mp h
  unfold regionOf at hd
  split at hd
  · next ha =>
    split at hd
    · cases hd
    · next ho => exact ⟨ha, Bool.not_eq_true _ ▸ ho⟩
  · split at hd
    · cases hd
    · split at hd
      · cases hd
      · split at hd <;> cases hd

/-- The package's own memory is one interval. -/
theorem isOwnMem_between {s : State} {a b q : Nat} (ha : isOwnMem s a = true) (hb : isOwnMem s b = true) (hq : a ≤ q)
    (hn : q ≤ b) : isOwnMem s q = true := by
  unfold isOwnMem at *
  rw [Bool.and_eq_true, decide_eq_true_eq, decide_eq_true_eq] at *
  omega

/-- A region that a partition's agents can write, and that does not begin on another module, has no part there. -/
theorem not_isFar_of_owned {s : State} {p b n q : Nat} (ho : regionOwned s p b n = true) (hb : isFar s b = false)
    (hq : b ≤ q) (hn : q < b + n) : isFar s q = false := by
  rw [Bool.eq_false_iff]
  intro hf
  obtain ⟨hlow, hown⟩ := isFar_bounds hf
  unfold regionOwned at ho
  rcases regionOf_of_low (s := s) (lt_of_le_of_lt hq hlow) with hr | hr | ⟨d, hr⟩
  · rw [hr] at ho
    unfold writable at ho
    simp only [Bool.and_eq_true] at ho
    obtain ⟨⟨⟨h0, h1⟩, -⟩, -⟩ := ho
    rw [isOwnMem_between h0 h1 hq (by omega)] at hown
    cases hown
  · rw [hr] at ho
    cases ho
  · rw [(isFar_iff s b).mpr ⟨d, hr⟩] at hb
    cases hb

/-- A span that a partition's agents can write has no part on another module where none of its 128-byte parts has. -/
theorem not_isFar_of_span {s : State} {p a n q : Nat} (ho : spanOwned s p a n = true) (hf : farParts s a n = [])
    (hq : a ≤ q) (hn : q < a + n) : isFar s q = false := by
  have hd : (q - a) / 256 * 256 ≤ q - a ∧ q - a < (q - a) / 256 * 256 + 256 := by omega
  generalize (q - a) / 256 = i at hd
  unfold spanOwned at ho
  rw [List.all_eq_true] at ho
  have hi := ho i (List.mem_range.mpr (by omega))
  rw [Bool.or_eq_true, decide_eq_true_eq] at hi
  refine not_isFar_of_owned (hi.resolve_left (by omega)) ?_ (by omega) (by omega)
  rw [Bool.eq_false_iff]
  intro hfar
  have hm : a + 256 * i ∈ farParts s a n := by
    unfold farParts
    refine List.mem_filter.mpr ⟨List.mem_map.mpr ⟨2 * i, List.mem_range.mpr (by omega), by omega⟩, ?_⟩
    rw [hfar, Bool.and_true, decide_eq_true_eq]
    omega
  rw [hf] at hm
  cases hm

section
variable {s t : State} (hc : t.chr = s.chr)
include hc

/-- Which memory is another module's depends on this module's place among them. -/
theorem isFar_of (a : Nat) : isFar t a = isFar s a := by
  unfold isFar regionOf isOwnMem ownBase
  rw [hc]

theorem farParts_of (a n : Nat) : farParts t a n = farParts s a n := by
  unfold farParts
  simp only [isFar_of hc]

/-- Who can write a span depends on the partitions and the module's place. -/
theorem spanOwned_of (hp : t.parts = s.parts) (p a n : Nat) : spanOwned t p a n = spanOwned s p a n := by
  unfold spanOwned regionOwned regionOf writable ownerOf isOwnMem ownBase partOfCluster deliverable upPorts
  rw [hc, hp]

end

/-! ## Storing region by region -/

theorem storeRegions_nil (w : Writer) (p n a : Nat) (s : State) : storeRegions w p n a [] s = s := by
  cases n <;> rfl

/-- Bytes none of which is on another module are stored at once, where every home is open. -/
theorem storeRegions_pushed (hart p : Nat) {n a : Nat} {bs : List Byte} {s : State} (hn : bs.length + a % 256 ≤ 256 * n)
    (ho : ∀ b k, HomeOpen s b k) (hf : ∀ q, a ≤ q → q < a + bs.length → isFar s q = false) :
    Pushed s (storeRegions { hart := hart, scalar := true } p n a bs s) a bs := by
  induction n generalizing a bs s with
  | zero =>
    obtain rfl : bs = [] := List.length_eq_zero_iff.mp (by omega)
    exact Pushed.refl s a
  | succ n ih =>
    cases bs with
    | nil => exact Pushed.refl s a
    | cons b l =>
      have hnear : isFar s a = false := hf a le_rfl (by simp)
      rw [storeRegions, if_neg (show ¬ (b :: l).isEmpty = true from Bool.false_ne_true), if_neg (by rw [hnear]; decide)]
      generalize hbs : b :: l = bs at hn hf ⊢
      generalize hk : 256 - a % 256 = k
      have first := pushStore_pushed (ho a (bs.take k).length) hart
      have rest := ih (a := a + k) (bs := bs.drop k) (by rw [List.length_drop]; omega)
        (fun b k => (ho b k).of_pushed first)
        (fun q h0 h1 => (isFar_of first.chr q).trans (hf q (by omega) (by rw [List.length_drop] at h1; omega)))
      by_cases hl : k ≤ bs.length
      · have hlen : (bs.take k).length = k := by rw [List.length_take, Nat.min_eq_left hl]
        rw [← List.take_append_drop k bs]
        refine first.trans ?_
        rw [List.take_append_drop, hlen]
        exact rest
      · have hd : bs.drop k = [] := List.drop_eq_nil_of_le (by omega)
        have ht : bs.take k = bs := List.take_of_length_le (by omega)
        dsimp only
        rw [hd, storeRegions_nil, ht]
        rwa [ht] at first

/-- Bytes of a span that a partition's agents can write are stored at once. -/
theorem storePhys_pushed {s : State} {hart p q a : Nat} {bs : List Byte} (hi : HomesIdle s)
    (ho : spanOwned s p a bs.length = true) (hf : farParts s a bs.length = []) :
    Pushed s (storePhys { hart := hart, scalar := true } q a bs s) a bs :=
  storeRegions_pushed hart q (by omega) (fun b k => hi.open b k) (fun _ h0 h1 => not_isFar_of_span ho hf h0 h1)

/-! ## A halted hart -/

section
variable {s u : State} {h : Nat}

theorem endLease_of_none (hl : (s.hartAt h).liveLeases = 0) (i : Nat) : endLease s h i = s := by
  have hn : (s.hartAt h).run.leases[i % 2]'(Nat.mod_lt _ (by decide)) = none := by
    unfold Hart.liveLeases at hl
    have := List.filter_eq_nil_iff.mp (List.length_eq_zero_iff.mp hl) _
      (Vector.mem_toList_iff.mpr (Vector.getElem_mem (Nat.mod_lt i (show 0 < 2 by decide))))
    rwa [Bool.not_eq_true, Option.isSome_eq_false_iff, Option.isNone_iff_eq_none] at this
  unfold endLease
  dsimp only
  rw [hn]

/-- A hart without leases has none to end. -/
theorem endLeases_of_none (hl : (s.hartAt h).liveLeases = 0) : endLeases h s = s := by
  unfold endLeases
  rw [endLease_of_none hl, endLease_of_none hl]

/-- A hart halted at its PC. -/
def Hart.haltedAt (x : Hart) (cause : Nat) : Hart :=
  let y := x.interrupted.parkAt cause x.pc
  { y with
    run := { y.run with resv := none, queue := [] }
    ctl := { y.ctl with recordOk := false } }

/-- A hart without leases and without a user-level interrupt due halts where it is. -/
theorem haltHart_eq (hl : (s.hartAt h).liveLeases = 0) (hu : (s.hartAt h).uiDue = none) (cause : Nat) :
    haltHart h cause s = (settleReads h 0 s).modHart h (fun x => x.haltedAt cause) := by
  unfold haltHart canTakeUi
  rw [endLeases_of_none hl, hu]
  rfl

/-- A hart has halted: beside its own state, only answers of other modules and copies may be gone. -/
structure HaltedFrom (s u : State) (h : Nat) (pc : Word) (mode : Priv) : Prop where
  rest : u = { s with harts := u.harts, coh := { s.coh with remote := u.coh.remote, copies := u.coh.copies } }
  answers : ∀ r ∈ u.coh.remote, r ∈ s.coh.remote
  x : (u.hartAt h).x = (s.hartAt h).x
  f : (u.hartAt h).f = (s.hartAt h).f
  fcsr : (u.hartAt h).fcsr = (s.hartAt h).fcsr
  vec : (u.hartAt h).vec = (s.hartAt h).vec
  dev : (u.hartAt h).dev = (s.hartAt h).dev
  parked : (u.hartAt h).ctl.parked = true
  rpc : (u.hartAt h).ctl.rpc = pc
  mode : (u.hartAt h).ctl.mode = mode
  base : (u.hartAt h).ctl.saveBase = (s.hartAt h).ctl.saveBase
  windows : (u.hartAt h).run.windows = (s.hartAt h).run.windows
  leases : (u.hartAt h).run.leases = (s.hartAt h).run.leases

/-- A parked hart has halted where it stands. -/
theorem haltedFrom_parked (hp : (s.hartAt h).ctl.parked = true) :
    HaltedFrom s s h (s.hartAt h).ctl.rpc (s.hartAt h).ctl.mode :=
  ⟨rfl, fun _ hr => hr, rfl, rfl, rfl, rfl, rfl, hp, rfl, rfl, rfl, rfl, rfl⟩

/-- A running hart halts at its PC in its mode. -/
theorem haltedFrom_haltHart (hl : (s.hartAt h).liveLeases = 0) (hu : (s.hartAt h).uiDue = none) (cause : Nat) :
    HaltedFrom s (haltHart h cause s) h (s.hartAt h).pc (s.hartAt h).priv := by
  rw [haltHart_eq hl hu]
  have hh : ((settleReads h 0 s).modHart h (fun x => x.haltedAt cause)).hartAt h = (s.hartAt h).haltedAt cause := by
    rw [modHart_hartAt_self]
    rfl
  refine ⟨rfl, fun r hr => List.mem_of_mem_filter hr, ?_, ?_, ?_, ?_, ?_, ?_, ?_, ?_, ?_, ?_, ?_⟩
  all_goals rw [hh]; rfl

/-! ## Answers that are gone -/

/-- Only answers of other modules, and copies, are gone. -/
structure AnswersGone (s u : State) : Prop where
  rest : u = { s with coh := { s.coh with remote := u.coh.remote, copies := u.coh.copies } }
  answers : ∀ r ∈ u.coh.remote, r ∈ s.coh.remote

theorem AnswersGone.trans {s t u : State} (h : AnswersGone s t) (k : AnswersGone t u) : AnswersGone s u := by
  refine ⟨?_, fun r hr => h.answers r (k.answers r hr)⟩
  conv_lhs => rw [k.rest, h.rest]

theorem settleReads_gone (h i : Nat) (s : State) : AnswersGone s (settleReads h i s) :=
  ⟨rfl, fun _ hr => List.mem_of_mem_filter hr⟩

theorem settleStreams_gone (h : Nat) (s : State) : AnswersGone s (settleStreams h s) :=
  (settleReads_gone h 1 s).trans ((settleReads_gone h 2 _).trans ((settleReads_gone h 3 _).trans (settleReads_gone h 4 _)))

theorem AnswersGone.mem {s u : State} (h : AnswersGone s u) : u.mem = s.mem := by rw [h.rest]
theorem AnswersGone.harts {s u : State} (h : AnswersGone s u) : u.harts = s.harts := by rw [h.rest]
theorem AnswersGone.chr {s u : State} (h : AnswersGone s u) : u.chr = s.chr := by rw [h.rest]
theorem AnswersGone.parts {s u : State} (h : AnswersGone s u) : u.parts = s.parts := by rw [h.rest]
theorem AnswersGone.commits {s u : State} (h : AnswersGone s u) : u.coh.commits = s.coh.commits := by rw [h.rest]
theorem AnswersGone.queued {s u : State} (h : AnswersGone s u) : u.coh.queued = s.coh.queued := by rw [h.rest]
theorem AnswersGone.net {s u : State} (h : AnswersGone s u) : u.coh.net = s.coh.net := by rw [h.rest]

theorem AnswersGone.hartAt {s u : State} (h : AnswersGone s u) (k : Nat) : u.hartAt k = s.hartAt k := by
  unfold State.hartAt
  rw [h.harts]

theorem AnswersGone.homesIdle {s u : State} (h : AnswersGone s u) (hi : HomesIdle s) : HomesIdle u := by
  obtain ⟨⟨leases, queued, commits, evicting, migs⟩, stepwise⟩ := hi
  rw [h.rest]
  exact ⟨⟨leases, queued, commits, evicting, migs⟩, stepwise⟩

/-- The partition of an agent depends on the partitions. -/
theorem partOf_of {s t : State} (hp : t.parts = s.parts) (h : Nat) : partOf t h = partOf s h := by
  unfold partOf partOfCluster
  rw [hp]

theorem HomesIdle.modHart {s : State} (hi : HomesIdle s) (h : Nat) (g : Hart → Hart) : HomesIdle (s.modHart h g) := by
  obtain ⟨⟨leases, queued, commits, evicting, migs⟩, stepwise⟩ := hi
  exact ⟨⟨leases, queued, commits, evicting, migs⟩, stepwise⟩

/-! ## The record of a halted hart is stored -/

/-- A halted hart whose record is about to be written. -/
def recordedState (h : Nat) (u : State) : State := (settleStreams h u).modHart h Hart.beforeSave

theorem keepTask_coh (s : State) (h : Nat) : (keepTask s h).coh = s.coh := rfl
theorem recordedState_coh : (recordedState h u).coh = (settleStreams h u).coh := rfl
theorem recordedState_mem : (recordedState h u).mem = u.mem := (settleStreams_gone h u).mem
theorem recordedState_chr : (recordedState h u).chr = u.chr := (settleStreams_gone h u).chr
theorem recordedState_parts : (recordedState h u).parts = u.parts := (settleStreams_gone h u).parts

theorem recordedState_homesIdle (hi : HomesIdle u) : HomesIdle (recordedState h u) :=
  ((settleStreams_gone h u).homesIdle hi).modHart h Hart.beforeSave

theorem recordedState_hartAt : (recordedState h u).hartAt h = (u.hartAt h).beforeSave := by
  unfold recordedState
  rw [modHart_hartAt_self, (settleStreams_gone h u).hartAt]

/-- Whether a write of a record is under way depends on the stores that are under way. -/
theorem recordBusy_of (hb : recordBusy s h = false) (hc : u.coh.commits = s.coh.commits) (hq : u.coh.queued = s.coh.queued)
    (hn : u.coh.net = s.coh.net) (hr : ∀ r ∈ u.coh.remote, r ∈ s.coh.remote) : recordBusy u h = false := by
  unfold recordBusy unsettled at hb ⊢
  rw [Bool.or_eq_false_iff] at hb ⊢
  rw [hc, hq, hn]
  obtain ⟨hstores, hremote⟩ := hb
  refine ⟨hstores, ?_⟩
  rw [List.any_eq_false] at hremote ⊢
  exact fun r hm => hremote r (hr r hm)

/-- The state that saves a hart without leases, up to DONE. -/
theorem saveContext_eq (hl : (u.hartAt h).liveLeases = 0) : saveContext h u
    = if spanOwned (recordedState h u) (partOf (recordedState h u) h) ((recordedState h u).hartAt h).ctl.saveBase.toNat
          (recordBytes (recordedState h u) h).length then
        finishSave h ((keepTask (storePhys { hart := h, scalar := true } (partOf (recordedState h u) h)
          ((recordedState h u).hartAt h).ctl.saveBase.toNat (recordBytes (recordedState h u) h) (recordedState h u)) h).modHart h
            Hart.savedAway)
      else (recordedState h u).modHart h (fun x => x.withCtl (fun c => { c with serr := true, preempt := false })) := by
  unfold saveContext
  rw [endLeases_of_none hl]
  rfl

/-- A halted hart's record is where and as long as the hart says. -/
theorem recordedState_span :
    ((recordedState h u).hartAt h).ctl.saveBase = (u.hartAt h).ctl.saveBase
      ∧ (recordBytes (recordedState h u) h).length = (u.hartAt h).recordLength
      ∧ ∀ n, spanOwned (recordedState h u) (partOf (recordedState h u) h) (u.hartAt h).ctl.saveBase.toNat n
        = spanOwned u (partOf u h) (u.hartAt h).ctl.saveBase.toNat n := by
  refine ⟨?_, ?_, fun n => ?_⟩
  · rw [recordedState_hartAt]
    rfl
  · rw [length_recordBytes, recordedState_hartAt]
    rfl
  · rw [spanOwned_of recordedState_chr recordedState_parts, partOf_of recordedState_parts]

/-- A record that a partition's agents can write is stored, and DONE is set. -/
theorem saveContext_owned (hl : (u.hartAt h).liveLeases = 0) (hi : HomesIdle u) (hb : recordBusy u h = false)
    (ho : spanOwned u (partOf u h) (u.hartAt h).ctl.saveBase.toNat (u.hartAt h).recordLength = true)
    (hf : farParts u (u.hartAt h).ctl.saveBase.toNat (u.hartAt h).recordLength = []) :
    (saveContext h u).mem = writeBytes u.mem (u.hartAt h).ctl.saveBase.toNat (recordBytes (recordedState h u) h)
      ∧ ∃ z, SeesStore (u.hartAt h).beforeSave z ∧ (saveContext h u).hartAt h
          = z.savedAway.withCtl (fun c => { c with saving := false, preempt := false, done := !c.serr }) := by
  obtain ⟨hbase, hlen, hown⟩ := recordedState_span (u := u) (h := h)
  have hov := (hown (recordBytes (recordedState h u) h).length).trans (hlen ▸ ho)
  have hpush := storePhys_pushed (hart := h) (q := partOf (recordedState h u) h) (recordedState_homesIdle hi) hov
    (by rw [hlen, farParts_of recordedState_chr, hf])
  rw [saveContext_eq hl, hbase, if_pos hov]
  generalize storePhys { hart := h, scalar := true } (partOf (recordedState h u) h) (u.hartAt h).ctl.saveBase.toNat
    (recordBytes (recordedState h u) h) (recordedState h u) = w at hpush ⊢
  have gone := settleStreams_gone h u
  have hbw : recordBusy ((keepTask w h).modHart h Hart.savedAway) h = false := by
    have hcoh : w.coh.commits = (settleStreams h u).coh.commits ∧ w.coh.queued = (settleStreams h u).coh.queued
        ∧ w.coh.net = (settleStreams h u).coh.net ∧ w.coh.remote = (settleStreams h u).coh.remote := by
      rw [hpush.rest, recordedState_coh]
      exact ⟨rfl, rfl, rfl, rfl⟩
    obtain ⟨hc, hq, hn, hr⟩ := hcoh
    apply recordBusy_of hb
    · rw [State.modHart_coh, keepTask_coh, hc, gone.commits]
    · rw [State.modHart_coh, keepTask_coh, hq, gone.queued]
    · rw [State.modHart_coh, keepTask_coh, hn, gone.net]
    · rw [State.modHart_coh, keepTask_coh, hr]
      exact gone.answers
  have hfin : finishSave h ((keepTask w h).modHart h Hart.savedAway) = ((keepTask w h).modHart h Hart.savedAway).modHart h
      (fun x => x.withCtl (fun c => { c with saving := false, preempt := false, done := !c.serr })) := by
    unfold finishSave
    rw [hbw]
    rfl
  rw [hfin]
  refine ⟨hpush.mem.trans (by rw [recordedState_mem]), w.hartAt h, recordedState_hartAt ▸ hpush.harts h, ?_⟩
  rw [modHart_hartAt_self, modHart_hartAt_self]
  rfl

/-- A record that a partition's agents cannot write is not stored, and SERR is set. -/
theorem saveContext_not_owned (hl : (u.hartAt h).liveLeases = 0)
    (ho : spanOwned u (partOf u h) (u.hartAt h).ctl.saveBase.toNat (u.hartAt h).recordLength = false) :
    (saveContext h u).mem = u.mem ∧ (saveContext h u).hartAt h
      = (u.hartAt h).beforeSave.withCtl (fun c => { c with serr := true, preempt := false }) := by
  obtain ⟨hbase, hlen, hown⟩ := recordedState_span (u := u) (h := h)
  have hov := (hown (recordBytes (recordedState h u) h).length).trans (hlen ▸ ho)
  rw [saveContext_eq hl, hbase, hov, if_neg Bool.false_ne_true]
  refine ⟨(State.modHart_mem _ _ _).trans recordedState_mem, ?_⟩
  rw [modHart_hartAt_self, recordedState_hartAt]

end

end Sys2Proof.Machine
end

section
/-! SUPPORT. What PREEMPT_HALT leaves (R362, R370): the record at BASE, or SERR, or a hart held without a record. -/

namespace Sys2Proof.Machine

section
variable {s u : State} {h : Nat} {pc : Word} {mode : Priv}

/-! ## What halting leaves of the package -/

theorem HaltedFrom.mem (k : HaltedFrom s u h pc mode) : u.mem = s.mem := by rw [k.rest]
theorem HaltedFrom.chr (k : HaltedFrom s u h pc mode) : u.chr = s.chr := by rw [k.rest]
theorem HaltedFrom.parts (k : HaltedFrom s u h pc mode) : u.parts = s.parts := by rw [k.rest]
theorem HaltedFrom.commits (k : HaltedFrom s u h pc mode) : u.coh.commits = s.coh.commits := by rw [k.rest]
theorem HaltedFrom.queued (k : HaltedFrom s u h pc mode) : u.coh.queued = s.coh.queued := by rw [k.rest]
theorem HaltedFrom.net (k : HaltedFrom s u h pc mode) : u.coh.net = s.coh.net := by rw [k.rest]

theorem HaltedFrom.homesIdle (k : HaltedFrom s u h pc mode) (hi : HomesIdle s) : HomesIdle u := by
  obtain ⟨⟨leases, queued, commits, evicting, migs⟩, stepwise⟩ := hi
  rw [k.rest]
  exact ⟨⟨leases, queued, commits, evicting, migs⟩, stepwise⟩

theorem HaltedFrom.recordBusy (k : HaltedFrom s u h pc mode) (hb : recordBusy s h = false) : recordBusy u h = false :=
  recordBusy_of hb k.commits k.queued k.net k.answers

theorem HaltedFrom.liveLeases (k : HaltedFrom s u h pc mode) (hl : (s.hartAt h).liveLeases = 0) :
    (u.hartAt h).liveLeases = 0 := by
  unfold Hart.liveLeases at *
  rw [k.leases, hl]

theorem HaltedFrom.recordLength (k : HaltedFrom s u h pc mode) : (u.hartAt h).recordLength = (s.hartAt h).recordLength := by
  unfold Hart.recordLength Hart.declared Hart.declaredAt Hart.window Hart.grantTiles
  rw [k.windows, k.dev]

/-- Who can write the record of a halted hart. -/
theorem HaltedFrom.owned (k : HaltedFrom s u h pc mode) :
    spanOwned u (partOf u h) (u.hartAt h).ctl.saveBase.toNat (u.hartAt h).recordLength
      = spanOwned s (partOf s h) (s.hartAt h).ctl.saveBase.toNat (s.hartAt h).recordLength := by
  rw [spanOwned_of k.chr k.parts, partOf_of k.parts, k.base, k.recordLength]

/-! ## Saved, or not -/

/-- What a save leaves of a hart with the registers of `o` that halted at `pc`. -/
structure SavedHart (o y : Hart) (pc : Word) : Prop where
  parked : y.ctl.parked = true
  pcause : y.ctl.pcause = 3
  rpc : y.ctl.rpc = pc
  done : y.ctl.done = true
  serr : y.ctl.serr = false
  preempt : y.ctl.preempt = false
  saving : y.ctl.saving = false
  wlen : y.ctl.wlen = 0
  grant : y.dev.grant = 0
  windows : ∀ k, y.window k = none
  streams : ∀ k, y.stream k = none
  x : y.x = o.x
  f : y.f = o.f
  vec : y.vec = o.vec

/-- The hart after its record is performed. -/
theorem savedHart_of {y z : Hart} (hz : SeesStore y.beforeSave z) (hp : y.ctl.parked = true) :
    SavedHart y (z.savedAway.withCtl (fun c => { c with saving := false, preempt := false, done := !c.serr })) y.ctl.rpc := by
  have hc : z.ctl = y.beforeSave.ctl ∧ z.x = y.x ∧ z.f = y.f ∧ z.vec = y.vec := by
    rw [hz]
    exact ⟨rfl, rfl, rfl, rfl⟩
  obtain ⟨hctl, hx, hf, hvec⟩ := hc
  have he : z.ctl.serr = false := congrArg Ctl.serr hctl
  exact
    { parked := (congrArg Ctl.parked hctl).trans hp
      pcause := congrArg Ctl.pcause hctl
      rpc := show z.ctl.rpc = y.beforeSave.ctl.rpc from congrArg Ctl.rpc hctl
      done := congrArg not he
      serr := he
      preempt := rfl
      saving := rfl
      wlen := rfl
      grant := rfl
      windows := fun _ => Vector.getElem_replicate _
      streams := fun _ => Vector.getElem_replicate _
      x := hx
      f := hf
      vec := hvec }

/-- The record of a halted hart at BASE. -/
theorem saveContext_saved (k : HaltedFrom s u h pc mode) (hm : Memory.wf s.mem) (hl : (s.hartAt h).liveLeases = 0)
    (hi : HomesIdle s) (hb : recordBusy s h = false) (hlen : (s.hartAt h).recordLength < 2 ^ 32)
    (hf : farParts s (s.hartAt h).ctl.saveBase.toNat (s.hartAt h).recordLength = [])
    (ho : spanOwned s (partOf s h) (s.hartAt h).ctl.saveBase.toNat (s.hartAt h).recordLength = true) :
    let t := saveContext h u
    let base := (s.hartAt h).ctl.saveBase.toNat
    SavedHart (u.hartAt h) (t.hartAt h) pc
      ∧ RecordHolds t.mem base (u.hartAt h).beforeSave
      ∧ ∀ a, a < base ∨ base + (s.hartAt h).recordLength ≤ a → readByte t.mem a = readByte s.mem a := by
  intro t base
  obtain ⟨hmem, z, hz, hy⟩ := saveContext_owned (k.liveLeases hl) (k.homesIdle hi) (k.recordBusy hb) (k.owned.trans ho)
    (by rw [farParts_of k.chr, k.base, k.recordLength, hf])
  rw [k.base, k.mem] at hmem
  have hrec : (recordedState h u).hartAt h = (u.hartAt h).beforeSave := recordedState_hartAt
  refine ⟨?_, ?_, fun a ha => ?_⟩
  · rw [show t.hartAt h = _ from hy, ← k.rpc]
    exact savedHart_of hz k.parked
  · rw [show t.mem = _ from hmem, ← hrec]
    refine recordHolds hm _ ?_
    rw [hrec]
    exact k.recordLength.trans_lt hlen
  · rw [show t.mem = _ from hmem]
    refine readByte_writeBytes_ne _ _ _ _ ?_
    rw [length_recordBytes, hrec, show (u.hartAt h).beforeSave.recordLength = _ from k.recordLength]
    exact ha

/-- SERR instead of a record. -/
theorem saveContext_refused (k : HaltedFrom s u h pc mode) (hl : (s.hartAt h).liveLeases = 0)
    (ho : spanOwned s (partOf s h) (s.hartAt h).ctl.saveBase.toNat (s.hartAt h).recordLength = false) :
    let t := saveContext h u
    t.mem = s.mem ∧ (t.hartAt h).ctl.parked = true ∧ (t.hartAt h).ctl.pcause = 3 ∧ (t.hartAt h).ctl.rpc = pc
      ∧ (t.hartAt h).ctl.serr = true ∧ (t.hartAt h).ctl.done = false ∧ (t.hartAt h).ctl.preempt = false := by
  intro t
  obtain ⟨hmem, hy⟩ := saveContext_not_owned (k.liveLeases hl) (k.owned.trans ho)
  refine ⟨hmem.trans k.mem, ?_⟩
  rw [show t.hartAt h = _ from hy]
  exact ⟨k.parked, rfl, k.rpc, rfl, rfl, rfl⟩

/-! ## PREEMPT_HALT -/

/-- No region waits in a migration where there is none. -/
theorem spanReady_of_no_migs (hm : s.coh.migs = []) (a n : Nat) : spanReady s a n = true := by
  unfold spanReady forward migrationOf
  rw [List.all_eq_true, hm]
  intro i _
  rfl

theorem saveReady_of (hh : holdsHalt s h = false) (hp : passWaits s h = false)
    (hd : ∀ d ∈ (s.dieAt (dieOf h)).deliveries, d.hart ≠ h) (hm : s.coh.migs = []) : saveReady s h = true := by
  have hany : (s.dieAt (dieOf h)).deliveries.any (fun d => d.hart == h) = false := by
    rw [List.any_eq_false]
    intro d hm
    rw [beq_iff_eq]
    exact hd d hm
  unfold saveReady
  dsimp only
  rw [hh, hp, hany, spanReady_of_no_migs hm]
  rfl

section
variable (hk : kindOf h = .compute) (hh : holdsHalt s h = false) (hw : passWaits s h = false)
include hk hh hw

/-- A parked hart that is to be pre-empted is saved as it stands. -/
theorem preemptHalt_parked (hp : (s.hartAt h).ctl.preempt = true) (hd : ∀ d ∈ (s.dieAt (dieOf h)).deliveries, d.hart ≠ h)
    (hm : s.coh.migs = []) (hpark : (s.hartAt h).ctl.parked = true) (hs : (s.hartAt h).ctl.saving = false) :
    exec (.preemptHalt h 0) s = .next (saveContext h s) := by
  show execPreemptHalt h 0 s = _
  unfold execPreemptHalt
  simp [hk, hp, hpark, hs, saveReady_of hh hw hd hm]

/-- A running hart halts at boundary 0 of its word before anything else. -/
theorem preemptHalt_running (hd : (s.hartAt h).ctl.preempt = true ∨ (s.hartAt h).ctl.shedDue = true)
    (hpark : (s.hartAt h).ctl.parked = false) (ha : (s.hartAt h).ctl.asks = false) :
    exec (.preemptHalt h 0) s = if (s.hartAt h).ctl.preempt then
        if saveReady s h then .next (saveContext h (haltHart h 3 s)) else .next s
      else .next (heldHalt h s) := by
  have hrun : asAgent h (runBounded 0) s = s := by
    unfold asAgent
    rw [runBounded_zero]
  have hdue : ((s.hartAt h).ctl.preempt || (s.hartAt h).ctl.shedDue) = true := by rwa [Bool.or_eq_true]
  show execPreemptHalt h 0 s = _
  unfold execPreemptHalt
  simp [hk, hdue, hpark, ha, hh, hw, hrun]

end

/-! ## A hart held without a record -/

theorem hartAt_of_harts {s t : State} (hh : t.harts = s.harts) (k : Nat) : t.hartAt k = s.hartAt k := by
  unfold State.hartAt
  rw [hh]

theorem endForce_keeps (c : Nat) (s : State) : (endForce c s).mem = s.mem ∧ (endForce c s).harts = s.harts := by
  unfold endForce
  dsimp only
  split <;> exact ⟨rfl, rfl⟩

theorem releaseIsland_keeps (s : State) (i : Nat) :
    (releaseIsland s i).mem = s.mem ∧ (releaseIsland s i).harts = s.harts := by
  unfold releaseIsland
  split <;> exact ⟨rfl, rfl⟩

/-- What the end of the grace or a forced quiesce leaves of a hart. -/
theorem heldHalt_spec (hl : (s.hartAt h).liveLeases = 0) (hu : (s.hartAt h).uiDue = none) :
    let t := heldHalt h s
    let x := s.hartAt h
    t.mem = s.mem ∧ (t.hartAt h).ctl.parked = true ∧ (t.hartAt h).ctl.pcause = 4 ∧ (t.hartAt h).ctl.rpc = x.pc
      ∧ (t.hartAt h).ctl.mode = x.priv ∧ (t.hartAt h).ctl.shedDue = false ∧ (t.hartAt h).x = x.x ∧ (t.hartAt h).vec = x.vec := by
  intro t x
  have hhalt : (haltHart h 4 s).hartAt h = x.haltedAt 4 := by
    rw [haltHart_eq hl hu, modHart_hartAt_self]
    rfl
  have hkeep : t.mem = (haltHart h 4 s).mem ∧ ∃ p q c, t.hartAt h = (x.haltedAt 4).withCtl (fun d => { d with
      heldShed := p
      heldQuiesce := q
      shedDue := false
      shedClass := c }) := by
    have hset : ∀ y v, v.mem = ((haltHart h 4 s).setHartAt h y).mem ∧ v.harts = ((haltHart h 4 s).setHartAt h y).harts →
        (endForce (clusterOf h) v).mem = (haltHart h 4 s).mem ∧ (endForce (clusterOf h) v).hartAt h = y := by
      rintro y v ⟨hm, hh⟩
      obtain ⟨em, eh⟩ := endForce_keeps (clusterOf h) v
      exact ⟨em.trans hm, (hartAt_of_harts (eh.trans hh) h).trans (State.hartAt_setHartAt_self _ _ _)⟩
    show (heldHalt h s).mem = _ ∧ ∃ p q c, (heldHalt h s).hartAt h = _
    unfold heldHalt
    dsimp only
    rw [hhalt]
    split
    · obtain ⟨hm, hh⟩ := hset _ _ ⟨rfl, rfl⟩
      exact ⟨hm, _, _, _, hh⟩
    · obtain ⟨hm, hh⟩ := hset _ _ (releaseIsland_keeps _ _)
      exact ⟨hm, _, _, _, hh⟩
  obtain ⟨hmem, p, q, c, hy⟩ := hkeep
  refine ⟨hmem.trans (haltedFrom_haltHart hl hu 4).mem, ?_⟩
  rw [hy]
  exact ⟨rfl, rfl, rfl, rfl, rfl, rfl, rfl⟩

end

end Sys2Proof.Machine
end

section
/-! SUPPORT. Restore (R365): what RESTORE_COMPLETE leaves of the hart and of the others. -/

namespace Sys2Proof.Machine

/-! ## The registers of the record -/

section
variable (x : Hart) (req : Word) (avl : Option Word)

theorem configure_x : (x.configure req avl).x = x.x := by
  unfold Hart.configure
  split <;> rfl

theorem configure_f : (x.configure req avl).f = x.f := by
  unfold Hart.configure
  split <;> rfl

theorem configure_fcsr : (x.configure req avl).fcsr = x.fcsr := by
  unfold Hart.configure
  split <;> rfl

theorem configure_ctl : (x.configure req avl).ctl = x.ctl := by
  unfold Hart.configure
  split <;> rfl

end

/-- What a hart holds of a record whose words are `w`, and whose registers are `reg`. -/
structure LoadedHart (y : Hart) (w : Nat → Word) (reg : Nat → VReg) : Prop where
  x : ∀ i, (hi : i < 32) → 0 < i → y.x[i] = w (0x10 + 8 * i)
  zero : y.x[0] = 0
  f : ∀ i, (hi : i < 32) → y.f[i] = w (0x110 + 8 * i)
  fcsr : y.fcsr = (w 0x210).setWidth 8
  velem : y.vec.velem = (w 0x228).setWidth 14
  v : ∀ r, (hr : r < 32) → y.vec.v[r] = reg r
  m : ∀ r, (hr : r < 8) → y.vec.m[r] = reg (32 + r)
  task : y.dev.task = w 0x248

theorem LoadedHart.of_eq {y z : Hart} {w : Nat → Word} {reg : Nat → VReg} (k : LoadedHart z w reg) (hx : y.x = z.x)
    (hf : y.f = z.f) (hc : y.fcsr = z.fcsr) (hv : y.vec = z.vec) (ht : y.dev.task = z.dev.task) : LoadedHart y w reg := by
  obtain ⟨x, zero, f, fcsr, velem, v, m, task⟩ := k
  refine ⟨?_, ?_, ?_, hc.trans fcsr, ?_, ?_, ?_, ht.trans task⟩
  · rwa [hx]
  · rwa [hx]
  · rwa [hf]
  · rwa [hv]
  · rwa [hv]
  · rwa [hv]

section
variable (x : Hart) (w : Nat → Word) (reg : Nat → VReg)

theorem loadRecord_x : (x.loadRecord w reg).x = .ofFn (fun i => if i.val = 0 then 0 else w (0x18 + 8 * (i.val - 1))) := by
  unfold Hart.loadRecord
  exact configure_x _ _ _

theorem loadRecord_f : (x.loadRecord w reg).f = .ofFn (fun i => w (0x110 + 8 * i.val)) := by
  unfold Hart.loadRecord
  exact configure_f _ _ _

theorem loadRecord_fcsr : (x.loadRecord w reg).fcsr = (w 0x210).setWidth 8 := by
  unfold Hart.loadRecord
  exact configure_fcsr _ _ _

theorem loadRecord_ctl : (x.loadRecord w reg).ctl = x.ctl := by
  unfold Hart.loadRecord
  exact configure_ctl _ _ _

theorem loadRecord_loaded : LoadedHart (x.loadRecord w reg) w reg := by
  refine ⟨fun i hi h0 => ?_, ?_, fun i hi => ?_, loadRecord_fcsr x w reg, rfl, fun r hr => ?_, fun r hr => ?_, rfl⟩
  · have he : 0x18 + 8 * (i - 1) = 0x10 + 8 * i := by omega
    simp only [loadRecord_x, Vector.getElem_ofFn, if_neg (show ¬ i = 0 by omega), he]
  · simp only [loadRecord_x, Vector.getElem_ofFn, if_true]
  · simp only [loadRecord_f, Vector.getElem_ofFn]
  · exact Vector.getElem_ofFn (f := fun i : Fin 32 => reg i.val) hr
  · exact Vector.getElem_ofFn (f := fun i : Fin 8 => reg (32 + i.val)) hr

end

/-! ## The context -/

/-- Placing windows changes only the window slots. -/
theorem placeWindows_ctl {kept : Option Away} {w : Nat → Word} {free : Nat → Nat} {l : List Nat} {x y : Hart}
    (h : placeWindows x kept w free l = some y) : y.ctl = x.ctl := by
  induction l generalizing x with
  | nil => exact congrArg Hart.ctl (Option.some.inj h).symm
  | cons i l ih =>
    unfold placeWindows at h
    dsimp only at h
    split at h
    · exact ih h
    · split at h
      · cases h
      · exact (ih h).trans rfl

section
variable (s : State) (h f : Nat) (y : Hart)

theorem contextOf_loaded : LoadedHart (contextOf s h f y) (recordWord s h)
    (fun r => bv 8192 (physNat s (y.ctl.saveBase.toNat + 2048 + 1024 * r) 1024)) := by
  refine (loadRecord_loaded y _ _).of_eq ?_ ?_ ?_ ?_ ?_
  all_goals
    unfold contextOf
    dsimp only

/-- The control fields of a restored hart. -/
theorem contextOf_ctl : (contextOf s h f y).ctl = { y.ctl with
    rpc := recordWord s h 16
    mode := Priv.ofCode (fieldOf (recordWord s h 0) 9 2)
    recordOk := true } := by
  unfold contextOf
  dsimp only
  rw [loadRecord_ctl]

end

/-! ## Taking the context -/

theorem restoreLanes_sees (h : Nat) (l : List Window) (a : Nat) (s : State) (k : Nat) :
    SeesStore (s.hartAt k) ((restoreLanes h l a s).hartAt k) := by
  induction l generalizing a s with
  | nil => exact SeesStore.refl _
  | cons x l ih => exact (seesStore_hartAt s _ _ _ k).trans (ih _ _)

theorem forgetKept_harts (a : Option Away) (s : State) : (forgetKept a s).harts = s.harts := by
  unfold forgetKept
  split
  · rfl
  · split <;> rfl

/-- Every hart sees the stores of the lane copies; the restored one takes its context. -/
theorem takeContext_sees (h f : Nat) (y : Hart) (s : State) :
    SeesStore (contextOf s h f y) ((takeContext h f y s).hartAt h)
      ∧ ∀ k, k ≠ h → SeesStore (s.hartAt k) ((takeContext h f y s).hartAt k) := by
  unfold takeContext
  dsimp only
  generalize contextOf s h f y = z
  generalize hc : s.setCoreAt _ _ = c
  have harts : (forgetKept (keptOf c h) (c.setHartAt h z)).harts = (c.setHartAt h z).harts := forgetKept_harts _ _
  have hk : ∀ k, k ≠ h → (c.setHartAt h z).hartAt k = s.hartAt k := by
    intro k hk
    rw [State.hartAt_setHartAt_ne _ _ _ _ hk, ← hc]
    rfl
  generalize forgetKept (keptOf c h) (c.setHartAt h z) = v at harts
  have hsee := restoreLanes_sees h y.declared (y.ctl.saveBase.toNat + 0xA800) { v with fresh := v.fresh + 8 }
  have hv : ∀ k, ({ v with fresh := v.fresh + 8 } : State).hartAt k = (c.setHartAt h z).hartAt k :=
    fun k => hartAt_of_harts harts k
  refine ⟨?_, fun k hkh => ?_⟩
  · have := hsee h
    rwa [hv, State.hartAt_setHartAt_self] at this
  · have := hsee k
    rwa [hv, hk k hkh] at this

/-! ## RESTORE_COMPLETE -/

theorem farParts_shorter {s : State} {a n k : Nat} (h : farParts s a n = []) (hk : k ≤ n) : farParts s a k = [] := by
  unfold farParts at *
  rw [List.filter_eq_nil_iff] at *
  intro b hb
  obtain ⟨i, hi, rfl⟩ := List.mem_map.mp hb
  have := h _ (List.mem_map.mpr ⟨i, List.mem_range.mpr (by have := List.mem_range.mp hi; omega), rfl⟩)
  rw [Bool.and_eq_true, decide_eq_true_eq, not_and] at *
  exact fun hlt => this (by omega)

/-- A span with no part on another module needs no answer from there. -/
theorem partsHere_of_near {s : State} {h a n : Nat} (hf : farParts s a n = []) : partsHere s h a n = true := by
  unfold partsHere
  rw [hf]
  rfl

theorem recordNeed_le (s : State) (h : Nat) : recordNeed s h ≤ 0x40000 := by
  unfold recordNeed
  dsimp only
  split <;> omega

/-- The state after a restore with RST. -/
def restoreEnds (h : Nat) (rst : BitVec 2) (t : State) : State :=
  (settleReads h 18 t).modHart h (fun x => x.withCtl (fun c => { c with restore := false, rst := rst }))

section
variable {s : State} {h : Nat}

theorem restoreEnds_hartAt (rst : BitVec 2) : (restoreEnds h rst s).hartAt h
    = (s.hartAt h).withCtl (fun c => { c with restore := false, rst := rst }) := by
  unfold restoreEnds
  rw [modHart_hartAt_self, (settleReads_gone h 18 s).hartAt]

theorem restoreEnds_others (rst : BitVec 2) {k : Nat} (hk : k ≠ h) : (restoreEnds h rst s).hartAt k = s.hartAt k := by
  unfold restoreEnds
  rw [State.modHart, State.hartAt_setHartAt_ne _ _ _ _ hk, (settleReads_gone h 18 s).hartAt]

/-- The state after a restore whose context is taken, finds no tiles, or is bad. -/
def restoredState (h : Nat) (s : State) : Restored → State
  | .ok t => restoreEnds h 1 t
  | .busy => restoreEnds h 2 s
  | .bad => restoreEnds h 3 s

/-- A restore whose record is in the package ends at once. -/
theorem restoreComplete_runs (hr : (s.hartAt h).ctl.restore = true) (hp : (s.hartAt h).ctl.parked = true)
    (hm : s.coh.migs = []) (hf : farParts s (s.hartAt h).ctl.saveBase.toNat 0x40000 = []) :
    exec (.restoreComplete h) s = .next (restoredState h s (restoreContext h s)) := by
  have hhere : partsHere s h (s.hartAt h).ctl.saveBase.toNat (recordNeed s h) = true :=
    partsHere_of_near (farParts_shorter hf (recordNeed_le s h))
  have hdue : restoreDue s h = true := by
    unfold restoreDue
    simp [hr, hp, spanReady_of_no_migs hm, hhere]
  show execRestoreComplete h s = _
  unfold execRestoreComplete
  simp only [hdue, hhere, Bool.not_true, Bool.false_and, Bool.false_eq_true, if_false]
  cases restoreContext h s <;> rfl

/-- The hart whose windows are placed as the record says, where they fit. -/
def placedHart (s : State) (h : Nat) : Option Hart :=
  placeWindows (s.hartAt h).dropWindows (keptOf s h) (recordWord s h) (fun i => Config.freeNat (s.fresh + i)) [0, 1, 2, 3]

theorem placedHart_ctl {y : Hart} (hy : placedHart s h = some y) : y.ctl = (s.hartAt h).ctl := by
  unfold placedHart at hy
  have := placeWindows_ctl hy
  exact this

theorem restoreContext_bad (hb : recordValid s h = false ∨ placedHart s h = none) : restoreContext h s = .bad := by
  unfold placedHart at hb
  unfold restoreContext
  rcases hb with hv | hn
  · rw [hv]
    rfl
  · rw [hn]
    exact ite_self _

section
variable (hv : recordValid s h = true) {y : Hart} (hy : placedHart s h = some y)
include hv hy

theorem restoreContext_busy (hn : recordRun s h = none) : restoreContext h s = .busy := by
  unfold placedHart at hy
  unfold restoreContext
  rw [hv, hy, hn]
  rfl

theorem restoreContext_ok {f : Nat} (hf : recordRun s h = some f) : restoreContext h s = .ok (takeContext h f y s) := by
  unfold placedHart at hy
  unfold restoreContext
  rw [hv, hy, hf]
  rfl

end

/-- Of memory and the harts only hart `h` is changed. -/
def SetsHart (s : State) (h : Nat) (y : Hart) (t : State) : Prop :=
  t.mem = s.mem ∧ t.hartAt h = y ∧ ∀ k, k ≠ h → t.hartAt k = s.hartAt k

theorem restoreEnds_sets (rst : BitVec 2) :
    SetsHart s h ((s.hartAt h).withCtl (fun c => { c with restore := false, rst := rst })) (restoreEnds h rst s) :=
  ⟨rfl, restoreEnds_hartAt rst, fun _ hk => restoreEnds_others rst hk⟩

/-- A context that is taken: the record's registers, and RST OK. -/
theorem restored_ok {f : Nat} {y : Hart} (hy : placedHart s h = some y) (hp : (s.hartAt h).ctl.parked = true) :
    let t := restoreEnds h 1 (takeContext h f y s)
    LoadedHart (t.hartAt h) (recordWord s h)
        (fun r => bv 8192 (physNat s ((s.hartAt h).ctl.saveBase.toNat + 2048 + 1024 * r) 1024))
      ∧ (t.hartAt h).ctl.rst = 1 ∧ (t.hartAt h).ctl.restore = false ∧ (t.hartAt h).ctl.recordOk = true
      ∧ (t.hartAt h).ctl.parked = true ∧ (t.hartAt h).ctl.rpc = recordWord s h 0x10
      ∧ (t.hartAt h).ctl.mode = Priv.ofCode (fieldOf (recordWord s h 0) 9 2)
      ∧ ∀ k, k ≠ h → SeesStore (s.hartAt k) (t.hartAt k) := by
  intro t
  have hctl := placedHart_ctl hy
  obtain ⟨hsee, hothers⟩ := takeContext_sees h f y s
  have hload := contextOf_loaded s h f y
  have hcc := contextOf_ctl s h f y
  rw [hctl] at hload hcc
  have ht : t.hartAt h = _ := restoreEnds_hartAt (s := takeContext h f y s) 1
  rw [ht]
  generalize (takeContext h f y s).hartAt h = z at hsee
  generalize contextOf s h f y = c at hsee hload hcc
  have hz : z.ctl = c.ctl ∧ z.x = c.x ∧ z.f = c.f ∧ z.fcsr = c.fcsr ∧ z.vec = c.vec ∧ z.dev = c.dev := by
    rw [hsee]
    exact ⟨rfl, rfl, rfl, rfl, rfl, rfl⟩
  obtain ⟨zc, zx, zf, zfcsr, zv, zd⟩ := hz
  have hzc := zc.trans hcc
  have hok : z.ctl.recordOk = true := by rw [hzc]
  have hparked : z.ctl.parked = true := by rw [hzc, hp]
  have hrpc : z.ctl.rpc = recordWord s h 0x10 := by rw [hzc]
  have hmode : z.ctl.mode = Priv.ofCode (fieldOf (recordWord s h 0) 9 2) := by rw [hzc]
  refine ⟨hload.of_eq zx zf zfcsr zv (congrArg Dev.task zd), rfl, rfl, hok, hparked, hrpc, hmode, fun k hk => ?_⟩
  · rw [show t.hartAt k = _ from restoreEnds_others 1 hk]
    exact hothers k hk

end

/-! ## Waking and the requests -/

section
variable {s : State} {h : Nat}

theorem setsHart_setHartAt (s : State) (h : Nat) (y : Hart) : SetsHart s h y (s.setHartAt h y) :=
  ⟨rfl, State.hartAt_setHartAt_self s h y, fun k hk => State.hartAt_setHartAt_ne s h k y hk⟩

/-- Retention is no part of the harts. -/
theorem SetsHart.leaveRetention {t : State} {y : Hart} (k : SetsHart s h y t) (i : Nat) :
    SetsHart s h y (leaveRetention t i) := k

/-- When a WAKE resumes a compute hart (R150, R362, R371). -/
def Wakes (s : State) (h : Nat) : Prop :=
  let c := (s.hartAt h).ctl
  c.parked = true ∧ isDead s h = false
    ∧ (c.pcause = 0 ∨ c.pcause = 1 ∨ c.pcause = 2 ∨ (c.pcause = 3 ∧ c.recordOk = true))

theorem hartCtlWake_wakes (hk : kindOf h = .compute) (hw : Wakes s h) :
    Ends (.hartCtlWake h) s (SetsHart s h (s.hartAt h).unpark) := by
  have hrun : exec (.hartCtlWake h) s = .next (leaveRetention (s.setHartAt h (s.hartAt h).unpark) (islandOf h)) := by
    show execHartCtlWake h s = _
    unfold execHartCtlWake wakeHart
    unfold Wakes at hw
    dsimp only at hw ⊢
    rw [if_pos hk, if_pos]
    simpa [and_assoc, or_assoc] using hw
  exact ⟨_, hrun, (setsHart_setHartAt s h _).leaveRetention _⟩

theorem hartCtlWake_ignored (hk : kindOf h = .compute) (hw : ¬ Wakes s h) : exec (.hartCtlWake h) s = .next s := by
  show execHartCtlWake h s = _
  unfold execHartCtlWake wakeHart
  dsimp only
  rw [if_pos hk, if_neg]
  intro hc
  apply hw
  unfold Wakes
  simpa [and_assoc, or_assoc] using hc

theorem scCtlWake_wakes (hk : kindOf h = .system) (hw : (s.hartAt h).ctl.parked = true ∧ isDead s h = false) :
    Ends (.scCtlWake h) s (SetsHart s h { (s.hartAt h).unpark with priv := .m }) := by
  have hrun : exec (.scCtlWake h) s = .next (s.setHartAt h { (s.hartAt h).unpark with priv := .m }) := by
    show execScCtlWake h s = _
    unfold execScCtlWake wakeSystem
    simp [hk, hw]
  exact ⟨_, hrun, setsHart_setHartAt s h _⟩

theorem scCtlWake_ignored (hk : kindOf h = .system) (hw : ¬ ((s.hartAt h).ctl.parked = true ∧ isDead s h = false)) :
    exec (.scCtlWake h) s = .next s := by
  show execScCtlWake h s = _
  unfold execScCtlWake wakeSystem
  dsimp only
  rw [if_pos hk, if_neg]
  simpa using hw

/-- PREEMPT is a request, or SERR where the cluster's clocks are stopped. -/
theorem preempt_runs (hk : kindOf h = .compute) : exec (.preempt h) s = .next (requestPreempt h s) := if_pos hk

theorem preempt_sets (hk : kindOf h = .compute) (hc : (s.clusterAt (clusterOf h)).clkOff = false) :
    Ends (.preempt h) s (SetsHart s h ((s.hartAt h).withCtl (fun c => { c with preempt := true }))) := by
  refine ⟨_, preempt_runs hk, ?_⟩
  unfold requestPreempt
  rw [hc]
  exact setsHart_setHartAt s h _

theorem preempt_fails (hk : kindOf h = .compute) (hc : (s.clusterAt (clusterOf h)).clkOff = true) :
    Ends (.preempt h) s (SetsHart s h ((s.hartAt h).withCtl (fun c => { c with serr := true }))) := by
  refine ⟨_, preempt_runs hk, ?_⟩
  unfold requestPreempt
  rw [hc]
  exact setsHart_setHartAt s h _

/-- When a RESTORE is accepted (R365). -/
def RestoreAccepted (s : State) (h : Nat) : Prop :=
  let c := (s.hartAt h).ctl
  c.parked = true ∧ isDead s h = false ∧ (c.pcause = 0 ∨ c.pcause = 3) ∧ c.preempt = false
    ∧ (s.clusterAt (clusterOf h)).clkOff = false ∧ (c.done = true ∨ c.rst ≠ 0)

theorem restore_accepted (hk : kindOf h = .compute) (ha : RestoreAccepted s h) :
    Ends (.restore h) s (SetsHart s h ((s.hartAt h).withCtl (fun c => { c with restore := true }))) := by
  have hrun : exec (.restore h) s = .next (s.modHart h (fun x => x.withCtl (fun c => { c with restore := true }))) := by
    show execRestore h s = _
    unfold execRestore requestRestore
    unfold RestoreAccepted at ha
    dsimp only at ha ⊢
    rw [if_pos hk, if_pos]
    simpa [and_assoc] using ha
  exact ⟨_, hrun, setsHart_setHartAt s h _⟩

theorem restore_ignored (hk : kindOf h = .compute) (ha : ¬ RestoreAccepted s h) : exec (.restore h) s = .next s := by
  show execRestore h s = _
  unfold execRestore requestRestore
  dsimp only
  rw [if_pos hk, if_neg]
  intro hc
  apply ha
  unfold RestoreAccepted
  simpa [and_assoc] using hc

/-! ## The obligation -/

/-- A hart that is to be pre-empted is halted, or stays so, and is saved. -/
theorem preemptHalt_saves (hk : kindOf h = .compute) (hp : (s.hartAt h).ctl.preempt = true) (hh : holdsHalt s h = false)
    (hw : passWaits s h = false) (hd : ∀ d ∈ (s.dieAt (dieOf h)).deliveries, d.hart ≠ h) (hm : s.coh.migs = [])
    (hl : (s.hartAt h).liveLeases = 0)
    (hstate : (s.hartAt h).ctl.parked = true ∧ (s.hartAt h).ctl.saving = false
      ∨ ((s.hartAt h).ctl.parked = false ∧ (s.hartAt h).ctl.asks = false ∧ (s.hartAt h).uiDue = none)) :
    ∃ u, exec (.preemptHalt h 0) s = .next (saveContext h u)
      ∧ HaltedFrom s u h (if (s.hartAt h).ctl.parked then (s.hartAt h).ctl.rpc else (s.hartAt h).pc)
        (if (s.hartAt h).ctl.parked then (s.hartAt h).ctl.mode else (s.hartAt h).priv) := by
  rcases hstate with ⟨hpark, hs⟩ | ⟨hpark, ha, hu⟩
  · rw [if_pos hpark, if_pos hpark]
    exact ⟨s, preemptHalt_parked hk hh hw hp hd hm hpark hs, haltedFrom_parked hpark⟩
  · have hrun := preemptHalt_running hk hh hw (.inl hp) hpark ha
    rw [hp, saveReady_of hh hw hd hm] at hrun
    rw [hpark]
    exact ⟨haltHart h 3 s, hrun, haltedFrom_haltHart hl hu 3⟩

/-- Settles O51: a save stores its record region by region, and a restore takes the registers of the record. -/
theorem contexts : Obligations.Contexts := by
  unfold Obligations.Contexts
  intro s h hm x base sets wakes
  refine ⟨fun hk => ⟨hartCtlWake_wakes hk, hartCtlWake_ignored hk⟩, fun hk => ⟨scCtlWake_wakes hk, scCtlWake_ignored hk⟩,
    fun hk => ⟨preempt_sets hk, preempt_fails hk, restore_accepted hk, restore_ignored hk⟩, ?save, ?held, ?restore⟩
  case save =>
    intro hk hp hh hw hd hi hb hl hstate pc mode len hlen hf
    obtain ⟨u, hrun, k⟩ := preemptHalt_saves hk hp hh hw hd hi.free.migs hl hstate
    refine ⟨fun ho => ⟨_, hrun, ?_⟩, fun ho => ⟨_, hrun, saveContext_refused k hl ho⟩⟩
    obtain ⟨saved, record, outside⟩ := saveContext_saved k hm hl hi hb hlen hf ho
    obtain ⟨parked, pcause, rpc, done, serr, preempt, saving, wlen, grant, windows, streams, yx, yf, yvec⟩ := saved
    obtain ⟨rlen, rmode, rpc', rx, rf, rfcsr, rvl, rvtype, rvelem, rvpfx, rtask, rchan, rv, rm⟩ := record
    have hx : (u.hartAt h).beforeSave.x = x.x := k.x
    have hxf : (u.hartAt h).beforeSave.f = x.f := k.f
    have hfcsr : (u.hartAt h).beforeSave.fcsr = x.fcsr := k.fcsr
    have hvec : (u.hartAt h).beforeSave.vec = x.vec := k.vec
    have hdev : (u.hartAt h).beforeSave.dev = x.dev := k.dev
    simp only [hx, hxf, hfcsr, hvec, hdev] at rx rf rfcsr rvl rvtype rvelem rvpfx rtask rchan rv rm
    exact ⟨parked, pcause, rpc, done, serr, preempt, saving, wlen, grant, windows, streams, yx.trans k.x, yf.trans k.f,
      yvec.trans k.vec, rlen.trans k.recordLength, rmode.trans k.mode, rpc'.trans k.rpc, rx, rf, rfcsr, rvl, rvtype, rvelem,
      rvpfx, rtask, rchan, rv, rm, outside⟩
  case held =>
    intro hk hp hs hpark ha hh hw hl hu _
    have hrun := preemptHalt_running hk hh hw (.inr hs) hpark ha
    rw [hp] at hrun
    exact ⟨_, hrun, heldHalt_spec hl hu⟩
  case restore =>
    intro hr hp hmigs hf free placing ends
    have hrun := restoreComplete_runs hr hp hmigs hf
    refine ⟨fun hbad => ?_, fun hv hy hn => ?_, fun hv hy hn => ?_⟩
    · rw [restoreContext_bad hbad] at hrun
      exact ⟨_, hrun, restoreEnds_sets 3⟩
    · obtain ⟨y, hy⟩ := Option.ne_none_iff_exists'.mp hy
      rw [restoreContext_busy hv hy hn] at hrun
      exact ⟨_, hrun, restoreEnds_sets 2⟩
    · obtain ⟨y, hy⟩ := Option.ne_none_iff_exists'.mp hy
      obtain ⟨f, hf⟩ := Option.ne_none_iff_exists'.mp hn
      rw [restoreContext_ok hv hy hf] at hrun
      obtain ⟨⟨rx, rzero, rf, rfcsr, rvelem, rv, rm, rtask⟩, hrst, hrestore, hok, hparked, hrpc, hmode, hothers⟩ :=
        restored_ok (f := f) hy hp
      refine ⟨_, hrun, hrst, hrestore, hok, hparked, hrpc, hmode, rx, rzero, rf, rfcsr, rvelem, rv, ?_, rtask, hothers⟩
      intro r hr
      rw [show base + 0x8800 + 1024 * r = base + 2048 + 1024 * (32 + r) by omega]
      exact rm r hr

end

end Sys2Proof.Machine
end
